-- ==== Sys2Proof/Word.lean ====
section
/-! DEFINITION. The widths of the Ninel TX7: words, addresses, numbers of cores, tenancies, stacks, ports, channels and functions. -/

namespace Sys2Proof

/-- A 256-bit word of a store, a path or HBM (12 R300). -/
abbrev Word := BitVec 256

/-- A 64-bit register or tally value (00 R6, 09 R228). -/
abbrev Reg := BitVec 64

/-- A virtual core, 8y + x (10 Table 10.6). -/
abbrev Core := Fin 64

/-- A tenancy number (19 R500). -/
abbrev Ten := Fin 8

/-- An HBM stack H0 to H7 (01 R11). -/
abbrev Stack := Fin 8

/-- A fabric port (13 R335). -/
abbrev Port := Fin 16

/-- A function: 0 the PF, n the VF n (18 Table 18.3). -/
abbrev Fn := Fin 9

/-- A channel number of a tenancy (13 R345); 4,095 is the control flow. -/
abbrev Chan := BitVec 12

/-- Bits [hi:lo] of a word (00 R5). -/
def bits {n : Nat} (w : BitVec n) (hi lo : Nat) : BitVec (hi + 1 - lo) :=
  w.extractLsb' lo (hi + 1 - lo)

/-- Bits [hi:lo] of a word as a number. -/
def bitsN {n : Nat} (w : BitVec n) (hi lo : Nat) : Nat := (bits w hi lo).toNat

/-- Bit i of a word. -/
def bitB {n : Nat} (w : BitVec n) (i : Nat) : Bool := w.getLsbD i

/-- A field read as a signed number (two's complement). -/
def bitsS {n : Nat} (w : BitVec n) (hi lo : Nat) : Int := (bits w hi lo).toInt

/-- The word `w` with bits [lo + k - 1 : lo] replaced by `v`. -/
def putBits {n k : Nat} (w : BitVec n) (lo : Nat) (v : BitVec k) : BitVec n :=
  let mask : BitVec n := (BitVec.ofNat n (2 ^ k - 1)) <<< lo
  (w &&& ~~~mask) ||| ((BitVec.ofNat n v.toNat) <<< lo)

end Sys2Proof
end

