-- ==== Sys2Proof/Syntax.lean ====
section
/-! DEFINITION. The commands of the Ninel TX7: one constructor for each row of spec/opcode_table.json, with the operands its rule gives it. -/

namespace Sys2Proof

/-- Operands of a VX instruction (11 R292). `count` 0 encodes 4,096. -/
structure VxArgs where
  desc  : BitVec 10
  count : BitVec 12
  bf16  : Bool
deriving DecidableEq, Repr

/-- Operands of a row operation (11 R295). `rows` and `w32` 0 encode 4,096. -/
structure RowArgs where
  desc  : BitVec 10
  rows  : BitVec 12
  w32   : BitVec 12
  flags : BitVec 6
deriving DecidableEq, Repr

/-- A word on a path: its data and the syndrome its check bits leave (12 R302): 0 clean, 0xFFFF poisoned. -/
structure MemWord where
  data : BitVec 256
  syn  : BitVec 16
deriving DecidableEq, Repr

/-- A Hjelzal frame as the fabric die sees it (13 Tables 13.3 and 13.4); the MAC addresses give `plane`. -/
structure Frame where
  ver     : BitVec 4
  kind    : BitVec 4
  src     : BitVec 16
  dst     : BitVec 16
  plane   : BitVec 4
  chan    : BitVec 12
  ten     : BitVec 3
  hm      : Bool
  epoch   : BitVec 32
  seq     : BitVec 24
  ack     : BitVec 24
  ackv    : Bool
  credit  : BitVec 8
  job     : BitVec 16
  port    : BitVec 4
  late    : Bool
  vlan    : BitVec 12
  pcp     : BitVec 3
  payload : List MemWord
  hall    : BitVec 64
deriving DecidableEq, Repr

/-- The header of a ledger request as the device reads its slot (18 Table 18.3). `reserved` says that a reserved
byte, or FLAGS where the kind does not use it, is not zero. -/
structure Req where
  fn       : Fn
  tag      : BitVec 16
  reserved : Bool
deriving DecidableEq, Repr

/-- The readings of one course (17 R463, 21 R573): the largest compute-die sensor and the eight stacks, in 0.25 °C -/
structure Temps where
  tj     : BitVec 12
  hbm    : List (BitVec 12)
deriving DecidableEq, Repr

/-- Sub-operations of TIME_SETUP (18 Table 18.4). -/
inductive TimeOp where
  /-- The parent, its probe schedule and the size of the parent's child set and of the path to the master (09 R231). -/
  | parent (id : BitVec 16) (schedule : BitVec 32) (children hops : BitVec 16)
  /-- A child of this chip, its port and probe schedule (13 R358). -/
  | child (id : BitVec 16) (port : Port) (schedule : BitVec 32)
  | timeBase (seconds : BitVec 48)
  | ptp (grandmaster : Bool) (clockClass : BitVec 8)
  | ppsOffset (ticks : BitVec 31)
  | tallyCtl (portA portB : BitVec 4) (masterPri : BitVec 8)
deriving DecidableEq, Repr

/-- What a firmware slot's header says, and what the checks of 18 R497 find on the image as a whole. -/
structure FwImage where
  sequence : BitVec 32
  security : BitVec 8
  key      : BitVec 2
  digestOk : Bool
  sigOk    : Bool
deriving DecidableEq, Repr

/-- What the boot hardware finds (21 Tables 21.7 and 21.8): every reading the stages act on. -/
structure BootReadings where
  straps      : BitVec 8
  railsBad    : BitVec 8
  sysClock    : Bool
  fabClock    : Bool
  pcieClock   : Bool
  calibration : Bool
  pmbusBad    : BitVec 8
  setpoint    : Bool
  d2dBad      : BitVec 11
  pllLock     : Bool
  stackBad    : BitVec 8
  fabricStart : Bool
  tj          : BitVec 12
deriving DecidableEq, Repr

/-- A rail (21 Table 21.2, PMBus address minus 0x40). -/
inductive Rail where
  | core | sram | fab | hbmc | hbmq | vpp | mgmt | io
deriving DecidableEq, Repr

/-- A die-to-die connection: a stack or one of the other dies (21 Table 21.8, stage 0x05). -/
inductive Conn where
  | stack (s : Stack) | fabricA | fabricB | host
deriving DecidableEq, Repr

/-- The result an assay reports (18 Table 18.10). -/
structure AssayResult where
  kind    : BitVec 4
  outcome : BitVec 4
  target  : BitVec 16
  errors  : BitVec 32
  time    : BitVec 32
  first   : BitVec 40
deriving DecidableEq, Repr

/-- The commands. -/
inductive Instr where
  /-- The core's next bundle issues (10 R248). -/
  | bundleIssue (c : Core)
  /-- A course boundary, with the temperatures sampled for the course (10 R276, 17 R463). -/
  | courseBoundary (t : Temps)
  | mrun (c : Core) (desc : BitVec 10)
  | malt (c : Core) (desc0 desc1 : BitVec 10)
  | mpre (c : Core) (desc : BitVec 10)
  | mdrn (c : Core) (desc : BitVec 10) (bank release : Bool)
  | mrel (c : Core) (desc : BitVec 10) (bank : Bool)
  | add (c : Core) (a : VxArgs)
  | sub (c : Core) (a : VxArgs)
  | mul (c : Core) (a : VxArgs)
  | fma (c : Core) (a : VxArgs)
  | fnma (c : Core) (a : VxArgs)
  | min (c : Core) (a : VxArgs)
  | max (c : Core) (a : VxArgs)
  | neg (c : Core) (a : VxArgs)
  | abs (c : Core) (a : VxArgs)
  | cmplt (c : Core) (a : VxArgs)
  | cmple (c : Core) (a : VxArgs)
  | cmpeq (c : Core) (a : VxArgs)
  | sel (c : Core) (a : VxArgs)
  | drop (c : Core) (a : VxArgs)
  | cvt (c : Core) (a : VxArgs)
  | div (c : Core) (a : VxArgs)
  | rcp (c : Core) (a : VxArgs)
  | sqrt (c : Core) (a : VxArgs)
  | rsqrt (c : Core) (a : VxArgs)
  | exp2 (c : Core) (a : VxArgs)
  | exp (c : Core) (a : VxArgs)
  | log2 (c : Core) (a : VxArgs)
  | ln (c : Core) (a : VxArgs)
  | ln1p (c : Core) (a : VxArgs)
  | tanh (c : Core) (a : VxArgs)
  | erf (c : Core) (a : VxArgs)
  | sigmoid (c : Core) (a : VxArgs)
  | silu (c : Core) (a : VxArgs)
  | gelu (c : Core) (a : VxArgs)
  | geluT (c : Core) (a : VxArgs)
  | softplus (c : Core) (a : VxArgs)
  | relu (c : Core) (a : VxArgs)
  | dsigmoid (c : Core) (a : VxArgs)
  | dtanh (c : Core) (a : VxArgs)
  | dsilu (c : Core) (a : VxArgs)
  | dgelu (c : Core) (a : VxArgs)
  | dgeluT (c : Core) (a : VxArgs)
  | dsoftplus (c : Core) (a : VxArgs)
  | drelu (c : Core) (a : VxArgs)
  | rnorm (c : Core) (a : RowArgs)
  | rnormb (c : Core) (a : RowArgs)
  | rsmax (c : Core) (a : RowArgs)
  | rsmaxb (c : Core) (a : RowArgs)
  | rfold (c : Core) (a : RowArgs)
  | rxent (c : Core) (a : RowArgs)
  | rroute (c : Core) (a : RowArgs)
  | rrouteb (c : Core) (a : RowArgs)
  | rcomb (c : Core) (a : RowArgs)
  | rcsum (c : Core) (a : RowArgs)
  /-- `n` 0 encodes 64 groups (11 R296). -/
  | pspill (c : Core) (desc : BitVec 10) (group n : BitVec 6) (release : Bool)
  | pfill (c : Core) (desc : BitVec 10) (group n : BitVec 6)
  | pclr (c : Core) (group n : BitVec 6)
  /-- `rate` 0 to 3 encode 1, 2, 4 and 8 words per cycle (11 Table 11.13). -/
  | hmove (c : Core) (desc : BitVec 10) (ch rate : BitVec 2)
  /-- The oldest outstanding read word of a core's channel arrives (12 R314). -/
  | hbmReadData (c : Core) (ch : BitVec 2)
  | hgath (c : Core) (desc : BitVec 10) (ch : BitVec 2) (nent : BitVec 13)
  | hscat (c : Core) (desc : BitVec 10) (ch : BitVec 2) (nent : BitVec 13)
  /-- `count` 0 encodes 65,536 words. -/
  | hmesh (c : Core) (desc : BitVec 10) (ch : BitVec 2) (x y : BitVec 3) (count : BitVec 16)
  | hpage (c : Core) (desc : BitVec 10) (ch : BitVec 2) (page : BitVec 3) (tag : BitVec 8)
  | hdesc (c : Core) (entry : BitVec 10) (ch : BitVec 2) (addr : BitVec 18) (kind : BitVec 3)
  | hdsp (c : Core) (desc : BitVec 10)
  | loop (c : Core) (n : BitVec 17) (l : BitVec 10)
  | pjump (c : Core) (page : BitVec 3) (tag : BitVec 8)
  | cend (c : Core)
  | fbchk (c : Core) (scope : BitVec 2) (check : BitVec 12) (page : BitVec 3) (bundle : BitVec 10) (tag : BitVec 8)
  | fbret (c : Core)
  | sclose (c : Core) (take : BitVec 4)
  | sphase (c : Core) (tag : BitVec 16)
  | fsend (c : Core) (chan : Chan) (axis : BitVec 2) (peer : BitVec 12)
  | fwait (c : Core) (chan : Chan) (count : BitVec 16)
  | fcoll (c : Core) (chan : Chan) (axis : BitVec 2) (op : BitVec 4) (desc : BitVec 10)
  | collectiveComplete (t : Ten) (chan : Chan)
  | collectiveTimeout (t : Ten) (chan : Chan)
  | dataParcel (p : Port) (f : Frame)
  | collectiveParcel (p : Port) (f : Frame)
  | ackCredit (p : Port) (f : Frame)
  | ackSend (t : Ten) (chan : Chan)
  | nak (p : Port) (f : Frame)
  | retryTimeout (t : Ten) (chan : Chan)
  | portDown (p : Port)
  | fabricLinkUp (p : Port)
  | blankNotice (p : Port) (f : Frame)
  | vote (p : Port) (f : Frame)
  | launchReady (p : Port) (f : Frame)
  | launchGo (p : Port) (f : Frame)
  | launchTimeout (t : Ten)
  | tallyProbe
  | probeFrame (p : Port) (f : Frame)
  | probeAnswer (p : Port) (f : Frame)
  | ppsInEdge
  | stop (p : Port) (f : Frame)
  | report (p : Port) (f : Frame)
  | plan (p : Port) (f : Frame)
  | recoveryActionsComplete (t : Ten)
  | done (p : Port) (f : Frame)
  | resume (p : Port) (f : Frame)
  | endJob (p : Port) (f : Frame)
  | seals (p : Port) (f : Frame)
  | twin (p : Port) (f : Frame)
  | recoveryTimeout (t : Ten)
  | escrowWindowCopy (t : Ten) (st : Stack)
  | escrowCopyDone (t : Ten) (st : Stack)
  | escrowDrain (t : Ten) (st : Stack)
  | escrowParityParcel (p : Port) (f : Frame)
  | escrowAccept (p : Port) (f : Frame)
  | scrubPass
  | scrubBehind
  | refreshHole
  /-- The on-die ECC events each stack reports (12 R316). -/
  | calibrationHole (events : List (BitVec 16))
  | daybookRelease
  | ledgerSnapshot
  | ledgerEventWrite
  /-- The measured energy of the window in nJ (17 R450). -/
  | reconcile (measured : BitVec 48)
  /-- The least slack of each of the 304 monitors (17 R469). -/
  | cpmReport (slack : List (BitVec 6))
  | trim
  /-- A recalibration carries the measured energy over the estimate of each event class as new coefficients. -/
  | assayComplete (r : AssayResult)
  /-- The BAR0 offsets whose values the response carries, at most three (18 Table 18.4). -/
  | telemetry (r : Req) (offsets : List (BitVec 20))
  | daybookDrain (r : Req) (addr : BitVec 64) (limit : BitVec 16)
  | assayRequest (r : Req) (kind : BitVec 8) (target : BitVec 16) (force : Bool)
  | capSet (r : Req) (watts : BitVec 16)
  | create (r : Req) (ten y0 h weight : BitVec 8) (ports : BitVec 16)
  | share (r : Req) (ten stack : BitVec 8) (base size : BitVec 32)
  | windows (r : Req) (ten stack : BitVec 8) (allow : BitVec 64)
  | partition (r : Req) (ten code : BitVec 8) (base size : BitVec 32)
  | weight (r : Req) (ten w : BitVec 8)
  | destroy (r : Req) (ten : BitVec 8)
  | blankRequest (r : Req) (ten count : BitVec 8)
  | ledgerRead (r : Req) (sec : BitVec 8) (addr : BitVec 64)
  | fwStage (r : Req) (addr : BitVec 64) (len : BitVec 32) (image : FwImage)
  | fwCommit (r : Req) (slot : BitVec 8)
  | fwActivate (r : Req)
  | timeSetup (r : Req) (op : TimeOp)
  | arbiterPriority (r : Req) (mask : BitVec 33) (requester : BitVec 4) (level : BitVec 3) (row : BitVec 16)
  | launch (r : Req) (ten : BitVec 8) (course : BitVec 50)
  /-- Whether the hard repair of each listed row succeeds (12 R324). -/
  | maintenance (r : Req) (repaired : List Bool)
  /-- The slots the host wrote before it moved the tail (18 R475). -/
  | mbxReqTail (fn : Fn) (tail : BitVec 6) (slots : List (BitVec 256))
  | mbxRspHead (fn : Fn) (head : BitVec 8)
  | commit (t : Ten)
  | loadComplete (t : Ten)
  | unload (t : Ten)
  | apply (t : Ten)
  | blankReq (t : Ten)
  | hold (t : Ten) (on : Bool)
  /-- The firmware writes FAB_CFG with LOCK set (13 R362). -/
  | fabCfgLock (value : BitVec 64)
  | intStatusClear (fn : Fn) (mask : BitVec 64)
  | counterLowRead (fn : Fn) (off : BitVec 20)
  /-- `wide`: an 8-byte read; otherwise a 4-byte read of the low half (20 R528). -/
  | arbWaitMax (fn : Fn) (arb : BitVec 6) (requester : BitVec 4) (wide : Bool)
  | tallySnap (fn : Fn)
  /-- A write of 4 or 8 bytes, to BAR0 or to the mailbox in BAR4 (18 Table 18.1); `firmware` when the management processor
  makes it (20 R529). -/
  | registerWrite (fn : Fn) (bar4 : Bool) (off : BitVec 20) (bytes : BitVec 4) (value : BitVec 64) (firmware : Bool)
  /-- A BAR2 access: a read of `len` bytes, or a write of `data` with the EP bit (19 R502, R506). -/
  | hostHbmAccess (fn : Fn) (off : BitVec 36) (write : Bool) (len : BitVec 16) (data : List (BitVec 8)) (ep : Bool)
  | functionLevelReset (fn : Fn)
  | hotReset
  | deviceReset
  | boot (b : BootReadings)
  | perstNRise
  | mgmtRstN
  | brownOut (r : Rail)
  | i3cRead (index : BitVec 8)
  | dynamicAddress (a : BitVec 7)
  | bypass
  | idcode
  | samplePreload (pins : BitVec 32)
  | extest
  | clamp
  | highz
  | linkLoss (p : Port)
  | lossOfLock (p : Port)
  | lockRegained (p : Port)
  | connectionLoss (d : Conn)
  | routerFault (phys : BitVec 7)
  | railBackInRange (r : Rail)
  | ppsOutEdge
  | tallyRefOutEdge
  | pcieLinkUp
  | pfcFrame (p : Port) (pause : BitVec 8)
  | foreignFrame (p : Port)
  | fcsDrop (p : Port)
  | badHeader (p : Port) (f : Frame)
  | statePagesWritten (t : Ten)
  | shareClearingDone
  | vfEnable (vf : Ten) (on : Bool)
  | unknownKind (r : Req) (kind : BitVec 8)
  | delayRequest (seqId : BitVec 16)
deriving DecidableEq, Repr

end Sys2Proof
end

