-- ==== Sys2Proof/Decode.lean ====
section
/-! DEFINITION. Decoding: the slot instructions of a bundle (11 Tables 11.1, 11.3, 11.11 to 11.13, 11.17), and the host's table words, which the table gives no bits. -/

namespace Sys2Proof

/-- No row of the command table gives bits: no word spells a command. -/
def decodeTableWord (_nbits _w : Nat) : Option Instr := none

/-- A reserved field is zero. -/
def zeroField (w : BitVec 48) (hi lo : Nat) : Bool := decide (bitsN w hi lo = 0)

/-- `x`, where its reserved fields are zero. -/
def checked (ok : Bool) (x : Instr) : Option Instr := if ok then some x else none

/-- The opcode of a slot (10 R252). -/
def opcodeOf (w : BitVec 48) : Nat := bitsN w 47 40

/-- The MX slot (11 Table 11.3). -/
def decodeMx (c : Core) (w : BitVec 48) : Option Instr :=
  match opcodeOf w with
  | 0x01 => checked (zeroField w 39 10) (.mrun c (bits w 9 0))
  | 0x02 => checked (zeroField w 39 20) (.malt c (bits w 9 0) (bits w 19 10))
  | 0x03 => checked (zeroField w 39 10) (.mpre c (bits w 9 0))
  | 0x04 => checked (zeroField w 39 12) (.mdrn c (bits w 9 0) (bitB w 10) (bitB w 11))
  | 0x05 => checked (zeroField w 39 11) (.mrel c (bits w 9 0) (bitB w 10))
  | _ => none

/-- The operands of a VX instruction (11 R292). -/
def vxOperands (w : BitVec 48) : VxArgs := ⟨bits w 9 0, bits w 21 10, bitB w 22⟩

/-- An element-wise VX instruction, and one of the function pipe, which has no BF16 lanes. -/
def vxElem (w : BitVec 48) (x : VxArgs → Instr) : Option Instr := checked (zeroField w 39 23) (x (vxOperands w))
def vxFunc (w : BitVec 48) (x : VxArgs → Instr) : Option Instr := checked (zeroField w 39 22) (x (vxOperands w))

/-- The VX slot (11 Table 11.1, R292). -/
def decodeVx (c : Core) (w : BitVec 48) : Option Instr :=
  match opcodeOf w with
  | 0x01 => vxElem w (.add c)
  | 0x02 => vxElem w (.sub c)
  | 0x03 => vxElem w (.mul c)
  | 0x04 => vxElem w (.fma c)
  | 0x05 => vxElem w (.fnma c)
  | 0x06 => vxElem w (.min c)
  | 0x07 => vxElem w (.max c)
  | 0x08 => vxElem w (.neg c)
  | 0x09 => vxElem w (.abs c)
  | 0x0A => vxElem w (.cmplt c)
  | 0x0B => vxElem w (.cmple c)
  | 0x0C => vxElem w (.cmpeq c)
  | 0x0D => vxElem w (.sel c)
  | 0x0E => vxElem w (.drop c)
  | 0x0F => vxElem w (.cvt c)
  | 0x10 => vxFunc w (.div c)
  | 0x11 => vxFunc w (.rcp c)
  | 0x12 => vxFunc w (.sqrt c)
  | 0x13 => vxFunc w (.rsqrt c)
  | 0x18 => vxFunc w (.exp2 c)
  | 0x19 => vxFunc w (.exp c)
  | 0x1A => vxFunc w (.log2 c)
  | 0x1B => vxFunc w (.ln c)
  | 0x1C => vxFunc w (.ln1p c)
  | 0x1D => vxFunc w (.tanh c)
  | 0x1E => vxFunc w (.erf c)
  | 0x20 => vxFunc w (.sigmoid c)
  | 0x21 => vxFunc w (.silu c)
  | 0x22 => vxFunc w (.gelu c)
  | 0x23 => vxFunc w (.geluT c)
  | 0x24 => vxFunc w (.softplus c)
  | 0x25 => vxFunc w (.relu c)
  | 0x30 => vxFunc w (.dsigmoid c)
  | 0x31 => vxFunc w (.dtanh c)
  | 0x32 => vxFunc w (.dsilu c)
  | 0x33 => vxFunc w (.dgelu c)
  | 0x34 => vxFunc w (.dgeluT c)
  | 0x35 => vxFunc w (.dsoftplus c)
  | 0x36 => vxFunc w (.drelu c)
  | _ => none

/-- A row operation, whose FLAGS take one of the values `ok` (11 R295). -/
def rowOp (w : BitVec 48) (ok : Nat → Bool) (x : RowArgs → Instr) : Option Instr :=
  checked (ok (bitsN w 39 34)) (x ⟨bits w 9 0, bits w 21 10, bits w 33 22, bits w 39 34⟩)

/-- The RW slot (11 R295, R296, Table 11.12). -/
def decodeRw (c : Core) (w : BitVec 48) : Option Instr :=
  let one (f : Nat) : Bool := decide (f ≤ 1)
  let kay (f : Nat) : Bool := decide (f % 2 = 0) && decide (f < 16)
  match opcodeOf w with
  | 0x01 => rowOp w one (.rnorm c)
  | 0x02 => rowOp w one (.rnormb c)
  | 0x03 => rowOp w one (.rsmax c)
  | 0x04 => rowOp w (fun f => decide (f = 0)) (.rsmaxb c)
  | 0x05 => rowOp w one (.rfold c)
  | 0x06 => rowOp w (fun f => decide (f ≤ 2)) (.rxent c)
  | 0x07 => rowOp w kay (.rroute c)
  | 0x08 => rowOp w kay (.rrouteb c)
  | 0x09 => rowOp w kay (.rcomb c)
  | 0x0A => rowOp w (fun f => decide (f ≤ 7)) (.rcsum c)
  | 0x10 => checked (zeroField w 39 23) (.pspill c (bits w 9 0) (bits w 15 10) (bits w 21 16) (bitB w 22))
  | 0x11 => checked (zeroField w 39 22) (.pfill c (bits w 9 0) (bits w 15 10) (bits w 21 16))
  | 0x12 => checked (zeroField w 39 22 && zeroField w 9 0) (.pclr c (bits w 15 10) (bits w 21 16))
  | _ => none

/-- The HL slot (11 Table 11.13). -/
def decodeHl (c : Core) (w : BitVec 48) : Option Instr :=
  let d : BitVec 10 := bits w 9 0
  let ch : BitVec 2 := bits w 11 10
  match opcodeOf w with
  | 0x01 => checked (zeroField w 39 14) (.hmove c d ch (bits w 13 12))
  | 0x02 => checked (zeroField w 39 25 && !zeroField w 24 12 && decide (bitsN w 24 12 ≤ 4096)) (.hgath c d ch (bits w 24 12))
  | 0x03 => checked (zeroField w 39 25 && !zeroField w 24 12 && decide (bitsN w 24 12 ≤ 4096)) (.hscat c d ch (bits w 24 12))
  | 0x04 => checked (zeroField w 39 34) (.hmesh c d ch (bits w 14 12) (bits w 17 15) (bits w 33 18))
  | 0x05 => checked (zeroField w 39 23 && !zeroField w 22 15) (.hpage c d ch (bits w 14 12) (bits w 22 15))
  | 0x06 => checked (zeroField w 39 33 && decide (1 ≤ bitsN w 32 30) && decide (bitsN w 32 30 ≤ 3)) (.hdesc c d ch (bits w 29 12) (bits w 32 30))
  | 0x07 => checked (zeroField w 39 12 && decide (ch = 3)) (.hdsp c d)
  | _ => none

/-- The SQ slot (11 Table 11.17). -/
def decodeSq (c : Core) (w : BitVec 48) : Option Instr :=
  match opcodeOf w with
  | 0x01 => checked (zeroField w 39 27 && decide (bitsN w 16 0 ≤ 65536)) (.loop c (bits w 16 0) (bits w 26 17))
  | 0x02 => checked (zeroField w 39 11) (.pjump c (bits w 2 0) (bits w 10 3))
  | 0x03 => checked (zeroField w 39 0) (.cend c)
  | 0x04 => checked (zeroField w 39 35) (.fbchk c (bits w 1 0) (bits w 13 2) (bits w 16 14) (bits w 26 17) (bits w 34 27))
  | 0x05 => checked (zeroField w 39 0) (.fbret c)
  | 0x06 => checked (zeroField w 39 4 && !zeroField w 3 0) (.sclose c (bits w 3 0))
  | 0x07 => checked (zeroField w 39 16) (.sphase c (bits w 15 0))
  | 0x08 => checked (zeroField w 39 26 && !zeroField w 25 14) (.fsend c (bits w 11 0) (bits w 13 12) (bits w 25 14))
  | 0x09 => checked (zeroField w 39 28 && !zeroField w 27 12) (.fwait c (bits w 11 0) (bits w 27 12))
  | 0x0A => checked (zeroField w 39 28 && decide (bitsN w 17 14 ≤ 5)) (.fcoll c (bits w 11 0) (bits w 13 12) (bits w 17 14) (bits w 27 18))
  | _ => none

/-- A bundle's issue delta (10 Table 10.1). -/
def deltaOf (b : BitVec 256) : Nat := if bitsN b 10 0 = 0 then 2048 else bitsN b 10 0

/-- The valid slots of a bundle, each with what it decodes to: 0 MX, 1 VX, 2 RW, 3 HL, 4 SQ. -/
def decodeBundle (c : Core) (b : BitVec 256) : List (Nat × Option Instr) :=
  (if bitB b 11 then [(0, decodeMx c (bits b 63 16))] else [])
    ++ (if bitB b 12 then [(1, decodeVx c (bits b 111 64))] else [])
    ++ (if bitB b 13 then [(2, decodeRw c (bits b 159 112))] else [])
    ++ (if bitB b 14 then [(3, decodeHl c (bits b 207 160))] else [])
    ++ (if bitB b 15 then [(4, decodeSq c (bits b 255 208))] else [])

end Sys2Proof
end

