-- ==== Sys2Proof/Machine/Numbers.lean ====
section
/-! DEFINITION. Exact numbers and their rounding: scalar and element formats, round to nearest even, stochastic rounding (02 R26 to R34, R44, R45; 03 R64, R68). -/

namespace Sys2Proof.Machine

open Sys2Proof

/-- A decoded value: NaN, an infinity, or (−1)^neg × m × 2^e exactly. A zero keeps its sign. -/
inductive Num where
  | nan
  | inf (neg : Bool)
  | fin (neg : Bool) (m : Nat) (e : Int)
deriving DecidableEq, Repr

/-- A binary format: `ew` exponent bits, `fw` fraction bits, its bias, and the greatest magnitude code it holds as a
finite value. -/
structure Fmt where
  ew   : Nat
  fw   : Nat
  bias : Int
  maxc : Nat
deriving DecidableEq, Repr

def Fmt.fp32 : Fmt := ⟨8, 23, 127, 0x7F7F_FFFF⟩
def Fmt.bf16 : Fmt := ⟨8, 7, 127, 0x7F7F⟩
def Fmt.fp16 : Fmt := ⟨5, 10, 15, 0x7BFF⟩
def Fmt.e2m1 : Fmt := ⟨2, 1, 1, 0x7⟩
def Fmt.e4m3 : Fmt := ⟨4, 3, 7, 0x7E⟩
def Fmt.e5m2 : Fmt := ⟨5, 2, 15, 0x7B⟩
def Fmt.e2m3 : Fmt := ⟨2, 3, 1, 0x1F⟩
def Fmt.e3m2 : Fmt := ⟨3, 2, 3, 0x1F⟩

/-- The exponent of the format's last place among its subnormals. -/
def Fmt.emin (f : Fmt) : Int := 1 - f.bias - f.fw

/-- The width of the format's magnitude code. -/
def Fmt.mw (f : Fmt) : Nat := f.ew + f.fw

/-- The value of a finite magnitude code (02 R26, R31). -/
def Fmt.mag (f : Fmt) (c : Nat) : Nat × Int :=
  let e := c / 2 ^ f.fw
  if e = 0 then (c % 2 ^ f.fw, f.emin) else (2 ^ f.fw + c % 2 ^ f.fw, f.emin + (e - 1 : Nat))

/-- A scalar encoding decoded (02 R26). -/
def Fmt.decode (f : Fmt) (c : Nat) : Num :=
  let s := c / 2 ^ f.mw % 2 = 1
  let k := c % 2 ^ f.mw
  if k ≤ f.maxc then .fin s (f.mag k).1 (f.mag k).2
  else if k = f.maxc + 1 then .inf s else .nan

/-- An element code decoded: a negative zero is zero, a code past the largest finite value is that value (02 R32). -/
def Fmt.decodeElem (f : Fmt) (c : Nat) : Num :=
  let k := min (c % 2 ^ f.mw) f.maxc
  .fin (decide (c / 2 ^ f.mw % 2 = 1) && decide (k ≠ 0)) (f.mag k).1 (f.mag k).2

/-- ⌊log₂ (n/d)⌋ of a positive rational. -/
def log2Rat (n d : Nat) : Int :=
  let a : Int := Nat.log2 n - Nat.log2 d
  if a ≥ 0 then (if d * 2 ^ a.toNat ≤ n then a else a - 1) else (if d ≤ n * 2 ^ (-a).toNat then a else a - 1)

/-- `n/d × 2^k` as a numerator and denominator. -/
def scaleRat (n d : Nat) (k : Int) : Nat × Nat :=
  if k ≥ 0 then (n * 2 ^ k.toNat, d) else (n, d * 2 ^ (-k).toNat)

/-- A non-negative rational rounded to an integer: to nearest with ties to even, or stochastically with the random
word (02 R44, R45). -/
def roundRat (u : Option Nat) (n d : Nat) : Nat :=
  let q := n / d
  let r := n % d
  match u with
  | none => if 2 * r > d || (2 * r = d && q % 2 = 1) then q + 1 else q
  | some w => if w < r * 2 ^ 32 / d then q + 1 else q

/-- The magnitude code of n/d × 2^e, as if the format had no largest value. -/
def Fmt.roundCode (f : Fmt) (u : Option Nat) (n d : Nat) (e : Int) : Nat :=
  if n = 0 then 0 else
    let q := max (log2Rat n d + e - f.fw) f.emin
    let r := scaleRat n d (e - q)
    (q - f.emin).toNat * 2 ^ f.fw + roundRat u r.1 r.2

/-- Whether n/d × 2^e exceeds the format's largest finite value. -/
def Fmt.exceeds (f : Fmt) (n d : Nat) (e : Int) : Bool :=
  let l := scaleRat n d (e - (f.mag f.maxc).2)
  decide ((f.mag f.maxc).1 * l.2 < l.1)

/-- The magnitude code of n/d × 2^e by R44 or R45; above the largest finite value by round to nearest. -/
def Fmt.round (f : Fmt) (u : Option Nat) (n d : Nat) (e : Int) : Nat :=
  if f.exceeds n d e then f.roundCode none n d e else f.roundCode u n d e

/-- A sign put on a magnitude code. -/
def Fmt.signed (f : Fmt) (neg : Bool) (c : Nat) : Nat := if neg then 2 ^ f.mw + c else c

/-- The canonical quiet NaN (02 R28). -/
def Fmt.qnan (f : Fmt) : Nat := f.maxc + 1 + 2 ^ (f.fw - 1)

/-- A rational result rounded to a scalar format; overflow gives an infinity (02 Table 02.8). -/
def Fmt.encodeRat (f : Fmt) (u : Option Nat) (neg : Bool) (n d : Nat) (e : Int) : Nat :=
  f.signed neg (min (f.round u n d e) (f.maxc + 1))

/-- A value rounded to a scalar format. -/
def Fmt.encode (f : Fmt) (u : Option Nat) (x : Num) : Nat :=
  match x with
  | .nan => f.qnan
  | .inf s => f.signed s (f.maxc + 1)
  | .fin s m e => f.encodeRat u s m 1 e

/-- A magnitude rounded to an element code, saturated at the largest finite value. -/
def Fmt.elemCode (f : Fmt) (u : Option Nat) (neg : Bool) (m : Nat) (e : Int) : Nat :=
  let c := min (f.round u m 1 e) f.maxc
  if c = 0 then 0 else f.signed neg c

/-- An FP32 pattern as a value. -/
def f32 (b : BitVec 32) : Num := Fmt.fp32.decode b.toNat

/-- A value rounded to FP32. -/
def toF32 (x : Num) : BitVec 32 := BitVec.ofNat 32 (Fmt.fp32.encode none x)

/-- A BF16 pattern as a value. -/
def b16 (b : BitVec 16) : Num := Fmt.bf16.decode b.toNat

/-! ### Exact arithmetic -/

/-- The signed integer m of a finite value over 2^e, for an e not above its own. -/
def align (neg : Bool) (m : Nat) (e lo : Int) : Int :=
  let v : Int := m * 2 ^ (e - lo).toNat
  if neg then -v else v

/-- An integer times 2^e as a value; zero is +0. -/
def Num.ofInt (i : Int) (e : Int) : Num := .fin (decide (i < 0)) i.natAbs e

/-- The sign of a value; a NaN counts as positive. -/
def Num.neg? (x : Num) : Bool := match x with | .nan => false | .inf s => s | .fin s _ _ => s

def Num.isNan (x : Num) : Bool := match x with | .nan => true | _ => false
def Num.isInf (x : Num) : Bool := match x with | .inf _ => true | _ => false
def Num.isZero (x : Num) : Bool := match x with | .fin _ 0 _ => true | _ => false
def Num.isFin (x : Num) : Bool := match x with | .fin _ _ _ => true | _ => false

def Num.negate (x : Num) : Num :=
  match x with | .nan => .nan | .inf s => .inf (!s) | .fin s m e => .fin (!s) m e

def Num.mabs (x : Num) : Num :=
  match x with | .nan => .nan | .inf _ => .inf false | .fin _ m e => .fin false m e

/-- The exact product (03 R66: zero times an infinity is NaN). -/
def Num.mul (x y : Num) : Num :=
  match x, y with
  | .nan, _ => .nan
  | _, .nan => .nan
  | .inf s, .inf t => .inf (s != t)
  | .inf s, .fin t m _ => if m = 0 then .nan else .inf (s != t)
  | .fin s m _, .inf t => if m = 0 then .nan else .inf (s != t)
  | .fin s m e, .fin t n f => .fin (s != t) (m * n) (e + f)

/-- The exact sum; an exact cancellation is +0, two zeros of one sign keep it. -/
def Num.add (x y : Num) : Num :=
  match x, y with
  | .nan, _ => .nan
  | _, .nan => .nan
  | .inf s, .inf t => if s = t then .inf s else .nan
  | .inf s, _ => .inf s
  | _, .inf t => .inf t
  | .fin s m e, .fin t n f =>
    if m = 0 && n = 0 then .fin (s && t) 0 e
    else
      let g := min e f
      Num.ofInt (align s m e g + align t n f g) g

def Num.sub (x y : Num) : Num := x.add y.negate

/-- x < y for values that are not NaN. -/
def Num.lt (x y : Num) : Bool :=
  match x, y with
  | .nan, _ => false
  | _, .nan => false
  | .inf s, .inf t => s && !t
  | .inf s, _ => s
  | _, .inf t => !t
  | .fin s m e, .fin t n f =>
    let g := min e f
    decide (align s m e g < align t n f g)

/-- x = y as numbers; zeros of either sign are equal. -/
def Num.eqv (x y : Num) : Bool := !x.isNan && !y.isNan && !(x.lt y) && !(y.lt x)

def Num.le (x y : Num) : Bool := !x.isNan && !y.isNan && !(y.lt x)

/-- A value times 2^k. -/
def Num.scale (x : Num) (k : Int) : Num :=
  match x with | .fin s m e => .fin s m (e + k) | y => y

def Num.zero : Num := .fin false 0 0
def Num.one : Num := .fin false 1 0

/-- The integer `i × 2^k`, rounded to nearest with ties to even (03 R64). -/
def roundInt (i k : Int) : Int :=
  let r := scaleRat i.natAbs 1 k
  let v : Int := roundRat none r.1 r.2
  if i < 0 then -v else v

/-- ⌊log₂ |x|⌋ of a finite non-zero value. -/
def Num.ilog2 (x : Num) : Int := match x with | .fin _ m e => (Nat.log2 m : Int) + e | _ => 0

end Sys2Proof.Machine
end

