-- ==== Sys2Proof/Machine/FuncTables.lean ====
section
/-! DEFINITION. The constants and ROM tables of the function library (06 R138 to R141), each the correctly rounded value of its definition. -/

namespace Sys2Proof.Machine

open Sys2Proof

def cB1 : BitVec 32 := 0x3F317218

def cB2 : BitVec 32 := 0x3E75FDF0

def cB3 : BitVec 32 := 0x3D635847

def cL1 : BitVec 32 := 0x3FB8AA3B

def cL2 : BitVec 32 := 0x32A57060

def cC1 : BitVec 32 := 0x3FB8AA3B

def cC2 : BitVec 32 := 0xBF38AA3B

def cC3 : BitVec 32 := 0x3EF6384F

def cC4 : BitVec 32 := 0xBEB8AA3B

def cD3 : BitVec 32 := 0x3EAAAAAB

def cLN2 : BitVec 32 := 0x3F317218

def cS1 : BitVec 32 := 0xBEAAAAAB

def cS2 : BitVec 32 := 0x3E088889

def cE0 : BitVec 32 := 0x3F906EBB

def cE1 : BitVec 32 := 0xBEC093A3

def cE2 : BitVec 32 := 0x3DE71791

def cH : BitVec 32 := 0x3F3504F3

def cQ : BitVec 32 := 0x3ECC422A

def cG0 : BitVec 32 := 0x3F4C422A

def cG1 : BitVec 32 := 0x3D372713

def cG3 : BitVec 32 := 0x3E095D4F

/-- T2 of 06 R139, from entry 0. -/
def romT20 : List (BitVec 32) :=
  [0x3F800000, 0x3F8164D2, 0x3F82CD87, 0x3F843A29, 0x3F85AAC3, 0x3F871F62, 0x3F88980F, 0x3F8A14D5,
   0x3F8B95C2, 0x3F8D1ADF, 0x3F8EA43A, 0x3F9031DC, 0x3F91C3D3, 0x3F935A2B, 0x3F94F4F0, 0x3F96942D,
   0x3F9837F0, 0x3F99E046, 0x3F9B8D3A, 0x3F9D3EDA, 0x3F9EF532, 0x3FA0B051, 0x3FA27043, 0x3FA43516,
   0x3FA5FED7, 0x3FA7CD94, 0x3FA9A15B, 0x3FAB7A3A, 0x3FAD583F, 0x3FAF3B79, 0x3FB123F6, 0x3FB311C4,
   0x3FB504F3, 0x3FB6FD92, 0x3FB8FBAF, 0x3FBAFF5B, 0x3FBD08A4, 0x3FBF179A, 0x3FC12C4D, 0x3FC346CD,
   0x3FC5672A, 0x3FC78D75, 0x3FC9B9BE, 0x3FCBEC15, 0x3FCE248C, 0x3FD06334, 0x3FD2A81E, 0x3FD4F35B]

/-- T2 of 06 R139, from entry 48. -/
def romT21 : List (BitVec 32) :=
  [0x3FD744FD, 0x3FD99D16, 0x3FDBFBB8, 0x3FDE60F5, 0x3FE0CCDF, 0x3FE33F89, 0x3FE5B907, 0x3FE8396A,
   0x3FEAC0C7, 0x3FED4F30, 0x3FEFE4BA, 0x3FF28177, 0x3FF5257D, 0x3FF7D0DF, 0x3FFA83B3, 0x3FFD3E0C]

/-- T2 of 06 R139. -/
def romT2 : List (BitVec 32) := romT20 ++ romT21

/-- INV of 06 R140, from entry 0. -/
def romInv0 : List (BitVec 32) :=
  [0x3FA9C84A, 0x3FA80A81, 0x3FA655C4, 0x3FA4A9CF, 0x3FA3065E, 0x3FA16B31, 0x3F9FD80A, 0x3F9E4CAD,
   0x3F9CC8E1, 0x3F9B4C70, 0x3F99D723, 0x3F9868C8, 0x3F97012E, 0x3F95A025, 0x3F944581, 0x3F92F114,
   0x3F91A2B4, 0x3F905A38, 0x3F8F177A, 0x3F8DDA52, 0x3F8CA29C, 0x3F8B7034, 0x3F8A42F8, 0x3F891AC7,
   0x3F87F781, 0x3F86D905, 0x3F85BF37, 0x3F84A9FA, 0x3F839930, 0x3F828CC0, 0x3F81848E, 0x3F800000,
   0x3F800000, 0x3F7D08E5, 0x3F7B1885, 0x3F792FB2, 0x3F774E40, 0x3F757404, 0x3F73A0D5, 0x3F71D48C,
   0x3F700F01, 0x3F6E500F, 0x3F6C9791, 0x3F6AE564, 0x3F693965, 0x3F679373, 0x3F65F36D, 0x3F645933]

/-- INV of 06 R140, from entry 48. -/
def romInv1 : List (BitVec 32) :=
  [0x3F62C4A7, 0x3F6135AA, 0x3F5FAC1F, 0x3F5E27EB, 0x3F5CA8F1, 0x3F5B2F17, 0x3F59BA42, 0x3F584A5A,
   0x3F56DF44, 0x3F5578E9, 0x3F541733, 0x3F52BA08, 0x3F516154, 0x3F500D01, 0x3F4EBCF9, 0x3F4D7127,
   0x3F4C2978, 0x3F4AE5D8, 0x3F49A634, 0x3F486A79, 0x3F473294, 0x3F45FE74, 0x3F44CE08, 0x3F43A13E,
   0x3F427806, 0x3F415250, 0x3F40300C, 0x3F3F112B, 0x3F3DF59D, 0x3F3CDD53, 0x3F3BC841, 0x3F3AB656,
   0x3F39A786, 0x3F389BC3, 0x3F379301, 0x3F368D31, 0x3F358A48, 0x3F348A3A, 0x3F338CFA, 0x3F32927C,
   0x3F319AB6, 0x3F30A59B, 0x3F2FB322, 0x3F2EC33E, 0x3F2DD5E6, 0x3F2CEB10, 0x3F2C02B0, 0x3F2B1CBE]

/-- INV of 06 R140. -/
def romInv : List (BitVec 32) := romInv0 ++ romInv1

/-- TL2 of 06 R140, from entry 0. -/
def romTl20 : List (BitVec 32) :=
  [0xBED0A977, 0xBEC90C02, 0xBEC1826C, 0xBEBA0C56, 0xBEB2A959, 0xBEAB5916, 0xBEA41B2F, 0xBE9CEF46,
   0xBE95D504, 0xBE8ECC18, 0xBE87D425, 0xBE80ECDE, 0xBE742BEA, 0xBE669E35, 0xBE593016, 0xBE4BE0EA,
   0xBE3EB027, 0xBE319D42, 0xBE24A7C5, 0xBE17CF19, 0xBE0B12C9, 0xBDFCE4A9, 0xBDE3DA8B, 0xBDCB0653,
   0xBDB2671E, 0xBD99FBE1, 0xBD81C3EF, 0xBD537CEB, 0xBD23D4F5, 0xBCE91D95, 0xBC8B512E, 0x00000000,
   0x00000000, 0x3C89B197, 0x3CE49B30, 0x3D1F6988, 0x3D4C2DF8, 0x3D789C48, 0x3D925ADE, 0x3DA83DBF,
   0x3DBDF774, 0x3DD3888E, 0x3DE8F1A8, 0x3DFE3351, 0x3E09A70E, 0x3E14214A, 0x3E1E88A1, 0x3E28DD5C]

/-- TL2 of 06 R140, from entry 48. -/
def romTl21 : List (BitVec 32) :=
  [0x3E331FB5, 0x3E3D4FF5, 0x3E476E5A, 0x3E517B1A, 0x3E5B767B, 0x3E6560B3, 0x3E6F3A01, 0x3E790297,
   0x3E815D5D, 0x3E86314D, 0x3E8AFD32, 0x3E8FC131, 0x3E947D5B, 0x3E9931CA, 0x3E9DDE9C, 0x3EA283E9,
   0x3EA721C6, 0x3EABB84A, 0x3EB0478E, 0x3EB4CFA8, 0x3EB950B1, 0x3EBDCABD, 0x3EC23DE0, 0x3EC6AA33,
   0x3ECB0FC8, 0x3ECF6EB4, 0x3ED3C70A, 0x3ED818DE, 0x3EDC6445, 0x3EE0A955, 0x3EE4E816, 0x3EE920A6,
   0x3EED5312, 0x3EF17F6C, 0x3EF5A5C1, 0x3EF9C62C, 0x3EFDE0B7, 0x3F00FAB9, 0x3F030238, 0x3F0506E2,
   0x3F0708BB, 0x3F0907CF, 0x3F0B0421, 0x3F0CFDBE, 0x3F0EF4A9, 0x3F10E8EA, 0x3F12DA8B, 0x3F14C98F]

/-- TL2 of 06 R140. -/
def romTl2 : List (BitVec 32) := romTl20 ++ romTl21

/-- TLN of 06 R140, from entry 0. -/
def romTln0 : List (BitVec 32) :=
  [0xBE90A22B, 0xBE8B5AE7, 0xBE86216B, 0xBE80F572, 0xBE77AD6E, 0xBE6D89EC, 0xBE637FDE, 0xBE598EC2,
   0xBE4FB61E, 0xBE45F582, 0xBE3C4C6D, 0xBE32BA76, 0xBE293F2F, 0xBE1FDA2A, 0xBE168B0B, 0xBE0D515F,
   0xBE042CC7, 0xBDF639C7, 0xBDE442C2, 0xBDD273B2, 0xBDC0CBF1, 0xBDAF4ACE, 0xBD9DEFA7, 0xBD8CB9DB,
   0xBD77519C, 0xBD55778E, 0xBD33E49C, 0xBD1297A0, 0xBCE31E83, 0xBCA19559, 0xBC412270, 0x00000000,
   0x00000000, 0x3C3EE24F, 0x3C9E752F, 0x3CDCFE05, 0x3D0D86C8, 0x3D2C52DB, 0x3D4AE41B, 0x3D693B59,
   0x3D83ACC1, 0x3D929FB1, 0x3DA176E7, 0x3DB032C5, 0x3DBED3B5, 0x3DCD5A11, 0x3DDBC63F, 0x3DEA189D]

/-- TLN of 06 R140, from entry 48. -/
def romTln1 : List (BitVec 32) :=
  [0x3DF85182, 0x3E0338A8, 0x3E0A3C2E, 0x3E11337A, 0x3E181EBA, 0x3E1EFE16, 0x3E25D1B9, 0x3E2C99C5,
   0x3E33566A, 0x3E3A07CA, 0x3E40AE03, 0x3E474948, 0x3E4DD9B3, 0x3E545F67, 0x3E5ADA8C, 0x3E614B44,
   0x3E67B1AD, 0x3E6E0DE7, 0x3E746013, 0x3E7AA850, 0x3E807362, 0x3E838DC3, 0x3E86A35A, 0x3E89B438,
   0x3E8CC06A, 0x3E8FC7FD, 0x3E92CB01, 0x3E95C981, 0x3E98C38D, 0x3E9BB934, 0x3E9EAA7C, 0x3EA19779,
   0x3EA48034, 0x3EA764BB, 0x3EAA4515, 0x3EAD2156, 0x3EAFF984, 0x3EB2CDAB, 0x3EB59DD8, 0x3EB86A18,
   0x3EBB3270, 0x3EBDF6F1, 0x3EC0B7A0, 0x3EC3748D, 0x3EC62DBF, 0x3EC8E33E, 0x3ECB951A, 0x3ECE4358]

/-- TLN of 06 R140. -/
def romTln : List (BitVec 32) := romTln0 ++ romTln1

/-- K of 06 R141 for TANH, five coefficients a segment from segment 1, from entry 0. -/
def romTanh0 : List (BitVec 32) :=
  [0x3D3FDC08, 0x3F7F7036, 0xBD3F7045, 0xBEA92BDC, 0x3CFE694E, 0x3D9FACDF, 0x3F7E719F, 0xBD9EB464, 0xBEA6892B, 0x3D51AD3E,
   0x3DDF1C6C, 0x3F7CF636, 0xBDDC768F, 0xBEA2A306, 0x3D905BE3, 0x3E0F0EE8, 0x3F7B00E5, 0xBE0C441E, 0xBE9D89A7, 0x3DB58BCF,
   0x3E2E4984, 0x3F789580, 0xBE293CFF, 0xBE9751FE, 0x3DD7D884, 0x3E4D2F8E, 0x3F75B8AD, 0xBE44F288, 0xBE90151A, 0x3DF6C804,
   0x3E6BB32E, 0x3F726FD9, 0xBE5F365C, 0xBE87EF82, 0x3E08FB75, 0x3E84E3A2, 0x3F6EC11E, 0xBE77DFC0, 0xBE7E00EE, 0x3E148D16,
   0x3E93AFBF, 0x3F6AB32C, 0xBE876602, 0xBE6AD25F, 0x3E1E0002, 0x3EA23833, 0x3F664D35, 0xBE91EF6A, 0xBE569812, 0x3E2547F2,
   0x3EB077B9, 0x3F6196CB, 0xBE9B812B, 0xBE419787, 0x3E2A64CD, 0x3EBE6989, 0x3F5C97CB, 0xBEA41399, 0xBE2C158B, 0x3E2D61DD,
   0x3ECC095A, 0x3F575846, 0xBEABA236, 0xBE1654D6, 0x3E2E54B0, 0x3ED95365, 0x3F51E061, 0xBEB22B91, 0xBE0094DF, 0x3E2D5BC0,
   0x3EE64465, 0x3F4C3842, 0xBEB7B11B, 0xBDD621A3, 0x3E2A9CED, 0x3EF2D997, 0x3F4667F9, 0xBEBC36ED, 0xBDABFD79, 0x3E2643E6,
   0x3EFF10B8, 0x3F40776C, 0xBEBFC386, 0xBD831DE4, 0x3E208084, 0x3F057401, 0x3F3A6E43, 0xBEC25F86, 0xBD37AE6B, 0x3E19853A,
   0x3F0B2F12, 0x3F3453DA, 0xBEC4155F, 0xBCD9C3E3, 0x3E118597, 0x3F10B923, 0x3F2E2F33, 0xBEC4F109, 0xBC192EA4, 0x3E08B4EC]

/-- K of 06 R141 for TANH, five coefficients a segment from segment 1, from entry 100. -/
def romTanh1 : List (BitVec 32) :=
  [0x3F1611FC, 0x3F2806EC, 0xBEC4FFB8, 0x3BDDC3C6, 0x3DFE8A46, 0x3F1B3999, 0x3F21E134, 0xBEC44F8D, 0x3CB1CDC9, 0x3DEACB80,
   0x3F203025, 0x3F1BC3C9, 0xBEC2EF51, 0x3D111307, 0x3DD6862B, 0x3F24F5F9, 0x3F15B3EC, 0xBEC0EE35, 0x3D44258B, 0x3DC20B5A,
   0x3F298B95, 0x3F0FB669, 0xBEBE5B8E, 0x3D721A54, 0x3DADA3B7, 0x3F2DF19C, 0x3F09CF8F, 0xBEBB46A8, 0x3D8D7F2C, 0x3D998F0F,
   0x3F3228D4, 0x3F040332, 0xBEB7BE8E, 0x3D9F76AE, 0x3D86041E, 0x3F36321F, 0x3EFCA964, 0xBEB3D1E5, 0x3DAF07DC, 0x3D666157,
   0x3F3A0E77, 0x3EF18DF4, 0xBEAF8ECA, 0x3DBC4C0D, 0x3D4273A5, 0x3F3DBEED, 0x3EE6B910, 0xBEAB02B3, 0x3DC760B8, 0x3D2078FF,
   0x3F4144A3, 0x3EDC2EDF, 0xBEA63A5F, 0x3DD06678, 0x3D009C11, 0x3F44A0CC, 0x3ED1F2C5, 0xBEA141BE, 0x3DD78020, 0x3CC5F37A,
   0x3F47D4A5, 0x3EC8076D, 0xBE9C23ED, 0x3DDCD1ED, 0x3C8F452D, 0x3F4AE176, 0x3EBE6ED7, 0xBE96EB2D, 0x3DE080CF, 0x3C3A71AA,
   0x3F4DC88C, 0x3EB52A65, 0xBE91A0DF, 0x3DE2B1C4, 0x3BBF1E37, 0x3F508B3A, 0x3EAC3AEB, 0xBE8C4D8A, 0x3DE38955, 0x3A5B5C94,
   0x3F532AD5, 0x3EA3A0BB, 0xBE86F8DB, 0x3DE32B22, 0xBB6D82C3, 0x3F55A8B2, 0x3E9B5BB2, 0xBE81A9AB, 0x3DE1B986, 0xBBF81E0F,
   0x3F580624, 0x3E936B48, 0xBE78CC1B, 0x3DDF5552, 0xBC34BF86, 0x3F5A447C, 0x3E8BCE97, 0xBE6E66A5, 0x3DDC1D95, 0xBC65E7D2]

/-- K of 06 R141 for TANH, five coefficients a segment from segment 1, from entry 200. -/
def romTanh2 : List (BitVec 32) :=
  [0x3F5C6506, 0x3E84846B, 0xBE642C2E, 0x3DD82F78, 0xBC88029A, 0x3F5E690B, 0x3E7B1698, 0xBE5A249F, 0x3DD3A623, 0xBC99CCAC,
   0x3F6051CA, 0x3E6DC30E, 0xBE5056A3, 0x3DCE9AB5, 0xBCA893CE, 0x3F62207E, 0x3E610A72, 0xBE46C7C9, 0x3DC9243F, 0xBCB4995B,
   0x3F63D659, 0x3E54E8AC, 0xBE3D7C95, 0x3DC357CD, 0xBCBE1D71, 0x3F657483, 0x3E495964, 0xBE34789A, 0x3DBD4871, 0xBCC55E30,
   0x3F66FC1D, 0x3E3E580E, 0xBE2BBE91, 0x3DB70754, 0xBCCA9728, 0x3F686E3F, 0x3E33DFFD, 0xBE235073, 0x3DB0A3D1, 0xBCCE00EA,
   0x3F69CBF5, 0x3E29EC64, 0xBE1B2F88, 0x3DAA2B8A, 0xBCCFD0BB, 0x3F6B1645, 0x3E20786C, 0xBE135C81, 0x3DA3AA86, 0xBCD03869,
   0x3F6C4E29, 0x3E177F34, 0xBE0BD785, 0x3D9D2B49, 0xBCCF662B, 0x3F6D7491, 0x3E0EFBDD, 0xBE04A046, 0x3D96B6F6, 0xBCCD84A1,
   0x3F6E8A64, 0x3E06E990, 0xBDFB6C25, 0x3D905569, 0xBCCABADD, 0x3F6F907F, 0x3DFE870A, 0xBDEE2FBD, 0x3D8A0D54, 0xBCC72C7B,
   0x3F7087B7, 0x3DF00A0C, 0xBDE188AC, 0x3D83E458, 0xBCC2F9BD, 0x3F7170D5, 0x3DE252E9, 0xBDD573CE, 0x3D7BBE42, 0xBCBE3FB9,
   0x3F724C9B, 0x3DD55899, 0xBDC9ED99, 0x3D7002FE, 0xBCB91882, 0x3F731BC2, 0x3DC91251, 0xBDBEF231, 0x3D649CFB, 0xBCB39B58,
   0x3F73DEF9, 0x3DBD7785, 0xBDB47D79, 0x3D5990EF, 0xBCADDCD9, 0x3F7496E8, 0x3DB27FEB, 0xBDAA8B24, 0x3D4EE25B, 0xBCA7EF35]

/-- K of 06 R141 for TANH, five coefficients a segment from segment 1, from entry 300. -/
def romTanh3 : List (BitVec 32) :=
  [0x3F75442D, 0x3DA82381, 0xBDA116C1, 0x3D4493AF, 0xBCA1E25E, 0x3F75E760, 0x3D9E5A8B, 0xBD981BC6, 0x3D3AA66B, 0xBC9BC43B,
   0x3F768111, 0x3D951D99, 0xBD8F959E, 0x3D311B43, 0xBC95A0D1, 0x3F7711C7, 0x3D8C6581, 0xBD877FAF, 0x3D27F236, 0xBC8F8278,
   0x3F779A06, 0x3D842B65, 0xBD7FAAC7, 0x3D1F2AAA, 0xBC897200, 0x3F781A46, 0x3D78D15D, 0xBD71245C, 0x3D16C384, 0xBC8376DA,
   0x3F7892FD, 0x3D6A2E22, 0xBD636327, 0x3D0EBB3C, 0xBC7B2E77, 0x3F790498, 0x3D5C610C, 0xBD565E59, 0x3D070FEE, 0xBC6FB08B,
   0x3F796F7F, 0x3D4F5E99, 0xBD4A0D54, 0x3CFF7EDD, 0xBC647C3E, 0x3F79D416, 0x3D431BCF, 0xBD3E67B1, 0x3CF18EA8, 0xBC59982C,
   0x3F7A32B9, 0x3D378E3C, 0xBD336545, 0x3CE44A10, 0xBC4F096E, 0x3F7A8BC1, 0x3D2CABEB, 0xBD28FE27, 0x3CD7AB9F, 0xBC44D3CE,
   0x3F7ADF80, 0x3D226B64, 0xBD1F2AAC, 0x3CCBADAD, 0xBC3AF9F4, 0x3F7B2E46, 0x3D18C3A9, 0xBD15E374, 0x3CC04A6E, 0xBC317D88,
   0x3F7B785C, 0x3D0FAC2F, 0xBD0D215F, 0x3CB57C05, 0xBC285F5A, 0x3F7BBE09, 0x3D071CDC, 0xBD04DD97, 0x3CAB3C8C, 0xBC1F9F7F,
   0x3F7BFF8E, 0x3CFE1BFC, 0xBCFA231B, 0x3CA18621, 0xBC173D6F, 0x3F7C3D2B, 0x3CEEF09A, 0xBCEB6DEF, 0x3C9852EF, 0xBC0F381D,
   0x3F7C771A, 0x3CE0A9C4, 0xBCDD8FA2, 0x3C8F9D36, 0xBC078E0D, 0x3F7CAD92, 0x3CD33A69, 0xBCD07CB6, 0x3C875F51, 0xBC003D69]

/-- K of 06 R141 for TANH, five coefficients a segment from segment 1, from entry 400. -/
def romTanh4 : List (BitVec 32) :=
  [0x3F7CE0C8, 0x3CC6962B, 0xBCC42A31, 0x3C7F276F, 0xBBF28820, 0x3F7D10ED, 0x3CBAB159, 0xBCB88D9C, 0x3C706A13, 0xBBE53F4E,
   0x3F7D3E2F, 0x3CAF80E2, 0xBCAD9D02, 0x3C627C17, 0xBBD89B4B, 0x3F7D68BB, 0x3CA4FA56, 0xBCA34EE5, 0x3C555357, 0xBBCC96BF,
   0x3F7D90BA, 0x3C9B13D3, 0xBC999A44, 0x3C48E60A, 0xBBC12C26, 0x3F7DB652, 0x3C91C409, 0xBC90768C, 0x3C3D2ABC, 0xBBB655D8,
   0x3F7DD9A8, 0x3C890228, 0xBC87DB9E, 0x3C321856, 0xBBAC0E1E, 0x3F7DFADE, 0x3C80C5E4, 0xBC7F8387, 0x3C27A61E, 0xBBA24F3B,
   0x3F7E1A15, 0x3C720ECD, 0xBC704359, 0x3C1DCBB3, 0xBB99137A, 0x3F7E376C, 0x3C637E95, 0xBC61E8D8, 0x3C148112, 0xBB905531,
   0x3F7E52FE, 0x3C55CD2F, 0xBC5466E5, 0x3C0BBE8E, 0xBB880ECF, 0x3F7E6CE8, 0x3C48ED78, 0xBC47B117, 0x3C037CD5, 0xBB803ADD,
   0x3F7E8542, 0x3C3CD30A, 0xBC3BBBAE, 0x3BF769D9, 0xBB71A80A, 0x3F7E9C24, 0x3C31723B, 0xBC307B91, 0x3BE8C055, 0xBB63AA29,
   0x3F7EB1A6, 0x3C26C009, 0xBC25E640, 0x3BDAF075, 0xBB567204, 0x3F7EC5DB, 0x3C1CB219, 0xBC1BF1D0, 0x3BCDEE2A, 0xBB49F5D8,
   0x3F7ED8D9, 0x3C133EA7, 0xBC1294E4, 0x3BC1AE02, 0xBB3E2C39, 0x3F7EEAB1, 0x3C0A5C84, 0xBC09C6A3, 0x3BB6251B, 0xBB330C16,
   0x3F7EFB75, 0x3C020307, 0xBC017EB5, 0x3BAB4926, 0xBB288CB4, 0x3F7F0B37, 0x3BF45416, 0xBBF36A76, 0x3BA11058, 0xBB1EA5B3]

/-- K of 06 R141 for TANH, five coefficients a segment from segment 1, from entry 500. -/
def romTanh5 : List (BitVec 32) :=
  [0x3F7F1A05, 0x3BE593C9, 0xBBE4C58B, 0x3B97716D, 0xBB154F0F, 0x3F7F27EE, 0x3BD7B6BA, 0xBBD700A8, 0x3B8E639D, 0xBB0C8119,
   0x3F7F3500, 0x3BCAAF50, 0xBBCA0E97, 0x3B85DE99, 0xBB04347D, 0x3F7F4148, 0x3BBE70C5, 0xBBBDE2E4, 0x3B7BB503, 0xBAF8C475,
   0x3F7F4CD2, 0x3BB2EF10, 0xBBB271D3, 0x3B6C9FD1, 0xBAEA074B, 0x3F7F57AA, 0x3BA81EE2, 0xBBA7B055, 0x3B5E6F8B, 0xBADC24C7,
   0x3F7F61DA, 0x3B9DF595, 0xBB9D9400, 0x3B5116EA, 0xBACF10D3, 0x3F7F6B6C, 0x3B946926, 0xBB941303, 0x3B448961, 0xBAC2BFF0,
   0x3F7F746A, 0x3B8B7029, 0xBB8B2422, 0x3B38BB16, 0xBAB72736, 0x3F7F7CDD, 0x3B8301C5, 0xBB82BEA9, 0x3B2DA0DB, 0xBAAC3C48,
   0x3F7F84CD, 0x3B762B47, 0xBB75B4CE, 0x3B233023, 0xBAA1F554, 0x3F7F8C42, 0x3B6747E0, 0xBB66DF4F, 0x3B195EF8, 0xBA98490C,
   0x3F7F9344, 0x3B594A9A, 0xBB58EE4F, 0x3B1023F7, 0xBA8F2E9D, 0x3F7F99D9, 0x3B4C259C, 0xBB4BD426, 0x3B077647, 0xBA869DAE,
   0x3F7FA008, 0x3B3FCBE0, 0xBB3F83FA, 0x3AFE9B1D, 0xBA7D1CB3, 0x3F7FA5D8, 0x3B343128, 0xBB33F1B3, 0x3AEF43E1, 0xBA6DF24C,
   0x3F7FAB4D, 0x3B2949F2, 0xBB2911EF, 0x3AE0D808, 0xBA5FAE09, 0x3F7FB06E, 0x3B1F0B6C, 0xBB1ED9FC, 0x3AD3499C, 0xBA52428E,
   0x3F7FB53F, 0x3B156B69, 0xBB153FC8, 0x3AC68B75, 0xBA45A342, 0x3F7FB9C6, 0x3B0C605C, 0xBB0C39DA, 0x3ABA9132, 0xBA39C43B]

/-- K of 06 R141 for TANH, five coefficients a segment from segment 1, from entry 600. -/
def romTanh6 : List (BitVec 32) :=
  [0x3F7FBE07, 0x3B03E147, 0xBB03BF4A, 0x3AAF4F29, 0xBA2E9A3D, 0x3F7FC206, 0x3AF7CB70, 0xBAF78F72, 0x3AA4BA5E, 0xBA241AAC,
   0x3F7FC5C7, 0x3AE8CB7E, 0xBAE8968C, 0x3A9AC87C, 0xBA1A3B87, 0x3F7FC94D, 0x3ADAB3CD, 0xBADA8512, 0x3A916FC8, 0xBA10F35D,
   0x3F7FCC9D, 0x3ACD7654, 0xBACD4D17, 0x3A88A71A, 0xBA083949, 0x3F7FCFBA, 0x3AC105E8, 0xBAC0E182, 0x3A8065D6, 0xBA0004E8,
   0x3F7FD2A6, 0x3AB55624, 0xBAB53604, 0x3A7147BD, 0xB9F09CA3, 0x3F7FD566, 0x3AAA5B65, 0xBAAA3F0B, 0x3A62B329, 0xB9E21C24,
   0x3F7FD7FA, 0x3AA00ABA, 0xBA9FF1B4, 0x3A54FF95, 0xB9D47A4A, 0x3F7FDA67, 0x3A9659DC, 0xBA9643C7, 0x3A481F82, 0xB9C7A9DE,
   0x3F7FDCAE, 0x3A8D3F22, 0xBA8D2BA5, 0x3A3C063F, 0xB9BB9E6A, 0x3F7FDED1, 0x3A84B179, 0xBA84A046, 0x3A30A7D9, 0xB9B04C35,
   0x3F7FE0D4, 0x3A7950B0, 0xBA793255, 0x3A25F917, 0xB9A5A835, 0x3F7FE2B7, 0x3A6A3779, 0xBA6A1CAF, 0x3A1BEF69, 0xB99BA807,
   0x3F7FE47D, 0x3A5C083D, 0xBA5BF098, 0x3A1280E1, 0xB99241E0, 0x3F7FE628, 0x3A4EB4D4, 0xBA4E9FF6, 0x3A09A429, 0xB9896C8E,
   0x3F7FE7B9, 0x3A422FF2, 0xBA421D88, 0x3A015079, 0xB9811F66, 0x3F7FE931, 0x3A366D1A, 0xBA365CD9, 0x39F2FB23, 0xB972A483,
   0x3F7FEA93, 0x3A2B608D, 0xBA2B5235, 0x39E4475E, 0xB963FAEB, 0x3F7FEBDF, 0x3A20FF43, 0xBA20F29B, 0x39D6770F, 0xB9563396]

/-- K of 06 R141 for TANH, five coefficients a segment from segment 1, from entry 700. -/
def romTanh7 : List (BitVec 32) :=
  [0x3F7FED17, 0x3A173EE0, 0xBA1733B4, 0x39C97C7D, 0xB94940F1, 0x3F7FEE3D, 0x3A0E15A7, 0xBA0E0BCC, 0x39BD4AC6, 0xB93D1639,
   0x3F7FEF50, 0x3A057A72, 0xBA0571BF, 0x39B1D5CC, 0xB931A76B, 0x3F7FF053, 0x39FAC952, 0xB9FAB9F6, 0x39A7122B, 0xB926E93C,
   0x3F7FF146, 0x39EB986E, 0xB9EB8AE1, 0x399CF52F, 0xB91CD10F, 0x3F7FF22A, 0x39DD530F, 0xB9DD4719, 0x399374C9, 0xB91354E8,
   0x3F7FF301, 0x39CFEAF0, 0xB9CFE062, 0x398A8785, 0xB90A6B62, 0x3F7FF3CB, 0x39C352AF, 0xB9C3495E, 0x3982247E, 0xB9020BA9,
   0x3F7FF488, 0x39B77DB4, 0xB9B7757C, 0x397486BA, 0xB8F45AE5, 0x3F7FF53A, 0x39AC602E, 0xB9AC58EC, 0x3965B88E, 0xB8E591E0,
   0x3F7FF5E1, 0x39A1EF00, 0xB9A1E899, 0x3957CFBA, 0xB8D7AD97, 0x3F7FF67E, 0x39981FBC, 0xB9981A15, 0x394ABE61, 0xB8CAA040,
   0x3F7FF711, 0x398EE893, 0xB98EE396, 0x393E777D, 0xB8BE5CE6, 0x3F7FF79C, 0x3986404F, 0xB9863BE9, 0x3932EED0, 0xB8B2D759,
   0x3F7FF81E, 0x397C3C94, 0xB97C34D0, 0x392818DA, 0xB8A80425, 0x3F7FF898, 0x396CF4C4, 0xB96CEDEA, 0x391DEACE, 0xB89DD887,
   0x3F7FF90B, 0x395E99E8, 0xB95E93DC, 0x39145A82, 0xB8944A61, 0x3F7FF977, 0x39511DA6, 0xB9511850, 0x390B5E6C, 0xB88B5031,
   0x3F7FF9DC, 0x39447283, 0xB9446DCD, 0x3902ED96, 0xB882E107, 0x3F7FFA3C, 0x39388BD5, 0xB93887AD, 0x38F5FF26, 0xB875E8FA]

/-- K of 06 R141 for TANH, five coefficients a segment from segment 1, from entry 800. -/
def romTanh8 : List (BitVec 32) :=
  [0x3F7FFA95, 0x392D5DB6, 0xB92D5A0B, 0x38E718F0, 0xB8670560, 0x3F7FFAE9, 0x3922DCF8, 0xB922D9BB, 0x38D919AC, 0xB8590868,
   0x3F7FFB38, 0x3918FF1A, 0xB918FC3F, 0x38CBF360, 0xB84BE423, 0x3F7FFB82, 0x390FBA40, 0xB90FB7BB, 0x38BF98EA, 0xB83F8B77,
   0x3F7FFBC8, 0x39070525, 0xB90702EB, 0x38B3FDF5, 0xB833F217, 0x3F7FFC09, 0x38FDAE26, 0xB8FDAA38, 0x38A916E9, 0xB8290C70,
   0x3F7FFC47, 0x38EE4FBA, 0xB8EE4C42, 0x389ED8E2, 0xB81ECFA4, 0x3F7FFC80, 0x38DFDFA7, 0xB8DFDC98, 0x389539A6, 0xB815317E,
   0x3F7FFCB7, 0x38D24F7D, 0xB8D24CCA, 0x388C2F98, 0xB80C2865, 0x3F7FFCEA, 0x38C591AC, 0xB8C58F4A, 0x3883B1AF, 0xB803AB55,
   0x3F7FFD1A, 0x38B99976, 0xB8B9975C, 0x38776EDF, 0xB7F763A9, 0x3F7FFD47, 0x38AE5AE3, 0xB8AE5908, 0x386871C2, 0xB7E867DD,
   0x3F7FFD71, 0x38A3CAB3, 0xB8A3C910, 0x385A5D0D, 0xB7DA5451, 0x3F7FFD99, 0x3899DE57, 0xB899DCE5, 0x384D22AD, 0xB7CD1AF8,
   0x3F7FFDBE, 0x38908BE2, 0xB8908A9C, 0x3840B569, 0xB7C0AE9C, 0x3F7FFDE1, 0x3887CA01, 0xB887C8E1, 0x383508D6, 0xB7B502D6,
   0x3F7FFE02, 0x387F1FE4, 0xB87F1DE7, 0x382A1149, 0xB7AA0BFD, 0x3F7FFE21, 0x386FAAF4, 0xB86FA934, 0x381FC3CC, 0xB79FBF1F,
   0x3F7FFE3E, 0x386125BF, 0xB8612433, 0x38161612, 0xB79611F2, 0x3F7FFE59, 0x385381BD, 0xB8538060, 0x380CFE6E, 0xB78CFACA]

/-- K of 06 R141 for TANH, five coefficients a segment from segment 1, from entry 900. -/
def romTanh9 : List (BitVec 32) :=
  [0x3F7FFE73, 0x3846B14B, 0xB846B016, 0x380473C9, 0xB7847093, 0x3F7FFE8B, 0x383AA797, 0xB83AA687, 0x37F8DB33, 0xB778D587,
   0x3F7FFEA1, 0x382F5897, 0xB82F57A6, 0x37E9C7B3, 0xB769C2B1, 0x3F7FFEB7, 0x3824B8FB, 0xB824B827, 0x37DB9DFE, 0xB75B9994,
   0x3F7FFECB, 0x381ABE23, 0xB81ABD68, 0x37CE4FED, 0xB74E4C07, 0x3F7FFEDD, 0x38115E14, 0xB8115D6F, 0x37C1D031, 0xB741CCC1,
   0x3F7FFEEF, 0x38088F6E, 0xB8088EDC, 0x37B6124C, 0xB7360F43, 0x3F7FFEFF, 0x38004960, 0xB80048E0, 0x37AB0A7E, 0xB72B07D1,
   0x3F7FFF0F, 0x37F1074B, 0xB7F10668, 0x37A0ADC2, 0xB720AB64, 0x3F7FFF1E, 0x37E26CEE, 0xB7E26C26, 0x3796F1B9, 0xB716EFA3,
   0x3F7FFF2B, 0x37D4B50F, 0xB7D4B45E, 0x378DCCA8, 0xB70DCAD1, 0x3F7FFF38, 0x37C7D1F4, 0xB7C7D158, 0x3785356B, 0xB70533CB,
   0x3F7FFF44, 0x37BBB6BA, 0xB7BBB630, 0x377A46D1, 0xB6FA43F3, 0x3F7FFF50, 0x37B05745, 0xB7B056CB, 0x376B1D20, 0xB6EB1A98,
   0x3F7FFF5A, 0x37A5A834, 0xB7A5A7C9, 0x375CDE98, 0xB6DCDC5D, 0x3F7FFF64, 0x379B9ED8, 0xB79B9E79, 0x374F7CFB, 0xB6CF7B02,
   0x3F7FFF6E, 0x37923127, 0xB79230D3, 0x3742EAE6, 0xB6C2E928, 0x3F7FFF77, 0x378955B2, 0xB7895568, 0x37371BC6, 0xB6B71A3D,
   0x3F7FFF7F, 0x3781039D, 0xB781035C, 0x372C03CD, 0xB6AC0273, 0x3F7FFF87, 0x3772652C, 0xB77264B9, 0x372197E3, 0xB6A196B1]

/-- K of 06 R141 for TANH, five coefficients a segment from segment 1, from entry 1000. -/
def romTanh10 : List (BitVec 32) :=
  [0x3F7FFF8E, 0x3763B596, 0xB763B531, 0x3717CD9A, 0xB697CC8B, 0x3F7FFF95, 0x3755E9C7, 0xB755E96E, 0x370E9B28, 0xB68E9A39,
   0x3F7FFF9C, 0x3748F3F3, 0xB748F3A4, 0x3705F75A, 0xB685F687, 0x3F7FFFA2, 0x373CC723, 0xB73CC6DD, 0x36FBB318, 0xB67BB1A5,
   0x3F7FFFA7, 0x37315729, 0xB73156EB, 0x36EC7340, 0xB66C71F9, 0x3F7FFFAD, 0x37269894, 0xB726985D, 0x36DE1FEC, 0xB65E1ECB,
   0x3F7FFFB2, 0x371C80A4, 0xB71C8074, 0x36D0AAC6, 0xB650A9C7, 0x3F7FFFB6, 0x37130542, 0xB7130518, 0x36C4065A, 0xB6440579,
   0x3F7FFFBB, 0x370A1CF1, 0xB70A1CCC, 0x36B82602, 0xB638253B, 0x3F7FFFBF, 0x3701BEC8, 0xB701BEA7, 0x36ACFDDC, 0xB62CFD2D,
   0x3F7FFFC3, 0x36F3C4D0, 0xB6F3C496, 0x36A282C1, 0xB6228227, 0x3F7FFFC7, 0x36E4FFE9, 0xB6E4FFB6, 0x3698AA35, 0xB618A9AC,
   0x3F7FFFCA, 0x36D72014, 0xB6D71FE7, 0x368F6A5E, 0xB60F69E5, 0x3F7FFFCD, 0x36CA1770, 0xB6CA1749, 0x3686B9FB, 0xB606B991,
   0x3F7FFFD1, 0x36BDD8F5, 0xB6BDD8D2, 0x367D20BA, 0xB5FD1FFE, 0x3F7FFFD3, 0x36B25862, 0xB6B25843, 0x366DCAB1, 0xB5EDCA0B,
   0x3F7FFFD6, 0x36A78A35, 0xB6A78A1A, 0x365F6284, 0xB5DF61F2, 0x3F7FFFD9, 0x369D63A1, 0xB69D6388, 0x3651D9CB, 0xB5D1D94A,
   0x3F7FFFDB, 0x3693DA7D, 0xB693DA67, 0x364522FB, 0xB5C5228A, 0x3F7FFFDD, 0x368AE53F, 0xB68AE52C, 0x3639315E, 0xB5B930FA]

/-- K of 06 R141 for TANH, five coefficients a segment from segment 1, from entry 1100. -/
def romTanh11 : List (BitVec 32) :=
  [0x3F7FFFDF, 0x36827AF2, 0xB6827AE2, 0x362DF900, 0xB5ADF8A8, 0x3F7FFFE1, 0x36752656, 0xB6752638, 0x36236EA9, 0xB5A36E5B,
   0x3F7FFFE3, 0x36664C02, 0xB6664BE8, 0x361987CD, 0xB5998788, 0x3F7FFFE5, 0x3658580C, 0xB65857F5, 0x36103A85, 0xB5903A48,
   0x3F7FFFE7, 0x364B3C81, 0xB64B3C6D, 0x36077D83, 0xB5877D4D, 0x3F7FFFE8, 0x363EEC43, 0xB63EEC31, 0x35FE9012, 0xB57E8FB3,
   0x3F7FFFEA, 0x36335B00, 0xB6335AF1, 0x35EF23C2, 0xB56F236E, 0x3F7FFFEB, 0x36287D28, 0xB6287D1A, 0x35E0A6A8, 0xB560A65E,
   0x3F7FFFEC, 0x361E47DA, 0xB61E47CE, 0x35D30A47, 0xB5530A06, 0x3F7FFFED, 0x3614B0E2, 0xB614B0D7, 0x35C64102, 0xB54640C8,
   0x3F7FFFEF, 0x360BAEA6, 0xB60BAE9D, 0x35BA3E0D, 0xB53A3DDA, 0x3F7FFFF0, 0x36033825, 0xB603381D, 0x35AEF565, 0xB52EF538,
   0x3F7FFFF1, 0x35F689CD, 0xB5F689BF, 0x35A45BC1, 0xB5245B99, 0x3F7FFFF2, 0x35E799EF, 0xB5E799E2, 0x359A6685, 0xB51A6662,
   0x3F7FFFF2, 0x35D991BE, 0xB5D991B2, 0x35910BBD, 0xB5110B9E, 0x3F7FFFF3, 0x35CC6330, 0xB5CC6326, 0x3588420C, 0xB50841F1,
   0x3F7FFFF4, 0x35C00117, 0xB5C0010E, 0x358000A8, 0xB5000090, 0x3F7FFFF5, 0x35B45F0E, 0xB5B45F06, 0x35707E9E, 0xB4F07E74,
   0x3F7FFFF5, 0x35A97174, 0xB5A9716D, 0x3561EC7E, 0xB4E1EC59, 0x3F7FFFF6, 0x359F2D59, 0xB59F2D53, 0x35543C5E, 0xB4D43C3D]

/-- K of 06 R141 for TANH, five coefficients a segment from segment 1, from entry 1200. -/
def romTanh12 : List (BitVec 32) :=
  [0x3F7FFFF7, 0x35958878, 0xB5958873, 0x3547608B, 0xB4C7606D, 0x3F7FFFF7, 0x358C792D, 0xB58C7928, 0x353B4C28, 0xB4BB4C0F,
   0x3F7FFFF8, 0x3583F666, 0xB583F662, 0x352FF322, 0xB4AFF30B, 0x3F7FFFF8, 0x3577EF41, 0xB577EF3A, 0x35254A1C, 0xB4A54A08,
   0x3F7FFFF9, 0x3568E9BA, 0xB568E9B4, 0x351B466F, 0xB49B465D, 0x3F7FFFF9, 0x355ACD30, 0xB55ACD2A, 0x3511DE15, 0xB491DE05,
   0x3F7FFFFA, 0x354D8B86, 0xB54D8B81, 0x350907A4, 0xB4890796, 0x3F7FFFFA, 0x35411778, 0xB5411773, 0x3500BA47, 0xB480BA3B,
   0x3F7FFFFA, 0x35356491, 0xB535648D, 0x34F1DB5C, 0xB471DB47, 0x3F7FFFFB, 0x352A671E, 0xB52A671B, 0x34E3341A, 0xB4633408,
   0x3F7FFFFB, 0x35201421, 0xB520141E, 0x34D5701F, 0xB455700F, 0x3F7FFFFB, 0x35166145, 0xB5166142, 0x34C881A6, 0xB4488197,
   0x3F7FFFFC, 0x350D44D7, 0xB50D44D4, 0x34BC5BBF, 0xB43C5BB2, 0x3F7FFFFC, 0x3504B5B9, 0xB504B5B7, 0x34B0F243, 0xB430F238,
   0x3F7FFFFC, 0x34F956B8, 0xB4F956B4, 0x34A639C8, 0xB42639BE, 0x3F7FFFFC, 0x34EA3B69, 0xB4EA3B66, 0x349C2795, 0xB41C278C,
   0x3F7FFFFD, 0x34DC0A69, 0xB4DC0A66, 0x3492B196, 0xB412B18E, 0x3F7FFFFD, 0x34CEB586, 0xB4CEB584, 0x3489CE54, 0xB409CE4D,
   0x3F7FFFFD, 0x34C22F6A, 0xB4C22F68, 0x348174ED, 0xB40174E7, 0x3F7FFFFD, 0x34B66B8E, 0xB4B66B8C, 0x34733A0A, 0xB3F339FF]

/-- K of 06 R141 for TANH, five coefficients a segment from segment 1, from entry 1300. -/
def romTanh13 : List (BitVec 32) :=
  [0x3F7FFFFD, 0x34AB5E2C, 0xB4AB5E2A, 0x34647D88, 0xB3E47D7F, 0x3F7FFFFD, 0x34A0FC36, 0xB4A0FC35, 0x3456A597, 0xB3D6A58F,
   0x3F7FFFFE, 0x34973B4A, 0xB4973B49, 0x3449A45E, 0xB3C9A456, 0x3F7FFFFE, 0x348E11A6, 0xB48E11A5, 0x343D6CD9, 0xB3BD6CD2,
   0x3F7FFFFE, 0x34857620, 0xB485761F, 0x3431F2D1, 0xB3B1F2CB, 0x3F7FFFFE, 0x347AC035, 0xB47AC033, 0x34272ACA, 0xB3A72AC5,
   0x3F7FFFFE, 0x346B8F00, 0xB46B8EFE, 0x341D09FC, 0xB39D09F8, 0x3F7FFFFE, 0x345D496D, 0xB45D496B, 0x34138646, 0xB3938642,
   0x3F7FFFFE, 0x344FE136, 0xB44FE135, 0x340A9621, 0xB38A961E, 0x3F7FFFFE, 0x344348F1, 0xB44348F0, 0x3402309F, 0xB382309B,
   0x3F7FFFFF, 0x34377406, 0xB4377405, 0x33F49AAF, 0xB3749AA9, 0x3F7FFFFF, 0x342C569E, 0xB42C569D, 0x33E5C8CF, 0xB365C8CA,
   0x3F7FFFFF, 0x3421E59B, 0xB421E59A, 0x33D7DCCC, 0xB357DCC7, 0x3F7FFFFF, 0x3418168B, 0xB418168B, 0x33CAC8B7, 0xB34AC8B3,
   0x3F7FFFFF, 0x340EDF9F, 0xB40EDF9E, 0x33BE7F7C, 0xB33E7F78, 0x3F7FFFFF, 0x3406379D, 0xB406379D, 0x33B2F4D0, 0xB332F4CD,
   0x3F7FFFFF, 0x33FC2BBE, 0xB3FC2BBD, 0x33A81D27, 0xB3281D25, 0x3F7FFFFF, 0x33ECE482, 0xB3ECE481, 0x339DEDAA, 0xB31DEDA8,
   0x3F7FFFFF, 0x33DE8A3E, 0xB3DE8A3D, 0x33945C28, 0xB3145C26, 0x3F7FFFFF, 0x33D10E97, 0xB3D10E96, 0x338B5F0E, 0xB30B5F0C]

/-- K of 06 R141 for TANH, five coefficients a segment from segment 1, from entry 1400. -/
def romTanh14 : List (BitVec 32) :=
  [0x3F7FFFFF, 0x33C46410, 0xB3C46410, 0x3382ED5F, 0xB302ED5D, 0x3F7FFFFF, 0x33B87DFE, 0xB3B87DFD, 0x3375FD50, 0xB2F5FD4D,
   0x3F7FFFFF, 0x33AD5078, 0xB3AD5078, 0x336715F4, 0xB2E715F2, 0x3F7FFFFF, 0x33A2D052, 0xB3A2D052, 0x335915C1, 0xB2D915BF,
   0x3F7FFFFF, 0x3398F30A, 0xB398F309, 0x334BEEB6, 0xB2CBEEB4, 0x3F7FFFFF, 0x338FAEC1, 0xB38FAEC1, 0x333F93AB, 0xB2BF93A9,
   0x3F7FFFFF, 0x3386FA33, 0xB386FA33, 0x3333F843, 0xB2B3F842, 0x3F800000, 0x337D9955, 0xB37D9955, 0x332910E3, 0xB2A910E1,
   0x3F800000, 0x336E3BF3, 0xB36E3BF2, 0x331ED2A1, 0xB29ED2A0]

/-- K of 06 R141 for TANH, five coefficients a segment from segment 1. -/
def romTanh : List (BitVec 32) := romTanh0 ++ romTanh1 ++ romTanh2 ++ romTanh3 ++ romTanh4 ++ romTanh5 ++ romTanh6 ++ romTanh7 ++ romTanh8 ++ romTanh9 ++ romTanh10 ++ romTanh11 ++ romTanh12 ++ romTanh13 ++ romTanh14

/-- K of 06 R141 for ERF, five coefficients a segment from segment 1, from entry 0. -/
def romErf0 : List (BitVec 32) :=
  [0x3D587D7F, 0x3F901D93, 0xBD582C5D, 0xBEBF4F42, 0x3CD7DB4C, 0x3DB42C8D, 0x3F8F8DBD, 0xBDB3712D, 0xBEBD1183, 0x3D32B642,
   0x3DFBC0AD, 0x3F8EB70A, 0xBDF9C052, 0xBEB9BBE1, 0x3D77C269, 0x3E216BFE, 0x3F8D9AB9, 0xBE1F4E10, 0xBEB556A3, 0x3D9D3468,
   0x3E44A808, 0x3F8C3A6F, 0xBE40D058, 0xBEAFECA4, 0x3DBD043E, 0x3E6783B7, 0x3F8A9834, 0xBE613755, 0xBEA98B31, 0x3DDB056F,
   0x3E84F76B, 0x3F88B66C, 0xBE802B06, 0xBEA241D8, 0x3DF6F2E5, 0x3E95ECEE, 0x3F8697D3, 0xBE8F0150, 0xBE9A2233, 0x3E08474B,
   0x3EA69AF8, 0x3F843F72, 0xBE9D0B58, 0xBE913FAF, 0x3E13D123, 0x3EB6FA85, 0x3F81B0A0, 0xBEAA37D1, 0xBE87AF4A, 0x3E1E0010,
   0x3EC70501, 0x3F7DDDDF, 0xBEB67779, 0xBE7B0E96, 0x3E26C19A, 0x3ED6B44B, 0x3F77FC62, 0xBEC1BD2D, 0xBE65BDFC, 0x3E2E07E4,
   0x3EE602C2, 0x3F71C4C4, 0xBECBFE06, 0xBE4F9CCD, 0x3E33C9C2, 0x3EF4EB45, 0x3F6B3F51, 0xBED53161, 0xBE38DBEC, 0x3E3802BF,
   0x3F01B49D, 0x3F64748E, 0xBEDD50EA, 0xBE21AC7C, 0x3E3AB30C, 0x3F08BC4A, 0x3F5D6D2D, 0xBEE45896, 0xBE0A3F54, 0x3E3BDF63,
   0x3F0F8AE6, 0x3F5631F4, 0xBEEA46A3, 0xBDE588DD, 0x3E3B90CD, 0x3F161EF6, 0x3F4ECBB1, 0xBEEF1B84, 0xBDB6D4C0, 0x3E39D46D,
   0x3F1C7745, 0x3F474323, 0xBEF2D9D2, 0xBD88BBBC, 0x3E36BB26, 0x3F2292E4, 0x3F3FA0EE, 0xBEF58631, 0xBD372523, 0x3E325945]

/-- K of 06 R141 for ERF, five coefficients a segment from segment 1, from entry 100. -/
def romErf1 : List (BitVec 32) :=
  [0x3F287126, 0x3F37ED89, 0xBEF72730, 0xBCBEA232, 0x3E2CC61A, 0x3F2E11A4, 0x3F30312E, 0xBEF7C529, 0xBB28D9CC, 0x3E261B8D,
   0x3F337437, 0x3F2873CF, 0xBEF76A17, 0x3C8D411C, 0x3E1E75A8, 0x3F3898F3, 0x3F20BD06, 0xBEF62171, 0x3D13C319, 0x3E15F220,
   0x3F3D802C, 0x3F19140F, 0xBEF3F7F8, 0x3D5C72E3, 0x3E0CAFDE, 0x3F422A6B, 0x3F117FB9, 0xBEF0FB8B, 0x3D902C3A, 0x3E02CE8A,
   0x3F46986F, 0x3F0A0662, 0xBEED3AF8, 0x3DAF961E, 0x3DF0DC1F, 0x3F4ACB29, 0x3F02ADEB, 0xBEE8C5CB, 0x3DCC5B4F, 0x3DDB5C66,
   0x3F4EC3B4, 0x3EF6F777, 0xBEE3AC22, 0x3DE667DF, 0x3DC55C4C, 0x3F528358, 0x3EE8E968, 0xBEDDFE77, 0x3DFDAF8F, 0x3DAF184A,
   0x3F560B7E, 0x3EDB3A64, 0xBED7CD7B, 0x3E0916C4, 0x3D98CA3B, 0x3F595DB4, 0x3ECDF21C, 0xBED129E4, 0x3E11F1FD, 0x3D82A8C1,
   0x3F5C7BA1, 0x3EC11733, 0xBECA2449, 0x3E196DDA, 0x3D59CD6E, 0x3F5F6707, 0x3EB4AF46, 0xBEC2CCF8, 0x3E1F91CB, 0x3D2F658D,
   0x3F6221BB, 0x3EA8BEF3, 0xBEBB33D5, 0x3E24680A, 0x3D066E0E, 0x3F64ADA3, 0x3E9D49D9, 0xBEB3683B, 0x3E27FD4A, 0x3CBE62F2,
   0x3F670CB1, 0x3E9252AA, 0xBEAB78DF, 0x3E2A606B, 0x3C67C15D, 0x3F6940E2, 0x3E87DB31, 0xBEA373B7, 0x3E2BA22A, 0x3BB7083E,
   0x3F6B4C36, 0x3E7BC8C2, 0xBE9B65E8, 0x3E2BD4CD, 0xBB1D044D, 0x3F6D30B1, 0x3E68DCC1, 0xBE935BB2, 0x3E2B0BD2, 0xBC200594]

/-- K of 06 R141 for ERF, five coefficients a segment from segment 1, from entry 200. -/
def romErf2 : List (BitVec 32) :=
  [0x3F6EF055, 0x3E56F136, 0xBE8B6069, 0x3E295BA3, 0xBC8733DB, 0x3F708D1F, 0x3E460399, 0xBE837E64, 0x3E26D948, 0xBCB91591,
   0x3F72090A, 0x3E36102B, 0xBE777DFB, 0x3E239A1D, 0xBCE59B60, 0x3F736604, 0x3E27120F, 0xBE68551D, 0x3E1FB38E, 0xBD066491,
   0x3F74A5F2, 0x3E19036E, 0xBE5990E1, 0x3E1B3ADB, 0xBD1758DE, 0x3F75CAAC, 0x3E0BDD96, 0xBE4B3DFE, 0x3E1644DC, 0xBD25BACD,
   0x3F76D5FE, 0x3DFF3230, 0xBE3D6740, 0x3E10E5CF, 0xBD31A095, 0x3F77C9A2, 0x3DE85BD0, 0xBE301594, 0x3E0B312B, 0xBD3B259A,
   0x3F78A741, 0x3DD326F3, 0xBE235020, 0x3E053979, 0xBD4269A2, 0x3F797075, 0x3DBF81B6, 0xBE171C5A, 0x3DFE206B, 0xBD479006,
   0x3F7A26C4, 0x3DAD59A1, 0xBE0B7E20, 0x3DF18B6E, 0xBD4ABEE6, 0x3F7ACBA1, 0x3D9C9BD9, 0xBE0077D8, 0x3DE4D235, 0xBD4C1E6A,
   0x3F7B606E, 0x3D8D354B, 0xBDEC1519, 0x3DD8106B, 0xBD4BD80D, 0x3F7BE677, 0x3D7E25AF, 0xBDD86C17, 0x3DCB5F1D, 0xBD4A15EE,
   0x3F7C5EF9, 0x3D6442F0, 0xBDC5F20C, 0x3DBED4B6, 0xBD470239, 0x3F7CCB1A, 0x3D4C9CBD, 0xBDB4A25F, 0x3DB28500, 0xBD42C695,
   0x3F7D2BEF, 0x3D370E2C, 0xBDA476BC, 0x3DA68134, 0xBD3D8BAD, 0x3F7D827B, 0x3D237336, 0xBD95674F, 0x3D9AD80A, 0xBD3778BE,
   0x3F7DCFB0, 0x3D11A8E1, 0xBD876B02, 0x3D8F95D4, 0xBD30B341, 0x3F7E146C, 0x3D018D6B, 0xBD74EF5E, 0x3D84C49D, 0xBD295E9A]

/-- K of 06 R141 for ERF, five coefficients a segment from segment 1, from entry 300. -/
def romErf3 : List (BitVec 32) :=
  [0x3F7E517F, 0x3CE600C0, 0xBD5D04B9, 0x3D74D897, 0xBD219BE4, 0x3F7E87AA, 0x3CCBC574, 0xBD46FED4, 0x3D612590, 0xBD1989BE,
   0x3F7EB79A, 0x3CB42DDB, 0xBD32C57F, 0x3D4E784B, 0xBD114430, 0x3F7EE1F4, 0x3C9F01EC, 0xBD203FF0, 0x3D3CD599, 0xBD08E49E,
   0x3F7F074B, 0x3C8C0CC2, 0xBD0F550E, 0x3D2C3F46, 0xBD0081BD, 0x3F7F2826, 0x3C763931, 0xBCFFD76D, 0x3D1CB476, 0xBCF05F36,
   0x3F7F4500, 0x3C58059C, 0xBCE3D5EB, 0x3D0E31F2, 0xBCDFFF60, 0x3F7F5E4B, 0x3C3D27B5, 0xBCCA7480, 0x3D00B27C, 0xBCD001E7,
   0x3F7F746A, 0x3C254E7B, 0xBCB3833A, 0x3CE85E42, 0xBCC07FF3, 0x3F7F87BB, 0x3C102ED6, 0xBC9ED398, 0x3CD13EF9, 0xBCB18E2B,
   0x3F7F9890, 0x3BFB06C5, 0xBC8C38C8, 0x3CBBF404, 0xBCA33D05, 0x3F7FA734, 0x3BDA1876, 0xBC770FB6, 0x3CA8687E, 0xBC959916,
   0x3F7FB3E8, 0x3BBD1D6F, 0xBC592FCE, 0x3C968626, 0xBC88AB6D, 0x3F7FBEEA, 0x3BA3AA56, 0xBC3E8448, 0x3C8635CB, 0xBC78F3D0,
   0x3F7FC86E, 0x3B8D5D3C, 0xBC26C3FD, 0x3C6EBF67, 0xBC620F22, 0x3F7FD0A5, 0x3B73BA24, 0xBC11AA40, 0x3C53D7D3, 0xBC4CA9E5,
   0x3F7FD7B7, 0x3B51B22A, 0xBBFDEDBE, 0x3C3B8515, 0xBC38C0DD, 0x3F7FDDCC, 0x3B341080, 0xBBDCDC3D, 0x3C25980D, 0xBC264D20,
   0x3F7FE303, 0x3B1A5183, 0xBBBFB140, 0x3C11E2A9, 0xBC1544AE, 0x3F7FE77A, 0x3B03FEDA, 0xBBA6068F, 0x3C003843, 0xBC059B02]

/-- K of 06 R141 for ERF, five coefficients a segment from segment 1, from entry 400. -/
def romErf4 : List (BitVec 32) :=
  [0x3F7FEB4B, 0x3AE15CE8, 0xBB8F7E28, 0x3BE0DBCB, 0xBBEE832C, 0x3F7FEE8C, 0x3AC002F8, 0xBB7783D4, 0x3BC4B50B, 0xBBD450BD,
   0x3F7FF151, 0x3AA346D7, 0xBB55066C, 0x3BABAE5A, 0xBBBC7C67, 0x3F7FF3AB, 0x3A8A9237, 0xBB36F50D, 0x3B957E2D, 0xBBA6E26B,
   0x3F7FF5AA, 0x3A6ABFA9, 0xBB1CCE06, 0x3B81DF81, 0xBB935E40, 0x3F7FF75A, 0x3A4673AF, 0xBB061C2D, 0x3B6123CE, 0xBB81CB2B,
   0x3F7FF8C7, 0x3A2770A1, 0xBAE4EBFD, 0x3B42B30A, 0xBB640973, 0x3F7FF9FB, 0x3A0CFFA3, 0xBAC2F980, 0x3B27FE09, 0xBB47CE5E,
   0x3F7FFAFE, 0x39ED0088, 0xBAA5B75F, 0x3B109EEF, 0xBB2E9FB2, 0x3F7FFBD7, 0x39C6CC35, 0xBA8C8E62, 0x3AF870C4, 0xBB183AAA,
   0x3F7FFC8E, 0x39A66D2A, 0xBA6DF012, 0x3AD4EA63, 0xBB045F8B, 0x3F7FFD26, 0x398B0DF2, 0xBA48FA28, 0x3AB60FE0, 0xBAE5A3EB,
   0x3F7FFDA5, 0x3967EA53, 0xBA29682B, 0x3A9B5506, 0xBAC6B230, 0x3F7FFE0F, 0x3941045E, 0xBA0E8039, 0x3A843B5F, 0xBAAB7FA1,
   0x3F7FFE67, 0x39205461, 0xB9EF3DE8, 0x3A60A28E, 0xBA93A974, 0x3F7FFEB0, 0x3904EAFC, 0xB9C86A50, 0x3A3E61F3, 0xBA7DA8A4,
   0x3F7FFEED, 0x38DBF4A3, 0xB9A78B58, 0x3A20FF54, 0xBA59586B, 0x3F7FFF1F, 0x38B5A381, 0xB98BC6D3, 0x3A07D930, 0xBA39C876,
   0x3F7FFF48, 0x3895B43B, 0xB968BE33, 0x39E4C0C8, 0xBA1E6CAD, 0x3F7FFF6A, 0x3876494D, 0xB9415F8E, 0x39C02CFA, 0xBA06C605]

/-- K of 06 R141 for ERF, five coefficients a segment from segment 1, from entry 500. -/
def romErf5 : List (BitVec 32) :=
  [0x3F7FFF86, 0x384A31BF, 0xB9205572, 0x39A11845, 0xB9E4C395, 0x3F7FFF9D, 0x3825AC0E, 0xB904AAC7, 0x3986BF2C, 0xB9C1B1B6,
   0x3F7FFFB0, 0x38077B62, 0xB8DB1989, 0x3960ED40, 0xB9A39DB6, 0x3F7FFFBF, 0x37DD2782, 0xB8B48D41, 0x393B52C8, 0xB989E2D0,
   0x3F7FFFCC, 0x37B42611, 0xB8947B60, 0x391BAB55, 0xB967DD33, 0x3F7FFFD6, 0x379275B9, 0xB873B7E6, 0x390115C5, 0xB9427EE6,
   0x3F7FFFDE, 0x376DAD68, 0xB8479CA3, 0x38D59ED7, 0xB922C604, 0x3F7FFFE5, 0x37407A1D, 0xB8232782, 0x38B060E6, 0xB907E983,
   0x3F7FFFEA, 0x371B9188, 0xB8051580, 0x38915120, 0xB8E2728D, 0x3F7FFFEF, 0x36FAFBEC, 0xB7D8AB7B, 0x386EF038, 0xB8BC3716,
   0x3F7FFFF2, 0x36CA10CE, 0xB7B004A3, 0x384404B0, 0xB89C1508, 0x3F7FFFF5, 0x36A25D43, 0xB78EB3F8, 0x38207704, 0xB8812446,
   0x3F7FFFF7, 0x36823575, 0xB766EACE, 0x38031494, 0xB8553842, 0x3F7FFFF9, 0x36506F88, 0xB73A73C4, 0x37D5B2C3, 0xB82F9F43,
   0x3F7FFFFA, 0x36268119, 0xB7163E7D, 0x37ADD323, 0xB8105450, 0x3F7FFFFC, 0x3604BFB1, 0xB6F1A4F0, 0x378D176D, 0xB7ECB190,
   0x3F7FFFFD, 0x35D34296, 0xB6C1EE20, 0x37648F59, 0xB7C1A669, 0x3F7FFFFD, 0x35A7C64B, 0xB69B5294, 0x3738BC56, 0xB79E14CF,
   0x3F7FFFFE, 0x3584FAE8, 0xB6784C7D, 0x3714FFD1, 0xB780C24F, 0x3F7FFFFE, 0x3552644F, 0xB646106E, 0x36EFD872, 0xB7514965]

/-- K of 06 R141 for ERF, five coefficients a segment from segment 1, from entry 600. -/
def romErf6 : List (BitVec 32) :=
  [0x3F7FFFFF, 0x35261BE0, 0xB61DAC76, 0x36C0A271, 0xB729B67D, 0x3F7FFFFF, 0x3502E402, 0xB5FA886C, 0x369A6435, 0xB709518D,
   0x3F7FFFFF, 0x34CDE050, 0xB5C6A36D, 0x3676F63A, 0xB6DDB9F3, 0x3F7FFFFF, 0x34A19816, 0xB59D2CEE, 0x36451A99, 0xB6B29DCB,
   0x3F800000, 0x347D2DA8, 0xB5783BC3, 0x361CFB72, 0xB68F92B6, 0x3F800000, 0x3445F27C, 0xB543A0A5, 0x35F9883F, 0xB6664E43,
   0x3F800000, 0x341A767C, 0xB519DC06, 0x35C5E89D, 0xB638505F]

/-- K of 06 R141 for ERF, five coefficients a segment from segment 1. -/
def romErf : List (BitVec 32) := romErf0 ++ romErf1 ++ romErf2 ++ romErf3 ++ romErf4 ++ romErf5 ++ romErf6

end Sys2Proof.Machine
end

