-- ==== Sys2Proof/Config.lean ====
section
/-! DEFINITION. What the spec leaves open: free values that nothing in Lean can evaluate, each named in a log entry. -/

namespace Sys2Proof.Config

/-- The energy coefficient of an event class of this part after so many recalibrations, in 2⁻¹⁶ nJ (17 R446, R451).
DESIGN CHOICE, safe: log entry 10. -/
opaque energyCoeff : Nat → Nat → Nat

/-- The leakage tables of this part (17 R446), for a core (0) and the uncore (1), by voltage row and temperature column: the
static energy of one course in 2⁻¹⁶ nJ; flash values of the part (log entry 10). -/
opaque leakage : Nat → Nat → Nat → Nat

/-- The characterised voltage minimum of this part plus its margin, in mV (17 R468); a flash value of the part (log entry 10). -/
opaque vFloor : Nat

/-- The code of a job-ending error that Table 18.6 gives no code (15 R402), by its place in Table 15.4's row J.
DESIGN CHOICE, safe: log entry 11. -/
opaque endCode : Nat → Nat

/-- The escrow pages of another member of this chip's parity group, by tenancy and member (16 R435): no record gives them.
DESIGN CHOICE, safe: log entry 12. -/
opaque groupPages : Nat → Nat → Nat

/-- Whether a member of this chip's parity group was lost and is being rebuilt (16 R443), by tenancy and member (log entry 12). -/
opaque lostMember : Nat → Nat → Bool

/-- A fresh value of any width, by the number of free values drawn before it. DESIGN CHOICE, safe: log entry 9. -/
opaque freeValue : Nat → Nat

end Sys2Proof.Config
end

