-- ==== Sys2Proof/Machine/State.lean ====
section
/-! DEFINITION. The state of the Ninel TX7: every register, store, queue, mode and pin the spec gives it, as plain data, and the state after reset. -/

namespace Sys2Proof.Machine

open Sys2Proof

/-- Finite data by number: (key, value) pairs, keys strictly rising, so that equal contents are equal lists. -/
abbrev Sparse (α : Type) := List (Nat × α)

/-- A memory of 256-bit words with their syndromes, by word address (12 R300). A word not listed is zero and clean
(21 R568, R569). -/
abbrev Mem := Sparse MemWord

/-- The word that an address holds which the memory does not list. -/
def MemWord.zero : MemWord := ⟨0, 0⟩

/-- What the part is and never changes: part number, stepping, serial number, and what test wrote (00 R1, 18 R484). -/
structure Ident where
  is64   : Bool := true
  isB0   : Bool := true
  serial : BitVec 64 := 0
deriving DecidableEq, Repr

/-- The error a SEC-DED entry holds (06 R158, 07 R165, 12 R308). -/
inductive CellErr where
  | clean
  | one (bit : BitVec 7)
  | bad
deriving DecidableEq, Repr

/-- A 64-bit entry under a SEC-DED code: hallmark store, scale ledger. -/
structure Cell64 where
  data : BitVec 64 := 0
  err  : CellErr := .clean
deriving DecidableEq, Repr

/-- A purse entry (06 Table 06.6). -/
structure PurseEntry where
  value : BitVec 32 := 0
  valid : Bool := false
  tag   : BitVec 16 := 0
  err   : CellErr := .clean
deriving DecidableEq, Repr

/-- One accumulator or drain-behind row of one column (04 R88). -/
structure Acc where
  n       : BitVec 96 := 0
  nan     : Bool := false
  pinf    : Bool := false
  ninf    : Bool := false
  low     : Bool := false
  sat     : Bool := false
  residue : BitVec 8 := 0
  fp32    : Bool := false
  poison  : Bool := false
deriving DecidableEq, Repr

/-- The chain that a row and half of an engine's bank holds (03 R60, R62; 04 R88): its anchor; `ap` and `aq`, the largest tile
exponents it has consumed (R60); `next`, the K-block that continues a heritage chain (R80); `scale`, the two tensor scales of
heritage FP8 content (R77); `her`, whether a heritage product wrote it; `part`, whether a ledger partial was preloaded
(R80); `hand`, whether the row holds a handoff block not yet drained (04 R89, 11 R288). -/
structure Chain where
  anchor : BitVec 16 := 0
  ap     : Option Int := none
  aq     : Option Int := none
  next   : Nat := 0
  scale  : Option (BitVec 32 × BitVec 32) := none
  her    : Bool := false
  part   : Bool := false
  hand   : Bool := false
deriving DecidableEq, Repr

/-- Terms on their way into the rows of a bank (04 R85, Table 04.1): row `row + i` of the open halves is written in cycle
`first + step × i` and every `period` cycles after it, `reps` times in all; `hand` marks the writes of a handoff (R89). -/
structure TermRun where
  bank   : Nat
  hand   : Bool
  row    : Nat
  rows   : Nat
  h0     : Bool
  h1     : Bool
  first  : Nat
  period : Nat
  reps   : Nat
  step   : Nat
deriving DecidableEq, Repr

/-- A product's content for a bank whose rows were still bound when it issued (04 R90, R577): the model keeps it in place `slot`
until they are free. `runs` are its terms; `due` is the cycle of the first of them that comes before its row is free, where one
does, and `set`, `page` and `bundle` are what that hazard names. -/
structure Wait where
  bank   : Nat
  slot   : Nat
  runs   : List TermRun
  due    : Option Nat
  set    : List Nat
  page   : BitVec 3
  bundle : Nat
deriving DecidableEq, Repr

/-- A weight buffer with the registers beside it (01 R14; 04 R86; 05 R114): the words of the K-block loaded last, of its
shingles and of its index, in the order of the load. -/
structure WBuf where
  words : List MemWord := []
  sh    : List MemWord := []
  idx   : List MemWord := []
deriving DecidableEq, Repr

/-- One engine, its times in cycles of its core's unit clock (10 R247): when each weight buffer is last read (04 R87) and what it
holds; the terms in flight; the running or last drain (04 R91, R92, R96): first and last cycle, bank, order, values per
cycle, rows and halves; the running or last preload (R95); and what waits for a bank. -/
structure Engine where
  buf0Last   : Nat := 0
  buf1Last   : Nat := 0
  buf0       : WBuf := {}
  buf1       : WBuf := {}
  terms      : List TermRun := []
  drainFrom  : Nat := 0
  drainTo    : Nat := 0
  drainBank  : Bool := false
  drainCol   : Bool := false
  drainPace  : Nat := 32
  drainRows  : Nat := 128
  drainHalves : Nat := 2
  preFrom    : Nat := 0
  preTo      : Nat := 0
  preHalves  : Nat := 2
  waits      : List Wait := []
deriving DecidableEq, Repr

/-- A paired product that has issued and waits for its partner's half of the broadcast (05 R115): the cycle of its first
vector, its descriptor with the indices bound at issue (10 R264), and the bundle that issued it. -/
structure PairWait where
  first  : Nat
  desc   : BitVec 512
  x      : Nat
  xq     : Nat
  page   : BitVec 3
  bundle : Nat
deriving DecidableEq, Repr

/-- A descriptor-store entry (10 R263, R265, 11 R283); the two syndromes are those of its two words. -/
structure DescEntry where
  kind : BitVec 3 := 0
  data : BitVec 512 := 0
  ro   : Bool := false
  syn0 : BitVec 16 := 0
  syn1 : BitVec 16 := 0
deriving DecidableEq, Repr

/-- One level of a static loop (10 R256): the first body bundle, the bundle after the body, trips and index. -/
structure LoopFrame where
  first : Nat := 0
  stop  : Nat := 0
  trips : Nat := 0
  index : Nat := 0
deriving DecidableEq, Repr

/-- The sequencer of one core within its course (10 R247 to R270). `lastPos` is the schedule position of the bundle
that issued last plus one (0 before the first), so the next bundle issues at `lastPos + δ - 1`. `base` is the core's
unit clock at position 0 of its course (10 R247) and `len` its schedule length once its `CEND` has issued. `ret` is the return
point of the fallback region that runs, and `region` its first bundle (10 R268); `endAt` the tally of its `CEND`. -/
structure Seq where
  page    : BitVec 3 := 0
  bundle  : Nat := 0
  lastPos : Nat := 0
  loops   : List LoopFrame := []
  ret     : Option (BitVec 3 × Nat) := none
  region  : Option (BitVec 3 × Nat) := none
  ended   : Bool := false
  base    : Nat := 0
  len     : Nat := 0
  endAt   : Nat := 0
deriving DecidableEq, Repr

/-- A word of an HBM read on its way to a core (12 R314): the cycle of the core's unit clock it lands in, where (target
0 core store, 1 mailbox, 2 program store), the HBM word it was read from where one word gives one word, the
hallmark its block gets with its last word, the tag its page gets after its last (10 R261), and the bytes it writes. -/
structure ReadInFlight where
  landsAt : Nat := 0
  target  : BitVec 2 := 0
  dst     : Nat := 0
  word    : MemWord
  src     : Option Nat := none
  last    : Option (BitVec 64) := none
  tag     : Option (BitVec 8) := none
  mask    : BitVec 32 := BitVec.allOnes 32
deriving DecidableEq, Repr

/-- A use of a link direction by a mesh transfer or a paired broadcast (05 R115; 10 R266, R267): the bundle and slot that issued it,
the first cycle of its core's unit clock it crosses in, its length and what it carries in a cycle, in 4 B. -/
structure MeshUse where
  core   : Core := 0
  page   : BitVec 3 := 0
  bundle : Nat := 0
  slot   : Nat := 3
  start  : Nat := 0
  units  : Nat := 0
  rate   : Nat := 128
deriving DecidableEq, Repr

/-- The tag of a program page whose refill by `HPAGE` has had its last word, and the cycle of its core's unit clock from which the
page has it (10 R261). -/
structure PageFill where
  tag   : BitVec 8 := 0
  ready : Nat := 0
deriving DecidableEq, Repr

/-- What a descriptor entry that `HDESC` wrote held before, and the cycle of its core's unit clock from which the new one is
latched (10 R265, 11 Table 11.13). -/
structure DescWas where
  from' : Nat := 0
  was   : DescEntry := {}
deriving DecidableEq, Repr

/-- The operation of a core that quantises longest (07 R170, 10 R276): the cycle of its core's unit clock it quantises to, its slot and
the bundle that issued it. -/
structure QuantOp where
  until' : Nat := 0
  slot   : Nat := 0
  page   : BitVec 3 := 0
  bundle : Nat := 0
deriving DecidableEq, Repr

/-- An open merge entry (12 R317): the core whose operation opened it and the cycle of that core's unit clock at which the operation
ends (none while it issues), the bytes written so far and which they are. -/
structure MergeEntry where
  core   : Core := 0
  closes : Option Nat := none
  word   : MemWord
  mask   : BitVec 32 := 0
deriving DecidableEq, Repr

/-- Core-store port use of an operation: from cycle `first` of the core's unit clock on, `reps` times, `period` cycles apart,
`burst` cycles in each of which it reads `rd` words, writes `wr`, reads `scl` tile scales (01 R16, 07 R165) and writes `mb` words of
the mailbox path (04 R93). -/
structure PortRun where
  first  : Nat
  period : Nat
  burst  : Nat
  reps   : Nat
  rd     : Nat := 0
  wr     : Nat := 0
  scl    : Nat := 0
  mb     : Nat := 0
deriving DecidableEq, Repr

/-- A foreground HBM request (12 R313): the tally tick it issues at and the cycle of its core's unit clock, its core, haul channel and
word index, its word, and the bundle that issued it. -/
structure HbmReq where
  tick   : Nat
  cyc    : Nat
  core   : Core
  ch     : Nat
  index  : Nat
  key    : Nat
  page   : BitVec 3
  bundle : Nat
deriving DecidableEq, Repr

/-- The stores of a physical core that no virtual core runs on (01 Table 01.1, R19; 12 R325; 18 R491), as it was left: each
under the keys of `Cores` less the core's part. -/
structure SpareStores where
  cs    : Mem := []
  prog  : Mem := []
  desc  : Sparse DescEntry := []
  purse : Sparse PurseEntry := []
  mbox  : Mem := []
  hall  : Sparse Cell64 := []
deriving DecidableEq, Repr

/-- The stores and units of the cores. `merges` are the merge entries open on core-store words, `idle` the stores of the physical cores,
9 × row + column, that no virtual core runs on. Keys hold the chip-wide virtual core c = 8 × physical row + virtual column:
core store 262,144 c + word; program store 8,192 c + 1,024 page + bundle; descriptor store 1,024 c + entry; purse
4,096 c + entry; mailbox 16,384 c + word; hallmark store 2,048 c + block; mailbox hallmark store 128 c + block;
page tag 8 c + page; mesh link directions 4 c + direction (0 to the right, 1 to the left, 2 down, 3 up); accumulators 262,144 c + 65,536 e + 32,768 bank + 256 row + column; bindings
2,048 c + 512 e + 256 bank + 2 row + half; engines 4 c + e; channel occupancy 4 c + channel. Banks 0 and 1 are the accumulator and
drain-behind rows; the places of content that waits for one (the model's own) come as further pairs, 16,777,216 and 131,072 apart. -/
structure Cores where
  cs       : Mem := []
  prog     : Mem := []
  desc     : Sparse DescEntry := []
  descWas  : Sparse DescWas := []
  purse    : Sparse PurseEntry := []
  mbox     : Mem := []
  hall     : Sparse Cell64 := []
  mhall    : Sparse Cell64 := []
  tags     : Sparse (BitVec 8) := []
  acc      : Sparse Acc := []
  bind     : Sparse Chain := []
  engines  : Sparse Engine := []
  bcast    : Sparse Nat := []
  pairs    : Sparse PairWait := []
  vxBusy   : Sparse Nat := []
  quants   : Sparse QuantOp := []
  merges   : Sparse MergeEntry := []
  idle     : Sparse SpareStores := []
  rwBusy   : Sparse Nat := []
  chBusy   : Sparse Nat := []
  seqs     : Sparse Seq := []
  reads    : Sparse (List ReadInFlight) := []
  fills    : Sparse PageFill := []
  links    : Sparse (List MeshUse) := []
  guard    : List Nat := []
  ports    : Sparse (List PortRun) := []
deriving DecidableEq, Repr

/-- HBM and the chip's memory service (12). `remapCs` and `remapHbm` are the failing words whose spares are in use (R322),
`repair` the rows of R323. HBM keys are 2³¹ stack + stack word. `seen` lists the words the last
scrub pass corrected; `seenCs` those of the core stores. `uncorrAt` the tallies of
uncorrectable words found, by physical core or 1,000 + stack (18 Table 18.11), `cands` those not yet remapped (HBM or core
store, and key). `stash` holds the hallmarks that travel with the blocks of pooled
stashes (08 R208), by the word of their bitmaps; `reqs` the foreground requests not yet past their slots, by window and
pseudo-channel: 512 × ⌊tick ÷ 256⌋ + 64 × stack + pseudo-channel (R313), `refreshed` and `calibrated` the windows of the last holes, from tally 0 on (R316); `later` those that a course in progress leaves to the
next one (10 R247); `merges` the merge entries open on words (R317). -/
structure Hbm where
  words     : Mem := []
  remapCs   : List Nat := []
  remapHbm  : List Nat := []
  seenCs    : List Nat := []
  seen      : List Nat := []
  repair    : List Nat := []
  stash     : Sparse (BitVec 64) := []
  passStart : Nat := 0
  lateLog   : Bool := false
  clearing  : List (Nat × Nat × Nat) := []
  uncorrAt  : List (Nat × Nat) := []
  cands     : List (Bool × Nat) := []
  reqs      : Sparse (List HbmReq) := []
  refreshed : Option Nat := none
  calibrated : Option Nat := none
  later     : List HbmReq := []
  merges    : Sparse MergeEntry := []
deriving DecidableEq, Repr

/-- A fabric port (13). `lost` is the tally at which link was lost, `failed` that its last link assay did not pass,
`failOver` the tallies of the flows' moves away from it. -/
structure PortSt where
  link     : Bool := false
  down     : Bool := false
  lost     : Option Nat := none
  locked   : Bool := false
  paused   : BitVec 8 := 0
  assay    : Bool := false
  failed   : Bool := false
  failOver : List Nat := []
deriving DecidableEq, Repr

/-- What an unacknowledged frame of a flow is sent from (13 R346, R351): a send slot of the channel, or the frame itself. -/
inductive Held where
  | slot (i : Nat)
  | frame (f : Frame)
deriving DecidableEq, Repr

/-- A frame of a flow that its receiver has not acknowledged: its sequence number, what it is sent from, and the credits
it returns (13 R347). -/
structure Unacked where
  seq    : BitVec 24 := 0
  what   : Held
  credit : Nat := 0
deriving DecidableEq, Repr

/-- The sending side of a flow (13 R349, R351, R352). `held` is what is not yet acknowledged, `queue` what waits behind
the 64 of R349, `port` the port the flow has moved to, `advanced` the tally its timer runs from. -/
structure SendFlow where
  next     : BitVec 24 := 0
  held     : List Unacked := []
  queue    : List Held := []
  port     : Option Port := none
  timeouts : Nat := 0
  onPort   : Nat := 0
  advanced : Nat := 0
deriving DecidableEq, Repr

/-- The receiving side of a flow (13 R349, R350); `owes` says that an acknowledgement is due, `port` is where its last
frame came. -/
structure RecvFlow where
  expected : BitVec 24 := 0
  nakSent  : Bool := false
  owes     : Bool := false
  port     : Port := 0
deriving DecidableEq, Repr

/-- The slots and credits of a channel (13 R346 to R348): the staged send slots, the next slot of the ring, the credits
spent, the credits and slots that came back at tally `backAt`; the parcels written and waited for, the slots that the next
`FWAIT` frees, the credits owed; and the parcels that came early: before this chip's own part of their collective, or before
its seal of the generation whose parity they go into. -/
structure ChanSt where
  staged  : List Nat := []
  rank    : Nat := 0
  spent   : Nat := 0
  backAt  : Nat := 0
  back    : Nat := 0
  freed   : List Nat := []
  written : Nat := 0
  waited  : Nat := 0
  toFree  : Nat := 0
  owed    : Nat := 0
  early   : List Frame := []
deriving DecidableEq, Repr

/-- The block results of a collective (14 R372): EMAX, OVF, NONFINITE. -/
structure BlockRes where
  emax   : Nat := 0
  ovf    : Bool := false
  nonfin : Bool := false
deriving DecidableEq, Repr

/-- A collective in flight on a channel (14). `me` is the chip's relative coordinate among `n`; `parts` holds the words of
each parcel, by 4 × block + part, as far as they are combined, `counts` how many contributions were combined into each,
`known` those that are final here, `res` the block results, `anchors` the anchors in use; `pass0` and `anchors0` keep the
first pass during the 64-bit pass of R378. `waitFrom` is the tally an `FWAIT` came at, `blocks` the records of a ledger
merge by ledger entry, `page` and `bundle` the bundle that issued it. -/
structure Coll where
  core     : Core := 0
  page     : BitVec 3 := 0
  bundle   : Nat := 0
  op       : BitVec 4 := 0
  axis     : BitVec 2 := 0
  number   : BitVec 32 := 0
  desc     : BitVec 512 := 0
  n        : Nat := 1
  me       : Nat := 0
  halving  : Bool := false
  width    : BitVec 2 := 0
  odd      : Bool := false
  cautious : Bool := false
  redo     : Bool := false
  count    : Nat := 0
  src      : Nat := 0
  dst      : Nat := 0
  table    : Nat := 0
  parts    : Sparse (List MemWord) := []
  counts   : Sparse Nat := []
  known    : List Nat := []
  res      : Sparse BlockRes := []
  anchors  : Sparse Int := []
  pass0    : Sparse BlockRes := []
  anchors0 : Sparse Int := []
  entries  : List Nat := []
  waitFrom : Option Nat := none
  done     : Bool := false
deriving DecidableEq, Repr

/-- The fabric dies: configuration, ports, channel records and flows. Channel keys are 4,096 tenancy + channel, flow keys
65,536 channel key + peer; channel 4,095 is the control flow. `outbox` holds the frames sent, oldest first. -/
structure Fabric where
  cfg     : BitVec 64 := 0x20881F5000000000
  axes    : BitVec 64 := 0
  cfgBad  : Bool := false
  ports   : Sparse PortSt := []
  records : Sparse (BitVec 128) := []
  chans   : Sparse ChanSt := []
  sends   : Sparse SendFlow := []
  recvs   : Sparse RecvFlow := []
  colls   : Sparse Coll := []
  collNo  : Sparse (BitVec 32) := []
  outbox  : List (Port × Frame) := []
deriving DecidableEq, Repr

/-- The source of the core PLL (09 R229, 21 R565). -/
inductive PllSource where
  | off | freeRun | portA | portB | holdover | own
deriving DecidableEq, Repr

/-- A Delay_Resp sent (09 R246): the request's sequence number, PTP time at its arrival in seconds, nanoseconds and 2⁻¹⁶ ns, and the
clockClass advertised. -/
structure PtpResp where
  seqId   : BitVec 16 := 0
  seconds : BitVec 48 := 0
  nanos   : BitVec 32 := 0
  frac    : BitVec 16 := 0
  cls     : BitVec 8 := 0
deriving DecidableEq, Repr

/-- The tally and time (09, 20 Tables 20.7 to 20.9). `best` is the best (priority, identifier) pair heard (09 R230) and `bestAt` when last, `setup`
says that a TIME_SETUP has come (21 R565), `children` gives the children's ports and schedules (13 R358), `phase` is the phase still to be moved, in 1/64 cycle (09 R232). -/
structure Time where
  tally      : BitVec 64 := 0
  pll        : PllSource := .off
  everLocked : Bool := false
  best       : Option (BitVec 8 × BitVec 16) := none
  parent     : Option (BitVec 16) := none
  setup      : Bool := false
  schedule   : BitVec 32 := 0
  children   : Sparse (Nat × BitVec 32) := []
  probeSent  : List Nat := []
  answers    : List (Int × Int) := []
  offset     : BitVec 32 := 0
  delay      : BitVec 32 := 0
  phase      : Int := 0
  msHold     : Nat := 0
  ctl        : BitVec 64 := 0x80
  ppsOffset  : BitVec 31 := 0
  timeBase   : BitVec 48 := 0
  grand      : Bool := false
  clockClass : BitVec 8 := 0
  ppsStamp   : BitVec 64 := 0
  ppsSeen    : Bool := false
  lastCourse : Option Nat := none
  ptpSent    : List PtpResp := []
  bestAt     : Nat := 0
deriving DecidableEq, Repr

/-- A pending blank (09 R239 to R242, 17 R461): its course, the cause of its first notice, and whether every notice
that named it carried cause 1. -/
structure Blank where
  course     : Nat := 0
  cause      : BitVec 3 := 0
  consumable : Bool := false
deriving DecidableEq, Repr

/-- Why a tenancy's schedule stands (09 Table 09.7). -/
inductive Stall where
  | late (c : Core) (chan : Chan) (upTo : Nat)
  | coll (c : Core) (chan : Chan)
  | credit (c : Core) (chan : Chan)
  | vote (c : Core)
  | escrow (stack page : Nat)
  | merge
  | stateBuffer
deriving DecidableEq, Repr

/-- An error a job latched (15 Table 15.4): class, path and taint step of Table 15.6, and its daybook code. -/
structure JobError where
  cls   : BitVec 3 := 0
  path  : BitVec 3 := 0
  taint : BitVec 32 := 0
  code  : BitVec 8 := 0
deriving DecidableEq, Repr

/-- The definition of a tenancy (19 R509 to R513). `shares`: (stack, base, size) in units of 64 data blocks;
`parts`: (resource, base, size) in entries. -/
structure TenDef where
  exists_ : Bool := false
  y0      : BitVec 3 := 0
  h       : BitVec 4 := 0
  ports   : BitVec 16 := 0
  shares  : Sparse (Nat × Nat) := []
  allow   : Sparse (BitVec 64) := []
  parts   : Sparse (Nat × Nat) := []
deriving DecidableEq, Repr

/-- Load states (19 Table 19.12). -/
inductive LoadSt where
  | empty | loading | loaded | running | ended | failed
deriving DecidableEq, Repr

/-- Loading (19 R516 to R520). -/
structure Load where
  list     : BitVec 64 := 0
  st       : LoadSt := .empty
  code     : BitVec 8 := 0
  record   : BitVec 24 := 0
  errState : Bool := false
  header   : BitVec 2048 := 0
deriving DecidableEq, Repr

/-- A position in the course table (10 R276, 17 R460): entry, repeat index, and for each variant member that runs, innermost
first, its opener and the courses left from this entry on. -/
structure CoursePos where
  entry  : Nat := 0
  rep    : Nat := 0
  opener : List (Nat × Nat) := []
deriving DecidableEq, Repr

/-- The course a tenancy runs (09, 10). `start` is the tally at which it began, `s` its stall cycles and swallowed ticks,
`inCourse` whether a schedule course runs (not a blank), `blank` the cause of the blank course that runs instead,
`stalls` what the schedule waits for (it stands while any is left), `stopCyc` the tally it stopped at, `hold` a recovery hold,
`hostHold` CRS_CTL.HOLD, `swap` a spare swap (physical core, its two courses), `force` a forced hold (physical core, first course)
`lean` the courses that the lean set opening next or last ranges over (17 R462), `holes` the ticks, from and to, in which a displaced
request waits for a hole to end, and `shift` the idle cause of the stall that displaced the schedule (09 R238). -/
structure Course where
  pos      : CoursePos := {}
  first    : Bool := false
  inCourse : Bool := false
  blank    : Option (BitVec 3) := none
  start    : Nat := 0
  s        : Nat := 0
  stalls   : List Stall := []
  stopped  : Bool := false
  stopCyc  : Nat := 0
  phase    : BitVec 16 := 0
  lag      : Nat := 0
  pending  : List Blank := []
  consumed : List Nat := []
  hold     : Bool := false
  ovrLog   : BitVec 16 := 0x80
  energy   : Nat := 0
  hostHold : Bool := false
  swap     : Option (Nat × Nat × Nat) := none
  force    : Option (Nat × Nat) := none
  lean     : Option (Nat × Nat) := none
  holes    : List (Nat × Nat) := []
  shift    : Nat := 3
deriving DecidableEq, Repr

/-- The close of a step (07 R169 to R171, 15 R396, R400). `cut`: a cut has been made, at tally `at'`; `wait`: schedule courses
to the take; `due`: the take waits for a merge or for frames; `passes`, `merged`: the ledger merge; `twinCmp`, `sealCmp`: the
twin and seal values were compared; `twinBad`, `sealPath`: with what outcome (0 passed, 2 reseat, 3 rollback), `odd` whether
this chip is an odd one. -/
structure Close where
  cut      : Bool := false
  at'      : Nat := 0
  due      : Bool := false
  wait     : Nat := 0
  passes   : List (BitVec 2) := []
  merged   : Bool := false
  twinCmp  : Bool := false
  sealCmp  : Bool := false
  twinBad  : Bool := false
  sealPath : BitVec 3 := 0
  odd      : Bool := false
deriving DecidableEq, Repr

/-- A core that waits for a vote: where its check branches to, and the bundle of the check (10 R268, R281). -/
structure Waiter where
  core   : Core := 0
  page   : BitVec 3 := 0
  bundle : Nat := 0
  tag    : BitVec 8 := 0
  page0  : BitVec 3 := 0
  bundle0 : Nat := 0
deriving DecidableEq, Repr

/-- The vote a chip takes part in (07 R177, 13 R356): votes got from other chips, the OR so far, whether it is complete, the
schedule position of its check, counted from the tally its course began at, and the cores that wait for it. -/
structure Vote where
  scope   : BitVec 2 := 0
  check   : BitVec 12 := 0
  got     : Nat := 0
  any     : Bool := false
  done    : Bool := false
  at'     : Nat := 0
  waiting : List Waiter := []
deriving DecidableEq, Repr

/-- A twin, seal or escrow record with what the step folded into it (15 R395, R399). -/
structure FoldRec where
  record  : BitVec 64 := 0
  digest  : BitVec 64 := 0
  count   : BitVec 16 := 0
  partial_ : Bool := false
deriving DecidableEq, Repr

/-- The values a SEALS or TWIN frame carries (15 R413). -/
structure SealVal where
  src     : BitVec 16 := 0
  step    : BitVec 32 := 0
  digests : List (BitVec 64) := []
  counts  : List (BitVec 16) := []
  partials : BitVec 16 := 0
deriving DecidableEq, Repr

/-- Recovery (15 R411 to R420). `path` and `taint` are those of the current or last plan; `preempt` an error of this chip
that pre-empts, `stopGot` the error of a STOP received, with its census; `chips` the chips that the REPORTs received so far
cover, with what they carry combined; `plan` the path, taint step and epoch of a PLAN whose epoch has not begun; `odd` whether
this chip is an odd one; `takePos` the position recorded at the last take; `resumes` the recoveries that resumed, by step. -/
structure Recovery where
  st        : BitVec 3 := 0
  cls       : BitVec 3 := 0
  path      : BitVec 3 := 0
  taint     : BitVec 32 := 0
  queueOvf  : Bool := false
  lostUA    : Bool := false
  queue     : List JobError := []
  preempt   : Option JobError := none
  stopGot   : Option (JobError × BitVec 16) := none
  ending    : Option JobError := none
  epoch     : BitVec 32 := 0
  census    : BitVec 16 := 0
  chips     : Nat := 0
  repCls    : BitVec 3 := 0
  repPath   : BitVec 3 := 0
  repTaint  : BitVec 32 := 0xFFFF_FFFF
  repOpt    : Bool := false
  reported  : Bool := false
  plan      : Option (BitVec 3 × BitVec 32 × BitVec 32) := none
  doneChips : Nat := 0
  selfDone  : Bool := false
  doneSent  : Bool := false
  odd       : Bool := false
  stopTally : Nat := 0
  resumeAt  : Option Nat := none
  takePos   : CoursePos := {}
  resumes   : Sparse Nat := []
  optPhase  : Bool := false
deriving DecidableEq, Repr

/-- The state of a page for one generation (16 Table 16.3); a page not listed is SEALED. -/
inductive PageSt where
  | copied | protected_
deriving DecidableEq, Repr

/-- A kept generation (16 R421, R424 to R426, R438). `acks` counts acceptances of a page's contributions, `sent` the pages
sent to their holders; `folded` counts the parcels folded from each member, `hpar` holds the parity of the hallmarks folded, by
16 × row + block; `parts` what has come from other members to rebuild a row, by 1,024 × row + 16 × member + block (R443),
`rebuilt` the pages sent for a rebuild; `written` says that header and directory are written. -/
structure Generation where
  step      : BitVec 32 := 0
  slot      : Nat := 0
  pages     : Sparse PageSt := []
  acks      : Sparse Nat := []
  sent      : Nat := 0
  slots     : Sparse (BitVec 256) := []
  seed      : BitVec 64 := 0
  pos       : CoursePos := {}
  course    : Nat := 0
  cautious  : BitVec 32 := 0
  cautOn    : Bool := false
  stateDone : Bool := false
  folded    : Sparse Nat := []
  hpar      : Sparse (BitVec 64) := []
  epoch     : BitVec 32 := 0
  written   : Bool := false
  rebuild   : Bool := false
  parts     : Sparse (List (BitVec 256) × BitVec 64) := []
  rebuilt   : Nat := 0
deriving DecidableEq, Repr

/-- Writes held until a page is copied (16 R430, R431): their HBM keys and words; `fore` for the foreground's. -/
structure HeldWrite where
  stack : Nat := 0
  page  : Nat := 0
  fore  : Bool := true
  words : List (Nat × MemWord) := []
deriving DecidableEq, Repr

/-- Escrow of a tenancy (16). `copying` gives by stack the page being copied, why (0 an escrow window, 1 the drain, 2 a stall)
and the steps of the generations it is copied for; `logged` says that an escrow stall of this step has been logged (R430). -/
structure Escrow where
  records : Sparse (BitVec 64) := []
  gens    : List Generation := []
  held    : List HeldWrite := []
  logged  : Bool := false
  copying : Sparse (Nat × Nat × List (BitVec 32)) := []
deriving DecidableEq, Repr

/-- A job's numerics and step state (07): step counter, the step at load, the last cautious step, seed, sequence
slots (live and staged), twin and seal records. -/
structure Steps where
  step      : BitVec 32 := 0
  loadStep  : BitVec 32 := 0
  cautious  : BitVec 32 := 0
  cautOn    : Bool := false
  seed      : BitVec 64 := 0
  live      : Sparse (BitVec 256) := []
  staged    : Sparse (BitVec 256) := []
  applyPend : Bool := false
  twins     : Sparse FoldRec := []
  sealRecs  : Sparse FoldRec := []
  twinGot   : List SealVal := []
  sealGot   : List SealVal := []
  twinSelf  : Option SealVal := none
  sealSelf  : Option SealVal := none
  wchCtl    : BitVec 32 := 0x1080_0040
deriving DecidableEq, Repr

/-- The launch of a job (09 R234, 13 R356). -/
structure Launch where
  ready   : Bool := false
  sentAt  : Option Nat := none
  heard   : List (BitVec 16) := []
  course  : Option Nat := none
  timedOut : Bool := false
deriving DecidableEq, Repr

/-- One tenancy. -/
structure Tenancy where
  def_    : TenDef := {}
  load    : Load := {}
  course  : Course := {}
  close   : Close := {}
  vote    : Option Vote := none
  votes   : List (Port × BitVec 12 × Bool) := []
  recov   : Recovery := {}
  escrow  : Escrow := {}
  steps   : Steps := {}
  launch  : Launch := {}
  weight  : BitVec 8 := 0x10
  share   : BitVec 16 := 0
  grant   : BitVec 16 := 0
  need    : BitVec 16 := 0
  fault   : BitVec 64 := 0
  faultAt : BitVec 64 := 0
deriving DecidableEq, Repr

/-- Chip-wide stores by entry (07 R162, R180, 09 R224, 16 R428, 17 R455, R459). Course-table keys are 3 entry + word. -/
structure Stores where
  ledger  : Sparse Cell64 := []
  regions : Sparse (BitVec 64) := []
  watches : Sparse (BitVec 128) := []
  table   : Sparse (BitVec 256) := []
  masks   : Sparse (BitVec 512) := []
  phases  : Sparse (BitVec 41) := []
  sets    : Sparse (BitVec 64) := []
  members : Sparse (BitVec 32) := []
deriving DecidableEq, Repr

/-- A daybook entry, as Table 18.5 packs it, and the readers still entitled to it (18 R481). -/
structure DayEntry where
  word    : BitVec 256 := 0
  readers : List Nat := []
deriving DecidableEq, Repr

/-- The mailbox of one function (18 Table 18.1, R474 to R476). -/
structure Mailbox where
  req      : Sparse (BitVec 256) := []
  reqTail  : BitVec 6 := 0
  reqHead  : BitVec 6 := 0
  rsp      : Sparse (BitVec 256) := []
  rspHead  : BitVec 8 := 0
  rspTail  : BitVec 8 := 0
  reqOver  : Bool := false
  rspOver  : Bool := false
  lost     : Bool := false
  backlog  : List (BitVec 256) := []
  thresh   : BitVec 14 := 0
deriving DecidableEq, Repr

/-- An assay asked for (18 R487 to R489). -/
structure Assay where
  kind     : BitVec 4 := 0
  target   : BitVec 16 := 0
  force    : Bool := false
  deferred : Bool := false
  ten      : Option Nat := none
deriving DecidableEq, Repr

/-- A firmware slot (18 R497). -/
structure FwSlot where
  image  : FwImage := ⟨0, 0, 0, true, true⟩
  blank  : Bool := false
deriving DecidableEq, Repr

/-- The die ledger (18 Table 18.8): lifetime figures by (section, index), with the trims and events in order. `failed` gives the
cores marked failed and when; `repairs` gives rows and whether their repair held, `remaps` the remapped words (HBM or core
store, and key). -/
structure DieLedger where
  figures  : Sparse Nat := []
  failed   : List (Nat × BitVec 64) := []
  assays   : List (BitVec 192) := []
  repairs  : List (Nat × Bool) := []
  remaps   : List (Bool × Nat) := []
  trims    : List (BitVec 64 × Nat × Nat × Nat × Nat) := []
  device   : List (BitVec 8 × BitVec 64) := []
  firmware : List (BitVec 8 × BitVec 8) := []
deriving DecidableEq, Repr

/-- The management domain and the host's view of it (18 to 20). `mailboxes`, `ints`, `apt`, `latch`, `pba` are by function, `msix` by 16 × function + entry. `ledger` is
the die ledger as the device keeps it, `flash` what the last records committed of it (18 R485, R486). -/
structure Mgmt where
  mailboxes : Sparse Mailbox := []
  waiting   : List (BitVec 256) := []
  ring      : List DayEntry := []
  hostMem   : Sparse (BitVec 256) := []
  ledger    : DieLedger := {}
  flash     : DieLedger := {}
  lastEvt   : Option Nat := none
  lastSnap  : Nat := 0
  assays    : List Assay := []
  running   : List Assay := []
  asyCtl    : BitVec 64 := 0x0001_020F
  faultsAt  : List (Nat × Nat) := []
  vfOn      : List Nat := []
  ints      : Sparse (BitVec 64) := []
  sent      : List (Nat × Nat) := []
  apt       : Sparse (BitVec 64) := []
  latch     : Sparse (Nat × BitVec 32) := []
  msix      : Sparse (BitVec 128) := []
  pba       : Sparse (BitVec 64) := []
  answer    : BitVec 64 := 0
  readBytes : List (BitVec 8) := []
  readUr    : Bool := false
  readEp    : Bool := false
  arbLevel  : Sparse (BitVec 64) := []
  arbRow    : Sparse (BitVec 16) := []
  slot0     : FwSlot := {}
  slot1     : FwSlot := { blank := true }
  runSlot   : Bool := false
  nextSlot  : Bool := false
  fuseMin   : BitVec 8 := 0
  revoked   : BitVec 4 := 0
deriving DecidableEq, Repr

/-- Power, heat and margin (17). `recal` counts the recalibrations that loaded new coefficients (R451). `rho` is (measured, estimate) of the last window; energy accounts are in units of
2⁻¹⁶ nJ and carry the PF BAR0 offset of their counter as key. -/
structure Power where
  cap       : BitVec 64 := 0x2051DDC
  thermStep : BitVec 3 := 0
  measured  : Bool := false
  recal     : Nat := 0
  run       : BitVec 5 := 0
  tj        : BitVec 12 := 0
  tjMax     : BitVec 12 := 0
  vset      : BitVec 10 := 0
  margin    : Bool := false
  accounts  : Sparse Nat := []
  lastChip  : Nat := 0
  lastUnown : Nat := 0
  rho       : Nat × Nat := (1, 1)
  penalty   : Nat := 0
  penTags   : List (BitVec 16) := []
  ranTags   : List (BitVec 16) := []
  stackTemp : Sparse (BitVec 12) := []
  stackHot  : List Nat := []
  stretch   : Bool := false
  stretched : Bool := false
  sMin      : BitVec 6 := 63
  lastTrim  : Nat := 0
  trimDue   : Bool := false
deriving DecidableEq, Repr

/-- Boot, pins, rails, PCIe link, I3C and the TAP (21). A pin field is its level. -/
structure Board where
  stage    : BitVec 8 := 0
  fail     : BitVec 8 := 0
  detail   : BitVec 8 := 0
  bootDone : Bool := false
  fallback : Bool := false
  test     : Bool := false
  straps   : BitVec 8 := 0
  jtag     : Bool := true
  readings : Option BootReadings := none
  por      : Bool := false
  perst    : Bool := false
  pps      : Bool := false
  tallyRef : Bool := false
  alert    : Bool := true
  trip     : Bool := true
  railsOut : List Rail := []
  pcieUp   : Bool := false
  training : Bool := false
  i3cReg   : BitVec 8 := 0
  i3cAddr  : Option (BitVec 7) := none
  i3cData  : BitVec 64 := 0
  tapInstr : BitVec 3 := 2
  tapData  : BitVec 32 := 0x170649A7
  boundary : BitVec 32 := 0
  classD   : Nat := 0
  safe     : Bool := false
deriving DecidableEq, Repr

/-- A physical upset waiting for the unit it strikes (the model's own, DESIGN CHOICE, safe, log entry 13: no rule says when one
comes). `tree` changes the exact sum of a K-block by `delta` frame units in a column, as that row is next computed; `acc` flips a
bit of an accumulator or drain-behind row; `buf` strikes word `word` of an engine's next buffer load and `cast` the vector of a row
that it latches next, correctably or not (04 R97); `vx` and `rw` a lane of the vector unit or row engine (06 R159), `rom` an
entry of the function ROM as the vector unit or row engine reads it (06 R160); `adder` the fabric dies' adders (15 R392). -/
inductive Upset where
  | tree (c : Core) (engine : BitVec 2) (row : BitVec 7) (col : BitVec 8) (delta : Int)
  | acc (c : Core) (engine : BitVec 2) (bank : Bool) (row : BitVec 7) (col : BitVec 8) (bit : BitVec 7)
  | buf (c : Core) (engine : BitVec 2) (word : Nat) (bad : Bool)
  | cast (c : Core) (engine : BitVec 2) (row : BitVec 7) (bad : Bool)
  | vx (c : Core) (lane : BitVec 8)
  | rw (c : Core) (lane : BitVec 8)
  | rom (c : Core) (row : Bool) (entry : BitVec 32)
  | adder
deriving DecidableEq, Repr

/-- The machine. `tens` is by tenancy, `spares` by physical row (the spare columns of the current mapping, bit x for
column x; 19 R509, 20 R535), `counters` by PF BAR0 offset (20 R530 to R546), `fresh` counts the free values drawn (the model's own, log entry 9). -/
structure State where
  pending  : List Instr
  ident    : Ident
  cores    : Cores
  hbm      : Hbm
  stores   : Stores
  tens     : Sparse Tenancy
  spares   : Sparse (BitVec 9)
  counters : Sparse (BitVec 64)
  fabric   : Fabric
  time     : Time
  mgmt     : Mgmt
  power    : Power
  board    : Board
  upsets   : List Upset
  fresh    : Nat
deriving DecidableEq, Repr

/-- Why a step stops. No meaning of this model raises it: every event the spec describes is an effect. -/
inductive Fault where
  /-- Kept so that the type is inhabited; never raised. Safe. -/
  | none
deriving DecidableEq, Repr

/-- Why a command has no meaning here. -/
inductive Refusal where
  /-- Raised by Dispatch for a command with no meaning yet. Safe: the machine stops. -/
  | notModelled (mnemonic : String)
deriving DecidableEq, Repr

/-- The machine right after a device reset (21 R560): boot has not begun, so the core PLL is off and the tally is 0. A field for which
the spec states no reset value holds zero or nothing (DESIGN CHOICE, unsafe, log entry 1); what the part is, a 64L B0, is the model's
(log entry 3). -/
def State.reset : State where
  pending  := []
  ident    := {}
  cores    := {}
  hbm      := {}
  stores   := {}
  tens     := []
  spares   := []
  counters := []
  fabric   := {}
  time     := {}
  mgmt     := {}
  power    := {}
  board    := {}
  upsets   := []
  fresh    := 0

end Sys2Proof.Machine
end

