-- ==== Sys2Proof/Machine/Ops.lean ====
section
/-! DEFINITION. The named operations on the machine's stores: sparse stores in canonical form, words with their check bits, counters, the core map, and who owns what. -/

namespace Sys2Proof.Machine

open Sys2Proof

/-! ### Sparse stores -/

/-- The value a key holds. -/
def find {α : Type} (m : Sparse α) (k : Nat) : Option α :=
  match m with
  | [] => none
  | (a, v) :: r => if a = k then some v else find r k

/-- The value a key holds, `d` where none is listed. -/
def look {α : Type} (m : Sparse α) (d : α) (k : Nat) : α := (find m k).getD d

/-- `m` with key `k` holding `v`. -/
def set {α : Type} (m : Sparse α) (k : Nat) (v : α) : Sparse α :=
  match m with
  | [] => [(k, v)]
  | (a, w) :: r => if k < a then (k, v) :: (a, w) :: r else if k = a then (k, v) :: r else (a, w) :: set r k v

/-- `m` without key `k`. -/
def del {α : Type} (m : Sparse α) (k : Nat) : Sparse α := m.filter (fun e => decide (e.1 ≠ k))

/-- `m` with key `k` holding `v`, which is not listed where it is the value `d` that an unlisted key reads as. -/
def put {α : Type} [DecidableEq α] (d : α) (m : Sparse α) (k : Nat) (v : α) : Sparse α :=
  if v = d then del m k else set m k v

/-- Keys strictly rising, all at least `lo`. -/
def rising {α : Type} (lo : Nat) (m : Sparse α) : Bool :=
  match m with
  | [] => true
  | (a, _) :: r => decide (lo ≤ a) && rising (a + 1) r

/-- The canonical form: keys strictly rising and no listed value equal to the default. -/
def canonical {α : Type} [DecidableEq α] (d : α) (m : Sparse α) : Bool :=
  rising 0 m && m.all (fun e => decide (e.2 ≠ d))

/-- A memory in canonical form. -/
def Memory.wf (m : Mem) : Bool := canonical MemWord.zero m

/-- The keys from `lo` to `lo + n - 1` removed. -/
def clearRange {α : Type} (m : Sparse α) (lo n : Nat) : Sparse α :=
  m.filter (fun e => decide (e.1 < lo) || decide (lo + n ≤ e.1))

/-- The keys from n·i up to n·(i + 1), less n·i. -/
def partAt {α : Type} (m : Sparse α) (n i : Nat) : Sparse α := (m.filter (fun e => e.1 / n = i)).map (fun e => (e.1 % n, e.2))

/-- The word at an address of a memory. -/
def memGet (m : Mem) (a : Nat) : MemWord := look m MemWord.zero a

/-- A memory with one word written. -/
def memPut (m : Mem) (a : Nat) (w : MemWord) : Mem := put MemWord.zero m a w

/-- Words `ws` written from address `a` up. -/
def memPuts (m : Mem) (a : Nat) (ws : List MemWord) : Mem :=
  (ws.foldl (fun (p : Mem × Nat) w => (memPut p.1 p.2 w, p.2 + 1)) (m, a)).1

/-- A clean word. -/
def MemWord.clean (d : BitVec 256) : MemWord := ⟨d, 0⟩

/-- The syndrome of a poisoned word (12 R306). -/
def poisonSyn : BitVec 16 := 0xFFFF

/-- A value that the spec leaves open, and the state with it drawn. -/
def State.draw (s : State) : Nat × State := (Config.freeValue s.fresh, { s with fresh := s.fresh + 1 })

/-! ### Lists and numbers -/

/-- The numbers 0 to n − 1. -/
def upTo (n : Nat) : List Nat := List.range n

/-- `n / d` rounded up. -/
def ceilDiv (n d : Nat) : Nat := (n + d - 1) / d

/-- A field whose encoding 0 stands for `full`. -/
def zeroIs {n : Nat} (full : Nat) (x : BitVec n) : Nat := if x = 0 then full else x.toNat

/-- The element at a position. -/
def nth {α : Type} (l : List α) (d : α) (i : Nat) : α := l.getD i d

/-- A list with one position replaced. -/
def nset {α : Type} (l : List α) (i : Nat) (v : α) : List α := l.set i v

/-- A list used as a set, with `x` added. -/
def insertNew {α : Type} [DecidableEq α] (l : List α) (x : α) : List α := if x ∈ l then l else l ++ [x]

/-! ### Counters (20 R528, R543, R544) -/

/-- The greatest value of a 48-bit counter. -/
def counterMax : Nat := 2 ^ 48 - 1

/-- The counter at a PF BAR0 offset. -/
def State.counter (s : State) (off : Nat) : BitVec 64 := look s.counters 0 off

/-- A 48-bit counter raised by `n`; it stops at all ones. -/
def State.count (s : State) (off n : Nat) : State :=
  { s with counters := put 0 s.counters off (BitVec.ofNat 64 (min counterMax ((s.counter off).toNat + n))) }

/-- Offset of a tenancy's counter, by its offset in the tenancy window (20 Table 20.18). -/
def tenOff (t off : Nat) : Nat := 0x1_0000 + 0x1_0000 * t + off

/-- Offset of a physical core's counter, by its offset in the core block (20 Table 20.19). -/
def coreOff (p off : Nat) : Nat := 0x9_0000 + 0x400 * p + off

/-- Offset of a chip counter. -/
def chipOff (off : Nat) : Nat := 0x4000 + off

/-- Offset of a stack's counter. -/
def stackOff (st off : Nat) : Nat := 0x5000 + 0x100 * st + off

/-- Offset of a port's counter. -/
def portOff (p off : Nat) : Nat := 0x6000 + 0x100 * p + off

/-! ### Energy (17 R446 to R448) -/

/-- The energy of `n` events of a class at the setpoint in force, in 2⁻¹⁶ nJ, rounded down. -/
def eventEnergy (s : State) (cls n : Nat) : Nat := n * Config.energyCoeff s.power.recal cls * s.power.vset.toNat ^ 2 / 490000

/-- An account raised. -/
def State.account (s : State) (off e : Nat) : State :=
  { s with power := { s.power with accounts := put 0 s.power.accounts off (look s.power.accounts 0 off + e) } }

/-! ### The grid (01 R17 to R19) -/

/-- The width of the virtual grid. -/
def gridW (s : State) : Nat := if s.ident.is64 then 8 else 7

/-- The cores of a row that the die ledger marks failed, by column. -/
def failedIn (s : State) (y : Nat) : List Nat := ((s.mgmt.ledger.failed.map (·.1)).filter (fun p => p / 9 = y)).map (· % 9)

/-- The spare columns that R19 chooses for a row: the failed ones, then from the highest column down. -/
def defaultSpares (s : State) (y : Nat) : List Nat :=
  let f := failedIn s y
  f ++ (([8, 7, 6, 5, 4, 3, 2, 1, 0].filter (fun x => !f.contains x)).take (9 - gridW s - f.length))

/-- The spare columns of a row under the current mapping. -/
def sparesOf (s : State) (y : Nat) : List Nat :=
  match find s.spares y with
  | some b => (upTo 9).filter (fun x => b.getLsbD x)
  | none => (upTo 9).filter (fun x => (defaultSpares s y).contains x)

/-- The physical column of virtual column `x` in row `y` (01 R18). -/
def physCol (s : State) (y x : Nat) : Nat := nth ((upTo 9).filter (fun k => !(sparesOf s y).contains k)) 15 x

/-- The physical core, 9y + x, of a virtual core (20 R531); 127, which is none, where the row gives it no column. -/
def phys (s : State) (c : Core) : Nat :=
  let x := physCol s (c.val / 8) (c.val % 8)
  if x = 15 then 127 else 9 * (c.val / 8) + x

/-- A counter of the physical core that a virtual core runs on (20 R545). -/
def State.countCore (s : State) (c : Core) (off n : Nat) : State := s.count (coreOff (phys s c) off) n

/-- A counter of a tenancy. -/
def State.countTen (s : State) (t off n : Nat) : State := s.count (tenOff t off) n

/-- A chip counter. -/
def State.countChip (s : State) (off n : Nat) : State := s.count (chipOff off) n

/-- Whether a core is in the part's virtual grid. -/
def inGrid (s : State) (c : Core) : Bool := decide (c.val % 8 < gridW s)

/-! ### Tenancies -/

/-- The record of a tenancy. -/
def State.ten (s : State) (t : Nat) : Tenancy := look s.tens {} t

/-- The state with a tenancy's record replaced. -/
def State.setTen (s : State) (t : Nat) (r : Tenancy) : State := { s with tens := put {} s.tens t r }

/-- The state with a tenancy's record changed. -/
def State.modTen (s : State) (t : Nat) (f : Tenancy → Tenancy) : State := s.setTen t (f (s.ten t))

/-- Whether a tenancy exists. -/
def State.tenExists (s : State) (t : Nat) : Bool := (s.ten t).def_.exists_

/-- The tenancies that exist. -/
def tenancies (s : State) : List Nat := (upTo 8).filter (fun t => s.tenExists t)

/-- The tenancy that owns a row (19 R509). -/
def tenOfRow (s : State) (y : Nat) : Option Nat :=
  (tenancies s).find? (fun t => decide ((s.ten t).def_.y0.toNat ≤ y) && decide (y < (s.ten t).def_.y0.toNat + (s.ten t).def_.h.toNat))

/-- The tenancy that owns a core. -/
def tenOf (s : State) (c : Core) : Option Nat := if inGrid s c then tenOfRow s (c.val / 8) else none

/-- The cores of a tenancy. -/
def coresOf (s : State) (t : Nat) : List Core :=
  (List.finRange 64).filter (fun c => decide (tenOf s c = some t))

/-- Whether the tenancy's job runs (19 Table 19.12). -/
def State.running (s : State) (t : Nat) : Bool := decide ((s.ten t).load.st = .running)

/-- Energy attributed to a tenancy or to the unowned account, and summed in the accounts at `offs` (17 R447). -/
def State.charge (s : State) (t : Option Nat) (e : Nat) (offs : List Nat) : State :=
  let s1 := offs.foldl (fun (u : State) o => u.account o e) (s.account (chipOff 0x80) e)
  match t with
  | some t => (s1.account (tenOff t 0x2240) e).modTen t (fun r => { r with course := { r.course with energy := r.course.energy + e } })
  | none => s1.account (chipOff 0x90) e

/-- Energy of a core, summed under one of its engine classes: 0x180 matrix, 0x188 vector, 0x190 row, 0x198 haul and dispatch,
0x1A0 core store and mesh. -/
def State.chargeCoreE (s : State) (c : Core) (e unit : Nat) : State :=
  s.charge (tenOf s c) e [coreOff (phys s c) 0x178, coreOff (phys s c) unit]

/-- `n` events of a core. -/
def State.chargeCore (s : State) (c : Core) (cls n unit : Nat) : State := s.chargeCoreE c (eventEnergy s cls n) unit

/-- HBM bursts of a core's haul unit, summed for the core as well as for the stack. -/
def State.sumHaul (s : State) (c : Core) (cls n : Nat) : State :=
  (s.account (coreOff (phys s c) 0x178) (eventEnergy s cls n)).account (coreOff (phys s c) 0x198) (eventEnergy s cls n)

/-! ### Die-ledger figures (18 Table 18.8) -/

/-- The key of a lifetime figure: its section and its index there. -/
def figKey (sec i : Nat) : Nat := 1024 * sec + i

/-- A lifetime figure of the die ledger. -/
def State.figure (s : State) (sec i : Nat) : Nat := look s.mgmt.ledger.figures 0 (figKey sec i)

/-- A lifetime figure raised by `n`. -/
def State.addFigure (s : State) (sec i n : Nat) : State :=
  { s with mgmt := { s.mgmt with ledger := { s.mgmt.ledger with
      figures := put 0 s.mgmt.ledger.figures (figKey sec i) (s.figure sec i + n) } } }

/-- The counters whose totals sections 2 and 3 carry: each figure's index and its counters. -/
def carried : List (Nat × List Nat) :=
  (upTo 72).flatMap (fun p => [(figKey 2 (2 * p), [coreOff p 0x200]), (figKey 2 (2 * p + 1), [coreOff p 0x208])])
  ++ (upTo 8).flatMap (fun st => [(figKey 2 (144 + 2 * st), [stackOff st 0]), (figKey 2 (145 + 2 * st), [stackOff st 8])])
  ++ [(figKey 2 160, [chipOff 0x10]), (figKey 2 161, (upTo 16).map (fun p => portOff p 0x50)),
      (figKey 2 162, (upTo 72).map (fun p => coreOff p 0x128)), (figKey 2 164, (upTo 8).map (fun t => tenOff t 0x20B0)),
      (figKey 2 166, (upTo 8).map (fun t => tenOff t 0x2260)), (figKey 2 167, [chipOff 0x20]), (figKey 4 73, [chipOff 0x30]),
      (figKey 9 7, [chipOff 0xA0])]
  ++ (upTo 16).flatMap (fun p => [(figKey 3 (4 * p), [portOff p 0x10]), (figKey 3 (4 * p + 1), [portOff p 0x18]),
      (figKey 3 (4 * p + 2), [portOff p 0x20])])

/-- The lifetime figures as they stand: those kept since boot with the counters since boot, the energy in joules, and Tj's maximum. -/
def figuresNow (s : State) : Sparse Nat :=
  let f := carried.foldl (fun (m : Sparse Nat) (x : Nat × List Nat) =>
    put 0 m x.1 (look m 0 x.1 + (x.2.map (fun o => (s.counter o).toNat)).foldl (· + ·) 0)) s.mgmt.ledger.figures
  let g := put 0 f (figKey 1 2) (look f 0 (figKey 1 2) + look s.power.accounts 0 (chipOff 0x80) / (65536 * 1000000000))
  put 0 g (figKey 9 0) (max (look g 0 (figKey 9 0)) s.power.tjMax.toNat)

/-- The figures of the sections that `p` picks committed. -/
def State.commitFigures (s : State) (p : Nat → Bool) : State :=
  let f := (figuresNow s).filter (fun (e : Nat × Nat) => p (e.1 / 1024))
  { s with mgmt := { s.mgmt with flash := { s.mgmt.flash with
      figures := f.foldl (fun (m : Sparse Nat) (e : Nat × Nat) => set m e.1 e.2) s.mgmt.flash.figures } } }

/-- The gathered events committed to flash: sections 4 to 11 (18 R485). -/
def State.commitEvents (s : State) : State :=
  let s1 := s.commitFigures (fun sec => decide (4 ≤ sec))
  { s1 with mgmt := { s1.mgmt with lastEvt := some s.time.tally.toNat, flash := { s.mgmt.ledger with figures := s1.mgmt.flash.figures } } }

end Sys2Proof.Machine
end

