-- ==== Sys2Proof/Machine/FuncLib.lean ====
section
/-! DEFINITION. Scalar arithmetic and the function library of the vector unit, the row engine and the fused drain (06 R132 to R142). -/

namespace Sys2Proof.Machine

open Sys2Proof

abbrev F32 := BitVec 32

def f1 : F32 := 0x3F80_0000
def fHalf : F32 := 0x3F00_0000
def qNaN : F32 := 0x7FC0_0000
def fInf : F32 := 0x7F80_0000

/-! ### Correctly rounded operations (06 R132, R133) -/

def fAdd (a b : F32) : F32 := toF32 ((f32 a).add (f32 b))
def fSub (a b : F32) : F32 := toF32 ((f32 a).sub (f32 b))
def fMul (a b : F32) : F32 := toF32 ((f32 a).mul (f32 b))
/-- a × b + c, rounded once. -/
def fFma (a b c : F32) : F32 := toF32 (((f32 a).mul (f32 b)).add (f32 c))
/-- c − a × b, rounded once. -/
def fFnma (a b c : F32) : F32 := toF32 ((f32 c).sub ((f32 a).mul (f32 b)))

/-- The exact quotient rounded once. -/
def divNum (f : Fmt) (x y : Num) : Nat :=
  match x, y with
  | .nan, _ => f.qnan
  | _, .nan => f.qnan
  | .inf s, .inf _ => if s then f.qnan else f.qnan
  | .inf s, .fin t _ _ => f.signed (s != t) (f.maxc + 1)
  | .fin s _ _, .inf t => f.signed (s != t) 0
  | .fin s m e, .fin t n g =>
    if n = 0 then (if m = 0 then f.qnan else f.signed (s != t) (f.maxc + 1))
    else f.encodeRat none (s != t) m n (e - g)

def fDiv (a b : F32) : F32 := BitVec.ofNat 32 (divNum .fp32 (f32 a) (f32 b))
def fRcp (a : F32) : F32 := fDiv f1 a

/-- Digit-by-digit integer square root: the digits from bit `k - 1` down. -/
def isqrtFrom (k r n : Nat) : Nat :=
  match k with
  | 0 => r
  | j + 1 => isqrtFrom j (if (r + 2 ^ j) ^ 2 ≤ n then r + 2 ^ j else r) n

/-- ⌊√n⌋ for n below 2^160. -/
def isqrt (n : Nat) : Nat := isqrtFrom 80 0 n

/-- √(n/d) × 2^g with a sticky bit below the last place kept, so that it rounds as the exact root does. -/
def rootNum (n d : Nat) (g : Int) : Num :=
  let k := 2 ^ 100 * n / d
  let r := isqrt k
  .fin false (if r * r * d = 2 ^ 100 * n then 2 * r else 2 * r + 1) (g - 51)

def fSqrt (a : F32) : F32 :=
  match f32 a with
  | .nan => qNaN
  | .inf s => if s then qNaN else fInf
  | .fin s m e =>
    if m = 0 then a else if s then qNaN
    else if e % 2 = 0 then toF32 (rootNum m 1 (e / 2)) else toF32 (rootNum (2 * m) 1 ((e - 1) / 2))

def fRsqrt (a : F32) : F32 :=
  match f32 a with
  | .nan => qNaN
  | .inf s => if s then qNaN else 0
  | .fin s m e =>
    if m = 0 then (if s then 0xFF80_0000 else fInf) else if s then qNaN
    else
      -- 1/√(m 2^e), scaled so that the root's argument is at least 1
      let g := if e % 2 = 0 then (m, -(e / 2)) else (2 * m, -((e - 1) / 2))
      toF32 (rootNum (2 ^ 40) g.1 (g.2 - 20))

/-- The sign bit changed only; a NaN gives the canonical NaN (06 Table 06.1). -/
def fNeg (a : F32) : F32 := toF32 (f32 a).negate
def fAbs (a : F32) : F32 := toF32 (f32 a).mabs

/-- The larger, +0 above −0 (06 R133). -/
def maxNum (x y : Num) : Num :=
  if x.isNan || y.isNan then .nan else if x.lt y then y else if y.lt x then x else if x.neg? then y else x
def minNum (x y : Num) : Num :=
  if x.isNan || y.isNan then .nan else if x.lt y then x else if y.lt x then y else if x.neg? then x else y

def fMax (a b : F32) : F32 := toF32 (maxNum (f32 a) (f32 b))
def fMin (a b : F32) : F32 := toF32 (minNum (f32 a) (f32 b))

/-! ### EXP2, EXP (06 R139) -/

/-- An integer times 2^e. -/
def dy (i e : Int) : Num := Num.ofInt i e

/-- ⌊x × 2^k⌋ of a finite value. -/
def floorScale (x : Num) (k : Int) : Int :=
  match x with
  | .fin s m e =>
    let r := scaleRat m 1 (e + k)
    if s then -((r.1 + r.2 - 1) / r.2 : Nat) else (r.1 / r.2 : Nat)
  | _ => 0

def expCore (y : Num) : F32 :=
  match y with
  | .nan => qNaN
  | .inf s => if s then 0 else fInf
  | .fin s m e =>
    let y : Num := .fin s m e
    if (dy 1 7).le y then fInf
    else if y.lt (dy (-160) 0) then 0
    else
      let k := floorScale y 6
      let n := k / 64
      let j := (k % 64).toNat
      let r := toF32 (y.sub (dy k (-6)))
      let v := fFma (fFma (fFma cB3 r cB2) r cB1) r f1
      let q := fMul (nth romT2 0 j) v
      toF32 ((f32 q).scale n)

def fExp2 (x : F32) : F32 := expCore (f32 x)
def fExp (x : F32) : F32 := expCore ((f32 x).mul ((f32 cL1).add (f32 cL2)))

/-! ### LOG2, LN, LN1P (06 R140) -/

/-- A positive value as f × 2^e with 0.75 ≤ f < 1.5. -/
def logSplit (z : Num) : Num × Int :=
  match z with
  | .fin _ m g =>
    let b : Int := Nat.log2 m
    let f : Num := .fin false m (-b)
    if f.lt (dy 3 (-1)) then (f, g + b) else (.fin false m (-b - 1), g + b + 1)
  | x => (x, 0)

def logCore (z : Num) (base2 : Bool) : F32 :=
  let p := logSplit z
  let j := (floorScale (p.1.sub (dy 3 (-2))) 7).toNat
  let r := toF32 ((p.1.mul (f32 (nth romInv 0 j))).sub .one)
  let v := if base2 then fFma (fFma (fFma cC4 r cC3) r cC2) r cC1
    else fFma (fFma (fFma 0xBE80_0000 r cD3) r 0xBF00_0000) r f1
  let q := fMul v r
  if base2 then toF32 (((dy p.2 0).add (f32 (nth romTl2 0 j))).add (f32 q))
  else toF32 ((((dy p.2 0).mul (f32 cLN2)).add (f32 (nth romTln 0 j))).add (f32 q))

def fLog (x : F32) (base2 : Bool) : F32 :=
  match f32 x with
  | .nan => qNaN
  | .inf s => if s then qNaN else fInf
  | .fin s m e => if m = 0 then 0xFF80_0000 else if s then qNaN else logCore (.fin s m e) base2

def fLog2 (x : F32) : F32 := fLog x true
def fLn (x : F32) : F32 := fLog x false

def fLn1p (x : F32) : F32 :=
  match f32 x with
  | .nan => qNaN
  | .inf s => if s then qNaN else fInf
  | .fin s m e =>
    let y : Num := .fin s m e
    if m = 0 then 0
    else if y.lt (dy (-1) 0) then qNaN
    else if y.eqv (dy (-1) 0) then 0xFF80_0000
    else logCore (Num.one.add y) false

/-! ### TANH, ERF (06 R141) -/

/-- A value with the sign of another pattern. -/
def copySign (v x : F32) : F32 := (v &&& 0x7FFF_FFFF) ||| (x &&& 0x8000_0000)

def segFn (x : F32) (isTanh : Bool) : F32 :=
  match f32 x with
  | .nan => qNaN
  | .inf _ => copySign f1 x
  | .fin _ m e =>
    let a : Num := .fin false m e
    let af := fAbs x
    if (if isTanh then dy 145 (-4) else dy 4 0).le a then copySign f1 x
    else if a.lt (dy 1 (-5)) then
      let s := fMul af af
      if isTanh then copySign (fFma (fMul (fFma cS2 s cS1) s) af af) x
      else copySign (fMul (fFma (fFma cE2 s cE1) s cE0) af) x
    else
      let j := (floorScale a 5).toNat
      let d := toF32 (a.sub (dy (2 * j + 1) (-6)))
      let row := if isTanh then (romTanh.drop (5 * (j - 1))).take 5 else (romErf.drop (5 * (j - 1))).take 5
      let k (i : Nat) : F32 := nth row 0 i
      let v := fFma (fFma (fFma (fFma (k 4) d (k 3)) d (k 2)) d (k 1)) d (k 0)
      copySign (fMin v f1) x

def fTanh (x : F32) : F32 := segFn x true
def fErf (x : F32) : F32 := segFn x false

/-! ### Composites and derivatives (06 Table 06.4) -/

def fSigmoid (x : F32) : F32 := fRcp (fAdd f1 (fExp (fNeg x)))
def fSilu (x : F32) : F32 := fMul x (fSigmoid x)
/-- ADD(1.0, ERF(MUL(x, H))). -/
def gErf (x : F32) : F32 := fAdd f1 (fErf (fMul x cH))
def fGelu (x : F32) : F32 := fMul (fMul x fHalf) (gErf x)
/-- TANH(u) with u = MUL(MUL(x, G0), FMA(s, G1, 1.0)). -/
def gTanh (x : F32) : F32 := fTanh (fMul (fMul x cG0) (fFma (fMul x x) cG1 f1))
def fGeluT (x : F32) : F32 := fMul (fMul x fHalf) (fAdd f1 (gTanh x))
def fSoftplus (x : F32) : F32 := if (dy 20 0).le (f32 x) then x else fLn1p (fExp x)
def fRelu (x : F32) : F32 := fMax x 0

def dSigmoid (x : F32) : F32 := let s := fSigmoid x; fMul s (fSub f1 s)
def dTanh (x : F32) : F32 := let t := fTanh x; fFnma t t f1
def dSilu (x : F32) : F32 := let s := fSigmoid x; fFma (fMul x s) (fSub f1 s) s
def dGelu (x : F32) : F32 :=
  fFma x (fMul (fExp (fMul (fMul x x) 0xBF00_0000)) cQ) (fMul fHalf (gErf x))
def dGeluT (x : F32) : F32 :=
  let t := gTanh x
  fFma (fMul (fMul x fHalf) (fFnma t t f1)) (fMul cG0 (fFma (fMul x x) cG3 f1)) (fMul fHalf (fAdd f1 t))
def dSoftplus (x : F32) : F32 := fSigmoid x
def dRelu (x : F32) : F32 := if (f32 x).isNan then qNaN else if Num.zero.lt (f32 x) then f1 else 0

/-- The value column by function code (11 Table 11.7). -/
def funcVal (code : Nat) (x : F32) : F32 :=
  match code with
  | 0 => fSigmoid x | 1 => fTanh x | 2 => fSilu x | 3 => fGelu x | 4 => fGeluT x | 5 => fSoftplus x | _ => fRelu x

/-- The derivative column by function code. -/
def funcDer (code : Nat) (x : F32) : F32 :=
  match code with
  | 0 => dSigmoid x | 1 => dTanh x | 2 => dSilu x | 3 => dGelu x | 4 => dGeluT x | 5 => dSoftplus x | _ => dRelu x

end Sys2Proof.Machine
end

