-- ==== Sys2Proof/Machine/Formats.lean ====
section
/-! DEFINITION. Format codes, packing, the quantiser and the MX formats (02 R35 to R52). -/

namespace Sys2Proof.Machine

open Sys2Proof

/-! ### Format codes (02 Table 02.6) -/

def isPlain (c : Nat) : Bool := decide (c ≤ 2)
def isShingled (c : Nat) : Bool := decide (3 ≤ c) && decide (c ≤ 8)
def isMx (c : Nat) : Bool := decide (9 ≤ c) && decide (c ≤ 13)

/-- Whether a shingled code names column blocks. -/
def isColBlocks (c : Nat) : Bool := isShingled c && decide (c % 2 = 0)

/-- The scalar or element format of a code; FP32 for the codes that name none. -/
def fmtOf (c : Nat) : Fmt :=
  match c with
  | 1 => .bf16 | 2 => .fp16 | 3 => .e2m1 | 4 => .e2m1 | 5 => .e4m3 | 6 => .e4m3 | 7 => .e5m2 | 8 => .e5m2
  | 9 => .e2m1 | 10 => .e4m3 | 11 => .e5m2 | 12 => .e2m3 | 13 => .e3m2 | _ => .fp32

/-- The width of an element in its plane (02 Table 02.5). -/
def elemBits (c : Nat) : Nat := (fmtOf c).mw + 1

/-- Elements in a 256-bit word; MXFP6 leaves four bits over. -/
def perWord (c : Nat) : Nat := 256 / elemBits c

/-- Words of a 128 × 128 tile (02 Table 02.5); an MXFP6 plane is packed without regard to tiles. -/
def wordsPerTile (c : Nat) : Nat := ceilDiv 16384 (perWord c)

/-- Element `k` of a word. -/
def elemOf (w k : Nat) (d : BitVec 256) : Nat := (d.extractLsb' (w * k) w).toNat

/-- A word packed from its elements, element 0 lowest (02 R40). -/
def packWord (w : Nat) (es : List Nat) : BitVec 256 :=
  BitVec.ofNat 256 (es.foldr (fun e acc => acc * 2 ^ w + e % 2 ^ w) 0)

/-- A list cut into runs of `k`; the last may be shorter. Fuel: the list's length. -/
def chunks {α : Type} (k : Nat) (l : List α) : List (List α) :=
  (upTo (ceilDiv l.length k)).map (fun i => (l.drop (i * k)).take k)

/-- Elements packed into words, the last word filled with zeros. -/
def packAll (w : Nat) (es : List Nat) : List (BitVec 256) := (chunks (256 / w) es).map (packWord w)

/-- The elements of a run of words, in order. -/
def unpackAll (w : Nat) (ws : List (BitVec 256)) : List Nat :=
  ws.flatMap (fun d => (upTo (256 / w)).map (fun k => elemOf w k d))

/-! ### Maximum exponent (02 R43) -/

/-- The maximum-exponent field of a block of decoded values. -/
def maxExpOf (xs : List Num) : Nat :=
  xs.foldl (fun a x =>
    match x with
    | .fin _ m e =>
      if m = 0 then a else
        let l : Int := (Nat.log2 m : Int) + e
        if l < -126 then a else max a (min 254 (l + 127).toNat)
    | _ => 255) 0

/-! ### The quantiser (02 R47, R48) -/

/-- A quantised block: shingle, codes, overflow flag, flush count. -/
structure QBlock where
  s       : Nat
  codes   : List Nat
  ovf     : Bool
  flushed : Nat
deriving DecidableEq, Repr

/-- The largest finite magnitude among the values. -/
def amaxOf (xs : List Num) : Num :=
  xs.foldl (fun a x => if x.isFin && a.lt x.mabs then x.mabs else a) .zero

/-- FMAX of an element format as a value. -/
def Fmt.fmax (f : Fmt) : Num := .fin false (f.mag f.maxc).1 (f.mag f.maxc).2

/-- The shingle of a block whose largest magnitude is `amax`. -/
def shingleOf (f : Fmt) (t : Int) (amax : Num) : Nat :=
  ([15, 14, 13, 12, 11, 10, 9, 8, 7, 6, 5, 4, 3, 2, 1].find? (fun (s : Nat) => amax.le (f.fmax.scale (t - s)))).getD 0

/-- The code of one value scaled by 2^k. -/
def quantCode (f : Fmt) (u : Option Nat) (k : Int) (x : Num) : Nat :=
  match x with
  | .nan => f.maxc
  | .inf s => f.signed s f.maxc
  | .fin s m e => f.elemCode u s m (e + k)

/-- A block of values under tile scale `t`; `u i` is the random word of element i. -/
def quantise (f : Fmt) (u : Nat → Option Nat) (t : Int) (xs : List Num) : QBlock :=
  let amax := amaxOf xs
  let ovf := xs.any (fun x => !x.isFin) || (f.fmax.scale t).lt amax
  let s := if ovf then 0 else if amax.isZero then 15 else shingleOf f t amax
  let codes := xs.mapIdx (fun i x => quantCode f (u i) (s - t) x)
  let fl := if s = 15 then
      ((xs.zip codes).filter (fun p => p.1.isFin && !p.1.isZero && decide (p.2 = 0))).length else 0
  ⟨s, codes, ovf, fl⟩

/-- The value of a code in a block with shingle `s` and tile scale `t` (02 R34). -/
def sfDecode (f : Fmt) (t : Int) (s : Nat) (c : Nat) : Num := (f.decodeElem c).scale (t - s)

/-! ### MX formats (02 R51, R52) -/

/-- What an MX element code is: a NaN, an infinity, or a finite value. -/
def mxElem (code c : Nat) : Num :=
  let f := fmtOf code
  let s := decide (c / 2 ^ f.mw % 2 = 1)
  let k := c % 2 ^ f.mw
  if code = 10 && k = 0x7F then .nan
  else if code = 11 && k = 0x7C then .inf s
  else if code = 11 && 0x7D ≤ k then .nan
  else f.decodeElem c

/-- The values of an MX block for the plain formats and the quantiser (02 R51), and whether it is flagged. -/
def mxValues (code : Nat) (x : Nat) (cs : List Nat) (dmax : Num) : List Num × Bool :=
  let f := fmtOf code
  if x = 255 then
    (cs.map (fun c => if c / 2 ^ f.mw % 2 = 1 then dmax.negate else dmax), true)
  else
    let vs := cs.map (fun c => match mxElem code c with
      | .nan => (dmax, true)
      | .inf s => (if s then dmax.negate else dmax, true)
      | v => (v.scale ((x : Int) - 127), false))
    (vs.map (·.1), vs.any (·.2))

/-- Whether an MX code and a shingled code share their element encoding; MXFP6 counts as sharing SF8's (02 R51). -/
def mxMatches (mx sf : Nat) : Bool :=
  (mx = 9 && (sf = 3 || sf = 4)) || (mx = 10 && (sf = 5 || sf = 6)) || (mx = 11 && (sf = 7 || sf = 8)) ||
  ((mx = 12 || mx = 13) && (sf = 5 || sf = 6))

/-- Whether a block of scale `x` goes through the quantiser on import (02 R51 rule 4). -/
def mxQuantised (mx sf : Nat) (t : Int) (x : Nat) : Bool :=
  x ≠ 255 && !(mxMatches mx sf && decide (0 ≤ t - ((x : Int) - 127)) && decide (t - ((x : Int) - 127) ≤ 15))

/-- An MX block imported into a shingled format (02 R51). -/
def mxImport (mx sf : Nat) (u : Nat → Option Nat) (t : Int) (x : Nat) (cs : List Nat) : QBlock :=
  let g := fmtOf sf
  let s : Int := t - ((x : Int) - 127)
  if x = 255 then
    ⟨0, cs.map (fun c => g.signed (c / 2 ^ (fmtOf mx).mw % 2 = 1) g.maxc), true, 0⟩
  else if mxMatches mx sf && decide (0 ≤ s) && decide (s ≤ 15) then
    let es := cs.map (fun c => match mxElem mx c with
      | .nan => (g.maxc, true)
      | .inf n => (g.signed n g.maxc, true)
      | .fin n m e => (g.elemCode none n m e, false))
    ⟨s.toNat, es.map (·.1), es.any (·.2), 0⟩
  else
    let es := cs.map (mxElem mx)
    let bad := es.any (fun e => !e.isFin)
    let vs := es.map (fun e => match e with
      | .nan => g.fmax.scale t
      | .inf n => if n then (g.fmax.scale t).negate else g.fmax.scale t
      | v => v.scale ((x : Int) - 127))
    let q := quantise g u t vs
    { q with ovf := q.ovf || bad }

/-- emax of an MX element format (02 R52). -/
def mxEmax (mx : Nat) : Int := match mx with | 9 => 2 | 12 => 2 | 13 => 4 | 10 => 8 | _ => 15

/-- A block of values exported to an MX format: scale, codes, overflow (02 R52 rule 2). DESIGN CHOICE (log entry 62): every element
above the largest finite value counts as a saturation that loses magnitude, also one that rounding to nearest even alone would
bring there (6.4 in E2M1); a scale clamped up to 0, under which small elements round to zero, counts as none. -/
def mxExport (mx : Nat) (xs : List Num) : Nat × List Nat × Bool :=
  let f := fmtOf mx
  let amax := amaxOf xs
  let raw : Int := amax.ilog2 - mxEmax mx + 127
  let x : Nat := if amax.isZero then 0 else (max 0 (min 254 raw)).toNat
  let cs := xs.map (fun v => quantCode f none (127 - (x : Int)) v)
  let lost := xs.any (fun v => !v.isFin || f.fmax.lt (v.mabs.scale (127 - (x : Int))))
  (x, cs, lost)

/-- A shingled block exported: copied where its encoding matches and its scale fits (02 R52 rule 1). -/
def mxExportSf (sf mx : Nat) (t : Int) (s : Nat) (cs : List Nat) : Nat × List Nat × Bool :=
  let x : Int := t - s + 127
  if mxMatches mx sf && mx ≤ 11 && decide (0 ≤ x) && decide (x ≤ 254) then
    (x.toNat, cs.map (fun c => let f := fmtOf sf; let m := min (c % 2 ^ f.mw) f.maxc
      if m = 0 then 0 else f.signed (c / 2 ^ f.mw % 2 = 1) m), false)
  else mxExport mx (cs.map (sfDecode (fmtOf sf) t s))

end Sys2Proof.Machine
end

