-- ==== Sys2Proof/Machine/Ledger.lean ====
section
/-! DEFINITION. Ledger arithmetic and heritage arithmetic (03 R53 to R80), with the residue of an accumulator (04 R101, R102). -/

namespace Sys2Proof.Machine

open Sys2Proof

/-! ### Operand pairs (03 Table 03.1) -/

/-- K-block size of an element format pair in ledger mode; 0 where the pair is not accepted. FP32 runs in six passes. -/
def kBlock (pf qf : Nat) : Nat :=
  let p := (isShingled pf, fmtOf pf)
  let q := (isShingled qf, fmtOf qf)
  if pf = 1 && qf = 1 then 32
  else if pf = 0 && qf = 0 then 32
  else if p.1 && q.1 then
    if p.2 = Fmt.e2m1 && q.2 = Fmt.e2m1 then 128
    else if p.2 ≠ Fmt.e2m1 && q.2 ≠ Fmt.e2m1 then 64
    else 0
  else 0

/-- The exponent bound of an element format (03 Table 03.2). -/
def elemBound (c : Nat) : Int :=
  if isShingled c then (if c ≤ 4 then 3 else if c ≤ 6 then 9 else 16) else 0

/-- The anchor constant c of a pair (03 R58). -/
def anchorConst (pf qf : Nat) : Int := elemBound pf + elemBound qf

/-- The largest logical K of a pair. -/
def kMax (pf : Nat) : Nat := if pf = 0 then 67_108_864 else 1_073_741_696

/-- The tile exponent of a plain tile from the largest maximum-exponent field of its hallmarks (03 R57). -/
def plainTileExp (emax : Nat) : Int := (max 1 (min 254 emax) : Nat) - 126

/-! ### Accumulators -/

/-- The value N of an accumulator. -/
def Acc.val (a : Acc) : Int := a.n.toInt

/-- The residue, modulo 255, of an integer (04 R101): 0 to 254. -/
def residueOf (i : Int) : BitVec 8 := BitVec.ofNat 8 (i % 255).toNat

/-- Where R65 and R67 end the range. -/
def accMax : Int := 2 ^ 95 - 1

def preMax : Int := 2 ^ 94 - 1

/-- An accumulator row holding the integer `i`, with its residue byte. -/
def Acc.withVal (a : Acc) (i : Int) : Acc := { a with n := BitVec.ofInt 96 i, residue := residueOf i }

/-- An exact addition, held at the nearer end of the range if it leaves it (03 R65). -/
def Acc.addInt (a : Acc) (t : Int) : Acc :=
  let v := a.val + t
  if accMax < v then { a.withVal accMax with sat := true, low := true }
  else if v < -accMax then { a.withVal (-accMax) with sat := true, low := true }
  else a.withVal v

/-- A K-block's term (03 R64, R66). -/
structure Term where
  t    : Int
  nan  : Bool
  pinf : Bool
  ninf : Bool
  low  : Bool
deriving DecidableEq, Repr

/-- The exact sum of finite values as an integer over 2^`g`, with `g` the least exponent among them. -/
def exactSum (xs : List Num) : Int × Int :=
  let g := xs.foldl (fun g x => match x with | .fin _ m e => if m = 0 then g else min g e | _ => g) (0 : Int)
  (xs.foldl (fun a x => match x with | .fin s m e => if m = 0 then a else a + align s m e g | _ => a) 0, g)

/-- The term of one K-block whose products are `ps`, on anchor `A` (03 R64); `delta` is what an upset in the tree added to the exact
sum, in frame units (04 R101). -/
def termOf (A : Int) (bk : Nat) (ps : List Num) (delta : Int := 0) : Term :=
  let sum := exactSum ps
  let r := roundInt (sum.1 + delta) (sum.2 - (A - 64))
  let lim : Int := bk * 2 ^ 64
  let t := max (-lim) (min lim r)
  let big := ps.any (fun p => p.isFin && !(p.mabs.lt (.fin false 1 A)))
  ⟨t, ps.any Num.isNan, ps.any (fun p => decide (p = .inf false)), ps.any (fun p => decide (p = .inf true)),
    big || decide (t ≠ r)⟩

/-- The residue that the operands of a K-block predict (04 R101): of each finite product its significand, at its offset from the
frame of exponent `g`. -/
def operandResidue (g : Int) (ps : List Num) : Int :=
  ps.foldl (fun a x => match x with
    | .fin s m e => if m = 0 then a else
        let r : Int := ((m % 255) * 2 ^ ((e - g).toNat % 8) % 255 : Nat)
        (if s then a - r else a + r) % 255
    | _ => a) 0

/-- The K-block residue check fails (04 R101): the tree's sum, changed by `delta`, against its operands. -/
def treeMiss (ps : List Num) (delta : Int) : Bool :=
  let sum := exactSum ps
  decide ((sum.1 + delta) % 255 ≠ operandResidue sum.2 ps % 255)

/-- The accumulator residue check of an addition fails (04 R102): the residue of the new N against the stored byte plus the
term's. The compare is on the exact sum, before R65 holds it at the end of the range (DEDUCED). -/
def Acc.addMiss (a : Acc) (t : Int) : Bool := decide ((a.val + t) % 255 ≠ ((a.residue.toNat : Int) + t) % 255)

/-- The drain's check of a stored residue byte against N fails (04 R102). -/
def Acc.badResidue (a : Acc) : Bool := !a.fp32 && decide (a.val % 255 ≠ (a.residue.toNat : Int) % 255)

/-- A term added to a row. -/
def Acc.addTerm (a : Acc) (t : Term) : Acc :=
  let b := a.addInt t.t
  { b with nan := b.nan || t.nan, pinf := b.pinf || t.pinf, ninf := b.ninf || t.ninf, low := b.low || t.low }

/-- A chain started from an FP32 value (03 R67). -/
def Acc.ofFp32 (A : Int) (v : BitVec 32) : Acc :=
  match f32 v with
  | .nan => { nan := true }
  | .inf s => { pinf := !s, ninf := s }
  | .fin s m e =>
    let r := roundInt (if s then -(m : Int) else m) (e - (A - 64))
    let t := max (-preMax) (min preMax r)
    { ({} : Acc).withVal t with low := decide (t ≠ r) }

/-- Two accumulators of one anchor added as partials are (03 R65, R66, R70). -/
def Acc.merge (a b : Acc) : Acc :=
  let c := a.addInt b.val
  { c with nan := a.nan || b.nan, pinf := a.pinf || b.pinf, ninf := a.ninf || b.ninf,
           low := c.low || b.low, sat := c.sat || b.sat, poison := a.poison || b.poison }

/-- The drained FP32 value of a row on anchor `A` (03 R68). -/
def Acc.toFp32 (A : Int) (a : Acc) : BitVec 32 :=
  if a.fp32 then a.n.setWidth 32
  else if a.nan || (a.pinf && a.ninf) then 0x7FC0_0000
  else if a.pinf then 0x7F80_0000
  else if a.ninf then 0xFF80_0000
  else toF32 (Num.ofInt a.val (A - 64))

/-- A row holding an FP32 result (04 R88). -/
def Acc.fp32Of (v : BitVec 32) : Acc := { n := v.setWidth 96, fp32 := true, residue := residueOf v.toNat }

/-- The 128-bit ledger partial element (03 Table 03.3). -/
def Acc.toPartial (a : Acc) : Nat :=
  a.n.toNat + (if a.nan then 2 ^ 96 else 0) + (if a.pinf then 2 ^ 97 else 0) + (if a.ninf then 2 ^ 98 else 0)
    + (if a.low then 2 ^ 99 else 0) + (if a.sat then 2 ^ 100 else 0)

/-- A ledger partial element read. -/
def Acc.ofPartial (p : Nat) : Acc :=
  { n := BitVec.ofNat 96 p, nan := p.testBit 96, pinf := p.testBit 97, ninf := p.testBit 98, low := p.testBit 99,
    sat := p.testBit 100, residue := residueOf (BitVec.ofNat 96 p).toInt }

/-- The largest of a list of anchors or exponents, from below every one. -/
def maxInt (l : List Int) : Int := l.foldl max (-4096)

/-! ### FP32 split (03 R73) -/

/-- An FP32 pattern with bits [15:0] cleared. -/
def topHalf (b : BitVec 32) : BitVec 32 := b &&& 0xFFFF_0000

/-- The three parts h, m, l of an FP32 operand. -/
def split3 (b : BitVec 32) : List Num :=
  match f32 b with
  | .nan => [.nan, .zero, .zero]
  | .inf s => [.inf s, .zero, .zero]
  | .fin s m e =>
    let x : Num := .fin s m e
    let h := f32 (topHalf b)
    let d := toF32 (x.sub h)
    let mm := f32 (topHalf d)
    let l := (f32 d).sub mm
    [h, mm, Fmt.bf16.decode (Fmt.bf16.encode none l)]

/-- The six component pairs (03 R74), as positions in the splits of P and Q. -/
def splitPairs : List (Nat × Nat) := [(0, 0), (0, 1), (1, 0), (0, 2), (2, 0), (1, 1)]

/-! ### Heritage (03 R76 to R79) -/

/-- A rounded sum flushed as TX5 does: below 2⁻¹²⁶ it is +0 (03 R77). -/
def herFlush (b : BitVec 32) : BitVec 32 := if b.toNat % 2 ^ 31 < 2 ^ 23 then 0 else b

/-- One heritage addition. -/
def herAdd (acc : BitVec 32) (p : Num) : BitVec 32 := herFlush (toF32 ((f32 acc).add p))

/-- The heritage FP8 scale applied once (03 R77 step 3). -/
def herScale (acc sp sq : BitVec 32) : BitVec 32 :=
  toF32 ((f32 acc).mul (f32 (toF32 ((f32 sp).mul (f32 sq)))))

/-- The least magnitude code of a normal value. -/
def Fmt.normMin (f : Fmt) : Nat := 2 ^ f.fw

/-- The heritage table (03 R79): nearest among zero and the normal magnitudes, ties away from zero. -/
def herElem (f : Fmt) (x : Num) : Nat :=
  match x with
  | .nan => f.maxc
  | .inf s => f.signed s f.maxc
  | .fin s m e =>
    if m = 0 then 0
    else if f.exceeds m 1 e || decide (f.fmax.le (.fin false m e)) then f.signed s f.maxc
    else
      let lo := f.mag f.normMin
      let a : Num := .fin false m e
      if a.lt (.fin false lo.1 lo.2) then
        (if a.lt (.fin false lo.1 (lo.2 - 1)) then 0 else f.signed s f.normMin)
      else
        let q := max (log2Rat m 1 + e - f.fw) f.emin
        let r := scaleRat m 1 (e - q)
        let k := (2 * r.1 + r.2) / (2 * r.2)
        f.signed s (min f.maxc ((q - f.emin).toNat * 2 ^ f.fw + k))

/-- An FP32 element converted into heritage FP8 (03 R78). -/
def herConvert (f : Fmt) (inv x : BitVec 32) : Nat :=
  herElem f (f32 (topHalf (toF32 ((f32 x).mul (f32 inv)))))

end Sys2Proof.Machine
end

