-- ==== Sys2Proof/Machine/Memory.lean ====
section
/-! DEFINITION. The 256-bit code, poison, the spaces a word can lie in, hallmarks and CRC-32C (12 R300 to R311, R319, R328 to R330). -/

namespace Sys2Proof.Machine

open Sys2Proof

/-! ### The code -/

/-- Columns of data bits 0 to 63 (12 R301). -/
def dataCols0 : List (BitVec 16) :=
  [0x0015, 0x0029, 0x001F, 0x0045, 0x003B, 0x0051, 0x0089, 0x0054, 0x0092, 0x00E5, 0x0105, 0x00A1, 0x010A, 0x00A8, 0x010F, 0x00B3,
   0x0144, 0x00BA, 0x014B, 0x0209, 0x0166, 0x0212, 0x019A, 0x0217, 0x0299, 0x0256, 0x030E, 0x0233, 0x02E8, 0x0405, 0x021D, 0x023A,
   0x035B, 0x02A0, 0x0349, 0x0414, 0x025C, 0x041B, 0x02B1, 0x0421, 0x0326, 0x042E, 0x0552, 0x0493, 0x0502, 0x0496, 0x0545, 0x062F,
   0x0597, 0x0625, 0x050D, 0x0686, 0x0570, 0x068C, 0x0809, 0x0488, 0x0750, 0x0520, 0x0634, 0x07C9, 0x081D, 0x060E, 0x0736, 0x0822]

/-- Columns of data bits 64 to 127 (12 R301). -/
def dataCols1 : List (BitVec 16) :=
  [0x069B, 0x0769, 0x0828, 0x07C0, 0x0833, 0x0A4A, 0x0890, 0x0A3B, 0x0874, 0x08BE, 0x0976, 0x0A57, 0x0C16, 0x0AA8, 0x0C46, 0x0AA7,
   0x0C43, 0x0AB3, 0x0D12, 0x0ADC, 0x0C3E, 0x08CC, 0x0D30, 0x0B93, 0x0EB4, 0x0926, 0x0DD1, 0x1005, 0x0841, 0x100A, 0x0907, 0x0DAC,
   0x100F, 0x0A2C, 0x1011, 0x0929, 0x0D55, 0x1014, 0x0AC1, 0x101B, 0x0B24, 0x102E, 0x0D18, 0x1096, 0x0E4D, 0x1047, 0x0F4C, 0x1048,
   0x1404, 0x10B4, 0x144F, 0x10A3, 0x1258, 0x15F0, 0x12B6, 0x1663, 0x1350, 0x10A9, 0x1363, 0x1868, 0x1183, 0x166C, 0x18BC, 0x144A]

/-- Columns of data bits 128 to 191 (12 R301). -/
def dataCols2 : List (BitVec 16) :=
  [0x188F, 0x2009, 0x10F0, 0x189E, 0x2012, 0x121A, 0x19B4, 0x1246, 0x1D89, 0x150F, 0x18D0, 0x2017, 0x1225, 0x201D, 0x1429, 0x2033,
   0x1483, 0x1A50, 0x2041, 0x150A, 0x1688, 0x204B, 0x155A, 0x1E92, 0x1671, 0x205F, 0x1732, 0x2088, 0x1621, 0x20A5, 0x181C, 0x20AA,
   0x1879, 0x211A, 0x18AD, 0x211F, 0x1AC9, 0x2146, 0x1C1E, 0x2220, 0x1C99, 0x2185, 0x253C, 0x22B3, 0x2885, 0x2365, 0x2819, 0x2517,
   0x2A6C, 0x2D92, 0x2249, 0x290A, 0x2254, 0x28BA, 0x2770, 0x303E, 0x25C0, 0x2808, 0x2B98, 0x2402, 0x3242, 0x25D2, 0x2AC5, 0x2547]

/-- Columns of data bits 192 to 255 (12 R301). -/
def dataCols3 : List (BitVec 16) :=
  [0x331C, 0x29C3, 0x2D02, 0x31D1, 0x2A2D, 0x30C8, 0x285B, 0x311D, 0x2A99, 0x3178, 0x4005, 0x225B, 0x31AC, 0x2A39, 0x3428, 0x2731,
   0x3848, 0x400F, 0x2491, 0x284C, 0x3067, 0x2F18, 0x3062, 0x4011, 0x2590, 0x3968, 0x401B, 0x278C, 0x3D60, 0x401E, 0x2C59, 0x3037,
   0x4024, 0x2807, 0x3915, 0x4042, 0x2F50, 0x4050, 0x3155, 0x4063, 0x3447, 0x4047, 0x354C, 0x4059, 0x3940, 0x40A0, 0x4959, 0x40B4,
   0x4E34, 0x4286, 0x4176, 0x481C, 0x44B3, 0x520C, 0x4197, 0x4660, 0x5089, 0x460C, 0x4A44, 0x5139, 0x48EA, 0x4621, 0x505B, 0x4CB8]

/-- The columns of the 272 code positions: data bits, then check bits (12 R301). -/
def codeCols : List (BitVec 16) :=
  dataCols0 ++ dataCols1 ++ dataCols2 ++ dataCols3 ++ (upTo 16).map (fun j => (1 : BitVec 16) <<< j)

/-- The data bits an error at code position `i` flips. -/
def flipAt (i : Nat) : BitVec 256 := if i < 256 then (1 : BitVec 256) <<< i else 0

/-- The data bits that a correctable syndrome names: one position, or two adjacent ones (12 R302). -/
def fixFrom (cs : List (BitVec 16)) (i : Nat) (syn : BitVec 16) : Option (BitVec 256) :=
  match cs with
  | [] => none
  | [a] => if a = syn then some (flipAt i) else none
  | a :: b :: r =>
    if a = syn then some (flipAt i)
    else if a ^^^ b = syn then some (flipAt i ^^^ flipAt (i + 1))
    else fixFrom (b :: r) (i + 1) syn

def fixOf (syn : BitVec 16) : Option (BitVec 256) := fixFrom codeCols 0 syn

/-- The syndrome that flipping one code position leaves. -/
def synAt (i : Nat) : BitVec 16 := nth codeCols 0 i

/-- A word as a reader takes it (12 Table 12.2). -/
structure Got where
  w         : MemWord
  corrected : Bool
  uncorr    : Bool
deriving DecidableEq, Repr

/-- Decoding of a stored word; the word delivered is clean or poisoned. -/
def decodeWord (w : MemWord) : Got :=
  if w.syn = 0 then ⟨w, false, false⟩
  else if w.syn = poisonSyn then ⟨w, false, false⟩
  else match fixOf w.syn with
    | some m => ⟨⟨w.data ^^^ m, 0⟩, true, false⟩
    | none => match fixOf (w.syn ^^^ poisonSyn) with
      | some m => ⟨⟨w.data ^^^ m, poisonSyn⟩, true, false⟩
      | none => ⟨⟨w.data, poisonSyn⟩, false, true⟩

/-- Whether a delivered word is poisoned. -/
def isPoisoned (w : MemWord) : Bool := decide (w.syn = poisonSyn)

/-- A clean word, poisoned where `p` says. -/
def wordOf (d : BitVec 256) (p : Bool) : MemWord := ⟨d, if p then poisonSyn else 0⟩

/-! ### Hallmarks (12 Table 12.4) -/

def hallCrc (h : BitVec 64) : BitVec 32 := bits h 31 0
def hallMax (h : BitVec 64) : Nat := bitsN h 39 32
def hallFmt (h : BitVec 64) : Nat := bitsN h 43 40
def hallPoison (h : BitVec 64) : Bool := bitB h 44
def hallOvf (h : BitVec 64) : Bool := bitB h 45
def hallNocrc (h : BitVec 64) : Bool := bitB h 46
def hallGen (h : BitVec 64) : Nat := bitsN h 63 48

def mkHall (crc : BitVec 32) (mx fmt : Nat) (poison ovf nocrc : Bool) (gen : Nat) : BitVec 64 :=
  BitVec.ofNat 64 (crc.toNat + mx % 256 * 2 ^ 32 + fmt % 16 * 2 ^ 40 + (if poison then 2 ^ 44 else 0)
    + (if ovf then 2 ^ 45 else 0) + (if nocrc then 2 ^ 46 else 0) + gen % 65536 * 2 ^ 48)

/-- CRC-32C of 4,096 zero bytes. -/
def crcZeroBlock : BitVec 32 := 0x98F9_4189

/-- The hallmark of an all-zero untyped block, which boot writes (21 R568, R569). -/
def hallZero : BitVec 64 := mkHall crcZeroBlock 0 0xF false false false 0

/-- One bit of CRC-32C. -/
def crcBit (c : BitVec 32) : BitVec 32 := if c.getLsbD 0 then (c >>> 1) ^^^ 0x82F6_3B78 else c >>> 1

/-- One byte of CRC-32C. -/
def crcByte (c : BitVec 32) (b : BitVec 8) : BitVec 32 :=
  let x := c ^^^ b.setWidth 32
  crcBit (crcBit (crcBit (crcBit (crcBit (crcBit (crcBit (crcBit x)))))))

/-- CRC-32C of a run of bytes (12 R329). -/
def crc32c (bs : List (BitVec 8)) : BitVec 32 := (bs.foldl crcByte 0xFFFF_FFFF) ^^^ 0xFFFF_FFFF

/-- The bytes of a word in ascending address order. -/
def wordBytes (d : BitVec 256) : List (BitVec 8) := (upTo 32).map (fun i => d.extractLsb' (8 * i) 8)

/-- CRC-32C of a run of words. -/
def crcWords (ds : List (BitVec 256)) : BitVec 32 := crc32c (ds.flatMap wordBytes)

/-! ### Spaces -/

/-- Where a word lies: a core store, a core's fabric mailbox, or HBM (by stack and stack word, 2³¹ stack + word). -/
inductive Space where
  | cs (c : Core)
  | mbox (c : Core)
  | hbm
deriving DecidableEq, Repr

/-- Words of a core store, of a fabric mailbox and of a stack. -/
def csWords : Nat := 262_144
def mboxWords : Nat := 16_384
def stackWords : Nat := 2 ^ 31

/-- The key of a core-store word. -/
def csKey (c : Core) (a : Nat) : Nat := csWords * c.val + a

def mboxKey (c : Core) (a : Nat) : Nat := mboxWords * c.val + a

/-- The HBM hallmark word of data block `b` of a stack: 0x7F00_0000 + h(b) (12 R311). -/
def hallHash (b : Nat) : Nat :=
  let lo := b / 2 ^ 4 % 16
  let hi := b / 2 ^ 11 % 16
  let x := b - lo * 2 ^ 4 - hi * 2 ^ 11 + hi * 2 ^ 4 + lo * 2 ^ 11
  x ^^^ 2 ^ 14

def hallWord (key : Nat) : Nat :=
  stackWords * (key / stackWords) + 0x7F00_0000 + hallHash (key % stackWords / 128)

/-- What an HBM word holds that the list does not name: zero, or in the hallmark region the all-zero hallmark. -/
def hbmDefault (key : Nat) : MemWord :=
  let sw := key % stackWords
  if 0x7F00_0000 ≤ sw && sw < 0x7FFE_0000 then ⟨hallZero.setWidth 256, 0⟩ else MemWord.zero

def hbmGet (m : Mem) (k : Nat) : MemWord := look m (hbmDefault k) k

def hbmPut (m : Mem) (k : Nat) (w : MemWord) : Mem := put (hbmDefault k) m k w

/-- A canonical HBM memory: keys strictly rising, no word equal to what an unlisted address reads as. -/
def Hbm.wf (m : Mem) : Bool := rising 0 m && m.all (fun e => decide (e.2 ≠ hbmDefault e.1))

/-- The word a space holds at an address. -/
def rawWord (s : State) (sp : Space) (a : Nat) : MemWord :=
  match sp with
  | .cs c => memGet s.cores.cs (csKey c a)
  | .mbox c => memGet s.cores.mbox (mboxKey c a)
  | .hbm => hbmGet s.hbm.words a

/-- A space with one word written. -/
def State.writeWord (s : State) (sp : Space) (a : Nat) (w : MemWord) : State :=
  match sp with
  | .cs c => { s with cores := { s.cores with cs := memPut s.cores.cs (csKey c a) w } }
  | .mbox c => { s with cores := { s.cores with mbox := memPut s.cores.mbox (mboxKey c a) w } }
  | .hbm => { s with hbm := { s.hbm with words := hbmPut s.hbm.words a w } }

/-- The word a reader is given (12 R302). -/
def readWord (s : State) (sp : Space) (a : Nat) : MemWord := (decodeWord (rawWord s sp a)).w

/-- The offsets of the two counters of corrected and uncorrectable words of a space (12 Table 12.6); a mailbox has none. -/
def errOffs (s : State) (sp : Space) (a : Nat) : Option (Nat × Nat) :=
  match sp with
  | .cs c => some (coreOff (phys s c) 0x200, coreOff (phys s c) 0x208)
  | .mbox _ => none
  | .hbm => some (stackOff (a / stackWords) 0x00, stackOff (a / stackWords) 0x08)

/-! ### Shares (19 R509) -/

/-- Base and size, in words, of a tenancy's share in a stack (19 R509, in units of 64 data blocks). -/
def shareOf (s : State) (t st : Nat) : Nat × Nat :=
  let p := look (s.ten t).def_.shares (0, 0) st
  (8192 * p.1, 8192 * p.2)

/-- The tenancy whose share holds an HBM word. -/
def tenOfHbm (s : State) (key : Nat) : Option Nat :=
  (tenancies s).find? (fun t =>
    let h := shareOf s t (key / stackWords)
    decide (h.1 ≤ key % stackWords) && decide (key % stackWords < h.1 + h.2))

/-- An uncorrectable word found at a place: kept for the anomaly triggers (18 Table 18.11), and a remap candidate (12 R323). -/
def State.markUncorr (s : State) (sp : Space) (a : Nat) : State :=
  match sp with
  | .cs c => { s with hbm := { s.hbm with
      uncorrAt := s.hbm.uncorrAt ++ [(phys s c, s.time.tally.toNat)], cands := s.hbm.cands ++ [(false, csKey c a)] } }
  | .mbox _ => s
  | .hbm => { s with hbm := { s.hbm with
      uncorrAt := s.hbm.uncorrAt ++ [(1000 + a / stackWords, s.time.tally.toNat)], cands := s.hbm.cands ++ [(true, a)] } }

/-- The energy of a read of a word. -/
def State.chargeRead (s : State) (sp : Space) (a : Nat) : State :=
  match sp with
  | .cs c => s.chargeCore c 9 1 0x1A0
  | .mbox _ => s
  | .hbm => s.charge (tenOfHbm s a) (eventEnergy s 12 1) [stackOff (a / stackWords) 0x28]

/-- What a read leaves behind: its energy, the counts of Table 12.2, and the poisoned form written back (12 R579). -/
def State.noteRead (s : State) (sp : Space) (a : Nat) : State :=
  let g := decodeWord (rawWord s sp a)
  let s0 := s.chargeRead sp a
  if g.corrected then
    match errOffs s sp a with | some o => s0.count o.1 1 | none => s0
  else if g.uncorr then
    let s1 := (s0.markUncorr sp a).writeWord sp a g.w
    match errOffs s sp a with | some o => s1.count o.2 1 | none => s1
  else s0

def State.noteReads (s : State) (sp : Space) (as : List Nat) : State := as.foldl (fun s a => s.noteRead sp a) s

/-- The hallmark store's value of an entry (12 R308): an uncorrectable one reads with POISON set. -/
def cellHall (x : Cell64) : BitVec 64 := match x.err with | .bad => x.data ||| (1#64 <<< 44) | _ => x.data

/-- The hallmark of the block that holds word `a` of a space. -/
def hallOf (s : State) (sp : Space) (a : Nat) : BitVec 64 :=
  match sp with
  | .cs c => cellHall (look s.cores.hall ⟨hallZero, .clean⟩ (2048 * c.val + a / 128))
  | .mbox c => cellHall (look s.cores.mhall ⟨hallZero, .clean⟩ (128 * c.val + a / 128))
  | .hbm =>
    let w := readWord s .hbm (hallWord a)
    if isPoisoned w then w.data.setWidth 64 ||| (1#64 <<< 44) else w.data.setWidth 64

/-- The CRC of a block as its words are read. -/
def blockCrc (s : State) (sp : Space) (b : Nat) : BitVec 32 :=
  crcWords ((upTo 128).map (fun i => (readWord s sp (128 * b + i)).data))

/-- Whether a block fails its CRC. -/
def crcFails (s : State) (sp : Space) (b : Nat) : Bool :=
  let h := hallOf s sp (128 * b)
  !hallNocrc h && decide (hallCrc h ≠ blockCrc s sp b)

/-- The POISON flag set in a hallmark. -/
def setPoison (h : BitVec 64) : BitVec 64 := h ||| (1#64 <<< 44)

/-- A block's hallmark written. -/
def State.writeHall (s : State) (sp : Space) (a : Nat) (h : BitVec 64) : State :=
  match sp with
  | .cs c => { s with cores := { s.cores with hall := put ⟨hallZero, .clean⟩ s.cores.hall (2048 * c.val + a / 128) ⟨h, .clean⟩ } }
  | .mbox c => { s with cores := { s.cores with mhall := put ⟨hallZero, .clean⟩ s.cores.mhall (128 * c.val + a / 128) ⟨h, .clean⟩ } }
  | .hbm => s.writeWord .hbm (hallWord a) ⟨h.setWidth 256, 0⟩

/-- A hallmark read that finds its entry corrected is counted (12 R308). -/
def State.noteHall (s : State) (sp : Space) (a : Nat) : State :=
  match sp with
  | .cs c => match (look s.cores.hall ⟨hallZero, .clean⟩ (2048 * c.val + a / 128)).err with
    | .one _ => s.countCore c 0x210 1
    | _ => s
  | .mbox _ => s
  | .hbm => s.noteRead .hbm (hallWord a)

/-! ### The diagonal layout -/

/-- The bank address a diagonal access of word `a` reaches, written as the plain address of the same place (12 R306):
`r` words per tile row, `base` the tile's first word. -/
def diagAddr (r base a : Nat) : Nat :=
  let t := a - base
  32 * (a / 32) + r * (t % 32 / r) + (t % r + t / 32) % r

end Sys2Proof.Machine
end

