-- ==== Sys2Proof/Machine/Channels.lean ====
section
/-! DEFINITION. Fabric channels as a core sees them: their records, send slots staged and held, and the words a collective holds (13 R345, R346, R348; 14 R366, R367). -/

namespace Sys2Proof.Machine

open Sys2Proof

/-- The tally as a number. -/
def State.now (s : State) : Nat := s.time.tally.toNat

/-- Bytes `lo` to `lo + n - 1` of the job header, little-endian (19 Table 19.9). -/
def hdr (s : State) (t lo n : Nat) : Nat := ((s.ten t).load.header.extractLsb' (8 * lo) (8 * n)).toNat

/-- Base and size of a tenancy's partition of a resource, in entries (19 R512). -/
def partOf (s : State) (t r : Nat) : Nat × Nat := look (s.ten t).def_.parts (0, 0) r

/-- The key of a tenancy's channel. -/
def chanKey (t ch : Nat) : Nat := 4096 * t + ch

/-- The key of a flow between this chip and a peer. -/
def flowKey (t ch peer : Nat) : Nat := 65536 * chanKey t ch + peer

/-! ### Channel records (13 Table 13.6) -/

/-- A tenancy's channel record; zero, which is not valid, outside its partition. -/
def chanRec (s : State) (t ch : Nat) : BitVec 128 :=
  if ch < (partOf s t 5).2 then look s.fabric.records 0 ((partOf s t 5).1 + ch) else 0

def recCore (r : BitVec 128) : Nat := bitsN r 5 0
def recValid (r : BitVec 128) : Bool := bitB r 6
def recHm (r : BitVec 128) : Bool := bitB r 7
def recWords (r : BitVec 128) : Nat := bitsN r 15 8
def recSslots (r : BitVec 128) : Nat := bitsN r 23 16
def recRslots (r : BitVec 128) : Nat := bitsN r 31 24
def recSbase (r : BitVec 128) : Nat := bitsN r 45 32
def recRbase (r : BitVec 128) : Nat := bitsN r 59 46
def recPcredit (r : BitVec 128) : Nat := bitsN r 67 60
def recSaxis (r : BitVec 128) : Nat := bitsN r 69 68
def recSoff (r : BitVec 128) : Int := bitsS r 81 70
def recRaxis (r : BitVec 128) : Nat := bitsN r 83 82
def recRoff (r : BitVec 128) : Int := bitsS r 95 84
def recPlane (r : BitVec 128) : Nat := bitsN r 99 96
def recRoute (r : BitVec 128) : Nat := bitsN r 103 100

/-- The core that owns a tenancy's channel: its record counts rows from the tenancy's first (19 R509). -/
def chanCore (s : State) (t : Nat) (r : BitVec 128) : Nat := recCore r + 8 * (s.ten t).def_.y0.toNat

/-- The channels whose valid records name a core, with the records. -/
def coreChans (s : State) (c : Core) : List (Nat × Nat × BitVec 128) :=
  match tenOf s c with
  | none => []
  | some t =>
    let p := partOf s t 5
    (s.fabric.records.filter (fun (e : Nat × BitVec 128) =>
      decide (p.1 ≤ e.1) && decide (e.1 < p.1 + p.2) && recValid e.2 && decide (chanCore s t e.2 = c.val))).map
        (fun (e : Nat × BitVec 128) => (t, e.1 - p.1, e.2))

/-- The state of a channel. -/
def chanOf (s : State) (t ch : Nat) : ChanSt := look s.fabric.chans {} (chanKey t ch)

/-- The state with a channel's state changed. -/
def State.modChan (s : State) (t ch : Nat) (f : ChanSt → ChanSt) : State :=
  { s with fabric := { s.fabric with chans := put {} s.fabric.chans (chanKey t ch) (f (chanOf s t ch)) } }

/-! ### Send slots (13 R346, R348) -/

/-- The send slots a flow holds. -/
def SendFlow.slots (f : SendFlow) : List Nat :=
  let g (h : Held) : List Nat := match h with | .slot i => [i] | .frame _ => []
  f.held.flatMap (fun u => g u.what) ++ f.queue.flatMap g

/-- The send slots of a channel that are held; one freed in a cycle counts from the next. -/
def heldSlots (s : State) (t ch : Nat) : List Nat :=
  (s.fabric.sends.filter (fun (e : Nat × SendFlow) => e.1 / 65536 = chanKey t ch)).flatMap (fun (e : Nat × SendFlow) => e.2.slots)
    ++ (if (chanOf s t ch).backAt = s.now then (chanOf s t ch).freed else [])

/-- Whether two runs of words meet. -/
def meets (a n b m : Nat) : Bool := decide (a < b + m) && decide (b < a + n)

/-- Whether a run of a core's mailbox words meets a held send slot. -/
def sendHeld (s : State) (c : Core) (a n : Nat) : Bool :=
  (coreChans s c).any (fun (e : Nat × Nat × BitVec 128) =>
    (heldSlots s e.1 e.2.1).any (fun i => meets a n (recSbase e.2.2 + i * recWords e.2.2) (recWords e.2.2)))

/-- A foreground write of a core's mailbox word stages the send slot whose last word it is (13 R346). -/
def State.stage (s : State) (c : Core) (a : Nat) : State :=
  (coreChans s c).foldl (fun (u : State) (e : Nat × Nat × BitVec 128) =>
    let r := e.2.2
    let off := a - recSbase r
    if recSbase r ≤ a && recWords r ≠ 0 && off < recSslots r * recWords r && off % recWords r = recWords r - 1 then
      u.modChan e.1 e.2.1 (fun k => { k with staged := insertNew k.staged (off / recWords r) })
    else u) s

/-! ### The words a collective holds (14 R367, Table 14.2) -/

/-- Share `c` of `b` blocks among `n` (14 R376): its first block and the next share's. -/
def shareBlocks (b n c : Nat) : Nat × Nat := (c * b / n, (c + 1) * b / n)

/-- Whether a move form asks for FP32 results of a ledger reduce-scatter. -/
def Coll.fp32Out (k : Coll) : Bool := decide (k.op = 0) || decide (k.op = 5) || (decide (k.op = 1) && decide (bitsN k.desc 37 34 = 0))

/-- Words of the collective's destination, its work area included. -/
def Coll.dstWords (k : Coll) : Nat :=
  let b := k.count / 128
  let sh := shareBlocks b k.n k.me
  let words := if bitB k.desc 467 || decide (k.op ≠ 1) then k.count else 128 * (sh.2 - sh.1)
  match k.op.toNat with
  | 0 => 2 * k.count
  | 1 => if k.fp32Out then words / 4 else words
  | 2 => k.n * k.count
  | _ => k.count

/-- The core-store runs a collective holds until the `FWAIT` that completes it issues. -/
def Coll.runs (k : Coll) : List (Nat × Nat) :=
  if k.waitFrom.isSome then [] else
    [(k.src, k.count), (k.dst, k.dstWords)] ++ (if k.op = 0 then [(k.table, ceilDiv (k.count / 128) 8)] else [])

/-- Whether a run of a core's store meets a word a collective holds; channel 4,094 is the ledger merge, which holds none. -/
def collHeld (s : State) (c : Core) (a n : Nat) : Bool :=
  s.fabric.colls.any (fun (e : Nat × Coll) =>
    decide (e.1 % 4096 ≠ 4094) && decide (e.2.core = c) && e.2.runs.any (fun r => meets a n r.1 r.2))

end Sys2Proof.Machine
end

