-- ==== Sys2Proof/Machine/Links.lean ====
section
/-! DEFINITION. The fabric dies' sending: identifiers and axes, frames, flows with their acknowledgements, credits and resends, fan-out and the trees toward the root (13 R337 to R356). -/

namespace Sys2Proof.Machine

open Sys2Proof

/-! ### Identifiers, boxes and ports (13 R338 to R340) -/

/-- The system length of axis `k` (0 D, 1 T, 2 P, 3 S). -/
def axisLen (s : State) (k : Nat) : Nat := bitsN s.fabric.axes (12 * k + 11) (12 * k) + 1

/-- This chip's fabric identifier. -/
def myId (s : State) : Nat := bitsN s.fabric.axes 63 48

/-- What one step along axis `k` adds to an identifier. -/
def axisStride (s : State) (k : Nat) : Nat :=
  match k with
  | 0 => axisLen s 1 * axisLen s 2 * axisLen s 3
  | 1 => axisLen s 2 * axisLen s 3
  | 2 => axisLen s 3
  | _ => 1

/-- The coordinate of an identifier on axis `k`. -/
def coordOf (s : State) (id k : Nat) : Nat := id / axisStride s k % axisLen s k

/-- An identifier with its coordinate on axis `k` replaced. -/
def withCoord (s : State) (id k c : Nat) : Nat := id - coordOf s id k * axisStride s k + c * axisStride s k

/-- Origin and length of the job's box on axis `k`. -/
def boxO (s : State) (t k : Nat) : Nat := hdr s t (56 + 2 * k) 2
def boxN (s : State) (t k : Nat) : Nat := hdr s t (64 + 2 * k) 2

/-- The relative coordinate of a chip on axis `k` (14 R364). -/
def relCoord (s : State) (t id k : Nat) : Nat := coordOf s id k - boxO s t k

/-- The ports mapped to axis `k`, in ascending port number. -/
def axisPorts (s : State) (t k : Nat) : List Port :=
  (List.finRange 16).filter (fun p => hdr s t 72 6 / 2 ^ (3 * p.val) % 8 = k + 1)

/-- The axis a port is mapped to. -/
def portAxis (s : State) (t : Nat) (p : Port) : Option Nat :=
  let k := hdr s t 72 6 / 2 ^ (3 * p.val) % 8
  if 1 ≤ k ∧ k ≤ 4 then some (k - 1) else none

/-- The peer at an offset along axis `k`. -/
def peerAt (s : State) (t k : Nat) (off : Int) : Nat :=
  withCoord s (myId s) k (boxO s t k + (((relCoord s t (myId s) k : Int) + off) % (boxN s t k : Int)).toNat)

/-- Whether an identifier lies in the job's box. -/
def inBox (s : State) (t id : Nat) : Bool :=
  (upTo 4).all (fun k => decide (boxO s t k ≤ coordOf s id k) && decide (coordOf s id k < boxO s t k + boxN s t k))

/-- Whether two chips differ on axis `k` alone. -/
def onAxis (s : State) (a b k : Nat) : Bool :=
  decide (a ≠ b) && (upTo 4).all (fun j => j = k || decide (coordOf s a j = coordOf s b j))

/-- The chips of the job. -/
def jobChips (s : State) (t : Nat) : Nat := boxN s t 0 * boxN s t 1 * boxN s t 2 * boxN s t 3

/-- Whether this chip is the job's root: its chip at the box's origin. -/
def isRoot (s : State) (t : Nat) : Bool := (upTo 4).all (fun k => relCoord s t (myId s) k = 0)

def portOf (s : State) (p : Port) : PortSt := look s.fabric.ports {} p.val

def State.modPort (s : State) (p : Port) (f : PortSt → PortSt) : State :=
  { s with fabric := { s.fabric with ports := put {} s.fabric.ports p.val (f (portOf s p)) } }

/-- A port that can carry flows: it has link and is not marked down. -/
def livePort (s : State) (p : Port) : Bool :=
  let q := portOf s p
  q.link && !q.down && !q.failed && !q.assay

/-! ### Frames (13 R341, R342) -/

/-- The priority of a kind. -/
def pcpOf (s : State) (kind : Nat) : BitVec 3 :=
  if kind = 0 ∨ kind = 8 then bits s.fabric.cfg 38 36
  else if kind = 3 ∨ kind = 4 then bits s.fabric.cfg 44 42
  else bits s.fabric.cfg 41 39

/-- A frame of a kind to a chip on a tenancy's channel, before its flow numbers it. -/
def mkFrame (s : State) (t kind dst ch route : Nat) (p : Port) (ws : List MemWord) : Frame where
  ver := 1
  kind := BitVec.ofNat 4 kind
  src := BitVec.ofNat 16 (myId s)
  dst := BitVec.ofNat 16 dst
  plane := BitVec.ofNat 4 p.val
  chan := BitVec.ofNat 12 ch
  ten := BitVec.ofNat 3 t
  hm := false
  epoch := (s.ten t).recov.epoch
  seq := 0
  ack := 0
  ackv := false
  credit := 0
  job := BitVec.ofNat 16 (hdr s t 2 2)
  port := BitVec.ofNat 4 p.val
  late := false
  vlan := BitVec.ofNat 12 (bitsN s.fabric.cfg 27 16 + route)
  pcp := pcpOf s kind
  payload := ws
  hall := 0

/-- Bytes of a frame (13 Table 13.3). -/
def frameBytes (f : Frame) : Nat :=
  max 64 (54 + 32 * f.payload.length + 32 * ceilDiv f.payload.length 16 + (if f.hm then 32 else 0))

/-- The energy of a frame's bytes on a port. -/
def State.chargeFrame (s : State) (p : Port) (f : Frame) : State :=
  s.charge (if s.tenExists f.ten.toNat then some f.ten.toNat else none) (eventEnergy s 15 (frameBytes f)) [portOff p.val 0x58]

/-- A frame sent on a port: none while ETHERTYPE is 0, and none from a port without link. -/
def State.emitFrame (s : State) (p : Port) (f : Frame) : State :=
  if bitsN s.fabric.cfg 15 0 = 0 || !(portOf s p).link then s else
    { ((s.count (portOff p.val 0) 1).chargeFrame p f) with fabric := { s.fabric with
        outbox := s.fabric.outbox ++ [(p, { f with port := BitVec.ofNat 4 p.val, plane := BitVec.ofNat 4 p.val })] } }

/-- Header bits [63:0] of a frame (13 Table 13.4). -/
def headerLow (f : Frame) : Nat :=
  f.ver.toNat + f.kind.toNat * 2 ^ 4 + f.src.toNat * 2 ^ 8 + f.dst.toNat * 2 ^ 24 + f.chan.toNat * 2 ^ 40
    + f.ten.toNat * 2 ^ 52 + (if f.hm then 2 ^ 55 else 0) + f.payload.length % 256 * 2 ^ 56

/-! ### The sending side of a flow (13 R346 to R353) -/

def sendOf (s : State) (t ch peer : Nat) : SendFlow := look s.fabric.sends {} (flowKey t ch peer)

def State.setSend (s : State) (t ch peer : Nat) (f : SendFlow) : State :=
  { s with fabric := { s.fabric with sends := put {} s.fabric.sends (flowKey t ch peer) f } }

def recvOf (s : State) (t ch peer : Nat) : RecvFlow := look s.fabric.recvs {} (flowKey t ch peer)

def State.setRecv (s : State) (t ch peer : Nat) (f : RecvFlow) : State :=
  { s with fabric := { s.fabric with recvs := put {} s.fabric.recvs (flowKey t ch peer) f } }

/-- The port a channel's record names. -/
def recPort (s : State) (t : Nat) (r : BitVec 128) : Port := nth (axisPorts s t (recSaxis r)) 0 (recPlane r)

/-- The chip a channel sends to, and the only chip it receives from (13 Table 13.6). -/
def sendPeer (s : State) (t : Nat) (r : BitVec 128) : Nat := peerAt s t (recSaxis r) (recSoff r)
def recvPeer (s : State) (t : Nat) (r : BitVec 128) : Nat := peerAt s t (recRaxis r) (recRoff r)

/-- The frame of a send slot: the words of the owning core's mailbox as they are read (12 R302), and their hallmark where
the channel carries them, with POISON where the slot fails its CRC or holds a poisoned word (12 R319, R332). -/
def slotFrame (s : State) (t ch peer i : Nat) : Frame :=
  let r := chanRec s t ch
  let c : Core := Fin.ofNat 64 (chanCore s t r)
  let a := recSbase r + i * recWords r
  let ws := (upTo (recWords r)).map (fun k => readWord s (.mbox c) (a + k))
  let h := hallOf s (.mbox c) a
  { mkFrame s t 0 peer ch (recRoute r) (recPort s t r) ws with
    hm := recHm r
    hall := if recHm r then (if crcFails s (.mbox c) (a / 128) || ws.any isPoisoned then setPoison h else h) else 0 }

/-- A frame of a flow transmitted, with the acknowledgement the reverse flow owes. -/
def State.transmit (s : State) (t ch peer : Nat) (u : Unacked) : State :=
  let rc := recvOf s t ch peer
  let f := match u.what with
    | .slot i => slotFrame s t ch peer i
    | .frame f => f
  let p := (sendOf s t ch peer).port.getD (Fin.ofNat 16 f.port.toNat)
  (s.setRecv t ch peer { rc with owes := false }).emitFrame p
    { f with seq := u.seq, ack := rc.expected, ackv := rc.owes, credit := BitVec.ofNat 8 u.credit }

/-- The next frame of a flow, numbered, held and transmitted; it returns the credits owed to its receiver. -/
def State.sendNow (s : State) (t ch peer : Nat) (h : Held) : State :=
  let fl := sendOf s t ch peer
  let cr := if recvPeer s t (chanRec s t ch) = peer && recValid (chanRec s t ch) then min 128 (chanOf s t ch).owed else 0
  let u : Unacked := ⟨fl.next, h, cr⟩
  let s1 := s.setSend t ch peer { fl with
    next := fl.next + 1
    held := fl.held ++ [u]
    advanced := if fl.held = [] then s.now else fl.advanced }
  (if cr = 0 then s1 else s1.modChan t ch (fun k => { k with owed := k.owed - cr })).transmit t ch peer u

/-- A frame given to a flow: sent at once, or queued behind the 64 unacknowledged ones (13 R349). -/
def State.push (s : State) (t ch peer : Nat) (h : Held) : State :=
  let fl := sendOf s t ch peer
  if fl.held.length < 64 && decide (fl.queue = []) then s.sendNow t ch peer h
  else s.setSend t ch peer { fl with queue := fl.queue ++ [h] }

/-- The queued frames that now have room sent. -/
def State.pump (s : State) (t ch peer : Nat) : State :=
  let fl := sendOf s t ch peer
  let n := 64 - fl.held.length
  (fl.queue.take n).foldl (fun (u : State) h => u.sendNow t ch peer h)
    (s.setSend t ch peer { fl with queue := fl.queue.drop n })

/-- A frame on the control flow with a peer. -/
def State.pushCtl (s : State) (t peer : Nat) (f : Frame) : State := s.push t 4095 peer (.frame f)

/-- Slots or credits that come back in this cycle (13 R348). -/
def ChanSt.backNow (k : ChanSt) (now credit : Nat) (slots : List Nat) : ChanSt :=
  if k.backAt = now then { k with back := k.back + credit, freed := k.freed ++ slots, spent := k.spent - credit }
  else { k with backAt := now, back := credit, freed := slots, spent := k.spent - credit }

/-- The credit an `FSEND` finds: what came back in this cycle does not count yet. -/
def creditOf (s : State) (t ch : Nat) : Nat :=
  let k := chanOf s t ch
  recPcredit (chanRec s t ch) - k.spent - (if k.backAt = s.now then k.back else 0)

/-- The flow acknowledged up to `a`: slots freed, the timer restarted, queued frames sent (13 R349). -/
def State.acked (s : State) (t ch peer : Nat) (a : BitVec 24) : State :=
  let fl := sendOf s t ch peer
  match fl.held with
  | [] => s
  | o :: _ =>
    let n := (a - o.seq).toNat
    if n = 0 || fl.held.length < n then s else
      let gone : SendFlow := { held := fl.held.take n }
      let s1 := s.setSend t ch peer { fl with held := fl.held.drop n, timeouts := 0, onPort := 0, advanced := s.now }
      let s2 := if gone.slots = [] then s1 else s1.modChan t ch (fun k => k.backNow s.now 0 gone.slots)
      s2.pump t ch peer

/-- The staged slots of a channel in ring order. -/
def stagedRing (s : State) (t ch : Nat) : List Nat :=
  let n := recSslots (chanRec s t ch)
  let k := chanOf s t ch
  ((upTo n).map (fun i => (k.rank + i) % n)).filter (fun i => k.staged.contains i)

/-- Staged slots of a channel sent in order, with their credits (13 R346). -/
def State.sendStaged (s : State) (t ch : Nat) (is : List Nat) : State :=
  let r := chanRec s t ch
  let s1 := s.modChan t ch (fun k => { k with
    staged := k.staged.filter (fun i => !is.contains i), spent := k.spent + is.length
    rank := match is.getLast? with | some i => (i + 1) % recSslots r | none => k.rank })
  is.foldl (fun (u : State) i => u.push t ch (sendPeer s t r) (.slot i)) s1

/-- The idle cause a stall counts under (09 Table 09.7). -/
def Stall.cause (x : Stall) : Nat :=
  match x with
  | .late _ _ _ => 3 | .coll _ _ => 3 | .merge => 3
  | .credit _ _ => 4 | .escrow _ _ => 4 | .stateBuffer => 4
  | .vote _ => 5

/-- The highest-ranked cause of a list of stalls: 5, then 3, then 4. -/
def stallCause (xs : List Stall) : Nat :=
  if xs.any (fun x => x.cause = 5) then 5 else if xs.any (fun x => x.cause = 3) then 3 else 4

/-- A stall of a tenancy's schedule ended; it has displaced the schedule (09 R238). -/
def State.endStall (s : State) (t : Nat) (p : Stall → Bool) : State :=
  s.modTen t (fun n =>
    let xs := n.course.stalls.filter p
    { n with course := { n.course with
      stalls := n.course.stalls.filter (fun x => !p x), shift := if xs = [] then n.course.shift else stallCause xs } })

/-- Credits returned to a channel; a credit stall that has enough ends, and its parcels go. -/
def State.credited (s : State) (t ch n : Nat) : State :=
  if n = 0 then s else
    let s1 := s.modChan t ch (fun k => k.backNow s.now n [])
    let have_ := recPcredit (chanRec s1 t ch) - (chanOf s1 t ch).spent
    let waits (x : Stall) : Bool := match x with | .credit _ k => decide (k.toNat = ch) | _ => false
    if (s1.ten t).course.stalls.any waits && (stagedRing s1 t ch).length ≤ have_ then (s1.endStall t waits).sendStaged t ch (stagedRing s1 t ch)
    else s1

/-- What a frame of a channel's reverse flow returns. -/
def State.takeBack (s : State) (t : Nat) (f : Frame) : State :=
  let ch := f.chan.toNat
  let s1 := if f.ackv then s.acked t ch f.src.toNat f.ack else s
  if recvPeer s t (chanRec s t ch) = f.src.toNat || sendPeer s t (chanRec s t ch) = f.src.toNat then s1.credited t ch f.credit.toNat else s1

/-- A flow resent in order from its `n`-th unacknowledged frame (13 R351). -/
def State.goBack (s : State) (t ch peer n : Nat) : State :=
  let us := (sendOf s t ch peer).held.drop n
  us.foldl (fun (v : State) u => v.transmit t ch peer u) (s.countTen t 0x2108 us.length)

/-! ### Fan-out and the trees toward the root (13 R355, R356) -/

/-- A payload word sent along the given axes to every other chip of each, as a kind of control frame. -/
def State.fanOut (s : State) (t kind : Nat) (axes : List Nat) (ws : List MemWord) : State :=
  axes.foldl (fun (u : State) k =>
    let ps := axisPorts s t k
    (upTo (boxN s t k)).foldl (fun (u : State) j =>
      let c := boxO s t k + j
      let dst := withCoord s (myId s) k c
      if dst = myId s then u
      else
        let p := nth ps 0 (c % ps.length)
        u.pushCtl t dst (mkFrame s t kind dst 4095 0 p ws)) u) s

/-- The axes of the job longer than 1, in the order D, T, P, S. -/
def jobAxes (s : State) (t : Nat) : List Nat := (upTo 4).filter (fun k => 1 < boxN s t k)

/-- A broadcast of this chip to the whole job. -/
def State.broadcast (s : State) (t kind : Nat) (ws : List MemWord) : State := s.fanOut t kind (jobAxes s t) ws

/-- A broadcast forwarded: along every axis after the one it came from. -/
def State.forward (s : State) (t kind : Nat) (p : Port) (axes : List Nat) (ws : List MemWord) : State :=
  match portAxis s t p with
  | some x => s.fanOut t kind (axes.filter (fun k => x < k)) ws
  | none => s

/-- The chip this chip sends to on the way to the root, in the axis order S, P, T, D; none at the root. -/
def rootward (s : State) (t : Nat) : Option (Nat × Nat) :=
  ([3, 2, 1, 0].find? (fun k => relCoord s t (myId s) k ≠ 0)).map (fun k => (k, withCoord s (myId s) k (boxO s t k)))

/-- How many chips send to this one on the way to the root. -/
def rootChildren (s : State) (t : Nat) : Nat :=
  (([3, 2, 1, 0] : List Nat).takeWhile (fun k => relCoord s t (myId s) k = 0)).foldl (fun n k => n + (boxN s t k - 1)) 0

/-- A word sent one step toward the root; nothing at the root. -/
def State.sendRootward (s : State) (t kind : Nat) (w : BitVec 256) : State :=
  match rootward s t with
  | none => s
  | some (k, dst) =>
    let ps := axisPorts s t k
    let p := nth ps 0 (boxO s t k % ps.length)
    s.pushCtl t dst (mkFrame s t kind dst 4095 0 p [MemWord.clean w])

end Sys2Proof.Machine
end

