-- ==== Sys2Proof/Machine/Flags.lean ====
section
/-! DEFINITION. What an event leaves in the status, interrupt and fault registers: daybook entries, interrupts, errors of a job, program faults, poison consumption (10 R278, R279; 12 R320; 15 R402 to R406; 18 R479; 20 R538). -/

namespace Sys2Proof.Machine

open Sys2Proof

/-- What a command answers. -/
abbrev Answer := Host.Outcome State Fault Refusal

/-! ### Daybook (18 Table 18.5) -/

/-- Error classes as Table 15.8 numbers them: 1 U, 2 A, 3 J, 4 D. -/
def clsU : BitVec 3 := 1
def clsA : BitVec 3 := 2
def clsJ : BitVec 3 := 3
def clsD : BitVec 3 := 4

/-- A daybook entry packed. `ten` 15 is unowned, `core` 0x7F none. -/
def dayWord (tally : BitVec 64) (code : BitVec 8) (cls : BitVec 3) (ten core unit a b c : Nat) : BitVec 256 :=
  BitVec.ofNat 256 (tally.toNat + code.toNat * 2 ^ 64 + cls.toNat * 2 ^ 72 + ten % 16 * 2 ^ 75 + core % 128 * 2 ^ 80
    + unit % 16 * 2 ^ 87 + a % 2 ^ 32 * 2 ^ 96 + b % 2 ^ 64 * 2 ^ 128 + c % 2 ^ 64 * 2 ^ 192)

/-- An entry delivered to the daybook writer, stamped with the tally (18 R479, R480). -/
def State.daybook (s : State) (code : BitVec 8) (cls : BitVec 3) (ten core unit a b c : Nat) : State :=
  { s with mgmt := { s.mgmt with waiting := s.mgmt.waiting ++ [dayWord s.time.tally code cls ten core unit a b c] } }

/-- An entry of the chip, of no tenancy, core or unit. -/
def State.dayChip (s : State) (code : BitVec 8) (cls : BitVec 3) (a b c : Nat) : State :=
  s.daybook code cls 15 0x7F 0 a b c

/-- An entry of a tenancy. -/
def State.dayTen (s : State) (t : Nat) (code : BitVec 8) (cls : BitVec 3) (a b c : Nat) : State :=
  s.daybook code cls t 0x7F 0 a b c

/-- An entry of a core's unit. -/
def State.dayCore (s : State) (c : Core) (unit : Nat) (code : BitVec 8) (cls : BitVec 3) (a b k : Nat) : State :=
  s.daybook code cls ((tenOf s c).getD 15) (phys s c) unit a b k

/-! ### Assays asked for (18 R487 to R490) -/

/-- Whether a tenancy has a job loaded, from the commit on to the unload. -/
def jobLoaded (s : State) (t : Nat) : Bool :=
  let st := (s.ten t).load.st
  decide (st = .loading) || decide (st = .loaded) || decide (st = .running) || decide (st = .ended)

/-- The tenancy whose job a physical core is mapped to: a core of its rows that is no spare, in a job that can run. -/
def jobOfPhys (s : State) (p : Nat) : Option Nat :=
  match tenOfRow s (p / 9) with
  | none => none
  | some t => if jobLoaded s t && decide ((s.ten t).load.st ≠ .ended) && !(sparesOf s (p / 9)).contains (p % 9) then some t else none

/-- Whether a port can be assayed: it belongs to no tenancy, or it is down and no flow is on it (13 R361). -/
def portFree (s : State) (p : Nat) : Bool :=
  !(tenancies s).any (fun t => (s.ten t).def_.ports.getLsbD p)
    || ((portOf s (Fin.ofNat 16 p)).down && !s.fabric.sends.any (fun (e : Nat × SendFlow) => e.2.held ≠ [] && e.2.port = some (Fin.ofNat 16 p)))

/-- Whether no job uses the target of an assay (18 R489). -/
def targetFree (s : State) (kind target : Nat) : Bool :=
  if kind ≤ 1 then (jobOfPhys s target).isNone
  else if kind = 3 then portFree s target
  else !(upTo 8).any (fun t => jobLoaded s t)

/-- Pending assays whose target is free begin to run. -/
def State.startAssays (s : State) : State :=
  s.mgmt.assays.foldl (fun (u : State) a =>
    if targetFree u a.kind.toNat a.target.toNat then
      let v := { u with mgmt := { u.mgmt with assays := u.mgmt.assays.erase a, running := u.mgmt.running ++ [a] } }
      if a.kind = 3 then v.modPort (Fin.ofNat 16 a.target.toNat) (fun q => { q with assay := true }) else v
    else u) s

/-- An assay asked for: merged into one of the same kind and target that waits or runs, else run at once or kept; one of a core
in use is deferred (18 R488, R489). -/
def State.requestAssay (s : State) (kind target : Nat) (force : Bool) : State :=
  let same (a : Assay) : Bool := decide (a.kind.toNat = kind) && decide (a.target.toNat = target)
  if s.mgmt.running.any same then s
  else if s.mgmt.assays.any same then
    { s with mgmt := { s.mgmt with assays := s.mgmt.assays.map (fun a => if same a then { a with force := a.force || force } else a) } }
  else
    let used := if kind ≤ 1 then jobOfPhys s target else none
    let a : Assay := { kind := BitVec.ofNat 4 kind, target := BitVec.ofNat 16 target, force := force, deferred := used.isSome, ten := used }
    let s1 := { s with mgmt := { s.mgmt with assays := s.mgmt.assays ++ [a] } }
    match used with
    | some t => s1.daybook 0x81 0 t target 13 kind target 0
    | none => s1.startAssays

/-- A trigger of Table 18.11 enabled in ASY_CTL. -/
def trigOn (s : State) (i : Nat) : Bool := s.mgmt.asyCtl.getLsbD i

/-- Ticks of a day and of an hour. -/
def dayTicks : Nat := 86400 * 1800000000
def hourTicks : Nat := 3600 * 1800000000

/-- Events of a place in the last `n` ticks. -/
def recent (l : List (Nat × Nat)) (k now n : Nat) : Nat := (l.filter (fun x => x.1 = k && now < x.2 + n)).length

/-- A core assay of every core of a tenancy. -/
def State.assayCores (s : State) (t : Nat) : State :=
  ((coresOf s t).filter (fun c => decide (phys s c < 72))).foldl (fun (u : State) c => u.requestAssay 0 (phys u c) false) s

/-! ### Interrupts (20 R538, Table 20.12) -/

/-- The vector a status bit belongs to. -/
def vectorOf (bit : Nat) : Nat :=
  nth [0, 1, 1, 2, 3, 4, 4, 5, 5, 6, 6, 6, 7, 8, 9] 0 bit

/-- The status bits of a vector. -/
def vectorBits (v : Nat) : List Nat := (upTo 15).filter (fun b => vectorOf b = v)

/-- INT_STATUS of a function. -/
def State.intStatus (s : State) (fn : Nat) : BitVec 64 := look s.mgmt.ints 0 fn

/-- An entry of a function's MSI-X table; masked at reset (PCI Express). -/
def msixEntry (s : State) (fn v : Nat) : BitVec 128 := look s.mgmt.msix (1#128 <<< 96) (16 * fn + v)

/-- A vector's message: sent, or pending while its entry is masked. -/
def State.sendMsg (s : State) (fn v : Nat) : State :=
  if bitB (msixEntry s fn v) 96 then { s with mgmt := { s.mgmt with pba := put 0 s.mgmt.pba fn (look s.mgmt.pba 0 fn ||| (1#64 <<< v)) } }
  else { s with mgmt := { s.mgmt with sent := s.mgmt.sent ++ [(fn, v)] } }

/-- A status bit set: the vector sends its message when its group was all clear. -/
def State.raiseInt (s : State) (fn bit : Nat) : State :=
  let old := s.intStatus fn
  let quiet := (vectorBits (vectorOf bit)).all (fun b => !old.getLsbD b)
  let s1 := { s with mgmt := { s.mgmt with ints := put 0 s.mgmt.ints fn (old ||| (1#64 <<< bit)) } }
  if quiet then s1.sendMsg fn (vectorOf bit) else s1

/-- An event of a tenancy: the PF's bit and its VF's. -/
def State.raiseTen (s : State) (t bit : Nat) : State := (s.raiseInt 0 bit).raiseInt (t + 1) bit

/-- An event of the chip that every tenancy's function sees. -/
def State.raiseAll (s : State) (bit : Nat) : State :=
  (tenancies s).foldl (fun s t => s.raiseInt (t + 1) bit) (s.raiseInt 0 bit)

/-! ### Errors of a job (15 R402 to R406) -/

/-- An error queued on the chip; the queue holds 16, and a U or A that finds it full ends the job at the resume (15 R406). -/
def State.queueError (s : State) (t : Nat) (e : JobError) : State :=
  let r := (s.ten t).recov
  if r.queue.length < 16 then
    s.modTen t (fun n => { n with recov := { n.recov with queue := n.recov.queue ++ [e] } })
  else
    let s1 := s.modTen t (fun n => { n with recov := { n.recov with queueOvf := true, lostUA := n.recov.lostUA || decide (e.cls.toNat ≤ 2) } })
    (s1.countTen t 0x21C8 1).dayTen t e.code e.cls 0 0 0

/-- A recovery control word (15 Table 15.8). -/
def recWord (sub cls path step epoch course : Nat) (opt : Bool) (chips code partials census : Nat) : BitVec 256 :=
  BitVec.ofNat 256 (sub % 16 + cls % 8 * 2 ^ 4 + path % 8 * 2 ^ 7 + step % 2 ^ 32 * 2 ^ 10 + epoch % 2 ^ 32 * 2 ^ 42
    + course % 2 ^ 50 * 2 ^ 74 + (if opt then 2 ^ 124 else 0) + chips % 2 ^ 17 * 2 ^ 125 + code % 256 * 2 ^ 142
    + partials % 65536 * 2 ^ 150 + census % 65536 * 2 ^ 166)

/-- A job-ending error of class J with its code, the first of the job: END goes to every chip of it (15 R417). -/
def State.endError (s : State) (t : Nat) (code : BitVec 8) : State :=
  match (s.ten t).recov.ending with
  | some _ => s
  | none =>
    (s.modTen t (fun n => { n with recov := { n.recov with ending := some ⟨clsJ, 4, 0, code⟩ } })).broadcast t 9
      [MemWord.clean (recWord 5 3 4 0 0 0 false 0 code.toNat 0 (s.ten t).recov.census.toNat)]

/-- Whether a recovery is under way. -/
def inRecovery (s : State) (t : Nat) : Bool := decide (1 ≤ (s.ten t).recov.st.toNat) && decide ((s.ten t).recov.st.toNat ≤ 4)

/-- An error of class U or A latched on the chip for its job; during a recovery Table 15.5 says what it does (15 R403 to R406). -/
def State.jobError (s : State) (t : Nat) (e : JobError) : State :=
  let r := (s.ten t).recov
  if inRecovery s t then
    if e.cls = clsU && r.cls = clsU then s.endError t (BitVec.ofNat 8 (Config.endCode 8))
    else if e.cls ≤ r.cls then s.queueError t e
    else s.modTen t (fun n => { n with recov := { n.recov with preempt := n.recov.preempt.or (some e) } })
  else s.queueError t e

/-! ### Program faults (10 R278, R279, Tables 10.5, 10.6) -/

/-- PRG_FAULT's word. -/
def faultWord (code detail slot core page bundle course : Nat) (more : Bool) : BitVec 64 :=
  BitVec.ofNat 64 (code % 256 + detail % 8 * 2 ^ 8 + slot % 8 * 2 ^ 11 + core % 64 * 2 ^ 14 + page % 8 * 2 ^ 20
    + bundle % 1024 * 2 ^ 23 + (if more then 2 ^ 33 else 0) + course % 2 ^ 28 * 2 ^ 34 + 2 ^ 63)

/-- A core's number within its tenancy. -/
def coreInTen (s : State) (t : Nat) (c : Core) : Nat := c.val - 8 * (s.ten t).def_.y0.toNat

/-- The register and its tally after a fault. -/
def latchFault (old oldAt : BitVec 64) (tally : BitVec 64) (w : BitVec 64) : BitVec 64 × BitVec 64 :=
  if old.getLsbD 63 then
    if oldAt = tally then (if (bits w 7 0).toNat < (bits old 7 0).toNat then (w, tally) else (old, oldAt))
    else (old ||| (1#64 <<< 33), oldAt)
  else (w, tally)

/-- The tenancy's cores stop issuing at the end of the cycle (10 R278). -/
def Tenancy.stopNow (n : Tenancy) (tally : Nat) : Tenancy :=
  if n.course.stopped then n else { n with course := { n.course with stopped := true, stopCyc := tally } }

/-- A program fault on core `c`, raised by slot `slot` (0 MX to 4 SQ, 7 course start) of the bundle at `page`, `bundle`. -/
def State.progFaultAt (s : State) (c : Core) (page bundle slot code detail : Nat) : State :=
  match tenOf s c with
  | none => s
  | some t =>
    let n := s.ten t
    let w := faultWord code detail slot (coreInTen s t c) page bundle (s.time.tally.toNat / 16384) false
    let l := latchFault n.fault n.faultAt s.time.tally w
    let s1 := s.setTen t (({ n with fault := l.1, faultAt := l.2 } : Tenancy).stopNow s.time.tally.toNat)
    let s2 := s1.daybook 0x20 clsJ t (phys s c) 9 0 w.toNat s.time.tally.toNat
    ((s2.countTen t 0x2040 1).raiseTen t 3).endError t 0x20

/-- The sequencer of a core. -/
def seqOf (s : State) (c : Core) : Seq := look s.cores.seqs {} c.val

/-- A program fault of the bundle that issues. -/
def State.progFault (s : State) (c : Core) (slot code detail : Nat) : State :=
  s.progFaultAt c (seqOf s c).page.toNat ((seqOf s c).bundle) slot code detail

/-- Poison consumed by a unit of a core at an address of a folded-address kind (12 R320). -/
def State.poisonConsumed (s : State) (c : Core) (unit kind addr : Nat) : State :=
  match tenOf s c with
  | none => s
  | some t =>
    ((s.dayCore c unit 0x40 clsU kind addr 0).countTen t 0x2260 1).jobError t
      ⟨clsU, 3, (s.ten t).steps.step, 0x40⟩

/-- Poison consumed at the latch or issue stage: the tenancy stops as well (10 R254, 12 R320). -/
def State.poisonStop (s : State) (c : Core) (unit kind addr : Nat) : State :=
  match tenOf s c with
  | none => s
  | some t => (s.poisonConsumed c unit kind addr).modTen t (fun n => n.stopNow s.time.tally.toNat)

/-- An arithmetic fault of a core (04 R103, 06 R159): its count in the die ledger, and a class A error of its job. -/
def State.arithFault (s : State) (c : Core) (code : BitVec 8) : State :=
  let s1 := s.addFigure 4 (phys s c) 1
  let s2 := { s1 with mgmt := { s1.mgmt with faultsAt := s1.mgmt.faultsAt ++ [(phys s c, s.time.tally.toNat)] } }
  let s3 := if trigOn s2 0 && decide (bitsN s2.mgmt.asyCtl 15 8 ≤ recent s2.mgmt.faultsAt (phys s c) s.now dayTicks) then
      s2.requestAssay 0 (phys s c) false else s2
  match tenOf s c with
  | some t => s3.jobError t ⟨clsA, 1, (s.ten t).steps.step, code⟩
  | none => s3

/-- The lane of a waiting upset that strikes the vector unit of a core, or its row engine. -/
def Upset.lane (u : Upset) (c : Core) (row : Bool) : Option Nat :=
  match u with
  | .vx d l => if d = c ∧ ¬row then some l.toNat else none
  | .rw d l => if d = c ∧ row then some l.toNat else none
  | _ => none

/-- A duplicate-and-compare mismatch of a unit (5 vector unit, 6 row engine), where a waiting upset strikes a lane of it (06 R159):
the value stands. -/
def State.dupStrike (s : State) (c : Core) (row : Bool) (unit off desc : Nat) : State :=
  match s.upsets.find? (fun u => (u.lane c row).isSome) with
  | some u =>
    let s1 := { s with upsets := s.upsets.erase u }
    ((s1.countCore c off 1).dayCore c unit 0x22 clsA ((u.lane c row).getD 0) desc 0).arithFault c 0x22
  | none => s

/-- A parity error of the function ROM, where a waiting upset strikes an entry that a unit reads (06 R160): class A, and the value is
used as computed. -/
def State.romStrike (s : State) (c : Core) (row : Bool) (unit : Nat) : State :=
  match s.upsets.find? (fun u => match u with | .rom d r _ => d = c ∧ r = row | _ => false) with
  | some u =>
    let s1 := { s with upsets := s.upsets.erase u }
    let e := match u with | .rom _ _ e => e.toNat | _ => 0
    (s1.dayCore c unit 0x24 clsA e 0 0).arithFault c 0x24
  | none => s

/-! ### What an instruction raises -/

/-- Why an operation does not complete: a program fault that leaves nothing, a program fault after part of the work,
or poison at its descriptor. -/
inductive Trap where
  | fault (code detail : Nat)
  | after (s : State) (code detail : Nat)
  | poison (unit kind addr : Nat)

/-- An operation's outcome: the state it leaves, or its trap. -/
abbrev Res (α : Type) := Except Trap α

/-- A check: the program fault `code` where it fails. -/
def need (b : Bool) (code : Nat) (detail : Nat := 0) : Res Unit := if b then .ok () else .error (.fault code detail)

/-- Whether a stall is one of a take that waits. -/
def Stall.ofTake (x : Stall) : Bool := match x with | .merge => true | .stateBuffer => true | _ => false

/-- Whether core `c` runs a schedule course that it has not ended: no bundle issues in a blank course, after a `CEND` or while a take
waits (09 R223, 10 R249, R276). -/
def inSchedule (s : State) (c : Core) : Bool :=
  match tenOf s c with
  | none => false
  | some t =>
    let n := s.ten t
    decide (n.load.st = .running) && n.course.inCourse && !n.course.stalls.any Stall.ofTake && !(seqOf s c).ended

/-- Whether the tenancy of core `c` has stopped. -/
def stopped (s : State) (c : Core) : Bool := match tenOf s c with | none => false | some t => (s.ten t).course.stopped

/-- Whether core `c` can issue: it runs its course, and its tenancy has not stopped. -/
def issues (s : State) (c : Core) : Bool := inSchedule s c && !stopped s c

/-- Whether the tenancy of core `c` stops at the end of this cycle: what issues in it can still fault, and nothing of it is written
(10 R278, R279). -/
def stopping (s : State) (c : Core) : Bool :=
  inSchedule s c && (match tenOf s c with
    | none => false
    | some t => (s.ten t).course.stopped && decide ((s.ten t).course.stopCyc = s.now))

/-- A trap of an operation in a slot of core `c`, with what its rule leaves of it. -/
def State.trapped (s : State) (c : Core) (slot : Nat) (e : Trap) : State :=
  match e with
  | .fault code d => s.progFault c slot code d
  | .after s' code d => s'.progFault c slot code d
  | .poison unit kind addr => s.poisonStop c unit kind addr

/-- An operation issued in a slot of core `c`: it reads the state `rd` of before the cycle (10 R250) and works on `s`. -/
def slotOp (c : Core) (slot : Nat) (f : State → State → Res State) (rd s : State) : State :=
  if issues rd c then
    match f rd s with
    | .ok s' => s'
    | .error e => s.trapped c slot e
  else if stopping rd c then
    match f rd s with
    | .ok _ => s
    | .error e => s.trapped c slot e
  else s

end Sys2Proof.Machine
end

