-- ==== Sys2Proof/Machine/Pages.lean ====
section
/-! DEFINITION. Writing blocks: their hallmarks, the twin digests and weight seals they fold into, and the pages of the escrow set that a foreground write must wait for (12 R317, R330; 15 R395, R399, R408; 16 R421 to R431). -/

namespace Sys2Proof.Machine

open Sys2Proof

/-! ### CRC-64/ECMA-182 (15 R395) -/

def crc64Bit (c : BitVec 64) : BitVec 64 := if c.getLsbD 63 then (c <<< 1) ^^^ 0x42F0_E1EB_A9EA_3693 else c <<< 1

def crc64Byte (c : BitVec 64) (b : BitVec 8) : BitVec 64 :=
  let x := c ^^^ (b.setWidth 64 <<< 56)
  crc64Bit (crc64Bit (crc64Bit (crc64Bit (crc64Bit (crc64Bit (crc64Bit (crc64Bit x)))))))

def crc64 (bs : List (BitVec 8)) : BitVec 64 := bs.foldl crc64Byte 0

/-- The bytes of a number of `n` bytes, least significant first. -/
def leBytes (n v : Nat) : List (BitVec 8) := (upTo n).map (fun i => BitVec.ofNat 8 (v / 2 ^ (8 * i)))

/-! ### Twin digests (15 R394, R395) -/

/-- Whether a tag matches a twin record in step `s`. -/
def twinMatch (r : BitVec 64) (period shift step : Nat) (gen : BitVec 16) : Bool :=
  let v : BitVec 16 := bits r 15 0 + BitVec.ofNat 16 (step % period * 2 ^ shift)
  bitB r 32 && decide (gen &&& bits r 31 16 = v &&& bits r 31 16)

/-- A hallmark that a tenancy writes, folded into its twin records. -/
def State.foldTwin (s : State) (t : Nat) (h : BitVec 64) : State :=
  let n := s.ten t
  let period := hdr s t 45 1
  if period = 0 then s else
  n.steps.twins.foldl (fun (s : State) (r : Nat × FoldRec) =>
    if twinMatch r.2.record period (hdr s t 46 1) n.steps.step.toNat (bits h 63 48) then
      if hallNocrc h then s.countTen t 0x2190 1
      else
        let r1 : FoldRec := { r.2 with digest := r.2.digest + crc64 (leBytes 8 h.toNat), count := r.2.count + 1 }
        s.modTen t (fun n => { n with steps := { n.steps with twins := set n.steps.twins r.1 r1 } })
    else s) s

/-! ### Weight seals (15 R398, R399, R408) -/

/-- The HBM key of a seal or escrow record's first word: its BASE, in the tenancy's share. -/
def recordKey (s : State) (t : Nat) (r : BitVec 64) : Nat :=
  let st := bitsN r 34 32
  stackWords * st + (shareOf s t st).1 + bitsN r 31 1

/-- The seal record whose range holds a block, with the block's index in it. -/
def sealOf (s : State) (t : Nat) (key : Nat) : Option (Nat × FoldRec × Nat) :=
  ((s.ten t).steps.sealRecs.filterMap (fun (r : Nat × FoldRec) =>
    let b := recordKey s t r.2.record
    if bitB r.2.record 0 && decide (b ≤ key) && decide (key < b + 128 * bitsN r.2.record 58 35)
    then some (r.1, r.2, (key - b) / 128) else none)).head?

/-- A block of HBM written: its seal range's seal, count or PARTIAL flag, and the optimizer phase. `ds` are its words
where it is written whole. -/
def State.foldSeal (s : State) (t key : Nat) (ds : Option (List (BitVec 256))) : State :=
  match sealOf s t key with
  | none => s
  | some (i, r, j) =>
    let r1 : FoldRec := match ds with
      | some ds => { r with digest := r.digest ^^^ crc64 (ds.flatMap wordBytes ++ leBytes 8 j), count := r.count + 1 }
      | none => { r with partial_ := true }
    s.modTen t (fun n => { n with steps := { n.steps with sealRecs := set n.steps.sealRecs i r1 },
                                   recov := { n.recov with optPhase := true } })

/-! ### The escrow set (16 R421 to R427) -/

/-- The valid escrow records in escrow order. -/
def escRecords (s : State) (t : Nat) : List (Nat × BitVec 64) := (s.ten t).escrow.records.filter (fun r => bitB r.2 0)

/-- Pages of a record. -/
def escPages (r : BitVec 64) : Nat := bitsN r 58 35

/-- Data pages of the tenancy. -/
def dataPages (s : State) (t : Nat) : Nat := (escRecords s t).foldl (fun n r => n + escPages r.2) 0

/-- The records' data pages before record `i`, on stack `st` only where it is given. -/
def pagesBefore (s : State) (t i : Nat) (st : Option Nat) : Nat :=
  (escRecords s t).foldl (fun n r => if r.1 < i && (match st with | some x => decide (bitsN r.2 34 32 = x) | none => true)
    then n + escPages r.2 else n) 0

/-- The record and index within it of data page `m`. -/
def pageRec (rs : List (Nat × BitVec 64)) (m : Nat) : Option (Nat × BitVec 64 × Nat) :=
  match rs with
  | [] => none
  | r :: rest => if m < escPages r.2 then some (r.1, r.2, m) else pageRec rest (m - escPages r.2)

/-- The HBM key of the first word of data page `m`. -/
def pageKey (s : State) (t m : Nat) : Option Nat :=
  (pageRec (escRecords s t) m).map (fun r => recordKey s t r.2.1 + 2048 * r.2.2)

/-- The data page that holds an HBM word. -/
def pageOf (s : State) (t key : Nat) : Option Nat :=
  ((escRecords s t).filterMap (fun (r : Nat × BitVec 64) =>
    let b := recordKey s t r.2
    if b ≤ key && key < b + 2048 * escPages r.2 then some (pagesBefore s t r.1 none + (key - b) / 2048) else none)).head?

/-- Whether page `m` is SEALED for a generation. -/
def Generation.sealedPage (g : Generation) (m : Nat) : Bool := (find g.pages m).isNone

/-- The steps of the kept generations that a data page is SEALED for. -/
def sealedFor (s : State) (t m : Nat) : List (BitVec 32) :=
  ((s.ten t).escrow.gens.filter (fun g => g.sealedPage m)).map (·.step)

/-- The page that a foreground write of a word must wait for. -/
def heldPage (s : State) (t key : Nat) : Option Nat :=
  match pageOf s t key with
  | some m => if sealedFor s t m ≠ [] then some m else none
  | none => none

/-- A copy of page `m` started on its stack for a cause, unless one runs there (16 R430, R431). -/
def Escrow.start (e : Escrow) (st m cause : Nat) : Escrow :=
  match find e.copying st with
  | some _ => e
  | none => { e with copying := set e.copying st (m, cause, (e.gens.filter (fun g => g.sealedPage m)).map (·.step)) }

/-- A foreground write held until page `m` is copied: the tenancy stalls (16 R430). -/
def State.holdWrite (s : State) (t m key : Nat) (w : MemWord) : State :=
  let st := key / stackWords
  match (s.ten t).escrow.held.find? (fun h => h.page = m && h.fore) with
  | some _ => s.modTen t (fun n => { n with escrow := { n.escrow with
      held := n.escrow.held.map (fun h => if h.page = m && h.fore then { h with words := h.words ++ [(key, w)] } else h) } })
  | none =>
    let first := !(s.ten t).escrow.logged
    let s1 := s.modTen t (fun n => { n with
      escrow := { (n.escrow.start st m 2) with held := n.escrow.held ++ [⟨st, m, true, [(key, w)]⟩], logged := true },
      course := { n.course with stalls := n.course.stalls ++ [.escrow st m] } })
    let s2 := s1.countTen t 0x2218 1
    if first then s2.dayTen t 0x64 0 0 m 0 else s2

/-- A word written to HBM by a tenancy's foreground: `at'` is the data word that places it in a page. -/
def State.writeFore (s : State) (t at' key : Nat) (w : MemWord) : State :=
  match heldPage s t at' with
  | some m => s.holdWrite t m key w
  | none => s.writeWord .hbm key w

/-! ### Writing blocks -/

/-- Every byte of a word. -/
def allBytes : BitVec 32 := BitVec.allOnes 32

/-- A word an operation writes: its address, the maximum-exponent code of its elements, whether it lies in an overflowed
part, and the bytes it writes of the word (12 R317). -/
structure Out where
  a    : Nat
  w    : MemWord
  mx   : Nat
  ovf  : Bool
  mask : BitVec 32 := allBytes
deriving DecidableEq, Repr

/-- Whether a write is of less than a whole word (12 R317). -/
def Out.part (o : Out) : Bool := decide (o.mask ≠ allBytes)

/-- The blocks that a run of addresses touches, in order. -/
def blocksOf (as : List Nat) : List Nat := as.foldl (fun l a => insertNew l (a / 128)) []

/-- Whether addresses cover a block whole, in ascending order (12 R330). -/
def wholeBlock (as : List Nat) (b : Nat) : Bool := decide (as.filter (fun a => a / 128 = b) = (upTo 128).map (128 * b + ·))

/-- The hallmark a block gets from the words written into it (12 R330). -/
def newHall (old : BitVec 64) (fmt gen : Nat) (outs : List Out) (b : Nat) : BitVec 64 :=
  let os := outs.filter (fun o => o.a / 128 = b)
  let mx := os.foldl (fun m o => max m o.mx) 0
  let po := os.any (fun o => isPoisoned o.w)
  let ov := os.any (fun o => o.ovf)
  if wholeBlock (outs.map (·.a)) b then
    mkHall (crcWords (os.map (fun o => o.w.data))) mx fmt po ov false gen
  else
    let same := decide (hallFmt old = fmt) && decide (hallGen old = gen)
    mkHall 0 (if same then max mx (hallMax old) else mx) fmt (po || (same && hallPoison old)) (ov || (same && hallOvf old)) true gen

/-- A whole word written by a tenancy's foreground. -/
def State.writeWhole (s : State) (t : Option Nat) (sp : Space) (a : Nat) (w : MemWord) : State :=
  match sp, t with
  | .hbm, some t => (s.writeFore t a a w).charge (some t) (eventEnergy s 13 1) [stackOff (a / stackWords) 0x28]
  | .mbox c, _ => (s.writeWord sp a w).stage c a
  | .cs c, _ => (s.writeWord sp a w).chargeCore c 10 1 0x1A0
  | .hbm, none => s.writeWord sp a w

/-! ### Merge buffers (12 R317, R318) -/

/-- The merge entries of a space, and its key for a word; a mailbox has none. -/
def mergesOf (s : State) (sp : Space) : Sparse MergeEntry :=
  match sp with | .cs _ => s.cores.merges | .mbox _ => [] | .hbm => s.hbm.merges

def mergeKey (sp : Space) (a : Nat) : Nat := match sp with | .cs c => csKey c a | .mbox c => mboxKey c a | .hbm => a

def State.setMerges (s : State) (sp : Space) (m : Sparse MergeEntry) : State :=
  match sp with
  | .cs _ => { s with cores := { s.cores with merges := m } }
  | .mbox _ => s
  | .hbm => { s with hbm := { s.hbm with merges := m } }

/-- The bytes of a word that a mask names. -/
def maskBits (m : BitVec 32) : BitVec 256 := packWord 8 ((upTo 32).map (fun i => if m.getLsbD i then 255 else 0))

/-- A write merged into a word that waits: the word, and the bytes of it that are written. -/
def mergeIn (e : MemWord × BitVec 32) (o : Out) : MemWord × BitVec 32 :=
  (wordOf (e.1.data &&& ~~~maskBits o.mask ||| o.w.data &&& maskBits o.mask) (isPoisoned e.1 || isPoisoned o.w), e.2 ||| o.mask)

/-- A write merged into an entry. -/
def MergeEntry.add (e : MergeEntry) (o : Out) : MergeEntry :=
  { e with word := (mergeIn (e.word, e.mask) o).1, mask := (mergeIn (e.word, e.mask) o).2 }

/-- A word of a run written: one that its mask leaves short of whole waits in its merge entry, which a read does not see, and a whole
one is written out (12 R317, R318). A mailbox has no merge buffer. -/
def State.writeOut (s : State) (t : Option Nat) (sp : Space) (o : Out) : State :=
  let k := mergeKey sp o.a
  match sp, find (mergesOf s sp) k with
  | .mbox _, _ => s.writeWhole t sp o.a o.w
  | _, some e =>
    let e1 := e.add o
    if e1.mask = allBytes then (s.setMerges sp (del (mergesOf s sp) k)).writeWhole t sp o.a e1.word
    else s.setMerges sp (set (mergesOf s sp) k e1)
  | _, none =>
    if o.part then s.setMerges sp (set (mergesOf s sp) k { word := o.w, mask := o.mask })
    else s.writeWhole t sp o.a o.w

/-- The entry of a word written out at its operation's end: the bytes that were not written are zero, and the word is counted. -/
def State.closeMerge (s : State) (t : Option Nat) (sp : Space) (a : Nat) (e : MergeEntry) : State :=
  let u := (s.setMerges sp (del (mergesOf s sp) (mergeKey sp a))).writeWhole t sp a e.word
  match sp with
  | .cs c => u.countCore c 0x218 1
  | .mbox _ => u
  | .hbm => u.count (stackOff (a / stackWords) 0x18) 1

/-- A block's hallmark written by a tenancy, with what it folds into (15 R395, R399). -/
def State.writeHallT (s : State) (t : Option Nat) (sp : Space) (b : Nat) (h : BitVec 64) (ds : Option (List (BitVec 256))) : State :=
  match t with
  | none => s.writeHall sp (128 * b) h
  | some t =>
    let s1 := match sp with
      | .hbm => (s.writeFore t (128 * b) (hallWord (128 * b)) ⟨h.setWidth 256, 0⟩).foldSeal t (128 * b) ds
      | _ => s.writeHall sp (128 * b) h
    s1.foldTwin t h

/-- The tenancy that owns a place. -/
def ownerOf (s : State) (sp : Space) (a : Nat) : Option Nat :=
  match sp with | .cs c => tenOf s c | .mbox c => tenOf s c | .hbm => tenOfHbm s a

/-- Words written by a tenancy's foreground, each block's hallmark after them: `hall` gives it from the block and the
hallmark it held. -/
def State.emitWith (s : State) (sp : Space) (outs : List Out) (hall : BitVec 64 → Nat → BitVec 64) : State :=
  match outs with
  | [] => s
  | o :: _ =>
    let t := ownerOf s sp o.a
    let s1 := outs.foldl (fun (s : State) o => s.writeOut t sp o) s
    (blocksOf (outs.map (·.a))).foldl (fun (s : State) b =>
      s.writeHallT t sp b (hall (hallOf s sp (128 * b)) b)
        (if wholeBlock (outs.map (·.a)) b then some ((outs.filter (fun o => o.a / 128 = b)).map (·.w.data)) else none)) s1

/-- Words written with the hallmarks of 12 R330. -/
def State.emit (s : State) (sp : Space) (fmt gen : Nat) (outs : List Out) : State :=
  s.emitWith sp outs (fun old b => newHall old fmt gen outs b)

end Sys2Proof.Machine
end

