-- ==== Sys2Proof/Machine/Operands.lean ====
section
/-! DEFINITION. Operands of the instructions: descriptors, bound addresses, bounds, the job header, scale-ledger reads and reports, watches, sequence slots, random words, and tensors in a space (02, 07, 10 R263, R264, 11 R283 to R290, 19 R512, R515, R524). -/

namespace Sys2Proof.Machine

open Sys2Proof

/-! ### Latencies (10 Table 10.3) and time -/

def hbmRdLat (s : State) : Nat := if s.ident.isB0 then 184 else 176
def hbmWrLat (s : State) : Nat := if s.ident.isB0 then 92 else 88
def meshBase (s : State) : Nat := if s.ident.isB0 then 3 else 4
def meshHop (s : State) : Nat := if s.ident.isB0 then 2 else 3
def pairHop (s : State) : Nat := if s.ident.isB0 then 2 else 3
def vxLat (s : State) : Nat := if s.ident.isB0 then 4 else 5
def vxFnLat (s : State) : Nat := if s.ident.isB0 then 16 else 18
def rwLat (s : State) : Nat := if s.ident.isB0 then 5 else 6
def rwStatLat (s : State) : Nat := if s.ident.isB0 then 26 else 30
def drvLat (s : State) : Nat := if s.ident.isB0 then 18 else 20
def sclLat (s : State) : Nat := if s.ident.isB0 then 12 else 14
def dispatchLat (s : State) : Nat := if s.ident.isB0 then 20 else 24

/-- The tally course in progress. -/
def courseNow (s : State) : Nat := s.now / 16384

/-- The tenancy of a core, 0 where it has none. -/
def tenNo (s : State) (c : Core) : Nat := (tenOf s c).getD 0

/-- The schedule position of a tenancy: cycles since its course began, less its stall cycles and swallowed ticks (09 R221,
17 R465). -/
def schedPos (s : State) (t : Nat) : Nat := s.now - (s.ten t).course.start - (s.ten t).course.s

/-- The clock of a core's units: schedule cycles only (10 R247). -/
def unitClock (s : State) (c : Core) : Nat :=
  let q := seqOf s c
  let n := (s.ten (tenNo s c)).course
  if n.inCourse then q.base + (if q.ended then min q.len (schedPos s (tenNo s c)) else schedPos s (tenNo s c)) else q.base

/-- The ticks of `n` from tally `v` that a stretched clock swallows: every second one (17 R465). -/
def swallowed (s : State) (v n : Nat) : Nat := if s.power.stretch then (v + n) / 2 - v / 2 else 0

/-- The cycles in the ticks from `a` up to `b`: those not swallowed. -/
def cyclesIn (s : State) (a b : Nat) : Nat := (b - a) - swallowed s a (b - a)

/-- The parts of the ticks from `a` up to `b` in which a displaced request of a course waits for a hole to end (09 R238). -/
def holesIn (k : Course) (a b : Nat) : List (Nat × Nat) :=
  (k.holes.map (fun h => (max a h.1, min b h.2))).filter (fun h => decide (h.1 < h.2))

/-- The tick, from tally `v` on, at which `n` more cycles of a clock that may be stretched have passed. -/
def ticksAfter (s : State) (v n : Nat) : Nat := if s.power.stretch && n ≠ 0 then v + (2 * n - 1 + v % 2) else v + n

/-- The tally at which a tenancy's schedule has moved on by `n` cycles, as far as what stands now tells (09 R221, R238; 17 R465). -/
def tallyAt (s : State) (t n : Nat) : Nat :=
  let r := (holesIn (s.ten t).course s.now (2 ^ 64)).foldl (fun (x : Nat × Nat) h =>
    if cyclesIn s x.1 h.1 < x.2 then (max x.1 h.2, x.2 - cyclesIn s x.1 h.1) else x) (s.now, n)
  ticksAfter s r.1 r.2

/-! ### Indices and addresses (10 R257, R264, 11 R285) -/

/-- The value of the index that a BIND code names. -/
def bindVal (s : State) (c : Core) (b : Nat) : Nat :=
  match b with
  | 0 => 0
  | 1 => (s.ten (tenNo s c)).course.pos.rep
  | k + 2 => (nth (seqOf s c).loops {} k).index

/-- An address field's effective address before its check. -/
def addrCA (s : State) (c : Core) (w : BitVec 64) : Int :=
  (bitsN w 17 0 : Int) + bindVal s c (bitsN w 20 18) * bitsS w 39 21 + bindVal s c (bitsN w 42 40) * bitsS w 61 43

/-- An HBM address field's effective address before its check. -/
def addrHA (s : State) (c : Core) (w : BitVec 64) : Int :=
  (bitsN w 33 0 : Int) + bindVal s c (bitsN w 36 34) * bitsS w 60 37

/-- A run of `n` words of a core's store from an effective address: in the store (12 R333), and none of them held by a
collective (14 R367). -/
def csRange (s : State) (c : Core) (a : Int) (n : Nat) : Res Nat := do
  need (decide (0 ≤ a) && decide (a.toNat + n ≤ csWords) && !collHeld s c a.toNat n) 0x15
  return a.toNat

/-- A run of a core's mailbox words; a run that is written meets no held send slot (13 R348). -/
def mboxRange (s : State) (c : Core) (a : Int) (n : Nat) (isOut : Bool) : Res Nat := do
  need (decide (0 ≤ a) && decide (a.toNat + n ≤ mboxWords)) 0x15
  need (!(isOut && sendHeld s c a.toNat n)) 0x20
  return a.toNat

/-- The HBM key of a run of `n` words at a tenancy's HBM address; out of the share, the out-of-window fault (12 R310, R333). -/
def hbmRange (s : State) (t : Nat) (a : Int) (n : Nat) : Res Nat := do
  need (decide (0 ≤ a) && decide (a < 2 ^ 34)) 0x15
  let st := a.toNat / 2 ^ 31
  let w := a.toNat % 2 ^ 31
  need (decide (w + n ≤ (shareOf s t st).2)) 0x15
  return stackWords * st + (shareOf s t st).1 + w

/-! ### Descriptors (10 R263, 11 R283, R284) -/

/-- The entry of the descriptor store that a latch reads: one that `HDESC` writes is latched from the third cycle after its issue
(11 Table 11.13). -/
def entryAt (s : State) (c : Core) (i : BitVec 10) : DescEntry :=
  let k := 1024 * c.val + i.toNat
  match find s.cores.descWas k with
  | some p => if unitClock s c < p.from' then p.was else look s.cores.desc {} k
  | none => look s.cores.desc {} k

/-- The tag of a program page: a finished refill gives it from the cycle after its last word (10 R261). -/
def pageTag (s : State) (c : Core) (page : BitVec 3) : BitVec 8 :=
  let k := 8 * c.val + page.toNat
  match find s.cores.fills k with
  | some f => if f.ready ≤ unitClock s c then f.tag else look s.cores.tags 0 k
  | none => look s.cores.tags 0 k

/-- The entry an instruction latches, with its two words decoded. -/
def latch (s : State) (c : Core) (i : BitVec 10) : Res (BitVec 3 × BitVec 512) := do
  let e := entryAt s c i
  let w0 := decodeWord ⟨e.data.setWidth 256, e.syn0⟩
  let w1 := decodeWord ⟨e.data.extractLsb' 256 256, e.syn1⟩
  if isPoisoned w0.w || isPoisoned w1.w then
    throw (.poison 9 1 (phys s c * 2 ^ 18 + 2 * i.toNat))
  return (e.kind, w1.w.data ++ w0.w.data)

/-- An entry of one kind and one of the given forms. -/
def latchForm (s : State) (c : Core) (i : BitVec 10) (kind : Nat) (forms : List Nat) : Res (BitVec 512) := do
  let e ← latch s c i
  need (decide (e.1.toNat = kind) && forms.contains (bitsN e.2 1 0)) 0x12
  return e.2

/-- Reserved bits must be zero (11 R284). -/
def zeroBits (d : BitVec 512) (rs : List (Nat × Nat)) : Bool := rs.all (fun r => bitsN d r.1 r.2 = 0)

/-! ### Partitioned stores (19 R512) -/

/-- A region's record: its first ledger entry, its tiles and its merge axes (07 Table 07.1). -/
def regionOf (s : State) (t region : Nat) : Res (Nat × Nat × Nat) := do
  need (decide (region < (partOf s t 1).2)) 0x15
  let r := look s.stores.regions 0 ((partOf s t 1).1 + region)
  return ((partOf s t 0).1 + bitsN r 19 0, bitsN r 39 20, bitsN r 43 40)

/-- The ledger entry of a tile, checked (07 R165). -/
def tileEntry (s : State) (t region : Nat) (tile : Int) : Res Nat := do
  let r ← regionOf s t region
  need (decide (0 ≤ tile) && decide (tile < r.2.1)) 0x15
  return r.1 + tile.toNat

/-- A tile's scale and whether its entry is poisoned. -/
def tileScale (s : State) (t region : Nat) (tile : Int) : Res (Int × Bool) := do
  let e ← tileEntry s t region tile
  let x := look s.stores.ledger {} e
  return (bitsS x.data 7 0, decide (x.err = .bad))

/-- What a unit's scale read leaves: a corrected entry is counted, a poisoned one is consumed (07 R165, 12 R320). Table
12.1 has no folded-address kind for the scale ledger. -/
def State.noteTile (s : State) (c : Core) (unit region : Nat) (tile : Int) : State :=
  match tileEntry s (tenNo s c) region tile with
  | .ok e => match (look s.stores.ledger {} e).err with
    | .one _ =>
      let s1 := { s with stores := { s.stores with ledger := put {} s.stores.ledger e { (look s.stores.ledger {} e) with err := .clean } } }
      s1.countTen (tenNo s c) 0x20B0 1
    | .bad => (s.draw.2.addFigure 2 165 1).poisonConsumed c unit (s.draw.1 % 8) e
    | .clean => s
  | .error _ => s

/-! ### Quantisation reports (07 R167, R170, R180) -/

/-- What the blocks quantised into one tile report. -/
structure Report where
  region  : Nat
  tile    : Int
  amax    : Nat
  ovf     : Nat
  flushed : Nat
  nonfin  : Bool
deriving DecidableEq, Repr

/-- The report of one block. -/
def blockReport (region : Nat) (tile : Int) (xs : List Num) (q : QBlock) : Report :=
  ⟨region, tile, maxExpOf [amaxOf xs], if q.ovf then 1 else 0, q.flushed, xs.any (fun x => !x.isFin)⟩

/-- A report merged into its ledger entry. -/
def mergeReport (x : Cell64) (r : Report) : Cell64 :=
  let d := x.data
  let amax := max (bitsN d 15 8) r.amax
  let ovf := min 255 (bitsN d 47 40 + r.ovf)
  let d1 := putBits (putBits d 8 (BitVec.ofNat 8 amax)) 40 (BitVec.ofNat 8 ovf)
  let d2 := if r.flushed ≠ 0 then d1 ||| (1#64 <<< 57) else d1
  ⟨if r.nonfin then d2 ||| (1#64 <<< 59) else d2, x.err⟩

def State.report (s : State) (t : Nat) (rs : List Report) : State :=
  rs.foldl (fun s r => match tileEntry s t r.region r.tile with
    | .ok e => { s with stores := { s.stores with ledger := put {} s.stores.ledger e (mergeReport (look s.stores.ledger {} e) r) } }
    | .error _ => s) s

/-- A quantisation between the cut and the take raises the scale-ledger-pending fault (07 R170). -/
def quantOpen (s : State) (t : Nat) : Res Unit := need (!(s.ten t).close.cut) 0x1B

/-- An operation that quantises until a cycle of its core's unit clock, where it quantises at all (07 R170, 10 R276). -/
def State.quantUntil (s rd : State) (c : Core) (slot : Nat) (yes : Bool) (until' : Nat) : State :=
  if yes && decide ((look s.cores.quants {} c.val).until' < until') then
    let q := seqOf rd c
    { s with cores := { s.cores with quants := set s.cores.quants c.val ⟨until', slot, q.page, q.bundle⟩ } }
  else s

/-- A watch index checked (07 R180). -/
def watchKey (s : State) (t i : Nat) : Res Nat := do
  need (decide (i < (partOf s t 7).2)) 0x12
  return (partOf s t 7).1 + i

/-- A field of a watch raised, saturating at its 32 bits. -/
def satAdd32 (w : BitVec 128) (lo n : Nat) : BitVec 128 :=
  putBits w lo (BitVec.ofNat 32 (min 0xFFFF_FFFF ((w.extractLsb' lo 32).toNat + n)))

/-- Counts of one descriptor under a watch (07 Table 07.4). -/
def State.countWatch (s : State) (key : Nat) (drained : Bool) (nz q fl : Nat) : State :=
  let w := look s.stores.watches 0 key
  let w1 := satAdd32 (satAdd32 (satAdd32 w 0 nz) 32 q) 64 fl
  { s with stores := { s.stores with watches := put 0 s.stores.watches key (if drained then w1 ||| (1#128 <<< 120) else w1) } }

/-! ### Sequence slots and random words (07 R185 to R187, 19 R522, R524) -/

/-- The live slot entry an operation is tied to, and its number: none when untied; a tied entry that is not valid is an
invalid descriptor field. -/
def slotEntry (s : State) (c : Core) (opid : Nat) : Res (Option (BitVec 256)) := do
  if opid / 2 ^ 15 % 2 = 0 then return none
  let t := tenNo s c
  let e := (opid / 2 ^ 8 % 128 + bindVal s c (hdr s t 54 1)) % 128
  let w := look (s.ten t).steps.live 0 e
  need (bitB w 72) 0x12
  return some w

/-- Seed and slot number of an operation (07 R187, Table 07.7). -/
def seedOf (s : State) (c : Core) (slot : Option (BitVec 256)) : BitVec 64 × Nat :=
  match slot with
  | some w => (bits w 63 0, bitsN w 71 64)
  | none => ((s.ten (tenNo s c)).steps.seed, 0xFF)

/-- One round of Philox4x32. -/
def philoxRound (c : Nat × Nat × Nat × Nat) (k0 k1 : Nat) : Nat × Nat × Nat × Nat :=
  let p0 := 0xD251_1F53 * c.1
  let p1 := 0xCD9E_8D57 * c.2.2.1
  ((p1 / 2 ^ 32) ^^^ c.2.1 ^^^ k0, p1 % 2 ^ 32, (p0 / 2 ^ 32) ^^^ c.2.2.2 ^^^ k1, p0 % 2 ^ 32)

/-- Rounds of Philox4x32 with its key schedule. -/
def philoxRun (n : Nat) (c : Nat × Nat × Nat × Nat) (k0 k1 : Nat) : Nat × Nat × Nat × Nat :=
  match n with
  | 0 => c
  | m + 1 => philoxRun m (philoxRound c k0 k1) ((k0 + 0x9E37_79B9) % 2 ^ 32) ((k1 + 0xBB67_AE85) % 2 ^ 32)

/-- Philox4x32-10 (07 R185). -/
def philox (c : Nat × Nat × Nat × Nat) (k : BitVec 64) : Nat × Nat × Nat × Nat :=
  philoxRun 10 c (k.toNat % 2 ^ 32) (k.toNat / 2 ^ 32)

/-- The random word of element `j` (02 R46, 07 R186). -/
def randomWord (seed : BitVec 64) (slot opid step j : Nat) : Nat :=
  let e := j / 4
  let o := philox (e % 2 ^ 32, e / 2 ^ 32 % 2 ^ 32, e / 2 ^ 64 % 256 + slot % 256 * 256 + opid % 65536 * 65536, step % 2 ^ 32) seed
  match j % 4 with | 0 => o.1 | 1 => o.2.1 | 2 => o.2.2.1 | _ => o.2.2.2

/-- The random words of an operation: by element index, none where it rounds to nearest. -/
def rngOf (s : State) (c : Core) (stoch : Bool) (opid : Nat) : Res (Nat → Option Nat) := do
  if !stoch then return fun _ => none
  let e ← slotEntry s c opid
  let k := seedOf s c e
  let step := (s.ten (tenNo s c)).steps.step.toNat
  return fun j => some (randomWord k.1 k.2 opid step j)

/-! ### Cautious mode (07 R176) -/

/-- Whether the job is in cautious mode; steps are compared as the counter wraps, and no window is longer than 65,535 steps. That a
job is an assay run no field of the spec tells a chip (log entry 63). -/
def cautious (s : State) (t : Nat) : Bool :=
  let n := (s.ten t).steps
  decide ((n.step - n.loadStep).toNat < hdr s t 36 2) || (n.cautOn && decide ((n.cautious - n.step).toNat < 65536))

/-- The cautious window of a recovery that resumes at a step: CAUTIOUS_AFTER steps from it on, with any window still open. -/
def State.openCaution (s : State) (t : Nat) (step : BitVec 32) : State :=
  let after := hdr s t 38 2
  let last := step + BitVec.ofNat 32 (after - 1)
  if after = 0 then s else
    s.modTen t (fun n => { n with steps := { n.steps with
      cautious := if n.steps.cautOn && decide ((n.steps.cautious - last).toNat < 65536) then n.steps.cautious else last
      cautOn := true } })

/-- A guarded overflow sets its core's latch in cautious mode (07 R177). -/
def State.guardLatch (s : State) (c : Core) (guard ovf : Bool) : State :=
  if guard && ovf && cautious s (tenNo s c) then
    { s with cores := { s.cores with guard := insertNew s.cores.guard c.val } } else s

/-! ### Tensors in a space (02 R37 to R41) -/

/-- A 128 × 128 tile: its format, first word, first shingle word and scale. `diag` is the diagonal layout of a plain
tile (12 R306), `lay` the words of a tile row. -/
structure Tile where
  sp    : Space
  fmt   : Nat
  base  : Nat
  sh    : Nat
  scale : Int
  bad   : Bool
  diag  : Bool
deriving DecidableEq, Repr

/-- Storage index of row `r`, column `k` of a tile (02 R38). -/
def storeIdx (fmt r k : Nat) : Nat := if isColBlocks fmt then 128 * k + r else 128 * r + k

/-- The word of a tile that holds storage index `i`. -/
def Tile.wordAt (v : Tile) (i : Nat) : Nat :=
  let a := v.base + i / perWord v.fmt
  if v.diag then diagAddr (128 / perWord v.fmt) v.base a else a

/-- The shingle word of block `b` of a tile. -/
def Tile.shWord (v : Tile) (b : Nat) : Nat := v.sh + b / 64

/-- The code at storage index `i`, with the poison of its word. -/
def Tile.code (s : State) (v : Tile) (i : Nat) : Nat × Bool :=
  let w := readWord s v.sp (v.wordAt i)
  (elemOf (elemBits v.fmt) (i % perWord v.fmt) w.data, isPoisoned w)

/-- The shingle of block `b`, with the poison of its word. -/
def Tile.shingle (s : State) (v : Tile) (b : Nat) : Nat × Bool :=
  let w := readWord s v.sp (v.shWord b)
  (elemOf 4 (b % 64) w.data, isPoisoned w)

/-- The value at storage index `i` and whether it is poisoned (02 R26, R34; 12 R319). -/
def Tile.val (s : State) (v : Tile) (i : Nat) : Num × Bool :=
  let c := v.code s i
  if isShingled v.fmt then
    let h := v.shingle s (i / 32)
    (sfDecode (fmtOf v.fmt) v.scale h.1 c.1, c.2 || h.2 || v.bad)
  else ((fmtOf v.fmt).decode c.1, c.2)

/-- The value at row `r`, column `k` of the tile. -/
def Tile.at (s : State) (v : Tile) (r k : Nat) : Num × Bool := v.val s (storeIdx v.fmt r k)

/-- The words that storage indices `lo` to `lo + n - 1` of a tile lie in, shingle words included. -/
def Tile.reads (v : Tile) (lo n : Nat) : List Nat :=
  let ws := (upTo (ceilDiv (lo % perWord v.fmt + n) (perWord v.fmt))).map (fun k => v.wordAt (lo + k * perWord v.fmt))
  if isShingled v.fmt then ws ++ (upTo ((lo + n - 1) / 2048 + 1 - lo / 2048)).map (fun k => v.sh + lo / 2048 + k) else ws

/-- Whether the blocks of a run of words pass the consumption check (12 Table 12.5): format, and the tag where it is
checked; a shingle plane has code 0xE. -/
def hallPass (s : State) (sp : Space) (as : List Nat) (fmt : Nat) (tag : Option Nat) : Bool :=
  (blocksOf as).all (fun b =>
    let h := hallOf s sp (128 * b)
    decide (hallFmt h = fmt) && (match tag with | some g => decide (hallGen h = g) | none => true))

/-- Whether a block of a run carries POISON (12 R320). -/
def hallPoisoned (s : State) (sp : Space) (as : List Nat) : Bool :=
  (blocksOf as).any (fun b => hallPoison (hallOf s sp (128 * b)))

/-- A consumption check failed is the hallmark fault (12 R332). -/
def needHall (s : State) (sp : Space) (as : List Nat) (fmt : Nat) (tag : Option Nat) : Res Unit :=
  need (hallPass s sp as fmt tag) 0x14

/-- The first poisoned word of a run, if any. -/
def firstPoison (s : State) (sp : Space) (as : List Nat) : Option Nat :=
  match as.find? (fun a => isPoisoned (readWord s sp a)) with
  | some a => some a
  | none => as.find? (fun a => hallPoison (hallOf s sp a))

/-- The folded-address kind of a space (12 Table 12.1). -/
def spaceKind (sp : Space) : Nat := match sp with | .cs _ => 0 | .mbox _ => 4 | .hbm => 5

/-! ### Writing values (02 R37, R40, R43, R46 to R48; 12 R319, R330) -/

/-- A value to write: its element offset from the run's base, whether it is poisoned, and whether 03 R71 flags it. -/
structure Cell where
  e   : Int
  v   : Num
  bad : Bool
  low : Bool
deriving DecidableEq, Repr

/-- What a write of values gives: element words, shingle words, reports, elements quantised, flushes, overflow, blocks. -/
structure Wrote where
  els    : List Out := []
  shs    : List Out := []
  reps   : List Report := []
  q      : Nat := 0
  fl     : Nat := 0
  ovf    : Bool := false
  blocks : Nat := 0

/-- A word written from some of its elements: the others are zero (12 R317), or keep what they held where `keep` says. -/
def mergeWord (keep : Bool) (w : Nat) (old : BitVec 256) (es : List (Nat × Nat)) : BitVec 256 :=
  packWord w ((upTo (256 / w)).map (fun i =>
    match es.find? (fun e => e.1 = i) with | some e => e.2 | none => if keep then elemOf w i old else 0))

/-- The bytes of a word that elements of `w` bits, by index, take. -/
def bytesOf (w : Nat) (is : List Nat) : BitVec 32 :=
  is.foldl (fun (m : BitVec 32) i => m ||| (((1#32 <<< (ceilDiv (i * w % 8 + w) 8)) - 1) <<< (i * w / 8))) 0

/-- What a run's word writes of it: every byte where the rest keeps what it held. -/
def maskOf (keep : Bool) (w : Nat) (is : List Nat) : BitVec 32 := if keep then allBytes else bytesOf w is

/-- The element index j of 02 R46 for the element at offset `e` of a run of format `fmt` whose first tile is `n0`. -/
def elemIndex (fmt : Nat) (n0 e : Int) : Nat :=
  let i := (e % 16384).toNat
  (16384 * (n0 + e / 16384) + (if isColBlocks fmt then 128 * (i % 128) + i / 128 else i)).toNat

/-- Values written as a run of tiles in storage order: `base` and `sh` are the words of offset 0, `n0` the tile number
there, `sc` the scale of a tile and whether its entry is poisoned, `u` the random word of the element at an offset, `keep` whether unwritten parts of a word keep their contents. -/
def writeRun (s : State) (sp : Space) (fmt base sh region : Nat) (n0 : Int) (sc : Int → Int × Bool)
    (u : Int → Option Nat) (diag keep : Bool) (cells : List Cell) : Wrote :=
  let w := elemBits fmt
  let pw : Int := perWord fmt
  let at' (e : Int) : Nat :=
    let a := ((base : Int) + e / pw).toNat
    if diag then diagAddr (128 / perWord fmt) (base + (16384 / perWord fmt) * (e / 16384).toNat) a else a
  if isPlain fmt then
    { els := (cells.splitBy (fun (x y : Cell) => decide (x.e / pw = y.e / pw))).filterMap (fun g =>
        match g with
        | [] => none
        | c :: _ =>
          let codes := g.map (fun x => ((x.e % pw).toNat, (fmtOf fmt).encode (if fmt = 0 then none else u x.e) x.v))
          some ⟨at' c.e, wordOf (mergeWord keep w (readWord s sp (at' c.e)).data codes) (g.any (·.bad)),
            maxExpOf (codes.map (fun k => (fmtOf fmt).decode k.2)), g.any (·.low), maskOf keep w (codes.map (·.1))⟩) }
  else
    let qs : List (Int × List Cell × QBlock × Int × Bool) :=
      (cells.splitBy (fun (x y : Cell) => decide (x.e / 32 = y.e / 32))).filterMap (fun g =>
        match g with
        | [] => none
        | c :: _ =>
          let t := sc (n0 + c.e / 16384)
          some (c.e / 32, g, quantise (fmtOf fmt) (fun i => (g[i]?).bind (fun x => u x.e)) t.1 (g.map (·.v)), t.1,
            t.2 || g.any (·.bad)))
    let per : Int := pw / 32
    { els := (qs.splitBy (fun x y => x.1 / per = y.1 / per)).filterMap (fun g =>
        match g with
        | [] => none
        | b :: _ =>
          let codes := g.flatMap (fun b => (b.2.1.zip b.2.2.1.codes).map (fun v => ((v.1.e % pw).toNat, v.2)))
          some ⟨at' (32 * b.1), wordOf (mergeWord keep w (readWord s sp (at' (32 * b.1))).data codes) (g.any (·.2.2.2.2)),
            maxExpOf (g.flatMap (fun b => b.2.2.1.codes.map (sfDecode (fmtOf fmt) b.2.2.2.1 b.2.2.1.s))),
            g.any (fun b => b.2.2.1.ovf || b.2.1.any (·.low)), maskOf keep w (codes.map (·.1))⟩),
      shs := (qs.foldl (fun (m : Sparse (List (Int × List Cell × QBlock × Int × Bool))) b =>
          let a := ((sh : Int) + b.1 / 64).toNat
          set m a (look m [] a ++ [b])) []).map (fun (g : Nat × List (Int × List Cell × QBlock × Int × Bool)) =>
        ⟨g.1, wordOf (mergeWord keep 4 (readWord s sp g.1).data (g.2.map (fun b => ((b.1 % 64).toNat, b.2.2.1.s)))) (g.2.any (·.2.2.2.2)),
          0, false, maskOf keep 4 (g.2.map (fun b => (b.1 % 64).toNat))⟩),
      reps := qs.map (fun b => blockReport region (n0 + b.1 / 512) (b.2.1.map (·.v)) b.2.2.1),
      q := cells.length, fl := qs.foldl (fun t b => t + b.2.2.1.flushed) 0, ovf := qs.any (·.2.2.1.ovf), blocks := qs.length }

/-! ### Streams (11 Tables 11.9, 11.10, R294) -/

/-- A stream resolved: its element offset from `base`, its immediate where it is one, and the scales of its tiles. -/
structure Strm where
  fmt    : Nat
  base   : Nat
  e0     : Int
  imm    : Option (BitVec 32)
  stoch  : Bool
  diag   : Bool
  trans  : Bool
  chk    : Bool
  sh     : Nat
  region : Nat
  tile0  : Int
  stride : Int
  scales : List (Int × Int × Bool)
deriving DecidableEq, Repr

/-- First bits of the streams A to D. -/
def strmAt (k : Nat) : Nat := 2 + 72 * k

/-- Stream `k` of a stream-form descriptor, which the operation uses (11 R285, R292, R294). -/
def openStrm (s : State) (c : Core) (d : BitVec 512) (k : Nat) (isOut : Bool) : Res Strm := do
  let o := strmAt k
  let src := bitsN d (o + 23) (o + 22)
  let fmt := bitsN d (o + 21) (o + 18)
  let sel := bitsN d 405 403
  let st : Strm :=
    { fmt, base := bitsN d (o + 17) o, e0 := 0, imm := none, stoch := bitB d (o + 68), diag := bitB d (o + 69),
      trans := bitB d (o + 70), chk := bitB d (o + 71), sh := bitsN d 371 354, region := bitsN d 383 372,
      tile0 := bitsN d 402 384, stride := bitsS d (o + 67) (o + 49), scales := [] }
  if src = 1 || src = 2 then
    need (!isOut) 0x12
    return { st with imm := some (if src = 1 then bits d 321 290 else bits d 353 322) }
  need (decide (src = 0)) 0x12
  need (isPlain fmt || (isShingled fmt && decide (sel = k + 1))) 0x12
  need (!(isPlain fmt && decide (sel = k + 1))) 0x12
  need (decide (bitsN d (o + 26) (o + 24) ≤ 5) && decide (bitsN d (o + 48) (o + 46) ≤ 5)) 0x12
  need (!(st.trans && isShingled fmt)) 0x14
  need ((!st.trans || st.diag) && !(st.diag && isShingled fmt)) 0x12
  let move := bindVal s c (bitsN d (o + 26) (o + 24)) * bitsS d (o + 45) (o + 27)
    + bindVal s c (bitsN d (o + 48) (o + 46)) * st.stride
  need (!st.diag || decide (((st.base : Int) + move) % (16384 / perWord fmt : Nat) = 0)) 0x12
  return { st with e0 := move * perWord fmt }

/-- The word of the element at offset `e`, with the diagonal layout of its tile (12 R306). -/
def Strm.word (t : Strm) (e : Int) : Int :=
  let pw := perWord t.fmt
  let a := (t.base : Int) + e / pw
  if t.diag && decide (0 ≤ a) then diagAddr (128 / pw) ((t.base : Int) + (16384 / pw) * (e / 16384)).toNat a.toNat else a

/-- The shingle word of the element at offset `e`. -/
def Strm.shWord (t : Strm) (e : Int) : Int := (t.sh : Int) + 8 * (e / 16384) + e % 16384 / 2048

/-- The words of a list of element offsets, in order, and their shingle words. -/
def Strm.words (t : Strm) (es : List Int) : List Int :=
  es.foldl (fun l e => match l with | [] => [t.word e] | a :: _ => if a = t.word e then l else t.word e :: l) [] |>.reverse

def Strm.shWords (t : Strm) (es : List Int) : List Int :=
  if isShingled t.fmt then
    es.foldl (fun l e => match l with | [] => [t.shWord e] | a :: _ => if a = t.shWord e then l else t.shWord e :: l) [] |>.reverse
  else []

/-- A stream made ready for the elements at `es`: its words checked, its hallmarks checked when it is read, its scales
read (07 R165, 12 R331, R333). -/
def Strm.ready (s : State) (c : Core) (t : Strm) (es : List Int) (tag : Nat) (isIn : Bool) : Res Strm := do
  if t.imm.isSome then return t
  let ws ← (t.words es).mapM (fun a => csRange s c a 1)
  let ss ← (t.shWords es).mapM (fun a => csRange s c a 1)
  if isIn then
    needHall s (.cs c) ws t.fmt (if t.chk then some tag else none)
    needHall s (.cs c) ss 0xE (if t.chk then some tag else none)
  if !isShingled t.fmt then return t
  let ns := es.foldl (fun l e => insertNew l (t.tile0 + e / 16384)) []
  let sc ← ns.mapM (fun n => do
    let r ← tileScale s (tenNo s c) t.region n
    return (n, r.1, r.2))
  return { t with scales := sc }

/-- The scale of tile `n`. -/
def Strm.scale (t : Strm) (n : Int) : Int × Bool :=
  match t.scales.find? (fun x => x.1 = n) with | some x => x.2 | none => (0, false)

/-- The value at an element offset, with its poison (02 R34, 12 R319). -/
def Strm.val (s : State) (c : Core) (t : Strm) (e : Int) : Num × Bool :=
  match t.imm with
  | some v => (f32 v, false)
  | none =>
    let pw := perWord t.fmt
    let w := readWord s (.cs c) (t.word e).toNat
    let code := elemOf (elemBits t.fmt) (e % pw).toNat w.data
    if isShingled t.fmt then
      let h := readWord s (.cs c) (t.shWord e).toNat
      let k := t.scale (t.tile0 + e / 16384)
      (sfDecode (fmtOf t.fmt) k.1 (elemOf 4 (e % 16384 / 32 % 64).toNat h.data) code, isPoisoned w || isPoisoned h || k.2)
    else ((fmtOf t.fmt).decode code, isPoisoned w)

/-- The tiles a stream's scales were read for are noted (07 R165). -/
def State.noteStrm (s : State) (c : Core) (unit : Nat) (m : Strm) : State := m.scales.foldl (fun s x => s.noteTile c unit m.region x.1) s

/-- The folded address of a word (12 Table 12.1). -/
def foldAddr (s : State) (sp : Space) (a : Nat) : Nat :=
  match sp with
  | .cs c => phys s c * 2 ^ 18 + a
  | .mbox c => phys s c * 2 ^ 18 + a
  | .hbm => a

/-- What a consumer's reads leave: the counts, and one consumption where poison reached it (12 R320). -/
def State.consume (s rd : State) (c : Core) (unit : Nat) (sp : Space) (as : List Nat) : State :=
  let s1 := s.noteReads sp as
  let s2 := (blocksOf as).foldl (fun s b => s.noteHall sp (128 * b)) s1
  match firstPoison rd sp as with
  | some a => s2.poisonConsumed c unit (spaceKind sp) (foldAddr rd sp a)
  | none => s2

end Sys2Proof.Machine
end

