-- ==== Sys2Proof/Machine/Ports.lean ====
section
/-! DEFINITION. The limits of a schedule that the hardware does not hide: words per cycle of a core store's ports, tile-scale reads per cycle, and the burst slots and open rows of HBM (01 R16, 07 R165, 12 R305, R310 to R315). Breaking one raises the bank-conflict fault. -/

namespace Sys2Proof.Machine

open Sys2Proof

/-! ### Core-store ports (01 R16, 07 R165) -/

/-- One run of consecutive cycles. -/
def PortRun.solid (first cycles rd wr : Nat) : PortRun := { first, period := cycles, burst := cycles, reps := 1, rd, wr }

/-- `n` tile-scale reads in one cycle. -/
def PortRun.scales (at' n : Nat) : PortRun := { first := at', period := 1, burst := 1, reps := 1, scl := n }

/-- Words of a run moved at `num` words every `den` cycles, for `cycles` cycles. -/
def PortRun.paced (first cycles num den : Nat) (out : Bool) : PortRun :=
  let every := max 1 (den / max 1 num)
  let per := max 1 (num / max 1 den)
  { first, period := every, burst := 1, reps := cycles / every, rd := if out then 0 else per, wr := if out then per else 0 }

/-- Whether a run uses the ports in a cycle. -/
def PortRun.active (r : PortRun) (x : Nat) : Bool :=
  decide (r.first ≤ x) && decide ((x - r.first) % r.period < r.burst) && decide ((x - r.first) / r.period < r.reps)

/-- The cycle after a run's last. -/
def PortRun.stop (r : PortRun) : Nat := r.first + r.period * r.reps

/-- The cycles at which a run's bursts begin: use is greatest in one of them. -/
def PortRun.starts (r : PortRun) : List Nat := (upTo r.reps).map (fun i => r.first + i * r.period)

/-- Whether runs take more than 32 reads, 16 writes, 8 tile-scale reads, or 16 words of the mailbox path together (01 R16, 04 R93,
07 R165). -/
def overPorts (rs : List PortRun) : Bool :=
  decide (32 < (rs.map (·.rd)).sum) || decide (16 < (rs.map (·.wr)).sum) || decide (8 < (rs.map (·.scl)).sum)
    || decide (16 < (rs.map (·.mb)).sum)

/-- Whether runs do so in some cycle. -/
def portClash (rs : List PortRun) : Bool :=
  overPorts rs && (rs.flatMap PortRun.starts).any (fun x => overPorts (rs.filter (fun r => r.active x)))

/-- The port use of an operation added to its core's: beyond the limits in any cycle, the bank-conflict fault. -/
def State.claimPorts (s : State) (c : Core) (new : List PortRun) : Res State := do
  let now := unitClock s c
  let rs := (look s.cores.ports [] c.val).filter (fun r => decide (now < r.stop)) ++ new.filter (fun r => decide (r.reps ≠ 0) && decide (r.burst ≠ 0))
  need (!portClash rs) 0x13
  return { s with cores := { s.cores with ports := put [] s.cores.ports c.val rs } }

/-- The end of an operation with the given port use (12 R317). -/
def opEnd (now : Nat) (rs : List PortRun) : Nat := rs.foldl (fun n r => max n r.stop) (now + 1)

/-- The merge entries that an operation of core `c` opened held until a cycle of its unit clock. -/
def State.holdTill (s : State) (c : Core) (cyc : Nat) : State :=
  let hold (m : Sparse MergeEntry) : Sparse MergeEntry := m.map (fun (x : Nat × MergeEntry) =>
    if x.2.closes.isNone then (x.1, { x.2 with core := c, closes := some cyc }) else x)
  { s with cores := { s.cores with merges := hold s.cores.merges }, hbm := { s.hbm with merges := hold s.hbm.merges } }

/-- The merge entries that an operation of core `c` opened stay until its end; a seventeenth of a core store, or a sixty-fifth of a
stack, is the bank-conflict fault (12 R317). -/
def State.holdMerges (s rd : State) (c : Core) (rs : List PortRun) : Res State := do
  let full (m : Sparse MergeEntry) (store n : Nat) : Bool :=
    m.any (fun x => decide (n < (m.filter (fun (y : Nat × MergeEntry) => y.1 / store = x.1 / store)).length))
  need (!full s.cores.merges csWords 16 && !full s.hbm.merges stackWords 64) 0x13
  return s.holdTill c (opEnd (unitClock rd c) rs)

/-! ### Links of the mesh (05 R115; 10 R266, R267) -/

/-- A cycle `x` of core `c`'s unit clock in that of a use's own core: each clock stands between its core's courses (10 R247). -/
def MeshUse.own (m : MeshUse) (s : State) (c : Core) (x : Int) : Int := x + unitClock s m.core - unitClock s c

/-- What a use of a link carries in a cycle of its core, in 4 B. -/
def MeshUse.inCycle (m : MeshUse) (t : Int) : Nat :=
  if t < m.start then 0 else min m.rate (m.units - m.rate * (t - m.start).toNat)

/-- The last cycle a use of a link carries anything in. -/
def MeshUse.stop (m : MeshUse) : Nat := m.start + ceilDiv m.units (max 1 m.rate) - 1

/-- The uses of the links still under way. -/
def liveLinks (s : State) : Sparse (List MeshUse) :=
  s.cores.links.map (fun (l : Nat × List MeshUse) => (l.1, l.2.filter (fun m => decide (unitClock s m.core ≤ m.stop))))

/-- The uses of a link, of `us`, in a cycle in which with `m` it carries more than 512 B: its load changes only as a use begins or
carries its last (10 R267). -/
def linkHits (s : State) (us : List MeshUse) (m : MeshUse) : List MeshUse :=
  let all := m :: us
  let at' (u : MeshUse) (x : Nat) : Int := (x : Int) + unitClock s m.core - unitClock s u.core
  let cs := (all.flatMap (fun u => [at' u u.start, at' u u.stop])).filter (fun x =>
    decide (0 < m.inCycle x) && decide (128 < (all.map (fun u => u.inCycle (u.own s m.core x))).sum))
  us.filter (fun u => cs.any (fun x => decide (0 < u.inCycle (u.own s m.core x))))

/-- The uses of the mesh that new uses of links, by their direction's key, overload them with. -/
def meshHits (s : State) (uses : List (Nat × MeshUse)) : List MeshUse :=
  uses.flatMap (fun (e : Nat × MeshUse) => linkHits s (look (liveLinks s) [] e.1) e.2)

/-- Links taken. -/
def State.takeLinks (s : State) (uses : List (Nat × MeshUse)) : State :=
  { s with cores := { s.cores with
    links := uses.foldl (fun (l : Sparse (List MeshUse)) (e : Nat × MeshUse) => put [] l e.1 (look l [] e.1 ++ [e.2]))
      ((liveLinks s).filter (fun (l : Nat × List MeshUse) => l.2 ≠ [])) } }

/-- The mesh-conflict fault on the cores of `hits` other than `c` (10 R267). -/
def State.meshFaults (s : State) (c : Core) (hits : List MeshUse) : State :=
  ((hits.filter (fun m => m.core ≠ c)).foldl (fun (l : List MeshUse) m => if l.any (fun k => k.core = m.core) then l else l ++ [m]) []).foldl
    (fun (s : State) m => s.progFaultAt m.core m.page.toNat m.bundle m.slot 0x1F 0) s

/-! ### HBM slots (12 R310, R312, R313) -/

/-- The pseudo-channel of an HBM word, with its stack (12 R310). -/
def pseudoChan (key : Nat) : Nat :=
  let w := key % stackWords
  64 * (key / stackWords) + ((w % 64) ^^^ (w / 64 % 64) ^^^ (w / 4096 % 64))

/-- The row of an HBM word: stack, pseudo-channel, bank and row. -/
def hbmRow (key : Nat) : Nat :=
  let p := key % stackWords / 64
  (pseudoChan key * 16 + p / 32 % 16) * 65536 + p / 512 % 65536

/-- The foreground mask of a stack in a course-table entry. -/
def fgMask (s : State) (t e st : Nat) : BitVec 64 :=
  (look s.stores.table 0 (3 * ((partOf s t 2).1 + e) + 1 + st / 4)).extractLsb' (64 * (st % 4)) 64

/-- Whether a pseudo-channel has a burst slot at a tally tick. -/
def burstSlot (v : Nat) : Bool := decide (5 * v / 9 < 5 * (v + 1) / 9)

/-- The first slot from `lo` to `hi`. -/
def firstSlot (lo hi : Nat) : Option Nat := ((upTo (hi + 1 - lo)).map (lo + ·)).find? burstSlot

/-- The order in which requests take slots. -/
def HbmReq.before (a b : HbmReq) : Bool :=
  decide (a.tick < b.tick) || decide (a.tick = b.tick) &&
    (decide (a.core.val < b.core.val) || decide (a.core = b.core) &&
      (decide (a.ch < b.ch) || decide (a.ch = b.ch) && decide (a.index ≤ b.index)))

/-- Requests of one pseudo-channel and window served in order: the first that finds no slot, or a second row of a bank whose
row is open. `from'` is the first slot not yet taken, `rows` the rows open. -/
def unserved (rs : List HbmReq) (from' : Nat) (rows : List Nat) : Option HbmReq :=
  match rs with
  | [] => none
  | r :: rest =>
    let span := r.tick / 256 * 256
    match firstSlot (max from' (max (r.tick + 24) (span + 32))) (min (r.tick + 64) (span + 279)) with
    | none => some r
    | some v =>
      if rows.any (fun x => decide (x / 65536 = hbmRow r.key / 65536) && decide (x ≠ hbmRow r.key)) then some r
      else unserved rest (v + 1) (hbmRow r.key :: rows)

/-- The key under which a request waits. -/
def slotGroup (tick key : Nat) : Nat := 512 * (tick / 256) + pseudoChan key

/-- Whether a request at a tick of the course in progress falls in a foreground window of its stack (09 R225). -/
def inWindow (s : State) (t tick key : Nat) : Bool :=
  decide (tick / 16384 = courseNow s) && (fgMask s t (s.ten t).course.pos.entry (key / stackWords)).getLsbD (tick % 16384 / 256)

/-- Requests of a tenancy put with those already made: each in its window and pseudo-channel, or left to the next course. Those outside
the tenancy's windows have no slot rule. -/
def State.placeReqs (s : State) (t : Nat) (rs : List HbmReq) : State :=
  let later := rs.filter (fun r => courseNow s < r.tick / 16384)
  let reqs := (rs.filter (fun r => inWindow s t r.tick r.key)).foldl (fun (m : Sparse (List HbmReq)) r =>
    set m (slotGroup r.tick r.key) (look m [] (slotGroup r.tick r.key) ++ [r])) s.hbm.reqs
  { s with hbm := { s.hbm with reqs := reqs, later := s.hbm.later ++ later } }

/-- The requests, one for each window and pseudo-channel of `rs`, that find no slot or no row (12 R313). -/
def refused (s : State) (rs : List HbmReq) : List HbmReq :=
  ((rs.map (fun r => slotGroup r.tick r.key)).eraseDups).filterMap (fun g =>
    unserved ((look s.hbm.reqs [] g).mergeSort HbmReq.before) 0 [])

/-- The bank-conflict fault of refused requests. -/
def State.refuse (s : State) (rs : List HbmReq) : State :=
  rs.foldl (fun (s : State) r => s.progFaultAt r.core r.page.toNat r.bundle 3 0x13 0) s

/-- Whether a displaced request of a tenancy waits at a tick: in a hole, or in a window that is another tenancy's foreground
(09 Table 09.2, R238; 12 R315). -/
def holeAt (s : State) (t st tick : Nat) : Bool :=
  let w := tick % 16384 / 256
  [6, 19, 32, 45, 58].contains w || ([61, 62].contains w && decide (tick / 16384 % 64 = 63))
    || (tenancies s).any (fun u => decide (u ≠ t) && (s.ten u).course.inCourse && decide (tick / 16384 = courseNow s)
      && (fgMask s u (s.ten u).course.pos.entry st).getLsbD w)

/-- The tick at which the wait of a request at a tick ends; windows follow each other. -/
def holeEnd (s : State) (t st tick : Nat) : Nat :=
  (upTo 64).foldl (fun x _ => if holeAt s t st x then (x / 256 + 1) * 256 else x) tick

/-- The requests of a displaced schedule: one that falls in a hole waits until the hole ends, and the schedule with it (09 R238). -/
def State.displace (s : State) (c : Core) (rs : List (Nat × Nat)) : State :=
  let t := tenNo s c
  let u := unitClock s c
  rs.foldl (fun (s : State) (x : Nat × Nat) =>
    let v := tallyAt s t (x.1 - u)
    let e := holeEnd s t (x.2 / stackWords) v
    if v < e && v / 16384 = courseNow s then
      s.modTen t (fun n => { n with course := { n.course with holes := (n.course.holes ++ [(v, e)]).mergeSort (fun a b => decide (a.1 ≤ b.1)) } })
    else s) s

/-- The requests of an operation of core `c`, as unit-clock cycles and words, served with those already made. Those of a displaced
schedule are never refused (12 R315). -/
def State.claimSlots (s : State) (c : Core) (ch : Nat) (rs : List (Nat × Nat)) : Res State := do
  let t := tenNo s c
  if !(s.ten t).course.inCourse then return s
  let q := seqOf s c
  let u := unitClock s c
  let new := rs.zipIdx.map (fun (x : (Nat × Nat) × Nat) => (⟨tallyAt s t (x.1.1 - u), x.1.1, c, ch, x.2, x.1.2, q.page, q.bundle⟩ : HbmReq))
  if (s.ten t).course.s ≠ 0 then
    return (s.displace c rs).placeReqs t (new.filter (fun r => courseNow s < r.tick / 16384))
  let live := { s with hbm := { s.hbm with reqs := s.hbm.reqs.filter (fun (g : Nat × List HbmReq) => decide (s.now / 256 ≤ g.1 / 512 + 1)) } }
  let s1 := live.placeReqs t new
  let bad := refused s1 new
  need (bad.all (fun r => decide (r.core ≠ c))) 0x13
  return s1.refuse bad

/-- The requests of a tenancy's operations in flight dated anew as its next course begins (10 R247). -/
def State.resumeReqs (s : State) (t : Nat) : State :=
  let mine (r : HbmReq) : Bool := decide (tenOf s r.core = some t) && decide (unitClock s r.core ≤ r.cyc)
  let rs := ((s.hbm.reqs.flatMap (·.2)) ++ s.hbm.later).filter mine
  let s0 := { s with hbm := { s.hbm with
    reqs := (s.hbm.reqs.map (fun (g : Nat × List HbmReq) => (g.1, g.2.filter (fun r => !mine r)))).filter (fun g => g.2 ≠ [])
    later := s.hbm.later.filter (fun r => !decide (tenOf s r.core = some t)) } }
  let new := rs.map (fun r => { r with tick := s.now + (r.cyc - unitClock s r.core) })
  let s1 := s0.placeReqs t new
  s1.refuse (refused s1 new)

end Sys2Proof.Machine
end

