-- ==== Sys2Proof/Machine/Matrix.lean ====
section
/-! DEFINITION. Products of the matrix engines: their descriptors, operands, anchors and values (03; 04 R84, R85, R98 to R103; 05 R106 to R119; 08 R212 to R214; 11 R290). -/

namespace Sys2Proof.Machine

open Sys2Proof

/-! ### Operand fields (11 Table 11.5) -/

/-- An operand field. -/
structure Opnd where
  base    : Nat
  sh      : Nat
  tstep   : Nat
  tile0   : Nat
  region  : Nat
  bind    : Nat
  astride : Int
  tstride : Int
  ktile   : Int
  eaddr   : Nat
  etile   : Int
deriving DecidableEq, Repr

/-- The operand field at bit `o`; P's (short) has no KTILE and takes 1. -/
def opndAt (d : BitVec 512) (o : Nat) (short : Bool) : Opnd where
  base := bitsN d (o + 17) o
  sh := bitsN d (o + 35) (o + 18)
  tstep := bitsN d (o + 53) (o + 36)
  tile0 := bitsN d (o + 72) (o + 54)
  region := bitsN d (o + 84) (o + 73)
  bind := bitsN d (o + 87) (o + 85)
  astride := bitsS d (o + 106) (o + 88)
  tstride := bitsS d (o + 118) (o + 107)
  ktile := if short then 1 else bitsS d (o + 130) (o + 119)
  eaddr := if short then 0 else bitsN d (o + 148) (o + 131)
  etile := if short then 0 else bitsS d (o + 160) (o + 149)

/-- First word of the operand's tile k, e, h (11 R290); `wt` is its size in words. -/
def Opnd.word (o : Opnd) (wt k x e h : Nat) : Int :=
  (o.base : Int) + k * o.tstep + x * o.astride + e * o.eaddr + h * wt

/-- Its tile number. -/
def Opnd.tile (o : Opnd) (k x e h : Nat) : Int :=
  (o.tile0 : Int) + k * o.ktile + x * o.tstride + e * o.etile + h

/-- Its shingle (or index) words: `st` of them per tile, from `base` for the tile at the operand's BASE. -/
def Opnd.plane (o : Opnd) (base st wt : Nat) (a : Int) : Int := (base : Int) + st * (a - o.base) / wt

/-! ### Sparse layouts (05 Tables 05.2, 05.3) -/

/-- Kept elements of a group of four. -/
def keptOf (sparse : Nat) : Nat := if sparse = 1 then 2 else 1

/-- Words of a compressed tile's kept plane. -/
def sparseWords (fmt sparse : Nat) : Nat := 128 * (32 * keptOf sparse) / perWord fmt

/-- Words of a compressed tile's index plane. -/
def sparseIdxWords (sparse : Nat) : Nat := 32 * keptOf sparse

/-- Whether Table 05.2 has the pair and pattern. -/
def sparsePair (pf qf sparse : Nat) : Bool :=
  (pf = 3 || pf = 4) && (qf = 3 || qf = 4) ||
  (5 ≤ pf && pf ≤ 8) && (qf = 5 || qf = 6) ||
  (pf = 1 && qf = 1 && sparse = 1)

/-- K-blocks of a span (05 Table 05.2). -/
def spanBlocks (sparse : Nat) : Nat := match sparse with | 0 => 1 | 1 => 2 | _ => 4

/-- Kept entries of group `g`, column `n` of a compressed tile: their kept positions and their index entries. -/
def keptEntries (s : State) (c : Core) (idx sparse n g : Nat) : List (Nat × Nat) :=
  (upTo (keptOf sparse)).map (fun j =>
    let k := 32 * keptOf sparse * n + keptOf sparse * g + j
    (k, elemOf 2 (k % 128) (readWord s (.cs c) (idx + k / 128)).data))

/-- Every 2:4 group of a compressed tile is strictly ascending (05 R114). -/
def sparseOk (s : State) (c : Core) (idx sparse : Nat) : Bool :=
  sparse ≠ 1 || (upTo 128).all (fun n => (upTo 32).all (fun g =>
    match keptEntries s c idx sparse n g with
    | [a, b] => decide (a.2 < b.2)
    | _ => true))

/-! ### A product, prepared -/

/-- A product descriptor resolved at issue. Column tiles are counted two per engine in ascending order, or one where NCOLS = 1;
`frozen` lists those a block map freezes. `rows` gives the row tile of P and the row in it of each accumulator row from `rb`,
`kts` the K tiles of its range, `chains` for each column tile the chain that each of its rows then holds, `src` and `dst` for each
engine the places it continues from and its result goes to: bank 0 or 1, or a place of the model's own (04 R90). -/
structure Prod where
  d       : BitVec 512
  bank    : Nat
  mode    : Nat
  engs    : List Nat
  pf      : Nat
  qf      : Nat
  sparse  : Nat
  halves  : Nat
  m       : Nat
  rb      : Nat
  bk      : Nat
  k0      : Nat
  blocks  : List Nat
  x       : Nat
  xq      : Nat
  chain   : Bool
  handoff : Bool
  frozen  : List Nat
  rows    : List (Nat × Nat)
  mapped  : Bool
  kts     : Nat
  chains  : List (List Chain) := []
  src     : List Nat := []
  dst     : List Nat := []
deriving DecidableEq, Repr

/-- The engines a SET mask names, in ascending order (04 R84). -/
def setOf (m : Nat) : List Nat := (upTo 4).filter (fun e => m.testBit e)

/-- P's operand. -/
def Prod.opP (p : Prod) : Opnd := opndAt p.d 229 true

def Prod.opQ (p : Prod) : Opnd := opndAt p.d 348 false

/-- The tile, counted from the one that holds K_START, of logical K-block `b`, and the offset within it (11 R290). -/
def Prod.kTile (p : Prod) (b : Nat) : Nat × Nat := (b * p.bk / 128 - p.k0 * p.bk / 128, b * p.bk % 128)

/-- Whether a descriptor is paired (05 R115). -/
def Prod.paired (p : Prod) : Bool := bitB p.d 93

/-- The column tiles that are not frozen, with their engine, its rank and the half. -/
def Prod.openTiles (p : Prod) : List (Nat × Nat × Nat) :=
  p.engs.zipIdx.flatMap (fun (e : Nat × Nat) => (upTo p.halves).filterMap (fun h =>
    if p.frozen.contains (e.2 * p.halves + h) then none else some (e.1, e.2, h)))

/-- Whether half `h` of the engine of rank `e` is open. -/
def Prod.isOpen (p : Prod) (e h : Nat) : Bool := decide (h < p.halves) && !p.frozen.contains (e * p.halves + h)

/-- The chain that row `rb + r` of a column tile holds after the product. -/
def Prod.chainOf (p : Prod) (i r : Nat) : Chain := nth (nth p.chains [] i) {} r

/-- The format code a hallmark must carry: heritage FP8 planes are untyped (03 R76). -/
def hallCode (mode fmt : Nat) : Nat := if mode = 2 && isShingled fmt then 0xF else fmt

/-- Whether an operand of a product has shingles: heritage has none (03 R76). -/
def Prod.shingled (p : Prod) (fmt : Nat) : Bool := isShingled fmt && p.mode ≠ 2

/-- P's tile in row tile `q`, K tile `k`, and its number (11 R290). The spec gives a row map's row tiles no step of their own: the
model takes tile `q` to lie `q` × the K tiles of the range further on (DESIGN CHOICE, log entry 60). -/
def prodP (s : State) (c : Core) (p : Prod) (q k : Nat) : Res (Tile × Int) := do
  let o := p.opP
  let wt := wordsPerTile p.pf
  let a := o.word wt (k + q * p.kts) p.x 0 0
  let b ← csRange s c a 1
  let n := o.tile (k + q * p.kts) p.x 0 0
  let sh := o.plane o.sh 8 wt a
  let sc ← if p.shingled p.pf then do
      need (decide (0 ≤ sh)) 0x15
      tileScale s (tenNo s c) o.region n
    else pure (0, false)
  return (⟨.cs c, p.pf, b, sh.toNat, sc.1, sc.2, false⟩, n)

/-- Q's tile for K tile `k`, rank `e`, half `h`, with its index plane's first word and its number (11 R290). -/
def prodQ (s : State) (c : Core) (p : Prod) (k e h : Nat) : Res (Tile × Nat × Int) := do
  let o := p.opQ
  let wt := if p.sparse = 0 then wordsPerTile p.qf else sparseWords p.qf p.sparse
  let a := o.word wt k p.xq e h
  let b ← csRange s c a 1
  let n := o.tile k p.xq e h
  let sh := o.plane o.sh (if p.sparse = 0 then 8 else 2 * keptOf p.sparse) wt a
  let ix := o.plane (bitsN p.d 226 209) (sparseIdxWords p.sparse) wt a
  need (p.sparse = 0 || decide (0 ≤ ix)) 0x15
  let sc ← if p.shingled p.qf then do
      need (decide (0 ≤ sh)) 0x15
      tileScale s (tenNo s c) o.region n
    else pure (0, false)
  return (⟨.cs c, p.qf, b, sh.toNat, sc.1, sc.2, false⟩, ix.toNat, n)

/-- The tile exponent e of an operand tile (03 R57). -/
def tileExp (s : State) (v : Tile) (words : Nat) : Int :=
  if isShingled v.fmt then v.scale
  else plainTileExp ((blocksOf ((upTo words).map (v.base + ·))).foldl (fun m b => max m (max 1 (min 254 (hallMax (hallOf s v.sp (128 * b)))))) 0)

/-- An anchor-vector entry (03 R61), checked. -/
def anchorEntry (s : State) (c : Core) (i : Int) : Res Int := do
  let a ← csRange s c (i / 16) 1
  needHall s (.cs c) [a] 0xF none
  let w := readWord s (.cs c) a
  let v := (BitVec.ofNat 16 (elemOf 16 (i % 16).toNat w.data)).toInt
  need (decide (-1024 ≤ v) && decide (v ≤ 1023)) 0x12
  return v

/-- The rows of an engine's place: the accumulator rows (bank 0), the drain-behind rows (bank 1), or content that waits for one of
them (further pairs): key of row and column. -/
def accKey (c : Core) (e bank row col : Nat) : Nat :=
  16777216 * (bank / 2) + 262144 * c.val + 65536 * e + 32768 * (bank % 2) + 256 * row + col

/-- The binding of a row and half. -/
def bindKey (c : Core) (e bank row h : Nat) : Nat :=
  131072 * (bank / 2) + 2048 * c.val + 512 * e + 256 * (bank % 2) + 2 * row + h

/-- The chain bound to a row and half of a place. -/
def boundAt (s : State) (c : Core) (e bank row h : Nat) : Option Chain := find s.cores.bind (bindKey c e bank row h)

def State.engine (s : State) (c : Core) (e : Nat) : Engine := look s.cores.engines {} (4 * c.val + e)

def State.setEngine (s : State) (c : Core) (e : Nat) (g : Engine) : State :=
  { s with cores := { s.cores with engines := put {} s.cores.engines (4 * c.val + e) g } }

/-- The energy class of a vector of a format (17 Table 17.1). -/
def mxClass (f : Nat) : Nat := if elemBits f = 4 then 0 else if elemBits f = 8 then 1 else 2

/-- A counter of an engine (04 Table 04.8, 20 R544): 0 VECTORS to 6 CORRECTED. -/
def State.countEng (s : State) (c : Core) (e i n : Nat) : State := s.countCore c (0x38 * e + 8 * i) n

/-- A bitmap or freeze-map entry, by the descriptor's MAP (05 R118, 08 R212). -/
def mapOf (s : State) (c : Core) (d : BitVec 512) : Res (BitVec 512) := do
  let e ← latch s c (bits d 92 83)
  need (decide (e.1.toNat = 4)) 0x12
  return e.2

/-- The heritage operand pairs (03 R76). -/
def herPair (pf qf : Nat) : Bool := (pf = 1 && qf = 1) || ((5 ≤ pf && pf ≤ 8) && (5 ≤ qf && qf ≤ 8))

/-- The K-block size of a descriptor (03 Table 03.1; 64 B vectors in heritage, 04 R83). -/
def blockOf (mode pf qf : Nat) : Nat := if mode = 2 then (if pf = 1 then 32 else 64) else kBlock pf qf

/-- The checks of a product descriptor at issue (03 R54, R56, R80; 04 R85; 05 R107, R109, R113; 11 R284, R290). With a row map M is
the number of unfrozen rows (08 R213), checked where the map is read. Only a structured-sparse descriptor may be paired (05 R115). -/
def prodCheck (d : BitVec 512) : Bool :=
  let mode := bitsN d 3 2
  let pf := bitsN d 11 8
  let qf := bitsN d 15 12
  let sp := bitsN d 17 16
  let m8 := bitsN d 23 19
  let bk := blockOf mode pf qf
  let wtq := if sp = 0 then wordsPerTile qf else sparseWords qf sp
  let o := opndAt d 348 false
  let p := opndAt d 229 true
  mode ≠ 3 && bitsN d 7 4 ≠ 0 && sp ≠ 3 && 1 ≤ m8 && m8 ≤ 16 && (bitsN d 82 81 = 2 || m8 + bitsN d 27 24 ≤ 16)
  && bitsN d 80 79 ≤ 1 && 1 ≤ bitsN d 77 54 && bitsN d 511 509 = 0 && p.bind ≤ 5 && o.bind ≤ 5
  && (mode = 2 || bitsN d 228 227 = 0)
  && (if mode = 2 then herPair pf qf else bk ≠ 0 && bitsN d 77 54 * bk ≤ kMax pf)
  && (sp = 0 || (mode = 0 && sparsePair pf qf sp && bitB d 100 && bitsN d 53 29 % spanBlocks sp = 0))
  && (mode ≠ 2 || (!bitB d 78 && bitsN d 82 81 ≠ 1 && sp = 0)) && (!bitB d 93 || sp ≠ 0)
  && (mode ≠ 1 || (isShingled pf == isShingled qf && fmtOf pf = fmtOf qf))
  && (mode = 2 || !(isShingled pf) || (p.tstep % wordsPerTile pf = 0 && p.astride % wordsPerTile pf = 0))
  && (mode = 2 || !(isShingled qf || sp ≠ 0) || (o.tstep % wtq = 0 && o.astride % wtq = 0 && o.eaddr % wtq = 0))

/-- The unfrozen logical rows of a row map. -/
def unfrozen (map : BitVec 512) : List Nat := (upTo 512).filter (fun i => !map.getLsbD i)

/-- The places of numbers among themselves in ascending order. -/
def ranksOf (ns : List Int) : List Nat :=
  ns.zipIdx.map (fun (x : Int × Nat) => (ns.zipIdx.filter (fun (y : Int × Nat) => decide (y.1 < x.1) || (y.1 = x.1 && decide (y.2 < x.2)))).length)

/-- The column tiles, of those whose output tiles have the numbers `ns`, that a block map freezes: the map's bits count the
descriptor's output tiles in tile-number order (08 R212). A product names no output tile, so its columns' numbers are those of its Q
tiles (DESIGN CHOICE, log entry 60). -/
def frozenOf (map : BitVec 512) (ns : List Int) : List Nat :=
  (ranksOf ns).zipIdx.filterMap (fun (x : Nat × Nat) => if map.getLsbD x.1 then some x.2 else none)

/-- A product with its fields and maps read (05 R117; 08 R212 to R214); `x` and `xq` are the bound indices of P and Q. -/
def prodOf (s : State) (c : Core) (d : BitVec 512) (bank x xq : Nat) : Res Prod := do
  need (prodCheck d) 0x12
  let mode := bitsN d 3 2
  let pf := bitsN d 11 8
  let qf := bitsN d 15 12
  let bk := blockOf mode pf qf
  let k0 := bitsN d 53 29
  let kc := bitsN d 77 54
  let mapk := bitsN d 82 81
  let engs := setOf (bitsN d 7 4)
  let halves := if bitB d 18 then 1 else 2
  let map ← if mapk = 0 then pure 0 else mapOf s c d
  let all := (upTo kc).map (k0 + ·)
  let t0 := k0 * bk / 128
  let kts := ((k0 + kc) * bk - 1) / 128 + 1 - t0
  let blocks := if mapk = 1 then all.filter (fun b => map.getLsbD (b * bk / 128 - t0)) else all
  need (mapk ≠ 1 || (blocks ≠ [] && decide (kts ≤ 512))) 0x12
  let rb := 8 * bitsN d 27 24
  let m := if mapk = 2 then (unfrozen map).length else 8 * bitsN d 23 19
  need (mapk ≠ 2 || (m % 8 = 0 && decide (8 ≤ m) && decide (rb + m ≤ 128))) 0x12
  let rows := if mapk = 2 then (unfrozen map).map (fun i => (i / 128, i % 128)) else (upTo m).map (fun r => (0, rb + r))
  let o := opndAt d 348 false
  let frozen := if mapk = 3 then
      frozenOf map (engs.zipIdx.flatMap (fun (e : Nat × Nat) => (upTo halves).map (fun h => o.tile 0 xq e.2 h)))
    else []
  need (decide (frozen.length < engs.length * halves)) 0x12
  return { d, bank, mode, engs, pf, qf, sparse := bitsN d 17 16, halves, m, rb, bk, k0, blocks, x, xq,
           chain := bitB d 79, handoff := bitB d 28, frozen, rows, mapped := decide (mapk = 2), kts }

/-- The places that wait for a bank, oldest first. -/
def Engine.waitsFor (g : Engine) (bank : Nat) : List Wait := g.waits.filter (fun w => w.bank = bank)

/-- Whether terms enter row `r`, half `h`. -/
def TermRun.covers (t : TermRun) (r h : Nat) : Bool :=
  decide (t.row ≤ r) && decide (r < t.row + t.rows) && (if h = 0 then t.h0 else t.h1)

/-- The newest place in which a row of the product is bound: the bank, or what waits for it. -/
def chainPlace (s : State) (c : Core) (p : Prod) (e k bank : Nat) : Nat :=
  (((s.engine c e).waitsFor bank).reverse.find? (fun w => (upTo p.m).any (fun r => (upTo p.halves).any (fun h =>
    p.isOpen k h && (boundAt s c e w.slot (p.rb + r) h).isSome)))).elim bank (·.slot)

/-- Whether the rows of a bank that a product would begin in are taken: bound, or waited for. -/
def taken (s : State) (c : Core) (p : Prod) (e k bank : Nat) : Bool :=
  (upTo p.m).any (fun r => (upTo p.halves).any (fun h => p.isOpen k h &&
    ((boundAt s c e bank (p.rb + r) h).isSome ||
      ((s.engine c e).waitsFor bank).any (fun w => w.runs.any (fun t => t.covers (p.rb + r) h)))))

/-- A place of its own for content that waits for a bank of an engine. -/
def newPlace (g : Engine) (bank : Nat) : Nat := bank + 2 * (1 + g.waits.foldl (fun n w => max n (w.slot / 2)) 0)

/-- The bank a product's result ends in (04 R89). -/
def Prod.lands (p : Prod) : Nat := if p.handoff then 1 else p.bank

/-- The places an engine's part of a product continues from and ends in. -/
def homesOf (s : State) (c : Core) (p : Prod) (e k : Nat) : Nat × Nat :=
  let src := if p.chain then chainPlace s c p e k p.bank else p.bank
  if p.chain && !p.handoff then (src, src)
  else (src, if taken s c p e k p.lands then newPlace (s.engine c e) p.lands else p.lands)

/-- The supplied anchors (03 R60, 11 R290): of P by row tile, of Q by column tile. P's row tile `q` of a row map takes the `q`-th
entry further (DESIGN CHOICE, log entry 60). -/
def suppliedAnchors (s : State) (c : Core) (p : Prod) (qs : List Nat) : Res (List Int × List Int) := do
  let d := p.d
  let aps ← qs.mapM (fun q => anchorEntry s c ((16 * bitsN d 182 165 + bitsN d 186 183 + q : Nat) + p.x * bitsS d 156 149))
  let aqs ← (upTo (p.engs.length * p.halves)).mapM (fun i =>
    anchorEntry s c ((16 * bitsN d 204 187 + bitsN d 208 205 : Nat) + p.xq * bitsS d 164 157 + (i : Int)))
  return (aps, aqs)

/-- The tile exponents of the tiles a product consumes (03 R57, R59, R60): the largest of each row tile of P, and of each column
tile of Q. -/
def localExps (s : State) (c : Core) (p : Prod) (qs : List Nat) : Res (List Int × List Int) := do
  let ks := p.blocks.foldl (fun l b => insertNew l (p.kTile b).1) []
  let aps ← qs.mapM (fun q => do
    let es ← ks.mapM (fun k => do
      let v ← prodP s c p q k
      return tileExp s v.1 (wordsPerTile p.pf))
    return maxInt es)
  let aqs ← p.engs.zipIdx.flatMapM (fun e => (upTo p.halves).mapM (fun h => do
    if !p.isOpen e.2 h then return 0
    let es ← ks.mapM (fun k => do
      let v ← prodQ s c p k e.2 h
      return tileExp s v.1 (if p.sparse = 0 then wordsPerTile p.qf else sparseWords p.qf p.sparse))
    return maxInt es))
  return (aps, aqs)

/-- A product resolved: its rows' chains with their anchors (03 R58 to R60), and the places it works on. -/
def prepare (s : State) (c : Core) (d : BitVec 512) (bank x xq : Nat) : Res Prod := do
  let p ← prodOf s c d bank x xq
  let qs := p.rows.foldl (fun l r => insertNew l r.1) []
  let sup := bitB d 78
  let a ← if p.mode ≠ 0 then pure ([], []) else if sup then suppliedAnchors s c p qs else localExps s c p qs
  let homes := p.engs.zipIdx.map (fun (e : Nat × Nat) => homesOf s c p e.1 e.2)
  let scale := if p.mode = 2 && p.pf ≠ 1 then some (bits d 196 165, bits d 228 197) else none
  let chains := p.engs.zipIdx.flatMap (fun (e : Nat × Nat) => (upTo p.halves).map (fun h =>
    p.rows.zipIdx.map (fun (r : (Nat × Nat) × Nat) =>
      let old : Chain := if p.chain then (boundAt s c e.1 (nth homes (0, 0) e.2).1 (p.rb + r.2) h).getD {} else {}
      let ap0 := nth a.1 0 (qs.idxOf r.1.1)
      let aq0 := nth a.2 0 (e.2 * p.halves + h)
      let ap := if sup then ap0 else max ap0 (old.ap.getD ap0)
      let aq := if sup then aq0 else max aq0 (old.aq.getD aq0)
      let A := if p.mode = 0 then BitVec.ofInt 16 (ap + aq + anchorConst p.pf p.qf) else old.anchor
      ({ anchor := A, ap := if p.mode = 0 then some ap else old.ap, aq := if p.mode = 0 then some aq else old.aq,
         next := p.k0 + p.blocks.length, scale, her := decide (p.mode = 2), part := old.part, hand := p.handoff } : Chain))))
  return { p with chains, src := homes.map (·.1), dst := homes.map (·.2) }

/-! ### Operand values -/

/-- The element values of a plain plane of element codes, without shingle or scale (03 R76). -/
def Tile.plain (s : State) (v : Tile) (i : Nat) : Num × Bool :=
  let c := v.code s i
  ((fmtOf v.fmt).decodeElem c.1, c.2)

/-- The value of an operand element: heritage FP8 decodes with no shingle and no tile scale (03 R76). -/
def Prod.val (p : Prod) (s : State) (v : Tile) (i : Nat) : Num × Bool :=
  if isShingled v.fmt && p.mode = 2 then v.plain s i else v.val s i

/-- P's row over a K-block: its values with their poison. -/
def pVals (p : Prod) (s : State) (v : Tile) (row koff n : Nat) : List (Num × Bool) :=
  (upTo n).map (fun i => p.val s v (128 * row + koff + i))

/-- The storage index of Q's element of column `col`, K position `kk` of a dense tile. Shingled columns run along storage lines
and plain ones across rows; the bytes of a heritage FP8 tile, whose code says no axis, run along storage lines like those of a
column-blocked tile (DESIGN CHOICE, log entry 61). -/
def qIndex (fmt col kk : Nat) : Nat := if isShingled fmt then 128 * col + kk else 128 * kk + col

/-- Q's column over a K-block, none where it is pruned: such work is skipped and counts as zero whatever P holds there (03 R75; 05
R106, R108, R112). -/
def qVals (p : Prod) (s : State) (c : Core) (v : Tile) (idx col koff n : Nat) : List (Option (Num × Bool)) :=
  if p.sparse = 0 then
    (upTo n).map (fun i => some (p.val s v (qIndex v.fmt col (koff + i))))
  else
    (upTo n).map (fun i =>
      let kk := koff + i
      match (keptEntries s c idx p.sparse col (kk / 4)).find? (fun e => e.2 = kk % 4) with
      | some e =>
        let w := readWord s v.sp (v.base + e.1 / perWord v.fmt)
        let code := elemOf (elemBits v.fmt) (e.1 % perWord v.fmt) w.data
        let bad := isPoisoned w || isPoisoned (readWord s v.sp (idx + e.1 / 128))
        if isShingled v.fmt then
          let b := e.1 / 32
          let h := readWord s v.sp (v.sh + b / 64)
          some (sfDecode (fmtOf v.fmt) v.scale (elemOf 4 (b % 64) h.data) code, bad || isPoisoned h || v.bad)
        else some ((fmtOf v.fmt).decode code, bad)
      | none => none)

/-- The exact products of two runs of operands, lane by lane. -/
def prods (ps : List (Num × Bool)) (qs : List (Option (Num × Bool))) : List Num :=
  (ps.zip qs).filterMap (fun z => z.2.map (fun q => z.1.1.mul q.1))

/-- One part of an FP32 operand (03 R73). -/
def partOf32 (i : Nat) (x : Num) : Num := nth (split3 (toF32 x)) .zero i

/-- The products that each pass of a K-block sums (03 R64, R74). A block of zeros that gating skips is multiplied like any other, so
that zero times an infinity or NaN sets NAN as in the reference computation, since gating changes no result (05 R119; DESIGN CHOICE,
log entry 61: 03 R75 takes the work of a gated block as zero). -/
def passTerms (p : Prod) (ps : List (Num × Bool)) (qs : List (Option (Num × Bool))) : List (List Num) :=
  if p.pf = 0 then
    splitPairs.map (fun ij => prods (ps.map (fun x => (partOf32 ij.1 x.1, x.2))) (qs.map (fun q => q.map (fun x => (partOf32 ij.2 x.1, x.2)))))
  else [prods ps qs]

/-- What the checks beside a column find wrong: the accumulator's, or the K-block's, in a row and column at a K-block (04 R103). -/
structure Miss where
  acc : Bool
  row : Nat
  col : Nat
  k   : Nat
deriving DecidableEq, Repr

/-- One K-block added into a row on anchor `A` in ledger mode (03 R64, R74): `delta` is what an upset adds to the exact sum of its
first pass. It gives the row, and whether the K-block check and the accumulator check fail (04 R101, R102). -/
def addLedger (p : Prod) (A : Int) (acc : Acc) (ps : List (Num × Bool)) (qs : List (Option (Num × Bool))) (delta : Int) : Acc × Bool × Bool :=
  (passTerms p ps qs).zipIdx.foldl (fun (r : Acc × Bool × Bool) (z : List Num × Nat) =>
    let d := if z.2 = 0 then delta else 0
    let t := termOf A p.bk z.1 d
    (r.1.addTerm t, r.2.1 || treeMiss z.1 d, r.2.2 || r.1.addMiss t.t)) (acc, false, false)

/-- One K-block added into a row (03 R64, R74; R77 for heritage; R72 for element-wise, a zero product giving +0 by R68). Element-wise
rows at or past the rows of a Q tile take a zero operand, and of several K-blocks the last one stands (DESIGN CHOICE, log entry 61). -/
def addBlock (p : Prod) (A : Int) (row : Nat) (acc : Acc) (ps : List (Num × Bool)) (qs : List (Option (Num × Bool))) (lane : Nat)
    (delta : Int) : Acc × Bool × Bool :=
  let bad := ps.any (·.2) || qs.any (fun q => q.elim false (·.2))
  let r : Acc × Bool × Bool :=
    if p.mode = 1 then
      let v := (nth ps (.zero, false) (lane % ps.length)).1.mul ((nth qs none row).getD (.zero, false)).1
      (Acc.fp32Of (if v.isZero then 0 else toF32 v), false, false)
    else if p.mode = 2 then
      (Acc.fp32Of ((prods ps qs).foldl herAdd (if acc.fp32 then acc.n.setWidth 32 else acc.toFp32 A)), false, false)
    else addLedger p A acc ps qs delta
  ({ r.1 with poison := acc.poison || bad }, r.2)

/-! ### Words read -/

/-- The core whose store gives the K-block at place `i` of a paired descriptor's consumed K-blocks (05 R115): the even column's core
the first half of each wide vector. `q` is the partner with its product. -/
def castFrom (c : Core) (p : Prod) (q : Option (Core × Prod)) (i : Nat) : Core × Prod :=
  match q with
  | none => (c, p)
  | some (d, r) =>
    let first := decide (i % spanBlocks p.sparse < spanBlocks p.sparse / 2)
    if first = decide (c.val % 2 = 0) then (c, p) else (d, r)

/-- The consumed K-blocks whose P words a core reads itself. -/
def ownBlocks (c : Core) (p : Prod) : List Nat :=
  if p.paired then
    (p.blocks.zipIdx.filter (fun (b : Nat × Nat) =>
      decide (b.2 % spanBlocks p.sparse < spanBlocks p.sparse / 2) = decide (c.val % 2 = 0))).map (·.1)
  else p.blocks

/-- Words of a core store, each of which must be in it (11 R285). -/
def inStore (s : State) (c : Core) (as : List Nat) : Res (List Nat) := as.mapM (fun a => csRange s c a 1)

/-- The words a product's P operand reads. -/
def readsP (s : State) (c : Core) (p : Prod) : Res (List Nat) :=
  (ownBlocks c p).flatMapM (fun b => p.rows.flatMapM (fun r => do
    let v ← prodP s c p r.1 (p.kTile b).1
    inStore s c ((upTo (ceilDiv p.bk (perWord p.pf))).map (fun i => v.1.wordAt (128 * r.2 + (p.kTile b).2 + i * perWord p.pf)))))

/-- The shingle words it reads. -/
def readsPsh (s : State) (c : Core) (p : Prod) : Res (List Nat) :=
  if !p.shingled p.pf then return [] else
  (ownBlocks c p).flatMapM (fun b => p.rows.flatMapM (fun r => do
    let v ← prodP s c p r.1 (p.kTile b).1
    inStore s c [v.1.shWord (4 * r.2 + (p.kTile b).2 / 32)]))

/-- The storage indices of Q that a K-block at offset `koff` takes, as runs (first, length). -/
def qRuns (p : Prod) (koff : Nat) : List (Nat × Nat) :=
  if p.sparse ≠ 0 then (upTo 128).map (fun n => (32 * keptOf p.sparse * n + keptOf p.sparse * (koff / 4), keptOf p.sparse * (p.bk / 4)))
  else if isShingled p.qf then (upTo 128).map (fun n => (128 * n + koff, p.bk))
  else [(128 * koff, 128 * p.bk)]

/-- The words from the one that holds index `lo` to the one that holds `lo + n - 1`, of `per` entries each. -/
def wordRun (base per lo n : Nat) : List Nat := (upTo ((lo + n - 1) / per + 1 - lo / per)).map (base + lo / per + ·)

/-- The words a load of one column tile's K-block writes, with its shingle and index words (04 R86, 05 R114). -/
structure QWords where
  els : List Nat := []
  sh  : List Nat := []
  idx : List Nat := []

/-- The words of Q that the engine of rank `e` loads for K-block `b`, half by half. -/
def qWords (s : State) (c : Core) (p : Prod) (e b : Nat) : Res QWords := do
  let kt := p.kTile b
  let ws ← ((upTo p.halves).filter (p.isOpen e)).mapM (fun h => do
    let v ← prodQ s c p kt.1 e h
    let els := ((qRuns p kt.2).flatMap (fun r => wordRun v.1.base (perWord p.qf) r.1 r.2)).foldl (fun l a => insertNew l a) []
    let sh := if p.shingled p.qf then (upTo (if p.sparse = 0 then 8 else 2 * keptOf p.sparse)).map (v.1.sh + ·) else []
    let idx := if p.sparse = 0 then [] else ((qRuns p kt.2).flatMap (fun r => wordRun v.2.1 128 r.1 r.2)).foldl (fun l a => insertNew l a) []
    return (⟨els, sh, idx⟩ : QWords))
  let els ← inStore s c (ws.flatMap (·.els))
  let sh ← inStore s c (ws.flatMap (·.sh))
  let idx ← inStore s c (ws.flatMap (·.idx))
  return ⟨els, sh, idx⟩

/-- The words of every load of Q, by K-block and engine. -/
def readsQ (s : State) (c : Core) (p : Prod) : Res (List QWords) :=
  p.blocks.flatMapM (fun b => (upTo p.engs.length).mapM (fun e => qWords s c p e b))

/-- The numbers of the tiles of Q a product consumes, and the first words of their index planes. -/
def tilesQ (s : State) (c : Core) (p : Prod) : Res (List (Int × Nat)) := do
  let kts := p.blocks.foldl (fun l b => insertNew l (p.kTile b).1) []
  kts.flatMapM (fun k => p.openTiles.mapM (fun (x : Nat × Nat × Nat) => do
    let v ← prodQ s c p k x.2.1 x.2.2
    return (v.2.2, v.2.1)))

/-- The tag a descriptor has checked. -/
def tagIf (on : Bool) (tag : Nat) : Option Nat := if on then some tag else none

/-- The operands of a product resolved: the words of P and its shingles, the loads of Q, and Q's tiles. -/
structure ProdOps where
  pw  : List Nat
  psh : List Nat
  qs  : List QWords
  qts : List (Int × Nat)

/-- The operands of a product, with their hallmark and index checks (02 R39; 05 R109, R114; 12 R331). -/
def prodOps (s : State) (c : Core) (p : Prod) : Res ProdOps := do
  let pw ← readsP s c p
  let psh ← readsPsh s c p
  let qs ← readsQ s c p
  let qts ← tilesQ s c p
  let pt := tagIf (bitB p.d 99) (bitsN p.d 116 101)
  let qt := tagIf (bitB p.d 100) (bitsN p.d 132 117)
  needHall s (.cs c) pw (hallCode p.mode p.pf) pt
  needHall s (.cs c) psh 0xE pt
  needHall s (.cs c) (qs.flatMap (·.els)) (hallCode p.mode p.qf) qt
  needHall s (.cs c) (qs.flatMap (·.sh)) 0xE qt
  needHall s (.cs c) (qs.flatMap (·.idx)) 0xF (some (bitsN p.d 148 133))
  need (p.sparse = 0 || qts.all (fun v => sparseOk s c v.2 p.sparse)) 0x16
  return ⟨pw, psh, qs, qts⟩

/-- The words a product reads. -/
def ProdOps.reads (o : ProdOps) : List Nat := o.pw ++ o.psh ++ o.qs.flatMap (fun q => q.els ++ q.sh ++ q.idx)

/-! ### Upsets (04 R97, R101, R102) -/

/-- What the waiting tree upsets of an engine add in a row and column. -/
def treeDelta (s : State) (c : Core) (e row col : Nat) : Int :=
  s.upsets.foldl (fun a u => match u with
    | .tree f g r k d => if f = c && g.toNat = e && r.toNat = row && k.toNat = col then a + d else a
    | _ => a) 0

/-- The words of an engine's first load that waiting upsets make unreadable, and the rows whose latched vector they do. -/
def badWords (s : State) (c : Core) (e : Nat) (q : QWords) : List Nat :=
  let ws := q.els ++ q.sh ++ q.idx
  s.upsets.filterMap (fun u => match u with | .buf f g w bad => if f = c && g.toNat = e && bad then ws[w]? else none | _ => none)

def badRow (s : State) (c : Core) (e row : Nat) : Bool :=
  s.upsets.any (fun u => match u with | .cast f g r bad => f = c && g.toNat = e && r.toNat = row && bad | _ => false)

/-- Whether a product of an engine takes an upset. -/
def takesUpset (c : Core) (p : Prod) (e k : Nat) (u : Upset) : Bool :=
  let rowIn (r : BitVec 7) : Bool := decide (p.rb ≤ r.toNat) && decide (r.toNat < p.rb + p.m)
  match u with
  | .tree f g r col _ => p.mode = 0 && f = c && g.toNat = e && rowIn r && p.isOpen k (col.toNat / 128)
  | .buf f g _ _ => f = c && g.toNat = e
  | .cast f g r _ => f = c && g.toNat = e && rowIn r
  | _ => false

/-- Accumulator upsets of a core strike before its engines are next used: the bit turns, the residue byte stays (04 R102). -/
def State.strikeAccs (s : State) (c : Core) : State :=
  s.upsets.foldl (fun (s : State) u => match u with
    | .acc f e bank r col bit =>
      if f = c then
        let k := accKey c e.toNat (if bank then 1 else 0) r.toNat col.toNat
        let s1 : State := { s with upsets := s.upsets.erase u }
        match find s.cores.acc k with
        | some a => { s1 with cores := { s.cores with acc := put {} s.cores.acc k { a with n := a.n ^^^ (1#96 <<< bit.toNat) } } }
        | none => s1
      else s
    | _ => s) s

/-- A residue mismatch of engine `e` of core `c` (04 R103): class A, daybook, counters, the die ledger. -/
def State.residueMiss (s : State) (c : Core) (e : Nat) (x : Miss) : State :=
  ((s.countEng c e (if x.acc then 5 else 4) 1).dayCore c (1 + e) 0x21 clsA (x.col * 128 + x.row) x.k 0).arithFault c 0x21

/-! ### Values -/

/-- What a row starts from: the content it continues, zero where none is bound (03 R67). A CHAIN = 1 descriptor on rows that are
not bound starts them from zero and binds them; ledger terms on rows of FP32 content start from that value by R67 (DESIGN CHOICE, log
entry 61). -/
def startAcc (s : State) (c : Core) (p : Prod) (e k row col : Nat) : Acc :=
  if p.chain && (boundAt s c e (nth p.src 0 k) row (col / 128)).isSome then
    let a := look s.cores.acc {} (accKey c e (nth p.src 0 k) row col)
    if p.mode = 0 && a.fp32 then { Acc.ofFp32 (p.chainOf (k * p.halves + col / 128) (row - p.rb)).anchor.toInt (a.n.setWidth 32) with poison := a.poison }
    else a
  else {}

/-- The anchor that a heritage chain's starting content is read on: its row's own (03 R77). -/
def startAnchor (s : State) (c : Core) (p : Prod) (e k r h : Nat) : Int :=
  if p.mode = 0 then (p.chainOf (k * p.halves + h) r).anchor.toInt
  else ((boundAt s c e (nth p.src 0 k) (p.rb + r) h).getD {}).anchor.toInt

/-- The words that a column of a load reads. -/
def colReads (p : Prod) (v : Tile) (ix col koff : Nat) : List Nat :=
  if p.sparse ≠ 0 then
    let lo := 32 * keptOf p.sparse * col + keptOf p.sparse * (koff / 4)
    wordRun v.base (perWord p.qf) lo (keptOf p.sparse * (p.bk / 4)) ++ wordRun ix 128 lo (keptOf p.sparse * (p.bk / 4))
      ++ (if p.shingled p.qf then [v.sh + lo / 2048] else [])
  else (upTo p.bk).map (fun i => v.base + qIndex p.qf col (koff + i) / perWord p.qf)
    ++ (if p.shingled p.qf then [v.sh + (4 * col + koff / 32) / 64] else [])

/-- The final content of accumulator row `rb + r`, column `col` of the engine of rank `k` (04 R85: K-blocks in ascending order), with
what its checks found. `bads` are words of the first load, and `cast` says the row's vector, that an upset made unreadable. -/
def prodRow (s : State) (c : Core) (p : Prod) (q : Option (Core × Prod)) (bads : List Nat) (cast : Bool) (k r col : Nat) :
    Res (Acc × List Miss) := do
  let e := nth p.engs 0 k
  let a ← p.blocks.zipIdx.foldlM (fun (acc : Acc × List Miss) (b : Nat × Nat) => do
    let f := castFrom c p q b.2
    let g := (f.2.kTile (nth f.2.blocks b.1 b.2))
    let rl := nth f.2.rows (0, 0) r
    let v ← prodP s f.1 f.2 rl.1 g.1
    let kt := p.kTile b.1
    let w ← prodQ s c p kt.1 k (col / 128)
    let ps := pVals f.2 s v.1 rl.2 g.2 p.bk
    let qs := qVals p s c w.1 w.2.1 (col % 128) kt.2 p.bk
    let x := addBlock p (startAnchor s c p e k r (col / 128)) r acc.1 ps qs col (if b.2 = 0 then treeDelta s c e (p.rb + r) col else 0)
    let hit := b.2 = 0 && bads ≠ [] && (colReads p w.1 w.2.1 (col % 128) kt.2).any bads.contains
    return ({ x.1 with poison := x.1.poison || hit },
      acc.2 ++ (if x.2.1 then [⟨false, p.rb + r, col, b.1⟩] else []) ++ (if x.2.2 then [⟨true, p.rb + r, col, b.1⟩] else [])))
    (startAcc s c p e k (p.rb + r) col, ([] : List Miss))
  return ({ a.1 with poison := a.1.poison || cast }, a.2)

/-- The all-zero 32-element blocks of a vector (02 R33), in the parts that the passes of an FP32 product broadcast (04 R98). -/
def zeroBlocks (p : Prod) (xs : List Num) : Nat :=
  let zeros (ys : List Num) : Nat := ((chunks 32 ys).filter (fun q => q.all Num.isZero)).length
  if p.pf = 0 then (splitPairs.map (fun ij => zeros (xs.map (partOf32 ij.1)))).sum else zeros xs

/-- The all-zero blocks of the vectors broadcast (05 R119). -/
def gatedBlocks (s : State) (c : Core) (p : Prod) (q : Option (Core × Prod)) : Res Nat :=
  p.blocks.zipIdx.foldlM (fun n (b : Nat × Nat) => (upTo p.m).foldlM (fun n r => do
    let f := castFrom c p q b.2
    let g := f.2.kTile (nth f.2.blocks b.1 b.2)
    let rl := nth f.2.rows (0, 0) r
    let v ← prodP s f.1 f.2 rl.1 g.1
    return n + zeroBlocks p ((pVals f.2 s v.1 rl.2 g.2 p.bk).map (·.1))) n) 0

/-- The values of a product: its all-zero blocks, the accumulators it fills by key, and by engine what the checks found. -/
structure ProdVals where
  gated : Nat
  accs  : List (Nat × Acc)
  miss  : List (Nat × Miss)

/-- The values of a product; `q` is the partner of a paired broadcast with its product, `loads` the loads of Q. -/
def prodWork (s : State) (c : Core) (p : Prod) (q : Option (Core × Prod)) (loads : List QWords) : Res ProdVals := do
  let gated ← gatedBlocks s c p q
  let cells ← p.openTiles.flatMapM (fun (x : Nat × Nat × Nat) => (upTo p.m).flatMapM (fun r => (upTo 128).mapM (fun i => do
    let bads := badWords s c x.1 (nth loads {} x.2.1)
    let a ← prodRow s c p q bads (badRow s c x.1 (p.rb + r)) x.2.1 r (128 * x.2.2 + i)
    return (x.1, accKey c x.1 (nth p.dst 0 x.2.1) (p.rb + r) (128 * x.2.2 + i), a))))
  return ⟨gated, cells.map (fun y => (y.2.1, y.2.2.1)), cells.flatMap (fun y => y.2.2.2.map (fun m => (y.1, m)))⟩

end Sys2Proof.Machine
end

