-- ==== Sys2Proof/Machine/Tick.lean ====
section
/-! DEFINITION. Time passing: the tally, stall cycles, the idle counters and swallowed ticks (09 R219 to R223, R228, R233, R244; 17 R465). -/

namespace Sys2Proof.Machine

open Sys2Proof

/-- Whether the core PLL runs, so that the tally counts (09 R228). -/
def clockOn (s : State) : Bool := decide (s.time.pll ≠ .off)

/-- The idle cause of a blank course, by the cause of its notice. -/
def blankCause (k : BitVec 3) : Nat := if k = 4 then 8 else if k = 5 ∨ k = 6 then 7 else 6

/-- Offset of a core's counter of idle cause `k`. -/
def idleOff (k : Nat) : Nat := 0x1C0 + 8 * (k - 1)

/-- The cores of a tenancy that its job is compiled for: its virtual grid from the tenancy's first row on (19 Table 19.9). -/
def jobCores (s : State) (t : Nat) : List Core :=
  (coresOf s t).filter (fun c => decide (c.val % 8 < hdr s t 4 1) && decide (c.val / 8 < (s.ten t).def_.y0.toNat + hdr s t 5 1))

/-- Whether every core of a tenancy has ended its course. -/
def allEnded (s : State) (t : Nat) : Bool :=
  decide (jobCores s t ≠ []) && (jobCores s t).all (fun c => (seqOf s c).ended)

/-- The idle cycles of a core that waits in a schedule course, over the ticks from `a` up to `b`: those of a hole, and once its
course has ended, from the cycle after its `CEND`, those of the slack, of the eaves and of the tail of a slipped course (09 R238,
R239, R244). -/
def courseIdle (s : State) (k : Course) (q : Seq) (a b : Nat) : List (Nat × Nat) :=
  let hs := holesIn k a b
  let open' (x y : Nat) : Nat := cyclesIn s x y - ((holesIn k x y).map (fun h => cyclesIn s h.1 h.2)).sum
  let part (x y : Nat) : Nat := open' (max (max a (q.endAt + 1)) x) (min b y)
  (k.shift, (hs.map (fun h => cyclesIn s h.1 h.2)).sum) :: (if q.ended then
    [(2, part k.start (k.start + 16128)), (1, part (k.start + 16128) (k.start + 16384)), (6, part (k.start + 16384) b)] else [])

/-- The idle cycles a core counts over `n` ticks from tally `v`, by cause; a course that a fault stopped counts from the cycle after
it (09 R244, Table 09.7; 10 R278). -/
def idleOf (s : State) (t : Nat) (c : Core) (v n : Nat) : List (Nat × Nat) :=
  let r := s.ten t
  let k := r.course
  let all := cyclesIn s v (v + n)
  if r.load.st = .running then
    if k.blank = some 4 then [(8, all)]
    else if k.hold then [(7, all)]
    else if k.stopped then [(7, cyclesIn s (max v (k.stopCyc + 1)) (v + n))]
    else match k.blank with
      | some b => [(blankCause b, all)]
      | none =>
        if !k.inCourse then []
        else if k.stalls ≠ [] then [(stallCause k.stalls, all)]
        else courseIdle s k (seqOf s c) v (v + n)
  else if r.load.st = .loaded && r.launch.ready then [(5, all)]
  else []

/-- The idle counters of a tenancy's cores over `n` ticks. -/
def State.countIdle (s : State) (t n : Nat) : State :=
  let v := s.now
  (jobCores s t).foldl (fun (u : State) c =>
    (idleOf s t c v n).foldl (fun (u : State) (x : Nat × Nat) => if x.2 = 0 then u else u.countCore c (idleOff x.1) x.2) u) s

/-- The stall cycles and swallowed ticks that a tenancy's course gains over `n` ticks, until every core of it has ended (09 R221,
R222, R238). -/
def State.addStall (s : State) (t n : Nat) : State :=
  let k := (s.ten t).course
  if k.inCourse && (s.ten t).load.st = .running && !allEnded s t then
    let w := (n - cyclesIn s s.now (s.now + n)) + ((holesIn k s.now (s.now + n)).map (fun h => cyclesIn s h.1 h.2)).sum
    s.modTen t (fun r => { r with course := { r.course with s := r.course.s + (if k.stalls ≠ [] then n else w) } })
  else s

/-- Whether a tenancy's schedule advances: its job runs a schedule course and nothing stalls it. -/
def advancing (s : State) (t : Nat) : Bool :=
  let r := s.ten t
  decide (r.load.st = .running) && r.course.inCourse && !r.course.stopped && decide (r.course.stalls = [])

/-- The merge entries of operations that have ended by now written out (12 R317): those of cores whose tenancy has not stopped. -/
def State.settleMerges (s : State) : State :=
  let ended (e : MergeEntry) : Bool :=
    (match e.closes with | some x => decide (x ≤ unitClock s e.core) | none => false)
      && !(match tenOf s e.core with | some t => (s.ten t).course.stopped | none => false)
  let close (sp : Nat → Space) (addr : Nat → Nat) (u : State) (x : Nat × MergeEntry) : State :=
    if ended x.2 then u.closeMerge (tenOf s x.2.core) (sp x.1) (addr x.1) x.2 else u
  s.hbm.merges.foldl (close (fun _ => .hbm) id)
    (s.cores.merges.foldl (close (fun k => .cs (Fin.ofNat 64 (k / csWords))) (· % csWords)) s)

/-- `n` ticks pass. -/
def State.pass (s : State) (n : Nat) : State :=
  if clockOn s && n ≠ 0 then
    let s1 := (tenancies s).foldl (fun (u : State) t => (u.countIdle t n).addStall t n) s
    let w := swallowed s s.now n
    let s2 := if w = 0 then s1 else s1.countChip 0xA0 w
    let h := s.time.msHold + n
    let s3 := if s.time.pll = .holdover then
        { (s2.countChip 0 (h / 1800000)) with time := { s2.time with msHold := h % 1800000 } }
      else s2
    ({ s3 with time := { s3.time with tally := s3.time.tally + BitVec.ofNat 64 n } }).settleMerges
  else s

/-- Time passes to tally `v`, if it lies ahead. -/
def State.passTo (s : State) (v : Nat) : State := s.pass (v - s.now)

end Sys2Proof.Machine
end

