-- ==== Sys2Proof/Machine/MatrixRun.lean ====
section
/-! DEFINITION. Products on the engines: their cycles, hazards and core-store reads, the rows that wait for a bank, paired broadcasts and alternating pairs (04 R82 to R90, R96 to R99, R577; 05 R113 to R115, R119; 08 R199 to R202; 11 R286, R287). -/

namespace Sys2Proof.Machine

open Sys2Proof

/-! ### Cycles (04 R85 to R87, R98, R99; 11 R286) -/

/-- Cycles from one vector to the next (04 R85, R99). -/
def Prod.step (p : Prod) : Nat := if p.mode = 2 then 8 else 1

/-- Cycles of one K-block window. -/
def windowLen (p : Prod) : Nat := if p.mode = 2 then 1024 else if p.pf = 0 then 768 else 128

/-- The offset of the accumulator write from the broadcast (04 Table 04.1, R99). -/
def writeOff (p : Prod) : Nat :=
  if p.mode = 2 then 12 else if fmtOf p.pf = Fmt.e2m1 then 5 else if isShingled p.pf then 6 else 7

/-- The windows a product takes: one per K-block, or per span under structured sparsity (05 R113). -/
def windows (p : Prod) : Nat := ceilDiv p.blocks.length (spanBlocks p.sparse)

/-- The cycle at which a descriptor's first load opens: its issue, or when buffer 0 of every engine is free (11 R286). -/
def loadStart (s : State) (c : Core) (engs : List Nat) (now : Nat) : Nat :=
  engs.foldl (fun a e => max a (if (s.engine c e).buf0Last = 0 then 0 else (s.engine c e).buf0Last + 1)) now

/-- The first vector's cycle, from the issue cycle and the engines' buffers (11 R286). -/
def firstVector (s : State) (c : Core) (engs : List Nat) (now : Nat) : Nat :=
  max (loadStart s c engs now + 127) (now + 128)

/-- Windows of a product that begin `period` cycles apart: the first one's cycle, the period and how many. -/
abbrev Sched := List (Nat × Nat × Nat)

/-- The windows of a product that has the broadcast to itself, its first vector in cycle `s0`. -/
def plainSched (p : Prod) (s0 : Nat) : Sched := [(s0, windowLen p, windows p)]

/-- The windows of the two chains of an alternating descriptor (08 R199, R201): in turn while both have K-blocks, then the plain
cadence of the one that is left. -/
def altSched (s0 n0 n1 : Nat) : Sched × Sched :=
  (if n0 ≤ n1 then [(s0, 256, n0)] else [(s0, 256, n1 + 1), (s0 + 128 * (2 * n1 + 1), 128, n0 - n1 - 1)],
   if n1 ≤ n0 then [(s0 + 128, 256, n1)] else [(s0 + 128, 256, n0), (s0 + 256 * n0, 128, n1 - n0)])

/-- The last vector's cycle. -/
def lastVector (p : Prod) (w : Sched) : Nat :=
  w.foldl (fun a x => max a (x.1 + x.2.1 * (x.2.2 - 1))) 0 + (if p.pf = 0 then 640 else 0) + p.step * (p.m - 1)

/-- Terms of a product in the engine of rank `k`, into a bank. -/
def Prod.run (p : Prod) (k bank : Nat) (hand : Bool) (w : Nat × Nat × Nat) : TermRun :=
  { bank, hand, row := p.rb, rows := p.m, h0 := p.isOpen k 0, h1 := p.isOpen k 1, first := w.1 + writeOff p, period := w.2.1,
    reps := w.2.2, step := p.step }

/-- The terms of a product on an engine: those into its own bank, and the writes of its handoff. The last term of the final K-block
is handed off (04 R89): of an FP32 product, that of its sixth pass (DESIGN CHOICE, log entry 61). -/
def Prod.terms (p : Prod) (k : Nat) (w : Sched) : List TermRun × List TermRun :=
  let ws : Sched := if p.pf = 0 then w.map (fun x => (x.1, 128, 6 * x.2.2)) else w
  if p.handoff then
    (ws.filterMap (fun x => if x.2.2 = 1 then none else some (p.run k p.bank false (x.1, x.2.1, x.2.2 - 1))),
     ws.map (fun x => p.run k 1 true (x.1 + x.2.1 * (x.2.2 - 1), x.2.1, 1)))
  else (ws.map (p.run k p.bank false), [])

/-- The cycle of a run's last write. -/
def TermRun.last (t : TermRun) : Nat := t.first + t.period * (t.reps - 1) + t.step * (t.rows - 1)

/-- Whether a run writes its `i`-th row in a cycle from `lo` to `hi`. -/
def TermRun.hits (t : TermRun) (i lo hi : Nat) : Bool :=
  let w := t.first + t.step * i
  decide (w ≤ hi) && decide (lo ≤ w + t.period * min (t.reps - 1) ((hi - w) / max 1 t.period))

/-- When each buffer is last read, of `n` windows `len` cycles apart that take the buffers in turn, each read until `read` cycles
after its first vector (04 R86, R87). -/
def bufReads (s0 n len read : Nat) : Nat × Option Nat :=
  (s0 + len * (if n % 2 = 1 then n - 1 else n - 2) + read,
   if n = 1 then none else some (s0 + len * (if n % 2 = 0 then n - 1 else n - 2) + read))

/-- When each buffer is last read by a product alone. In an FP32 product each K-block's h′ and l′ stand in one buffer and its m′ in
the other, and K-blocks take the roles in turn (04 Table 04.6). -/
def lastReads (p : Prod) (s0 : Nat) : Nat × Option Nat :=
  if p.pf = 0 then
    let x := s0 + 768 * (windows p - 1)
    if windows p % 2 = 1 then (x + 640 + p.m, some (x + 512 + p.m)) else (x + 512 + p.m, some (x + 640 + p.m))
  else bufReads s0 (windows p) (windowLen p) (p.step * p.m)

/-- The first cycle in which buffer 1 is loaded, where it is (04 R86, Table 04.6). -/
def buf1Load (p : Prod) (s0 n : Nat) : Option Nat := if p.pf = 0 then some s0 else if n = 1 then none else some (s0 + 1)

/-- A load into buffer 1 that would come before its last reader is done (04 R87, Table 04.5 cause 1). Buffer 0 is waited for, and a
load always ends in the cycle of its first vector, so cause 2 cannot arise. -/
def loadHazard (s : State) (c : Core) (p : Prod) (s0 n : Nat) : Bool :=
  match buf1Load p s0 n with
  | some x => p.engs.any (fun e => decide (x ≤ (s.engine c e).buf1Last))
  | none => false

/-! ### Core-store reads (04 R85, R86, R98, R99; 05 R113 to R115) -/

/-- The open halves of the engine of rank `k`. -/
def Prod.halvesOf (p : Prod) (k : Nat) : Nat := ((upTo p.halves).filter (p.isOpen k)).length

/-- The reads of loads that begin as `w` says: elements, and the shingle and index words beside them. -/
def loadPorts (p : Prod) (w : Nat × Nat × Nat) : List PortRun :=
  let run (off burst rd : Nat) : PortRun := { first := w.1 + off, period := w.2.1, burst, reps := w.2.2, rd }
  (upTo p.engs.length).flatMap (fun k =>
    let h := p.halvesOf k
    if p.pf = 0 then [run 0 128 (4 * h)] else
    run 0 128 (2 * h) ::
      (if p.sparse ≠ 0 then
        if fmtOf p.qf = Fmt.e2m1 then run 0 (64 * h) 2 :: (upTo (8 * h)).map (fun i => run (8 * i) 1 1)
        else if isShingled p.qf then run 0 (64 * h) 1 :: (upTo (4 * h)).map (fun i => run (16 * i) 1 1)
        else [run 0 (32 * h) 1]
      else if p.shingled p.qf then [run 0 (8 * h) 1] else []))

/-- The reads of the broadcast in windows `w`: vectors, and a shingle word for every 16 rows of each K tile (04 R85). A paired core
reads its half, PAIR_HOP cycles earlier (05 R115). -/
def castPorts (s : State) (p : Prod) (w : Nat × Nat × Nat) : List PortRun :=
  if p.pf = 0 then [{ first := w.1, period := 128, burst := p.m, reps := 6 * w.2.2, rd := 4 }]
  else if p.mode = 2 then (upTo w.2.2).map (fun k => { first := w.1 + w.2.1 * k, period := 8, burst := 1, reps := p.m, rd := 2 })
  else
    let part := if p.paired then 2 else 1
    let x := w.1 - (if p.paired then pairHop s else 0)
    let tiles := max 1 (spanBlocks p.sparse * p.bk / 128 / part)
    { first := x, period := w.2.1, burst := p.m, reps := w.2.2, rd := 2 * spanBlocks p.sparse / part }
      :: (if p.shingled p.pf then (upTo (ceilDiv (p.m + p.rb % 16) 16)).map (fun j =>
            { first := x + (16 * j - p.rb % 16), period := w.2.1, burst := 1, reps := w.2.2, rd := tiles }) else [])

/-- The tile scales that the anchor logic reads (03 R57), at most as many a cycle as its tiles need over the first load; the spec dates
no such read (DESIGN CHOICE, log entry 17). -/
def anchorPorts (p : Prod) (now : Nat) : List PortRun :=
  if p.mode ≠ 0 || bitB p.d 78 then [] else
    let np := if isShingled p.pf then p.kts * (p.rows.foldl (fun l r => insertNew l r.1) []).length else 0
    let nq := if isShingled p.qf then p.kts * p.openTiles.length else 0
    [{ first := now, period := 128, burst := 128, reps := 1, scl := ceilDiv (np + nq) 128 }]

/-- The reads of windows `w`: every window but the first is loaded in the 128 cycles that end with its first vector's. -/
def schedPorts (s : State) (p : Prod) (w : Sched) : List PortRun :=
  w.flatMap (castPorts s p) ++ (match w with
    | [] => []
    | x :: rest => loadPorts p (x.1 + x.2.1 - (windowLen p - 1), x.2.1, x.2.2 - 1)
        ++ rest.flatMap (fun y => loadPorts p (y.1 - (windowLen p - 1), y.2.1, y.2.2)))

/-- Core-store reads of a product alone, issued in cycle `now`: `l0` is the first load's cycle, `s0` the first vector's. -/
def prodPorts (s : State) (p : Prod) (now l0 s0 : Nat) : List PortRun :=
  let n := windows p
  anchorPorts p now ++ loadPorts p (l0, 128, 1) ++
    (if p.pf = 0 then
      castPorts s p (s0, 768, n) ++ loadPorts p (s0, 128, 1) ++ loadPorts p (s0 + 769, 768, n - 1) ++ loadPorts p (s0 + 385, 768, n)
        ++ loadPorts p (s0 + 641, 768, n - 1)
    else schedPorts s p (plainSched p s0))

/-! ### Rows and their hazards (04 R90, R96, R577) -/

/-- The cycle in which the running drain of an engine reads the last value of row `r` (04 R91, R92). -/
def Engine.drainPass (g : Engine) (r : Nat) : Nat :=
  if g.drainCol then g.drainFrom + (128 * g.drainHalves - 1) * (g.drainRows / g.drainPace) + r / g.drainPace
  else g.drainFrom + 128 * g.drainHalves / g.drainPace * (r + 1) - 1

/-- When a drain or preload that runs in cycle `now` has passed row `r`, half `h` of a bank; 0 where none does (04 R95, R96). -/
def passedAt (g : Engine) (bank r h now : Nat) : Nat :=
  let dr := if g.drainTo ≠ 0 && now ≤ g.drainTo && g.drainBank = decide (bank = 1) && r < g.drainRows && h < g.drainHalves then g.drainPass r else 0
  let pr := if bank = 0 && g.preTo ≠ 0 && now ≤ g.preTo + 2 && h < g.preHalves then g.preFrom + 4 * g.preHalves * (r + 1) + 1 else 0
  max dr pr

/-- The first cycle in which a term would enter a row that is not free: passed by no running drain or preload, or, where the terms
begin a chain, still bound (04 R90, R96, R577). -/
def clashAt (s : State) (c : Core) (e bank : Nat) (fresh : Bool) (now : Nat) (ts : List TermRun) : Option Nat :=
  (ts.flatMap (fun t => (upTo t.rows).flatMap (fun i => (upTo 2).filterMap (fun h =>
    if t.covers (t.row + i) h && ((fresh && (boundAt s c e bank (t.row + i) h).isSome)
        || decide (t.first + t.step * i ≤ passedAt (s.engine c e) bank (t.row + i) h now))
    then some (t.first + t.step * i) else none)))).min?

/-- Whether a row of a chain carries another anchor (03 R62). -/
def anchorClash (s : State) (c : Core) (p : Prod) : Bool :=
  p.mode = 0 && p.chain && p.openTiles.any (fun (x : Nat × Nat × Nat) => (upTo p.m).any (fun r =>
    match boundAt s c x.1 (nth p.src 0 x.2.1) (p.rb + r) x.2.2 with
    | some b => decide (b.anchor ≠ (p.chainOf (x.2.1 * p.halves + x.2.2) r).anchor)
    | none => false))

/-- Whether a heritage descriptor continues its rows as R80 asks: the next K-block of a heritage chain, and no ledger partial. Rows
that no heritage product wrote let it start at any K-block. -/
def herContinues (s : State) (c : Core) (p : Prod) : Bool :=
  p.mode ≠ 2 || !p.chain || p.openTiles.all (fun (x : Nat × Nat × Nat) => (upTo p.m).all (fun r =>
    match boundAt s c x.1 (nth p.src 0 x.2.1) (p.rb + r) x.2.2 with
    | some b => !b.part && (!b.her || b.next = p.k0)
    | none => true))

/-- Rows of an engine's place given back: contents and bindings gone. -/
def State.freeRows (s : State) (c : Core) (e place : Nat) (rows : List Nat) (halves : List Nat) : State :=
  let a := accKey c e place 0 0
  let b := bindKey c e place 0 0
  { s with cores := { s.cores with
      acc := s.cores.acc.filter (fun x => !(decide (a ≤ x.1) && decide (x.1 < a + 32768) && rows.contains ((x.1 - a) / 256) && halves.contains ((x.1 - a) % 256 / 128)))
      bind := s.cores.bind.filter (fun x => !(decide (b ≤ x.1) && decide (x.1 < b + 256) && rows.contains ((x.1 - b) / 2) && halves.contains ((x.1 - b) % 2))) } }

/-- All of a place given back. -/
def State.freePlace (s : State) (c : Core) (e place : Nat) : State :=
  { s with cores := { s.cores with
      acc := clearRange s.cores.acc (accKey c e place 0 0) 32768
      bind := clearRange s.cores.bind (bindKey c e place 0 0) 256 } }

/-- The contents and bindings of a place moved into a bank. -/
def State.movePlace (s : State) (c : Core) (e place bank : Nat) : State :=
  let a := accKey c e place 0 0
  let b := bindKey c e place 0 0
  let as := s.cores.acc.filter (fun x => decide (a ≤ x.1) && decide (x.1 < a + 32768))
  let bs := s.cores.bind.filter (fun x => decide (b ≤ x.1) && decide (x.1 < b + 256))
  let u := s.freePlace c e place
  { u with cores := { u.cores with
      acc := as.foldl (fun m x => put {} m (x.1 - a + accKey c e bank 0 0) x.2) u.cores.acc
      bind := bs.foldl (fun m x => set m (x.1 - b + bindKey c e bank 0 0) x.2) u.cores.bind } }

/-- Whether two runs of terms share a row. -/
def TermRun.meets (t u : TermRun) : Bool :=
  decide (t.row < u.row + u.rows) && decide (u.row < t.row + t.rows) && ((t.h0 && u.h0) || (t.h1 && u.h1))

/-- One thing that waits for a bank of an engine looked at again: it enters the bank when its rows are free and nothing older waits
for them (04 R90, R577); else the cycle of its first clash is kept. -/
def State.settle1 (c : Core) (e : Nat) (s : State) (w : Wait) : State :=
  let g := s.engine c e
  let older := (g.waits.takeWhile (fun v => v.slot ≠ w.slot)).any (fun v => v.bank = w.bank && v.runs.any (fun t => w.runs.any t.meets))
  let due := clashAt s c e w.bank true (unitClock s c) w.runs
  if older then s
  else if due.isNone then
    (s.movePlace c e w.slot w.bank).setEngine c e { g with waits := g.waits.filter (fun v => v.slot ≠ w.slot), terms := g.terms ++ w.runs }
  else s.setEngine c e { g with waits := g.waits.map (fun v => if v.slot = w.slot then { v with due := due } else v) }

/-- What waits for the banks of an engine looked at again, oldest first. -/
def State.settle (s : State) (c : Core) (e : Nat) : State := (s.engine c e).waits.foldl (State.settle1 c e) s

/-- A bank of an engine released without output, with nothing in flight. -/
def State.release (s : State) (c : Core) (e bank : Nat) : State := (s.freePlace c e bank).settle c e

/-- What an engine fault leaves of its set: no further term, and every row released without output (04 R97). -/
def State.dropSet (s : State) (c : Core) (engs : List Nat) : State :=
  engs.foldl (fun (s : State) e =>
    let g := s.engine c e
    let s1 := g.waits.foldl (fun (s : State) w => s.freePlace c e w.slot) ((s.freePlace c e 0).freePlace c e 1)
    s1.setEngine c e { g with terms := [], waits := [] }) s

/-- A program fault of an operation abandons its descriptor on its engine set (04 R97). -/
def abandon (c : Core) (engs : List Nat) (s : State) (r : Res State) : Res State :=
  match r with
  | .error (.fault code d) => .error (.after (s.dropSet c engs) code d)
  | .error (.after u code d) => .error (.after (u.dropSet c engs) code d)
  | x => x

/-- How many schedule cycles of a tenancy are left, on each core of a running course, to a hazard of `pastDue`. -/
def dueCycles (s : State) : List (Nat × Nat) :=
  let at' (k d : Nat) : Option (Nat × Nat) :=
    let c : Core := Fin.ofNat 64 k
    match tenOf s c with
    | some t => if advancing s t && !(seqOf s c).ended then some (t, d + 1 - unitClock s c) else none
    | none => none
  (s.cores.engines.flatMap (fun (x : Nat × Engine) => (x.2.waits.filterMap (·.due)).filterMap (at' (x.1 / 4))))
    ++ s.cores.pairs.filterMap (fun (x : Nat × PairWait) => at' x.1 x.2.first)

/-- The hazards of terms whose cycle has come while their rows were not free (04 R90, R577), and paired halves whose partner's never
came (05 R115; DESIGN CHOICE, log entry 20), on the cores of a tenancy. -/
def State.pastDue (s : State) (t : Nat) : State :=
  let s1 := s.cores.engines.foldl (fun (s : State) (x : Nat × Engine) =>
    let c : Core := Fin.ofNat 64 (x.1 / 4)
    match (s.engine c (x.1 % 4)).waits.find? (fun w => w.due.any (fun d => decide (d < unitClock s c))) with
    | some w => if tenOf s c = some t then
        (s.dropSet c w.set).progFaultAt c w.page.toNat w.bundle 0 0x10 (if w.bank = 1 && w.runs.any (·.hand) then 4 else 5) else s
    | none => s) s
  s1.cores.pairs.foldl (fun (s : State) (x : Nat × PairWait) =>
    let c : Core := Fin.ofNat 64 x.1
    if tenOf s c = some t && decide (x.2.first < unitClock s c) then
      let s2 : State := { s with cores := { s.cores with pairs := del s.cores.pairs x.1 } }
      (s2.dropSet c (setOf (bitsN x.2.desc 7 4))).progFaultAt c x.2.page.toNat x.2.bundle 0 0x17 0
    else s) s1

/-- Time passes to tally `v`, each hazard that falls before it raised in its cycle. -/
def State.runTo (s : State) (v : Nat) : State :=
  ((tenancies s).foldl (fun (u : State) _ =>
    match ((dueCycles u).map (fun x => tallyAt u x.1 x.2)).min? with
    | some w => if w ≤ v then (tenancies u).foldl State.pastDue (u.passTo w) else u
    | none => u) s).passTo v

/-! ### Running a product -/

/-- The bindings of a product's rows to its anchors; a handoff unbinds the rows it leaves (04 R89, R90, R97). -/
def bindRows (c : Core) (p : Prod) (m : Sparse Chain) : Sparse Chain :=
  p.openTiles.foldl (fun (m : Sparse Chain) (x : Nat × Nat × Nat) => (upTo p.m).foldl (fun m r =>
    let m1 := if p.handoff then del m (bindKey c x.1 (nth p.src 0 x.2.1) (p.rb + r) x.2.2) else m
    set m1 (bindKey c x.1 (nth p.dst 0 x.2.1) (p.rb + r) x.2.2) (p.chainOf (x.2.1 * p.halves + x.2.2) r)) m) m

/-- The contents of the rows a handoff leaves, gone from their place (04 R89). -/
def leaveRows (c : Core) (p : Prod) (s : State) : State :=
  if p.handoff then
    p.engs.zipIdx.foldl (fun (s : State) (e : Nat × Nat) =>
      s.freeRows c e.1 (nth p.src 0 e.2) ((upTo p.m).map (p.rb + ·)) ((upTo p.halves).filter (p.isOpen e.2))) s
  else s

/-- Terms given to an engine: to its bank, or to what waits for it. -/
def Engine.take (g : Engine) (c : Core) (s : State) (e place bank now : Nat) (fresh : Bool) (p : Prod) (ts : List TermRun) : Engine :=
  if ts = [] then g
  else if place < 2 then
    if fresh && place = bank then
      let live := g.terms.filter (fun t => decide (now ≤ t.last))
      { g with terms := live ++ ts }
    else { g with terms := g.terms ++ ts }
  else if g.waits.any (fun w => w.slot = place) then
    { g with waits := g.waits.map (fun w => if w.slot = place then { w with runs := w.runs ++ ts } else w) }
  else
    { g with waits := g.waits ++ [⟨bank, place, ts, clashAt s c e bank true now ts, p.engs, (seqOf s c).page, (seqOf s c).bundle⟩] }

/-- The place that the terms of a product's own bank go to: a handoff that starts its rows afresh waits for them where they are taken. -/
def ownPlace (s : State) (c : Core) (p : Prod) (e k : Nat) : Nat :=
  if p.handoff && !p.chain && taken s c p e k p.bank then newPlace (s.engine c e) p.bank + 2
  else if p.handoff then nth p.src 0 k else nth p.dst 0 k

/-- An engine of rank `k` with the terms of a product; `rd` is the state in which its rows were looked at. -/
def Engine.ran (g : Engine) (rd : State) (c : Core) (p : Prod) (e k now : Nat) (w : Sched) : Engine :=
  let ts := p.terms k w
  let g1 := g.take c rd e (ownPlace rd c p e k) p.bank now (!p.chain) p ts.1
  g1.take c rd e (nth p.dst 0 k) 1 now true p ts.2

/-- The waiting upsets that a product of an engine takes: those its code corrects are counted (04 R97), those it cannot are consumed
as poison, and what the residue checks found is reported (04 R103). -/
def State.strike (s : State) (c : Core) (p : Prod) (e k : Nat) (ms : List Miss) : State :=
  let us := s.upsets.filter (takesUpset c p e k)
  let s1 : State := { s with upsets := s.upsets.filter (fun u => !takesUpset c p e k u) }
  let s2 := us.foldl (fun (s : State) u => match u with
    | .buf _ _ w bad => if bad then s.poisonConsumed c (1 + e) 3 (phys s c * 2 ^ 18 + e * 2 ^ 16 + w % 65536) else s.countEng c e 6 1
    | .cast _ _ r bad => if bad then s.poisonConsumed c (1 + e) 3 (phys s c * 2 ^ 18 + e * 2 ^ 16 + 2 ^ 15 + r.toNat) else s.countEng c e 6 1
    | _ => s) s1
  ms.foldl (fun (s : State) m => s.residueMiss c e m) s2

/-- An engine's counts and energy of a product, and what struck it. -/
def State.noteEngine (s : State) (c : Core) (p : Prod) (v : ProdVals) (e k : Nat) : State :=
  let n := p.m * windows p * (if p.pf = 0 then 6 else 1)
  let full := eventEnergy s (mxClass p.pf) n - (if mxClass p.pf = 2 then 0 else eventEnergy s (mxClass p.pf + 3) v.gated)
  (((s.countEng c e 0 n).countEng c e 1 v.gated).chargeCoreE c (full * p.halvesOf k / p.halves) 0x180).strike c p e k
    (v.miss.filterMap (fun x => if x.1 = e then some x.2 else none))

/-- A product's results written: the rows, their bindings, the engines' terms and counters, for windows `w`. -/
def finishProd (s : State) (c : Core) (p : Prod) (v : ProdVals) (now : Nat) (w : Sched) : State :=
  let s0 := leaveRows c p s
  let s1 : State := { s0 with cores := { s0.cores with
    acc := v.accs.foldl (fun (m : Sparse Acc) (e : Nat × Acc) => put {} m e.1 e.2) s0.cores.acc
    bind := bindRows c p s0.cores.bind } }
  let s2 := p.engs.zipIdx.foldl (fun (u : State) (e : Nat × Nat) =>
    (u.setEngine c e.1 ((u.engine c e.1).ran s c p e.1 e.2 now w)).noteEngine c p v e.1 e.2) s1
  if p.mapped then s2.countCore c 0x170 ((512 - p.m) * p.blocks.length) else s2

/-- What a product's operand reads and weight loads leave. -/
def noteProd (rd s : State) (c : Core) (p : Prod) (o : ProdOps) : State :=
  let unit := 1 + nth p.engs 0 0
  let ptiles : List Int := p.blocks.flatMap (fun b => p.rows.map (fun r => p.opP.tile ((p.kTile b).1 + r.1 * p.kts) p.x 0 0))
  let s1 := if p.shingled p.pf then
      (ptiles.foldl (fun l n => insertNew l n) []).foldl (fun (s : State) n => s.noteTile c unit p.opP.region n) s else s
  let s2 := if p.shingled p.qf then o.qts.foldl (fun (s : State) v => s.noteTile c unit p.opQ.region v.1) s1 else s1
  (s2.chargeCore c 5 (o.qs.flatMap (·.els)).length 0x180).consume rd c unit (.cs c) o.reads

/-- The words of a load as the buffer holds them. -/
def QWords.held (rd : State) (c : Core) (q : List QWords) : WBuf :=
  let get (as : List Nat) : List MemWord := as.map (readWord rd (.cs c))
  { words := get (q.flatMap (·.els)), sh := get (q.flatMap (·.sh)), idx := get (q.flatMap (·.idx)) }

/-- What a buffer holds of window `i` of a product, in the engine of rank `k`. -/
def windowBuf (rd : State) (c : Core) (p : Prod) (o : ProdOps) (k i : Nat) : WBuf :=
  let n := spanBlocks p.sparse
  QWords.held rd c ((upTo n).filterMap (fun j => if n * i + j < p.blocks.length then o.qs[(n * i + j) * p.engs.length + k]? else none))

/-- The weight buffers of the engine of rank `k` after a product alone: an FP32 product's hold the K-block split between them, which
the model keeps as the words loaded. -/
def Engine.loaded (g : Engine) (rd : State) (c : Core) (p : Prod) (o : ProdOps) (k s0 : Nat) : Engine :=
  let n := windows p
  let r := lastReads p s0
  let i0 := if p.pf = 0 || n % 2 = 1 then n - 1 else n - 2
  let i1 := if p.pf = 0 || n % 2 = 0 then n - 1 else n - 2
  { g with buf0Last := r.1, buf1Last := r.2.getD g.buf1Last, buf0 := windowBuf rd c p o k i0,
           buf1 := if r.2.isSome then windowBuf rd c p o k i1 else g.buf1 }

/-- The broadcast of a core taken until a cycle. -/
def State.takeCast (s : State) (c : Core) (last : Nat) : State :=
  { s with cores := { s.cores with bcast := put 0 s.cores.bcast c.val last } }

/-- The first vector's cycle of `MRUN`. -/
def runFirst (rd : State) (c : Core) (p : Prod) : Nat := firstVector rd c p.engs (unitClock rd c)

/-- The hazards of windows `w` on the rows of a product: none where they wait, and the detail where one is certain (04 R90, R96). -/
def rowClash (rd : State) (c : Core) (p : Prod) (w : Sched) : Option Nat :=
  let now := unitClock rd c
  p.engs.zipIdx.findSome? (fun (e : Nat × Nat) =>
    let ts := p.terms e.2 w
    if ownPlace rd c p e.1 e.2 = p.bank && (clashAt rd c e.1 p.bank false now ts.1).isSome then some 5
    else if nth p.dst 0 e.2 = 1 && (clashAt rd c e.1 1 false now ts.2).isSome then some 4 else none)

/-- The checks of `MRUN`, its descriptor resolved (11 R286). -/
def runPlan (c : Core) (p : Prod) (rd : State) : Res ProdOps := do
  need (herContinues rd c p) 0x12
  let s0 := runFirst rd c p
  need (!loadHazard rd c p s0 (windows p)) 0x10 1
  need (decide (look rd.cores.bcast 0 c.val < s0)) 0x10 3
  need (rowClash rd c p (plainSched p s0)).isNone 0x10 ((rowClash rd c p (plainSched p s0)).getD 5)
  need (!anchorClash rd c p) 0x11
  prodOps rd c p

/-- What a product leaves, whose first vector is in cycle `s0`; `q` is the partner of a paired one. -/
def runRun (c : Core) (p : Prod) (o : ProdOps) (v : ProdVals) (s0 : Nat) (rd s : State) : State :=
  let w := plainSched p s0
  let s1 := (noteProd rd (finishProd s c p v (unitClock rd c) w) c p o).takeCast c (lastVector p w)
  p.engs.zipIdx.foldl (fun (s : State) (e : Nat × Nat) => s.setEngine c e.1 ((s.engine c e.1).loaded rd c p o e.2 s0)) s1

/-! ### Paired broadcast (05 R115) -/

/-- The other core of a pair: the next column of an even one, the column before an odd one. -/
def partnerOf (c : Core) : Core := if c.val % 2 = 0 then Fin.ofNat 64 (c.val + 1) else Fin.ofNat 64 (c.val - 1)

/-- Whether two descriptors of a pair agree: identifier, row count, K start and span count. -/
def pairAgree (p : Prod) (d : BitVec 512) : Bool :=
  bitB d 93 && decide (bitsN p.d 97 94 = bitsN d 97 94) && decide (bitsN p.d 23 19 = bitsN d 23 19)
    && decide (bitsN p.d 53 29 = bitsN d 53 29)
    && decide (ceilDiv (bitsN p.d 77 54) (spanBlocks p.sparse) = ceilDiv (bitsN d 77 54) (spanBlocks (bitsN d 17 16)))

/-- The first of a pair to issue: it owns its broadcast and waits for its partner. -/
def pairHold (c : Core) (p : Prod) (s0 : Nat) (s : State) : State :=
  let q := seqOf s c
  let s1 : State := { s with cores := { s.cores with pairs := set s.cores.pairs c.val ⟨s0, p.d, p.x, p.xq, q.page, q.bundle⟩ } }
  s1.takeCast c (lastVector p (plainSched p s0))

/-- The pairing fault on both cores: the partner's descriptor is abandoned as well (04 R97). -/
def pairFault (c : Core) (q : PairWait) (s : State) : State :=
  let d := partnerOf c
  let s1 : State := { s with cores := { s.cores with pairs := del s.cores.pairs d.val } }
  (s1.dropSet d (setOf (bitsN q.desc 7 4))).progFaultAt d q.page.toNat q.bundle 0 0x17 0

/-- The uses that the broadcasts of a pair make of the link between its cores, 132 B a cycle each way (05 R115). -/
def pairLinks (rd : State) (c : Core) (p : Prod) (s0 : Nat) : List (Nat × MeshUse) :=
  let q := seqOf rd c
  let n := 33 * (lastVector p (plainSched p s0) + 1 - s0)
  [(4 * c.val + c.val % 2, { core := c, page := q.page, bundle := q.bundle, slot := 0, start := s0 - pairHop rd, units := n, rate := 33 })]

/-- The second of a pair: both products run, each vector's halves read by the two cores, each on its own unit clock; more than the
link between them carries is the mesh-conflict fault (10 R267). -/
def pairRun (c : Core) (p : Prod) (o : ProdOps) (q : PairWait) (s0 : Nat) (rd s : State) : Res State := do
  let d := partnerOf c
  let p2 ← prepare rd d q.desc 0 q.x q.xq
  let o2 ← prodOps rd d p2
  let v ← prodWork rd c p (some (d, p2)) o.qs
  let v2 ← prodWork rd d p2 (some (c, p)) o2.qs
  let s1 : State := { s with cores := { s.cores with pairs := del s.cores.pairs d.val } }
  let t := runRun d p2 o2 v2 q.first rd (runRun c p o v s0 rd s1)
  let uses := pairLinks rd c p s0 ++ pairLinks rd d p2 q.first
  let hits := meshHits s uses
  if hits = [] then return t.takeLinks uses
  else throw (.after (((t.takeLinks uses).meshFaults c hits).progFaultAt d q.page.toNat q.bundle 0 0x1F 0) 0x1F 0)

/-- `MRUN`. -/
def mrunAct (c : Core) (desc : BitVec 10) (rd s : State) : Res State := do
  let d ← latchForm rd c desc 1 [0]
  abandon c (setOf (bitsN d 7 4)) s (do
    let p ← prepare rd c d 0 (bindVal rd c (opndAt d 229 true).bind) (bindVal rd c (opndAt d 348 false).bind)
    let o ← runPlan c p rd
    let s0 := runFirst rd c p
    let now := unitClock rd c
    let s1 ← s.claimPorts c (prodPorts rd p now (loadStart rd c p.engs now) s0)
    if p.paired then
      match find rd.cores.pairs (partnerOf c).val with
      | none => return pairHold c p s0 s1
      | some q => if (q.first : Int) + unitClock rd c = (s0 : Int) + unitClock rd (partnerOf c) && pairAgree p q.desc then pairRun c p o q s0 rd s1 else throw (.after (pairFault c q s1) 0x17 0)
    else
      let v ← prodWork rd c p none o.qs
      return runRun c p o v s0 rd s1)

/-! ### Alternating pairs (08 R199 to R202; 11 R287) -/

/-- The checks of the two descriptors of `MALT` (08 R200, 11 R287). -/
def altFits (d0 d1 : BitVec 512) : Bool :=
  let fits (d : BitVec 512) : Bool :=
    !bitB d 28 && bitsN d 3 2 = 0 && bitsN d 17 16 = 0 && bitsN d 82 81 = 0 && bitsN d 23 19 = 16 && bitsN d 11 8 ≠ 0
  fits d0 && fits d1 && bitsN d0 7 4 = bitsN d1 7 4 && elemBits (bitsN d0 11 8) = elemBits (bitsN d1 11 8)

/-- The checks of `MALT`, its descriptors resolved. -/
def altPlan (c : Core) (p0 p1 : Prod) (rd : State) : Res (ProdOps × ProdOps) := do
  let s0 := firstVector rd c p0.engs (unitClock rd c)
  let w := altSched s0 (windows p0) (windows p1)
  need (!loadHazard rd c p0 s0 (windows p0 + windows p1)) 0x10 1
  need (decide (look rd.cores.bcast 0 c.val < s0)) 0x10 3
  need (p0.engs.all (fun e => (upTo 128).all (fun r => (upTo 2).all (fun h => !((boundAt rd c e 1 r h).getD {}).hand)))) 0x10 4
  need ((rowClash rd c p0 w.1).isNone && (rowClash rd c p1 w.2).isNone) 0x10 5
  need (!anchorClash rd c p0 && !anchorClash rd c p1) 0x11
  let o0 ← prodOps rd c p0
  let o1 ← prodOps rd c p1
  return (o0, o1)

/-- The chain and K-block of window `w` of an alternating descriptor. -/
def altWindow (n0 n1 w : Nat) : Bool × Nat :=
  if w < 2 * min n0 n1 || (n1 < n0 && w = 2 * n1) then (decide (w % 2 = 1), w / 2)
  else if n1 < n0 then (false, w - n1) else (true, w - n0)

/-- The weight buffers of the engine of rank `k` after an alternating descriptor: windows take them in turn (08 R199, R201). -/
def Engine.altLoaded (g : Engine) (rd : State) (c : Core) (p0 p1 : Prod) (o : ProdOps × ProdOps) (k s0 : Nat) : Engine :=
  let n := windows p0 + windows p1
  let r := bufReads s0 n 128 128
  let buf (i : Nat) : WBuf :=
    let x := altWindow (windows p0) (windows p1) i
    if x.1 then windowBuf rd c p1 o.2 k x.2 else windowBuf rd c p0 o.1 k x.2
  { g with buf0Last := r.1, buf1Last := r.2.getD g.buf1Last, buf0 := buf (if n % 2 = 1 then n - 1 else n - 2),
           buf1 := buf (if n % 2 = 0 then n - 1 else n - 2) }

/-- What `MALT` leaves: one product after the other. -/
def altRun (c : Core) (p0 p1 : Prod) (o : ProdOps × ProdOps) (v : ProdVals × ProdVals) (rd s : State) : State :=
  let now := unitClock rd c
  let s0 := firstVector rd c p0.engs now
  let w := altSched s0 (windows p0) (windows p1)
  let s1 := noteProd rd (finishProd s c p0 v.1 now w.1) c p0 o.1
  let s2 := (noteProd rd (finishProd s1 c p1 v.2 now w.2) c p1 o.2).takeCast c (max (lastVector p0 w.1) (lastVector p1 w.2))
  p0.engs.zipIdx.foldl (fun (s : State) (e : Nat × Nat) => s.setEngine c e.1 ((s.engine c e.1).altLoaded rd c p0 p1 o e.2 s0)) s2

/-- The core-store reads of `MALT`. -/
def altPorts (s : State) (p0 p1 : Prod) (now l0 s0 : Nat) : List PortRun :=
  let w := altSched s0 (windows p0) (windows p1)
  anchorPorts p0 now ++ anchorPorts p1 now ++ loadPorts p0 (l0, 128, 1) ++ schedPorts s p0 w.1
    ++ (w.2.flatMap (fun x => castPorts s p1 x ++ loadPorts p1 (x.1 - 127, x.2.1, x.2.2)))

/-- `MALT`. -/
def maltAct (c : Core) (desc0 desc1 : BitVec 10) (rd s : State) : Res State := do
  let d0 ← latchForm rd c desc0 1 [0]
  abandon c (setOf (bitsN d0 7 4)) s (do
    let d1 ← latchForm rd c desc1 1 [0]
    need (altFits d0 d1) 0x12
    let p0 ← prepare rd c d0 0 (bindVal rd c (opndAt d0 229 true).bind) (bindVal rd c (opndAt d0 348 false).bind)
    let p1 ← prepare rd c d1 1 (bindVal rd c (opndAt d1 229 true).bind) (bindVal rd c (opndAt d1 348 false).bind)
    let o ← altPlan c p0 p1 rd
    let v0 ← prodWork rd c p0 none o.1.qs
    let v1 ← prodWork rd c p1 none o.2.qs
    let now := unitClock rd c
    let s1 ← s.claimPorts c (altPorts rd p0 p1 now (loadStart rd c p0.engs now) (firstVector rd c p0.engs now))
    return altRun c p0 p1 o (v0, v1) rd s1)

end Sys2Proof.Machine
end

