-- ==== Sys2Proof/Machine/MatrixDrain.lean ====
section
/-! DEFINITION. The ends of a chain: preload, drain and release (03 R67 to R71, R79; 04 R91 to R96, R102; 08 R196 to R198, R202 to R205, R212 to R214; 11 R288, R289, R291, Tables 11.3, 11.6, 11.8). -/

namespace Sys2Proof.Machine

open Sys2Proof

/-! ### Preload (11 R289, Table 11.8) -/

/-- Rows of a bank into which something is still in flight, or for which something waits (11 R289). -/
def inFlight (g : Engine) (bank : Nat) (now : Nat) : Bool :=
  g.terms.any (fun t => t.bank = bank && decide (now ≤ t.last)) || g.waits.any (fun w => w.bank = bank)
  || (bank = 0 && decide (g.preTo ≠ 0) && decide (now ≤ g.preTo + 2)) || (decide (g.drainTo ≠ 0) && decide (now ≤ g.drainTo) && g.drainBank = decide (bank = 1))

/-- The word of output tile (e, h) of a drain or preload field, and its tile number (11 R291). -/
def outWord (s : State) (c : Core) (o : Opnd) (wt e h : Nat) : Int × Int :=
  (o.word wt 0 (bindVal s c o.bind) e h, o.tile 0 (bindVal s c o.bind) e h)

/-- Words of a tile of 128-bit ledger partials. -/
def partialWords : Nat := 8192

/-- A preload with its checks passed: its engines, halves and form, the anchor of each column tile, and each source tile by
engine, rank, half and first word. -/
structure PrePlan where
  engs    : List Nat
  halves  : Nat
  part    : Bool
  anchors : List Int
  srcs    : List ((Nat × Nat) × Nat × Nat)

/-- Words of a tile that a preload reads. -/
def PrePlan.wt (p : PrePlan) : Nat := if p.part then partialWords else wordsPerTile 0

/-- The words a preload reads. -/
def PrePlan.reads (p : PrePlan) : List Nat := p.srcs.flatMap (fun x => (upTo p.wt).map (x.2.2 + ·))

/-- The checks of a preload descriptor at issue (11 R284, Table 11.8). -/
def preCheck (d : BitVec 512) : Bool :=
  bitsN d 5 2 ≠ 0 && zeroBits d [(255, 43), (511, 417)] && (opndAt d 256 false).bind ≤ 5

/-- The checks of `MPRE`, its descriptor latched (11 R289, 04 R95). -/
def prePlan (c : Core) (d : BitVec 512) (rd : State) : Res PrePlan := do
  need (preCheck d) 0x12
  let engs := setOf (bitsN d 5 2)
  let halves := if bitB d 6 then 1 else 2
  let part := bitB d 7
  let now := unitClock rd c
  need (engs.all (fun e => decide ((rd.engine c e).preTo < now) || decide ((rd.engine c e).preTo = 0))) 0x02
  need (engs.all (fun e => !inFlight (rd.engine c e) 0 now)) 0x10 5
  let o := opndAt d 256 false
  let wt := if part then partialWords else wordsPerTile 0
  let anchors ← (upTo (engs.length * halves)).mapM (fun i => anchorEntry rd c (16 * bitsN d 42 25 + i : Nat))
  let srcs ← engs.zipIdx.flatMapM (fun e => (upTo halves).mapM (fun h => do
    let a ← csRange rd c (outWord rd c o wt e.2 h).1 wt
    return (e, h, a)))
  let p : PrePlan := { engs, halves, part, anchors, srcs }
  needHall rd (.cs c) p.reads (if part then 0xF else 0) (tagIf (bitB d 8) (bitsN d 24 9))
  return p

/-- The content that a preload gives row `r`, column `k` of a tile whose first word is `a` and anchor `A`. -/
def PrePlan.acc (p : PrePlan) (rd : State) (c : Core) (a : Nat) (A : Int) (r k : Nat) : Acc :=
  let i := 128 * r + k
  if p.part then
    let w := readWord rd (.cs c) (a + i / 2)
    { Acc.ofPartial (elemOf 128 (i % 2) w.data) with poison := isPoisoned w }
  else
    let w := readWord rd (.cs c) (a + i / 8)
    { Acc.ofFp32 A (BitVec.ofNat 32 (elemOf 32 (i % 8) w.data)) with poison := isPoisoned w }

/-- The accumulators and bindings with one source tile preloaded into bank 0. -/
def PrePlan.put1 (p : PrePlan) (rd : State) (c : Core) (m : Sparse Acc × Sparse Chain) (x : (Nat × Nat) × Nat × Nat) :
    Sparse Acc × Sparse Chain :=
  let A := nth p.anchors 0 (x.1.2 * p.halves + x.2.1)
  (upTo 128).foldl (fun (m : Sparse Acc × Sparse Chain) r =>
    ((upTo 128).foldl (fun (a : Sparse Acc) k => put {} a (accKey c x.1.1 0 r (128 * x.2.1 + k)) (p.acc rd c x.2.2 A r k)) m.1,
     set m.2 (bindKey c x.1.1 0 r x.2.1) { anchor := BitVec.ofInt 16 A, part := p.part })) m

/-- An engine after a preload that issued in cycle `now`. -/
def Engine.preloaded (g : Engine) (halves now : Nat) : Engine :=
  { g with preFrom := now + 1, preTo := now + 512 * halves, preHalves := halves }

/-- What `MPRE` leaves. -/
def preRun (c : Core) (p : PrePlan) (rd s : State) : State :=
  let r := p.srcs.foldl (p.put1 rd c) (s.cores.acc, s.cores.bind)
  let s1 := { s with cores := { s.cores with acc := r.1, bind := r.2 } }
  let s2 := p.engs.foldl (fun (s : State) e => s.setEngine c e ((s.engine c e).preloaded p.halves (unitClock rd c))) s1
  s2.noteReads (.cs c) p.reads

/-- `MPRE`. -/
def mpreAct (c : Core) (desc : BitVec 10) (rd s : State) : Res State := do
  let d ← latchForm rd c desc 1 [2]
  abandon c (setOf (bitsN d 5 2)) s (do
    let p ← prePlan c d rd
    let s1 ← s.claimPorts c [.solid (unitClock rd c + 1) (512 * p.halves) ((if p.part then 16 else 4) * p.engs.length) 0]
    return preRun c p rd s1)

/-! ### Drain (11 R288, R291, Table 11.6; 04 R91 to R94; 08 R196, R203 to R205) -/

/-- A drain descriptor resolved. -/
structure Drain where
  d      : BitVec 512
  engs   : List Nat
  halves : Nat
  part   : Bool
  fmt    : Nat
  col    : Bool
  both   : Bool
  fmode  : Nat
  sp     : Space
  rows   : List (Nat × Nat × Nat)
  frozen : List Nat
  keep   : Bool
deriving DecidableEq, Repr

/-- The checks of a drain descriptor at issue (04 R92; 08 R196, R203; 11 R284, R290). -/
def drainCheck (d : BitVec 512) : Bool :=
  let f := bitsN d 10 7
  let part := bitB d 11
  let fm := bitsN d 19 18
  let zf := bitsN d 27 24
  let wf := bitsN d 31 28
  let col := bitB d 14
  let o := opndAt d 256 false
  let fits (g : Nat) : Bool := isPlain g || ((3 ≤ g && g ≤ 6) && isColBlocks g == col)
  bitsN d 5 2 ≠ 0 && (part || isPlain f || isShingled f) && bitsN d 33 32 ≠ 1
  && (part || (isColBlocks f == col)) && (!part || (!col && fm = 0))
  && (part || !(isShingled f) || bitsN d 13 12 = 0)
  && (!(bitB d 17) || (!part && isShingled f && !col && bitsN d 13 12 = 0 && bitsN d 33 32 ≠ 2))
  && (fm = 0 || (bitsN d 23 20 ≤ 6 && fits zf)) && (fm ≠ 3 || fits wf)
  && (part || !(isShingled f) || (o.tstep % wordsPerTile f = 0 && o.astride % wordsPerTile f = 0 && o.eaddr % wordsPerTile f = 0))
  && o.bind ≤ 5 && zeroBits d [(255, 246), (511, 479)]

/-- Accumulator row, row tile and logical row of each row the drain writes, and its frozen column tiles, in the order of its own
output tiles' numbers (08 R212 to R214). -/
def drainRows (s : State) (c : Core) (d : BitVec 512) : Res (List (Nat × Nat × Nat) × List Nat) := do
  let whole := (upTo 128).map (fun r => (r, 0, r))
  let mapk := bitsN d 33 32
  if mapk = 0 then return (whole, [])
  let e ← latch s c (bits d 43 34)
  need (decide (e.1.toNat = 4)) 0x12
  let o := opndAt d 256 false
  let x := bindVal s c o.bind
  if mapk = 3 then
    let ns := (setOf (bitsN d 5 2)).zipIdx.flatMap (fun (k : Nat × Nat) => (upTo (if bitB d 6 then 1 else 2)).map (fun h => o.tile 0 x k.2 h))
    return (whole, frozenOf e.2 ns)
  let rows := unfrozen e.2
  need (rows.length % 8 = 0 && decide (8 ≤ rows.length) && decide (rows.length ≤ 128)) 0x12
  return (rows.zipIdx.map (fun i => (i.2, i.1 / 128, i.1 % 128)), [])

/-- The content an engine bank's row gives a drain; a row that nothing has filled holds an unstated value. -/
def drainAcc (s : State) (c : Core) (e bank row col : Nat) : Acc :=
  if (boundAt s c e bank row (col / 128)).isSome then look s.cores.acc {} (accKey c e bank row col)
  else Acc.fp32Of (BitVec.ofNat 32 (Config.freeValue (s.fresh + 256 * row + col)))

/-- The FP32 value of 03 R68, with the heritage scale of R77 step 3. -/
def drainFp32 (s : State) (c : Core) (e bank row col : Nat) (a : Acc) : BitVec 32 :=
  let b := (boundAt s c e bank row (col / 128)).getD {}
  let v := a.toFp32 b.anchor.toInt
  match b.scale with
  | some q => if a.fp32 then herScale v q.1 q.2 else v
  | none => v

/-- The fused value of Table 08.3. -/
def fusedVal (fm func : Nat) (v z w : BitVec 32) : BitVec 32 :=
  match fm with
  | 0 => v
  | 1 => fMul v (funcDer func z)
  | 2 => fMul v (funcVal func z)
  | _ => fMul (fMul v w) (funcDer func z)

/-- The shingle words of a tile whose first is `sh`, each in the store. -/
def shingleRange (s : State) (c : Core) (sp : Space) (fmt : Nat) (sh : Int) (isOut : Bool) : Res Nat :=
  if !isShingled fmt then return 0 else
  match sp with
  | .mbox _ => mboxRange s c sh 8 isOut
  | _ => csRange s c sh 8

/-- The companion tile of output word offset `δ`, with its own base, shingle base and scale (11 R291). -/
def companion (s : State) (c : Core) (base sh fmt region : Nat) (tile : Int) (delta : Int) (bo : Nat) : Res Tile := do
  let x := delta * elemBits fmt
  need (decide (x % bo = 0)) 0x12
  let off := x / bo
  let wt := wordsPerTile fmt
  let a ← csRange s c (base + off) wt
  let h ← shingleRange s c (.cs c) fmt ((sh : Int) + 8 * off / wt) false
  let sc ← if isShingled fmt then tileScale s (tenNo s c) region tile else pure (0, false)
  return ⟨.cs c, fmt, a, h, sc.1, sc.2, false⟩

/-- All the words of a tile, with its shingle words. -/
def Tile.words (v : Tile) : List Nat := (upTo (wordsPerTile v.fmt)).map (v.base + ·)
def Tile.shWords (v : Tile) : List Nat := if isShingled v.fmt then (upTo 8).map (v.sh + ·) else []

/-- The transpose of a tile's values. -/
def turn {α : Type} (d : α) (xs : Array α) : List α :=
  (upTo 16384).map (fun i => xs.getD (128 * (i % 128) + i / 128) d)

/-- Everything a drain of one output tile gives: its main and second outputs, values drained, flagged elements and
non-zero values, its anchor, its rows and columns whose residue byte fails the check (04 R102), and the tiles whose scales it reads. -/
structure Drained where
  main  : Wrote
  snd   : Wrote
  words : List Nat
  n     : Int
  vals  : Nat
  low   : Nat
  nz    : Nat
  anchor : Option (BitVec 16)
  miss   : List Miss
  tiles  : List (Nat × Int)

/-- The stored residue bytes of a drained tile that fail the check against N (04 Table 04.3, R102). Of the K-blocks a row holds none
is named: the model gives index 0 (DESIGN CHOICE, log entry 61). -/
def drainMiss (rd : State) (c : Core) (e bank h : Nat) (rows : List Nat) : List Miss :=
  rows.flatMap (fun r => if (boundAt rd c e bank r h).isSome then
    (upTo 128).filterMap (fun i =>
      if (look rd.cores.acc {} (accKey c e bank r (128 * h + i))).badResidue then some ⟨true, r, 128 * h + i, 0⟩ else none) else [])

/-- The words of one tile of ledger partials (03 R70). -/
def partialOuts (rd : State) (c : Core) (e bank h a : Nat) (accs : List (Nat × Nat)) : List Out :=
  accs.flatMap (fun (r : Nat × Nat) => (upTo 64).map (fun i =>
    let es := [drainAcc rd c e bank r.1 (128 * h + 2 * i), drainAcc rd c e bank r.1 (128 * h + 2 * i + 1)]
    (⟨a + 64 * r.2 + i, wordOf (packWord 128 (es.map Acc.toPartial)) (es.any (·.poison)), 0, es.any (fun v => v.low || v.sat), allBytes⟩ : Out)))

/-- The random words of a drained tile, none in a row of a heritage result that goes to BF16 (03 R79). -/
def drainRng (rd : State) (c : Core) (e bank h fmt : Nat) (rowOf : Nat → Option Nat) (u : Nat → Option Nat) (n i : Int) : Option Nat :=
  let her := fmt = 1 && ((rowOf (i / 128).toNat).bind (fun r => boundAt rd c e bank r h)).any (·.her)
  if her then none else u (elemIndex fmt n i)

/-- One output tile: engine `e` of rank `k`, half `h`, row tile `q`. -/
def drainTile (rd : State) (c : Core) (p : Drain) (bank e k h q : Nat) (u : Nat → Option Nat) : Res Drained := do
  let o := opndAt p.d 256 false
  let x := bindVal rd c o.bind
  let wt := if p.part then partialWords else wordsPerTile p.fmt
  let aw := o.word wt q x k h
  let a ← (match p.sp with | .mbox _ => mboxRange rd c aw wt true | _ => csRange rd c aw wt)
  let n := o.tile q x k h
  let accs := p.rows.filterMap (fun r => if r.2.1 = q then some (r.1, r.2.2) else Option.none)
  let anchor := (accs.findSome? (fun (r : Nat × Nat) => boundAt rd c e bank r.1 h)).map (·.anchor)
  let miss := drainMiss rd c e bank h (accs.map (·.1))
  if p.part then
    let lows := accs.foldl (fun t (r : Nat × Nat) => t + ((upTo 128).filter (fun i =>
      let v := drainAcc rd c e bank r.1 (128 * h + i); v.low || v.sat)).length) 0
    return ⟨{ els := partialOuts rd c e bank h a accs }, {}, [], n, 128 * accs.length, lows, 0, anchor, miss, []⟩
  let delta := aw - o.base
  let bo := elemBits p.fmt
  let dn := n - o.tile0
  let z ← if p.fmode = 0 then pure Option.none else
    Option.some <$> companion rd c (bitsN p.d 191 174) (bitsN p.d 209 192) (bitsN p.d 27 24) (bitsN p.d 428 417) (bitsN p.d 447 429 + dn) delta bo
  let w ← if p.fmode ≠ 3 then pure Option.none else
    Option.some <$> companion rd c (bitsN p.d 227 210) (bitsN p.d 245 228) (bitsN p.d 31 28) (bitsN p.d 459 448) (bitsN p.d 478 460 + dn) delta bo
  (match z with
    | some v => do needHall rd (.cs c) v.words v.fmt (some (bitsN p.d 103 88)); needHall rd (.cs c) v.shWords 0xE (some (bitsN p.d 103 88))
    | Option.none => pure ())
  (match w with
    | some v => do needHall rd (.cs c) v.words v.fmt (some (bitsN p.d 119 104)); needHall rd (.cs c) v.shWords 0xE (some (bitsN p.d 119 104))
    | Option.none => pure ())
  let rowOf (lr : Nat) : Option Nat := (accs.find? (fun r => r.2 = lr)).map (·.1)
  let grid : List (Option (BitVec 32 × Bool × Bool)) := (upTo 128).flatMap (fun lr =>
    match rowOf lr with
    | Option.none => List.replicate 128 Option.none
    | some r => (upTo 128).map (fun i =>
      let acc := drainAcc rd c e bank r (128 * h + i)
      let v := drainFp32 rd c e bank r (128 * h + i) acc
      let zv := match z with | some t => t.at rd lr i | Option.none => (Num.zero, false)
      let wv := match w with | some t => t.at rd lr i | Option.none => (Num.zero, false)
      some (fusedVal p.fmode (bitsN p.d 23 20) v (toF32 zv.1) (toF32 wv.1), acc.poison || zv.2 || wv.2, acc.low || acc.sat)))
  let cells := grid.filterMap id
  let st ← shingleRange rd c p.sp p.fmt (o.plane o.sh 8 wt aw) true
  let sc ← if isShingled p.fmt then tileScale rd (tenNo rd c) o.region n else pure (0, false)
  let lay := if p.col then turn Option.none grid.toArray else grid
  let cellsOf (l : List (Option (BitVec 32 × Bool × Bool))) : List Cell :=
    l.zipIdx.filterMap (fun x => x.1.map (fun v => ⟨x.2, f32 v.1, v.2.1, v.2.2⟩))
  let main := writeRun rd p.sp p.fmt a st o.region n (fun _ => sc) (drainRng rd c e bank h p.fmt rowOf u n) false p.keep (cellsOf lay)
  let snd ← if p.both then do
      let b2 := (bitsN p.d 155 138 : Int) + delta
      let b ← (match p.sp with | .mbox _ => mboxRange rd c b2 wt true | _ => csRange rd c b2 wt)
      let st2 ← shingleRange rd c p.sp (p.fmt + 1) (((bitsN p.d 173 156 : Nat) : Int) + 8 * delta / wt) true
      pure (writeRun rd p.sp (p.fmt + 1) b st2 o.region n (fun _ => sc)
        (fun e => u (elemIndex (p.fmt + 1) n e)) false p.keep (cellsOf (turn Option.none grid.toArray)))
    else pure {}
  let words := (match z with | some v => v.words ++ v.shWords | Option.none => []) ++ (match w with | some v => v.words ++ v.shWords | Option.none => [])
  return ⟨main, snd, words, n, cells.length, (cells.filter (·.2.2)).length,
    (cells.filter (fun v => !(f32 v.1).isZero)).length, anchor, miss,
    (if isShingled p.fmt then [(o.region, n)] else [])
      ++ (match z with | some v => if isShingled v.fmt then [(bitsN p.d 428 417, bitsN p.d 447 429 + dn)] else [] | Option.none => [])
      ++ (match w with | some v => if isShingled v.fmt then [(bitsN p.d 459 448, bitsN p.d 478 460 + dn)] else [] | Option.none => [])⟩

/-- One output tile of a drain stored, with its reports. -/
def drainStore (c : Core) (p : Drain) (rd : State) (r : Nat × Drained) (s : State) : State :=
  let stamp := bitsN p.d 87 72
  let a := s.emit p.sp (if p.part then 0xF else p.fmt) stamp r.2.main.els
  let b := a.emit p.sp 0xE stamp r.2.main.shs
  let e := (b.emit p.sp (p.fmt + 1) stamp r.2.snd.els).emit p.sp 0xE stamp r.2.snd.shs
  (e.report (tenNo rd c) r.2.main.reps).report (tenNo rd c) r.2.snd.reps

/-- What an output tile's drain counts, latches, charges, reads and finds wrong. -/
def drainNote (c : Core) (p : Drain) (rd : State) (key : Option Nat) (r : Nat × Drained) (s : State) : State :=
  let g := ((s.countEng c r.1 3 r.2.vals).countEng c r.1 2 r.2.low).guardLatch c (bitB p.d 55) (r.2.main.ovf || r.2.snd.ovf)
  let i := ((g.countCore c 0x160 (if p.fmode = 0 then 0 else r.2.vals)).chargeCore c 6 r.2.vals 0x180).countCore c 0x168 r.2.snd.blocks
  let k := r.2.tiles.foldl (fun (s : State) (x : Nat × Int) => s.noteTile c (1 + r.1) x.1 x.2) i
  let m := r.2.miss.foldl (fun (s : State) x => s.residueMiss c r.1 x) k
  let l := m.consume rd c (1 + r.1) (.cs c) r.2.words
  match key with
  | some w => l.countWatch w true r.2.nz (r.2.main.q + r.2.snd.q) (r.2.main.fl + r.2.snd.fl)
  | Option.none => l

/-- A drain with its checks passed: the drain, its first and last cycles, values per cycle, whether it quantises, its watch and its
output tiles by engine; `am` is the first word of a ledger-partial drain's anchor map. -/
structure DrainPlan where
  p     : Drain
  start : Nat
  stop  : Nat
  pace  : Nat
  quant : Bool
  key   : Option Nat
  am    : Nat
  outs  : List (Nat × Drained)

/-- The accumulator rows a drain reads. -/
def Drain.accRows (p : Drain) : List Nat := p.rows.map (·.1)

/-- The engine with a drain's path taken (11 R288). -/
def Engine.drained (g : Engine) (x : DrainPlan) (bank : Nat) : Engine :=
  { g with drainFrom := x.start, drainTo := x.stop, drainBank := decide (bank = 1), drainCol := x.p.col, drainPace := x.pace,
           drainRows := x.p.rows.length, drainHalves := x.p.halves }

/-- Whether a drained bank holds a handoff block (11 R288). -/
def holdsBlock (s : State) (c : Core) (p : Drain) (e bank : Nat) : Bool :=
  bank = 1 && p.accRows.any (fun r => (upTo p.halves).any (fun h => ((boundAt s c e 1 r h).getD {}).hand))

/-- The engines' drain paths taken; the rows a drain passes are freed where it releases them or they hold a handoff block, and what
waited for them enters (04 R90, R96; 11 R288). -/
def drainTake (c : Core) (x : DrainPlan) (bank : Nat) (release : Bool) (s : State) : State :=
  x.p.engs.foldl (fun (s : State) e =>
    let s1 := s.setEngine c e ((s.engine c e).drained x bank)
    if release || holdsBlock s c x.p e bank then (s1.freeRows c e bank x.p.accRows (upTo x.p.halves)).settle c e else s1) s

/-- Whether a drain comes before the last write of a handoff block it drains (04 R90). -/
def drainsEarly (g : Engine) (bank start : Nat) : Bool :=
  g.terms.any (fun t => t.bank = bank && t.hand && decide (start ≤ t.last))

/-- Whether a term would enter a row between the drain's first cycle and the one in which it has passed that row (04 R96). -/
def drainCrossed (g : Engine) (bank : Nat) (x : DrainPlan) : Bool :=
  let g1 := g.drained x bank
  g.terms.any (fun t => t.bank = bank && !t.hand && (upTo t.rows).any (fun i => (upTo 2).any (fun h =>
    t.covers (t.row + i) h && decide (t.row + i < g1.drainRows) && decide (h < g1.drainHalves)
      && t.hits i x.start (g1.drainPass (t.row + i)))))

/-- The checks of `MDRN`, its descriptor latched. -/
def drainPlan (c : Core) (d : BitVec 512) (bank : Nat) (rd : State) : Res DrainPlan := do
  need (drainCheck d) 0x12
  let engs := setOf (bitsN d 5 2)
  let part := bitB d 11
  let fmt := bitsN d 10 7
  let fm := bitsN d 19 18
  let halves := if bitB d 6 then 1 else 2
  let t := tenNo rd c
  let rf ← drainRows rd c d
  let p : Drain :=
    { d, engs, halves, part, fmt, col := bitB d 14, both := bitB d 17, fmode := fm,
      sp := if bitB d 15 then .mbox c else .cs c, rows := rf.1, frozen := rf.2, keep := bitsN d 33 32 ≠ 0 }
  let now := unitClock rd c
  let quant := !part && isShingled fmt
  let fused := fm ≠ 0 && (isShingled (bitsN d 27 24) || (fm = 3 && isShingled (bitsN d 31 28)))
  let start := now + 1 + (if quant || fused then sclLat rd else 0)
  let pace := 32 / 2 ^ bitsN d 13 12
  let x0 : DrainPlan := { p, start, stop := start + p.rows.length * 128 * halves / pace - 1, pace, quant, key := none, am := 0, outs := [] }
  need (engs.all (fun e => decide ((rd.engine c e).drainTo < start))) 0x02
  need (engs.all (fun e => !drainsEarly (rd.engine c e) bank start)) 0x10 4
  need (engs.all (fun e => !drainCrossed (rd.engine c e) bank x0)) 0x10 5
  need (!part || engs.all (fun e => p.accRows.all (fun r => (upTo halves).all (fun h =>
    (boundAt rd c e bank r h).isNone || !(look rd.cores.acc {} (accKey c e bank r (128 * h))).fp32)))) 0x12
  if quant then quantOpen rd t
  let key ← if bitB d 44 then Option.some <$> watchKey rd t (bitsN d 54 45) else pure Option.none
  let rng ← rngOf rd c (bitB d 16) (bitsN d 71 56)
  let am ← if part then csRange rd c (bitsN d 137 120 : Nat) (ceilDiv (engs.length * halves) 16) else pure 0
  let qs := rf.1.foldl (fun l r => insertNew l r.2.1) []
  let jobs : List (Nat × Nat × Nat × Nat) := engs.zipIdx.flatMap (fun (e : Nat × Nat) => (upTo halves).flatMap (fun h =>
    if p.frozen.contains (e.2 * halves + h) then [] else qs.map (fun q => (e.1, e.2, h, q))))
  let outs : List (Nat × Drained) ← jobs.mapM (fun (j : Nat × Nat × Nat × Nat) => do
    let r ← drainTile rd c p bank j.1 j.2.1 j.2.2.1 j.2.2.2 rng
    return (j.1, r))
  return { x0 with key, am, outs }

/-- Words moved by a drain of one engine: `bits` per value for `cycles` cycles from `first` on, to the store or the mailbox path, or
read; and for shingled data a shingle word every 64 cycles (04 R93, 08 R204). -/
def drainStream (first cycles pace bits : Nat) (shingled isOut mail : Bool) : List PortRun :=
  let put (r : PortRun) : PortRun := if mail then { r with wr := 0, mb := r.wr } else r
  let one : PortRun := { first := first + 63, period := 64, burst := 1, reps := cycles / 64, rd := if isOut then 0 else 1, wr := if isOut then 1 else 0 }
  put (PortRun.paced first cycles (pace * bits) 256 isOut) :: (if shingled then [put one] else [])

/-- The writes of an engine's second quantiser: after each band of 32 rows, a column block in each of the next 128 × halves cycles,
with a shingle word for every 16 (08 R197, R198). `x` is the cycle in which the drain's first value is written. -/
def bandPorts (x halves bits : Nat) (mail : Bool) : List PortRun :=
  (upTo 4).flatMap (fun b =>
    let e := x + 128 * halves * (b + 1) - 1
    let put (r : PortRun) : PortRun := if mail then { r with wr := 0, mb := r.wr } else r
    [put (PortRun.paced (e + 1) (128 * halves) (32 * bits) 256 true),
     put { first := e + 16, period := 16, burst := 1, reps := 8 * halves, wr := 1 }])

/-- The ports a drain uses (04 R93, 07 R165, 08 R197, R198, R204): its outputs, its companions' reads, and the tile scales it reads at
issue. -/
def DrainPlan.ports (x : DrainPlan) (rd : State) (c : Core) : List PortRun :=
  let fm := x.p.fmode
  let mail := bitB x.p.d 15
  let out := x.start + 4 + (if fm ≠ 0 then drvLat rd else 0)
  let n := x.stop + 1 - x.start
  let zf := bitsN x.p.d 27 24
  let wf := bitsN x.p.d 31 28
  .scales (unitClock rd c) (x.outs.map (fun r => r.2.tiles.length)).sum ::
    x.p.engs.flatMap (fun _ =>
      drainStream out n x.pace (if x.p.part then 128 else elemBits x.p.fmt) x.quant true mail
        ++ (if x.p.both then bandPorts out x.p.halves (elemBits x.p.fmt) mail else [])
        ++ (if fm ≠ 0 then drainStream x.start n x.pace (elemBits zf) (isShingled zf) false false else [])
        ++ (if fm = 3 then drainStream x.start n x.pace (elemBits wf) (isShingled wf) false false else []))

/-- The words of a ledger-partial drain's anchor map, tile by tile. -/
def DrainPlan.anchorOuts (x : DrainPlan) : List Out :=
  if x.p.part then
    let es := (x.outs.mergeSort (fun a b => decide (a.2.n ≤ b.2.n))).map (fun r => (r.2.anchor.getD 0).toNat)
    (packAll 16 es).mapIdx (fun i w => ⟨x.am + i, wordOf w false, 0, false, bytesOf 16 (upTo (min 16 (es.length - 16 * i)))⟩)
  else []

/-- The words a drain stores, in order. -/
def DrainPlan.stores (x : DrainPlan) : List Out :=
  x.outs.flatMap (fun r => r.2.main.els ++ r.2.main.shs ++ r.2.snd.els ++ r.2.snd.shs)

/-- The companion words it reads. -/
def DrainPlan.reads (x : DrainPlan) : List Nat := x.outs.flatMap (fun r => r.2.words)

/-- What a drain leaves. -/
def drainRun (c : Core) (desc : BitVec 10) (bank : Nat) (release : Bool) (x : DrainPlan) (rd s : State) : State :=
  let s0 := x.outs.foldl (fun (s : State) (r : Nat × Drained) => drainNote c x.p rd x.key r s) s
  let s1 := x.outs.foldl (fun (s : State) (r : Nat × Drained) => drainStore c x.p rd r s) s0
  let s2 := match x.outs.find? (fun r => r.2.low ≠ 0) with
    | some r => s1.dayCore c (1 + r.1) 0x23 0 desc.toNat r.2.n.toNat 0
    | Option.none => s1
  let s3 := s2.emit (.cs c) 0xF (bitsN x.p.d 87 72) x.anchorOuts
  drainTake c x bank release { (s3.quantUntil rd c 0 x.quant (x.stop + 4)) with fresh := s3.fresh + 32768 }

/-- `MDRN`. -/
def mdrnAct (c : Core) (desc : BitVec 10) (bank release : Bool) (rd s : State) : Res State := do
  let d ← latchForm rd c desc 1 [1]
  let b := if bank then 1 else 0
  abandon c (setOf (bitsN d 5 2)) s (do
    let x ← drainPlan c d b rd
    let s1 ← s.claimPorts c (x.ports rd c)
    (drainRun c desc b release x rd s1).holdMerges rd c (x.ports rd c))

/-- The static checks of a matrix descriptor of any form (11 R284). -/
def formCheck (d : BitVec 512) : Bool :=
  match bitsN d 1 0 with
  | 0 => prodCheck d
  | 1 => drainCheck d
  | _ => preCheck d

/-- The engine set of a matrix descriptor of any form. -/
def formSet (d : BitVec 512) : Nat := if bitsN d 1 0 = 0 then bitsN d 7 4 else bitsN d 5 2

/-- `MREL`. -/
def mrelAct (c : Core) (desc : BitVec 10) (bank : Bool) (rd s : State) : Res State := do
  let d ← latchForm rd c desc 1 [0, 1, 2]
  let b := if bank then 1 else 0
  abandon c (setOf (formSet d)) s (do
    need (formCheck d) 0x12
    need ((setOf (formSet d)).all (fun e => !inFlight (rd.engine c e) b (unitClock rd c))) 0x10 5
    return (setOf (formSet d)).foldl (fun s e => s.release c e b) s)

/-! ### Meanings -/

/-- A matrix operation issued in slot MX, once the upsets that wait for the engines' rows have struck. -/
def mxOp (c : Core) (f : State → State → Res State) (rd s : State) : State :=
  let struck (u : State) : State := if issues rd c then u.strikeAccs c else u
  slotOp c 0 f (struck rd) (struck s)

/-- `MRUN` issued alone in slot MX (11 Table 11.3). -/
def execMrun (c : Core) (desc : BitVec 10) (s : State) : Answer := .next (mxOp c (mrunAct c desc) s s)

/-- `MALT` issued alone. -/
def execMalt (c : Core) (desc0 desc1 : BitVec 10) (s : State) : Answer := .next (mxOp c (maltAct c desc0 desc1) s s)

/-- `MPRE` issued alone. -/
def execMpre (c : Core) (desc : BitVec 10) (s : State) : Answer := .next (mxOp c (mpreAct c desc) s s)

/-- `MDRN` issued alone. -/
def execMdrn (c : Core) (desc : BitVec 10) (bank release : Bool) (s : State) : Answer :=
  .next (mxOp c (mdrnAct c desc bank release) s s)

/-- `MREL` issued alone. -/
def execMrel (c : Core) (desc : BitVec 10) (bank : Bool) (s : State) : Answer := .next (mxOp c (mrelAct c desc bank) s s)

end Sys2Proof.Machine
end

