-- ==== Sys2Proof/Machine/Haul.lean ====
section
/-! DEFINITION. The haul unit's moves: copies, conversions, MX and sparse forms, stashes, heritage, and the HBM words on their way (02 R49 to R52, 03 R78, 05 R110, 08 R206 to R211, 11 R297 to R299, 12 R314, R319 to R323, R330 to R333). -/

namespace Sys2Proof.Machine

open Sys2Proof

/-! ### Remapping (12 R322, R323) -/

/-- The folded-address kind and address of a word of a space. -/
def placeOf (s : State) (sp : Space) (a : Nat) : Nat × Nat := (spaceKind sp, foldAddr s sp a)

/-- The core-store assay that an added remap entry asks for (18 Table 18.11). -/
def State.csAssay (s : State) (c : Core) : State := if trigOn s 1 then s.requestAssay 1 (phys s c) false else s

/-- A remap candidate: a free spare takes the word, or REMAP_FULL is logged and an HBM word's row joins the repair list. -/
def State.remap (s : State) (sp : Space) (a : Nat) : State :=
  match sp with
  | .mbox _ => s
  | .cs c =>
    let k := csKey c a
    if k ∈ s.hbm.remapCs then s
    else if (s.hbm.remapCs.filter (fun x => x / csWords = c.val)).length < 8 then
      let s1 := s.countCore c 0x220 1
      { s1 with
        hbm := { s1.hbm with remapCs := s1.hbm.remapCs ++ [k] }
        mgmt := { s1.mgmt with ledger := { s1.mgmt.ledger with remaps := s1.mgmt.ledger.remaps ++ [(false, k)] } } }.csAssay c
    else s.daybook 0x42 0 15 (phys s c) 0 0 (foldAddr s sp a) 0
  | .hbm =>
    if a ∈ s.hbm.remapHbm then s
    else if (s.hbm.remapHbm.filter (fun x => pseudoChan x = pseudoChan a)).length < 4 then
      let s1 := s.count (stackOff (a / stackWords) 0x20) 1
      { s1 with
        hbm := { s1.hbm with remapHbm := s1.hbm.remapHbm ++ [a] }
        mgmt := { s1.mgmt with ledger := { s1.mgmt.ledger with remaps := s1.mgmt.ledger.remaps ++ [(true, a)] } } }
    else
      let s1 := s.daybook 0x42 0 15 0x7F 10 5 a 0
      { s1 with hbm := { s1.hbm with repair := insertNew s1.hbm.repair (hbmRow a) } }

/-- The remap copies of the words that reads have found uncorrectable since the last boundary. -/
def State.remapCands (s : State) : State :=
  s.hbm.cands.foldl (fun (u : State) (x : Bool × Nat) => if x.1 then u.remap .hbm x.2 else u.remap (.cs (Fin.ofNat 64 (x.2 / csWords))) (x.2 % csWords))
    { s with hbm := { s.hbm with cands := [] } }

/-! ### Words on their way (12 R314) -/

/-- The key of a core's haul channel. -/
def chKey (c : Core) (ch : Nat) : Nat := 4 * c.val + ch

/-- Words queued on a channel, oldest first. -/
def State.enqueue (s : State) (c : Core) (ch : Nat) (rs : List ReadInFlight) : State :=
  let k := chKey c ch
  { s with cores := { s.cores with reads := put [] s.cores.reads k (look s.cores.reads [] k ++ rs) } }

/-- The words of a run written by a read of HBM, each at its cycle, with each block's hallmark after its last word. -/
def flightOf (tgt : BitVec 2) (sp : Space) (outs : List Out) (at' : Nat → Nat) (src : Nat → Option Nat)
    (hall : Nat → BitVec 64) : List ReadInFlight :=
  let lasts := outs.zipIdx.foldl (fun (m : Sparse Nat) (o : Out × Nat) => set m (o.1.a / 128) o.2) []
  match sp with
  | .hbm => []
  | _ => outs.zipIdx.map (fun (o : Out × Nat) =>
      { landsAt := at' o.2, target := tgt, dst := o.1.a, word := o.1.w, src := src o.2, mask := o.1.mask,
        last := if look lasts 0 (o.1.a / 128) = o.2 then some (hall (o.1.a / 128)) else none })

/-- A word that arrives, of an operation whose last arrives before cycle `close`: written, and its block's hallmark with its last word; a
page has its tag from the cycle after its last word (10 R261). -/
def State.land (s : State) (c : Core) (close : Nat) (r : ReadInFlight) : State :=
  let s0 := match r.src with | some k => s.noteRead .hbm k | none => s
  match r.target.toNat with
  | 2 =>
    let s1 := { s0 with cores := { s0.cores with prog := memPut s0.cores.prog (8192 * c.val + r.dst) r.word } }
    match r.tag with
    | some g => { s1 with cores := { s1.cores with fills := set s1.cores.fills (8 * c.val + r.dst / 1024) ⟨g, r.landsAt + 1⟩ } }
    | none => s1
  | t =>
    let sp : Space := if t = 0 then .cs c else .mbox c
    let s1 := (s0.writeOut (tenOf s0 c) sp ⟨r.dst, r.word, 0, false, r.mask⟩).holdTill c (max (r.landsAt + 1) close)
    match r.last with
    | some h => s1.writeHallT (tenOf s1 c) sp (r.dst / 128) h none
    | none => s1

/-- `HBM_READ_DATA` (12 R314): the oldest word of the channel lands, in its cycle where that lies ahead: a cycle of the schedule, so
that none lands in a blank course or after the core's `CEND` (10 R247). The reads of a stopped tenancy are abandoned (10 R278). -/
def execHbmReadData (c : Core) (ch : BitVec 2) (s : State) : Answer :=
  let k := chKey c ch.toNat
  match look s.cores.reads [] k with
  | [] => .next s
  | r :: rest =>
    let v := tallyAt s (tenNo s c) (r.landsAt - unitClock s c)
    if stopped s c then .next { s with cores := { s.cores with reads := del s.cores.reads k } }
    else if unitClock s c < r.landsAt && !(advancing s (tenNo s c) && !(seqOf s c).ended && decide (v / 16384 ≤ s.time.lastCourse.getD 0)) then
      .next s
    else
      let s1 := if r.landsAt ≤ unitClock s c then s else s.passTo v
      .next ({ s1 with cores := { s1.cores with reads := put [] s1.cores.reads k rest } }.land c (rest.foldl (fun (n : Nat) (x : ReadInFlight) => max n (x.landsAt + 1)) 0) r)

/-! ### Move descriptors (11 Table 11.14) -/

/-- Whether an address field of a space's kind has its reserved bits zero and its binds in range. -/
def addrOk (sp : Nat) (w : BitVec 64) : Bool :=
  if sp = 1 then bitsN w 63 61 = 0 && bitsN w 36 34 ≤ 5
  else bitsN w 63 62 = 0 && bitsN w 20 18 ≤ 5 && bitsN w 42 40 ≤ 5

/-- The effective address of an address field of a space's kind. -/
def addrAny (s : State) (c : Core) (sp : Nat) (w : BitVec 64) : Int := if sp = 1 then addrHA s c w else addrCA s c w

/-- The base of an address field of a space's kind. -/
def addrBase (sp : Nat) (w : BitVec 64) : Nat := if sp = 1 then bitsN w 33 0 else bitsN w 17 0

/-- The space a code names. -/
def spaceOf (c : Core) (sp : Nat) : Space := match sp with | 0 => .cs c | 1 => .hbm | _ => .mbox c

/-- A run of `n` words of a space, in its bounds (12 R333). -/
def rangeIn (s : State) (c : Core) (sp : Nat) (a : Int) (n : Nat) (isOut : Bool) : Res Nat :=
  match sp with
  | 0 => csRange s c a n
  | 1 => hbmRange s (tenNo s c) a n
  | _ => mboxRange s c a n isOut

/-- Whether a code names a format a move converts from or to (02 Table 02.8). -/
def isData (f : Nat) : Bool := f ≤ 13

/-- Whether Table 02.8 has a pair, or the two are one format, which a move copies. -/
def convPair (sf df : Nat) : Bool :=
  sf = df || (isData sf && isData df && !(isMx sf && isMx df) && !(decide (12 ≤ sf) && isShingled df && fmtOf df ≠ .e4m3)
    && !(decide (12 ≤ sf) && isMx sf && isMx df))

/-- Elements of `n` words of a format's plane in whole tiles, if they are whole tiles. -/
def tilesOf (f words : Nat) : Option Nat :=
  if f = 12 || f = 13 then
    let n := words * 42 / 16384
    if words = ceilDiv (16384 * n) 42 ∧ n ≠ 0 then some n else none
  else if words % wordsPerTile f = 0 ∧ words ≠ 0 then some (words / wordsPerTile f) else none

/-- Words of `n` tiles of a format's plane. -/
def tileRun (f n : Nat) : Nat := if f = 12 || f = 13 then ceilDiv (16384 * n) 42 else n * wordsPerTile f

/-- Words of the second plane of a tile: shingles, or the MX scales. -/
def planeWords (f : Nat) : Nat := if isShingled f then 8 else if isMx f then 16 else 0

/-! ### Checks and copies of whole blocks (12 R330 to R332) -/

/-- The blocks of a run of words that the run covers whole. -/
def wholeIn (base n : Nat) : List Nat :=
  (upTo ((base + n) / 128 - ceilDiv base 128)).map (ceilDiv base 128 + ·)

/-- Format and tag of the blocks of a run: the format is checked when the move converts or the block is read in part;
the tag when CHK is set (12 Table 12.5). -/
def needBlocks (s : State) (sp : Space) (base n : Nat) (conv : Bool) (fmt : Nat) (tag : Option Nat) : Res Unit := do
  if n = 0 then return ()
  let whole := wholeIn base n
  let bs := (upTo ((base + n - 1) / 128 + 1 - base / 128)).map (base / 128 + ·)
  need (bs.all (fun b =>
    let h := hallOf s sp (128 * b)
    ((!conv && whole.contains b) || decide (hallFmt h = fmt)) && (match tag with | some g => decide (hallGen h = g) | none => true))) 0x14

/-- The blocks of a run that fail their CRC, logged and counted, and those whose check NOCRC skips counted. -/
def State.checkCrc (s rd : State) (c : Core) (sp : Space) (base n : Nat) : State :=
  (wholeIn base n).foldl (fun (s : State) b =>
    let h := hallOf rd sp (128 * b)
    if hallNocrc h then s.countCore c 0x230 1
    else if crcFails rd sp b then
      (s.dayCore c 7 0x44 0 0 (foldAddr rd sp (128 * b)) ((hallCrc h).toNat + (blockCrc rd sp b).toNat * 2 ^ 32)).countCore c 0x228 1
    else s) s

/-- The blocks of a run whose contents may not be trusted: their CRC fails or their hallmark has POISON. -/
def badBlocks (s : State) (sp : Space) (base n : Nat) : List Nat :=
  ((upTo ((base + n - 1) / 128 + 1 - base / 128)).map (base / 128 + ·)).filter (fun b =>
    hallPoison (hallOf s sp (128 * b)) || ((wholeIn base n).contains b && crcFails s sp b))

/-- The hallmark of a block a move copies whole: the source's fields, its own tag and CRC. -/
def carryHall (src : BitVec 64) (fails : Bool) (gen : Nat) (ws : List MemWord) : BitVec 64 :=
  mkHall (crcWords (ws.map (·.data))) (hallMax src) (hallFmt src)
    (hallPoison src || fails || ws.any isPoisoned) (hallOvf src) false gen

/-- The hallmark a move writes: `copy` says of a block that its words are carried from source words at the same alignment, `src` and `dst`
are the runs' first words, `bad` the untrusted source blocks, `back` the source words a destination word comes from. -/
def moveHall (rd : State) (ssp : Space) (sb n db : Nat) (copy : Nat → Bool) (fmt gen : Nat) (outs : List Out)
    (bad : List Nat) (back : Nat → Nat × Nat) (old : BitVec 64) (b : Nat) : BitVec 64 :=
  let os := outs.filter (fun o => o.a / 128 = b)
  let sblk := (sb + (128 * b - db)) / 128
  if copy b && decide (sb % 128 = db % 128) && wholeBlock (outs.map (·.a)) b && (wholeIn sb n).contains sblk then
    carryHall (hallOf rd ssp (128 * sblk)) (bad.contains sblk) gen (os.map (·.w))
  else
    let h := newHall old fmt gen outs b
    if os.any (fun o => let r := back (o.a - db); bad.any (fun k => decide (r.1 / 128 ≤ k) && decide (k ≤ r.2 / 128))) then
      setPoison h else h

/-! ### A move's work -/

/-- What a move writes: its element words, second-plane words, index words, and what its quantisers report. -/
structure Moved where
  els  : List Out := []
  shs  : List Out := []
  idx  : List Out := []
  reps : List Report := []
  q    : Nat := 0
  fl   : Nat := 0
  ovf  : Bool := false
  used : Nat := 0

/-- A source tile: its values by storage index, with their poison. `mx` tiles take their scale bytes from the second plane. -/
structure SrcTile where
  tile : Tile
  mx   : Bool
  i    : Nat

/-- The code at element `e` of the source plane counted from its first element, and its word's poison. -/
def planeCode (s : State) (sp : Space) (fmt base e : Nat) : Nat × Bool :=
  let w := readWord s sp (base + e / perWord fmt)
  (elemOf (elemBits fmt) (e % perWord fmt) w.data, isPoisoned w)

/-- The scale byte of MX block `b`, and its word's poison. -/
def mxScaleAt (s : State) (sp : Space) (base b : Nat) : Nat × Bool :=
  let w := readWord s sp (base + b / 32)
  (elemOf 8 (b % 32) w.data, isPoisoned w)

/-- A resolved move. `tiles` is 0 where it runs through its words without tiles; `pat` is the pattern a compressed side has
(05 R110), 0 where neither is compressed. -/
structure Move where
  d     : BitVec 512
  ssp   : Space
  dsp   : Space
  sf    : Nat
  df    : Nat
  sb    : Nat
  db    : Nat
  ssh   : Nat
  dsh   : Nat
  count : Nat
  tiles : Nat
  diag  : Bool
  trans : Bool
  pat   : Nat

/-- Whether a move carries its words unchanged: one plain or untyped format, not by columns, no sparse form. -/
def carries (sf df : Nat) (trans : Bool) (sparse : Nat) : Bool := sf = df && !isShingled sf && !isMx sf && !trans && sparse = 0

def Move.sparse (m : Move) : Nat := bitsN m.d 42 41

def Move.carries (m : Move) : Bool := Machine.carries m.sf m.df m.trans m.sparse

/-- Whether a move is between two tensors of one MX format, or of one shingled format, with no sparse form. -/
def Move.sameCoded (m : Move) : Bool := m.sf = m.df && (isMx m.sf || isShingled m.sf) && m.sparse = 0

/-- The word that source word `k` is, in the diagonal layout where the descriptor names it (12 R306). -/
def Move.srcWord (m : Move) (k : Nat) : Nat :=
  if m.diag then
    let wt := 16384 / perWord m.sf
    diagAddr (128 / perWord m.sf) (m.sb + k / wt * wt) (m.sb + k)
  else m.sb + k

/-- The source tile `i` of a move. -/
def Move.srcTile (m : Move) (s : State) (c : Core) (i : Nat) : Res (Tile × Int) := do
  let n : Int := (bitsN m.d 137 119 : Int) + i
  let sc ← if isShingled m.sf then tileScale s (tenNo s c) (bitsN m.d 118 107) n else pure (0, false)
  return (⟨m.ssp, m.sf, m.sb + i * wordsPerTile m.sf, m.ssh + 8 * i, sc.1, sc.2, m.diag⟩, n)

/-- The scale of destination tile `i`. -/
def Move.dstScale (m : Move) (s : State) (c : Core) (n : Int) : Res (Int × Bool) :=
  if isShingled m.df then tileScale s (tenNo s c) (bitsN m.d 149 138) n else pure (0, false)

/-- The source element for destination storage index `e` of a tile: its storage index in the source tile. -/
def Move.pick (m : Move) (e : Nat) : Nat :=
  if m.trans then 128 * (e % 128) + e / 128
  else if isMx m.sf || isMx m.df then e
  else if isColBlocks m.df then storeIdx m.sf (e % 128) (e / 128) else storeIdx m.sf (e / 128) (e % 128)

/-- Values written into tile `i` of the destination. -/
def Move.writeTile (m : Move) (rd : State) (i : Nat) (sc : Int × Bool) (rng : Nat → Option Nat) (cells : List Cell) : Wrote :=
  let n0 : Int := (bitsN m.d 168 150 : Int) + i
  writeRun rd m.dsp m.df (m.db + i * wordsPerTile m.df) (m.dsh + 8 * i) (bitsN m.d 149 138) n0 (fun _ => sc)
    (fun e => rng (elemIndex m.df n0 e)) false false cells

def Moved.add (a : Moved) (w : Wrote) : Moved :=
  { a with els := a.els ++ w.els, shs := a.shs ++ w.shs, reps := a.reps ++ w.reps, q := a.q + w.q, fl := a.fl + w.fl, ovf := a.ovf || w.ovf }

/-- Plain values moved in storage order between two plain formats. -/
def Move.linear (m : Move) (rd : State) (rng : Nat → Option Nat) : Moved :=
  let n0 : Int := bitsN m.d 168 150
  let cells := (upTo m.count).flatMap (fun k =>
    let w := readWord rd m.ssp (m.srcWord k)
    (upTo (perWord m.sf)).map (fun i =>
      (⟨(perWord m.sf * k + i : Nat), (fmtOf m.sf).decode (elemOf (elemBits m.sf) i w.data), isPoisoned w, false⟩ : Cell)))
  ({} : Moved).add (writeRun rd m.dsp m.df m.db 0 0 n0 (fun _ => (0, false)) (fun e => rng (elemIndex m.df n0 e)) false false cells)

/-- The value of an element code of an MX format in a block of scale `x` (02 R43, R51). -/
def mxValue (f x c : Nat) : Num := if x = 255 then .nan else (mxElem f c).scale ((x : Int) - 127)

/-- The maximum-exponent code of word `k` of an MX plane of `n` tiles whose scales lie at `sh`. -/
def mxMax (s : State) (sp : Space) (f base sh n k : Nat) : Nat :=
  let w := readWord s sp (base + k)
  maxExpOf (((upTo (perWord f)).filter (fun i => decide (perWord f * k + i < 16384 * n))).map (fun i =>
    mxValue f (mxScaleAt s sp sh ((perWord f * k + i) / 32)).1 (elemOf (elemBits f) i w.data)))

/-- Words copied unchanged (12 R304). -/
def copyOuts (s : State) (ssp : Space) (sb db n : Nat) (mx : Nat → BitVec 256 → Nat) : List Out :=
  (upTo n).map (fun i => let w := readWord s ssp (sb + i); ⟨db + i, w, mx i w.data, false, allBytes⟩)

/-- The maximum-exponent code of a plain word. -/
def plainMax (f : Nat) (d : BitVec 256) : Nat :=
  if isPlain f then maxExpOf ((upTo (perWord f)).map (fun i => (fmtOf f).decode (elemOf (elemBits f) i d))) else 0

/-- A tile converted by Table 02.8 through its values. -/
def Move.convTile (m : Move) (rd : State) (c : Core) (i : Nat) (rng : Nat → Option Nat) : Res Wrote := do
  let v ← m.srcTile rd c i
  let sc ← m.dstScale rd c ((bitsN m.d 168 150 : Int) + i)
  return m.writeTile rd i sc rng ((upTo 16384).map (fun e =>
    let x := v.1.val rd (m.pick e)
    (⟨e, x.1, x.2, false⟩ : Cell)))

/-- The tiles of a move within one shingled format whose scales differ, or one of whose entries is poisoned: these it re-quantises
(11 R298). -/
def Move.again (m : Move) (rd : State) (c : Core) : Res (List Nat) :=
  if m.sameCoded && isShingled m.sf then
    (upTo m.tiles).foldlM (fun (l : List Nat) i => do
      let v ← m.srcTile rd c i
      let sc ← m.dstScale rd c ((bitsN m.d 168 150 : Int) + i)
      return if v.1.scale = sc.1 && !v.1.bad && !sc.2 then l else l ++ [i]) []
  else .ok []

/-- A tile of one shingled format copied, or re-quantised where its scales differ (11 R298). -/
def Move.sameTile (m : Move) (rd : State) (c : Core) (i : Nat) (rng : Nat → Option Nat) : Res Moved := do
  let v ← m.srcTile rd c i
  let sc ← m.dstScale rd c ((bitsN m.d 168 150 : Int) + i)
  if v.1.scale = sc.1 && !v.1.bad && !sc.2 then
    let wt := wordsPerTile m.sf
    let per := perWord m.sf
    let els := (upTo wt).map (fun k =>
      let w := readWord rd m.ssp (v.1.base + k)
      (⟨m.db + i * wt + k, w, maxExpOf ((upTo per).map (fun x => (v.1.val rd (per * k + x)).1)), false, allBytes⟩ : Out))
    return { els, shs := copyOuts rd m.ssp v.1.sh (m.dsh + 8 * i) 8 (fun _ _ => 0) }
  else
    return ({} : Moved).add (m.writeTile rd i sc rng ((upTo 16384).map (fun e =>
      let x := v.1.val rd e
      (⟨e, x.1, x.2, false⟩ : Cell))))

/-- A tile imported from an MX format (02 R51). -/
def Move.mxIn (m : Move) (rd : State) (c : Core) (i : Nat) (rng : Nat → Option Nat) : Res Moved := do
  let n0 : Int := (bitsN m.d 168 150 : Int) + i
  let sc ← m.dstScale rd c n0
  let blocks := (upTo 512).map (fun b =>
    let cs := (upTo 32).map (fun k => planeCode rd m.ssp m.sf m.sb (16384 * i + 32 * b + k))
    let x := mxScaleAt rd m.ssp m.ssh (512 * i + b)
    (cs.map (·.1), x.1, x.2 || cs.any (·.2)))
  if isShingled m.df then
    let w := elemBits m.df
    let f := fmtOf m.df
    let qs := blocks.zipIdx.map (fun (b : (List Nat × Nat × Bool) × Nat) =>
      (mxImport m.sf m.df (fun k => rng (elemIndex m.df n0 (32 * b.2 + k))) sc.1 b.1.2.1 b.1.1, b.1.2.2 || sc.2))
    let els := (chunks (perWord m.df / 32) qs).zipIdx.map (fun (g : List (QBlock × Bool) × Nat) =>
      (⟨m.db + i * wordsPerTile m.df + g.2, wordOf (packWord w (g.1.flatMap (fun q => q.1.codes))) (g.1.any (·.2)),
        maxExpOf (g.1.flatMap (fun q => q.1.codes.map (sfDecode f sc.1 q.1.s))), g.1.any (fun q => q.1.ovf), allBytes⟩ : Out))
    let shs := (chunks 64 qs).zipIdx.map (fun (g : List (QBlock × Bool) × Nat) =>
      (⟨m.dsh + 8 * i + g.2, wordOf (packWord 4 (g.1.map (fun q => q.1.s))) (g.1.any (·.2)), 0, false, allBytes⟩ : Out))
    let called := (qs.zip blocks).filter (fun (x : (QBlock × Bool) × (List Nat × Nat × Bool)) => mxQuantised m.sf m.df sc.1 x.2.2.1)
    let reps := called.map (fun (x : (QBlock × Bool) × (List Nat × Nat × Bool)) =>
      let vs := (mxValues m.sf x.2.2.1 x.2.1 (f.fmax.scale sc.1)).1
      (⟨bitsN m.d 149 138, n0, maxExpOf [amaxOf vs], if x.1.1.ovf then 1 else 0, x.1.1.flushed,
        x.2.1.any (fun k => !(mxElem m.sf k).isFin)⟩ : Report))
    return { els, shs, reps, q := 32 * called.length, fl := called.foldl (fun t q => t + q.1.1.flushed) 0, ovf := qs.any (fun q => q.1.ovf) }
  else
    let dmax := (fmtOf m.df).decode ((fmtOf m.df).maxc)
    let cells := blocks.zipIdx.flatMap (fun (b : (List Nat × Nat × Bool) × Nat) =>
      let vs := mxValues m.sf b.1.2.1 b.1.1 dmax
      (vs.1.zipIdx).map (fun (v : Num × Nat) => (⟨32 * b.2 + v.2, v.1, b.1.2.2, vs.2⟩ : Cell)))
    return ({} : Moved).add (m.writeTile rd i (0, false) rng cells)

/-- A run of tiles exported to an MX format (02 R52). -/
def Move.mxOut (m : Move) (rd : State) (c : Core) : Res Moved := do
  let bs ← (upTo m.tiles).flatMapM (fun i => do
    let v ← m.srcTile rd c i
    return (upTo 512).map (fun b =>
      let ks := (upTo 32).map (fun k => m.pick (32 * b + k))
      let xs := ks.map (fun k => v.1.val rd k)
      let r := if isShingled m.sf then mxExportSf m.sf m.df v.1.scale (v.1.shingle rd b).1 (ks.map (fun k => (v.1.code rd k).1))
        else mxExport m.df (xs.map (·.1))
      (r, xs.any (·.2))))
  let w := elemBits m.df
  let els := (chunks (perWord m.df) (bs.flatMap (fun (b : (Nat × List Nat × Bool) × Bool) =>
    b.1.2.1.map (fun x => (x, b.2, b.1.2.2, b.1.1))))).zipIdx.map (fun (g : List (Nat × Bool × Bool × Nat) × Nat) =>
      (⟨m.db + g.2, wordOf (packWord w (g.1.map (·.1))) (g.1.any (fun x => x.2.1)),
        maxExpOf (g.1.map (fun x => mxValue m.df x.2.2.2 x.1)), g.1.any (fun x => x.2.2.1),
        if g.1.length < perWord m.df then bytesOf w (upTo g.1.length) else allBytes⟩ : Out))
  let shs := (chunks 32 bs).zipIdx.map (fun (g : List ((Nat × List Nat × Bool) × Bool) × Nat) =>
    (⟨m.dsh + g.2, wordOf (packWord 8 (g.1.map (fun b => b.1.1))) (g.1.any (·.2)), 0, false, allBytes⟩ : Out))
  return { els, shs, ovf := bs.any (fun b => b.1.2.2) }

/-! ### Structured sparsity (05 R106 to R110) -/

/-- The kept positions of a group of four values: the larger magnitudes, ties to the lower position. Where one is a NaN
the spec states no order: `free` chooses. -/
def keepTop (n free : Nat) (xs : List Num) : List Nat :=
  if xs.any Num.isNan then
    if n = 1 then [free % 4] else nth [[0, 1], [0, 2], [0, 3], [1, 2], [1, 3], [2, 3]] [] (free % 6)
  else
    let ord := (upTo 4).mergeSort (fun i j =>
      let a := (nth xs .zero i).mabs
      let b := (nth xs .zero j).mabs
      b.lt a || (!a.lt b && decide (i ≤ j)))
    (ord.take n).mergeSort (fun i j => decide (i ≤ j))

/-- Index entry `k` of a compressed tile's index plane at word `ix`. -/
def indexAt (s : State) (sp : Space) (ix k : Nat) : Nat := elemOf 2 (k % 128) (readWord s sp (ix + k / 128)).data

/-- The element index j of 02 R46 of kept element `e` of a compressed tile `n0`: its logical row and column. `cols` are the kept
positions of each column. -/
def keptIndex (n0 : Int) (kp : Nat) (cols : List (List Nat)) (e : Nat) : Nat :=
  let n := e / (32 * kp)
  let g := e % (32 * kp) / kp
  (16384 * n0 + (128 * (4 * g + nth (nth cols [] n) 0 (e % (32 * kp))) + n : Nat)).toNat

/-- A tile compressed: kept positions by column and group, then quantised in blocks of 32 kept elements, or rounded. -/
def Move.compress (m : Move) (rd : State) (c : Core) (pat : Nat) (mask : Option Nat) (ix : Nat) (i : Nat)
    (free : Nat → Nat) (rng : Nat → Option Nat) : Res Moved := do
  let v ← m.srcTile rd c i
  let n0 : Int := (bitsN m.d 168 150 : Int) + i
  let sc ← m.dstScale rd c n0
  let kp := keptOf pat
  let kept : List (Nat × Num × Bool) := (upTo 128).flatMap (fun n => (upTo 32).flatMap (fun g =>
    let xs : List (Num × Bool) := (upTo 4).map (fun j => v.1.at rd (4 * g + j) n)
    let ps : List Nat := match mask with
      | some x => (upTo kp).map (fun j => indexAt rd (.cs c) (x + sparseIdxWords pat * i) (32 * kp * n + kp * g + j))
      | none => keepTop kp (free (4096 * i + 32 * n + g)) (xs.map (·.1))
    ps.map (fun (p : Nat) => (p, nth xs (.zero, false) p))))
  let cells := kept.zipIdx.map (fun (k : (Nat × Num × Bool) × Nat) => (⟨k.2, k.1.2.1, k.1.2.2, false⟩ : Cell))
  let wt := kept.length / perWord m.df
  let cols := chunks (32 * kp) (kept.map (·.1))
  let w := writeRun rd m.dsp m.df (m.db + i * wt) (m.dsh + 2 * kp * i) (bitsN m.d 149 138) n0 (fun _ => sc)
    (fun (e : Int) => rng (keptIndex n0 kp cols e.toNat)) false false cells
  let idx := match mask with
    | some _ => []
    | none => (packAll 2 (kept.map (·.1))).zipIdx.map (fun (g : BitVec 256 × Nat) =>
        (⟨ix + sparseIdxWords pat * i + g.2, wordOf g.1 false, 0, false, allBytes⟩ : Out))
  return { (({} : Moved).add w) with idx }

/-- A compressed tile expanded: pruned positions are zero, then quantised along column blocks or rounded. -/
def Move.expand (m : Move) (rd : State) (c : Core) (pat ix i : Nat) (rng : Nat → Option Nat) : Res Wrote := do
  let kp := keptOf pat
  let n : Int := (bitsN m.d 137 119 : Int) + i
  let sc ← if isShingled m.sf then tileScale rd (tenNo rd c) (bitsN m.d 118 107) n else pure (0, false)
  let dc ← m.dstScale rd c ((bitsN m.d 168 150 : Int) + i)
  let wt := 4096 * kp / perWord m.sf
  let valAt (k : Nat) : Num × Bool :=
    let w := readWord rd m.ssp (m.sb + wt * i + k / perWord m.sf)
    let code := elemOf (elemBits m.sf) (k % perWord m.sf) w.data
    if isShingled m.sf then
      let h := readWord rd m.ssp (m.ssh + 2 * kp * i + k / 32 / 64)
      (sfDecode (fmtOf m.sf) sc.1 (elemOf 4 (k / 32 % 64) h.data) code, isPoisoned w || isPoisoned h || sc.2)
    else ((fmtOf m.sf).decode code, isPoisoned w)
  return m.writeTile rd i dc rng ((upTo 16384).map (fun (e : Nat) =>
    let r := if isColBlocks m.df then e % 128 else e / 128
    let col := if isColBlocks m.df then e / 128 else e % 128
    let k0 := 32 * kp * col + kp * (r / 4)
    match (upTo kp).find? (fun j => indexAt rd (.cs c) (ix + 32 * kp * i) (k0 + j) = r % 4) with
    | some j => let x := valAt (k0 + j); (⟨(e : Int), x.1, x.2, false⟩ : Cell)
    | none => ⟨(e : Int), .zero, false, false⟩))

/-! ### Stashes (08 R206 to R211) -/

/-- The formats a stash may write a delivered format in (08 Table 08.4). -/
def stashPair (sf df : Nat) : Bool :=
  match sf with
  | 0 => df = 0 || df = 5 || df = 6
  | 1 => df = 1 || df = 5 || df = 6
  | 2 => df = 2 || df = 5 || df = 6
  | 5 | 6 => df = 3 || df = 4 || df = 5 || df = 6
  | 3 | 4 => df = 3 || df = 4
  | _ => false

/-- The bitmap blocks of a logical block: 16 B for SF4, else 32 B. -/
def stashUnit (f : Nat) : Nat := if f = 3 || f = 4 then 2 else 1

/-- The pieces of a logical block of 128 words, each of one bitmap bit, in order. -/
def stashPieces (f : Nat) (ws : List (BitVec 256)) : List (BitVec 256) :=
  if stashUnit f = 2 then ws.flatMap (fun w => [w.extractLsb' 0 128 |>.setWidth 256, w.extractLsb' 128 128 |>.setWidth 256]) else ws

/-- Whether every element of a piece is zero but for its sign (02 R33). -/
def pieceZero (f : Nat) (w : BitVec 256) : Bool :=
  (upTo (256 / (stashUnit f * elemBits f))).all (fun k => elemOf (elemBits f) k w % 2 ^ (fmtOf f).mw = 0)

/-- The bitmap bits of a logical block: a 32-element block's pieces share its test (08 Table 08.5). -/
def stashBits (f : Nat) (ps : List (BitVec 256)) : List Bool :=
  let n := 32 * elemBits f / (256 / stashUnit f)
  (chunks (max 1 n) ps).flatMap (fun g => let z := g.all (pieceZero f); g.map (fun _ => !z))

/-- A stashed logical block: bitmap bits, packed words, 32-element blocks elided. -/
def stashBlock (f : Nat) (ws : List (BitVec 256)) : List Bool × List (BitVec 256) × Nat :=
  let ps := stashPieces f ws
  let bs := stashBits f ps
  let kept := ((ps.zip bs).filter (·.2)).map (·.1)
  let n := max 1 (32 * elemBits f / (256 / stashUnit f))
  (bs, if stashUnit f = 2 then (chunks 2 kept).map (fun (g : List (BitVec 256)) => nth g 0 0 ||| (nth g 0 1 <<< 128)) else kept,
    (bs.filter (!·)).length / n)

/-- A logical block expanded from its bitmap and packed words. -/
def unstashBlock (f : Nat) (bs : List Bool) (ws : List MemWord) : List MemWord :=
  let ps := if stashUnit f = 2 then
      ws.flatMap (fun w => [(⟨w.data.extractLsb' 0 128 |>.setWidth 256, w.syn⟩ : MemWord), ⟨w.data.extractLsb' 128 128 |>.setWidth 256, w.syn⟩])
    else ws
  let full := (bs.foldl (fun (a : List MemWord × List MemWord) b =>
    if b then (a.1 ++ [a.2.headD MemWord.zero], a.2.tail) else (a.1 ++ [MemWord.zero], a.2)) ([], ps)).1
  if stashUnit f = 2 then
    (chunks 2 full).map (fun g =>
      let x := nth g MemWord.zero 0
      let y := nth g MemWord.zero 1
      ⟨x.data ||| (y.data <<< 128), x.syn ||| y.syn⟩)
  else full

/-! ### `HMOVE` -/

/-- The latency L of a move's words; a move that converts, compresses, expands or stashes adds four cycles (11 R298). -/
def moveLat (s : State) (ssp : Nat) (conv : Bool) : Nat :=
  (if ssp = 1 then hbmRdLat s else 2) + (if conv then 4 else 0)

/-- The checks of a move descriptor (02 R49; 11 R284, R297 to R299; 12 R306). -/
def moveCheck (d : BitVec 512) : Bool :=
  let ssp := bitsN d 3 2
  let dsp := bitsN d 5 4
  let sf := bitsN d 33 30
  let df := bitsN d 37 34
  let her := bitsN d 487 486
  let stash := bitsN d 45 44
  let sparse := bitsN d 42 41
  let diag := bitB d 39
  ssp ≠ 3 && dsp ≠ 3 && !(ssp = 1 && dsp = 1) && !(ssp = 2 && dsp = 2) && !bitB d 255 && bitsN d 511 488 = 0 && her ≠ 3
  && addrOk ssp (bits d 319 256) && addrOk dsp (bits d 383 320) && bitsN d 29 6 ≠ 0
  && (if her ≠ 0 then sf = 0 && df = 0xF && stash = 0 && sparse = 0 && !diag && !bitB d 40 && !bitB d 43 && bitsN d 485 484 = 0
        && bitsN d 29 6 % 4 = 0
      else (stash = 0 || her = 0) && convPair sf df)
  && (!(stash = 1 || stash = 2) || (dsp = 1 && sparse = 0 && stashPair sf df && !isMx df))
  && (stash ≠ 3 || (ssp = 1 && sparse = 0 && !diag && (isPlain sf || isShingled sf)))
  && (!diag || (isPlain sf && ssp = 0 && bitsN d 274 256 % (16384 / perWord sf) = 0))
  && (!bitB d 40 || diag || isShingled sf)
  && (match sparse with
      | 0 => true
      | 3 => (sf = 4 || sf = 6 || sf = 1) && (isColBlocks df || isPlain df) && !diag
      | p => (df = 4 || df = 6 || (df = 1 && p = 1)) && (sf = 0 || sf = 1 || isColBlocks sf))
  && (sparse ≠ 0 || stash = 3 || (!bitB d 43))

/-- Words of a tile of a side and of its second plane; `pat` is its pattern where it is compressed (05 Table 05.3). -/
def sideTile (f pat : Nat) : Nat × Nat :=
  if pat = 0 then (wordsPerTile f, planeWords f) else (sparseWords f pat, if isShingled f then 2 * keptOf pat else 0)

/-- The effective second-plane base of a side whose address field moved by `a - base`; `tile` are its tile's words (11 R297). -/
def planeBase (f : Nat) (tile : Nat × Nat) (sh base : Nat) (a : Int) : Res Int :=
  if tile.2 = 0 then .ok sh
  else do
    let wt : Int := tile.1
    need (isMx f || decide ((a - base) % wt = 0)) 0x12
    return (sh : Int) + tile.2 * (a - base) / wt

/-- The pattern of a compressed source: SPARSE = 3 names none. BF16 has 2:4 alone; else a free value chooses (DESIGN CHOICE, log
entry 9). -/
def expandPat (s : State) (sf : Nat) : Nat := if sf = 1 ∨ Config.freeValue s.fresh % 2 = 0 then 1 else 2

/-- A second plane's first word, in its space's bounds. -/
def planeAt (s : State) (c : Core) (sp : Nat) (a : Int) (n : Nat) (isOut : Bool) : Res Nat :=
  if n = 0 then .ok 0 else rangeIn s c sp a n isOut

/-- The words that a move leaves in its destination, written at once, or on their way when they come from HBM. -/
def State.deliver (s : State) (c : Core) (ch : Nat) (ssp : Nat) (sp : Space) (outs : List Out) (at' : Nat → Nat)
    (src : Nat → Option Nat) (hall : BitVec 64 → Nat → BitVec 64) : State :=
  if ssp = 1 then s.enqueue c ch (flightOf (match sp with | .mbox _ => 1 | _ => 0) sp outs at' src (fun b => hall (hallOf s sp (128 * b)) b))
  else s.emitWith sp outs hall

/-- The move that a descriptor names, resolved (10 R264, 11 R297). -/
def openMove (s : State) (c : Core) (d : BitVec 512) : Res Move := do
  need (moveCheck d) 0x12
  let ssp := bitsN d 3 2
  let dsp := bitsN d 5 4
  let sf := bitsN d 33 30
  let df := bitsN d 37 34
  let her := bitsN d 487 486 ≠ 0
  let count := bitsN d 29 6
  let sparse := bitsN d 42 41
  let stash := bitsN d 45 44
  let trans := bitB d 40
  let aS := addrAny s c ssp (bits d 319 256)
  let aD := addrAny s c dsp (bits d 383 320)
  let pat := if sparse = 3 then expandPat s sf else sparse
  let tS := sideTile sf (if sparse = 3 then pat else 0)
  let tD := sideTile df (if sparse = 3 then 0 else sparse)
  let linear := her || carries sf df trans sparse || (isPlain sf && isPlain df && !trans && sparse = 0)
  let nt : Nat := if linear then 0 else if sparse = 3 then count / tS.1 else (tilesOf sf count).getD 0
  need (linear || (if sparse = 3 then decide (count % tS.1 = 0) else (tilesOf sf count).isSome)) 0x12
  need (!linear || her || sf = df || decide (count * perWord sf % perWord df = 0)) 0x12
  need (!bitB d 39 || decide (aS % (16384 / perWord sf : Nat) = 0)) 0x12
  let dn := if her then count / 4
    else if linear then (if sf = df then count else count * perWord sf / perWord df)
    else if sparse = 1 ∨ sparse = 2 then nt * tD.1 else tileRun df nt
  let sb ← if stash = 3 then pure 0 else rangeIn s c ssp aS count false
  let db ← if stash = 1 ∨ stash = 2 then pure 0 else rangeIn s c dsp aD dn true
  let pS ← planeBase sf tS (bitsN d 417 384) (addrBase ssp (bits d 319 256)) aS
  let pD ← planeBase df tD (bitsN d 451 418) (addrBase dsp (bits d 383 320)) aD
  let ssh ← if linear then pure 0 else planeAt s c ssp pS (tS.2 * nt) false
  let dsh ← if linear then pure 0 else planeAt s c dsp pD (tD.2 * nt) true
  need (!(trans && isShingled sf)) 0x14
  return { d, ssp := spaceOf c ssp, dsp := spaceOf c dsp, sf, df, sb, db, ssh, dsh, count, tiles := nt,
           diag := bitB d 39, trans, pat }

/-- The words of a tile of a move's source and of its second plane. -/
def Move.srcSide (m : Move) : Nat × Nat := sideTile m.sf (if m.sparse = 3 then m.pat else 0)

/-- The words of a tile of a move's destination and of its second plane. -/
def Move.dstSide (m : Move) : Nat × Nat := sideTile m.df (if m.sparse = 3 then 0 else m.pat)

/-- What a move writes, its source read. -/
def Move.work (m : Move) (rd : State) (c : Core) (rng : Nat → Option Nat) : Res Moved := do
  let sparse := bitsN m.d 42 41
  let her := bitsN m.d 487 486
  if her ≠ 0 then
    let f : Fmt := if her = 1 then .e4m3 else .e5m2
    let es := (upTo (8 * m.count)).map (fun i =>
      let x := planeCode rd m.ssp 0 m.sb i
      (herConvert f (bits m.d 483 452) (BitVec.ofNat 32 x.1), x.2))
    return { els := (chunks 32 es).zipIdx.map (fun (g : List (Nat × Bool) × Nat) =>
      (⟨m.db + g.2, wordOf (packWord 8 (g.1.map (·.1))) (g.1.any (·.2)), 0, false, allBytes⟩ : Out)) }
  else if sparse = 3 then
    let n := sparseIdxWords m.pat * m.tiles
    let ix ← csRange rd c (bitsN m.d 254 237 : Nat) n
    needHall rd (.cs c) ((upTo n).map (ix + ·)) 0xF none
    let r ← (upTo m.tiles).foldlM (fun (a : Moved) i => do
      let w ← m.expand rd c m.pat ix i rng
      return a.add w) {}
    return { r with used := 1 }
  else if sparse ≠ 0 then
    let n := sparseIdxWords sparse * m.tiles
    let ix ← csRange rd c (bitsN m.d 254 237 : Nat) n
    if bitB m.d 43 then needHall rd (.cs c) ((upTo n).map (ix + ·)) 0xF none
    let r ← (upTo m.tiles).foldlM (fun (a : Moved) i => do
      let w ← m.compress rd c sparse (if bitB m.d 43 then some ix else none) ix i (fun k => Config.freeValue (rd.fresh + k)) rng
      return { (a.add { els := w.els, shs := w.shs, reps := w.reps, q := w.q, fl := w.fl, ovf := w.ovf }) with idx := a.idx ++ w.idx }) {}
    return { r with used := 4096 * m.tiles }
  else if m.carries then
    return { els := (upTo m.count).map (fun k =>
      let w := readWord rd m.ssp (m.srcWord k)
      (⟨m.db + k, w, plainMax m.df w.data, false, allBytes⟩ : Out)) }
  else if isPlain m.sf && isPlain m.df && !m.trans then return m.linear rd rng
  else if isMx m.sf && m.sf = m.df then
    return { els := copyOuts rd m.ssp m.sb m.db m.count (fun k _ => mxMax rd m.ssp m.sf m.sb m.ssh m.tiles k)
             shs := copyOuts rd m.ssp m.ssh m.dsh (16 * m.tiles) (fun _ _ => 0) }
  else if isMx m.df then m.mxOut rd c
  else if isMx m.sf then
    (upTo m.tiles).foldlM (fun (a : Moved) i => do
      let w ← m.mxIn rd c i rng
      return { els := a.els ++ w.els, shs := a.shs ++ w.shs, reps := a.reps ++ w.reps, q := a.q + w.q, fl := a.fl + w.fl, ovf := a.ovf || w.ovf }) {}
  else if m.sf = m.df && isShingled m.sf then
    (upTo m.tiles).foldlM (fun (a : Moved) i => do
      let w ← m.sameTile rd c i rng
      return { els := a.els ++ w.els, shs := a.shs ++ w.shs, reps := a.reps ++ w.reps, q := a.q + w.q, fl := a.fl + w.fl, ovf := a.ovf || w.ovf }) {}
  else
    (upTo m.tiles).foldlM (fun (a : Moved) i => do
      let w ← m.convTile rd c i rng
      return a.add w) {}

/-- What the quantisers of a move leave besides its words: reports, guard latch, watch, ledger notes (07 R165, R167, R177,
R180). -/
def State.noteMove (s rd : State) (c : Core) (m : Move) (w : Moved) (key : Option Nat) : State :=
  let t := tenNo rd c
  let tiles := (upTo (max m.tiles 1))
  let s1 := if isShingled m.sf then tiles.foldl (fun (s : State) i => s.noteTile c 7 (bitsN m.d 118 107) ((bitsN m.d 137 119 : Int) + i)) s else s
  let s2 := if isShingled m.df then tiles.foldl (fun (s : State) i => s.noteTile c 7 (bitsN m.d 149 138) ((bitsN m.d 168 150 : Int) + i)) s1 else s1
  let s3 := (s2.report t w.reps).guardLatch c (bitB m.d 47) w.ovf
  let s4 := match key with | some k => s3.countWatch k false 0 w.q w.fl | none => s3
  { s4 with fresh := s4.fresh + w.used }

/-- Whether a move changes the axis along which its elements run: a destination word then waits for its tile (11 R298). -/
def Move.turns (m : Move) : Bool :=
  if m.sparse = 3 then !isColBlocks m.df
  else if m.sparse ≠ 0 then !isColBlocks m.sf && !m.trans
  else !m.trans && !isMx m.sf && !isMx m.df && decide (isColBlocks m.sf ≠ isColBlocks m.df)

/-- The first and last source word, from the source's first, of the 32-element blocks that destination word `k` holds, where a
word of its plane holds `n` elements or their shingles (11 R298). -/
def Move.span (m : Move) (n k : Nat) : Nat × Nat :=
  if m.turns then
    let t := k * n / (if m.sparse = 1 ∨ m.sparse = 2 then 4096 * keptOf m.pat else 16384)
    (t * m.srcSide.1, (t + 1) * m.srcSide.1 - 1)
  else
    let r : Nat × Nat := if m.sparse = 0 then (1, 1) else if m.sparse = 3 then (keptOf m.pat, 4) else (4, keptOf m.pat)
    let at' (e : Nat) : Nat := min (m.count - 1) (e * r.1 / r.2 / perWord m.sf)
    (at' (k * n / 32 * 32), at' (ceilDiv ((k + 1) * n) 32 * 32 - 1))

/-- The source words that element word `k` of the destination comes from; `copied` says that the move copies codes. -/
def Move.back (m : Move) (copied : Bool) (k : Nat) : Nat × Nat :=
  if copied then (k, k) else m.span (if bitsN m.d 487 486 ≠ 0 then 32 else perWord m.df) k

/-- Elements whose shingles or scales a word of the destination's second plane holds. -/
def Move.perPlane (m : Move) : Nat := if isMx m.df then 1024 else 2048

/-- The cycle of a destination word: `lat` after its last source word's read. Words that wait for their tile leave at the pace at
which it was read (DESIGN CHOICE, log entry 17): word `k` is one of `wd` of its tile. -/
def Move.cycle (m : Move) (first rate lat last wd k : Nat) : Nat :=
  first + last / rate + lat + (if m.turns then k % max 1 wd * m.srcSide.1 / (max 1 wd * rate) else 0)

/-- The cycle of element word `k`, and of second-plane word `k`. -/
def Move.elCycle (m : Move) (copied : Bool) (first rate lat k : Nat) : Nat :=
  m.cycle first rate lat (m.back copied k).2 m.dstSide.1 k

def Move.shCycle (m : Move) (copied : Bool) (first rate lat k : Nat) : Nat :=
  let n := max 1 m.dstSide.2
  m.cycle first rate lat (if copied then k / n * m.srcSide.1 + k % n else (m.span m.perPlane k).2) n k

/-- The move's words delivered: element plane, second plane and index plane, with their hallmarks. `first` is the cycle of
its first read, `again` the tiles it re-quantises. -/
def State.finishMove (s rd : State) (c : Core) (ch : Nat) (m : Move) (w : Moved) (again : List Nat) (conv : Bool) (first rate : Nat) : State :=
  let ssp := bitsN m.d 3 2
  let her := bitsN m.d 487 486 ≠ 0
  let copied := m.carries || (m.sameCoded && again = [])
  let kept (wt base b : Nat) : Bool := (m.carries && !m.diag) ||
    (m.sameCoded && again.all (fun i => decide (i < (128 * b - base) / max 1 wt) || decide ((128 * b + 127 - base) / max 1 wt < i)))
  let gen := bitsN m.d 90 75
  let lat := moveLat rd ssp conv
  let bad := badBlocks rd m.ssp m.sb m.count
  let src (k : Nat) : Option Nat := if m.carries && ssp = 1 && bitsN m.d 45 44 = 0 then some (m.sb + k) else none
  let back (k : Nat) : Nat × Nat := let r := m.back copied k; (m.sb + r.1, m.sb + r.2)
  let s1 := s.deliver c ch ssp m.dsp w.els (m.elCycle copied first rate lat) src
    (moveHall rd m.ssp m.sb m.count m.db (kept m.dstSide.1 m.db) (if her then 0xF else m.df) gen w.els bad back)
  let s2 := s1.deliver c ch ssp m.dsp w.shs (m.shCycle copied first rate lat) (fun _ => none)
    (moveHall rd m.ssp m.ssh (m.srcSide.2 * m.tiles) m.dsh (kept m.dstSide.2 m.dsh) (if isShingled m.df then 0xE else 0xF) gen w.shs
      (if m.ssh = 0 then [] else badBlocks rd m.ssp m.ssh (m.srcSide.2 * m.tiles)) (fun k => (m.ssh + k, m.ssh + k)))
  s2.deliver c ch ssp (.cs c) w.idx (fun _ => m.elCycle copied first rate lat (w.els.length - 1)) (fun _ => none)
    (fun old b => newHall old 0xF gen w.idx b)

/-- Where the model lays the expanded words of a stash return while it converts them: beyond every stack. -/
def scratchKey : Nat := 2 ^ 34

/-- A logical block of a stash checked and expanded, with its packed words' addresses (08 R208, R211). -/
def unstash (rd : State) (f base area dir bmap j : Nat) : Res (List MemWord × List Nat) := do
  let e := elemOf 64 (j % 4) (readWord rd .hbm (dir + j / 4)).data
  let off := e % 2 ^ 32
  let kept := e / 2 ^ 32 % 512
  let bw := (readWord rd .hbm (bmap + j)).data
  let bs := (upTo (128 * stashUnit f)).map (fun i => bw.getLsbD i)
  need (decide (kept = ((upTo 256).filter (fun i => bw.getLsbD i)).length * (2 / stashUnit f))) 0x1E
  let n := ceilDiv kept 2
  need (decide (off + n ≤ area)) 0x1E
  let as := (upTo n).map (base + off + ·)
  return (unstashBlock f bs (as.map (readWord rd .hbm)), as)

/-- The source of a stash return laid out where the move reads it: the state to read, the words read (08 R208, R211). -/
def openReturn (rd : State) (c : Core) (d : BitVec 512) (f count : Nat) : Res (State × List Nat × Nat) := do
  let t := tenNo rd c
  let nb := ceilDiv count 128
  let pool := bitsN d 485 452
  let area := if pool = 0 then 128 * nb else pool
  let base ← hbmRange rd t (addrHA rd c (bits d 319 256)) area
  let dir ← hbmRange rd t (bitsN d 202 169 : Nat) (ceilDiv nb 4)
  let bmap ← hbmRange rd t (bitsN d 236 203 : Nat) nb
  let tag := if bitB d 46 then some (bitsN d 106 91) else none
  needHall rd .hbm ((upTo (ceilDiv nb 4)).map (dir + ·)) 0xF tag
  needHall rd .hbm ((upTo nb).map (bmap + ·)) 0xF tag
  let r ← (upTo nb).foldlM (fun (a : State × List Nat) j => do
    let x ← unstash rd f base area dir bmap j
    let h := if pool = 0 then hallOf rd .hbm (base + 128 * j) else look rd.hbm.stash hallZero (bmap + j)
    need (hallNocrc h || decide (hallCrc h = crcWords (x.1.map (·.data)))) 0x14
    let k := scratchKey + 128 * j
    let s1 := (x.1.zipIdx).foldl (fun (s : State) (w : MemWord × Nat) => s.writeWord .hbm (k + w.2) w.1) a.1
    return (s1.writeHall .hbm k h, a.2 ++ x.2)) (rd, [])
  return (r.1, r.2 ++ (upTo (ceilDiv nb 4)).map (dir + ·) ++ (upTo nb).map (bmap + ·), base)

/-- The hallmark that travels with a block of a pooled stash, kept by the word of its bitmap (08 R208). -/
def State.keepStash (s : State) (k : Nat) (h : BitVec 64) : State :=
  { s with hbm := { s.hbm with stash := set s.hbm.stash k h } }

/-- A logical block of a stash packed: its number, its offset in the area, its packed words, its hallmark, the words it
stands for, its directory entry and bitmap, and the elements it leaves out. -/
structure StashBlk where
  j    : Nat
  off  : Nat
  ws   : List MemWord
  hall : BitVec 64
  full : List (BitVec 256)
  ent  : Nat
  bits : BitVec 256
  gone : Nat

/-- A stash with its checks passed: where its area, directory and bitmaps lie, whether it is pooled, its blocks up to the first
that does not fit, and whether one does not (08 R206 to R210). -/
structure StashPlan where
  base   : Nat
  dir    : Nat
  bmap   : Nat
  pooled : Bool
  blks   : List StashBlk
  short  : Bool

/-- One logical block packed. -/
def stashBlk (m : Move) (off : Nat) (b : List Out × Nat) : StashBlk :=
  let ws := (b.1.map (fun o => o.w.data)) ++ List.replicate (128 - b.1.length) 0
  let k := stashBlock m.df ws
  let po := b.1.any (fun o => isPoisoned o.w)
  { j := b.2, off, ws := k.2.1.map (fun x => wordOf x po)
    hall := mkHall (crcWords ws) (b.1.foldl (fun m o => max m o.mx) 0) m.df po (b.1.any (·.ovf)) false (bitsN m.d 90 75)
    full := ws, ent := off % 2 ^ 32 + (k.1.filter (·)).length * (2 / stashUnit m.df) * 2 ^ 32
    bits := BitVec.ofNat 256 (k.1.foldr (fun x n => 2 * n + (if x then 1 else 0)) 0), gone := k.2.2 }

/-- The blocks of a stash laid out in an area of `area` words, up to the first that does not fit. -/
def stashLayout (m : Move) (pooled : Bool) (area : Nat) (blocks : List (List Out × Nat)) : List StashBlk × Bool :=
  let r := blocks.foldl (fun (a : List StashBlk × Nat × Bool) (b : List Out × Nat) =>
    let k := stashBlk m (if pooled then a.2.1 else 128 * b.2) b
    if a.2.2 || decide (k.off + k.ws.length > area) then (a.1, a.2.1, true) else (a.1 ++ [k], k.off + k.ws.length, false)) ([], 0, false)
  (r.1, r.2.2)

/-- The checks of a stash. -/
def stashPlan (rd : State) (c : Core) (m : Move) (w : Moved) : Res StashPlan := do
  let t := tenNo rd c
  let pooled := bitsN m.d 45 44 = 2
  let blocks := chunks 128 w.els
  let nb := blocks.length
  let area := if pooled then bitsN m.d 485 452 else 128 * nb
  let base ← hbmRange rd t (addrHA rd c (bits m.d 383 320)) area
  let dir ← hbmRange rd t (bitsN m.d 202 169 : Nat) (ceilDiv nb 4)
  let bmap ← hbmRange rd t (bitsN m.d 236 203 : Nat) nb
  let l := stashLayout m pooled area blocks.zipIdx
  return ⟨base, dir, bmap, pooled, l.1, l.2⟩

/-- The packed words of a block of a stash. -/
def StashPlan.blockOuts (p : StashPlan) (k : StashBlk) : List Out :=
  k.ws.zipIdx.map (fun (x : MemWord × Nat) => (⟨p.base + k.off + x.2, x.1, 0, false, allBytes⟩ : Out))

/-- One block of a stash written, with its hallmark and counts. -/
def State.putBlock (s : State) (t : Nat) (c : Core) (m : Move) (p : StashPlan) (k : StashBlk) : State :=
  let s1 := (p.blockOuts k).foldl (fun (s : State) o => s.writeOut (some t) .hbm o) s
  let s2 := if p.pooled then (s1.keepStash (p.bmap + k.j) k.hall).foldTwin t k.hall
    else s1.writeHallT (some t) .hbm ((p.base + k.off) / 128) k.hall (some k.full)
  (s2.countCore c 0x150 (1024 / elemBits m.df)).countCore c 0x158 k.gone

/-- The directory words of a stash. -/
def StashPlan.dirOuts (p : StashPlan) : List Out :=
  (chunks 4 (p.blks.map (·.ent))).zipIdx.map (fun (g : List Nat × Nat) =>
    (⟨p.dir + g.2, wordOf (packWord 64 g.1) false, 0, false, bytesOf 64 (upTo g.1.length)⟩ : Out))

/-- The bitmap words of a stash. -/
def StashPlan.mapOuts (p : StashPlan) : List Out :=
  (p.blks.map (·.bits)).zipIdx.map (fun (x : BitVec 256 × Nat) => (⟨p.bmap + x.2, wordOf x.1 false, 0, false, allBytes⟩ : Out))

/-- The words of a stash, in the order they are written: packed words, then, where every block fits, directory, bitmaps and `shs`. -/
def StashPlan.outs (p : StashPlan) (shs : List Out) : List Out :=
  p.blks.flatMap p.blockOuts ++ (if p.short then [] else p.dirOuts ++ p.mapOuts ++ shs)

/-- A stash written: packed words, then directory and bitmaps; a block that does not fit ends it. -/
def State.putStash (s : State) (t : Nat) (c : Core) (m : Move) (p : StashPlan) (shs : List Out) : State :=
  let s1 := p.blks.foldl (fun (s : State) k => s.putBlock t c m p k) s
  if p.short then s1 else
    let gen := bitsN m.d 90 75
    ((s1.emit .hbm 0xF gen p.dirOuts).emit .hbm 0xF gen p.mapOuts).emit .hbm 0xE gen shs

/-- A channel of a core occupied until its last source word is read. -/
def State.takeChannel (s : State) (c : Core) (ch until' : Nat) : State :=
  { s with cores := { s.cores with chBusy := put 0 s.cores.chBusy (chKey c ch) until' } }

/-- A channel that can take an instruction (10 Table 10.2). -/
def needChannel (rd : State) (c : Core) (ch : Nat) : Res Unit :=
  need (decide (look rd.cores.chBusy 0 (chKey c ch) ≤ unitClock rd c)) 0x02

/-- The core-store words of a move, each at its cycle: element words and second planes read and written, index planes, and its
tile-scale reads, each pair as its tile begins (07 R165; 11 R298; log entry 17). -/
def Move.ports (m : Move) (u first rate lat dn nsh : Nat) (copied : Bool) : List PortRun :=
  let cyc := ceilDiv m.count rate
  let every := max 1 (m.srcSide.1 / rate)
  let scl := (if isShingled m.sf then 1 else 0) + (if isShingled m.df then 1 else 0)
  let n := m.srcSide.2
  let idx := if m.sparse = 0 then 0 else sparseIdxWords m.pat * m.tiles
  (if scl = 0 then [] else [{ first := u, period := every, burst := 1, reps := m.tiles, scl : PortRun }])
    ++ (if bitsN m.d 3 2 = 0 then
        (.solid first cyc (min rate m.count) 0) ::
          (if m.tiles = 0 || n = 0 then [] else [{ first, period := every, burst := ceilDiv n rate, reps := m.tiles, rd := min rate n : PortRun }]) else [])
    ++ (if bitsN m.d 5 4 = 0 then
        (.paced (m.elCycle copied first rate lat 0) cyc (dn * rate) m.count true) ::
          (if nsh = 0 then [] else [.paced (m.shCycle copied first rate lat 0) cyc (nsh * rate) m.count true]) else [])
    ++ (if idx = 0 then []
        else if m.sparse = 3 || bitB m.d 43 then [.paced first cyc (idx * rate) m.count false]
        else [.paced (m.elCycle copied first rate lat 0) cyc (idx * rate) m.count true])

/-- The HBM requests of a move (12 R311, 11 R298): the reads from `from'`, with each block's hallmark word beside its first, or
the writes to `dest`, at their words' cycles, with each block's hallmark word in the cycle after its last; the second plane's words
beside them. A stash and its return take those of their uncompressed words from the area's first on (08 R210; log entry 17). -/
def Move.requests (m : Move) (from' dest first rate dn nsh : Nat) (copied conv : Bool) : List (Nat × Nat) :=
  if m.ssp = .hbm then
    (upTo m.count).flatMap (fun k => (first + k / rate, from' + k) ::
      if k = 0 ∨ (from' + k) % 128 = 0 then [(first + k / rate, hallWord (from' + k))] else [])
    ++ (upTo (m.srcSide.2 * m.tiles)).map (fun k =>
      (first + (k / max 1 m.srcSide.2 * m.srcSide.1 + k % max 1 m.srcSide.2) / rate, m.ssh + k))
  else if m.dsp = .hbm then
    let lat := 2 + (if conv then 4 else 0)
    (upTo dn).flatMap (fun k =>
      let t := m.elCycle copied first rate lat k
      (t, dest + k) :: if k + 1 = dn ∨ (dest + k) % 128 = 127 then [(t + 1, hallWord (dest + k))] else [])
    ++ (upTo nsh).map (fun k => (m.shCycle copied first rate lat k, m.dsh + k))
  else []

/-- The cycle in which a move within a core store reads a word: of its elements or of its second plane. -/
def Move.readAt (m : Move) (first rate a : Nat) : Option Nat :=
  if m.sb ≤ a ∧ a < m.sb + m.count then some (first + (a - m.sb) / rate)
  else if m.tiles ≠ 0 ∧ m.ssh ≤ a ∧ a < m.ssh + m.srcSide.2 * m.tiles then
    let k := a - m.ssh
    some (first + (k / max 1 m.srcSide.2 * m.srcSide.1 + k % max 1 m.srcSide.2) / rate)
  else none

/-- The words of a move within one core store that it reads again after it has written them (11 R298, 12 R305). -/
def Move.reread (m : Move) (w : Moved) (copied : Bool) (first rate lat : Nat) : List (Nat × MemWord) :=
  if m.ssp ≠ m.dsp then [] else
    let late (o : Out) (at' : Nat) : Bool := (m.readAt first rate o.a).any (fun x => decide (at' < x))
    (w.els.zipIdx.filter (fun (o : Out × Nat) => late o.1 (m.elCycle copied first rate lat o.2))
      ++ w.shs.zipIdx.filter (fun (o : Out × Nat) => late o.1 (m.shCycle copied first rate lat o.2))).map (fun o => (o.1.a, o.1.w))

/-- What a move writes where it may read words of its own destination: worked again over those words until they stand. -/
def Move.workOver (m : Move) (rd : State) (c : Core) (rng : Nat → Option Nat) (copied : Bool) (first rate lat : Nat) (fuel : Nat)
    (again : List (Nat × MemWord)) : Res Moved := do
  let w ← m.work (again.foldl (fun (s : State) x => s.writeWord m.ssp x.1 x.2) rd) c rng
  match fuel with
  | 0 => return w
  | f + 1 =>
    let o := m.reread w copied first rate lat
    if o = again then return w else m.workOver rd c rng copied first rate lat f o

/-- `HMOVE` with its checks passed: the move named and the move as it runs (a stash return reads its expanded words), the state
it reads and the words a return reads, its watch, what it writes, the tiles it re-quantises, its stash, whether it copies codes,
whether its words take the four cycles more, and the cycle of its first read. `area` is the first word of a return's area. -/
structure MovePlan where
  m0     : Move
  m      : Move
  rv     : State
  back   : List Nat
  area   : Nat
  key    : Option Nat
  w      : Moved
  again  : List Nat
  stash  : Option StashPlan
  copied : Bool
  conv   : Bool
  first  : Nat

/-- The checks of `HMOVE`. -/
def hmovePlan (c : Core) (desc : BitVec 10) (ch : BitVec 2) (rate : Nat) (rd : State) : Res MovePlan := do
  let u := unitClock rd c
  let t := tenNo rd c
  needChannel rd c ch.toNat
  let d ← latchForm rd c desc 2 [0]
  need (moveCheck d) 0x12
  let stash := bitsN d 45 44
  let key ← if bitB d 48 then Option.some <$> watchKey rd t (bitsN d 58 49) else pure Option.none
  let rng ← rngOf rd c (bitB d 38 && bitsN d 487 486 = 0) (bitsN d 74 59)
  let m0 ← openMove rd c d
  let back ← if stash = 3 then openReturn rd c d m0.sf m0.count else pure (rd, [], 0)
  let m := if stash = 3 then { m0 with sb := scratchKey } else m0
  let rv := back.1
  let tag := if bitB d 46 then some (bitsN d 106 91) else none
  let again ← m.again rv c
  let copied := m.carries || (m.sameCoded && again = [])
  let wt := m.srcSide.1
  needBlocks rv m.ssp m.sb m.count (!m.carries && !m.sameCoded) m.sf tag
  needBlocks rv m.ssp m.ssh (m.srcSide.2 * m.tiles) (!m.carries && !m.sameCoded) (if isShingled m.sf then 0xE else 0xF) tag
  again.forM (fun i => needBlocks rv m.ssp (m.sb + wt * i) wt true m.sf tag)
  again.forM (fun i => needBlocks rv m.ssp (m.ssh + 8 * i) 8 true 0xE tag)
  let conv := !copied || decide (stash ≠ 0)
  let first := u + 1 + (if isShingled m.sf || isShingled m.df then sclLat rd else 0)
  let w ← m.workOver rv c rng copied first rate (moveLat rd (bitsN d 3 2) conv) (m.count + 1) []
  if w.reps ≠ [] then quantOpen rd t
  let st ← if stash = 1 ∨ stash = 2 then Option.some <$> stashPlan rd c m w else pure Option.none
  return { m0, m, rv, back := back.2.1, area := back.2.2, key, w, again, stash := st, copied, conv, first }

/-- The words a move reads, but for those of a plain move from HBM, which it reads as they land (12 R314). -/
def MovePlan.reads (p : MovePlan) : List Nat :=
  if bitsN p.m.d 3 2 = 1 && p.back = [] && p.m.carries then []
  else if p.back ≠ [] then p.back else (upTo p.m.count).map (p.m.sb + ·)

/-- What a move leaves. -/
def moveRun (c : Core) (ch : BitVec 2) (rate : Nat) (p : MovePlan) (rd s : State) : State :=
  let m := p.m
  let plane := m.srcSide.2 * m.tiles
  let s1 := s.takeChannel c ch.toNat (p.first + ceilDiv m.count rate)
  let s2 := (s1.checkCrc p.rv c m.ssp m.sb m.count).checkCrc p.rv c m.ssp m.ssh plane
  let s3 := (s2.noteReads p.m0.ssp p.reads).noteReads m.ssp ((upTo plane).map (m.ssh + ·))
  let s4 := (s3.noteMove rd c m p.w p.key).quantUntil rd c 3 (decide (p.w.reps ≠ []))
    (p.first + ceilDiv m.count rate + moveLat rd (bitsN m.d 3 2) p.conv)
  match p.stash with
  | some st => (s4.sumHaul c 13 (st.outs p.w.shs).length).putStash (tenNo rd c) c m st p.w.shs
  | none =>
    let s5 := if p.m0.ssp = .hbm then s4.sumHaul c 12 (if p.back = [] then m.count else p.back.length) else s4
    let s6 := if p.m0.dsp = .hbm then s5.sumHaul c 13 (p.w.els.length + p.w.shs.length) else s5
    s6.finishMove p.rv c ch.toNat m p.w p.again p.conv p.first rate

/-- The port use of a move. -/
def MovePlan.portRuns (p : MovePlan) (u rate lat : Nat) : List PortRun :=
  p.m.ports u p.first rate lat p.w.els.length p.w.shs.length p.copied

/-- The HBM requests of a move. -/
def MovePlan.slots (p : MovePlan) (rate : Nat) : List (Nat × Nat) :=
  p.m.requests (if bitsN p.m.d 45 44 = 3 then p.area else p.m.sb) (match p.stash with | some st => st.base | none => p.m.db)
    p.first rate p.w.els.length p.w.shs.length p.copied p.conv

/-- `HMOVE`. -/
def hmoveAct (c : Core) (desc : BitVec 10) (ch rateCode : BitVec 2) (rd s : State) : Res State := do
  let rate := 2 ^ rateCode.toNat
  let p ← hmovePlan c desc ch rate rd
  let s1 ← s.claimPorts c (p.portRuns (unitClock rd c) rate (moveLat rd (bitsN p.m.d 3 2) p.conv))
  let s2 ← s1.claimSlots c ch.toNat (p.slots rate)
  let t ← (moveRun c ch rate p rd s2).holdMerges rd c (p.portRuns (unitClock rd c) rate (moveLat rd (bitsN p.m.d 3 2) p.conv))
  if (match p.stash with | some st => st.short | none => false) then throw (.after t 0x1D 0) else return t

/-- `HMOVE` issued alone in slot HL (11 Table 11.13). -/
def execHmove (c : Core) (desc : BitVec 10) (ch rate : BitVec 2) (s : State) : Answer :=
  .next (slotOp c 3 (hmoveAct c desc ch rate) s s)

end Sys2Proof.Machine
end

