-- ==== Sys2Proof/Machine/Fabric.lean ====
section
/-! DEFINITION. The fabric dies' receiving, moves between ports, and the job-ending errors of the fabric (13 R343, R350, R352). -/

namespace Sys2Proof.Machine

open Sys2Proof

/-- A job-ending error of a tenancy's job with its code, raised by this chip: it issues nothing more (15 R417). -/
def State.jobEnds (s : State) (t : Nat) (code : BitVec 8) : State :=
  if (s.ten t).load.st = .running || (s.ten t).load.st = .loaded then
    (s.endError t code).modTen t (fun n => n.stopNow s.now)
  else s

/-- A job-ending error by its place in Table 15.4, where Table 18.6 gives it no code. -/
def State.jobFatal (s : State) (t k : Nat) : State := s.jobEnds t (BitVec.ofNat 8 (Config.endCode k))

/-- The axis a flow's frames travel along: its channel's send axis, or the axis its peer differs on. -/
def flowAxis (s : State) (t ch peer : Nat) : Nat :=
  if ch < 4094 then recSaxis (chanRec s t ch)
  else ((upTo 4).find? (fun k => onAxis s (myId s) peer k)).getD 0

/-- The port a flow sends on. -/
def flowPort (s : State) (t ch peer : Nat) : Port :=
  let fl := sendOf s t ch peer
  fl.port.getD (match fl.held with
    | ⟨_, .frame f, _⟩ :: _ => Fin.ofNat 16 f.port.toNat
    | _ => recPort s t (chanRec s t ch))

/-- A port from which a flow moves away: twice in an hour asks for a link assay (18 Table 18.11). -/
def State.portFails (s : State) (p : Port) : State :=
  let s1 := (s.addFigure 3 (4 * p.val + 3) 1).modPort p (fun q => { q with failOver := q.failOver.filter (fun x => s.now < x + hourTicks) ++ [s.now] })
  if trigOn s1 3 && decide (2 ≤ (portOf s1 p).failOver.length) then s1.requestAssay 3 p.val false else s1

/-- A flow moved to the next live port of its axis (13 R352): ascending, with wrap-around. -/
def State.failOver (s : State) (t ch peer : Nat) : State :=
  let old := flowPort s t ch peer
  let ps := axisPorts s t (flowAxis s t ch peer)
  match ((ps.filter (fun p => old < p)) ++ (ps.filter (fun p => p < old))).find? (fun p => livePort s p) with
  | none => s.jobFatal t 6
  | some p =>
    let fl := sendOf s t ch peer
    let s0 := s.setSend t ch peer { fl with port := some p, onPort := 0, advanced := s.now }
    let s1 := s0.portFails old
    ((s1.countTen t 0x2130 1).dayTen t 0x51 0 (old.val * 16 + p.val) ch 0).goBack t ch peer 0

/-! ### Receipt (13 R343, R350, Table 13.7) -/

/-- Whether a frame's header is bad. -/
def badHeaderOf (f : Frame) : Bool := decide (f.ver ≠ 1) || decide (10 ≤ f.kind.toNat) || decide (128 < f.payload.length)

/-- Whether the tenancy has the job a frame names. -/
def jobMatches (s : State) (f : Frame) : Bool :=
  let t := f.ten.toNat
  decide ((s.ten t).load.st ≠ .empty) && decide (f.job.toNat = hdr s t 2 2)

/-- The rows of Table 13.7 before the sequence number: the state left, and whether the frame goes on. -/
def State.checkFrame (s : State) (p : Port) (f : Frame) (bad peerOk : Bool) : State × Bool :=
  let t := f.ten.toNat
  if !(portOf s p).link then (s, false) else
    let s := (s.count (portOff p.val 0x08) 1).chargeFrame p f
    if badHeaderOf f || bad then (s.count (portOff p.val 0x40) 1, false)
    else if f.dst.toNat ≠ myId s ∨ f.plane.toNat ≠ p.val then (s.count (portOff p.val 0x48) 1, false)
    else if f.epoch < (s.ten t).recov.epoch then (s.countTen t 0x2120 1, false)
    else if (s.ten t).recov.epoch < f.epoch then (s.countTen t 0x2128 1, false)
    else if !jobMatches s f || !peerOk then
      ((s.count (portOff p.val 0x48) 1).daybook 0x50 0 t 0x7F 11 p.val (headerLow f) 0, false)
    else (s, true)

/-- A NAK of a flow, sent back on the port the frame came on. -/
def State.sendNak (s : State) (p : Port) (t ch peer : Nat) : State :=
  let rc := recvOf s t ch peer
  ((s.countTen t 0x2110 1).setRecv t ch peer { rc with nakSent := true }).emitFrame p
    { mkFrame s t 2 peer ch 0 p [] with ack := rc.expected, ackv := true }

/-- Receipt of a sequenced frame: the state left, and whether the frame is accepted. -/
def State.receive (s : State) (p : Port) (f : Frame) (bad peerOk : Bool) : State × Bool :=
  let g := s.checkFrame p f bad peerOk
  if !g.2 then g else
    let s := g.1
    let t := f.ten.toNat
    let ch := f.chan.toNat
    let peer := f.src.toNat
    let rc := recvOf s t ch peer
    let d := (f.seq - rc.expected).toNat
    if d = 0 then
      let s1 := s.setRecv t ch peer { expected := rc.expected + 1, nakSent := false, owes := true, port := p }
      ((s1.countTen t 0x2100 1).takeBack t f, true)
    else if 2 ^ 23 ≤ d then ((s.countTen t 0x2118 1).setRecv t ch peer { rc with owes := true, port := p }, false)
    else if rc.nakSent then (s, false)
    else (s.sendNak p t ch peer, false)

/-- The payload's words as the receiving die decodes them: corrected and uncorrectable ones counted (13 R343). -/
def State.decodePayload (s : State) (p : Port) (ws : List MemWord) : State × List MemWord :=
  let gs := ws.map decodeWord
  let s1 := match (gs.filter (·.corrected)).length with | 0 => s | n => s.countChip 0x10 n
  let s2 := match (gs.filter (·.uncorr)).length with | 0 => s1 | n => s1.count (portOff p.val 0x50) n
  (s2, gs.map (·.w))

/-- Payload word 0 of a control frame, as its receiver decodes it. -/
def word0 (ws : List MemWord) : BitVec 256 := (nth ws MemWord.zero 0).data

/-- Receipt of a frame of the control flow from a chip of the job, with its payload words. -/
def State.receiveCtl (s : State) (p : Port) (f : Frame) (bad : Bool) : State × Bool × List MemWord :=
  let t := f.ten.toNat
  let g := s.receive p f (bad || f.chan ≠ 4095) (inBox s t f.src.toNat && f.src.toNat ≠ myId s)
  if g.2 then
    let d := g.1.decodePayload p f.payload
    (d.1, true, d.2)
  else (g.1, false, [])

end Sys2Proof.Machine
end

