-- ==== Sys2Proof/Machine/Blanks.lean ====
section
/-! DEFINITION. Blank notices as a chip sends them: slips, requests, holds, and the courses of a spare swap or forced hold (09 R239 to R245, 18 R489 to R492). -/

namespace Sys2Proof.Machine

open Sys2Proof

/-- The tenancy's course record changed. -/
def State.modCourse (s : State) (t : Nat) (f : Course → Course) : State := s.modTen t (fun n => { n with course := f n.course })

/-- The pending blank of a course. -/
def pendingAt (ps : List Blank) (c : Nat) : Option Blank := ps.find? (fun b => b.course = c)

/-- The lowest course from `c` on that is not pending; one of `n + 1` successive courses is free of `n` pending ones. -/
def lowestFree (ps : List Blank) (c : Nat) : Nat :=
  ((upTo (ps.length + 1)).find? (fun i => (pendingAt ps (c + i)).isNone)).elim c (c + ·)

/-- The payload of a blank notice (09 Table 09.5). -/
def noticeWord (s : State) (t c : Nat) (cause : BitVec 3) : BitVec 256 :=
  BitVec.ofNat 256 (c % 2 ^ 50 + cause.toNat * 2 ^ 50 + myId s % 65536 * 2 ^ 64 + hdr s t 2 2 * 2 ^ 80
    + (s.ten t).recov.epoch.toNat * 2 ^ 96)

/-- Pending blanks with one more notice for course `c`: it joins, or merges into the one there (09 R241, R243, 17 R461). -/
def joinBlank (ps : List Blank) (c : Nat) (cause : BitVec 3) : List Blank :=
  match pendingAt ps c with
  | some _ => ps.map (fun b => if b.course = c then { b with consumable := b.consumable && decide (cause = 1) } else b)
  | none => ps ++ [⟨c, cause, decide (cause = 1)⟩]

/-- A notice for course `c` multicast to the job, and pending here; a 17th is the blank overflow (09 R240). -/
def State.sendBlank (s : State) (t c : Nat) (cause : BitVec 3) : State :=
  let ps := (s.ten t).course.pending
  if (pendingAt ps c).isNone && decide (16 ≤ ps.length) then s.jobFatal t 1
  else
    let s1 := (s.countTen t 0x2010 1).modCourse t (fun k => { k with pending := joinBlank k.pending c cause })
    s1.broadcast t 5 [MemWord.clean (noticeWord s t c cause)]

/-- A notice for the lowest course from `c` on that is not pending. -/
def State.announce (s : State) (t c : Nat) (cause : BitVec 3) : State :=
  s.sendBlank t (lowestFree (s.ten t).course.pending c) cause

/-- A notice kept pending for course `c` exactly, as a hold keeps them. -/
def State.keepBlank (s : State) (t c : Nat) (cause : BitVec 3) : State :=
  match pendingAt (s.ten t).course.pending c with
  | some b => if b.consumable then s.sendBlank t c cause else s
  | none => s.sendBlank t c cause

/-- The lag raised by a slip during course `c` (09 R239, R240). -/
def State.slip (s : State) (t c : Nat) : State :=
  let s1 := s.countTen t 0x2008 1
  if 15 ≤ (s.ten t).course.lag then s1.jobFatal t 0
  else
    let s2 := s1.modCourse t (fun k => { k with lag := k.lag + 1 })
    let k := (s2.ten t).course
    if k.pending.length < k.lag then s2.announce t (c + 9) 0 else s2

/-! ### Checkpoint steps (16 R424) -/

def escInterval (s : State) (t : Nat) : Nat := hdr s t 40 2

/-- Whether a step is a checkpoint step. -/
def isCheckpoint (s : State) (t : Nat) (step : BitVec 32) : Bool := escInterval s t ≠ 0 && decide (step.toNat % escInterval s t = 0)

/-! ### Spare swaps and forced holds (18 R489, R491, R492) -/

/-- The spare column of a row that a swap can use: one that is not marked failed. -/
def freeSpare (s : State) (y : Nat) : Option Nat := (sparesOf s y).find? (fun x => !(failedIn s y).contains x)

/-- The deferred core assay of a tenancy that its next sealing take handles: one with a free spare, or one that carries FORCE. -/
def dueAssay (s : State) (t : Nat) : Option Assay :=
  s.mgmt.assays.find? (fun a => a.kind.toNat ≤ 1 && decide (jobOfPhys s a.target.toNat = some t)
    && ((freeSpare s (a.target.toNat / 9)).isSome || a.force))

/-- At an `SCLOSE` whose take seals, the courses of a swap or of a forced hold chosen and the first of them announced. A course
of a forced hold after the first is announced nine courses ahead. -/
def State.planSwap (s : State) (t take : Nat) : State :=
  let k := (s.ten t).course
  if !isCheckpoint s t ((s.ten t).steps.step + 1) || k.swap.isSome || k.force.isSome then s else
    match dueAssay s t with
    | none => s
    | some a =>
      let c := courseNow s
      let x := lowestFree k.pending (max (c + take) (c + 9))
      if (freeSpare s (a.target.toNat / 9)).isSome then
        let s1 := s.sendBlank t x 5
        let y := lowestFree (s1.ten t).course.pending x
        (s1.sendBlank t y 5).modCourse t (fun k => { k with swap := some (a.target.toNat, x, y) })
      else
        (s.sendBlank t x 5).modCourse t (fun k => { k with force := some (a.target.toNat, x) })

end Sys2Proof.Machine
end

