-- ==== Sys2Proof/Machine/Collectives.lean ====
section
/-! DEFINITION. Collectives: clearing words, their sums, the exchanges of the two algorithms, the results, and the ledger merge of a close (14 R364 to R384). -/

namespace Sys2Proof.Machine

open Sys2Proof

/-! ### Sizes (14 R370, R376, R377) -/

/-- ⌈log₂ n⌉. -/
def clog2 (n : Nat) : Nat := if n ≤ 1 then 0 else Nat.log2 (n - 1) + 1

/-- Whether a number is a power of two. -/
def isPow2 (n : Nat) : Bool := decide (n = 2 ^ Nat.log2 n)

/-- Bits of a clearing word. -/
def Coll.bits (k : Coll) : Nat := match k.width.toNat with | 0 => 32 | 1 => 48 | _ => 64

/-- The precision of a clearing word (14 Table 14.3). -/
def Coll.prec (k : Coll) : Nat := k.bits - (clog2 k.n + 1)

/-- Parcels of a block, and data words of a parcel. -/
def Coll.nparts (k : Coll) : Nat := if k.op = 0 ∧ k.width = 2 then 4 else 2
def Coll.partWords (k : Coll) : Nat := if k.op = 0 ∧ k.width = 1 then 96 else 64

/-- Source blocks. -/
def Coll.blocks (k : Coll) : Nat := k.count / 128

/-- The key of a parcel of a block. -/
def partKey (b i : Nat) : Nat := 4 * b + i

/-- The share a block belongs to: for an all-gather, the chip whose source it is. -/
def Coll.shareOf (k : Coll) (b : Nat) : Nat := if k.op = 2 then b / k.blocks else ceilDiv ((b + 1) * k.n) k.blocks - 1

/-- Whether the collective delivers every block to every chip. -/
def Coll.gathers (k : Coll) : Bool := decide (k.op ≠ 1) || bitB k.desc 467

/-- The blocks this chip must hold at the end. -/
def Coll.wanted (k : Coll) : List Nat :=
  if k.op = 2 then upTo (k.n * k.blocks)
  else if k.gathers then upTo k.blocks
  else (upTo k.blocks).filter (fun b => k.shareOf b = k.me)

/-- The highest bit in which a share and this chip's coordinate differ. -/
def Coll.bitOf (k : Coll) (sh : Nat) : Nat := Nat.log2 (sh ^^^ k.me)

/-! ### Clearing words (14 R371, R372, R377) -/

/-- A value as a clearing word on anchor `A` with precision `p`, and whether it was clamped. -/
def clearWord (A : Int) (p : Nat) (x : Num) : Int × Bool :=
  match x with
  | .fin neg m e =>
    let r := roundInt (if neg then -(m : Int) else m) (e - A + p)
    let lim : Int := 2 ^ p - 1
    (max (-lim) (min lim r), decide (r < -lim) || decide (lim < r))
  | _ => (0, false)

/-- Fields of `w` bits packed into words, each word poisoned that a poisoned field lies in. -/
def packFields (w nw : Nat) (vs : List (Int × Bool)) : List MemWord :=
  let n := vs.foldr (fun (v : Int × Bool) acc => acc * 2 ^ w + (v.1 % 2 ^ w).toNat) 0
  let bad : List Nat := vs.zipIdx.flatMap (fun (v : (Int × Bool) × Nat) =>
    if v.1.2 then [w * v.2 / 256, (w * v.2 + w - 1) / 256] else [])
  (upTo nw).map (fun i => wordOf (BitVec.ofNat 256 (n / 2 ^ (256 * i))) (bad.contains i))

/-- The fields of a run of words as signed numbers, with the poison of the words they lie in. -/
def unpackFields (w cnt : Nat) (ws : List MemWord) : List (Int × Bool) :=
  let n := ws.foldr (fun (d : MemWord) acc => acc * 2 ^ 256 + d.data.toNat) 0
  (upTo cnt).map (fun i =>
    ((BitVec.ofNat w (n / 2 ^ (w * i))).toInt,
     isPoisoned (nth ws MemWord.zero (w * i / 256)) || isPoisoned (nth ws MemWord.zero ((w * i + w - 1) / 256))))

/-- A ledger-merge record from two (07 R167, 14 R384): AMAX0 the larger, OVF a saturating sum, the flags ORed. -/
def mergeRec (a b : BitVec 64) : BitVec 64 :=
  let amax := max (bitsN a 15 8) (bitsN b 15 8)
  let ovf := min 255 (bitsN a 47 40 + bitsN b 47 40)
  putBits (putBits 0 8 (BitVec.ofNat 8 amax)) 40 (BitVec.ofNat 8 ovf) ||| ((a ||| b) &&& 0x0A00_0000_0000_0000)

/-- The larger of two i16 entries. -/
def max16 (a b : Nat) : Nat := if (BitVec.ofNat 16 a).slt (BitVec.ofNat 16 b) then b else a

/-- Two words combined, element by element. -/
def combineWord (op w : Nat) (a b : MemWord) : MemWord :=
  let each (n : Nat) (f : Nat → Nat → Nat) : BitVec 256 :=
    packWord n ((upTo (256 / n)).map (fun i => f (elemOf n i a.data) (elemOf n i b.data)))
  let d : BitVec 256 := match op with
    | 0 => each w (fun x y => x + y)
    | 1 => each 128 (fun x y => ((Acc.ofPartial x).merge (Acc.ofPartial y)).toPartial)
    | 3 => each 16 max16
    | 4 => each 64 (fun x y => (mergeRec (BitVec.ofNat 64 x) (BitVec.ofNat 64 y)).toNat)
    | 5 => each 32 (fun x y => (fMax (BitVec.ofNat 32 x) (BitVec.ofNat 32 y)).toNat)
    | _ => b.data
  wordOf d (isPoisoned a || isPoisoned b)

/-- A parcel's words combined with those held. -/
def Coll.combine (k : Coll) (a b : List MemWord) : List MemWord :=
  if k.op = 0 ∧ k.width = 1 then
    let n := 256 * k.partWords / 48
    let po := (a.zip b).map (fun (x : MemWord × MemWord) => isPoisoned x.1 || isPoisoned x.2)
    let vs := (unpackFields 48 n a).zip (unpackFields 48 n b)
    let ws := packFields 48 k.partWords (vs.map (fun (x : (Int × Bool) × (Int × Bool)) => (x.1.1 + x.2.1, false)))
    (ws.zip po).map (fun (x : MemWord × Bool) => wordOf x.1.data x.2)
  else (a.zip b).map (fun (x : MemWord × MemWord) => combineWord k.op.toNat k.bits x.1 x.2)

/-- Block results merged. -/
def BlockRes.merge (a b : BlockRes) : BlockRes := ⟨max a.emax b.emax, a.ovf || b.ovf, a.nonfin || b.nonfin⟩

/-! ### A chip's own part -/

/-- The words of a block that this chip contributes: its source words, poisoned where they are not to be trusted. -/
def srcWords (s : State) (k : Coll) (bad : List Nat) (b : Nat) : List MemWord :=
  (upTo 128).map (fun i =>
    let a := k.src + 128 * b + i
    let w := readWord s (.cs k.core) a
    if bad.contains (a / 128) then wordOf w.data true else w)

/-- A block's FP32 values with their poison. -/
def blockVals (ws : List MemWord) : List (Num × Bool) :=
  ws.flatMap (fun w => (upTo 8).map (fun i => (f32 (BitVec.ofNat 32 (elemOf 32 i w.data)), isPoisoned w)))

/-- A block of this chip's source as parcels, with its block results (14 R371). -/
def Coll.ownBlock (k : Coll) (ws : List MemWord) (A : Int) : List (List MemWord) × BlockRes :=
  if k.op = 0 then
    let vs := blockVals ws
    let cs := vs.map (fun (v : Num × Bool) => (clearWord A k.prec v.1, v.2))
    let per := 1024 / k.nparts
    ((chunks per cs).map (fun l => packFields k.bits k.partWords (l.map (fun c => (c.1.1, c.2)))),
     ⟨maxExpOf ((vs.map (·.1)).filter (·.isFin)), cs.any (fun c => c.1.2), vs.any (fun v => !v.1.isFin)⟩)
  else (chunks 64 ws, {})

/-- The collective with its own blocks in place: `blk` gives the words of source block `b`. -/
def Coll.fill (k : Coll) (blk : Nat → List MemWord) : Coll :=
  (upTo k.blocks).foldl (fun (k : Coll) b =>
    let o := k.ownBlock (blk b) (look k.anchors 0 b)
    let at' := if k.op = 2 then k.me * k.blocks + b else b
    { k with
      parts := o.1.zipIdx.foldl (fun (m : Sparse (List MemWord)) (x : List MemWord × Nat) => set m (partKey at' x.2) x.1) k.parts
      res := put {} k.res at' o.2
      known := if k.op = 2 then k.known ++ (upTo k.nparts).map (partKey at') else k.known }) k

/-! ### Exchanges (14 R376, R377, R379) -/

def collOf (s : State) (t ch : Nat) : Option Coll := find s.fabric.colls (chanKey t ch)

def State.setColl (s : State) (t ch : Nat) (k : Coll) : State :=
  { s with fabric := { s.fabric with colls := set s.fabric.colls (chanKey t ch) k } }

/-- A collective header word (14 Table 14.5). -/
def collWord (k : Coll) (step b i : Nat) (gather : Bool) : BitVec 256 :=
  let r := look k.res {} b
  BitVec.ofNat 256 (k.op.toNat + k.width.toNat * 2 ^ 4 + step % 32 * 2 ^ 6 + (if gather then 2 ^ 11 else 0) + b % 2 ^ 20 * 2 ^ 12
    + i % 4 * 2 ^ 32 + ((look k.anchors 0 b) % 65536).toNat * 2 ^ 34 + r.emax % 256 * 2 ^ 50 + (if r.ovf then 2 ^ 58 else 0)
    + (if r.nonfin then 2 ^ 59 else 0) + (if k.redo then 2 ^ 60 else 0) + k.number.toNat * 2 ^ 61 + k.count % 2 ^ 24 * 2 ^ 93)

/-- A parcel sent to the chip at relative coordinate `rel`. -/
def State.sendPart (s : State) (t ch : Nat) (k : Coll) (gather : Bool) (step b i rel : Nat) : State :=
  let ax := k.axis.toNat
  let dst := withCoord s (myId s) ax (boxO s t ax + rel)
  let ps := axisPorts s t ax
  let p := if ch = 4094 then nth ps 0 (b % ps.length) else recPort s t (chanRec s t ch)
  s.push t ch dst (.frame (mkFrame s t 8 dst ch 0 p
    (MemWord.clean (collWord k step b i gather) :: look k.parts [] (partKey b i))))

/-- The gather sends of a parcel that this chip has just come to hold; `lev` is the first step they can go in. -/
def State.gatherOn (s : State) (t ch : Nat) (k : Coll) (b i lev : Nat) : State :=
  let sh := k.shareOf b
  if !k.gathers then s
  else if k.halving then
    (upTo (clog2 k.n)).foldl (fun (u : State) j => if lev ≤ j then u.sendPart t ch k true j b i (k.me ^^^ 2 ^ j) else u) s
  else if (sh + k.n - (k.me + 1) % k.n) % k.n = 0 then s
  else s.sendPart t ch k true ((k.me + k.n - sh) % k.n) b i ((k.me + 1) % k.n)

/-- What follows when a parcel holds `r` contributions of other chips: it is complete here, or goes on. -/
def State.reduceOn (s : State) (t ch : Nat) (k : Coll) (b i : Nat) : State × Coll :=
  let sh := k.shareOf b
  let r := look k.counts 0 (partKey b i)
  let full := if k.halving then clog2 k.n else min 1 (k.n - 1)
  if sh = k.me then
    if r = full then
      let k1 := { k with known := insertNew k.known (partKey b i) }
      (s.gatherOn t ch k1 b i 0, k1)
    else (s, k)
  else if k.halving then
    let m := clog2 k.n
    let j := k.bitOf sh
    (if r = m - 1 - j then s.sendPart t ch k false r b i (k.me ^^^ 2 ^ j) else s, k)
  else
    let first := decide ((sh + 1) % k.n = k.me)
    (if (first && r = 0) || r = 1 then s.sendPart t ch k false ((k.me + 2 * k.n - 1 - sh) % k.n) b i ((k.me + 1) % k.n) else s, k)

/-- The first sends of a pass. -/
def State.startPass (s : State) (t ch : Nat) (k : Coll) : State :=
  let keys : List (Nat × Nat) := (upTo k.blocks).flatMap (fun b => (upTo k.nparts).map (fun i => (b, i)))
  if k.op = 2 then
    let s1 := keys.foldl (fun (u : State) (x : Nat × Nat) =>
      if k.n = 1 then u else u.gatherOn t ch k (k.me * k.blocks + x.1) x.2 0) s
    s1.setColl t ch k
  else
    let p := keys.foldl (fun (u : State × Coll) (x : Nat × Nat) => u.1.reduceOn t ch u.2 x.1 x.2) (s, k)
    p.1.setColl t ch p.2

/-- Whether a chip at relative coordinate `rel` sends this chip a parcel of a share in a phase (14 R376). -/
def Coll.sends (k : Coll) (gather : Bool) (rel sh : Nat) : Bool :=
  if k.halving then
    let j := Nat.log2 (rel ^^^ k.me)
    decide (rel ≠ k.me) && decide ((rel ^^^ k.me) = 2 ^ j) && decide (j < clog2 k.n)
      && (if gather then decide (sh / 2 ^ j = rel / 2 ^ j) else decide (sh / 2 ^ j = k.me / 2 ^ j))
  else decide ((rel + 1) % k.n = k.me) && (if gather then decide (sh ≠ k.me) else decide (sh ≠ rel))

/-- A fabric-die adder mismatch, where a waiting upset strikes one (15 R392): the primary copy's value goes on. -/
def State.adderStrike (s : State) (t ch op : Nat) : State :=
  if Upset.adder ∈ s.upsets then
    let s1 := { s with upsets := s.upsets.erase .adder }
    ((s1.countChip 0x30 1).daybook 0x52 clsA t 0x7F 11 op ch 0).jobError t ⟨clsA, 1, (s.ten t).steps.step, 0x52⟩
  else s

/-- The program fault of a collective parcel, on the channel's core (14 R369, R382). -/
def State.collFault (s : State) (t : Nat) (k : Coll) (code : Nat) : State :=
  (s.countTen t 0x2168 1).progFaultAt k.core k.page.toNat k.bundle 4 code 0

/-- An accepted parcel of a collective: held where this chip has not come to its collective or pass, else combined or kept,
and what it feeds sent on. `src` is its sender's relative coordinate. -/
def State.parcel (s : State) (t ch : Nat) (f : Frame) (ws : List MemWord) : State :=
  let h := word0 ws
  let later (u : State) : State := u.modChan t ch (fun c => { c with early := c.early ++ [f] })
  match collOf s t ch with
  | none => later s
  | some k =>
    let num : BitVec 32 := bits h 92 61
    let b := bitsN h 31 12
    let i := bitsN h 33 32
    let gather := bitB h 11
    let rel := relCoord s t f.src.toNat k.axis.toNat
    if k.number < num || (num = k.number && bitB h 60 && !k.redo) then later s
    else if num ≠ k.number || bits h 3 0 ≠ k.op || bits h 5 4 ≠ k.width || bitsN h 116 93 ≠ k.count || bitB h 60 ≠ k.redo
        || !k.sends gather rel (k.shareOf b) then s.collFault t k 0x12
    else if (k.op = 0 ∨ k.op = 1) && bitsS h 49 34 ≠ look k.anchors 0 b then s.collFault t k (if k.op = 1 then 0x11 else 0x12)
    else
      let key := partKey b i
      let r : BlockRes := ⟨bitsN h 57 50, bitB h 58, bitB h 59⟩
      let data := ws.drop 1
      let s1 := s.adderStrike t ch k.op.toNat
      if gather then
        let k1 := { k with parts := set k.parts key data, res := put {} k.res b (r.merge (if k.op = 2 then {} else look k.res {} b)),
                           known := insertNew k.known key }
        (s1.gatherOn t ch k1 b i (if k.halving then k.bitOf (k.shareOf b) + 1 else 0)).setColl t ch k1
      else
        let k1 := { k with parts := set k.parts key (k.combine (look k.parts [] key) data), res := put {} k.res b ((look k.res {} b).merge r),
                           counts := set k.counts key (look k.counts 0 key + 1) }
        let p := (s1.charge (some t) (eventEnergy s 16 data.length) []).reduceOn t ch k1 b i
        p.1.setColl t ch p.2

/-- The parcels held back taken up once this chip has come to them. -/
def State.takeEarly (s : State) (t ch : Nat) : State :=
  let fs := (chanOf s t ch).early
  fs.foldl (fun (u : State) f => u.parcel t ch f f.payload) (s.modChan t ch (fun c => { c with early := [] }))

/-- Whether everything the collective waits for is here (14 R379). -/
def Coll.ready (k : Coll) : Bool :=
  k.wanted.all (fun b => (upTo k.nparts).all (fun i => k.known.contains (partKey b i)))

/-! ### Starting (14 R365, R366) -/

/-- The fields of a move form that no collective uses, which must be zero (14 Table 14.2). -/
def collZero (op : Nat) (d : BitVec 512) : Bool :=
  zeroBits d [(5, 2), (45, 38), (74, 47), (236, 107), (255, 255), (451, 384), (485, 468), (511, 486)]
    && (decide (op ≤ 1) || decide (bitsN d 254 237 = 0))
    && (decide (op = 0) || zeroBits d [(466, 454)]) && (decide (op = 1) || !bitB d 467)

/-- Whether the format codes are those of the operation. -/
def collFmts (op : Nat) (d : BitVec 512) : Bool :=
  let sf := bitsN d 33 30
  let df := bitsN d 37 34
  match op with
  | 0 => sf = 0 && df = 0
  | 5 => sf = 0 && df = 0
  | 1 => sf = 15 && (df = 15 || df = 0)
  | _ => sf = 15 && df = 15

/-- The anchors of a clearing collective's blocks, of the parity of the step counter (14 R374). -/
def tableAnchors (s : State) (k : Coll) : Res (Sparse Int) :=
  (upTo k.blocks).mapM (fun b => do
    let e := elemOf 32 (b % 8) (readWord s (.cs k.core) (k.table + b / 8)).data
    let a := (BitVec.ofNat 16 (if k.odd then e / 65536 else e)).toInt
    need (decide (-150 ≤ a) && decide (a ≤ 136)) 0x12
    return (b, a))

/-- The anchors of a ledger reduce-scatter's blocks, from its anchor map: 64 blocks to a tile. -/
def mapAnchors (s : State) (k : Coll) : Res (Sparse Int) := do
  let as ← (upTo (ceilDiv k.blocks 64)).mapM (fun i => anchorEntry s k.core (16 * k.table + i : Nat))
  return (upTo k.blocks).map (fun b => (b, nth as 0 (b / 64)))

/-- The words of the anchor table or anchor map that a collective reads. -/
def Coll.anchorWords (k : Coll) : List Nat :=
  match k.op.toNat with
  | 0 => (upTo (ceilDiv k.blocks 8)).map (k.table + ·)
  | 1 => (upTo (ceilDiv (ceilDiv k.blocks 64) 16)).map (k.table + ·)
  | _ => []

/-- Whether the anchor of a block stands in a poisoned word. -/
def Coll.badAnchor (k : Coll) (s : State) (b : Nat) : Bool :=
  match k.op.toNat with
  | 0 => isPoisoned (readWord s (.cs k.core) (k.table + b / 8))
  | 1 => isPoisoned (readWord s (.cs k.core) (k.table + b / 1024))
  | _ => false

/-- The words of the sources, read on as poisoned in blocks that fail their CRC (14 R380) or whose anchor is poisoned
(12 R319). -/
def Coll.read (k : Coll) (s : State) (b : Nat) : List MemWord :=
  let ws := srcWords s k (badBlocks s (.cs k.core) k.src k.count) b
  if k.badAnchor s b then ws.map (fun w => wordOf w.data true) else ws

/-- The checks of `FCOLL` (14 R364 to R366, R369): the collective it begins, with this chip's own blocks in place. -/
def fcollPlan (c : Core) (chan : Chan) (axis : BitVec 2) (op : BitVec 4) (desc : BitVec 10) (rd : State) : Res Coll := do
  let t := tenNo rd c
  let ch := chan.toNat
  need (decide (op.toNat ≤ 5)) 0x01
  let d ← latchForm rd c desc 2 [0]
  let count := bitsN d 29 6
  let n := boxN rd t axis.toNat
  let alg := bitsN d 453 452
  need (collZero op.toNat d && collFmts op.toNat d && decide (count % 128 = 0) && decide (128 ≤ count) && decide (count ≤ 65536)
    && decide (alg ≠ 3) && decide (bitsN d 455 454 ≠ 3) && !(decide (alg = 1) && !isPow2 n) && addrOk 0 (bits d 319 256)
    && addrOk 0 (bits d 383 320)) 0x12
  let r := chanRec rd t ch
  need (recValid r && decide (chanCore rd t r = c.val) && decide (recSaxis r = axis.toNat) && decide (recSslots r ≠ 0)
    && decide (recRslots r ≠ 0)) 0x15
  need ((collOf rd t ch).isNone && decide ((rd.fabric.colls.filter (fun (e : Nat × Coll) => e.2.core = c && e.1 % 4096 ≠ 4094)).length < 4)) 0x20
  let number := look rd.fabric.collNo 0 (chanKey t ch)
  let width : BitVec 2 := if op ≠ 0 then 0 else
    match bitsN d 455 454 with
    | 2 => 2
    | 1 => 1
    | _ => if n ≤ 256 then 0 else 1
  let k0 : Coll := { core := c, page := (seqOf rd c).page, bundle := (seqOf rd c).bundle, op := op, axis := axis, number := number, desc := d, n := n, me := relCoord rd t (myId rd) axis.toNat,
                     halving := decide (alg = 1) || (decide (alg = 2) && isPow2 n), width := width,
                     odd := decide ((rd.ten t).steps.step.toNat % 2 = 1), cautious := cautious rd t, count := count,
                     table := bitsN d 254 237 }
  let src ← csRange rd c (addrCA rd c (bits d 319 256)) count
  let dst ← csRange rd c (addrCA rd c (bits d 383 320)) k0.dstWords
  need (!(decide (op = 0) && decide (dst ≠ src) && meets dst (2 * count) src count)) 0x12
  let k1 : Coll := { k0 with src := src, dst := dst }
  needBlocks rd (.cs c) src count (decide (op = 0) || decide (op = 5)) (bitsN d 33 30) (if bitB d 46 then some (bitsN d 106 91) else none)
  let anchors ← (match op.toNat with
    | 0 => do
      let _ ← csRange rd c (k1.table : Nat) (ceilDiv k1.blocks 8)
      tableAnchors rd k1
    | 1 => mapAnchors rd k1
    | _ => pure [])
  return ({ k1 with anchors := anchors } : Coll).fill (k1.read rd)

/-- A collective begun: its sources read, its number taken, its first parcels sent, and those held back taken up. -/
def fcollRun (c : Core) (ch : Nat) (k : Coll) (rd s : State) : State :=
  let t := tenNo rd c
  let s1 := (s.checkCrc rd c (.cs c) k.src k.count).noteReads (.cs c) ((upTo k.count).map (k.src + ·) ++ k.anchorWords)
  let s2 := { s1 with fabric := { s1.fabric with collNo := put 0 s1.fabric.collNo (chanKey t ch) (k.number + 1) } }
  (s2.startPass t ch k).takeEarly t ch

/-- `FCOLL`. -/
def fcollAct (c : Core) (chan : Chan) (axis : BitVec 2) (op : BitVec 4) (desc : BitVec 10) (rd s : State) : Res State := do
  let k ← fcollPlan c chan axis op desc rd
  return fcollRun c chan.toNat k rd s

/-! ### Results (14 R373, R374, R378, R382, R383) -/

/-- The words of a block as they stand. -/
def Coll.blockWords (k : Coll) (b : Nat) : List MemWord := (upTo k.nparts).flatMap (fun i => look k.parts [] (partKey b i))

/-- The FP32 values of a clearing block, with their poison. -/
def Coll.clearVals (k : Coll) (b : Nat) : List (BitVec 32 × Bool) :=
  let r := look k.res {} b
  let A := look k.anchors 0 b
  let sc := bitsS k.desc 466 459
  (upTo k.nparts).flatMap (fun i =>
    (unpackFields k.bits (1024 / k.nparts) (look k.parts [] (partKey b i))).map (fun (v : Int × Bool) =>
      (if r.nonfin then 0x7FC0_0000 else if v.1 = 0 then 0 else toF32 (Num.ofInt v.1 (A - k.prec + sc)), v.2)))

/-- FP32 values packed into result words. -/
def f32Outs (base : Nat) (vs : List (BitVec 32 × Bool)) (ovf : Bool) : List Out :=
  (chunks 8 vs).zipIdx.map (fun (g : List (BitVec 32 × Bool) × Nat) =>
    (⟨base + g.2, wordOf (packWord 32 (g.1.map (fun v => v.1.toNat))) (g.1.any (·.2)), maxExpOf (g.1.map (fun v => f32 v.1)), ovf, allBytes⟩ : Out))

/-- The elements of a block of ledger partials. -/
def partialsOf (ws : List MemWord) : List (Acc × Bool) :=
  ws.flatMap (fun w => [(Acc.ofPartial (elemOf 128 0 w.data), isPoisoned w), (Acc.ofPartial (elemOf 128 1 w.data), isPoisoned w)])

/-- The result words of a collective. -/
def Coll.outs (k : Coll) : List Out :=
  match k.op.toNat with
  | 0 => (upTo k.blocks).flatMap (fun b => f32Outs (k.dst + 128 * b) (k.clearVals b) (look k.res {} b).ovf)
  | 1 =>
    k.wanted.zipIdx.flatMap (fun (x : Nat × Nat) =>
      let es := partialsOf (k.blockWords x.1)
      let ovf := es.any (fun e => e.1.low || e.1.sat)
      if k.fp32Out then f32Outs (k.dst + 32 * x.2) (es.map (fun e => (e.1.toFp32 (look k.anchors 0 x.1), e.2))) ovf
      else (k.blockWords x.1).zipIdx.map (fun (w : MemWord × Nat) => (⟨k.dst + 128 * x.2 + w.2, w.1, 0, ovf, allBytes⟩ : Out)))
  | 5 => k.wanted.flatMap (fun b => f32Outs (k.dst + 128 * b) ((blockVals (k.blockWords b)).map (fun v => (toF32 v.1, v.2))) false)
  | _ => k.wanted.flatMap (fun b => (k.blockWords b).zipIdx.map (fun (w : MemWord × Nat) => (⟨k.dst + 128 * b + w.2, w.1, 0, false, allBytes⟩ : Out)))

/-- A block's next anchor (14 R374). -/
def Coll.nextAnchor (k : Coll) (b : Nat) : Int :=
  let r := look (if k.redo then k.pass0 else k.res) {} b
  let A := look (if k.redo then k.anchors0 else k.anchors) 0 b
  if r.emax = 0 || r.nonfin then A
  else max (-150) (min 136 (max ((r.emax : Int) - 126 + bitsN k.desc 458 456) (A + (if r.ovf then 1 else 0))))

/-- The anchor table with every block's next anchor in the other parity. -/
def State.writeAnchors (s : State) (k : Coll) : State :=
  (upTo k.blocks).foldl (fun (u : State) b =>
    let a := k.table + b / 8
    let w := readWord u (.cs k.core) a
    let at' := 32 * (b % 8) + (if k.odd then 0 else 16)
    u.writeWord (.cs k.core) a (wordOf (putBits w.data at' (BitVec.ofInt 16 (k.nextAnchor b))) (isPoisoned w))) s

/-- The words of the work area past the result, whose contents the spec leaves open. -/
def State.scatterWork (s : State) (k : Coll) : State :=
  let f := s.fresh
  { ((upTo k.count).foldl (fun (u : State) i =>
      u.writeWord (.cs k.core) (k.dst + k.count + i) (MemWord.clean (BitVec.ofNat 256 (Config.freeValue (f + i))))) s) with
    fresh := f + k.count }

/-- The daybook entry of a clearing collective with an overflowed or non-finite block (14 R373). -/
def State.clearLog (s : State) (t ch : Nat) (k : Coll) : State :=
  match (upTo k.blocks).find? (fun b => (look k.res {} b).ovf || (look k.res {} b).nonfin) with
  | some b => s.dayTen t (if (look k.res {} b).nonfin then 0x59 else 0x58) 0 ch b 0
  | none => s

/-- The 64-bit pass of R378 begun. -/
def State.redoPass (s : State) (t ch : Nat) (k : Coll) : State :=
  let first := ((upTo k.blocks).find? (fun b => (look k.res {} b).ovf)).getD 0
  let as : Sparse Int := (upTo k.blocks).map (fun b =>
    let r := look k.res {} b
    (b, if r.emax = 0 then look k.anchors 0 b else (r.emax : Int) - 125))
  let k1 : Coll := { k with redo := true, width := 2, pass0 := k.res, anchors0 := k.anchors, anchors := as,
                            parts := [], counts := [], known := [], res := [] }
  let s1 := (s.countTen t 0x2160 1).dayTen t 0x5A 0 ch first 0
  (s1.startPass t ch (k1.fill (k.read s))).takeEarly t ch

/-- The results of a core's collective written, and its counts. -/
def State.writeResults (s : State) (t ch : Nat) (k : Coll) : State :=
  let s1 := s.emit (.cs k.core) (bitsN k.desc 37 34) (bitsN k.desc 90 75) k.outs
  let s2 := if k.op = 0 then
      let o := ((upTo k.blocks).filter (fun b => (look k.res {} b).ovf)).length
      let f := ((upTo k.blocks).filter (fun b => (look k.res {} b).nonfin)).length
      (((((s1.scatterWork k).writeAnchors k).countTen t 0x2148 k.blocks).countTen t 0x2150 o).countTen t 0x2158 f).clearLog t ch k
    else s1
  (s2.countTen t 0x2140 1).setColl t ch { k with done := true }

/-! ### The ledger merge of a close (14 R384) -/

/-- The ledger entries of a tenancy's regions that merge over an axis, in region-record order. -/
def mergeEntries (s : State) (t axis : Nat) : List Nat :=
  (upTo (partOf s t 1).2).flatMap (fun i =>
    let r := look s.stores.regions 0 ((partOf s t 1).1 + i)
    if bitB r (40 + axis) then (upTo (bitsN r 39 20)).map (fun j => (partOf s t 0).1 + bitsN r 19 0 + j) else [])

/-- The axes a close merges over: set in a region's MERGE, and of job length above 1. -/
def mergeAxes (s : State) (t : Nat) : List Nat := (jobAxes s t).filter (fun k => mergeEntries s t k ≠ [])

/-- The step fields of a ledger entry as a merge record. -/
def stepFields (d : BitVec 64) : BitVec 64 := mergeRec d 0

/-- The next pass of a close's merge, or its end. -/
def State.mergePass (s : State) (t : Nat) : State :=
  match (s.ten t).close.passes with
  | [] => s.modTen t (fun n => { n with close := { n.close with merged := true } })
  | ax :: _ =>
    let es := mergeEntries s t ax.toNat
    let n := boxN s t ax.toNat
    let c : Core := ((coresOf s t).head?).getD 0
    let number := look s.fabric.collNo 0 (chanKey t 4094)
    let k : Coll := { core := c, op := 4, axis := ax, number := number, n := n, me := relCoord s t (myId s) ax.toNat,
                      halving := isPow2 n, count := 128 * ceilDiv es.length 512, entries := es }
    let recs := es.map (fun e => (stepFields (look s.stores.ledger {} e).data).toNat)
    let poison := es.map (fun e => decide ((look s.stores.ledger {} e).err = .bad))
    let words : List MemWord := (chunks 4 (recs.zip poison)).map (fun (g : List (Nat × Bool)) =>
      wordOf (packWord 64 (g.map (·.1))) (g.any (·.2)))
    let k1 := k.fill (fun b => (upTo 128).map (fun i => nth words MemWord.zero (128 * b + i)))
    let s1 := { s with fabric := { s.fabric with collNo := put 0 s.fabric.collNo (chanKey t 4094) (number + 1) } }
    (s1.startPass t 4094 k1).takeEarly t 4094

/-- The close's merge begun at the cut. -/
def State.startMerge (s : State) (t : Nat) : State :=
  (s.modTen t (fun n => { n with close := { n.close with passes := (mergeAxes s t).map (BitVec.ofNat 2) } })).mergePass t

/-- A merge pass ended: the merged fields written back, and the next pass begun. -/
def State.mergeDone (s : State) (t : Nat) (k : Coll) : State :=
  let recs := (upTo k.blocks).flatMap (fun b => (k.blockWords b).flatMap (fun w => (upTo 4).map (fun i => (elemOf 64 i w.data, isPoisoned w))))
  let s1 := (k.entries.zip recs).foldl (fun (u : State) (x : Nat × Nat × Bool) =>
    let old := look u.stores.ledger {} x.1
    let d := (old.data &&& ~~~0x0A00_FF00_0000_FF00#64) ||| BitVec.ofNat 64 x.2.1
    { u with stores := { u.stores with ledger := put {} u.stores.ledger x.1 ⟨d, if x.2.2 then .bad else old.err⟩ } }) s
  let s2 := s1.countTen t 0x2140 1
  let s3 := { s2 with fabric := { s2.fabric with colls := del s2.fabric.colls (chanKey t 4094) } }
  (s3.modTen t (fun n => { n with close := { n.close with passes := n.close.passes.drop 1 } })).mergePass t

end Sys2Proof.Machine
end

