-- ==== Sys2Proof/Machine/Gather.lean ====
section
/-! DEFINITION. Gather and scatter, mesh transfers, page refills, descriptor writes and dispatch calls (05 R120 to R131; 10 R261 to R267; 11 Tables 11.13, 11.15, 11.16). -/

namespace Sys2Proof.Machine

open Sys2Proof

/-! ### Gather and scatter (05 R125 to R127) -/

/-- The checks of a gather-form descriptor. -/
def gatherCheck (d : BitVec 512) (scat : Bool) : Bool :=
  let f := bitsN d 5 2
  let ssp := bitsN d 7 6
  let dsp := bitsN d 9 8
  ssp ≠ 3 && dsp ≠ 3 && !(ssp = 1 && dsp = 1) && !(ssp = 2 && dsp = 2)
  && (if scat then isPlain f else isPlain f || (isShingled f && !isColBlocks f))
  && bitsN d 27 10 ≠ 0 && bitsN d 27 10 % 128 = 0 && bitsN d 27 10 ≤ 131072
  && bitsN d 255 205 = 0 && bitsN d 511 486 = 0
  && addrOk ssp (bits d 319 256) && addrOk dsp (bits d 383 320)

/-- A list entry (05 Table 05.5): its token and rank, none where it is a pad or its word is poisoned. -/
def listEntry (s : State) (c : Core) (base p : Nat) : Option (Nat × Nat) :=
  let w := readWord s (.cs c) (base + p / 8)
  let e := elemOf 32 (p % 8) w.data
  if isPoisoned w || e / 2 ^ 31 % 2 = 0 then none else some (e % 2 ^ 24, e / 2 ^ 24 % 8)

/-- A gather or scatter, resolved: effective bases and the width in tiles. -/
structure Gath where
  d   : BitVec 512
  f   : Nat
  ssp : Nat
  dsp : Nat
  sa  : Int
  da  : Int
  ss  : Int
  ds  : Int
  wt  : Nat

/-- The words of row `r`, tile column `i` of a row tensor: the tile's first word and its shingles' first word. -/
def Gath.tileAt (g : Gath) (a sh : Int) (r i : Nat) : Int × Int :=
  let n := r / 128 * g.wt + i
  (a + n * wordsPerTile g.f, sh + 8 * n)

/-- Words of one row within a tile. -/
def Gath.lineWords (g : Gath) : Nat := 128 / perWord g.f

/-- The words of row `r` of a run, and the shingle words of its tiles, in bounds. -/
def Gath.rowWords (g : Gath) (s : State) (c : Core) (sp : Nat) (a sh : Int) (r : Nat) (isOut : Bool) : Res (List Nat × List Nat) := do
  let ws ← (upTo g.wt).flatMapM (fun i => do
    let x ← rangeIn s c sp ((g.tileAt a sh r i).1 + r % 128 * g.lineWords) g.lineWords isOut
    return (upTo g.lineWords).map (x + ·))
  let hs ← if isShingled g.f then (upTo g.wt).mapM (fun i => rangeIn s c sp ((g.tileAt a sh r i).2 + r % 128 / 16) 1 isOut) else pure []
  return (ws, hs)

/-- A row as it is moved: element words, shingles of its tiles' blocks, reports, and whether a tile of it is re-quantised. -/
structure GathRow where
  els  : List Out := []
  shs  : List (Nat × List (Nat × Nat) × Bool) := []
  reps : List Report := []
  note : List (Nat × Int) := []
  again : Bool := false

/-- Row `src` copied to row `dst`, tile by tile; re-quantised where the tile scales differ (05 R126). -/
def Gath.copyRow (g : Gath) (rd : State) (c : Core) (src dst : Nat) (dAdd : Int) (rng : Nat → Option Nat) : Res GathRow := do
  let sp := spaceOf c g.ssp
  let t := tenNo rd c
  (upTo g.wt).foldlM (fun (o : GathRow) i => do
    let a ← rangeIn rd c g.ssp ((g.tileAt g.sa g.ss src i).1 + src % 128 * g.lineWords) g.lineWords false
    let b ← rangeIn rd c g.dsp ((g.tileAt (g.da + dAdd) g.ds dst i).1 + dst % 128 * g.lineWords) g.lineWords true
    let plain : List Out := (upTo g.lineWords).map (fun k =>
      let w := readWord rd sp (a + k)
      (⟨b + k, w, plainMax g.f w.data, false, allBytes⟩ : Out))
    if !isShingled g.f then return { o with els := o.els ++ plain }
    let sn : Int := (bitsN g.d 140 122 : Int) + (src / 128 * g.wt + i : Nat)
    let dn : Int := (bitsN g.d 171 153 : Int) + (dst / 128 * g.wt + i : Nat)
    let s0 ← tileScale rd t (bitsN g.d 121 110) sn
    let d0 ← tileScale rd t (bitsN g.d 152 141) dn
    let ha ← rangeIn rd c g.ssp ((g.tileAt g.sa g.ss src i).2 + src % 128 / 16) 1 false
    let hb ← rangeIn rd c g.dsp ((g.tileAt g.da g.ds dst i).2 + dst % 128 / 16) 1 true
    let hw := readWord rd sp ha
    let notes := o.note ++ [(bitsN g.d 121 110, sn), (bitsN g.d 152 141, dn)]
    let shOf (k : Nat) : Nat := elemOf 4 (4 * (src % 16) + k) hw.data
    let val (k : Nat) : Num × Bool :=
      let w := readWord rd sp (a + k / perWord g.f)
      (sfDecode (fmtOf g.f) s0.1 (shOf (k / 32)) (elemOf (elemBits g.f) (k % perWord g.f) w.data), isPoisoned w || isPoisoned hw || s0.2)
    if s0.1 = d0.1 && !s0.2 && !d0.2 then
      let els := plain.mapIdx (fun k (x : Out) => { x with mx := maxExpOf ((upTo (perWord g.f)).map (fun j => (val (perWord g.f * k + j)).1)) })
      return { o with els := o.els ++ els, shs := o.shs ++ [(hb, (upTo 4).map (fun k => (4 * (dst % 16) + k, shOf k)), isPoisoned hw)], note := notes }
    let qs := (upTo 4).map (fun b =>
      let xs := (upTo 32).map (fun k => val (32 * b + k))
      (quantise (fmtOf g.f) (fun k => rng (elemIndex g.f dn (128 * (dst % 128) + 32 * b + k : Nat))) d0.1 (xs.map (·.1)), xs.any (·.2) || d0.2, xs.map (·.1)))
    let els := (chunks (perWord g.f / 32) qs).zipIdx.map (fun (x : List (QBlock × Bool × List Num) × Nat) =>
      (⟨b + x.2, wordOf (packWord (elemBits g.f) (x.1.flatMap (fun q => q.1.codes))) (x.1.any (fun q => q.2.1)),
        maxExpOf (x.1.flatMap (fun q => q.1.codes.map (sfDecode (fmtOf g.f) d0.1 q.1.s))), x.1.any (fun q => q.1.ovf), allBytes⟩ : Out))
    return { els := o.els ++ els, shs := o.shs ++ [(hb, qs.mapIdx (fun k q => (4 * (dst % 16) + k, q.1.s)), qs.any (fun q => q.2.1))],
             reps := o.reps ++ qs.map (fun q => blockReport (bitsN g.d 152 141) dn q.2.2 q.1), note := notes, again := true }) {}

/-- An all-zero row (05 R126). -/
def Gath.padRow (g : Gath) (rd : State) (c : Core) (dst : Nat) : Res GathRow := do
  let w ← g.rowWords rd c g.dsp g.da g.ds dst true
  return { els := w.1.map (fun a => (⟨a, MemWord.zero, 0, false, allBytes⟩ : Out)),
           shs := w.2.map (fun a => (a, (upTo 4).map (fun k => (4 * (dst % 16) + k, 15)), false)) }

/-- Shingle words merged from the rows that wrote them, in order; a row not written leaves zeros (12 R317). -/
def mergeShingles (rs : List (Nat × List (Nat × Nat) × Bool)) : List Out :=
  (rs.foldl (fun (m : Sparse (List (Nat × Nat) × Bool)) r =>
    let o := look m ([], false) r.1
    set m r.1 (r.2.1 ++ o.1, r.2.2 || o.2)) []).map (fun (x : Nat × (List (Nat × Nat) × Bool)) =>
      (⟨x.1, wordOf (mergeWord false 4 0 x.2.1) x.2.2, 0, false, bytesOf 4 (x.2.1.map (·.1))⟩ : Out))

/-- What the entries of a gather or scatter have moved so far: `ats` are the cycles of its element words, from its first entry's
first, and `again` tells of each entry whether it was re-quantised. -/
structure GathRun where
  els   : List Out := []
  shs   : List (Nat × List (Nat × Nat) × Bool) := []
  reps  : List Report := []
  note  : List (Nat × Int) := []
  reads : List Nat := []
  rows  : Nat := 0
  pads  : Nat := 0
  fault : Option Nat := none
  reqs  : List (Nat × Nat) := []
  ats   : List Nat := []
  again : List Bool := []

/-- The cycle of an entry in which word `i` of its source is read: its element words, then its shingle words (05 R125). -/
def Gath.readAt (g : Gath) (i : Nat) : Nat :=
  let n := g.wt * g.lineWords
  if i < n then i / 8 else ceilDiv n 8 + (i - n) / 8

/-- The cycle of an entry in which element word `i` is written, before the latency L: a copied word at its read; the words of a
re-quantised row eight a cycle from its last source word's read and four cycles more (05 R126; log entry 17). -/
def gathAt (cyc : Nat) (again : Bool) (i : Nat) : Nat := if again then cyc + 3 + i / 8 else i / 8

/-- One entry of the list. -/
def Gath.entry (g : Gath) (rd : State) (c : Core) (scat : Bool) (list cyc : Nat) (rng : Nat → Option Nat) (o : GathRun) (p : Nat) : GathRun :=
  if o.fault.isSome then o else
  let put (r : Res GathRow) (rows pads : Nat) (reads : List Nat) : GathRun :=
    match r with
    | .ok r => { o with els := o.els ++ r.els, shs := o.shs ++ r.shs, reps := o.reps ++ r.reps, note := o.note ++ r.note,
                        reads := o.reads ++ reads, rows := o.rows + rows, pads := o.pads + pads,
                        reqs := o.reqs ++ (if g.ssp = 1 then reads.mapIdx (fun i k => (p * cyc + g.readAt i, k))
                          else if g.dsp = 1 then r.els.mapIdx (fun i e => (p * cyc + gathAt cyc r.again i + 2, e.a)) else []),
                        ats := o.ats ++ (upTo r.els.length).map (fun i => p * cyc + gathAt cyc r.again i), again := o.again ++ [r.again] }
    | .error (.fault code _) => { o with fault := some code }
    | .error _ => { o with fault := some 0x15 }
  match listEntry rd c list p with
  | none => if scat then { o with pads := o.pads + 1, again := o.again ++ [false] } else put (g.padRow rd c p) 0 1 []
  | some (token, rank) =>
    let row := token + bitsN g.d 85 62
    if bitsN g.d 109 86 ≤ row then { o with fault := some 0x18 } else
    let src := if scat then p else row
    let dst := if scat then row else p
    let chk : Res (List Nat) := do
      let w ← g.rowWords rd c g.ssp g.sa g.ss src false
      needHall rd (spaceOf c g.ssp) w.1 g.f none
      needHall rd (spaceOf c g.ssp) w.2 0xE none
      return w.1 ++ w.2
    match chk with
    | .error (.fault code _) => { o with fault := some code }
    | .error _ => { o with fault := some 0x15 }
    | .ok ws => put (g.copyRow rd c src dst (if scat then (rank * bitsN g.d 485 452 : Nat) else 0) rng) 1 0 ws

/-- Haul cycles of one entry (05 R125). -/
def Gath.cycles (g : Gath) : Nat :=
  ceilDiv (g.wt * g.lineWords) 8 + (if isShingled g.f then ceilDiv g.wt 8 else 0)

/-- A gather or scatter with its checks passed: what it moves, its list's words and what its entries move. -/
structure GathPlan where
  g   : Gath
  lws : List Nat
  r   : GathRun

/-- The checks of `HGATH` and `HSCAT`. -/
def gathPlan (c : Core) (scat : Bool) (desc : BitVec 10) (ch : BitVec 2) (nent : BitVec 13) (rd : State) : Res GathPlan := do
  let n := nent.toNat
  need (decide (1 ≤ n) && decide (n ≤ 4096)) 0x01
  needChannel rd c ch.toNat
  let d ← latchForm rd c desc 2 [1]
  need (gatherCheck d scat) 0x12
  let f := bitsN d 5 2
  let ssp := bitsN d 7 6
  let dsp := bitsN d 9 8
  let sa := addrAny rd c ssp (bits d 319 256)
  let da := addrAny rd c dsp (bits d 383 320)
  let ss ← planeBase f (sideTile f 0) (bitsN d 417 384) (addrBase ssp (bits d 319 256)) sa
  let ds ← planeBase f (sideTile f 0) (bitsN d 451 418) (addrBase dsp (bits d 383 320)) da
  let g : Gath := { d, f, ssp, dsp, sa, da, ss, ds, wt := bitsN d 27 10 / 128 }
  let list ← csRange rd c (bitsN d 45 28 : Nat) (ceilDiv n 8)
  let lws := (upTo (ceilDiv n 8)).map (list + ·)
  needHall rd (.cs c) lws 0xF (some (bitsN d 61 46))
  let rng ← rngOf rd c (bitB d 188) (bitsN d 204 189)
  let r := (upTo n).foldl (g.entry rd c scat list g.cycles rng) {}
  if r.reps ≠ [] then quantOpen rd (tenNo rd c)
  return ⟨g, lws, r⟩

/-- The core-store ports a gather of `n` entries uses: its list's words, its rows' words, and its tile-scale reads as a row's
tiles begin (07 R165; log entry 17). -/
def GathPlan.ports (p : GathPlan) (rd : State) (c : Core) (n : Nat) : List PortRun :=
  let u := unitClock rd c + 1
  let cyc := p.g.cycles
  let tiles := max 1 (8 / p.g.lineWords)
  let groups := (p.r.again.zipIdx).splitBy (fun x y => x.1 = y.1)
  [{ first := u, period := 8 * cyc, burst := 1, reps := ceilDiv n 8, rd := 1 : PortRun }]
    ++ (if p.g.ssp = 0 then [.solid u (n * cyc) 8 0] else [])
    ++ (if p.g.dsp = 0 then groups.filterMap (fun l =>
        match l with
        | [] => none
        | x :: _ => some (.solid (u + moveLat rd p.g.ssp false + x.2 * cyc + (if x.1 then cyc + 3 else 0)) (l.length * cyc) 0 8)) else [])
    ++ (if isShingled p.g.f then
        [{ first := u, period := cyc, burst := ceilDiv p.g.wt tiles, reps := n, scl := 2 * min p.g.wt tiles : PortRun }] else [])

/-- What a gather or scatter of `n` entries leaves. -/
def gathRun (c : Core) (ch : BitVec 2) (n : Nat) (p : GathPlan) (rd s : State) : State :=
  let g := p.g
  let r := p.r
  let u := unitClock rd c
  let t := tenNo rd c
  let sp := spaceOf c g.dsp
  let gen := bitsN g.d 187 172
  let outs := r.els
  let lat := moveLat rd g.ssp false
  let at' (k : Nat) : Nat := u + 1 + nth r.ats (n * g.cycles) k + lat
  let s1 := s.takeChannel c ch.toNat (u + 1 + n * g.cycles)
  let s2 := (s1.consume rd c 7 (.cs c) p.lws).noteReads (spaceOf c g.ssp) r.reads
  let s3 := r.note.foldl (fun (s : State) (x : Nat × Int) => s.noteTile c 7 x.1 x.2) (s2.report t r.reps)
  let s4 := ((s3.countCore c 0x100 r.rows).countCore c 0x108 r.pads).quantUntil rd c 3 (decide (r.reps ≠ [])) (u + 1 + n * g.cycles + lat + 4)
  let shs := mergeShingles r.shs
  let s5 := s4.deliver c ch.toNat g.ssp sp outs at' (fun _ => none) (fun old b => newHall old g.f gen outs b)
  s5.deliver c ch.toNat g.ssp sp shs (fun _ => at' outs.length) (fun _ => none) (fun old b => newHall old 0xE gen shs b)

/-- `HGATH` and `HSCAT`: an entry that faults ends it, after the entries before it. -/
def gathAct (c : Core) (scat : Bool) (desc : BitVec 10) (ch : BitVec 2) (nent : BitVec 13) (rd s : State) : Res State := do
  let p ← gathPlan c scat desc ch nent rd
  let n := nent.toNat
  match p.r.fault with
  | some code => throw (.after (gathRun c ch n p rd s) code 0)
  | none =>
    let s1 ← s.claimPorts c (p.ports rd c n)
    let s2 ← s1.claimSlots c ch.toNat (p.r.reqs.map (fun x => (unitClock rd c + 1 + x.1, x.2)))
    (gathRun c ch n p rd s2).holdMerges rd c (p.ports rd c n)

/-! ### Mesh transfers (10 R266, R267) -/

/-- The link directions of a route, row first, then column: the core each leaves, and its direction (0 right, 1 left,
2 down, 3 up). -/
def meshRoute (x0 y0 x1 y1 : Nat) : List (Nat × Nat) :=
  let row := if x0 ≤ x1 then (upTo (x1 - x0)).map (fun i => (8 * y0 + x0 + i, 0)) else (upTo (x0 - x1)).map (fun i => (8 * y0 + x0 - i, 1))
  let col := if y0 ≤ y1 then (upTo (y1 - y0)).map (fun i => (8 * (y0 + i) + x1, 2)) else (upTo (y0 - y1)).map (fun i => (8 * (y0 - i) + x1, 3))
  row ++ col

/-- A mesh transfer with its checks passed: descriptor, words, first words, destination and the links it uses. -/
structure MeshPlan where
  d    : BitVec 512
  n    : Nat
  sb   : Nat
  db   : Nat
  dst  : Core
  uses : List (Nat × MeshUse)
  outs : List Out

/-- The checks of `HMESH`. -/
def hmeshPlan (c : Core) (desc : BitVec 10) (ch : BitVec 2) (x y : BitVec 3) (count : BitVec 16) (rd : State) : Res MeshPlan := do
  let n := zeroIs 65536 count
  needChannel rd c ch.toNat
  let d ← latchForm rd c desc 2 [0]
  need (bitsN d 5 2 = 0 && bitsN d 29 6 = 0 && bitsN d 33 30 = bitsN d 37 34 && bitsN d 45 39 = 0 && !bitB d 48
    && !bitB d 255 && bitsN d 511 486 = 0 && addrOk 0 (bits d 319 256) && addrOk 0 (bits d 383 320)) 0x12
  let k := (rd.ten (tenNo rd c)).def_
  let y0 := k.y0.toNat
  need (decide (x.toNat < gridW rd) && decide (y.toNat < k.h.toNat)) 0x15
  let dst : Core := Fin.ofNat 64 (8 * (y0 + y.toNat) + x.toNat)
  let sb ← csRange rd c (addrCA rd c (bits d 319 256)) n
  let db ← csRange rd dst (addrCA rd c (bits d 383 320)) n
  needBlocks rd (.cs c) sb n false (bitsN d 37 34) (if bitB d 46 then some (bitsN d 106 91) else none)
  let q := seqOf rd c
  let uses := (meshRoute (c.val % 8) (c.val / 8) x.toNat (y0 + y.toNat)).mapIdx (fun j (e : Nat × Nat) =>
    (4 * e.1 + e.2, ({ core := c, page := q.page, bundle := q.bundle, start := unitClock rd c + 1 + meshBase rd + j * meshHop rd, units := 8 * n, rate := 128 } : MeshUse)))
  return { d, n, sb, db, dst, uses, outs := copyOuts rd (.cs c) sb db n (fun _ => plainMax (bitsN d 37 34)) }

/-- What a mesh transfer leaves. -/
def meshRun (c : Core) (ch : BitVec 2) (p : MeshPlan) (rd s : State) : State :=
  let u := unitClock rd c
  let s1 := (s.takeChannel c ch.toNat (u + 1 + ceilDiv p.n 16)).checkCrc rd c (.cs c) p.sb p.n
  let s2 := (s1.noteReads (.cs c) ((upTo p.n).map (p.sb + ·))).emitWith (.cs p.dst) p.outs
    (moveHall rd (.cs c) p.sb p.n p.db (fun _ => true) (bitsN p.d 37 34) (bitsN p.d 90 75) p.outs (badBlocks rd (.cs c) p.sb p.n) (fun k => (p.sb + k, p.sb + k)))
  (s2.takeLinks p.uses).chargeCore c 11 (p.n * p.uses.length) 0x1A0

/-- `HMESH`: a conflict faults both cores. -/
def hmeshAct (c : Core) (desc : BitVec 10) (ch : BitVec 2) (x y : BitVec 3) (count : BitVec 16) (rd s : State) : Res State := do
  let p ← hmeshPlan c desc ch x y count rd
  let u := unitClock rd c
  let hop := meshBase rd + p.uses.length * meshHop rd
  let hits := meshHits s p.uses
  if hits = [] then
    let s1 ← s.claimPorts c [.solid (u + 1) (ceilDiv p.n 16) (min p.n 16) 0]
    let s2 ← s1.claimPorts p.dst [.solid (unitClock rd p.dst + 1 + hop) (ceilDiv p.n 16) 0 (min p.n 16)]
    return meshRun c ch p rd s2
  else
    throw (.after ((meshRun c ch p rd s).meshFaults c hits) 0x1F 0)

/-! ### Page refill and descriptor writes (10 R261, R262, R265) -/

/-- The checks of `HPAGE`: the first word of the page. -/
def hpagePlan (c : Core) (desc : BitVec 10) (ch : BitVec 2) (page : BitVec 3) (tag : BitVec 8) (rd : State) : Res Nat := do
  need (decide (tag ≠ 0)) 0x01
  needChannel rd c ch.toNat
  let d ← latchForm rd c desc 2 [0]
  need (bitsN d 3 2 = 1 && bitsN d 5 4 ≠ 3 && bitsN d 29 6 = 0 && !bitB d 255 && bitsN d 511 486 = 0 && addrOk 1 (bits d 319 256)
    && addrOk (bitsN d 5 4) (bits d 383 320)) 0x12
  need (decide ((seqOf rd c).page ≠ page)) 0x06
  let sb ← hbmRange rd (tenNo rd c) (addrHA rd c (bits d 319 256)) 1024
  needBlocks rd .hbm sb 1024 false 0xF (if bitB d 46 then some (bitsN d 106 91) else none)
  return sb

/-- A page's tag cleared as its refill begins. -/
def State.beginFill (s : State) (c : Core) (page : BitVec 3) : State :=
  { s with cores := { s.cores with
    tags := put 0 s.cores.tags (8 * c.val + page.toNat) 0, fills := del s.cores.fills (8 * c.val + page.toNat) } }

/-- The HBM requests of a page refill that issues in cycle `u`. -/
def pageRequests (u sb : Nat) : List (Nat × Nat) :=
  (upTo 1024).flatMap (fun k => (u + 1 + k, sb + k) :: if (sb + k) % 128 = 0 ∨ k = 0 then [(u + 1 + k, hallWord (sb + k))] else [])

/-- What `HPAGE` leaves. -/
def pageRun (c : Core) (ch : BitVec 2) (page : BitVec 3) (tag : BitVec 8) (sb : Nat) (rd s : State) : State :=
  let u := unitClock rd c
  (((s.takeChannel c ch.toNat (u + 1 + 1024)).checkCrc rd c .hbm sb 1024).beginFill c page).enqueue c ch.toNat ((upTo 1024).map (fun k =>
    { landsAt := u + 1 + k + hbmRdLat rd, target := 2, dst := 1024 * page.toNat + k, word := readWord rd .hbm (sb + k), src := some (sb + k),
      tag := if k = 1023 then some tag else none }))

/-- `HPAGE`. -/
def hpageAct (c : Core) (desc : BitVec 10) (ch : BitVec 2) (page : BitVec 3) (tag : BitVec 8) (rd s : State) : Res State := do
  let sb ← hpagePlan c desc ch page tag rd
  let s1 ← s.claimSlots c ch.toNat (pageRequests (unitClock rd c) sb)
  return pageRun c ch page tag sb rd s1

/-- The checks of `HDESC`: the first word it reads. -/
def hdescPlan (c : Core) (entry : BitVec 10) (ch : BitVec 2) (addr : BitVec 18) (kind : BitVec 3) (rd : State) : Res Nat := do
  need (decide (1 ≤ kind.toNat) && decide (kind.toNat ≤ 3)) 0x01
  needChannel rd c ch.toNat
  let a ← csRange rd c (addr.toNat : Int) 2
  need (!(look rd.cores.desc {} (1024 * c.val + entry.toNat)).ro) 0x15
  return a

/-- The entry that `HDESC` writes. -/
def descOf (rd : State) (c : Core) (a : Nat) (kind : BitVec 3) : DescEntry :=
  let w0 := readWord rd (.cs c) a
  let w1 := readWord rd (.cs c) (a + 1)
  { kind, data := w1.data ++ w0.data, ro := false, syn0 := w0.syn, syn1 := w1.syn }

/-- What `HDESC` leaves. -/
def descRun (c : Core) (entry : BitVec 10) (ch : BitVec 2) (kind : BitVec 3) (a : Nat) (rd s : State) : State :=
  let s1 := (s.takeChannel c ch.toNat (unitClock rd c + 2)).noteReads (.cs c) [a, a + 1]
  let k := 1024 * c.val + entry.toNat
  { s1 with cores := { s1.cores with
    desc := put {} s1.cores.desc k (descOf rd c a kind)
    descWas := set s1.cores.descWas k ⟨unitClock rd c + 3, entryAt rd c entry⟩ } }

/-- `HDESC`. -/
def hdescAct (c : Core) (entry : BitVec 10) (ch : BitVec 2) (addr : BitVec 18) (kind : BitVec 3) (rd s : State) : Res State := do
  let a ← hdescPlan c entry ch addr kind rd
  let s1 ← s.claimPorts c [.solid (unitClock rd c + 1) 2 1 0]
  return descRun c entry ch kind a rd s1

/-! ### Dispatch (05 R120 to R124, R129) -/

/-- The rank key of a score: a NaN ranks below every other value, zeros are equal (05 R121). -/
def scoreLt (a b : Num) : Bool :=
  match a, b with
  | .nan, .nan => false
  | .nan, _ => true
  | _, .nan => false
  | x, y => x.lt y

/-- The k best experts of a token, best first. -/
def bestOf (k : Nat) (xs : List Num) : List Nat :=
  (((upTo xs.length).mergeSort (fun i j =>
    let a := nth xs .nan i
    let b := nth xs .nan j
    scoreLt b a || (!(scoreLt a b) && decide (i ≤ j))))).take k

/-- The dispatch of R122: lists and combine words as they grow. -/
structure Disp where
  fill    : List Nat
  lists   : Sparse Nat := []
  comb    : List (List Nat) := []
  dropped : Nat := 0

/-- One rank of a token. -/
def Disp.rank (q : Disp) (t cap slots : Nat) (er : Nat × Nat) : Disp × Nat :=
  let e := er.1
  let p := nth q.fill 0 e
  if p < cap then
    ({ q with lists := set q.lists (e * slots + p) (t + er.2 * 2 ^ 24 + 2 ^ 31), fill := nset q.fill e (p + 1) }, e + p * 2 ^ 8 + 2 ^ 30)
  else ({ q with dropped := q.dropped + 1 }, e + 2 ^ 30 + 2 ^ 31)

/-- One token. -/
def Disp.token (q : Disp) (k cap slots t : Nat) (xs : List Num) : Disp :=
  let r := ((bestOf k xs).zipIdx).foldl (fun (a : Disp × List Nat) (er : Nat × Nat) =>
    let x := a.1.rank t cap slots er
    (x.1, a.2 ++ [x.2])) (q, [])
  { r.1 with comb := r.1.comb ++ [r.2] }

/-- Untyped words from a run of 32-bit entries, zero-filled to whole words. -/
def u32Outs (base : Nat) (es : List Nat) (po : Bool) : List Out :=
  (chunks 8 es).zipIdx.map (fun (g : List Nat × Nat) => (⟨base + g.2, wordOf (packWord 32 g.1) po, 0, false, bytesOf 32 (upTo g.1.length)⟩ : Out))

/-- A dispatch descriptor's address `i`, moved by its bound stride. -/
def dspAddr (s : State) (c : Core) (d : BitVec 512) (i n : Nat) : Res Nat :=
  csRange s c ((bitsN d (58 + 18 * i) (41 + 18 * i) : Int) + bindVal s c (bitsN d 180 178) * bitsS d 199 181) n

/-- A dispatch call with its checks passed: the tag and words of its output, the words it reads, when its channel is free, what it
counts by counter, and its ports. -/
structure DispPlan where
  gen    : Nat
  runs   : List (List Out)
  ins    : List Nat
  busy   : Nat
  counts : List (Nat × Nat)
  ports  : List PortRun := []

/-- The words it stores, in order. -/
def DispPlan.outs (p : DispPlan) : List Out := p.runs.flatten

/-- A top-k call (05 R120 to R124). -/
def topkPlan (c : Core) (d : BitVec 512) (rd : State) : Res DispPlan := do
  let k := bitsN d 5 2
  let e := bitsN d 14 6
  let cap := bitsN d 27 15
  let t := bitsN d 40 28
  let slots := 8 * ceilDiv cap 8
  need (1 ≤ k && k ≤ 8 && k ≤ e && e ≤ 256 && 1 ≤ cap && cap ≤ 4096 && 1 ≤ t && t ≤ 4096 && e * slots ≤ 8192 && bitsN d 144 113 = 0) 0x12
  let a0 ← dspAddr rd c d 0 (ceilDiv (t * e) 8)
  let a1 ← dspAddr rd c d 1 (e * slots / 8)
  let a2 ← dspAddr rd c d 2 t
  let a3 ← dspAddr rd c d 3 (ceilDiv e 8)
  let ins := (upTo (ceilDiv (t * e) 8)).map (a0 + ·)
  needHall rd (.cs c) ins 0 (if bitB d 177 then some (bitsN d 176 161) else none)
  let score (i : Nat) : Num := f32 (BitVec.ofNat 32 (elemOf 32 (i % 8) (readWord rd (.cs c) (a0 + i / 8)).data))
  let po := (firstPoison rd (.cs c) ins).isSome
  let q := (upTo t).foldl (fun (q : Disp) i => q.token k cap slots i ((upTo e).map (fun x => score (i * e + x))))
    { fill := List.replicate e 0 }
  let nans := ((upTo (t * e)).filter (fun i => (score i).isNan)).length
  let first := unitClock rd c + 1
  return {
    gen := bitsN d 160 145, ins
    runs := [q.comb.zipIdx.map (fun (x : List Nat × Nat) => (⟨a2 + x.2, wordOf (packWord 32 x.1) po, 0, false, allBytes⟩ : Out)),
             u32Outs a1 ((upTo (e * slots)).map (fun i => look q.lists 0 i)) po, u32Outs a3 q.fill po]
    busy := first + t * ceilDiv e 64 + e * ceilDiv cap 8 + ceilDiv e 8 + dispatchLat rd
    counts := [(0xE0, 1), (0xE8, t * k - q.dropped), (0xF0, q.dropped), (0xF8, nans)]
    ports := [.solid first (t * ceilDiv e 64) (min 8 (ceilDiv e 8)) 0,
      { first := first + ceilDiv e 64 - 1 + dispatchLat rd - 1, period := ceilDiv e 64, burst := 1, reps := t, wr := 1 },
      .solid (first + t * ceilDiv e 64 + dispatchLat rd - 1) (e * ceilDiv cap 8 + ceilDiv e 8) 0 1] }

/-- A unique-mode call (05 R129). -/
def uniquePlan (c : Core) (d : BitVec 512) (rd : State) : Res DispPlan := do
  let n := bitsN d 40 28
  let rows := bitsN d 144 113
  need (bitsN d 27 2 = 0 && 1 ≤ n && n ≤ 4096 && 1 ≤ rows && rows ≤ 2 ^ 24) 0x12
  let nw := ceilDiv n 8
  let a0 ← dspAddr rd c d 0 nw
  let a1 ← dspAddr rd c d 1 nw
  let a2 ← dspAddr rd c d 2 nw
  let a3 ← dspAddr rd c d 3 1
  let ins := (upTo nw).map (a0 + ·)
  needHall rd (.cs c) ins 0xF (if bitB d 177 then some (bitsN d 176 161) else none)
  let xs := (upTo n).map (fun i => (elemOf 32 (i % 8) (readWord rd (.cs c) (a0 + i / 8)).data, i))
  need (xs.all (fun x => decide (x.1 < rows))) 0x18
  let po := (firstPoison rd (.cs c) ins).isSome
  let sorted := xs.mergeSort (fun a b => decide (a.1 < b.1) || (decide (a.1 = b.1) && decide (a.2 ≤ b.2)))
  let first := unitClock rd c + 1
  let uniq := sorted.foldl (fun (l : List Nat) x => if l.getLast? = some x.1 then l else l ++ [x.1]) []
  return {
    gen := bitsN d 160 145, ins
    runs := [u32Outs a1 (uniq.map (· + 2 ^ 31) ++ List.replicate (n - uniq.length) 0) po, u32Outs a2 (sorted.map (fun x => x.2 + 2 ^ 31)) po,
             [⟨a3, wordOf (BitVec.ofNat 256 uniq.length) po, 0, false, allBytes⟩]]
    busy := first + 3 * nw + dispatchLat rd
    counts := [(0xE0, 1)]
    ports := [.solid first nw 1 0, .solid (first + nw + dispatchLat rd - 1) (2 * nw) 0 1,
      .solid (first + 3 * nw - 1 + dispatchLat rd - 1) 1 0 1] }

/-- The checks of `HDSP`, on channel 3. -/
def hdspPlan (c : Core) (desc : BitVec 10) (rd : State) : Res DispPlan := do
  needChannel rd c 3
  let d ← latchForm rd c desc 3 [0, 1]
  need (bitsN d 511 200 = 0 && bitsN d 180 178 ≤ 5) 0x12
  if bitsN d 1 0 = 0 then topkPlan c d rd else uniquePlan c d rd

/-- What `HDSP` leaves. -/
def dispRun (c : Core) (p : DispPlan) (rd s : State) : State :=
  let s1 := (s.takeChannel c 3 p.busy).consume rd c 8 (.cs c) p.ins
  let s2 := p.runs.foldl (fun (s : State) r => s.emit (.cs c) 0xF p.gen r) s1
  p.counts.foldl (fun (s : State) (x : Nat × Nat) => s.countCore c x.1 x.2) s2

/-- `HDSP`. -/
def hdspAct (c : Core) (desc : BitVec 10) (rd s : State) : Res State := do
  let p ← hdspPlan c desc rd
  let s1 ← s.claimPorts c p.ports
  (dispRun c p rd s1).holdMerges rd c p.ports

/-! ### Meanings -/

/-- `HGATH` issued alone in slot HL. -/
def execHgath (c : Core) (desc : BitVec 10) (ch : BitVec 2) (nent : BitVec 13) (s : State) : Answer :=
  .next (slotOp c 3 (gathAct c false desc ch nent) s s)

/-- `HSCAT` issued alone. -/
def execHscat (c : Core) (desc : BitVec 10) (ch : BitVec 2) (nent : BitVec 13) (s : State) : Answer :=
  .next (slotOp c 3 (gathAct c true desc ch nent) s s)

/-- `HMESH` issued alone. -/
def execHmesh (c : Core) (desc : BitVec 10) (ch : BitVec 2) (x y : BitVec 3) (count : BitVec 16) (s : State) : Answer :=
  .next (slotOp c 3 (hmeshAct c desc ch x y count) s s)

/-- `HPAGE` issued alone. -/
def execHpage (c : Core) (desc : BitVec 10) (ch : BitVec 2) (page : BitVec 3) (tag : BitVec 8) (s : State) : Answer :=
  .next (slotOp c 3 (hpageAct c desc ch page tag) s s)

/-- `HDESC` issued alone. -/
def execHdesc (c : Core) (entry : BitVec 10) (ch : BitVec 2) (addr : BitVec 18) (kind : BitVec 3) (s : State) : Answer :=
  .next (slotOp c 3 (hdescAct c entry ch addr kind) s s)

/-- `HDSP` issued alone. -/
def execHdsp (c : Core) (desc : BitVec 10) (s : State) : Answer := .next (slotOp c 3 (hdspAct c desc) s s)

end Sys2Proof.Machine
end

