-- ==== Sys2Proof/Machine/Row.lean ====
section
/-! DEFINITION. The row engine (06 R143 to R150, R159, R578; 05 R128; 11 R295). -/

namespace Sys2Proof.Machine

open Sys2Proof

/-! ### Row ledger sums (06 R143 to R145) -/

/-- The derived anchor of a list of values. -/
def derivedAnchor (xs : List Num) : Int :=
  let a := amaxOf xs
  if a.isZero then -125 else max (-125) (min 128 (a.ilog2 + 1))

/-- A row ledger sum on anchor `A`: each value is the sum S of one K-block of R64. -/
def rowSum (A : Int) (xs : List Num) : Acc := xs.foldl (fun a x => a.addTerm (termOf A 1 [x])) {}

/-- Whether a sum carries a special flag, and whether it is anchor-low or saturated. -/
def Acc.special (a : Acc) : Bool := a.nan || a.pinf || a.ninf
def Acc.flagged (a : Acc) : Bool := a.low || a.sat

/-- RNE32 of (n / d) × 2^e. -/
def ratF32 (n : Int) (d : Nat) (e : Int) : F32 := BitVec.ofNat 32 (Fmt.fp32.encodeRat none (decide (n < 0)) n.natAbs d e)

/-- RNE32 of a sum divided by W. -/
def meanF32 (A : Int) (a : Acc) (w : Nat) : F32 := if a.special then qNaN else ratF32 a.val w (A - 64)

/-- RNE32(max(0, S2 ÷ W − (S1 ÷ W)²)), the whole formed exactly (06 R145). -/
def varF32 (A : Int) (s1 s2 : Acc) (w : Nat) : F32 :=
  if s1.special || s2.special then qNaN
  else ratF32 (max 0 (s2.val * w * 2 ^ 64 - s1.val * s1.val)) (w * w) (2 * A - 128)

/-! ### One row -/

/-- What a row leaves: its D values with poison, its C values, its raw slot, its purse entries, its ledger sums found low, and its
NaN results where they are not simply all of a row without a NaN operand (06 Table 06.10). -/
structure RowOut where
  d    : List (Num × Bool) := []
  c    : List (Num × Bool) := []
  raw  : Option (Nat × Nat × Bool) := none
  p    : List (F32 × Bool) := []
  low  : Nat := 0
  loss : Option F32 := none
  nans : Option Nat := none

/-- What a row is given: row number, width, flags, A, B and C values with poison, raw words, purse values, the supplied
anchor, ε or g, and the causal offset. -/
structure RowIn where
  i     : Nat
  w     : Nat
  fl    : Nat
  a     : List (Num × Bool) := []
  b     : List (Num × Bool) := []
  c     : List (Num × Bool) := []
  rawB  : Nat := 0
  rawC  : Nat := 0
  bad   : Bool := false
  p     : List F32 := []
  sup   : Option Int := none
  imm   : F32 := 0
  causal : Option Int := none

/-- The values of a list, and the list with one poison mark. -/
def vals (l : List (Num × Bool)) : List Num := l.map (·.1)
def mark (b : Bool) (l : List Num) : List (Num × Bool) := l.map (fun x => (x, b))
def RowIn.anyBad (r : RowIn) : Bool := r.bad || (r.a ++ r.b ++ r.c).any (·.2)

/-- How many of some values are NaNs. -/
def nanCount (l : List Num) : Nat := (l.filter Num.isNan).length

/-- The NaN results of a row, `op` telling whether an operand of it is a NaN (06 Table 06.10). -/
def RowOut.nanOut (o : RowOut) (op : Bool) : Nat :=
  match o.nans with
  | some n => n
  | none => if op then 0 else nanCount (o.d.map (·.1)) + nanCount (o.c.map (·.1)) + nanCount (o.p.map (fun v => f32 v.1)) + nanCount (o.loss.toList.map f32)

/-- How many of some sums are flagged. -/
def flaggedOf (l : List Acc) : Nat := (l.filter Acc.flagged).length

/-- A value exact, rounded once. -/
def once (x : Num) : Num := f32 (toF32 x)

/-- `RNORM` (06 Table 06.5). -/
def rowNorm (r : RowIn) : RowOut :=
  let x := vals r.a
  let A := r.sup.getD (derivedAnchor x)
  let s2 := rowSum (2 * A) (x.map (fun v => v.mul v))
  if r.fl % 2 = 1 then
    let rstd := fRsqrt (fAdd (meanF32 (2 * A) s2 r.w) r.imm)
    { d := mark r.anyBad ((x.zip (vals r.b)).map (fun z => once ((z.1.mul (f32 rstd)).mul z.2))),
      p := [(rstd, r.anyBad)], low := flaggedOf [s2] }
  else
    let s1 := rowSum A x
    let mu := if s1.special || s2.special then qNaN else meanF32 A s1 r.w
    let rstd := fRsqrt (fAdd (varF32 A s1 s2 r.w) r.imm)
    { d := mark r.anyBad ((x.zip ((vals r.b).zip (vals r.c))).map (fun z =>
        once ((((z.1.sub (f32 mu)).mul (f32 rstd)).mul z.2.1).add z.2.2))),
      p := [(mu, r.anyBad), (rstd, r.anyBad)], low := flaggedOf [s1, s2] }

/-- ⌈log₂ W ÷ 2⌉: the least n with 4^n ≥ W (06 R144). -/
def normAnchor (w : Nat) : Int := (((upTo 10).find? (fun n => decide (w ≤ 4 ^ n))).getD 9 : Nat)

/-- `RNORMB`. -/
def rowNormB (r : RowIn) : RowOut :=
  let rms := r.fl % 2 = 1
  let mu := if rms then Num.zero else f32 (nth r.p 0 0)
  let rstd := f32 (if rms then nth r.p 0 0 else nth r.p 0 1)
  let n := (vals r.a).map (fun x => once ((x.sub mu).mul rstd))
  let g := ((vals r.b).zip (vals r.c)).map (fun z => f32 (fMul (toF32 z.1) (toF32 z.2)))
  let Ag := r.sup.getD (derivedAnchor g)
  let An := match r.sup with | some _ => normAnchor r.w | none => derivedAnchor n
  let sg := rowSum Ag g
  let sn := rowSum (Ag + An) ((g.zip n).map (fun z => z.1.mul z.2))
  let c1 := if rms then Num.zero else f32 (meanF32 Ag sg r.w)
  let c2 := f32 (meanF32 (Ag + An) sn r.w)
  { d := mark r.anyBad ((g.zip n).map (fun z => once (rstd.mul ((z.1.sub c1).sub (z.2.mul c2))))),
    low := flaggedOf (if rms then [sn] else [sg, sn]) }

/-- The maximum of a list, NaN where any is (06 R133). -/
def maxAll (xs : List Num) : F32 := match xs with | [] => 0xFF80_0000 | x :: r => r.foldl (fun m y => fMax m (toF32 y)) (toF32 x)

/-- The scores after the causal mask (06 R148). -/
def masked (r : RowIn) : List Num :=
  match r.causal with
  | some o => (vals r.a).mapIdx (fun j x => if decide ((r.i : Int) + o < j) then .inf true else x)
  | none => vals r.a

/-- Whether a maximum makes the whole row NaN. -/
def maxBad (m : F32) : Bool := (f32 m).isNan || decide (m = fInf)

def negInf : F32 := 0xFF80_0000

/-- `RSMAX`, with its partial mode. -/
def rowSmax (r : RowIn) : RowOut :=
  let s := masked r
  let m := maxAll s
  let bad := r.anyBad
  let part := r.fl % 2 = 1
  if m = negInf then
    { d := mark bad (s.map (fun _ => .zero)), c := mark bad (if part then [f32 m, .zero] else []),
      p := if part then [] else [(m, bad), (0, bad)] }
  else if maxBad m then
    { d := mark bad (s.map (fun _ => .nan)), c := mark bad (if part then [f32 m, .nan] else []),
      p := if part then [] else [(m, bad), (qNaN, bad)] }
  else
    let p := s.map (fun x => fExp (fSub (toF32 x) m))
    let l := rowSum 1 (p.map f32)
    let l32 := l.toFp32 1
    if part then { d := mark bad (p.map f32), c := mark bad [f32 m, f32 l32], low := flaggedOf [l] }
    else
      let rl := fRcp l32
      { d := mark bad (p.map (fun v => f32 (fMul v rl))), p := [(m, bad), (rl, bad)], low := flaggedOf [l] }

/-- `RSMAXB`. -/
def rowSmaxB (r : RowIn) : RowOut :=
  let s := masked r
  let m := nth r.p 0 0
  let rl := nth r.p 0 1
  let bad := r.anyBad
  if m = negInf then { d := mark bad (s.map (fun _ => .zero)) }
  else if maxBad m then { d := mark bad (s.map (fun _ => .nan)) }
  else
    let y := s.map (fun x => f32 (fMul (fExp (fSub (toF32 x) m)) rl))
    let dy := vals r.b
    let A := r.sup.getD (derivedAnchor dy + derivedAnchor y)
    let l := rowSum A ((dy.zip y).map (fun z => z.1.mul z.2))
    let k := f32 (l.toFp32 A)
    { d := mark bad ((y.zip dy).map (fun z => once (z.1.mul (z.2.sub k)))), low := flaggedOf [l] }

/-- `RFOLD` (06 R149): each output depends on its own elements and on the row's two pairs. -/
def rowFold (r : RowIn) : RowOut :=
  let m := nth r.p 0 0
  let l := nth r.p 0 1
  let mc := nth r.b (.zero, false) 0
  let lc := nth r.b (.zero, false) 1
  let bad := r.bad || mc.2 || lc.2
  let m2 := fMax m (toF32 mc.1)
  let ls : F32 × List (Num × Bool) :=
    if m2 = negInf then (l, r.c)
    else
      let a := f32 (fExp (fSub m m2))
      let b := f32 (fExp (fSub (toF32 mc.1) m2))
      (toF32 (((f32 l).mul a).add (lc.1.mul b)),
       (r.c.zip r.a).map (fun z => (once ((z.1.1.mul a).add (z.2.1.mul b)), bad || z.1.2 || z.2.2)))
  let d := if r.fl % 2 = 1 then
      ls.2.map (fun o => (if (f32 ls.1).isZero then Num.zero else f32 (fDiv (toF32 o.1) ls.1), o.2)) else []
  let op := [f32 m, f32 l, mc.1, lc.1].any Num.isNan
  let p : List (F32 × Bool) := [(if m2 = negInf then m else m2, bad), (ls.1, bad)]
  let own := (r.a.zip r.c).map (fun z => op || z.1.1.isNan || z.2.1.isNan)
  { d := d, c := ls.2, p := p
    nans := some ((if op then 0 else nanCount (p.map (fun v => f32 v.1)))
      + nanCount (((ls.2.zip own).filter (fun z => !z.2)).map (·.1.1)) + nanCount (((d.zip own).filter (fun z => !z.2)).map (·.1.1))) }

/-- `RXENT`, by phase (06 R147, R578). -/
def rowXent (r : RowIn) : RowOut :=
  let z := vals r.a
  let bad := r.anyBad
  let m := nth r.p 0 0
  if r.fl % 4 = 0 then { p := [(maxAll z, bad)] }
  else if r.fl % 4 = 1 then
    let l := rowSum 1 (z.map (fun x => f32 (fExp (fSub (toF32 x) m))))
    { raw := some (128, l.toPartial, bad), low := flaggedOf [l], loss := some (l.toFp32 1) }
  else
    let lse := fAdd m (fLn ((Acc.ofPartial r.rawC).toFp32 1))
    let g := f32 r.imm
    let d := z.mapIdx (fun j x =>
      once (((f32 (fExp (fSub (toF32 x) lse))).sub (if j = r.rawB then .one else .zero)).mul g))
    let loss := if r.rawB < r.w then some (fSub lse (toF32 (nth z .zero r.rawB))) else none
    { d := mark bad d, p := [(lse, bad)], loss, raw := loss.map (fun v => (128, v.toNat, bad)) }

/-! ### Routing (05 R128, 06 Table 06.5) -/

/-- A combine entry: the expert, whether it is used and whether it was dropped (05 Table 05.6). -/
structure Comb where
  expert  : Nat
  used    : Bool
  dropped : Bool
deriving DecidableEq, Repr

def combAt (w : BitVec 256) (r : Nat) : Comb :=
  let x := elemOf 32 r w
  ⟨x % 256, x.testBit 30, x.testBit 31⟩

/-- `RROUTE`: the weights of the k chosen scores, 8 FP32 a token; a rank past k weighs +0. -/
def routeWeights (scores : List Num) : List F32 × Acc :=
  let m := maxAll scores
  let p := scores.map (fun x => fExp (fSub (toF32 x) m))
  let l := rowSum 1 (p.map f32)
  let rl := fRcp (l.toFp32 1)
  (p.map (fun v => fMul v rl), l)

/-- `RROUTEB`: the gradient of each chosen score. `ys` gives each rank's staging row. -/
def routeGrads (sup : Option Int) (dy : List Num) (ys : List (List Num)) (cs : List Comb) (ws : List Num) : List Num × Nat :=
  let dws := (ys.zip cs).map (fun z =>
    if z.2.used && !z.2.dropped then
      let A := sup.getD (derivedAnchor dy + derivedAnchor z.1)
      let a := rowSum A ((dy.zip z.1).map (fun q => q.1.mul q.2))
      (f32 (a.toFp32 A), flaggedOf [a])
    else (Num.zero, 0))
  let dw := dws.map (·.1)
  let A := sup.getD (derivedAnchor ws + derivedAnchor dw)
  let k := rowSum A ((ws.zip dw).map (fun q => q.1.mul q.2))
  let c := f32 (k.toFp32 A)
  ((ws.zip dw).map (fun q => once (q.1.mul (q.2.sub c))), dws.foldl (fun t x => t + x.2) (flaggedOf [k]))

/-- `RCOMB`: one output element. -/
def combElem (cs : List Comb) (ws : List F32) (ys : List F32) (residual : F32) : F32 :=
  fAdd ((cs.zip (ws.zip ys)).foldl (fun acc z => if z.1.used && !z.1.dropped then fFma z.2.1 z.2.2 acc else acc) 0) residual

/-! ### Streams of a row operation (06 R146) -/

/-- How a stream is walked: a two-dimensional tensor, one vector for all rows, a pair of values per row. -/
inductive Walk where
  | row | vec | pair | eight
deriving DecidableEq, Repr

/-- The element offsets a stream takes for row `i` of an operation of `rows` rows and width `w`. -/
def Strm.offs (t : Strm) (k : Walk) (rows w i : Nat) : List Int :=
  match k with
  | .row =>
    if t.trans then
      let J := ceilDiv rows 128
      (upTo w).map (fun j => t.e0 + ((16384 * (j / 128 * J + i / 128) + 128 * (j % 128) + i % 128 : Nat) : Int))
    else
      let J := ceilDiv w 128
      (upTo w).map (fun j => t.e0 + ((16384 * (i / 128 * J + j / 128) + 128 * (i % 128) + j % 128 : Nat) : Int))
  | .vec => (upTo w).map (fun j => t.e0 + (j : Int))
  | .pair => [t.e0 + ((2 * i : Nat) : Int), t.e0 + ((2 * i + 1 : Nat) : Int)]
  | .eight => (upTo 8).map (fun j => t.e0 + ((8 * i + j : Nat) : Int))

/-- A raw stream: untyped words of which row `i` takes `bits` bits; its address moves as other streams'. -/
structure RawStrm where
  base : Nat
deriving DecidableEq, Repr

def openRaw (s : State) (c : Core) (d : BitVec 512) (k n : Nat) (isIn : Bool) : Res RawStrm := do
  let o := strmAt k
  need (decide (bitsN d (o + 23) (o + 22) = 0) && decide (bitsN d (o + 26) (o + 24) ≤ 5) && decide (bitsN d (o + 48) (o + 46) ≤ 5)) 0x12
  let a ← csRange s c ((bitsN d (o + 17) o : Int) + bindVal s c (bitsN d (o + 26) (o + 24)) * bitsS d (o + 45) (o + 27)
    + bindVal s c (bitsN d (o + 48) (o + 46)) * bitsS d (o + 67) (o + 49)) n
  if isIn then needHall s (.cs c) ((upTo n).map (a + ·)) 0xF (if bitB d (o + 71) then some (bitsN d 453 438) else none)
  return ⟨a⟩

/-- Item `i` of `w` bits of a raw stream, with its poison. -/
def RawStrm.item (s : State) (c : Core) (t : RawStrm) (w i : Nat) : Nat × Bool :=
  let x := readWord s (.cs c) (t.base + i * w / 256)
  (elemOf w (i % (256 / w)) x.data, isPoisoned x)

/-- Raw items written: by item number. -/
def rawOuts (s : State) (c : Core) (keep : Bool) (base w : Nat) (items : List (Nat × Nat × Bool × Bool)) : List Out :=
  let g := items.foldl (fun (m : Sparse (List (Nat × Nat × Bool × Bool))) x =>
    set m (base + x.1 * w / 256) (look m [] (base + x.1 * w / 256) ++ [x])) []
  g.map (fun x => ⟨x.1, wordOf (mergeWord keep w (readWord s (.cs c) x.1).data (x.2.map (fun y => (y.1 % (256 / w), y.2.1)))) (x.2.any (·.2.2.1)),
    0, x.2.any (·.2.2.2), maskOf keep w (x.2.map (fun y => y.1 % (256 / w)))⟩)

/-! ### The purse, as a row operation uses it (06 R152, R153, R158) -/

/-- The entry of a core's purse. -/
def purseAt (s : State) (c : Core) (i : Nat) : PurseEntry := look s.cores.purse {} (4096 * c.val + i)

def State.setPurse (s : State) (c : Core) (i : Nat) (e : PurseEntry) : State :=
  { s with cores := { s.cores with purse := put {} s.cores.purse (4096 * c.val + i) e } }

/-- `n` entries read from `base`: none where one is invalid or carries another tag. -/
def purseRead (s : State) (c : Core) (base n tag : Nat) : Option (List (F32 × Bool)) :=
  (upTo n).mapM (fun k =>
    let e := purseAt s c (base + k)
    if e.valid && decide (e.tag.toNat = tag) then some (e.value, decide (e.err = .bad)) else none)

/-- What reading entries leaves: corrected ones are counted and written back clean, uncorrectable ones go to the die ledger. -/
def State.notePurse (s : State) (c : Core) (base n : Nat) : State :=
  (upTo n).foldl (fun s k =>
    let e := purseAt s c (base + k)
    match e.err with
    | .one _ => (s.setPurse c (base + k) { e with err := .clean }).countCore c 0x128 1
    | .bad => s.addFigure 2 163 1
    | .clean => s) s

/-! ### A row operation (11 R295) -/

/-- The shape of an operation: purse entries per row and whether it reads or writes them, sweeps by derived and supplied
anchors, whether its anchor is fixed, whether it has a causal mask, whether it reads the function ROM, and whether its sweeps read its row
streams in turn. -/
structure RowShape where
  per    : Nat
  reads  : Bool
  writes : Bool
  sweeps : Nat
  sup    : Nat
  fixed  : Bool := false
  causal : Bool := false
  rom    : Bool := false
  inTurn : Bool := false

/-- The checks of a row operation's descriptor (06 R148, R152; 11 R294, R295; 03 R61). -/
def rowCheck (d : BitVec 512) (h : RowShape) (rows : Nat) : Bool :=
  let asrc := bitsN d 499 498
  bitsN d 405 403 ≤ 4 && zeroBits d [(511, 501)] && asrc ≤ 2 && (asrc ≠ 1 || h.fixed) && (!(bitB d 500) || h.causal)
  && (asrc ≠ 2 || (decide (-1024 ≤ bitsS d 497 482) && decide (bitsS d 497 482 ≤ 1023)))
  && (h.per = 0 || bitsN d 481 470 + h.per * rows ≤ 4096)

/-- The row engine taken until its last read, and the descriptor latched and checked. -/
def rowIssue (c : Core) (a : RowArgs) (h : RowShape) (okFlags : Bool) (rd : State) : Res (BitVec 512) := do
  need okFlags 0x01
  need (decide (look rd.cores.rwBusy 0 c.val ≤ unitClock rd c)) 0x1A
  let d ← latchForm rd c a.desc 2 [2]
  need (rowCheck d h (zeroIs 4096 a.rows)) 0x12
  return d

/-- The sweeps of a row operation (06 Table 06.5). -/
def RowShape.takes (h : RowShape) (d : BitVec 512) : Nat := if bitsN d 499 498 = 2 then h.sup else h.sweeps

/-- The first cycle in which the row engine is free again: a row's last sweep follows its others RW_STAT_LAT cycles on, and a row of
one sweep the next row's as many (06 R137, R146). -/
def rowBusy (c : Core) (a : RowArgs) (d : BitVec 512) (h : RowShape) (rd : State) : Nat :=
  let n := zeroIs 4096 a.rows
  let s := h.takes d
  unitClock rd c + 1 + n * (s * zeroIs 4096 a.w32 + rwStatLat rd) - (if s = 1 then rwStatLat rd else 0)

/-- The words of 32 elements of a format. -/
def rowWide (f : Nat) : Nat := max 1 (elemBits f / 8)

/-- The core-store words of a row operation, 32 elements of a stream a cycle (06 R146): `sweep` are the words a cycle that every
sweep reads, `last` those of the last sweep alone, `each` those of each row's first cycle, `outs` those it writes with its last
sweep. -/
def rowPorts (rd : State) (c : Core) (a : RowArgs) (d : BitVec 512) (h : RowShape) (sweep last each outs : Nat) : List PortRun :=
  let n := zeroIs 4096 a.rows
  let w := zeroIs 4096 a.w32
  let s := h.takes d
  let first := unitClock rd c + 1
  let period := s * w + rwStatLat rd
  let final := first + (s - 1) * w + (if s = 1 then 0 else rwStatLat rd)
  [{ first, period, burst := (s - 1) * w, reps := n, rd := sweep : PortRun },
   { first := final, period, burst := w, reps := n, rd := sweep + last : PortRun },
   { first, period, burst := 1, reps := n, rd := each : PortRun },
   { first := final + rwLat rd, period, burst := w, reps := n, wr := outs : PortRun }]

/-- The supplied anchor. -/
def supplied (d : BitVec 512) : Option Int := if bitsN d 499 498 = 2 then some (bitsS d 497 482) else none

/-- Rows run until one cannot: the outputs of those that ran, and the code that ended them. -/
def runRows (n : Nat) (f : Nat → Except Nat RowOut) : List RowOut × Option Nat :=
  (upTo n).foldl (fun (acc : List RowOut × Option Nat) i =>
    match acc.2 with
    | some _ => acc
    | none => match f i with | .ok o => (acc.1 ++ [o], none) | .error k => (acc.1, some k)) ([], none)

/-- The row engine taken until a cycle of its clock. -/
def State.takeRow (s : State) (c : Core) (until' : Nat) : State :=
  { s with cores := { s.cores with rwBusy := put 0 s.cores.rwBusy c.val until' } }

/-- The element index j of 02 R46 of the element at offset `e` of stream D: where another stream is shingled, its tile numbers are
that stream's at the same place (11 R294). -/
def outIndex (lead : Option Strm) (o : Strm) (e : Int) : Nat :=
  match lead with
  | some t => elemIndex o.fmt t.tile0 (t.e0 + (e - o.e0))
  | none => elemIndex o.fmt o.tile0 e

/-- The shingled stream among those an operation reads. -/
def leadOf (ins : List Strm) : Option Strm := ins.find? (fun t => t.imm.isNone && isShingled t.fmt)

/-- What the rows that ran give for one output stream; `rng` are the random words of stream D's elements. -/
def rowWrote (c : Core) (a : RowArgs) (rd : State) (rng : Int → Option Nat) (outs : List RowOut) (q : Strm × Walk)
    (get : RowOut → List (Num × Bool)) : Wrote :=
  let cells : List Cell := (outs.zipIdx).flatMap (fun (r : RowOut × Nat) =>
    ((q.1.offs q.2 (zeroIs 4096 a.rows) (32 * zeroIs 4096 a.w32) r.2).zip (get r.1)).map (fun z => ⟨z.1, z.2.1, z.2.2, decide (r.1.low ≠ 0)⟩))
  writeRun rd (.cs c) q.1.fmt q.1.base q.1.sh q.1.region q.1.tile0 q.1.scale rng q.1.diag false cells

/-- One output stream of a row operation written. -/
def rowWrite (c : Core) (a : RowArgs) (d : BitVec 512) (rd : State) (rng : Int → Option Nat) (outs : List RowOut) (s : State)
    (o : Option (Strm × Walk)) (get : RowOut → List (Num × Bool)) : State :=
  match o with
  | none => s
  | some q =>
    let stamp := bitsN d 437 422
    let wr := rowWrote c a rd rng outs q get
    (((s.emit (.cs c) q.1.fmt stamp wr.els).emit (.cs c) 0xE stamp wr.shs).noteStrm c 6 q.1).report (tenNo rd c) wr.reps

/-- The raw slots of the rows that ran, `keep` leaving the rest of a word (11 Table 11.12). -/
def rowRawOuts (c : Core) (a : RowArgs) (rd : State) (outs : List RowOut) (b : Nat) : List Out :=
  rawOuts rd c (decide (a.flags.toNat = 2)) b 128 ((outs.zipIdx).filterMap (fun (r : RowOut × Nat) =>
    r.1.raw.map (fun x => (r.2, x.2.1, x.2.2, decide (r.1.low ≠ 0)))))

/-- The raw slots of a row operation written. -/
def rowRaw (c : Core) (a : RowArgs) (d : BitVec 512) (rd : State) (outs : List RowOut) (s : State) (rawC : Option Nat) : State :=
  match rawC with
  | none => s
  | some b => s.emit (.cs c) 0xF (bitsN d 437 422) (rowRawOuts c a rd outs b)

/-- The words that `ran` rows read of a stream. -/
def rowWords (a : RowArgs) (ran : Nat) (q : Strm × Walk) : List Nat :=
  if q.1.imm.isSome then [] else
    let at' (i : Nat) := q.1.offs q.2 (zeroIs 4096 a.rows) (32 * zeroIs 4096 a.w32) i
    let es := if q.2 = Walk.vec then at' 0 else (upTo ran).flatMap at'
    (q.1.words es ++ q.1.shWords es).map (·.toNat)

/-- What the reads of a row operation leave: its streams' and its raw words'. -/
def rowReads (c : Core) (a : RowArgs) (rd : State) (ran : Nat) (s : State) (ins : List (Strm × Walk)) (rawWords : List Nat) : State :=
  let s1 := ins.foldl (fun (s : State) (q : Strm × Walk) =>
    if q.1.imm.isSome then s else (s.noteStrm c 6 q.1).consume rd c 6 (.cs c) (rowWords a ran q)) s
  if rawWords = [] then s1 else s1.consume rd c 6 (.cs c) rawWords

/-- What the purse reads of a row operation leave: `n` entries from `base`. -/
def rowPurseReads (c : Core) (rd : State) (base n : Nat) (s : State) : State :=
  let s1 := s.notePurse c base n
  if (upTo n).any (fun k => (purseAt rd c (base + k)).err = .bad) then s1.draw.2.poisonConsumed c 6 (s1.draw.1 % 8) base else s1

/-- The purse entries that a row operation writes, `per` a row. -/
def rowPurse (c : Core) (base per tag : Nat) (outs : List RowOut) (s : State) : State :=
  (outs.zipIdx).foldl (fun (s : State) (r : RowOut × Nat) =>
    (r.1.p.zipIdx).foldl (fun (s : State) (v : (F32 × Bool) × Nat) =>
      s.setPurse c (base + per * r.2 + v.2) ⟨v.1.1, true, BitVec.ofNat 16 tag, if v.1.2 then .bad else .clean⟩) s) s

/-- A row operation whose checks have passed: its descriptor and shape, the streams it reads, its raw words, the streams and raw
slots it writes, the random words of D's elements, the NaNs of Table 06.10, the rows that ran with the code that ended them, and the free
values it takes. -/
structure RowPlan where
  d        : BitVec 512
  h        : RowShape
  ins      : List (Strm × Walk)
  rawWords : List Nat := []
  out      : Option (Strm × Walk)
  outC     : Option (Strm × Walk) := none
  rawC     : Option Nat := none
  rng      : Int → Option Nat
  nans     : Nat
  res      : List RowOut × Option Nat
  draws    : Nat := 0

/-- The words it stores, in order. -/
def RowPlan.outs (p : RowPlan) (c : Core) (a : RowArgs) (rd : State) : List Out :=
  let of (u : Int → Option Nat) (o : Option (Strm × Walk)) (get : RowOut → List (Num × Bool)) : List Out :=
    match o with
    | none => []
    | some q => (rowWrote c a rd u p.res.1 q get).els ++ (rowWrote c a rd u p.res.1 q get).shs
  of p.rng p.out (·.d) ++ of (fun _ => none) p.outC (·.c) ++ (match p.rawC with | none => [] | some b => rowRawOuts c a rd p.res.1 b)

/-- The words it reads. -/
def RowPlan.reads (p : RowPlan) (a : RowArgs) : List Nat := p.ins.flatMap (rowWords a p.res.1.length) ++ p.rawWords

/-- The core-store ports it uses: its row streams in every sweep, or one in each for RCOMB's; γ, β with the last where two row streams
leave no port before (log entry 17); its pairs, slots and words of a row with its first cycle; and what it writes. -/
def RowPlan.ports (p : RowPlan) (c : Core) (a : RowArgs) (rd : State) : List PortRun :=
  let wide (k : Walk) : List Nat := (p.ins.filter (fun q => q.1.imm.isNone && q.2 = k)).map (fun q => rowWide q.1.fmt)
  let one := (p.ins.filter (fun q => q.1.imm.isNone && (q.2 = Walk.pair || q.2 = Walk.eight))).length
  let outs := (p.out.toList ++ p.outC.toList).map (fun q => if q.2 = Walk.row then rowWide q.1.fmt else 1)
  rowPorts rd c a p.d p.h (if p.h.inTurn then (wide .row).foldl max 0 else (wide .row).sum) (wide .vec).sum
    (one + (if p.rawWords = [] then 0 else 1)) (outs.sum + (if p.rawC.isSome then 1 else 0))

/-- Everything a row operation leaves: D, C and raw C values, purse entries, counts, the engine taken (06 R147, R152, R153). -/
def rowRun (c : Core) (a : RowArgs) (p : RowPlan) (rd s : State) : State :=
  let w := 32 * zeroIs 4096 a.w32
  let ran := p.res.1.length
  let base := bitsN p.d 481 470
  let s1 := rowWrite c a p.d rd p.rng p.res.1 (rowReads c a rd ran s p.ins p.rawWords) p.out (·.d)
  let s2 := rowRaw c a p.d rd p.res.1 (rowWrite c a p.d rd (fun _ => none) p.res.1 s1 p.outC (·.c)) p.rawC
  let s3 := if p.h.reads then rowPurseReads c rd base (p.h.per * ran) s2 else s2
  let s4 := if p.h.writes then rowPurse c base p.h.per (bitsN p.d 469 454) p.res.1 s3 else s3
  let lows := p.res.1.foldl (fun t r => t + r.low) 0
  let s5 := ((s4.countCore c 0x120 lows).countCore c 0x118 p.nans).chargeCore c 8 (p.h.sweeps * ran * w) 0x190
  let quant := (p.out.toList ++ p.outC.toList).any (fun q => isShingled q.1.fmt)
  let s6 := ((s5.takeRow c (rowBusy c a p.d p.h rd)).quantUntil rd c 2 quant (rowBusy c a p.d p.h rd + rwLat rd)).dupStrike c true 6 0x148 a.desc.toNat
  let s6 := if p.h.rom then s6.romStrike c true 6 else s6
  { s6 with fresh := s6.fresh + p.draws }

/-- A row operation by its plan: a row that could not run ends it, after the rows before it. -/
def rowDo (plan : State → Res RowPlan) (c : Core) (a : RowArgs) (rd s : State) : Res State := do
  let p ← plan rd
  let s1 ← s.claimPorts c (p.ports c a rd)
  let s2 ← (rowRun c a p rd s1).holdMerges rd c (p.ports c a rd)
  match p.res.2 with
  | none => return s2
  | some k => throw (.after s2 k 0)

/-- NaN results of rows, each with whether an operand of it is a NaN (06 Table 06.10). -/
def nansOut (l : List (Bool × RowOut)) : Nat := l.foldl (fun t x => t + x.2.nanOut x.1) 0

/-- A row operation whose rows stand alone: `roles` are the walks of A, B and C that it reads (none unused), `outs` those
of D and C that it writes, `rawB` and `rawC` whether B and C are raw streams it reads, `rawOut` whether it writes raw
slots at C. -/
def rowPlan (h : RowShape) (okFlags : Bool) (roles : List (Option Walk)) (outD outC : Option Walk) (rawB rawC rawOut : Bool)
    (f : RowIn → RowOut) (c : Core) (a : RowArgs) (rd : State) : Res RowPlan := do
  let d ← rowIssue c a h okFlags rd
  let rows := zeroIs 4096 a.rows
  let w := 32 * zeroIs 4096 a.w32
  let t := tenNo rd c
  let ins ← roles.zipIdx.filterMapM (fun (q : Option Walk × Nat) => do
    match q.1 with
    | none => return (none : Option (Nat × Strm × Walk))
    | some k =>
      let m ← openStrm rd c d q.2 false
      need (decide (k = Walk.row) || isPlain m.fmt || m.imm.isSome) 0x12
      need (!(isColBlocks m.fmt)) 0x12
      let es := if k = Walk.vec then m.offs k rows w 0 else (upTo rows).flatMap (fun i => m.offs k rows w i)
      let m ← m.ready rd c es (bitsN d 453 438) true
      return some (q.2, m, k))
  let opn (k : Nat) (o : Option Walk) : Res (Option (Strm × Walk)) := do
    match o with
    | none => return none
    | some kd =>
      let m ← openStrm rd c d k true
      need (!(isColBlocks m.fmt) && (decide (kd = Walk.row) || isPlain m.fmt)) 0x12
      let m ← m.ready rd c ((upTo rows).flatMap (fun i => m.offs kd rows w i)) 0 false
      return some (m, kd)
  let out ← opn 3 outD
  let outc ← opn 2 outC
  if (out.toList ++ outc.toList).any (fun (q : Strm × Walk) => isShingled q.1.fmt) then quantOpen rd t
  let rng ← rngOf rd c ((out.map (fun (q : Strm × Walk) => q.1.stoch)).getD false) (bitsN d 421 406)
  let lead := leadOf (ins.map (·.2.1))
  let rng (e : Int) : Option Nat := out.bind (fun (q : Strm × Walk) => rng (outIndex lead q.1 e))
  let rb ← if rawB then Option.some <$> openRaw rd c d 1 (ceilDiv rows 8) true else pure none
  let rc ← if rawC || rawOut then Option.some <$> openRaw rd c d 2 (ceilDiv rows 2) rawC else pure none
  let base := bitsN d 481 470
  let getS (k i : Nat) : List (Num × Bool) := match ins.find? (fun q => q.1 = k) with
    | some q => (q.2.1.offs q.2.2 rows w i).map (q.2.1.val rd c)
    | none => []
  let rowIn (i : Nat) (p : List (F32 × Bool)) : RowIn :=
    let b := match rb with | some q => q.item rd c 32 i | none => (0, false)
    let k := match rc with | some q => if rawC then q.item rd c 128 i else (0, false) | none => (0, false)
    { i, w, fl := a.flags.toNat, a := getS 0 i, b := getS 1 i, c := getS 2 i, rawB := b.1, rawC := k.1,
      bad := b.2 || k.2 || p.any (·.2), p := p.map (·.1), sup := supplied d, imm := bits d 321 290,
      causal := if bitB d 500 then some (bitsS d 353 322) else none }
  let res := runRows rows (fun i =>
    match (if h.reads then purseRead rd c (base + h.per * i) h.per (bitsN d 469 454) else some []) with
    | none => .error 0x19
    | some p =>
      let r := rowIn i p
      if rawB && decide (w ≤ r.rawB) && decide (r.rawB ≠ 0xFFFF_FFFF) then .error 0x18 else .ok (f r))
  let opNan (i : Nat) : Bool := (getS 0 i ++ getS 1 i ++ getS 2 i).any (·.1.isNan)
    || (h.reads && (upTo h.per).any (fun k => (f32 (purseAt rd c (base + h.per * i + k)).value).isNan))
    || (match rc with | some q => rawC && (f32 ((Acc.ofPartial (q.item rd c 128 i).1).toFp32 1)).isNan | none => false)
  let nans := nansOut ((res.1.zipIdx).map (fun (r : RowOut × Nat) => (opNan r.2, r.1)))
  return {
    d, h, ins := ins.map (·.2), out, outC := outc, rng, nans, res
    rawC := if rawOut then rc.map (·.base) else none
    rawWords := (match rb with | some q => (upTo (ceilDiv rows 8)).map (q.base + ·) | none => [])
      ++ (match rc with | some q => if rawC then (upTo (ceilDiv rows 2)).map (q.base + ·) else [] | none => []) }

/-! ### Routing operations -/

/-- k of a routing operation's FLAGS (11 Table 11.12). -/
def routeK (a : RowArgs) : Nat := a.flags.toNat / 2 + 1
def routeOk (a : RowArgs) : Bool := a.flags.toNat % 2 = 0 && a.flags.toNat < 16

/-- The combine words of an operation's rows, at SH_BASE (05 R123, 11 R295). -/
def combWords (rd : State) (c : Core) (d : BitVec 512) (rows : Nat) : Res (List Nat) := do
  let b ← csRange rd c (bitsN d 371 354 : Nat) rows
  let ws := (upTo rows).map (b + ·)
  needHall rd (.cs c) ws 0xF none
  return ws

/-- The rank entries of token `i`, and whether their word is poisoned. -/
def combsOf (rd : State) (c : Core) (ws : List Nat) (k i : Nat) : List Comb × Bool :=
  let w := readWord rd (.cs c) (nth ws 0 i)
  ((upTo k).map (combAt w.data), isPoisoned w)

/-- A stream of a routing operation, opened and made ready for some offsets. -/
def routeStrm (rd : State) (c : Core) (d : BitVec 512) (k : Nat) (isOut : Bool) (es : Strm → List Int) : Res Strm := do
  let m ← openStrm rd c d k isOut
  m.ready rd c (es m) (bitsN d 453 438) (!isOut)

/-- A staging stream: rank r lies r × STRIDE1 words on, and BIND1 must be 0 (11 R295). -/
def stageOffs (m : Strm) (rows w i r : Nat) : List Int :=
  (m.offs .row rows w i).map (fun e => e + r * m.stride * perWord m.fmt)

def stageBind (d : BitVec 512) (k : Nat) : Bool := decide (bitsN d (strmAt k + 48) (strmAt k + 46) = 0)

/-- The checks of `RROUTE`, and its rows. -/
def rroutePlan (c : Core) (a : RowArgs) (rd : State) : Res RowPlan := do
  let h : RowShape := { per := 0, reads := false, writes := false, sweeps := 2, sup := 2, fixed := true, rom := true }
  let d ← rowIssue c a h (routeOk a) rd
  need (decide (bitsN d 405 403 = 0)) 0x12
  let rows := zeroIs 4096 a.rows
  let w := 32 * zeroIs 4096 a.w32
  let k := routeK a
  let all (q : Walk) (m : Strm) : List Int := (upTo rows).flatMap (fun i => m.offs q rows w i)
  let x ← routeStrm rd c d 0 false (all .row)
  let y ← routeStrm rd c d 3 true (all .eight)
  let cw ← combWords rd c d rows
  let rng ← rngOf rd c y.stoch (bitsN d 421 406)
  let rng (e : Int) : Option Nat := rng (outIndex none y e)
  let res := runRows rows (fun i =>
    let q := combsOf rd c cw k i
    let offs := x.offs .row rows w i
    let sc := q.1.zipIdx.map (fun (e : Comb × Nat) => match offs[e.1.expert]? with
      | some o => x.val rd c o
      | none => (f32 (BitVec.ofNat 32 (Config.freeValue (rd.fresh + 8 * i + e.2))), false))
    let r := routeWeights (vals sc)
    let bad := q.2 || sc.any (·.2)
    let out := (r.1.map f32 ++ List.replicate 8 Num.zero).take 8
    .ok { d := mark bad out, low := flaggedOf [r.2], nans := some (if (vals sc).any Num.isNan then 0 else nanCount out) })
  return { d, h, ins := [(x, .row)], rawWords := cw, out := some (y, .eight), rng, nans := nansOut (res.1.map (fun r => (false, r))), res, draws := 8 * rows }

/-- `RROUTE`. -/
def rrouteAct (c : Core) (a : RowArgs) (rd s : State) : Res State := rowDo (rroutePlan c a) c a rd s

/-- The checks of `RROUTEB`, and its rows. -/
def rroutebPlan (c : Core) (a : RowArgs) (rd : State) : Res RowPlan := do
  let h : RowShape := { per := 0, reads := false, writes := false, sweeps := 3, sup := 2 }
  let d ← rowIssue c a h (routeOk a) rd
  need (decide (bitsN d 405 403 = 0) && stageBind d 1) 0x12
  let rows := zeroIs 4096 a.rows
  let w := 32 * zeroIs 4096 a.w32
  let k := routeK a
  let all (q : Walk) (m : Strm) : List Int := (upTo rows).flatMap (fun i => m.offs q rows w i)
  let x ← routeStrm rd c d 0 false (all .row)
  let st ← routeStrm rd c d 1 false (fun m => (upTo k).flatMap (fun r => (upTo rows).flatMap (fun i => stageOffs m rows w i r)))
  let wt ← routeStrm rd c d 2 false (all .eight)
  let y ← routeStrm rd c d 3 true (all .row)
  let cw ← combWords rd c d rows
  let rng ← rngOf rd c y.stoch (bitsN d 421 406)
  let rng (e : Int) : Option Nat := rng (outIndex none y e)
  let res := runRows rows (fun i =>
    let q := combsOf rd c cw k i
    let dy := (x.offs .row rows w i).map (x.val rd c)
    let ys := (upTo k).map (fun r => (stageOffs st rows w i r).map (st.val rd c))
    let ws := ((wt.offs .eight rows w i).take k).map (wt.val rd c)
    let g := routeGrads (supplied d) (vals dy) (ys.map vals) q.1 (vals ws)
    let used := (ys.zip q.1).any (fun z => z.2.used && !z.2.dropped && z.1.any (·.2))
    let bad := q.2 || dy.any (·.2) || ws.any (·.2) || used
    let hit (j : Nat) : Option Num := ((q.1.zip g.1).find? (fun z => z.1.used && decide (z.1.expert = j))).map (·.2)
    let out := (upTo w).map (fun j => (hit j).getD .zero)
    let op := (vals dy).any Num.isNan || (vals ws).any Num.isNan || (ys.zip q.1).any (fun z => z.2.used && !z.2.dropped && (vals z.1).any Num.isNan)
    .ok { d := mark bad out, low := g.2, nans := some (if op then 0 else nanCount out) })
  return { d, h, ins := [(x, .row), (st, .row), (wt, .eight)], rawWords := cw, out := some (y, .row), rng, nans := nansOut (res.1.map (fun r => (false, r))), res }

/-- `RROUTEB`. -/
def rroutebAct (c : Core) (a : RowArgs) (rd s : State) : Res State := rowDo (rroutebPlan c a) c a rd s

/-- The checks of `RCOMB`, and its rows. -/
def rcombPlan (c : Core) (a : RowArgs) (rd : State) : Res RowPlan := do
  let k := routeK a
  let h : RowShape := { per := 0, reads := false, writes := false, sweeps := k + 1, sup := k + 1, inTurn := true }
  let d ← rowIssue c a h (routeOk a) rd
  let rows := zeroIs 4096 a.rows
  let w := 32 * zeroIs 4096 a.w32
  need (decide (bitsN d 405 403 = 0) && stageBind d 0 && decide (w ≤ 16384)) 0x12
  let all (q : Walk) (m : Strm) : List Int := (upTo rows).flatMap (fun i => m.offs q rows w i)
  let st ← routeStrm rd c d 0 false (fun m => (upTo k).flatMap (fun r => (upTo rows).flatMap (fun i => stageOffs m rows w i r)))
  let wt ← routeStrm rd c d 1 false (all .eight)
  let rs ← routeStrm rd c d 2 false (all .row)
  let y ← routeStrm rd c d 3 true (all .row)
  let cw ← combWords rd c d rows
  let rng ← rngOf rd c y.stoch (bitsN d 421 406)
  let rng (e : Int) : Option Nat := rng (outIndex none y e)
  let res := runRows rows (fun i =>
    let q := combsOf rd c cw k i
    let ys := (upTo k).map (fun r => (stageOffs st rows w i r).map (st.val rd c))
    let ws := ((wt.offs .eight rows w i).take k).map (wt.val rd c)
    let res := (rs.offs .row rows w i).map (rs.val rd c)
    let live := q.1.map (fun e => e.used && !e.dropped)
    let at' (j : Nat) : List (Num × Bool) := ys.map (fun l => nth l (Num.zero, false) j)
    let out := (upTo w).map (fun j =>
      let ye := at' j
      let v := combElem q.1 (ws.map (fun x => toF32 x.1)) (ye.map (fun x => toF32 x.1)) (toF32 (nth res (Num.zero, false) j).1)
      (f32 v, q.2 || ws.any (·.2) || (nth res (Num.zero, false) j).2 || (ye.zip live).any (fun z => z.2 && z.1.2)))
    let op (j : Nat) : Bool := (nth res (Num.zero, false) j).1.isNan
      || ((ws.zip (at' j)).zip live).any (fun z => z.2 && (z.1.1.1.isNan || z.1.2.1.isNan))
    .ok { d := out, nans := some ((out.zipIdx.filter (fun (z : (Num × Bool) × Nat) => z.1.1.isNan && !op z.2)).length) })
  return { d, h, ins := [(st, .row), (wt, .eight), (rs, .row)], rawWords := cw, out := some (y, .row), rng, nans := nansOut (res.1.map (fun r => (false, r))), res }

/-- `RCOMB`. -/
def rcombAct (c : Core) (a : RowArgs) (rd s : State) : Res State := rowDo (rcombPlan c a) c a rd s

/-! ### `RCSUM` (06 R150) -/

/-- Runs of equal keys, as lists of row numbers. -/
def keyRuns (keys : List Nat) : List (List Nat) :=
  (keys.zipIdx.splitBy (fun x y => x.1 == y.1)).map (fun g => g.map (·.2))

/-- A column sum: its values, their poison, the anchor it derives, and whether an operand is a NaN. -/
structure ColSum where
  xs  : List Num
  bad : Bool
  an  : Int
  nan : Bool

/-- `RCSUM` with its checks passed: its descriptor, the runs of words it stores with their formats, its typed output where it
has one with the reports of its blocks, the streams and words it reads, its groups, flagged sums and NaNs. -/
structure CsumPlan where
  d     : BitVec 512
  runs  : List (Nat × List Out)
  typed : Option (Strm × List Report)
  ins   : List Strm
  rows  : Nat
  w     : Nat
  keys  : List Nat
  groups : Nat
  lows  : Nat
  nans  : Nat

/-- The words it stores, in order. -/
def CsumPlan.outs (p : CsumPlan) : List Out := p.runs.flatMap (·.2)

/-- The words it reads of a stream. -/
def CsumPlan.words (p : CsumPlan) (m : Strm) : List Nat :=
  let es := (upTo p.rows).flatMap (fun i => m.offs .row p.rows p.w i)
  if m.imm.isSome then [] else (m.words es ++ m.shWords es).map (·.toNat)

/-- The words it reads. -/
def CsumPlan.reads (p : CsumPlan) : List Nat := p.ins.flatMap p.words ++ p.keys

/-- Its shape. -/
def csumShape : RowShape := { per := 0, reads := false, writes := false, sweeps := 2, sup := 1 }

/-- The checks of `RCSUM`, and its sums. -/
def rcsumPlan (c : Core) (a : RowArgs) (rd : State) : Res CsumPlan := do
  let fl := a.flags.toNat
  let d ← rowIssue c a csumShape (decide (fl < 8)) rd
  let rows := zeroIs 4096 a.rows
  let w := 32 * zeroIs 4096 a.w32
  let prod := fl % 2 = 1
  let grouped := fl / 2 % 2 = 1
  let led := fl / 4 % 2 = 1
  need (decide (w ≤ 1024) && !(prod && grouped)) 0x12
  let all (m : Strm) : List Int := (upTo rows).flatMap (fun i => m.offs .row rows w i)
  let x ← routeStrm rd c d 0 false all
  let y ← if prod then Option.some <$> routeStrm rd c d 1 false all else pure none
  need ((x :: y.toList).all (fun m => m.imm.isSome || !isColBlocks m.fmt)) 0x12
  let kb ← if grouped then Option.some <$> openRaw rd c d 1 (ceilDiv rows 8) true else pure none
  let keys := (upTo rows).map (fun i => match kb with | some q => (q.item rd c 32 i).1 | none => 0)
  let keyBad := (upTo rows).any (fun i => match kb with | some q => (q.item rd c 32 i).2 | none => false)
  let groups := keyRuns keys
  let xr := (upTo rows).map (fun i => ((x.offs .row rows w i).map (x.val rd c)).toArray)
  let yr := (upTo rows).map (fun i => match y with | some m => ((m.offs .row rows w i).map (m.val rd c)).toArray | none => #[])
  let cols : List (List ColSum) := groups.map (fun g => (upTo w).map (fun j =>
    let xs := g.map (fun i => (nth xr #[] i).getD j (Num.zero, false))
    let ys := if prod then g.map (fun i => (nth yr #[] i).getD j (Num.zero, false)) else []
    let v := if prod then (xs.zip ys).map (fun z => z.1.1.mul z.2.1) else vals xs
    let an := (supplied d).getD (derivedAnchor (vals xs) + (if prod then derivedAnchor (vals ys) else 0))
    ⟨v, keyBad || (xs ++ ys).any (·.2), an, (vals (xs ++ ys)).any Num.isNan⟩))
  let J := ceilDiv w 128
  let tileOf (g j : Nat) : Nat := g / 128 * J + j / 128
  let flat : List (Nat × Nat × ColSum) := cols.zipIdx.flatMap (fun (r : List ColSum × Nat) => r.1.zipIdx.map (fun (q : ColSum × Nat) => (r.2, q.2, q.1)))
  let amap : List Int := (upTo (ceilDiv groups.length 128 * J)).map (fun n =>
    maxInt ((flat.filter (fun q => tileOf q.1 q.2.1 = n)).map (·.2.2.an)))
  let anOf (q : Nat × Nat × ColSum) : Int := if led then nth amap 0 (tileOf q.1 q.2.1) else q.2.2.an
  let sums := flat.map (fun q => (q, rowSum (anOf q) q.2.2.xs))
  let idx (g j : Nat) : Nat := 16384 * tileOf g j + 128 * (g % 128) + j % 128
  let nans := (sums.filter (fun z => !z.1.2.2.nan && (f32 (z.2.toFp32 (anOf z.1))).isNan)).length
  let p : CsumPlan :=
    { d, runs := [], typed := none, ins := x :: y.toList, rows, w, nans, groups := groups.length
      keys := match kb with | some q => (upTo (ceilDiv rows 8)).map (q.base + ·) | none => []
      lows := (sums.filter (fun z => z.2.flagged)).length }
  if led then
    let o ← openRaw rd c d 3 (8192 * ceilDiv groups.length 128 * J) false
    let m ← openRaw rd c d 2 (ceilDiv amap.length 16) false
    return { p with
      runs := [(0xF, rawOuts rd c false o.base 128 (sums.map (fun z => (idx z.1.1 z.1.2.1, z.2.toPartial, z.1.2.2.bad, z.2.flagged)))),
               (0xF, rawOuts rd c false m.base 16 (amap.zipIdx.map (fun v => (v.2, (BitVec.ofInt 16 v.1).toNat, keyBad, false))))] }
  else
    let o ← openStrm rd c d 3 true
    need (!(isColBlocks o.fmt)) 0x12
    let es := sums.map (fun z => o.e0 + (idx z.1.1 z.1.2.1 : Int))
    let o ← o.ready rd c es 0 false
    if isShingled o.fmt then quantOpen rd (tenNo rd c)
    let rng ← rngOf rd c o.stoch (bitsN d 421 406)
    let cells : List Cell := sums.map (fun z => ⟨o.e0 + (idx z.1.1 z.1.2.1 : Int), f32 (z.2.toFp32 (anOf z.1)), z.1.2.2.bad, z.2.flagged⟩)
    let wr := writeRun rd (.cs c) o.fmt o.base o.sh o.region o.tile0 o.scale (fun e => rng (outIndex (leadOf (x :: y.toList)) o e)) o.diag false cells
    return { p with runs := [(o.fmt, wr.els), (0xE, wr.shs)], typed := some (o, wr.reps) }

/-- Cycles its sums are written in, 32 a cycle (06 R146). -/
def CsumPlan.outLen (p : CsumPlan) : Nat := p.groups * p.w / 32

/-- The core-store ports of `RCSUM`: its rows and their keys, and its sums after its last read (log entry 17). -/
def CsumPlan.ports (p : CsumPlan) (c : Core) (a : RowArgs) (rd : State) : List PortRun :=
  let wide := ((p.ins.filter (fun m => m.imm.isNone)).map (fun m => rowWide m.fmt)).sum
  rowPorts rd c a p.d csumShape wide 0 (if p.keys = [] then 0 else 1) 0
    ++ [.solid (rowBusy c a p.d csumShape rd - 1 + rwLat rd) p.outLen 0 (match p.typed with | some o => rowWide o.1.fmt | none => 16)]

/-- What `RCSUM` leaves. -/
def rcsumRun (c : Core) (a : RowArgs) (p : CsumPlan) (rd s : State) : State :=
  let s1 := p.ins.foldl (fun (s : State) (m : Strm) => if m.imm.isSome then s else (s.noteStrm c 6 m).consume rd c 6 (.cs c) (p.words m)) s
  let s2 := if p.keys = [] then s1 else s1.consume rd c 6 (.cs c) p.keys
  let s3 := p.runs.foldl (fun (s : State) (r : Nat × List Out) => s.emit (.cs c) r.1 (bitsN p.d 437 422) r.2) s2
  let s4 := match p.typed with
    | some o => (s3.noteStrm c 6 o.1).report (tenNo rd c) o.2
    | none => s3
  let s5 := ((s4.countCore c 0x118 p.nans).countCore c 0x120 p.lows).chargeCore c 8 (csumShape.sweeps * p.rows * p.w) 0x190
  let busy := rowBusy c a p.d csumShape rd
  let quant := match p.typed with | some o => isShingled o.1.fmt | none => false
  ((s5.takeRow c busy).quantUntil rd c 2 quant (busy + p.outLen + rwLat rd)).dupStrike c true 6 0x148 a.desc.toNat

/-- `RCSUM`. -/
def rcsumAct (c : Core) (a : RowArgs) (rd s : State) : Res State := do
  let p ← rcsumPlan c a rd
  let s1 ← s.claimPorts c (p.ports c a rd)
  (rcsumRun c a p rd s1).holdMerges rd c (p.ports c a rd)

/-! ### The operations of Table 11.12 -/

/-- The checks of `RNORM`, and its rows. -/
def rnormPlan (c : Core) (a : RowArgs) (rd : State) : Res RowPlan :=
  let rms := a.flags.toNat % 2 = 1
  rowPlan { per := if rms then 1 else 2, reads := false, writes := true, sweeps := 3, sup := 2 } (decide (a.flags.toNat < 2))
    [some .row, some .vec, if rms then none else some .vec] (some .row) none false false false rowNorm c a rd

/-- The checks of `RNORMB`, and its rows. -/
def rnormbPlan (c : Core) (a : RowArgs) (rd : State) : Res RowPlan :=
  let rms := a.flags.toNat % 2 = 1
  rowPlan { per := if rms then 1 else 2, reads := true, writes := false, sweeps := 3, sup := 2 } (decide (a.flags.toNat < 2))
    [some .row, some .row, some .vec] (some .row) none false false false rowNormB c a rd

/-- The checks of `RSMAX`, and its rows. -/
def rsmaxPlan (c : Core) (a : RowArgs) (rd : State) : Res RowPlan :=
  let part := a.flags.toNat % 2 = 1
  rowPlan { per := if part then 0 else 2, reads := false, writes := !part, sweeps := 3, sup := 3, fixed := true, causal := true, rom := true }
    (decide (a.flags.toNat < 2)) [some .row] (some .row) (if part then some .pair else none) false false false rowSmax c a rd

/-- The checks of `RSMAXB`, and its rows. -/
def rsmaxbPlan (c : Core) (a : RowArgs) (rd : State) : Res RowPlan :=
  rowPlan { per := 2, reads := true, writes := false, sweeps := 3, sup := 2, causal := true, rom := true } (decide (a.flags.toNat = 0))
    [some .row, some .row] (some .row) none false false false rowSmaxB c a rd

/-- The checks of `RFOLD`, and its rows. -/
def rfoldPlan (c : Core) (a : RowArgs) (rd : State) : Res RowPlan :=
  rowPlan { per := 2, reads := true, writes := true, sweeps := 1, sup := 1, rom := true } (decide (a.flags.toNat < 2))
    [some .row, some .pair, some .row] (if a.flags.toNat % 2 = 1 then some .row else none) (some .row) false false false rowFold c a rd

/-- The checks of `RXENT`, and its rows. -/
def rxentPlan (c : Core) (a : RowArgs) (rd : State) : Res RowPlan :=
  let ph := a.flags.toNat
  rowPlan { per := 1, reads := decide (ph ≠ 0), writes := decide (ph ≠ 1), sweeps := 1, sup := 1, fixed := true, rom := decide (ph ≠ 0) } (decide (ph < 3))
    [some .row] (if ph = 2 then some .row else none) none (decide (ph = 2)) (decide (ph = 2)) (decide (ph ≠ 0)) rowXent c a rd

/-- `RNORM`. -/
def rnormAct (c : Core) (a : RowArgs) (rd s : State) : Res State := rowDo (rnormPlan c a) c a rd s

/-- `RNORMB`. -/
def rnormbAct (c : Core) (a : RowArgs) (rd s : State) : Res State := rowDo (rnormbPlan c a) c a rd s

/-- `RSMAX`. -/
def rsmaxAct (c : Core) (a : RowArgs) (rd s : State) : Res State := rowDo (rsmaxPlan c a) c a rd s

/-- `RSMAXB`. -/
def rsmaxbAct (c : Core) (a : RowArgs) (rd s : State) : Res State := rowDo (rsmaxbPlan c a) c a rd s

/-- `RFOLD`. -/
def rfoldAct (c : Core) (a : RowArgs) (rd s : State) : Res State := rowDo (rfoldPlan c a) c a rd s

/-- `RXENT`. -/
def rxentAct (c : Core) (a : RowArgs) (rd s : State) : Res State := rowDo (rxentPlan c a) c a rd s

/-! ### Meanings -/

/-- `RNORM` issued alone in slot RW. -/
def execRnorm (c : Core) (a : RowArgs) (s : State) : Answer := .next (slotOp c 2 (rnormAct c a) s s)

/-- `RNORMB` issued alone. -/
def execRnormb (c : Core) (a : RowArgs) (s : State) : Answer := .next (slotOp c 2 (rnormbAct c a) s s)

/-- `RSMAX` issued alone. -/
def execRsmax (c : Core) (a : RowArgs) (s : State) : Answer := .next (slotOp c 2 (rsmaxAct c a) s s)

/-- `RSMAXB` issued alone. -/
def execRsmaxb (c : Core) (a : RowArgs) (s : State) : Answer := .next (slotOp c 2 (rsmaxbAct c a) s s)

/-- `RFOLD` issued alone. -/
def execRfold (c : Core) (a : RowArgs) (s : State) : Answer := .next (slotOp c 2 (rfoldAct c a) s s)

/-- `RXENT` issued alone. -/
def execRxent (c : Core) (a : RowArgs) (s : State) : Answer := .next (slotOp c 2 (rxentAct c a) s s)

/-- `RROUTE` issued alone. -/
def execRroute (c : Core) (a : RowArgs) (s : State) : Answer := .next (slotOp c 2 (rrouteAct c a) s s)

/-- `RROUTEB` issued alone. -/
def execRrouteb (c : Core) (a : RowArgs) (s : State) : Answer := .next (slotOp c 2 (rroutebAct c a) s s)

/-- `RCOMB` issued alone. -/
def execRcomb (c : Core) (a : RowArgs) (s : State) : Answer := .next (slotOp c 2 (rcombAct c a) s s)

/-- `RCSUM` issued alone. -/
def execRcsum (c : Core) (a : RowArgs) (s : State) : Answer := .next (slotOp c 2 (rcsumAct c a) s s)

end Sys2Proof.Machine
end

