-- ==== Sys2Proof/Machine/Purse.lean ====
section
/-! DEFINITION. The purse instructions (06 R151 to R158, Table 06.7; 11 R296). -/

namespace Sys2Proof.Machine

open Sys2Proof

/-- The spill slots' first word: the base, bind and stride of stream `k`, every other field zero (06 R154). -/
def spillBase (s : State) (c : Core) (d : BitVec 512) (k n : Nat) : Res Nat := do
  let o := strmAt k
  need (decide (bitsN d (o + 23) (o + 18) = 0) && decide (bitsN d (o + 71) (o + 68) = 0)) 0x12
  need (decide (bitsN d (o + 26) (o + 24) ≤ 5) && decide (bitsN d (o + 48) (o + 46) ≤ 5)) 0x12
  csRange s c ((bitsN d (o + 17) o : Int) + bindVal s c (bitsN d (o + 26) (o + 24)) * bitsS d (o + 45) (o + 27)
    + bindVal s c (bitsN d (o + 48) (o + 46)) * bitsS d (o + 67) (o + 49)) (8 * n)

/-- Reserved bits and codes of a purse instruction's descriptor (11 R284, Table 11.10). -/
def spillCheck (d : BitVec 512) : Bool := bitsN d 405 403 ≤ 4 && bitsN d 499 498 ≤ 2 && zeroBits d [(511, 501)]

/-- The row engine free, and its groups within the purse. -/
def purseIssue (c : Core) (group : BitVec 6) (n : Nat) (rd : State) : Res Unit := do
  need (decide (look rd.cores.rwBusy 0 c.val ≤ unitClock rd c)) 0x1A
  need (decide (group.toNat + n ≤ 64)) 0x12

/-- `PSPILL` with its checks passed: its descriptor, the entries it spills and the words they make. -/
structure SpillPlan where
  d    : BitVec 512
  es   : List PurseEntry
  outs : List Out

/-- The checks of `PSPILL`. -/
def pspillPlan (c : Core) (desc : BitVec 10) (group n : BitVec 6) (rd : State) : Res SpillPlan := do
  let k := zeroIs 64 n
  purseIssue c group k rd
  let d ← latchForm rd c desc 2 [2]
  need (spillCheck d) 0x12
  let base ← spillBase rd c d 3 k
  let es := (upTo (64 * k)).map (fun i => purseAt rd c (64 * group.toNat + i))
  need (es.all (fun e => e.valid && decide (e.tag = bits d 469 454))) 0x19
  return { d, es, outs := (chunks 8 es).zipIdx.map (fun (g : List PurseEntry × Nat) =>
    ⟨base + g.2, wordOf (packWord 32 (g.1.map (fun e => e.value.toNat))) (g.1.any (fun e => e.err = .bad)),
      maxExpOf (g.1.map (fun e => f32 e.value)), false, bytesOf 32 (upTo g.1.length)⟩) }

/-- Entries of a purse released: their valid bits cleared. -/
def State.clearValid (s : State) (c : Core) (first n : Nat) : State :=
  (upTo n).foldl (fun (s : State) i => s.setPurse c (first + i) { (purseAt s c (first + i)) with valid := false }) s

/-- What `PSPILL` leaves. -/
def pspillRun (c : Core) (group n : BitVec 6) (release : Bool) (p : SpillPlan) (rd s : State) : State :=
  let k := zeroIs 64 n
  let first := 64 * group.toNat
  let s1 := s.emit (.cs c) 0 (bitsN p.d 437 422) p.outs
  let s2 := (s1.notePurse c first (64 * k)).countCore c 0x130 k
  let s3 := if p.es.any (fun e => e.err = .bad) then s2.draw.2.poisonConsumed c 6 (s2.draw.1 % 8) first else s2
  (if release then s3.clearValid c first (64 * k) else s3).takeRow c (unitClock rd c + 8 * k + 1)

/-- `PSPILL`. -/
def pspillAct (c : Core) (desc : BitVec 10) (group n : BitVec 6) (release : Bool) (rd s : State) : Res State := do
  let p ← pspillPlan c desc group n rd
  let s1 ← s.claimPorts c [.solid (unitClock rd c + 1) (8 * zeroIs 64 n) 0 1]
  return pspillRun c group n release p rd s1

/-- The checks of `PFILL`: its descriptor and the first word it reads. -/
def pfillPlan (c : Core) (desc : BitVec 10) (group n : BitVec 6) (rd : State) : Res (BitVec 512 × Nat) := do
  let k := zeroIs 64 n
  purseIssue c group k rd
  let d ← latchForm rd c desc 2 [2]
  need (spillCheck d) 0x12
  let base ← spillBase rd c d 0 k
  return (d, base)

/-- The entry that `PFILL` makes of word part `i`. -/
def fillEntry (c : Core) (p : BitVec 512 × Nat) (rd : State) (i : Nat) : PurseEntry :=
  let w := readWord rd (.cs c) (p.2 + i / 8)
  ⟨BitVec.ofNat 32 (elemOf 32 (i % 8) w.data), true, bits p.1 469 454, if isPoisoned w then .bad else .clean⟩

/-- What `PFILL` leaves. -/
def pfillRun (c : Core) (group n : BitVec 6) (p : BitVec 512 × Nat) (rd s : State) : State :=
  let k := zeroIs 64 n
  let s1 := (upTo (64 * k)).foldl (fun (s : State) i => s.setPurse c (64 * group.toNat + i) (fillEntry c p rd i)) s
  ((s1.consume rd c 6 (.cs c) ((upTo (8 * k)).map (p.2 + ·))).countCore c 0x138 k).takeRow c (unitClock rd c + 8 * k + 1)

/-- `PFILL`. -/
def pfillAct (c : Core) (desc : BitVec 10) (group n : BitVec 6) (rd s : State) : Res State := do
  let p ← pfillPlan c desc group n rd
  let s1 ← s.claimPorts c [.solid (unitClock rd c + 1) (8 * zeroIs 64 n) 1 0]
  return pfillRun c group n p rd s1

/-- `PCLR`. -/
def pclrAct (c : Core) (group n : BitVec 6) (rd s : State) : Res State := do
  purseIssue c group (zeroIs 64 n) rd
  return (s.clearValid c (64 * group.toNat) (64 * zeroIs 64 n)).takeRow c (unitClock rd c + 1)

/-! ### Meanings -/

/-- `PSPILL` issued alone in slot RW. -/
def execPspill (c : Core) (desc : BitVec 10) (group n : BitVec 6) (release : Bool) (s : State) : Answer :=
  .next (slotOp c 2 (pspillAct c desc group n release) s s)

/-- `PFILL` issued alone. -/
def execPfill (c : Core) (desc : BitVec 10) (group n : BitVec 6) (s : State) : Answer :=
  .next (slotOp c 2 (pfillAct c desc group n) s s)

/-- `PCLR` issued alone. -/
def execPclr (c : Core) (group n : BitVec 6) (s : State) : Answer := .next (slotOp c 2 (pclrAct c group n) s s)

end Sys2Proof.Machine
end

