-- ==== Sys2Proof/Machine/Vector.lean ====
section
/-! DEFINITION. The vector unit (06 R132 to R142, R159; 11 R292 to R294). -/

namespace Sys2Proof.Machine

open Sys2Proof

/-- An operation: how many of the streams A, B, C it reads, whether it runs in the function pipe, its FP32 value, its
exact value on BF16 lanes, and whether it is `DROP`. -/
structure VxOp where
  nsrc : Nat
  pipe : Bool := false
  val  : List F32 → F32
  num  : List Num → Num := fun _ => .zero
  drop : Bool := false

/-- The operands of an operation by position. -/
def op1 {α : Type} (d : α) (f : α → α) (l : List α) : α := f (nth l d 0)
def op2 {α : Type} (d : α) (f : α → α → α) (l : List α) : α := f (nth l d 0) (nth l d 1)
def op3 {α : Type} (d : α) (f : α → α → α → α) (l : List α) : α := f (nth l d 0) (nth l d 1) (nth l d 2)

/-- A truth value as +1.0 or +0 (06 Table 06.1). -/
def truth32 (b : Bool) : F32 := if b then f1 else 0
def truthNum (b : Bool) : Num := if b then .one else .zero

/-- The first operand where the mask is not ±0; a NaN mask counts as non-zero. -/
def selNum {α : Type} (m : Num) (a b : α) : α := if m.isZero then b else a

def vAdd : VxOp := { nsrc := 2, val := op2 0 fAdd, num := op2 .zero Num.add }
def vSub : VxOp := { nsrc := 2, val := op2 0 fSub, num := op2 .zero Num.sub }
def vMul : VxOp := { nsrc := 2, val := op2 0 fMul, num := op2 .zero Num.mul }
def vFma : VxOp := { nsrc := 3, val := op3 0 fFma, num := op3 .zero (fun a b c => (a.mul b).add c) }
def vFnma : VxOp := { nsrc := 3, val := op3 0 fFnma, num := op3 .zero (fun a b c => c.sub (a.mul b)) }
def vMin : VxOp := { nsrc := 2, val := op2 0 fMin, num := op2 .zero minNum }
def vMax : VxOp := { nsrc := 2, val := op2 0 fMax, num := op2 .zero maxNum }
def vNeg : VxOp := { nsrc := 1, val := op1 0 fNeg, num := op1 .zero Num.negate }
def vAbs : VxOp := { nsrc := 1, val := op1 0 fAbs, num := op1 .zero Num.mabs }
def vCmplt : VxOp := { nsrc := 2, val := op2 0 (fun a b => truth32 ((f32 a).lt (f32 b))), num := op2 .zero (fun a b => truthNum (a.lt b)) }
def vCmple : VxOp := { nsrc := 2, val := op2 0 (fun a b => truth32 ((f32 a).le (f32 b))), num := op2 .zero (fun a b => truthNum (a.le b)) }
def vCmpeq : VxOp := { nsrc := 2, val := op2 0 (fun a b => truth32 ((f32 a).eqv (f32 b))), num := op2 .zero (fun a b => truthNum (a.eqv b)) }
def vSel : VxOp := { nsrc := 3, val := op3 0 (fun m a b => selNum (f32 m) a b), num := op3 .zero (fun m a b => selNum m a b) }
def vDrop : VxOp := { nsrc := 1, val := op1 0 id, num := op1 .zero id, drop := true }
def vCvt : VxOp := { nsrc := 1, val := op1 0 id, num := op1 .zero id }
def vFn (f : F32 → F32) : VxOp := { nsrc := 1, pipe := true, val := op1 0 f }
def vFn2 (f : F32 → F32 → F32) : VxOp := { nsrc := 2, pipe := true, val := op2 0 f }

/-- The descriptor's own checks (11 R284, R292, R294). -/
def vxCheck (d : BitVec 512) : Bool :=
  bitsN d 405 403 ≤ 4 && bitsN d 499 498 ≤ 2 && zeroBits d [(511, 501)]

/-- The value of one element: its operands, and for `DROP` its random word against the keep threshold (06 R136). -/
def vxElem (op : VxOp) (bf16 : Bool) (thr : Nat) (scale : F32) (u : Nat) (xs : List Num) : Num :=
  if op.drop then
    if u < thr then
      (if bf16 then Fmt.bf16.decode (Fmt.bf16.encode none ((nth xs .zero 0).mul (f32 scale))) else f32 (fMul (toF32 (nth xs .zero 0)) scale))
    else .zero
  else if bf16 then Fmt.bf16.decode (Fmt.bf16.encode none (op.num xs))
  else f32 (op.val (xs.map toF32))

/-- Words of one vector of a format. -/
def vxWords (fmt lanes : Nat) : Nat := max 1 (elemBits fmt * lanes / 256)

/-- Cycles from a VX instruction's vector to its next. -/
def vxStep (pipe : Bool) : Nat := if pipe then 4 else 1

/-- The reads of a VX instruction's core-store streams: a vector a cycle, or a vector's words spread over four cycles; of a
shingled stream a shingle word for every 32 vectors. -/
def vxReads (fmts : List Nat) (lanes vs : Nat) (pipe : Bool) (first : Nat) : List PortRun :=
  fmts.flatMap (fun f =>
    (if pipe then .paced first (4 * vs) (vxWords f lanes) 4 false else .solid first vs (vxWords f lanes) 0) ::
      if isShingled f then [{ first, period := 32 * vxStep pipe, burst := 1, reps := ceilDiv vs 32, rd := 1 : PortRun }] else [])

/-- Cycles from the first cycle of a vector to its result's write (11 R293). -/
def vxDepth (s : State) (pipe : Bool) : Nat := if pipe then 3 + vxFnLat s else vxLat s

/-- Its writes (11 R293): element words, and a shingle word with every 32nd vector. -/
def vxWrites (s : State) (fmt lanes vs : Nat) (pipe : Bool) (first : Nat) : List PortRun :=
  let at' := first + vxDepth s pipe
  { first := at', period := vxStep pipe, burst := 1, reps := vs, wr := vxWords fmt lanes } ::
    if isShingled fmt then
      [{ first := at' + 31 * vxStep pipe + 1, period := 32 * vxStep pipe, burst := 1, reps := ceilDiv vs 32, wr := 1 : PortRun }] else []

/-- The vector unit taken until a cycle of its clock. -/
def State.takeVx (s : State) (c : Core) (until' : Nat) : State :=
  { s with cores := { s.cores with vxBusy := put 0 s.cores.vxBusy c.val until' } }

/-- A VX instruction whose checks have passed: its descriptor, cycle of issue, delay by tile scales, vectors and elements, its
streams, and what it gives: each element with whether it is a NaN made of none, and the words written. -/
structure VxPlan where
  d     : BitVec 512
  now   : Nat
  delay : Nat
  vs    : Nat
  n     : Nat
  ins   : List Strm
  out   : Strm
  cells : List (Cell × Bool)
  wrote : Wrote

/-- The words it stores, in order. -/
def VxPlan.outs (p : VxPlan) : List Out := p.wrote.els ++ p.wrote.shs

/-- The offsets of a stream's elements. -/
def VxPlan.offs (p : VxPlan) (t : Strm) : List Int := (upTo p.n).map (fun (i : Nat) => t.e0 + (i : Int))

/-- The words it reads of a stream. -/
def VxPlan.reads (p : VxPlan) (m : Strm) : List Nat :=
  if m.imm.isSome then [] else (m.words (p.offs m) ++ m.shWords (p.offs m)).map (·.toNat)

/-- The operands at position `i`, each with its poison. -/
def vxIn (rd : State) (c : Core) (ins : List Strm) (i : Nat) : List (Num × Bool) := ins.map (fun t => t.val rd c (t.e0 + i))

/-- The element at position `i`, and whether it is a NaN made of none. -/
def vxCell (op : VxOp) (bf16 : Bool) (d : BitVec 512) (out : Strm) (u : Option Nat) (xs : List (Num × Bool)) (i : Nat) : Cell × Bool :=
  let v := vxElem op bf16 (bitsN d 321 290) (bits d 353 322) (u.getD 0) (xs.map (·.1))
  (⟨out.e0 + i, v, xs.any (·.2), false⟩, v.isNan && !(xs.any (fun x => x.1.isNan)))

/-- The elements written to D, `u` the random words by position. -/
def vxWrite (rd : State) (c : Core) (out : Strm) (u : Nat → Option Nat) (cells : List Cell) : Wrote :=
  writeRun rd (.cs c) out.fmt out.base out.sh out.region out.tile0 out.scale (fun e => u (e - out.e0).toNat) false false cells

/-- The core-store words `lo` to `hi` of a stream's `n` elements, where it is one. -/
def vxSpan (t : Strm) (n : Nat) : Int × Int := ((t.base : Int) + t.e0 / perWord t.fmt, (t.base : Int) + (t.e0 + n - 1) / perWord t.fmt)

/-- Whether a VX instruction may read words that it writes. -/
def vxMeets (ins : List Strm) (out : Strm) (n : Nat) : Bool :=
  ins.any (fun t => t.imm.isNone && decide ((vxSpan t n).1 ≤ (vxSpan out n).2) && decide ((vxSpan out n).1 ≤ (vxSpan t n).2))

/-- The elements of a VX instruction that reads words of its own destination: those read in a cycle find the vectors written in an
earlier one (11 R293, 12 R305). `take` are the elements of a cycle, `per` the cycles of a vector, `cell` the element at a
position of what the cycle finds, `write` a vector's words. -/
def vxInTurn (rd : State) (c : Core) (take per depth : Nat) (cell : State → Nat → Cell × Bool) (write : List Cell → List Out)
    (n : Nat) : List (Cell × Bool) :=
  ((upTo (ceilDiv n take)).foldl (fun (a : State × List (List Cell) × List (List (Cell × Bool))) x =>
    let due := decide (depth < x) && decide ((x - 1 - depth) % per = 0)
    let u := if due then (write (a.2.1.headD [])).foldl (fun (s : State) o => s.writeWord (.cs c) o.a o.w) a.1 else a.1
    let cs := (upTo (min take (n - take * x))).map (fun i => cell u (take * x + i))
    let queue := if due then a.2.1.tail else a.2.1
    let queue := if x % per = 0 then queue ++ [cs.map (·.1)] else queue.dropLast ++ [queue.getLastD [] ++ cs.map (·.1)]
    (u, queue, a.2.2 ++ [cs])) (rd, [], [])).2.2.flatten

/-- The checks of a VX instruction, and what it will do (11 R292, R293). -/
def vxPlan (op : VxOp) (c : Core) (a : VxArgs) (rd : State) : Res VxPlan := do
  need (!(a.bf16 && op.pipe)) 0x01
  let now := unitClock rd c
  need (decide (look rd.cores.vxBusy 0 c.val ≤ now)) 0x02
  let d ← latchForm rd c a.desc 2 [2]
  need (vxCheck d) 0x12
  let vs := zeroIs 4096 a.count
  let n := vs * (if a.bf16 then 128 else 64)
  need (((upTo op.nsrc) ++ [3]).all (fun k => let o := strmAt k
    decide (bitsN d (o + 23) (o + 22) ≠ 0) || decide (bitsN d (o + 70) (o + 69) = 0))) 0x12
  let ins ← (upTo op.nsrc).mapM (fun k => openStrm rd c d k false)
  let out ← openStrm rd c d 3 true
  need (!a.bf16 || (ins ++ [out]).all (fun t => t.imm.isSome || decide (t.fmt = 1))) 0x12
  let offs (t : Strm) : List Int := (upTo n).map (fun (i : Nat) => t.e0 + (i : Int))
  let ins ← ins.mapM (fun t => t.ready rd c (offs t) (bitsN d 453 438) true)
  let out ← out.ready rd c (offs out) 0 false
  if isShingled out.fmt then quantOpen rd (tenNo rd c)
  let opid := bitsN d 421 406
  let rng ← rngOf rd c out.stoch opid
  let drops ← rngOf rd c op.drop opid
  let lead := match ins.find? (fun t => t.imm.isNone && isShingled t.fmt) with | some t => t | none => out
  let j (i : Nat) : Nat := elemIndex out.fmt lead.tile0 (lead.e0 + i)
  let cell (u : State) (i : Nat) : Cell × Bool := vxCell op a.bf16 d out (drops (j i)) (vxIn u c ins i) i
  let cells := if vxMeets ins out n then
      vxInTurn rd c (if op.pipe then 16 else if a.bf16 then 128 else 64) (vxStep op.pipe) (vxDepth rd op.pipe) cell
        (fun cs => (vxWrite rd c out (fun i => rng (j i)) cs).els) n
    else (upTo n).map (cell rd)
  let w := vxWrite rd c out (fun i => rng (j i)) (cells.map (·.1))
  let delay := if (ins ++ [out]).any (fun t => t.imm.isNone && isShingled t.fmt) then sclLat rd else 0
  return { d, now, delay, vs, n, ins, out, cells, wrote := w }

/-- The core-store ports and tile scales it uses. -/
def VxPlan.ports (p : VxPlan) (op : VxOp) (bf16 : Bool) (rd : State) : List PortRun :=
  let lanes := if bf16 then 128 else 64
  let tiles := ((p.ins ++ [p.out]).map (fun t => t.scales.length)).sum
  { first := p.now, period := 256 * vxStep op.pipe, burst := 1, reps := tiles, scl := 1 : PortRun } ::
    vxReads (p.ins.filterMap (fun t => if t.imm.isSome then Option.none else some t.fmt)) lanes p.vs op.pipe (p.now + p.delay)
    ++ vxWrites rd p.out.fmt lanes p.vs op.pipe (p.now + p.delay)

/-- The cycle of its clock until which it takes the vector unit. -/
def VxPlan.until (p : VxPlan) (op : VxOp) : Nat := p.now + p.delay + p.vs * vxStep op.pipe

/-- The work of a VX instruction: its words written, its reads noted, its reports and counts, the unit taken. -/
def vxRun (op : VxOp) (c : Core) (a : VxArgs) (p : VxPlan) (rd s : State) : State :=
  let stamp := bitsN p.d 437 422
  let s1 := p.ins.foldl (fun (s : State) (m : Strm) =>
    if m.imm.isSome then s else (s.noteStrm c 5 m).consume rd c 5 (.cs c) (p.reads m)) s
  let s2 := (s1.emit (.cs c) p.out.fmt stamp p.wrote.els).emit (.cs c) 0xE stamp p.wrote.shs
  let s3 := (((s2.noteStrm c 5 p.out).report (tenNo rd c) p.wrote.reps).countCore c 0x110 (p.cells.filter (·.2)).length).chargeCore c 7 p.n 0x188
  let s4 := (s3.takeVx c (p.until op)).quantUntil rd c 1 (isShingled p.out.fmt) (p.until op + vxDepth rd op.pipe)
  let s5 := s4.dupStrike c false 5 0x140 a.desc.toNat
  if op.pipe then s5.romStrike c false 5 else s5

/-- A VX instruction (11 R292, R293). -/
def vxAct (op : VxOp) (c : Core) (a : VxArgs) (rd s : State) : Res State := do
  let p ← vxPlan op c a rd
  let s1 ← s.claimPorts c (p.ports op a.bf16 rd)
  (vxRun op c a p rd s1).holdMerges rd c (p.ports op a.bf16 rd)

/-! ### Meanings -/

/-- `ADD` issued alone in slot VX. -/
def execAdd (c : Core) (a : VxArgs) (s : State) : Answer := .next (slotOp c 1 (vxAct vAdd c a) s s)

/-- `SUB` issued alone in slot VX. -/
def execSub (c : Core) (a : VxArgs) (s : State) : Answer := .next (slotOp c 1 (vxAct vSub c a) s s)

/-- `MUL` issued alone in slot VX. -/
def execMul (c : Core) (a : VxArgs) (s : State) : Answer := .next (slotOp c 1 (vxAct vMul c a) s s)

/-- `FMA` issued alone in slot VX. -/
def execFma (c : Core) (a : VxArgs) (s : State) : Answer := .next (slotOp c 1 (vxAct vFma c a) s s)

/-- `FNMA` issued alone in slot VX. -/
def execFnma (c : Core) (a : VxArgs) (s : State) : Answer := .next (slotOp c 1 (vxAct vFnma c a) s s)

/-- `MIN` issued alone in slot VX. -/
def execMin (c : Core) (a : VxArgs) (s : State) : Answer := .next (slotOp c 1 (vxAct vMin c a) s s)

/-- `MAX` issued alone in slot VX. -/
def execMax (c : Core) (a : VxArgs) (s : State) : Answer := .next (slotOp c 1 (vxAct vMax c a) s s)

/-- `NEG` issued alone in slot VX. -/
def execNeg (c : Core) (a : VxArgs) (s : State) : Answer := .next (slotOp c 1 (vxAct vNeg c a) s s)

/-- `ABS` issued alone in slot VX. -/
def execAbs (c : Core) (a : VxArgs) (s : State) : Answer := .next (slotOp c 1 (vxAct vAbs c a) s s)

/-- `CMPLT` issued alone in slot VX. -/
def execCmplt (c : Core) (a : VxArgs) (s : State) : Answer := .next (slotOp c 1 (vxAct vCmplt c a) s s)

/-- `CMPLE` issued alone in slot VX. -/
def execCmple (c : Core) (a : VxArgs) (s : State) : Answer := .next (slotOp c 1 (vxAct vCmple c a) s s)

/-- `CMPEQ` issued alone in slot VX. -/
def execCmpeq (c : Core) (a : VxArgs) (s : State) : Answer := .next (slotOp c 1 (vxAct vCmpeq c a) s s)

/-- `SEL` issued alone in slot VX. -/
def execSel (c : Core) (a : VxArgs) (s : State) : Answer := .next (slotOp c 1 (vxAct vSel c a) s s)

/-- `DROP` issued alone in slot VX. -/
def execDrop (c : Core) (a : VxArgs) (s : State) : Answer := .next (slotOp c 1 (vxAct vDrop c a) s s)

/-- `CVT` issued alone in slot VX. -/
def execCvt (c : Core) (a : VxArgs) (s : State) : Answer := .next (slotOp c 1 (vxAct vCvt c a) s s)

/-- `DIV` issued alone in slot VX. -/
def execDiv (c : Core) (a : VxArgs) (s : State) : Answer := .next (slotOp c 1 (vxAct (vFn2 fDiv) c a) s s)

/-- `RCP` issued alone in slot VX. -/
def execRcp (c : Core) (a : VxArgs) (s : State) : Answer := .next (slotOp c 1 (vxAct (vFn fRcp) c a) s s)

/-- `SQRT` issued alone in slot VX. -/
def execSqrt (c : Core) (a : VxArgs) (s : State) : Answer := .next (slotOp c 1 (vxAct (vFn fSqrt) c a) s s)

/-- `RSQRT` issued alone in slot VX. -/
def execRsqrt (c : Core) (a : VxArgs) (s : State) : Answer := .next (slotOp c 1 (vxAct (vFn fRsqrt) c a) s s)

/-- `EXP2` issued alone in slot VX. -/
def execExp2 (c : Core) (a : VxArgs) (s : State) : Answer := .next (slotOp c 1 (vxAct (vFn fExp2) c a) s s)

/-- `EXP` issued alone in slot VX. -/
def execExp (c : Core) (a : VxArgs) (s : State) : Answer := .next (slotOp c 1 (vxAct (vFn fExp) c a) s s)

/-- `LOG2` issued alone in slot VX. -/
def execLog2 (c : Core) (a : VxArgs) (s : State) : Answer := .next (slotOp c 1 (vxAct (vFn fLog2) c a) s s)

/-- `LN` issued alone in slot VX. -/
def execLn (c : Core) (a : VxArgs) (s : State) : Answer := .next (slotOp c 1 (vxAct (vFn fLn) c a) s s)

/-- `LN1P` issued alone in slot VX. -/
def execLn1p (c : Core) (a : VxArgs) (s : State) : Answer := .next (slotOp c 1 (vxAct (vFn fLn1p) c a) s s)

/-- `TANH` issued alone in slot VX. -/
def execTanh (c : Core) (a : VxArgs) (s : State) : Answer := .next (slotOp c 1 (vxAct (vFn fTanh) c a) s s)

/-- `ERF` issued alone in slot VX. -/
def execErf (c : Core) (a : VxArgs) (s : State) : Answer := .next (slotOp c 1 (vxAct (vFn fErf) c a) s s)

/-- `SIGMOID` issued alone in slot VX. -/
def execSigmoid (c : Core) (a : VxArgs) (s : State) : Answer := .next (slotOp c 1 (vxAct (vFn fSigmoid) c a) s s)

/-- `SILU` issued alone in slot VX. -/
def execSilu (c : Core) (a : VxArgs) (s : State) : Answer := .next (slotOp c 1 (vxAct (vFn fSilu) c a) s s)

/-- `GELU` issued alone in slot VX. -/
def execGelu (c : Core) (a : VxArgs) (s : State) : Answer := .next (slotOp c 1 (vxAct (vFn fGelu) c a) s s)

/-- `GELU_T` issued alone in slot VX. -/
def execGeluT (c : Core) (a : VxArgs) (s : State) : Answer := .next (slotOp c 1 (vxAct (vFn fGeluT) c a) s s)

/-- `SOFTPLUS` issued alone in slot VX. -/
def execSoftplus (c : Core) (a : VxArgs) (s : State) : Answer := .next (slotOp c 1 (vxAct (vFn fSoftplus) c a) s s)

/-- `RELU` issued alone in slot VX. -/
def execRelu (c : Core) (a : VxArgs) (s : State) : Answer := .next (slotOp c 1 (vxAct (vFn fRelu) c a) s s)

/-- `DSIGMOID` issued alone in slot VX. -/
def execDsigmoid (c : Core) (a : VxArgs) (s : State) : Answer := .next (slotOp c 1 (vxAct (vFn dSigmoid) c a) s s)

/-- `DTANH` issued alone in slot VX. -/
def execDtanh (c : Core) (a : VxArgs) (s : State) : Answer := .next (slotOp c 1 (vxAct (vFn dTanh) c a) s s)

/-- `DSILU` issued alone in slot VX. -/
def execDsilu (c : Core) (a : VxArgs) (s : State) : Answer := .next (slotOp c 1 (vxAct (vFn dSilu) c a) s s)

/-- `DGELU` issued alone in slot VX. -/
def execDgelu (c : Core) (a : VxArgs) (s : State) : Answer := .next (slotOp c 1 (vxAct (vFn dGelu) c a) s s)

/-- `DGELU_T` issued alone in slot VX. -/
def execDgeluT (c : Core) (a : VxArgs) (s : State) : Answer := .next (slotOp c 1 (vxAct (vFn dGeluT) c a) s s)

/-- `DSOFTPLUS` issued alone in slot VX. -/
def execDsoftplus (c : Core) (a : VxArgs) (s : State) : Answer := .next (slotOp c 1 (vxAct (vFn dSoftplus) c a) s s)

/-- `DRELU` issued alone in slot VX. -/
def execDrelu (c : Core) (a : VxArgs) (s : State) : Answer := .next (slotOp c 1 (vxAct (vFn dRelu) c a) s s)

end Sys2Proof.Machine
end

