-- ==== Sys2Proof/Machine/Sequencer.lean ====
section
/-! DEFINITION. The sequencer: bundles, loops, pages, course ends, fallback checks and votes, closes, sends and waits (07 R169, R177; 10 R247 to R262, R268, R269; 11 Table 11.17; 13 R346 to R348; 14 R368). -/

namespace Sys2Proof.Machine

open Sys2Proof

def State.setSeq (s : State) (c : Core) (q : Seq) : State :=
  { s with cores := { s.cores with seqs := put {} s.cores.seqs c.val q } }

def State.modSeq (s : State) (c : Core) (f : Seq → Seq) : State := s.setSeq c (f (seqOf s c))

/-- The unit clocks of a tenancy's cores left where they stand as its course ends: they go on from there in the next one (10 R247). -/
def State.restClocks (s : State) (t : Nat) : State :=
  (coresOf s t).foldl (fun (u : State) c => u.modSeq c (fun q => { q with base := unitClock s c, len := 0 })) s

/-! ### The next bundle (10 R256, R259) -/

/-- The loop levels after a body's end at bundle `b`, innermost first, and the bundle that follows. -/
def loopNext (b : Nat) (ls : List LoopFrame) : List LoopFrame × Nat :=
  match ls with
  | [] => ([], b)
  | f :: r => if f.stop = b then
      (if f.index + 1 < f.trips then ({ f with index := f.index + 1 } :: r, f.first) else loopNext b r)
    else (f :: r, b)

/-- The sequencer moved on to the bundle that follows; past the page's end is the page-end fault, unless `jumped`. -/
def State.advance (s : State) (c : Core) : Res State :=
  let q := seqOf s c
  let n := loopNext (q.bundle + 1) q.loops.reverse
  if n.2 ≤ 1023 then .ok (s.setSeq c { q with bundle := n.2, loops := n.1.reverse }) else .error (.after s 0x04 0)

/-- A jump to bundle `b` of a page whose tag must be the one named (10 R259). -/
def State.jumpTo (s : State) (c : Core) (page : BitVec 3) (b : Nat) (tag : BitVec 8) : Res State := do
  need (decide (pageTag s c page = tag)) 0x05
  return s.modSeq c (fun q => { q with page := page, bundle := b })

/-- Whether the sequencer is inside a loop body. -/
def inLoop (s : State) (c : Core) : Bool := decide ((seqOf s c).loops ≠ [])

/-! ### Control instructions -/

/-- `LOOP` (10 R256 to R258). -/
def loopAct (c : Core) (n : BitVec 17) (l : BitVec 10) (s : State) : Res State := do
  need (decide (n.toNat ≤ 65536)) 0x01
  let q := seqOf s c
  let first := q.bundle + 1
  let stop := first + l.toNat
  need (decide (n ≠ 0) && decide (l ≠ 0) && decide (stop ≤ 1024) && decide (q.loops.length < 4)
    && (match q.loops.getLast? with | some f => decide (stop ≤ f.stop) | none => true)) 0x03
  return s.setSeq c { q with bundle := first, loops := q.loops ++ [⟨first, stop, n.toNat, 0⟩] }

/-- `PJUMP` (10 R259). -/
def pjumpAct (c : Core) (page : BitVec 3) (tag : BitVec 8) (s : State) : Res State := do
  need (!inLoop s c) 0x03
  s.jumpTo c page 0 tag

/-- `CEND` at schedule position `pos` (10 R249). -/
def cendAct (c : Core) (pos : Nat) (s : State) : Res State := do
  need (!inLoop s c && (seqOf s c).ret.isNone) 0x03
  return s.modSeq c (fun q => { q with ended := true, len := pos + 1, endAt := s.now })

/-- The chips whose votes a check of a scope needs, this one left out: along T for 1, S for 2, both for 3. -/
def scopeAxes (scope : BitVec 2) : List Nat := (if scope.getLsbD 0 then [1] else []) ++ (if scope.getLsbD 1 then [3] else [])

def scopeOthers (s : State) (t : Nat) (scope : BitVec 2) : Nat :=
  (scopeAxes scope).foldl (fun n k => n * max 1 (boxN s t k)) 1 - 1

/-- A vote frame's payload word: check number and OR of the guard latches (13 Table 13.5). -/
def voteWord (check : BitVec 12) (any : Bool) : BitVec 256 := BitVec.ofNat 256 (check.toNat + (if any then 2 ^ 12 else 0))

/-- A core's outcome of a completed vote: into the fallback region, or on (07 R178, 10 R268). The sequencer already stands
at the bundle that follows the check. -/
def State.branch (s : State) (t : Nat) (v : Vote) (x : Waiter) : State :=
  if !v.any then s else
    let c := x.core
    let q := seqOf s c
    let s1 := ((s.daybook 0x32 0 t (phys s c) 9 v.check.toNat (s.ten t).steps.step.toNat 0).countTen t 0x20B8 1)
    match (s1.setSeq c { q with ret := some (q.page, q.bundle), region := some (x.page, x.bundle) }).jumpTo c x.page x.bundle x.tag with
    | .ok s2 => s2
    | .error _ => s1.progFaultAt c x.page0.toNat x.bundle0 4 0x05 0

/-- A vote completed once every chip of its scope has been heard: the wait ends and every waiting core goes on. -/
def State.settleVote (s : State) (t : Nat) : State :=
  match (s.ten t).vote with
  | none => s
  | some v =>
    if v.done || v.got < scopeOthers s t v.scope then s else
      let s1 := s.modTen t (fun n => { n with vote := some { v with done := true, waiting := [] } })
      let s2 := s1.endStall t (fun x => match x with | .vote _ => true | _ => false)
      v.waiting.foldl (fun (u : State) x => u.branch t v x) s2

/-- A vote of another chip counted, and forwarded along the axes of the scope after the one it came on; one for another check is a
fault of the check that waits (07 R177, 10 R281). -/
def State.countVote (s : State) (t : Nat) (p : Port) (check : BitVec 12) (any : Bool) : State :=
  match (s.ten t).vote with
  | none => s
  | some v =>
    if v.check ≠ check then
      match v.waiting with
      | x :: _ => s.progFaultAt x.core x.page0.toNat x.bundle0 4 0x1C 0
      | [] => s.progFault (((coresOf s t).head?).getD 0) 4 0x1C 0
    else
      let s1 := s.modTen t (fun n => { n with vote := some { v with got := v.got + 1, any := v.any || any } })
      (s1.forward t 6 p ((scopeAxes v.scope).filter (fun k => 1 < boxN s t k)) [MemWord.clean (voteWord check any)]).settleVote t

/-- A vote begun by a check: the tenancy's guard latches gathered and cleared, the vote sent along its axes, and the
votes that have already arrived counted (10 R265 to R267). -/
def State.beginVote (s : State) (t at' : Nat) (scope : BitVec 2) (check : BitVec 12) (x : Waiter) : State :=
  let cs := (coresOf s t).map (·.val)
  let any := s.cores.guard.any (fun g => cs.contains g)
  let v : Vote := { scope := scope, check := check, any := any, at' := at', waiting := [x] }
  let s1 := { s with cores := { s.cores with guard := s.cores.guard.filter (fun g => !cs.contains g) } }
  let old := (s1.ten t).votes
  let s2 := s1.modTen t (fun n => { n with vote := some v, votes := [],
                                           course := { n.course with stalls := n.course.stalls ++ [.vote x.core] } })
  let s3 := s2.fanOut t 6 ((scopeAxes scope).filter (fun k => 1 < boxN s2 t k)) [MemWord.clean (voteWord check any)]
  (old.foldl (fun (u : State) e => u.countVote t e.1 e.2.1 e.2.2) s3).settleVote t

/-- `FBCHK` at schedule position `pos` (07 R177, 10 R268): the checks of a position make one vote (09 R220). -/
def fbchkAct (c : Core) (scope : BitVec 2) (check : BitVec 12) (page : BitVec 3) (bundle : BitVec 10) (tag : BitVec 8) (pos : Nat)
    (s : State) : Res State := do
  let q := seqOf s c
  need (!inLoop s c && q.ret.isNone) 0x03
  let t := tenNo s c
  let x : Waiter := ⟨c, page, bundle.toNat, tag, q.page, q.bundle⟩
  let s0 ← s.advance c
  if !cautious s t then return s0 else
    let at' := (s.ten t).course.start + pos
    match (s.ten t).vote with
    | some v =>
      if v.done && v.check = check && v.at' = at' then return s0.branch t v x
      else if !v.done then
        need (decide (v.check = check)) 0x1C
        return s0.modTen t (fun n => { n with vote := some { v with waiting := v.waiting ++ [x] } })
      else return s0.beginVote t at' scope check x
    | none => return s0.beginVote t at' scope check x

/-- `FBRET` (10 R268, R269). -/
def fbretAct (c : Core) (s : State) : Res State := do
  need (!inLoop s c) 0x03
  match (seqOf s c).ret with
  | none => throw (.fault 0x03 0)
  | some r => return s.modSeq c (fun q => { q with page := r.1, bundle := r.2, ret := none, region := none })

/-! ### Closes (07 R169 to R171, 15 R396, R400) -/

/-- The values of a tenancy's records at the cut. -/
def sealVals (s : State) (t : Nat) (rs : Sparse FoldRec) (ok : BitVec 64 → Bool) : SealVal :=
  let r (i : Nat) : FoldRec := match find rs i with | some r => if ok r.record then r else {} | none => {}
  { src := BitVec.ofNat 16 (myId s)
    step := (s.ten t).steps.step
    digests := (upTo 16).map (fun i => (r i).digest)
    counts := (upTo 16).map (fun i => (r i).count)
    partials := BitVec.ofNat 16 ((upTo 16).foldl (fun n i => if (r i).partial_ then n + 2 ^ i else n) 0) }

/-- The words of a SEALS or TWIN frame after its control word (15 R413). -/
def sealWords (v : SealVal) : List MemWord :=
  (chunks 4 (v.digests.map (·.toNat))).map (fun g => MemWord.clean (packWord 64 g))
    ++ [MemWord.clean (packWord 16 (v.counts.map (·.toNat)))]

/-- The roles of a twin record. -/
def isTwinHost (r : BitVec 64) : Bool := bitB r 32 && bitB r 33
def isTwinHome (r : BitVec 64) : Bool := bitB r 32 && !bitB r 33

/-- Whether this chip waits for a twin frame at a take, and for seal values. -/
def twinDue (s : State) (t : Nat) : Bool :=
  decide (1 < boxN s t 0) && (s.ten t).steps.twins.any (fun (r : Nat × FoldRec) => isTwinHome r.2.record)
def sealDue (s : State) (t : Nat) : Bool := decide (1 < boxN s t 0)

/-- The twin frame of the step compared with the home's records, once cut and frame are both there (15 R396). -/
def State.compareTwin (s : State) (t : Nat) : State :=
  let n := s.ten t
  match n.steps.twinSelf, n.steps.twinGot.find? (fun v => v.step = n.steps.step) with
  | some own, some v =>
    if !n.close.cut || n.close.twinCmp then s else
      let rs := (n.steps.twins.filter (fun (r : Nat × FoldRec) => isTwinHome r.2.record)).map (·.1)
      let bad := rs.filter (fun r => nth own.digests 0 r ≠ nth v.digests 0 r || nth own.counts 0 r ≠ nth v.counts 0 r)
      let s1 := bad.foldl (fun (u : State) r => (u.countTen t 0x2188 1).dayTen t 0x60 clsA r n.steps.step.toNat
        (own.src.toNat + v.src.toNat * 2 ^ 16)) (s.countTen t 0x2180 rs.length)
      let s2 := if bad ≠ [] && trigOn s1 4 then s1.assayCores t else s1
      s2.modTen t (fun n => { n with close := { n.close with twinCmp := true, twinBad := decide (bad ≠ []) } })
  | _, _ => s

/-- What two seal values must agree in. -/
def SealVal.same (a b : SealVal) : Bool := decide (a.digests = b.digests) && decide (a.counts = b.counts) && decide (a.partials = b.partials)

/-- The seal values of the D axis compared, once all of them are there (15 R400). -/
def State.compareSeals (s : State) (t : Nat) : State :=
  let n := s.ten t
  match n.steps.sealSelf with
  | none => s
  | some own =>
    let vs := own :: n.steps.sealGot.filter (fun v => v.step = n.steps.step)
    let len := boxN s t 0
    if !n.close.cut || n.close.sealCmp || vs.length < len then s else
      let holders (v : SealVal) : Nat := (vs.filter (fun u => u.same v)).length
      let major := if 3 ≤ len && bitB (BitVec.ofNat 8 (hdr s t 47 1)) 1 then vs.find? (fun v => len < 2 * holders v) else none
      if vs.all (fun v => v.same own) then
        (s.countTen t 0x2198 1).modTen t (fun n => { n with close := { n.close with sealCmp := true } })
      else
        let odd : List Nat := match major with
          | some m => ((vs.filter (fun v => !v.same m)).map (fun v => v.src.toNat)).mergeSort (· ≤ ·)
          | none => []
        let path : BitVec 3 := if major.isSome then 2 else 3
        let s1 := (s.countTen t 0x21A0 1).dayTen t 0x61 clsA odd.length n.steps.step.toNat (odd.head?.getD 0)
        s1.modTen t (fun n => { n with close := { n.close with
          sealCmp := true, sealPath := path, odd := odd.contains (myId s) } })

/-- The values sent at the cut: a twin host's to its home, at D offset −1, and every chip's seal values along D. -/
def State.sendSeals (s : State) (t : Nat) : State :=
  let n := (s.ten t).steps
  let sv := sealVals s t n.sealRecs (fun r => bitB r 0)
  let s1 := s.modTen t (fun k => { k with steps := { k.steps with sealSelf := some sv, twinSelf := some (sealVals s t n.twins isTwinHome) } })
  let w (sub partials : Nat) : MemWord := MemWord.clean (recWord sub 0 0 n.step.toNat 0 0 false 0 0 partials (s.ten t).recov.census.toNat)
  let s2 := if n.twins.any (fun (r : Nat × FoldRec) => isTwinHost r.2.record) && 1 < boxN s t 0 then
      let dst := peerAt s1 t 0 (-1)
      let ps := axisPorts s1 t 0
      let p := nth ps 0 (coordOf s1 dst 0 % ps.length)
      s1.pushCtl t dst (mkFrame s1 t 9 dst 4095 0 p (w 7 0 :: sealWords (sealVals s t n.twins isTwinHost)))
    else s1
  s2.fanOut t 9 ((jobAxes s t).filter (fun k => k = 0)) (w 6 sv.partials.toNat :: sealWords sv)

/-- Overflowed blocks counted from the local OVF counts, before they merge (07 Table 07.8). -/
def State.countOvf (s : State) (t : Nat) : State :=
  let p := partOf s t 0
  s.countTen t 0x2080 ((s.stores.ledger.filter (fun (e : Nat × Cell64) => decide (p.1 ≤ e.1) && decide (e.1 < p.1 + p.2))).foldl
    (fun n (e : Nat × Cell64) => n + bitsN e.2.data 47 40) 0)

/-- The scale-ledger-pending fault of the operations in flight at a cut: they quantise after it (07 R170, 10 R276). -/
def State.closeFlight (s : State) (t : Nat) : State :=
  (jobCores s t).foldl (fun (u : State) c =>
    let q := look s.cores.quants {} c.val
    if unitClock s c < q.until' then u.progFaultAt c q.page.toNat q.bundle q.slot 0x1B 0 else u) s

/-- `SCLOSE` (07 R169, R170): the cut, made once by the cores that issue it together. -/
def scloseAct (c : Core) (take : BitVec 4) (s : State) : Res State := do
  need (decide (take ≠ 0)) 0x01
  need (!inLoop s c && (seqOf s c).ret.isNone) 0x03
  let t := tenNo s c
  let k := (s.ten t).close
  if k.cut then
    need (decide (k.at' = s.now)) 0x1B
    return s
  let s1 := (s.modTen t (fun n => { n with
    close := { cut := true, at' := s.now, wait := take.toNat }
    recov := { n.recov with optPhase := true } })).planSwap t take.toNat
  return ((((s1.countOvf t).sendSeals t).compareTwin t).compareSeals t).startMerge t

/-- `SPHASE` (17 R449). -/
def sphaseAct (c : Core) (tag : BitVec 16) (s : State) : Res State :=
  .ok (s.modTen (tenNo s c) (fun n => { n with course := { n.course with phase := tag } }))

/-! ### Sends and waits (13 R345 to R348, 14 R366, R368) -/

/-- A stall added to a tenancy's course. -/
def State.addStallOf (s : State) (t : Nat) (x : Stall) : State :=
  s.modTen t (fun n => { n with course := { n.course with stalls := n.course.stalls ++ [x] } })

/-- `FSEND` (13 R346). -/
def fsendAct (c : Core) (chan : Chan) (axis : BitVec 2) (peer : BitVec 12) (rd s : State) : Res State := do
  let t := tenNo rd c
  let ch := chan.toNat
  let r := chanRec rd t ch
  need (decide (peer ≠ 0)) 0x01
  need (recValid r && decide (chanCore rd t r = c.val)) 0x15
  need (decide (recSaxis r = axis.toNat) && decide (recSoff r = peer.toInt) && decide (peer.toInt.natAbs < boxN rd t axis.toNat)) 0x15
  need (decide (recSslots r ≠ 0) && (collOf rd t ch).isNone) 0x20
  let is := stagedRing rd t ch
  if is = [] then return s
  let s1 := if recHm r then is.foldl (fun (u : State) i => u.checkCrc rd c (.mbox c) (recSbase r + i * recWords r) (recWords r)) s else s
  if is.length ≤ creditOf rd t ch then return s1.sendStaged t ch is
  else return s1.addStallOf t (.credit c chan)

/-- `FWAIT` (13 R347, R348; 14 R368). -/
def fwaitAct (c : Core) (chan : Chan) (count : BitVec 16) (rd s : State) : Res State := do
  let t := tenNo rd c
  let ch := chan.toNat
  let r := chanRec rd t ch
  need (decide (count ≠ 0)) 0x01
  need (recValid r && decide (chanCore rd t r = c.val)) 0x15
  match collOf rd t ch with
  | some k =>
    need (decide (count = 1)) 0x20
    if k.done then return { s with fabric := { s.fabric with colls := del s.fabric.colls (chanKey t ch) } }
    else return (s.setColl t ch { k with waitFrom := some s.now }).addStallOf t (.coll c chan)
  | none =>
    need (decide (recRslots r ≠ 0) && decide (count.toNat ≤ recRslots r)) 0x20
    let k := chanOf rd t ch
    let up := k.waited + count.toNat
    let s1 := s.modChan t ch (fun k => { k with owed := k.owed + k.toFree, toFree := count.toNat, waited := up })
    if k.written < up then return s1.addStallOf t (.late c chan up) else return s1

/-! ### Issue -/

/-- What a slot instruction does in its issue cycle: it reads `rd` and works on `s`. Control instructions do nothing here. -/
def slotAct (i : Instr) (rd s : State) : Res State :=
  match i with
  | .mrun c d => mrunAct c d rd s
  | .malt c d e => maltAct c d e rd s
  | .mpre c d => mpreAct c d rd s
  | .mdrn c d b r => mdrnAct c d b r rd s
  | .mrel c d b => mrelAct c d b rd s
  | .add c a => vxAct vAdd c a rd s
  | .sub c a => vxAct vSub c a rd s
  | .mul c a => vxAct vMul c a rd s
  | .fma c a => vxAct vFma c a rd s
  | .fnma c a => vxAct vFnma c a rd s
  | .min c a => vxAct vMin c a rd s
  | .max c a => vxAct vMax c a rd s
  | .neg c a => vxAct vNeg c a rd s
  | .abs c a => vxAct vAbs c a rd s
  | .cmplt c a => vxAct vCmplt c a rd s
  | .cmple c a => vxAct vCmple c a rd s
  | .cmpeq c a => vxAct vCmpeq c a rd s
  | .sel c a => vxAct vSel c a rd s
  | .drop c a => vxAct vDrop c a rd s
  | .cvt c a => vxAct vCvt c a rd s
  | .div c a => vxAct (vFn2 fDiv) c a rd s
  | .rcp c a => vxAct (vFn fRcp) c a rd s
  | .sqrt c a => vxAct (vFn fSqrt) c a rd s
  | .rsqrt c a => vxAct (vFn fRsqrt) c a rd s
  | .exp2 c a => vxAct (vFn fExp2) c a rd s
  | .exp c a => vxAct (vFn fExp) c a rd s
  | .log2 c a => vxAct (vFn fLog2) c a rd s
  | .ln c a => vxAct (vFn fLn) c a rd s
  | .ln1p c a => vxAct (vFn fLn1p) c a rd s
  | .tanh c a => vxAct (vFn fTanh) c a rd s
  | .erf c a => vxAct (vFn fErf) c a rd s
  | .sigmoid c a => vxAct (vFn fSigmoid) c a rd s
  | .silu c a => vxAct (vFn fSilu) c a rd s
  | .gelu c a => vxAct (vFn fGelu) c a rd s
  | .geluT c a => vxAct (vFn fGeluT) c a rd s
  | .softplus c a => vxAct (vFn fSoftplus) c a rd s
  | .relu c a => vxAct (vFn fRelu) c a rd s
  | .dsigmoid c a => vxAct (vFn dSigmoid) c a rd s
  | .dtanh c a => vxAct (vFn dTanh) c a rd s
  | .dsilu c a => vxAct (vFn dSilu) c a rd s
  | .dgelu c a => vxAct (vFn dGelu) c a rd s
  | .dgeluT c a => vxAct (vFn dGeluT) c a rd s
  | .dsoftplus c a => vxAct (vFn dSoftplus) c a rd s
  | .drelu c a => vxAct (vFn dRelu) c a rd s
  | .rnorm c a => rnormAct c a rd s
  | .rnormb c a => rnormbAct c a rd s
  | .rsmax c a => rsmaxAct c a rd s
  | .rsmaxb c a => rsmaxbAct c a rd s
  | .rfold c a => rfoldAct c a rd s
  | .rxent c a => rxentAct c a rd s
  | .rroute c a => rrouteAct c a rd s
  | .rrouteb c a => rroutebAct c a rd s
  | .rcomb c a => rcombAct c a rd s
  | .rcsum c a => rcsumAct c a rd s
  | .pspill c d g n r => pspillAct c d g n r rd s
  | .pfill c d g n => pfillAct c d g n rd s
  | .pclr c g n => pclrAct c g n rd s
  | .hmove c d ch r => hmoveAct c d ch r rd s
  | .hgath c d ch n => gathAct c false d ch n rd s
  | .hscat c d ch n => gathAct c true d ch n rd s
  | .hmesh c d ch x y n => hmeshAct c d ch x y n rd s
  | .hpage c d ch p g => hpageAct c d ch p g rd s
  | .hdesc c e ch a k => hdescAct c e ch a k rd s
  | .hdsp c d => hdspAct c d rd s
  | .sphase c g => sphaseAct c g s
  | .fsend c ch x p => fsendAct c ch x p rd s
  | .fwait c ch n => fwaitAct c ch n rd s
  | .fcoll c ch x o d => fcollAct c ch x o d rd s
  | _ => .ok s

/-- What the sequencer does for a bundle at schedule position `pos`: its control instruction, or the next bundle in order. -/
def controlAct (i : Option Instr) (c : Core) (pos : Nat) (s : State) : Res State :=
  match i with
  | some (.loop _ n l) => loopAct c n l s
  | some (.pjump _ p g) => pjumpAct c p g s
  | some (.cend _) => cendAct c pos s
  | some (.fbchk _ x k p b g) => fbchkAct c x k p b g pos s
  | some (.fbret _) => fbretAct c s
  | some (.sclose _ n) => do
    let s1 ← scloseAct c n s
    s1.advance c
  | _ => s.advance c

/-- A trap of a slot, or of the bundle itself, applied: of the slot's own work only what its rule leaves. -/
def State.trap (s rd : State) (c : Core) (x : Nat × Option Instr × Trap) : State :=
  match x.2.2, x.2.1 with
  | .after _ code d, some i => match slotAct i rd s with
    | .error (.after s' code' d') => s'.progFault c x.1 code' d'
    | _ => s.progFault c x.1 code d
  | .after _ code d, none => s.progFault c x.1 code d
  | .fault code d, _ => s.progFault c x.1 code d
  | .poison unit kind addr, _ => s.poisonStop c unit kind addr

/-- The slots of a bundle: the state they leave and the traps they raise. -/
def runSlots (rd : State) (slots : List (Nat × Option Instr)) (s : State) : State × List (Nat × Option Instr × Trap) :=
  slots.foldl (fun (a : State × List (Nat × Option Instr × Trap)) (x : Nat × Option Instr) =>
    match x.2 with
    | none => (a.1, a.2 ++ [(x.1, none, .fault 0x01 0)])
    | some i => match slotAct i rd a.1 with
      | .ok s1 => (s1, a.2)
      | .error e => (a.1, a.2 ++ [(x.1, x.2, e)])) (s, [])

/-- Whether another fallback region of core `c` begins at the bundle (10 R269): a check in its program store names it. -/
def otherRegion (s : State) (c : Core) (page : BitVec 3) (b : Nat) : Bool :=
  (s.cores.prog.filter (fun (e : Nat × MemWord) => e.1 / 8192 = c.val)).any (fun (e : Nat × MemWord) =>
    let w := (decodeWord e.2).w.data
    bitB w 15 && (match decodeSq c (bits w 255 208) with
      | some (.fbchk _ _ _ p k _) => p = page && k.toNat = b
      | _ => false))

/-- The work of a bundle at schedule position `pos` (10 R250): the SQ slot and the sequencer first, then the other slots, each of
which reads the state `rd` of before the cycle, and a bundle's cut finds what they quantise. With a trap there is no such work. -/
def bundleWork (rd : State) (c : Core) (pos : Nat) (slots : List (Nat × Option Instr)) (s : State) :
    State × List (Nat × Option Instr × Trap) :=
  let sq := slots.filter (fun x => x.1 = 4)
  let ctl := (sq.filterMap (·.2)).head?
  let q := seqOf rd c
  let a := runSlots rd sq s
  let k : State × List (Nat × Option Instr × Trap) := match controlAct ctl c pos (a.1.setSeq c { q with lastPos := pos + 1 }) with
    | .ok s1 => (s1, [])
    | .error e => (a.1, [(4, none, e)])
  let rd' := { rd with fabric := { rd.fabric with colls := a.1.fabric.colls } }
  let b := runSlots rd' (slots.filter (fun x => x.1 ≠ 4)) (k.1.setSeq c q)
  let stray := q.ret.isSome && decide (q.region ≠ some (q.page, q.bundle)) && otherRegion rd c q.page q.bundle
  let s2 := b.1.setSeq c (seqOf k.1 c)
  let t := tenNo rd c
  (if (s2.ten t).close.cut && !(rd.ten t).close.cut then s2.closeFlight t else s2,
    b.2 ++ a.2 ++ k.2 ++ (if stray then [(4, none, .fault 0x03 0)] else []))

/-- A bundle issues at schedule position `pos` (10 R248 to R254): every slot reads the state before the cycle, and with a
fault in any slot nothing of the others is written (R278); nor is anything in the cycle in which the tenancy stops, whose faults
count (R279). -/
def State.issue (s : State) (c : Core) (pos : Nat) : State :=
  let q := seqOf s c
  let g := decodeWord (memGet s.cores.prog (8192 * c.val + 1024 * q.page.toNat + q.bundle))
  let addr := phys s c * 2 ^ 18 + 1024 * q.page.toNat + q.bundle
  if isPoisoned g.w then
    { s with cores := { s.cores with prog := memPut s.cores.prog (8192 * c.val + 1024 * q.page.toNat + q.bundle) g.w } }.poisonStop c 9 2 addr
  else
    let s0 := if g.corrected then s.countTen (tenNo s c) 0x2048 1 else s
    let slots := decodeBundle c g.w.data
    let struck (u : State) : State := if slots.any (fun x => x.1 = 0) then u.strikeAccs c else u
    let w := bundleWork (struck s) c pos slots (struck s0)
    if w.2 = [] then (if stopping s c then s0 else w.1)
    else w.2.foldl (fun (u : State) x => u.trap (struck s) c x) (struck s0)

/-- The schedule position at which a core's next bundle issues. -/
def nextPos (s : State) (c : Core) : Nat :=
  let q := seqOf s c
  let w := (decodeWord (memGet s.cores.prog (8192 * c.val + 1024 * q.page.toNat + q.bundle))).w.data
  q.lastPos + deltaOf w - 1

/-- `BUNDLE_ISSUE` (10 R248): in its cycle, before the next course boundary. While a stall holds the schedule, or in the cycle in
which its tenancy stops, a core issues what its position has already come to (09 R220, 10 R278). -/
def execBundleIssue (c : Core) (s : State) : Answer :=
  let t := tenNo s c
  let pos := nextPos s c
  if !issues s c && !stopping s c then .next s
  else if pos ≤ schedPos s t then .next (s.issue c pos)
  else
    let v := tallyAt s t (pos - schedPos s t)
    if advancing s t && decide (v / 16384 ≤ s.time.lastCourse.getD 0) then
      let s1 := s.runTo v
      .next (if s1.now = v && (issues s1 c || stopping s1 c) then s1.issue c pos else s1)
    else .next s

/-- A control instruction issued alone, as in a bundle that holds nothing else. -/
def soloControl (c : Core) (i : Instr) (_rd s : State) : Res State :=
  controlAct (some i) c (schedPos s (tenNo s c)) s

/-- A close issued alone, with what it finds in flight. -/
def soloClose (c : Core) (take : BitVec 4) (rd s : State) : Res State := do
  let s1 ← scloseAct c take s
  let t := tenNo rd c
  return if (rd.ten t).close.cut then s1 else s1.closeFlight t

/-- `LOOP`. -/
def execLoop (c : Core) (n : BitVec 17) (l : BitVec 10) (s : State) : Answer := .next (slotOp c 4 (soloControl c (.loop c n l)) s s)

/-- `PJUMP`. -/
def execPjump (c : Core) (page : BitVec 3) (tag : BitVec 8) (s : State) : Answer :=
  .next (slotOp c 4 (soloControl c (.pjump c page tag)) s s)

/-- `CEND`. -/
def execCend (c : Core) (s : State) : Answer := .next (slotOp c 4 (soloControl c (.cend c)) s s)

/-- `FBCHK`. -/
def execFbchk (c : Core) (scope : BitVec 2) (check : BitVec 12) (page : BitVec 3) (bundle : BitVec 10) (tag : BitVec 8) (s : State) : Answer :=
  .next (slotOp c 4 (soloControl c (.fbchk c scope check page bundle tag)) s s)

/-- `FBRET`. -/
def execFbret (c : Core) (s : State) : Answer := .next (slotOp c 4 (soloControl c (.fbret c)) s s)

/-- `SCLOSE`. -/
def execSclose (c : Core) (take : BitVec 4) (s : State) : Answer := .next (slotOp c 4 (soloClose c take) s s)

/-- `SPHASE`. -/
def execSphase (c : Core) (tag : BitVec 16) (s : State) : Answer := .next (slotOp c 4 (fun _ u => sphaseAct c tag u) s s)

/-- `FSEND`. -/
def execFsend (c : Core) (chan : Chan) (axis : BitVec 2) (peer : BitVec 12) (s : State) : Answer :=
  .next (slotOp c 4 (fsendAct c chan axis peer) s s)

/-- `FWAIT`. -/
def execFwait (c : Core) (chan : Chan) (count : BitVec 16) (s : State) : Answer := .next (slotOp c 4 (fwaitAct c chan count) s s)

/-- `FCOLL`. -/
def execFcoll (c : Core) (chan : Chan) (axis : BitVec 2) (op : BitVec 4) (desc : BitVec 10) (s : State) : Answer :=
  .next (slotOp c 4 (fcollAct c chan axis op desc) s s)

end Sys2Proof.Machine
end

