-- ==== Sys2Proof/Machine/Transport.lean ====
section
/-! DEFINITION. What the fabric dies do with the frames of channels: data and collective parcels, acknowledgements, resends, the end of collectives (13 R343 to R352, 14 R368 to R384). -/

namespace Sys2Proof.Machine

open Sys2Proof

/-! ### Data parcels (13 R347, R350) -/

/-- A parcel's hallmark in its receive slot, checked as 12 R331 and R332 say, with POISON over a poisoned word (R319). -/
def State.landHall (s : State) (t ch a : Nat) (f : Frame) (ws : List MemWord) : State :=
  let c : Core := Fin.ofNat 64 (chanCore s t (chanRec s t ch))
  if f.hm then
    let crc := crcWords (ws.map (·.data))
    let miss := !hallNocrc f.hall && decide (hallCrc f.hall ≠ crc)
    let s1 := if hallNocrc f.hall then s.countCore c 0x230 1
      else if miss then
        (s.dayCore c 11 0x44 0 0 (phys s c * 2 ^ 18 + a) ((hallCrc f.hall).toNat + crc.toNat * 2 ^ 32)).countCore c 0x228 1
      else s
    s1.writeHall (.mbox c) a (if miss || ws.any isPoisoned then setPoison f.hall else f.hall)
  else
    (blocksOf ((upTo ws.length).map (a + ·))).foldl (fun (u : State) b =>
      let outs : List Out := ws.zipIdx.map (fun (w : MemWord × Nat) => ⟨a + w.2, w.1, 0, false, allBytes⟩)
      u.writeHall (.mbox c) (128 * b) (newHall (hallOf s (.mbox c) (128 * b)) 0xF 0 outs b)) s

/-- An accepted parcel written into its receive slot; a stopped tenancy takes it without a write. A wait that now has its
parcels ends. -/
def State.landParcel (s : State) (p : Port) (f : Frame) : State :=
  let t := f.ten.toNat
  let ch := f.chan.toNat
  let r := chanRec s t ch
  let d := s.decodePayload p f.payload
  let s0 := d.1
  if (s0.ten t).course.stopped then s0 else
    let c : Core := Fin.ofNat 64 (chanCore s t r)
    let k := chanOf s0 t ch
    let a := recRbase r + (k.written % recRslots r) * recWords r
    let ws := d.2.take (recWords r)
    let s1 := (ws.zipIdx.foldl (fun (u : State) (w : MemWord × Nat) => u.writeWord (.mbox c) (a + w.2) w.1) s0).landHall t ch a f ws
    let s2 := s1.modChan t ch (fun k => { k with written := k.written + 1 })
    s2.endStall t (fun x => match x with
      | .late _ n up => decide (n.toNat = ch) && decide (up ≤ k.written + 1)
      | _ => false)

/-- `DATA_PARCEL`. -/
def execDataParcel (p : Port) (f : Frame) (s : State) : Answer :=
  let t := f.ten.toNat
  let r := chanRec s t f.chan.toNat
  let g := s.receive p f (f.kind ≠ 0) (recValid r && decide (recRslots r ≠ 0) && decide (recvPeer s t r = f.src.toNat))
  .next (if g.2 then g.1.landParcel p f else g.1)

/-! ### Collectives -/

/-- Whether a chip can be a partner of a channel's collective: it differs from this one on the channel's axis alone. -/
def collPeer (s : State) (t ch src : Nat) : Bool :=
  inBox s t src && (if ch = 4094 then (upTo 4).any (fun k => onAxis s (myId s) src k)
    else recValid (chanRec s t ch) && onAxis s (myId s) src (recSaxis (chanRec s t ch)))

/-- `COLLECTIVE_PARCEL`. -/
def execCollectiveParcel (p : Port) (f : Frame) (s : State) : Answer :=
  let t := f.ten.toNat
  let ch := f.chan.toNat
  let h := (decodeWord (nth f.payload MemWord.zero 0)).w.data
  let n := if bits h 3 0 = 0 && bits h 5 4 = (1 : BitVec 2) then 96 else 64
  let g := s.receive p f (f.kind ≠ 8 || bits h 5 4 = (3 : BitVec 2) || f.payload.length ≠ n + 1) (collPeer s t ch f.src.toNat)
  if g.2 then
    let d := g.1.decodePayload p f.payload
    .next (if (d.1.ten t).course.stopped then d.1 else d.1.parcel t ch f d.2)
  else .next g.1

/-- The results of a collective taken: written out, and the `FWAIT` that waits for them ended (14 R368). -/
def State.completeColl (s : State) (t ch : Nat) (k : Coll) : State :=
  let s1 := s.writeResults t ch k
  match k.waitFrom with
  | none => s1
  | some _ =>
    let s2 := { s1 with fabric := { s1.fabric with colls := del s1.fabric.colls (chanKey t ch) } }
    s2.endStall t (fun x => match x with | .coll _ n => decide (n.toNat = ch) | _ => false)

/-- `COLLECTIVE_TIMEOUT` (14 R368): an `FWAIT` that has stalled for more than 16,384 courses. -/
def execCollectiveTimeout (t : Ten) (chan : Chan) (s : State) : Answer :=
  match collOf s t.val chan.toNat with
  | none => .next s
  | some k => match k.waitFrom with
    | none => .next s
    | some w => .next (((s.passTo (w + 16384 * 16384 + 1)).countTen t.val 0x2170 1).jobFatal t.val 5)

/-! ### Acknowledgements and resends (13 R347, R349, R351, R352) -/

/-- Whether a chip is the other end of a flow of a channel. -/
def flowPeerOk (s : State) (t ch src : Nat) : Bool :=
  if ch = 4095 then inBox s t src && decide (src ≠ myId s)
  else collPeer s t ch src || (recValid (chanRec s t ch) &&
    (decide (sendPeer s t (chanRec s t ch) = src) || decide (recvPeer s t (chanRec s t ch) = src)))

/-- `ACK_CREDIT`: an ack and credit frame. -/
def execAckCredit (p : Port) (f : Frame) (s : State) : Answer :=
  let g := s.checkFrame p f (f.kind ≠ 1 || f.payload ≠ []) (flowPeerOk s f.ten.toNat f.chan.toNat f.src.toNat)
  .next (if g.2 then g.1.takeBack f.ten.toNat f else g.1)

/-- An ack frame of a flow: what it owes, and the credits owed to the channel's sender. -/
def State.sendAck (s : State) (t ch peer : Nat) : State :=
  let rc := recvOf s t ch peer
  let r := chanRec s t ch
  let cr := if recValid r && decide (recvPeer s t r = peer) then min 128 (chanOf s t ch).owed else 0
  if !rc.owes && cr = 0 then s else
    let s1 := s.setRecv t ch peer { rc with owes := false }
    (if cr = 0 then s1 else s1.modChan t ch (fun k => { k with owed := k.owed - cr })).emitFrame rc.port
      { mkFrame s t 1 peer ch 0 rc.port [] with ack := rc.expected, ackv := rc.owes, credit := BitVec.ofNat 8 cr }

/-- The peers of a channel that have sent this chip a sequenced frame. -/
def recvPeers (s : State) (t ch : Nat) : List Nat :=
  (s.fabric.recvs.filter (fun (e : Nat × RecvFlow) => e.1 / 65536 = chanKey t ch)).map (fun (e : Nat × RecvFlow) => e.1 % 65536)

/-- `ACK_SEND`: the acknowledgements and credits of a channel that no other frame has carried. -/
def execAckSend (t : Ten) (chan : Chan) (s : State) : Answer :=
  .next ((recvPeers s t.val chan.toNat).foldl (fun (u : State) peer => u.sendAck t.val chan.toNat peer) s)

/-- `NAK` (13 R351). -/
def execNak (p : Port) (f : Frame) (s : State) : Answer :=
  let t := f.ten.toNat
  let ch := f.chan.toNat
  let peer := f.src.toNat
  let g := s.checkFrame p f (f.kind ≠ 2 || f.payload ≠ []) (flowPeerOk s t ch peer)
  if !g.2 then .next g.1 else
    match (sendOf g.1 t ch peer).held with
    | [] => .next (g.1.count (portOff p.val 0x40) 1)
    | o :: r =>
      let n := (f.ack - o.seq).toNat
      if n ≤ r.length then .next (g.1.goBack t ch peer n) else .next (g.1.count (portOff p.val 0x40) 1)

/-- RETRY_TMO in ticks, and the limits of R352; 0 acts as 1. -/
def retryTicks (s : State) : Nat := 256 * max 1 (bitsN s.fabric.cfg 52 45)
def retryPort (s : State) : Nat := max 1 (bitsN s.fabric.cfg 56 53)
def retryMax (s : State) : Nat := max 1 (bitsN s.fabric.cfg 62 57)

/-- The flow of a channel whose timer runs out first. -/
def oldestFlow (s : State) (t ch : Nat) : Option (Nat × SendFlow) :=
  ((s.fabric.sends.filter (fun (e : Nat × SendFlow) => e.1 / 65536 = chanKey t ch && e.2.held ≠ [])).foldl
    (fun (b : Option (Nat × SendFlow)) e => match b with
      | none => some e
      | some x => if e.2.advanced < x.2.advanced then some e else b) none).map (fun (e : Nat × SendFlow) => (e.1 % 65536, e.2))

/-- `RETRY_TIMEOUT`: the timer of the channel's flow that runs out first fires. -/
def execRetryTimeout (t : Ten) (chan : Chan) (s : State) : Answer :=
  let ch := chan.toNat
  match oldestFlow s t.val ch with
  | none => .next s
  | some (peer, fl) =>
    let s1 := s.passTo (fl.advanced + retryTicks s)
    let f1 : SendFlow := { fl with timeouts := fl.timeouts + 1, onPort := fl.onPort + 1, advanced := s1.now }
    let s2 := s1.setSend t.val ch peer f1
    if retryMax s ≤ f1.timeouts then .next (s2.jobFatal t.val 6)
    else if retryPort s ≤ f1.onPort then .next (s2.failOver t.val ch peer)
    else .next (s2.goBack t.val ch peer 0)

/-- `FCS_DROP` (13 R342): the receiving MAC drops a frame. -/
def execFcsDrop (p : Port) (s : State) : Answer := .next (s.count (portOff p.val 0x20) 1)

/-- `FOREIGN_FRAME` (13 Table 13.2). -/
def execForeignFrame (p : Port) (s : State) : Answer := .next (s.count (portOff p.val 0x38) 1)

/-- `PFC_FRAME` (13 Table 13.2): the classes the peer pauses from now. -/
def execPfcFrame (p : Port) (pause : BitVec 8) (s : State) : Answer :=
  .next ((s.count (portOff p.val 0x30) 1).modPort p (fun q => { q with paused := pause }))

/-- `BAD_HEADER` (13 R342, Table 13.7): a frame is received and discarded. -/
def execBadHeader (p : Port) (f : Frame) (s : State) : Answer :=
  .next (if (portOf s p).link then ((s.count (portOff p.val 0x08) 1).chargeFrame p f).count (portOff p.val 0x40) 1 else s)

end Sys2Proof.Machine
end

