-- ==== Sys2Proof/Machine/Escrow.lean ====
section
/-! DEFINITION. Escrow: the seal of a generation, page copies, the state pages, the stripe codes, the image, and the restore (16). -/

namespace Sys2Proof.Machine

open Sys2Proof

/-! ### Job header fields (16 Table 16.2) -/

def escGens (s : State) (t : Nat) : Nat := hdr s t 42 1
def stripeCode (s : State) (t : Nat) : Nat := hdr s t 43 1 % 4
def stripeAxis (s : State) (t : Nat) : Nat := hdr s t 43 1 / 4 % 4
def stripeLen (s : State) (t : Nat) : Nat := hdr s t 44 1

/-- Base and size, in words of the stack, of the job's escrow region (16 Table 16.2). -/
def escRegion (s : State) (t st : Nat) : Nat × Nat :=
  ((shareOf s t st).1 + 8192 * hdr s t (80 + 8 * st) 4, 8192 * hdr s t (84 + 8 * st) 4)

/-- The stack that holds header, directory and state pages: H0 of the tenancy's logical stacks (16 R427, 19 R510). -/
def homeStack (s : State) (t : Nat) : Nat := ((upTo 8).find? (fun st => decide ((shareOf s t st).2 ≠ 0))).getD 0

/-- Whether stripe groups form (16 R580). -/
def striped (s : State) (t : Nat) : Bool := decide (stripeCode s t ≠ 0) && decide (1 < boxN s t (stripeAxis s t))

/-! ### Groups and rows (16 R434) -/

/-- This chip's member number, and the identifier of a member of its group. -/
def memberNo (s : State) (t : Nat) : Nat := relCoord s t (myId s) (stripeAxis s t) % stripeLen s t
def memberId (s : State) (t q : Nat) : Nat :=
  let k := stripeAxis s t
  let rel := relCoord s t (myId s) k
  withCoord s (myId s) k (boxO s t k + (rel - rel % stripeLen s t + q))

/-- The members that hold a row's parity: P, and Q with Reed–Solomon. -/
def holdersOf (s : State) (t r : Nat) : List Nat :=
  let g := stripeLen s t
  if stripeCode s t = 2 then [r % g, (r + 1) % g] else [r % g]

/-- The data members of a row, in ascending number. -/
def dataMembers (s : State) (t r : Nat) : List Nat := (upTo (stripeLen s t)).filter (fun q => !(holdersOf s t r).contains q)

/-- Whether member `q` is a data member of row `r`, and its data index there. -/
def isDataMember (s : State) (t q r : Nat) : Bool := !(holdersOf s t r).contains q
def dataIndex (s : State) (t q r : Nat) : Nat := ((dataMembers s t r).filter (fun x => x < q)).length

/-- The row of a member's page: the one of that number in which it is a data member. -/
def rowOfPage (s : State) (t q m : Nat) : Nat :=
  let g := stripeLen s t
  let rs := (upTo g).filter (fun r => isDataMember s t q r)
  g * (m / rs.length) + nth rs 0 (m % rs.length)

/-- The page of a member in a row in which it is a data member. -/
def pageOfRow (s : State) (t q r : Nat) : Nat :=
  let g := stripeLen s t
  let rs := (upTo g).filter (fun x => isDataMember s t q x)
  r / g * rs.length + (rs.filter (fun x => x < r % g)).length

/-! ### Pages and slots (16 R427, R438) -/

/-- State pages: ledger entries, region records and slot table, to a whole page (16 R440). -/
def statePages (s : State) (t : Nat) : Nat := ceilDiv (8 * (partOf s t 0).2 + 8 * (partOf s t 1).2 + 4096) 65536

/-- Pages of this chip, state pages included. -/
def allPages (s : State) (t : Nat) : Nat := dataPages s t + statePages s t

/-- Pages of member `q` of this chip's group: what the loader gives of the others. -/
def pagesOf (s : State) (t q : Nat) : Nat := if q = memberNo s t then allPages s t else Config.groupPages t q

/-- Rows of the group: up to the last that holds a real page. -/
def rowCount (s : State) (t : Nat) : Nat :=
  if striped s t then
    (upTo (stripeLen s t)).foldl (fun n q => if pagesOf s t q = 0 then n else max n (rowOfPage s t q (pagesOf s t q - 1) + 1)) 0
  else 0

/-- The rows whose parity this chip holds. -/
def heldRows (s : State) (t : Nat) : List Nat := (upTo (rowCount s t)).filter (fun r => (holdersOf s t r).contains (memberNo s t))

/-- The stacks that have an escrow region. -/
def escStacks (s : State) (t : Nat) : List Nat := (upTo 8).filter (fun st => (escRegion s t st).2 ≠ 0)

/-- The stack of the `i`-th parity page that this chip holds. -/
def parityStack (s : State) (t i : Nat) : Nat := let l := escStacks s t; nth l 0 (i % l.length)

/-- Words of a slot's header and directory on H0, in whole pages, and then of its state pages. -/
def slotHead (s : State) (t : Nat) : Nat := 2048 * ceilDiv (128 + 8 * (allPages s t + (heldRows s t).length)) 2048
def slotState (s : State) (t : Nat) : Nat := 2048 * statePages s t

/-- Data pages of the tenancy on a stack. -/
def stackPages (s : State) (t st : Nat) : Nat := pagesBefore s t 64 (some st)

/-- The stack and index on it of data page `m`. -/
def placeOfPage (s : State) (t m : Nat) : Nat × Nat :=
  match pageRec (escRecords s t) m with
  | some r => let st := bitsN r.2.1 34 32; (st, pagesBefore s t r.1 (some st) + r.2.2)
  | none => (0, 0)

/-- The HBM key of word 0 of a slot on a stack. -/
def slotKey (s : State) (t st slot : Nat) : Nat :=
  let r := escRegion s t st
  stackWords * st + r.1 + slot * (r.2 / max 1 (escGens s t) / 2048 * 2048)

/-- The HBM key of page `m` in a generation slot: a data page, or a state page on H0. -/
def slotPageKey (s : State) (t slot m : Nat) : Nat :=
  if m < dataPages s t then
    let p := placeOfPage s t m
    slotKey s t p.1 slot + slotHead s t + slotState s t + 2048 * p.2
  else slotKey s t (homeStack s t) slot + slotHead s t + 2048 * (m - dataPages s t)

/-- The HBM key of the `i`-th parity page in a generation slot. -/
def slotParityKey (s : State) (t slot i : Nat) : Nat :=
  let l := escStacks s t
  let st := parityStack s t i
  slotKey s t st slot + slotHead s t + slotState s t + 2048 * (stackPages s t st + i / l.length)

/-- The stack a page lies on. -/
def stackOfPage (s : State) (t m : Nat) : Nat := if m < dataPages s t then (placeOfPage s t m).1 else homeStack s t

/-! ### Page contents -/

/-- A page's 16 blocks: their words and hallmark words, as they lie. -/
structure PageImage where
  words : List MemWord
  halls : List MemWord

def readPage (s : State) (k : Nat) : PageImage :=
  ⟨(upTo 2048).map (fun i => rawWord s .hbm (k + i)), (upTo 16).map (fun b => rawWord s .hbm (hallWord (k + 128 * b)))⟩

/-- A page written with its hallmarks, check bits carried (12 R304, 16 R429). -/
def State.writePage (s : State) (k : Nat) (p : PageImage) : State :=
  let s1 := p.words.zipIdx.foldl (fun (u : State) (w : MemWord × Nat) => u.writeWord .hbm (k + w.2) w.1) s
  p.halls.zipIdx.foldl (fun (u : State) (w : MemWord × Nat) => u.writeWord .hbm (hallWord (k + 128 * w.2)) w.1) s1

/-- A clean block written with a hallmark of its own, FMT 0xF. -/
def State.writePlainBlock (s : State) (k : Nat) (ds : List (BitVec 256)) : State :=
  let s1 := ds.zipIdx.foldl (fun (u : State) (d : BitVec 256 × Nat) => u.writeWord .hbm (k + d.2) (MemWord.clean d.1)) s
  let all := (upTo 128).map (fun i => (rawWord s1 .hbm (k / 128 * 128 + i)).data)
  s1.writeHall .hbm k (mkHall (crcWords all) 0 0xF false false false 0)

/-- The energy and grants of a page moved within a stack for requester `r`: `n` pages read and `m` written (17 R447, 18 R496). -/
def State.chargePages (s : State) (t st r n m : Nat) : State :=
  s.charge (some t) (eventEnergy s 12 (2064 * n) + eventEnergy s 13 (2064 * m)) [stackOff st 0x28, chipOff (0x100 + 8 * r)]

/-! ### Generations -/

def State.modGens (s : State) (t : Nat) (f : List Generation → List Generation) : State :=
  s.modTen t (fun n => { n with escrow := { n.escrow with gens := f n.escrow.gens } })

def State.modGen (s : State) (t : Nat) (step : BitVec 32) (f : Generation → Generation) : State :=
  s.modGens t (fun gs => gs.map (fun g => if g.step = step then f g else g))

def genOf (s : State) (t : Nat) (step : BitVec 32) : Option Generation := (s.ten t).escrow.gens.find? (fun g => g.step = step)

/-- Pages of member `q` whose rows this chip holds parity of: the contributions it waits for. -/
def duePages (s : State) (t q : Nat) : List Nat :=
  ((heldRows s t).filter (fun r => isDataMember s t q r && decide (pageOfRow s t q r < pagesOf s t q))).map (fun r => pageOfRow s t q r)

/-- Whether every parity page that this chip holds is complete (16 R436). -/
def Generation.parityDone (g : Generation) (s : State) (t : Nat) : Bool :=
  !striped s t || (upTo (stripeLen s t)).all (fun q => q = memberNo s t || decide (look g.folded 0 q = 16 * (duePages s t q).length))

/-- Whether every page is copied. -/
def Generation.copied (g : Generation) (s : State) (t : Nat) : Bool := (upTo (allPages s t)).all (fun m => !g.sealedPage m)

/-- Whether a generation is protected on this chip (16 R436, R580). -/
def Generation.prot (g : Generation) (s : State) (t : Nat) : Bool :=
  (upTo (allPages s t)).all (fun m => decide (find g.pages m = some .protected_)) && g.parityDone s t && g.written

/-! ### Header and directory (16 R439, Tables 16.4, 16.5) -/

/-- A number laid out little-endian at a byte offset. -/
def atByte (off v : Nat) : Nat := v * 2 ^ (8 * off)

/-- The header block's words. -/
def headerWords (s : State) (t : Nat) (g : Generation) : List (BitVec 256) :=
  let ax := (upTo 4).foldl (fun n k => n + atByte (18 + 2 * k) (boxN s t k) + atByte (26 + 2 * k) (boxO s t k)) 0
  let n := atByte 0 0x454E5745 + atByte 4 1 + atByte 6 t + atByte 8 g.step.toNat + atByte 12 g.epoch.toNat + atByte 16 (myId s) + ax
    + atByte 34 (hdr s t 8 8) + atByte 42 g.seed.toNat + atByte 50 g.pos.entry + atByte 52 g.pos.rep + atByte 54 g.course
    + atByte 62 g.cautious.toNat + atByte 66 (stripeCode s t) + atByte 67 (stripeAxis s t) + atByte 68 (stripeLen s t)
    + atByte 69 (if striped s t then memberNo s t else 0) + atByte 70 (allPages s t) + atByte 74 (heldRows s t).length
    + atByte 78 (statePages s t)
  let m := n + atByte 82 (crc64 (leBytes 82 n)).toNat
  (upTo 128).map (fun i => BitVec.ofNat 256 (m / 2 ^ (256 * i)))

/-- A page's bytes: data, then hallmarks. -/
def pageBytes (p : PageImage) : List (BitVec 8) :=
  p.words.flatMap (fun w => wordBytes w.data) ++ p.halls.flatMap (fun w => leBytes 8 (w.data.setWidth 64).toNat)

/-- A directory record's words. -/
def dirWords (kind stack record index off : Nat) (crc : BitVec 64) (hpar : List (BitVec 64)) : List (BitVec 256) :=
  let n := atByte 0 kind + atByte 1 stack + atByte 2 record + atByte 4 index + atByte 8 off + atByte 16 crc.toNat
    + hpar.zipIdx.foldl (fun a (h : BitVec 64 × Nat) => a + atByte (24 + 8 * h.2) h.1.toNat) 0
  (upTo 8).map (fun i => BitVec.ofNat 256 (n / 2 ^ (256 * i)))

/-- The directory of a generation: data and state pages in page order, then parity pages in row order. -/
def dirOf (s : State) (t : Nat) (g : Generation) : List (BitVec 256) :=
  let base (st : Nat) : Nat := slotKey s t st g.slot
  let data := (upTo (allPages s t)).flatMap (fun m =>
    let k := slotPageKey s t g.slot m
    let st := stackOfPage s t m
    let crc := crc64 (pageBytes (readPage s k))
    if m < dataPages s t then
      match pageRec (escRecords s t) m with
      | some r => dirWords 0 st r.1 r.2.2 (k - base st) crc []
      | none => []
    else dirWords 1 st 0xFF (m - dataPages s t) (k - base st) crc [])
  let par := (heldRows s t).zipIdx.flatMap (fun (r : Nat × Nat) =>
    let k := slotParityKey s t g.slot r.2
    let st := parityStack s t r.2
    let kind := if (holdersOf s t r.1).head? = some (memberNo s t) then 2 else 3
    dirWords kind st 0xFF r.1 (k - base st) (crc64 (pageBytes (readPage s k))) ((upTo 16).map (fun b => look g.hpar 0 (16 * r.1 + b))))
  data ++ par

/-- Header and directory written once every page is copied and every parity page complete. -/
def State.finishGen (s : State) (t : Nat) (step : BitVec 32) : State :=
  match genOf s t step with
  | none => s
  | some g =>
    if g.written || !g.copied s t || !g.parityDone s t then s else
      let k := slotKey s t (homeStack s t) g.slot
      let ws := headerWords s t g ++ dirOf s t g
      let s1 := ((chunks 128 ws).zipIdx).foldl (fun (u : State) (b : List (BitVec 256) × Nat) => u.writePlainBlock (k + 128 * b.2) b.1) s
      s1.modGen t step (fun g => { g with written := true })

/-- A page of a generation COPIED; without stripe groups it is PROTECTED with it (16 R580). -/
def State.markCopied (s : State) (t : Nat) (step : BitVec 32) (m : Nat) : State :=
  let st : PageSt := if striped s t then .copied else .protected_
  (s.modGen t step (fun g => { g with pages := set g.pages m st })).finishGen t step

/-! ### Copies (16 R429 to R432) -/

/-- The first data page of a stack that is SEALED for a kept generation, in escrow order. -/
def firstSealed (s : State) (t st : Nat) : Option Nat :=
  (upTo (dataPages s t)).find? (fun m => decide ((placeOfPage s t m).1 = st) && decide (sealedFor s t m ≠ []))

/-- A copy started on a stack, unless one runs there. -/
def State.startCopy (s : State) (t st m cause : Nat) : State :=
  s.modTen t (fun n => { n with escrow := n.escrow.start st m cause })

/-- `ESCROW_WINDOW_COPY` (16 R429): an escrow window of the stack. -/
def execEscrowWindowCopy (t : Ten) (st : Stack) (s : State) : Answer :=
  match firstSealed s t.val st.val with
  | some m => .next (s.startCopy t.val st.val m 0)
  | none => .next s

/-- The writes held for a page issue, and the schedule goes on (16 R430, R431). -/
def State.releaseHeld (s : State) (t st m : Nat) : State :=
  let hs := (s.ten t).escrow.held.filter (fun h => h.page = m)
  let s1 := hs.foldl (fun (u : State) h => h.words.foldl (fun (v : State) w => v.writeWord .hbm w.1 w.2) u) s
  let s2 := s1.modTen t (fun n => { n with escrow := { n.escrow with held := n.escrow.held.filter (fun h => h.page ≠ m) } })
  s2.endStall t (fun x => match x with | .escrow a b => decide (a = st) && decide (b = m) | _ => false)

/-- `ESCROW_COPY_DONE`: the copy that runs on the stack writes its last word. The next held page's copy begins. -/
def execEscrowCopyDone (t : Ten) (st : Stack) (s : State) : Answer :=
  match find (s.ten t.val).escrow.copying st.val with
  | none => .next s
  | some (m, cause, steps) =>
    match pageKey s t.val m with
    | none => .next s
    | some k =>
      let img := readPage s k
      let live := steps.filter (fun x => (genOf s t.val x).isSome)
      let s1 := live.foldl (fun (u : State) x => match genOf u t.val x with
        | some g => (u.writePage (slotPageKey u t.val g.slot m) img).markCopied t.val x m
        | none => u) (s.chargePages t.val st.val 1 1 live.length)
      let s2 := if cause = 0 then s1.countTen t.val 0x2208 1 else if cause = 1 then s1.countTen t.val 0x2210 1 else s1
      let s3 := s2.modTen t.val (fun n => { n with escrow := { n.escrow with copying := del n.escrow.copying st.val } })
      let s4 := if sealedFor s3 t.val m = [] then s3.releaseHeld t.val st.val m else s3
      match (((s4.ten t.val).escrow.held.filter (fun h => h.stack = st.val && h.fore)).map (·.page)).mergeSort (· ≤ ·) with
      | p :: _ => .next (s4.startCopy t.val st.val p 2)
      | [] => .next s4

/-! ### State pages (16 R438, R440) -/

/-- The content of the state pages. -/
def stateWords (s : State) (t : Nat) (g : Generation) : List (BitVec 256) :=
  let led := (upTo (partOf s t 0).2).map (fun i =>
    ((look s.stores.ledger {} ((partOf s t 0).1 + i)).data &&& ~~~0x0A00_FF00_0000_FF00#64).toNat)
  let regs := (upTo (partOf s t 1).2).map (fun i => (look s.stores.regions 0 ((partOf s t 1).1 + i)).toNat)
  let n := (led ++ regs).foldr (fun v acc => acc * 2 ^ 64 + v) 0
  let tab := (upTo 128).foldr (fun i acc => acc * 2 ^ 256 + (look g.slots 0 i).toNat) 0
  let all := n + tab * 2 ^ (64 * (led.length + regs.length))
  (upTo (2048 * statePages s t)).map (fun i => BitVec.ofNat 256 (all / 2 ^ (256 * i)))

/-- `STATE_PAGES_WRITTEN`: the state pages of the newest generation that lacks them, in its slot; a take that waits for them
goes on. -/
def State.writeState (s : State) (t : Nat) : State :=
  match ((s.ten t).escrow.gens.filter (fun g => !g.stateDone)).getLast? with
  | none => s
  | some g =>
    let k := slotPageKey s t g.slot (dataPages s t)
    let s1 := ((chunks 128 (stateWords s t g)).zipIdx).foldl (fun (u : State) (b : List (BitVec 256) × Nat) => u.writePlainBlock (k + 128 * b.2) b.1) s
    let s2 := s1.modGen t g.step (fun g => { g with stateDone := true })
    (upTo (statePages s t)).foldl (fun (u : State) i => u.markCopied t g.step (dataPages s t + i)) s2

/-! ### Stripe codes (16 R434 to R437) -/

/-- One byte times x in GF(2⁸) with 0x11D, and times gⁿ. -/
def gfX (b : BitVec 8) : BitVec 8 := if b.getLsbD 7 then (b <<< 1) ^^^ 0x1D else b <<< 1
def gfPow (n : Nat) (b : BitVec 8) : BitVec 8 := (upTo n).foldl (fun x _ => gfX x) b

/-- A product in GF(2⁸), and an inverse: a²⁵⁴. -/
def gfMul (a b : BitVec 8) : BitVec 8 := (upTo 8).foldl (fun x i => if b.getLsbD i then x ^^^ gfPow i a else x) 0
def gfInv (a : BitVec 8) : BitVec 8 := (upTo 253).foldl (fun x _ => gfMul x a) a

/-- Every byte of a word times a constant. -/
def scaleBytes {n : Nat} (k : BitVec 8) (d : BitVec n) : BitVec n :=
  BitVec.ofNat n ((upTo (n / 8)).foldr (fun i acc => acc * 256 + (gfMul k (d.extractLsb' (8 * i) 8)).toNat) 0)

/-- gⁿ, for n modulo 255. -/
def gfG (n : Nat) : BitVec 8 := gfPow (n % 255) 1

/-- The port that a page travels on (16 R433). -/
def escPort (s : State) (t m : Nat) : Port := let ps := axisPorts s t (stripeAxis s t); nth ps 0 (m % ps.length)

/-- A page sent to a member as 16 parcels with hallmarks on channel 4,093, each byte times gⁱ. -/
def State.sendPage (s : State) (t q m : Nat) (k : BitVec 8) (p : PageImage) : State :=
  (upTo 16).foldl (fun (u : State) b =>
    let ws := ((p.words.drop (128 * b)).take 128).map (fun w => ({ w with data := scaleBytes k w.data } : MemWord))
    let h : BitVec 64 := (nth p.halls MemWord.zero b).data.setWidth 64
    u.push t 4093 (memberId s t q) (.frame { mkFrame s t 0 (memberId s t q) 4093 0 (escPort s t m) ws with hm := true, hall := scaleBytes k h })) s

/-- The lost members of this chip's group, of which it is none, that a restore-mode load rebuilds (16 R443). -/
def lostMembers (s : State) (t : Nat) : List Nat :=
  if hdr s t 7 1 = 1 && striped s t then (upTo (stripeLen s t)).filter (fun q => q ≠ memberNo s t && Config.lostMember t q) else []

/-- The rows that a rebuild touches, each with the lost member. -/
def rebuildSends (s : State) (t : Nat) : List (Nat × Nat) :=
  (upTo (rowCount s t)).flatMap (fun r => (lostMembers s t).map (fun q => (r, q)))

/-- This chip's page of a row: its data page, or the parity page that it holds. -/
def rowPage (s : State) (t slot r : Nat) : PageImage :=
  if isDataMember s t (memberNo s t) r then
    let m := pageOfRow s t (memberNo s t) r
    if m < allPages s t then readPage s (slotPageKey s t slot m) else ⟨List.replicate 2048 MemWord.zero, List.replicate 16 MemWord.zero⟩
  else readPage s (slotParityKey s t slot ((heldRows s t).filter (fun x => x < r)).length)

/-- The first page of a stack that a generation still has SEALED, and whether it has one yet to send from there. -/
def Generation.toCopy (g : Generation) (s : State) (t st : Nat) : Option Nat :=
  (upTo (dataPages s t)).find? (fun m => decide ((placeOfPage s t m).1 = st) && g.sealedPage m)
def Generation.toSend (g : Generation) (s : State) (t st : Nat) : Bool :=
  striped s t && (upTo (allPages s t)).any (fun m => decide (g.sent ≤ m) && decide (stackOfPage s t m = st))

/-- The next page of a generation sent to its holders: from this stack, once it is COPIED and no older generation has sends left. -/
def State.sendNext (s : State) (t st : Nat) (g : Generation) : State :=
  let m := g.sent
  let oldest := ((s.ten t).escrow.gens.find? (fun x => decide (x.sent < allPages s t))).map (·.step)
  if oldest = some g.step && stackOfPage s t m = st && decide (find g.pages m = some .copied) then
    let q := memberNo s t
    let r := rowOfPage s t q m
    let img := readPage s (slotPageKey s t g.slot m)
    let s1 := (holdersOf s t r).zipIdx.foldl (fun (u : State) (h : Nat × Nat) =>
      u.sendPage t h.1 m (if h.2 = 0 then 1 else gfG (dataIndex s t q r)) img)
      (s.chargePages t st 1 1 0)
    (s1.countTen t 0x2220 1).modGen t g.step (fun g => { g with sent := g.sent + 1 })
  else s

/-- `ESCROW_DRAIN` (16 R432): of the oldest generation with work left on the stack, the copy of its next SEALED page or, with
none left, its next page's sends, in page order. In a restore-mode load the pages of the affected rows go to the members that
are rebuilt. -/
def execEscrowDrain (t : Ten) (st : Stack) (s : State) : Answer :=
  let lost := rebuildSends s t.val
  match (s.ten t.val).load.st, (s.ten t.val).escrow.gens with
  | .loaded, g :: _ =>
    match lost.drop g.rebuilt with
    | (r, q) :: _ =>
      if g.rebuild then .next s
      else .next (((s.sendPage t.val q r 1 (rowPage s t.val g.slot r)).countTen t.val 0x2220 1).modGen t.val g.step
        (fun g => { g with rebuilt := g.rebuilt + 1 }))
    | [] => .next s
  | _, gs =>
    match gs.find? (fun g => (g.toCopy s t.val st.val).isSome || g.toSend s t.val st.val) with
    | none => .next s
    | some g =>
      match g.toCopy s t.val st.val with
      | some m => .next (s.startCopy t.val st.val m 1)
      | none => .next (s.sendNext t.val st.val g)

/-- A contribution's block folded into a parity page: the first is written, a later one combined (16 R435). -/
def State.foldBlock (s : State) (t : Nat) (g : Generation) (r i b : Nat) (ws : List (BitVec 256)) (po : Bool) (h : BitVec 64) : State :=
  let k := slotParityKey s t g.slot i + 128 * b
  let first := (find g.hpar (16 * r + b)).isNone
  let s1 := ws.zipIdx.foldl (fun (u : State) (w : BitVec 256 × Nat) =>
    let old := readWord u .hbm (k + w.2)
    u.writeWord .hbm (k + w.2) (if first then wordOf w.1 po else wordOf (old.data ^^^ w.1) (po || isPoisoned old))) s
  let all := (upTo 128).map (fun i => readWord s1 .hbm (k + i))
  let s2 := s1.writeHall .hbm k (mkHall (crcWords (all.map (·.data))) 0 0xF (all.any isPoisoned) false false 0)
  s2.modGen t g.step (fun g => { g with hpar := set g.hpar (16 * r + b) (look g.hpar 0 (16 * r + b) ^^^ h) })

/-- The acceptance of a page, sent to its member: one word, the page in bits [63:32] and the step of its generation below. -/
def State.sendAccept (s : State) (t q m : Nat) (step : BitVec 32) : State :=
  s.push t 4093 (memberId s t q) (.frame (mkFrame s t 0 (memberId s t q) 4093 0 (escPort s t m)
    [MemWord.clean (BitVec.ofNat 256 (step.toNat + m * 2 ^ 32))]))

/-! ### Rebuilding (16 R437, R443) -/

/-- The members that send this chip their page of a row in a rebuild. -/
def senders (s : State) (t : Nat) : List Nat :=
  (upTo (stripeLen s t)).filter (fun q => q ≠ memberNo s t && !Config.lostMember t q)

/-- Two blocks' bytes combined. -/
def xorBlock (a b : List (BitVec 256) × BitVec 64) : List (BitVec 256) × BitVec 64 :=
  ((a.1.zip b.1).map (fun x => x.1 ^^^ x.2), a.2 ^^^ b.2)
def scaleBlock (k : BitVec 8) (a : List (BitVec 256) × BitVec 64) : List (BitVec 256) × BitVec 64 := (a.1.map (scaleBytes k), scaleBytes k a.2)

/-- A block of this chip's page of a row from the survivors' blocks `x` by member (16 R437). -/
def rebuildBlock (s : State) (t r : Nat) (x : Nat → List (BitVec 256) × BitVec 64) : List (BitVec 256) × BitVec 64 :=
  let me := memberNo s t
  let zero : List (BitVec 256) × BitVec 64 := (List.replicate 128 0, 0)
  let ss := senders s t
  let hs := holdersOf s t r
  let hP := nth hs 0 0
  let hQ := nth hs 0 1
  let ds := (dataMembers s t r).filter (fun q => ss.contains q)
  let sum (f : Nat → List (BitVec 256) × BitVec 64) (l : List Nat) : List (BitVec 256) × BitVec 64 := l.foldl (fun a q => xorBlock a (f q)) zero
  let gd (q : Nat) : List (BitVec 256) × BitVec 64 := scaleBlock (gfG (dataIndex s t q r)) (x q)
  let P' := xorBlock (x hP) (sum x ds)
  let Q' := xorBlock (x hQ) (sum gd ds)
  let gone := (dataMembers s t r).filter (fun q => q ≠ me && !ss.contains q)
  if isDataMember s t me r then
    let a := dataIndex s t me r
    match gone with
    | b :: _ =>
      let j := dataIndex s t b r
      let lo := min a j
      let hi := max a j
      let den := gfInv (gfG (hi - lo) ^^^ 1)
      let dlo := scaleBlock den (xorBlock (scaleBlock (gfG (hi - lo)) P') (scaleBlock (gfInv (gfG lo)) Q'))
      if a = lo then dlo else xorBlock P' dlo
    | [] => if ss.contains hP then P' else scaleBlock (gfInv (gfG a)) Q'
  else
    let lostD := match gone with
      | b :: _ => if me = hP then [(b, scaleBlock (gfInv (gfG (dataIndex s t b r))) Q')] else [(b, P')]
      | [] => []
    let full (q : Nat) : List (BitVec 256) × BitVec 64 := match lostD.find? (fun (e : Nat × (List (BitVec 256) × BitVec 64)) => e.1 = q) with
      | some e => e.2
      | none => x q
    let one (q : Nat) : List (BitVec 256) × BitVec 64 :=
      if me = hP then full q else scaleBlock (gfG (dataIndex s t q r)) (full q)
    sum one (dataMembers s t r)

/-- A survivor's block of a row taken in a rebuild; with the last of them this chip's own block is rebuilt into the slot. -/
def State.takeRebuild (s : State) (t : Nat) (g : Generation) (q : Nat) (ws : List (BitVec 256)) (h : BitVec 64) : State :=
  let n := look g.folded 0 q
  let r := n / 16
  let b := n % 16
  let key (q : Nat) : Nat := 1024 * r + 16 * q + b
  let parts := set g.parts (key q) (ws, h)
  let g1 : Generation := { g with parts := parts, folded := set g.folded q (n + 1) }
  if (senders s t).all (fun q => (find parts (key q)).isSome) then
    let own := rebuildBlock s t r (fun q => look parts ([], 0) (key q))
    let g2 : Generation := { g1 with parts := (senders s t).foldl (fun m q => del m (key q)) parts }
    if isDataMember s t (memberNo s t) r then
      let m := pageOfRow s t (memberNo s t) r
      let s1 := s.modGen t g.step (fun _ => if b = 15 then { g2 with pages := set g2.pages m .protected_ } else g2)
      if m < allPages s t then
        let k := slotPageKey s t g.slot m + 128 * b
        let s2 := own.1.zipIdx.foldl (fun (u : State) (w : BitVec 256 × Nat) => u.writeWord .hbm (k + w.2) (MemWord.clean w.1)) s1
        s2.writeWord .hbm (hallWord k) (MemWord.clean (own.2.setWidth 256))
      else s1
    else
      (s.modGen t g.step (fun _ => g2)).foldBlock t { g2 with hpar := [] } r ((heldRows s t).filter (fun x => x < r)).length b own.1 false own.2
  else s.modGen t g.step (fun _ => g1)

/-- Whether a chip is a member of this chip's group. -/
def groupMember (s : State) (t src : Nat) : Option Nat :=
  if striped s t then (upTo (stripeLen s t)).find? (fun q => q ≠ memberNo s t && decide (memberId s t q = src)) else none

/-- A contribution's block from a member: the next one that it owes this chip, in the order of its pages and of the kept
generations. One of a generation that this chip has yet to seal waits for the seal. -/
def State.takePart (s : State) (t : Nat) (f : Frame) : State :=
  let q := (groupMember s t f.src.toNat).getD 0
  let po := f.payload.any isPoisoned
  let ws := f.payload.map (·.data)
  match (s.ten t).escrow.gens.find? (fun g => g.rebuild || decide (look g.folded 0 q < 16 * (duePages s t q).length)) with
  | none => s.modChan t 4093 (fun k => { k with early := k.early ++ [f] })
  | some gen =>
    if gen.rebuild then s.takeRebuild t gen q ws f.hall else
      let n := look gen.folded 0 q
      let m := nth (duePages s t q) 0 (n / 16)
      let r := rowOfPage s t q m
      let i := ((heldRows s t).filter (fun x => x < r)).length
      let s1 := (s.foldBlock t gen r i (n % 16) ws po f.hall).charge (some t)
        (eventEnergy s 12 129 + eventEnergy s 13 129) [stackOff (parityStack s t i) 0x28, chipOff (0x100 + 8 * 2)]
      let s2 := s1.modGen t gen.step (fun g => { g with folded := set g.folded q (n + 1) })
      if n % 16 = 15 then ((s2.countTen t 0x2228 1).sendAccept t q m gen.step).finishGen t gen.step else s2

/-- `ESCROW_PARITY_PARCEL` (16 R435 to R437). -/
def execEscrowParityParcel (p : Port) (f : Frame) (s : State) : Answer :=
  let t := f.ten.toNat
  let g := s.receive p f (f.kind ≠ 0 || f.chan ≠ 4093 || !f.hm || f.payload.length ≠ 128) (groupMember s t f.src.toNat).isSome
  if !g.2 then .next g.1 else
    let d := g.1.decodePayload p f.payload
    .next (d.1.takePart t { f with payload := d.2 })

/-- The contributions that came before the seal, taken with it. -/
def State.takeParts (s : State) (t : Nat) : State :=
  (chanOf s t 4093).early.foldl (fun (u : State) f => u.takePart t f) (s.modChan t 4093 (fun k => { k with early := [] }))

/-- `ESCROW_ACCEPT` (16 R436): a holder has accepted a page's contribution. -/
def execEscrowAccept (p : Port) (f : Frame) (s : State) : Answer :=
  let t := f.ten.toNat
  let g := s.receive p f (f.kind ≠ 0 || f.chan ≠ 4093 || f.hm || f.payload.length ≠ 1) (groupMember s t f.src.toNat).isSome
  if !g.2 then .next g.1 else
    let d := g.1.decodePayload p f.payload
    let w := word0 d.2
    let m := bitsN w 63 32
    let step : BitVec 32 := bits w 31 0
    let r := rowOfPage d.1 t (memberNo d.1 t) m
    .next ((d.1.modGen t step (fun g =>
      let a := look g.acks 0 m + 1
      { g with acks := set g.acks m a
               pages := if (holdersOf d.1 t r).length ≤ a && decide (find g.pages m = some .copied) then set g.pages m .protected_ else g.pages })).finishGen t step)

/-! ### The seal (16 R424, R426) -/

/-- Generation `step` sealed: the state buffer latched at the take, or launch, of course `c`; `pos` is the position that runs. -/
def State.sealGen (s : State) (t : Nat) (pos : CoursePos) (c : Nat) : State :=
  if escInterval s t = 0 then s else
    let n := s.ten t
    let gs := n.escrow.gens
    let full := decide (escGens s t ≤ gs.length)
    let s1 := match gs with
      | g :: _ => if full && !g.prot s t then s.countTen t 0x2230 1 else s
      | [] => s
    let kept := if full then gs.drop 1 else gs
    let used := kept.map (·.slot)
    let slot := ((upTo (escGens s t)).find? (fun i => !used.contains i)).getD 0
    let g : Generation := { step := n.steps.step, slot := slot, slots := n.steps.live, seed := n.steps.seed, pos := pos, course := c,
                            cautious := n.steps.cautious, cautOn := n.steps.cautOn, epoch := n.recov.epoch }
    (((s1.modGens t (fun _ => kept ++ [g])).countTen t 0x2200 1).finishGen t n.steps.step).takeParts t

/-! ### Restore (16 R441, R442) -/

/-- Words of the state pages read back from a generation slot. -/
def slotStateWord (s : State) (t slot i : Nat) : BitVec 256 := (readWord s .hbm (slotPageKey s t slot (dataPages s t) + i)).data

/-- The ledger entries of a generation: from its state pages, or the entries as they stand where those are not written. -/
def State.restoreLedger (s : State) (t : Nat) (g : Generation) : State :=
  let p := partOf s t 0
  (upTo p.2).foldl (fun (u : State) i =>
    let d : BitVec 64 := if g.stateDone then BitVec.ofNat 64 (elemOf 64 (i % 4) (slotStateWord s t g.slot (i / 4)))
      else (look s.stores.ledger {} (p.1 + i)).data &&& ~~~0x0A00_FF00_0000_FF00#64
    { u with stores := { u.stores with ledger := put {} u.stores.ledger (p.1 + i) ⟨d, .clean⟩ } }) s

/-- Every watch entry of a tenancy cleared. -/
def State.clearWatches (s : State) (t : Nat) : State :=
  { s with stores := { s.stores with watches := clearRange s.stores.watches (partOf s t 7).1 (partOf s t 7).2 } }

/-- A generation restored (16 R442). -/
def State.restoreGen (s : State) (t : Nat) (g : Generation) : State :=
  let s1 := (upTo (dataPages s t)).foldl (fun (u : State) m =>
    if g.sealedPage m then u
    else match pageKey s t m with
      | some k => (u.writePage k (readPage s (slotPageKey s t g.slot m))).chargePages t (stackOfPage s t m) 1 1 1
      | none => u) s
  let s2 := ((s1.restoreLedger t g).clearWatches t).modTen t (fun n => { n with
    steps := { n.steps with live := g.slots, staged := [], applyPend := false, seed := g.seed, step := g.step, cautious := g.cautious, cautOn := g.cautOn }
    escrow := { n.escrow with gens := n.escrow.gens.filter (fun x => x.course ≤ g.course)
                              held := [], copying := n.escrow.copying.filter (fun (_ : Nat × (Nat × Nat × List (BitVec 32))) => false) } })
  s2.countTen t 0x2238 1

end Sys2Proof.Machine
end

