-- ==== Sys2Proof/Machine/Notices.lean ====
section
/-! DEFINITION. Ledger messages that the device posts: responses and notices, the response ring and its backlog (18 R474 to R478). -/

namespace Sys2Proof.Machine

open Sys2Proof

/-- A ledger message packed (18 Table 18.3); `payload` fills bytes 8 to 31. -/
def msgWord (kind flags tag status fn payload : Nat) : BitVec 256 :=
  BitVec.ofNat 256 (kind % 256 + flags % 256 * 2 ^ 8 + tag % 65536 * 2 ^ 16 + status % 65536 * 2 ^ 32 + fn % 256 * 2 ^ 48
    + payload % 2 ^ 192 * 2 ^ 64)

/-- The kinds of notices (18 Table 18.4). -/
def noteRecovery : Nat := 0x40
def noteJobEnd : Nat := 0x41
def noteThermal : Nat := 0x42
def noteLaunch : Nat := 0x43
def noteAssay : Nat := 0x44

def boxOf (s : State) (fn : Nat) : Mailbox := look s.mgmt.mailboxes {} fn

def State.setBox (s : State) (fn : Nat) (m : Mailbox) : State :=
  { s with mgmt := { s.mgmt with mailboxes := put {} s.mgmt.mailboxes fn m } }

/-- The function of a tenancy. -/
def fnOf (t : Nat) : Nat := t + 1

/-- Whether the response ring has a free slot: the tail never comes up to the head. -/
def Mailbox.room (m : Mailbox) : Bool := decide (m.rspTail + 1 ≠ m.rspHead)

/-- A message put into the response ring. -/
def Mailbox.place (m : Mailbox) (w : BitVec 256) : Mailbox :=
  { m with rsp := set m.rsp m.rspTail.toNat w, rspTail := m.rspTail + 1 }

/-- A response posted, or kept in the backlog of a full ring (18 R476). -/
def State.respond (s : State) (fn : Nat) (w : BitVec 256) : State :=
  let m := boxOf s fn
  if m.backlog = [] && m.room then (s.setBox fn (m.place w)).raiseInt fn 0
  else s.setBox fn { m with backlog := m.backlog ++ [w] }

/-- The kind of a message. -/
def msgKind (w : BitVec 256) : Nat := bitsN w 7 0

/-- A notice posted: a THERMAL notice replaces one that waits, and one that finds the backlog full is lost (18 R476). -/
def State.notice (s : State) (fn kind payload : Nat) : State :=
  let m := boxOf s fn
  let w := msgWord kind 0 0 0 fn payload
  if m.backlog = [] && m.room then (s.setBox fn (m.place w)).raiseInt fn 0
  else if kind = noteThermal && m.backlog.any (fun x => msgKind x = noteThermal) then
    s.setBox fn { m with backlog := m.backlog.map (fun x => if msgKind x = noteThermal then w else x) }
  else if 1024 ≤ m.backlog.length then
    (s.setBox fn { m with lost := true }).dayChip 0x03 0 fn (bitsN w 63 0) (bitsN w 127 64)
  else s.setBox fn { m with backlog := m.backlog ++ [w] }

/-- Waiting messages moved into the ring as far as it has room. -/
def Mailbox.refill (m : Mailbox) (ws : List (BitVec 256)) : Mailbox :=
  match ws with
  | [] => { m with backlog := [] }
  | w :: r => if m.room then (m.place w).refill r else { m with backlog := w :: r }

/-- A response to a request: its kind with bit 7 set, its tag, a status and a payload. -/
def State.answer (s : State) (r : Req) (kind status payload : Nat) : State :=
  s.respond r.fn.val (msgWord (kind + 0x80) 0 r.tag.toNat status r.fn.val payload)

end Sys2Proof.Machine
end

