-- ==== Sys2Proof/Machine/Close.lean ====
section
/-! DEFINITION. The take: the scale ledger's update, the watches, the step counter and the slot table (07 R169 to R182, R189; 19 R523). -/

namespace Sys2Proof.Machine

open Sys2Proof

/-! ### Scale-ledger entries (07 Table 07.2, R172) -/

def ledT (d : BitVec 64) : Int := bitsS d 7 0
def ledAmax (d : BitVec 64) (i : Nat) : Nat := bitsN d (8 * i + 15) (8 * i + 8)
def ledOvf (d : BitVec 64) : Nat := bitsN d 47 40
def ledStreak (d : BitVec 64) : Nat := bitsN d 55 48
def ledFlush (d : BitVec 64) : Bool := bitB d 57
def ledNonfinite (d : BitVec 64) : Bool := bitB d 59
def ledPinned (d : BitVec 64) : Bool := bitB d 60
def ledLimit (d : BitVec 64) : Bool := bitB d 61

/-- T, STREAK and T_LIMIT after a take. -/
def takeScale (t : Int) (streak a : Nat) (ovf pinned : Bool) : Int × Nat × Bool :=
  let under := !ovf && decide (a ≠ 0) && decide ((a : Int) < t + 119)
  if pinned then (t, 0, false)
  else if ovf then (if t < 127 then (t + 1, 0, false) else (t, 0, true))
  else if under then
    if streak + 1 = 16 then (if -128 < t then (t - 1, 0, false) else (t, 0, true)) else (t, streak + 1, false)
  else if a ≠ 0 then (t, 0, false)
  else (t, streak, false)

/-- An entry after a take. -/
def takeEntry (d : BitVec 64) : BitVec 64 :=
  let a := ledAmax d 0
  let r := takeScale (ledT d) (ledStreak d) a (decide (ledOvf d ≠ 0)) (ledPinned d)
  BitVec.ofNat 64 ((r.1 % 256).toNat + a * 2 ^ 16 + ledAmax d 1 * 2 ^ 24 + ledAmax d 2 * 2 ^ 32 + r.2.1 % 256 * 2 ^ 48
    + (if ledOvf d ≠ 0 then 2 ^ 56 else 0) + (if ledFlush d then 2 ^ 58 else 0) + (if ledPinned d then 2 ^ 60 else 0)
    + (if r.2.2 then 2 ^ 61 else 0))

/-- The region and tile of an entry of a tenancy's partition. -/
def regionAt (s : State) (t e : Nat) : Option (Nat × Nat) :=
  let i := e - (partOf s t 0).1
  ((upTo (partOf s t 1).2).find? (fun r =>
    let w := look s.stores.regions 0 ((partOf s t 1).1 + r)
    decide (bitsN w 19 0 ≤ i) && decide (i < bitsN w 19 0 + bitsN w 39 20))).map (fun r =>
      (r, i - bitsN (look s.stores.regions 0 ((partOf s t 1).1 + r)) 19 0))

/-- One entry taken, with its counts and daybook entries; `logged` lists the regions whose NONFINITE is logged. -/
def State.takeOne (s : State) (t e : Nat) (logged : List Nat) : State × List Nat :=
  let x := look s.stores.ledger {} e
  let d := x.data
  let n := takeEntry d
  let at' := (regionAt s t e).getD (0, 0)
  let s1 := { s with stores := { s.stores with ledger := put {} s.stores.ledger e ⟨n, x.err⟩ } }
  let s2 := if ledT d < ledT n then s1.countTen t 0x2090 1 else if ledT n < ledT d then s1.countTen t 0x2098 1 else s1
  let s3 := if ledLimit n then (s2.countTen t 0x20A0 1).dayTen t 0x30 0 at'.1 at'.2 0 else s2
  let s4 := if ledFlush d then s3.countTen t 0x2088 1 else s3
  if ledNonfinite d then
    let s5 := s4.countTen t 0x20A8 1
    if logged.contains at'.1 then (s5, logged) else (s5.dayTen t 0x31 0 at'.1 at'.2 0, logged ++ [at'.1])
  else (s4, logged)

/-- Every entry of the tenancy taken; an entry that is not listed is zero and stays so. -/
def State.takeLedger (s : State) (t : Nat) : State :=
  let p := partOf s t 0
  ((s.stores.ledger.filter (fun (e : Nat × Cell64) => decide (p.1 ≤ e.1) && decide (e.1 < p.1 + p.2))).foldl
    (fun (u : State × List Nat) (e : Nat × Cell64) => u.1.takeOne t e.1 u.2) (s, [])).1

/-- Step fields of every entry of the tenancy cleared (07 R174). -/
def State.clearSteps (s : State) (t : Nat) : State :=
  let p := partOf s t 0
  (s.stores.ledger.filter (fun (e : Nat × Cell64) => decide (p.1 ≤ e.1) && decide (e.1 < p.1 + p.2))).foldl (fun (u : State) (e : Nat × Cell64) =>
    let x := look u.stores.ledger {} e.1
    { u with stores := { u.stores with ledger := put {} u.stores.ledger e.1 ⟨x.data &&& ~~~0x0A00_FF00_0000_FF00#64, x.err⟩ } }) s

/-! ### Watches (07 Table 07.4, R182) -/

/-- A streak after a step that does or does not extend it: the streak, whether an event fires, and whether one has fired. -/
structure Streak where
  n     : Nat
  event : Bool
  fired : Bool
  ended : Bool
deriving DecidableEq, Repr

/-- A streak's step: `some true` extends it, `some false` ends it, none leaves it. -/
def Streak.step (n limit max' : Nat) (fired : Bool) (on : Option Bool) : Streak :=
  match on with
  | none => ⟨n, false, fired, false⟩
  | some false => ⟨0, false, false, fired⟩
  | some true =>
    let m := min max' (n + 1)
    let ev := decide (n < max') && decide (m % limit = 0)
    ⟨m, ev, fired || ev, false⟩

/-- A watch after a take, with its two streaks. -/
def takeWatch (ctl : BitVec 32) (w : BitVec 128) : BitVec 128 × Streak × Streak :=
  let dry := Streak.step (bitsN w 111 96) (max 1 (bitsN ctl 15 0)) 65535 (bitB w 121)
    (if bitB w 120 then some (decide (bitsN w 31 0 = 0)) else none)
  let q := bitsN w 63 32
  let thin := Streak.step (bitsN w 119 112) (max 1 (bitsN ctl 31 24)) 255 (bitB w 122)
    (if q = 0 then none else some (decide (bitsN ctl 23 16 * q < bitsN w 95 64 * 256)))
  (BitVec.ofNat 128 (dry.n * 2 ^ 96 + thin.n * 2 ^ 112 + (if dry.fired then 2 ^ 121 else 0) + (if thin.fired then 2 ^ 122 else 0)), dry, thin)

/-- A streak's events of a watch: `code` the event, code + 1 its end. -/
def State.streakEvents (s : State) (t i old : Nat) (k : Streak) (code : BitVec 8) (off bit : Nat) : State :=
  let s1 := if k.event then ((s.dayTen t code 0 i k.n 0).countTen t off 1).raiseTen t bit else s
  if k.ended then s1.dayTen t (code + 1) 0 i old 0 else s1

/-- Every watch of the tenancy taken; a watch not listed is zero and stays so. -/
def State.takeWatches (s : State) (t : Nat) : State :=
  let p := partOf s t 7
  (s.stores.watches.filter (fun (e : Nat × BitVec 128) => decide (p.1 ≤ e.1) && decide (e.1 < p.1 + p.2))).foldl (fun (u : State) (e : Nat × BitVec 128) =>
    let r := takeWatch (s.ten t).steps.wchCtl e.2
    let u1 := { u with stores := { u.stores with watches := put 0 u.stores.watches e.1 r.1 } }
    let u2 := u1.streakEvents t (e.1 - p.1) (bitsN e.2 111 96) r.2.1 0x33 0x20C0 5
    let u3 := u2.streakEvents t (e.1 - p.1) (bitsN e.2 119 112) r.2.2 0x35 0x20C8 6
    if r.2.1.event && trigOn u3 5 then u3.assayCores t else u3) s

/-- The step fields of every watch of the tenancy cleared (15 Table 15.7). -/
def State.clearWatchSteps (s : State) (t : Nat) : State :=
  let p := partOf s t 7
  (s.stores.watches.filter (fun (e : Nat × BitVec 128) => decide (p.1 ≤ e.1) && decide (e.1 < p.1 + p.2))).foldl (fun (u : State) (e : Nat × BitVec 128) =>
    let w := look u.stores.watches 0 e.1
    { u with stores := { u.stores with watches := put 0 u.stores.watches e.1 (w &&& ~~~((BitVec.ofNat 128 (2 ^ 96 - 1)) ||| (1#128 <<< 120))) } }) s

/-! ### Twin and seal records (15 R395, R399) -/

/-- Digests, counts and flags cleared. -/
def clearFolds (m : Sparse FoldRec) : Sparse FoldRec := m.map (fun (r : Nat × FoldRec) => (r.1, { record := r.2.record }))

/-! ### The take -/

/-- The staged slot entries put in force, with the new step (19 R523). -/
def Steps.apply (n : Steps) : Steps :=
  if n.applyPend then
    { n with live := n.staged.map (fun (e : Nat × BitVec 256) => (e.1, putBits e.2 80 n.step)), applyPend := false }
  else n

/-- The step counter raised, with its wrap (07 R169, R189). -/
def State.nextStep (s : State) (t : Nat) : State :=
  let s1 := s.modTen t (fun n => { n with steps := { n.steps with step := n.steps.step + 1 } })
  if (s1.ten t).steps.step = 0 then s1.dayTen t 0x15 0 0 0 0 else s1

/-- Whether everything that the take waits for has come: the merge, the twin frame, the seal values and the state pages of the
generation sealed last (07 R171; 15 R396, R400; 16 R438). -/
def takeReady (s : State) (t : Nat) : Bool :=
  let k := (s.ten t).close
  k.merged && (k.twinCmp || !twinDue s t) && (k.sealCmp || !sealDue s t)
def stateReady (s : State) (t : Nat) : Bool := (s.ten t).escrow.gens.all (fun g => g.stateDone)

/-- The take of a close, at which the chip comes to run `pos` (07 R172, R182; 10 R276). -/
def State.applyTake (s : State) (t : Nat) (pos : CoursePos) : State :=
  let k := (s.ten t).close
  let step := (s.ten t).steps.step
  let s1 := (((s.takeLedger t).takeWatches t).nextStep t)
  let s2 := s1.modTen t (fun n => { n with
    close := {}
    steps := { n.steps.apply with twins := clearFolds n.steps.twins, sealRecs := clearFolds n.steps.sealRecs,
                                  twinSelf := none, sealSelf := none,
                                  twinGot := n.steps.twinGot.filter (fun v => v.step ≠ step),
                                  sealGot := n.steps.sealGot.filter (fun v => v.step ≠ step) }
    escrow := { n.escrow with logged := false }
    recov := { n.recov with optPhase := false, takePos := pos, odd := k.odd } })
  let s3 := if isCheckpoint s2 t (s2.ten t).steps.step then s2.sealGen t pos (s2.now / 16384) else s2
  let s4 := if k.twinBad then s3.jobError t ⟨clsA, 3, step - BitVec.ofNat 32 (hdr s t 45 1) + 1, 0x60⟩ else s3
  if k.sealPath ≠ 0 then s4.jobError t ⟨clsA, k.sealPath, step, 0x61⟩ else s4

end Sys2Proof.Machine
end

