-- ==== Sys2Proof/Machine/Recovery.lean ====
section
/-! DEFINITION. The recovery of a job: stop, census, plan, epoch, actions, resume, and how a job ends (15 R402 to R420, 16 R441, R442). -/

namespace Sys2Proof.Machine

open Sys2Proof

/-- The tenancy's recovery record changed. -/
def State.modRecov (s : State) (t : Nat) (f : Recovery → Recovery) : State := s.modTen t (fun n => { n with recov := f n.recov })

/-- The larger and the smaller of two fields. -/
def bvMax {n : Nat} (a b : BitVec n) : BitVec n := if a < b then b else a
def bvMin {n : Nat} (a b : BitVec n) : BitVec n := if a < b then a else b

/-! ### Control frames (15 Table 15.8) -/

/-- Whether a recovery control frame is malformed: its SUB, CLASS or PATH, or its length. -/
def recBad (f : Frame) (sub n : Nat) : Bool :=
  let w := (decodeWord (nth f.payload MemWord.zero 0)).w.data
  f.kind ≠ 9 || bitsN w 3 0 ≠ sub || 4 < bitsN w 6 4 || 4 < bitsN w 9 7 || f.payload.length ≠ n

/-- Whether a tenancy's job can still take part in recovery control. -/
def jobLive (s : State) (t : Nat) : Bool :=
  let st := (s.ten t).load.st
  (decide (st = .running) || decide (st = .loaded)) && decide ((s.ten t).recov.st ≠ 5)

/-- Chips of the job that this chip reports for: itself and those that send to it on the way to the root. -/
def rootSub (s : State) (t : Nat) : Nat :=
  (([3, 2, 1, 0] : List Nat).takeWhile (fun k => relCoord s t (myId s) k = 0)).foldl (fun n k => n * boxN s t k) 1

/-! ### The stop (15 R411 steps 1 to 3) -/

/-- A newer census: what an older one gathered, its plan and its actions are abandoned. -/
def State.openCensus (s : State) (t : Nat) (c : BitVec 16) : State :=
  if (s.ten t).recov.census < c then
    s.modRecov t (fun r => { r with census := c, chips := 0, repOpt := false, reported := false, plan := none, doneChips := 0,
                                    selfDone := false, doneSent := false, resumeAt := none })
  else s

/-- A path on this chip: a redo it may not make is a rollback (15 Table 15.6). -/
def localPath (s : State) (t : Nat) (p : BitVec 3) : BitVec 3 :=
  if p = 1 && (!(bitB (BitVec.ofNat 8 (hdr s t 47 1)) 0) || (s.ten t).recov.optPhase) then 3 else p

/-- Two errors handled as one: the higher class and path, the lower taint step, the code of the first. -/
def JobError.join (a b : JobError) : JobError := ⟨bvMax a.cls b.cls, bvMax a.path b.path, bvMin a.taint b.taint, a.code⟩

/-- Entries of a store without those that read as unlisted ones do. -/
def tidy {α : Type} [DecidableEq α] (d : α) (m : Sparse α) : Sparse α := m.filter (fun (e : Nat × α) => decide (e.2 ≠ d))

/-- Operations in flight on a tenancy's cores abandoned: HBM reads, page refills, open merges and halves of paired products on their way,
and the units, ports, links and slots they hold; the cores' clocks rest. A page whose refill is whole keeps its tag. -/
def State.dropFlight (s0 : State) (t : Nat) : State :=
  let s := s0.restClocks t
  let own (k : Nat) : Bool := decide (tenOf s (Fin.ofNat 64 (k / 4)) = some t)
  let free (m : Sparse Nat) : Sparse Nat := m.filter (fun (e : Nat × Nat) => !own (4 * e.1))
  let reqs := (s.hbm.reqs.map (fun (g : Nat × List HbmReq) => (g.1, g.2.filter (fun r => !own (4 * r.core.val))))).filter
    (fun (g : Nat × List HbmReq) => g.2 ≠ [])
  { s with
    hbm := { s.hbm with
      reqs, later := s.hbm.later.filter (fun r => !own (4 * r.core.val))
      merges := s.hbm.merges.filter (fun (e : Nat × MergeEntry) => !own (4 * e.2.core.val)) }
    cores := { s.cores with
      merges := s.cores.merges.filter (fun (e : Nat × MergeEntry) => !own (4 * e.2.core.val))
      links := (s.cores.links.map (fun (l : Nat × List MeshUse) => (l.1, l.2.filter (fun m => !own (4 * m.core.val))))).filter (fun l => l.2 ≠ [])
      engines := tidy {} (s.cores.engines.map (fun (e : Nat × Engine) => (e.1, if own e.1 then { buf0 := e.2.buf0, buf1 := e.2.buf1 } else e.2)))
      bcast := free s.cores.bcast, vxBusy := free s.cores.vxBusy, rwBusy := free s.cores.rwBusy
      chBusy := s.cores.chBusy.filter (fun (e : Nat × Nat) => !own e.1)
      quants := s.cores.quants.filter (fun (e : Nat × QuantOp) => !own (4 * e.1))
      reads := s.cores.reads.filter (fun (e : Nat × List ReadInFlight) => !own e.1)
      tags := (s.cores.fills.filter (fun (e : Nat × PageFill) => own (e.1 / 2))).foldl (fun (m : Sparse (BitVec 8)) e => put 0 m e.1 e.2.tag) s.cores.tags
      fills := s.cores.fills.filter (fun (e : Nat × PageFill) => !own (e.1 / 2))
      descWas := s.cores.descWas.filter (fun (e : Nat × DescWas) => !own (e.1 / 256))
      pairs := s.cores.pairs.filter (fun (e : Nat × PairWait) => !own (4 * e.1))
      ports := s.cores.ports.filter (fun (e : Nat × List PortRun) => !own (4 * e.1)) } }

/-- The chip stops for a recovery of error `e`. -/
def State.stopChip (s : State) (t : Nat) (e : JobError) : State :=
  let first := (s.ten t).recov.st = 0
  ((s.dropFlight t).modTen t (fun n => { n with
    vote := none
    course := { n.course with inCourse := false, blank := none, stalls := [], hold := true }
    recov := { n.recov with
      st := 1, cls := bvMax n.recov.cls e.cls, repCls := bvMax n.recov.repCls e.cls, repPath := bvMax n.recov.repPath e.path,
      repTaint := bvMin n.recov.repTaint e.taint, stopGot := none, preempt := none,
      stopTally := if first then s.now else n.recov.stopTally } })).dayTen t 0x62 e.cls
        (e.path.toNat * 8 + e.cls.toNat) e.taint.toNat 0

/-- A STOP sent to every chip of the job. -/
def State.sendStop (s : State) (t : Nat) (e : JobError) : State :=
  s.broadcast t 9 [MemWord.clean (recWord 0 e.cls.toNat e.path.toNat e.taint.toNat 0 0 false 0 e.code.toNat 0 (s.ten t).recov.census.toNat)]

/-! ### Census and plan (15 R411 steps 4 and 5) -/

/-- Whether this chip is in or past the optimizer phase of step `k` (15 R408). -/
def optOf (s : State) (t : Nat) (k : BitVec 32) : Bool :=
  decide (k < (s.ten t).steps.step) || (decide (k = (s.ten t).steps.step) && (s.ten t).recov.optPhase)

/-- A plan received, or fixed here. -/
def State.takePlan (s : State) (t : Nat) (cls path : BitVec 3) (taint epoch : BitVec 32) : State :=
  s.modRecov t (fun r => { r with cls := cls, path := path, taint := taint, plan := some (path, taint, epoch) })

/-- The root's plan. -/
def State.fixPlan (s : State) (t : Nat) (cls path : BitVec 3) (taint : BitVec 32) (opt : Bool) : State :=
  let p : BitVec 3 := if path = 1 && opt then 3 else path
  let r := (s.ten t).recov
  if r.epoch = 0xFFFF_FFFF then s.jobFatal t 13
  else
    (s.broadcast t 9 [MemWord.clean (recWord 2 cls.toNat p.toNat taint.toNat (r.epoch.toNat + 1) 0 false 0 0 0 r.census.toNat)]).takePlan
      t cls p taint (r.epoch + 1)

/-- This chip's REPORT, once it has stopped and every chip it reports for has reported; the root plans. -/
def State.tryReport (s : State) (t : Nat) : State :=
  let r := (s.ten t).recov
  if r.st = 1 && !r.reported && r.chips + 1 = rootSub s t then
    let opt := r.repOpt || optOf s t r.repTaint
    let s1 := s.modRecov t (fun r => { r with reported := true, st := 2 })
    if isRoot s t then s1.fixPlan t r.repCls r.repPath r.repTaint opt
    else s1.sendRootward t 9 (recWord 1 r.repCls.toNat r.repPath.toNat r.repTaint.toNat 0 0 opt (r.chips + 1) 0 0 r.census.toNat)
  else s

/-! ### The epoch (15 R414) -/

/-- Every purse entry of a tenancy's cores invalid (06 R157). -/
def State.clearPurse (s : State) (t : Nat) : State :=
  let own (k : Nat) : Bool := decide (tenOf s (Fin.ofNat 64 (k / 4096)) = some t)
  { s with cores := { s.cores with purse := tidy {} (s.cores.purse.map (fun (e : Nat × PurseEntry) =>
      (e.1, if own e.1 then { e.2 with valid := false } else e.2))) } }

/-- A tenancy's flows, channels and collectives at their start (13 R353, 14 R381). -/
def State.clearFlows (s : State) (t : Nat) : State :=
  { s with fabric := { s.fabric with
      sends := s.fabric.sends.filter (fun (e : Nat × SendFlow) => e.1 / 268435456 ≠ t)
      recvs := s.fabric.recvs.filter (fun (e : Nat × RecvFlow) => e.1 / 268435456 ≠ t)
      chans := s.fabric.chans.filter (fun (e : Nat × ChanSt) => e.1 / 4096 ≠ t)
      colls := s.fabric.colls.filter (fun (e : Nat × Coll) => e.1 / 4096 ≠ t)
      collNo := s.fabric.collNo.filter (fun (e : Nat × BitVec 32) => e.1 / 4096 ≠ t) } }

/-- What the start of an epoch clears. -/
def State.startEpoch (s : State) (t : Nat) (epoch : BitVec 32) : State :=
  ((s.clearPurse t).clearFlows t).modTen t (fun n => { n with
    close := {}
    vote := none
    votes := []
    course := { n.course with lag := 0, pending := [], consumed := [], swap := none, force := none, lean := none }
    steps := { n.steps with twins := clearFolds n.steps.twins, sealRecs := clearFolds n.steps.sealRecs,
                            twinSelf := none, sealSelf := none, twinGot := [], sealGot := [] }
    recov := { n.recov with epoch := epoch, census := 0, optPhase := false, plan := none, doneChips := 0, selfDone := false,
                            doneSent := false, resumeAt := none } })

/-! ### Actions (15 R412, Table 15.7; 16 R441, R442) -/

/-- The generation a rollback to taint step `k` restores: the newest kept one not after it. -/
def soundGen (s : State) (t : Nat) (k : BitVec 32) : Option Generation :=
  ((s.ten t).escrow.gens.filter (fun g => decide (g.step ≤ k))).getLast?

/-- The newest checkpoint step at or before `k`, which every chip of the job restores once it has sealed it. -/
def checkpointAt (s : State) (t : Nat) (k : BitVec 32) : Nat := k.toNat - k.toNat % max 1 (escInterval s t)

/-- The RECOVERY message of a plan and its interrupt (15 R416): path, taint step and resume step. -/
def State.tellRecovery (s : State) (t : Nat) (path : BitVec 3) (taint resume : BitVec 32) : State :=
  (s.notice (fnOf t) noteRecovery (path.toNat + taint.toNat * 2 ^ 32 + resume.toNat * 2 ^ 64)).raiseTen t 4

/-- The epoch of a plan begun on this chip, and its actions with it: they complete by `RECOVERY_ACTIONS_COMPLETE`. -/
def State.beginPlan (s : State) (t : Nat) (path : BitVec 3) (taint epoch : BitVec 32) : State :=
  let s1 := (s.startEpoch t epoch).modRecov t (fun r => { r with st := 3 })
  let g := soundGen s1 t taint
  let k := checkpointAt s1 t taint
  let own := (s1.ten t).steps.step
  if path = 3 && escInterval s1 t ≠ 0 && own.toNat < k then
    s1.modRecov t (fun r => { r with preempt := some ⟨clsA, 3, BitVec.ofNat 32 (k - 1), 0⟩ })
  else match path, g with
    | 3, none => s1.jobFatal t 10
    | _, _ =>
      let resume := if path = 3 then (g.map (·.step)).getD own else own
      let s2 := s1.tellRecovery t path taint resume
      if path ≠ 2 && hdr s2 t 48 1 ≤ look (s2.ten t).recov.resumes 0 resume.toNat then s2.jobFatal t 11 else s2

/-- A page copied into the slots of every generation it is SEALED for, before it is overwritten (16 R425, R430). -/
def State.settlePage (s : State) (t m : Nat) : State :=
  match pageKey s t m with
  | none => s
  | some k =>
    let img := readPage s k
    let steps := sealedFor s t m
    if steps = [] then s else
      steps.foldl (fun (u : State) x => match genOf u t x with
        | some g => (u.writePage (slotPageKey u t g.slot m) img).markCopied t x m
        | none => u) (s.chargePages t (stackOfPage s t m) 1 1 steps.length)

/-- Every seal range of an odd chip overwritten with what the majority chip holds, of which nothing here is known: words, and
maximum exponents, formats and tags of the hallmarks are free values. -/
def State.reseat (s : State) (t : Nat) : State :=
  (s.ten t).steps.sealRecs.foldl (fun (u : State) (r : Nat × FoldRec) =>
    if !bitB r.2.record 0 then u else
      (upTo (bitsN r.2.record 58 35)).foldl (fun (v : State) b =>
        let k := recordKey v t r.2.record + 128 * b
        let v0 := match pageOf v t k with | some m => v.settlePage t m | none => v
        let f := v0.fresh
        let ds := (upTo 128).map (fun i => BitVec.ofNat 256 (Config.freeValue (f + i)))
        let h := Config.freeValue (f + 128)
        let v1 := ds.zipIdx.foldl (fun (w : State) (d : BitVec 256 × Nat) => w.writeWord .hbm (k + d.2) (MemWord.clean d.1))
          { v0 with fresh := f + 129 }
        v1.writeHall .hbm k (mkHall (crcWords ds) (h % 256) (h / 256 % 16) false false false (h / 4096))) u) s

/-- A step redo's actions. -/
def State.redoStep (s : State) (t : Nat) : State :=
  let ownE (k n : Nat) : Bool := decide (tenOf s (Fin.ofNat 64 (k / n)) = some t)
  let s1 := (s.clearSteps t).clearWatchSteps t
  (({ s1 with cores := { s1.cores with
      guard := s1.cores.guard.filter (fun c => !ownE c 1)
      acc := s1.cores.acc.filter (fun (e : Nat × Acc) => !ownE e.1 262144)
      bind := s1.cores.bind.filter (fun (e : Nat × Chain) => !ownE e.1 2048)
      pairs := s1.cores.pairs.filter (fun (e : Nat × PairWait) => !ownE e.1 1)
      engines := tidy {} (s1.cores.engines.map (fun (e : Nat × Engine) => (e.1, if ownE e.1 4 then
        { buf0 := e.2.buf0, buf1 := e.2.buf1 } else e.2))) } }).modTen
    t (fun n => { n with course := { n.course with pos := n.recov.takePos, first := true } })).countTen t 0x21B0 1

/-- A rollback's actions. -/
def State.rollBack (s : State) (t : Nat) (g : Generation) : State :=
  ((s.restoreGen t g).modTen t (fun n => { n with course := { n.course with pos := g.pos, first := true } })).countTen t 0x21B8 1

/-- DONE sent toward the root once this chip and all it reports for are done; the root names the course of the resume. -/
def State.tryDone (s : State) (t : Nat) : State :=
  let r := (s.ten t).recov
  if r.st = 4 && r.selfDone && !r.doneSent && r.doneChips + 1 = rootSub s t then
    let s1 := s.modRecov t (fun r => { r with doneSent := true })
    if isRoot s t then
      let l := courseNow s + hdr s t 52 2
      (s1.broadcast t 9 [MemWord.clean (recWord 4 r.cls.toNat r.path.toNat r.taint.toNat 0 l false 0 0 0 r.census.toNat)]).modRecov t
        (fun r => { r with resumeAt := some l })
    else s1.sendRootward t 9 (recWord 3 r.cls.toNat r.path.toNat r.taint.toNat 0 0 false (r.doneChips + 1) 0 0 r.census.toNat)
  else s

/-- This chip's actions done. -/
def State.actionsDone (s : State) (t : Nat) : State := (s.modRecov t (fun r => { r with st := 4, selfDone := true })).tryDone t

/-- `RECOVERY_ACTIONS_COMPLETE`: the plan's actions have run. -/
def execRecoveryActionsComplete (t : Ten) (s : State) : Answer :=
  let r := (s.ten t.val).recov
  if r.st ≠ 3 || r.preempt.isSome || r.stopGot.isSome || r.ending.isSome then .next s
  else if r.path = 1 then .next ((s.redoStep t.val).actionsDone t.val)
  else if r.path = 2 then
    let s1 := s.modTen t.val (fun n => { n with course := { n.course with pos := n.recov.takePos, first := true } })
    if r.odd then
      let d := (s1.reseat t.val).draw
      if d.1 % 2 = 0 then .next ((d.2.countTen t.val 0x21A8 1).actionsDone t.val)
      else .next (d.2.modRecov t.val (fun r => { r with preempt := some ⟨clsA, 3, (d.2.ten t.val).steps.step - 1, 0x61⟩ }))
    else .next (s1.actionsDone t.val)
  else match soundGen s t.val r.taint with
    | some g => .next ((s.rollBack t.val g).actionsDone t.val)
    | none => .next s

/-! ### The end of a job (15 R417) -/

/-- The job ended at a boundary. -/
def State.endJob (s : State) (t : Nat) (e : JobError) : State :=
  let s1 := (s.dropFlight t).modTen t (fun n => { n with
    load := { n.load with st := .ended }
    vote := none
    course := { n.course with inCourse := false, blank := none, stalls := [], hold := false, pending := [], lag := 0 }
    recov := { n.recov with st := 5, cls := e.cls, queue := [], preempt := none, stopGot := none, plan := none, resumeAt := none } })
  let s2 := (s1.dayTen t 0x63 e.cls e.code.toNat 0 0).countTen t 0x21D0 1
  (((s2.addFigure 1 (4 + e.cls.toNat) 1).notice (fnOf t) noteJobEnd (e.cls.toNat + e.code.toNat * 2 ^ 8)).raiseTen t 12).startAssays

/-- A class D error (15 R407): every job of the device ends; a second one before a device reset puts the device in its safe state.
`kind` is 1 connection loss, 2 router fault, 3 trip, 4 management processor failure; the die ledger writes 5 for the safe state.
Where the core PLL stops, no boundary follows, so the jobs end at once. -/
def State.deviceError (s : State) (kind : BitVec 8) : State :=
  let log (u : State) (k : BitVec 8) : State := { u with mgmt := { u.mgmt with ledger := { u.mgmt.ledger with
    device := u.mgmt.ledger.device ++ [(k, u.time.tally)] } } }
  let s1 := (log { s with board := { s.board with classD := s.board.classD + 1 } } kind).raiseInt 0 13
  let s2 := (tenancies s1).foldl (fun (u : State) t =>
    let v := u.jobFatal t (13 + kind.toNat)
    match (v.ten t).recov.ending with
    | some e => if (kind = 3 || s.board.classD ≠ 0 || s.time.pll = .off) && ((v.ten t).load.st = .running || (v.ten t).load.st = .loaded) then v.endJob t e else v
    | none => v) s1
  if s.board.classD = 0 then s2.commitEvents
  else
    let s3 := (List.finRange 16).foldl (fun (u : State) p => u.modPort p (fun q => { q with link := false, down := true })) (log s2 5)
    { s3 with board := { s3.board with safe := true }, time := { s3.time with pll := .off } }.commitEvents

/-! ### The boundary (10 R276 step 1, 15 R411) -/

/-- The queued errors, each with this chip's path, as one. -/
def queued (s : State) (t : Nat) : Option JobError :=
  match (s.ten t).recov.queue.map (fun e => { e with path := localPath s t e.path }) with
  | [] => none
  | e :: r => some (r.foldl JobError.join e)

/-- The job resumes at this course, and a cautious window opens (07 R176). -/
def State.resumeJob (s : State) (t : Nat) : State :=
  let r := (s.ten t).recov
  let step := (s.ten t).steps.step
  let lost := r.lostUA
  let s1 := (s.openCaution t step).modTen t (fun n => { n with
    course := { n.course with hold := false }
    recov := { n.recov with
      st := 0, cls := 0, repCls := 0, repPath := 0, repTaint := 0xFFFF_FFFF, repOpt := false, reported := false, chips := 0,
      resumeAt := none, selfDone := false, doneSent := false, doneChips := 0, odd := false, lostUA := false,
      resumes := if r.path = 2 then r.resumes else set r.resumes step.toNat (look r.resumes 0 step.toNat + 1) } })
  if lost then s1.jobFatal t 9 else s1

/-- What a tenancy's job does about its errors at the boundary that begins course `c`. -/
def State.recover (s : State) (t c : Nat) : State :=
  let r := (s.ten t).recov
  match r.ending with
  | some e => s.endJob t e
  | none =>
    match r.preempt, r.stopGot with
    | some e, g =>
      let e1 := match g with | some x => e.join x.1 | none => e
      let e2 : JobError := { e1 with path := bvMax (localPath s t e1.path) r.repPath, taint := bvMin e1.taint r.repTaint }
      let s1 := ((s.openCensus t (r.census + 1)).stopChip t e2).countTen t 0x21C0 1
      (s1.sendStop t e2).tryReport t
    | none, some x => ((if r.st = 0 then s else s.countTen t 0x21C0 1).stopChip t x.1).tryReport t
    | none, none =>
      if r.st = 0 then
        match queued s t with
        | some e => (((s.modRecov t (fun r => { r with queue := [] })).stopChip t e).sendStop t e).tryReport t
        | none => s
      else match r.plan with
        | some (path, taint, epoch) => if r.st ≤ 2 then s.beginPlan t path taint epoch else s
        | none => if r.st = 4 && r.resumeAt = some c then s.resumeJob t else s

/-! ### Frames (15 R411, R413) -/

/-- A recovery control frame received: the state with it forwarded where it is a broadcast, and its word if it counts. -/
def State.takeCtl (s : State) (p : Port) (f : Frame) (sub n : Nat) (spread : Bool) : State × Option (List MemWord) :=
  let t := f.ten.toNat
  let g := s.receiveCtl p f (recBad f sub n)
  if !g.2.1 then (g.1, none) else
    let s1 := if spread then g.1.forward t 9 p (jobAxes g.1 t) g.2.2 else g.1
    if jobLive s1 t then (s1, some g.2.2) else (s1, none)

/-- `STOP`. -/
def execStop (p : Port) (f : Frame) (s : State) : Answer :=
  let t := f.ten.toNat
  match s.takeCtl p f 0 1 true with
  | (s1, none) => .next s1
  | (s1, some ws) =>
    let w := word0 ws
    let e : JobError := ⟨bits w 6 4, bits w 9 7, bits w 41 10, bits w 149 142⟩
    let c : BitVec 16 := bits w 181 166
    let r := (s1.ten t).recov
    if r.st = 0 || r.census < c then
      .next ((s1.openCensus t c).modRecov t (fun r => { r with
        stopGot := some (match r.stopGot with | some x => (x.1.join e, c) | none => (e, c)) }))
    else .next s1

/-- `REPORT`. -/
def execReport (p : Port) (f : Frame) (s : State) : Answer :=
  let t := f.ten.toNat
  match s.takeCtl p f 1 1 false with
  | (s1, none) => .next s1
  | (s1, some ws) =>
    let w := word0 ws
    let c : BitVec 16 := bits w 181 166
    if c < (s1.ten t).recov.census then .next s1 else
      .next (((s1.openCensus t c).modRecov t (fun r => { r with
        chips := r.chips + bitsN w 141 125, repCls := bvMax r.repCls (bits w 6 4), repPath := bvMax r.repPath (bits w 9 7),
        repTaint := bvMin r.repTaint (bits w 41 10), repOpt := r.repOpt || bitB w 124 })).tryReport t)

/-- `PLAN`. -/
def execPlan (p : Port) (f : Frame) (s : State) : Answer :=
  let t := f.ten.toNat
  match s.takeCtl p f 2 1 true with
  | (s1, none) => .next s1
  | (s1, some ws) =>
    let w := word0 ws
    let r := (s1.ten t).recov
    if (r.st = 1 || r.st = 2) && bits w 181 166 = r.census then
      .next (s1.takePlan t (bits w 6 4) (bits w 9 7) (bits w 41 10) (bits w 73 42))
    else .next s1

/-- `DONE`. -/
def execDone (p : Port) (f : Frame) (s : State) : Answer :=
  let t := f.ten.toNat
  match s.takeCtl p f 3 1 false with
  | (s1, none) => .next s1
  | (s1, some ws) =>
    let w := word0 ws
    if bits w 181 166 = (s1.ten t).recov.census then
      .next ((s1.modRecov t (fun r => { r with doneChips := r.doneChips + bitsN w 141 125 })).tryDone t)
    else .next s1

/-- `RESUME`. -/
def execResume (p : Port) (f : Frame) (s : State) : Answer :=
  let t := f.ten.toNat
  match s.takeCtl p f 4 1 true with
  | (s1, none) => .next s1
  | (s1, some ws) =>
    let w := word0 ws
    let l := bitsN w 123 74
    let r := (s1.ten t).recov
    if r.st ≠ 4 || bits w 181 166 ≠ r.census then .next s1
    else if l ≤ courseNow s1 + 2 then .next (s1.jobFatal t 3)
    else .next (s1.modRecov t (fun r => { r with resumeAt := some l }))

/-- `END` (15 R417): a chip of the job has raised an error that ends it. -/
def execEndJob (p : Port) (f : Frame) (s : State) : Answer :=
  let t := f.ten.toNat
  match s.takeCtl p f 5 1 true with
  | (s1, none) => .next s1
  | (s1, some ws) =>
    let w := word0 ws
    .next (s1.modTen t (fun n => ({ n with recov := { n.recov with
      ending := n.recov.ending.or (some ⟨bits w 6 4, 4, 0, bits w 149 142⟩) } } : Tenancy).stopNow s1.now))

/-- A SEALS or TWIN frame's values. -/
def sealOfWords (f : Frame) (ws : List MemWord) : SealVal :=
  let w := word0 ws
  let d (i : Nat) : BitVec 256 := (nth ws MemWord.zero i).data
  { src := f.src
    step := bits w 41 10
    digests := (upTo 16).map (fun r => BitVec.ofNat 64 (elemOf 64 (r % 4) (d (1 + r / 4))))
    counts := (upTo 16).map (fun r => BitVec.ofNat 16 (elemOf 16 r (d 5)))
    partials := bits w 165 150 }

/-- `RECOVERY_TIMEOUT`: no RESUME has come within the job's limit of the stop. -/
def execRecoveryTimeout (t : Ten) (s : State) : Answer :=
  let r := (s.ten t.val).recov
  if inRecovery s t.val && r.resumeAt.isNone then
    .next ((s.passTo (r.stopTally + hdr s t.val 50 2 * 1800000000)).jobFatal t.val 12)
  else .next s

end Sys2Proof.Machine
end

