-- ==== Sys2Proof/Machine/Power.lean ====
section
/-! DEFINITION. The course table and its variant sets, the phase table, the budget controller, reconciliation, thermal steps and voltage margin (09 R224; 17 R446 to R472; 21 R573). -/

namespace Sys2Proof.Machine

open Sys2Proof

/-! ### The course table (09 Table 09.1, 10 R276) -/

/-- Word 0 of an entry of a tenancy's course table; zero outside its partition. -/
def entryWord (s : State) (t e : Nat) : BitVec 256 :=
  if e < (partOf s t 2).2 then look s.stores.table 0 (3 * ((partOf s t 2).1 + e)) else 0

def entPage (w : BitVec 256) : BitVec 3 := bits w 2 0
def entTag (w : BitVec 256) : BitVec 8 := bits w 15 8
def entPhase (w : BitVec 256) : BitVec 16 := bits w 31 16
def entVariant (w : BitVec 256) : Nat := bitsN w 43 32
def entRepeat (w : BitVec 256) : Nat := bitsN w 59 48
def entLast (w : BitVec 256) : Bool := bitB w 60

/-- The position after an entry whose courses have all run: past LAST the first entry; past the end of a member the one after
its opener. -/
def afterEntry (s : State) (t e : Nat) (ops : List (Nat × Nat)) : CoursePos :=
  match ops with
  | [] => { entry := if entLast (entryWord s t e) then 0 else e + 1 }
  | (o, left) :: rest =>
    let l := left - (entRepeat (entryWord s t e) + 1)
    if l = 0 then afterEntry s t o rest else { entry := e + 1, opener := (o, l) :: rest }

/-- The position after one course. -/
def nextCourse (s : State) (t : Nat) (p : CoursePos) : CoursePos :=
  if p.rep < entRepeat (entryWord s t p.entry) then { p with rep := p.rep + 1 } else afterEntry s t p.entry p.opener

/-! ### Variant sets (17 R459 to R461) -/

def setRec (s : State) (t v : Nat) : BitVec 64 := if v < (partOf s t 3).2 then look s.stores.sets 0 ((partOf s t 3).1 + v) else 0
def memberRec (s : State) (t m : Nat) : BitVec 32 :=
  if m < (partOf s t 4).2 then look s.stores.members 0 ((partOf s t 4).1 + m) else 0

def setTwin (r : BitVec 64) : Bool := bitB r 1
def setMembers (r : BitVec 64) : Nat := bitsN r 7 2 + 1
def setMember (s : State) (t : Nat) (r : BitVec 64) (j : Nat) : BitVec 32 := memberRec s t (bitsN r 21 8 + j)
def memberEntry (m : BitVec 32) : Nat := bitsN m 12 0
def memberLen (m : BitVec 32) : Nat := bitsN m 24 13

/-- The variant set an entry opens. -/
def opens (s : State) (t e : Nat) : Option (BitVec 64) :=
  let v := entVariant (entryWord s t e)
  let r := setRec s t v
  if v ≠ 0 && bitB r 0 then some r else none

/-- Whether every course from `a` to `b - 1` is pending as consumable. -/
def allConsumable (ps : List Blank) (a b : Nat) : Bool :=
  (upTo (b - a)).all (fun i => match pendingAt ps (a + i) with | some x => x.consumable | none => false)

/-- The member of a lean set that opens at course `c0`. -/
def leanMember (s : State) (t : Nat) (r : BitVec 64) (ps : List Blank) (c0 : Nat) : Nat :=
  let n (j : Nat) : Nat := memberLen (setMember s t r j)
  (((upTo (setMembers r)).filter (fun j => 1 ≤ j && allConsumable ps (c0 + n 0) (c0 + n j))).getLast?).getD 0

/-- An opener resolved at course `c0` in step `step`, with the courses it consumes. -/
def resolveOne (s : State) (t : Nat) (step : BitVec 32) (ps : List Blank) (c0 : Nat) (p : CoursePos) : CoursePos × List Nat :=
  match opens s t p.entry with
  | none => (p, [])
  | some r =>
    let j := if setTwin r then step.toNat % max 1 (hdr s t 45 1) else leanMember s t r ps c0
    let m := setMember s t r j
    let n0 := memberLen (setMember s t r 0)
    ({ entry := memberEntry m, opener := (p.entry, memberLen m) :: p.opener },
     if setTwin r then [] else (upTo (memberLen m - n0)).map (c0 + n0 + ·))

/-- A position resolved: a twin member may open a lean set. -/
def resolve (s : State) (t : Nat) (step : BitVec 32) (ps : List Blank) (c0 : Nat) (p : CoursePos) : CoursePos × List Nat :=
  let a := resolveOne s t step ps c0 p
  match opens s t p.entry with
  | some r => if setTwin r then
      let b := resolveOne s t step ps c0 a.1
      (b.1, a.2 ++ b.2)
    else a
  | none => a

/-! ### What runs in a course (09 R242, 17 R461, 18 R491) -/

/-- What a chip does in a course: its next schedule course, at a pending course with lag (skip) or as consumed (lean); or a blank. -/
inductive Turn where
  | run | skip | lean
  | blank (cause : BitVec 3)
deriving DecidableEq, Repr

/-- A chip's place in its schedule, as the controllers look ahead. -/
structure Ahead where
  pos   : CoursePos
  first : Bool
  lag   : Nat
  ps    : List Blank
  used  : List Nat
  swap  : Option (Nat × Nat × Nat)

/-- Where a tenancy stands. -/
def aheadOf (s : State) (t : Nat) : Ahead :=
  let k := (s.ten t).course
  ⟨k.pos, k.first, k.lag, k.pending, k.consumed, k.swap⟩

/-- What the chip does in course `c`. -/
def Ahead.turn (w : Ahead) (c : Nat) : Turn :=
  match pendingAt w.ps c with
  | none => .run
  | some b =>
    if w.used.contains c then .lean
    else if w.lag = 0 || (match w.swap with | some (_, x, y) => x = c || y = c | none => false) then .blank b.cause
    else .skip

/-- The position that a schedule course of course `c` runs, before its variant is resolved. -/
def Ahead.next (w : Ahead) (s : State) (t : Nat) : CoursePos := if w.first then w.pos else nextCourse s t w.pos

/-- One course on, in step `step`. -/
def Ahead.step (w : Ahead) (s : State) (t c : Nat) : Ahead × Turn :=
  let u := w.turn c
  let ps := w.ps.filter (fun b => c < b.course)
  match u with
  | .blank _ => ({ w with ps := ps }, u)
  | _ =>
    let lag := if u = .skip then w.lag - 1 else w.lag
    let r := resolve s t (s.ten t).steps.step w.ps (c - lag) (w.next s t)
    ({ w with pos := r.1, first := false, lag := lag, ps := ps, used := (w.used ++ r.2).filter (fun x => c < x) }, u)

/-- `n` courses from course `c` on: each with its turn and the state after it. -/
def Ahead.go (s : State) (t : Nat) (n c : Nat) (w : Ahead) : List (Nat × Turn × Ahead) :=
  match n with
  | 0 => []
  | m + 1 =>
    let r := w.step s t c
    (c, r.2, r.1) :: Ahead.go s t m (c + 1) r.1

/-! ### Energies, in units of 1/16 µJ (17 R451, R455, R456) -/

/-- The unknown-tag energy. -/
def unknownE (s : State) : Nat := if s.ident.is64 then 16 * 13653 else 16 * 12015

/-- An estimate times ρ while MEASURED is 1; ρ is clamped to 0.5 to 2. -/
def scaleRho (s : State) (x : Nat) : Nat :=
  let m := s.power.rho.1
  let e := s.power.rho.2
  if !s.power.measured || (m = 0 && e = 0) then x
  else if 2 * m < e then x / 2 else if 2 * e < m then 2 * x else x * m / e

/-- The phase-table entry of a tag. -/
def phaseKey (s : State) (t : Nat) (tag : BitVec 16) : Option Nat :=
  let p := partOf s t 6
  if p.2 = 0 then none else some (p.1 + tag.toNat % p.2)

/-- The predicted energy of a course of a tag. -/
def tagE (s : State) (t : Nat) (tag : BitVec 16) : Nat :=
  let x := match phaseKey s t tag with
    | some k =>
      let w := look s.stores.phases 0 k
      if bitB w 40 && bits w 39 24 = tag && !(s.power.penalty ≠ 0 && s.power.penTags.contains tag) then bitsN w 23 0 else unknownE s
    | none => unknownE s
  scaleRho s x

/-- The entry of the phase table that a course's energy leaves under a tag. -/
def learnedWord (s : State) (w : BitVec 41) (tag : BitVec 16) (x0 : Nat) : BitVec 41 :=
  let x := min (scaleRho s x0) (2 ^ 24 - 1)
  let old := bitsN w 23 0
  let e := if bitB w 40 && bits w 39 24 = tag then ((old : Int) + Int.tdiv ((x : Int) - old) 8).toNat else x
  BitVec.ofNat 41 (e + tag.toNat * 2 ^ 24 + 2 ^ 40)

/-- A course's energy learned under a tag. -/
def State.learn (s : State) (t : Nat) (tag : BitVec 16) (x0 : Nat) : State :=
  match phaseKey s t tag with
  | none => s
  | some k =>
    { s with
      stores := { s.stores with phases := put 0 s.stores.phases k (learnedWord s (look s.stores.phases 0 k) tag x0) }
      power := { s.power with ranTags := insertNew s.power.ranTags tag } }

/-- Energy of a member's courses from entry `e`: at most `n` entries, `left` courses. -/
def memberE (s : State) (t : Nat) (n e left : Nat) : Nat :=
  match n with
  | 0 => 0
  | m + 1 =>
    if left = 0 then 0 else
      let w := entryWord s t e
      let r := min left (entRepeat w + 1)
      r * tagE s t (entPhase w) + memberE s t m (e + 1) (left - r)

def setE (s : State) (t : Nat) (r : BitVec 64) (j : Nat) : Nat :=
  let m := setMember s t r j
  memberE s t (memberLen m) (memberEntry m) (memberLen m)

/-! ### The budget controller (17 R456 to R462) -/

/-- B: what the grant, given in 0.1 W, allows a course. -/
def budgetB (s : State) (t : Nat) : Nat :=
  let guard := if s.power.measured then bitsN s.power.cap 18 15 else bitsN s.power.cap 14 11
  (s.ten t).grant.toNat * 16384 * 16 * (100 - guard) / 1800000

def horizonH (s : State) : Nat := bitsN s.power.cap 26 19

/-- The blanks that energy `e` over `n` courses requires; `n` of them where blanks do not help. -/
def blanksFor (b e n ebl : Nat) : Nat := if b ≤ ebl then n else ceilDiv (e - b * n) (b - ebl)

/-- The lean sets that open at least nine courses ahead in a walk, each with its course. -/
def leanAhead (s : State) (t c : Nat) (ws : List (Nat × Turn × Ahead)) : List (Nat × BitVec 64) :=
  ws.flatMap (fun (x : Nat × Turn × Ahead) =>
    let c0 := x.1 - x.2.2.lag
    if c + 9 ≤ c0 then
      match x.2.1, x.2.2.pos.opener with
      | .blank _, _ => []
      | _, (o, left) :: _ =>
        match opens s t o with
        | some r =>
          let fresh := x.2.2.pos.rep = 0 && (upTo (setMembers r)).any (fun j => memberEntry (setMember s t r j) = x.2.2.pos.entry
            && memberLen (setMember s t r j) = left)
          if !setTwin r && fresh then [(c0, r)] else []
        | none => []
      | _, [] => []
    else [])

/-- The lean member a controller chooses. -/
def chooseLean (s : State) (t : Nat) (r : BitVec 64) : Option Nat :=
  let b := budgetB s t
  let n (j : Nat) : Nat := memberLen (setMember s t r j)
  let b0 := blanksFor b (setE s t r 0) (n 0) (tagE s t 0xFFFF)
  (upTo (setMembers r)).find? (fun j => 1 ≤ j && decide (setE s t r j ≤ b * n j) && decide (n j ≤ n 0 + b0))

/-- Notices for the lean courses of a set that opens at `c0`, unless one of them is pending as another blank. -/
def State.announceLean (s : State) (t c0 : Nat) (r : BitVec 64) : State :=
  match chooseLean s t r with
  | none => s
  | some j =>
    let n0 := memberLen (setMember s t r 0)
    let cs := (upTo (memberLen (setMember s t r j) - n0)).map (c0 + n0 + ·)
    let ps := (s.ten t).course.pending
    if cs.any (fun x => match pendingAt ps x with | some b => !b.consumable | none => false) then s
    else (cs.filter (fun x => (pendingAt ps x).isNone)).foldl (fun (u : State) x => u.sendBlank t x 1) s

/-- A controller's evaluation in course `c`: lean members, then blanks, and the tenancy's need in 0.1 W. A job that has had no
grant yet is not held to one. -/
def State.evaluate (s : State) (t c : Nat) : State :=
  if (s.ten t).grant = 0 then s else
    let h := horizonH s
    let s1 := (leanAhead s t c (Ahead.go s t (8 + h) (c + 1) (aheadOf s t))).foldl (fun (u : State) x => u.announceLean t x.1 x.2) s
    let ws := (Ahead.go s1 t (8 + h) (c + 1) (aheadOf s1 t)).drop 8
    let ebl := tagE s1 t 0xFFFF
    let e := ws.foldl (fun n (x : Nat × Turn × Ahead) => n + (match x.2.1 with
      | .blank _ => ebl
      | _ => tagE s1 t (entPhase (entryWord s1 t x.2.2.pos.entry)))) 0
    let q := (ws.filter (fun (x : Nat × Turn × Ahead) => match x.2.1 with | .blank k => k ≠ 0 | _ => false)).length
    let need := min 65535 (e * 18000 / (262144 * max 1 h))
    let s2 := s1.modTen t (fun n => { n with need := BitVec.ofNat 16 need })
    (upTo (blanksFor (budgetB s1 t) e h ebl - q)).foldl (fun (u : State) _ => u.announce t (c + 9) 1) s2

/-! ### Thermal steps (17 R463 to R466, 21 R573) -/

/-- Thresholds of the compute die's steps 1 to 5, in 0.25 °C. -/
def thermAt : List Nat := [360, 368, 376, 380, 400]

/-- The step a reading puts the die in, which leaves a step 2 °C below its threshold. -/
def thermOf (old tj : Nat) : Nat :=
  (thermAt.zipIdx.filter (fun (x : Nat × Nat) => x.1 ≤ tj || (x.2 < old && x.1 < tj + 8))).length

/-- Thermal demand of a step, in blanks per 64 courses. -/
def thermDemand (step : Nat) : Nat := nth [0, 4, 8, 16, 32, 32] 0 step

/-- A step's change told: a daybook entry and a message to every tenancy's function. -/
def State.tellThermal (s : State) (step tj : Nat) : State :=
  (tenancies s).foldl (fun (u : State) t => u.notice (fnOf t) noteThermal (step + tj * 2 ^ 32)) (s.dayChip 0x72 0 step tj 0)

/-- A trip: THERMTRIP_N asserted, the core PLL stopped, a class D error. -/
def State.tripNow (s : State) : State :=
  if !s.board.trip then s else
    let s1 := (s.addFigure 9 6 1).deviceError 3
    { s1 with board := { s1.board with trip := false }, time := { s1.time with pll := .off } }

/-- A stack's limits: 1 at 100 °C, 2 at 105 °C. -/
def State.stackTherm (s : State) (st tj : Nat) : State :=
  let old := look s.power.stackTemp 0 st
  let hot := s.power.stackHot.contains st
  let now := decide (400 ≤ tj) || (hot && decide (392 < tj))
  let s1 := { s with power := { s.power with
    stackTemp := put 0 s.power.stackTemp st (BitVec.ofNat 12 tj)
    stackHot := if now then insertNew s.power.stackHot st else s.power.stackHot.erase st } }
  let s2 := if now ≠ hot then s1.tellThermal ((if now then 4 else 0) + 16 * st) tj else s1
  if 420 ≤ tj && old.toNat < 420 then (s2.tellThermal (6 + 16 * st) tj).tripNow else s2

/-- The temperatures of a course taken. -/
def State.takeTemps (s : State) (tp : Temps) : State :=
  let tj := tp.tj.toNat
  let old := s.power.thermStep.toNat
  let step := thermOf old tj
  let s1 := { s with power := { s.power with
    tj := tp.tj, tjMax := if s.power.tjMax < tp.tj then tp.tj else s.power.tjMax, thermStep := BitVec.ofNat 3 step, stretch := decide (step = 5)
    stretched := s.power.stretched || decide (step = 5) } }
  let s2 := if step ≠ old then
      let u := s1.tellThermal step tj
      if old < step then (upTo (step - old)).foldl (fun (v : State) i => v.addFigure 9 (1 + old + i) 1) u else u
    else s1
  let s3 := tp.hbm.zipIdx.foldl (fun (u : State) (x : BitVec 12 × Nat) => u.stackTherm x.2 x.1.toNat) s2
  let s4 := { s3 with board := { s3.board with alert := !(decide (4 ≤ step) || s3.power.stackHot ≠ []) } }
  if 440 ≤ tj then s4.tripNow else s4

/-- The thermal demand in force. -/
def demandNow (s : State) : Nat := max (thermDemand s.power.thermStep.toNat) (if s.power.stackHot ≠ [] then 32 else 0)

/-- A job's thermal notices in course `c`. -/
def State.thermalBlanks (s : State) (t c : Nat) : State :=
  let d := demandNow s
  if d = 0 then s else
    let ws := (Ahead.go s t 72 (c + 1) (aheadOf s t)).drop 8
    let p := (ws.filter (fun (x : Nat × Turn × Ahead) => match x.2.1 with | .blank k => k ≠ 0 | _ => false)).length
    (upTo (d - p)).foldl (fun (u : State) _ => u.announce t (c + 9) 2) s

/-! ### Static energy (17 R446) -/

/-- A leakage table read at the setpoint and Tj, interpolated bilinearly and rounded down. -/
def leakE (s : State) (k : Nat) : Nat :=
  let v := min 820 (max 620 s.power.vset.toNat) - 620
  let x := min 440 (max 80 s.power.tj.toNat) - 80
  let i := min 7 (v / 25)
  let j := min 8 (x / 40)
  let a := v - 25 * i
  let b := x - 40 * j
  ((25 - a) * ((40 - b) * Config.leakage k i j + b * Config.leakage k i (j + 1))
    + a * ((40 - b) * Config.leakage k (i + 1) j + b * Config.leakage k (i + 1) (j + 1))) / 1000

/-- The static energy of one course, per core and uncore. -/
def State.chargeStatic (s : State) : State :=
  let e := leakE s 0
  let s1 := (upTo 72).foldl (fun (u : State) p =>
    let t := (tenOfRow u (p / 9)).filter (fun _ => !(sparesOf u (p / 9)).contains (p % 9))
    u.charge t e [coreOff p 0x178]) s
  s1.charge none (leakE s 1) []

/-! ### Reconciliation (17 R450, R451, R453, R458; 18 Table 18.11) -/

/-- The nanojoules of an account since a sum it had. -/
def windowNJ (s : State) (off last : Nat) : Nat := (look s.power.accounts 0 off - last) / 65536

/-- Loans of a pool among tenancies (number, weight, what it lacks), in rounds. -/
def lend (n : Nat) (pool : Nat) (xs : List (Nat × Nat × Nat)) : List (Nat × Nat) :=
  match n with
  | 0 => xs.map (fun x => (x.1, 0))
  | m + 1 =>
    let wants := xs.filter (fun x => x.2.2 ≠ 0)
    let wsum := wants.foldl (fun a x => a + x.2.1) 0
    if wsum = 0 || pool = 0 then xs.map (fun x => (x.1, 0)) else
      let give (x : Nat × Nat × Nat) : Nat := min x.2.2 (pool * x.2.1 / wsum)
      let left := pool - wants.foldl (fun a x => a + give x) 0
      let rest := lend m left (xs.map (fun x => (x.1, x.2.1, x.2.2 - give x)))
      if left = pool then xs.map (fun x => (x.1, 0))
      else xs.map (fun x => (x.1, give x + look rest 0 x.1))

/-- The cap divided among the running jobs, in units of 0.1 W (17 R453). -/
def State.divideCap (s : State) (unowned : Nat) : State :=
  let run := (tenancies s).filter (fun t => s.running t)
  let avail := 10 * bitsN s.power.cap 10 0 - unowned / 100000
  let wsum := run.foldl (fun a t => a + (s.ten t).weight.toNat) 0
  let share (t : Nat) : Nat := avail * (s.ten t).weight.toNat / max 1 wsum
  let need (t : Nat) : Nat := (s.ten t).need.toNat
  let pool := run.foldl (fun a t => a + (share t - need t)) 0
  let loans := lend 8 pool (run.map (fun t => (t, (s.ten t).weight.toNat, need t - share t)))
  let lent := loans.foldl (fun a x => a + x.2) 0
  (tenancies s).foldl (fun (u : State) t =>
    let g := if run.contains t then share t + look loans 0 t - (if pool = 0 then 0 else lent * (share t - need t) / pool) else 0
    u.modTen t (fun n => { n with
      share := BitVec.ofNat 16 (min 65535 (if run.contains t then share t else 0)), grant := BitVec.ofNat 16 (min 65535 g) })) s

/-- Anomaly triggers of the stores: eight uncorrectable words of a core store, 64 of a stack, within a day. -/
def State.storeTriggers (s : State) : State :=
  let go (u : State) (place limit trig kind target : Nat) : State :=
    if trigOn u trig && decide (limit ≤ recent u.hbm.uncorrAt place u.now dayTicks) then
      ({ u with hbm := { u.hbm with uncorrAt := u.hbm.uncorrAt.filter (fun x => x.1 ≠ place) } }).requestAssay kind target false
    else u
  let s1 := (upTo 72).foldl (fun (u : State) p => go u p 8 1 1 p) s
  (upTo 8).foldl (fun (u : State) st => go u (1000 + st) 64 2 2 st) s1

/-- The sixteenth window in a row whose estimate and measurement lie 15 % apart. -/
def State.estimateOff (s : State) (est m : Nat) : State :=
  let u := (s.dayChip 0x70 0 0 est m).raiseAll 7
  ({ u with power := { u.power with measured := true } }).requestAssay 4 0 false

/-- A window measured 5 % above the cap. -/
def State.overCap (s : State) (m : Nat) : State :=
  let u := (s.dayChip 0x71 0 (m / 1000000) 0 0).countChip 0x98 1
  { u with power := { u.power with penalty := 16, penTags := u.power.ranTags } }

/-- A new window begun, and the triggers of the stores evaluated. -/
def State.nextWindow (s : State) : State := ({ s with power := { s.power with ranTags := [] } }).storeTriggers

/-- `RECONCILE`: the estimate against the measured energy, and the cap among the tenancies. -/
def execReconcile (measured : BitVec 48) (s : State) : Answer :=
  let m := measured.toNat
  let est := windowNJ s 0x4080 s.power.lastChip
  let un := windowNJ s 0x4090 s.power.lastUnown
  let bad := decide (15 * m < 100 * (max est m - min est m))
  let run := if bad then min 16 (s.power.run.toNat + 1) else 0
  let s1 := (s.account (chipOff 0x88) (m * 65536))
  let s2 := { s1 with power := { s1.power with
    run := BitVec.ofNat 5 run, rho := (m, est), lastChip := look s.power.accounts 0 0x4080, lastUnown := look s.power.accounts 0 0x4090 } }
  let s3 := if run = 16 && s.power.run.toNat < 16 then s2.estimateOff est m else s2
  let s4 := s3.divideCap un
  let s5 := if decide (bitsN s.power.cap 10 0 * 105 * 10000 < m) then s4.overCap m else s4
  .next s5.nextWindow

/-! ### Voltage margin (17 R468 to R470) -/

/-- The lowest setpoint, in mV: V_f, inside the range of R468. -/
def setFloor : Nat := min 820 (max 620 (Config.vFloor + 50))

/-- `CPM_REPORT`: the least slack of each monitor in a millisecond. -/
def execCpmReport (slack : List (BitVec 6)) (s : State) : Answer :=
  .next (slack.zipIdx.foldl (fun (u : State) (x : BitVec 6 × Nat) =>
    let u1 := { u with power := { u.power with sMin := if x.1 < u.power.sMin then x.1 else u.power.sMin } }
    if x.1 = 0 then (u1.dayChip 0x73 0 x.2 0 0).countChip 0xA8 1 else u1) s)

/-- A trim made now. -/
def State.trimNow (s : State) : State :=
  let v := s.power.vset.toNat
  let m := s.power.sMin.toNat
  let n := if m < 8 then (if v + 5 ≤ 820 then v + 5 else v) else if 14 ≤ m then (if setFloor + 5 ≤ v then v - 5 else v) else v
  let s1 := { s with
    power := { s.power with vset := BitVec.ofNat 10 n, sMin := 63, lastTrim := s.now, trimDue := false,
                            margin := s.power.margin || (decide (m < 8) && decide (820 < v + 5)) }
    mgmt := { s.mgmt with ledger := { s.mgmt.ledger with
      trims := ((s.mgmt.ledger.trims ++ [(s.time.tally, v, n, m, s.power.tj.toNat)]).reverse.take 256).reverse } } }
  let s2 := if m < 8 && 820 < v + 5 then (s1.dayChip 0x74 0 v 0 0).raiseAll 8 else s1
  if n ≠ v then s2.countChip 0xB0 1 else s2

/-- The tenancies whose jobs run. -/
def runningTens (s : State) : List Nat := (tenancies s).filter (fun t => s.running t)

/-- Whether a trim can be made now: no job runs, or every job that runs is in a blank course or stands. -/
def trimFree (s : State) : Bool := (runningTens s).all (fun t => !(s.ten t).course.inCourse)

/-- A trim wanted: made at once, or in a blank course that each job is given one notice for (17 R470). -/
def State.wantTrim (s : State) : State :=
  if trimFree s then s.trimNow
  else if s.power.trimDue then s
  else (runningTens s).foldl (fun (u : State) t => u.announce t (courseNow u + 9) 1) { s with power := { s.power with trimDue := true } }

/-- `TRIM`. -/
def execTrim (s : State) : Answer := .next s.wantTrim

end Sys2Proof.Machine
end

