-- ==== Sys2Proof/Machine/Course.lean ====
section
/-! DEFINITION. Course boundaries, blank notices, votes, launch, and what completes a take (09 R219 to R245, 10 R276, 13 R356, 14 R368, 18 R489 to R492). -/

namespace Sys2Proof.Machine

open Sys2Proof

/-! ### The start of a schedule course (10 R276 steps 3 to 6) -/

/-- The tag check of step 5: each core whose page lacks the tag raises the page-not-ready fault (09 R227). -/
def State.checkTags (s : State) (t : Nat) (page : BitVec 3) (tag : BitVec 8) : State :=
  (jobCores s t).foldl (fun (u : State) c =>
    if pageTag u c page = tag then u else u.progFaultAt c page.toNat 0 7 0x05 0) s

/-- The courses of the lean set that opens in the next course, for notices that come too late for it (17 R462). -/
def leanAfter (s : State) (t c : Nat) (p : CoursePos) : Option (Nat × Nat) :=
  let q := nextCourse s t p
  match opens s t q.entry with
  | some r =>
    if setTwin r then none else
      let c0 := c + 1 - (s.ten t).course.lag
      some (c0 + memberLen (setMember s t r 0), c0 + memberLen (setMember s t r (setMembers r - 1)))
  | none => none

/-- Steps 4 to 6: the entry and its variant, the tag check, the energy tag, and every sequencer at bundle 0 of the page. -/
def State.startEntry (s : State) (t : Nat) : State :=
  let k := (s.ten t).course
  let c := courseNow s
  let r := resolve s t (s.ten t).steps.step k.pending (c - k.lag) k.pos
  let w := entryWord s t r.1.entry
  let lean := match leanAfter s t c r.1 with
    | some x => some x
    | none => k.lean.filter (fun x => c < x.2)
  let s1 := s.modCourse t (fun k => { k with
    pos := r.1, first := false, consumed := k.consumed ++ r.2, phase := entPhase w, lean := lean
    stalls := k.stalls.filter (fun x => !x.ofTake) })
  let s2 := (jobCores s1 t).foldl (fun (u : State) c => u.modSeq c (fun q => { q with page := entPage w, bundle := 0 })) s1
  (s2.resumeReqs t).checkTags t (entPage w) (entTag w)

/-- Step 3 and what follows it: a take that is due is applied, or the course stands until it can be. A chip that latches a seal
mismatch at the take stops there (15 R411, R414). -/
def State.enter (s : State) (t : Nat) : State :=
  let n := s.ten t
  if !n.close.due then s.startEntry t
  else if !takeReady s t then
    if n.course.stalls.contains .merge then s else s.addStallOf t .merge
  else if !stateReady s t then
    let s1 := s.endStall t (fun x => x = .merge)
    if n.course.stalls.contains .stateBuffer then s1 else (s1.addStallOf t .stateBuffer).countTen t 0x2218 1
  else
    let odd := n.close.sealPath ≠ 0
    let s1 := s.applyTake t n.course.pos
    if odd then s1.recover t (courseNow s) else s1.startEntry t

/-- A take that waits tried again. -/
def State.tryTake (s : State) (t : Nat) : State :=
  if (s.ten t).close.due && (s.ten t).course.stalls.any Stall.ofTake then s.enter t else s

/-- A schedule course begins: `s` and the loops cleared, and a close's wait counted. The unit clocks go on from where they rest
(10 R247). -/
def State.openCourse (s : State) (t : Nat) : State :=
  let p := (aheadOf s t).next s t
  let s1 := (jobCores s t).foldl (fun (u : State) c =>
    u.modSeq c (fun q => { q with lastPos := 0, loops := [], ret := none, region := none, ended := false })) s
  let s2 := s1.modTen t (fun n => { n with
    course := { n.course with pos := p, first := true, inCourse := true, blank := none, start := s.now, s := 0, stalls := [], energy := 0, holes := [], shift := 3 }
    close := if n.close.cut then { n.close with wait := n.close.wait - 1, due := decide (n.close.wait ≤ 1) } else n.close })
  (s2.addFigure 1 1 1).enter t

/-! ### The end of a course (09 R222, R239; 17 R449, R455) -/

/-- The energy of the course or blank that ends, in units of 1/16 µJ. -/
def courseE (s : State) (t : Nat) : Nat := (s.ten t).course.energy / 4096000

/-- Whether a tenancy's schedule course has ended on every core. -/
def courseOver (s : State) (t : Nat) : Bool :=
  (jobCores s t).all (fun x => (seqOf s x).ended) && !(s.ten t).course.stalls.any Stall.ofTake

/-- A course of a tenancy that is over ends: on time, or as an overrun (09 R222). -/
def State.endCourse (s : State) (t : Nat) : State :=
  let k := (s.ten t).course
  let done (u : State) : State := (u.restClocks t).modCourse t (fun k => { k with inCourse := false, blank := none, energy := 0 })
  if k.inCourse then
    let ls := (jobCores s t).foldl (fun n x => max n (seqOf s x).len) 0 + k.s
    let s1 := s.learn t (entPhase (entryWord s t k.pos.entry)) (courseE s t)
    if 16128 < ls && ls ≤ 16384 then
      let s2 := s1.countTen t 0x2000 1
      done (if k.ovrLog.toNat < ls - 16128 then s2.dayTen t 0x10 0 (ls - 16128) (k.start / 16384) 0 else s2)
    else done s1
  else if k.blank.isSome then done (s.learn t 0xFFFF (courseE s t))
  else done s

/-! ### What a course is (09 R242, 17 R461, 18 R491) -/

/-- The blanks before and at a course dropped. -/
def State.passPending (s : State) (t c : Nat) : State :=
  s.modCourse t (fun k => { k with pending := k.pending.filter (fun b => c < b.course), consumed := k.consumed.filter (fun x => c < x) })

/-- A pending course that a slipped course still runs in is skipped. -/
def State.passSlipped (s : State) (t c : Nat) : State :=
  let k := (s.ten t).course
  if (pendingAt k.pending c).isSome && k.lag ≠ 0 then
    ((s.modCourse t (fun k => { k with lag := k.lag - 1 })).countTen t 0x2020 1).passPending t c
  else s.passPending t c

/-- Course `c` of a running job that is not held: a blank, or a schedule course. -/
def State.runCourse (s : State) (t c : Nat) : State :=
  match (aheadOf s t).turn c with
  | .blank cause =>
    let s1 := ((s.passPending t c).modCourse t (fun k => { k with blank := some cause, phase := 0xFFFF })).countTen t 0x2018 1
    let k := (s1.ten t).course
    if k.pending.length < k.lag then s1.announce t (c + 9) 0 else s1
  | .skip => (((s.modCourse t (fun k => { k with lag := k.lag - 1 })).countTen t 0x2020 1).passPending t c).openCourse t
  | .lean => ((s.countTen t 0x2248 1).passPending t c).openCourse t
  | .run => (s.passPending t c).openCourse t

/-! ### Spare swaps and holds (18 R491, R492; 09 R244) -/

/-- What stays in a physical core as its virtual core's state moves on: the stores it held (18 R491). -/
def leftBehind (s : State) (c : Core) : SpareStores :=
  { cs := partAt s.cores.cs csWords c.val, prog := partAt s.cores.prog 8192 c.val, desc := partAt s.cores.desc 1024 c.val
    purse := partAt s.cores.purse 4096 c.val, mbox := partAt s.cores.mbox mboxWords c.val, hall := partAt s.cores.hall 2048 c.val }

/-- The stores of idle cores once physical core `p` runs no virtual core any more, and `gone` runs one. -/
def idleWith (s : State) (p gone : Nat) : Sparse SpareStores :=
  match (List.finRange 64).find? (fun c => decide (phys s c = p)) with
  | some c => put ({} : SpareStores) (del s.cores.idle gone) p (leftBehind s c)
  | none => s.cores.idle

/-- A spare swap whose two courses have passed: the row's map with the assayed core as spare, which keeps what it held. -/
def State.finishSwap (s : State) (t c : Nat) : State :=
  match (s.ten t).course.swap with
  | some (p, _, y) =>
    if c ≤ y then s else
      let row := p / 9
      let old := (freeSpare s row).getD 0
      let set' := ((sparesOf s row).filter (fun x => x ≠ old)) ++ [p % 9]
      let s1 := { s with
        spares := set s.spares row (BitVec.ofNat 9 (set'.foldl (fun n x => n + 2 ^ x) 0))
        cores := { s.cores with idle := idleWith s p (9 * row + old) } }
      ((s1.modCourse t (fun k => { k with swap := none })).daybook 0x82 0 t p 13 (row * 16 + old) (p % 9) 0).startAssays
  | none => s

/-- Whether the assay of a core is still wanted or runs. -/
def assayOpen (s : State) (p : Nat) : Bool := (s.mgmt.assays ++ s.mgmt.running).any (fun a => a.kind.toNat ≤ 1 && a.target.toNat = p)

/-- A forced hold kept, from nine courses before its first; its assay starts with it. -/
def State.keepForce (s : State) (t c : Nat) : State :=
  match (s.ten t).course.force with
  | none => s
  | some (p, x) =>
    if !assayOpen s p then s.modCourse t (fun k => { k with force := none }) else
      let s1 := if x ≤ c + 9 then s.keepBlank t (c + 9) 5 else s
      if x ≤ c then
        let go := s1.mgmt.assays.filter (fun a => a.kind.toNat ≤ 1 && a.target.toNat = p)
        { s1 with mgmt := { s1.mgmt with
            assays := s1.mgmt.assays.filter (fun a => !(a.kind.toNat ≤ 1 && a.target.toNat = p)), running := s1.mgmt.running ++ go } }
      else s1

/-- The notices of a course that a running job's holds and controllers send. -/
def State.sendNotices (s : State) (t c : Nat) : State :=
  let s1 := if (s.ten t).course.hostHold then s.keepBlank t (c + 8) 4 else s
  ((s1.keepForce t c).evaluate t c).thermalBlanks t c

/-! ### Ready (09 R234, 13 R356; 16 R442, R443) -/

/-- The payload word of a launch frame. -/
def launchWord (l : Nat) (go : Bool) : BitVec 256 := BitVec.ofNat 256 (l % 2 ^ 50 + if go then 2 ^ 50 else 0)

/-- Ready sent on once this chip and every chip that sends to it are ready; the root names the launch course. -/
def State.tryReady (s : State) (t : Nat) : State :=
  let l := (s.ten t).launch
  if l.ready && (s.ten t).load.st = .loaded && hdr s t 6 1 = 0 && l.sentAt.isNone && l.course.isNone && rootChildren s t ≤ l.heard.length then
    if isRoot s t then
      let c := courseNow s + hdr s t 32 2
      (s.broadcast t 7 [MemWord.clean (launchWord c true)]).modTen t (fun n => { n with launch := { n.launch with course := some c } })
    else (s.sendRootward t 7 (launchWord 0 false)).modTen t (fun n => { n with launch := { n.launch with sentAt := some s.now } })
  else s

/-- Whether a generation that a lost chip rebuilds has every page of it (16 R443). -/
def Generation.rebuiltAll (g : Generation) (s : State) (t : Nat) : Bool :=
  !g.rebuild || ((upTo (allPages s t)).all (fun m => !g.sealedPage m)
    && (senders s t).all (fun q => decide (16 * rowCount s t ≤ look g.folded 0 q)))

/-- The slot table that a generation's state pages hold. -/
def slotTable (s : State) (t : Nat) (g : Generation) : Sparse (BitVec 256) :=
  let i := ((partOf s t 0).2 + (partOf s t 1).2) / 4
  (upTo 128).foldl (fun (m : Sparse (BitVec 256)) e => put 0 m e (slotStateWord s t g.slot (i + e))) []

/-- The generation of a restore-mode load restored, and the cautious window that follows (07 R176). -/
def State.restoreLoad (s : State) (t : Nat) (g : Generation) : State :=
  ((s.restoreGen t { g with slots := slotTable s t g }).modTen t (fun n => { n with course := { n.course with pos := g.pos, first := true } })).openCaution
    t g.step

/-- A loaded job comes to be ready: at once, or once the generation it restores is whole. -/
def State.readyNow (s : State) (t : Nat) : State :=
  let n := s.ten t
  if n.load.st ≠ .loaded || n.launch.ready then s
  else if hdr s t 7 1 = 1 then
    match n.escrow.gens with
    | g :: _ =>
      if g.rebuiltAll s t then
        (((s.restoreLoad t g).modGen t g.step (fun g => { g with rebuild := false })).modTen t
          (fun n => { n with launch := { n.launch with ready := true } })).tryReady t
      else s
    | [] => s
  else (s.modTen t (fun n => { n with launch := { n.launch with ready := true } })).tryReady t

/-! ### Launch (09 R234, R235) -/

/-- The job launched at this course: RUNNING, with a generation of its loaded step sealed (16 R424) unless that one is kept. -/
def State.launchNow (s : State) (t c : Nat) : State :=
  let s1 := s.modTen t (fun n => { n with
    load := { n.load with st := .running }
    course := { n.course with pos := if hdr s t 7 1 = 1 then n.course.pos else {}, first := true, lag := 0, hold := false } })
  let s2 := s1.modRecov t (fun r => { r with takePos := (s1.ten t).course.pos })
  let s3 := if (genOf s2 t (s2.ten t).steps.step).isSome then s2 else s2.sealGen t (s2.ten t).course.pos c
  s3.raiseTen t 12

/-! ### The boundary -/

/-- One tenancy at the boundary that begins course `c`: an error latched is acted on first, and what then still runs past the boundary
has slipped (09 R239, 10 R276). -/
def State.tenBoundary (s : State) (t c : Nat) : State :=
  let n := s.ten t
  match n.load.st with
  | .running =>
    let s0 := if n.course.inCourse && !courseOver s t then s else s.endCourse t
    let s1 := (s0.finishSwap t c).recover t c
    let m := s1.ten t
    if m.load.st ≠ .running then s1
    else if m.course.inCourse then ((s1.slip t (c - 1)).passSlipped t c).sendNotices t c
    else if m.course.stopped || m.recov.st ≠ 0 then s1.passPending t c
    else
      let s2 := s1.runCourse t c
      if (s2.ten t).course.stopped then s2 else s2.sendNotices t c
  | .loaded =>
    let s1 := (s.recover t c).readyNow t
    if (s1.ten t).load.st = .loaded && (s1.ten t).launch.course = some c && !(s1.ten t).course.stopped then
      if (s1.ten t).launch.ready then (s1.launchNow t c).runCourse t c else s1.jobFatal t 3
    else s1
  | .loading => match n.recov.ending with | some e => s.endJob t e | none => s
  | _ => s

/-- The boundary that begins course `c`; the PLL's phase moves by 1/64 cycle in a course (09 R232). -/
def State.boundary (s : State) (tp : Temps) (c : Nat) : State :=
  let s0 := if s.time.lastCourse.isSome then s.chargeStatic else s
  let s1 := { s0 with time := { s0.time with lastCourse := some c } }.takeTemps tp
  let s2 := (tenancies s1).foldl (fun (u : State) t => u.tenBoundary t c) s1
  let s3 := if s2.power.trimDue && trimFree s2 then s2.trimNow
    else if s2.power.lastTrim + dayTicks ≤ s2.now then s2.wantTrim else s2
  { s3 with power := { s3.power with penalty := s3.power.penalty - 1 }, time := { s3.time with phase := s3.time.phase - s3.time.phase.sign } }

/-- `COURSE_BOUNDARY` (10 R276): the tally reaches the next boundary, unless it stands at or past one not yet run. -/
def execCourseBoundary (tp : Temps) (s : State) : Answer :=
  if !clockOn s then .next s else
    let here := match s.time.lastCourse with
      | none => decide (s.now % 16384 = 0)
      | some n => decide (n < courseNow s)
    let s0 := if here then s else s.runTo ((courseNow s + 1) * 16384)
    .next (s0.remapCands.boundary tp (courseNow s0))

/-! ### Blank notices (09 R241) -/

/-- `BLANK_NOTICE`. -/
def execBlankNotice (p : Port) (f : Frame) (s : State) : Answer :=
  let g := s.receiveCtl p f (f.kind ≠ 5 || f.payload.length ≠ 1)
  if !g.2.1 then .next g.1 else
    let t := f.ten.toNat
    let s1 := g.1.forward t 5 p (jobAxes g.1 t) g.2.2
    let w := word0 g.2.2
    let c := bitsN w 49 0
    let cause : BitVec 3 := bits w 52 50
    let k := (s1.ten t).course
    let inLean := match k.lean with | some x => x.1 ≤ c && c < x.2 | none => false
    if (s1.ten t).load.st ≠ .running || bits w 127 96 < (s1.ten t).recov.epoch then .next s1
    else match pendingAt k.pending c with
      | some _ => .next (s1.modCourse t (fun k => { k with pending := joinBlank k.pending c cause }))
      | none =>
        if c ≤ courseNow s1 + 1 || (cause = 1 && inLean) then .next (s1.jobFatal t 2)
        else if 16 ≤ k.pending.length then .next (s1.jobFatal t 1)
        else .next (s1.modCourse t (fun k => { k with pending := joinBlank k.pending c cause }))

/-- `VOTE` (13 R356): counted toward the vote of this chip, or kept until its check issues. -/
def execVote (p : Port) (f : Frame) (s : State) : Answer :=
  let g := s.receiveCtl p f (f.kind ≠ 6 || f.payload.length ≠ 1)
  if !g.2.1 then .next g.1 else
    let t := f.ten.toNat
    let w := word0 g.2.2
    let check : BitVec 12 := bits w 11 0
    match (g.1.ten t).vote with
    | some v => if v.done then .next (g.1.modTen t (fun n => { n with votes := n.votes ++ [(p, check, bitB w 12)] }))
      else .next (g.1.countVote t p check (bitB w 12))
    | none => .next (g.1.modTen t (fun n => { n with votes := n.votes ++ [(p, check, bitB w 12)] }))

/-! ### Launch frames (13 R356) -/

/-- `LAUNCH_READY`. -/
def execLaunchReady (p : Port) (f : Frame) (s : State) : Answer :=
  let w0 := (decodeWord (nth f.payload MemWord.zero 0)).w.data
  let g := s.receiveCtl p f (f.kind ≠ 7 || f.payload.length ≠ 1 || bitB w0 50)
  if !g.2.1 then .next g.1 else
    let t := f.ten.toNat
    .next ((g.1.modTen t (fun n => { n with launch := { n.launch with heard := insertNew n.launch.heard f.src } })).tryReady t)

/-- A launch course that a chip learns (09 R235). -/
def State.takeLaunch (s : State) (t c : Nat) : State :=
  let n := s.ten t
  match n.load.st with
  | .loaded =>
    if c ≤ courseNow s + 2 then s.jobFatal t 3
    else s.modTen t (fun n => { n with launch := { n.launch with course := some c } })
  | .running => s
  | .ended => s
  | _ => (s.endError t (BitVec.ofNat 8 (Config.endCode 4))).modTen t (fun n => n.stopNow s.now)

/-- Whether a launch frame that this chip is to have is well formed and a go. -/
def goWhole (s : State) (p : Port) (f : Frame) : Bool :=
  let w := decodeWord (nth f.payload MemWord.zero 0)
  (portOf s p).link && !badHeaderOf f && decide (f.kind = 7) && decide (f.payload.length = 1) && bitB w.w.data 50 && !isPoisoned w.w
    && decide (f.dst.toNat = myId s) && decide (f.plane.toNat = p.val)

/-- `LAUNCH_GO`: a tenancy that loads its job and so is not loaded takes it as well, though it has no header yet to hold the frame to
(09 R235). -/
def execLaunchGo (p : Port) (f : Frame) (s : State) : Answer :=
  let w0 := (decodeWord (nth f.payload MemWord.zero 0)).w.data
  if (s.ten f.ten.toNat).load.st = .loading && goWhole s p f then
    .next (((s.count (portOff p.val 0x08) 1).chargeFrame p f).takeLaunch f.ten.toNat (bitsN w0 49 0))
  else
  let g := s.receiveCtl p f (f.kind ≠ 7 || f.payload.length ≠ 1 || !bitB w0 50)
  if !g.2.1 then .next g.1 else
    let t := f.ten.toNat
    .next ((g.1.forward t 7 p (jobAxes g.1 t) g.2.2).takeLaunch t (bitsN (word0 g.2.2) 49 0))

/-- `LAUNCH_TIMEOUT`: no go has come within the job's limit of ready. -/
def execLaunchTimeout (t : Ten) (s : State) : Answer :=
  let l := (s.ten t.val).launch
  match l.sentAt with
  | none => .next s
  | some v =>
    if l.course.isSome || l.timedOut || (s.ten t.val).load.st ≠ .loaded then .next s else
      let s1 := s.passTo (v + hdr s t.val 34 2 * 1800000)
      .next (((s1.dayTen t.val 0x14 0 0 v 0).notice (fnOf t.val) noteLaunch v).modTen t.val (fun n => { n with launch := { n.launch with timedOut := true } }))

/-! ### What a take waits for -/

/-- `COLLECTIVE_COMPLETE` (14 R368, R378): the results of a collective that has all it needs, a second pass of a cautious
clearing collective, or a merge pass of a close. -/
def execCollectiveComplete (t : Ten) (chan : Chan) (s : State) : Answer :=
  let ch := chan.toNat
  match collOf s t.val ch with
  | none => .next s
  | some k =>
    if !k.ready || k.done then .next s
    else if ch = 4094 then .next ((s.mergeDone t.val k).tryTake t.val)
    else if k.op = 0 && k.cautious && !k.redo && (upTo k.blocks).any (fun b => (look k.res {} b).ovf) then .next (s.redoPass t.val ch k)
    else .next (s.completeColl t.val ch k)

/-- `SEALS` (15 R400). -/
def execSeals (p : Port) (f : Frame) (s : State) : Answer :=
  let t := f.ten.toNat
  match s.takeCtl p f 6 6 false with
  | (s1, none) => .next s1
  | (s1, some ws) =>
    let v := sealOfWords f ws
    .next (((s1.modTen t (fun n => { n with steps := { n.steps with sealGot := n.steps.sealGot ++ [v] } })).compareSeals t).tryTake t)

/-- `TWIN` (15 R396). -/
def execTwin (p : Port) (f : Frame) (s : State) : Answer :=
  let t := f.ten.toNat
  match s.takeCtl p f 7 6 false with
  | (s1, none) => .next s1
  | (s1, some ws) =>
    let v := sealOfWords f ws
    .next (((s1.modTen t (fun n => { n with steps := { n.steps with twinGot := n.steps.twinGot ++ [v] } })).compareTwin t).tryTake t)

/-- `STATE_PAGES_WRITTEN` (16 R438): the newest generation's state pages, and a take that waits for them. -/
def execStatePagesWritten (t : Ten) (s : State) : Answer := .next ((s.writeState t.val).tryTake t.val)

end Sys2Proof.Machine
end

