-- ==== Sys2Proof/Machine/Tally.lean ====
section
/-! DEFINITION. Fabric links and the tally's source, master, probes and pins (09 R228 to R233, R246; 13 R338, R352, R357, R358, R362; 21 R558, R559, R565, R570). -/

namespace Sys2Proof.Machine

open Sys2Proof

/-! ### The tally master (09 R230) -/

/-- Whether a (priority, identifier) pair comes before another: a priority before none, a low one before a high one, then the
low identifier. -/
def pairBefore (a b : BitVec 8 × BitVec 16) : Bool :=
  if a.1 = 0 then decide (b.1 = 0) && decide (a.2 < b.2)
  else decide (b.1 = 0) || decide (a.1 < b.1) || (decide (a.1 = b.1) && decide (a.2 < b.2))

/-- This chip's own pair. -/
def ownPair (s : State) : BitVec 8 × BitVec 16 := (bits s.time.ctl 15 8, BitVec.ofNat 16 (myId s))

/-- The best pair this chip knows. -/
def knownPair (s : State) : BitVec 8 × BitVec 16 :=
  match s.time.best with
  | some b => if pairBefore b (ownPair s) then b else ownPair s
  | none => ownPair s

/-- Whether this chip is the master, which is not settled before a time setup: one of no priority with a parent named waits until
it has heard of another chip. -/
def isMaster (s : State) : Bool :=
  s.time.setup && decide (knownPair s = ownPair s) && (decide ((ownPair s).1 ≠ 0) || s.time.parent.isNone || s.time.best.isSome)

/-- A pair heard: a better one is adopted, and so is a new priority of the chip whose pair is known; what others say of this chip
is not (DESIGN CHOICE, log entry 64). -/
def State.hear (s : State) (b : BitVec 8 × BitVec 16) : State :=
  let take := match s.time.best with
    | some o => decide (b.2 = o.2) || pairBefore b o
    | none => true
  if take && decide (b.2 ≠ (ownPair s).2) then { s with time := { s.time with best := some b, bestAt := s.now } } else s

/-! ### The source of the core PLL (09 R229, R233; 21 R565) -/

/-- Whether a port has link with a locked recovered clock. -/
def portLocked (s : State) (p : Nat) : Bool := (portOf s (Fin.ofNat 16 p)).link && (portOf s (Fin.ofNat 16 p)).locked

/-- The source the running PLL takes. -/
def choosePll (s : State) : PllSource :=
  if isMaster s then .own
  else if portLocked s (bitsN s.time.ctl 3 0) then .portA
  else if portLocked s (bitsN s.time.ctl 7 4) then .portB
  else if s.time.everLocked then .holdover
  else .freeRun

/-- A timing interrupt: the PF, and each function whose tenancy has a job loaded (19 Table 19.4). -/
def State.raiseTime (s : State) (bit : Nat) : State :=
  ((tenancies s).filter (fun t => jobLoaded s t)).foldl (fun (u : State) t => u.raiseInt (t + 1) bit) (s.raiseInt 0 bit)

/-- The PLL's source chosen again; lock regained out of holdover is told. -/
def State.selectPll (s : State) : State :=
  if s.time.pll = .off then s else
    let n := choosePll s
    let onPort := decide (n = .portA) || decide (n = .portB)
    let s1 := { s with time := { s.time with pll := n, everLocked := s.time.everLocked || onPort } }
    if s.time.pll = .holdover && onPort then
      (s1.dayChip 0x13 0 (if n = .portA then bitsN s.time.ctl 3 0 else bitsN s.time.ctl 7 4) 0 0).raiseTime 10
    else s1

/-- A pair not heard again for two probe periods dropped, so that the choice settles after any change (09 R230; DESIGN CHOICE, log
entry 64). -/
def State.forgetPair (s : State) : State :=
  if s.time.best.isSome && decide (s.time.bestAt + 3600000 < s.now) then { s with time := { s.time with best := none } }.selectPll else s

/-! ### Links (13 R338, R352, R362; 21 R570) -/

/-- `FABRIC_LINK_UP`: a port completes training; a bad configuration keeps it down. -/
def execFabricLinkUp (p : Port) (s : State) : Answer :=
  if s.fabric.cfgBad then .next s else
    .next (s.modPort p (fun q => { q with link := true, locked := true, lost := none, down := q.failed || q.assay })).selectPll

/-- `LINK_LOSS`. -/
def execLinkLoss (p : Port) (s : State) : Answer :=
  if !(portOf s p).link then .next s else
    .next (s.modPort p (fun q => { q with link := false, locked := false, paused := 0, lost := some s.now })).selectPll

/-- `LOSS_OF_LOCK`. -/
def execLossOfLock (p : Port) (s : State) : Answer := .next (s.modPort p (fun q => { q with locked := false })).selectPll

/-- `LOCK_REGAINED`. -/
def execLockRegained (p : Port) (s : State) : Answer := .next (s.modPort p (fun q => { q with locked := q.link })).selectPll

/-- The flows that are on a port: those moved to it, and those that have frames there. -/
def flowsOn (s : State) (p : Port) : List (Nat × Nat × Nat) :=
  (s.fabric.sends.map (fun (e : Nat × SendFlow) => (e.1 / 65536 / 4096, e.1 / 65536 % 4096, e.1 % 65536))).filter
    (fun (x : Nat × Nat × Nat) => flowPort s x.1 x.2.1 x.2.2 = p
      && ((sendOf s x.1 x.2.1 x.2.2).port.isSome || decide ((sendOf s x.1 x.2.1 x.2.2).held ≠ []) || decide (x.2.1 < 4094)))

/-- `PORT_DOWN`: 1 ms after it lost link, a port is marked down and its flows move; a link assay it waited for can run. -/
def execPortDown (p : Port) (s : State) : Answer :=
  let q := portOf s p
  match q.lost with
  | none => .next s
  | some v =>
    if q.link || q.down then .next s else
      let s1 := (s.passTo (v + 1800000)).modPort p (fun q => { q with down := true })
      .next ((flowsOn s1 p).foldl (fun (u : State) (x : Nat × Nat × Nat) => u.failOver x.1 x.2.1 x.2.2) s1).startAssays

/-- Whether the axis lengths multiply to more than 65,536. -/
def axesTooLong (s : State) : Bool := decide (65536 < axisLen s 0 * axisLen s 1 * axisLen s 2 * axisLen s 3)

/-- Whether FAB_CFG and FAB_AXES are inconsistent. -/
def cfgInconsistent (s : State) : Bool :=
  let d := bitsN s.fabric.cfg 38 36
  let c := bitsN s.fabric.cfg 41 39
  let p := bitsN s.fabric.cfg 44 42
  decide (d = c) || decide (d = p) || decide (c = p) || decide (4079 < bitsN s.fabric.cfg 27 16) || axesTooLong s
    || decide (axisLen s 0 * axisLen s 1 * axisLen s 2 * axisLen s 3 ≤ myId s)

/-- A bad configuration: the ports are kept down. -/
def State.badConfig (s : State) : State :=
  ((List.finRange 16).foldl (fun (u : State) p => u.modPort p (fun q => { q with link := false, locked := false }))
    { s with fabric := { s.fabric with cfgBad := true } }).selectPll

/-- FAB_CFG written by the firmware; a write after the lock is discarded and logged (00 R10); the write that sets LOCK locks it and FAB_AXES and checks them. -/
def State.writeFabCfg (s : State) (v : BitVec 64) : State :=
  if bitB s.fabric.cfg 63 then s.dayChip 0x01 0 0x2000 v.toNat 0 else
    let s1 := { s with fabric := { s.fabric with cfg := v } }
    if bitB v 63 && cfgInconsistent s1 then s1.badConfig else s1

/-- FAB_AXES written by the firmware. -/
def State.writeFabAxes (s : State) (v : BitVec 64) : State :=
  if bitB s.fabric.cfg 63 then s.dayChip 0x01 0 0x2008 v.toNat 0 else
    let s1 := { s with fabric := { s.fabric with axes := v } }
    if axesTooLong s1 then s1.badConfig else s1

/-- `FAB_CFG_LOCK`. -/
def execFabCfgLock (value : BitVec 64) (s : State) : Answer := .next (s.writeFabCfg (value ||| (1#64 <<< 63)))

/-! ### Probes (09 R231 to R233; 13 R357) -/

/-- The parent that this chip aligns its phase to: the one named, else the master; none before a time setup, and none for the
master. -/
def parentOf (s : State) : Option Nat :=
  if !s.time.setup || isMaster s then none
  else match s.time.parent with
    | some p => some p.toNat
    | none => some (knownPair s).2.toNat

/-- The word of a probe or its answer: times, and the sender's pair in bits [199:192] and [215:200]. -/
def probeWord (s : State) (t1 t2 t3 : Nat) : BitVec 256 :=
  let b := knownPair s
  BitVec.ofNat 256 (t1 % 2 ^ 64 + t2 % 2 ^ 64 * 2 ^ 64 + t3 % 2 ^ 64 * 2 ^ 128 + b.1.toNat * 2 ^ 192 + b.2.toNat * 2 ^ 200)

/-- A probe or answer sent to a chip on a port; it belongs to no tenancy. -/
def State.sendProbe (s : State) (kind dst : Nat) (p : Port) (w : BitVec 256) : State :=
  s.emitFrame p { mkFrame s 0 kind dst 4095 0 p [MemWord.clean w] with epoch := 0, job := 0 }

/-- The answer with the smallest path delay, the first of several. -/
def bestAnswer (xs : List (Int × Int)) : Option (Int × Int) :=
  match xs with
  | [] => none
  | x :: r => match bestAnswer r with
    | some y => if y.2 < x.2 then some y else some x
    | none => some x

/-- What holdover does with a measured offset: the first row of R233 beyond its threshold, the larger one first. -/
def State.checkHoldover (s : State) (off : Int) : State :=
  if s.time.pll ≠ .holdover then s
  else if 128 < off.natAbs then
    let s1 := (s.dayChip 0x12 clsJ (BitVec.ofInt 32 off).toNat 0 0).raiseTime 11
    (tenancies s1).foldl (fun (u : State) t => u.jobEnds t 0x12) s1
  else if 16 < off.natAbs then (s.dayChip 0x11 0 (BitVec.ofInt 32 off).toNat 0 0).raiseTime 9
  else s

/-- A measured offset corrected: by the PLL's phase, or, with no job on the chip, by stepping the tally. -/
def State.correct (s : State) (off : Int) : State :=
  if (upTo 8).any (fun t => jobLoaded s t) then { s with time := { s.time with phase := 64 * off } }
  else { s with time := { s.time with tally := s.time.tally + BitVec.ofInt 64 off, lastCourse := none } }

/-- The millisecond that ends: its best answer taken, or a miss counted. -/
def State.settleProbes (s : State) : State :=
  if (parentOf s).isNone || s.time.probeSent = [] then s else
    match bestAnswer s.time.answers with
    | none => s.countChip 0x28 1
    | some (off, delay) =>
      ({ s with time := { s.time with offset := BitVec.ofInt 32 off, delay := BitVec.ofInt 32 delay } }.checkHoldover off).correct off

/-- One probe sent to the parent on the lowest live port. -/
def State.oneProbe (s : State) (dst : Nat) : State :=
  let s1 := { s with time := { s.time with probeSent := s.time.probeSent ++ [s.now] } }
  match (List.finRange 16).find? (fun p => livePort s1 p) with
  | some p => s1.sendProbe 3 dst p (probeWord s1 s1.now 0 0)
  | none => s1

/-- Eight probes 1 µs apart; `n` are left. -/
def State.sendProbes (n : Nat) (s : State) (dst : Nat) : State :=
  match n with
  | 0 => s
  | m + 1 =>
    let s1 := s.oneProbe dst
    State.sendProbes m (if m = 0 then s1 else s1.pass 1800) dst

/-- `TALLY_PROBE`: once in each 1,800,000 ticks, at the tick the schedule gives. -/
def execTallyProbe (s : State) : Answer :=
  if !clockOn s then .next s else
    let d := (s.time.schedule.toNat % 1800000 + 1800000 - s.now % 1800000) % 1800000
    let s0 := s.passTo (if d = 0 && s.time.probeSent.contains s.now then s.now + 1800000 else s.now + d)
    let s1 := s0.settleProbes
    let s2 := ({ s1 with time := { s1.time with probeSent := [], answers := [] } }).forgetPair
    match parentOf s2 with
    | some p => .next (State.sendProbes 8 s2 p)
    | none => .next s2

/-- Receipt of an unsequenced probe frame of a kind: counted, its header and address checked; the word it carries. -/
def State.takeProbe (s : State) (p : Port) (f : Frame) (kind : BitVec 4) : State × Option (BitVec 256) :=
  if !(portOf s p).link then (s, none) else
    let s1 := (s.count (portOff p.val 0x08) 1).chargeFrame p f
    if badHeaderOf f || f.kind ≠ kind || f.payload.length ≠ 1 then (s1.count (portOff p.val 0x40) 1, none)
    else if f.dst.toNat ≠ myId s ∨ f.plane.toNat ≠ p.val then (s1.count (portOff p.val 0x48) 1, none)
    else
      let d := s1.decodePayload p f.payload
      match d.2 with
      | [w] => if isPoisoned w then (d.1, none) else (d.1.hear (bits w.data 199 192, bits w.data 215 200), some w.data)
      | _ => (d.1, none)

/-- `PROBE_FRAME`: answered on the port it came on. -/
def execProbeFrame (p : Port) (f : Frame) (s : State) : Answer :=
  match s.takeProbe p f 3 with
  | (s1, none) => .next s1
  | (s1, some w) =>
    let s2 := s1.selectPll
    .next (s2.sendProbe 4 f.src.toNat p (probeWord s2 (bitsN w 63 0) s2.now s2.now))

/-- `PROBE_ANSWER`: an answer of the parent to a probe of this millisecond, unless it is late. -/
def execProbeAnswer (p : Port) (f : Frame) (s : State) : Answer :=
  match s.takeProbe p f 4 with
  | (s1, none) => .next s1
  | (s1, some w) =>
    let s2 := s1.selectPll
    let t1 : BitVec 64 := bits w 63 0
    let t2 : BitVec 64 := bits w 127 64
    let t3 : BitVec 64 := bits w 191 128
    if parentOf s2 ≠ some f.src.toNat || !s2.time.probeSent.contains t1.toNat then .next s2 else
      let s3 := s2.countChip 0x08 1
      if f.late || 11 < (t3 - t2).toInt then .next s3 else
        let fwd := (t2 - t1).toInt
        let back := (s3.time.tally - t3).toInt
        .next { s3 with time := { s3.time with answers := s3.time.answers ++ [((fwd - back).tdiv 2, (fwd + back).tdiv 2)] } }

/-! ### Pins (09 R246; 21 R558, R559) -/

/-- `PPS_IN_EDGE`. -/
def execPpsInEdge (s : State) : Answer := .next { s with time := { s.time with ppsStamp := s.time.tally, ppsSeen := true } }

/-- Ticks until a square wave of a period, high for its first `high` ticks, next changes from phase `x`. -/
def untilEdge (period high x : Nat) : Nat := if x < high then high - x else period - x

/-- PPS_OUT's phase. -/
def ppsPhase (s : State) : Nat := (s.now + 1800000000 - s.time.ppsOffset.toNat % 1800000000) % 1800000000

/-- `PPS_OUT_EDGE`: the pin's next change, or the one the tally has passed. -/
def execPpsOutEdge (s : State) : Answer :=
  if !clockOn s then .next s else
    let x := ppsPhase s
    let s1 := if s.board.pps = decide (x < 180000000) then s.pass (untilEdge 1800000000 180000000 x) else s
    .next { s1 with board := { s1.board with pps := decide (ppsPhase s1 < 180000000) } }

/-- `TALLY_REF_OUT_EDGE`. -/
def execTallyRefOutEdge (s : State) : Answer :=
  if !clockOn s then .next s else
    let x := s.now % 180
    let s1 := if s.board.tallyRef = decide (x < 90) then s.pass (untilEdge 180 90 x) else s
    .next { s1 with board := { s1.board with tallyRef := decide (s1.now % 180 < 90) } }

end Sys2Proof.Machine
end

