-- ==== Sys2Proof/Machine/Service.lean ====
section
/-! DEFINITION. The chip's own care: scrub, refresh and calibration holes, the die-ledger journal, and assays that end (12 R316, R321 to R327; 18 R483 to R490). -/

namespace Sys2Proof.Machine

open Sys2Proof

/-! ### Scrub (12 R321, R323, R325) -/

/-- The data block whose hallmark a hallmark word holds (12 R311). -/
def blockOfHall (x : Nat) : Nat := hallHash (x ^^^ 2 ^ 14) ^^^ 2 ^ 14

/-- The tenancy that owns an HBM word: the one whose share holds it, or its block. -/
def ownerOfHbm (s : State) (key : Nat) : Option Nat :=
  let w := key % stackWords
  if 0x7F00_0000 ≤ w && w < 0x7FFE_0000 then
    tenOfHbm s (stackWords * (key / stackWords) + 128 * blockOfHall (w - 0x7F00_0000))
  else tenOfHbm s key

/-- The tenancy that owns a word of a space. -/
def wordOwner (s : State) (sp : Space) (a : Nat) : Option Nat :=
  match sp with
  | .cs c => tenOf s c
  | .mbox c => tenOf s c
  | .hbm => ownerOfHbm s a

/-- The key of a word of core store or HBM. -/
def spaceKey (sp : Space) (a : Nat) : Nat := match sp with | .cs c => csKey c a | .mbox c => mboxKey c a | .hbm => a

/-- A word of core store or HBM scrubbed; `again` says that the last pass corrected it too. -/
def State.scrubWord (s : State) (sp : Space) (a : Nat) (again : Bool) : State :=
  let g := decodeWord (rawWord s sp a)
  let add (f : Nat × Nat → Nat) (u : State) : State := match errOffs s sp a with | some o => u.count (f o) 1 | none => u
  if g.corrected then
    let s1 := add (·.1) (s.writeWord sp a g.w)
    if again then s1.remap sp a else s1
  else if g.uncorr then
    let s1 := ((add (·.2) s).markUncorr sp a).writeWord sp a g.w
    match wordOwner s sp a with
    | some _ => s1
    | none =>
      let core := match sp with | .cs c => phys s c | _ => 0x7F
      s1.daybook 0x41 0 15 core (if core = 0x7F then 10 else 0) (spaceKind sp) (foldAddr s sp a) 0
  else s

/-- The words of a space that a pass corrects, as keys. -/
def correctedKeys (m : Mem) : List Nat := (m.filter (fun (e : Nat × MemWord) => (decodeWord e.2).corrected)).map (·.1)

/-- The core stores and HBM scrubbed. -/
def State.scrubData (s : State) : State :=
  let cs := correctedKeys s.cores.cs
  let hb := correctedKeys s.hbm.words
  let s1 := s.cores.cs.foldl (fun (u : State) (e : Nat × MemWord) =>
    u.scrubWord (.cs (Fin.ofNat 64 (e.1 / csWords))) (e.1 % csWords) (s.hbm.seenCs.contains e.1)) s
  let s2 := s.hbm.words.foldl (fun (u : State) (e : Nat × MemWord) => u.scrubWord .hbm e.1 (s.hbm.seen.contains e.1)) s1
  { s2 with hbm := { s2.hbm with seenCs := cs, seen := hb } }

/-- SCRUB_POISON for a word of a core no tenancy owns. -/
def State.scrubPoison (s : State) (c : Core) (kind a : Nat) : State :=
  match tenOf s c with
  | some _ => s
  | none => s.daybook 0x41 0 15 (phys s c) 0 kind (phys s c * 2 ^ 18 + a) 0

/-- The program stores scrubbed. -/
def State.scrubProg (s : State) : State :=
  s.cores.prog.foldl (fun (u : State) (e : Nat × MemWord) =>
    let g := decodeWord e.2
    let c : Core := Fin.ofNat 64 (e.1 / 8192)
    let u1 := { u with cores := { u.cores with prog := memPut u.cores.prog e.1 g.w } }
    if g.uncorr then u1.scrubPoison c 2 (e.1 % 8192) else if g.corrected then u1 else u) s

/-- The descriptor stores scrubbed, by the two words of each entry. -/
def State.scrubDesc (s : State) : State :=
  s.cores.desc.foldl (fun (u : State) (e : Nat × DescEntry) =>
    let g0 := decodeWord ⟨e.2.data.setWidth 256, e.2.syn0⟩
    let g1 := decodeWord ⟨(e.2.data >>> 256).setWidth 256, e.2.syn1⟩
    let c : Core := Fin.ofNat 64 (e.1 / 1024)
    let d : DescEntry := { e.2 with data := g1.w.data ++ g0.w.data, syn0 := g0.w.syn, syn1 := g1.w.syn }
    let u1 := { u with cores := { u.cores with desc := put {} u.cores.desc e.1 d } }
    let u2 := if g0.uncorr then u1.scrubPoison c 1 (2 * (e.1 % 1024)) else u1
    if g1.uncorr then u2.scrubPoison c 1 (2 * (e.1 % 1024) + 1) else u2) s

/-- The hallmark stores scrubbed. -/
def State.scrubHall (s : State) : State :=
  s.cores.hall.foldl (fun (u : State) (e : Nat × Cell64) =>
    match e.2.err with
    | .one _ =>
      let h : Cell64 := ⟨e.2.data, .clean⟩
      ({ u with cores := { u.cores with hall := put ⟨hallZero, .clean⟩ u.cores.hall e.1 h } } : State).countCore (Fin.ofNat 64 (e.1 / 2048)) 0x210 1
    | _ => u) s

/-- SCRUB_POISON for a word of a spare core. -/
def State.sparePoison (s : State) (p kind a : Nat) : State := s.daybook 0x41 0 15 p 0 kind (p * 2 ^ 18 + a) 0

/-- A memory as its readers decode it. -/
def scrubbedMem (m : Mem) : Mem := m.foldl (fun (m : Mem) (e : Nat × MemWord) => memPut m e.1 (decodeWord e.2).w) m

/-- A word of a descriptor entry as its readers decode it. -/
def DescEntry.got (d : DescEntry) (k : Nat) : Got := decodeWord ⟨(d.data >>> (256 * k)).setWidth 256, if k = 0 then d.syn0 else d.syn1⟩

/-- The hallmarks of a store with one bit in error. -/
def oneErrs (m : Sparse Cell64) : Sparse Cell64 := m.filter (fun (e : Nat × Cell64) => match e.2.err with | .one _ => true | _ => false)

/-- The stores of an idle core scrubbed: core store, program, descriptors and hallmarks (12 R325). -/
def SpareStores.scrubbed (x : SpareStores) : SpareStores :=
  { x with
    cs := scrubbedMem x.cs, prog := scrubbedMem x.prog
    desc := x.desc.map (fun (e : Nat × DescEntry) =>
      (e.1, { e.2 with data := (e.2.got 1).w.data ++ (e.2.got 0).w.data, syn0 := (e.2.got 0).w.syn, syn1 := (e.2.got 1).w.syn }))
    hall := (oneErrs x.hall).foldl (fun (m : Sparse Cell64) e => put ⟨hallZero, .clean⟩ m e.1 ⟨e.2.data, .clean⟩) x.hall }

/-- What the scrub of an idle core's stores counts and reports. -/
def State.noteSpare (s : State) (p : Nat) : State :=
  let x := look s.cores.idle ({} : SpareStores) p
  let s1 := x.cs.foldl (fun (u : State) (e : Nat × MemWord) =>
    let g := decodeWord e.2
    if g.corrected then u.count (coreOff p 0x200) 1
    else if g.uncorr then
      let u' := (u.count (coreOff p 0x208) 1).sparePoison p 0 e.1
      { u' with hbm := { u'.hbm with uncorrAt := u'.hbm.uncorrAt ++ [(p, s.time.tally.toNat)] } }
    else u) s
  let s2 := x.prog.foldl (fun (u : State) (e : Nat × MemWord) => if (decodeWord e.2).uncorr then u.sparePoison p 2 e.1 else u) s1
  let s3 := x.desc.foldl (fun (u : State) (e : Nat × DescEntry) =>
    (upTo 2).foldl (fun (u : State) k => if (e.2.got k).uncorr then u.sparePoison p 1 (2 * e.1 + k) else u) u) s2
  if oneErrs x.hall = [] then s3 else s3.count (coreOff p 0x210) (oneErrs x.hall).length

/-- The stores of an idle physical core scrubbed. -/
def State.scrubSpare (s : State) (p : Nat) : State :=
  let t := s.noteSpare p
  { t with cores := { t.cores with idle := put ({} : SpareStores) t.cores.idle p (look t.cores.idle ({} : SpareStores) p).scrubbed } }

/-- The stores of the cores that no virtual core runs on scrubbed. -/
def State.scrubSpares (s : State) : State := (s.cores.idle.map (·.1)).foldl State.scrubSpare s

/-- The reads of a pass, on the unowned account and scrub's own. -/
def State.chargeScrub (s : State) : State :=
  let e := eventEnergy s 9 csWords
  let s1 := (upTo 72).foldl (fun (u : State) p => u.charge none e [coreOff p 0x178, coreOff p 0x1A0, chipOff 0x100]) s
  (upTo 8).foldl (fun (u : State) st => u.charge none (eventEnergy s 12 stackWords) [stackOff st 0x28, chipOff 0x100]) s1

/-- A pass longer than 24 hours logged, once. -/
def State.logBehind (s : State) : State :=
  if dayTicks < s.now - s.hbm.passStart && !s.hbm.lateLog then
    (({ s with hbm := { s.hbm with lateLog := true } } : State).dayChip 0x43 0 ((s.now - s.hbm.passStart) / hourTicks) 0 0).countChip 0x20 1
  else s

/-- A pass begun now. -/
def State.beginPass (s : State) : State := { s with hbm := { s.hbm with passStart := s.now, lateLog := false } }

/-- `SCRUB_PASS`: a pass ends, and the next begins. -/
def execScrubPass (s : State) : Answer :=
  .next ((s.logBehind.chargeScrub.scrubData.scrubProg.scrubDesc.scrubHall.scrubSpares).countChip 0x18 1).beginPass

/-- `SCRUB_BEHIND`: the pass in progress passes 24 hours. -/
def execScrubBehind (s : State) : Answer :=
  if !clockOn s || s.hbm.lateLog then .next s else .next (s.passTo (s.hbm.passStart + dayTicks + 1)).logBehind

/-! ### Holes (12 R316) -/

/-- The next hole of the course in progress that begins with one of the windows `ws`, is `n` windows long and is not over or done:
its first window, counted from tally 0 (09 Table 09.2). -/
def nextHole (s : State) (ws : List Nat) (n : Nat) (done : Option Nat) : Option Nat :=
  if clockOn s then
    (ws.map (64 * courseNow s + ·)).find? (fun w => decide (s.now / 256 < w + n) && decide (done ≠ some w))
  else none

/-- `REFRESH_HOLE`: the next one of the course, if any is left: every stack refreshed, on the unowned account. -/
def execRefreshHole (s : State) : Answer :=
  match nextHole s [6, 19, 32, 45, 58] 1 s.hbm.refreshed with
  | none => .next s
  | some w =>
    let s1 := s.passTo (256 * w)
    .next ((upTo 8).foldl (fun (u : State) st => u.charge none (eventEnergy u 14 1) [stackOff st 0x28])
      { s1 with hbm := { s1.hbm with refreshed := some w } })

/-- `CALIBRATION_HOLE`: that of a course c with c mod 64 = 63: the on-die ECC reports of the stacks. -/
def execCalibrationHole (events : List (BitVec 16)) (s : State) : Answer :=
  match if courseNow s % 64 = 63 then nextHole s [61] 2 s.hbm.calibrated else none with
  | none => .next s
  | some w =>
    let s1 := s.passTo (256 * w)
    .next ((events.take 8).zipIdx.foldl (fun (u : State) (x : BitVec 16 × Nat) => u.count (stackOff x.2 0x10) x.1.toNat)
      { s1 with hbm := { s1.hbm with calibrated := some w } })

/-! ### The journal (18 R485) -/

/-- `LEDGER_SNAPSHOT`: sections 1 to 4 and 9, once in an hour of power-on. -/
def execLedgerSnapshot (s : State) : Answer :=
  let s1 := (s.passTo (s.mgmt.lastSnap + hourTicks)).addFigure 1 0 1
  let s2 := s1.commitFigures (fun sec => decide (1 ≤ sec && sec ≤ 4) || decide (sec = 9))
  .next { s2 with mgmt := { s2.mgmt with lastSnap := s2.now } }

/-- Whether events wait for their record: what sections 4 to 11 would hold differs from what they hold. -/
def eventsWait (s : State) : Bool :=
  let f (m : Sparse Nat) : Sparse Nat := m.filter (fun (e : Nat × Nat) => 4 ≤ e.1 / 1024)
  decide (f (figuresNow s) ≠ f s.mgmt.flash.figures) || decide ({ s.mgmt.ledger with figures := [] } ≠ { s.mgmt.flash with figures := [] })

/-- `LEDGER_EVENT_WRITE`: the gathered events, at most once in 60 s. -/
def execLedgerEventWrite (s : State) : Answer :=
  if !eventsWait s then .next s else
    match s.mgmt.lastEvt with
    | some v => .next (s.passTo (v + 60 * 1800000000)).commitEvents
    | none => .next s.commitEvents

/-! ### Assays that end (13 R361, 17 R451, 18 R487 to R490) -/

/-- The result record of Table 18.10. -/
def assayRecord (s : State) (r : AssayResult) : BitVec 192 :=
  r.first ++ r.time ++ r.errors ++ r.target ++ r.outcome ++ r.kind ++ s.time.tally

/-- What a result changes: a failed core is marked, a port goes live or stays down, new coefficients are loaded. -/
def State.applyAssay (s : State) (r : AssayResult) : State :=
  match r.kind.toNat with
  | 3 =>
    s.modPort (Fin.ofNat 16 r.target.toNat) (fun q => { q with
      assay := false
      failed := if r.outcome = 0 then false else q.failed || decide (r.outcome = 1)
      down := if r.outcome = 0 then !q.link else q.down || decide (r.outcome = 1) })
  | 4 =>
    if r.outcome ≠ 0 then s else
      let s1 := s.addFigure 11 0 1
      { s1 with power := { s1.power with recal := s1.power.recal + 1, measured := false, run := 0 } }
  | 2 => s
  | _ =>
    if r.outcome = 1 && !(s.mgmt.ledger.failed.map (·.1)).contains r.target.toNat then
      { s with mgmt := { s.mgmt with ledger := { s.mgmt.ledger with failed := s.mgmt.ledger.failed ++ [(r.target.toNat, s.time.tally)] } } }
    else s

/-- `ASSAY_COMPLETE`: the result of a running assay, recorded and told. -/
def execAssayComplete (r : AssayResult) (s : State) : Answer :=
  match s.mgmt.running.find? (fun a => a.kind = r.kind && a.target = r.target) with
  | none => .next s
  | some a =>
    let w := assayRecord s r
    let core := if r.kind.toNat ≤ 1 then r.target.toNat else 0x7F
    let s1 := { s with mgmt := { s.mgmt with
      running := s.mgmt.running.erase a
      ledger := { s.mgmt.ledger with assays := ((s.mgmt.ledger.assays ++ [w]).reverse.take 64).reverse } } }
    let s2 := (s1.applyAssay r).daybook 0x80 0 (a.ten.getD 15) core 13 0 (bitsN w 63 0) (bitsN w 127 64)
    let s3 := (s2.notice 0 noteAssay w.toNat).raiseInt 0 14
    .next ((match a.ten with | some t => s3.notice (fnOf t) noteAssay w.toNat | none => s3).startAssays)

end Sys2Proof.Machine
end

