-- ==== Sys2Proof/Machine/Manage.lean ====
section
/-! DEFINITION. Ledger requests and the daybook: how the device takes a request, and the requests that need no tenancy (18 R473 to R482, R486, R490, R495 to R498; 09 R231, R234; 12 R324; 17 R452). -/

namespace Sys2Proof.Machine

open Sys2Proof

/-! ### Taking a request (18 R474 to R478) -/

/-- Whether a function's host side can act: its VF is enabled, and the device is not in its safe state (15 R407, 19 R500). -/
def hostOn (s : State) (fn : Nat) : Bool := !s.board.safe && (decide (fn = 0) || s.mgmt.vfOn.contains fn)

/-- Whether the management domain runs (21 R553). -/
def mgmtOn (s : State) : Bool := !s.board.railsOut.contains .mgmt && !s.board.railsOut.contains .io

/-- The request ring moved past the slot taken. -/
def State.popReq (s : State) (fn : Nat) : State :=
  let m := boxOf s fn
  if m.reqHead = m.reqTail then s else s.setBox fn { m with reqHead := m.reqHead + 1 }

/-- A request taken: none while more than 768 messages wait; refused where its function may not send it or a reserved byte is not
zero; else what `act` leaves, with its status and payload. -/
def State.takeReq (s : State) (r : Req) (kind : Nat) (pfOnly : Bool) (act : State → State × Nat × Nat) : Answer :=
  if !hostOn s r.fn.val || !mgmtOn s || 768 < (boxOf s r.fn.val).backlog.length then .next s else
    let s1 := s.popReq r.fn.val
    if pfOnly && r.fn ≠ 0 then .next (s1.answer r kind 2 0)
    else if r.reserved then .next (s1.answer r kind 3 0)
    else
      let o := act s1
      .next (o.1.answer r kind o.2.1 o.2.2)

/-- Whether a request's function may name a tenancy: its own, or the PF any. -/
def ownTen (r : Req) (ten : BitVec 8) : Bool := decide (r.fn = 0) || decide (r.fn.val = ten.toNat + 1)

/-- A request about one tenancy: refused for a tenancy that is not the function's, out of range where there is none. -/
def onTen (r : Req) (ten : BitVec 8) (s : State) (act : State × Nat × Nat) : State × Nat × Nat :=
  if !ownTen r ten then (s, 2, 0) else if !s.tenExists ten.toNat then (s, 3, 0) else act

/-- Whether any job is loaded on the chip. -/
def anyLoaded (s : State) : Bool := (upTo 8).any (fun t => jobLoaded s t)

/-- A transfer unit granted to a requester by an arbiter (18 R494, R496). -/
def State.grant (s : State) (arb req n : Nat) : State := s.count (0x8000 + 0x200 * arb + 0x20 * req) n

/-- A DMA write of 32-byte words to the host, through the host-and-management gateway's arbiter. -/
def State.toHost (s : State) (req : Nat) (addr : Nat) (ws : List (BitVec 256)) : State :=
  let m := (ws.foldl (fun (p : Sparse (BitVec 256) × Nat) w => (set p.1 p.2 w, p.2 + 32)) (s.mgmt.hostMem, addr)).1
  { (s.grant 28 req (ceilDiv ws.length 128)) with mgmt := { (s.grant 28 req (ceilDiv ws.length 128)).mgmt with hostMem := m } }

/-! ### The daybook (18 R479 to R482) -/

def dayTally (w : BitVec 256) : Nat := bitsN w 63 0
def dayCode (w : BitVec 256) : Nat := bitsN w 71 64
def dayCls (w : BitVec 256) : Nat := bitsN w 74 72

/-- The order of release: the stamp, then (CORE, UNIT, CODE). -/
def dayKey (w : BitVec 256) : Nat := ((dayTally w * 128 + bitsN w 86 80) * 16 + bitsN w 90 87) * 256 + dayCode w

def dayInsert (x : BitVec 256) (l : List (BitVec 256)) : List (BitVec 256) :=
  match l with
  | [] => [x]
  | y :: r => if dayKey x < dayKey y then x :: y :: r else y :: dayInsert x r

/-- Entries in the order of release; those of one key stay in the order they arose. -/
def daySort (l : List (BitVec 256)) : List (BitVec 256) := l.foldl (fun (m : List (BitVec 256)) x => dayInsert x m) []

/-- Entries that a function may still read: DBK_UNREAD. -/
def unread (s : State) (fn : Nat) : Nat := (s.mgmt.ring.filter (fun e => e.readers.contains fn)).length

/-- Who may read an entry: the PF, and the VF of its tenancy while it is enabled. -/
def readersOf (s : State) (w : BitVec 256) : List Nat :=
  let t := bitsN w 78 75
  if t < 8 && s.tenExists t && s.mgmt.vfOn.contains (fnOf t) then [0, fnOf t] else [0]

/-- The interrupts of an entry in the ring. -/
def State.dayInts (s : State) (w : BitVec 256) (readers : List Nat) : State :=
  readers.foldl (fun (u : State) fn =>
    let th := (boxOf u fn).thresh.toNat
    let u1 := if th ≠ 0 && unread u fn = th then u.raiseInt fn 1 else u
    if dayCls w = 3 || dayCls w = 4 then u1.raiseInt fn 2 else u1) s

/-- An entry put at the ring's end. -/
def State.addEntry (s : State) (w : BitVec 256) (rs : List Nat) : State :=
  let e : DayEntry := ⟨w, rs⟩
  { s with mgmt := { s.mgmt with ring := s.mgmt.ring ++ [e] } }.dayInts w rs

/-- An entry released into the ring. While a DAYBOOK_LOST entry stands it only counts. -/
def State.releaseOne (s : State) (w : BitVec 256) : State :=
  let lost := dayWord (BitVec.ofNat 64 (dayTally w)) 0x02 0 15 0x7F 0 1 0 0
  match s.mgmt.ring.getLast? with
  | some e =>
    if dayCode e.word = 0x02 then
      let e1 : DayEntry := ⟨e.word + (1#256 <<< 96), e.readers⟩
      { s with mgmt := { s.mgmt with ring := s.mgmt.ring.dropLast ++ [e1] } }
    else if 8191 ≤ s.mgmt.ring.length then s.addEntry lost [0]
    else s.addEntry w (readersOf s w)
  | none => s.addEntry w (readersOf s w)

/-- The tally at which an entry may be released. -/
def releaseAt (w : BitVec 256) : Nat := dayTally w + 65536

/-- `DAYBOOK_RELEASE`: the entries that are due; with none due, those that fall due next. -/
def execDaybookRelease (s : State) : Answer :=
  let l := daySort s.mgmt.waiting
  match l.head? with
  | none => .next s
  | some w =>
    let s1 := s.passTo (releaseAt w)
    let due := l.filter (fun x => releaseAt x ≤ s1.now)
    .next (due.foldl (fun (u : State) x => u.releaseOne x)
      { s1 with mgmt := { s1.mgmt with waiting := s1.mgmt.waiting.filter (fun x => s1.now < releaseAt x) } })

/-- The oldest `n` entries drained by a function; an entry that no function may still read is free. -/
def drainRing (fn : Nat) (n : Nat) (l : List DayEntry) : List DayEntry × List (BitVec 256) :=
  match l with
  | [] => ([], [])
  | e :: r =>
    if n ≠ 0 && e.readers.contains fn then
      let x := drainRing fn (n - 1) r
      let left := e.readers.erase fn
      (if left = [] then x.1 else ⟨e.word, left⟩ :: x.1, e.word :: x.2)
    else
      let x := drainRing fn n r
      (e :: x.1, x.2)

/-- `DAYBOOK_DRAIN`. -/
def execDaybookDrain (r : Req) (addr : BitVec 64) (limit : BitVec 16) (s : State) : Answer :=
  s.takeReq r 0x02 false (fun s =>
    if limit = 0 || 8192 < limit.toNat then (s, 3, 0) else
      let x := drainRing r.fn.val limit.toNat s.mgmt.ring
      let s1 := { s with mgmt := { s.mgmt with ring := x.1 } }.toHost 3 addr.toNat x.2
      (s1, 0, x.2.length + unread s1 r.fn.val * 2 ^ 32))

/-! ### The die ledger read (18 R486) -/

/-- Figures of a section as the read gives them: the index and the value of each. -/
def figureWords (l : DieLedger) (sec : Nat) : List (BitVec 256) :=
  (l.figures.filter (fun (e : Nat × Nat) => e.1 / 1024 = sec)).map (fun (e : Nat × Nat) => BitVec.ofNat 256 (e.1 % 1024 + e.2 * 2 ^ 64))

/-- A section as the last records committed it; the manual gives no layout, so each item is one word. -/
def sectionWords (s : State) (sec : Nat) : List (BitVec 256) :=
  let l := s.mgmt.flash
  let num (b : Bool) : Nat := if b then 1 else 0
  match sec with
  | 0 => [BitVec.ofNat 256 ((if s.ident.is64 then 0x7064 else 0x7056) + num s.ident.isB0 * 2 ^ 16 + s.ident.serial.toNat * 2 ^ 64)]
  | 5 => l.failed.map (fun x => BitVec.ofNat 256 (x.1 + x.2.toNat * 2 ^ 64))
  | 6 => l.assays.map (fun x => x.setWidth 256)
  | 7 => l.remaps.map (fun x => BitVec.ofNat 256 (num x.1 * 2 ^ 64 + x.2)) ++ l.repairs.map (fun x => BitVec.ofNat 256 (2 ^ 65 + num x.2 * 2 ^ 66 + x.1))
  | 8 => l.trims.map (fun x => BitVec.ofNat 256 (x.1.toNat + x.2.1 * 2 ^ 64 + x.2.2.1 * 2 ^ 80 + x.2.2.2.1 * 2 ^ 96 + x.2.2.2.2 * 2 ^ 112))
  | 10 => l.device.map (fun x => BitVec.ofNat 256 (x.1.toNat + x.2.toNat * 2 ^ 64))
  | 11 => l.firmware.map (fun x => BitVec.ofNat 256 (x.1.toNat + x.2.toNat * 2 ^ 8)) ++ figureWords l 11
  | n => figureWords l n

/-- `LEDGER_READ`: the response gives the bytes written. -/
def execLedgerRead (r : Req) (sec : BitVec 8) (addr : BitVec 64) (s : State) : Answer :=
  s.takeReq r 0x07 true (fun s =>
    if 11 < sec.toNat then (s, 3, 0) else
      let ws := sectionWords s sec.toNat
      (s.toHost 7 addr.toNat ws, 0, 32 * ws.length))

/-! ### Assays, the cap, arbiters (17 R452; 18 R490, R495) -/

/-- Whether an assay's target exists. -/
def assayTarget (kind target : Nat) : Bool :=
  match kind with
  | 0 => decide (target < 72)
  | 1 => decide (target < 72)
  | 2 => decide (target < 8)
  | 3 => decide (target < 16)
  | 4 => decide (target = 0)
  | _ => false

/-- `ASSAY_REQUEST`. -/
def execAssayRequest (r : Req) (kind : BitVec 8) (target : BitVec 16) (force : Bool) (s : State) : Answer :=
  s.takeReq r 0x03 true (fun s =>
    if !assayTarget kind.toNat target.toNat then (s, 3, 0)
    else if kind = 4 && (s.mgmt.assays ++ s.mgmt.running).any (fun a => a.kind = 4) then (s, 4, 0)
    else (s.requestAssay kind.toNat target.toNat force, 0, 0))

/-- The part's TDP in watts. -/
def tdp (s : State) : Nat := if s.ident.is64 then 1500 else 1320

/-- `CAP_SET`. -/
def execCapSet (r : Req) (watts : BitVec 16) (s : State) : Answer :=
  s.takeReq r 0x04 true (fun s =>
    let w := watts.toNat
    if w < 700 || tdp s < w || w % 10 ≠ 0 then (s, 3, 0)
    else ({ s with power := { s.power with cap := putBits s.power.cap 0 (BitVec.ofNat 11 w) } }, 0, 0))

/-- An arbiter's levels, and a requester's pre-emption row (20 Table 20.20). -/
def arbLevels (s : State) (a : Nat) : BitVec 64 := look s.mgmt.arbLevel 0x0000_4924_92D6_BD21 a
def arbRowDefault (r : Nat) : BitVec 16 := 0xFFDF &&& ~~~(1#16 <<< r)
def arbRowOf (s : State) (a r : Nat) : BitVec 16 := look s.mgmt.arbRow (arbRowDefault r) (16 * a + r)

/-- `ARBITER_PRIORITY`: all the named arbiters at once, with one daybook entry. -/
def execArbiterPriority (r : Req) (mask : BitVec 33) (requester : BitVec 4) (level : BitVec 3) (row : BitVec 16) (s : State) : Answer :=
  s.takeReq r 0x0C true (fun s =>
    let q := requester.toNat
    match (upTo 33).filter (fun a => mask.getLsbD a) with
    | [] => (s, 3, 0)
    | a0 :: as =>
      let s1 := (a0 :: as).foldl (fun (u : State) a => { u with mgmt := { u.mgmt with
        arbLevel := put 0x0000_4924_92D6_BD21 u.mgmt.arbLevel a (putBits (arbLevels u a) (3 * q) level)
        arbRow := put (arbRowDefault q) u.mgmt.arbRow (16 * a + q) (row &&& ~~~(1#16 <<< q)) } }) s
      (s1.dayChip 0x91 0 a0 (q * 8 + level.toNat) 0, 0, 0))

/-! ### Time (09 R231, R234, R246; 13 R358) -/

/-- A time setup's effect, with its status. -/
def State.timeOp (s : State) (op : TimeOp) : State × Nat × Nat :=
  let ok (t : Time) : State × Nat × Nat := ({ s with time := { t with setup := true } }.selectPll, 0, 0)
  match op with
  | .parent id schedule children hops =>
    if 256 < children.toNat || 4 < hops.toNat then (s, 3, 0)
    else ok { s.time with parent := some id, schedule := schedule }
  | .child id port schedule =>
    if (find s.time.children id.toNat).isNone && 256 ≤ s.time.children.length then (s, 3, 0)
    else ok { s.time with children := set s.time.children id.toNat (port.val, schedule) }
  | .timeBase seconds => ok { s.time with timeBase := seconds }
  | .ptp grandmaster clockClass => ok { s.time with grand := grandmaster, clockClass := clockClass }
  | .ppsOffset ticks => if 1800000000 ≤ ticks.toNat then (s, 3, 0) else ok { s.time with ppsOffset := ticks }
  | .tallyCtl portA portB masterPri =>
    ok { s.time with ctl := BitVec.ofNat 64 (portA.toNat + portB.toNat * 2 ^ 4 + masterPri.toNat * 2 ^ 8) }

/-- `TIME_SETUP`. -/
def execTimeSetup (r : Req) (op : TimeOp) (s : State) : Answer := s.takeReq r 0x0B true (fun s => s.timeOp op)

/-- The clockClass the device advertises. -/
def ptpClass (s : State) : BitVec 8 := if s.time.pll = .holdover then 248 else s.time.clockClass

/-- PTP time at a tally: TLY_TIME_BASE plus the tally at 1.8 GHz, as seconds, nanoseconds and 2⁻¹⁶ ns (09 R246). -/
def ptpTime (s : State) (v : Nat) : BitVec 48 × BitVec 32 × BitVec 16 :=
  let r := v % 1800000000 * 5
  (s.time.timeBase + BitVec.ofNat 48 (v / 1800000000), BitVec.ofNat 32 (r / 9), BitVec.ofNat 16 (r % 9 * 65536 / 9))

/-- `DELAY_REQUEST`: PTP time at its arrival, to the tick, returned to the requester with the clockClass advertised, while the clock
runs as grandmaster and the management Ethernet is on. -/
def execDelayRequest (seqId : BitVec 16) (s : State) : Answer :=
  if s.time.grand && bitB s.board.straps 4 && mgmtOn s then
    let x := ptpTime s s.now
    .next { s with time := { s.time with ptpSent := s.time.ptpSent ++ [⟨seqId, x.1, x.2.1, x.2.2, ptpClass s⟩] } }
  else .next s

/-- `LAUNCH`: an agreed count, taken by this chip and sent to the job's chips; one for a job that is not loaded is class J of it (09 R235). -/
def execLaunch (r : Req) (ten : BitVec 8) (course : BitVec 50) (s : State) : Answer :=
  s.takeReq r 0x0D false (fun s => onTen r ten s (
    let t := ten.toNat
    if (s.ten t).load.st = .loading ∨ (s.ten t).load.st = .failed then (s.takeLaunch t course.toNat, 5, 0)
    else if (s.ten t).load.st ≠ .loaded then (s, 5, 0)
    else (((s.broadcast t 7 [MemWord.clean (launchWord course.toNat true)]).takeLaunch t course.toNat), 0, 0)))

/-- `BLANK_REQUEST`: 1 to 16 blanks of cause 3; the response names the first course, and every course as its distance from it. -/
def execBlankRequest (r : Req) (ten count : BitVec 8) (s : State) : Answer :=
  s.takeReq r 0x06 false (fun s => onTen r ten s (
    let t := ten.toNat
    if count = 0 || 16 < count.toNat then (s, 3, 0)
    else if !s.running t then (s, 5, 0)
    else
      let old := (s.ten t).course.pending.map (·.course)
      let s1 := (upTo count.toNat).foldl (fun (u : State) _ => u.announce t (courseNow u + 9) 3) s
      let new := ((s1.ten t).course.pending.map (·.course)).filter (fun c => !old.contains c)
      let first := new.foldl min (new.headD 0)
      (s1, 0, first + (new.foldl (fun n c => n + 2 ^ (c - first)) 0) % 2 ^ 128 * 2 ^ 64)))

/-! ### Repair (12 R324) -/

/-- One row of a repair window: repaired, with its words' spares freed, or left remapped. -/
def State.repairRow (s : State) (row : Nat) (ok : Bool) : State :=
  let keep (k : Nat) : Bool := decide (hbmRow k ≠ row)
  if ok then { s with
    hbm := { s.hbm with repair := s.hbm.repair.erase row, remapHbm := s.hbm.remapHbm.filter keep }
    mgmt := { s.mgmt with ledger := { s.mgmt.ledger with
      repairs := s.mgmt.ledger.repairs ++ [(row, true)], remaps := s.mgmt.ledger.remaps.filter (fun x => !x.1 || keep x.2) } } }
  else { s with mgmt := { s.mgmt with ledger := { s.mgmt.ledger with repairs := s.mgmt.ledger.repairs ++ [(row, false)] } } }

/-- `MAINTENANCE`: a repair window; one outcome for each row of the list, as far as outcomes come. -/
def execMaintenance (r : Req) (repaired : List Bool) (s : State) : Answer :=
  s.takeReq r 0x0E true (fun s =>
    if anyLoaded s then (s, 6, 0)
    else (((s.hbm.repair.zip repaired).foldl (fun (u : State) (x : Nat × Bool) => u.repairRow x.1 x.2) s).startAssays, 0, 0))

/-- `UNKNOWN_KIND`. -/
def execUnknownKind (r : Req) (kind : BitVec 8) (s : State) : Answer := s.takeReq r kind.toNat false (fun s => (s, 1, 0))

/-! ### Firmware (18 R497, R498) -/

def slotOf (s : State) (b : Bool) : FwSlot := if b then s.mgmt.slot1 else s.mgmt.slot0

/-- Whether a slot's image is valid. -/
def fwValid (s : State) (f : FwSlot) : Bool :=
  !f.blank && f.image.digestOk && f.image.sigOk && !s.mgmt.revoked.getLsbD f.image.key.toNat && decide (s.mgmt.fuseMin ≤ f.image.security)

/-- A slot's contents replaced. -/
def State.setSlot (s : State) (b : Bool) (f : FwSlot) : State :=
  { s with mgmt := if b then { s.mgmt with slot1 := f } else { s.mgmt with slot0 := f } }

/-- A firmware event in the daybook and the die ledger. -/
def State.fwEvent (s : State) (ev slot : Nat) : State :=
  let s1 := s.daybook 0x90 0 15 0x7F 13 ev slot 0
  { s1 with mgmt := { s1.mgmt with ledger := { s1.mgmt.ledger with
      firmware := ((s1.mgmt.ledger.firmware ++ [(BitVec.ofNat 8 ev, BitVec.ofNat 8 slot)]).reverse.take 16).reverse } } }

/-- `FW_STAGE`: an image of at most 8 MiB into the slot that did not boot. -/
def execFwStage (r : Req) (_addr : BitVec 64) (len : BitVec 32) (image : FwImage) (s : State) : Answer :=
  s.takeReq r 0x08 true (fun s =>
    if len = 0 || 8 * 2 ^ 20 < len.toNat then (s, 3, 0) else
      let b := !s.mgmt.runSlot
      (((s.setSlot b ⟨image, false⟩).grant 28 7 (ceilDiv len.toNat 4096)).fwEvent 0 b.toNat, 0, 0))

/-- `FW_COMMIT`: a valid slot made the next to boot; one that fails verification stays uncommitted. -/
def execFwCommit (r : Req) (slot : BitVec 8) (s : State) : Answer :=
  s.takeReq r 0x09 true (fun s =>
    if 1 < slot.toNat then (s, 3, 0) else
      let b := decide (slot = 1)
      let f := slotOf s b
      if !fwValid s f then (s.fwEvent 3 slot.toNat, 7, 0) else
        let o := slotOf s !b
        let n := if o.image.sequence < f.image.sequence then f.image.sequence else o.image.sequence + 1
        let s1 := (s.setSlot b ⟨{ f.image with sequence := n }, false⟩).fwEvent 1 slot.toNat
        ({ s1 with mgmt := { s1.mgmt with nextSlot := b } }, 0, 0))

/-- The slot the boot ROM starts: the valid one with the higher sequence number; whether it is the second one tried. -/
def bootSlot (s : State) : Option (Bool × Bool) :=
  let first := !s.mgmt.slot1.blank && (s.mgmt.slot0.blank || decide (s.mgmt.slot0.image.sequence < s.mgmt.slot1.image.sequence))
  if fwValid s (slotOf s first) then some (first, false)
  else if fwValid s (slotOf s !first) then some (!first, true)
  else none

/-- The management domain started on a slot; the fuses take the new image's minimum, a fallback is recorded. -/
def State.startFw (s : State) (b fell : Bool) : State :=
  let v := (slotOf s b).image.security
  let s1 := { s with
    mgmt := { s.mgmt with runSlot := b, nextSlot := b, fuseMin := if s.mgmt.fuseMin < v then v else s.mgmt.fuseMin }
    board := { s.board with fallback := fell } }
  if fell then s1.fwEvent 4 b.toNat else s1

/-- The management domain restarted on the committed image: the mailboxes lose their backlog. -/
def State.restartMgmt (s : State) : State :=
  let s1 := { s with mgmt := { s.mgmt with
    mailboxes := tidy {} (s.mgmt.mailboxes.map (fun (e : Nat × Mailbox) => (e.1, { e.2 with backlog := [] }))) } }
  match bootSlot s1 with
  | some (b, fell) => s1.startFw b fell
  | none => { s1 with board := { s1.board with stage := 2, fail := 0x10, detail := 3 } }

/-- `FW_ACTIVATE`. -/
def execFwActivate (r : Req) (s : State) : Answer :=
  s.takeReq r 0x0A true (fun s =>
    if anyLoaded s then (s, 6, 0) else
      let s1 := s.restartMgmt
      (s1.fwEvent 2 s1.mgmt.runSlot.toNat, 0, 0))

end Sys2Proof.Machine
end

