-- ==== Sys2Proof/Machine/Tenancy.lean ====
section
/-! DEFINITION. Tenancy setup: rows, ports, shares, window allowances, partitions and weights; what a share leaves is cleared; virtual functions enabled (19 R500, R509 to R514; 18 R481). -/

namespace Sys2Proof.Machine

open Sys2Proof

/-- Whether a tenancy's rows hold row `y`. -/
def TenDef.ownsRow (d : TenDef) (y : Nat) : Bool := decide (d.y0.toNat ≤ y) && decide (y < d.y0.toNat + d.h.toNat)

/-- Whether a tenancy's rows hold a gateway of stack `st`, so that it may hold a share there (19 R510). -/
def TenDef.reaches (d : TenDef) (st : Nat) : Bool :=
  let r := if st < 4 then 2 * st else 2 * st - 8
  decide (st < 8) && (d.ownsRow r || d.ownsRow (r + 1))

/-- Whether two runs of numbers share one. -/
def runsMeet (a n b m : Nat) : Bool := decide (a < b + m) && decide (b < a + n)

/-- A setup of an existing tenancy: refused while its load state is not EMPTY (19 R513). -/
def onEmpty (s : State) (ten : BitVec 8) (act : State × Nat × Nat) : State × Nat × Nat :=
  if !s.tenExists ten.toNat then (s, 3, 0)
  else if (s.ten ten.toNat).load.st ≠ .empty then (s, 6, 0)
  else act

/-- A tenancy's definition changed. -/
def State.modDef (s : State) (t : Nat) (f : TenDef → TenDef) : State := s.modTen t (fun n => { n with def_ := f n.def_ })

/-- Whether a new tenancy's rows and ports are its own to take (19 R509, R511). -/
def createOk (s : State) (ten y0 h weight : BitVec 8) (ports : BitVec 16) : Bool :=
  let free (d : TenDef) : Bool := !runsMeet y0.toNat h.toNat d.y0.toNat d.h.toNat && decide (d.ports &&& ports = 0)
  decide (ten.toNat < 8) && decide (1 ≤ h.toNat) && decide (y0.toNat + h.toNat ≤ 8) && decide (weight ≠ 0)
    && (decide (bitsN ports 7 0 = 0) || decide (y0 = 0)) && (decide (bitsN ports 15 8 = 0) || decide (y0.toNat + h.toNat = 8))
    && (tenancies s).all (fun t => free (s.ten t).def_)

/-- `CREATE`. -/
def execCreate (r : Req) (ten y0 h weight : BitVec 8) (ports : BitVec 16) (s : State) : Answer :=
  s.takeReq r 0x05 true (fun s =>
    if s.tenExists ten.toNat then (s, if (s.ten ten.toNat).load.st = .empty then 3 else 6, 0)
    else if !createOk s ten y0 h weight ports then (s, 3, 0)
    else
      let d : TenDef := { exists_ := true, y0 := y0.setWidth 3, h := h.setWidth 4, ports := ports }
      let n : Tenancy := { def_ := d, weight := weight }
      (s.setTen ten.toNat n, 0, 0))

/-- What a run of words `a`, `n` leaves free when it becomes the run `b`, `m`. -/
def runLeft (a n b m : Nat) : List (Nat × Nat) :=
  if !runsMeet a n b m then (if n = 0 then [] else [(a, n)])
  else (if a < b then [(a, b - a)] else []) ++ (if b + m < a + n then [(b + m, a + n - (b + m))] else [])

/-- Released words put among those that the scrub slots clear (19 R514). -/
def State.freeRuns (s : State) (st : Nat) (rs : List (Nat × Nat)) : State :=
  { s with hbm := { s.hbm with clearing := s.hbm.clearing ++ rs.map (fun (r : Nat × Nat) => (st, r.1, r.2)) } }

/-- `SHARE`: set, changed, or with size 0 removed. -/
def execShare (r : Req) (ten stack : BitVec 8) (base size : BitVec 32) (s : State) : Answer :=
  s.takeReq r 0x05 true (fun s => onEmpty s ten (
    let t := ten.toNat
    let st := stack.toNat
    let d := (s.ten t).def_
    let old := shareOf s t st
    let a := 8192 * base.toNat
    let n := 8192 * size.toNat
    if !d.reaches st then (s, 3, 0)
    else if size = 0 then
      ((s.modDef t (fun d => { d with shares := del d.shares st })).freeRuns st (runLeft old.1 old.2 0 0), 0, 0)
    else if 16646144 < 64 * (base.toNat + size.toNat) then (s, 3, 0)
    else if (tenancies s).any (fun u => u ≠ t && runsMeet a n (shareOf s u st).1 (shareOf s u st).2) then (s, 3, 0)
    else if s.hbm.clearing.any (fun (x : Nat × Nat × Nat) => x.1 = st && runsMeet a n x.2.1 x.2.2) then (s, 4, 0)
    else ((s.modDef t (fun d => { d with shares := set d.shares st (base.toNat, size.toNat) })).freeRuns st (runLeft old.1 old.2 a n), 0, 0)))

/-- The windows of Table 09.2, which no allowance may set. -/
def holeMask : BitVec 64 := 0xE400_2001_0008_0040

/-- `WINDOWS`. -/
def execWindows (r : Req) (ten stack : BitVec 8) (allow : BitVec 64) (s : State) : Answer :=
  s.takeReq r 0x05 true (fun s => onEmpty s ten (
    let t := ten.toNat
    let st := stack.toNat
    if !(s.ten t).def_.reaches st || allow &&& holeMask ≠ 0
      || (tenancies s).any (fun u => u ≠ t && look (s.ten u).def_.allow 0 st &&& allow ≠ 0) then (s, 3, 0)
    else (s.modDef t (fun d => { d with allow := put 0 d.allow st allow }), 0, 0)))

/-- Entries on the chip and unit of each partitioned store (19 Table 19.5). -/
def storeEntries (code : Nat) : Nat := nth [524288, 4096, 8192, 4096, 16384, 4096, 1024, 1024] 0 code
def storeUnit (code : Nat) : Nat := nth [1024, 16, 16, 16, 64, 16, 1, 16] 1 code

/-- Sizes of a partition of the phase table: powers of two from 16 to 1,024. -/
def phaseSizes : List Nat := [0, 16, 32, 64, 128, 256, 512, 1024]

/-- `PARTITION`: base and size in the store's unit, in entries for the phase table. -/
def execPartition (r : Req) (ten code : BitVec 8) (base size : BitVec 32) (s : State) : Answer :=
  s.takeReq r 0x05 true (fun s => onEmpty s ten (
    let t := ten.toNat
    let k := code.toNat
    let a := base.toNat * storeUnit k
    let n := size.toNat * storeUnit k
    if 8 ≤ k || storeEntries k < a + n || (k = 6 && !phaseSizes.contains n)
      || (tenancies s).any (fun u => u ≠ t && runsMeet a n (partOf s u k).1 (partOf s u k).2) then (s, 3, 0)
    else (s.modDef t (fun d => { d with parts := if n = 0 then del d.parts k else set d.parts k (a, n) }), 0, 0)))

/-- `WEIGHT`: accepted in any load state. -/
def execWeight (r : Req) (ten w : BitVec 8) (s : State) : Answer :=
  s.takeReq r 0x05 true (fun s =>
    if !s.tenExists ten.toNat || w = 0 then (s, 3, 0)
    else (s.modTen ten.toNat (fun n => { n with weight := w }), 0, 0))

/-- A function's entitlement to what it has not drained ended (18 R481). -/
def State.dropReader (s : State) (fn : Nat) : State :=
  let l := s.mgmt.ring.map (fun (e : DayEntry) => ({ e with readers := e.readers.filter (fun x => x ≠ fn) } : DayEntry))
  { s with mgmt := { s.mgmt with ring := l.filter (fun e => decide (e.readers ≠ [])) } }

/-- Everything a tenancy holds freed; its shares' words are to be cleared. -/
def State.freeTen (s : State) (t : Nat) : State :=
  let d := (s.ten t).def_
  let s1 := (upTo 8).foldl (fun (u : State) st => u.freeRuns st (runLeft (shareOf s t st).1 (shareOf s t st).2 0 0)) s
  ({ s1 with tens := del s1.tens t, spares := s1.spares.filter (fun (e : Nat × BitVec 9) => !d.ownsRow e.1) }).dropReader (fnOf t)

/-- `DESTROY`: of a tenancy that does not exist, nothing. -/
def execDestroy (r : Req) (ten : BitVec 8) (s : State) : Answer :=
  s.takeReq r 0x05 true (fun s =>
    if !s.tenExists ten.toNat then (s, 0, 0) else onEmpty s ten (s.freeTen ten.toNat, 0, 0))

/-- Whether a released run holds an HBM word, or the block whose hallmark it is. -/
def inReleased (rs : List (Nat × Nat × Nat)) (key : Nat) : Bool :=
  let w := key % stackWords
  let d := if 0x7F00_0000 ≤ w && w < 0x7FFE_0000 then 128 * blockOfHall (w - 0x7F00_0000) else w
  rs.any (fun (x : Nat × Nat × Nat) => x.1 = key / stackWords && x.2.1 ≤ d && d < x.2.1 + x.2.2)

/-- `SHARE_CLEARING_DONE`: every released block reads as zero, with the hallmark of one. -/
def execShareClearingDone (s : State) : Answer :=
  let rs := s.hbm.clearing
  let s1 := rs.foldl (fun (u : State) (x : Nat × Nat × Nat) =>
    u.charge none (eventEnergy u 13 (x.2.2 + x.2.2 / 128)) [stackOff x.1 0x28, chipOff 0x100]) s
  .next { s1 with hbm := { s1.hbm with
    words := s1.hbm.words.filter (fun (e : Nat × MemWord) => !inReleased rs e.1)
    stash := s1.hbm.stash.filter (fun (e : Nat × BitVec 64) => !inReleased rs e.1), clearing := [] } }

/-- `VF_ENABLE`: the VF of a tenancy enabled or disabled. -/
def execVfEnable (vf : Ten) (on : Bool) (s : State) : Answer :=
  let fn := fnOf vf.val
  if on then .next { s with mgmt := { s.mgmt with vfOn := insertNew s.mgmt.vfOn fn } }
  else .next ({ s with mgmt := { s.mgmt with vfOn := s.mgmt.vfOn.filter (fun x => x ≠ fn) } }.dropReader fn)

end Sys2Proof.Machine
end

