-- ==== Sys2Proof/Machine/Loader.lean ====
section
/-! DEFINITION. The load engine: the load list, the commit checks, what a loaded job starts with, and the unload (19 R516 to R523; 16 R440, R443). -/

namespace Sys2Proof.Machine

open Sys2Proof

/-! ### Sources (19 R517) -/

/-- The run of HBM words that a share-relative address (11 Table 11.2) and a length name, as keys: its first; none where it
leaves the share. -/
def shareRun (s : State) (t : Nat) (a : BitVec 34) (n : Nat) : Option Nat :=
  let st := bitsN a 33 31
  let sh := shareOf s t st
  if bitsN a 30 0 + n ≤ sh.2 then some (stackWords * st + sh.1 + bitsN a 30 0) else none

/-- The source words of a record read in background as requester 6; none where a whole block fails its CRC or a word is
poisoned. -/
def State.loadWords (s : State) (key n : Nat) : State × Option (List (BitVec 256)) :=
  let as := (upTo n).map (key + ·)
  let e := eventEnergy s 12 n
  let s1 := (s.noteReads .hbm as).account (chipOff 0x130) e
  let ws := as.map (fun a => readWord s .hbm a)
  let whole := (blocksOf as).filter (fun b => wholeBlock as b)
  if whole.any (fun b => crcFails s .hbm b) || ws.any isPoisoned then (s1, none) else (s1, some (ws.map (·.data)))

/-- Unit `i` of `u` bytes, 32 a multiple of `u`, of packed words. -/
def packed (u : Nat) (ws : List (BitVec 256)) (i : Nat) : Nat := (nth ws 0 (i * u / 32)).toNat / 2 ^ (8 * (i * u % 32)) % 2 ^ (8 * u)

/-! ### Targets (19 Table 19.8) -/

/-- Bytes of a unit of a target, and how many units it has; no unit where the target is reserved. -/
def targetUnit (target : Nat) : Nat := nth [0, 256, 32768, 128, 32, 96, 64, 8, 4, 8, 8, 16, 8, 8, 8, 32] 0 target
def targetSize (s : State) (t target : Nat) : Nat :=
  nth [0, 1, 8, 1024, csWords, (partOf s t 2).2, (partOf s t 2).2, (partOf s t 3).2, (partOf s t 4).2, (partOf s t 1).2, (partOf s t 0).2,
    (partOf s t 5).2, 16, 16, 64, 128] 0 target

/-- A load-list record. -/
def recTarget (w : BitVec 256) : Nat := bitsN w 7 0
def recFirst (w : BitVec 256) : Nat := bitsN w 63 32
def recCount (w : BitVec 256) : Nat := bitsN w 95 64
def recSrc (w : BitVec 256) : BitVec 34 := bits w 129 96

/-- The core a record names, in the chip's numbering. -/
def loadCore (s : State) (t : Nat) (w : BitVec 256) : Core := Fin.ofNat 64 (8 * (s.ten t).def_.y0.toNat + bitsN w 13 8)

/-- The code of a record whose fields are not as the table says: a course table or scale ledger that does not fit its share has its
own (07 R163, 09 R224; 19 Table 19.13). -/
def recordCode (s : State) (t : Nat) (w : BitVec 256) : Nat :=
  if (recTarget w = 5 ∨ recTarget w = 10) ∧ targetSize s t (recTarget w) < recFirst w + recCount w then 0x05 else 0x06

/-- Whether a word of a course table or program names page tag 0: an entry, a `PJUMP` or an `FBCHK` (10 R260). -/
def namesNoTag (target : Nat) (ws : List (BitVec 256)) : Bool :=
  match target with
  | 2 => ws.any (fun w => bitB w 15 && (match decodeSq 0 (bits w 255 208) with
    | some (.pjump _ _ g) => g = 0
    | some (.fbchk _ _ _ _ _ g) => g = 0
    | _ => false))
  | 5 => (ws.zipIdx.filter (fun x => x.2 % 3 = 0)).any (fun x => bitsN x.1 15 8 = 0)
  | _ => false

/-- Whether a record's fields are as the table says; the first record, and no other, is the job header. -/
def recordOk (s : State) (t i : Nat) (w : BitVec 256) : Bool :=
  let k := recTarget w
  let ofCore := decide (2 ≤ k) && decide (k ≤ 4)
  decide (1 ≤ k) && decide (k ≤ 15) && decide ((k = 1) = (i = 0)) && decide (bitsN w 15 14 = 0) && decide (bitsN w 31 25 = 0)
    && decide (bitsN w 255 130 = 0) && decide (1 ≤ recCount w) && decide (recFirst w + recCount w ≤ targetSize s t k)
    && (if ofCore then decide (bitsN w 10 8 < gridW s) && decide (bitsN w 13 11 < (s.ten t).def_.h.toNat) else decide (bitsN w 13 8 = 0))

/-- Program pages with their tag. -/
def State.loadPages (s : State) (c : Core) (first count : Nat) (tag : BitVec 8) (ws : List (BitVec 256)) : State :=
  { s with cores := { s.cores with
      prog := memPuts s.cores.prog (8192 * c.val + 1024 * first) (ws.map MemWord.clean)
      tags := (upTo count).foldl (fun (m : Sparse (BitVec 8)) i => put 0 m (8 * c.val + first + i) tag) s.cores.tags
      fills := (upTo count).foldl (fun (m : Sparse PageFill) i => del m (8 * c.val + first + i)) s.cores.fills } }

/-- Descriptor entries: two words that give KIND before each entry's 512 bits; a bitmap is always read-only. -/
def State.loadDescs (s : State) (c : Core) (first count : Nat) (ro : Bool) (ws : List (BitVec 256)) : State :=
  { s with cores := { s.cores with
      desc := (upTo count).foldl (fun (m : Sparse DescEntry) i =>
        let kind : BitVec 3 := bits (nth ws 0 (4 * i)) 2 0
        let d : DescEntry := { kind := kind, data := nth ws 0 (4 * i + 3) ++ nth ws 0 (4 * i + 2), ro := ro || decide (kind = 4) }
        put {} m (1024 * c.val + first + i) d) s.cores.desc
      descWas := (upTo count).foldl (fun (m : Sparse DescWas) i => del m (1024 * c.val + first + i)) s.cores.descWas } }

/-- Core-store words with the hallmarks of their source blocks; a block that is not loaded whole gets one of NOCRC. -/
def State.loadCs (s : State) (c : Core) (first key : Nat) (ws : List (BitVec 256)) : State :=
  let outs : List Out := ws.zipIdx.map (fun (x : BitVec 256 × Nat) =>
    ⟨first + x.2, MemWord.clean x.1, hallMax (hallOf s .hbm (key + x.2)), hallOvf (hallOf s .hbm (key + x.2)), allBytes⟩)
  let as := outs.map (·.a)
  let s1 := outs.foldl (fun (u : State) o => (u.writeWord (.cs c) o.a o.w).chargeCore c 10 1 0x1A0) s
  (blocksOf as).foldl (fun (u : State) b =>
    let k := if 128 * b ≤ first then key else key + (128 * b - first)
    let h := hallOf s .hbm k
    u.writeHall (.cs c) (128 * b) (if wholeBlock as b && k % 128 = 0 then h
      else newHall (hallOf s (.cs c) (128 * b)) (hallFmt h) (hallGen h) outs b)) s1

/-- A store of records with `count` of them from entry `at'` on. -/
def loadStore {n : Nat} (m : Sparse (BitVec n)) (at' count u : Nat) (ws : List (BitVec 256)) : Sparse (BitVec n) :=
  (upTo count).foldl (fun (m : Sparse (BitVec n)) i => put 0 m (at' + i) (BitVec.ofNat n (packed u ws i))) m

/-- Twin or seal records loaded, with nothing folded in yet. -/
def loadFolds (m : Sparse FoldRec) (at' count : Nat) (ws : List (BitVec 256)) : Sparse FoldRec :=
  (upTo count).foldl (fun (m : Sparse FoldRec) i => set m (at' + i) { record := BitVec.ofNat 64 (packed 8 ws i) }) m

/-- The job header from its 8 words. -/
def headerOf (ws : List (BitVec 256)) : BitVec 2048 := BitVec.ofNat 2048 (ws.foldr (fun w n => n * 2 ^ 256 + w.toNat) 0)

/-- A record's source words copied into its target. With the job header every slot's seed is its LOAD_SEED, which a slot table of
the list replaces (07 R187). -/
def State.loadInto (s : State) (t : Nat) (w : BitVec 256) (key : Nat) (ws : List (BitVec 256)) : State :=
  let f := recFirst w
  let n := recCount w
  let c := loadCore s t w
  let base (r : Nat) : Nat := (partOf s t r).1 + f
  match recTarget w with
  | 0x01 =>
    let seeds : Sparse (BitVec 256) := (upTo 128).foldl (fun (m : Sparse (BitVec 256)) i => put 0 m i ((bits (headerOf ws) 191 128 : BitVec 64).setWidth 256)) []
    s.modTen t (fun x => { x with load := { x.load with header := headerOf ws }, steps := { x.steps with live := seeds, staged := seeds } })
  | 0x02 => s.loadPages c f n (bits w 23 16) ws
  | 0x03 => s.loadDescs c f n (bitB w 24) ws
  | 0x04 => s.loadCs c f key ws
  | 0x05 => { s with stores := { s.stores with table := loadStore s.stores.table (3 * base 2) (3 * n) 32 ws } }
  | 0x06 => { s with stores := { s.stores with masks := (upTo n).foldl (fun (m : Sparse (BitVec 512)) i =>
      put 0 m (base 2 + i) (nth ws 0 (2 * i + 1) ++ nth ws 0 (2 * i))) s.stores.masks } }
  | 0x07 => { s with stores := { s.stores with sets := loadStore s.stores.sets (base 3) n 8 ws } }
  | 0x08 => { s with stores := { s.stores with members := loadStore s.stores.members (base 4) n 4 ws } }
  | 0x09 => { s with stores := { s.stores with regions := loadStore s.stores.regions (base 1) n 8 ws } }
  | 0x0A => { s with stores := { s.stores with ledger := (upTo n).foldl (fun (m : Sparse Cell64) i =>
      put {} m (base 0 + i) ⟨BitVec.ofNat 64 (packed 8 ws i), .clean⟩) s.stores.ledger } }
  | 0x0B => { s with fabric := { s.fabric with records := loadStore s.fabric.records (base 5) n 16 ws } }
  | 0x0C => s.modTen t (fun x => { x with steps := { x.steps with twins := loadFolds x.steps.twins f n ws } })
  | 0x0D => s.modTen t (fun x => { x with steps := { x.steps with sealRecs := loadFolds x.steps.sealRecs f n ws } })
  | 0x0E => s.modTen t (fun x => { x with escrow := { x.escrow with records := loadStore x.escrow.records f n 8 ws } })
  | _ => s.modTen t (fun x => { x with steps := { x.steps with
      live := loadStore x.steps.live f n 32 ws, staged := loadStore x.steps.staged f n 32 ws } })

/-- Record `i` of the list processed: the state left, and the code of its failure. -/
def State.loadRecord (s : State) (t i : Nat) : State × Option Nat :=
  let l := (s.ten t).load.list
  match shareRun s t (bits l 33 0 + BitVec.ofNat 34 i) 1 with
  | none => (s, some 0x06)
  | some lk =>
    let r := s.loadWords lk 1
    match r.2 with
    | some [w] =>
      if !recordOk s t i w then (r.1, some (recordCode s t w))
      else if recTarget w = 2 && bitsN w 23 16 = 0 then (r.1, some 0x07)
      else
        let n := ceilDiv (recCount w * targetUnit (recTarget w)) 32
        match shareRun s t (recSrc w) n with
        | none => (r.1, some 0x06)
        | some key =>
          let x := r.1.loadWords key n
          match x.2 with
          | some ws => if namesNoTag (recTarget w) ws then (x.1, some 0x07) else (x.1.loadInto t w key ws, none)
          | none => (x.1, some 0x0A)
    | _ => (r.1, some 0x0A)

/-- The list processed in order from record `i` on, `n` records left, up to the first failure. -/
def State.loadList (n : Nat) (s : State) (t i : Nat) : State × Option (Nat × Nat) :=
  match n with
  | 0 => (s, none)
  | m + 1 =>
    let r := s.loadRecord t i
    match r.2 with
    | some code => (r.1, some (code, i))
    | none => State.loadList m r.1 t (i + 1)

/-! ### Commit checks (19 R521, Table 19.13) -/

/-- Whether every job-header field is in its range (19 Table 19.9, 16 Table 16.2, 15 Table 15.9). -/
def headerOk (s : State) (t : Nat) : Bool :=
  let f (lo n : Nat) : Nat := hdr s t lo n
  let within (x lo hi : Nat) : Bool := decide (lo ≤ x) && decide (x ≤ hi)
  let g := stripeLen s t
  within (f 0 2) 1 1 && decide (1 ≤ f 4 1) && decide (1 ≤ f 5 1) && decide (f 6 1 ≤ 1) && decide (f 7 1 ≤ 1) && within (f 32 2) 16 4096 && decide (1 ≤ f 34 2)
    && within (escGens s t) 2 8 && decide (stripeCode s t ≤ 2) && decide (f 43 1 < 16)
    && (!striped s t || (within g 2 64 && decide (boxN s t (stripeAxis s t) % g = 0) && (decide (stripeCode s t ≠ 2) || decide (4 ≤ g))))
    && decide (f 45 1 ≤ 64) && decide (f 46 1 ≤ 15) && decide (f 47 1 ≤ 3) && within (f 48 1) 1 15 && within (f 50 2) 1 600 && within (f 52 2) 16 4096
    && decide (f 54 1 ≤ 5) && decide (f 49 1 = 0) && decide (f 55 1 = 0) && decide (f 78 2 = 0) && decide (f 144 112 = 0)

/-- The tenancy's physical rows. -/
def rowsOf (s : State) (t : Nat) : List Nat := (upTo 8).filter (fun y => (s.ten t).def_.ownsRow y)

/-- Whether the tenancy's rows can give the grid that the job is compiled for (01 R20, 19 R519). -/
def gridOk (s : State) (t : Nat) : Bool :=
  decide (hdr s t 5 1 ≤ (s.ten t).def_.h.toNat)
    && (rowsOf s t).all (fun y => decide (hdr s t 4 1 ≤ min (gridW s) (9 - (failedIn s y).length)))

/-- The ports and box of the job (13 R339). -/
def portsOk (s : State) (t : Nat) : Bool :=
  (List.finRange 16).all (fun p =>
      let k := hdr s t 72 6 / 2 ^ (3 * p.val) % 8
      decide (k ≤ 4) && (decide (k = 0) || (s.ten t).def_.ports.getLsbD p.val))
    && (upTo 4).all (fun k => decide (1 ≤ boxN s t k) && decide (boxO s t k + boxN s t k ≤ axisLen s k)
        && (decide (boxN s t k = 1) || decide (axisPorts s t k ≠ [])))

/-- Whether a range of a share-relative address and a length in words lies in its share. -/
def rangeOk (s : State) (t : Nat) (r : BitVec 64) (n : Nat) : Bool := (shareRun s t (bits r 34 1) n).isSome

/-- The ranges of the job's escrow records, escrow regions and seal records (12 R310, 16 R423). -/
def rangesOk (s : State) (t : Nat) : Bool :=
  (escRecords s t).all (fun (r : Nat × BitVec 64) => decide (bitsN r.2 34 1 % 2048 = 0) && rangeOk s t r.2 (2048 * escPages r.2))
    && (upTo 8).all (fun st => decide (hdr s t (80 + 8 * st) 4 + hdr s t (84 + 8 * st) 4 ≤ (look (s.ten t).def_.shares (0, 0) st).2))
    && (s.ten t).steps.sealRecs.all (fun (r : Nat × FoldRec) => !bitB r.2.record 0 || rangeOk s t r.2.record (128 * bitsN r.2.record 58 35))

/-- The course-table entries of a partition that are listed: by their numbers in it. -/
def tableEntries (s : State) (t : Nat) : List Nat := (upTo (partOf s t 2).2)

/-- Whether every mask keeps to the tenancy's allowances and off the fixed windows, and every escrow window is a foreground
one (09 R226, 16 R428). -/
def windowsOk (s : State) (t : Nat) : Bool :=
  (tableEntries s t).all (fun e => (upTo 8).all (fun st =>
    let m := fgMask s t e st
    let esc : BitVec 64 := (look s.stores.masks 0 ((partOf s t 2).1 + e)).extractLsb' (64 * st) 64
    decide (m &&& holeMask = 0) && decide (m &&& ~~~(look (s.ten t).def_.allow 0 st) = 0)
      && (decide (m = 0) || decide ((shareOf s t st).2 ≠ 0)) && decide (esc &&& ~~~m = 0)))

/-- The mailbox runs of a channel's slots. -/
def slotRuns (r : BitVec 128) : List (Nat × Nat) :=
  [(recSbase r, recSslots r * recWords r), (recRbase r, recRslots r * recWords r)].filter (fun (x : Nat × Nat) => x.2 ≠ 0)

/-- Whether no two runs of a list meet. -/
def apart (l : List (Nat × Nat)) : Bool :=
  match l with
  | [] => true
  | x :: r => r.all (fun (y : Nat × Nat) => !runsMeet x.1 x.2 y.1 y.2) && apart r

/-- A channel record's own fields (13 R345). -/
def chanOk (s : State) (t : Nat) (r : BitVec 128) : Bool :=
  decide (1 ≤ recWords r) && decide (recWords r ≤ 128) && decide (recSslots r ≤ 128) && decide (recRslots r ≤ 128)
    && decide (bitsN r 127 104 = 0)
    && (!recHm r || (decide (recWords r = 128) && decide (recSbase r % 128 = 0) && decide (recRbase r % 128 = 0)))
    && (decide (recSslots r = 0) || (decide (recPlane r < (axisPorts s t (recSaxis r)).length) && decide (recSoff r ≠ 0)))
    && decide (recCore r % 8 < gridW s) && decide (recCore r / 8 < (s.ten t).def_.h.toNat)
    && (slotRuns r).all (fun (x : Nat × Nat) => decide (x.1 + x.2 ≤ mboxWords))

/-- The valid channel records of a tenancy, by channel. -/
def validChans (s : State) (t : Nat) : List (Nat × BitVec 128) :=
  ((upTo (partOf s t 5).2).map (fun ch => (ch, chanRec s t ch))).filter (fun (x : Nat × BitVec 128) => recValid x.2)

/-- Indices within partitions, channels and their mailbox slots (07 R163, 13 R345, 14 R384, 16 R433, 17 R459). -/
def partsOk (s : State) (t : Nat) : Bool :=
  let chans := validChans s t
  let led := (partOf s t 0).2
  let mem := (partOf s t 4).2
  let tab := (partOf s t 2).2
  (upTo (partOf s t 1).2).all (fun r =>
      let w := look s.stores.regions 0 ((partOf s t 1).1 + r)
      decide (w = 0) || decide (bitsN w 19 0 + bitsN w 39 20 ≤ led))
    && (tableEntries s t).all (fun e => decide (entVariant (entryWord s t e) = 0) || decide (entVariant (entryWord s t e) < (partOf s t 3).2))
    && (upTo (partOf s t 3).2).all (fun v =>
      let r := setRec s t v
      !bitB r 0 || decide (bitsN r 21 8 + setMembers r ≤ mem))
    && (upTo mem).all (fun m => decide (memberRec s t m = 0) || decide (memberEntry (memberRec s t m) < tab))
    && chans.all (fun (x : Nat × BitVec 128) => decide (x.1 < 4093) && chanOk s t x.2)
    && (upTo 64).all (fun c => apart ((chans.filter (fun (x : Nat × BitVec 128) => recCore x.2 = c)).flatMap
      (fun (x : Nat × BitVec 128) => slotRuns x.2)))

/-! ### Restore mode (16 R440, R443) -/

/-- The first 90 bytes of an image header at a slot, as a number, and a field of it. -/
def imageHead (s : State) (t slot : Nat) : Nat :=
  let k := slotKey s t (homeStack s t) slot
  (upTo 3).foldr (fun i n => n * 2 ^ 256 + (readWord s .hbm (k + i)).data.toNat) 0
def imageField (n lo len : Nat) : Nat := n / 2 ^ (8 * lo) % 2 ^ (8 * len)

/-- Whether a header is of the generation and the program that the job header names. -/
def imageOk (s : State) (t n : Nat) : Bool :=
  decide (imageField n 0 4 = 0x454E5745) && decide (imageField n 4 2 = 1) && decide (imageField n 8 4 = hdr s t 28 4)
    && decide (imageField n 34 8 = hdr s t 8 8) && (upTo 4).all (fun k => decide (imageField n (18 + 2 * k) 2 = boxN s t k))
    && decide (imageField n 82 8 = (crc64 (leBytes 82 n)).toNat)

/-- The slot that holds the image to restore. -/
def imageSlot (s : State) (t : Nat) : Option Nat := (upTo (escGens s t)).find? (fun i => imageOk s t (imageHead s t i))

/-- The generation that an image gives: whole, or to be rebuilt on a chip that takes a lost one's place. -/
def imageGen (s : State) (t slot : Nat) : Generation :=
  let n := imageHead s t slot
  let lost := Config.lostMember t (memberNo s t)
  { step := BitVec.ofNat 32 (imageField n 8 4), slot := slot, seed := BitVec.ofNat 64 (imageField n 42 8)
    pos := { entry := imageField n 50 2, rep := imageField n 52 2 }, course := imageField n 54 8
    cautious := BitVec.ofNat 32 (imageField n 62 4), cautOn := decide (imageField n 62 4 ≠ 0), epoch := BitVec.ofNat 32 (imageField n 12 4)
    pages := if lost then [] else (upTo (allPages s t)).map (fun m => (m, PageSt.protected_)), stateDone := true, written := true, rebuild := lost }

/-- The first commit check that fails, with its code; the job header is record 0. -/
def commitFails (s : State) (t : Nat) : Option Nat :=
  if !headerOk s t then some 0x09
  else if !gridOk s t then some 0x01
  else if !portsOk s t then some 0x04
  else if !rangesOk s t then some 0x02
  else if !windowsOk s t then some 0x03
  else if !partsOk s t then some 0x05
  else if hdr s t 7 1 = 1 && (imageSlot s t).isNone then some 0x08
  else none

/-! ### Load states (19 R520) -/

/-- Whether an assay runs whose target the tenancy owns: a load waits for it (18 R489). -/
def assayHolds (s : State) (t : Nat) : Bool :=
  s.mgmt.running.any (fun a =>
    match a.kind.toNat with
    | 0 => (s.ten t).def_.ownsRow (a.target.toNat / 9)
    | 1 => (s.ten t).def_.ownsRow (a.target.toNat / 9)
    | 2 => decide ((shareOf s t a.target.toNat).2 ≠ 0)
    | 3 => (s.ten t).def_.ports.getLsbD a.target.toNat
    | _ => true)

/-- A load state changed, with its interrupt. -/
def State.loadTo (s : State) (t : Nat) (st : LoadSt) : State :=
  (s.modTen t (fun n => { n with load := { n.load with st := st } })).raiseTen t 12

/-- A COMMIT or UNLOAD ignored. -/
def State.loadErr (s : State) (t : Nat) : State := s.modTen t (fun n => { n with load := { n.load with errState := true } })

/-- Whether a tenancy's function can act on it: the tenancy exists and the device is not in its safe state. -/
def tenOn (s : State) (t : Ten) : Bool := s.tenExists t.val && !s.board.safe

/-- `COMMIT`: accepted only in EMPTY, and never after a class D error (15 R407). -/
def State.commit (s : State) (t : Nat) : State :=
  if (s.ten t).load.st ≠ .empty || s.board.classD ≠ 0 || assayHolds s t then s.loadErr t else
    let bitsOf (l : List Nat) : BitVec 9 := BitVec.ofNat 9 (l.foldl (fun n x => n + 2 ^ x) 0)
    let s1 := (s.clearFlows t).modTen t (fun n => { n with
      load := { n.load with st := .loading, code := 0, record := 0 }, launch := {}, escrow := { n.escrow with gens := [] } })
    let s2 := { s1 with spares := (rowsOf s t).foldl (fun (m : Sparse (BitVec 9)) y => set m y (bitsOf (defaultSpares s y))) s1.spares }
    s2.raiseTen t 12

def execCommit (t : Ten) (s : State) : Answer := .next (if tenOn s t then s.commit t.val else s)

/-- A job as it starts: purse, epoch, lag, steps, seed and step fields; a restore-mode load takes its generation's. -/
def State.startJob (s : State) (t : Nat) : State :=
  let step : BitVec 32 := BitVec.ofNat 32 (if hdr s t 7 1 = 1 then hdr s t 28 4 else hdr s t 24 4)
  let gens := if hdr s t 7 1 = 1 then (match imageSlot s t with | some i => [imageGen s t i] | none => []) else []
  ((s.clearPurse t).clearSteps t).modTen t (fun n => { n with
    close := {}
    vote := none
    votes := []
    recov := { path := n.recov.path, taint := n.recov.taint, queueOvf := n.recov.queueOvf, ending := n.recov.ending }
    escrow := { n.escrow with gens := gens }
    steps := { n.steps with step := step, loadStep := step, cautious := 0, cautOn := false, seed := BitVec.ofNat 64 (hdr s t 16 8)
                            twins := clearFolds n.steps.twins, sealRecs := clearFolds n.steps.sealRecs
                            twinSelf := none, sealSelf := none, twinGot := [], sealGot := [] } })

/-- A load that fails. -/
def State.loadFails (s : State) (t code : Nat) (record : BitVec 24) : State :=
  (s.modTen t (fun n => { n with load := { n.load with code := BitVec.ofNat 8 code, record := record } })).loadTo t .failed

/-- `LOAD_COMPLETE`: the list and the commit checks; a failed check of ranges, windows or partitions names no record that the
manual gives. -/
def execLoadComplete (t : Ten) (s : State) : Answer :=
  if (s.ten t.val).load.st ≠ .loading then .next s else
    let x := State.loadList (bitsN (s.ten t.val).load.list 57 34) s t.val 0
    match x.2 with
    | some (code, i) => .next (x.1.loadFails t.val code (BitVec.ofNat 24 i))
    | none =>
      if bitsN (s.ten t.val).load.list 57 34 = 0 then .next (x.1.loadFails t.val 0x06 0) else
        match commitFails x.1 t.val with
        | some code =>
          if code = 2 || code = 3 || code = 5 then
            let d := x.1.draw
            .next (d.2.loadFails t.val code (BitVec.ofNat 24 d.1))
          else .next (x.1.loadFails t.val code 0)
        | none => .next ((((((x.1.startJob t.val).addFigure 1 3 1).loadTo t.val .loaded).wantTrim)).readyNow t.val)

/-! ### Unload (19 R520) -/

/-- The stores of a tenancy's cores that an unload clears. -/
def State.clearCores (s : State) (t : Nat) : State :=
  let out {α : Type} (n : Nat) (m : Sparse α) : Sparse α := m.filter (fun (e : Nat × α) => decide (tenOf s (Fin.ofNat 64 (e.1 / n)) ≠ some t))
  let u := s.dropFlight t
  let k := u.cores
  { u with cores := { u.cores with
      cs := out csWords k.cs, hall := out 2048 k.hall, mbox := out mboxWords k.mbox, mhall := out 128 k.mhall, tags := out 8 k.tags
      desc := out 1024 k.desc, acc := out 262144 k.acc, bind := out 2048 k.bind, engines := out 4 k.engines
      idle := k.idle.filter (fun (e : Nat × SpareStores) => !(s.ten t).def_.ownsRow (e.1 / 9))
      seqs := out 1 k.seqs, guard := k.guard.filter (fun c => decide (tenOf s (Fin.ofNat 64 c) ≠ some t)) } }

/-- The chip-wide entries of a tenancy that an unload clears: course table with its masks, channel and region records. -/
def State.clearParts (s : State) (t : Nat) : State :=
  let p (r : Nat) : Nat × Nat := partOf s t r
  { s with
    stores := { s.stores with
      table := clearRange s.stores.table (3 * (p 2).1) (3 * (p 2).2), masks := clearRange s.stores.masks (p 2).1 (p 2).2
      regions := clearRange s.stores.regions (p 1).1 (p 1).2 }
    fabric := { s.fabric with records := clearRange s.fabric.records (p 5).1 (p 5).2 } }

/-- A job of a tenancy ended as class J by its host (15 R417). -/
def State.hostEnds (s : State) (t : Nat) : State :=
  let s1 := s.jobFatal t 7
  match (s1.ten t).recov.ending with
  | some e => s1.endJob t e
  | none => s1

/-- The load state of a tenancy cleared to EMPTY. -/
def State.clearLoad (s : State) (t : Nat) : State :=
  (((((s.clearCores t).clearParts t).clearFlows t).modTen t (fun n => { n with
    load := { list := n.load.list, errState := n.load.errState }
    course := { ovrLog := n.course.ovrLog, hostHold := n.course.hostHold }
    close := {}
    vote := none
    votes := []
    recov := { path := n.recov.path, taint := n.recov.taint, queueOvf := n.recov.queueOvf, epoch := n.recov.epoch }
    escrow := {}
    steps := { wchCtl := n.steps.wchCtl }
    launch := {} })).raiseTen t 12).startAssays

/-- `UNLOAD`. -/
def State.unload (s : State) (t : Nat) : State :=
  match (s.ten t).load.st with
  | .empty => s.loadErr t
  | .running => (s.hostEnds t).clearLoad t
  | _ => s.clearLoad t

def execUnload (t : Ten) (s : State) : Answer := .next (if tenOn s t then s.unload t.val else s)

/-! ### Slots, blanks and holds (19 R523, 09 R244, R245) -/

/-- `APPLY`. -/
def State.apply (s : State) (t : Nat) : State := s.modTen t (fun n => { n with steps := { n.steps with applyPend := true } })
def execApply (t : Ten) (s : State) : Answer := .next (if tenOn s t then s.apply t.val else s)

/-- `BLANK_REQ`: one notice of cause 3 of a running job. -/
def State.blankReq (s : State) (t : Nat) : State := if s.running t then s.announce t (courseNow s + 9) 3 else s
def execBlankReq (t : Ten) (s : State) : Answer := .next (if tenOn s t then s.blankReq t.val else s)

/-- `HOLD`: from its write on, the course eight ahead is announced (09 R244). -/
def State.hold (s : State) (t : Nat) (on : Bool) : State :=
  let s1 := s.modCourse t (fun k => { k with hostHold := on })
  if on && s.running t then s1.keepBlank t (courseNow s + 8) 4 else s1
def execHold (t : Ten) (on : Bool) (s : State) : Answer := .next (if tenOn s t then s.hold t.val on else s)

end Sys2Proof.Machine
end

