-- ==== Sys2Proof/Machine/Registers.lean ====
section
/-! DEFINITION. The registers: what each reads, what a write does, the counter latch, TALLY_SNAP, the arbiters' longest waits, and the telemetry request (20; 09 Table 09.8; 10 Tables 10.6, 10.7; 13 Tables 13.9, 13.10; 15 Tables 15.10, 15.11; 16 Tables 16.6, 16.7; 17 Tables 17.6 to 17.8; 18 Tables 18.1, 18.2; 19 Tables 19.3, 19.10 to 19.12). -/

namespace Sys2Proof.Machine

open Sys2Proof

/-- A flag's place in a register. -/
def flagAt (b : Bool) (i : Nat) : Nat := if b then 2 ^ i else 0

/-- A register from the sum of its fields, each at its place. -/
def regOf (l : List Nat) : BitVec 64 := BitVec.ofNat 64 (l.foldl (· + ·) 0)

/-- A set of numbers as bits. -/
def bitsOf (l : List Nat) : Nat := l.foldl (fun n x => n + 2 ^ x) 0

/-! ### Chip registers -/

/-- A counter, or an energy account in nJ, by its PF BAR0 offset (20 R528, 17 R448). -/
def countAt (s : State) (off : Nat) : BitVec 64 := s.counter off + BitVec.ofNat 64 (look s.power.accounts 0 off / 65536)

/-- The values of the latency symbols (20 R534). -/
def stepSym (s : State) (i : Nat) : BitVec 64 :=
  if s.ident.isB0 then nth [0x0003_005C_00B8_0000, 0x0010_0004_0002_0002, 0x000C_0012_001A_0005, 0x0000_0000_0000_0014] 0 i
  else nth [0x0004_0058_00B0_0000, 0x0012_0005_0003_0003, 0x000E_0014_001E_0006, 0x0000_0000_0000_0018] 0 i

/-- DEV_ID (20 R533). -/
def devId (s : State) : BitVec 64 :=
  regOf [if s.ident.is64 then 0x7064 else 0x7056, flagAt s.ident.isB0 16, (if s.ident.is64 then 64 else 56) * 2 ^ 20, gridW s * 2 ^ 27]

/-- STEP_DESC (20 Table 20.5). -/
def stepDesc (s : State) : BitVec 64 := regOf [1, flagAt s.ident.isB0 8, 0x0C * 2 ^ 12, (if s.ident.isB0 then 196 else 212) * 2 ^ 20]

/-- DEV_FW (20 Table 20.6). -/
def devFw (s : State) : BitVec 64 :=
  let f := (slotOf s s.mgmt.runSlot).image
  regOf [flagAt s.mgmt.runSlot 0, flagAt s.mgmt.nextSlot 1, f.security.toNat * 2 ^ 16, f.sequence.toNat * 2 ^ 32]

/-- CHIP_CORE_MAP of a row (20 R535). -/
def chipCoreMap (s : State) (y : Nat) : BitVec 64 := regOf [bitsOf (failedIn s y), bitsOf (sparesOf s y) * 2 ^ 9]

/-- The identity page (20 Table 20.3). -/
def identReg (s : State) (o : Nat) : BitVec 64 :=
  match o with
  | 0x00 => devId s
  | 0x08 => s.ident.serial
  | 0x10 => stepDesc s
  | 0x18 => stepSym s 0
  | 0x20 => stepSym s 1
  | 0x28 => stepSym s 2
  | 0x30 => stepSym s 3
  | 0x38 => devFw s
  | _ => if 0x40 ≤ o && o < 0x80 then chipCoreMap s ((o - 0x40) / 8) else 0

/-- TLY_STATUS (20 Table 20.8). -/
def tlyStatus (s : State) : BitVec 64 :=
  let known := if s.time.setup || s.time.best.isSome then knownPair s else (0, 0)
  regOf [flagAt s.time.ppsSeen 0, flagAt (s.time.pll = .portA || s.time.pll = .portB) 1, flagAt (s.time.pll = .portB) 2,
    flagAt (s.time.pll = .holdover) 3, flagAt (isMaster s) 4, known.1.toNat * 2 ^ 8, known.2.toNat * 2 ^ 16, (s.time.parent.getD 0).toNat * 2 ^ 32]

/-- The tally page (20 Table 20.7). -/
def tallyReg (s : State) (o : Nat) : BitVec 64 :=
  match o with
  | 0x00 => s.time.tally
  | 0x08 => tlyStatus s
  | 0x10 => s.time.ppsStamp
  | 0x18 => s.time.ctl
  | 0x20 => s.time.ppsOffset.setWidth 64
  | 0x28 => s.time.timeBase.setWidth 64
  | 0x30 => s.time.delay ++ s.time.offset
  | _ => 0

/-- FAB_STATUS (20 Table 20.10). -/
def fabStatus (s : State) : BitVec 64 :=
  let p (f : PortSt → Bool) : Nat := bitsOf ((upTo 16).filter (fun i => f (portOf s (Fin.ofNat 16 i))))
  regOf [p (·.link), p (·.down) * 2 ^ 16, flagAt s.fabric.cfgBad 32, flagAt (bitB s.fabric.cfg 63) 33]

/-- PWR_STATUS (17 Table 17.8). -/
def pwrStatus (s : State) : BitVec 64 :=
  let p := s.power
  regOf [p.thermStep.toNat, flagAt p.measured 3, p.run.toNat * 2 ^ 4, p.tj.toNat * 2 ^ 9, p.tjMax.toNat * 2 ^ 21, p.vset.toNat * 2 ^ 33, flagAt p.margin 43]

/-- An arbiter's settings (20 Table 20.20). -/
def arbReg (s : State) (a o : Nat) : BitVec 64 :=
  if 33 ≤ a then 0
  else if o = 0 then arbLevels s a
  else if o < 0x28 then
    let r := 4 * (o / 8 - 1)
    arbRowOf s a (r + 3) ++ arbRowOf s a (r + 2) ++ arbRowOf s a (r + 1) ++ arbRowOf s a r
  else 0

/-- Half `o / 8` of an entry of a function's MSI-X table. -/
def msixHalf (s : State) (fn o : Nat) : BitVec 64 := (msixEntry s fn (o / 16)).extractLsb' (64 * (o / 8 % 2)) 64

/-- CORE_OWNER of a physical core (20 Table 20.19). -/
def coreOwner (s : State) (p : Nat) : BitVec 64 :=
  let y := p / 9
  let spare := (sparesOf s y).contains (p % 9)
  let v := ((upTo (p % 9)).filter (fun x => !(sparesOf s y).contains x)).length
  match tenOfRow s y with
  | some t => regOf [1, t * 2, (if spare then 0 else 8 * (y - (s.ten t).def_.y0.toNat) + v) * 2 ^ 4, flagAt spare 10]
  | none => regOf [flagAt spare 10]

/-- Byte offsets of a core block that hold energy accounts or counters; the health counters and CORE_OWNER are the PF's. -/
def coreReg (s : State) (p o : Nat) : BitVec 64 := countAt s (coreOff p o)

/-! ### A tenancy's registers -/

/-- CRS_CTL (09 Table 09.8). -/
def crsCtl (n : Tenancy) : BitVec 64 :=
  regOf [flagAt n.course.hostHold 1, n.course.ovrLog.toNat * 2 ^ 16, n.course.lag % 16 * 2 ^ 32, n.course.pending.length % 32 * 2 ^ 36]

/-- SDE_STATUS (15 Table 15.10). -/
def sdeStatus (n : Tenancy) : BitVec 64 :=
  let r := n.recov
  regOf [r.st.toNat, r.cls.toNat * 2 ^ 3, r.path.toNat * 2 ^ 6, r.queue.length % 32 * 2 ^ 9, flagAt r.queueOvf 14, r.taint.toNat * 2 ^ 15]

/-- The newest kept generation, and the newest protected one. -/
def newestGen (s : State) (t : Nat) : Option Generation := (s.ten t).escrow.gens.getLast?
def newestProt (s : State) (t : Nat) : Option Generation := ((s.ten t).escrow.gens.filter (fun g => g.prot s t)).getLast?

/-- ESC_STATUS and ESC_PENDING (16 Tables 16.6, 16.7). -/
def escStatus (s : State) (t : Nat) : BitVec 64 :=
  regOf [((newestGen s t).elim 0 (fun g => g.step.toNat)), (newestProt s t).elim 0 (fun g => g.step.toNat) * 2 ^ 32]

def escPending (s : State) (t : Nat) : BitVec 64 :=
  match newestGen s t with
  | none => 0
  | some g =>
    let ps := upTo (allPages s t)
    regOf [(ps.filter (fun m => g.sealedPage m)).length % 2 ^ 24, (ps.filter (fun m => decide (find g.pages m ≠ some .protected_))).length % 2 ^ 24 * 2 ^ 24,
      2 ^ 48, flagAt (newestProt s t).isSome 49, flagAt g.stateDone 50]

/-- PWR_TEN (17 Table 17.7). -/
def pwrTen (n : Tenancy) : BitVec 64 := regOf [n.weight.toNat, n.share.toNat * 2 ^ 8, n.grant.toNat * 2 ^ 24, n.need.toNat * 2 ^ 40]

/-- STATE of LDR_STATUS, and the register (19 Table 19.12). -/
def loadCode (st : LoadSt) : Nat :=
  match st with | .empty => 0 | .loading => 1 | .loaded => 2 | .running => 3 | .ended => 4 | .failed => 5
def ldrStatus (n : Tenancy) : BitVec 64 :=
  regOf [loadCode n.load.st, n.load.code.toNat * 2 ^ 3, n.load.record.toNat * 2 ^ 11, flagAt n.load.errState 35]

/-- The control page (20 Table 20.13). -/
def controlReg (s : State) (t o : Nat) : BitVec 64 :=
  let n := s.ten t
  match o with
  | 0x00 => crsCtl n
  | 0x08 => n.fault
  | 0x10 => n.faultAt
  | 0x18 => sdeStatus n
  | 0x20 => n.recov.epoch.setWidth 64
  | 0x28 => escStatus s t
  | 0x30 => escPending s t
  | 0x38 => pwrTen n
  | 0x48 => n.load.list
  | 0x50 => ldrStatus n
  | 0x58 => look s.mgmt.apt 0 (fnOf t)
  | 0x60 => regOf [flagAt n.steps.applyPend 1]
  | 0x68 => n.steps.wchCtl.setWidth 64
  | 0x70 => s.intStatus (fnOf t)
  | _ => 0

/-- TEN_DEF (20 Table 20.16). -/
def tenDef (d : TenDef) : BitVec 64 :=
  regOf [flagAt d.exists_ 0, d.y0.toNat * 2, d.h.toNat * 2 ^ 4, d.ports.toNat * 2 ^ 8, bitsOf (d.shares.map (·.1)) * 2 ^ 24]

/-- TEN_CORE_MAP of a virtual row (20 Table 20.17). -/
def tenCoreMap (s : State) (t y : Nat) : BitVec 64 :=
  let d := (s.ten t).def_
  if y < d.h.toNat then
    let r := d.y0.toNat + y
    let col (x : Nat) : Nat := if x < gridW s then physCol s r x else 15
    regOf [(upTo 8).foldl (fun n x => n + col x * 2 ^ (4 * x)) 0, bitsOf (sparesOf s r) * 2 ^ 32]
  else 0xFFFF_FFFF

/-- The definition page (20 Table 20.16). -/
def defReg (s : State) (t o : Nat) : BitVec 64 :=
  let d := (s.ten t).def_
  if o = 0 then tenDef d
  else if 0x40 ≤ o && o < 0x80 then
    let x := look d.shares (0, 0) ((o - 0x40) / 8)
    regOf [x.1, x.2 * 2 ^ 18]
  else if 0x80 ≤ o && o < 0xC0 then look d.allow 0 ((o - 0x80) / 8)
  else if 0xC0 ≤ o && o < 0x100 then
    let x := look d.parts (0, 0) ((o - 0xC0) / 8)
    regOf [x.1, x.2 * 2 ^ 20]
  else if 0x100 ≤ o && o < 0x140 then tenCoreMap s t ((o - 0x100) / 8)
  else 0

/-- A quarter of an entry of a slot table. -/
def slotQuarter (m : Sparse (BitVec 256)) (o : Nat) : BitVec 64 := (look m 0 (o / 32)).extractLsb' (64 * (o / 8 % 4)) 64

/-- A word of a virtual core's block, through the tenancy's current mapping (20 R545). -/
def virtualReg (s : State) (t o : Nat) : BitVec 64 :=
  let v := o / 0x200
  let d := (s.ten t).def_
  if v / 8 < d.h.toNat && v % 8 < gridW s then
    let x := physCol s (d.y0.toNat + v / 8) (v % 8)
    if x = 15 then 0 else coreReg s (9 * (d.y0.toNat + v / 8) + x) (o % 0x200)
  else 0

/-- The values of a window of a tenancy that does not exist: the reset values (20 R532). -/
def absentReg (o : Nat) : BitVec 64 :=
  if o = 0x00 then 0x80_0000 else if o = 0x38 then 0x10 else if o = 0x68 then 0x1080_0040
  else if 0x1100 ≤ o && o < 0x1140 then 0xFFFF_FFFF else 0

/-- A tenancy's window, as its VF or as the PF sees it (20 Table 20.2). -/
def windowReg (s : State) (t o : Nat) (pf : Bool) : BitVec 64 :=
  if 0x4000 ≤ o && o < 0x4100 then identReg s (o - 0x4000)
  else if o = 0x4100 then s.time.tally
  else if o = 0x4108 then tlyStatus s
  else if 0x7000 ≤ o && o < 0x8000 then
    if pf then 0
    else if 0x7800 ≤ o && o < 0x7880 then msixHalf s (fnOf t) (o - 0x7800)
    else if o = 0x7C00 then look s.mgmt.pba 0 (fnOf t)
    else 0
  else if !s.tenExists t then absentReg o
  else if o < 0x1000 then controlReg s t o
  else if o < 0x2000 then defReg s t (o - 0x1000)
  else if o < 0x3000 then countAt s (tenOff t o)
  else if o < 0x4000 then slotQuarter (s.ten t).steps.staged (o - 0x3000)
  else if 0x5000 ≤ o && o < 0x5420 then s.counter (0x8000 + 0x200 * ((o - 0x5000) / 0x20) + 0x20 * (8 + t) + o % 0x20)
  else if 0x6000 ≤ o && o < 0x7000 then slotQuarter (s.ten t).steps.live (o - 0x6000)
  else if 0x8000 ≤ o then virtualReg s t (o - 0x8000)
  else 0

/-- The PF's map (20 Table 20.1). -/
def pfReg (s : State) (o : Nat) : BitVec 64 :=
  if o < 0x1000 then identReg s o
  else if o < 0x2000 then tallyReg s (o - 0x1000)
  else if o = 0x2000 then s.fabric.cfg
  else if o = 0x2008 then s.fabric.axes
  else if o = 0x2010 then fabStatus s
  else if o = 0x3000 then s.power.cap
  else if o = 0x3008 then pwrStatus s
  else if o = 0x3010 then s.mgmt.asyCtl
  else if 0x4000 ≤ o && o < 0x7000 then countAt s o
  else if o = 0x7000 then s.intStatus 0
  else if o = 0x7008 then look s.mgmt.apt 0 0
  else if o = 0x7010 then s.counter 0x7010
  else if 0x7800 ≤ o && o < 0x7900 then msixHalf s 0 (o - 0x7800)
  else if o = 0x7C00 then look s.mgmt.pba 0 0
  else if 0x8000 ≤ o && o < 0xC200 then s.counter o
  else if 0xD000 ≤ o && o < 0xE000 then arbReg s ((o - 0xD000) / 0x40) (o % 0x40)
  else if 0x1_0000 ≤ o && o < 0x9_0000 then windowReg s ((o - 0x1_0000) / 0x1_0000) (o % 0x1_0000) true
  else if 0x9_0000 ≤ o && o < 0xA_2000 then
    let p := (o - 0x9_0000) / 0x400
    if o % 0x400 = 0x3F8 then coreOwner s p else coreReg s p (o % 0x400)
  else 0

/-- Bytes of a function's BAR0. -/
def bar0Size (fn : Nat) : Nat := if fn = 0 then 0x10_0000 else 0x1_0000

/-- The 8-byte register at an offset of a function's BAR0, as a read returns it; reading changes nothing here. -/
def regRead (s : State) (fn : Nat) (o : Nat) : BitVec 64 := if fn = 0 then pfReg s o else windowReg s (fn - 1) o false

/-- Whether a register is a counter (20 R528). -/
def isCounter (fn o : Nat) : Bool :=
  let win (o : Nat) : Bool := (decide (0x2000 ≤ o) && decide (o < 0x3000)) || (decide (0x5000 ≤ o) && decide (o < 0x6000)) || decide (0x8000 ≤ o)
  if fn ≠ 0 then win o
  else (decide (0x4000 ≤ o) && decide (o < 0x7000)) || decide (o = 0x7010) || (decide (0x8000 ≤ o) && decide (o < 0xC200))
    || (decide (0x1_0000 ≤ o) && decide (o < 0x9_0000) && win (o % 0x1_0000))
    || (decide (0x9_0000 ≤ o) && decide (o < 0xA_2000) && decide (o % 0x400 ≠ 0x3F8))

/-! ### Reads (20 R527, R528, R536, R546) -/

/-- A host access that its BAR refuses, counted. -/
def State.hostUr (s : State) (fn : Nat) : State := if fn = 0 then s.count 0x7010 1 else s.countTen (fn - 1) 0x2268 1

/-- A function's counter latch dropped, and set. -/
def State.dropLatch (s : State) (fn : Nat) : State := { s with mgmt := { s.mgmt with latch := del s.mgmt.latch fn } }
def State.setLatch (s : State) (fn o : Nat) (hi : BitVec 32) : State := { s with mgmt := { s.mgmt with latch := set s.mgmt.latch fn (o, hi) } }

/-- What a read returned. -/
def State.readBack (s : State) (v : BitVec 64) : State := { s with mgmt := { s.mgmt with answer := v, readUr := false } }

/-- The register of the arbiter counter a function reads, if its map shows it. -/
def waitOff (fn arb requester : Nat) : Option Nat :=
  if 33 ≤ arb then none
  else if fn = 0 || requester = 7 + fn then some (0x8000 + 0x200 * arb + 0x20 * requester + 0x10)
  else none

/-- An ARB_WAIT_MAX read whole or by its low half: returned, then cleared. -/
def State.readWait (s : State) (fn off : Nat) (wide : Bool) : State :=
  let v := s.counter off
  let s1 := { s with counters := del s.counters off }
  if wide then (s1.dropLatch fn).readBack v
  else (s1.setLatch fn off (bits v 63 32)).readBack (BitVec.ofNat 64 (bitsN v 31 0))

/-- Whether a function is there to read: the PF, or an enabled VF; BAR0 stays readable in the safe state (15 R407). -/
def readable (s : State) (fn : Nat) : Bool := decide (fn = 0) || s.mgmt.vfOn.contains fn

/-- `ARB_WAIT_MAX`. -/
def execArbWaitMax (fn : Fn) (arb : BitVec 6) (requester : BitVec 4) (wide : Bool) (s : State) : Answer :=
  if !readable s fn.val then .next s else
    match waitOff fn.val arb.toNat requester.toNat with
    | some off => .next (s.readWait fn.val off wide)
    | none => .next ((s.dropLatch fn.val).readBack 0)

/-- The arbiter and requester whose ARB_WAIT_MAX an offset of a function's BAR0 is. -/
def waitAt (fn o : Nat) : Option (Nat × Nat) :=
  let own (o n : Nat) : Option (Nat × Nat) := if 0x5000 ≤ o && o < 0x5420 && o % 0x20 = 0x10 then some ((o - 0x5000) / 0x20, n) else none
  if fn ≠ 0 then own o (7 + fn)
  else if 0x8000 ≤ o && o < 0xC200 && o % 0x20 = 0x10 then some ((o - 0x8000) / 0x200, o % 0x200 / 0x20)
  else if 0x1_0000 ≤ o && o < 0x9_0000 then own (o % 0x1_0000) (8 + (o - 0x1_0000) / 0x1_0000)
  else none

/-- `COUNTER_LOW_READ`: a 4-byte read. The low half of a counter latches its high half; a high half reads latched where the read
just before it latched it. -/
def execCounterLowRead (fn : Fn) (off : BitVec 20) (s : State) : Answer :=
  let f := fn.val
  let o := off.toNat
  if !readable s f then .next s
  else if o % 4 ≠ 0 || bar0Size f ≤ o then
    let s1 := (s.dropLatch f).hostUr f
    .next { s1 with mgmt := { s1.mgmt with readUr := true } }
  else if o % 8 = 4 then
    let v : BitVec 32 := match find s.mgmt.latch f with
      | some (k, hi) => if k = o - 4 then hi else bits (regRead s f (o - 4)) 63 32
      | none => bits (regRead s f (o - 4)) 63 32
    .next ((s.dropLatch f).readBack (v.setWidth 64))
  else
    match waitAt f o with
    | some (a, r) => .next (s.readWait f (0x8000 + 0x200 * a + 0x20 * r + 0x10) false)
    | none =>
      let v := regRead s f o
      let s1 := if isCounter f o then s.setLatch f o (bits v 63 32) else s.dropLatch f
      .next (s1.readBack (BitVec.ofNat 64 (bitsN v 31 0)))

/-- `TALLY_SNAP`. -/
def execTallySnap (fn : Fn) (s : State) : Answer :=
  if readable s fn.val then .next ((s.dropLatch fn.val).readBack s.time.tally) else .next s

/-- `TELEMETRY`: up to three registers of the function, as reads return them. DESIGN CHOICE (log 49): the message
returns ARB_WAIT_MAX and leaves the counter; only a host read clears it. -/
def execTelemetry (r : Req) (offsets : List (BitVec 20)) (s : State) : Answer :=
  s.takeReq r 0x01 false (fun s =>
    if offsets.any (fun o => o.toNat % 8 ≠ 0 || bar0Size r.fn.val ≤ o.toNat) then (s, 3, 0)
    else (s.grant 28 7 1, 0, ((offsets.take 3).map (fun o => (regRead s r.fn.val o.toNat).toNat)).foldr (fun v n => n * 2 ^ 64 + v) 0))

/-! ### The mailbox (18 R474 to R476) -/

/-- MBX_REQ_TAIL moved: ignored where it would pass MBX_REQ_HEAD by more than 63 slots. -/
def State.moveTail (s : State) (fn : Nat) (tail : BitVec 6) : State :=
  let m := boxOf s fn
  if 63 < (m.reqTail - m.reqHead).toNat + (tail - m.reqTail).toNat then s.setBox fn { m with reqOver := true }
  else s.setBox fn { m with reqTail := tail }

/-- MBX_RSP_HEAD moved, and waiting messages posted: ignored where it would pass MBX_RSP_TAIL. -/
def State.moveHead (s : State) (fn : Nat) (head : BitVec 8) : State :=
  let m := boxOf s fn
  if (m.rspTail - m.rspHead).toNat < (head - m.rspHead).toNat then s.setBox fn { m with rspOver := true }
  else
    let m1 := ({ m with rspHead := head } : Mailbox).refill m.backlog
    let s1 := s.setBox fn m1
    if m1.backlog.length < m.backlog.length then s1.raiseInt fn 0 else s1

/-- `MBX_REQ_TAIL`: the slots written, then the tail moved. -/
def execMbxReqTail (fn : Fn) (tail : BitVec 6) (slots : List (BitVec 256)) (s : State) : Answer :=
  if !hostOn s fn.val then .next s else
    let m := boxOf s fn.val
    let ring := slots.zipIdx.foldl (fun (r : Sparse (BitVec 256)) (x : BitVec 256 × Nat) => put 0 r ((m.reqTail.toNat + x.2) % 64) x.1) m.req
    .next ((s.setBox fn.val { m with req := ring }).moveTail fn.val tail)

/-- `MBX_RSP_HEAD`. -/
def execMbxRspHead (fn : Fn) (head : BitVec 8) (s : State) : Answer :=
  if hostOn s fn.val then .next (s.moveHead fn.val head) else .next s

/-- MBX_STATUS (18 Table 18.2). -/
def mbxStatus (s : State) (fn : Nat) : BitVec 64 :=
  let m := boxOf s fn
  regOf [flagAt m.reqOver 0, flagAt m.rspOver 1, flagAt m.lost 2, flagAt (decide (768 < m.backlog.length)) 3, m.backlog.length % 2 ^ 11 * 2 ^ 4,
    unread s fn % 2 ^ 14 * 2 ^ 15]

/-! ### Writes (20 R527, R529; 00 R9, R10) -/

/-- The bits a write covers, and its value on them. -/
def lanes (o bytes : Nat) : BitVec 64 := if bytes = 8 then 0xFFFF_FFFF_FFFF_FFFF else if o % 8 = 0 then 0xFFFF_FFFF else 0xFFFF_FFFF_0000_0000
def onLanes (o bytes : Nat) (v : BitVec 64) : BitVec 64 := (if bytes = 8 || o % 8 = 0 then v else v <<< 32) &&& lanes o bytes

/-- A field mask's bits replaced where a write covers them. -/
def storeOn (old v m field : BitVec 64) : BitVec 64 := (old &&& ~~~(m &&& field)) ||| (v &&& m &&& field)

/-- A field of `n` bits at `lo` whose least value is 1: a 0 stores 1. -/
def atLeast1 (w : BitVec 64) (lo n : Nat) : BitVec 64 := if w.toNat / 2 ^ lo % 2 ^ n = 0 then w ||| (1#64 <<< lo) else w

/-- A write to a field that the firmware alone writes, or that is locked: discarded and logged. DESIGN CHOICE (log 49):
the entry's TENANCY is 0xF and its UNIT 0, also for a write through a tenancy's window. -/
def State.lockViolation (s : State) (o : Nat) (v : BitVec 64) : State := s.dayChip 0x01 0 o v.toNat 0

/-- Status bits of a function cleared (20 R538). -/
def State.clearInts (s : State) (fn : Nat) (v : BitVec 64) : State :=
  { s with mgmt := { s.mgmt with ints := put 0 s.mgmt.ints fn (s.intStatus fn &&& ~~~v) } }

/-- A half of an MSI-X entry written; a vector unmasked with a message pending sends it. -/
def State.msixWrite (s : State) (fn o : Nat) (v m : BitVec 64) : State :=
  let i := o / 16
  let h := o / 8 % 2
  let e := msixEntry s fn i
  let x := putBits e (64 * h) (storeOn (e.extractLsb' (64 * h) 64) v m 0xFFFF_FFFF_FFFF_FFFF)
  let s1 := { s with mgmt := { s.mgmt with msix := put (1#128 <<< 96) s.mgmt.msix (16 * fn + i) x } }
  let p := look s.mgmt.pba 0 fn
  if bitB e 96 && !bitB x 96 && bitB p i then
    { s1 with mgmt := { s1.mgmt with pba := put 0 s1.mgmt.pba fn (p &&& ~~~(1#64 <<< i)), sent := s1.mgmt.sent ++ [(fn, i)] } }
  else s1

/-- A write to a tenancy's control page; `w` is the offset that a violation is logged with. -/
def State.controlWrite (s : State) (t o w : Nat) (v m : BitVec 64) : State :=
  match o with
  | 0x00 =>
    let s1 := if bitB m 1 then s.hold t (bitB v 1) else s
    let s2 := s1.modCourse t (fun k => { k with ovrLog := bits (storeOn (crsCtl (s.ten t)) v m 0xFFFF_0000) 31 16 })
    if bitB v 0 then s2.blankReq t else s2
  | 0x08 => if bitB v 63 then s.modTen t (fun n => { n with fault := 0 }) else s
  | 0x18 => if bitB v 14 then s.modRecov t (fun r => { r with queueOvf := false }) else s
  | 0x38 => if m &&& 0xFF ≠ 0 then s.lockViolation w v else s
  | 0x40 => if bitB v 1 then s.unload t else if bitB v 0 then s.commit t else s
  | 0x48 => s.modTen t (fun n => { n with load := { n.load with list := storeOn n.load.list v m 0x03FF_FFFF_FFFF_FFFF } })
  | 0x50 => if bitB v 35 then s.modTen t (fun n => { n with load := { n.load with errState := false } }) else s
  | 0x58 => { s with mgmt := { s.mgmt with apt := put 0 s.mgmt.apt (fnOf t) (storeOn (look s.mgmt.apt 0 (fnOf t)) v m 0xF) } }
  | 0x60 => if bitB v 0 then s.apply t else s
  | 0x68 => s.modTen t (fun n => { n with steps := { n.steps with wchCtl :=
      (atLeast1 (atLeast1 (atLeast1 (storeOn (n.steps.wchCtl.setWidth 64) v m 0xFFFF_FFFF) 0 16) 16 8) 24 8).setWidth 32 } })
  | 0x70 => s.clearInts (fnOf t) v
  | _ => s

/-- A quarter of a staged slot entry written; its reserved fields stay zero (19 Table 19.14). -/
def State.slotWrite (s : State) (t o : Nat) (v m : BitVec 64) : State :=
  s.modTen t (fun n =>
    let e := look n.steps.staged 0 (o / 32)
    let q := o / 8 % 4
    let x := putBits e (64 * q) (storeOn (e.extractLsb' (64 * q) 64) v m 0xFFFF_FFFF_FFFF_FFFF)
    let keep : BitVec 256 := ~~~(0xFE00#256 <<< 64 ||| 0x3FFFFF#256 <<< 234)
    { n with steps := { n.steps with staged := put 0 n.steps.staged (o / 32) (x &&& keep) } })

/-- A write to a tenancy's window. -/
def State.windowWrite (s : State) (t o w : Nat) (v m : BitVec 64) (pf : Bool) : State :=
  if 0x7800 ≤ o && o < 0x7880 then (if pf then s else s.msixWrite (fnOf t) (o - 0x7800) v m)
  else if !s.tenExists t then s
  else if o < 0x1000 then s.controlWrite t o w v m
  else if 0x3000 ≤ o && o < 0x4000 then s.slotWrite t (o - 0x3000) v m
  else s

/-- The bits of a chip register that are the firmware's alone, or locked. -/
def firmField (o : Nat) : BitVec 64 :=
  if o = 0x1018 then 0xFFFF else if o = 0x1020 then 0x7FFF_FFFF else if o = 0x1028 then 0xFFFF_FFFF_FFFF
  else if o = 0x2000 || o = 0x2008 then 0xFFFF_FFFF_FFFF_FFFF
  else if o = 0x3000 then 0x7FF_FFFF
  else if 0xD000 ≤ o && o < 0xD840 then
    (if o % 0x40 = 0 then 0xFFFF_FFFF_FFFF else if o % 0x40 < 0x28 then 0xFFFF_FFFF_FFFF_FFFF else 0)
  else 0

/-- A host's write to the PF's map. -/
def State.pfWrite (s : State) (o : Nat) (v m : BitVec 64) : State :=
  if m &&& firmField o ≠ 0 then s.lockViolation o v
  else if o = 0x1008 then (if bitB v 0 then { s with time := { s.time with ppsSeen := false } } else s)
  else if o = 0x3008 then (if bitB v 43 then { s with power := { s.power with margin := false } } else s)
  else if o = 0x3010 then
    { s with mgmt := { s.mgmt with asyCtl := atLeast1 (atLeast1 (storeOn s.mgmt.asyCtl v m 0xFF_FF3F) 8 8) 16 8 } }
  else if o = 0x7000 then s.clearInts 0 v
  else if o = 0x7008 then { s with mgmt := { s.mgmt with apt := put 0 s.mgmt.apt 0 (storeOn (look s.mgmt.apt 0 0) v m 0xF) } }
  else if 0x7800 ≤ o && o < 0x7900 then s.msixWrite 0 (o - 0x7800) v m
  else if 0x1_0000 ≤ o && o < 0x9_0000 then s.windowWrite ((o - 0x1_0000) / 0x1_0000) (o % 0x1_0000) o v m true
  else s

/-- Whether a register is one that the firmware alone writes. -/
def firmOwn (o : Nat) : Bool :=
  [0x2000, 0x2008, 0x3000, 0x1018, 0x1020, 0x1028].contains o || (decide (0x1_0000 ≤ o) && decide (o < 0x9_0000) && decide (o % 0x1_0000 = 0x38))

/-- The firmware's write of a register that it alone writes. -/
def State.firmWrite (s : State) (o : Nat) (v m : BitVec 64) : State :=
  let new (old : BitVec 64) : BitVec 64 := storeOn old v m (firmField o)
  if o = 0x2000 then s.writeFabCfg (new s.fabric.cfg)
  else if o = 0x2008 then s.writeFabAxes (new s.fabric.axes)
  else if o = 0x3000 then { s with power := { s.power with cap := new s.power.cap } }
  else if o = 0x1018 then { s with time := { s.time with ctl := new s.time.ctl } }.selectPll
  else if o = 0x1020 then { s with time := { s.time with ppsOffset := (new (s.time.ppsOffset.setWidth 64)).setWidth 31 } }
  else if o = 0x1028 then { s with time := { s.time with timeBase := (new (s.time.timeBase.setWidth 64)).setWidth 48 } }
  else
    let t := (o - 0x1_0000) / 0x1_0000
    if s.tenExists t && bitB m 0 then s.modTen t (fun n => { n with weight := bits v 7 0 }) else s

/-- A write to a function's mailbox. -/
def State.boxWrite (s : State) (fn o : Nat) (v m : BitVec 64) : State :=
  let b := boxOf s fn
  if o < 0x800 then
    let e := look b.req 0 (o / 32)
    let q := o / 8 % 4
    s.setBox fn { b with req := put 0 b.req (o / 32) (putBits e (64 * q) (storeOn (e.extractLsb' (64 * q) 64) v m 0xFFFF_FFFF_FFFF_FFFF)) }
  else if o = 0x3000 then (if bitB m 0 then s.moveTail fn (bits v 5 0) else s)
  else if o = 0x3010 then (if bitB m 0 then s.moveHead fn (bits v 7 0) else s)
  else if o = 0x3020 then s.setBox fn { b with reqOver := b.reqOver && !bitB v 0, rspOver := b.rspOver && !bitB v 1, lost := b.lost && !bitB v 2 }
  else if o = 0x3028 then (if bitB m 0 then s.setBox fn { b with thresh := BitVec.ofNat 14 (min 8192 (bitsN v 13 0)) } else s)
  else s

/-- `REGISTER_WRITE`. -/
def execRegisterWrite (fn : Fn) (bar4 : Bool) (off : BitVec 20) (bytes : BitVec 4) (value : BitVec 64) (firmware : Bool) (s : State) : Answer :=
  let f := fn.val
  let o := off.toNat
  let n := bytes.toNat
  if !(if firmware then mgmtOn s && !s.board.safe else hostOn s f) then .next s
  else
    let v := onLanes o n value
    let m := lanes o n
    let b := o / 8 * 8
    let s0 := if bar4 || firmware then s else s.dropLatch f
    let odd := !((n = 8 && o % 8 = 0) || (n = 4 && o % 4 = 0))
    if bar4 then .next (if odd then s0 else s0.boxWrite f b v m)
    else if odd || bar0Size f ≤ o then .next (if firmware then s0 else s0.hostUr f)
    else if firmware then .next (if firmOwn b then s0.firmWrite b v m else s0.pfWrite b v m)
    else if f = 0 then .next (s0.pfWrite b v m)
    else .next (s0.windowWrite (f - 1) b b v m false)

/-- `INT_STATUS_CLEAR`: through the function itself, or through the PF's view of it. -/
def execIntStatusClear (fn : Fn) (mask : BitVec 64) (s : State) : Answer :=
  if s.board.safe then .next s else .next ((s.dropLatch fn.val).clearInts fn.val mask)

end Sys2Proof.Machine
end

