-- ==== Sys2Proof/Machine/HostIo.lean ====
section
/-! DEFINITION. The host's accesses to HBM, and the resets of a function (19 R501 to R506). -/

namespace Sys2Proof.Machine

open Sys2Proof

/-! ### The HBM aperture (19 R505, R506) -/

/-- The HBM word and the byte of it that byte `o` of a function's BAR2 is; none outside a VF's share, and past the PF's stack. -/
def aperture (s : State) (fn o : Nat) : Option (Nat × Nat) :=
  let ctl := look s.mgmt.apt 0 fn
  let st := bitsN ctl 2 0
  if fn = 0 then (if o / 32 < stackWords then some (stackWords * st + o / 32, o % 32) else none)
  else
    let sh := shareOf s (fn - 1) st
    if bitB ctl 3 then (if o / 8 < sh.2 / 128 then some (hallWord (stackWords * st + sh.1 + 128 * (o / 8)), o % 8) else none)
    else (if o / 32 < sh.2 then some (stackWords * st + sh.1 + o / 32, o % 32) else none)

/-- The requester of a host access to a word: the host DMA of the tenancy that owns it, else management DMA. -/
def hostReq (s : State) (key : Nat) : Nat := match ownerOfHbm s key with | some t => 8 + t | none => 7

/-- A word's transfer in an aperture access: its energy, summed for the requester. -/
def State.hostCharge (s : State) (key cls : Nat) : State :=
  s.charge (ownerOfHbm s key) (eventEnergy s cls 1) [stackOff (key / stackWords) 0x28, chipOff (0x100 + 8 * hostReq s key)]

/-- What a host's read of a word leaves: its energy, its correction counted, an uncorrectable word written back poisoned (12 R579). -/
def State.hostGet (s : State) (key : Nat) : State :=
  let g := decodeWord (rawWord s .hbm key)
  let s1 := s.hostCharge key 12
  if g.corrected then s1.count (stackOff (key / stackWords) 0) 1
  else if g.uncorr then ((s1.markUncorr .hbm key).writeWord .hbm key g.w).count (stackOff (key / stackWords) 8) 1
  else s1

/-- A word of HBM written by the host, which waits while its page is SEALED (16 R431). -/
def State.hostPut (s : State) (key : Nat) (w : MemWord) : State :=
  match ownerOfHbm s key with
  | none => s.writeWord .hbm key w
  | some t =>
    let sw := key % stackWords
    let d := if 0x7F00_0000 ≤ sw && sw < 0x7FFE_0000 then stackWords * (key / stackWords) + 128 * blockOfHall (sw - 0x7F00_0000) else key
    match heldPage s t d with
    | some m =>
      let h : HeldWrite := ⟨key / stackWords, m, false, [(key, w)]⟩
      s.modTen t (fun n => { n with escrow := { n.escrow with held := n.escrow.held ++ [h] } })
    | none => s.writeWord .hbm key w

/-- Bytes, each with its place, put into a word. -/
def putBytes (d : BitVec 256) (bs : List (Nat × BitVec 8)) : BitVec 256 :=
  bs.foldl (fun (d : BitVec 256) (b : Nat × BitVec 8) => putBits d (8 * b.1) b.2) d

/-- Bytes written into one word: a whole word is new, a part is merged, and a poisoned or uncorrectable word stays poisoned. -/
def State.hostWord (s : State) (key : Nat) (bs : List (Nat × BitVec 8)) (ep : Bool) : State :=
  if (upTo 32).all (fun i => bs.any (fun (b : Nat × BitVec 8) => b.1 = i)) then
    (s.hostCharge key 13).hostPut key (wordOf (putBytes 0 bs) ep)
  else
    let old := readWord s .hbm key
    ((s.hostGet key).hostCharge key 13).hostPut key (wordOf (putBytes old.data bs) (ep || isPoisoned old))

/-- The words that places lie in, in order. -/
def placeKeys (ps : List (Nat × Nat)) : List Nat := ps.foldl (fun (l : List Nat) (p : Nat × Nat) => insertNew l p.1) []

/-- The arbiter's grants of an access to some words of one stack. -/
def State.hostGrants (s : State) (keys : List Nat) : State :=
  match keys with
  | [] => s
  | k :: _ => s.grant (k / stackWords) (hostReq s k) (ceilDiv keys.length 128)

/-- `HOST_HBM_ACCESS`: a read gives its bytes, with EP where a word is poisoned; an access that leaves the share, or the stack, is
refused whole and counted. -/
def execHostHbmAccess (fn : Fn) (off : BitVec 36) (write : Bool) (len : BitVec 16) (data : List (BitVec 8)) (ep : Bool) (s : State) : Answer :=
  if !hostOn s fn.val then .next s else
    let n := if write then data.length else len.toNat
    let ps := (upTo n).filterMap (fun i => aperture s fn.val (off.toNat + i))
    if ps.length < n then
      let s1 := s.hostUr fn.val
      .next (if write then s1 else { s1 with mgmt := { s1.mgmt with readUr := true, readBytes := [], readEp := false } })
    else
      let keys := placeKeys ps
      let s1 := s.hostGrants keys
      if write then
        .next (keys.foldl (fun (u : State) k =>
          u.hostWord k (((ps.zip data).filter (fun (x : (Nat × Nat) × BitVec 8) => x.1.1 = k)).map (fun (x : (Nat × Nat) × BitVec 8) => (x.1.2, x.2))) ep) s1)
      else
        let got := ps.map (fun (p : Nat × Nat) => (readWord s .hbm p.1).data.extractLsb' (8 * p.2) 8)
        let s2 := keys.foldl (fun (u : State) k => u.hostGet k) s1
        .next { s2 with mgmt := { s2.mgmt with
          readBytes := got, readUr := false, readEp := keys.any (fun k => isPoisoned (readWord s .hbm k)) } }

/-! ### Function resets (19 R501) -/

/-- A function's rings and backlog cleared, and its daybook cursor: a VF may again read every entry of its tenancy in the ring. -/
def State.clearBox (s : State) (fn : Nat) : State :=
  let m := boxOf s fn
  let s1 := s.setBox fn { reqOver := m.reqOver, rspOver := m.rspOver, lost := m.lost, thresh := m.thresh }
  let again (e : DayEntry) : DayEntry := if (readersOf s e.word).contains fn then { e with readers := insertNew e.readers fn } else e
  { s1 with mgmt := { s1.mgmt with ring := s1.mgmt.ring.map again } }

/-- The reset of a tenancy's function: its job ended, its load state unloaded. -/
def State.resetTen (s : State) (t : Nat) : State :=
  let st := (s.ten t).load.st
  let s1 := if st = .running || st = .loaded then s.hostEnds t else s
  (if st = .empty then s1 else s1.clearLoad t).clearBox (fnOf t)

/-- The reset of the physical function: every tenancy's, and its own mailbox. -/
def State.resetPf (s : State) : State := ((upTo 8).foldl (fun (u : State) t => u.resetTen t) s).clearBox 0

/-- `FUNCTION_LEVEL_RESET`. -/
def execFunctionLevelReset (fn : Fn) (s : State) : Answer :=
  if !hostOn s fn.val then .next s else .next (if fn.val = 0 then s.resetPf else s.resetTen (fn.val - 1))

/-- The PCIe link back in training. -/
def State.retrain (s : State) : State := { s with board := { s.board with pcieUp := false, training := true } }

/-- `HOT_RESET`: the reset of the physical function, then link training. -/
def execHotReset (s : State) : Answer := .next s.resetPf.retrain

end Sys2Proof.Machine
end

