-- ==== Sys2Proof/Machine/Boot.lean ====
section
/-! DEFINITION. Device reset, boot, brown-outs, the loss of a connection, I3C and the TAP (21 R548 to R573; 01 R13, R22). -/

namespace Sys2Proof.Machine

open Sys2Proof

/-! ### Device reset (21 R560) -/

/-- A die ledger's contents as flash keeps them over a reset: what was committed. -/
def State.afterReset (s : State) : State :=
  let b := s.board
  { State.reset with
    pending := s.pending
    ident := s.ident
    fresh := s.fresh
    mgmt := { ledger := s.mgmt.flash, flash := s.mgmt.flash, hostMem := s.mgmt.hostMem, slot0 := s.mgmt.slot0, slot1 := s.mgmt.slot1
              runSlot := s.mgmt.runSlot, nextSlot := s.mgmt.nextSlot, fuseMin := s.mgmt.fuseMin, revoked := s.mgmt.revoked }
    board := { jtag := b.jtag, perst := b.perst, railsOut := b.railsOut, i3cReg := b.i3cReg, tapInstr := b.tapInstr, tapData := b.tapData
               boundary := b.boundary } }

/-- `DEVICE_RESET`: POR_N low. -/
def execDeviceReset (s : State) : Answer := .next s.afterReset

/-! ### Boot (21 R563, Table 21.8) -/

/-- The lowest bit that is set. -/
def lowBit {n : Nat} (w : BitVec n) : Nat := ((upTo n).find? (fun i => w.getLsbD i)).getD 0

/-- A boot event in the die ledger's Device section. -/
def State.logDevice (s : State) (k : BitVec 8) : State :=
  { s with mgmt := { s.mgmt with ledger := { s.mgmt.ledger with device := s.mgmt.ledger.device ++ [(k, s.time.tally)] } } }

/-- A stage begun. -/
def State.begin (s : State) (stage : BitVec 8) : State := { s with board := { s.board with stage := stage } }

/-- A stage failed: the dies held in reset, PCIe untrained; from stage 3 on the firmware records it. -/
def State.bootFail (s : State) (code detail : BitVec 8) : State :=
  let s1 := if 3 ≤ s.board.stage then (s.logDevice (0x80 ||| code)).commitEvents else s
  { s1 with time := {}, board := { s1.board with fail := code, detail := detail, training := false, pcieUp := false } }

/-- A clock input's absence: DETAIL names the input in a code that the manual does not give. -/
def State.clockFail (s : State) : State :=
  let d := s.draw
  d.2.bootFail 0x02 (BitVec.ofNat 8 d.1)

/-- The setpoint that stage 0x04 applies (21 R564). -/
def bootSetpoint (s : State) : Nat :=
  match s.mgmt.ledger.trims.getLast? with
  | some x => min 820 (max setFloor x.2.2.1)
  | none => setFloor

/-- Stage 0x0A: link training, once PERST_N is high. -/
def State.bootA (s : State) (b : BootReadings) : State :=
  let s1 := s.begin 0x0A
  if !b.pcieClock then s1.clockFail
  else { s1 with board := { s1.board with training := s1.board.perst } }

/-- Every word of HBM written. -/
def State.clearHbm (s : State) : State := { s with hbm := { s.hbm with words := [], stash := [], clearing := [] } }

/-- Every word of the on-die stores written. -/
def State.clearDies (s : State) : State := { s with cores := {}, stores := {}, fabric := { s.fabric with records := [] } }

/-- Stages 0x08 and 0x09: every word of HBM and of every on-die store written, the fabric ports started (21 R568 to R570). -/
def State.boot8 (s : State) (b : BootReadings) : State :=
  let s2 := (s.begin 0x08).clearHbm.begin 0x09 |>.clearDies
  if !b.fabClock then s2.clockFail
  else if !b.fabricStart then s2.bootFail 0x23 0
  else s2.bootA b

/-- Stages 0x06 and 0x07: the core PLL on REFCLK_SYS with the tally at 0; the stacks, and their remap entries. -/
def State.boot6 (s : State) (b : BootReadings) : State :=
  let s1 := s.begin 0x06
  if !b.pllLock then s1.bootFail 0x21 0 else
    let s2 := { s1 with time := { s1.time with pll := .freeRun, tally := 0 } }.begin 0x07
    if b.stackBad ≠ 0 then s2.bootFail 0x22 (BitVec.ofNat 8 (lowBit b.stackBad)) else
      let keys (h : Bool) : List Nat := (s2.mgmt.ledger.remaps.filter (fun x => x.1 = h)).map (·.2)
      { s2 with hbm := { s2.hbm with remapHbm := keys true, remapCs := keys false } }.boot8 b

/-- Stage 0x05: the die-to-die connections; the sensors are read from here on, and a die too hot trips (21 R566). -/
def State.boot5 (s : State) (b : BootReadings) : State :=
  let s1 := (s.begin 0x05).takeTemps ⟨b.tj, []⟩
  if 440 ≤ b.tj.toNat then s1.bootFail 0x24 0
  else if b.d2dBad ≠ 0 then s1.bootFail 0x20 (BitVec.ofNat 8 (lowBit b.d2dBad))
  else s1.boot6 b

/-- Stages 0x03 and 0x04: calibration data and die-ledger records; VDD_CORE at its working setpoint. -/
def State.boot3 (s : State) (b : BootReadings) : State :=
  let s1 := s.begin 0x03
  if !b.calibration then s1.bootFail 0x11 0
  else if b.pmbusBad ≠ 0 then s1.bootFail 0x12 (BitVec.ofNat 8 (lowBit b.pmbusBad))
  else
    let cap : BitVec 64 := putBits s1.power.cap 0 (BitVec.ofNat 11 (tdp s1))
    let s2 := { s1 with power := { s1.power with recal := s1.figure 11 0, cap := cap } }.begin 0x04
    if !b.setpoint then s2.bootFail 0x13 0
    else { s2 with power := { s2.power with vset := BitVec.ofNat 10 (bootSetpoint s2) } }.boot5 b

/-- Stage 0x02: a firmware slot authenticated and started (18 R497). -/
def State.boot2 (s : State) (b : BootReadings) : State :=
  let s1 := { s with board := { s.board with fail := 0, detail := 0 } }.begin 0x02
  match bootSlot s1 with
  | some (slot, fell) => (s1.startFw slot fell).boot3 b
  | none => s1.bootFail 0x10 3

/-- Stage 0x01: straps, rails, REFCLK_SYS. -/
def State.boot1 (s : State) (b : BootReadings) : State :=
  let s1 := { s with board := { s.board with
    por := true, readings := some b, straps := b.straps, jtag := bitB b.straps 5, test := decide (bitsN b.straps 7 6 ≠ 0) } }.begin 0x01
  if b.railsBad ≠ 0 then s1.bootFail 0x01 (BitVec.ofNat 8 (lowBit b.railsBad))
  else if !b.sysClock then s1.clockFail
  else if s1.board.test then s1.bootFail 0x03 0
  else s1.boot2 b

/-- `BOOT`: the rising edge of POR_N, from the state that a reset leaves. -/
def execBoot (b : BootReadings) (s : State) : Answer := .next (if s.board.por then s else s.boot1 b)

/-- `PERST_N_RISE`: a boot that waits at stage 0x0A goes on. -/
def execPerstNRise (s : State) : Answer :=
  .next { s with board := { s.board with perst := true, training := s.board.training || (decide (s.board.stage = 0x0A) && decide (s.board.fail = 0)) } }

/-- A boot at its last stage: done, and the first scrub pass begins. -/
def State.bootEnds (s : State) : State :=
  { s with board := { s.board with stage := 0x0F, bootDone := true }, hbm := { s.hbm with passStart := s.now } }

/-- `PCIE_LINK_UP`: link training completes; a boot at stage 0x0A then reaches stage 0x0F, and the first scrub pass begins. -/
def execPcieLinkUp (s : State) : Answer :=
  if !s.board.training then .next s else
    let s1 := { s with board := { s.board with training := false, pcieUp := true } }
    .next (if s1.board.stage = 0x0A && s1.board.fail = 0 then s1.bootEnds else s1)

/-! ### The management domain's reset and brown-outs (21 R553, R561) -/

/-- `MGMT_RST_N`: boot begins again at stage 0x02, or the management domain restarts, which with a job loaded is a class D error. -/
def execMgmtRstN (s : State) : Answer :=
  if !s.board.por || s.board.test then .next s
  else if !s.board.bootDone then
    match s.board.readings with
    | some b => .next (s.boot2 b)
    | none => .next s
  else if anyLoaded s then .next (s.restartMgmt.deviceError 4)
  else .next s.restartMgmt

/-- A rail's PMBus address minus 0x40 (21 Table 21.2). -/
def railNum (r : Rail) : Nat :=
  match r with | .core => 0 | .sram => 1 | .fab => 2 | .hbmc => 3 | .hbmq => 4 | .vpp => 5 | .mgmt => 6 | .io => 7

/-- `BROWN_OUT`: after boot, and recorded with its rail. -/
def execBrownOut (r : Rail) (s : State) : Answer :=
  if !s.board.bootDone then .next s else
    let s1 := s.logDevice (BitVec.ofNat 8 (0x10 + railNum r))
    match r with
    | .mgmt => .next { s1 with board := { s1.board with railsOut := insertNew s1.board.railsOut r } }
    | .io => .next { s1 with board := { s1.board with railsOut := insertNew s1.board.railsOut r } }
    | _ => .next ({ s1 with time := { s1.time with pll := .off } }.deviceError 1)

/-- `RAIL_BACK_IN_RANGE`: the management domain leaves reset, once no rail of its own is out. -/
def execRailBackInRange (r : Rail) (s : State) : Answer :=
  if !s.board.railsOut.contains r then .next s else
    let s1 := { s with board := { s.board with railsOut := s.board.railsOut.erase r } }
    if mgmtOn s1 then .next (s1.restartMgmt.deviceError 4) else .next s1

/-! ### Losses of the package (01 R13, R22) -/

/-- `CONNECTION_LOSS`: whichever connection it is, the device is lost. -/
def execConnectionLoss (_d : Conn) (s : State) : Answer := .next (s.deviceError 1)

/-- `ROUTER_FAULT`: of whichever core's router. -/
def execRouterFault (_phys : BitVec 7) (s : State) : Answer := .next (s.deviceError 2)

/-! ### I3C (21 R571) -/

/-- BOOT_STATUS (21 Table 21.9). -/
def bootStatus (s : State) : BitVec 64 :=
  let b := s.board
  regOf [b.stage.toNat, b.fail.toNat * 2 ^ 8, b.detail.toNat * 2 ^ 16, flagAt b.bootDone 24, flagAt b.fallback 25, flagAt b.test 26, b.straps.toNat * 2 ^ 27]

/-- A register of the I3C target. -/
def i3cValue (s : State) (i : BitVec 8) : BitVec 64 :=
  match i.toNat with | 0 => bootStatus s | 1 => devId s | 2 => pwrStatus s | 3 => tlyStatus s | _ => 0

/-- The address the target answers at: its dynamic one, else 0x30 + STRAP_ID (21 R562). -/
def i3cAddress (s : State) : BitVec 7 := s.board.i3cAddr.getD (BitVec.ofNat 7 (0x30 + bitsN s.board.straps 3 0))

/-- `I3C_READ`: it serves from stage 0x01, and not while the management domain is in reset. -/
def execI3cRead (index : BitVec 8) (s : State) : Answer :=
  if !s.board.por || !mgmtOn s then .next s
  else .next { s with board := { s.board with i3cReg := index, i3cData := i3cValue s index } }

/-- `DYNAMIC_ADDRESS`. -/
def execDynamicAddress (a : BitVec 7) (s : State) : Answer :=
  if !s.board.por || !mgmtOn s then .next s else .next { s with board := { s.board with i3cAddr := some a } }

/-! ### The TAP (21 R572): instructions 1 BYPASS, 2 IDCODE, 3 SAMPLE/PRELOAD, 4 EXTEST, 5 CLAMP, 6 HIGHZ -/

/-- The 32-bit IDCODE. -/
def idcode (s : State) : BitVec 32 :=
  BitVec.ofNat 32 ((if s.ident.isB0 then 2 ^ 28 else 0) + (if s.ident.is64 then 0x7064 else 0x7056) * 2 ^ 12 + 0x4D3 * 2 + 1)

/-- An instruction in force with the data register it selects; none while the TAP is held in Test-Logic-Reset. -/
def State.tap (s : State) (i : BitVec 3) (d : BitVec 32) : State :=
  if s.board.jtag then { s with board := { s.board with tapInstr := i, tapData := d } } else s

/-- One of the instructions that act only while POR_N is low, and are BYPASS at other times. -/
def State.tapPor (s : State) (i : BitVec 3) (d : BitVec 32) : State := if s.board.por then s.tap 1 0 else s.tap i d

/-- `BYPASS`. -/
def execBypass (s : State) : Answer := .next (s.tap 1 0)

/-- `IDCODE`. -/
def execIdcode (s : State) : Answer := .next (s.tap 2 (idcode s))

/-- `SAMPLE_PRELOAD`: the boundary register takes the pins. -/
def execSamplePreload (pins : BitVec 32) (s : State) : Answer :=
  let s1 := s.tap 3 pins
  .next (if s.board.jtag then { s1 with board := { s1.board with boundary := pins } } else s1)

/-- `EXTEST`: the boundary register is selected, and drives the pins. -/
def execExtest (s : State) : Answer := .next (s.tapPor 4 s.board.boundary)

/-- `CLAMP`: the boundary register drives the pins; BYPASS is selected. -/
def execClamp (s : State) : Answer := .next (s.tapPor 5 0)

/-- `HIGHZ`: the pins float; BYPASS is selected. -/
def execHighz (s : State) : Answer := .next (s.tapPor 6 0)

end Sys2Proof.Machine
end

