-- ==== Sys2Proof/Machine/Dispatch.lean ====
section
/-! DEFINITION. One arm for each command: what it does to everything but the queue. -/

namespace Sys2Proof.Machine

open Sys2Proof

/-- The effect of a command. -/
def exec (i : Instr) (s : State) : Host.Outcome State Fault Refusal :=
  match i with
  | .bundleIssue c => Sys2Proof.Machine.execBundleIssue c s
  | .courseBoundary t => Sys2Proof.Machine.execCourseBoundary t s
  | .mrun c desc => Sys2Proof.Machine.execMrun c desc s
  | .malt c desc0 desc1 => Sys2Proof.Machine.execMalt c desc0 desc1 s
  | .mpre c desc => Sys2Proof.Machine.execMpre c desc s
  | .mdrn c desc bank release => Sys2Proof.Machine.execMdrn c desc bank release s
  | .mrel c desc bank => Sys2Proof.Machine.execMrel c desc bank s
  | .add c a => Sys2Proof.Machine.execAdd c a s
  | .sub c a => Sys2Proof.Machine.execSub c a s
  | .mul c a => Sys2Proof.Machine.execMul c a s
  | .fma c a => Sys2Proof.Machine.execFma c a s
  | .fnma c a => Sys2Proof.Machine.execFnma c a s
  | .min c a => Sys2Proof.Machine.execMin c a s
  | .max c a => Sys2Proof.Machine.execMax c a s
  | .neg c a => Sys2Proof.Machine.execNeg c a s
  | .abs c a => Sys2Proof.Machine.execAbs c a s
  | .cmplt c a => Sys2Proof.Machine.execCmplt c a s
  | .cmple c a => Sys2Proof.Machine.execCmple c a s
  | .cmpeq c a => Sys2Proof.Machine.execCmpeq c a s
  | .sel c a => Sys2Proof.Machine.execSel c a s
  | .drop c a => Sys2Proof.Machine.execDrop c a s
  | .cvt c a => Sys2Proof.Machine.execCvt c a s
  | .div c a => Sys2Proof.Machine.execDiv c a s
  | .rcp c a => Sys2Proof.Machine.execRcp c a s
  | .sqrt c a => Sys2Proof.Machine.execSqrt c a s
  | .rsqrt c a => Sys2Proof.Machine.execRsqrt c a s
  | .exp2 c a => Sys2Proof.Machine.execExp2 c a s
  | .exp c a => Sys2Proof.Machine.execExp c a s
  | .log2 c a => Sys2Proof.Machine.execLog2 c a s
  | .ln c a => Sys2Proof.Machine.execLn c a s
  | .ln1p c a => Sys2Proof.Machine.execLn1p c a s
  | .tanh c a => Sys2Proof.Machine.execTanh c a s
  | .erf c a => Sys2Proof.Machine.execErf c a s
  | .sigmoid c a => Sys2Proof.Machine.execSigmoid c a s
  | .silu c a => Sys2Proof.Machine.execSilu c a s
  | .gelu c a => Sys2Proof.Machine.execGelu c a s
  | .geluT c a => Sys2Proof.Machine.execGeluT c a s
  | .softplus c a => Sys2Proof.Machine.execSoftplus c a s
  | .relu c a => Sys2Proof.Machine.execRelu c a s
  | .dsigmoid c a => Sys2Proof.Machine.execDsigmoid c a s
  | .dtanh c a => Sys2Proof.Machine.execDtanh c a s
  | .dsilu c a => Sys2Proof.Machine.execDsilu c a s
  | .dgelu c a => Sys2Proof.Machine.execDgelu c a s
  | .dgeluT c a => Sys2Proof.Machine.execDgeluT c a s
  | .dsoftplus c a => Sys2Proof.Machine.execDsoftplus c a s
  | .drelu c a => Sys2Proof.Machine.execDrelu c a s
  | .rnorm c a => Sys2Proof.Machine.execRnorm c a s
  | .rnormb c a => Sys2Proof.Machine.execRnormb c a s
  | .rsmax c a => Sys2Proof.Machine.execRsmax c a s
  | .rsmaxb c a => Sys2Proof.Machine.execRsmaxb c a s
  | .rfold c a => Sys2Proof.Machine.execRfold c a s
  | .rxent c a => Sys2Proof.Machine.execRxent c a s
  | .rroute c a => Sys2Proof.Machine.execRroute c a s
  | .rrouteb c a => Sys2Proof.Machine.execRrouteb c a s
  | .rcomb c a => Sys2Proof.Machine.execRcomb c a s
  | .rcsum c a => Sys2Proof.Machine.execRcsum c a s
  | .pspill c desc group n release => Sys2Proof.Machine.execPspill c desc group n release s
  | .pfill c desc group n => Sys2Proof.Machine.execPfill c desc group n s
  | .pclr c group n => Sys2Proof.Machine.execPclr c group n s
  | .hmove c desc ch rate => Sys2Proof.Machine.execHmove c desc ch rate s
  | .hbmReadData c ch => Sys2Proof.Machine.execHbmReadData c ch s
  | .hgath c desc ch nent => Sys2Proof.Machine.execHgath c desc ch nent s
  | .hscat c desc ch nent => Sys2Proof.Machine.execHscat c desc ch nent s
  | .hmesh c desc ch x y count => Sys2Proof.Machine.execHmesh c desc ch x y count s
  | .hpage c desc ch page tag => Sys2Proof.Machine.execHpage c desc ch page tag s
  | .hdesc c entry ch addr kind => Sys2Proof.Machine.execHdesc c entry ch addr kind s
  | .hdsp c desc => Sys2Proof.Machine.execHdsp c desc s
  | .loop c n l => Sys2Proof.Machine.execLoop c n l s
  | .pjump c page tag => Sys2Proof.Machine.execPjump c page tag s
  | .cend c => Sys2Proof.Machine.execCend c s
  | .fbchk c scope check page bundle tag => Sys2Proof.Machine.execFbchk c scope check page bundle tag s
  | .fbret c => Sys2Proof.Machine.execFbret c s
  | .sclose c take => Sys2Proof.Machine.execSclose c take s
  | .sphase c tag => Sys2Proof.Machine.execSphase c tag s
  | .fsend c chan axis peer => Sys2Proof.Machine.execFsend c chan axis peer s
  | .fwait c chan count => Sys2Proof.Machine.execFwait c chan count s
  | .fcoll c chan axis op desc => Sys2Proof.Machine.execFcoll c chan axis op desc s
  | .collectiveComplete t chan => Sys2Proof.Machine.execCollectiveComplete t chan s
  | .collectiveTimeout t chan => Sys2Proof.Machine.execCollectiveTimeout t chan s
  | .dataParcel p f => Sys2Proof.Machine.execDataParcel p f s
  | .collectiveParcel p f => Sys2Proof.Machine.execCollectiveParcel p f s
  | .ackCredit p f => Sys2Proof.Machine.execAckCredit p f s
  | .ackSend t chan => Sys2Proof.Machine.execAckSend t chan s
  | .nak p f => Sys2Proof.Machine.execNak p f s
  | .retryTimeout t chan => Sys2Proof.Machine.execRetryTimeout t chan s
  | .portDown p => Sys2Proof.Machine.execPortDown p s
  | .fabricLinkUp p => Sys2Proof.Machine.execFabricLinkUp p s
  | .blankNotice p f => Sys2Proof.Machine.execBlankNotice p f s
  | .vote p f => Sys2Proof.Machine.execVote p f s
  | .launchReady p f => Sys2Proof.Machine.execLaunchReady p f s
  | .launchGo p f => Sys2Proof.Machine.execLaunchGo p f s
  | .launchTimeout t => Sys2Proof.Machine.execLaunchTimeout t s
  | .tallyProbe => Sys2Proof.Machine.execTallyProbe s
  | .probeFrame p f => Sys2Proof.Machine.execProbeFrame p f s
  | .probeAnswer p f => Sys2Proof.Machine.execProbeAnswer p f s
  | .ppsInEdge => Sys2Proof.Machine.execPpsInEdge s
  | .stop p f => Sys2Proof.Machine.execStop p f s
  | .report p f => Sys2Proof.Machine.execReport p f s
  | .plan p f => Sys2Proof.Machine.execPlan p f s
  | .recoveryActionsComplete t => Sys2Proof.Machine.execRecoveryActionsComplete t s
  | .done p f => Sys2Proof.Machine.execDone p f s
  | .resume p f => Sys2Proof.Machine.execResume p f s
  | .endJob p f => Sys2Proof.Machine.execEndJob p f s
  | .seals p f => Sys2Proof.Machine.execSeals p f s
  | .twin p f => Sys2Proof.Machine.execTwin p f s
  | .recoveryTimeout t => Sys2Proof.Machine.execRecoveryTimeout t s
  | .escrowWindowCopy t st => Sys2Proof.Machine.execEscrowWindowCopy t st s
  | .escrowCopyDone t st => Sys2Proof.Machine.execEscrowCopyDone t st s
  | .escrowDrain t st => Sys2Proof.Machine.execEscrowDrain t st s
  | .escrowParityParcel p f => Sys2Proof.Machine.execEscrowParityParcel p f s
  | .escrowAccept p f => Sys2Proof.Machine.execEscrowAccept p f s
  | .scrubPass => Sys2Proof.Machine.execScrubPass s
  | .scrubBehind => Sys2Proof.Machine.execScrubBehind s
  | .refreshHole => Sys2Proof.Machine.execRefreshHole s
  | .calibrationHole events => Sys2Proof.Machine.execCalibrationHole events s
  | .daybookRelease => Sys2Proof.Machine.execDaybookRelease s
  | .ledgerSnapshot => Sys2Proof.Machine.execLedgerSnapshot s
  | .ledgerEventWrite => Sys2Proof.Machine.execLedgerEventWrite s
  | .reconcile measured => Sys2Proof.Machine.execReconcile measured s
  | .cpmReport slack => Sys2Proof.Machine.execCpmReport slack s
  | .trim => Sys2Proof.Machine.execTrim s
  | .assayComplete r => Sys2Proof.Machine.execAssayComplete r s
  | .telemetry r offsets => Sys2Proof.Machine.execTelemetry r offsets s
  | .daybookDrain r addr limit => Sys2Proof.Machine.execDaybookDrain r addr limit s
  | .assayRequest r kind target force => Sys2Proof.Machine.execAssayRequest r kind target force s
  | .capSet r watts => Sys2Proof.Machine.execCapSet r watts s
  | .create r ten y0 h weight ports => Sys2Proof.Machine.execCreate r ten y0 h weight ports s
  | .share r ten stack base size => Sys2Proof.Machine.execShare r ten stack base size s
  | .windows r ten stack allow => Sys2Proof.Machine.execWindows r ten stack allow s
  | .partition r ten code base size => Sys2Proof.Machine.execPartition r ten code base size s
  | .weight r ten w => Sys2Proof.Machine.execWeight r ten w s
  | .destroy r ten => Sys2Proof.Machine.execDestroy r ten s
  | .blankRequest r ten count => Sys2Proof.Machine.execBlankRequest r ten count s
  | .ledgerRead r sec addr => Sys2Proof.Machine.execLedgerRead r sec addr s
  | .fwStage r addr len image => Sys2Proof.Machine.execFwStage r addr len image s
  | .fwCommit r slot => Sys2Proof.Machine.execFwCommit r slot s
  | .fwActivate r => Sys2Proof.Machine.execFwActivate r s
  | .timeSetup r op => Sys2Proof.Machine.execTimeSetup r op s
  | .arbiterPriority r mask requester level row => Sys2Proof.Machine.execArbiterPriority r mask requester level row s
  | .launch r ten course => Sys2Proof.Machine.execLaunch r ten course s
  | .maintenance r repaired => Sys2Proof.Machine.execMaintenance r repaired s
  | .mbxReqTail fn tail slots => Sys2Proof.Machine.execMbxReqTail fn tail slots s
  | .mbxRspHead fn head => Sys2Proof.Machine.execMbxRspHead fn head s
  | .commit t => Sys2Proof.Machine.execCommit t s
  | .loadComplete t => Sys2Proof.Machine.execLoadComplete t s
  | .unload t => Sys2Proof.Machine.execUnload t s
  | .apply t => Sys2Proof.Machine.execApply t s
  | .blankReq t => Sys2Proof.Machine.execBlankReq t s
  | .hold t on => Sys2Proof.Machine.execHold t on s
  | .fabCfgLock value => Sys2Proof.Machine.execFabCfgLock value s
  | .intStatusClear fn mask => Sys2Proof.Machine.execIntStatusClear fn mask s
  | .counterLowRead fn off => Sys2Proof.Machine.execCounterLowRead fn off s
  | .arbWaitMax fn arb requester wide => Sys2Proof.Machine.execArbWaitMax fn arb requester wide s
  | .tallySnap fn => Sys2Proof.Machine.execTallySnap fn s
  | .registerWrite fn bar4 off bytes value firmware => Sys2Proof.Machine.execRegisterWrite fn bar4 off bytes value firmware s
  | .hostHbmAccess fn off write len data ep => Sys2Proof.Machine.execHostHbmAccess fn off write len data ep s
  | .functionLevelReset fn => Sys2Proof.Machine.execFunctionLevelReset fn s
  | .hotReset => Sys2Proof.Machine.execHotReset s
  | .deviceReset => Sys2Proof.Machine.execDeviceReset s
  | .boot b => Sys2Proof.Machine.execBoot b s
  | .perstNRise => Sys2Proof.Machine.execPerstNRise s
  | .mgmtRstN => Sys2Proof.Machine.execMgmtRstN s
  | .brownOut r => Sys2Proof.Machine.execBrownOut r s
  | .i3cRead index => Sys2Proof.Machine.execI3cRead index s
  | .dynamicAddress a => Sys2Proof.Machine.execDynamicAddress a s
  | .bypass => Sys2Proof.Machine.execBypass s
  | .idcode => Sys2Proof.Machine.execIdcode s
  | .samplePreload pins => Sys2Proof.Machine.execSamplePreload pins s
  | .extest => Sys2Proof.Machine.execExtest s
  | .clamp => Sys2Proof.Machine.execClamp s
  | .highz => Sys2Proof.Machine.execHighz s
  | .linkLoss p => Sys2Proof.Machine.execLinkLoss p s
  | .lossOfLock p => Sys2Proof.Machine.execLossOfLock p s
  | .lockRegained p => Sys2Proof.Machine.execLockRegained p s
  | .connectionLoss d => Sys2Proof.Machine.execConnectionLoss d s
  | .routerFault phys => Sys2Proof.Machine.execRouterFault phys s
  | .railBackInRange r => Sys2Proof.Machine.execRailBackInRange r s
  | .ppsOutEdge => Sys2Proof.Machine.execPpsOutEdge s
  | .tallyRefOutEdge => Sys2Proof.Machine.execTallyRefOutEdge s
  | .pcieLinkUp => Sys2Proof.Machine.execPcieLinkUp s
  | .pfcFrame p pause => Sys2Proof.Machine.execPfcFrame p pause s
  | .foreignFrame p => Sys2Proof.Machine.execForeignFrame p s
  | .fcsDrop p => Sys2Proof.Machine.execFcsDrop p s
  | .badHeader p f => Sys2Proof.Machine.execBadHeader p f s
  | .statePagesWritten t => Sys2Proof.Machine.execStatePagesWritten t s
  | .shareClearingDone => Sys2Proof.Machine.execShareClearingDone s
  | .vfEnable vf on => Sys2Proof.Machine.execVfEnable vf on s
  | .unknownKind r kind => Sys2Proof.Machine.execUnknownKind r kind s
  | .delayRequest seqId => Sys2Proof.Machine.execDelayRequest seqId s

end Sys2Proof.Machine
end

