-- ==== Sys2Proof/Machine/Step.lean ====
section
/-! DEFINITION. One step: the command at the front of the queue, or one tick of the tally. -/

namespace Sys2Proof.Machine

open Sys2Proof

/-- The state with a command at the front of its queue. -/
def State.push1 (s : State) (i : Instr) : State := { s with pending := i :: s.pending }

/-- One step of the machine; with nothing commanded one tick passes (log entry 7). -/
def step (s : State) : Host.Outcome State Fault Refusal :=
  match s.pending with
  | [] => .next (s.pass 1)
  | i :: rest => exec i { s with pending := rest }

/-- The command that a word of the opcode table spells, put at the front of the queue; no row of the table has bits. -/
def State.withFetchWord (s : State) (nbits w : Nat) : State :=
  match decodeTableWord nbits w with
  | some i => s.push1 i
  | none => s

end Sys2Proof.Machine
end

