-- ==== Sys2Proof/Machine/Framing.lean ====
section
/-! DEFINITION. The canonical forms of the state's stores, its parts as frames name them, and what it is to keep all but some parts. -/

namespace Sys2Proof.Machine

open Sys2Proof

/-- The stores of words of a core that no virtual core runs on in canonical form. -/
def SpareStores.wf (x : SpareStores) : Prop := Memory.wf x.cs = true ∧ Memory.wf x.mbox = true ∧ Memory.wf x.prog = true

/-- The stores of words of the cores in canonical form. -/
def Cores.wf (c : Cores) : Prop :=
  Memory.wf c.cs = true ∧ Memory.wf c.mbox = true ∧ Memory.wf c.prog = true ∧ ∀ x ∈ c.idle, x.2.wf

/-- The stores of words in canonical form. -/
def State.wf (s : State) : Prop := s.cores.wf ∧ Hbm.wf s.hbm.words = true

/-- The parts of the state a frame speaks of: the stores of the cores, their units, the stores of idle cores, the merge entries of
words not yet written out, HBM's words and its service, the partitioned stores, the tenancies, the core map, counters, fabric, time, management, power, board, and the model's own fields. -/
inductive View where
  | cs | prog | desc | purse | mbox | hall | tags | acc | engines | busy | seqs | reads | idle | merges
  | words | service | stores | tens | spares | counters | fabric | time | mgmt | power | board | upsets | fresh
deriving DecidableEq, Repr

/-- Two core files agree on a part of them. -/
def View.sameCores (v : View) (a b : Cores) : Prop :=
  match v with
  | .cs => b.cs = a.cs
  | .prog => b.prog = a.prog
  | .desc => b.desc = a.desc ∧ b.descWas = a.descWas
  | .purse => b.purse = a.purse
  | .mbox => b.mbox = a.mbox
  | .hall => b.hall = a.hall ∧ b.mhall = a.mhall
  | .tags => b.tags = a.tags ∧ b.fills = a.fills
  | .acc => b.acc = a.acc ∧ b.bind = a.bind
  | .engines => b.engines = a.engines
  | .busy => b.bcast = a.bcast ∧ b.pairs = a.pairs ∧ b.vxBusy = a.vxBusy ∧ b.rwBusy = a.rwBusy ∧ b.chBusy = a.chBusy
      ∧ b.links = a.links ∧ b.guard = a.guard ∧ b.ports = a.ports ∧ b.quants = a.quants
  | .seqs => b.seqs = a.seqs
  | .reads => b.reads = a.reads
  | .idle => b.idle = a.idle
  | .merges => b.merges = a.merges
  | _ => True

/-- Two HBM services agree on a part of them. -/
def View.sameHbm (v : View) (a b : Hbm) : Prop :=
  match v with
  | .words => b.words = a.words
  | .merges => b.merges = a.merges
  | .service => { b with words := [], merges := [] } = { a with words := [], merges := [] }
  | _ => True

/-- Two states agree on a part. -/
def View.same (v : View) (s t : State) : Prop :=
  v.sameCores s.cores t.cores ∧ v.sameHbm s.hbm t.hbm ∧
  match v with
  | .stores => t.stores = s.stores
  | .tens => t.tens = s.tens
  | .spares => t.spares = s.spares
  | .counters => t.counters = s.counters
  | .fabric => t.fabric = s.fabric
  | .time => t.time = s.time
  | .mgmt => t.mgmt = s.mgmt
  | .power => t.power = s.power
  | .board => t.board = s.board
  | .upsets => t.upsets = s.upsets
  | .fresh => t.fresh = s.fresh
  | _ => True

/-- From `s` to `t` only the parts `vs` may change: the queue and the part's identity stand, and the stores of words stay
canonical. -/
structure Keeps (vs : List View) (s t : State) : Prop where
  pending : t.pending = s.pending
  ident   : t.ident = s.ident
  wf      : s.wf → t.wf
  same    : ∀ v, v ∉ vs → v.same s t

/-! ### Words -/

/-- The memories whose words have addresses. -/
inductive Bank where
  | cs | mbox | hbm
deriving DecidableEq, Repr

/-- Where a word of a space lies. -/
def place (sp : Space) (a : Nat) : Bank × Nat :=
  match sp with
  | .cs c => (.cs, csKey c a)
  | .mbox c => (.mbox, mboxKey c a)
  | .hbm => (.hbm, a)

/-- The word a place holds. -/
def rawAt (s : State) (p : Bank × Nat) : MemWord :=
  match p.1 with
  | .cs => memGet s.cores.cs p.2
  | .mbox => memGet s.cores.mbox p.2
  | .hbm => hbmGet s.hbm.words p.2

/-- A word that a read leaves: as it was, or the poisoned form of one it could not correct (12 R579). -/
def settles (old new : MemWord) : Prop := new = old ∨ ((decodeWord old).uncorr = true ∧ new = (decodeWord old).w)

/-- From `s` to `t` no word changes but those of `ws`, and those of `rs` that a read settles. -/
def Touches (ws rs : List (Bank × Nat)) (s t : State) : Prop :=
  ∀ p, p ∉ ws → rawAt t p = rawAt s p ∨ (p ∈ rs ∧ settles (rawAt s p) (rawAt t p))

/-! ### Writes -/

/-- What waits of a place's word in a merge entry, with the bytes of it that are written (12 R317); a mailbox has none. -/
def waitsAt (s : State) (p : Bank × Nat) : Option (MemWord × BitVec 32) :=
  (find (match p.1 with | .cs => s.cores.merges | .mbox => [] | .hbm => s.hbm.merges) p.2).map (fun e => (e.word, e.mask))

/-- The word a read gives of a place, and what waits of it. -/
def heldAt (s : State) (p : Bank × Nat) : MemWord × Option (MemWord × BitVec 32) := (rawAt s p, waitsAt s p)

/-- A write taken in at a place: one that completes the word's bytes is written out, and one that does not waits. -/
def takeIn (b : Bank) (h : MemWord × Option (MemWord × BitVec 32)) (o : Out) : MemWord × Option (MemWord × BitVec 32) :=
  match b, h.2 with
  | .mbox, _ => (o.w, h.2)
  | _, some e => if (mergeIn e o).2 = allBytes then ((mergeIn e o).1, none) else (h.1, some (mergeIn e o))
  | _, none => if o.part then (h.1, some (o.w, o.mask)) else (o.w, none)

/-- The newest form of a word: what waits of it, or what a read gives. -/
def newest (h : MemWord × Option (MemWord × BitVec 32)) : MemWord := match h.2 with | some e => e.1 | none => h.1

/-- Words of a run, each with its place in a space. -/
def inSpace (sp : Space) (outs : List Out) : List ((Bank × Nat) × Out) := outs.map (fun o => (place sp o.a, o))

/-- From `s` to `t` the words of `ws` are written, each at its place, in order; every other word stands, but for those of `rs` that a
read settles first. -/
def Writes (ws : List ((Bank × Nat) × Out)) (rs : List (Bank × Nat)) (s t : State) : Prop :=
  ∀ p, ∃ w, (w = rawAt s p ∨ p ∈ rs ∧ settles (rawAt s p) w) ∧
    heldAt t p = ((ws.filter (fun x => x.1 = p)).map (·.2)).foldl (takeIn p.1) (w, waitsAt s p)

/-- No more than 16 merge entries of a core store, nor than 64 of a stack, are open (12 R317). -/
def State.mergesFit (s : State) : Prop :=
  (∀ x ∈ s.cores.merges, (s.cores.merges.filter (fun (y : Nat × MergeEntry) => y.1 / csWords = x.1 / csWords)).length ≤ 16) ∧
  (∀ x ∈ s.hbm.merges, (s.hbm.merges.filter (fun (y : Nat × MergeEntry) => y.1 / stackWords = x.1 / stackWords)).length ≤ 64)

/-! ### Frames sent and received -/

/-- A tenancy changes in no more than its course's energy, its stalls and the cause left by the stall that ended last. -/
def Tenancy.talks (a b : Tenancy) : Prop := b = { a with course :=
  { a.course with energy := b.course.energy, stalls := b.course.stalls, shift := b.course.shift } }

/-- The fabric changes in no more than flows, channels and the frames sent. -/
def Fabric.talks (a b : Fabric) : Prop := b = { a with chans := b.chans, sends := b.sends, recvs := b.recvs, outbox := b.outbox }

/-- What frames sent and received change of tenancies and fabric: flows, channels and frames sent, energy, and stalls that credits end. -/
def Talks (s t : State) : Prop := (∀ n, (s.ten n).talks (t.ten n)) ∧ s.fabric.talks t.fabric

end Sys2Proof.Machine
end

