-- ==== Sys2Proof/WellFormed.lean ====
section
/-! DEFINITION. The checks a command passes before it is one: each with a name. What a frame or message gets wrong that the
device itself must answer (a bad header, a refused request) is no check here. -/

namespace Sys2Proof

/-- What makes a command ill formed. -/
inductive Ill where
  /-- A frame command whose frame is of another kind (13 Table 13.5). -/
  | frameKind
  /-- More payload words than NW can hold (13 Table 13.4). -/
  | frameLength
  /-- A boundary whose stack temperatures are not eight (17 R463). -/
  | stackCount
  /-- A calibration hole whose event counts are not eight (12 R316). -/
  | eventCount
  /-- A report whose monitors are not 304 (17 R469). -/
  | monitorCount
  /-- More than three telemetry offsets (18 Table 18.4). -/
  | offsetCount
  /-- More request slots than the ring holds (18 R474). -/
  | slotCount
  /-- A register write of neither four nor eight bytes (20 R527). -/
  | writeSize
deriving DecidableEq, Repr

/-- The kind a frame command carries, where it carries one (13 Table 13.5). -/
def kindOf (i : Instr) : Option (Frame × BitVec 4) :=
  match i with
  | .dataParcel _ f => some (f, 0)
  | .ackCredit _ f => some (f, 1)
  | .nak _ f => some (f, 2)
  | .probeFrame _ f => some (f, 3)
  | .probeAnswer _ f => some (f, 4)
  | .blankNotice _ f => some (f, 5)
  | .vote _ f => some (f, 6)
  | .launchReady _ f => some (f, 7)
  | .launchGo _ f => some (f, 7)
  | .collectiveParcel _ f => some (f, 8)
  | .stop _ f => some (f, 9)
  | .report _ f => some (f, 9)
  | .plan _ f => some (f, 9)
  | .done _ f => some (f, 9)
  | .resume _ f => some (f, 9)
  | .endJob _ f => some (f, 9)
  | .seals _ f => some (f, 9)
  | .twin _ f => some (f, 9)
  | .escrowParityParcel _ f => some (f, 0)
  | .escrowAccept _ f => some (f, 0)
  | _ => none

/-- The first check a command fails. -/
def illOf (i : Instr) : Option Ill :=
  match kindOf i with
  | some (f, k) => if f.kind ≠ k then some .frameKind else if 255 < f.payload.length then some .frameLength else none
  | none => match i with
    | .courseBoundary t => if t.hbm.length = 8 then none else some .stackCount
    | .calibrationHole e => if e.length = 8 then none else some .eventCount
    | .cpmReport l => if l.length = 304 then none else some .monitorCount
    | .telemetry _ o => if o.length ≤ 3 then none else some .offsetCount
    | .mbxReqTail _ _ l => if l.length ≤ 64 then none else some .slotCount
    | .registerWrite _ _ _ b _ _ => if b = 4 ∨ b = 8 then none else some .writeSize
    | .badHeader _ f => if 255 < f.payload.length then some .frameLength else none
    | _ => none

/-- Whether a command is well formed. -/
def wellFormed (i : Instr) : Bool := (illOf i).isNone

end Sys2Proof
end

