-- ==== Sys2Proof/Safety.lean ====
section
/-! DEFINITION. What counts as a safe run: every step answers a next state and the queue holds well-formed commands. -/

namespace Sys2Proof.Machine

open Sys2Proof

/-- A step answers a next state: no fault and no refusal. -/
def Completes (o : Host.Outcome State Fault Refusal) : Prop := ∃ t, o = .next t

/-- A queue whose commands are well formed. -/
def State.queueWf (s : State) : Prop := ∀ i ∈ s.pending, wellFormed i = true

end Sys2Proof.Machine
end

