-- ==== Sys2Proof/Certificates/Slice0/Obligations.lean ====
section
/-! DEFINITION. The statements about the machine: each says which rule of the spec it formalises. -/

namespace Sys2Proof.Claims

open Sys2Proof Sys2Proof.Machine

/-- The vector instructions with their operations (06 Tables 06.1, 06.2, 06.3). -/
def vectorRows : List ((Core → VxArgs → Instr) × VxOp) :=
  [(.add, vAdd), (.sub, vSub), (.mul, vMul), (.fma, vFma), (.fnma, vFnma), (.min, vMin), (.max, vMax), (.neg, vNeg), (.abs, vAbs),
   (.cmplt, vCmplt), (.cmple, vCmple), (.cmpeq, vCmpeq), (.sel, vSel), (.drop, vDrop), (.cvt, vCvt), (.div, vFn2 fDiv), (.rcp, vFn fRcp),
   (.sqrt, vFn fSqrt), (.rsqrt, vFn fRsqrt), (.exp2, vFn fExp2), (.exp, vFn fExp), (.log2, vFn fLog2), (.ln, vFn fLn), (.ln1p, vFn fLn1p),
   (.tanh, vFn fTanh), (.erf, vFn fErf), (.sigmoid, vFn fSigmoid), (.silu, vFn fSilu), (.gelu, vFn fGelu), (.geluT, vFn fGeluT),
   (.softplus, vFn fSoftplus), (.relu, vFn fRelu), (.dsigmoid, vFn dSigmoid), (.dtanh, vFn dTanh), (.dsilu, vFn dSilu),
   (.dgelu, vFn dGelu), (.dgeluT, vFn dGeluT), (.dsoftplus, vFn dSoftplus), (.drelu, vFn dRelu)]

/-- The row instructions whose rows run one after another, with their checks (06 Tables 06.4, 06.5). -/
def rowRows : List ((Core → RowArgs → Instr) × (Core → RowArgs → State → Res RowPlan)) :=
  [(.rnorm, rnormPlan), (.rnormb, rnormbPlan), (.rsmax, rsmaxPlan), (.rsmaxb, rsmaxbPlan), (.rfold, rfoldPlan), (.rxent, rxentPlan),
   (.rroute, rroutePlan), (.rrouteb, rroutebPlan), (.rcomb, rcombPlan)]

/-- What an instruction of core `c` leaves of the words: those it stores are written in its core's store, in order, a whole word at once
and one of fewer bytes to wait in its merge entry until all are there (12 R317); of the others only those it reads change, and only
from a form the code cannot correct to its poisoned form. -/
def leavesWords (c : Core) (outs : List Out) (reads : List Nat) (s t : State) : Prop :=
  Writes (inSpace (.cs c) outs) (reads.map (place (.cs c))) s t

/-- `Writes`, but for the words of `hs`: those that hold HBM's hallmarks. -/
def writesBut (hs : List (Bank × Nat)) (ws : List ((Bank × Nat) × Out)) (rs : List (Bank × Nat)) (s t : State) : Prop :=
  ∀ p, p ∉ hs → ∃ w, (w = rawAt s p ∨ p ∈ rs ∧ settles (rawAt s p) w) ∧
    heldAt t p = ((ws.filter (fun x => x.1 = p)).map (·.2)).foldl (takeIn p.1) (w, waitsAt s p)

/-- The words that hold the hallmarks of the blocks of a run, where they lie beside its words: in HBM (12 R311). -/
def hallsOf (sp : Space) (outs : List Out) : List (Bank × Nat) :=
  match sp with
  | .hbm => (blocksOf (outs.map (·.a))).map (fun b => (.hbm, hallWord (128 * b)))
  | _ => []

/-- No generation of an escrow set is kept, so that no write to HBM waits for a page's copy (16 R430). -/
def nothingKept (s : State) : Prop := ∀ n, (s.ten n).escrow.gens = []

/-- The parts that a unit of a core may change beside its own: words and what waits of them, its counts, energy, reports and errors. -/
def unitViews : List View :=
  [.cs, .mbox, .merges, .words, .service, .hall, .busy, .stores, .tens, .counters, .fabric, .mgmt, .power, .upsets, .fresh]

/-- The parts that time passing to a cycle ahead may change. -/
def timeViews : List View := [.cs, .mbox, .merges, .words, .tens, .counters, .fabric, .time, .mgmt, .power]

/-- Accumulators hold what a product's work gave them. -/
def filled (accs : List (Nat × Acc)) (t : State) : Prop := ∀ k ∈ accs.map (·.1), ∃ a, (k, a) ∈ accs ∧ look t.cores.acc {} k = a

/-- A key of the accumulators that a handoff of product `p` of core `c` leaves (04 R89). -/
def handedOff (c : Core) (p : Prod) (k : Nat) : Prop :=
  p.handoff = true ∧ ∃ x ∈ p.openTiles, ∃ r < p.m, ∃ i < 128, k = accKey c x.1 (nth p.src 0 x.2.1) (p.rb + r) (128 * x.2.2 + i)

/-- The value that a bind field of a descriptor gives (11 R285). -/
def bound (s : State) (c : Core) (d : BitVec 512) (off : Nat) (short : Bool) : Nat := bindVal s c (opndAt d off short).bind

/-- The accumulators after a product: those it fills hold its results, those a handoff leaves are empty, and every other stands. -/
def accsAfter (c : Core) (p : Prod) (accs : List (Nat × Acc)) (s t : State) : Prop :=
  filled accs t ∧ ∀ k, k ∉ accs.map (·.1) →
    (handedOff c p k → look t.cores.acc {} k = {}) ∧ (¬ handedOff c p k → look t.cores.acc {} k = look s.cores.acc {} k)

end Sys2Proof.Claims

open Sys2Proof Sys2Proof.Machine Sys2Proof.Claims

/-! ### Every command -/

/-- Machine: a step runs the command at the front of the queue on the state with the queue's rest. -/
def Obligations.StepRunsFront : Prop :=
  ∀ (i : Instr) (q : List Instr) (s : State), step { s with pending := i :: q } = exec i { s with pending := q }

/-- Machine: with no command waiting a step is one tick of time (the model's choice, log entry 7). While the PLL runs the
tally moves on by one; with the PLL off nothing changes. -/
def Obligations.EmptyQueueIsOneTick : Prop :=
  ∀ s : State, s.pending = [] → ∃ t, step s = .next t ∧
    (s.time.pll ≠ .off → t.time.tally = s.time.tally + 1) ∧ (s.time.pll = .off → t = s) ∧ Keeps timeViews s t

/-- Machine: every command completes, whatever the state: it answers a next state in which the waiting commands and the part's
identity stand. -/
def Obligations.EveryCommandCompletes : Prop :=
  ∀ (i : Instr) (s : State), ∃ t, exec i s = .next t ∧ t.pending = s.pending ∧ t.ident = s.ident

/-- Machine: every step from a state whose memories are in canonical form, and whose waiting commands are well formed, gives such
a state. -/
def Obligations.StepKeepsForm : Prop :=
  ∀ s t : State, s.wf → s.queueWf → step s = .next t → t.wf ∧ t.queueWf

/-- Machine: the state after reset is in that form. -/
def Obligations.ResetForm : Prop := State.reset.wf ∧ State.reset.queueWf

/-! ### Vector unit and row engine -/

/-- 11 R292, 06 R135, 12 R317: a vector instruction whose checks pass, and whose merge entries have room, stores its words in its core's
store and takes the vector unit until its last vector; no other word, and no register but those of counts, energy, reports and errors,
changes. -/
def Obligations.VectorInstructions : Prop :=
  ∀ x ∈ vectorRows, ∀ (c : Core) (a : VxArgs) (s s1 : State) (p : VxPlan), issues s c = true → vxPlan x.2 c a s = .ok p →
    s.claimPorts c (p.ports x.2 a.bf16 s) = .ok s1 → (vxRun x.2 c a p s s1).mergesFit →
    ∃ t, exec (x.1 c a) s = .next t ∧ leavesWords c p.outs (p.ins.flatMap p.reads) s t ∧
      look t.cores.vxBusy 0 c.val = p.until x.2 ∧ Keeps unitViews s t

/-- 06 R135, Tables 06.1 to 06.3, 11 R292, R293: of a vector instruction whose destination is a plain format each element of D holds the
code, rounded as its stream says, of the operation on the elements of A, B and C at its position. They read as before it, but for words
of its own that vectors read in an earlier cycle have written by then: with none such, or in its first cycles, as before it. -/
def Obligations.VectorElements : Prop :=
  ∀ x ∈ vectorRows, ∀ (c : Core) (a : VxArgs) (s s1 : State) (p : VxPlan), issues s c = true → vxPlan x.2 c a s = .ok p →
    s.claimPorts c (p.ports x.2 a.bf16 s) = .ok s1 → (vxRun x.2 c a p s s1).mergesFit → isPlain p.out.fmt = true →
    ∃ t, exec (x.1 c a) s = .next t ∧ ∀ i, i < p.n → ∃ (v : State) (u r : Option Nat),
      (vxMeets p.ins p.out p.n = false ∨ i / (if x.2.pipe then 16 else if a.bf16 then 128 else 64) ≤ vxDepth s x.2.pipe → v = s) ∧
      (∀ b, (∀ o ∈ p.outs, b ≠ csKey c o.a) → memGet v.cores.cs b = memGet s.cores.cs b) ∧ Keeps [.cs] s v ∧
      (p.out.stoch = false → u = none) ∧
      let xs := vxIn v c p.ins i
      let w := newest (heldAt t (place (.cs c) (p.out.word (p.out.e0 + i)).toNat))
      elemOf (elemBits p.out.fmt) ((p.out.e0 + i) % perWord p.out.fmt).toNat w.data =
        (fmtOf p.out.fmt).encode (if p.out.fmt = 0 then none else u)
          (Machine.vxElem x.2 a.bf16 (bitsN p.d 321 290) (bits p.d 353 322) (r.getD 0) (xs.map (·.1))) % 2 ^ elemBits p.out.fmt ∧
      (xs.any (·.2) = true → isPoisoned w = true)

/-- 06 R150: `RCSUM` likewise, through its sums of columns; it uses no purse entry. -/
def Sys2Proof.Claims.columnSums : Prop :=
  ∀ (c : Core) (a : RowArgs) (s s1 : State) (p : CsumPlan), issues s c = true → rcsumPlan c a s = .ok p →
    s.claimPorts c (p.ports c a s) = .ok s1 → (rcsumRun c a p s s1).mergesFit →
    ∃ t, exec (.rcsum c a) s = .next t ∧ leavesWords c p.outs p.reads s t ∧
      look t.cores.rwBusy 0 c.val = rowBusy c a p.d csumShape s ∧ Keeps unitViews s t

/-- 06 R143 to R149, 11 R295, 12 R317: a row instruction whose checks pass, whose rows all run and whose merge entries have room stores
its words in its core's store and takes the row engine; no other word, and no register but those of its purse entries, counts, energy,
reports and errors, changes. -/
def Obligations.RowInstructions : Prop :=
  (∀ x ∈ rowRows, ∀ (c : Core) (a : RowArgs) (s s1 : State) (p : RowPlan), issues s c = true → x.2 c a s = .ok p →
    s.claimPorts c (p.ports c a s) = .ok s1 → (rowRun c a p s s1).mergesFit → p.res.2 = none →
    ∃ t, exec (x.1 c a) s = .next t ∧ leavesWords c (p.outs c a s) (p.reads a) s t ∧
      look t.cores.rwBusy 0 c.val = rowBusy c a p.d p.h s ∧ (p.h.reads = false → p.h.writes = false → t.cores.purse = s.cores.purse) ∧
      Keeps (.purse :: unitViews) s t) ∧
  columnSums

/-- 06 R151 to R158: `PSPILL` stores the words of its entries, and releases them where told;
`PFILL` makes valid entries of the words it reads, under the tag of its descriptor; `PCLR` clears the valid bits of its groups and
nothing else of them. Each blocks the row engine, and no entry outside its groups becomes valid or invalid. -/
def Obligations.PurseInstructions : Prop :=
  ∀ (c : Core) (desc : BitVec 10) (g n : BitVec 6) (release : Bool) (s s1 : State), issues s c = true →
    (∀ p : SpillPlan, pspillPlan c desc g n s = .ok p → s.claimPorts c [.solid (unitClock s c + 1) (8 * zeroIs 64 n) 0 1] = .ok s1 →
      ∃ t, exec (.pspill c desc g n release) s = .next t ∧ leavesWords c p.outs [] s t ∧
        (∀ (d : Core) (k : Nat), k < 4096 → (purseAt t d k).valid =
          ((purseAt s d k).valid && !(release && decide (d = c) && decide (64 * g.toNat ≤ k) && decide (k < 64 * (g.toNat + zeroIs 64 n))))) ∧
        look t.cores.rwBusy 0 c.val = unitClock s c + 8 * zeroIs 64 n + 1 ∧ Keeps (.purse :: unitViews) s t) ∧
    (∀ p : BitVec 512 × Nat, pfillPlan c desc g n s = .ok p → s.claimPorts c [.solid (unitClock s c + 1) (8 * zeroIs 64 n) 1 0] = .ok s1 →
      ∃ t, exec (.pfill c desc g n) s = .next t ∧
        leavesWords c [] ((upTo (8 * zeroIs 64 n)).map (p.2 + ·)) s t ∧
        (∀ (d : Core) (k : Nat), k < 4096 → purseAt t d k =
          if d = c ∧ 64 * g.toNat ≤ k ∧ k < 64 * (g.toNat + zeroIs 64 n) then fillEntry c p s (k - 64 * g.toNat) else purseAt s d k) ∧
        look t.cores.rwBusy 0 c.val = unitClock s c + 8 * zeroIs 64 n + 1 ∧ Keeps (.purse :: unitViews) s t) ∧
    (look s.cores.rwBusy 0 c.val ≤ unitClock s c → g.toNat + zeroIs 64 n ≤ 64 →
      ∃ t, exec (.pclr c g n) s = .next t ∧
        (∀ (d : Core) (k : Nat), k < 4096 → purseAt t d k =
          if d = c ∧ 64 * g.toNat ≤ k ∧ k < 64 * (g.toNat + zeroIs 64 n) then { purseAt s d k with valid := false } else purseAt s d k) ∧
        look t.cores.rwBusy 0 c.val = unitClock s c + 1 ∧ Keeps [.purse, .busy] s t)

/-! ### Matrix engines -/

/-- 04 R85 to R90, 11 R286: `MRUN` of a descriptor that is not paired, whose checks pass, leaves in each accumulator of its rows the
result of its work, empties those that a handoff leaves, binds the rows to their anchors and takes the broadcast until its last vector;
every other accumulator, and every word, stands but for words that its reads settle. -/
def Sys2Proof.Claims.productRuns : Prop :=
  ∀ (c : Core) (s : State) (desc : BitVec 10) (d : BitVec 512) (p : Prod) (o : ProdOps) (v : ProdVals) (s1 : State), issues s c = true →
    let r := s.strikeAccs c
    let now := unitClock r c
    let s0 := runFirst r c p
    latchForm r c desc 1 [0] = .ok d → prepare r c d 0 (bound r c d 229 true) (bound r c d 348 false) = .ok p → runPlan c p r = .ok o →
    r.claimPorts c (prodPorts r p now (loadStart r c p.engs now) s0) = .ok s1 → p.paired = false → prodWork r c p none o.qs = .ok v →
    ∃ t, exec (.mrun c desc) s = .next t ∧ accsAfter c p v.accs r t ∧ t.cores.bind = bindRows c p (leaveRows c p r).cores.bind ∧
      look t.cores.bcast 0 c.val = lastVector p (plainSched p s0) ∧ leavesWords c [] o.reads s t ∧ Keeps (.acc :: .engines :: unitViews) s t

/-- 05 R115: of a pair of paired descriptors the first to issue owns its broadcast and waits. With the second, whose first vector is in the
same cycle and whose fields agree, both products run, each on its own core with the halves of its vectors read by the two. -/
def Sys2Proof.Claims.pairRuns : Prop :=
  ∀ (c : Core) (s : State) (desc : BitVec 10) (d : BitVec 512) (p : Prod) (o : ProdOps) (s1 : State), issues s c = true →
    let r := s.strikeAccs c
    let now := unitClock r c
    let s0 := runFirst r c p
    let e := partnerOf c
    latchForm r c desc 1 [0] = .ok d → prepare r c d 0 (bound r c d 229 true) (bound r c d 348 false) = .ok p → runPlan c p r = .ok o →
    r.claimPorts c (prodPorts r p now (loadStart r c p.engs now) s0) = .ok s1 → p.paired = true →
    (find r.cores.pairs e.val = none → ∃ t, exec (.mrun c desc) s = .next t ∧
      find t.cores.pairs c.val = some ⟨s0, p.d, p.x, p.xq, (seqOf s c).page, (seqOf s c).bundle⟩ ∧
      look t.cores.bcast 0 c.val = lastVector p (plainSched p s0) ∧ Keeps [.busy, .upsets, .acc] s t) ∧
    (∀ (q : PairWait) (p2 : Prod) (o2 : ProdOps) (v v2 : ProdVals), find r.cores.pairs e.val = some q →
      (q.first : Int) + unitClock r c = (s0 : Int) + unitClock r e → pairAgree p q.desc = true →
      prepare r e q.desc 0 q.x q.xq = .ok p2 → prodOps r e p2 = .ok o2 → prodWork r c p (some (e, p2)) o.qs = .ok v →
      prodWork r e p2 (some (c, p)) o2.qs = .ok v2 → meshHits s1 (pairLinks r c p s0 ++ pairLinks r e p2 q.first) = [] →
      ∃ t, exec (.mrun c desc) s = .next t ∧ find t.cores.pairs e.val = none ∧ filled v.accs t ∧ filled v2.accs t ∧
        (∀ k, k ∉ (v.accs ++ v2.accs).map (·.1) → (handedOff c p k ∨ handedOff e p2 k → look t.cores.acc {} k = {}) ∧
          (¬ handedOff c p k → ¬ handedOff e p2 k → look t.cores.acc {} k = look r.cores.acc {} k)) ∧
        look t.cores.bcast 0 c.val = lastVector p (plainSched p s0) ∧ look t.cores.bcast 0 e.val = lastVector p2 (plainSched p2 q.first) ∧
        Writes [] (o.reads.map (place (.cs c)) ++ o2.reads.map (place (.cs e))) s t ∧ Keeps (.acc :: .engines :: unitViews) s t)

/-- 08 R199 to R202, 11 R287: `MALT` whose checks pass runs both its products, their windows in turn, into banks 0 and 1. -/
def Sys2Proof.Claims.alternatingRuns : Prop :=
  ∀ (c : Core) (s : State) (desc0 desc1 : BitVec 10) (d0 d1 : BitVec 512) (p0 p1 : Prod) (o : ProdOps × ProdOps) (v0 v1 : ProdVals) (s1 : State),
    issues s c = true →
    let r := s.strikeAccs c
    let now := unitClock r c
    let s0 := firstVector r c p0.engs now
    let w := altSched s0 (windows p0) (windows p1)
    latchForm r c desc0 1 [0] = .ok d0 → latchForm r c desc1 1 [0] = .ok d1 → altFits d0 d1 = true →
    prepare r c d0 0 (bound r c d0 229 true) (bound r c d0 348 false) = .ok p0 →
    prepare r c d1 1 (bound r c d1 229 true) (bound r c d1 348 false) = .ok p1 → altPlan c p0 p1 r = .ok o →
    prodWork r c p0 none o.1.qs = .ok v0 → prodWork r c p1 none o.2.qs = .ok v1 →
    r.claimPorts c (altPorts r p0 p1 now (loadStart r c p0.engs now) s0) = .ok s1 →
    ∃ t, exec (.malt c desc0 desc1) s = .next t ∧ filled (v0.accs ++ v1.accs) t ∧
      (∀ k, k ∉ (v0.accs ++ v1.accs).map (·.1) → look t.cores.acc {} k = look r.cores.acc {} k) ∧
      look t.cores.bcast 0 c.val = max (lastVector p0 w.1) (lastVector p1 w.2) ∧
      leavesWords c [] (o.1.reads ++ o.2.reads) s t ∧ Keeps (.acc :: .engines :: unitViews) s t

/-- 04 R85 to R90, 05 R115, 08 R199 to R202, 11 R286, R287: the matrix products, alone, in pairs and alternating. -/
def Obligations.MatrixProducts : Prop := productRuns ∧ pairRuns ∧ alternatingRuns

/-- 04 R95, 11 R289, Table 11.3: a preload gives each accumulator of bank 0 of its tiles the content its source word holds for it, and
binds its row to the anchor of its map; a release empties the bank of its engines, and, with nothing waiting for a bank, that is all.
Both leave every other accumulator as it was. -/
def Obligations.MatrixPreloadRelease : Prop :=
  ∀ (c : Core) (desc : BitVec 10) (s : State), issues s c = true →
    let r := s.strikeAccs c
    (∀ (d : BitVec 512) (p : PrePlan) (s1 : State), latchForm r c desc 1 [2] = .ok d → prePlan c d r = .ok p →
      r.claimPorts c [.solid (unitClock r c + 1) (512 * p.halves) ((if p.part then 16 else 4) * p.engs.length) 0] = .ok s1 →
      ∃ t, exec (.mpre c desc) s = .next t ∧
        (∀ x ∈ p.srcs, ∀ row < 128,
          let A := nth p.anchors 0 (x.1.2 * p.halves + x.2.1)
          boundAt t c x.1.1 0 row x.2.1 = some { anchor := BitVec.ofInt 16 A, part := p.part } ∧
          ∀ k < 128, look t.cores.acc {} (accKey c x.1.1 0 row (128 * x.2.1 + k)) = p.acc r c x.2.2 A row k) ∧
        (∀ k, (∀ x ∈ p.srcs, ∀ row < 128, ∀ j < 128, k ≠ accKey c x.1.1 0 row (128 * x.2.1 + j)) → look t.cores.acc {} k = look r.cores.acc {} k) ∧
        leavesWords c [] p.reads s t ∧ Keeps (.acc :: .engines :: unitViews) s t) ∧
    (∀ (d : BitVec 512) (bank : Bool), latchForm r c desc 1 [0, 1, 2] = .ok d → formCheck d = true →
      let engs := setOf (formSet d)
      let b := if bank then 1 else 0
      (∀ e ∈ engs, inFlight (r.engine c e) b (unitClock r c) = false) →
      ∃ t, exec (.mrel c desc bank) s = .next t ∧
        (∀ (f : Core) (e k row col : Nat), e < 4 → k < 2 → row < 128 → col < 256 →
          (f = c → e ∈ engs → k = b → look t.cores.acc {} (accKey f e k row col) = {}) ∧
          (f ≠ c ∨ e ∉ engs ∨ k ≠ b ∧ (r.engine c e).waits = [] →
            look t.cores.acc {} (accKey f e k row col) = look r.cores.acc {} (accKey f e k row col))) ∧
        Keeps [.acc, .engines, .upsets] s t)

/-- 04 R91 to R94, 11 R288, 12 R317: a drain whose checks pass, and whose merge entries have room, stores its output tiles in the core
store or the mailbox and, ledger-partial, its anchor map in the core store; it takes the drain paths of its engines. The rows it drains
are emptied where it is told to release them or where they hold a handoff block; else, with nothing waiting for a bank, every
accumulator stands. -/
def Obligations.MatrixDrain : Prop :=
  ∀ (c : Core) (desc : BitVec 10) (bank release : Bool) (s s1 : State) (d : BitVec 512) (x : DrainPlan), issues s c = true →
    let r := s.strikeAccs c
    let b := if bank then 1 else 0
    latchForm r c desc 1 [1] = .ok d → drainPlan c d b r = .ok x → r.claimPorts c (x.ports r c) = .ok s1 →
    (drainRun c desc b release x r s1).mergesFit →
    ∃ t, exec (.mdrn c desc bank release) s = .next t ∧
      Writes (inSpace x.p.sp x.stores ++ inSpace (.cs c) x.anchorOuts) (x.reads.map (place (.cs c))) s t ∧
      (∀ e ∈ x.p.engs, (t.engine c e).drainFrom = x.start ∧ (t.engine c e).drainTo = x.stop) ∧
      (∀ (f : Core) (e k row col : Nat), e < 4 → k < 2 → row < 128 → col < 256 → (f = c → e ∈ x.p.engs → (r.engine c e).waits = []) →
        look t.cores.acc {} (accKey f e k row col) =
          if f = c ∧ e ∈ x.p.engs ∧ k = b ∧ (release || holdsBlock r c x.p e b) = true ∧ row ∈ x.p.accRows ∧ col / 128 < x.p.halves then {}
          else look r.cores.acc {} (accKey f e k row col)) ∧
      (release = false → bank = false → t.cores.bind = r.cores.bind) ∧ Keeps (.acc :: .engines :: unitViews) s t

/-! ### Haul unit -/

/-- Words of a run on their way to a core, as its channel's queue lists them. -/
def Sys2Proof.Claims.queued (s : State) (c : Core) (ch : BitVec 2) : List (Nat × MemWord × BitVec 32) :=
  (look s.cores.reads [] (chKey c ch.toNat)).map (fun r => (r.dst, r.word, r.mask))

/-- The words of a run as a channel's queue lists them. -/
def Sys2Proof.Claims.asQueued (outs : List Out) : List (Nat × MemWord × BitVec 32) := outs.map (fun o => (o.a, o.w, o.mask))

/-- 11 R297, R298, 12 R314, R317, 08 R206 to R210: a haul move whose checks pass, and whose merge entries have room, takes its channel
until its last source word is read. From HBM its words join the channel's reads in order and none is written yet; else they are
written, to HBM where no escrow write waits. A stash whose blocks all fit writes its packed words, directory and bitmaps likewise. -/
def Obligations.HaulMoves : Prop :=
  ∀ (c : Core) (desc : BitVec 10) (ch rate : BitVec 2) (s s1 s2 : State) (p : MovePlan), issues s c = true →
    let r := 2 ^ rate.toNat
    let use := p.portRuns (unitClock s c) r (moveLat s (bitsN p.m.d 3 2) p.conv)
    let plane := (upTo (p.m.srcSide.2 * p.m.tiles)).map (p.m.ssh + ·)
    let rs := p.reads.map (place p.m0.ssp) ++ plane.map (place p.m.ssp)
    hmovePlan c desc ch r s = .ok p → s.claimPorts c use = .ok s1 → s1.claimSlots c ch.toNat (p.slots r) = .ok s2 →
    (moveRun c ch r p s s2).mergesFit → (∀ st, p.stash = some st → st.short = false) →
    ∃ t, exec (.hmove c desc ch rate) s = .next t ∧ look t.cores.chBusy 0 (chKey c ch.toNat) = p.first + ceilDiv p.m.count r ∧
      (p.stash = none → bitsN p.m.d 3 2 = 1 → p.m.dsp ≠ .hbm → queued t c ch = queued s c ch ++ asQueued (p.w.els ++ p.w.shs ++ p.w.idx) ∧
        Writes [] rs s t) ∧
      (p.stash = none → bitsN p.m.d 3 2 ≠ 1 → (p.m.dsp = .hbm → nothingKept s) → t.cores.reads = s.cores.reads ∧
        writesBut (hallsOf p.m.dsp p.w.els ++ hallsOf p.m.dsp p.w.shs) (inSpace p.m.dsp (p.w.els ++ p.w.shs) ++ inSpace (.cs c) p.w.idx) rs s t) ∧
      (∀ st, p.stash = some st → nothingKept s → t.cores.reads = s.cores.reads ∧
        writesBut (hallsOf .hbm (st.outs p.w.shs)) (inSpace .hbm (st.outs p.w.shs)) rs s t) ∧
      Keeps (.reads :: unitViews) s t

/-- 11 R299, 12 R314, R317, 05 R125, R126: a gather or scatter of which no entry faults, and whose merge entries have room, takes its
channel; from HBM its words join the channel's reads, else they are written, to HBM where no escrow write waits. -/
def Obligations.GatherScatter : Prop :=
  ∀ (c : Core) (scat : Bool) (desc : BitVec 10) (ch : BitVec 2) (n : BitVec 13) (s s1 s2 : State) (p : GathPlan), issues s c = true →
    gathPlan c scat desc ch n s = .ok p → p.r.fault = none → s.claimPorts c (p.ports s c n.toNat) = .ok s1 →
    s1.claimSlots c ch.toNat (p.r.reqs.map (fun x => (unitClock s c + 1 + x.1, x.2))) = .ok s2 →
    (gathRun c ch n.toNat p s s2).mergesFit →
    let shs := mergeShingles p.r.shs
    let rs := p.lws.map (place (.cs c)) ++ p.r.reads.map (place (spaceOf c p.g.ssp))
    ∃ t, exec (if scat then .hscat c desc ch n else .hgath c desc ch n) s = .next t ∧
      look t.cores.chBusy 0 (chKey c ch.toNat) = unitClock s c + 1 + n.toNat * p.g.cycles ∧
      (p.g.ssp = 1 → spaceOf c p.g.dsp ≠ .hbm → queued t c ch = queued s c ch ++ asQueued (p.r.els ++ shs) ∧ Writes [] rs s t) ∧
      (p.g.ssp ≠ 1 → (spaceOf c p.g.dsp = .hbm → nothingKept s) → t.cores.reads = s.cores.reads ∧
        writesBut (hallsOf (spaceOf c p.g.dsp) p.r.els ++ hallsOf (spaceOf c p.g.dsp) shs) (inSpace (spaceOf c p.g.dsp) (p.r.els ++ shs)) rs s t) ∧
      Keeps (.reads :: unitViews) s t

/-- 10 R266, R267: a mesh transfer that meets no other on its links writes its words in the core named, takes its channel, and leaves every other word as it was
but for those its reads settle. -/
def Obligations.MeshTransfer : Prop :=
  ∀ (c : Core) (desc : BitVec 10) (ch : BitVec 2) (x y : BitVec 3) (count : BitVec 16) (s s1 s2 : State) (p : MeshPlan), issues s c = true →
    hmeshPlan c desc ch x y count s = .ok p → meshHits s p.uses = [] →
    s.claimPorts c [.solid (unitClock s c + 1) (ceilDiv p.n 16) (min p.n 16) 0] = .ok s1 →
    s1.claimPorts p.dst [.solid (unitClock s p.dst + 1 + (meshBase s + p.uses.length * meshHop s)) (ceilDiv p.n 16) 0 (min p.n 16)] = .ok s2 →
    ∃ t, exec (.hmesh c desc ch x y count) s = .next t ∧
      Writes (inSpace (.cs p.dst) p.outs) ((upTo p.n).map (fun i => place (.cs c) (p.sb + i))) s t ∧
      look t.cores.chBusy 0 (chKey c ch.toNat) = unitClock s c + 1 + ceilDiv p.n 16 ∧ Keeps unitViews s t

/-- 10 R261, R265, 05 R120 to R124, R129: a page refill clears the page's tag, and its 1,024 words join the channel's reads; a
descriptor write gives its entry the two words it reads, from its third cycle on (Table 11.13); a dispatch stores its lists and combine
words. -/
def Obligations.PagesDescriptorsDispatch : Prop :=
  ∀ (c : Core) (s : State), issues s c = true →
    (∀ (desc : BitVec 10) (ch : BitVec 2) (page : BitVec 3) (tag : BitVec 8) (sb : Nat) (s1 : State), hpagePlan c desc ch page tag s = .ok sb →
      s.claimSlots c ch.toNat (pageRequests (unitClock s c) sb) = .ok s1 →
      ∃ t, exec (.hpage c desc ch page tag) s = .next t ∧ look t.cores.tags 0 (8 * c.val + page.toNat) = 0 ∧
        find t.cores.fills (8 * c.val + page.toNat) = none ∧
        queued t c ch = queued s c ch ++ (upTo 1024).map (fun k => (1024 * page.toNat + k, readWord s .hbm (sb + k), allBytes)) ∧
        ((look t.cores.reads [] (chKey c ch.toNat)).getLast?.bind (·.tag)) = some tag ∧
        (∀ k, k ≠ 8 * c.val + page.toNat → look t.cores.tags 0 k = look s.cores.tags 0 k) ∧
        Keeps (.tags :: .reads :: unitViews) s t) ∧
    (∀ (e : BitVec 10) (ch : BitVec 2) (addr : BitVec 18) (kind : BitVec 3) (a : Nat) (s1 : State), hdescPlan c e ch addr kind s = .ok a →
      s.claimPorts c [.solid (unitClock s c + 1) 2 1 0] = .ok s1 →
      ∃ t, exec (.hdesc c e ch addr kind) s = .next t ∧ look t.cores.desc {} (1024 * c.val + e.toNat) = descOf s c a kind ∧
        find t.cores.descWas (1024 * c.val + e.toNat) = some ⟨unitClock s c + 3, entryAt s c e⟩ ∧
        (∀ k, k ≠ 1024 * c.val + e.toNat → look t.cores.desc {} k = look s.cores.desc {} k ∧ find t.cores.descWas k = find s.cores.descWas k) ∧
        leavesWords c [] [a, a + 1] s t ∧ Keeps (.desc :: unitViews) s t) ∧
    (∀ (desc : BitVec 10) (p : DispPlan) (s1 : State), hdspPlan c desc s = .ok p → s.claimPorts c p.ports = .ok s1 →
      (dispRun c p s s1).mergesFit →
      ∃ t, exec (.hdsp c desc) s = .next t ∧ leavesWords c p.outs p.ins s t ∧ look t.cores.chBusy 0 (chKey c 3) = p.busy ∧
        Keeps unitViews s t)

/-- 12 R314, R315, R317, 10 R247, R261, R278: the oldest word on its way to a core lands in its cycle, which is one of its schedule: its
address takes the bytes that it brings, a page's last word gives the page its tag from the next cycle on, and it leaves its channel's
queue. Of a stopped tenancy the words on their way are gone; while the schedule does not come to the cycle in the course that runs,
nothing happens. -/
def Obligations.ReadDataLands : Prop :=
  ∀ (c : Core) (ch : BitVec 2) (s : State) (r : ReadInFlight) (rest : List ReadInFlight), look s.cores.reads [] (chKey c ch.toNat) = r :: rest →
    let v := tallyAt s (tenNo s c) (r.landsAt - unitClock s c)
    let due := r.landsAt ≤ unitClock s c ∨
      (advancing s (tenNo s c) = true ∧ (seqOf s c).ended = false ∧ v / 16384 ≤ s.time.lastCourse.getD 0)
    let s1 := if r.landsAt ≤ unitClock s c then s else s.passTo v
    let page := 8 * c.val + r.dst / 1024
    (stopped s c = true → exec (.hbmReadData c ch) s =
      .next { s with cores := { s.cores with reads := del s.cores.reads (chKey c ch.toNat) } }) ∧
    (stopped s c = false → ¬ due → exec (.hbmReadData c ch) s = .next s) ∧
    (stopped s c = false → due → ∃ t, exec (.hbmReadData c ch) s = .next t ∧ look t.cores.reads [] (chKey c ch.toNat) = rest ∧
      (∀ k, k ≠ chKey c ch.toNat → look t.cores.reads [] k = look s.cores.reads [] k) ∧
      (let o : Out := ⟨r.dst, r.word, 0, false, r.mask⟩
       Writes (if r.target = 0 then inSpace (.cs c) [o] else if r.target = 1 then inSpace (.mbox c) [o] else [])
        (r.src.toList.map (fun k => (.hbm, k))) s1 t) ∧
      (r.target = 2 → memGet t.cores.prog (8192 * c.val + r.dst) = r.word ∧
        (∀ g, r.tag = some g → find t.cores.fills page = some ⟨g, r.landsAt + 1⟩) ∧ (r.tag = none → t.cores.fills = s.cores.fills)) ∧
      Keeps [.cs, .prog, .mbox, .hall, .tags, .reads, .merges, .words, .service, .tens, .counters, .fabric, .time, .mgmt, .power] s t)

/-! ### Sequencer -/

/-- A counter of one more than before, held at its greatest value. -/
def Sys2Proof.Claims.counted (s t : State) (off : Nat) : Prop := t.counter off = BitVec.ofNat 64 (min counterMax ((s.counter off).toNat + 1))

/-- 10 R256: where a body ends the innermost loop with trips left goes back to its first bundle, its index one higher. -/
def Sys2Proof.Claims.loopRepeats : Prop :=
  ∀ (c : Core) (s : State) (f : LoopFrame) (outer : List LoopFrame), (seqOf s c).loops = outer ++ [f] → (seqOf s c).bundle + 1 = f.stop →
    f.first ≤ 1023 → f.index + 1 < f.trips →
    s.advance c = .ok (s.setSeq c { seqOf s c with bundle := f.first, loops := outer ++ [{ f with index := f.index + 1 }] })

/-- 10 R256 to R259, R249: in a tenancy that issues, `LOOP` enters its body with a fresh level of index 0, `PJUMP` goes to bundle 0
of a page whose tag is the one named, and `CEND` ends the core's course at the schedule position it issues at; nothing else changes. -/
def Obligations.LoopJumpEnd : Prop :=
  (∀ (c : Core) (s : State), issues s c = true →
    (∀ (n : BitVec 17) (l : BitVec 10), n ≠ 0 → n.toNat ≤ 65536 → l ≠ 0 → (seqOf s c).bundle + 1 + l.toNat ≤ 1024 →
      (seqOf s c).loops.length < 4 → (∀ f ∈ (seqOf s c).loops.getLast?, (seqOf s c).bundle + 1 + l.toNat ≤ f.stop) →
      exec (.loop c n l) s = .next (s.setSeq c { seqOf s c with
        bundle := (seqOf s c).bundle + 1
        loops := (seqOf s c).loops ++ [⟨(seqOf s c).bundle + 1, (seqOf s c).bundle + 1 + l.toNat, n.toNat, 0⟩] })) ∧
    (∀ (page : BitVec 3) (tag : BitVec 8), (seqOf s c).loops = [] → pageTag s c page = tag →
      exec (.pjump c page tag) s = .next (s.setSeq c { seqOf s c with page := page, bundle := 0 })) ∧
    ((seqOf s c).loops = [] → (seqOf s c).ret = none →
      exec (.cend c) s = .next (s.setSeq c { seqOf s c with ended := true, len := schedPos s (tenNo s c) + 1, endAt := s.now }))) ∧
  loopRepeats

/-- 10 R268, R269, 07 R177, R178, 09 R220: outside cautious mode a fallback check goes on to the next bundle and does nothing else; in it
the first check gathers and clears the guard latches of its tenancy's cores and begins its vote, which the same check of another core
joins. One whose vote is complete goes on where no latch was set, and else into its region. `FBRET` goes back to where its region was
entered from. -/
def Obligations.FallbackChecks : Prop :=
  ∀ (c : Core) (s : State), issues s c = true → (seqOf s c).loops = [] →
    (∀ (scope : BitVec 2) (check : BitVec 12) (page : BitVec 3) (b : BitVec 10) (tag : BitVec 8), (seqOf s c).ret = none →
      (seqOf s c).bundle < 1023 →
      let n := tenNo s c
      let pos := (s.ten n).course.start + schedPos s n
      let next := s.setSeq c { seqOf s c with bundle := (seqOf s c).bundle + 1 }
      (cautious s n = false → exec (.fbchk c scope check page b tag) s = .next next) ∧
      (cautious s n = true → (s.ten n).vote = none →
        ∃ t, exec (.fbchk c scope check page b tag) s = .next t ∧ (∀ d ∈ coresOf s n, d.val ∉ t.cores.guard) ∧
          (∃ v, (t.ten n).vote = some v ∧ v.check = check ∧ v.scope = scope ∧ v.at' = pos) ∧
          Keeps [.busy, .seqs, .tens, .counters, .fabric, .mgmt, .power, .upsets] s t) ∧
      (∀ v, cautious s n = true → (s.ten n).vote = some v → v.check = check →
        (v.done = false → ∃ t, exec (.fbchk c scope check page b tag) s = .next t ∧
          (t.ten n).vote = some { v with waiting := v.waiting ++ [⟨c, page, b.toNat, tag, (seqOf s c).page, (seqOf s c).bundle⟩] } ∧
          seqOf t c = seqOf next c ∧ Keeps [.seqs, .tens] s t) ∧
        (v.done = true → v.at' = pos → v.any = false → exec (.fbchk c scope check page b tag) s = .next next) ∧
        (v.done = true → v.at' = pos → v.any = true → pageTag s c page = tag →
          ∃ t, exec (.fbchk c scope check page b tag) s = .next t ∧ seqOf t c = { seqOf s c with
            page := page
            bundle := b.toNat
            ret := some ((seqOf s c).page, (seqOf s c).bundle + 1)
            region := some (page, b.toNat) } ∧ Keeps [.seqs, .tens, .counters, .mgmt] s t))) ∧
    (∀ r, (seqOf s c).ret = some r →
      exec (.fbret c) s = .next (s.setSeq c { seqOf s c with page := r.1, bundle := r.2, ret := none, region := none }))

/-- 07 R169, R170: the first `SCLOSE` of a tenancy makes its cut, in its cycle, with the take it names; one more in that cycle changes
nothing. `SPHASE` gives the tenancy its phase tag (17 R449). -/
def Obligations.CloseAndPhase : Prop :=
  ∀ (c : Core) (s : State), issues s c = true →
    (∀ take : BitVec 4, take ≠ 0 → (seqOf s c).loops = [] → (seqOf s c).ret = none →
      ((s.ten (tenNo s c)).close.cut = false →
        ∃ t, exec (.sclose c take) s = .next t ∧ (t.ten (tenNo s c)).close.cut = true ∧ (t.ten (tenNo s c)).close.at' = s.now ∧
          (t.ten (tenNo s c)).close.wait = take.toNat ∧ Keeps [.tens, .counters, .fabric, .mgmt, .power, .upsets] s t) ∧
      ((s.ten (tenNo s c)).close.cut = true → (s.ten (tenNo s c)).close.at' = s.now → exec (.sclose c take) s = .next s)) ∧
    (∀ tag : BitVec 16, ∃ t, exec (.sphase c tag) s = .next t ∧
      t.ten (tenNo s c) = { s.ten (tenNo s c) with course := { (s.ten (tenNo s c)).course with phase := tag } } ∧
      (∀ u, u ≠ tenNo s c → t.ten u = s.ten u) ∧ Keeps [.tens] s t)

/-- A core's next bundle fills no slot, lies inside no loop and no region, and is not the last of its page. -/
def Sys2Proof.Claims.emptyBundle (s : State) (c : Core) : Prop :=
  let q := seqOf s c
  let g := memGet s.cores.prog (8192 * c.val + 1024 * q.page.toNat + q.bundle)
  g.syn = 0 ∧ decodeBundle c g.data = [] ∧ q.ret = none ∧ q.loops = [] ∧ q.bundle < 1023

/-- 10 R247, R248, 09 R220, R221: a bundle with no slot filled moves its sequencer on to the bundle that follows: at once where the
schedule has come to its position, and else in its cycle, to which time passes while the schedule advances within the course that runs.
Of a core that issues none, or whose bundle lies ahead while the schedule stands or beyond the course, nothing happens. -/
def Obligations.BundleIssues : Prop :=
  ∀ (c : Core) (s : State) (t : Nat), tenOf s c = some t →
    let pos := nextPos s c
    let v := tallyAt s t (pos - schedPos s t)
    let after : Seq := { seqOf s c with bundle := (seqOf s c).bundle + 1, lastPos := pos + 1 }
    (issues s c = true → emptyBundle s c → pos ≤ schedPos s t →
      ∃ u, exec (.bundleIssue c) s = .next u ∧ seqOf u c = after ∧ Keeps [.seqs] s u) ∧
    (issues s c = true → emptyBundle s c → schedPos s t < pos → advancing s t = true → v / 16384 ≤ s.time.lastCourse.getD 0 →
      s.time.pll ≠ .off → s.now ≤ v → v < 2 ^ 64 → dueCycles s = [] → s.cores.merges = [] → s.hbm.merges = [] →
      ∃ u, exec (.bundleIssue c) s = .next u ∧ u.now = v ∧ seqOf u c = after ∧ Keeps (.seqs :: timeViews) s u) ∧
    (issues s c = false → stopping s c = false → exec (.bundleIssue c) s = .next s) ∧
    (schedPos s t < pos → advancing s t = false ∨ s.time.lastCourse.getD 0 < v / 16384 → exec (.bundleIssue c) s = .next s)

/-- 10 R278, R279, R281: an instruction that raises a program fault leaves its core's tenancy stopped, with the fault in its register where
that held none, counted, and given to the daybook; nothing that it would have written is written. In the cycle in which its tenancy stops
a fault is counted all the same, and takes the register where its code is the lower one. -/
def Obligations.ProgramFault : Prop :=
  ∀ (c : Core) (slot code detail t : Nat) (f : State → State → Res State) (s : State), tenOf s c = some t →
    f s s = .error (.fault code detail) →
    let u := slotOp c slot f s s
    let w := faultWord code detail slot (coreInTen s t c) (seqOf s c).page.toNat (seqOf s c).bundle (s.time.tally.toNat / 16384) false
    let told := (u.ten t).course.stopped = true ∧ counted s u (tenOff t 0x2040) ∧ Keeps [.tens, .counters, .mgmt, .fabric, .power] s u
    (issues s c = true → told ∧ ((s.ten t).fault.getLsbD 63 = false → (u.ten t).fault = w)) ∧
    (stopping s c = true → told ∧ ((s.ten t).fault.getLsbD 63 = true → (s.ten t).faultAt = s.time.tally →
      (u.ten t).fault = if (bits w 7 0).toNat < (bits (s.ten t).fault 7 0).toNat then w else (s.ten t).fault)) ∧
    (issues s c = false → stopping s c = false → u = s)

/-! ### Frames -/

/-- Word 0 of a frame's payload as its receiver decodes it. -/
def Sys2Proof.Claims.first (f : Frame) : BitVec 256 := (decodeWord (nth f.payload MemWord.zero 0)).w.data

/-- Whether a collective parcel is malformed: its kind, its word width, or its length. -/
def Sys2Proof.Claims.collBad (f : Frame) : Bool :=
  f.kind ≠ 8 || bits (first f) 5 4 = (3 : BitVec 2) ||
    f.payload.length ≠ (if bits (first f) 3 0 = (0 : BitVec 4) && bits (first f) 5 4 = (1 : BitVec 2) then 97 else 65)

/-- Whether a frame of the control flow is malformed: its kind, its payload words, its channel. -/
def Sys2Proof.Claims.ctlBad (kind : BitVec 4) (n : Nat) (f : Frame) : Bool := f.kind ≠ kind || f.payload.length ≠ n || f.chan ≠ 4095

/-- Whether a recovery control frame is malformed. -/
def Sys2Proof.Claims.recvBad (sub n : Nat) (f : Frame) : Bool := recBad f sub n || f.chan ≠ 4095

/-- The frames that belong to a flow, with what makes each malformed (13 Tables 13.4 and 13.7, 15 Table 15.8). -/
def Sys2Proof.Claims.frameRows : List ((Port → Frame → Instr) × (Frame → Bool)) :=
  [(.dataParcel, fun f => f.kind ≠ 0), (.collectiveParcel, collBad), (.ackCredit, fun f => f.kind ≠ 1 || f.payload ≠ []),
   (.nak, fun f => f.kind ≠ 2 || f.payload ≠ []), (.blankNotice, ctlBad 5 1), (.vote, ctlBad 6 1),
   (.launchReady, fun f => ctlBad 7 1 f || bitB (first f) 50), (.launchGo, fun f => ctlBad 7 1 f || !bitB (first f) 50),
   (.stop, recvBad 0 1), (.report, recvBad 1 1), (.plan, recvBad 2 1), (.done, recvBad 3 1), (.resume, recvBad 4 1), (.endJob, recvBad 5 1),
   (.seals, recvBad 6 6), (.twin, recvBad 7 6),
   (.escrowParityParcel, fun f => f.kind ≠ 0 || f.chan ≠ 4093 || !f.hm || f.payload.length ≠ 128),
   (.escrowAccept, fun f => f.kind ≠ 0 || f.chan ≠ 4093 || f.hm || f.payload.length ≠ 1)]

/-- 13 R350, Table 13.7: a port without link receives nothing. A frame received is counted, with the energy of its bytes, and then
the first row that applies discards it, with that row's counter: a bad header; another chip's identifier or plane; an epoch that is
past, or not yet begun; a job that its tenancy does not hold, which the daybook notes. -/
def Obligations.FrameChecks : Prop :=
  ∀ x ∈ frameRows, ∀ (p : Port) (f : Frame) (s : State),
    let n := f.ten.toNat
    let s1 := (s.count (portOff p.val 0x08) 1).chargeFrame p f
    ((portOf s p).link = false → exec (x.1 p f) s = .next s) ∧
    ((portOf s p).link = true → (badHeaderOf f || x.2 f) = true → exec (x.1 p f) s = .next (s1.count (portOff p.val 0x40) 1)) ∧
    ((portOf s p).link = true → (badHeaderOf f || x.2 f) = false → f.dst.toNat ≠ myId s ∨ f.plane.toNat ≠ p.val →
      exec (x.1 p f) s = .next (s1.count (portOff p.val 0x48) 1)) ∧
    ((portOf s p).link = true → (badHeaderOf f || x.2 f) = false → f.dst.toNat = myId s → f.plane.toNat = p.val →
      (f.epoch < (s.ten n).recov.epoch → exec (x.1 p f) s = .next (s1.countTen n 0x2120 1)) ∧
      ((s.ten n).recov.epoch < f.epoch → exec (x.1 p f) s = .next (s1.countTen n 0x2128 1)) ∧
      (f.epoch = (s.ten n).recov.epoch → jobMatches s f = false →
        exec (x.1 p f) s = .next ((s1.count (portOff p.val 0x48) 1).daybook 0x50 0 n 0x7F 11 p.val (headerLow f) 0)))

/-- A frame passes on its port every check of Table 13.7 before the sequence number. -/
def Sys2Proof.Claims.passes (p : Port) (f : Frame) (s : State) : Prop :=
  (portOf s p).link = true ∧ badHeaderOf f = false ∧ f.dst.toNat = myId s ∧ f.plane.toNat = p.val ∧
    f.epoch = (s.ten f.ten.toNat).recov.epoch ∧ jobMatches s f = true

/-- The flow a frame belongs to, as this chip receives it. -/
def Sys2Proof.Claims.flowOf (s : State) (f : Frame) : RecvFlow := recvOf s f.ten.toNat f.chan.toNat f.src.toNat

/-- The frames of the control flow, which any other chip of the job may send, with what makes each malformed. -/
def Sys2Proof.Claims.ctlRows : List ((Port → Frame → Instr) × (Frame → Bool)) := (frameRows.drop 4).take 12

/-- 13 R349 to R351: of a flow's frames one before the one expected, already accepted, is to be acknowledged again and nothing else;
one after it is answered, until the expected one comes, by one NAK that names the frame expected. -/
def Obligations.FrameOrder : Prop :=
  ∀ x ∈ ctlRows, ∀ (p : Port) (f : Frame) (s : State), passes p f s → x.2 f = false → inBox s f.ten.toNat f.src.toNat = true →
    f.src.toNat ≠ myId s →
    let n := f.ten.toNat
    let d := (f.seq - (flowOf s f).expected).toNat
    (2 ^ 23 ≤ d → ∃ t, exec (x.1 p f) s = .next t ∧ flowOf t f = { flowOf s f with owes := true, port := p } ∧
      counted s t (tenOff n 0x2118) ∧
      t.fabric.outbox = s.fabric.outbox ∧ Talks s t ∧ Keeps [.tens, .counters, .fabric, .power] s t) ∧
    (d ≠ 0 → d < 2 ^ 23 → (flowOf s f).nakSent = true → ∃ t, exec (x.1 p f) s = .next t ∧ Talks s t ∧ t.fabric = s.fabric ∧
      Keeps [.tens, .counters, .power] s t) ∧
    (d ≠ 0 → d < 2 ^ 23 → (flowOf s f).nakSent = false → ∃ t, exec (x.1 p f) s = .next t ∧
      flowOf t f = { flowOf s f with nakSent := true } ∧
      counted s t (tenOff n 0x2110) ∧
      (bitsN s.fabric.cfg 15 0 ≠ 0 → ∃ g, t.fabric.outbox = s.fabric.outbox ++ [(p, g)] ∧ g.kind = 2 ∧ g.dst = f.src ∧ g.chan = f.chan ∧
        g.ack = (flowOf s f).expected ∧ g.ackv = true ∧ g.payload = []) ∧
      Talks s t ∧ Keeps [.tens, .counters, .fabric, .power] s t)

/-! ### Channels and collectives -/

/-- 13 R346, R348: `FSEND` gives its channel's staged slots, in ring order, to the flow to the peer that the channel's record
names, and spends a credit for each. With none staged it does nothing; with less credit than slots the schedule stalls. -/
def Obligations.SendStaged : Prop :=
  ∀ (c : Core) (chan : Chan) (axis : BitVec 2) (peer : BitVec 12) (s : State), issues s c = true →
    let n := tenNo s c
    let ch := chan.toNat
    let r := chanRec s n ch
    peer ≠ 0 → recValid r = true → chanCore s n r = c.val → recSaxis r = axis.toNat → recSoff r = peer.toInt →
    peer.toInt.natAbs < boxN s n axis.toNat → recSslots r ≠ 0 → collOf s n ch = none →
    (stagedRing s n ch = [] → exec (.fsend c chan axis peer) s = .next s) ∧
    (stagedRing s n ch ≠ [] → (stagedRing s n ch).length ≤ creditOf s n ch → ∃ t, exec (.fsend c chan axis peer) s = .next t ∧
      (sendOf t n ch (sendPeer s n r)).slots = (sendOf s n ch (sendPeer s n r)).slots ++ stagedRing s n ch ∧
      (chanOf t n ch).spent = (chanOf s n ch).spent + (stagedRing s n ch).length ∧
      (chanOf t n ch).staged = (chanOf s n ch).staged.filter (fun i => !(stagedRing s n ch).contains i) ∧
      Talks s t ∧ Keeps [.tens, .counters, .fabric, .mgmt, .power] s t) ∧
    (creditOf s n ch < (stagedRing s n ch).length → ∃ t, exec (.fsend c chan axis peer) s = .next t ∧
      (t.ten n).course.stalls = (s.ten n).course.stalls ++ [.credit c chan] ∧ t.fabric = s.fabric ∧ Keeps [.tens, .counters, .mgmt] s t)

/-- 13 R347, 14 R368: `FWAIT` on a channel frees the slots of the `FWAIT` before it and waits for the parcels it names, stalling
until they are there; on a collective it takes the results, or stalls until they are there. -/
def Obligations.WaitForParcels : Prop :=
  ∀ (c : Core) (chan : Chan) (count : BitVec 16) (s : State), issues s c = true →
    let n := tenNo s c
    let ch := chan.toNat
    let r := chanRec s n ch
    let k := chanOf s n ch
    recValid r = true → chanCore s n r = c.val →
    (count ≠ 0 → collOf s n ch = none → count.toNat ≤ recRslots r → ∃ t, exec (.fwait c chan count) s = .next t ∧
      chanOf t n ch = { k with owed := k.owed + k.toFree, toFree := count.toNat, waited := k.waited + count.toNat } ∧
      (t.ten n).course.stalls = (s.ten n).course.stalls ++ (if k.written < k.waited + count.toNat then [.late c chan (k.waited + count.toNat)] else []) ∧
      Keeps [.tens, .fabric] s t) ∧
    (∀ g, count = 1 → collOf s n ch = some g → ∃ t, exec (.fwait c chan count) s = .next t ∧
      collOf t n ch = (if g.done then none else some { g with waitFrom := some s.now }) ∧
      (t.ten n).course.stalls = (s.ten n).course.stalls ++ (if g.done then [] else [.coll c chan]) ∧ Keeps [.tens, .fabric] s t)

/-- 14 R365, R366, R371: `FCOLL` whose checks pass begins its channel's collective, of the channel's next number, with this chip's
own blocks in place; it reads its source words, and changes no other. (Of parcels that came before it, none is held here.) -/
def Obligations.CollectiveBegins : Prop :=
  ∀ (c : Core) (chan : Chan) (axis : BitVec 2) (op : BitVec 4) (desc : BitVec 10) (s : State) (k : Coll), issues s c = true →
    fcollPlan c chan axis op desc s = .ok k → (chanOf s (tenNo s c) chan.toNat).early = [] →
    ∃ t, exec (.fcoll c chan axis op desc) s = .next t ∧
      (∃ ks, collOf t (tenNo s c) chan.toNat = some { k with known := ks }) ∧
      look t.fabric.collNo 0 (chanKey (tenNo s c) chan.toNat) = k.number + 1 ∧
      leavesWords c [] ((upTo k.count).map (k.src + ·)) s t ∧
      Keeps [.cs, .mbox, .words, .service, .tens, .counters, .fabric, .mgmt, .power, .upsets] s t

/-- 14 R384, 07 R171: with the last pass of the ledger merge of a close (channel 4,094) complete the merge is done; entries that it does not
merge stand. -/
def Sys2Proof.Claims.mergePassCompletes : Prop :=
  ∀ (n : Ten) (s : State) (k : Coll) (ax : BitVec 2), collOf s n.val 4094 = some k → k.ready = true → k.done = false →
    (s.ten n.val).close.passes = [ax] → (s.ten n.val).close.due = false →
    ∃ t, exec (.collectiveComplete n 4094) s = .next t ∧ collOf t n.val 4094 = none ∧ (t.ten n.val).close.merged = true ∧
      (t.ten n.val).close.passes = [] ∧
      counted s t (tenOff n.val 0x2140) ∧
      (∀ e, e ∉ k.entries → look t.stores.ledger {} e = look s.stores.ledger {} e) ∧
      Keeps [.stores, .tens, .counters, .fabric] s t

/-- 14 R368, R373, R378, R382: a collective that has all it waits for gives its results, and is there no more once an `FWAIT` has
asked for it; a cautious clearing one with an overflowed block begins its second pass, on 64-bit words, instead. Of a channel without
a collective, or one that is not ready, nothing completes. -/
def Obligations.CollectiveCompletes : Prop :=
  (∀ (n : Ten) (chan : Chan) (s : State), chan.toNat ≠ 4094 →
    (∀ k, collOf s n.val chan.toNat = some k → k.ready = true → k.done = false →
      let redo := k.op = 0 ∧ k.cautious = true ∧ k.redo = false ∧ (upTo k.blocks).any (fun b => (look k.res {} b).ovf) = true
      (¬ redo → ∃ t, exec (.collectiveComplete n chan) s = .next t ∧
        (k.op ≠ 0 → Writes (inSpace (.cs k.core) k.outs) [] s t) ∧
        collOf t n.val chan.toNat = (if k.waitFrom = none then some { k with done := true } else none) ∧
        counted s t (tenOff n.val 0x2140) ∧
        Keeps [.cs, .mbox, .hall, .merges, .words, .tens, .counters, .fabric, .mgmt, .power, .fresh] s t) ∧
      (redo → (chanOf s n.val chan.toNat).early = [] → ∃ t, exec (.collectiveComplete n chan) s = .next t ∧
        (∃ k2, collOf t n.val chan.toNat = some k2 ∧ k2.redo = true ∧ k2.width = 2 ∧ k2.pass0 = k.res ∧ k2.anchors0 = k.anchors ∧
          k2.number = k.number) ∧
        counted s t (tenOff n.val 0x2160) ∧
        Keeps [.tens, .counters, .fabric, .mgmt, .power, .upsets] s t)) ∧
    ((∀ k, collOf s n.val chan.toNat = some k → k.ready = false ∨ k.done = true) → exec (.collectiveComplete n chan) s = .next s)) ∧
  mergePassCompletes

/-- 13 R346, R347, R350: a data parcel accepted on its channel is written into the channel's next receive slot, word by word as the
receiver decodes it; a stopped tenancy takes it without a write. Its flow expects the next one. -/
def Obligations.DataParcelLands : Prop :=
  ∀ (p : Port) (f : Frame) (s : State), passes p f s → f.seq = (flowOf s f).expected → f.kind = 0 →
    let n := f.ten.toNat
    let ch := f.chan.toNat
    let r := chanRec s n ch
    let c : Core := Fin.ofNat 64 (chanCore s n r)
    let a := recRbase r + ((chanOf s n ch).written % recRslots r) * recWords r
    recValid r = true → recRslots r ≠ 0 → recvPeer s n r = f.src.toNat →
    ∃ t, exec (.dataParcel p f) s = .next t ∧ (flowOf t f).expected = f.seq + 1 ∧ (flowOf t f).nakSent = false ∧
      ((s.ten n).course.stopped = false →
        (∀ i, i < f.payload.length → i < recWords r → rawWord t (.mbox c) (a + i) = (decodeWord (nth f.payload MemWord.zero i)).w) ∧
        (chanOf t n ch).written = (chanOf s n ch).written + 1) ∧
      ((s.ten n).course.stopped = true → t.cores = s.cores ∧ t.hbm = s.hbm ∧ (chanOf t n ch).written = (chanOf s n ch).written) ∧
      counted s t (tenOff n 0x2100) ∧
      Keeps [.cs, .mbox, .hall, .words, .tens, .counters, .fabric, .mgmt, .power] s t

/-- 14 R367, R369, R376, R379: a collective parcel accepted before this chip has come to its collective is kept; one of the gather
phase is the final parcel of its place; one of the reduce phase is combined with what this chip holds. -/
def Obligations.CollectiveParcelTaken : Prop :=
  ∀ (p : Port) (f : Frame) (s : State), passes p f s → f.seq = (flowOf s f).expected → collBad f = false →
    let n := f.ten.toNat
    let ch := f.chan.toNat
    let h := first f
    let data := (f.payload.map (fun w => (decodeWord w).w)).drop 1
    let key := partKey (bitsN h 31 12) (bitsN h 33 32)
    collPeer s n ch f.src.toNat = true → (s.ten n).course.stopped = false →
    (collOf s n ch = none → ∃ t, exec (.collectiveParcel p f) s = .next t ∧ (chanOf t n ch).early = (chanOf s n ch).early ++ [f] ∧
      Talks s t ∧ Keeps [.tens, .counters, .fabric, .power] s t) ∧
    (∀ k, collOf s n ch = some k → bits h 92 61 = k.number → bitB h 60 = k.redo → bits h 3 0 = k.op → bits h 5 4 = k.width →
      bitsN h 116 93 = k.count → k.sends (bitB h 11) (relCoord s n f.src.toNat k.axis.toNat) (k.shareOf (bitsN h 31 12)) = true →
      (k.op = 0 ∨ k.op = 1 → bitsS h 49 34 = look k.anchors 0 (bitsN h 31 12)) → Upset.adder ∉ s.upsets →
      (bitB h 11 = true → ∃ t, exec (.collectiveParcel p f) s = .next t ∧
        (∃ k2, collOf t n ch = some k2 ∧ k2.parts = set k.parts key data ∧ key ∈ k2.known ∧ k2.counts = k.counts) ∧
        Keeps [.tens, .counters, .fabric, .power] s t) ∧
      (bitB h 11 = false → ∃ t, exec (.collectiveParcel p f) s = .next t ∧
        (∃ k2, collOf t n ch = some k2 ∧ k2.parts = set k.parts key (k.combine (look k.parts [] key) data) ∧
          look k2.counts 0 key = look k.counts 0 key + 1) ∧ Keeps [.tens, .counters, .fabric, .power] s t))

/-- 13 R347, R349, R351, R352: an acknowledgement takes the frames that it names off its flow, whose limits begin anew, and frames that
waited follow; acknowledgements sent, no flow of their channel owes one; a NAK has the frames from the one it names on sent again and
counted, and a timer that runs out below its limits has all of them sent again and counted. -/
def Obligations.AcksAndResends : Prop :=
  (∀ (p : Port) (f : Frame) (s : State), passes p f s → f.kind = 1 → f.payload = [] →
    flowPeerOk s f.ten.toNat f.chan.toNat f.src.toNat = true →
    let fl := sendOf s f.ten.toNat f.chan.toNat f.src.toNat
    let sent (x : SendFlow) : List Held := x.held.map (·.what) ++ x.queue
    ∀ o r k, fl.held = o :: r → k = (f.ack - o.seq).toNat → k ≠ 0 → k ≤ fl.held.length → f.ackv = true → f.credit = 0 →
      ∃ t, exec (.ackCredit p f) s = .next t ∧ sent (sendOf t f.ten.toNat f.chan.toNat f.src.toNat) = (sent fl).drop k ∧
        (sendOf t f.ten.toNat f.chan.toNat f.src.toNat).timeouts = 0 ∧ (sendOf t f.ten.toNat f.chan.toNat f.src.toNat).onPort = 0 ∧
        Talks s t ∧ Keeps [.tens, .counters, .fabric, .power] s t) ∧
  (∀ (n : Ten) (chan : Chan) (s : State), ∃ t, exec (.ackSend n chan) s = .next t ∧
    (∀ peer < 65536, recvOf t n.val chan.toNat peer = { recvOf s n.val chan.toNat peer with owes := false }) ∧
    t.fabric.sends = s.fabric.sends ∧ Talks s t ∧ Keeps [.tens, .counters, .fabric, .power] s t) ∧
  (∀ (p : Port) (f : Frame) (s : State), passes p f s → f.kind = 2 → f.payload = [] →
    flowPeerOk s f.ten.toNat f.chan.toNat f.src.toNat = true →
    let fl := sendOf s f.ten.toNat f.chan.toNat f.src.toNat
    ∀ o r k, fl.held = o :: r → k = (f.ack - o.seq).toNat → k ≤ r.length →
      ∃ t, exec (.nak p f) s = .next t ∧ t.fabric.sends = s.fabric.sends ∧
        t.counter (tenOff f.ten.toNat 0x2108) =
          BitVec.ofNat 64 (min counterMax ((s.counter (tenOff f.ten.toNat 0x2108)).toNat + (fl.held.length - k))) ∧
        Talks s t ∧ Keeps [.tens, .counters, .fabric, .power] s t) ∧
  (∀ (n : Ten) (chan : Chan) (s : State) (peer : Nat) (fl : SendFlow), oldestFlow s n.val chan.toNat = some (peer, fl) →
    fl.timeouts + 1 < retryMax s → fl.onPort + 1 < retryPort s →
    ∃ t, exec (.retryTimeout n chan) s = .next t ∧
      sendOf t n.val chan.toNat peer = { fl with timeouts := fl.timeouts + 1, onPort := fl.onPort + 1, advanced := t.now } ∧
      t.counter (tenOff n.val 0x2108) = BitVec.ofNat 64 (min counterMax ((s.counter (tenOff n.val 0x2108)).toNat + fl.held.length)) ∧
      (s.time.pll ≠ .off → s.now ≤ fl.advanced + retryTicks s → fl.advanced + retryTicks s < 2 ^ 64 → t.now = fl.advanced + retryTicks s) ∧
      Keeps timeViews s t)

/-! ### Ports and links -/

/-- 13 R342, Table 13.2, 20 Table 20.17: a frame dropped for its check sequence, a foreign frame, a pause frame and a frame with a bad
header are each counted on their port, and that is all but for the classes that a pause frame pauses and the energy of a frame received. -/
def Obligations.PortFrames : Prop :=
  ∀ (p : Port) (s : State),
    (∃ t, exec (.fcsDrop p) s = .next t ∧ counted s t (portOff p.val 0x20) ∧ Keeps [.counters] s t) ∧
    (∃ t, exec (.foreignFrame p) s = .next t ∧ counted s t (portOff p.val 0x38) ∧ Keeps [.counters] s t) ∧
    (∀ pause, ∃ t, exec (.pfcFrame p pause) s = .next t ∧ counted s t (portOff p.val 0x30) ∧
      portOf t p = { portOf s p with paused := pause } ∧ (∀ q, q ≠ p → portOf t q = portOf s q) ∧ Keeps [.counters, .fabric] s t) ∧
    (∀ f, (portOf s p).link = true → ∃ t, exec (.badHeader p f) s = .next t ∧ counted s t (portOff p.val 0x08) ∧
      counted s t (portOff p.val 0x40) ∧ Talks s t ∧ Keeps [.tens, .counters, .power] s t)

/-- 13 R338, 21 R570, 09 R229: link and lock of a port come and go as its events say, no other port changes, and the core PLL, while
it runs, takes the source that they leave. -/
def Obligations.PortLinks : Prop :=
  ∀ (p : Port) (s : State),
    let done (f : PortSt → PortSt) (t : State) : Prop := portOf t p = f (portOf s p) ∧ (∀ q, q ≠ p → portOf t q = portOf s q) ∧
      t.time.pll = (if s.time.pll = .off then .off else choosePll t) ∧ Keeps [.fabric, .time, .mgmt] s t
    (s.fabric.cfgBad = false → ∃ t, exec (.fabricLinkUp p) s = .next t ∧
      done (fun q => { q with link := true, locked := true, lost := none, down := q.failed || q.assay }) t) ∧
    (s.fabric.cfgBad = true → exec (.fabricLinkUp p) s = .next s) ∧
    ((portOf s p).link = true → ∃ t, exec (.linkLoss p) s = .next t ∧
      done (fun q => { q with link := false, locked := false, paused := 0, lost := some s.now }) t) ∧
    (∃ t, exec (.lossOfLock p) s = .next t ∧ done (fun q => { q with locked := false }) t) ∧
    (∃ t, exec (.lockRegained p) s = .next t ∧ done (fun q => { q with locked := q.link }) t)

/-- 13 R352: a port that has been without link for 1 ms is marked down; a flow on it goes on to the next live port of its axis, and is
counted. -/
def Obligations.PortGoesDown : Prop :=
  ∀ (p : Port) (s : State) (v : Nat), (portOf s p).lost = some v → (portOf s p).link = false → (portOf s p).down = false →
    let s1 := (s.passTo (v + 1800000)).modPort p (fun q => { q with down := true })
    (flowsOn s1 p = [] → ∃ t, exec (.portDown p) s = .next t ∧ (portOf t p).down = true ∧
      (s.time.pll ≠ .off → s.now ≤ v + 1800000 → v + 1800000 < 2 ^ 64 → t.now = v + 1800000) ∧
      Keeps timeViews s t) ∧
    (∀ n ch peer q, flowsOn s1 p = [(n, ch, peer)] →
      (((axisPorts s1 n (flowAxis s1 n ch peer)).filter (fun x => p < x)) ++
        ((axisPorts s1 n (flowAxis s1 n ch peer)).filter (fun x => x < p))).find? (fun x => livePort s1 x) = some q →
      ∃ t, exec (.portDown p) s = .next t ∧ (portOf t p).down = true ∧
        sendOf t n ch peer = { sendOf s1 n ch peer with port := some q, onPort := 0, advanced := t.now } ∧
        (n < 8 → counted s t (tenOff n 0x2130)) ∧ Keeps timeViews s t)

/-- 13 R362, 00 R10: the write that locks FAB_CFG gives it its value; once locked, a write is discarded and noted in the daybook. -/
def Sys2Proof.Claims.fabCfgLocks : Prop :=
  ∀ (v : BitVec 64) (s : State),
    (bitB s.fabric.cfg 63 = false → ∃ t, exec (.fabCfgLock v) s = .next t ∧ t.fabric.cfg = v ||| (1#64 <<< 63) ∧ t.fabric.axes = s.fabric.axes ∧
      (cfgInconsistent { s with fabric := { s.fabric with cfg := v ||| (1#64 <<< 63) } } = true → ∀ q, (portOf t q).link = false) ∧
      (cfgInconsistent { s with fabric := { s.fabric with cfg := v ||| (1#64 <<< 63) } } = false → t.fabric.ports = s.fabric.ports) ∧
      Keeps [.fabric, .time, .mgmt] s t) ∧
    (bitB s.fabric.cfg 63 = true → exec (.fabCfgLock v) s = .next (s.dayChip 0x01 0 0x2000 (v ||| (1#64 <<< 63)).toNat 0))

/-! ### Tally -/

/-- 09 R246, 21 R558, R559: an edge of PPS_IN stamps the tally; PPS_OUT and TALLY_REF are square waves of the tally, high for 0.1 s of
each second and for 90 of 180 ticks, and an edge takes the time to its change. -/
def Obligations.TallyPins : Prop :=
  ∀ s : State,
    (∃ t, exec .ppsInEdge s = .next t ∧ t.time.ppsStamp = s.time.tally ∧ t.time.ppsSeen = true ∧ t.time.tally = s.time.tally ∧ Keeps [.time] s t) ∧
    (s.time.pll ≠ .off → s.now + 1800000000 < 2 ^ 64 →
      (∃ t, exec .ppsOutEdge s = .next t ∧ t.board.pps = decide (ppsPhase t < 180000000) ∧
        t.now = (if s.board.pps = decide (ppsPhase s < 180000000) then s.now + untilEdge 1800000000 180000000 (ppsPhase s) else s.now) ∧
        Keeps (.board :: timeViews) s t) ∧
      (∃ t, exec .tallyRefOutEdge s = .next t ∧ t.board.tallyRef = decide (t.now % 180 < 90) ∧
        t.now = (if s.board.tallyRef = decide (s.now % 180 < 90) then s.now + untilEdge 180 90 (s.now % 180) else s.now) ∧
        Keeps (.board :: timeViews) s t))

/-- A probe frame of a kind passes its checks on a port, with a word that is not poisoned (13 R357). -/
def Sys2Proof.Claims.probeOk (kind : BitVec 4) (p : Port) (f : Frame) (s : State) : Prop :=
  (portOf s p).link = true ∧ badHeaderOf f = false ∧ f.kind = kind ∧ f.payload.length = 1 ∧ f.dst.toNat = myId s ∧ f.plane.toNat = p.val ∧
    isPoisoned (decodeWord (nth f.payload MemWord.zero 0)).w = false

/-- 09 R231, R232, 13 R357: a probe is answered on its port with the time it was sent and the times it came and left; an answer
of the parent to a probe of this millisecond is counted and, unless it is late, gives an offset and a path delay. With the schedule
reached and a parent, eight probes go out 1 µs apart. A pair not heard again for two probe periods is dropped (09 R230; the model's
choice, log entry 64). -/
def Obligations.Probes : Prop :=
  (∀ (p : Port) (f : Frame) (s : State), probeOk 3 p f s → bitsN s.fabric.cfg 15 0 ≠ 0 →
    ∃ t g, exec (.probeFrame p f) s = .next t ∧ t.fabric.outbox = s.fabric.outbox ++ [(p, g)] ∧ g.kind = 4 ∧ g.dst = f.src ∧
      (∃ w, g.payload = [MemWord.clean w] ∧ bits w 63 0 = bits (first f) 63 0 ∧ bits w 127 64 = s.time.tally ∧ bits w 191 128 = s.time.tally) ∧
      t.time.tally = s.time.tally ∧ Keeps [.tens, .counters, .fabric, .time, .mgmt, .power] s t) ∧
  (∀ (p : Port) (f : Frame) (s : State), probeOk 4 p f s →
    let t1 : BitVec 64 := bits (first f) 63 0
    let t2 : BitVec 64 := bits (first f) 127 64
    let t3 : BitVec 64 := bits (first f) 191 128
    let s1 := ((((s.count (portOff p.val 0x08) 1).chargeFrame p f).decodePayload p f.payload).1.hear
      (bits (first f) 199 192, bits (first f) 215 200)).selectPll
    parentOf s1 = some f.src.toNat → t1.toNat ∈ s.time.probeSent →
    ∃ t, exec (.probeAnswer p f) s = .next t ∧ counted s t (chipOff 0x08) ∧
      t.time.answers = s.time.answers ++ (if f.late || decide (11 < (t3 - t2).toInt) then [] else
        [(((t2 - t1).toInt - (s.time.tally - t3).toInt).tdiv 2, ((t2 - t1).toInt + (s.time.tally - t3).toInt).tdiv 2)]) ∧
      Keeps [.tens, .counters, .time, .mgmt, .power] s t) ∧
  (∀ s : State, s.time.pll ≠ .off → s.now + 3600000 < 2 ^ 64 → s.time.probeSent = [] → s.now % 1800000 = s.time.schedule.toNat % 1800000 →
    (s.time.best = none ∨ s.now ≤ s.time.bestAt + 3600000 →
      (parentOf s = none → exec .tallyProbe s = .next { s with time := { s.time with answers := [] } }) ∧
      ((parentOf s).isSome = true → ∃ t, exec .tallyProbe s = .next t ∧ t.now = s.now + 7 * 1800 ∧
        t.time.probeSent = (upTo 8).map (fun i => s.now + 1800 * i) ∧ t.time.best = s.time.best ∧ Keeps timeViews s t)) ∧
    (s.time.best ≠ none → s.time.bestAt + 3600000 < s.now → ∃ t, exec .tallyProbe s = .next t ∧ t.time.best = none ∧ Keeps timeViews s t))

/-! ### Control frames of a job -/

/-- A frame of the control flow comes from another chip of the job, passes its checks, and is the one its flow expects. -/
def Sys2Proof.Claims.comes (bad : Frame → Bool) (p : Port) (f : Frame) (s : State) : Prop :=
  passes p f s ∧ bad f = false ∧ inBox s f.ten.toNat f.src.toNat = true ∧ f.src.toNat ≠ myId s ∧ f.seq = (flowOf s f).expected

/-- Tenancy `n` becomes `g` of what it was, and no other changes, but for what sending and receiving frames changes of them. -/
def Sys2Proof.Claims.becomes (n : Nat) (g : Tenancy → Tenancy) (s t : State) : Prop :=
  ∀ m, (if m = n then g (s.ten n) else s.ten m).talks (t.ten m)

/-- The job of tenancy `n` has the job-ending error at place `k` of Table 15.4, unless it had one, and this chip has stopped (15 R417). -/
def Sys2Proof.Claims.ended (n k : Nat) (s t : State) : Prop :=
  (t.ten n).recov.ending = (s.ten n).recov.ending.or (some ⟨clsJ, 4, 0, BitVec.ofNat 8 (Config.endCode k)⟩) ∧ (t.ten n).course.stopped = true

/-- 09 R240 to R242, 17 R461: a blank notice for a running job makes its course pending, or joins the pending one; one that comes too
late ends the job, and so does a seventeenth pending course. One of an epoch that is past changes nothing. -/
def Obligations.BlankNotices : Prop :=
  ∀ (p : Port) (f : Frame) (s : State), comes (ctlBad 5 1) p f s → (s.ten f.ten.toNat).load.st = .running →
    let n := f.ten.toNat
    let c := bitsN (first f) 49 0
    let cause : BitVec 3 := bits (first f) 52 50
    let k := (s.ten n).course
    let lean : Bool := match k.lean with | some x => x.1 ≤ c && c < x.2 | none => false
    let frame (t : State) : Prop := Keeps [.tens, .counters, .fabric, .power] s t
    (bits (first f) 127 96 < (s.ten n).recov.epoch → ∃ t, exec (.blankNotice p f) s = .next t ∧ Talks s t ∧ frame t) ∧
    ((s.ten n).recov.epoch ≤ bits (first f) 127 96 →
      ((pendingAt k.pending c).isSome = true ∨ courseNow s + 1 < c ∧ ¬ (cause = 1 ∧ lean = true) ∧ k.pending.length < 16 →
        ∃ t, exec (.blankNotice p f) s = .next t ∧
          becomes n (fun m => { m with course := { m.course with pending := joinBlank k.pending c cause } }) s t ∧ frame t) ∧
      (pendingAt k.pending c = none → c ≤ courseNow s + 1 ∨ cause = 1 ∧ lean = true →
        ∃ t, exec (.blankNotice p f) s = .next t ∧ ended n 2 s t ∧ frame t) ∧
      (pendingAt k.pending c = none → courseNow s + 1 < c → ¬ (cause = 1 ∧ lean = true) → 16 ≤ k.pending.length →
        ∃ t, exec (.blankNotice p f) s = .next t ∧ ended n 1 s t ∧ frame t))

/-- 07 R177, 13 R356: a vote of another chip counts toward the one this chip takes part in, which is complete once every other chip of its
scope has been heard; before this chip's check it is kept. -/
def Obligations.Votes : Prop :=
  ∀ (p : Port) (f : Frame) (s : State), comes (ctlBad 6 1) p f s →
    let n := f.ten.toNat
    let check : BitVec 12 := bits (first f) 11 0
    let yes := bitB (first f) 12
    ((s.ten n).vote = none → ∃ t, exec (.vote p f) s = .next t ∧ becomes n (fun m => { m with votes := m.votes ++ [(p, check, yes)] }) s t ∧
      Keeps [.tens, .counters, .fabric, .power] s t) ∧
    (∀ v, (s.ten n).vote = some v → v.done = true → ∃ t, exec (.vote p f) s = .next t ∧
      becomes n (fun m => { m with votes := m.votes ++ [(p, check, yes)] }) s t ∧ Keeps [.tens, .counters, .fabric, .power] s t) ∧
    (∀ v, (s.ten n).vote = some v → v.done = false → v.check = check → ∃ t, exec (.vote p f) s = .next t ∧
      (∃ v2, (t.ten n).vote = some v2 ∧ v2.check = check ∧ v2.at' = v.at' ∧ v2.got = v.got + 1 ∧ v2.any = (v.any || yes) ∧
        v2.done = decide (scopeOthers s n v.scope ≤ v.got + 1)) ∧
      Keeps [.seqs, .tens, .counters, .fabric, .mgmt, .power] s t)

/-- 09 R234, R235, 13 R356: a ready frame is noted; once this chip and all that send to it are ready it has sent its own on, and the root names
the launch course. A loaded job takes a launch course more than two ahead; one that comes too late ends it, and so does one for a job that is
not loaded yet. -/
def Obligations.LaunchFrames : Prop :=
  (∀ (p : Port) (f : Frame) (s : State), comes (fun f => ctlBad 7 1 f || bitB (first f) 50) p f s →
    let n := f.ten.toNat
    let l : Launch := { (s.ten n).launch with heard := insertNew (s.ten n).launch.heard f.src }
    let ready := l.ready = true ∧ (s.ten n).load.st = .loaded ∧ hdr s n 6 1 = 0 ∧ l.sentAt = none ∧ l.course = none ∧
      rootChildren s n ≤ l.heard.length
    ∃ t, exec (.launchReady p f) s = .next t ∧ Keeps [.tens, .counters, .fabric, .power] s t ∧
      (¬ ready → becomes n (fun m => { m with launch := l }) s t) ∧
      (ready → isRoot s n = true → becomes n (fun m => { m with launch := { l with course := some (courseNow s + hdr s n 32 2) } }) s t) ∧
      (ready → isRoot s n = false → becomes n (fun m => { m with launch := { l with sentAt := some s.now } }) s t)) ∧
  (∀ (p : Port) (f : Frame) (s : State), comes (fun f => ctlBad 7 1 f || !bitB (first f) 50) p f s →
    let n := f.ten.toNat
    let c := bitsN (first f) 49 0
    ∃ t, exec (.launchGo p f) s = .next t ∧ Keeps [.tens, .counters, .fabric, .power] s t ∧
      ((s.ten n).load.st = .loaded → courseNow s + 2 < c → becomes n (fun m => { m with launch := { m.launch with course := some c } }) s t) ∧
      ((s.ten n).load.st = .loaded → c ≤ courseNow s + 2 → ended n 3 s t) ∧
      ((s.ten n).load.st = .loading → ended n 4 s t) ∧
      ((s.ten n).load.st = .running ∨ (s.ten n).load.st = .ended → Talks s t)) ∧
  (∀ (p : Port) (f : Frame) (s : State), (s.ten f.ten.toNat).load.st = .loading → goWhole s p f = true →
    ∃ t, exec (.launchGo p f) s = .next t ∧ ended f.ten.toNat 4 s t ∧ Keeps [.tens, .counters, .fabric, .power] s t) ∧
  (∀ (n : Ten) (s : State) (v : Nat), (s.ten n.val).launch.sentAt = some v → (s.ten n.val).launch.course = none →
    (s.ten n.val).launch.timedOut = false → (s.ten n.val).load.st = .loaded →
    ∃ t, exec (.launchTimeout n) s = .next t ∧ (t.ten n.val).launch = { (s.ten n.val).launch with timedOut := true } ∧
      dayWord t.time.tally 0x14 0 n.val 0x7F 0 0 v 0 ∈ t.mgmt.waiting.drop s.mgmt.waiting.length ∧
      (let u := v + hdr s n.val 34 2 * 1800000
       s.time.pll ≠ .off → s.now ≤ u → u < 2 ^ 64 → t.now = u) ∧ Keeps timeViews s t)

/-! ### Recovery -/

/-- 15 R411, R413: a STOP of a newer census, or the first, is taken for the next boundary with the error that it carries; a REPORT is gathered
into this chip's; a PLAN of this census fixes path, taint step and epoch; a DONE is counted; a RESUME names the course of the resume, and
one that comes too late ends the job; an END gives the job its job-ending error and stops the chip. -/
def Obligations.RecoveryFrames : Prop :=
  ∀ (p : Port) (f : Frame) (s : State), jobLive s f.ten.toNat = true →
    let n := f.ten.toNat
    let w := first f
    let r := (s.ten n).recov
    let census : BitVec 16 := bits w 181 166
    let e : JobError := ⟨bits w 6 4, bits w 9 7, bits w 41 10, bits w 149 142⟩
    let frame (t : State) : Prop := Keeps [.tens, .counters, .fabric, .power] s t
    (comes (recvBad 0 1) p f s → ∃ t, exec (.stop p f) s = .next t ∧ frame t ∧
      (r.st = 0 ∨ r.census < census → (t.ten n).recov.census = bvMax r.census census ∧
        (t.ten n).recov.stopGot = some (match r.stopGot with | some x => (x.1.join e, census) | none => (e, census))) ∧
      (r.st ≠ 0 → census ≤ r.census → Talks s t)) ∧
    (comes (recvBad 1 1) p f s → ∃ t, exec (.report p f) s = .next t ∧ frame t ∧
      (census < r.census → Talks s t) ∧
      (r.census ≤ census → (t.ten n).recov.census = census ∧
        (t.ten n).recov.chips = (if r.census < census then 0 else r.chips) + bitsN w 141 125 ∧
        (t.ten n).recov.repCls = bvMax r.repCls e.cls ∧ (t.ten n).recov.repPath = bvMax r.repPath e.path ∧
        (t.ten n).recov.repTaint = bvMin r.repTaint e.taint ∧
        (r.st = 1 → r.reported = false ∨ r.census < census → (t.ten n).recov.chips + 1 = rootSub s n →
          (t.ten n).recov.st = 2 ∧ (t.ten n).recov.reported = true))) ∧
    (comes (recvBad 2 1) p f s → ∃ t, exec (.plan p f) s = .next t ∧ frame t ∧
      ((r.st = 1 ∨ r.st = 2) → census = r.census → becomes n (fun m => { m with recov := { m.recov with
        cls := e.cls, path := e.path, taint := e.taint, plan := some (e.path, e.taint, bits w 73 42) } }) s t)) ∧
    (comes (recvBad 3 1) p f s → ∃ t, exec (.done p f) s = .next t ∧ frame t ∧
      (census = r.census → (t.ten n).recov.doneChips = r.doneChips + bitsN w 141 125) ∧ (census ≠ r.census → Talks s t)) ∧
    (comes (recvBad 4 1) p f s → ∃ t, exec (.resume p f) s = .next t ∧ frame t ∧
      (r.st = 4 → census = r.census → courseNow s + 2 < bitsN w 123 74 →
        becomes n (fun m => { m with recov := { m.recov with resumeAt := some (bitsN w 123 74) } }) s t) ∧
      (r.st = 4 → census = r.census → bitsN w 123 74 ≤ courseNow s + 2 → ended n 3 s t) ∧ (r.st ≠ 4 ∨ census ≠ r.census → Talks s t)) ∧
    (comes (recvBad 5 1) p f s → ∃ t, exec (.endJob p f) s = .next t ∧ frame t ∧
      (t.ten n).recov.ending = r.ending.or (some ⟨e.cls, 4, 0, e.code⟩) ∧ (t.ten n).course.stopped = true)

/-- 15 R396, R400: the values of a SEALS frame are kept until the cut; once those of every chip of the D axis are there they are compared, and
unless all agree the step is bad. A TWIN frame's are compared with the home's records after the cut. -/
def Obligations.SealsAndTwins : Prop :=
  ∀ (p : Port) (f : Frame) (s : State), jobLive s f.ten.toNat = true → (s.ten f.ten.toNat).close.due = false →
    let n := f.ten.toNat
    let v := sealOfWords f (f.payload.map (fun w => (decodeWord w).w))
    let k := (s.ten n).close
    let st := (s.ten n).steps
    let frame (t : State) : Prop := Keeps [.tens, .counters, .fabric, .mgmt, .power] s t
    (comes (recvBad 6 6) p f s → ∃ t, exec (.seals p f) s = .next t ∧ frame t ∧ (t.ten n).steps.sealGot = st.sealGot ++ [v] ∧
      (k.cut = false → becomes n (fun m => { m with steps := { m.steps with sealGot := m.steps.sealGot ++ [v] } }) s t) ∧
      (∀ own, k.cut = true → k.sealCmp = false → st.sealSelf = some own →
        let vs := own :: (st.sealGot ++ [v]).filter (fun x => x.step = st.step)
        boxN s n 0 ≤ vs.length → (t.ten n).close.sealCmp = true ∧
          (vs.all (fun x => x.same own) = true → (t.ten n).close.sealPath = k.sealPath ∧ (n < 8 → counted s t (tenOff n 0x2198))) ∧
          (vs.all (fun x => x.same own) = false → (n < 8 → counted s t (tenOff n 0x21A0)) ∧ (t.ten n).close.sealPath =
            (if 3 ≤ boxN s n 0 ∧ bitB (BitVec.ofNat 8 (hdr s n 47 1)) 1 = true ∧
                vs.any (fun x => decide (boxN s n 0 < 2 * (vs.filter (fun u => u.same x)).length)) = true then 2 else 3)))) ∧
    (comes (recvBad 7 6) p f s → ∃ t, exec (.twin p f) s = .next t ∧ frame t ∧ (t.ten n).steps.twinGot = st.twinGot ++ [v] ∧
      (k.cut = false → becomes n (fun m => { m with steps := { m.steps with twinGot := m.steps.twinGot ++ [v] } }) s t) ∧
      (∀ own, k.cut = true → k.twinCmp = false → st.twinSelf = some own → v.step = st.step → (∀ x ∈ st.twinGot, x.step ≠ st.step) →
        (t.ten n).close.twinCmp = true ∧ ((t.ten n).close.twinBad = true ↔ ∃ r ∈ st.twins, isTwinHome r.2.record = true ∧
          (nth own.digests 0 r.1 ≠ nth v.digests 0 r.1 ∨ nth own.counts 0 r.1 ≠ nth v.counts 0 r.1))))

/-- 15 R412, Table 15.7, 16 R442: the actions of the plan done, the chip is done. A step redo clears the step fields of its scale ledger, the guard
latches and the accumulators of its cores, and goes back to the position of the last take; a reseat goes back to that position, after an odd chip
has taken the sealed content of the others, unless its values then differ; a rollback restores the newest sound generation: its step, seed
and slot table. Nothing is done while a newer error waits. -/
def Obligations.RecoveryActions : Prop :=
  ∀ (n : Ten) (s : State),
    let r := (s.ten n.val).recov
    let live := r.st = 3 ∧ r.preempt = none ∧ r.stopGot = none ∧ r.ending = none
    let done (t : State) : Prop := (t.ten n.val).recov.st = 4 ∧ (t.ten n.val).recov.selfDone = true
    (¬ live → exec (.recoveryActionsComplete n) s = .next s) ∧
    (live → r.path = 1 → ∃ t, exec (.recoveryActionsComplete n) s = .next t ∧ done t ∧ counted s t (tenOff n.val 0x21B0) ∧
      (t.ten n.val).course.pos = r.takePos ∧
      (∀ e, (partOf s n.val 0).1 ≤ e → e < (partOf s n.val 0).1 + (partOf s n.val 0).2 →
        (look t.stores.ledger {} e).data = (look s.stores.ledger {} e).data &&& ~~~0x0A00_FF00_0000_FF00#64) ∧
      (∀ c : Core, tenOf s c = some n.val → c.val ∉ t.cores.guard ∧ ∀ k, k < 262144 → look t.cores.acc {} (262144 * c.val + k) = {}) ∧
      Keeps [.acc, .engines, .busy, .stores, .tens, .counters, .fabric, .power] s t) ∧
    (live → r.path = 2 → r.odd = false → ∃ t, exec (.recoveryActionsComplete n) s = .next t ∧ done t ∧ (t.ten n.val).course.pos = r.takePos ∧
      Keeps [.tens, .counters, .fabric, .power] s t) ∧
    (live → r.path = 2 → r.odd = true → ∃ t, exec (.recoveryActionsComplete n) s = .next t ∧
      (done t ∧ counted s t (tenOff n.val 0x21A8) ∨
        (t.ten n.val).recov.preempt = some ⟨clsA, 3, (s.ten n.val).steps.step - 1, 0x61⟩) ∧
      Keeps [.cs, .mbox, .hall, .words, .tens, .counters, .fabric, .power, .fresh] s t) ∧
    (live → r.path = 3 → ∀ g, soundGen s n.val r.taint = some g → ∃ t, exec (.recoveryActionsComplete n) s = .next t ∧ done t ∧
      counted s t (tenOff n.val 0x21B8) ∧ (t.ten n.val).course.pos = g.pos ∧ (t.ten n.val).steps.step = g.step ∧
      (t.ten n.val).steps.seed = g.seed ∧ (t.ten n.val).steps.live = g.slots ∧ (t.ten n.val).steps.cautious = g.cautious ∧
      (t.ten n.val).escrow.held = [] ∧
      Keeps [.cs, .mbox, .hall, .words, .stores, .tens, .counters, .fabric, .power] s t)

/-- 14 R368: an `FWAIT` that waits for a collective for more than 16,384 courses ends the job: its chip issues no more. -/
def Sys2Proof.Claims.collectiveTimesOut : Prop :=
  ∀ (n : Ten) (chan : Chan) (s : State),
    (∀ k w, collOf s n.val chan.toNat = some k → k.waitFrom = some w → (s.ten n.val).load.st = .running → (s.ten n.val).recov.ending = none →
      ∃ t, exec (.collectiveTimeout n chan) s = .next t ∧
        (t.ten n.val).recov.ending = some ⟨clsJ, 4, 0, BitVec.ofNat 8 (Config.endCode 5)⟩ ∧ (t.ten n.val).course.stopped = true ∧
        (s.time.pll ≠ .off → s.now ≤ w + 268435457 → w + 268435457 < 2 ^ 64 → t.now = w + 268435457) ∧
        Keeps timeViews s t) ∧
    ((∀ k, collOf s n.val chan.toNat = some k → k.waitFrom = none) → exec (.collectiveTimeout n chan) s = .next s)

/-- 15 R418: a job that hears of no resume within its limit of the stop ends. -/
def Obligations.TimeLimits : Prop :=
  (∀ (n : Ten) (s : State),
    (inRecovery s n.val = true → (s.ten n.val).recov.resumeAt = none → (s.ten n.val).load.st = .running ∨ (s.ten n.val).load.st = .loaded →
      ∃ t, exec (.recoveryTimeout n) s = .next t ∧ ended n.val 12 s t ∧
        (let u := (s.ten n.val).recov.stopTally + hdr s n.val 50 2 * 1800000000
         s.time.pll ≠ .off → s.now ≤ u → u < 2 ^ 64 → t.now = u) ∧ Keeps timeViews s t) ∧
    (inRecovery s n.val = false ∨ (s.ten n.val).recov.resumeAt ≠ none → exec (.recoveryTimeout n) s = .next s)) ∧
  collectiveTimesOut

/-! ### Escrow -/

/-- 16 R438, R440: the state pages of the newest generation that lacks them are written, and none of them is SEALED any more. -/
def Sys2Proof.Claims.pagesOfState : Prop :=
  ∀ (n : Ten) (s : State), (s.ten n.val).close.due = false →
    (∀ g, ((s.ten n.val).escrow.gens.filter (fun g => !g.stateDone)).getLast? = some g → genOf s n.val g.step = some g →
      ∃ t, exec (.statePagesWritten n) s = .next t ∧ (∃ g2, genOf t n.val g.step = some g2 ∧ g2.stateDone = true ∧
        ∀ i, i < statePages s n.val → g2.sealedPage (dataPages s n.val + i) = false) ∧ Keeps [.cs, .mbox, .hall, .words, .tens] s t) ∧
    ((∀ g ∈ (s.ten n.val).escrow.gens, g.stateDone = true) → exec (.statePagesWritten n) s = .next s)

/-- 16 R429 to R431: an escrow window begins to copy the stack's first page that is SEALED, unless a copy runs there. With the last word of a copy its
page is SEALED for no generation kept, and no write is held for it any more. -/
def Obligations.EscrowCopies : Prop :=
  (∀ (n : Ten) (st : Stack) (s : State),
    (firstSealed s n.val st.val = none → exec (.escrowWindowCopy n st) s = .next s) ∧
    (∀ m, firstSealed s n.val st.val = some m → find (s.ten n.val).escrow.copying st.val = none →
      ∃ t, exec (.escrowWindowCopy n st) s = .next t ∧
        (∃ steps, find (t.ten n.val).escrow.copying st.val = some (m, 0, steps)) ∧ (∀ u, u ≠ n.val → t.ten u = s.ten u) ∧ Keeps [.tens] s t) ∧
    (∀ m cause steps k, find (s.ten n.val).escrow.copying st.val = some (m, cause, steps) → pageKey s n.val m = some k →
      (∀ x ∈ sealedFor s n.val m, x ∈ steps) → (∀ h ∈ (s.ten n.val).escrow.held, h.stack ≠ st.val ∨ h.page = m) →
      ∃ t, exec (.escrowCopyDone n st) s = .next t ∧ find (t.ten n.val).escrow.copying st.val = none ∧
        (∀ g ∈ (t.ten n.val).escrow.gens, g.sealedPage m = false) ∧ (∀ h ∈ (t.ten n.val).escrow.held, h.page ≠ m) ∧
        (cause = 0 → counted s t (tenOff n.val 0x2208)) ∧ (cause = 1 → counted s t (tenOff n.val 0x2210)) ∧
        Keeps [.cs, .mbox, .hall, .words, .tens, .counters, .power] s t) ∧
    (find (s.ten n.val).escrow.copying st.val = none → exec (.escrowCopyDone n st) s = .next s)) ∧
  pagesOfState

/-- 16 R432, R434 to R436: a drain copies the next page of its stack that the oldest open generation lacks; with none, the generation's
next page is sent. A block of a member's page is counted and its hallmark folded into the parity of its row; a page
accepted by every holder is PROTECTED. -/
def Obligations.EscrowDrainAndParity : Prop :=
  (∀ (n : Ten) (st : Stack) (s : State), (s.ten n.val).load.st ≠ .loaded →
    let gs := (s.ten n.val).escrow.gens
    let lacks (g : Generation) (m : Nat) : Bool := decide ((placeOfPage s n.val m).1 = st.val) && g.sealedPage m
    (∀ g m, gs.find? (fun g => (upTo (dataPages s n.val)).any (lacks g)) = some g → (upTo (dataPages s n.val)).find? (lacks g) = some m →
      find (s.ten n.val).escrow.copying st.val = none → ∃ t, exec (.escrowDrain n st) s = .next t ∧
        (∃ steps, find (t.ten n.val).escrow.copying st.val = some (m, 1, steps)) ∧ Keeps [.tens] s t) ∧
    (∀ g, gs.find? (fun g => (upTo (dataPages s n.val)).any (lacks g)) = none → striped s n.val = true →
      gs.find? (fun g => decide (g.sent < allPages s n.val)) = some g → genOf s n.val g.step = some g →
      stackOfPage s n.val g.sent = st.val → find g.pages g.sent = some .copied → ∃ t, exec (.escrowDrain n st) s = .next t ∧
        genOf t n.val g.step = some { g with sent := g.sent + 1 } ∧ counted s t (tenOff n.val 0x2220) ∧
        Keeps [.tens, .counters, .fabric, .power] s t)) ∧
  (∀ (p : Port) (f : Frame) (s : State) (q : Nat) (g : Generation), passes p f s → f.seq = (flowOf s f).expected →
    f.kind = 0 → f.chan = 4093 → groupMember s f.ten.toNat f.src.toNat = some q →
    let n := f.ten.toNat
    (f.hm = true → f.payload.length = 128 →
      (s.ten n).escrow.gens.find? (fun g => g.rebuild || decide (look g.folded 0 q < 16 * (duePages s n q).length)) = some g →
      g.rebuild = false → genOf s n g.step = some g →
      let k := look g.folded 0 q
      let x := 16 * rowOfPage s n q (nth (duePages s n q) 0 (k / 16)) + k % 16
      ∃ t, exec (.escrowParityParcel p f) s = .next t ∧ (∃ g2, genOf t n g.step = some g2 ∧ look g2.folded 0 q = k + 1 ∧
        look g2.hpar 0 x = look g.hpar 0 x ^^^ f.hall ∧ g2.pages = g.pages) ∧ (k % 16 = 15 → counted s t (tenOff n 0x2228)) ∧
        Keeps [.cs, .mbox, .hall, .words, .tens, .counters, .fabric, .power] s t) ∧
    (f.hm = false → f.payload.length = 1 → genOf s n (bits (first f) 31 0) = some g →
      let m := bitsN (first f) 63 32
      ∃ t, exec (.escrowAccept p f) s = .next t ∧ (∃ g2, genOf t n (bits (first f) 31 0) = some g2 ∧ look g2.acks 0 m = look g.acks 0 m + 1 ∧
        ((holdersOf s n (rowOfPage s n (memberNo s n) m)).length ≤ look g.acks 0 m + 1 → find g.pages m = some .copied →
          find g2.pages m = some .protected_)) ∧
        Keeps [.cs, .mbox, .hall, .words, .tens, .counters, .fabric, .power] s t))


/-! ### Ledger requests -/

/-- A function's request can be taken: its host side acts, the management domain runs, and no more than 768 messages wait for it. -/
def Sys2Proof.Claims.takes (r : Req) (s : State) : Prop :=
  hostOn s r.fn.val = true ∧ mgmtOn s = true ∧ (boxOf s r.fn.val).backlog.length ≤ 768

/-- It is taken, and its header names no reserved byte. -/
def Sys2Proof.Claims.accepted (r : Req) (s : State) : Prop := takes r s ∧ r.reserved = false

/-- The request commands: the header, the kind of 18 Table 18.4, and whether the PF alone may send it. -/
def Sys2Proof.Claims.requestOf (i : Instr) : Option (Req × Nat × Bool) :=
  match i with
  | .telemetry r _ => some (r, 0x01, false)
  | .daybookDrain r _ _ => some (r, 0x02, false)
  | .assayRequest r _ _ _ => some (r, 0x03, true)
  | .capSet r _ => some (r, 0x04, true)
  | .create r _ _ _ _ _ => some (r, 0x05, true)
  | .share r _ _ _ _ => some (r, 0x05, true)
  | .windows r _ _ _ => some (r, 0x05, true)
  | .partition r _ _ _ _ => some (r, 0x05, true)
  | .weight r _ _ => some (r, 0x05, true)
  | .destroy r _ => some (r, 0x05, true)
  | .blankRequest r _ _ => some (r, 0x06, false)
  | .ledgerRead r _ _ => some (r, 0x07, true)
  | .fwStage r _ _ _ => some (r, 0x08, true)
  | .fwCommit r _ => some (r, 0x09, true)
  | .fwActivate r => some (r, 0x0A, true)
  | .timeSetup r _ => some (r, 0x0B, true)
  | .arbiterPriority r _ _ _ _ => some (r, 0x0C, true)
  | .launch r _ _ => some (r, 0x0D, false)
  | .maintenance r _ => some (r, 0x0E, true)
  | .unknownKind r kind => some (r, kind.toNat, false)
  | _ => none

/-- 18 R474 to R478: a request waits while more than 768 messages wait for its function; one that its function may not send is
answered 2, one with a reserved byte set 3, and every other one is answered once. A response repeats the kind with bit 7 set and the tag,
and takes the ring's next slot, or waits behind what waits. The pointers of the rings move as their rules say: a request tail that
passes the head by more than 63 slots, and a response head that passes the tail, are ignored and noted. -/
def Obligations.MailboxAndRequests : Prop :=
  (∀ (i : Instr) (r : Req) (kind : Nat) (pf : Bool) (s : State), requestOf i = some (r, kind, pf) →
    (¬ takes r s → exec i s = .next s) ∧
    (takes r s → pf = true → r.fn ≠ 0 → exec i s = .next ((s.popReq r.fn.val).answer r kind 2 0)) ∧
    (takes r s → pf = false ∨ r.fn = 0 → r.reserved = true → exec i s = .next ((s.popReq r.fn.val).answer r kind 3 0)) ∧
    (accepted r s → pf = false ∨ r.fn = 0 → ∃ (u : State) (status payload : Nat), exec i s = .next (u.answer r kind status payload))) ∧
  (∀ (r : Req) (kind status payload : Nat) (s : State),
    let m := boxOf s r.fn.val
    let w := msgWord (kind + 0x80) 0 r.tag.toNat status r.fn.val payload
    let t := s.answer r kind status payload
    (m.backlog = [] → m.rspTail + 1 ≠ m.rspHead → boxOf t r.fn.val = { m with rsp := set m.rsp m.rspTail.toNat w, rspTail := m.rspTail + 1 } ∧
      (t.intStatus r.fn.val).getLsbD 0 = true) ∧
    (m.backlog ≠ [] ∨ m.rspTail + 1 = m.rspHead → boxOf t r.fn.val = { m with backlog := m.backlog ++ [w] }) ∧
    (∀ fn, fn ≠ r.fn.val → boxOf t fn = boxOf s fn) ∧ Keeps [.mgmt] s t) ∧
  (∀ (fn : Fn) (tail : BitVec 6) (slots : List (BitVec 256)) (s : State), hostOn s fn.val = true → slots.length ≤ 64 →
    let m := boxOf s fn.val
    ∃ t, exec (.mbxReqTail fn tail slots) s = .next t ∧
      (∀ i, i < slots.length → look (boxOf t fn.val).req 0 ((m.reqTail.toNat + i) % 64) = nth slots 0 i) ∧
      (if 63 < (m.reqTail - m.reqHead).toNat + (tail - m.reqTail).toNat then
        (boxOf t fn.val).reqTail = m.reqTail ∧ (boxOf t fn.val).reqOver = true
       else (boxOf t fn.val).reqTail = tail ∧ (boxOf t fn.val).reqOver = m.reqOver) ∧ Keeps [.mgmt] s t) ∧
  (∀ (fn : Fn) (head : BitVec 8) (s : State), hostOn s fn.val = true →
    let m := boxOf s fn.val
    ∃ t, exec (.mbxRspHead fn head) s = .next t ∧ Keeps [.mgmt] s t ∧
      (if (m.rspTail - m.rspHead).toNat < (head - m.rspHead).toNat then boxOf t fn.val = { m with rspOver := true }
       else (boxOf t fn.val).rspHead = head ∧ ∃ k, (boxOf t fn.val).backlog = m.backlog.drop k ∧
        (boxOf t fn.val).rspTail = m.rspTail + BitVec.ofNat 8 k ∧
        ((boxOf t fn.val).backlog = [] ∨ (boxOf t fn.val).rspTail + 1 = head)))

/-- 19 R509 to R514: what the sub-operations of a tenancy setup leave, each answered 0: a tenancy with its rows, ports and weight; a
share, what of the old one lies outside it given to be cleared; a window allowance; a partition; a weight; or the tenancy gone. A setup
of a tenancy that is not EMPTY is answered 6. Released words, cleared, read as they do after reset; a VF is enabled or disabled. -/
def Obligations.TenancySetup : Prop :=
  (∀ (r : Req) (s : State), accepted r s → r.fn = 0 → ∀ ten : BitVec 8,
    let n := ten.toNat
    let d := (s.ten n).def_
    let ready := s.tenExists n = true ∧ (s.ten n).load.st = .empty
    let others (t : State) : Prop := ∀ m, m ≠ n → t.ten m = s.ten m
    let ok (i : Instr) (post : State → Prop) : Prop := ∃ u : State, exec i s = .next (u.answer r 5 0 0) ∧ post u ∧ others u
    (∀ (y0 h weight : BitVec 8) (ports : BitVec 16), s.tenExists n = false → n < 8 → 1 ≤ h.toNat → y0.toNat + h.toNat ≤ 8 → weight ≠ 0 →
      (bitsN ports 7 0 = 0 ∨ y0 = 0) → (bitsN ports 15 8 = 0 ∨ y0.toNat + h.toNat = 8) →
      (∀ m ∈ tenancies s, runsMeet y0.toNat h.toNat (s.ten m).def_.y0.toNat (s.ten m).def_.h.toNat = false ∧ (s.ten m).def_.ports &&& ports = 0) →
      ok (.create r ten y0 h weight ports) (fun u => (u.ten n).def_ = { exists_ := true, y0 := y0.setWidth 3, h := h.setWidth 4, ports := ports } ∧
        (u.ten n).weight = weight ∧ (u.ten n).load.st = .empty ∧ Keeps [.tens, .mgmt] s u)) ∧
    (∀ (stack : BitVec 8) (base size : BitVec 32), ready → d.reaches stack.toNat = true →
      let st := stack.toNat
      let old := shareOf s n st
      let a := 8192 * base.toNat
      let k := 8192 * size.toNat
      let freed (u : State) (w : Nat) : Prop := ∃ x ∈ u.hbm.clearing, x.1 = st ∧ x.2.1 ≤ w ∧ w < x.2.1 + x.2.2
      (size = 0 → ok (.share r ten stack base size) (fun u => (shareOf u n st).2 = 0 ∧
        (∀ w, old.1 ≤ w → w < old.1 + old.2 → freed u w) ∧ Keeps [.service, .tens, .mgmt] s u)) ∧
      (size ≠ 0 → 64 * (base.toNat + size.toNat) ≤ 16646144 →
        (∀ m ∈ tenancies s, m ≠ n → runsMeet a k (shareOf s m st).1 (shareOf s m st).2 = false) →
        (∀ x ∈ s.hbm.clearing, x.1 = st → runsMeet a k x.2.1 x.2.2 = false) →
        ok (.share r ten stack base size) (fun u => shareOf u n st = (a, k) ∧
          (∀ w, old.1 ≤ w → w < old.1 + old.2 → w < a ∨ a + k ≤ w → freed u w) ∧ Keeps [.service, .tens, .mgmt] s u))) ∧
    (∀ (stack : BitVec 8) (allow : BitVec 64), ready → d.reaches stack.toNat = true → allow &&& 0xE400_2001_0008_0040 = 0 →
      (∀ m ∈ tenancies s, m ≠ n → look (s.ten m).def_.allow 0 stack.toNat &&& allow = 0) →
      ok (.windows r ten stack allow) (fun u => look (u.ten n).def_.allow 0 stack.toNat = allow ∧ Keeps [.tens, .mgmt] s u)) ∧
    (∀ (code : BitVec 8) (base size : BitVec 32), ready → code.toNat < 8 →
      let k := code.toNat
      let a := base.toNat * storeUnit k
      let len := size.toNat * storeUnit k
      a + len ≤ storeEntries k → (k = 6 → len ∈ phaseSizes) →
      (∀ m ∈ tenancies s, m ≠ n → runsMeet a len (partOf s m k).1 (partOf s m k).2 = false) →
      ok (.partition r ten code base size) (fun u => (partOf u n k).2 = len ∧ (len ≠ 0 → (partOf u n k).1 = a) ∧ Keeps [.tens, .mgmt] s u)) ∧
    (∀ w : BitVec 8, s.tenExists n = true → w ≠ 0 →
      ok (.weight r ten w) (fun u => u.ten n = { s.ten n with weight := w } ∧ Keeps [.tens, .mgmt] s u)) ∧
    (ready → ok (.destroy r ten) (fun u => u.tenExists n = false ∧
      (∀ st w, st < 8 → (shareOf s n st).1 ≤ w → w < (shareOf s n st).1 + (shareOf s n st).2 →
        ∃ x ∈ u.hbm.clearing, x.1 = st ∧ x.2.1 ≤ w ∧ w < x.2.1 + x.2.2) ∧ Keeps [.service, .tens, .spares, .mgmt] s u)) ∧
    (s.tenExists n = true → (s.ten n).load.st ≠ .empty → ∀ i : Instr,
      (∃ y0 h weight ports, i = .create r ten y0 h weight ports) ∨ (∃ stack base size, i = .share r ten stack base size) ∨
      (∃ stack allow, i = .windows r ten stack allow) ∨ (∃ code base size, i = .partition r ten code base size) ∨ i = .destroy r ten →
      exec i s = .next ((s.popReq 0).answer r 5 6 0))) ∧
  (∀ s : State, ∃ t, exec .shareClearingDone s = .next t ∧ t.hbm.clearing = [] ∧
    (∀ key, rawWord t .hbm key = if inReleased s.hbm.clearing key then hbmDefault key else rawWord s .hbm key) ∧
    Keeps [.words, .service, .tens, .power] s t) ∧
  (∀ (vf : Ten) (on : Bool) (s : State), ∃ t, exec (.vfEnable vf on) s = .next t ∧
    (∀ fn, fn ∈ t.mgmt.vfOn ↔ if fn = vf.val + 1 then on = true else fn ∈ s.mgmt.vfOn) ∧
    (on = false → ∀ e ∈ t.mgmt.ring, vf.val + 1 ∉ e.readers) ∧ Keeps [.mgmt] s t)

/-- 18 R474 to R486, R488, R495, 09 R231, R234, 17 R452: the requests that read, set or ask for something of the chip, each with the
status and payload of its response. A delay request is answered with the PTP time of its arrival (09 R246) while this chip is grandmaster. -/
def Obligations.ServiceRequests : Prop :=
  (∀ (r : Req) (s : State), accepted r s →
    let fn := r.fn.val
    (∀ offsets : List (BitVec 20), offsets.length ≤ 3 → (∀ o ∈ offsets, o.toNat % 8 = 0 ∧ o.toNat < bar0Size fn) →
      ∃ (u : State) (payload : Nat), exec (.telemetry r offsets) s = .next (u.answer r 1 0 payload) ∧
        (∀ i (_ : i < offsets.length), payload / 2 ^ (64 * i) % 2 ^ 64 = (regRead (s.popReq fn) fn offsets[i].toNat).toNat) ∧
        Keeps [.counters, .mgmt] s u) ∧
    (∀ (addr : BitVec 64) (limit : BitVec 16), limit ≠ 0 → limit.toNat ≤ 8192 → (∀ e ∈ s.mgmt.ring, e.readers.Nodup) →
      let ws := ((s.mgmt.ring.filter (fun e => e.readers.contains fn)).take limit.toNat).map (·.word)
      ∃ u : State, exec (.daybookDrain r addr limit) s = .next (u.answer r 2 0 (ws.length + (unread s fn - ws.length) * 2 ^ 32)) ∧
        (∀ i (_ : i < ws.length), look u.mgmt.hostMem 0 (addr.toNat + 32 * i) = ws[i]) ∧ unread u fn = unread s fn - ws.length ∧
        Keeps [.counters, .mgmt] s u) ∧
    (∀ kind : BitVec 8, exec (.unknownKind r kind) s = .next ((s.popReq fn).answer r kind.toNat 1 0)) ∧
    (r.fn = 0 →
      (∀ (kind : BitVec 8) (target : BitVec 16) (force : Bool), assayTarget kind.toNat target.toNat = true →
        (kind = 4 → ∀ a ∈ s.mgmt.assays ++ s.mgmt.running, a.kind ≠ 4) →
        ∃ u : State, exec (.assayRequest r kind target force) s = .next (u.answer r 3 0 0) ∧
          (∃ a ∈ u.mgmt.assays ++ u.mgmt.running, a.kind.toNat = kind.toNat ∧ a.target = target) ∧ Keeps [.fabric, .mgmt] s u) ∧
      (∀ (sec : BitVec 8) (addr : BitVec 64), sec.toNat ≤ 11 →
        let ws := sectionWords s sec.toNat
        ∃ u : State, exec (.ledgerRead r sec addr) s = .next (u.answer r 7 0 (32 * ws.length)) ∧
          (∀ i (_ : i < ws.length), look u.mgmt.hostMem 0 (addr.toNat + 32 * i) = ws[i]) ∧ Keeps [.counters, .mgmt] s u) ∧
      (∀ watts : BitVec 16,
        (700 ≤ watts.toNat → watts.toNat ≤ tdp s → watts.toNat % 10 = 0 →
          ∃ u : State, exec (.capSet r watts) s = .next (u.answer r 4 0 0) ∧ bitsN u.power.cap 10 0 = watts.toNat ∧
            bitsN u.power.cap 63 11 = bitsN s.power.cap 63 11 ∧ Keeps [.mgmt, .power] s u) ∧
        (watts.toNat < 700 ∨ tdp s < watts.toNat ∨ watts.toNat % 10 ≠ 0 → exec (.capSet r watts) s = .next ((s.popReq 0).answer r 4 3 0))) ∧
      (∀ op : TimeOp,
        let ok (post : State → Prop) : Prop := ∃ u : State, exec (.timeSetup r op) s = .next (u.answer r 0x0B 0 0) ∧ post u ∧ u.time.setup = true ∧
          u.time.tally = s.time.tally ∧ Keeps [.time, .mgmt] s u
        match op with
        | .parent id schedule children hops => children.toNat ≤ 256 → hops.toNat ≤ 4 →
          ok (fun u => u.time.parent = some id ∧ u.time.schedule = schedule)
        | .child id port schedule => s.time.children.length < 256 →
          ok (fun u => find u.time.children id.toNat = some (port.val, schedule))
        | .timeBase seconds => ok (fun u => u.time.timeBase = seconds)
        | .ptp grandmaster clockClass => ok (fun u => u.time.grand = grandmaster ∧ u.time.clockClass = clockClass)
        | .ppsOffset ticks => ticks.toNat < 1800000000 → ok (fun u => u.time.ppsOffset = ticks)
        | .tallyCtl portA portB pri => ok (fun u => bits u.time.ctl 3 0 = portA ∧ bits u.time.ctl 7 4 = portB ∧ bits u.time.ctl 15 8 = pri)) ∧
      (∀ (mask : BitVec 33) (q : BitVec 4) (level : BitVec 3) (row : BitVec 16), mask ≠ 0 →
        ∃ u : State, exec (.arbiterPriority r mask q level row) s = .next (u.answer r 0x0C 0 0) ∧
          (∀ a, a < 33 → mask.getLsbD a = true → (arbLevels u a).extractLsb' (3 * q.toNat) 3 = level ∧
            arbRowOf u a q.toNat = row &&& ~~~(1#16 <<< q.toNat)) ∧
          (∀ a, mask.getLsbD a = false → arbLevels u a = arbLevels s a ∧ ∀ k, k < 16 → arbRowOf u a k = arbRowOf s a k) ∧ Keeps [.mgmt] s u))) ∧
  (∀ (seqId : BitVec 16) (s : State),
    (s.time.grand = true → bitB s.board.straps 4 = true → mgmtOn s = true → exec (.delayRequest seqId) s =
      let x := ptpTime s s.now
      .next { s with time := { s.time with ptpSent := s.time.ptpSent ++ [⟨seqId, x.1, x.2.1, x.2.2, ptpClass s⟩] } }) ∧
    (s.time.pll = .holdover → ptpClass s = 248) ∧ (s.time.pll ≠ .holdover → ptpClass s = s.time.clockClass) ∧
    (∀ v, (ptpTime s v).1 = s.time.timeBase + BitVec.ofNat 48 (v / 1800000000) ∧ (ptpTime s v).2.1.toNat = v % 1800000000 * 5 / 9) ∧
    (s.time.grand = false ∨ bitB s.board.straps 4 = false ∨ mgmtOn s = false → exec (.delayRequest seqId) s = .next s))

/-- 09 R234, R245, 12 R324, 18 R497, R498: the requests about a job, a repair window and the firmware. A launch course more than two
ahead is taken by a loaded job; a running job gets the blanks asked for; a repair window settles the rows of the
list; an image is staged in the slot that does not run, a valid slot is committed ahead of the other, and activation starts the slot that
boot would. -/
def Obligations.JobAndFirmwareRequests : Prop :=
  ∀ (r : Req) (s : State), accepted r s →
    (∀ (ten : BitVec 8), r.fn = 0 ∨ r.fn.val = ten.toNat + 1 → s.tenExists ten.toNat = true →
      let n := ten.toNat
      (∀ course : BitVec 50, (s.ten n).load.st = .loaded → courseNow s + 2 < course.toNat →
        ∃ u : State, exec (.launch r ten course) s = .next (u.answer r 0x0D 0 0) ∧
          becomes n (fun m => { m with launch := { m.launch with course := some course.toNat } }) s u ∧
          Keeps [.tens, .counters, .fabric, .mgmt, .power] s u) ∧
      (∀ course : BitVec 50, (s.ten n).load.st = .loading ∨ (s.ten n).load.st = .failed →
        ∃ u : State, exec (.launch r ten course) s = .next (u.answer r 0x0D 5 0) ∧ ended n 4 s u ∧ Keeps [.tens, .counters, .fabric, .mgmt, .power] s u) ∧
      (∀ course : BitVec 50, (s.ten n).load.st = .empty ∨ (s.ten n).load.st = .running ∨ (s.ten n).load.st = .ended →
        exec (.launch r ten course) s = .next ((s.popReq r.fn.val).answer r 0x0D 5 0)) ∧
      (∀ count : BitVec 8, 1 ≤ count.toNat → count.toNat ≤ 16 → (s.ten n).load.st = .running →
        (s.ten n).course.pending.length + count.toNat ≤ 16 →
        ∃ (u : State) (payload : Nat), exec (.blankRequest r ten count) s = .next (u.answer r 6 0 payload) ∧
          (∃ cs : List Nat, cs.length = count.toNat ∧ cs.Nodup ∧
            (u.ten n).course.pending = (s.ten n).course.pending ++ cs.map (fun c => ⟨c, 3, false⟩) ∧
            ∀ c ∈ cs, courseNow s + 9 ≤ c ∧ pendingAt (s.ten n).course.pending c = none) ∧
          Keeps [.tens, .counters, .fabric, .mgmt, .power] s u) ∧
      (∀ count : BitVec 8, 1 ≤ count.toNat → count.toNat ≤ 16 → (s.ten n).load.st ≠ .running →
        exec (.blankRequest r ten count) s = .next ((s.popReq r.fn.val).answer r 6 5 0))) ∧
    (r.fn = 0 →
      (∀ repaired : List Bool, anyLoaded s = false → ∃ u : State, exec (.maintenance r repaired) s = .next (u.answer r 0x0E 0 0) ∧
        u.mgmt.ledger.repairs = s.mgmt.ledger.repairs ++ s.hbm.repair.zip repaired ∧
        (∀ x ∈ s.hbm.repair.zip repaired, x.2 = true → ∀ k ∈ u.hbm.remapHbm, hbmRow k ≠ x.1) ∧
        (∀ k ∈ u.hbm.remapHbm, k ∈ s.hbm.remapHbm) ∧ u.hbm.words = s.hbm.words ∧ Keeps [.service, .fabric, .mgmt] s u) ∧
      (∀ repaired : List Bool, anyLoaded s = true → exec (.maintenance r repaired) s = .next ((s.popReq 0).answer r 0x0E 6 0)) ∧
      (∀ (addr : BitVec 64) (len : BitVec 32) (image : FwImage), len ≠ 0 → len.toNat ≤ 8388608 →
        ∃ u : State, exec (.fwStage r addr len image) s = .next (u.answer r 8 0 0) ∧ slotOf u (!s.mgmt.runSlot) = ⟨image, false⟩ ∧
          slotOf u s.mgmt.runSlot = slotOf s s.mgmt.runSlot ∧ u.mgmt.nextSlot = s.mgmt.nextSlot ∧ Keeps [.counters, .mgmt] s u) ∧
      (∀ slot : BitVec 8, slot.toNat ≤ 1 →
        let b := decide (slot = 1)
        (fwValid s (slotOf s b) = true → ∃ u : State, exec (.fwCommit r slot) s = .next (u.answer r 9 0 0) ∧ u.mgmt.nextSlot = b ∧
          slotOf u (!b) = slotOf s !b ∧ (∃ n, slotOf u b = ⟨{ (slotOf s b).image with sequence := n }, false⟩ ∧
            ((slotOf s !b).image.sequence ≠ 0xFFFF_FFFF → (slotOf s !b).image.sequence < n)) ∧ Keeps [.mgmt] s u) ∧
        (fwValid s (slotOf s b) = false → ∃ u : State, exec (.fwCommit r slot) s = .next (u.answer r 9 7 0) ∧ u.mgmt.nextSlot = s.mgmt.nextSlot ∧
          (∀ k, slotOf u k = slotOf s k) ∧ Keeps [.mgmt] s u)) ∧
      (∀ b fell, anyLoaded s = false → bootSlot s = some (b, fell) → ∃ u : State, exec (.fwActivate r) s = .next (u.answer r 0x0A 0 0) ∧
        u.mgmt.runSlot = b ∧ u.mgmt.nextSlot = b ∧ (slotOf s b).image.security ≤ u.mgmt.fuseMin ∧ (∀ fn, (boxOf u fn).backlog = []) ∧
        Keeps [.mgmt, .board] s u) ∧
      (anyLoaded s = true → exec (.fwActivate r) s = .next ((s.popReq 0).answer r 0x0A 6 0)))

/-! ### Loading -/

/-- 19 R516 to R523, 09 R244, R245: `COMMIT` of an EMPTY tenancy begins a load with its rows' default map; one in another load state is
ignored and noted. A load completes LOADED with its step, seed and readiness where every record loads and every check passes, and else
FAILED with the code of what failed. `UNLOAD` leaves the tenancy EMPTY and its cores' stores clear. `APPLY`, `BLANK_REQ` and `HOLD` set
what they name. -/
def Obligations.LoadStates : Prop :=
  ∀ (n : Ten) (s : State),
    let st := (s.ten n.val).load.st
    let others (t : State) : Prop := ∀ m, m ≠ n.val → t.ten m = s.ten m
    let told (t : State) : Prop := (t.intStatus 0).getLsbD 12 = true ∧ (t.intStatus (n.val + 1)).getLsbD 12 = true
    (tenOn s n = true → st = .empty → s.board.classD = 0 → assayHolds s n.val = false →
      ∃ t, exec (.commit n) s = .next t ∧ (t.ten n.val).load.st = .loading ∧ (t.ten n.val).load.code = 0 ∧ (t.ten n.val).launch = {} ∧
        (t.ten n.val).escrow.gens = [] ∧ others t ∧ told t ∧
        (∀ y ∈ rowsOf s n.val, (failedIn s y).Nodup → sparesOf t y = (upTo 9).filter (fun x => (defaultSpares s y).contains x)) ∧
        Keeps [.tens, .spares, .fabric, .mgmt] s t) ∧
    (tenOn s n = true → st ≠ .empty ∨ s.board.classD ≠ 0 ∨ assayHolds s n.val = true →
      ∃ t, exec (.commit n) s = .next t ∧ t.ten n.val = { s.ten n.val with load := { (s.ten n.val).load with errState := true } } ∧
        others t ∧ Keeps [.tens] s t) ∧
    (st = .loading →
      let count := bitsN (s.ten n.val).load.list 57 34
      let x := State.loadList count s n.val 0
      let frame (t : State) : Prop := Keeps [.cs, .prog, .desc, .purse, .mbox, .hall, .tags, .words, .service, .stores, .tens, .counters, .fabric, .mgmt, .power, .fresh] s t
      let fails (code : Nat) (t : State) : Prop := (t.ten n.val).load.st = .failed ∧ (t.ten n.val).load.code = BitVec.ofNat 8 code ∧ told t
      (∀ code i, x.2 = some (code, i) → ∃ t, exec (.loadComplete n) s = .next t ∧ fails code t ∧
        (t.ten n.val).load.record = BitVec.ofNat 24 i ∧ frame t) ∧
      (∀ code, x.2 = none → count ≠ 0 → commitFails x.1 n.val = some code → ∃ t, exec (.loadComplete n) s = .next t ∧ fails code t ∧ frame t) ∧
      (x.2 = none → count ≠ 0 → commitFails x.1 n.val = none → hdr x.1 n.val 7 1 = 0 →
        ∃ t, exec (.loadComplete n) s = .next t ∧ (t.ten n.val).load.st = .loaded ∧ (t.ten n.val).launch.ready = true ∧
          (t.ten n.val).steps.step = BitVec.ofNat 32 (hdr x.1 n.val 24 4) ∧ (t.ten n.val).steps.seed = BitVec.ofNat 64 (hdr x.1 n.val 16 8) ∧
          (t.ten n.val).close = {} ∧ told t ∧ frame t)) ∧
    (tenOn s n = true → st ≠ .empty → ∃ t, exec (.unload n) s = .next t ∧ (t.ten n.val).load.st = .empty ∧ (t.ten n.val).load.header = 0 ∧ told t ∧
      (st ≠ .running → others t ∧ ∀ c : Core, tenOf s c = some n.val →
        (∀ a, a < csWords → rawWord t (.cs c) a = MemWord.zero) ∧ (∀ a, a < mboxWords → rawWord t (.mbox c) a = MemWord.zero) ∧ seqOf t c = {}) ∧
      Keeps [.cs, .desc, .mbox, .hall, .tags, .acc, .engines, .busy, .seqs, .reads, .idle, .merges, .service, .stores, .tens, .counters, .fabric, .mgmt, .power] s t) ∧
    (tenOn s n = true →
      (∃ t, exec (.apply n) s = .next t ∧ t.ten n.val = { s.ten n.val with steps := { (s.ten n.val).steps with applyPend := true } } ∧
        others t ∧ Keeps [.tens] s t) ∧
      (∀ on : Bool, on = false ∨ st ≠ .running → ∃ t, exec (.hold n on) s = .next t ∧
        t.ten n.val = { s.ten n.val with course := { (s.ten n.val).course with hostHold := on } } ∧ others t ∧ Keeps [.tens] s t) ∧
      (st = .running → (s.ten n.val).course.pending.length < 16 → pendingAt (s.ten n.val).course.pending (courseNow s + 8) = none →
        ∃ t, exec (.hold n true) s = .next t ∧ becomes n.val (fun m => { m with course := { m.course with
          hostHold := true
          pending := m.course.pending ++ [⟨courseNow s + 8, 4, false⟩] } }) s t ∧ Keeps [.tens, .counters, .fabric, .power] s t) ∧
      (st = .running → (s.ten n.val).course.pending.length < 16 → ∃ t c, exec (.blankReq n) s = .next t ∧ courseNow s + 9 ≤ c ∧
        pendingAt (s.ten n.val).course.pending c = none ∧
        becomes n.val (fun m => { m with course := { m.course with pending := m.course.pending ++ [⟨c, 3, false⟩] } }) s t ∧
        Keeps [.tens, .counters, .fabric, .power] s t) ∧
      (st ≠ .running → exec (.blankReq n) s = .next s)) ∧
    (tenOn s n = false → ∀ on : Bool, ∀ i ∈ [Instr.commit n, .unload n, .apply n, .hold n on, .blankReq n], exec i s = .next s)

/-! ### Registers -/

/-- 20 R527 to R529, R536, R538, 00 R9, R10, 18 R496: status bits clear where ones are written; the tally is sampled by each read; a 4-byte read of
a counter latches its high half for the read that follows; a longest wait is cleared by its read. A write changes the fields it may; one
to a register of the firmware is discarded and noted, and one that is misaligned or beyond its BAR is counted. FAB_CFG locks. -/
def Obligations.RegisterAccesses : Prop :=
  (∀ (fn : Fn) (s : State),
    (∀ mask : BitVec 64, s.board.safe = false → ∃ t, exec (.intStatusClear fn mask) s = .next t ∧
      (∀ k, t.intStatus k = if k = fn.val then s.intStatus k &&& ~~~mask else s.intStatus k) ∧ Keeps [.mgmt] s t) ∧
    (readable s fn.val = true →
      (∃ t, exec (.tallySnap fn) s = .next t ∧ t.mgmt.answer = s.time.tally ∧ t.mgmt.readUr = false ∧ find t.mgmt.latch fn.val = none ∧
        Keeps [.mgmt] s t) ∧
      (∀ off : BitVec 20, off.toNat % 8 = 0 → off.toNat < bar0Size fn.val → isCounter fn.val off.toNat = true → waitAt fn.val off.toNat = none →
        ∃ t u, exec (.counterLowRead fn off) s = .next t ∧ t.mgmt.answer = BitVec.ofNat 64 (bitsN (regRead s fn.val off.toNat) 31 0) ∧
          exec (.counterLowRead fn (off + 4)) t = .next u ∧ u.mgmt.answer = BitVec.ofNat 64 (bitsN (regRead s fn.val off.toNat) 63 32) ∧
          find u.mgmt.latch fn.val = none ∧ Keeps [.mgmt] s t ∧ Keeps [.mgmt] t u) ∧
      (∀ (arb : BitVec 6) (q : BitVec 4) (wide : Bool) (off : Nat), waitOff fn.val arb.toNat q.toNat = some off →
        ∃ t, exec (.arbWaitMax fn arb q wide) s = .next t ∧ t.counter off = 0 ∧
          t.mgmt.answer = (if wide then s.counter off else BitVec.ofNat 64 (bitsN (s.counter off) 31 0)) ∧
          (∀ o, o ≠ off → t.counter o = s.counter o) ∧ Keeps [.counters, .mgmt] s t)) ∧
    (∀ (off : BitVec 20) (bytes : BitVec 4) (v : BitVec 64), hostOn s fn.val = true → bytes = 4 ∨ bytes = 8 →
      off.toNat % bytes.toNat ≠ 0 ∨ bar0Size fn.val ≤ off.toNat →
      ∃ t, exec (.registerWrite fn false off bytes v false) s = .next t ∧
        counted s t (if fn = 0 then 0x7010 else tenOff (fn.val - 1) 0x2268) ∧ Keeps [.counters, .mgmt] s t) ∧
    (∀ (bar4 : Bool) (off : BitVec 20) (bytes : BitVec 4) (v : BitVec 64), hostOn s fn.val = false →
      exec (.registerWrite fn bar4 off bytes v false) s = .next s) ∧
    (∀ v : BitVec 64, hostOn s fn.val = true → ∃ t, exec (.registerWrite fn true 0x3028 8 v false) s = .next t ∧
      (boxOf t fn.val).thresh.toNat = min 8192 (bitsN v 13 0) ∧ Keeps [.mgmt] s t)) ∧
  (∀ (n : Ten) (v : BitVec 64) (s : State), hostOn s (n.val + 1) = true → s.tenExists n.val = true →
    ∃ t, exec (.registerWrite (Fin.ofNat 9 (n.val + 1)) false 0x48 8 v false) s = .next t ∧
      (t.ten n.val).load = { (s.ten n.val).load with list := ((s.ten n.val).load.list &&& ~~~0x03FF_FFFF_FFFF_FFFF#64) ||| (v &&& 0x03FF_FFFF_FFFF_FFFF) } ∧
      (∀ m, m ≠ n.val → t.ten m = s.ten m) ∧ Keeps [.tens, .mgmt] s t) ∧
  (∀ (off : BitVec 20) (v : BitVec 64) (s : State), off ∈ [0x1018#20, 0x1020, 0x1028, 0x2000, 0x2008, 0x3000] →
    (s.board.safe = false → ∃ t, exec (.registerWrite 0 false off 8 v false) s = .next t ∧
      t.mgmt.waiting = s.mgmt.waiting ++ [dayWord s.time.tally 0x01 0 15 0x7F 0 off.toNat v.toNat 0] ∧ Keeps [.mgmt] s t)) ∧
  (∀ (v : BitVec 64) (s : State), mgmtOn s = true → s.board.safe = false →
    ∃ t, exec (.registerWrite 0 false 0x3000 8 v true) s = .next t ∧
      t.power = { s.power with cap := (s.power.cap &&& ~~~0x7FF_FFFF#64) ||| (v &&& 0x7FF_FFFF) } ∧ Keeps [.power] s t) ∧
  fabCfgLocks

/-- 20 R533: DEV_ID reads as its part and stepping give. -/
def Obligations.DeviceId : Prop :=
  ∀ s : State, regRead s 0 0 =
    if s.ident.is64 then (if s.ident.isB0 then 0x4401_7064 else 0x4400_7064) else (if s.ident.isB0 then 0x3B81_7056 else 0x3B80_7056)

/-! ### The host's access to HBM, and its resets -/

/-- 19 R501 to R506, 12 R579: a read through BAR2 gives the bytes of the words as a reader decodes them, with EP where one is poisoned; a write puts its
bytes there and nowhere else; an access that leaves the share is refused whole and counted. A function's
reset leaves its tenancy EMPTY and its mailbox clear; a hot reset leaves every tenancy EMPTY and the PF's mailbox clear, and trains the
link again. -/
def Obligations.HostAccess : Prop :=
  (∀ (fn : Fn) (off : BitVec 36) (s : State), hostOn s fn.val = true →
    let at' (i : Nat) : Option (Nat × Nat) := aperture s fn.val (off.toNat + i)
    (∀ (len : BitVec 16) (data : List (BitVec 8)) (ep : Bool), (∀ i, i < len.toNat → (at' i).isSome = true) →
      ∃ t, exec (.hostHbmAccess fn off false len data ep) s = .next t ∧ t.mgmt.readUr = false ∧ t.mgmt.readBytes.length = len.toNat ∧
        (∀ i k b, i < len.toNat → at' i = some (k, b) → nth t.mgmt.readBytes 0 i = (readWord s .hbm k).data.extractLsb' (8 * b) 8) ∧
        (t.mgmt.readEp = true ↔ ∃ i k b, i < len.toNat ∧ at' i = some (k, b) ∧ isPoisoned (readWord s .hbm k) = true) ∧
        Touches [] (((upTo len.toNat).filterMap at').map (fun x => (Bank.hbm, x.1))) s t ∧
        Keeps [.words, .service, .tens, .counters, .mgmt, .power] s t) ∧
    (∀ (len : BitVec 16) (data : List (BitVec 8)), (∀ i, i < data.length → (at' i).isSome = true) →
      (fn = 0 ∨ bitB (look s.mgmt.apt 0 fn.val) 3 = false) → (∀ n, (s.ten n).escrow.gens = []) →
      ∃ t, exec (.hostHbmAccess fn off true len data false) s = .next t ∧
        (∀ i k b, i < data.length → at' i = some (k, b) → (rawWord t .hbm k).data.extractLsb' (8 * b) 8 = nth data 0 i) ∧
        (∀ k, (∀ i b, i < data.length → at' i ≠ some (k, b)) → rawWord t .hbm k = rawWord s .hbm k) ∧
        Keeps [.words, .service, .tens, .counters, .mgmt, .power] s t) ∧
    (∀ (len : BitVec 16) (data : List (BitVec 8)) (ep : Bool) (i : Nat), i < data.length → at' i = none →
      ∃ t, exec (.hostHbmAccess fn off true len data ep) s = .next t ∧ counted s t (if fn = 0 then 0x7010 else tenOff (fn.val - 1) 0x2268) ∧
        Keeps [.counters] s t)) ∧
  (∀ (n : Ten) (s : State), hostOn s (n.val + 1) = true →
    ∃ t, exec (.functionLevelReset (Fin.ofNat 9 (n.val + 1))) s = .next t ∧ (t.ten n.val).load.st = .empty ∧
      (boxOf t (n.val + 1)).reqTail = 0 ∧ (boxOf t (n.val + 1)).reqHead = 0 ∧ (boxOf t (n.val + 1)).rspTail = 0 ∧
      (boxOf t (n.val + 1)).rspHead = 0 ∧ (boxOf t (n.val + 1)).backlog = [] ∧ (∀ m, m ≠ n.val → (s.ten m).talks (t.ten m)) ∧
      Keeps [.cs, .desc, .mbox, .hall, .tags, .acc, .engines, .busy, .seqs, .reads, .idle, .merges, .service, .stores, .tens, .counters, .fabric, .mgmt, .power] s t) ∧
  (∀ s : State, ∃ t, exec .hotReset s = .next t ∧ t.board.pcieUp = false ∧ t.board.training = true ∧
    (∀ n, n < 8 → (t.ten n).load.st = .empty) ∧ (boxOf t 0).reqTail = 0 ∧ (boxOf t 0).rspTail = 0 ∧ (boxOf t 0).backlog = [] ∧
    Keeps [.cs, .desc, .mbox, .hall, .tags, .acc, .engines, .busy, .seqs, .reads, .idle, .merges, .service, .stores, .tens, .counters, .fabric, .mgmt, .power, .board] s t)

/-! ### Boot, reset and device errors -/

/-- What every stage of boot needs to pass (21 Table 21.8), but for the firmware slots. -/
def Sys2Proof.Claims.goodBoot (b : BootReadings) : Prop :=
  b.railsBad = 0 ∧ b.sysClock = true ∧ b.fabClock = true ∧ b.pcieClock = true ∧ b.calibration = true ∧ b.pmbusBad = 0 ∧ b.setpoint = true ∧
  b.d2dBad = 0 ∧ b.pllLock = true ∧ b.stackBad = 0 ∧ b.fabricStart = true ∧ b.tj.toNat < 440 ∧ bitsN b.straps 7 6 = 0

/-- 21 R548 to R570: a device reset leaves every store, counter and register as reset does, but what flash, fuses and pins keep (the model's
choice where the manual states no reset value: log entries 1 and 2). A boot whose readings are good comes to stage 0x0A with the stores
clear, the setpoint in its range and the PLL on its own reference; one that fails stops at its stage with its code. PERST_N starts link
training, and the link completes the boot. -/
def Obligations.BootAndReset : Prop :=
  ∀ s : State,
    (∃ t, exec .deviceReset s = .next t ∧ t.cores = {} ∧ t.hbm = {} ∧ t.stores = {} ∧ t.tens = [] ∧ t.spares = [] ∧ t.counters = [] ∧
      t.fabric = {} ∧ t.time = {} ∧ t.power = {} ∧ t.upsets = [] ∧ t.mgmt.ledger = s.mgmt.flash ∧ t.mgmt.flash = s.mgmt.flash ∧
      (∀ b, slotOf t b = slotOf s b) ∧ t.mgmt.mailboxes = [] ∧ t.board.por = false ∧ t.board.stage = 0 ∧ t.board.bootDone = false ∧
      t.board.classD = 0 ∧ t.board.safe = false ∧ t.pending = s.pending ∧ t.ident = s.ident) ∧
    (∀ b : BootReadings, s.board.por = true → exec (.boot b) s = .next s) ∧
    (∀ b : BootReadings, s.board.por = false →
      (goodBoot b → ∀ slot fell, bootSlot s = some (slot, fell) → ∃ t, exec (.boot b) s = .next t ∧ t.board.por = true ∧
        t.board.stage = 0x0A ∧ t.board.fail = 0 ∧ t.board.straps = b.straps ∧ t.board.training = s.board.perst ∧ t.mgmt.runSlot = slot ∧
        t.time.pll = .freeRun ∧ t.time.tally = 0 ∧ bitsN t.power.cap 10 0 = tdp s ∧ 620 ≤ t.power.vset.toNat ∧ t.power.vset.toNat ≤ 820 ∧
        t.cores = {} ∧ t.stores = {} ∧ t.hbm.words = [] ∧ t.tens = s.tens ∧ t.pending = s.pending ∧ t.ident = s.ident) ∧
      (b.railsBad ≠ 0 → ∃ t, exec (.boot b) s = .next t ∧ t.board.stage = 1 ∧ t.board.fail = 0x01 ∧ t.board.training = false ∧
        t.board.detail.toNat = lowBit b.railsBad ∧ Keeps [.time, .board] s t) ∧
      (goodBoot b → bootSlot s = none → ∃ t, exec (.boot b) s = .next t ∧ t.board.stage = 2 ∧ t.board.fail = 0x10 ∧ t.board.training = false ∧
        Keeps [.time, .board] s t) ∧
      (440 ≤ b.tj.toNat → goodBoot { b with tj := 0 } → (bootSlot s).isSome = true → ∃ t, exec (.boot b) s = .next t ∧ t.board.stage = 5 ∧
        t.board.fail = 0x24 ∧ t.board.trip = false ∧ t.board.training = false)) ∧
    (∃ t, exec .perstNRise s = .next t ∧ t.board.perst = true ∧
      t.board.training = (s.board.training || (decide (s.board.stage = 0x0A) && decide (s.board.fail = 0))) ∧ Keeps [.board] s t) ∧
    (s.board.training = true → ∃ t, exec .pcieLinkUp s = .next t ∧ t.board.pcieUp = true ∧ t.board.training = false ∧
      (s.board.stage = 0x0A → s.board.fail = 0 → t.board.stage = 0x0F ∧ t.board.bootDone = true ∧ t.hbm.passStart = s.now) ∧
      Keeps [.service, .fabric, .board] s t) ∧
    (s.board.training = false → exec .pcieLinkUp s = .next s) ∧
    (∀ slot fell, s.board.por = true → s.board.test = false → bootSlot s = some (slot, fell) →
      (s.board.bootDone = true → anyLoaded s = false → ∃ t, exec .mgmtRstN s = .next t ∧ t.mgmt.runSlot = slot ∧
        (∀ fn, (boxOf t fn).backlog = []) ∧ Keeps [.mgmt, .board] s t) ∧
      (∀ b, s.board.bootDone = false → s.board.readings = some b → goodBoot b → ∃ t, exec .mgmtRstN s = .next t ∧ t.board.stage = 0x0A ∧
        t.board.fail = 0 ∧ t.mgmt.runSlot = slot ∧ t.time.pll = .freeRun ∧ t.cores = {} ∧ t.hbm.words = []))

/-- A class D error of a kind has come (15 R407): it is counted, told to the PF and kept in the die ledger; every job of the device has ended or
ends, and with a second one before a reset the device is in its safe state, its ports down and its PLL stopped. -/
def Sys2Proof.Claims.deviceLost (kind : BitVec 8) (s t : State) : Prop :=
  t.board.classD = s.board.classD + 1 ∧ (t.intStatus 0).getLsbD 13 = true ∧ (kind, s.time.tally) ∈ t.mgmt.ledger.device ∧
  (∀ n ∈ tenancies s, (s.ten n).load.st = .running ∨ (s.ten n).load.st = .loaded →
    (t.ten n).load.st = .ended ∨ (t.ten n).recov.ending ≠ none ∧ (t.ten n).course.stopped = true) ∧
  (s.board.classD ≠ 0 → t.board.safe = true ∧ t.time.pll = .off ∧ ∀ p, (portOf t p).link = false) ∧
  Keeps [.desc, .tags, .engines, .busy, .seqs, .reads, .merges, .service, .tens, .counters, .fabric, .time, .mgmt, .power, .board] s t

/-- 01 R13, R22, 15 R407, 21 R561: a lost connection and a router fault are class D errors, and so is the loss of a rail of the compute die, which
stops the PLL. A rail of the management domain holds it in reset until no such rail is out; its return is a class D error too. -/
def Obligations.DeviceErrors : Prop :=
  ∀ s : State,
    (∀ d : Conn, ∃ t, exec (.connectionLoss d) s = .next t ∧ deviceLost 1 s t) ∧
    (∀ phys : BitVec 7, ∃ t, exec (.routerFault phys) s = .next t ∧ deviceLost 2 s t) ∧
    (∀ r : Rail, s.board.bootDone = true → ∃ t, exec (.brownOut r) s = .next t ∧
      (BitVec.ofNat 8 (0x10 + railNum r), s.time.tally) ∈ t.mgmt.ledger.device ∧
      (r ≠ .mgmt → r ≠ .io → deviceLost 1 s t ∧ t.time.pll = .off) ∧
      (r = .mgmt ∨ r = .io → r ∈ t.board.railsOut ∧ mgmtOn t = false ∧ Keeps [.mgmt, .board] s t)) ∧
    (∀ r : Rail, s.board.bootDone = false → exec (.brownOut r) s = .next s) ∧
    (∀ r : Rail, r ∈ s.board.railsOut →
      let left := s.board.railsOut.erase r
      (.mgmt ∉ left → .io ∉ left → ∃ t, exec (.railBackInRange r) s = .next t ∧ t.board.railsOut = left ∧ deviceLost 4 s t) ∧
      (.mgmt ∈ left ∨ .io ∈ left → ∃ t, exec (.railBackInRange r) s = .next t ∧ t.board.railsOut = left ∧ Keeps [.board] s t)) ∧
    (∀ r : Rail, r ∉ s.board.railsOut → exec (.railBackInRange r) s = .next s) ∧
    (s.board.por = true → s.board.test = false → s.board.bootDone = true → anyLoaded s = true →
      ∃ t, exec .mgmtRstN s = .next t ∧ deviceLost 4 s t)

/-- 21 R571, R572: the I3C target gives the register named and takes its dynamic address; the TAP's instructions select their data
registers, those that drive the pins only while POR_N is low; held in Test-Logic-Reset it does nothing. -/
def Obligations.BoardAccess : Prop :=
  ∀ s : State,
    (s.board.por = true → mgmtOn s = true →
      (∀ index : BitVec 8, ∃ t, exec (.i3cRead index) s = .next t ∧ t.board.i3cReg = index ∧
        (index = 0 → bits t.board.i3cData 7 0 = s.board.stage ∧ bits t.board.i3cData 15 8 = s.board.fail ∧
          bits t.board.i3cData 23 16 = s.board.detail ∧ bitB t.board.i3cData 24 = s.board.bootDone) ∧
        (index = 1 → t.board.i3cData = devId s) ∧ (index = 2 → t.board.i3cData = pwrStatus s) ∧ (index = 3 → t.board.i3cData = tlyStatus s) ∧
        Keeps [.board] s t) ∧
      (∀ a : BitVec 7, ∃ t, exec (.dynamicAddress a) s = .next t ∧ i3cAddress t = a ∧ Keeps [.board] s t)) ∧
    (s.board.jtag = true →
      let taps (i : Instr) (code : BitVec 3) (d : BitVec 32) : Prop := ∃ t, exec i s = .next t ∧ t.board.tapInstr = code ∧ t.board.tapData = d ∧
        t.board.boundary = s.board.boundary ∧ Keeps [.board] s t
      taps .bypass 1 0 ∧ taps .idcode 2 (idcode s) ∧
      (∀ pins, ∃ t, exec (.samplePreload pins) s = .next t ∧ t.board.tapInstr = 3 ∧ t.board.tapData = pins ∧ t.board.boundary = pins ∧ Keeps [.board] s t) ∧
      (s.board.por = false → taps .extest 4 s.board.boundary ∧ taps .clamp 5 0 ∧ taps .highz 6 0) ∧
      (s.board.por = true → ∀ i ∈ [Instr.extest, .clamp, .highz], taps i 1 0)) ∧
    (s.board.jtag = false → ∀ pins, ∀ i ∈ [Instr.bypass, .idcode, .samplePreload pins, .extest, .clamp, .highz], exec i s = .next s)

/-! ### The chip's own care -/

/-- 12 R327: a scrub pass that takes longer than 24 hours is noted once, with its hours, and counted; nothing else happens but that time
passes to it. -/
def Obligations.ScrubBehind : Prop :=
  ∀ s : State,
    (s.hbm.lateLog = true → exec .scrubBehind s = .next s) ∧
    (s.time.pll ≠ .off → s.hbm.lateLog = false → s.hbm.passStart + dayTicks + 1 < 2 ^ 64 → s.hbm.passStart ≤ s.now →
      ∃ t, exec .scrubBehind s = .next t ∧ t.now = max s.now (s.hbm.passStart + dayTicks + 1) ∧
        t.hbm = { s.hbm with lateLog := true, words := t.hbm.words, merges := t.hbm.merges } ∧ counted s t (chipOff 0x20) ∧
        (let w := dayWord t.time.tally 0x43 0 15 0x7F 0 ((t.now - s.hbm.passStart) / hourTicks) 0 0
         w ∈ t.mgmt.waiting.drop s.mgmt.waiting.length ∧
         (s.hbm.merges = [] → t.hbm.words = s.hbm.words ∧ t.mgmt = { s.mgmt with waiting := s.mgmt.waiting ++ [w] })) ∧
        (∀ n, (s.ten n).load = (t.ten n).load ∧ (s.ten n).recov = (t.ten n).recov) ∧ Keeps (.service :: timeViews) s t)

/-- 12 R316, 09 R225, Table 09.2: the next refresh hole of a course, if one is left in it, costs energy on each stack; the calibration
hole of a course whose number is 63 modulo 64 counts the stacks' own reports. Time passes to it; a hole that the course has had, or that
is over, is none. -/
def Sys2Proof.Claims.holesPass : Prop :=
  (∀ s : State, let hole := nextHole s [6, 19, 32, 45, 58] 1 s.hbm.refreshed
    (hole = none → exec .refreshHole s = .next s) ∧
    (∀ w, hole = some w → ∃ t, exec .refreshHole s = .next t ∧ t.hbm.refreshed = some w ∧ (256 * w < 2 ^ 64 → t.now = max s.now (256 * w)) ∧
      (s.hbm.merges = [] → ∀ st, st < 8 →
        look t.power.accounts 0 (stackOff st 0x28) = look s.power.accounts 0 (stackOff st 0x28) + eventEnergy s 14 1) ∧
      Keeps (.service :: timeViews) s t)) ∧
  (∀ (events : List (BitVec 16)) (s : State), events.length = 8 → let hole := nextHole s [61] 2 s.hbm.calibrated
    (courseNow s % 64 ≠ 63 ∨ hole = none → exec (.calibrationHole events) s = .next s) ∧
    (∀ w, courseNow s % 64 = 63 → hole = some w → ∃ t, exec (.calibrationHole events) s = .next t ∧ t.hbm.calibrated = some w ∧
      (256 * w < 2 ^ 64 → t.now = max s.now (256 * w)) ∧
      (∀ i (_ : i < events.length), t.counter (stackOff i 0x10) =
        BitVec.ofNat 64 (min counterMax ((s.counter (stackOff i 0x10)).toNat + events[i].toNat))) ∧ Keeps (.service :: timeViews) s t))

/-- 12 R316, R321, R323, R325, 18 R480, R485, R487: a scrub pass leaves every word of core store and HBM, those of idle cores among them, as a reader decodes it, and begins the next; the holes pass; daybook entries that are due enter the ring in order
with their readers; figures and events go to flash; an assay's result is kept, told to the PF and acted on. -/
def Obligations.CareOfTheChip : Prop :=
  (∀ s : State, ∃ t, exec .scrubPass s = .next t ∧ t.hbm.passStart = s.now ∧ t.hbm.lateLog = false ∧ counted s t (chipOff 0x18) ∧
    (∀ key, rawWord t .hbm key = (decodeWord (rawWord s .hbm key)).w) ∧
    (∀ (c : Core) (a : Nat), a < csWords → rawWord t (.cs c) a = (decodeWord (rawWord s (.cs c) a)).w) ∧
    t.hbm.seen = correctedKeys s.hbm.words ∧ t.hbm.seenCs = correctedKeys s.cores.cs ∧
    (∀ k b, (look t.cores.hall ⟨hallZero, .clean⟩ k).err ≠ .one b) ∧
    ((s.cores.idle.map (·.1)).Nodup → ∀ p, look t.cores.idle {} p = (look s.cores.idle {} p).scrubbed) ∧
    Keeps [.cs, .prog, .desc, .mbox, .hall, .idle, .words, .service, .tens, .counters, .fabric, .mgmt, .power] s t) ∧
  holesPass ∧
  (∀ s : State, (s.mgmt.waiting = [] → exec .daybookRelease s = .next s) ∧
    (s.mgmt.waiting ≠ [] → ∃ t, exec .daybookRelease s = .next t ∧
      (s.hbm.merges = [] → t.mgmt.waiting = s.mgmt.waiting.filter (fun x => decide (t.now < releaseAt x))) ∧
      (let due := (daySort s.mgmt.waiting).filter (fun x => decide (releaseAt x ≤ t.now))
       s.mgmt.ring.length + due.length ≤ 8191 → (∀ e ∈ s.mgmt.ring.getLast?, dayCode e.word ≠ 0x02) → (∀ w ∈ due, dayCode w ≠ 0x02) →
        t.mgmt.ring = s.mgmt.ring ++ due.map (fun w => ⟨w, readersOf s w⟩)) ∧
      (∀ w, (daySort s.mgmt.waiting).head? = some w → s.time.pll ≠ .off → releaseAt w < 2 ^ 64 → t.now = max s.now (releaseAt w)) ∧
      Keeps timeViews s t)) ∧
  (∀ s : State, rising 0 s.mgmt.ledger.figures = true → ∃ t, exec .ledgerSnapshot s = .next t ∧ t.mgmt.lastSnap = t.now ∧
    t.figure 1 0 = s.figure 1 0 + 1 ∧ look t.mgmt.flash.figures 0 (figKey 1 0) = s.figure 1 0 + 1 ∧
    (s.time.pll ≠ .off → s.mgmt.lastSnap + hourTicks < 2 ^ 64 → t.now = max s.now (s.mgmt.lastSnap + hourTicks)) ∧
    Keeps timeViews s t) ∧
  (∀ s : State, (eventsWait s = false → exec .ledgerEventWrite s = .next s) ∧
    (eventsWait s = true → ∃ t, exec .ledgerEventWrite s = .next t ∧
      t.mgmt.flash = { s.mgmt.ledger with figures := t.mgmt.flash.figures } ∧ t.mgmt.lastEvt = some t.now ∧
      (∀ v, s.mgmt.lastEvt = some v → s.time.pll ≠ .off → v + 60 * 1800000000 < 2 ^ 64 → t.now = max s.now (v + 60 * 1800000000)) ∧
      Keeps timeViews s t)) ∧
  (∀ (r : AssayResult) (s : State),
    let found := s.mgmt.running.find? (fun a => a.kind = r.kind && a.target = r.target)
    (found = none → exec (.assayComplete r) s = .next s) ∧
    (∀ a, found = some a → ∃ t, exec (.assayComplete r) s = .next t ∧
      t.mgmt.ledger.assays = ((s.mgmt.ledger.assays ++ [assayRecord s r]).reverse.take 64).reverse ∧ (t.intStatus 0).getLsbD 14 = true ∧
      (r.kind.toNat ≤ 1 → r.outcome = 1 → r.target.toNat ∈ t.mgmt.ledger.failed.map (·.1)) ∧
      (r.kind = 3 → r.outcome = 0 → (portOf t (Fin.ofNat 16 r.target.toNat)).failed = false) ∧
      (r.kind = 4 → r.outcome = 0 → t.power.recal = s.power.recal + 1 ∧ t.power.measured = false ∧ t.power.run = 0) ∧
      Keeps [.fabric, .mgmt, .power] s t))

/-! ### Power -/

/-- 17 R450 to R453, R468 to R470: a report of the monitors lowers the least slack seen and counts the monitors that had none. A trim moves the setpoint one
step, up below a slack of 8 and down from 14 on, inside its range; while jobs run it is wanted, and each job is given one blank for it. A
reconciliation compares estimate and measurement and gives a job that runs alone the whole of what the cap leaves. -/
def Obligations.PowerControl : Prop :=
  (∀ (slack : List (BitVec 6)) (s : State), ∃ t, exec (.cpmReport slack) s = .next t ∧
    (∀ x ∈ slack, t.power.sMin ≤ x) ∧ t.power.sMin ≤ s.power.sMin ∧ (t.power.sMin = s.power.sMin ∨ t.power.sMin ∈ slack) ∧
    (let k := (slack.filter (fun x => decide (x = 0))).length
     t.counter (chipOff 0xA8) = if k = 0 then s.counter (chipOff 0xA8) else BitVec.ofNat 64 (min counterMax ((s.counter (chipOff 0xA8)).toNat + k))) ∧
    Keeps [.counters, .mgmt, .power] s t) ∧
  (∀ s : State,
    let v := s.power.vset.toNat
    let m := s.power.sMin.toNat
    (trimFree s = true → ∃ t, exec .trim s = .next t ∧
      t.power.vset.toNat = (if m < 8 ∧ v + 5 ≤ 820 then v + 5 else if 14 ≤ m ∧ setFloor + 5 ≤ v then v - 5 else v) ∧
      t.power.sMin = 63 ∧ t.power.lastTrim = s.now ∧ t.power.trimDue = false ∧
      t.power.margin = (s.power.margin || (decide (m < 8) && decide (820 < v + 5))) ∧ Keeps [.counters, .mgmt, .power] s t) ∧
    (trimFree s = false → s.power.trimDue = true → exec .trim s = .next s) ∧
    (trimFree s = false → s.power.trimDue = false → ∃ t, exec .trim s = .next t ∧ t.power.trimDue = true ∧
      (∀ n ∈ runningTens s, (s.ten n).course.pending.length < 16 → ∃ c, courseNow s + 9 ≤ c ∧ pendingAt (s.ten n).course.pending c = none ∧
        (t.ten n).course.pending = (s.ten n).course.pending ++ [⟨c, 1, true⟩]) ∧ Keeps [.tens, .counters, .fabric, .mgmt, .power] s t)) ∧
  (∀ (measured : BitVec 48) (s : State),
    let m := measured.toNat
    let est := windowNJ s 0x4080 s.power.lastChip
    let un := windowNJ s 0x4090 s.power.lastUnown
    let run := if 15 * m < 100 * (max est m - min est m) then min 16 (s.power.run.toNat + 1) else 0
    let left := 10 * bitsN s.power.cap 10 0 - un / 100000
    ∃ t, exec (.reconcile measured) s = .next t ∧ t.power.rho = (m, est) ∧ t.power.run.toNat = run ∧
      (run = 16 → s.power.run.toNat < 16 → t.power.measured = true) ∧
      (bitsN s.power.cap 10 0 * 105 * 10000 < m → t.power.penalty = 16 ∧ counted s t (chipOff 0x98)) ∧
      (∀ n, runningTens s = [n] → (s.ten n).weight ≠ 0 → (t.ten n).grant = BitVec.ofNat 16 (min 65535 left) ∧ (t.ten n).share = (t.ten n).grant) ∧
      (∀ n ∈ tenancies s, s.running n = false → (t.ten n).grant = 0) ∧
      Keeps [.service, .tens, .counters, .fabric, .mgmt, .power] s t)

/-! ### Course boundaries -/

/-- A job's tenancy is the chip's only one, with nothing due at the boundary but its course: no error, recovery, hold, swap or trim, no
grant to hold it to, no heat, and no request to HBM on its way. -/
def Sys2Proof.Claims.quiet (n : Nat) (tp : Temps) (s : State) : Prop :=
  tenancies s = [n] ∧ (s.ten n).course.inCourse = false ∧ (s.ten n).course.blank = none ∧ (s.ten n).course.stopped = false ∧
  (s.ten n).course.pending.length < 16 ∧ (s.ten n).course.lag = 0 ∧ (s.ten n).course.swap = none ∧ (s.ten n).course.force = none ∧ (s.ten n).course.hostHold = false ∧
  (s.ten n).recov.ending = none ∧ (s.ten n).recov.preempt = none ∧ (s.ten n).recov.stopGot = none ∧ (s.ten n).recov.st = 0 ∧
  (s.ten n).recov.queue = [] ∧ s.hbm.reqs = [] ∧ s.hbm.later = [] ∧ (s.ten n).close.cut = false ∧ (s.ten n).close.due = false ∧ (s.ten n).grant = 0 ∧
  tp.tj.toNat < 360 ∧ s.power.thermStep = 0 ∧ s.power.stackHot = [] ∧ ∀ x ∈ tp.hbm, x.toNat < 400

/-- 09 R219 to R222, R241, R242, 10 R276, 17 R463: a boundary takes the tally to the next multiple of 16,384, unless it stands at one not yet run, and
the course's temperatures. There a job's pending course is a blank; any other is its schedule's next course, with the entry's tag in
force and every sequencer at bundle 0 of its page; and a job whose launch course it is runs. Without a clock nothing happens. -/
def Obligations.CourseBoundaries : Prop :=
  ∀ (tp : Temps) (s : State),
    (s.time.pll = .off → exec (.courseBoundary tp) s = .next s) ∧
    (s.time.pll ≠ .off → (courseNow s + 1) * 16384 < 2 ^ 64 →
      let here := match s.time.lastCourse with
        | none => decide (s.now % 16384 = 0)
        | some k => decide (k < courseNow s)
      let c := if here then courseNow s else courseNow s + 1
      let at' (post : State → Prop) : Prop := ∃ t, exec (.courseBoundary tp) s = .next t ∧ post t ∧ t.time.lastCourse = some c ∧
        t.now = (if here then s.now else c * 16384) ∧ t.power.tj = tp.tj ∧
        Keeps [.cs, .desc, .purse, .mbox, .hall, .tags, .acc, .engines, .busy, .seqs, .reads, .idle, .merges, .words, .service, .stores, .tens,
          .spares, .counters, .fabric, .time, .mgmt, .power, .board] s t
      at' (fun _ => True) ∧
      (∀ n : Ten, quiet n.val tp s →
        ((s.ten n.val).load.st = .running → ∀ b, pendingAt (s.ten n.val).course.pending c = some b → c ∉ (s.ten n.val).course.consumed →
          at' (fun t => (t.ten n.val).course.blank = some b.cause ∧ (t.ten n.val).course.inCourse = false ∧ (t.ten n.val).course.phase = 0xFFFF ∧
            (t.ten n.val).course.pos = (s.ten n.val).course.pos ∧
            (∀ k, seqOf t k = seqOf s k ∨ seqOf t k = { seqOf s k with len := 0 }) ∧ counted s t (tenOff n.val 0x2018))) ∧
        ((s.ten n.val).load.st = .running → pendingAt (s.ten n.val).course.pending c = none →
          let p := (aheadOf s n.val).next s n.val
          let w := entryWord s n.val p.entry
          opens s n.val p.entry = none → (∀ k ∈ jobCores s n.val, pageTag s k (entPage w) = entTag w) →
          at' (fun t => (t.ten n.val).course.inCourse = true ∧ (t.ten n.val).course.blank = none ∧ (t.ten n.val).course.start = t.now ∧
            (t.ten n.val).course.s = 0 ∧ (t.ten n.val).course.pos = p ∧ (t.ten n.val).course.phase = entPhase w ∧
            (t.ten n.val).course.stopped = false ∧
            ∀ k ∈ jobCores s n.val, (seqOf t k).page = entPage w ∧ (seqOf t k).bundle = 0 ∧ (seqOf t k).ended = false ∧ (seqOf t k).loops = [] ∧
              unitClock t k = unitClock s k)) ∧
        ((s.ten n.val).load.st = .loaded → (s.ten n.val).launch.ready = true → (s.ten n.val).launch.course = some c →
          at' (fun t => (t.ten n.val).load.st = .running ∧ (t.ten n.val).launch = (s.ten n.val).launch ∧ (t.intStatus 0).getLsbD 12 = true ∧
            (t.intStatus (n.val + 1)).getLsbD 12 = true))))
end

