-- ==== Sys2Proof/Laws/Memory.lean ====
section
/-! SUPPORT. Sparse stores and memories: read after write, and the canonical form kept by every operation on them. -/

namespace Sys2Proof.Machine

open Sys2Proof

variable {α : Type}

/-! ### Reading -/

@[simp] theorem memNil_wf : Memory.wf [] = true := rfl

@[simp] theorem hbmNil_wf : Hbm.wf [] = true := rfl

@[simp] theorem find_nil (k : Nat) : find ([] : Sparse α) k = none := rfl

theorem find_set (m : Sparse α) (k : Nat) (v : α) : find (set m k v) k = some v := by
  induction m with
  | nil => simp [set, find]
  | cons e r ih =>
    obtain ⟨a, w⟩ := e
    simp only [set]
    split
    · simp [find]
    · split
      · simp [find]
      · rename_i h
        simp [find, ih, Ne.symm h]

theorem find_set_ne (m : Sparse α) {k j : Nat} (v : α) (h : j ≠ k) : find (set m k v) j = find m j := by
  induction m with
  | nil => simp [set, find, h.symm]
  | cons e r ih =>
    obtain ⟨a, w⟩ := e
    simp only [set]
    split
    · simp [find, h.symm]
    · split
      · subst_vars
        simp [find, h.symm]
      · simp [find, ih]

theorem find_del_ne (m : Sparse α) {k j : Nat} (h : j ≠ k) : find (del m k) j = find m j := by
  unfold del
  induction m with
  | nil => rfl
  | cons e r ih =>
    obtain ⟨a, w⟩ := e
    rw [List.filter_cons]
    by_cases hk : a = k
    · subst hk
      rw [if_neg (by simp), ih]
      simp [find, h.symm]
    · rw [if_pos (by simp [hk])]
      simp only [find, ih]

@[simp] theorem find_del (m : Sparse α) (k : Nat) : find (del m k) k = none := by
  unfold del
  induction m with
  | nil => rfl
  | cons e r ih =>
    obtain ⟨a, w⟩ := e
    rw [List.filter_cons]
    by_cases hk : a = k
    · subst hk
      rw [if_neg (by simp), ih]
    · rw [if_pos (by simp [hk])]
      simp only [find, ih, if_neg hk]

theorem look_put_ne [DecidableEq α] (d : α) (m : Sparse α) {k j : Nat} (v : α) (h : j ≠ k) : look (put d m k v) d j = look m d j := by
  unfold look put
  split <;> simp [find_del_ne, find_set_ne, h]

@[simp] theorem look_put [DecidableEq α] (d : α) (m : Sparse α) (k : Nat) (v : α) : look (put d m k v) d k = v := by
  unfold look put
  split
  · simp [*]
  · simp [find_set]

/-- What a write leaves at every key. -/
theorem look_put_eq [DecidableEq α] (d : α) (m : Sparse α) (k j : Nat) (v : α) :
    look (put d m k v) d j = if j = k then v else look m d j := by
  split
  · subst_vars; exact look_put d m _ v
  · exact look_put_ne d m v (by assumption)

@[simp] theorem look_set (d : α) (m : Sparse α) (k : Nat) (v : α) : look (set m k v) d k = v := by simp [look, find_set]

theorem look_set_ne (d : α) (m : Sparse α) {k j : Nat} (v : α) (h : j ≠ k) : look (set m k v) d j = look m d j := by
  simp [look, find_set_ne _ _ h]

/-! ### Rising keys -/

theorem rising_mono {lo lo' : Nat} {m : Sparse α} (h : rising lo m = true) (hl : lo' ≤ lo) : rising lo' m = true := by
  cases m with
  | nil => rfl
  | cons e r =>
    simp only [rising, Bool.and_eq_true, decide_eq_true_eq] at h ⊢
    exact ⟨by omega, h.2⟩

theorem rising_find_lt {lo k : Nat} {m : Sparse α} (h : rising lo m = true) (hk : k < lo) : find m k = none := by
  induction m generalizing lo with
  | nil => rfl
  | cons e r ih =>
    obtain ⟨a, w⟩ := e
    simp only [rising, Bool.and_eq_true, decide_eq_true_eq] at h
    simp only [find]
    rw [if_neg (by omega)]
    exact ih h.2 (by omega)

theorem rising_set {lo k : Nat} {m : Sparse α} (v : α) (h : rising lo m = true) (hk : lo ≤ k) : rising lo (set m k v) = true := by
  induction m generalizing lo with
  | nil => simp [set, rising, hk]
  | cons e r ih =>
    obtain ⟨a, w⟩ := e
    simp only [rising, Bool.and_eq_true, decide_eq_true_eq] at h
    simp only [set]
    split
    · simp only [rising, Bool.and_eq_true, decide_eq_true_eq]
      exact ⟨hk, by omega, h.2⟩
    · split
      · simp only [rising, Bool.and_eq_true, decide_eq_true_eq]
        exact ⟨hk, by subst_vars; exact h.2⟩
      · simp only [rising, Bool.and_eq_true, decide_eq_true_eq]
        exact ⟨h.1, ih h.2 (by omega)⟩

theorem rising_filter {lo : Nat} {m : Sparse α} (p : Nat × α → Bool) (h : rising lo m = true) : rising lo (m.filter p) = true := by
  induction m generalizing lo with
  | nil => rfl
  | cons e r ih =>
    obtain ⟨a, w⟩ := e
    simp only [rising, Bool.and_eq_true, decide_eq_true_eq] at h
    rw [List.filter_cons]
    split
    · simp only [rising, Bool.and_eq_true, decide_eq_true_eq]
      exact ⟨h.1, ih h.2⟩
    · exact rising_mono (ih h.2) (by omega)

theorem rising_part {lo n i : Nat} {m : Sparse α} (h : rising lo m = true) : rising (lo - n * i) (partAt m n i) = true := by
  unfold partAt
  induction m generalizing lo with
  | nil => rfl
  | cons e r ih =>
    obtain ⟨a, w⟩ := e
    simp only [rising, Bool.and_eq_true, decide_eq_true_eq] at h
    rw [List.filter_cons]
    split
    · rename_i hi
      simp only [decide_eq_true_eq] at hi
      have hm : a % n = a - n * i := by
        have := Nat.div_add_mod a n
        rw [hi] at this
        omega
      have hge : n * i ≤ a := hi ▸ Nat.mul_div_le a n
      simp only [List.map_cons, rising, Bool.and_eq_true, decide_eq_true_eq]
      refine ⟨by omega, ?_⟩
      have := ih h.2
      rwa [show a + 1 - n * i = a % n + 1 by omega] at this
    · exact rising_mono (ih h.2) (by omega)

theorem rising_del {lo k : Nat} {m : Sparse α} (h : rising lo m = true) : rising lo (del m k) = true := rising_filter _ h

/-! ### Entries -/

theorem mem_set {m : Sparse α} {k : Nat} {v : α} {e : Nat × α} (h : e ∈ set m k v) : e = (k, v) ∨ e ∈ m := by
  induction m with
  | nil => simpa [set] using h
  | cons x r ih =>
    obtain ⟨a, w⟩ := x
    simp only [set] at h
    split at h
    · simpa using h
    · split at h
      · rcases List.mem_cons.1 h with h | h
        · exact .inl h
        · exact .inr (List.mem_cons_of_mem _ h)
      · rcases List.mem_cons.1 h with h | h
        · exact .inr (h ▸ List.mem_cons_self)
        · exact (ih h).imp_right (List.mem_cons_of_mem _)

theorem find_mem {m : Sparse α} {k : Nat} {v : α} (h : find m k = some v) : (k, v) ∈ m := by
  induction m with
  | nil => cases h
  | cons x r ih =>
    obtain ⟨a, w⟩ := x
    simp only [find] at h
    split at h
    · subst_vars
      cases h
      exact List.mem_cons_self
    · exact List.mem_cons_of_mem _ (ih h)

theorem mem_del {m : Sparse α} {k : Nat} {e : Nat × α} (h : e ∈ del m k) : e ∈ m := List.mem_of_mem_filter h

/-! ### The canonical form -/

theorem canonical_put [DecidableEq α] {d : α} {m : Sparse α} (k : Nat) (v : α) (h : canonical d m = true) : canonical d (put d m k v) = true := by
  simp only [canonical, Bool.and_eq_true, List.all_eq_true, decide_eq_true_eq] at h ⊢
  unfold put
  split
  · exact ⟨rising_del h.1, fun e he => h.2 e (mem_del he)⟩
  · refine ⟨rising_set v h.1 (Nat.zero_le _), fun e he => ?_⟩
    rcases mem_set he with rfl | he
    · assumption
    · exact h.2 e he

theorem canonical_filter [DecidableEq α] {d : α} {m : Sparse α} (p : Nat × α → Bool) (h : canonical d m = true) :
    canonical d (m.filter p) = true := by
  simp only [canonical, Bool.and_eq_true, List.all_eq_true, decide_eq_true_eq] at h ⊢
  exact ⟨rising_filter p h.1, fun e he => h.2 e (List.mem_of_mem_filter he)⟩

theorem partAt_wf {m : Mem} (n i : Nat) (h : Memory.wf m = true) : Memory.wf (partAt m n i) = true := by
  simp only [Memory.wf, canonical, Bool.and_eq_true, List.all_eq_true, decide_eq_true_eq] at h ⊢
  refine ⟨rising_mono (rising_part h.1) (Nat.zero_le _), fun e he => ?_⟩
  obtain ⟨x, hx, rfl⟩ := List.mem_map.1 he
  exact h.2 x (List.mem_of_mem_filter hx)

theorem mem_put [DecidableEq α] {d : α} {m : Sparse α} {k : Nat} {v : α} {e : Nat × α} (h : e ∈ put d m k v) : e = (k, v) ∨ e ∈ m := by
  unfold put at h
  split at h
  · exact .inr (mem_del h)
  · exact mem_set h

theorem memPut_wf {m : Mem} (k : Nat) (w : MemWord) (h : Memory.wf m = true) : Memory.wf (memPut m k w) = true := canonical_put k w h

theorem memPuts_wf {m : Mem} (a : Nat) (ws : List MemWord) (h : Memory.wf m = true) : Memory.wf (memPuts m a ws) = true := by
  unfold memPuts
  suffices ∀ p : Mem × Nat, Memory.wf p.1 = true → Memory.wf (ws.foldl (fun (p : Mem × Nat) w => (memPut p.1 p.2 w, p.2 + 1)) p).1 = true from
    this (m, a) h
  induction ws with
  | nil => exact fun p hp => hp
  | cons w r ih => exact fun p hp => ih _ (memPut_wf _ _ hp)

theorem memClear_wf {m : Mem} (lo n : Nat) (h : Memory.wf m = true) : Memory.wf (clearRange m lo n) = true := canonical_filter _ h

theorem memFilter_wf {m : Mem} (p : Nat × MemWord → Bool) (h : Memory.wf m = true) : Memory.wf (m.filter p) = true := canonical_filter p h

theorem hbmPut_wf {m : Mem} (k : Nat) (w : MemWord) (h : Hbm.wf m = true) : Hbm.wf (hbmPut m k w) = true := by
  simp only [Hbm.wf, hbmPut, Bool.and_eq_true, List.all_eq_true, decide_eq_true_eq] at h ⊢
  unfold put
  split
  · exact ⟨rising_del h.1, fun e he => h.2 e (mem_del he)⟩
  · refine ⟨rising_set w h.1 (Nat.zero_le _), fun e he => ?_⟩
    rcases mem_set he with rfl | he
    · assumption
    · exact h.2 e he

theorem hbmFilter_wf {m : Mem} (p : Nat × MemWord → Bool) (h : Hbm.wf m = true) : Hbm.wf (m.filter p) = true := by
  simp only [Hbm.wf, Bool.and_eq_true, List.all_eq_true, decide_eq_true_eq] at h ⊢
  exact ⟨rising_filter p h.1, fun e he => h.2 e (List.mem_of_mem_filter he)⟩

theorem hbmClear_wf {m : Mem} (lo n : Nat) (h : Hbm.wf m = true) : Hbm.wf (clearRange m lo n) = true := hbmFilter_wf _ h

/-- A read of the address written gives the word written; every other address reads as before. -/
theorem memGet_memPut (m : Mem) (k j : Nat) (w : MemWord) : memGet (memPut m k w) j = if j = k then w else memGet m j :=
  look_put_eq _ m k j w

theorem hbmGet_hbmPut (m : Mem) (k j : Nat) (w : MemWord) : hbmGet (hbmPut m k w) j = if j = k then w else hbmGet m j := by
  unfold hbmGet hbmPut
  split
  · subst_vars
    exact look_put _ m _ w
  · rename_i hj
    unfold look put
    split <;> simp [find_del_ne, find_set_ne, hj]

end Sys2Proof.Machine
end

