-- ==== Sys2Proof/Laws/Keeps.lean ====
section
/-! SUPPORT. The relation Keeps: reflexive, transitive, monotone, through folds and choices, and for one record update. -/

namespace Sys2Proof.Machine

open Sys2Proof

theorem View.same_refl (v : View) (s : State) : v.same s s := by
  cases v <;> simp [View.same, View.sameCores, View.sameHbm]

theorem View.same_trans {v : View} {s t u : State} (h : v.same s t) (k : v.same t u) : v.same s u := by
  cases v <;> simp_all [View.same, View.sameCores, View.sameHbm]

theorem Keeps.refl (vs : List View) (s : State) : Keeps vs s s := ⟨rfl, rfl, id, fun v _ => v.same_refl s⟩

theorem Keeps.trans {vs : List View} {s t u : State} (h : Keeps vs s t) (k : Keeps vs t u) : Keeps vs s u :=
  ⟨k.pending.trans h.pending, k.ident.trans h.ident, fun w => k.wf (h.wf w), fun v hv => View.same_trans (h.same v hv) (k.same v hv)⟩

theorem Keeps.mono {vs ws : List View} {s t : State} (h : Keeps vs s t) (hs : vs ⊆ ws) : Keeps ws s t :=
  ⟨h.pending, h.ident, h.wf, fun v hv => h.same v (fun k => hv (hs k))⟩

/-- A change of the parts `ws`, after one of the parts `vs` that cover them. -/
theorem Keeps.then {vs ws : List View} {s t u : State} (h : Keeps vs s t) (hs : ws ⊆ vs) (k : Keeps ws t u) : Keeps vs s u :=
  h.trans (k.mono hs)

theorem Keeps.foldl {α : Type} {vs : List View} {s t : State} {l : List α} {f : State → α → State} (h : Keeps vs s t)
    (hf : ∀ u a, Keeps vs s u → Keeps vs s (f u a)) : Keeps vs s (l.foldl f t) := by
  induction l generalizing t with
  | nil => exact h
  | cons a r ih => exact ih (hf t a h)

theorem Keeps.foldlFst {α β : Type} {vs : List View} {s : State} {p : State × β} {l : List α} {f : State × β → α → State × β}
    (h : Keeps vs s p.1) (hf : ∀ u a, Keeps vs s u.1 → Keeps vs s (f u a).1) : Keeps vs s (l.foldl f p).1 := by
  induction l generalizing p with
  | nil => exact h
  | cons a r ih => exact ih (hf p a h)

theorem Keeps.ite {vs : List View} {s a b : State} {c : Prop} [Decidable c] (ha : Keeps vs s a) (hb : Keeps vs s b) :
    Keeps vs s (if c then a else b) := by
  split <;> assumption

/-- What a change of the cores may do within the parts `vs`. -/
def CoresOk (vs : List View) (a b : Cores) : Prop :=
  (Memory.wf a.cs = true → Memory.wf b.cs = true) ∧ (Memory.wf a.mbox = true → Memory.wf b.mbox = true)
  ∧ (Memory.wf a.prog = true → Memory.wf b.prog = true) ∧ (a.wf → ∀ x ∈ b.idle, x.2.wf)
  ∧ (b.cs = a.cs ∨ .cs ∈ vs) ∧ (b.prog = a.prog ∨ .prog ∈ vs) ∧ (b.desc = a.desc ∧ b.descWas = a.descWas ∨ .desc ∈ vs) ∧ (b.purse = a.purse ∨ .purse ∈ vs)
  ∧ (b.mbox = a.mbox ∨ .mbox ∈ vs) ∧ (b.hall = a.hall ∧ b.mhall = a.mhall ∨ .hall ∈ vs) ∧ (b.tags = a.tags ∧ b.fills = a.fills ∨ .tags ∈ vs)
  ∧ (b.acc = a.acc ∧ b.bind = a.bind ∨ .acc ∈ vs) ∧ (b.engines = a.engines ∨ .engines ∈ vs)
  ∧ (b.bcast = a.bcast ∧ b.pairs = a.pairs ∧ b.vxBusy = a.vxBusy ∧ b.rwBusy = a.rwBusy ∧ b.chBusy = a.chBusy
      ∧ b.links = a.links ∧ b.guard = a.guard ∧ b.ports = a.ports ∧ b.quants = a.quants ∨ .busy ∈ vs)
  ∧ (b.seqs = a.seqs ∨ .seqs ∈ vs) ∧ (b.reads = a.reads ∨ .reads ∈ vs)
  ∧ (b.idle = a.idle ∨ .idle ∈ vs) ∧ (b.merges = a.merges ∨ .merges ∈ vs)

/-- What a change of the HBM service may do within the parts `vs`. -/
def HbmOk (vs : List View) (a b : Hbm) : Prop :=
  (Hbm.wf a.words = true → Hbm.wf b.words = true) ∧ (b.words = a.words ∨ .words ∈ vs)
  ∧ (({ b with words := [], merges := [] } : Hbm) = { a with words := [], merges := [] } ∨ .service ∈ vs) ∧ (b.merges = a.merges ∨ .merges ∈ vs)

/-- The stores of idle cores alone change, to others in canonical form. -/
theorem coresOk_idle {vs : List View} {a : Cores} {i : Sparse SpareStores} (h : a.wf → ∀ x ∈ i, x.2.wf) (hm : View.idle ∈ vs := by decide) :
    CoresOk vs a { a with idle := i } := by
  simp only [CoresOk, hm, true_or, or_true, and_true, and_self]
  exact ⟨id, id, id, h⟩

/-- Any record update within the parts `vs`. -/
theorem Keeps.upd {vs : List View} {s t : State} {p : List Instr} {i : Ident} {c : Cores} {h : Hbm} {st : Stores} {te : Sparse Tenancy}
    {sp : Sparse (BitVec 9)} {co : Sparse (BitVec 64)} {f : Fabric} {ti : Time} {mg : Mgmt} {po : Power} {bo : Board} {up : List Upset} {fr : Nat}
    (k : Keeps vs s t) (hp : p = t.pending) (hi : i = t.ident) (hc : c = t.cores ∨ CoresOk vs t.cores c) (hh : h = t.hbm ∨ HbmOk vs t.hbm h)
    (hst : st = t.stores ∨ .stores ∈ vs) (hte : te = t.tens ∨ .tens ∈ vs) (hsp : sp = t.spares ∨ .spares ∈ vs)
    (hco : co = t.counters ∨ .counters ∈ vs) (hf : f = t.fabric ∨ .fabric ∈ vs) (hti : ti = t.time ∨ .time ∈ vs)
    (hmg : mg = t.mgmt ∨ .mgmt ∈ vs) (hpo : po = t.power ∨ .power ∈ vs) (hbo : bo = t.board ∨ .board ∈ vs)
    (hup : up = t.upsets ∨ .upsets ∈ vs) (hfr : fr = t.fresh ∨ .fresh ∈ vs) :
    Keeps vs s ⟨p, i, c, h, st, te, sp, co, f, ti, mg, po, bo, up, fr⟩ := by
  have hc' : CoresOk vs t.cores c := by
    rcases hc with rfl | hc
    · simp +contextual [CoresOk, Cores.wf]
    · exact hc
  have hh' : HbmOk vs t.hbm h := by
    rcases hh with rfl | hh
    · simp [HbmOk]
    · exact hh
  subst hp hi
  refine k.trans ⟨rfl, rfl, ?_, ?_⟩
  · rintro ⟨⟨w1, w2, w3, w4⟩, w5⟩
    exact ⟨⟨hc'.1 w1, hc'.2.1 w2, hc'.2.2.1 w3, hc'.2.2.2.1 ⟨w1, w2, w3, w4⟩⟩, hh'.1 w5⟩
  · obtain ⟨-, -, -, -, hc'⟩ := hc'
    obtain ⟨-, hh'⟩ := hh'
    intro v hv
    cases v <;> simp_all [View.same, View.sameCores, View.sameHbm]

end Sys2Proof.Machine
end

