-- ==== Sys2Proof/Laws/ResKeeps.lean ====
section
/-! SUPPORT. Keeps for the outcome of an operation: the state it leaves, or the one a fault leaves after part of the work. -/

namespace Sys2Proof.Machine

open Sys2Proof

/-- Whatever state an operation answers keeps all but `vs`. -/
def KeepsR (vs : List View) (s : State) (r : Res State) : Prop :=
  ∀ t, (r = .ok t ∨ ∃ c d, r = .error (.after t c d)) → Keeps vs s t

/-- A check never leaves a state. -/
def NoAfter {α : Type} (x : Res α) : Prop := ∀ t c d, x ≠ .error (.after t c d)

theorem KeepsR.then {vs ws : List View} {s t : State} {r : Res State} (h : Keeps vs s t) (hs : ws ⊆ vs) (k : KeepsR ws t r) : KeepsR vs s r :=
  fun u hu => h.then hs (k u hu)

theorem KeepsR.ok {vs : List View} {s t : State} (h : Keeps vs s t) : KeepsR vs s (Except.ok t) := by
  rintro u (hu | ⟨c, d, hu⟩)
  · cases hu; exact h
  · cases hu

theorem KeepsR.pure {vs : List View} {s t : State} (h : Keeps vs s t) : KeepsR vs s (Pure.pure t) := KeepsR.ok h

theorem KeepsR.after {vs : List View} {s t : State} {c d : Nat} (h : Keeps vs s t) : KeepsR vs s (Except.error (.after t c d)) := by
  rintro u (hu | ⟨c, d, hu⟩)
  · cases hu
  · cases hu; exact h

theorem KeepsR.throwAfter {vs : List View} {s t : State} {c d : Nat} (h : Keeps vs s t) : KeepsR vs s (throw (.after t c d)) := KeepsR.after h

theorem KeepsR.fault {vs : List View} {s : State} {c d : Nat} : KeepsR vs s (Except.error (.fault c d)) := by
  rintro u (hu | ⟨c, d, hu⟩) <;> cases hu

theorem KeepsR.poison {vs : List View} {s : State} {u k a : Nat} : KeepsR vs s (Except.error (.poison u k a)) := by
  rintro u (hu | ⟨c, d, hu⟩) <;> cases hu

theorem Keeps.getFst {α : Type} {vs : List View} {s t : State} {x : State × α} {b : α} (h : x = (t, b)) (k : Keeps vs s x.1) : Keeps vs s t := by
  cases h
  exact k

theorem KeepsR.getOk {vs : List View} {s t : State} {r : Res State} (h : r = .ok t) (k : KeepsR vs s r) : Keeps vs s t := k t (.inl h)

theorem KeepsR.getAfter {vs : List View} {s t : State} {r : Res State} {c d : Nat} (h : r = .error (.after t c d)) (k : KeepsR vs s r) :
    Keeps vs s t := k t (.inr ⟨c, d, h⟩)

theorem KeepsR.throwFault {vs : List View} {s : State} {c d : Nat} : KeepsR vs s (throw (.fault c d)) := KeepsR.fault

theorem KeepsR.bind {α : Type} {vs : List View} {s : State} {x : Res α} {f : α → Res State} (hx : NoAfter x)
    (hf : ∀ a, KeepsR vs s (f a)) : KeepsR vs s (x >>= f) := by
  cases x with
  | ok a => exact hf a
  | error e =>
    rintro u (hu | ⟨c, d, hu⟩)
    · cases hu
    · cases hu
      exact absurd rfl (hx _ _ _)

theorem KeepsR.bindS {vs : List View} {s : State} {x : Res State} {f : State → Res State} (hx : KeepsR vs s x)
    (hf : ∀ t, Keeps vs s t → KeepsR vs s (f t)) : KeepsR vs s (x >>= f) := by
  cases x with
  | ok a => exact hf a (hx a (.inl rfl))
  | error e =>
    rintro u (hu | ⟨c, d, hu⟩)
    · cases hu
    · cases hu
      exact hx _ (.inr ⟨_, _, rfl⟩)

theorem KeepsR.ite {vs : List View} {s : State} {a b : Res State} {c : Prop} [Decidable c] (ha : KeepsR vs s a) (hb : KeepsR vs s b) :
    KeepsR vs s (if c then a else b) := by
  split <;> assumption

/-! ### Checks -/

theorem NoAfter.ok {α : Type} {a : α} : NoAfter (Except.ok a : Res α) := fun _ _ _ h => by cases h
theorem NoAfter.pure {α : Type} {a : α} : NoAfter (Pure.pure a : Res α) := NoAfter.ok
theorem NoAfter.fault {α : Type} {c d : Nat} : NoAfter (Except.error (.fault c d) : Res α) := fun _ _ _ h => by cases h
theorem NoAfter.throwFault {α : Type} {c d : Nat} : NoAfter (throw (.fault c d) : Res α) := NoAfter.fault
theorem NoAfter.throwPoison {α : Type} {u k a : Nat} : NoAfter (throw (.poison u k a) : Res α) := fun _ _ _ h => by cases h

theorem NoAfter.need {b : Bool} {c d : Nat} : NoAfter (need b c d) := by
  unfold Machine.need
  split
  · exact NoAfter.ok
  · exact NoAfter.fault

theorem NoAfter.bind {α β : Type} {x : Res α} {f : α → Res β} (hx : NoAfter x) (hf : ∀ a, NoAfter (f a)) : NoAfter (x >>= f) := by
  cases x with
  | ok a => exact hf a
  | error e =>
    intro t c d h
    cases h
    exact absurd rfl (hx _ _ _)

theorem NoAfter.map {α β : Type} {x : Res α} {f : α → β} (hx : NoAfter x) : NoAfter (f <$> x) := by
  cases x with
  | ok a => exact NoAfter.ok
  | error e =>
    intro t c d h
    cases h
    exact absurd rfl (hx _ _ _)

theorem NoAfter.ite {α : Type} {a b : Res α} {c : Prop} [Decidable c] (ha : NoAfter a) (hb : NoAfter b) : NoAfter (if c then a else b) := by
  split <;> assumption

theorem NoAfter.foldlM {α β : Type} {l : List α} {f : β → α → Res β} {b : β} (hf : ∀ x a, NoAfter (f x a)) : NoAfter (l.foldlM f b) := by
  induction l generalizing b with
  | nil => exact NoAfter.ok
  | cons a r ih => rw [List.foldlM_cons]; exact NoAfter.bind (hf b a) (fun _ => ih)

theorem NoAfter.mapM {α β : Type} {l : List α} {f : α → Res β} (hf : ∀ a, NoAfter (f a)) : NoAfter (l.mapM f) := by
  induction l with
  | nil => exact NoAfter.ok
  | cons a r ih => rw [List.mapM_cons]; exact NoAfter.bind (hf a) (fun _ => NoAfter.bind ih (fun _ => NoAfter.pure))

theorem NoAfter.forM {α : Type} {l : List α} {f : α → Res Unit} (hf : ∀ a, NoAfter (f a)) : NoAfter (l.forM f) := by
  induction l with
  | nil => exact NoAfter.pure
  | cons a r ih => exact NoAfter.bind (hf a) (fun _ => ih)

theorem NoAfter.flatMapM {α β : Type} {l : List α} {f : α → Res (List β)} (hf : ∀ a, NoAfter (f a)) : NoAfter (l.flatMapM f) := by
  have : ∀ bs : List (List β), NoAfter (List.flatMapM.loop f l bs) := by
    induction l with
    | nil => exact fun _ => NoAfter.ok
    | cons a r ih => exact fun bs => NoAfter.bind (hf a) (fun _ => ih _)
  exact this []

theorem NoAfter.filterMapM {α β : Type} {l : List α} {f : α → Res (Option β)} (hf : ∀ a, NoAfter (f a)) : NoAfter (l.filterMapM f) := by
  have : ∀ bs : List β, NoAfter (List.filterMapM.loop f l bs) := by
    induction l with
    | nil => exact fun _ => NoAfter.ok
    | cons a r ih => exact fun bs => NoAfter.bind (hf a) (fun o => by cases o <;> exact ih _)
  exact this []

/-! ### Loops that carry a state -/

/-- The state that a loop carries beside its other results. -/
def KeepsF {β : Type} (vs : List View) (s : State) (r : Res (State × β)) : Prop :=
  (∀ x, r = .ok x → Keeps vs s x.1) ∧ ∀ t c d, r = .error (.after t c d) → Keeps vs s t

theorem KeepsF.ok {β : Type} {vs : List View} {s : State} {x : State × β} (h : Keeps vs s x.1) : KeepsF vs s (.ok x) :=
  ⟨fun y hy => by cases hy; exact h, fun _ _ _ hy => by cases hy⟩

theorem KeepsF.after {β : Type} {vs : List View} {s t : State} {c d : Nat} (h : Keeps vs s t) :
    KeepsF vs s (.error (.after t c d) : Res (State × β)) :=
  ⟨fun _ hy => (by cases hy), fun _ _ _ hy => (by cases hy; exact h)⟩

theorem KeepsF.ite {β : Type} {vs : List View} {s : State} {a b : Res (State × β)} {c : Prop} [Decidable c] (ha : KeepsF vs s a)
    (hb : KeepsF vs s b) : KeepsF vs s (if c then a else b) := by
  split <;> assumption

theorem KeepsF.foldlM {α β : Type} {vs : List View} {s : State} {l : List α} {f : State × β → α → Res (State × β)} {p : State × β}
    (h : Keeps vs s p.1) (hf : ∀ x a, Keeps vs s x.1 → KeepsF vs s (f x a)) : KeepsF vs s (l.foldlM f p) := by
  induction l generalizing p with
  | nil => exact KeepsF.ok h
  | cons a r ih =>
    have k := hf p a h
    rw [List.foldlM_cons]
    cases e : f p a with
    | ok y => exact ih (k.1 y e)
    | error y =>
      refine ⟨fun x hx => (by cases hx), fun t c d ht => ?_⟩
      cases ht
      exact k.2 _ _ _ e

theorem KeepsR.bindF {β : Type} {vs : List View} {s : State} {x : Res (State × β)} {f : State × β → Res State} (hx : KeepsF vs s x)
    (hf : ∀ y, Keeps vs s y.1 → KeepsR vs s (f y)) : KeepsR vs s (x >>= f) := by
  cases x with
  | ok y => exact hf y (hx.1 y rfl)
  | error e =>
    rintro u (hu | ⟨c, d, hu⟩)
    · cases hu
    · cases hu
      exact hx.2 _ _ _ rfl

/-! ### What a command answers -/

/-- A command completes, and keeps all but `vs`. -/
def KeepsO (vs : List View) (s : State) (o : Answer) : Prop := ∃ t, o = .next t ∧ Keeps vs s t

theorem KeepsO.next {vs : List View} {s t : State} (h : Keeps vs s t) : KeepsO vs s (.next t) := ⟨t, rfl, h⟩

theorem KeepsO.then {vs ws : List View} {s t : State} {o : Answer} (h : Keeps vs s t) (hs : ws ⊆ vs) (k : KeepsO ws t o) : KeepsO vs s o := by
  obtain ⟨u, e, k⟩ := k
  exact ⟨u, e, h.then hs k⟩

theorem KeepsO.ite {vs : List View} {s : State} {a b : Answer} {c : Prop} [Decidable c] (ha : KeepsO vs s a) (hb : KeepsO vs s b) :
    KeepsO vs s (if c then a else b) := by
  split <;> assumption

end Sys2Proof.Machine
end

