-- ==== Sys2Proof/Laws/OpsKeeps.lean ====
section
/-! SUPPORT. What each operation of Machine/Ops.lean may change: the parts named, the queue and the identity never, and no canonical form. -/

namespace Sys2Proof.Machine

open Sys2Proof

theorem State.draw_keeps {vs : List View} {u₀ s : State} (hk : Keeps vs u₀ s) (hm : [.fresh] ⊆ vs) : Keeps vs u₀ s.draw.2 := by
  refine hk.then hm ?_
  unfold State.draw
  refine Keeps.upd (Keeps.refl _ _) rfl rfl ?_ ?_ ?_ ?_ ?_ ?_ ?_ ?_ ?_ ?_ ?_ ?_ ?_ <;> first | exact .inl rfl | exact .inr (by decide)

theorem State.count_keeps {vs : List View} {u₀ : State} {s : State} {off n : Nat} (hk : Keeps vs u₀ s) (hm : [.counters] ⊆ vs) : Keeps vs u₀ (State.count s off n) := by
  refine hk.then hm ?_
  clear hk hm
  unfold State.count
  try dsimp -proj only
  repeat' first
    | (with_reducible exact Keeps.refl _ _)
    | (with_reducible assumption)
    | (with_reducible exact Or.inl rfl)
    | exact Or.inr (by decide)
    | decide
    | (with_reducible refine Keeps.upd ?_ rfl rfl ?_ ?_ ?_ ?_ ?_ ?_ ?_ ?_ ?_ ?_ ?_ ?_ ?_; rotate_left; fail_if_success (iterate 13 (with_reducible exact Or.inl rfl)))

theorem State.account_keeps {vs : List View} {u₀ : State} {s : State} {off e : Nat} (hk : Keeps vs u₀ s) (hm : [.power] ⊆ vs) : Keeps vs u₀ (State.account s off e) := by
  refine hk.then hm ?_
  clear hk hm
  unfold State.account
  try dsimp -proj only
  repeat' first
    | (with_reducible exact Keeps.refl _ _)
    | (with_reducible assumption)
    | (with_reducible exact Or.inl rfl)
    | exact Or.inr (by decide)
    | decide
    | (with_reducible refine Keeps.upd ?_ rfl rfl ?_ ?_ ?_ ?_ ?_ ?_ ?_ ?_ ?_ ?_ ?_ ?_ ?_; rotate_left; fail_if_success (iterate 13 (with_reducible exact Or.inl rfl)))

theorem State.countCore_keeps {vs : List View} {u₀ : State} {s : State} {c : Core} {off n : Nat} (hk : Keeps vs u₀ s) (hm : [.counters] ⊆ vs) : Keeps vs u₀ (State.countCore s c off n) := by
  refine hk.then hm ?_
  clear hk hm
  unfold State.countCore
  try dsimp -proj only
  repeat' first
    | (with_reducible exact Keeps.refl _ _)
    | (with_reducible assumption)
    | decide
    | (with_reducible apply State.count_keeps)

theorem State.countTen_keeps {vs : List View} {u₀ : State} {s : State} {t off n : Nat} (hk : Keeps vs u₀ s) (hm : [.counters] ⊆ vs) : Keeps vs u₀ (State.countTen s t off n) := by
  refine hk.then hm ?_
  clear hk hm
  unfold State.countTen
  try dsimp -proj only
  repeat' first
    | (with_reducible exact Keeps.refl _ _)
    | (with_reducible assumption)
    | decide
    | (with_reducible apply State.count_keeps)

theorem State.countChip_keeps {vs : List View} {u₀ : State} {s : State} {off n : Nat} (hk : Keeps vs u₀ s) (hm : [.counters] ⊆ vs) : Keeps vs u₀ (State.countChip s off n) := by
  refine hk.then hm ?_
  clear hk hm
  unfold State.countChip
  try dsimp -proj only
  repeat' first
    | (with_reducible exact Keeps.refl _ _)
    | (with_reducible assumption)
    | decide
    | (with_reducible apply State.count_keeps)

theorem State.setTen_keeps {vs : List View} {u₀ : State} {s : State} {t : Nat} {r : Tenancy} (hk : Keeps vs u₀ s) (hm : [.tens] ⊆ vs) : Keeps vs u₀ (State.setTen s t r) := by
  refine hk.then hm ?_
  clear hk hm
  unfold State.setTen
  try dsimp -proj only
  repeat' first
    | (with_reducible exact Keeps.refl _ _)
    | (with_reducible assumption)
    | (with_reducible exact Or.inl rfl)
    | exact Or.inr (by decide)
    | decide
    | (with_reducible refine Keeps.upd ?_ rfl rfl ?_ ?_ ?_ ?_ ?_ ?_ ?_ ?_ ?_ ?_ ?_ ?_ ?_; rotate_left; fail_if_success (iterate 13 (with_reducible exact Or.inl rfl)))

theorem State.modTen_keeps {vs : List View} {u₀ : State} {s : State} {t : Nat} {f : Tenancy → Tenancy} (hk : Keeps vs u₀ s) (hm : [.tens] ⊆ vs) : Keeps vs u₀ (State.modTen s t f) := by
  refine hk.then hm ?_
  clear hk hm
  unfold State.modTen
  try dsimp -proj only
  repeat' first
    | (with_reducible exact Keeps.refl _ _)
    | (with_reducible assumption)
    | decide
    | (with_reducible apply State.setTen_keeps)

theorem State.charge_keeps {vs : List View} {u₀ : State} {s : State} {t : Option Nat} {e : Nat} {offs : List Nat} (hk : Keeps vs u₀ s) (hm : [.tens, .power] ⊆ vs) : Keeps vs u₀ (State.charge s t e offs) := by
  refine hk.then hm ?_
  clear hk hm
  unfold State.charge
  try dsimp -proj only
  repeat' first
    | (with_reducible exact Keeps.refl _ _)
    | (with_reducible assumption)
    | (with_reducible exact Or.inl rfl)
    | exact Or.inr (by decide)
    | decide
    | (with_reducible apply State.account_keeps)
    | (with_reducible apply State.modTen_keeps)
    | (with_reducible refine Keeps.foldl ?_ (fun _ _ _ => ?_))
    | (with_reducible refine Keeps.foldlFst ?_ (fun _ _ _ => ?_))
    | (with_reducible refine Keeps.upd ?_ rfl rfl ?_ ?_ ?_ ?_ ?_ ?_ ?_ ?_ ?_ ?_ ?_ ?_ ?_; rotate_left; fail_if_success (iterate 13 (with_reducible exact Or.inl rfl)))
    | split

theorem State.chargeCoreE_keeps {vs : List View} {u₀ : State} {s : State} {c : Core} {e unit : Nat} (hk : Keeps vs u₀ s) (hm : [.tens, .power] ⊆ vs) : Keeps vs u₀ (State.chargeCoreE s c e unit) := by
  refine hk.then hm ?_
  clear hk hm
  unfold State.chargeCoreE
  try dsimp -proj only
  repeat' first
    | (with_reducible exact Keeps.refl _ _)
    | (with_reducible assumption)
    | decide
    | (with_reducible apply State.charge_keeps)

theorem State.chargeCore_keeps {vs : List View} {u₀ : State} {s : State} {c : Core} {cls n unit : Nat} (hk : Keeps vs u₀ s) (hm : [.tens, .power] ⊆ vs) : Keeps vs u₀ (State.chargeCore s c cls n unit) := by
  refine hk.then hm ?_
  clear hk hm
  unfold State.chargeCore
  try dsimp -proj only
  repeat' first
    | (with_reducible exact Keeps.refl _ _)
    | (with_reducible assumption)
    | decide
    | (with_reducible apply State.chargeCoreE_keeps)

theorem State.sumHaul_keeps {vs : List View} {u₀ : State} {s : State} {c : Core} {cls n : Nat} (hk : Keeps vs u₀ s) (hm : [.power] ⊆ vs) : Keeps vs u₀ (State.sumHaul s c cls n) := by
  refine hk.then hm ?_
  clear hk hm
  unfold State.sumHaul
  try dsimp -proj only
  repeat' first
    | (with_reducible exact Keeps.refl _ _)
    | (with_reducible assumption)
    | decide
    | (with_reducible apply State.account_keeps)

theorem State.addFigure_keeps {vs : List View} {u₀ : State} {s : State} {sec i n : Nat} (hk : Keeps vs u₀ s) (hm : [.mgmt] ⊆ vs) : Keeps vs u₀ (State.addFigure s sec i n) := by
  refine hk.then hm ?_
  clear hk hm
  unfold State.addFigure
  try dsimp -proj only
  repeat' first
    | (with_reducible exact Keeps.refl _ _)
    | (with_reducible assumption)
    | (with_reducible exact Or.inl rfl)
    | exact Or.inr (by decide)
    | decide
    | (with_reducible refine Keeps.upd ?_ rfl rfl ?_ ?_ ?_ ?_ ?_ ?_ ?_ ?_ ?_ ?_ ?_ ?_ ?_; rotate_left; fail_if_success (iterate 13 (with_reducible exact Or.inl rfl)))

theorem State.commitFigures_keeps {vs : List View} {u₀ : State} {s : State} {p : Nat → Bool} (hk : Keeps vs u₀ s) (hm : [.mgmt] ⊆ vs) : Keeps vs u₀ (State.commitFigures s p) := by
  refine hk.then hm ?_
  clear hk hm
  unfold State.commitFigures
  try dsimp -proj only
  repeat' first
    | (with_reducible exact Keeps.refl _ _)
    | (with_reducible assumption)
    | (with_reducible exact Or.inl rfl)
    | exact Or.inr (by decide)
    | decide
    | (with_reducible refine Keeps.foldl ?_ (fun _ _ _ => ?_))
    | (with_reducible refine Keeps.foldlFst ?_ (fun _ _ _ => ?_))
    | (with_reducible refine Keeps.upd ?_ rfl rfl ?_ ?_ ?_ ?_ ?_ ?_ ?_ ?_ ?_ ?_ ?_ ?_ ?_; rotate_left; fail_if_success (iterate 13 (with_reducible exact Or.inl rfl)))

theorem State.commitEvents_keeps {vs : List View} {u₀ : State} {s : State} (hk : Keeps vs u₀ s) (hm : [.mgmt] ⊆ vs) : Keeps vs u₀ (State.commitEvents s) := by
  refine hk.then hm ?_
  clear hk hm
  unfold State.commitEvents
  try dsimp -proj only
  repeat' first
    | (with_reducible exact Keeps.refl _ _)
    | (with_reducible assumption)
    | (with_reducible exact Or.inl rfl)
    | exact Or.inr (by decide)
    | decide
    | (with_reducible apply State.commitFigures_keeps)
    | (with_reducible refine Keeps.upd ?_ rfl rfl ?_ ?_ ?_ ?_ ?_ ?_ ?_ ?_ ?_ ?_ ?_ ?_ ?_; rotate_left; fail_if_success (iterate 13 (with_reducible exact Or.inl rfl)))

end Sys2Proof.Machine
end

