-- ==== Sys2Proof/Laws/MemoryKeeps.lean ====
section
/-! SUPPORT. What each operation of Machine/Memory.lean may change: the parts named, the queue and the identity never, and no canonical form. -/

namespace Sys2Proof.Machine

open Sys2Proof

theorem State.writeWord_keeps {vs : List View} {u₀ : State} {s : State} {sp : Space} {a : Nat} {w : MemWord} (hk : Keeps vs u₀ s) (hm : [.cs, .mbox, .words] ⊆ vs) : Keeps vs u₀ (State.writeWord s sp a w) := by
  refine hk.then hm ?_
  clear hk hm
  unfold State.writeWord
  try dsimp -proj only
  repeat' first
    | (with_reducible exact Keeps.refl _ _)
    | (with_reducible assumption)
    | (with_reducible exact Or.inl rfl)
    | exact Or.inr (by decide)
    | decide
    | (with_reducible refine Keeps.upd ?_ rfl rfl ?_ ?_ ?_ ?_ ?_ ?_ ?_ ?_ ?_ ?_ ?_ ?_ ?_; rotate_left; fail_if_success (iterate 13 (with_reducible exact Or.inl rfl)))
    | ((with_reducible refine Or.inr (?_ : CoresOk _ _ _)); simp +contextual [CoresOk, Cores.wf, memPut_wf, memPuts_wf, memClear_wf, memFilter_wf])
    | ((with_reducible refine Or.inr (?_ : HbmOk _ _ _)); simp +contextual [HbmOk, hbmPut_wf, hbmFilter_wf, hbmClear_wf])
    | split

theorem State.markUncorr_keeps {vs : List View} {u₀ : State} {s : State} {sp : Space} {a : Nat} (hk : Keeps vs u₀ s) (hm : [.service] ⊆ vs) : Keeps vs u₀ (State.markUncorr s sp a) := by
  refine hk.then hm ?_
  clear hk hm
  unfold State.markUncorr
  try dsimp -proj only
  repeat' first
    | (with_reducible exact Keeps.refl _ _)
    | (with_reducible assumption)
    | (with_reducible exact Or.inl rfl)
    | exact Or.inr (by decide)
    | decide
    | (with_reducible refine Keeps.upd ?_ rfl rfl ?_ ?_ ?_ ?_ ?_ ?_ ?_ ?_ ?_ ?_ ?_ ?_ ?_; rotate_left; fail_if_success (iterate 13 (with_reducible exact Or.inl rfl)))
    | ((with_reducible refine Or.inr (?_ : HbmOk _ _ _)); simp +contextual [HbmOk, hbmPut_wf, hbmFilter_wf, hbmClear_wf])
    | split

theorem State.chargeRead_keeps {vs : List View} {u₀ : State} {s : State} {sp : Space} {a : Nat} (hk : Keeps vs u₀ s) (hm : [.tens, .power] ⊆ vs) : Keeps vs u₀ (State.chargeRead s sp a) := by
  refine hk.then hm ?_
  clear hk hm
  unfold State.chargeRead
  try dsimp -proj only
  repeat' first
    | (with_reducible exact Keeps.refl _ _)
    | (with_reducible assumption)
    | (with_reducible exact Or.inl rfl)
    | exact Or.inr (by decide)
    | decide
    | (with_reducible apply State.charge_keeps)
    | (with_reducible apply State.chargeCore_keeps)
    | (with_reducible refine Keeps.upd ?_ rfl rfl ?_ ?_ ?_ ?_ ?_ ?_ ?_ ?_ ?_ ?_ ?_ ?_ ?_; rotate_left; fail_if_success (iterate 13 (with_reducible exact Or.inl rfl)))
    | split

theorem State.noteRead_keeps {vs : List View} {u₀ : State} {s : State} {sp : Space} {a : Nat} (hk : Keeps vs u₀ s) (hm : [.cs, .mbox, .words, .service, .tens, .counters, .power] ⊆ vs) : Keeps vs u₀ (State.noteRead s sp a) := by
  refine hk.then hm ?_
  clear hk hm
  unfold State.noteRead
  try dsimp -proj only
  repeat' first
    | (with_reducible exact Keeps.refl _ _)
    | (with_reducible assumption)
    | (with_reducible exact Or.inl rfl)
    | exact Or.inr (by decide)
    | decide
    | (with_reducible apply State.count_keeps)
    | (with_reducible apply State.writeWord_keeps)
    | (with_reducible apply State.markUncorr_keeps)
    | (with_reducible apply State.chargeRead_keeps)
    | (with_reducible refine Keeps.ite ?_ ?_)
    | (with_reducible refine Keeps.upd ?_ rfl rfl ?_ ?_ ?_ ?_ ?_ ?_ ?_ ?_ ?_ ?_ ?_ ?_ ?_; rotate_left; fail_if_success (iterate 13 (with_reducible exact Or.inl rfl)))
    | split

theorem State.noteReads_keeps {vs : List View} {u₀ : State} {s : State} {sp : Space} {as : List Nat} (hk : Keeps vs u₀ s) (hm : [.cs, .mbox, .words, .service, .tens, .counters, .power] ⊆ vs) : Keeps vs u₀ (State.noteReads s sp as) := by
  refine hk.then hm ?_
  clear hk hm
  unfold State.noteReads
  try dsimp -proj only
  repeat' first
    | (with_reducible exact Keeps.refl _ _)
    | (with_reducible assumption)
    | decide
    | (with_reducible apply State.noteRead_keeps)
    | (with_reducible refine Keeps.foldl ?_ (fun _ _ _ => ?_))

theorem State.writeHall_keeps {vs : List View} {u₀ : State} {s : State} {sp : Space} {a : Nat} {h : BitVec 64} (hk : Keeps vs u₀ s) (hm : [.cs, .mbox, .hall, .words] ⊆ vs) : Keeps vs u₀ (State.writeHall s sp a h) := by
  refine hk.then hm ?_
  clear hk hm
  unfold State.writeHall
  try dsimp -proj only
  repeat' first
    | (with_reducible exact Keeps.refl _ _)
    | (with_reducible assumption)
    | (with_reducible exact Or.inl rfl)
    | exact Or.inr (by decide)
    | decide
    | (with_reducible apply State.writeWord_keeps)
    | (with_reducible refine Keeps.upd ?_ rfl rfl ?_ ?_ ?_ ?_ ?_ ?_ ?_ ?_ ?_ ?_ ?_ ?_ ?_; rotate_left; fail_if_success (iterate 13 (with_reducible exact Or.inl rfl)))
    | ((with_reducible refine Or.inr (?_ : CoresOk _ _ _)); simp +contextual [CoresOk, Cores.wf, memPut_wf, memPuts_wf, memClear_wf, memFilter_wf])
    | split

theorem State.noteHall_keeps {vs : List View} {u₀ : State} {s : State} {sp : Space} {a : Nat} (hk : Keeps vs u₀ s) (hm : [.cs, .mbox, .words, .service, .tens, .counters, .power] ⊆ vs) : Keeps vs u₀ (State.noteHall s sp a) := by
  refine hk.then hm ?_
  clear hk hm
  unfold State.noteHall
  try dsimp -proj only
  repeat' first
    | (with_reducible exact Keeps.refl _ _)
    | (with_reducible assumption)
    | (with_reducible exact Or.inl rfl)
    | exact Or.inr (by decide)
    | decide
    | (with_reducible apply State.countCore_keeps)
    | (with_reducible apply State.noteRead_keeps)
    | (with_reducible refine Keeps.upd ?_ rfl rfl ?_ ?_ ?_ ?_ ?_ ?_ ?_ ?_ ?_ ?_ ?_ ?_ ?_; rotate_left; fail_if_success (iterate 13 (with_reducible exact Or.inl rfl)))
    | split

end Sys2Proof.Machine
end

