-- ==== Sys2Proof/Laws/ChannelsKeeps.lean ====
section
/-! SUPPORT. What each operation of Machine/Channels.lean may change: the parts named, the queue and the identity never, and no canonical form. -/

namespace Sys2Proof.Machine

open Sys2Proof

theorem State.modChan_keeps {vs : List View} {u₀ : State} {s : State} {t ch : Nat} {f : ChanSt → ChanSt} (hk : Keeps vs u₀ s) (hm : [.fabric] ⊆ vs) : Keeps vs u₀ (State.modChan s t ch f) := by
  refine hk.then hm ?_
  clear hk hm
  unfold State.modChan
  try dsimp -proj only
  repeat' first
    | (with_reducible exact Keeps.refl _ _)
    | (with_reducible assumption)
    | (with_reducible exact Or.inl rfl)
    | exact Or.inr (by decide)
    | decide
    | (with_reducible refine Keeps.upd ?_ rfl rfl ?_ ?_ ?_ ?_ ?_ ?_ ?_ ?_ ?_ ?_ ?_ ?_ ?_; rotate_left; fail_if_success (iterate 13 (with_reducible exact Or.inl rfl)))

theorem State.stage_keeps {vs : List View} {u₀ : State} {s : State} {c : Core} {a : Nat} (hk : Keeps vs u₀ s) (hm : [.fabric] ⊆ vs) : Keeps vs u₀ (State.stage s c a) := by
  refine hk.then hm ?_
  clear hk hm
  unfold State.stage
  try dsimp -proj only
  repeat' first
    | (with_reducible exact Keeps.refl _ _)
    | (with_reducible assumption)
    | (with_reducible exact Or.inl rfl)
    | exact Or.inr (by decide)
    | decide
    | (with_reducible apply State.modChan_keeps)
    | (with_reducible refine Keeps.foldl ?_ (fun _ _ _ => ?_))
    | (with_reducible refine Keeps.foldlFst ?_ (fun _ _ _ => ?_))
    | (with_reducible refine Keeps.ite ?_ ?_)

end Sys2Proof.Machine
end

