-- ==== Sys2Proof/Laws/LinksKeeps.lean ====
section
/-! SUPPORT. What each operation of Machine/Links.lean may change: the parts named, the queue and the identity never, and no canonical form. -/

namespace Sys2Proof.Machine

open Sys2Proof

theorem State.modPort_keeps {vs : List View} {u₀ : State} {s : State} {p : Port} {f : PortSt → PortSt} (hk : Keeps vs u₀ s) (hm : [.fabric] ⊆ vs) : Keeps vs u₀ (State.modPort s p f) := by
  refine hk.then hm ?_
  clear hk hm
  unfold State.modPort
  try dsimp -proj only
  repeat' first
    | (with_reducible exact Keeps.refl _ _)
    | (with_reducible assumption)
    | (with_reducible exact Or.inl rfl)
    | exact Or.inr (by decide)
    | decide
    | (with_reducible refine Keeps.upd ?_ rfl rfl ?_ ?_ ?_ ?_ ?_ ?_ ?_ ?_ ?_ ?_ ?_ ?_ ?_; rotate_left; fail_if_success (iterate 13 (with_reducible exact Or.inl rfl)))

theorem State.chargeFrame_keeps {vs : List View} {u₀ : State} {s : State} {p : Port} {f : Frame} (hk : Keeps vs u₀ s) (hm : [.tens, .power] ⊆ vs) : Keeps vs u₀ (State.chargeFrame s p f) := by
  refine hk.then hm ?_
  clear hk hm
  unfold State.chargeFrame
  try dsimp -proj only
  repeat' first
    | (with_reducible exact Keeps.refl _ _)
    | (with_reducible assumption)
    | decide
    | (with_reducible apply State.charge_keeps)

theorem State.emitFrame_keeps {vs : List View} {u₀ : State} {s : State} {p : Port} {f : Frame} (hk : Keeps vs u₀ s) (hm : [.tens, .counters, .fabric, .power] ⊆ vs) : Keeps vs u₀ (State.emitFrame s p f) := by
  refine hk.then hm ?_
  clear hk hm
  unfold State.emitFrame
  try dsimp -proj only
  repeat' first
    | (with_reducible exact Keeps.refl _ _)
    | (with_reducible assumption)
    | (with_reducible exact Or.inl rfl)
    | exact Or.inr (by decide)
    | decide
    | (with_reducible apply State.count_keeps)
    | (with_reducible apply State.chargeFrame_keeps)
    | (with_reducible refine Keeps.ite ?_ ?_)
    | (with_reducible refine Keeps.upd ?_ rfl rfl ?_ ?_ ?_ ?_ ?_ ?_ ?_ ?_ ?_ ?_ ?_ ?_ ?_; rotate_left; fail_if_success (iterate 13 (with_reducible exact Or.inl rfl)))

theorem State.setSend_keeps {vs : List View} {u₀ : State} {s : State} {t ch peer : Nat} {f : SendFlow} (hk : Keeps vs u₀ s) (hm : [.fabric] ⊆ vs) : Keeps vs u₀ (State.setSend s t ch peer f) := by
  refine hk.then hm ?_
  clear hk hm
  unfold State.setSend
  try dsimp -proj only
  repeat' first
    | (with_reducible exact Keeps.refl _ _)
    | (with_reducible assumption)
    | (with_reducible exact Or.inl rfl)
    | exact Or.inr (by decide)
    | decide
    | (with_reducible refine Keeps.upd ?_ rfl rfl ?_ ?_ ?_ ?_ ?_ ?_ ?_ ?_ ?_ ?_ ?_ ?_ ?_; rotate_left; fail_if_success (iterate 13 (with_reducible exact Or.inl rfl)))

theorem State.setRecv_keeps {vs : List View} {u₀ : State} {s : State} {t ch peer : Nat} {f : RecvFlow} (hk : Keeps vs u₀ s) (hm : [.fabric] ⊆ vs) : Keeps vs u₀ (State.setRecv s t ch peer f) := by
  refine hk.then hm ?_
  clear hk hm
  unfold State.setRecv
  try dsimp -proj only
  repeat' first
    | (with_reducible exact Keeps.refl _ _)
    | (with_reducible assumption)
    | (with_reducible exact Or.inl rfl)
    | exact Or.inr (by decide)
    | decide
    | (with_reducible refine Keeps.upd ?_ rfl rfl ?_ ?_ ?_ ?_ ?_ ?_ ?_ ?_ ?_ ?_ ?_ ?_ ?_; rotate_left; fail_if_success (iterate 13 (with_reducible exact Or.inl rfl)))

theorem State.transmit_keeps {vs : List View} {u₀ : State} {s : State} {t ch peer : Nat} {u : Unacked} (hk : Keeps vs u₀ s) (hm : [.tens, .counters, .fabric, .power] ⊆ vs) : Keeps vs u₀ (State.transmit s t ch peer u) := by
  refine hk.then hm ?_
  clear hk hm
  unfold State.transmit
  try dsimp -proj only
  repeat' first
    | (with_reducible exact Keeps.refl _ _)
    | (with_reducible assumption)
    | (with_reducible exact Or.inl rfl)
    | exact Or.inr (by decide)
    | decide
    | (with_reducible apply State.emitFrame_keeps)
    | (with_reducible apply State.setRecv_keeps)

theorem State.sendNow_keeps {vs : List View} {u₀ : State} {s : State} {t ch peer : Nat} {h : Held} (hk : Keeps vs u₀ s) (hm : [.tens, .counters, .fabric, .power] ⊆ vs) : Keeps vs u₀ (State.sendNow s t ch peer h) := by
  refine hk.then hm ?_
  clear hk hm
  unfold State.sendNow
  try dsimp -proj only
  repeat' first
    | (with_reducible exact Keeps.refl _ _)
    | (with_reducible assumption)
    | (with_reducible exact Or.inl rfl)
    | exact Or.inr (by decide)
    | decide
    | (with_reducible apply State.modChan_keeps)
    | (with_reducible apply State.setSend_keeps)
    | (with_reducible apply State.transmit_keeps)
    | (with_reducible refine Keeps.ite ?_ ?_)

theorem State.push_keeps {vs : List View} {u₀ : State} {s : State} {t ch peer : Nat} {h : Held} (hk : Keeps vs u₀ s) (hm : [.tens, .counters, .fabric, .power] ⊆ vs) : Keeps vs u₀ (State.push s t ch peer h) := by
  refine hk.then hm ?_
  clear hk hm
  unfold State.push
  try dsimp -proj only
  repeat' first
    | (with_reducible exact Keeps.refl _ _)
    | (with_reducible assumption)
    | (with_reducible exact Or.inl rfl)
    | exact Or.inr (by decide)
    | decide
    | (with_reducible apply State.setSend_keeps)
    | (with_reducible apply State.sendNow_keeps)
    | (with_reducible refine Keeps.ite ?_ ?_)

theorem State.pump_keeps {vs : List View} {u₀ : State} {s : State} {t ch peer : Nat} (hk : Keeps vs u₀ s) (hm : [.tens, .counters, .fabric, .power] ⊆ vs) : Keeps vs u₀ (State.pump s t ch peer) := by
  refine hk.then hm ?_
  clear hk hm
  unfold State.pump
  try dsimp -proj only
  repeat' first
    | (with_reducible exact Keeps.refl _ _)
    | (with_reducible assumption)
    | (with_reducible exact Or.inl rfl)
    | exact Or.inr (by decide)
    | decide
    | (with_reducible apply State.setSend_keeps)
    | (with_reducible apply State.sendNow_keeps)
    | (with_reducible refine Keeps.foldl ?_ (fun _ _ _ => ?_))

theorem State.pushCtl_keeps {vs : List View} {u₀ : State} {s : State} {t peer : Nat} {f : Frame} (hk : Keeps vs u₀ s) (hm : [.tens, .counters, .fabric, .power] ⊆ vs) : Keeps vs u₀ (State.pushCtl s t peer f) := by
  refine hk.then hm ?_
  clear hk hm
  unfold State.pushCtl
  try dsimp -proj only
  repeat' first
    | (with_reducible exact Keeps.refl _ _)
    | (with_reducible assumption)
    | decide
    | (with_reducible apply State.push_keeps)

theorem State.acked_keeps {vs : List View} {u₀ : State} {s : State} {t ch peer : Nat} {a : BitVec 24} (hk : Keeps vs u₀ s) (hm : [.tens, .counters, .fabric, .power] ⊆ vs) : Keeps vs u₀ (State.acked s t ch peer a) := by
  refine hk.then hm ?_
  clear hk hm
  unfold State.acked
  try dsimp -proj only
  repeat' first
    | (with_reducible exact Keeps.refl _ _)
    | (with_reducible assumption)
    | (with_reducible exact Or.inl rfl)
    | exact Or.inr (by decide)
    | decide
    | (with_reducible apply State.modChan_keeps)
    | (with_reducible apply State.setSend_keeps)
    | (with_reducible apply State.pump_keeps)
    | (with_reducible refine Keeps.ite ?_ ?_)
    | (with_reducible refine Keeps.upd ?_ rfl rfl ?_ ?_ ?_ ?_ ?_ ?_ ?_ ?_ ?_ ?_ ?_ ?_ ?_; rotate_left; fail_if_success (iterate 13 (with_reducible exact Or.inl rfl)))
    | split

theorem State.sendStaged_keeps {vs : List View} {u₀ : State} {s : State} {t ch : Nat} {is : List Nat} (hk : Keeps vs u₀ s) (hm : [.tens, .counters, .fabric, .power] ⊆ vs) : Keeps vs u₀ (State.sendStaged s t ch is) := by
  refine hk.then hm ?_
  clear hk hm
  unfold State.sendStaged
  try dsimp -proj only
  repeat' first
    | (with_reducible exact Keeps.refl _ _)
    | (with_reducible assumption)
    | (with_reducible exact Or.inl rfl)
    | exact Or.inr (by decide)
    | decide
    | (with_reducible apply State.modChan_keeps)
    | (with_reducible apply State.push_keeps)
    | (with_reducible refine Keeps.foldl ?_ (fun _ _ _ => ?_))

theorem State.endStall_keeps {vs : List View} {u₀ : State} {s : State} {t : Nat} {p : Stall → Bool} (hk : Keeps vs u₀ s) (hm : [.tens] ⊆ vs) : Keeps vs u₀ (State.endStall s t p) := by
  refine hk.then hm ?_
  clear hk hm
  unfold State.endStall
  try dsimp -proj only
  repeat' first
    | (with_reducible exact Keeps.refl _ _)
    | (with_reducible assumption)
    | (with_reducible exact Or.inl rfl)
    | exact Or.inr (by decide)
    | decide
    | (with_reducible apply State.modTen_keeps)

theorem State.credited_keeps {vs : List View} {u₀ : State} {s : State} {t ch n : Nat} (hk : Keeps vs u₀ s) (hm : [.tens, .counters, .fabric, .power] ⊆ vs) : Keeps vs u₀ (State.credited s t ch n) := by
  refine hk.then hm ?_
  clear hk hm
  unfold State.credited
  try dsimp -proj only
  repeat' first
    | (with_reducible exact Keeps.refl _ _)
    | (with_reducible assumption)
    | (with_reducible exact Or.inl rfl)
    | exact Or.inr (by decide)
    | decide
    | (with_reducible apply State.modChan_keeps)
    | (with_reducible apply State.sendStaged_keeps)
    | (with_reducible apply State.endStall_keeps)
    | (with_reducible refine Keeps.ite ?_ ?_)

theorem State.takeBack_keeps {vs : List View} {u₀ : State} {s : State} {t : Nat} {f : Frame} (hk : Keeps vs u₀ s) (hm : [.tens, .counters, .fabric, .power] ⊆ vs) : Keeps vs u₀ (State.takeBack s t f) := by
  refine hk.then hm ?_
  clear hk hm
  unfold State.takeBack
  try dsimp -proj only
  repeat' first
    | (with_reducible exact Keeps.refl _ _)
    | (with_reducible assumption)
    | decide
    | (with_reducible apply State.acked_keeps)
    | (with_reducible apply State.credited_keeps)
    | (with_reducible refine Keeps.ite ?_ ?_)

theorem State.goBack_keeps {vs : List View} {u₀ : State} {s : State} {t ch peer n : Nat} (hk : Keeps vs u₀ s) (hm : [.tens, .counters, .fabric, .power] ⊆ vs) : Keeps vs u₀ (State.goBack s t ch peer n) := by
  refine hk.then hm ?_
  clear hk hm
  unfold State.goBack
  try dsimp -proj only
  repeat' first
    | (with_reducible exact Keeps.refl _ _)
    | (with_reducible assumption)
    | decide
    | (with_reducible apply State.countTen_keeps)
    | (with_reducible apply State.transmit_keeps)
    | (with_reducible refine Keeps.foldl ?_ (fun _ _ _ => ?_))

theorem State.fanOut_keeps {vs : List View} {u₀ : State} {s : State} {t kind : Nat} {axes : List Nat} {ws : List MemWord} (hk : Keeps vs u₀ s) (hm : [.tens, .counters, .fabric, .power] ⊆ vs) : Keeps vs u₀ (State.fanOut s t kind axes ws) := by
  refine hk.then hm ?_
  clear hk hm
  unfold State.fanOut
  try dsimp -proj only
  repeat' first
    | (with_reducible exact Keeps.refl _ _)
    | (with_reducible assumption)
    | (with_reducible exact Or.inl rfl)
    | exact Or.inr (by decide)
    | decide
    | (with_reducible apply State.pushCtl_keeps)
    | (with_reducible refine Keeps.foldl ?_ (fun _ _ _ => ?_))
    | (with_reducible refine Keeps.foldlFst ?_ (fun _ _ _ => ?_))
    | (with_reducible refine Keeps.ite ?_ ?_)

theorem State.broadcast_keeps {vs : List View} {u₀ : State} {s : State} {t kind : Nat} {ws : List MemWord} (hk : Keeps vs u₀ s) (hm : [.tens, .counters, .fabric, .power] ⊆ vs) : Keeps vs u₀ (State.broadcast s t kind ws) := by
  refine hk.then hm ?_
  clear hk hm
  unfold State.broadcast
  try dsimp -proj only
  repeat' first
    | (with_reducible exact Keeps.refl _ _)
    | (with_reducible assumption)
    | decide
    | (with_reducible apply State.fanOut_keeps)

theorem State.forward_keeps {vs : List View} {u₀ : State} {s : State} {t kind : Nat} {p : Port} {axes : List Nat} {ws : List MemWord} (hk : Keeps vs u₀ s) (hm : [.tens, .counters, .fabric, .power] ⊆ vs) : Keeps vs u₀ (State.forward s t kind p axes ws) := by
  refine hk.then hm ?_
  clear hk hm
  unfold State.forward
  try dsimp -proj only
  repeat' first
    | (with_reducible exact Keeps.refl _ _)
    | (with_reducible assumption)
    | (with_reducible exact Or.inl rfl)
    | exact Or.inr (by decide)
    | decide
    | (with_reducible apply State.fanOut_keeps)
    | (with_reducible refine Keeps.upd ?_ rfl rfl ?_ ?_ ?_ ?_ ?_ ?_ ?_ ?_ ?_ ?_ ?_ ?_ ?_; rotate_left; fail_if_success (iterate 13 (with_reducible exact Or.inl rfl)))
    | split

theorem State.sendRootward_keeps {vs : List View} {u₀ : State} {s : State} {t kind : Nat} {w : BitVec 256} (hk : Keeps vs u₀ s) (hm : [.tens, .counters, .fabric, .power] ⊆ vs) : Keeps vs u₀ (State.sendRootward s t kind w) := by
  refine hk.then hm ?_
  clear hk hm
  unfold State.sendRootward
  try dsimp -proj only
  repeat' first
    | (with_reducible exact Keeps.refl _ _)
    | (with_reducible assumption)
    | (with_reducible exact Or.inl rfl)
    | exact Or.inr (by decide)
    | decide
    | (with_reducible apply State.pushCtl_keeps)
    | (with_reducible refine Keeps.upd ?_ rfl rfl ?_ ?_ ?_ ?_ ?_ ?_ ?_ ?_ ?_ ?_ ?_ ?_ ?_; rotate_left; fail_if_success (iterate 13 (with_reducible exact Or.inl rfl)))
    | split

end Sys2Proof.Machine
end

