-- ==== Sys2Proof/Laws/FlagsKeeps.lean ====
section
/-! SUPPORT. What each operation of Machine/Flags.lean may change: the parts named, the queue and the identity never, and no canonical form. -/

namespace Sys2Proof.Machine

open Sys2Proof

theorem State.daybook_keeps {vs : List View} {u₀ : State} {s : State} {code : BitVec 8} {cls : BitVec 3} {ten core unit a b c : Nat} (hk : Keeps vs u₀ s) (hm : [.mgmt] ⊆ vs) : Keeps vs u₀ (State.daybook s code cls ten core unit a b c) := by
  refine hk.then hm ?_
  clear hk hm
  unfold State.daybook
  try dsimp -proj only
  repeat' first
    | (with_reducible exact Keeps.refl _ _)
    | (with_reducible assumption)
    | (with_reducible exact Or.inl rfl)
    | exact Or.inr (by decide)
    | decide
    | (with_reducible refine Keeps.upd ?_ rfl rfl ?_ ?_ ?_ ?_ ?_ ?_ ?_ ?_ ?_ ?_ ?_ ?_ ?_; rotate_left; fail_if_success (iterate 13 (with_reducible exact Or.inl rfl)))

theorem State.dayChip_keeps {vs : List View} {u₀ : State} {s : State} {code : BitVec 8} {cls : BitVec 3} {a b c : Nat} (hk : Keeps vs u₀ s) (hm : [.mgmt] ⊆ vs) : Keeps vs u₀ (State.dayChip s code cls a b c) := by
  refine hk.then hm ?_
  clear hk hm
  unfold State.dayChip
  try dsimp -proj only
  repeat' first
    | (with_reducible exact Keeps.refl _ _)
    | (with_reducible assumption)
    | decide
    | (with_reducible apply State.daybook_keeps)

theorem State.dayTen_keeps {vs : List View} {u₀ : State} {s : State} {t : Nat} {code : BitVec 8} {cls : BitVec 3} {a b c : Nat} (hk : Keeps vs u₀ s) (hm : [.mgmt] ⊆ vs) : Keeps vs u₀ (State.dayTen s t code cls a b c) := by
  refine hk.then hm ?_
  clear hk hm
  unfold State.dayTen
  try dsimp -proj only
  repeat' first
    | (with_reducible exact Keeps.refl _ _)
    | (with_reducible assumption)
    | decide
    | (with_reducible apply State.daybook_keeps)

theorem State.dayCore_keeps {vs : List View} {u₀ : State} {s : State} {c : Core} {unit : Nat} {code : BitVec 8} {cls : BitVec 3} {a b k : Nat} (hk : Keeps vs u₀ s) (hm : [.mgmt] ⊆ vs) : Keeps vs u₀ (State.dayCore s c unit code cls a b k) := by
  refine hk.then hm ?_
  clear hk hm
  unfold State.dayCore
  try dsimp -proj only
  repeat' first
    | (with_reducible exact Keeps.refl _ _)
    | (with_reducible assumption)
    | decide
    | (with_reducible apply State.daybook_keeps)

theorem State.startAssays_keeps {vs : List View} {u₀ : State} {s : State} (hk : Keeps vs u₀ s) (hm : [.fabric, .mgmt] ⊆ vs) : Keeps vs u₀ (State.startAssays s) := by
  refine hk.then hm ?_
  clear hk hm
  unfold State.startAssays
  try dsimp -proj only
  repeat' first
    | (with_reducible exact Keeps.refl _ _)
    | (with_reducible assumption)
    | (with_reducible exact Or.inl rfl)
    | exact Or.inr (by decide)
    | decide
    | (with_reducible apply State.modPort_keeps)
    | (with_reducible refine Keeps.foldl ?_ (fun _ _ _ => ?_))
    | (with_reducible refine Keeps.foldlFst ?_ (fun _ _ _ => ?_))
    | (with_reducible refine Keeps.ite ?_ ?_)
    | (with_reducible refine Keeps.upd ?_ rfl rfl ?_ ?_ ?_ ?_ ?_ ?_ ?_ ?_ ?_ ?_ ?_ ?_ ?_; rotate_left; fail_if_success (iterate 13 (with_reducible exact Or.inl rfl)))

theorem State.requestAssay_keeps {vs : List View} {u₀ : State} {s : State} {kind target : Nat} {force : Bool} (hk : Keeps vs u₀ s) (hm : [.fabric, .mgmt] ⊆ vs) : Keeps vs u₀ (State.requestAssay s kind target force) := by
  refine hk.then hm ?_
  clear hk hm
  unfold State.requestAssay
  try dsimp -proj only
  repeat' first
    | (with_reducible exact Keeps.refl _ _)
    | (with_reducible assumption)
    | (with_reducible exact Or.inl rfl)
    | exact Or.inr (by decide)
    | decide
    | (with_reducible apply State.daybook_keeps)
    | (with_reducible apply State.startAssays_keeps)
    | (with_reducible refine Keeps.ite ?_ ?_)
    | (with_reducible refine Keeps.upd ?_ rfl rfl ?_ ?_ ?_ ?_ ?_ ?_ ?_ ?_ ?_ ?_ ?_ ?_ ?_; rotate_left; fail_if_success (iterate 13 (with_reducible exact Or.inl rfl)))
    | split

theorem State.assayCores_keeps {vs : List View} {u₀ : State} {s : State} {t : Nat} (hk : Keeps vs u₀ s) (hm : [.fabric, .mgmt] ⊆ vs) : Keeps vs u₀ (State.assayCores s t) := by
  refine hk.then hm ?_
  clear hk hm
  unfold State.assayCores
  try dsimp -proj only
  repeat' first
    | (with_reducible exact Keeps.refl _ _)
    | (with_reducible assumption)
    | decide
    | (with_reducible apply State.requestAssay_keeps)
    | (with_reducible refine Keeps.foldl ?_ (fun _ _ _ => ?_))

theorem State.sendMsg_keeps {vs : List View} {u₀ : State} {s : State} {fn v : Nat} (hk : Keeps vs u₀ s) (hm : [.mgmt] ⊆ vs) : Keeps vs u₀ (State.sendMsg s fn v) := by
  refine hk.then hm ?_
  clear hk hm
  unfold State.sendMsg
  try dsimp -proj only
  repeat' first
    | (with_reducible exact Keeps.refl _ _)
    | (with_reducible assumption)
    | (with_reducible exact Or.inl rfl)
    | exact Or.inr (by decide)
    | decide
    | (with_reducible refine Keeps.ite ?_ ?_)
    | (with_reducible refine Keeps.upd ?_ rfl rfl ?_ ?_ ?_ ?_ ?_ ?_ ?_ ?_ ?_ ?_ ?_ ?_ ?_; rotate_left; fail_if_success (iterate 13 (with_reducible exact Or.inl rfl)))

theorem State.raiseInt_keeps {vs : List View} {u₀ : State} {s : State} {fn bit : Nat} (hk : Keeps vs u₀ s) (hm : [.mgmt] ⊆ vs) : Keeps vs u₀ (State.raiseInt s fn bit) := by
  refine hk.then hm ?_
  clear hk hm
  unfold State.raiseInt
  try dsimp -proj only
  repeat' first
    | (with_reducible exact Keeps.refl _ _)
    | (with_reducible assumption)
    | (with_reducible exact Or.inl rfl)
    | exact Or.inr (by decide)
    | decide
    | (with_reducible apply State.sendMsg_keeps)
    | (with_reducible refine Keeps.ite ?_ ?_)
    | (with_reducible refine Keeps.upd ?_ rfl rfl ?_ ?_ ?_ ?_ ?_ ?_ ?_ ?_ ?_ ?_ ?_ ?_ ?_; rotate_left; fail_if_success (iterate 13 (with_reducible exact Or.inl rfl)))

theorem State.raiseTen_keeps {vs : List View} {u₀ : State} {s : State} {t bit : Nat} (hk : Keeps vs u₀ s) (hm : [.mgmt] ⊆ vs) : Keeps vs u₀ (State.raiseTen s t bit) := by
  refine hk.then hm ?_
  clear hk hm
  unfold State.raiseTen
  try dsimp -proj only
  repeat' first
    | (with_reducible exact Keeps.refl _ _)
    | (with_reducible assumption)
    | decide
    | (with_reducible apply State.raiseInt_keeps)

theorem State.raiseAll_keeps {vs : List View} {u₀ : State} {s : State} {bit : Nat} (hk : Keeps vs u₀ s) (hm : [.mgmt] ⊆ vs) : Keeps vs u₀ (State.raiseAll s bit) := by
  refine hk.then hm ?_
  clear hk hm
  unfold State.raiseAll
  try dsimp -proj only
  repeat' first
    | (with_reducible exact Keeps.refl _ _)
    | (with_reducible assumption)
    | decide
    | (with_reducible apply State.raiseInt_keeps)
    | (with_reducible refine Keeps.foldl ?_ (fun _ _ _ => ?_))

theorem State.queueError_keeps {vs : List View} {u₀ : State} {s : State} {t : Nat} {e : JobError} (hk : Keeps vs u₀ s) (hm : [.tens, .counters, .mgmt] ⊆ vs) : Keeps vs u₀ (State.queueError s t e) := by
  refine hk.then hm ?_
  clear hk hm
  unfold State.queueError
  try dsimp -proj only
  repeat' first
    | (with_reducible exact Keeps.refl _ _)
    | (with_reducible assumption)
    | (with_reducible exact Or.inl rfl)
    | exact Or.inr (by decide)
    | decide
    | (with_reducible apply State.countTen_keeps)
    | (with_reducible apply State.modTen_keeps)
    | (with_reducible apply State.dayTen_keeps)
    | (with_reducible refine Keeps.ite ?_ ?_)

theorem State.endError_keeps {vs : List View} {u₀ : State} {s : State} {t : Nat} {code : BitVec 8} (hk : Keeps vs u₀ s) (hm : [.tens, .counters, .fabric, .power] ⊆ vs) : Keeps vs u₀ (State.endError s t code) := by
  refine hk.then hm ?_
  clear hk hm
  unfold State.endError
  try dsimp -proj only
  repeat' first
    | (with_reducible exact Keeps.refl _ _)
    | (with_reducible assumption)
    | (with_reducible exact Or.inl rfl)
    | exact Or.inr (by decide)
    | decide
    | (with_reducible apply State.modTen_keeps)
    | (with_reducible apply State.broadcast_keeps)
    | (with_reducible refine Keeps.upd ?_ rfl rfl ?_ ?_ ?_ ?_ ?_ ?_ ?_ ?_ ?_ ?_ ?_ ?_ ?_; rotate_left; fail_if_success (iterate 13 (with_reducible exact Or.inl rfl)))
    | split

theorem State.jobError_keeps {vs : List View} {u₀ : State} {s : State} {t : Nat} {e : JobError} (hk : Keeps vs u₀ s) (hm : [.tens, .counters, .fabric, .mgmt, .power] ⊆ vs) : Keeps vs u₀ (State.jobError s t e) := by
  refine hk.then hm ?_
  clear hk hm
  unfold State.jobError
  try dsimp -proj only
  repeat' first
    | (with_reducible exact Keeps.refl _ _)
    | (with_reducible assumption)
    | (with_reducible exact Or.inl rfl)
    | exact Or.inr (by decide)
    | decide
    | (with_reducible apply State.modTen_keeps)
    | (with_reducible apply State.queueError_keeps)
    | (with_reducible apply State.endError_keeps)
    | (with_reducible refine Keeps.ite ?_ ?_)

theorem State.progFaultAt_keeps {vs : List View} {u₀ : State} {s : State} {c : Core} {page bundle slot code detail : Nat} (hk : Keeps vs u₀ s) (hm : [.tens, .counters, .fabric, .mgmt, .power] ⊆ vs) : Keeps vs u₀ (State.progFaultAt s c page bundle slot code detail) := by
  refine hk.then hm ?_
  clear hk hm
  unfold State.progFaultAt
  try dsimp -proj only
  repeat' first
    | (with_reducible exact Keeps.refl _ _)
    | (with_reducible assumption)
    | (with_reducible exact Or.inl rfl)
    | exact Or.inr (by decide)
    | decide
    | (with_reducible apply State.countTen_keeps)
    | (with_reducible apply State.setTen_keeps)
    | (with_reducible apply State.daybook_keeps)
    | (with_reducible apply State.raiseTen_keeps)
    | (with_reducible apply State.endError_keeps)
    | (with_reducible refine Keeps.upd ?_ rfl rfl ?_ ?_ ?_ ?_ ?_ ?_ ?_ ?_ ?_ ?_ ?_ ?_ ?_; rotate_left; fail_if_success (iterate 13 (with_reducible exact Or.inl rfl)))
    | split

theorem State.progFault_keeps {vs : List View} {u₀ : State} {s : State} {c : Core} {slot code detail : Nat} (hk : Keeps vs u₀ s) (hm : [.tens, .counters, .fabric, .mgmt, .power] ⊆ vs) : Keeps vs u₀ (State.progFault s c slot code detail) := by
  refine hk.then hm ?_
  clear hk hm
  unfold State.progFault
  try dsimp -proj only
  repeat' first
    | (with_reducible exact Keeps.refl _ _)
    | (with_reducible assumption)
    | decide
    | (with_reducible apply State.progFaultAt_keeps)

theorem State.poisonConsumed_keeps {vs : List View} {u₀ : State} {s : State} {c : Core} {unit kind addr : Nat} (hk : Keeps vs u₀ s) (hm : [.tens, .counters, .fabric, .mgmt, .power] ⊆ vs) : Keeps vs u₀ (State.poisonConsumed s c unit kind addr) := by
  refine hk.then hm ?_
  clear hk hm
  unfold State.poisonConsumed
  try dsimp -proj only
  repeat' first
    | (with_reducible exact Keeps.refl _ _)
    | (with_reducible assumption)
    | (with_reducible exact Or.inl rfl)
    | exact Or.inr (by decide)
    | decide
    | (with_reducible apply State.countTen_keeps)
    | (with_reducible apply State.dayCore_keeps)
    | (with_reducible apply State.jobError_keeps)
    | (with_reducible refine Keeps.upd ?_ rfl rfl ?_ ?_ ?_ ?_ ?_ ?_ ?_ ?_ ?_ ?_ ?_ ?_ ?_; rotate_left; fail_if_success (iterate 13 (with_reducible exact Or.inl rfl)))
    | split

theorem State.poisonStop_keeps {vs : List View} {u₀ : State} {s : State} {c : Core} {unit kind addr : Nat} (hk : Keeps vs u₀ s) (hm : [.tens, .counters, .fabric, .mgmt, .power] ⊆ vs) : Keeps vs u₀ (State.poisonStop s c unit kind addr) := by
  refine hk.then hm ?_
  clear hk hm
  unfold State.poisonStop
  try dsimp -proj only
  repeat' first
    | (with_reducible exact Keeps.refl _ _)
    | (with_reducible assumption)
    | (with_reducible exact Or.inl rfl)
    | exact Or.inr (by decide)
    | decide
    | (with_reducible apply State.modTen_keeps)
    | (with_reducible apply State.poisonConsumed_keeps)
    | (with_reducible refine Keeps.upd ?_ rfl rfl ?_ ?_ ?_ ?_ ?_ ?_ ?_ ?_ ?_ ?_ ?_ ?_ ?_; rotate_left; fail_if_success (iterate 13 (with_reducible exact Or.inl rfl)))
    | split

theorem State.arithFault_keeps {vs : List View} {u₀ : State} {s : State} {c : Core} {code : BitVec 8} (hk : Keeps vs u₀ s) (hm : [.tens, .counters, .fabric, .mgmt, .power] ⊆ vs) : Keeps vs u₀ (State.arithFault s c code) := by
  refine hk.then hm ?_
  clear hk hm
  unfold State.arithFault
  try dsimp -proj only
  repeat' first
    | (with_reducible exact Keeps.refl _ _)
    | (with_reducible assumption)
    | (with_reducible exact Or.inl rfl)
    | exact Or.inr (by decide)
    | decide
    | (with_reducible apply State.addFigure_keeps)
    | (with_reducible apply State.requestAssay_keeps)
    | (with_reducible apply State.jobError_keeps)
    | (with_reducible refine Keeps.ite ?_ ?_)
    | (with_reducible refine Keeps.upd ?_ rfl rfl ?_ ?_ ?_ ?_ ?_ ?_ ?_ ?_ ?_ ?_ ?_ ?_ ?_; rotate_left; fail_if_success (iterate 13 (with_reducible exact Or.inl rfl)))
    | split

theorem State.dupStrike_keeps {vs : List View} {u₀ : State} {s : State} {c : Core} {row : Bool} {unit off desc : Nat} (hk : Keeps vs u₀ s) (hm : [.tens, .counters, .fabric, .mgmt, .power, .upsets] ⊆ vs) : Keeps vs u₀ (State.dupStrike s c row unit off desc) := by
  refine hk.then hm ?_
  clear hk hm
  unfold State.dupStrike
  try dsimp -proj only
  repeat' first
    | (with_reducible exact Keeps.refl _ _)
    | (with_reducible assumption)
    | (with_reducible exact Or.inl rfl)
    | exact Or.inr (by decide)
    | decide
    | (with_reducible apply State.countCore_keeps)
    | (with_reducible apply State.dayCore_keeps)
    | (with_reducible apply State.arithFault_keeps)
    | (with_reducible refine Keeps.upd ?_ rfl rfl ?_ ?_ ?_ ?_ ?_ ?_ ?_ ?_ ?_ ?_ ?_ ?_ ?_; rotate_left; fail_if_success (iterate 13 (with_reducible exact Or.inl rfl)))
    | split

theorem State.romStrike_keeps {vs : List View} {u₀ : State} {s : State} {c : Core} {row : Bool} {unit : Nat} (hk : Keeps vs u₀ s) (hm : [.tens, .counters, .fabric, .mgmt, .power, .upsets] ⊆ vs) : Keeps vs u₀ (State.romStrike s c row unit) := by
  refine hk.then hm ?_
  clear hk hm
  unfold State.romStrike
  try dsimp -proj only
  repeat' first
    | (with_reducible exact Keeps.refl _ _)
    | (with_reducible assumption)
    | (with_reducible exact Or.inl rfl)
    | exact Or.inr (by decide)
    | decide
    | (with_reducible apply State.dayCore_keeps)
    | (with_reducible apply State.arithFault_keeps)
    | (with_reducible refine Keeps.upd ?_ rfl rfl ?_ ?_ ?_ ?_ ?_ ?_ ?_ ?_ ?_ ?_ ?_ ?_ ?_; rotate_left; fail_if_success (iterate 13 (with_reducible exact Or.inl rfl)))
    | split



/-- A trap changes what raising a fault changes, after the work that its rule leaves. -/
theorem State.trapped_keeps {vs : List View} {u₀ s : State} {c : Core} {slot : Nat} {e : Trap} (hk : Keeps vs u₀ s)
    (hm : [.tens, .counters, .fabric, .mgmt, .power] ⊆ vs) (he : ∀ t k d, e = .after t k d → Keeps vs u₀ t) :
    Keeps vs u₀ (s.trapped c slot e) := by
  cases e with
  | fault k d => exact State.progFault_keeps hk hm
  | after t k d => exact State.progFault_keeps (he t k d rfl) hm
  | poison u k a => exact State.poisonStop_keeps hk hm

/-- An operation issued in a slot keeps what its action keeps, and what raising a fault keeps. -/
theorem slotOp_keeps {vs : List View} {u₀ : State} {c : Core} {slot : Nat} {f : State → State → Res State} {rd s : State} (hk : Keeps vs u₀ s)
    (hm : [.tens, .counters, .fabric, .mgmt, .power] ⊆ vs) (hf : KeepsR vs s (f rd s)) : Keeps vs u₀ (slotOp c slot f rd s) := by
  refine hk.trans ?_
  have trap : ∀ e, f rd s = .error e → Keeps vs s (s.trapped c slot e) := fun e h =>
    State.trapped_keeps (Keeps.refl _ _) hm (fun t k d he => hf t (.inr ⟨k, d, he ▸ h⟩))
  unfold slotOp
  split
  · cases h : f rd s with
    | ok t => exact hf t (.inl h)
    | error e => exact trap e h
  · split
    · cases h : f rd s with
      | ok t => exact Keeps.refl _ _
      | error e => exact trap e h
    · exact Keeps.refl _ _

end Sys2Proof.Machine
end

