-- ==== Sys2Proof/Laws/PagesKeeps.lean ====
section
/-! SUPPORT. What each operation of Machine/Pages.lean may change: the parts named, the queue and the identity never, and no canonical form. -/

namespace Sys2Proof.Machine

open Sys2Proof

theorem State.foldTwin_keeps {vs : List View} {u₀ : State} {s : State} {t : Nat} {h : BitVec 64} (hk : Keeps vs u₀ s) (hm : [.tens, .counters] ⊆ vs) : Keeps vs u₀ (State.foldTwin s t h) := by
  refine hk.then hm ?_
  clear hk hm
  unfold State.foldTwin
  try dsimp -proj only
  repeat' first
    | (with_reducible exact Keeps.refl _ _)
    | (with_reducible assumption)
    | (with_reducible exact Or.inl rfl)
    | exact Or.inr (by decide)
    | decide
    | (with_reducible apply State.count_keeps)
    | (with_reducible apply State.countTen_keeps)
    | (with_reducible apply State.modTen_keeps)
    | (with_reducible refine Keeps.foldl ?_ (fun _ _ _ => ?_))
    | (with_reducible refine Keeps.foldlFst ?_ (fun _ _ _ => ?_))
    | (with_reducible refine Keeps.ite ?_ ?_)

theorem State.foldSeal_keeps {vs : List View} {u₀ : State} {s : State} {t key : Nat} {ds : Option (List (BitVec 256))} (hk : Keeps vs u₀ s) (hm : [.tens, .counters] ⊆ vs) : Keeps vs u₀ (State.foldSeal s t key ds) := by
  refine hk.then hm ?_
  clear hk hm
  unfold State.foldSeal
  try dsimp -proj only
  repeat' first
    | (with_reducible exact Keeps.refl _ _)
    | (with_reducible assumption)
    | (with_reducible exact Or.inl rfl)
    | exact Or.inr (by decide)
    | decide
    | (with_reducible apply State.count_keeps)
    | (with_reducible apply State.modTen_keeps)
    | (with_reducible refine Keeps.upd ?_ rfl rfl ?_ ?_ ?_ ?_ ?_ ?_ ?_ ?_ ?_ ?_ ?_ ?_ ?_; rotate_left; fail_if_success (iterate 13 (with_reducible exact Or.inl rfl)))
    | split

theorem State.holdWrite_keeps {vs : List View} {u₀ : State} {s : State} {t m key : Nat} {w : MemWord} (hk : Keeps vs u₀ s) (hm : [.tens, .counters, .mgmt] ⊆ vs) : Keeps vs u₀ (State.holdWrite s t m key w) := by
  refine hk.then hm ?_
  clear hk hm
  unfold State.holdWrite
  try dsimp -proj only
  repeat' first
    | (with_reducible exact Keeps.refl _ _)
    | (with_reducible assumption)
    | (with_reducible exact Or.inl rfl)
    | exact Or.inr (by decide)
    | decide
    | (with_reducible apply State.countTen_keeps)
    | (with_reducible apply State.modTen_keeps)
    | (with_reducible apply State.dayTen_keeps)
    | (with_reducible refine Keeps.ite ?_ ?_)
    | (with_reducible refine Keeps.upd ?_ rfl rfl ?_ ?_ ?_ ?_ ?_ ?_ ?_ ?_ ?_ ?_ ?_ ?_ ?_; rotate_left; fail_if_success (iterate 13 (with_reducible exact Or.inl rfl)))
    | split

theorem State.writeFore_keeps {vs : List View} {u₀ : State} {s : State} {t at' key : Nat} {w : MemWord} (hk : Keeps vs u₀ s) (hm : [.cs, .mbox, .words, .tens, .counters, .mgmt] ⊆ vs) : Keeps vs u₀ (State.writeFore s t at' key w) := by
  refine hk.then hm ?_
  clear hk hm
  unfold State.writeFore
  try dsimp -proj only
  repeat' first
    | (with_reducible exact Keeps.refl _ _)
    | (with_reducible assumption)
    | (with_reducible exact Or.inl rfl)
    | exact Or.inr (by decide)
    | decide
    | (with_reducible apply State.writeWord_keeps)
    | (with_reducible apply State.holdWrite_keeps)
    | (with_reducible refine Keeps.upd ?_ rfl rfl ?_ ?_ ?_ ?_ ?_ ?_ ?_ ?_ ?_ ?_ ?_ ?_ ?_; rotate_left; fail_if_success (iterate 13 (with_reducible exact Or.inl rfl)))
    | split

theorem State.writeWhole_keeps {vs : List View} {u₀ : State} {s : State} {t : Option Nat} {sp : Space} {a : Nat} {w : MemWord} (hk : Keeps vs u₀ s) (hm : [.cs, .mbox, .words, .tens, .counters, .fabric, .mgmt, .power] ⊆ vs) : Keeps vs u₀ (State.writeWhole s t sp a w) := by
  refine hk.then hm ?_
  clear hk hm
  unfold State.writeWhole
  try dsimp -proj only
  repeat' first
    | (with_reducible exact Keeps.refl _ _)
    | (with_reducible assumption)
    | (with_reducible exact Or.inl rfl)
    | exact Or.inr (by decide)
    | decide
    | (with_reducible apply State.charge_keeps)
    | (with_reducible apply State.chargeCore_keeps)
    | (with_reducible apply State.writeWord_keeps)
    | (with_reducible apply State.stage_keeps)
    | (with_reducible apply State.writeFore_keeps)
    | (with_reducible refine Keeps.upd ?_ rfl rfl ?_ ?_ ?_ ?_ ?_ ?_ ?_ ?_ ?_ ?_ ?_ ?_ ?_; rotate_left; fail_if_success (iterate 13 (with_reducible exact Or.inl rfl)))
    | split

theorem State.setMerges_keeps {vs : List View} {u₀ : State} {s : State} {sp : Space} {m : Sparse MergeEntry} (hk : Keeps vs u₀ s) (hm : [.merges] ⊆ vs) : Keeps vs u₀ (State.setMerges s sp m) := by
  refine hk.then hm ?_
  clear hk hm
  unfold State.setMerges
  try dsimp -proj only
  repeat' first
    | (with_reducible exact Keeps.refl _ _)
    | (with_reducible assumption)
    | (with_reducible exact Or.inl rfl)
    | exact Or.inr (by decide)
    | decide
    | (with_reducible refine Keeps.upd ?_ rfl rfl ?_ ?_ ?_ ?_ ?_ ?_ ?_ ?_ ?_ ?_ ?_ ?_ ?_; rotate_left; fail_if_success (iterate 13 (with_reducible exact Or.inl rfl)))
    | ((with_reducible refine Or.inr (?_ : CoresOk _ _ _)); simp +contextual [CoresOk, Cores.wf, memPut_wf, memPuts_wf, memClear_wf, memFilter_wf])
    | ((with_reducible refine Or.inr (?_ : HbmOk _ _ _)); simp +contextual [HbmOk, hbmPut_wf, hbmFilter_wf, hbmClear_wf])
    | split

theorem State.writeOut_keeps {vs : List View} {u₀ : State} {s : State} {t : Option Nat} {sp : Space} {o : Out} (hk : Keeps vs u₀ s) (hm : [.cs, .mbox, .merges, .words, .tens, .counters, .fabric, .mgmt, .power] ⊆ vs) : Keeps vs u₀ (State.writeOut s t sp o) := by
  refine hk.then hm ?_
  clear hk hm
  unfold State.writeOut
  try dsimp -proj only
  repeat' first
    | (with_reducible exact Keeps.refl _ _)
    | (with_reducible assumption)
    | (with_reducible exact Or.inl rfl)
    | exact Or.inr (by decide)
    | decide
    | (with_reducible apply State.writeWhole_keeps)
    | (with_reducible apply State.setMerges_keeps)
    | (with_reducible refine Keeps.ite ?_ ?_)
    | (with_reducible refine Keeps.upd ?_ rfl rfl ?_ ?_ ?_ ?_ ?_ ?_ ?_ ?_ ?_ ?_ ?_ ?_ ?_; rotate_left; fail_if_success (iterate 13 (with_reducible exact Or.inl rfl)))
    | split

theorem State.closeMerge_keeps {vs : List View} {u₀ : State} {s : State} {t : Option Nat} {sp : Space} {a : Nat} {e : MergeEntry} (hk : Keeps vs u₀ s) (hm : [.cs, .mbox, .merges, .words, .tens, .counters, .fabric, .mgmt, .power] ⊆ vs) : Keeps vs u₀ (State.closeMerge s t sp a e) := by
  refine hk.then hm ?_
  clear hk hm
  unfold State.closeMerge
  try dsimp -proj only
  repeat' first
    | (with_reducible exact Keeps.refl _ _)
    | (with_reducible assumption)
    | (with_reducible exact Or.inl rfl)
    | exact Or.inr (by decide)
    | decide
    | (with_reducible apply State.count_keeps)
    | (with_reducible apply State.countCore_keeps)
    | (with_reducible apply State.writeWhole_keeps)
    | (with_reducible apply State.setMerges_keeps)
    | (with_reducible refine Keeps.upd ?_ rfl rfl ?_ ?_ ?_ ?_ ?_ ?_ ?_ ?_ ?_ ?_ ?_ ?_ ?_; rotate_left; fail_if_success (iterate 13 (with_reducible exact Or.inl rfl)))
    | split

theorem State.writeHallT_keeps {vs : List View} {u₀ : State} {s : State} {t : Option Nat} {sp : Space} {b : Nat} {h : BitVec 64} {ds : Option (List (BitVec 256))} (hk : Keeps vs u₀ s) (hm : [.cs, .mbox, .hall, .words, .tens, .counters, .mgmt] ⊆ vs) : Keeps vs u₀ (State.writeHallT s t sp b h ds) := by
  refine hk.then hm ?_
  clear hk hm
  unfold State.writeHallT
  try dsimp -proj only
  repeat' first
    | (with_reducible exact Keeps.refl _ _)
    | (with_reducible assumption)
    | (with_reducible exact Or.inl rfl)
    | exact Or.inr (by decide)
    | decide
    | (with_reducible apply State.writeHall_keeps)
    | (with_reducible apply State.foldTwin_keeps)
    | (with_reducible apply State.foldSeal_keeps)
    | (with_reducible apply State.writeFore_keeps)
    | (with_reducible refine Keeps.upd ?_ rfl rfl ?_ ?_ ?_ ?_ ?_ ?_ ?_ ?_ ?_ ?_ ?_ ?_ ?_; rotate_left; fail_if_success (iterate 13 (with_reducible exact Or.inl rfl)))
    | split

theorem State.emitWith_keeps {vs : List View} {u₀ : State} {s : State} {sp : Space} {outs : List Out} {hall : BitVec 64 → Nat → BitVec 64} (hk : Keeps vs u₀ s) (hm : [.cs, .mbox, .hall, .merges, .words, .tens, .counters, .fabric, .mgmt, .power] ⊆ vs) : Keeps vs u₀ (State.emitWith s sp outs hall) := by
  refine hk.then hm ?_
  clear hk hm
  unfold State.emitWith
  try dsimp -proj only
  repeat' first
    | (with_reducible exact Keeps.refl _ _)
    | (with_reducible assumption)
    | (with_reducible exact Or.inl rfl)
    | exact Or.inr (by decide)
    | decide
    | (with_reducible apply State.writeOut_keeps)
    | (with_reducible apply State.writeHallT_keeps)
    | (with_reducible refine Keeps.foldl ?_ (fun _ _ _ => ?_))
    | (with_reducible refine Keeps.foldlFst ?_ (fun _ _ _ => ?_))
    | (with_reducible refine Keeps.ite ?_ ?_)
    | (with_reducible refine Keeps.upd ?_ rfl rfl ?_ ?_ ?_ ?_ ?_ ?_ ?_ ?_ ?_ ?_ ?_ ?_ ?_; rotate_left; fail_if_success (iterate 13 (with_reducible exact Or.inl rfl)))
    | split

theorem State.emit_keeps {vs : List View} {u₀ : State} {s : State} {sp : Space} {fmt gen : Nat} {outs : List Out} (hk : Keeps vs u₀ s) (hm : [.cs, .mbox, .hall, .merges, .words, .tens, .counters, .fabric, .mgmt, .power] ⊆ vs) : Keeps vs u₀ (State.emit s sp fmt gen outs) := by
  refine hk.then hm ?_
  clear hk hm
  unfold State.emit
  try dsimp -proj only
  repeat' first
    | (with_reducible exact Keeps.refl _ _)
    | (with_reducible assumption)
    | decide
    | (with_reducible apply State.emitWith_keeps)

end Sys2Proof.Machine
end

