-- ==== Sys2Proof/Laws/OperandsKeeps.lean ====
section
/-! SUPPORT. What each operation of Machine/Operands.lean may change: the parts named, the queue and the identity never, and no canonical form. -/

namespace Sys2Proof.Machine

open Sys2Proof

theorem csRange_noAfter {s : State} {c : Core} {a : Int} {n : Nat} : NoAfter (csRange s c a n) := by
  unfold csRange
  try dsimp -proj only
  repeat' first
    | (with_reducible apply need_noAfter)
    | (with_reducible exact NoAfter.need)
    | (with_reducible exact NoAfter.ok)
    | (with_reducible exact NoAfter.pure)
    | (with_reducible exact NoAfter.fault)
    | (with_reducible refine NoAfter.bind ?_ (fun _ => ?_))

theorem mboxRange_noAfter {s : State} {c : Core} {a : Int} {n : Nat} {isOut : Bool} : NoAfter (mboxRange s c a n isOut) := by
  unfold mboxRange
  try dsimp -proj only
  repeat' first
    | (with_reducible apply need_noAfter)
    | (with_reducible exact NoAfter.need)
    | (with_reducible exact NoAfter.ok)
    | (with_reducible exact NoAfter.pure)
    | (with_reducible exact NoAfter.fault)
    | (with_reducible refine NoAfter.bind ?_ (fun _ => ?_))

theorem hbmRange_noAfter {s : State} {t : Nat} {a : Int} {n : Nat} : NoAfter (hbmRange s t a n) := by
  unfold hbmRange
  try dsimp -proj only
  repeat' first
    | (with_reducible apply need_noAfter)
    | (with_reducible exact NoAfter.need)
    | (with_reducible exact NoAfter.ok)
    | (with_reducible exact NoAfter.pure)
    | (with_reducible exact NoAfter.fault)
    | (with_reducible refine NoAfter.bind ?_ (fun _ => ?_))

theorem latch_noAfter {s : State} {c : Core} {i : BitVec 10} : NoAfter (latch s c i) := by
  unfold latch
  try dsimp -proj only
  repeat' first
    | (with_reducible exact NoAfter.need)
    | (with_reducible exact NoAfter.ok)
    | (with_reducible exact NoAfter.pure)
    | (with_reducible exact NoAfter.fault)
    | (with_reducible exact NoAfter.throwFault)
    | (with_reducible exact NoAfter.throwPoison)
    | (with_reducible refine NoAfter.bind ?_ (fun _ => ?_))
    | (with_reducible refine NoAfter.map ?_)
    | (with_reducible refine NoAfter.ite ?_ ?_)

theorem latchForm_noAfter {s : State} {c : Core} {i : BitVec 10} {kind : Nat} {forms : List Nat} : NoAfter (latchForm s c i kind forms) := by
  unfold latchForm
  try dsimp -proj only
  repeat' first
    | (with_reducible apply need_noAfter)
    | (with_reducible apply latch_noAfter)
    | (with_reducible exact NoAfter.need)
    | (with_reducible exact NoAfter.ok)
    | (with_reducible exact NoAfter.pure)
    | (with_reducible exact NoAfter.fault)
    | (with_reducible refine NoAfter.bind ?_ (fun _ => ?_))

theorem regionOf_noAfter {s : State} {t region : Nat} : NoAfter (regionOf s t region) := by
  unfold regionOf
  try dsimp -proj only
  repeat' first
    | (with_reducible apply need_noAfter)
    | (with_reducible exact NoAfter.need)
    | (with_reducible exact NoAfter.ok)
    | (with_reducible exact NoAfter.pure)
    | (with_reducible exact NoAfter.fault)
    | (with_reducible refine NoAfter.bind ?_ (fun _ => ?_))

theorem tileEntry_noAfter {s : State} {t region : Nat} {tile : Int} : NoAfter (tileEntry s t region tile) := by
  unfold tileEntry
  try dsimp -proj only
  repeat' first
    | (with_reducible apply need_noAfter)
    | (with_reducible apply regionOf_noAfter)
    | (with_reducible exact NoAfter.need)
    | (with_reducible exact NoAfter.ok)
    | (with_reducible exact NoAfter.pure)
    | (with_reducible exact NoAfter.fault)
    | (with_reducible refine NoAfter.bind ?_ (fun _ => ?_))

theorem tileScale_noAfter {s : State} {t region : Nat} {tile : Int} : NoAfter (tileScale s t region tile) := by
  unfold tileScale
  try dsimp -proj only
  repeat' first
    | (with_reducible apply tileEntry_noAfter)
    | (with_reducible exact NoAfter.need)
    | (with_reducible exact NoAfter.ok)
    | (with_reducible exact NoAfter.pure)
    | (with_reducible exact NoAfter.fault)
    | (with_reducible refine NoAfter.bind ?_ (fun _ => ?_))

theorem State.noteTile_keeps {vs : List View} {u₀ : State} {s : State} {c : Core} {unit region : Nat} {tile : Int} (hk : Keeps vs u₀ s) (hm : [.stores, .tens, .counters, .fabric, .mgmt, .power, .fresh] ⊆ vs) : Keeps vs u₀ (State.noteTile s c unit region tile) := by
  refine hk.then hm ?_
  clear hk hm
  unfold State.noteTile
  try dsimp -proj only
  repeat' first
    | (with_reducible exact Keeps.refl _ _)
    | (with_reducible assumption)
    | (with_reducible exact Or.inl rfl)
    | exact Or.inr (by decide)
    | decide
    | (with_reducible apply State.draw_keeps)
    | (with_reducible apply State.countTen_keeps)
    | (with_reducible apply State.addFigure_keeps)
    | (with_reducible apply State.poisonConsumed_keeps)
    | (with_reducible apply tileEntry_noAfter)
    | (with_reducible refine Keeps.upd ?_ rfl rfl ?_ ?_ ?_ ?_ ?_ ?_ ?_ ?_ ?_ ?_ ?_ ?_ ?_; rotate_left; fail_if_success (iterate 13 (with_reducible exact Or.inl rfl)))
    | (with_reducible refine KeepsR.getOk (by assumption) ?_)
    | (with_reducible refine KeepsR.getAfter (by assumption) ?_)
    | split

theorem State.report_keeps {vs : List View} {u₀ : State} {s : State} {t : Nat} {rs : List Report} (hk : Keeps vs u₀ s) (hm : [.stores] ⊆ vs) : Keeps vs u₀ (State.report s t rs) := by
  refine hk.then hm ?_
  clear hk hm
  unfold State.report
  try dsimp -proj only
  repeat' first
    | (with_reducible exact Keeps.refl _ _)
    | (with_reducible assumption)
    | (with_reducible exact Or.inl rfl)
    | exact Or.inr (by decide)
    | decide
    | (with_reducible apply tileEntry_noAfter)
    | (with_reducible refine Keeps.foldl ?_ (fun _ _ _ => ?_))
    | (with_reducible refine Keeps.foldlFst ?_ (fun _ _ _ => ?_))
    | (with_reducible refine Keeps.upd ?_ rfl rfl ?_ ?_ ?_ ?_ ?_ ?_ ?_ ?_ ?_ ?_ ?_ ?_ ?_; rotate_left; fail_if_success (iterate 13 (with_reducible exact Or.inl rfl)))
    | (with_reducible refine KeepsR.getOk (by assumption) ?_)
    | (with_reducible refine KeepsR.getAfter (by assumption) ?_)
    | split

theorem quantOpen_noAfter {s : State} {t : Nat} : NoAfter (quantOpen s t) := by
  unfold quantOpen
  try dsimp -proj only
  repeat' first
    | (with_reducible apply need_noAfter)
    | (with_reducible exact NoAfter.need)

theorem State.quantUntil_keeps {vs : List View} {u₀ : State} {s rd : State} {c : Core} {slot : Nat} {yes : Bool} {until' : Nat} (hk : Keeps vs u₀ s) (hm : [.busy] ⊆ vs) : Keeps vs u₀ (State.quantUntil s rd c slot yes until') := by
  refine hk.then hm ?_
  clear hk hm
  unfold State.quantUntil
  try dsimp -proj only
  repeat' first
    | (with_reducible exact Keeps.refl _ _)
    | (with_reducible assumption)
    | (with_reducible exact Or.inl rfl)
    | exact Or.inr (by decide)
    | decide
    | (with_reducible refine Keeps.ite ?_ ?_)
    | (with_reducible refine Keeps.upd ?_ rfl rfl ?_ ?_ ?_ ?_ ?_ ?_ ?_ ?_ ?_ ?_ ?_ ?_ ?_; rotate_left; fail_if_success (iterate 13 (with_reducible exact Or.inl rfl)))
    | ((with_reducible refine Or.inr (?_ : CoresOk _ _ _)); simp +contextual [CoresOk, Cores.wf, memPut_wf, memPuts_wf, memClear_wf, memFilter_wf])

theorem watchKey_noAfter {s : State} {t i : Nat} : NoAfter (watchKey s t i) := by
  unfold watchKey
  try dsimp -proj only
  repeat' first
    | (with_reducible apply need_noAfter)
    | (with_reducible exact NoAfter.need)
    | (with_reducible exact NoAfter.ok)
    | (with_reducible exact NoAfter.pure)
    | (with_reducible exact NoAfter.fault)
    | (with_reducible refine NoAfter.bind ?_ (fun _ => ?_))

theorem State.countWatch_keeps {vs : List View} {u₀ : State} {s : State} {key : Nat} {drained : Bool} {nz q fl : Nat} (hk : Keeps vs u₀ s) (hm : [.stores] ⊆ vs) : Keeps vs u₀ (State.countWatch s key drained nz q fl) := by
  refine hk.then hm ?_
  clear hk hm
  unfold State.countWatch
  try dsimp -proj only
  repeat' first
    | (with_reducible exact Keeps.refl _ _)
    | (with_reducible assumption)
    | (with_reducible exact Or.inl rfl)
    | exact Or.inr (by decide)
    | decide
    | (with_reducible refine Keeps.ite ?_ ?_)
    | (with_reducible refine Keeps.upd ?_ rfl rfl ?_ ?_ ?_ ?_ ?_ ?_ ?_ ?_ ?_ ?_ ?_ ?_ ?_; rotate_left; fail_if_success (iterate 13 (with_reducible exact Or.inl rfl)))

theorem slotEntry_noAfter {s : State} {c : Core} {opid : Nat} : NoAfter (slotEntry s c opid) := by
  unfold slotEntry
  try dsimp -proj only
  repeat' first
    | (with_reducible apply need_noAfter)
    | (with_reducible exact NoAfter.need)
    | (with_reducible exact NoAfter.ok)
    | (with_reducible exact NoAfter.pure)
    | (with_reducible exact NoAfter.fault)
    | (with_reducible refine NoAfter.bind ?_ (fun _ => ?_))
    | (with_reducible refine NoAfter.map ?_)
    | (with_reducible refine NoAfter.ite ?_ ?_)

theorem rngOf_noAfter {s : State} {c : Core} {stoch : Bool} {opid : Nat} : NoAfter (rngOf s c stoch opid) := by
  unfold rngOf
  try dsimp -proj only
  repeat' first
    | (with_reducible apply slotEntry_noAfter)
    | (with_reducible exact NoAfter.need)
    | (with_reducible exact NoAfter.ok)
    | (with_reducible exact NoAfter.pure)
    | (with_reducible exact NoAfter.fault)
    | (with_reducible refine NoAfter.bind ?_ (fun _ => ?_))
    | (with_reducible refine NoAfter.map ?_)
    | (with_reducible refine NoAfter.ite ?_ ?_)

theorem State.openCaution_keeps {vs : List View} {u₀ : State} {s : State} {t : Nat} {step : BitVec 32} (hk : Keeps vs u₀ s) (hm : [.tens] ⊆ vs) : Keeps vs u₀ (State.openCaution s t step) := by
  refine hk.then hm ?_
  clear hk hm
  unfold State.openCaution
  try dsimp -proj only
  repeat' first
    | (with_reducible exact Keeps.refl _ _)
    | (with_reducible assumption)
    | (with_reducible exact Or.inl rfl)
    | exact Or.inr (by decide)
    | decide
    | (with_reducible apply State.modTen_keeps)
    | (with_reducible refine Keeps.ite ?_ ?_)

theorem State.guardLatch_keeps {vs : List View} {u₀ : State} {s : State} {c : Core} {guard ovf : Bool} (hk : Keeps vs u₀ s) (hm : [.busy] ⊆ vs) : Keeps vs u₀ (State.guardLatch s c guard ovf) := by
  refine hk.then hm ?_
  clear hk hm
  unfold State.guardLatch
  try dsimp -proj only
  repeat' first
    | (with_reducible exact Keeps.refl _ _)
    | (with_reducible assumption)
    | (with_reducible exact Or.inl rfl)
    | exact Or.inr (by decide)
    | decide
    | (with_reducible refine Keeps.ite ?_ ?_)
    | (with_reducible refine Keeps.upd ?_ rfl rfl ?_ ?_ ?_ ?_ ?_ ?_ ?_ ?_ ?_ ?_ ?_ ?_ ?_; rotate_left; fail_if_success (iterate 13 (with_reducible exact Or.inl rfl)))
    | ((with_reducible refine Or.inr (?_ : CoresOk _ _ _)); simp +contextual [CoresOk, Cores.wf, memPut_wf, memPuts_wf, memClear_wf, memFilter_wf])

theorem needHall_noAfter {s : State} {sp : Space} {as : List Nat} {fmt : Nat} {tag : Option Nat} : NoAfter (needHall s sp as fmt tag) := by
  unfold needHall
  try dsimp -proj only
  repeat' first
    | (with_reducible apply need_noAfter)
    | (with_reducible exact NoAfter.need)

theorem openStrm_noAfter {s : State} {c : Core} {d : BitVec 512} {k : Nat} {isOut : Bool} : NoAfter (openStrm s c d k isOut) := by
  unfold openStrm
  try dsimp -proj only
  repeat' first
    | (with_reducible apply need_noAfter)
    | (with_reducible exact NoAfter.need)
    | (with_reducible exact NoAfter.ok)
    | (with_reducible exact NoAfter.pure)
    | (with_reducible exact NoAfter.fault)
    | (with_reducible refine NoAfter.bind ?_ (fun _ => ?_))
    | (with_reducible refine NoAfter.map ?_)
    | (with_reducible refine NoAfter.ite ?_ ?_)

theorem Strm.ready_noAfter {s : State} {c : Core} {t : Strm} {es : List Int} {tag : Nat} {isIn : Bool} : NoAfter (Strm.ready s c t es tag isIn) := by
  unfold Strm.ready
  try dsimp -proj only
  repeat' first
    | (with_reducible apply csRange_noAfter)
    | (with_reducible apply tileScale_noAfter)
    | (with_reducible apply needHall_noAfter)
    | (with_reducible exact NoAfter.need)
    | (with_reducible exact NoAfter.ok)
    | (with_reducible exact NoAfter.pure)
    | (with_reducible exact NoAfter.fault)
    | (with_reducible refine NoAfter.mapM (fun _ => ?_))
    | (with_reducible refine NoAfter.bind ?_ (fun _ => ?_))
    | (with_reducible refine NoAfter.map ?_)
    | (with_reducible refine NoAfter.ite ?_ ?_)

theorem State.noteStrm_keeps {vs : List View} {u₀ : State} {s : State} {c : Core} {unit : Nat} {m : Strm} (hk : Keeps vs u₀ s) (hm : [.stores, .tens, .counters, .fabric, .mgmt, .power, .fresh] ⊆ vs) : Keeps vs u₀ (State.noteStrm s c unit m) := by
  refine hk.then hm ?_
  clear hk hm
  unfold State.noteStrm
  try dsimp -proj only
  repeat' first
    | (with_reducible exact Keeps.refl _ _)
    | (with_reducible assumption)
    | decide
    | (with_reducible apply State.noteTile_keeps)
    | (with_reducible refine Keeps.foldl ?_ (fun _ _ _ => ?_))

theorem State.consume_keeps {vs : List View} {u₀ : State} {s rd : State} {c : Core} {unit : Nat} {sp : Space} {as : List Nat} (hk : Keeps vs u₀ s) (hm : [.cs, .mbox, .words, .service, .tens, .counters, .fabric, .mgmt, .power] ⊆ vs) : Keeps vs u₀ (State.consume s rd c unit sp as) := by
  refine hk.then hm ?_
  clear hk hm
  unfold State.consume
  try dsimp -proj only
  repeat' first
    | (with_reducible exact Keeps.refl _ _)
    | (with_reducible assumption)
    | (with_reducible exact Or.inl rfl)
    | exact Or.inr (by decide)
    | decide
    | (with_reducible apply State.noteReads_keeps)
    | (with_reducible apply State.noteHall_keeps)
    | (with_reducible apply State.poisonConsumed_keeps)
    | (with_reducible refine Keeps.foldl ?_ (fun _ _ _ => ?_))
    | (with_reducible refine Keeps.foldlFst ?_ (fun _ _ _ => ?_))
    | (with_reducible refine Keeps.upd ?_ rfl rfl ?_ ?_ ?_ ?_ ?_ ?_ ?_ ?_ ?_ ?_ ?_ ?_ ?_; rotate_left; fail_if_success (iterate 13 (with_reducible exact Or.inl rfl)))
    | split

end Sys2Proof.Machine
end

