-- ==== Sys2Proof/Laws/PortsKeeps.lean ====
section
/-! SUPPORT. What each operation of Machine/Ports.lean may change: the parts named, the queue and the identity never, and no canonical form. -/

namespace Sys2Proof.Machine

open Sys2Proof

theorem State.claimPorts_keeps {vs : List View} {u₀ : State} {s : State} {c : Core} {new : List PortRun} (hk : Keeps vs u₀ s) (hm : [.busy] ⊆ vs) : KeepsR vs u₀ (State.claimPorts s c new) := by
  refine KeepsR.then hk hm ?_
  clear hk hm
  unfold State.claimPorts
  try dsimp -proj only
  repeat' first
    | (with_reducible exact Keeps.refl _ _)
    | (with_reducible assumption)
    | (with_reducible exact Or.inl rfl)
    | exact Or.inr (by decide)
    | decide
    | (with_reducible apply need_noAfter)
    | (with_reducible refine KeepsR.bindS ?_ (fun _ _ => ?_))
    | (with_reducible refine KeepsR.bind ?_ (fun _ => ?_))
    | (with_reducible refine KeepsR.ok ?_)
    | (with_reducible refine KeepsR.pure ?_)
    | (with_reducible exact KeepsR.fault)
    | (with_reducible exact KeepsR.throwFault)
    | (with_reducible refine KeepsR.after ?_)
    | (with_reducible refine KeepsR.throwAfter ?_)
    | (with_reducible exact NoAfter.need)
    | (with_reducible exact NoAfter.ok)
    | (with_reducible exact NoAfter.pure)
    | (with_reducible exact NoAfter.fault)
    | (with_reducible refine NoAfter.bind ?_ (fun _ => ?_))
    | (with_reducible refine NoAfter.map ?_)
    | (with_reducible refine Keeps.upd ?_ rfl rfl ?_ ?_ ?_ ?_ ?_ ?_ ?_ ?_ ?_ ?_ ?_ ?_ ?_; rotate_left; fail_if_success (iterate 13 (with_reducible exact Or.inl rfl)))
    | ((with_reducible refine Or.inr (?_ : CoresOk _ _ _)); simp +contextual [CoresOk, Cores.wf, memPut_wf, memPuts_wf, memClear_wf, memFilter_wf])

theorem State.holdTill_keeps {vs : List View} {u₀ : State} {s : State} {c : Core} {cyc : Nat} (hk : Keeps vs u₀ s) (hm : [.merges] ⊆ vs) : Keeps vs u₀ (State.holdTill s c cyc) := by
  refine hk.then hm ?_
  clear hk hm
  unfold State.holdTill
  try dsimp -proj only
  repeat' first
    | (with_reducible exact Keeps.refl _ _)
    | (with_reducible assumption)
    | (with_reducible exact Or.inl rfl)
    | exact Or.inr (by decide)
    | decide
    | (with_reducible refine Keeps.ite ?_ ?_)
    | (with_reducible refine Keeps.upd ?_ rfl rfl ?_ ?_ ?_ ?_ ?_ ?_ ?_ ?_ ?_ ?_ ?_ ?_ ?_; rotate_left; fail_if_success (iterate 13 (with_reducible exact Or.inl rfl)))
    | ((with_reducible refine Or.inr (?_ : CoresOk _ _ _)); simp +contextual [CoresOk, Cores.wf, memPut_wf, memPuts_wf, memClear_wf, memFilter_wf])
    | ((with_reducible refine Or.inr (?_ : HbmOk _ _ _)); simp +contextual [HbmOk, hbmPut_wf, hbmFilter_wf, hbmClear_wf])

theorem State.holdMerges_keeps {vs : List View} {u₀ : State} {s rd : State} {c : Core} {rs : List PortRun} (hk : Keeps vs u₀ s) (hm : [.merges] ⊆ vs) : KeepsR vs u₀ (State.holdMerges s rd c rs) := by
  refine KeepsR.then hk hm ?_
  clear hk hm
  unfold State.holdMerges
  try dsimp -proj only
  repeat' first
    | (with_reducible exact Keeps.refl _ _)
    | (with_reducible assumption)
    | decide
    | (with_reducible apply need_noAfter)
    | (with_reducible apply State.holdTill_keeps)
    | (with_reducible refine KeepsR.bindS ?_ (fun _ _ => ?_))
    | (with_reducible refine KeepsR.bind ?_ (fun _ => ?_))
    | (with_reducible refine KeepsR.ok ?_)
    | (with_reducible refine KeepsR.pure ?_)
    | (with_reducible exact KeepsR.fault)
    | (with_reducible exact KeepsR.throwFault)
    | (with_reducible refine KeepsR.after ?_)
    | (with_reducible refine KeepsR.throwAfter ?_)
    | (with_reducible exact NoAfter.need)

theorem State.takeLinks_keeps {vs : List View} {u₀ : State} {s : State} {uses : List (Nat × MeshUse)} (hk : Keeps vs u₀ s) (hm : [.busy] ⊆ vs) : Keeps vs u₀ (State.takeLinks s uses) := by
  refine hk.then hm ?_
  clear hk hm
  unfold State.takeLinks
  try dsimp -proj only
  repeat' first
    | (with_reducible exact Keeps.refl _ _)
    | (with_reducible assumption)
    | (with_reducible exact Or.inl rfl)
    | exact Or.inr (by decide)
    | decide
    | (with_reducible refine Keeps.foldl ?_ (fun _ _ _ => ?_))
    | (with_reducible refine Keeps.foldlFst ?_ (fun _ _ _ => ?_))
    | (with_reducible refine Keeps.upd ?_ rfl rfl ?_ ?_ ?_ ?_ ?_ ?_ ?_ ?_ ?_ ?_ ?_ ?_ ?_; rotate_left; fail_if_success (iterate 13 (with_reducible exact Or.inl rfl)))
    | ((with_reducible refine Or.inr (?_ : CoresOk _ _ _)); simp +contextual [CoresOk, Cores.wf, memPut_wf, memPuts_wf, memClear_wf, memFilter_wf])

theorem State.meshFaults_keeps {vs : List View} {u₀ : State} {s : State} {c : Core} {hits : List MeshUse} (hk : Keeps vs u₀ s) (hm : [.tens, .counters, .fabric, .mgmt, .power] ⊆ vs) : Keeps vs u₀ (State.meshFaults s c hits) := by
  refine hk.then hm ?_
  clear hk hm
  unfold State.meshFaults
  try dsimp -proj only
  repeat' first
    | (with_reducible exact Keeps.refl _ _)
    | (with_reducible assumption)
    | decide
    | (with_reducible apply State.progFaultAt_keeps)
    | (with_reducible refine Keeps.foldl ?_ (fun _ _ _ => ?_))

theorem State.placeReqs_keeps {vs : List View} {u₀ : State} {s : State} {t : Nat} {rs : List HbmReq} (hk : Keeps vs u₀ s) (hm : [.service] ⊆ vs) : Keeps vs u₀ (State.placeReqs s t rs) := by
  refine hk.then hm ?_
  clear hk hm
  unfold State.placeReqs
  try dsimp -proj only
  repeat' first
    | (with_reducible exact Keeps.refl _ _)
    | (with_reducible assumption)
    | (with_reducible exact Or.inl rfl)
    | exact Or.inr (by decide)
    | decide
    | (with_reducible refine Keeps.foldl ?_ (fun _ _ _ => ?_))
    | (with_reducible refine Keeps.foldlFst ?_ (fun _ _ _ => ?_))
    | (with_reducible refine Keeps.upd ?_ rfl rfl ?_ ?_ ?_ ?_ ?_ ?_ ?_ ?_ ?_ ?_ ?_ ?_ ?_; rotate_left; fail_if_success (iterate 13 (with_reducible exact Or.inl rfl)))
    | ((with_reducible refine Or.inr (?_ : HbmOk _ _ _)); simp +contextual [HbmOk, hbmPut_wf, hbmFilter_wf, hbmClear_wf])

theorem State.refuse_keeps {vs : List View} {u₀ : State} {s : State} {rs : List HbmReq} (hk : Keeps vs u₀ s) (hm : [.tens, .counters, .fabric, .mgmt, .power] ⊆ vs) : Keeps vs u₀ (State.refuse s rs) := by
  refine hk.then hm ?_
  clear hk hm
  unfold State.refuse
  try dsimp -proj only
  repeat' first
    | (with_reducible exact Keeps.refl _ _)
    | (with_reducible assumption)
    | decide
    | (with_reducible apply State.progFaultAt_keeps)
    | (with_reducible refine Keeps.foldl ?_ (fun _ _ _ => ?_))

theorem State.displace_keeps {vs : List View} {u₀ : State} {s : State} {c : Core} {rs : List (Nat × Nat)} (hk : Keeps vs u₀ s) (hm : [.tens] ⊆ vs) : Keeps vs u₀ (State.displace s c rs) := by
  refine hk.then hm ?_
  clear hk hm
  unfold State.displace
  try dsimp -proj only
  repeat' first
    | (with_reducible exact Keeps.refl _ _)
    | (with_reducible assumption)
    | (with_reducible exact Or.inl rfl)
    | exact Or.inr (by decide)
    | decide
    | (with_reducible apply State.modTen_keeps)
    | (with_reducible refine Keeps.foldl ?_ (fun _ _ _ => ?_))
    | (with_reducible refine Keeps.foldlFst ?_ (fun _ _ _ => ?_))
    | (with_reducible refine Keeps.ite ?_ ?_)

theorem State.claimSlots_keeps {vs : List View} {u₀ : State} {s : State} {c : Core} {ch : Nat} {rs : List (Nat × Nat)} (hk : Keeps vs u₀ s) (hm : [.service, .tens, .counters, .fabric, .mgmt, .power] ⊆ vs) : KeepsR vs u₀ (State.claimSlots s c ch rs) := by
  refine KeepsR.then hk hm ?_
  clear hk hm
  unfold State.claimSlots
  try dsimp -proj only
  repeat' first
    | (with_reducible exact Keeps.refl _ _)
    | (with_reducible assumption)
    | (with_reducible exact Or.inl rfl)
    | exact Or.inr (by decide)
    | decide
    | (with_reducible apply need_noAfter)
    | (with_reducible apply State.placeReqs_keeps)
    | (with_reducible apply State.refuse_keeps)
    | (with_reducible apply State.displace_keeps)
    | (with_reducible refine Keeps.ite ?_ ?_)
    | (with_reducible refine KeepsR.bindS ?_ (fun _ _ => ?_))
    | (with_reducible refine KeepsR.bind ?_ (fun _ => ?_))
    | (with_reducible refine KeepsR.ite ?_ ?_)
    | (with_reducible refine KeepsR.ok ?_)
    | (with_reducible refine KeepsR.pure ?_)
    | (with_reducible exact KeepsR.fault)
    | (with_reducible exact KeepsR.throwFault)
    | (with_reducible refine KeepsR.after ?_)
    | (with_reducible refine KeepsR.throwAfter ?_)
    | (with_reducible exact NoAfter.need)
    | (with_reducible exact NoAfter.ok)
    | (with_reducible exact NoAfter.pure)
    | (with_reducible exact NoAfter.fault)
    | (with_reducible refine NoAfter.bind ?_ (fun _ => ?_))
    | (with_reducible refine NoAfter.map ?_)
    | (with_reducible refine NoAfter.ite ?_ ?_)
    | (with_reducible refine Keeps.upd ?_ rfl rfl ?_ ?_ ?_ ?_ ?_ ?_ ?_ ?_ ?_ ?_ ?_ ?_ ?_; rotate_left; fail_if_success (iterate 13 (with_reducible exact Or.inl rfl)))
    | ((with_reducible refine Or.inr (?_ : HbmOk _ _ _)); simp +contextual [HbmOk, hbmPut_wf, hbmFilter_wf, hbmClear_wf])

theorem State.resumeReqs_keeps {vs : List View} {u₀ : State} {s : State} {t : Nat} (hk : Keeps vs u₀ s) (hm : [.service, .tens, .counters, .fabric, .mgmt, .power] ⊆ vs) : Keeps vs u₀ (State.resumeReqs s t) := by
  refine hk.then hm ?_
  clear hk hm
  unfold State.resumeReqs
  try dsimp -proj only
  repeat' first
    | (with_reducible exact Keeps.refl _ _)
    | (with_reducible assumption)
    | (with_reducible exact Or.inl rfl)
    | exact Or.inr (by decide)
    | decide
    | (with_reducible apply State.placeReqs_keeps)
    | (with_reducible apply State.refuse_keeps)
    | (with_reducible refine Keeps.upd ?_ rfl rfl ?_ ?_ ?_ ?_ ?_ ?_ ?_ ?_ ?_ ?_ ?_ ?_ ?_; rotate_left; fail_if_success (iterate 13 (with_reducible exact Or.inl rfl)))
    | ((with_reducible refine Or.inr (?_ : HbmOk _ _ _)); simp +contextual [HbmOk, hbmPut_wf, hbmFilter_wf, hbmClear_wf])

end Sys2Proof.Machine
end

