-- ==== Sys2Proof/Laws/TickKeeps.lean ====
section
/-! SUPPORT. What each operation of Machine/Tick.lean may change: the parts named, the queue and the identity never, and no canonical form. -/

namespace Sys2Proof.Machine

open Sys2Proof

theorem State.countIdle_keeps {vs : List View} {u₀ : State} {s : State} {t n : Nat} (hk : Keeps vs u₀ s) (hm : [.counters] ⊆ vs) : Keeps vs u₀ (State.countIdle s t n) := by
  refine hk.then hm ?_
  clear hk hm
  unfold State.countIdle
  try dsimp -proj only
  repeat' first
    | (with_reducible exact Keeps.refl _ _)
    | (with_reducible assumption)
    | decide
    | (with_reducible apply State.countCore_keeps)
    | (with_reducible refine Keeps.foldl ?_ (fun _ _ _ => ?_))
    | (with_reducible refine Keeps.foldlFst ?_ (fun _ _ _ => ?_))
    | (with_reducible refine Keeps.ite ?_ ?_)

theorem State.addStall_keeps {vs : List View} {u₀ : State} {s : State} {t n : Nat} (hk : Keeps vs u₀ s) (hm : [.tens] ⊆ vs) : Keeps vs u₀ (State.addStall s t n) := by
  refine hk.then hm ?_
  clear hk hm
  unfold State.addStall
  try dsimp -proj only
  repeat' first
    | (with_reducible exact Keeps.refl _ _)
    | (with_reducible assumption)
    | (with_reducible exact Or.inl rfl)
    | exact Or.inr (by decide)
    | decide
    | (with_reducible apply State.modTen_keeps)
    | (with_reducible refine Keeps.ite ?_ ?_)

theorem State.settleMerges_keeps {vs : List View} {u₀ : State} {s : State} (hk : Keeps vs u₀ s) (hm : [.cs, .mbox, .merges, .words, .tens, .counters, .fabric, .mgmt, .power] ⊆ vs) : Keeps vs u₀ (State.settleMerges s) := by
  refine hk.then hm ?_
  clear hk hm
  unfold State.settleMerges
  try dsimp -proj only
  repeat' first
    | (with_reducible exact Keeps.refl _ _)
    | (with_reducible assumption)
    | (with_reducible exact Or.inl rfl)
    | exact Or.inr (by decide)
    | decide
    | (with_reducible apply State.closeMerge_keeps)
    | (with_reducible refine Keeps.foldl ?_ (fun _ _ _ => ?_))
    | (with_reducible refine Keeps.foldlFst ?_ (fun _ _ _ => ?_))
    | (with_reducible refine Keeps.ite ?_ ?_)

theorem State.pass_keeps {vs : List View} {u₀ : State} {s : State} {n : Nat} (hk : Keeps vs u₀ s) (hm : [.cs, .mbox, .merges, .words, .tens, .counters, .fabric, .time, .mgmt, .power] ⊆ vs) : Keeps vs u₀ (State.pass s n) := by
  refine hk.then hm ?_
  clear hk hm
  unfold State.pass
  try dsimp -proj only
  repeat' first
    | (with_reducible exact Keeps.refl _ _)
    | (with_reducible assumption)
    | (with_reducible exact Or.inl rfl)
    | exact Or.inr (by decide)
    | decide
    | (with_reducible apply State.countChip_keeps)
    | (with_reducible apply State.countIdle_keeps)
    | (with_reducible apply State.addStall_keeps)
    | (with_reducible apply State.settleMerges_keeps)
    | (with_reducible refine Keeps.foldl ?_ (fun _ _ _ => ?_))
    | (with_reducible refine Keeps.foldlFst ?_ (fun _ _ _ => ?_))
    | (with_reducible refine Keeps.ite ?_ ?_)
    | (with_reducible refine Keeps.upd ?_ rfl rfl ?_ ?_ ?_ ?_ ?_ ?_ ?_ ?_ ?_ ?_ ?_ ?_ ?_; rotate_left; fail_if_success (iterate 13 (with_reducible exact Or.inl rfl)))

theorem State.passTo_keeps {vs : List View} {u₀ : State} {s : State} {v : Nat} (hk : Keeps vs u₀ s) (hm : [.cs, .mbox, .merges, .words, .tens, .counters, .fabric, .time, .mgmt, .power] ⊆ vs) : Keeps vs u₀ (State.passTo s v) := by
  refine hk.then hm ?_
  clear hk hm
  unfold State.passTo
  try dsimp -proj only
  repeat' first
    | (with_reducible exact Keeps.refl _ _)
    | (with_reducible assumption)
    | decide
    | (with_reducible apply State.pass_keeps)

end Sys2Proof.Machine
end

