-- ==== Sys2Proof/Laws/FabricKeeps.lean ====
section
/-! SUPPORT. What each operation of Machine/Fabric.lean may change: the parts named, the queue and the identity never, and no canonical form. -/

namespace Sys2Proof.Machine

open Sys2Proof

theorem State.jobEnds_keeps {vs : List View} {u₀ : State} {s : State} {t : Nat} {code : BitVec 8} (hk : Keeps vs u₀ s) (hm : [.tens, .counters, .fabric, .power] ⊆ vs) : Keeps vs u₀ (State.jobEnds s t code) := by
  refine hk.then hm ?_
  clear hk hm
  unfold State.jobEnds
  try dsimp -proj only
  repeat' first
    | (with_reducible exact Keeps.refl _ _)
    | (with_reducible assumption)
    | decide
    | (with_reducible apply State.modTen_keeps)
    | (with_reducible apply State.endError_keeps)
    | (with_reducible refine Keeps.ite ?_ ?_)

theorem State.jobFatal_keeps {vs : List View} {u₀ : State} {s : State} {t k : Nat} (hk : Keeps vs u₀ s) (hm : [.tens, .counters, .fabric, .power] ⊆ vs) : Keeps vs u₀ (State.jobFatal s t k) := by
  refine hk.then hm ?_
  clear hk hm
  unfold State.jobFatal
  try dsimp -proj only
  repeat' first
    | (with_reducible exact Keeps.refl _ _)
    | (with_reducible assumption)
    | decide
    | (with_reducible apply State.jobEnds_keeps)

theorem State.portFails_keeps {vs : List View} {u₀ : State} {s : State} {p : Port} (hk : Keeps vs u₀ s) (hm : [.fabric, .mgmt] ⊆ vs) : Keeps vs u₀ (State.portFails s p) := by
  refine hk.then hm ?_
  clear hk hm
  unfold State.portFails
  try dsimp -proj only
  repeat' first
    | (with_reducible exact Keeps.refl _ _)
    | (with_reducible assumption)
    | (with_reducible exact Or.inl rfl)
    | exact Or.inr (by decide)
    | decide
    | (with_reducible apply State.addFigure_keeps)
    | (with_reducible apply State.modPort_keeps)
    | (with_reducible apply State.requestAssay_keeps)
    | (with_reducible apply State.failOver_keeps)
    | (with_reducible refine Keeps.ite ?_ ?_)

theorem State.failOver_keeps {vs : List View} {u₀ : State} {s : State} {t ch peer : Nat} (hk : Keeps vs u₀ s) (hm : [.tens, .counters, .fabric, .mgmt, .power] ⊆ vs) : Keeps vs u₀ (State.failOver s t ch peer) := by
  refine hk.then hm ?_
  clear hk hm
  unfold State.failOver
  try dsimp -proj only
  repeat' first
    | (with_reducible exact Keeps.refl _ _)
    | (with_reducible assumption)
    | (with_reducible exact Or.inl rfl)
    | exact Or.inr (by decide)
    | decide
    | (with_reducible apply State.countTen_keeps)
    | (with_reducible apply State.setSend_keeps)
    | (with_reducible apply State.goBack_keeps)
    | (with_reducible apply State.dayTen_keeps)
    | (with_reducible apply State.jobFatal_keeps)
    | (with_reducible apply State.portFails_keeps)
    | (with_reducible refine Keeps.upd ?_ rfl rfl ?_ ?_ ?_ ?_ ?_ ?_ ?_ ?_ ?_ ?_ ?_ ?_ ?_; rotate_left; fail_if_success (iterate 13 (with_reducible exact Or.inl rfl)))
    | split

theorem State.checkFrame_keeps {vs : List View} {u₀ : State} {s : State} {p : Port} {f : Frame} {bad peerOk : Bool} (hk : Keeps vs u₀ s) (hm : [.tens, .counters, .mgmt, .power] ⊆ vs) : Keeps vs u₀ (State.checkFrame s p f bad peerOk).1 := by
  refine hk.then hm ?_
  clear hk hm
  unfold State.checkFrame
  try dsimp -proj only
  repeat' first
    | (with_reducible exact Keeps.refl _ _)
    | (with_reducible assumption)
    | decide
    | (with_reducible apply State.count_keeps)
    | (with_reducible apply State.countTen_keeps)
    | (with_reducible apply State.chargeFrame_keeps)
    | (with_reducible apply State.daybook_keeps)
    | (with_reducible refine Keeps.ite ?_ ?_)
    | split

theorem State.sendNak_keeps {vs : List View} {u₀ : State} {s : State} {p : Port} {t ch peer : Nat} (hk : Keeps vs u₀ s) (hm : [.tens, .counters, .fabric, .power] ⊆ vs) : Keeps vs u₀ (State.sendNak s p t ch peer) := by
  refine hk.then hm ?_
  clear hk hm
  unfold State.sendNak
  try dsimp -proj only
  repeat' first
    | (with_reducible exact Keeps.refl _ _)
    | (with_reducible assumption)
    | (with_reducible exact Or.inl rfl)
    | exact Or.inr (by decide)
    | decide
    | (with_reducible apply State.countTen_keeps)
    | (with_reducible apply State.emitFrame_keeps)
    | (with_reducible apply State.setRecv_keeps)

theorem State.receive_keeps {vs : List View} {u₀ : State} {s : State} {p : Port} {f : Frame} {bad peerOk : Bool} (hk : Keeps vs u₀ s) (hm : [.tens, .counters, .fabric, .mgmt, .power] ⊆ vs) : Keeps vs u₀ (State.receive s p f bad peerOk).1 := by
  refine hk.then hm ?_
  clear hk hm
  unfold State.receive
  try dsimp -proj only
  repeat' first
    | (with_reducible exact Keeps.refl _ _)
    | (with_reducible assumption)
    | (with_reducible exact Or.inl rfl)
    | exact Or.inr (by decide)
    | decide
    | (with_reducible apply State.countTen_keeps)
    | (with_reducible apply State.setRecv_keeps)
    | (with_reducible apply State.takeBack_keeps)
    | (with_reducible apply State.checkFrame_keeps)
    | (with_reducible apply State.sendNak_keeps)
    | (with_reducible refine Keeps.ite ?_ ?_)
    | (with_reducible refine Keeps.upd ?_ rfl rfl ?_ ?_ ?_ ?_ ?_ ?_ ?_ ?_ ?_ ?_ ?_ ?_ ?_; rotate_left; fail_if_success (iterate 13 (with_reducible exact Or.inl rfl)))
    | split

theorem State.decodePayload_keeps {vs : List View} {u₀ : State} {s : State} {p : Port} {ws : List MemWord} (hk : Keeps vs u₀ s) (hm : [.counters] ⊆ vs) : Keeps vs u₀ (State.decodePayload s p ws).1 := by
  refine hk.then hm ?_
  clear hk hm
  unfold State.decodePayload
  try dsimp -proj only
  repeat' first
    | (with_reducible exact Keeps.refl _ _)
    | (with_reducible assumption)
    | (with_reducible exact Or.inl rfl)
    | exact Or.inr (by decide)
    | decide
    | (with_reducible apply State.count_keeps)
    | (with_reducible apply State.countChip_keeps)
    | (with_reducible refine Keeps.upd ?_ rfl rfl ?_ ?_ ?_ ?_ ?_ ?_ ?_ ?_ ?_ ?_ ?_ ?_ ?_; rotate_left; fail_if_success (iterate 13 (with_reducible exact Or.inl rfl)))
    | split

theorem State.receiveCtl_keeps {vs : List View} {u₀ : State} {s : State} {p : Port} {f : Frame} {bad : Bool} (hk : Keeps vs u₀ s) (hm : [.tens, .counters, .fabric, .mgmt, .power] ⊆ vs) : Keeps vs u₀ (State.receiveCtl s p f bad).1 := by
  refine hk.then hm ?_
  clear hk hm
  unfold State.receiveCtl
  try dsimp -proj only
  repeat' first
    | (with_reducible exact Keeps.refl _ _)
    | (with_reducible assumption)
    | decide
    | (with_reducible apply State.receive_keeps)
    | (with_reducible apply State.decodePayload_keeps)
    | (with_reducible refine Keeps.ite ?_ ?_)
    | split

end Sys2Proof.Machine
end

