-- ==== Sys2Proof/Laws/BlanksKeeps.lean ====
section
/-! SUPPORT. What each operation of Machine/Blanks.lean may change: the parts named, the queue and the identity never, and no canonical form. -/

namespace Sys2Proof.Machine

open Sys2Proof

theorem State.modCourse_keeps {vs : List View} {u₀ : State} {s : State} {t : Nat} {f : Course → Course} (hk : Keeps vs u₀ s) (hm : [.tens] ⊆ vs) : Keeps vs u₀ (State.modCourse s t f) := by
  refine hk.then hm ?_
  clear hk hm
  unfold State.modCourse
  try dsimp -proj only
  repeat' first
    | (with_reducible exact Keeps.refl _ _)
    | (with_reducible assumption)
    | (with_reducible exact Or.inl rfl)
    | exact Or.inr (by decide)
    | decide
    | (with_reducible apply State.modTen_keeps)

theorem State.sendBlank_keeps {vs : List View} {u₀ : State} {s : State} {t c : Nat} {cause : BitVec 3} (hk : Keeps vs u₀ s) (hm : [.tens, .counters, .fabric, .power] ⊆ vs) : Keeps vs u₀ (State.sendBlank s t c cause) := by
  refine hk.then hm ?_
  clear hk hm
  unfold State.sendBlank
  try dsimp -proj only
  repeat' first
    | (with_reducible exact Keeps.refl _ _)
    | (with_reducible assumption)
    | (with_reducible exact Or.inl rfl)
    | exact Or.inr (by decide)
    | decide
    | (with_reducible apply State.countTen_keeps)
    | (with_reducible apply State.broadcast_keeps)
    | (with_reducible apply State.jobFatal_keeps)
    | (with_reducible apply State.modCourse_keeps)
    | (with_reducible refine Keeps.ite ?_ ?_)

theorem State.announce_keeps {vs : List View} {u₀ : State} {s : State} {t c : Nat} {cause : BitVec 3} (hk : Keeps vs u₀ s) (hm : [.tens, .counters, .fabric, .power] ⊆ vs) : Keeps vs u₀ (State.announce s t c cause) := by
  refine hk.then hm ?_
  clear hk hm
  unfold State.announce
  try dsimp -proj only
  repeat' first
    | (with_reducible exact Keeps.refl _ _)
    | (with_reducible assumption)
    | decide
    | (with_reducible apply State.sendBlank_keeps)

theorem State.keepBlank_keeps {vs : List View} {u₀ : State} {s : State} {t c : Nat} {cause : BitVec 3} (hk : Keeps vs u₀ s) (hm : [.tens, .counters, .fabric, .power] ⊆ vs) : Keeps vs u₀ (State.keepBlank s t c cause) := by
  refine hk.then hm ?_
  clear hk hm
  unfold State.keepBlank
  try dsimp -proj only
  repeat' first
    | (with_reducible exact Keeps.refl _ _)
    | (with_reducible assumption)
    | (with_reducible exact Or.inl rfl)
    | exact Or.inr (by decide)
    | decide
    | (with_reducible apply State.sendBlank_keeps)
    | (with_reducible refine Keeps.ite ?_ ?_)
    | (with_reducible refine Keeps.upd ?_ rfl rfl ?_ ?_ ?_ ?_ ?_ ?_ ?_ ?_ ?_ ?_ ?_ ?_ ?_; rotate_left; fail_if_success (iterate 13 (with_reducible exact Or.inl rfl)))
    | split

theorem State.slip_keeps {vs : List View} {u₀ : State} {s : State} {t c : Nat} (hk : Keeps vs u₀ s) (hm : [.tens, .counters, .fabric, .power] ⊆ vs) : Keeps vs u₀ (State.slip s t c) := by
  refine hk.then hm ?_
  clear hk hm
  unfold State.slip
  try dsimp -proj only
  repeat' first
    | (with_reducible exact Keeps.refl _ _)
    | (with_reducible assumption)
    | (with_reducible exact Or.inl rfl)
    | exact Or.inr (by decide)
    | decide
    | (with_reducible apply State.countTen_keeps)
    | (with_reducible apply State.jobFatal_keeps)
    | (with_reducible apply State.modCourse_keeps)
    | (with_reducible apply State.announce_keeps)
    | (with_reducible refine Keeps.ite ?_ ?_)

theorem State.planSwap_keeps {vs : List View} {u₀ : State} {s : State} {t take : Nat} (hk : Keeps vs u₀ s) (hm : [.tens, .counters, .fabric, .power] ⊆ vs) : Keeps vs u₀ (State.planSwap s t take) := by
  refine hk.then hm ?_
  clear hk hm
  unfold State.planSwap
  try dsimp -proj only
  repeat' first
    | (with_reducible exact Keeps.refl _ _)
    | (with_reducible assumption)
    | (with_reducible exact Or.inl rfl)
    | exact Or.inr (by decide)
    | decide
    | (with_reducible apply State.modCourse_keeps)
    | (with_reducible apply State.sendBlank_keeps)
    | (with_reducible refine Keeps.ite ?_ ?_)
    | (with_reducible refine Keeps.upd ?_ rfl rfl ?_ ?_ ?_ ?_ ?_ ?_ ?_ ?_ ?_ ?_ ?_ ?_ ?_; rotate_left; fail_if_success (iterate 13 (with_reducible exact Or.inl rfl)))
    | split

end Sys2Proof.Machine
end

