-- ==== Sys2Proof/Laws/MatrixKeeps.lean ====
section
/-! SUPPORT. What each operation of Machine/Matrix.lean may change: the parts named, the queue and the identity never, and no canonical form. -/

namespace Sys2Proof.Machine

open Sys2Proof

theorem prodP_noAfter {s : State} {c : Core} {p : Prod} {q k : Nat} : NoAfter (prodP s c p q k) := by
  unfold prodP
  try dsimp -proj only
  repeat' first
    | (with_reducible apply need_noAfter)
    | (with_reducible apply csRange_noAfter)
    | (with_reducible apply tileScale_noAfter)
    | (with_reducible exact NoAfter.need)
    | (with_reducible exact NoAfter.ok)
    | (with_reducible exact NoAfter.pure)
    | (with_reducible exact NoAfter.fault)
    | (with_reducible refine NoAfter.bind ?_ (fun _ => ?_))
    | (with_reducible refine NoAfter.map ?_)
    | (with_reducible refine NoAfter.ite ?_ ?_)

theorem prodQ_noAfter {s : State} {c : Core} {p : Prod} {k e h : Nat} : NoAfter (prodQ s c p k e h) := by
  unfold prodQ
  try dsimp -proj only
  repeat' first
    | (with_reducible apply need_noAfter)
    | (with_reducible apply csRange_noAfter)
    | (with_reducible apply tileScale_noAfter)
    | (with_reducible exact NoAfter.need)
    | (with_reducible exact NoAfter.ok)
    | (with_reducible exact NoAfter.pure)
    | (with_reducible exact NoAfter.fault)
    | (with_reducible refine NoAfter.bind ?_ (fun _ => ?_))
    | (with_reducible refine NoAfter.map ?_)
    | (with_reducible refine NoAfter.ite ?_ ?_)

theorem anchorEntry_noAfter {s : State} {c : Core} {i : Int} : NoAfter (anchorEntry s c i) := by
  unfold anchorEntry
  try dsimp -proj only
  repeat' first
    | (with_reducible apply need_noAfter)
    | (with_reducible apply csRange_noAfter)
    | (with_reducible apply needHall_noAfter)
    | (with_reducible exact NoAfter.need)
    | (with_reducible exact NoAfter.ok)
    | (with_reducible exact NoAfter.pure)
    | (with_reducible exact NoAfter.fault)
    | (with_reducible refine NoAfter.bind ?_ (fun _ => ?_))

theorem State.setEngine_keeps {vs : List View} {u₀ : State} {s : State} {c : Core} {e : Nat} {g : Engine} (hk : Keeps vs u₀ s) (hm : [.engines] ⊆ vs) : Keeps vs u₀ (State.setEngine s c e g) := by
  refine hk.then hm ?_
  clear hk hm
  unfold State.setEngine
  try dsimp -proj only
  repeat' first
    | (with_reducible exact Keeps.refl _ _)
    | (with_reducible assumption)
    | (with_reducible exact Or.inl rfl)
    | exact Or.inr (by decide)
    | decide
    | (with_reducible refine Keeps.upd ?_ rfl rfl ?_ ?_ ?_ ?_ ?_ ?_ ?_ ?_ ?_ ?_ ?_ ?_ ?_; rotate_left; fail_if_success (iterate 13 (with_reducible exact Or.inl rfl)))
    | ((with_reducible refine Or.inr (?_ : CoresOk _ _ _)); simp +contextual [CoresOk, Cores.wf, memPut_wf, memPuts_wf, memClear_wf, memFilter_wf])

theorem State.countEng_keeps {vs : List View} {u₀ : State} {s : State} {c : Core} {e i n : Nat} (hk : Keeps vs u₀ s) (hm : [.counters] ⊆ vs) : Keeps vs u₀ (State.countEng s c e i n) := by
  refine hk.then hm ?_
  clear hk hm
  unfold State.countEng
  try dsimp -proj only
  repeat' first
    | (with_reducible exact Keeps.refl _ _)
    | (with_reducible assumption)
    | decide
    | (with_reducible apply State.countCore_keeps)

theorem mapOf_noAfter {s : State} {c : Core} {d : BitVec 512} : NoAfter (mapOf s c d) := by
  unfold mapOf
  try dsimp -proj only
  repeat' first
    | (with_reducible apply need_noAfter)
    | (with_reducible apply latch_noAfter)
    | (with_reducible exact NoAfter.need)
    | (with_reducible exact NoAfter.ok)
    | (with_reducible exact NoAfter.pure)
    | (with_reducible exact NoAfter.fault)
    | (with_reducible refine NoAfter.bind ?_ (fun _ => ?_))

theorem prodOf_noAfter {s : State} {c : Core} {d : BitVec 512} {bank x xq : Nat} : NoAfter (prodOf s c d bank x xq) := by
  unfold prodOf
  try dsimp -proj only
  repeat' first
    | (with_reducible apply need_noAfter)
    | (with_reducible apply mapOf_noAfter)
    | (with_reducible exact NoAfter.need)
    | (with_reducible exact NoAfter.ok)
    | (with_reducible exact NoAfter.pure)
    | (with_reducible exact NoAfter.fault)
    | (with_reducible refine NoAfter.bind ?_ (fun _ => ?_))
    | (with_reducible refine NoAfter.map ?_)
    | (with_reducible refine NoAfter.ite ?_ ?_)

theorem suppliedAnchors_noAfter {s : State} {c : Core} {p : Prod} {qs : List Nat} : NoAfter (suppliedAnchors s c p qs) := by
  unfold suppliedAnchors
  try dsimp -proj only
  repeat' first
    | (with_reducible apply anchorEntry_noAfter)
    | (with_reducible exact NoAfter.need)
    | (with_reducible exact NoAfter.ok)
    | (with_reducible exact NoAfter.pure)
    | (with_reducible exact NoAfter.fault)
    | (with_reducible refine NoAfter.mapM (fun _ => ?_))
    | (with_reducible refine NoAfter.bind ?_ (fun _ => ?_))

theorem localExps_noAfter {s : State} {c : Core} {p : Prod} {qs : List Nat} : NoAfter (localExps s c p qs) := by
  unfold localExps
  try dsimp -proj only
  repeat' first
    | (with_reducible apply prodP_noAfter)
    | (with_reducible apply prodQ_noAfter)
    | (with_reducible exact NoAfter.need)
    | (with_reducible exact NoAfter.ok)
    | (with_reducible exact NoAfter.pure)
    | (with_reducible exact NoAfter.fault)
    | (with_reducible refine NoAfter.mapM (fun _ => ?_))
    | (with_reducible refine NoAfter.flatMapM (fun _ => ?_))
    | (with_reducible refine NoAfter.bind ?_ (fun _ => ?_))
    | (with_reducible refine NoAfter.map ?_)
    | (with_reducible refine NoAfter.ite ?_ ?_)

theorem prepare_noAfter {s : State} {c : Core} {d : BitVec 512} {bank x xq : Nat} : NoAfter (prepare s c d bank x xq) := by
  unfold prepare
  try dsimp -proj only
  repeat' first
    | (with_reducible apply prodOf_noAfter)
    | (with_reducible apply suppliedAnchors_noAfter)
    | (with_reducible apply localExps_noAfter)
    | (with_reducible exact NoAfter.need)
    | (with_reducible exact NoAfter.ok)
    | (with_reducible exact NoAfter.pure)
    | (with_reducible exact NoAfter.fault)
    | (with_reducible refine NoAfter.bind ?_ (fun _ => ?_))
    | (with_reducible refine NoAfter.map ?_)
    | (with_reducible refine NoAfter.ite ?_ ?_)

theorem inStore_noAfter {s : State} {c : Core} {as : List Nat} : NoAfter (inStore s c as) := by
  unfold inStore
  try dsimp -proj only
  repeat' first
    | (with_reducible apply csRange_noAfter)
    | (with_reducible exact NoAfter.need)
    | (with_reducible exact NoAfter.ok)
    | (with_reducible exact NoAfter.pure)
    | (with_reducible exact NoAfter.fault)
    | (with_reducible refine NoAfter.mapM (fun _ => ?_))

theorem readsP_noAfter {s : State} {c : Core} {p : Prod} : NoAfter (readsP s c p) := by
  unfold readsP
  try dsimp -proj only
  repeat' first
    | (with_reducible apply prodP_noAfter)
    | (with_reducible apply inStore_noAfter)
    | (with_reducible exact NoAfter.need)
    | (with_reducible exact NoAfter.ok)
    | (with_reducible exact NoAfter.pure)
    | (with_reducible exact NoAfter.fault)
    | (with_reducible refine NoAfter.flatMapM (fun _ => ?_))
    | (with_reducible refine NoAfter.bind ?_ (fun _ => ?_))

theorem readsPsh_noAfter {s : State} {c : Core} {p : Prod} : NoAfter (readsPsh s c p) := by
  unfold readsPsh
  try dsimp -proj only
  repeat' first
    | (with_reducible apply prodP_noAfter)
    | (with_reducible apply inStore_noAfter)
    | (with_reducible exact NoAfter.need)
    | (with_reducible exact NoAfter.ok)
    | (with_reducible exact NoAfter.pure)
    | (with_reducible exact NoAfter.fault)
    | (with_reducible refine NoAfter.flatMapM (fun _ => ?_))
    | (with_reducible refine NoAfter.bind ?_ (fun _ => ?_))
    | (with_reducible refine NoAfter.map ?_)
    | (with_reducible refine NoAfter.ite ?_ ?_)

theorem qWords_noAfter {s : State} {c : Core} {p : Prod} {e b : Nat} : NoAfter (qWords s c p e b) := by
  unfold qWords
  try dsimp -proj only
  repeat' first
    | (with_reducible apply prodQ_noAfter)
    | (with_reducible apply inStore_noAfter)
    | (with_reducible exact NoAfter.need)
    | (with_reducible exact NoAfter.ok)
    | (with_reducible exact NoAfter.pure)
    | (with_reducible exact NoAfter.fault)
    | (with_reducible refine NoAfter.mapM (fun _ => ?_))
    | (with_reducible refine NoAfter.bind ?_ (fun _ => ?_))

theorem readsQ_noAfter {s : State} {c : Core} {p : Prod} : NoAfter (readsQ s c p) := by
  unfold readsQ
  try dsimp -proj only
  repeat' first
    | (with_reducible apply qWords_noAfter)
    | (with_reducible exact NoAfter.need)
    | (with_reducible exact NoAfter.ok)
    | (with_reducible exact NoAfter.pure)
    | (with_reducible exact NoAfter.fault)
    | (with_reducible refine NoAfter.mapM (fun _ => ?_))
    | (with_reducible refine NoAfter.flatMapM (fun _ => ?_))

theorem tilesQ_noAfter {s : State} {c : Core} {p : Prod} : NoAfter (tilesQ s c p) := by
  unfold tilesQ
  try dsimp -proj only
  repeat' first
    | (with_reducible apply prodQ_noAfter)
    | (with_reducible exact NoAfter.need)
    | (with_reducible exact NoAfter.ok)
    | (with_reducible exact NoAfter.pure)
    | (with_reducible exact NoAfter.fault)
    | (with_reducible refine NoAfter.mapM (fun _ => ?_))
    | (with_reducible refine NoAfter.flatMapM (fun _ => ?_))
    | (with_reducible refine NoAfter.bind ?_ (fun _ => ?_))

theorem prodOps_noAfter {s : State} {c : Core} {p : Prod} : NoAfter (prodOps s c p) := by
  unfold prodOps
  try dsimp -proj only
  repeat' first
    | (with_reducible apply need_noAfter)
    | (with_reducible apply needHall_noAfter)
    | (with_reducible apply readsP_noAfter)
    | (with_reducible apply readsPsh_noAfter)
    | (with_reducible apply readsQ_noAfter)
    | (with_reducible apply tilesQ_noAfter)
    | (with_reducible exact NoAfter.need)
    | (with_reducible exact NoAfter.ok)
    | (with_reducible exact NoAfter.pure)
    | (with_reducible exact NoAfter.fault)
    | (with_reducible refine NoAfter.bind ?_ (fun _ => ?_))

theorem State.strikeAccs_keeps {vs : List View} {u₀ : State} {s : State} {c : Core} (hk : Keeps vs u₀ s) (hm : [.acc, .upsets] ⊆ vs) : Keeps vs u₀ (State.strikeAccs s c) := by
  refine hk.then hm ?_
  clear hk hm
  unfold State.strikeAccs
  try dsimp -proj only
  repeat' first
    | (with_reducible exact Keeps.refl _ _)
    | (with_reducible assumption)
    | (with_reducible exact Or.inl rfl)
    | exact Or.inr (by decide)
    | decide
    | (with_reducible refine Keeps.foldl ?_ (fun _ _ _ => ?_))
    | (with_reducible refine Keeps.foldlFst ?_ (fun _ _ _ => ?_))
    | (with_reducible refine Keeps.ite ?_ ?_)
    | (with_reducible refine Keeps.upd ?_ rfl rfl ?_ ?_ ?_ ?_ ?_ ?_ ?_ ?_ ?_ ?_ ?_ ?_ ?_; rotate_left; fail_if_success (iterate 13 (with_reducible exact Or.inl rfl)))
    | ((with_reducible refine Or.inr (?_ : CoresOk _ _ _)); simp +contextual [CoresOk, Cores.wf, memPut_wf, memPuts_wf, memClear_wf, memFilter_wf])
    | split

theorem State.residueMiss_keeps {vs : List View} {u₀ : State} {s : State} {c : Core} {e : Nat} {x : Miss} (hk : Keeps vs u₀ s) (hm : [.tens, .counters, .fabric, .mgmt, .power] ⊆ vs) : Keeps vs u₀ (State.residueMiss s c e x) := by
  refine hk.then hm ?_
  clear hk hm
  unfold State.residueMiss
  try dsimp -proj only
  repeat' first
    | (with_reducible exact Keeps.refl _ _)
    | (with_reducible assumption)
    | decide
    | (with_reducible apply State.dayCore_keeps)
    | (with_reducible apply State.arithFault_keeps)
    | (with_reducible apply State.countEng_keeps)

theorem prodRow_noAfter {s : State} {c : Core} {p : Prod} {q : Option (Core × Prod)} {bads : List Nat} {cast : Bool} {k r col : Nat} : NoAfter (prodRow s c p q bads cast k r col) := by
  unfold prodRow
  try dsimp -proj only
  repeat' first
    | (with_reducible apply prodP_noAfter)
    | (with_reducible apply prodQ_noAfter)
    | (with_reducible exact NoAfter.need)
    | (with_reducible exact NoAfter.ok)
    | (with_reducible exact NoAfter.pure)
    | (with_reducible exact NoAfter.fault)
    | (with_reducible exact NoAfter.throwPoison)
    | (with_reducible refine NoAfter.foldlM (fun _ _ => ?_))
    | (with_reducible refine NoAfter.bind ?_ (fun _ => ?_))

theorem gatedBlocks_noAfter {s : State} {c : Core} {p : Prod} {q : Option (Core × Prod)} : NoAfter (gatedBlocks s c p q) := by
  unfold gatedBlocks
  try dsimp -proj only
  repeat' first
    | (with_reducible apply prodP_noAfter)
    | (with_reducible exact NoAfter.need)
    | (with_reducible exact NoAfter.ok)
    | (with_reducible exact NoAfter.pure)
    | (with_reducible exact NoAfter.fault)
    | (with_reducible refine NoAfter.foldlM (fun _ _ => ?_))
    | (with_reducible refine NoAfter.bind ?_ (fun _ => ?_))

theorem prodWork_noAfter {s : State} {c : Core} {p : Prod} {q : Option (Core × Prod)} {loads : List QWords} : NoAfter (prodWork s c p q loads) := by
  unfold prodWork
  try dsimp -proj only
  repeat' first
    | (with_reducible apply prodRow_noAfter)
    | (with_reducible apply gatedBlocks_noAfter)
    | (with_reducible exact NoAfter.need)
    | (with_reducible exact NoAfter.ok)
    | (with_reducible exact NoAfter.pure)
    | (with_reducible exact NoAfter.fault)
    | (with_reducible refine NoAfter.mapM (fun _ => ?_))
    | (with_reducible refine NoAfter.flatMapM (fun _ => ?_))
    | (with_reducible refine NoAfter.bind ?_ (fun _ => ?_))

end Sys2Proof.Machine
end

