-- ==== Sys2Proof/Laws/MatrixRunKeeps.lean ====
section
/-! SUPPORT. What each operation of Machine/MatrixRun.lean may change: the parts named, the queue and the identity never, and no canonical form. -/

namespace Sys2Proof.Machine

open Sys2Proof

theorem State.freeRows_keeps {vs : List View} {u₀ : State} {s : State} {c : Core} {e place : Nat} {rows : List Nat} {halves : List Nat} (hk : Keeps vs u₀ s) (hm : [.acc] ⊆ vs) : Keeps vs u₀ (State.freeRows s c e place rows halves) := by
  refine hk.then hm ?_
  clear hk hm
  unfold State.freeRows
  try dsimp -proj only
  repeat' first
    | (with_reducible exact Keeps.refl _ _)
    | (with_reducible assumption)
    | (with_reducible exact Or.inl rfl)
    | exact Or.inr (by decide)
    | decide
    | (with_reducible refine Keeps.upd ?_ rfl rfl ?_ ?_ ?_ ?_ ?_ ?_ ?_ ?_ ?_ ?_ ?_ ?_ ?_; rotate_left; fail_if_success (iterate 13 (with_reducible exact Or.inl rfl)))
    | ((with_reducible refine Or.inr (?_ : CoresOk _ _ _)); simp +contextual [CoresOk, Cores.wf, memPut_wf, memPuts_wf, memClear_wf, memFilter_wf])

theorem State.freePlace_keeps {vs : List View} {u₀ : State} {s : State} {c : Core} {e place : Nat} (hk : Keeps vs u₀ s) (hm : [.acc] ⊆ vs) : Keeps vs u₀ (State.freePlace s c e place) := by
  refine hk.then hm ?_
  clear hk hm
  unfold State.freePlace
  try dsimp -proj only
  repeat' first
    | (with_reducible exact Keeps.refl _ _)
    | (with_reducible assumption)
    | (with_reducible exact Or.inl rfl)
    | exact Or.inr (by decide)
    | decide
    | (with_reducible refine Keeps.upd ?_ rfl rfl ?_ ?_ ?_ ?_ ?_ ?_ ?_ ?_ ?_ ?_ ?_ ?_ ?_; rotate_left; fail_if_success (iterate 13 (with_reducible exact Or.inl rfl)))
    | ((with_reducible refine Or.inr (?_ : CoresOk _ _ _)); simp +contextual [CoresOk, Cores.wf, memPut_wf, memPuts_wf, memClear_wf, memFilter_wf])

theorem State.movePlace_keeps {vs : List View} {u₀ : State} {s : State} {c : Core} {e place bank : Nat} (hk : Keeps vs u₀ s) (hm : [.acc] ⊆ vs) : Keeps vs u₀ (State.movePlace s c e place bank) := by
  refine hk.then hm ?_
  clear hk hm
  unfold State.movePlace
  try dsimp -proj only
  repeat' first
    | (with_reducible exact Keeps.refl _ _)
    | (with_reducible assumption)
    | (with_reducible exact Or.inl rfl)
    | exact Or.inr (by decide)
    | decide
    | (with_reducible apply State.freePlace_keeps)
    | (with_reducible refine Keeps.foldl ?_ (fun _ _ _ => ?_))
    | (with_reducible refine Keeps.foldlFst ?_ (fun _ _ _ => ?_))
    | (with_reducible refine Keeps.upd ?_ rfl rfl ?_ ?_ ?_ ?_ ?_ ?_ ?_ ?_ ?_ ?_ ?_ ?_ ?_; rotate_left; fail_if_success (iterate 13 (with_reducible exact Or.inl rfl)))
    | ((with_reducible refine Or.inr (?_ : CoresOk _ _ _)); simp +contextual [CoresOk, Cores.wf, memPut_wf, memPuts_wf, memClear_wf, memFilter_wf])

theorem State.settle1_keeps {vs : List View} {u₀ : State} {c : Core} {e : Nat} {s : State} {w : Wait} (hk : Keeps vs u₀ s) (hm : [.acc, .engines] ⊆ vs) : Keeps vs u₀ (State.settle1 c e s w) := by
  refine hk.then hm ?_
  clear hk hm
  unfold State.settle1
  try dsimp -proj only
  repeat' first
    | (with_reducible exact Keeps.refl _ _)
    | (with_reducible assumption)
    | (with_reducible exact Or.inl rfl)
    | exact Or.inr (by decide)
    | decide
    | (with_reducible apply State.setEngine_keeps)
    | (with_reducible apply State.movePlace_keeps)
    | (with_reducible refine Keeps.ite ?_ ?_)

theorem State.settle_keeps {vs : List View} {u₀ : State} {s : State} {c : Core} {e : Nat} (hk : Keeps vs u₀ s) (hm : [.acc, .engines] ⊆ vs) : Keeps vs u₀ (State.settle s c e) := by
  refine hk.then hm ?_
  clear hk hm
  unfold State.settle
  try dsimp -proj only
  repeat' first
    | (with_reducible exact Keeps.refl _ _)
    | (with_reducible assumption)
    | decide
    | (with_reducible apply State.settle1_keeps)
    | (with_reducible refine Keeps.foldl ?_ (fun _ _ _ => ?_))

theorem State.release_keeps {vs : List View} {u₀ : State} {s : State} {c : Core} {e bank : Nat} (hk : Keeps vs u₀ s) (hm : [.acc, .engines] ⊆ vs) : Keeps vs u₀ (State.release s c e bank) := by
  refine hk.then hm ?_
  clear hk hm
  unfold State.release
  try dsimp -proj only
  repeat' first
    | (with_reducible exact Keeps.refl _ _)
    | (with_reducible assumption)
    | decide
    | (with_reducible apply State.freePlace_keeps)
    | (with_reducible apply State.settle_keeps)

theorem State.dropSet_keeps {vs : List View} {u₀ : State} {s : State} {c : Core} {engs : List Nat} (hk : Keeps vs u₀ s) (hm : [.acc, .engines] ⊆ vs) : Keeps vs u₀ (State.dropSet s c engs) := by
  refine hk.then hm ?_
  clear hk hm
  unfold State.dropSet
  try dsimp -proj only
  repeat' first
    | (with_reducible exact Keeps.refl _ _)
    | (with_reducible assumption)
    | (with_reducible exact Or.inl rfl)
    | exact Or.inr (by decide)
    | decide
    | (with_reducible apply State.setEngine_keeps)
    | (with_reducible apply State.freePlace_keeps)
    | (with_reducible refine Keeps.foldl ?_ (fun _ _ _ => ?_))

theorem abandon_keeps {vs : List View} {u₀ : State} {c : Core} {engs : List Nat} {s : State} {r : Res State} (hk : Keeps vs u₀ s)
    (hr : KeepsR vs s r) (hm : [.acc, .engines] ⊆ vs) : KeepsR vs u₀ (abandon c engs s r) := by
  unfold abandon
  split
  · exact KeepsR.after (State.dropSet_keeps hk hm)
  · exact KeepsR.after (State.dropSet_keeps (hk.trans (hr _ (.inr ⟨_, _, rfl⟩))) hm)
  · exact fun t ht => hk.trans (hr t ht)

theorem State.pastDue_keeps {vs : List View} {u₀ : State} {s : State} {t : Nat} (hk : Keeps vs u₀ s) (hm : [.acc, .engines, .busy, .tens, .counters, .fabric, .mgmt, .power] ⊆ vs) : Keeps vs u₀ (State.pastDue s t) := by
  refine hk.then hm ?_
  clear hk hm
  unfold State.pastDue
  try dsimp -proj only
  repeat' first
    | (with_reducible exact Keeps.refl _ _)
    | (with_reducible assumption)
    | (with_reducible exact Or.inl rfl)
    | exact Or.inr (by decide)
    | decide
    | (with_reducible apply State.progFaultAt_keeps)
    | (with_reducible apply State.dropSet_keeps)
    | (with_reducible refine Keeps.foldl ?_ (fun _ _ _ => ?_))
    | (with_reducible refine Keeps.foldlFst ?_ (fun _ _ _ => ?_))
    | (with_reducible refine Keeps.ite ?_ ?_)
    | (with_reducible refine Keeps.upd ?_ rfl rfl ?_ ?_ ?_ ?_ ?_ ?_ ?_ ?_ ?_ ?_ ?_ ?_ ?_; rotate_left; fail_if_success (iterate 13 (with_reducible exact Or.inl rfl)))
    | ((with_reducible refine Or.inr (?_ : CoresOk _ _ _)); simp +contextual [CoresOk, Cores.wf, memPut_wf, memPuts_wf, memClear_wf, memFilter_wf])
    | split

theorem State.runTo_keeps {vs : List View} {u₀ : State} {s : State} {v : Nat} (hk : Keeps vs u₀ s) (hm : [.cs, .mbox, .acc, .engines, .busy, .merges, .words, .tens, .counters, .fabric, .time, .mgmt, .power] ⊆ vs) : Keeps vs u₀ (State.runTo s v) := by
  refine hk.then hm ?_
  clear hk hm
  unfold State.runTo
  try dsimp -proj only
  repeat' first
    | (with_reducible exact Keeps.refl _ _)
    | (with_reducible assumption)
    | (with_reducible exact Or.inl rfl)
    | exact Or.inr (by decide)
    | decide
    | (with_reducible apply State.passTo_keeps)
    | (with_reducible apply State.pastDue_keeps)
    | (with_reducible refine Keeps.foldl ?_ (fun _ _ _ => ?_))
    | (with_reducible refine Keeps.foldlFst ?_ (fun _ _ _ => ?_))
    | (with_reducible refine Keeps.ite ?_ ?_)
    | (with_reducible refine Keeps.upd ?_ rfl rfl ?_ ?_ ?_ ?_ ?_ ?_ ?_ ?_ ?_ ?_ ?_ ?_ ?_; rotate_left; fail_if_success (iterate 13 (with_reducible exact Or.inl rfl)))
    | split

theorem leaveRows_keeps {vs : List View} {u₀ : State} {c : Core} {p : Prod} {s : State} (hk : Keeps vs u₀ s) (hm : [.acc] ⊆ vs) : Keeps vs u₀ (leaveRows c p s) := by
  refine hk.then hm ?_
  clear hk hm
  unfold leaveRows
  try dsimp -proj only
  repeat' first
    | (with_reducible exact Keeps.refl _ _)
    | (with_reducible assumption)
    | decide
    | (with_reducible apply State.freeRows_keeps)
    | (with_reducible refine Keeps.foldl ?_ (fun _ _ _ => ?_))
    | (with_reducible refine Keeps.foldlFst ?_ (fun _ _ _ => ?_))
    | (with_reducible refine Keeps.ite ?_ ?_)

theorem State.strike_keeps {vs : List View} {u₀ : State} {s : State} {c : Core} {p : Prod} {e k : Nat} {ms : List Miss} (hk : Keeps vs u₀ s) (hm : [.tens, .counters, .fabric, .mgmt, .power, .upsets] ⊆ vs) : Keeps vs u₀ (State.strike s c p e k ms) := by
  refine hk.then hm ?_
  clear hk hm
  unfold State.strike
  try dsimp -proj only
  repeat' first
    | (with_reducible exact Keeps.refl _ _)
    | (with_reducible assumption)
    | (with_reducible exact Or.inl rfl)
    | exact Or.inr (by decide)
    | decide
    | (with_reducible apply State.poisonConsumed_keeps)
    | (with_reducible apply State.countEng_keeps)
    | (with_reducible apply State.residueMiss_keeps)
    | (with_reducible refine Keeps.foldl ?_ (fun _ _ _ => ?_))
    | (with_reducible refine Keeps.foldlFst ?_ (fun _ _ _ => ?_))
    | (with_reducible refine Keeps.ite ?_ ?_)
    | (with_reducible refine Keeps.upd ?_ rfl rfl ?_ ?_ ?_ ?_ ?_ ?_ ?_ ?_ ?_ ?_ ?_ ?_ ?_; rotate_left; fail_if_success (iterate 13 (with_reducible exact Or.inl rfl)))
    | split

theorem State.noteEngine_keeps {vs : List View} {u₀ : State} {s : State} {c : Core} {p : Prod} {v : ProdVals} {e k : Nat} (hk : Keeps vs u₀ s) (hm : [.tens, .counters, .fabric, .mgmt, .power, .upsets] ⊆ vs) : Keeps vs u₀ (State.noteEngine s c p v e k) := by
  refine hk.then hm ?_
  clear hk hm
  unfold State.noteEngine
  try dsimp -proj only
  repeat' first
    | (with_reducible exact Keeps.refl _ _)
    | (with_reducible assumption)
    | decide
    | (with_reducible apply State.chargeCoreE_keeps)
    | (with_reducible apply State.countEng_keeps)
    | (with_reducible apply State.strike_keeps)

theorem finishProd_keeps {vs : List View} {u₀ : State} {s : State} {c : Core} {p : Prod} {v : ProdVals} {now : Nat} {w : Sched} (hk : Keeps vs u₀ s) (hm : [.acc, .engines, .tens, .counters, .fabric, .mgmt, .power, .upsets] ⊆ vs) : Keeps vs u₀ (finishProd s c p v now w) := by
  refine hk.then hm ?_
  clear hk hm
  unfold finishProd
  try dsimp -proj only
  repeat' first
    | (with_reducible exact Keeps.refl _ _)
    | (with_reducible assumption)
    | (with_reducible exact Or.inl rfl)
    | exact Or.inr (by decide)
    | decide
    | (with_reducible apply State.countCore_keeps)
    | (with_reducible apply State.setEngine_keeps)
    | (with_reducible apply leaveRows_keeps)
    | (with_reducible apply State.noteEngine_keeps)
    | (with_reducible refine Keeps.foldl ?_ (fun _ _ _ => ?_))
    | (with_reducible refine Keeps.foldlFst ?_ (fun _ _ _ => ?_))
    | (with_reducible refine Keeps.ite ?_ ?_)
    | (with_reducible refine Keeps.upd ?_ rfl rfl ?_ ?_ ?_ ?_ ?_ ?_ ?_ ?_ ?_ ?_ ?_ ?_ ?_; rotate_left; fail_if_success (iterate 13 (with_reducible exact Or.inl rfl)))
    | ((with_reducible refine Or.inr (?_ : CoresOk _ _ _)); simp +contextual [CoresOk, Cores.wf, memPut_wf, memPuts_wf, memClear_wf, memFilter_wf])

theorem noteProd_keeps {vs : List View} {u₀ : State} {rd s : State} {c : Core} {p : Prod} {o : ProdOps} (hk : Keeps vs u₀ s) (hm : [.cs, .mbox, .words, .service, .stores, .tens, .counters, .fabric, .mgmt, .power, .fresh] ⊆ vs) : Keeps vs u₀ (noteProd rd s c p o) := by
  refine hk.then hm ?_
  clear hk hm
  unfold noteProd
  try dsimp -proj only
  repeat' first
    | (with_reducible exact Keeps.refl _ _)
    | (with_reducible assumption)
    | decide
    | (with_reducible apply State.chargeCore_keeps)
    | (with_reducible apply State.noteTile_keeps)
    | (with_reducible apply State.consume_keeps)
    | (with_reducible refine Keeps.foldl ?_ (fun _ _ _ => ?_))
    | (with_reducible refine Keeps.foldlFst ?_ (fun _ _ _ => ?_))
    | (with_reducible refine Keeps.ite ?_ ?_)

theorem State.takeCast_keeps {vs : List View} {u₀ : State} {s : State} {c : Core} {last : Nat} (hk : Keeps vs u₀ s) (hm : [.busy] ⊆ vs) : Keeps vs u₀ (State.takeCast s c last) := by
  refine hk.then hm ?_
  clear hk hm
  unfold State.takeCast
  try dsimp -proj only
  repeat' first
    | (with_reducible exact Keeps.refl _ _)
    | (with_reducible assumption)
    | (with_reducible exact Or.inl rfl)
    | exact Or.inr (by decide)
    | decide
    | (with_reducible refine Keeps.upd ?_ rfl rfl ?_ ?_ ?_ ?_ ?_ ?_ ?_ ?_ ?_ ?_ ?_ ?_ ?_; rotate_left; fail_if_success (iterate 13 (with_reducible exact Or.inl rfl)))
    | ((with_reducible refine Or.inr (?_ : CoresOk _ _ _)); simp +contextual [CoresOk, Cores.wf, memPut_wf, memPuts_wf, memClear_wf, memFilter_wf])

theorem runPlan_noAfter {c : Core} {p : Prod} {rd : State} : NoAfter (runPlan c p rd) := by
  unfold runPlan
  try dsimp -proj only
  repeat' first
    | (with_reducible apply need_noAfter)
    | (with_reducible apply prodOps_noAfter)
    | (with_reducible exact NoAfter.need)
    | (with_reducible exact NoAfter.ok)
    | (with_reducible exact NoAfter.pure)
    | (with_reducible exact NoAfter.fault)
    | (with_reducible refine NoAfter.bind ?_ (fun _ => ?_))

theorem runRun_keeps {vs : List View} {u₀ : State} {c : Core} {p : Prod} {o : ProdOps} {v : ProdVals} {s0 : Nat} {rd s : State} (hk : Keeps vs u₀ s) (hm : [.cs, .mbox, .acc, .engines, .busy, .words, .service, .stores, .tens, .counters, .fabric, .mgmt, .power, .upsets, .fresh] ⊆ vs) : Keeps vs u₀ (runRun c p o v s0 rd s) := by
  refine hk.then hm ?_
  clear hk hm
  unfold runRun
  try dsimp -proj only
  repeat' first
    | (with_reducible exact Keeps.refl _ _)
    | (with_reducible assumption)
    | decide
    | (with_reducible apply State.setEngine_keeps)
    | (with_reducible apply finishProd_keeps)
    | (with_reducible apply noteProd_keeps)
    | (with_reducible apply State.takeCast_keeps)
    | (with_reducible refine Keeps.foldl ?_ (fun _ _ _ => ?_))

theorem pairHold_keeps {vs : List View} {u₀ : State} {c : Core} {p : Prod} {s0 : Nat} {s : State} (hk : Keeps vs u₀ s) (hm : [.busy] ⊆ vs) : Keeps vs u₀ (pairHold c p s0 s) := by
  refine hk.then hm ?_
  clear hk hm
  unfold pairHold
  try dsimp -proj only
  repeat' first
    | (with_reducible exact Keeps.refl _ _)
    | (with_reducible assumption)
    | (with_reducible exact Or.inl rfl)
    | exact Or.inr (by decide)
    | decide
    | (with_reducible apply State.takeCast_keeps)
    | (with_reducible refine Keeps.upd ?_ rfl rfl ?_ ?_ ?_ ?_ ?_ ?_ ?_ ?_ ?_ ?_ ?_ ?_ ?_; rotate_left; fail_if_success (iterate 13 (with_reducible exact Or.inl rfl)))
    | ((with_reducible refine Or.inr (?_ : CoresOk _ _ _)); simp +contextual [CoresOk, Cores.wf, memPut_wf, memPuts_wf, memClear_wf, memFilter_wf])

theorem pairFault_keeps {vs : List View} {u₀ : State} {c : Core} {q : PairWait} {s : State} (hk : Keeps vs u₀ s) (hm : [.acc, .engines, .busy, .tens, .counters, .fabric, .mgmt, .power] ⊆ vs) : Keeps vs u₀ (pairFault c q s) := by
  refine hk.then hm ?_
  clear hk hm
  unfold pairFault
  try dsimp -proj only
  repeat' first
    | (with_reducible exact Keeps.refl _ _)
    | (with_reducible assumption)
    | (with_reducible exact Or.inl rfl)
    | exact Or.inr (by decide)
    | decide
    | (with_reducible apply State.progFaultAt_keeps)
    | (with_reducible apply State.dropSet_keeps)
    | (with_reducible refine Keeps.upd ?_ rfl rfl ?_ ?_ ?_ ?_ ?_ ?_ ?_ ?_ ?_ ?_ ?_ ?_ ?_; rotate_left; fail_if_success (iterate 13 (with_reducible exact Or.inl rfl)))
    | ((with_reducible refine Or.inr (?_ : CoresOk _ _ _)); simp +contextual [CoresOk, Cores.wf, memPut_wf, memPuts_wf, memClear_wf, memFilter_wf])

theorem pairRun_keeps {vs : List View} {u₀ : State} {c : Core} {p : Prod} {o : ProdOps} {q : PairWait} {s0 : Nat} {rd s : State} (hk : Keeps vs u₀ s) (hm : [.cs, .mbox, .acc, .engines, .busy, .words, .service, .stores, .tens, .counters, .fabric, .mgmt, .power, .upsets, .fresh] ⊆ vs) : KeepsR vs u₀ (pairRun c p o q s0 rd s) := by
  refine KeepsR.then hk hm ?_
  clear hk hm
  unfold pairRun
  try dsimp -proj only
  repeat' first
    | (with_reducible exact Keeps.refl _ _)
    | (with_reducible assumption)
    | (with_reducible exact Or.inl rfl)
    | exact Or.inr (by decide)
    | decide
    | (with_reducible apply State.progFaultAt_keeps)
    | (with_reducible apply State.takeLinks_keeps)
    | (with_reducible apply State.meshFaults_keeps)
    | (with_reducible apply prepare_noAfter)
    | (with_reducible apply prodOps_noAfter)
    | (with_reducible apply prodWork_noAfter)
    | (with_reducible apply runRun_keeps)
    | (with_reducible refine Keeps.ite ?_ ?_)
    | (with_reducible refine KeepsR.bindS ?_ (fun _ _ => ?_))
    | (with_reducible refine KeepsR.bind ?_ (fun _ => ?_))
    | (with_reducible refine KeepsR.ite ?_ ?_)
    | (with_reducible refine KeepsR.ok ?_)
    | (with_reducible refine KeepsR.pure ?_)
    | (with_reducible exact KeepsR.fault)
    | (with_reducible exact KeepsR.throwFault)
    | (with_reducible refine KeepsR.after ?_)
    | (with_reducible refine KeepsR.throwAfter ?_)
    | (with_reducible exact NoAfter.need)
    | (with_reducible exact NoAfter.ok)
    | (with_reducible exact NoAfter.pure)
    | (with_reducible exact NoAfter.fault)
    | (with_reducible exact NoAfter.throwFault)
    | (with_reducible exact NoAfter.throwPoison)
    | (with_reducible refine NoAfter.bind ?_ (fun _ => ?_))
    | (with_reducible refine NoAfter.map ?_)
    | (with_reducible refine NoAfter.ite ?_ ?_)
    | (with_reducible refine Keeps.upd ?_ rfl rfl ?_ ?_ ?_ ?_ ?_ ?_ ?_ ?_ ?_ ?_ ?_ ?_ ?_; rotate_left; fail_if_success (iterate 13 (with_reducible exact Or.inl rfl)))
    | ((with_reducible refine Or.inr (?_ : CoresOk _ _ _)); simp +contextual [CoresOk, Cores.wf, memPut_wf, memPuts_wf, memClear_wf, memFilter_wf])

theorem mrunAct_keeps {vs : List View} {u₀ : State} {c : Core} {desc : BitVec 10} {rd s : State} (hk : Keeps vs u₀ s) (hm : [.cs, .mbox, .acc, .engines, .busy, .words, .service, .stores, .tens, .counters, .fabric, .mgmt, .power, .upsets, .fresh] ⊆ vs) : KeepsR vs u₀ (mrunAct c desc rd s) := by
  refine KeepsR.then hk hm ?_
  clear hk hm
  unfold mrunAct
  try dsimp -proj only
  repeat' first
    | (with_reducible exact Keeps.refl _ _)
    | (with_reducible assumption)
    | (with_reducible exact Or.inl rfl)
    | exact Or.inr (by decide)
    | decide
    | (with_reducible apply latchForm_noAfter)
    | (with_reducible apply State.claimPorts_keeps)
    | (with_reducible apply prepare_noAfter)
    | (with_reducible apply prodWork_noAfter)
    | (with_reducible apply abandon_keeps)
    | (with_reducible apply runPlan_noAfter)
    | (with_reducible apply runRun_keeps)
    | (with_reducible apply pairHold_keeps)
    | (with_reducible apply pairFault_keeps)
    | (with_reducible apply pairRun_keeps)
    | (with_reducible refine Keeps.ite ?_ ?_)
    | (with_reducible refine KeepsR.bindS ?_ (fun _ _ => ?_))
    | (with_reducible refine KeepsR.bind ?_ (fun _ => ?_))
    | (with_reducible refine KeepsR.ite ?_ ?_)
    | (with_reducible refine KeepsR.ok ?_)
    | (with_reducible refine KeepsR.pure ?_)
    | (with_reducible exact KeepsR.fault)
    | (with_reducible exact KeepsR.throwFault)
    | (with_reducible refine KeepsR.after ?_)
    | (with_reducible refine KeepsR.throwAfter ?_)
    | (with_reducible exact NoAfter.need)
    | (with_reducible exact NoAfter.ok)
    | (with_reducible exact NoAfter.pure)
    | (with_reducible exact NoAfter.fault)
    | (with_reducible exact NoAfter.throwFault)
    | (with_reducible exact NoAfter.throwPoison)
    | (with_reducible refine NoAfter.bind ?_ (fun _ => ?_))
    | (with_reducible refine NoAfter.map ?_)
    | (with_reducible refine NoAfter.ite ?_ ?_)
    | split

theorem altPlan_noAfter {c : Core} {p0 p1 : Prod} {rd : State} : NoAfter (altPlan c p0 p1 rd) := by
  unfold altPlan
  try dsimp -proj only
  repeat' first
    | (with_reducible apply need_noAfter)
    | (with_reducible apply prodOps_noAfter)
    | (with_reducible exact NoAfter.need)
    | (with_reducible exact NoAfter.ok)
    | (with_reducible exact NoAfter.pure)
    | (with_reducible exact NoAfter.fault)
    | (with_reducible refine NoAfter.bind ?_ (fun _ => ?_))

theorem altRun_keeps {vs : List View} {u₀ : State} {c : Core} {p0 p1 : Prod} {o : ProdOps × ProdOps} {v : ProdVals × ProdVals} {rd s : State} (hk : Keeps vs u₀ s) (hm : [.cs, .mbox, .acc, .engines, .busy, .words, .service, .stores, .tens, .counters, .fabric, .mgmt, .power, .upsets, .fresh] ⊆ vs) : Keeps vs u₀ (altRun c p0 p1 o v rd s) := by
  refine hk.then hm ?_
  clear hk hm
  unfold altRun
  try dsimp -proj only
  repeat' first
    | (with_reducible exact Keeps.refl _ _)
    | (with_reducible assumption)
    | decide
    | (with_reducible apply State.setEngine_keeps)
    | (with_reducible apply finishProd_keeps)
    | (with_reducible apply noteProd_keeps)
    | (with_reducible apply State.takeCast_keeps)
    | (with_reducible refine Keeps.foldl ?_ (fun _ _ _ => ?_))

theorem maltAct_keeps {vs : List View} {u₀ : State} {c : Core} {desc0 desc1 : BitVec 10} {rd s : State} (hk : Keeps vs u₀ s) (hm : [.cs, .mbox, .acc, .engines, .busy, .words, .service, .stores, .tens, .counters, .fabric, .mgmt, .power, .upsets, .fresh] ⊆ vs) : KeepsR vs u₀ (maltAct c desc0 desc1 rd s) := by
  refine KeepsR.then hk hm ?_
  clear hk hm
  unfold maltAct
  try dsimp -proj only
  repeat' first
    | (with_reducible exact Keeps.refl _ _)
    | (with_reducible assumption)
    | decide
    | (with_reducible apply need_noAfter)
    | (with_reducible apply latchForm_noAfter)
    | (with_reducible apply State.claimPorts_keeps)
    | (with_reducible apply prepare_noAfter)
    | (with_reducible apply prodWork_noAfter)
    | (with_reducible apply abandon_keeps)
    | (with_reducible apply altPlan_noAfter)
    | (with_reducible apply altRun_keeps)
    | (with_reducible refine KeepsR.bindS ?_ (fun _ _ => ?_))
    | (with_reducible refine KeepsR.bind ?_ (fun _ => ?_))
    | (with_reducible refine KeepsR.ok ?_)
    | (with_reducible refine KeepsR.pure ?_)
    | (with_reducible exact KeepsR.fault)
    | (with_reducible exact KeepsR.throwFault)
    | (with_reducible refine KeepsR.after ?_)
    | (with_reducible refine KeepsR.throwAfter ?_)
    | (with_reducible exact NoAfter.need)

end Sys2Proof.Machine
end

