-- ==== Sys2Proof/Laws/MatrixDrainKeeps.lean ====
section
/-! SUPPORT. What each operation of Machine/MatrixDrain.lean may change: the parts named, the queue and the identity never, and no canonical form. -/

namespace Sys2Proof.Machine

open Sys2Proof

theorem prePlan_noAfter {c : Core} {d : BitVec 512} {rd : State} : NoAfter (prePlan c d rd) := by
  unfold prePlan
  try dsimp -proj only
  repeat' first
    | (with_reducible apply need_noAfter)
    | (with_reducible apply csRange_noAfter)
    | (with_reducible apply needHall_noAfter)
    | (with_reducible apply anchorEntry_noAfter)
    | (with_reducible exact NoAfter.need)
    | (with_reducible exact NoAfter.ok)
    | (with_reducible exact NoAfter.pure)
    | (with_reducible exact NoAfter.fault)
    | (with_reducible refine NoAfter.mapM (fun _ => ?_))
    | (with_reducible refine NoAfter.flatMapM (fun _ => ?_))
    | (with_reducible refine NoAfter.bind ?_ (fun _ => ?_))

theorem preRun_keeps {vs : List View} {u₀ : State} {c : Core} {p : PrePlan} {rd s : State} (hk : Keeps vs u₀ s) (hm : [.cs, .mbox, .acc, .engines, .words, .service, .tens, .counters, .power] ⊆ vs) : Keeps vs u₀ (preRun c p rd s) := by
  refine hk.then hm ?_
  clear hk hm
  unfold preRun
  try dsimp -proj only
  repeat' first
    | (with_reducible exact Keeps.refl _ _)
    | (with_reducible assumption)
    | (with_reducible exact Or.inl rfl)
    | exact Or.inr (by decide)
    | decide
    | (with_reducible apply State.noteReads_keeps)
    | (with_reducible apply State.setEngine_keeps)
    | (with_reducible refine Keeps.foldl ?_ (fun _ _ _ => ?_))
    | (with_reducible refine Keeps.foldlFst ?_ (fun _ _ _ => ?_))
    | (with_reducible refine Keeps.upd ?_ rfl rfl ?_ ?_ ?_ ?_ ?_ ?_ ?_ ?_ ?_ ?_ ?_ ?_ ?_; rotate_left; fail_if_success (iterate 13 (with_reducible exact Or.inl rfl)))
    | ((with_reducible refine Or.inr (?_ : CoresOk _ _ _)); simp +contextual [CoresOk, Cores.wf, memPut_wf, memPuts_wf, memClear_wf, memFilter_wf])

theorem mpreAct_keeps {vs : List View} {u₀ : State} {c : Core} {desc : BitVec 10} {rd s : State} (hk : Keeps vs u₀ s) (hm : [.cs, .mbox, .acc, .engines, .busy, .words, .service, .tens, .counters, .power] ⊆ vs) : KeepsR vs u₀ (mpreAct c desc rd s) := by
  refine KeepsR.then hk hm ?_
  clear hk hm
  unfold mpreAct
  try dsimp -proj only
  repeat' first
    | (with_reducible exact Keeps.refl _ _)
    | (with_reducible assumption)
    | decide
    | (with_reducible apply latchForm_noAfter)
    | (with_reducible apply State.claimPorts_keeps)
    | (with_reducible apply abandon_keeps)
    | (with_reducible apply prePlan_noAfter)
    | (with_reducible apply preRun_keeps)
    | (with_reducible refine Keeps.ite ?_ ?_)
    | (with_reducible refine KeepsR.bindS ?_ (fun _ _ => ?_))
    | (with_reducible refine KeepsR.bind ?_ (fun _ => ?_))
    | (with_reducible refine KeepsR.ite ?_ ?_)
    | (with_reducible refine KeepsR.ok ?_)
    | (with_reducible refine KeepsR.pure ?_)

theorem drainRows_noAfter {s : State} {c : Core} {d : BitVec 512} : NoAfter (drainRows s c d) := by
  unfold drainRows
  try dsimp -proj only
  repeat' first
    | (with_reducible apply need_noAfter)
    | (with_reducible apply latch_noAfter)
    | (with_reducible exact NoAfter.need)
    | (with_reducible exact NoAfter.ok)
    | (with_reducible exact NoAfter.pure)
    | (with_reducible exact NoAfter.fault)
    | (with_reducible refine NoAfter.bind ?_ (fun _ => ?_))
    | (with_reducible refine NoAfter.map ?_)
    | (with_reducible refine NoAfter.ite ?_ ?_)

theorem shingleRange_noAfter {s : State} {c : Core} {sp : Space} {fmt : Nat} {sh : Int} {isOut : Bool} : NoAfter (shingleRange s c sp fmt sh isOut) := by
  unfold shingleRange
  try dsimp -proj only
  repeat' first
    | (with_reducible apply csRange_noAfter)
    | (with_reducible apply mboxRange_noAfter)
    | (with_reducible exact NoAfter.need)
    | (with_reducible exact NoAfter.ok)
    | (with_reducible exact NoAfter.pure)
    | (with_reducible exact NoAfter.fault)
    | (with_reducible refine NoAfter.bind ?_ (fun _ => ?_))
    | (with_reducible refine NoAfter.map ?_)
    | (with_reducible refine NoAfter.ite ?_ ?_)
    | split

theorem companion_noAfter {s : State} {c : Core} {base sh fmt region : Nat} {tile : Int} {delta : Int} {bo : Nat} : NoAfter (companion s c base sh fmt region tile delta bo) := by
  unfold companion
  try dsimp -proj only
  repeat' first
    | (with_reducible apply need_noAfter)
    | (with_reducible apply csRange_noAfter)
    | (with_reducible apply tileScale_noAfter)
    | (with_reducible apply shingleRange_noAfter)
    | (with_reducible exact NoAfter.need)
    | (with_reducible exact NoAfter.ok)
    | (with_reducible exact NoAfter.pure)
    | (with_reducible exact NoAfter.fault)
    | (with_reducible refine NoAfter.bind ?_ (fun _ => ?_))
    | (with_reducible refine NoAfter.map ?_)
    | (with_reducible refine NoAfter.ite ?_ ?_)

theorem drainTile_noAfter {rd : State} {c : Core} {p : Drain} {bank e k h q : Nat} {u : Nat → Option Nat} : NoAfter (drainTile rd c p bank e k h q u) := by
  unfold drainTile
  try dsimp -proj only
  repeat' first
    | (with_reducible apply csRange_noAfter)
    | (with_reducible apply mboxRange_noAfter)
    | (with_reducible apply tileScale_noAfter)
    | (with_reducible apply needHall_noAfter)
    | (with_reducible apply shingleRange_noAfter)
    | (with_reducible apply companion_noAfter)
    | (with_reducible exact NoAfter.need)
    | (with_reducible exact NoAfter.ok)
    | (with_reducible exact NoAfter.pure)
    | (with_reducible exact NoAfter.fault)
    | (with_reducible exact NoAfter.throwPoison)
    | (with_reducible refine NoAfter.bind ?_ (fun _ => ?_))
    | (with_reducible refine NoAfter.map ?_)
    | (with_reducible refine NoAfter.ite ?_ ?_)
    | split

theorem drainStore_keeps {vs : List View} {u₀ : State} {c : Core} {p : Drain} {rd : State} {r : Nat × Drained} {s : State} (hk : Keeps vs u₀ s) (hm : [.cs, .mbox, .hall, .merges, .words, .stores, .tens, .counters, .fabric, .mgmt, .power] ⊆ vs) : Keeps vs u₀ (drainStore c p rd r s) := by
  refine hk.then hm ?_
  clear hk hm
  unfold drainStore
  try dsimp -proj only
  repeat' first
    | (with_reducible exact Keeps.refl _ _)
    | (with_reducible assumption)
    | decide
    | (with_reducible apply State.emit_keeps)
    | (with_reducible apply State.report_keeps)

theorem drainNote_keeps {vs : List View} {u₀ : State} {c : Core} {p : Drain} {rd : State} {key : Option Nat} {r : Nat × Drained} {s : State} (hk : Keeps vs u₀ s) (hm : [.cs, .mbox, .busy, .words, .service, .stores, .tens, .counters, .fabric, .mgmt, .power, .fresh] ⊆ vs) : Keeps vs u₀ (drainNote c p rd key r s) := by
  refine hk.then hm ?_
  clear hk hm
  unfold drainNote
  try dsimp -proj only
  repeat' first
    | (with_reducible exact Keeps.refl _ _)
    | (with_reducible assumption)
    | (with_reducible exact Or.inl rfl)
    | exact Or.inr (by decide)
    | decide
    | (with_reducible apply State.countCore_keeps)
    | (with_reducible apply State.chargeCore_keeps)
    | (with_reducible apply State.noteTile_keeps)
    | (with_reducible apply State.countWatch_keeps)
    | (with_reducible apply State.guardLatch_keeps)
    | (with_reducible apply State.consume_keeps)
    | (with_reducible apply State.countEng_keeps)
    | (with_reducible apply State.residueMiss_keeps)
    | (with_reducible refine Keeps.foldl ?_ (fun _ _ _ => ?_))
    | (with_reducible refine Keeps.foldlFst ?_ (fun _ _ _ => ?_))
    | (with_reducible refine Keeps.ite ?_ ?_)
    | (with_reducible refine Keeps.upd ?_ rfl rfl ?_ ?_ ?_ ?_ ?_ ?_ ?_ ?_ ?_ ?_ ?_ ?_ ?_; rotate_left; fail_if_success (iterate 13 (with_reducible exact Or.inl rfl)))
    | split

theorem drainTake_keeps {vs : List View} {u₀ : State} {c : Core} {x : DrainPlan} {bank : Nat} {release : Bool} {s : State} (hk : Keeps vs u₀ s) (hm : [.acc, .engines] ⊆ vs) : Keeps vs u₀ (drainTake c x bank release s) := by
  refine hk.then hm ?_
  clear hk hm
  unfold drainTake
  try dsimp -proj only
  repeat' first
    | (with_reducible exact Keeps.refl _ _)
    | (with_reducible assumption)
    | decide
    | (with_reducible apply State.setEngine_keeps)
    | (with_reducible apply State.freeRows_keeps)
    | (with_reducible apply State.settle_keeps)
    | (with_reducible refine Keeps.foldl ?_ (fun _ _ _ => ?_))
    | (with_reducible refine Keeps.foldlFst ?_ (fun _ _ _ => ?_))
    | (with_reducible refine Keeps.ite ?_ ?_)

theorem drainPlan_noAfter {c : Core} {d : BitVec 512} {bank : Nat} {rd : State} : NoAfter (drainPlan c d bank rd) := by
  unfold drainPlan
  try dsimp -proj only
  repeat' first
    | (with_reducible apply need_noAfter)
    | (with_reducible apply csRange_noAfter)
    | (with_reducible apply quantOpen_noAfter)
    | (with_reducible apply watchKey_noAfter)
    | (with_reducible apply rngOf_noAfter)
    | (with_reducible apply drainRows_noAfter)
    | (with_reducible apply drainTile_noAfter)
    | (with_reducible exact NoAfter.need)
    | (with_reducible exact NoAfter.ok)
    | (with_reducible exact NoAfter.pure)
    | (with_reducible exact NoAfter.fault)
    | (with_reducible refine NoAfter.mapM (fun _ => ?_))
    | (with_reducible refine NoAfter.bind ?_ (fun _ => ?_))
    | (with_reducible refine NoAfter.map ?_)
    | (with_reducible refine NoAfter.ite ?_ ?_)

theorem drainRun_keeps {vs : List View} {u₀ : State} {c : Core} {desc : BitVec 10} {bank : Nat} {release : Bool} {x : DrainPlan} {rd s : State} (hk : Keeps vs u₀ s) (hm : [.cs, .mbox, .hall, .acc, .engines, .busy, .merges, .words, .service, .stores, .tens, .counters, .fabric, .mgmt, .power, .fresh] ⊆ vs) : Keeps vs u₀ (drainRun c desc bank release x rd s) := by
  refine hk.then hm ?_
  clear hk hm
  unfold drainRun
  try dsimp -proj only
  repeat' first
    | (with_reducible exact Keeps.refl _ _)
    | (with_reducible assumption)
    | (with_reducible exact Or.inl rfl)
    | exact Or.inr (by decide)
    | decide
    | (with_reducible apply State.dayCore_keeps)
    | (with_reducible apply State.emit_keeps)
    | (with_reducible apply State.quantUntil_keeps)
    | (with_reducible apply drainStore_keeps)
    | (with_reducible apply drainNote_keeps)
    | (with_reducible apply drainTake_keeps)
    | (with_reducible refine Keeps.foldl ?_ (fun _ _ _ => ?_))
    | (with_reducible refine Keeps.foldlFst ?_ (fun _ _ _ => ?_))
    | (with_reducible refine Keeps.upd ?_ rfl rfl ?_ ?_ ?_ ?_ ?_ ?_ ?_ ?_ ?_ ?_ ?_ ?_ ?_; rotate_left; fail_if_success (iterate 13 (with_reducible exact Or.inl rfl)))
    | split

theorem mdrnAct_keeps {vs : List View} {u₀ : State} {c : Core} {desc : BitVec 10} {bank release : Bool} {rd s : State} (hk : Keeps vs u₀ s) (hm : [.cs, .mbox, .hall, .acc, .engines, .busy, .merges, .words, .service, .stores, .tens, .counters, .fabric, .mgmt, .power, .fresh] ⊆ vs) : KeepsR vs u₀ (mdrnAct c desc bank release rd s) := by
  refine KeepsR.then hk hm ?_
  clear hk hm
  unfold mdrnAct
  try dsimp -proj only
  repeat' first
    | (with_reducible exact Keeps.refl _ _)
    | (with_reducible assumption)
    | decide
    | (with_reducible apply latchForm_noAfter)
    | (with_reducible apply State.claimPorts_keeps)
    | (with_reducible apply State.holdMerges_keeps)
    | (with_reducible apply abandon_keeps)
    | (with_reducible apply drainPlan_noAfter)
    | (with_reducible apply drainRun_keeps)
    | (with_reducible refine Keeps.ite ?_ ?_)
    | (with_reducible refine KeepsR.bindS ?_ (fun _ _ => ?_))
    | (with_reducible refine KeepsR.bind ?_ (fun _ => ?_))

theorem mrelAct_keeps {vs : List View} {u₀ : State} {c : Core} {desc : BitVec 10} {bank : Bool} {rd s : State} (hk : Keeps vs u₀ s) (hm : [.acc, .engines] ⊆ vs) : KeepsR vs u₀ (mrelAct c desc bank rd s) := by
  refine KeepsR.then hk hm ?_
  clear hk hm
  unfold mrelAct
  try dsimp -proj only
  repeat' first
    | (with_reducible exact Keeps.refl _ _)
    | (with_reducible assumption)
    | decide
    | (with_reducible apply need_noAfter)
    | (with_reducible apply latchForm_noAfter)
    | (with_reducible apply State.release_keeps)
    | (with_reducible apply abandon_keeps)
    | (with_reducible refine Keeps.foldl ?_ (fun _ _ _ => ?_))
    | (with_reducible refine Keeps.foldlFst ?_ (fun _ _ _ => ?_))
    | (with_reducible refine Keeps.ite ?_ ?_)
    | (with_reducible refine KeepsR.bindS ?_ (fun _ _ => ?_))
    | (with_reducible refine KeepsR.bind ?_ (fun _ => ?_))
    | (with_reducible refine KeepsR.ite ?_ ?_)
    | (with_reducible refine KeepsR.ok ?_)
    | (with_reducible refine KeepsR.pure ?_)
    | (with_reducible exact KeepsR.fault)
    | (with_reducible exact KeepsR.throwFault)
    | (with_reducible refine KeepsR.after ?_)
    | (with_reducible refine KeepsR.throwAfter ?_)
    | (with_reducible exact NoAfter.need)

/-- A matrix operation issued in slot MX keeps what its action keeps, and what upsets and faults keep. -/
theorem mxOp_keeps {vs : List View} {u₀ : State} {c : Core} {f : State → State → Res State} {rd s : State} (hk : Keeps vs u₀ s)
    (hm : [.acc, .tens, .counters, .fabric, .mgmt, .power, .upsets] ⊆ vs) (hf : ∀ r u, KeepsR vs u (f r u)) : Keeps vs u₀ (mxOp c f rd s) := by
  refine hk.trans ?_
  unfold mxOp
  dsimp -proj only
  refine slotOp_keeps ?_ (List.Subset.trans (by decide) hm) (hf _ _)
  split
  · exact State.strikeAccs_keeps (Keeps.refl _ _) (List.Subset.trans (by decide) hm)
  · exact Keeps.refl _ _

theorem execMrun_keeps {vs : List View} {u₀ : State} {c : Core} {desc : BitVec 10} {s : State} (hk : Keeps vs u₀ s) (hm : [.cs, .mbox, .acc, .engines, .busy, .words, .service, .stores, .tens, .counters, .fabric, .mgmt, .power, .upsets, .fresh] ⊆ vs) : KeepsO vs u₀ (execMrun c desc s) :=
  KeepsO.then hk hm (KeepsO.next (mxOp_keeps (Keeps.refl _ _) (by decide) (fun _ _ => mrunAct_keeps (Keeps.refl _ _) (by decide))))

theorem execMalt_keeps {vs : List View} {u₀ : State} {c : Core} {desc0 desc1 : BitVec 10} {s : State} (hk : Keeps vs u₀ s) (hm : [.cs, .mbox, .acc, .engines, .busy, .words, .service, .stores, .tens, .counters, .fabric, .mgmt, .power, .upsets, .fresh] ⊆ vs) : KeepsO vs u₀ (execMalt c desc0 desc1 s) :=
  KeepsO.then hk hm (KeepsO.next (mxOp_keeps (Keeps.refl _ _) (by decide) (fun _ _ => maltAct_keeps (Keeps.refl _ _) (by decide))))

theorem execMpre_keeps {vs : List View} {u₀ : State} {c : Core} {desc : BitVec 10} {s : State} (hk : Keeps vs u₀ s) (hm : [.cs, .mbox, .acc, .engines, .busy, .words, .service, .tens, .counters, .fabric, .mgmt, .power, .upsets] ⊆ vs) : KeepsO vs u₀ (execMpre c desc s) :=
  KeepsO.then hk hm (KeepsO.next (mxOp_keeps (Keeps.refl _ _) (by decide) (fun _ _ => mpreAct_keeps (Keeps.refl _ _) (by decide))))

theorem execMdrn_keeps {vs : List View} {u₀ : State} {c : Core} {desc : BitVec 10} {bank release : Bool} {s : State} (hk : Keeps vs u₀ s) (hm : [.cs, .mbox, .hall, .acc, .engines, .busy, .merges, .words, .service, .stores, .tens, .counters, .fabric, .mgmt, .power, .upsets, .fresh] ⊆ vs) : KeepsO vs u₀ (execMdrn c desc bank release s) :=
  KeepsO.then hk hm (KeepsO.next (mxOp_keeps (Keeps.refl _ _) (by decide) (fun _ _ => mdrnAct_keeps (Keeps.refl _ _) (by decide))))

theorem execMrel_keeps {vs : List View} {u₀ : State} {c : Core} {desc : BitVec 10} {bank : Bool} {s : State} (hk : Keeps vs u₀ s) (hm : [.acc, .engines, .tens, .counters, .fabric, .mgmt, .power, .upsets] ⊆ vs) : KeepsO vs u₀ (execMrel c desc bank s) :=
  KeepsO.then hk hm (KeepsO.next (mxOp_keeps (Keeps.refl _ _) (by decide) (fun _ _ => mrelAct_keeps (Keeps.refl _ _) (by decide))))

end Sys2Proof.Machine
end

