-- ==== Sys2Proof/Laws/HaulKeeps.lean ====
section
/-! SUPPORT. What each operation of Machine/Haul.lean may change: the parts named, the queue and the identity never, and no canonical form. -/

namespace Sys2Proof.Machine

open Sys2Proof

theorem State.csAssay_keeps {vs : List View} {u₀ : State} {s : State} {c : Core} (hk : Keeps vs u₀ s) (hm : [.fabric, .mgmt] ⊆ vs) : Keeps vs u₀ (State.csAssay s c) := by
  refine hk.then hm ?_
  clear hk hm
  unfold State.csAssay
  try dsimp -proj only
  repeat' first
    | (with_reducible exact Keeps.refl _ _)
    | (with_reducible assumption)
    | decide
    | (with_reducible apply State.requestAssay_keeps)
    | (with_reducible refine Keeps.ite ?_ ?_)

theorem State.remap_keeps {vs : List View} {u₀ : State} {s : State} {sp : Space} {a : Nat} (hk : Keeps vs u₀ s) (hm : [.service, .counters, .fabric, .mgmt] ⊆ vs) : Keeps vs u₀ (State.remap s sp a) := by
  refine hk.then hm ?_
  clear hk hm
  unfold State.remap
  try dsimp -proj only
  repeat' first
    | (with_reducible exact Keeps.refl _ _)
    | (with_reducible assumption)
    | (with_reducible exact Or.inl rfl)
    | exact Or.inr (by decide)
    | decide
    | (with_reducible apply State.count_keeps)
    | (with_reducible apply State.countCore_keeps)
    | (with_reducible apply State.daybook_keeps)
    | (with_reducible apply State.csAssay_keeps)
    | (with_reducible refine Keeps.ite ?_ ?_)
    | (with_reducible refine Keeps.upd ?_ rfl rfl ?_ ?_ ?_ ?_ ?_ ?_ ?_ ?_ ?_ ?_ ?_ ?_ ?_; rotate_left; fail_if_success (iterate 13 (with_reducible exact Or.inl rfl)))
    | ((with_reducible refine Or.inr (?_ : HbmOk _ _ _)); simp +contextual [HbmOk, hbmPut_wf, hbmFilter_wf, hbmClear_wf])
    | split

theorem State.remapCands_keeps {vs : List View} {u₀ : State} {s : State} (hk : Keeps vs u₀ s) (hm : [.service, .counters, .fabric, .mgmt] ⊆ vs) : Keeps vs u₀ (State.remapCands s) := by
  refine hk.then hm ?_
  clear hk hm
  unfold State.remapCands
  try dsimp -proj only
  repeat' first
    | (with_reducible exact Keeps.refl _ _)
    | (with_reducible assumption)
    | (with_reducible exact Or.inl rfl)
    | exact Or.inr (by decide)
    | decide
    | (with_reducible apply State.remap_keeps)
    | (with_reducible refine Keeps.foldl ?_ (fun _ _ _ => ?_))
    | (with_reducible refine Keeps.foldlFst ?_ (fun _ _ _ => ?_))
    | (with_reducible refine Keeps.ite ?_ ?_)
    | (with_reducible refine Keeps.upd ?_ rfl rfl ?_ ?_ ?_ ?_ ?_ ?_ ?_ ?_ ?_ ?_ ?_ ?_ ?_; rotate_left; fail_if_success (iterate 13 (with_reducible exact Or.inl rfl)))
    | ((with_reducible refine Or.inr (?_ : HbmOk _ _ _)); simp +contextual [HbmOk, hbmPut_wf, hbmFilter_wf, hbmClear_wf])

theorem State.enqueue_keeps {vs : List View} {u₀ : State} {s : State} {c : Core} {ch : Nat} {rs : List ReadInFlight} (hk : Keeps vs u₀ s) (hm : [.reads] ⊆ vs) : Keeps vs u₀ (State.enqueue s c ch rs) := by
  refine hk.then hm ?_
  clear hk hm
  unfold State.enqueue
  try dsimp -proj only
  repeat' first
    | (with_reducible exact Keeps.refl _ _)
    | (with_reducible assumption)
    | (with_reducible exact Or.inl rfl)
    | exact Or.inr (by decide)
    | decide
    | (with_reducible refine Keeps.upd ?_ rfl rfl ?_ ?_ ?_ ?_ ?_ ?_ ?_ ?_ ?_ ?_ ?_ ?_ ?_; rotate_left; fail_if_success (iterate 13 (with_reducible exact Or.inl rfl)))
    | ((with_reducible refine Or.inr (?_ : CoresOk _ _ _)); simp +contextual [CoresOk, Cores.wf, memPut_wf, memPuts_wf, memClear_wf, memFilter_wf])

theorem State.land_keeps {vs : List View} {u₀ : State} {s : State} {c : Core} {close : Nat} {r : ReadInFlight} (hk : Keeps vs u₀ s) (hm : [.cs, .prog, .mbox, .hall, .tags, .merges, .words, .service, .tens, .counters, .fabric, .mgmt, .power] ⊆ vs) : Keeps vs u₀ (State.land s c close r) := by
  refine hk.then hm ?_
  clear hk hm
  unfold State.land
  try dsimp -proj only
  repeat' first
    | (with_reducible exact Keeps.refl _ _)
    | (with_reducible assumption)
    | (with_reducible exact Or.inl rfl)
    | exact Or.inr (by decide)
    | decide
    | (with_reducible apply State.noteRead_keeps)
    | (with_reducible apply State.writeOut_keeps)
    | (with_reducible apply State.writeHallT_keeps)
    | (with_reducible apply State.holdTill_keeps)
    | (with_reducible refine Keeps.ite ?_ ?_)
    | (with_reducible refine Keeps.upd ?_ rfl rfl ?_ ?_ ?_ ?_ ?_ ?_ ?_ ?_ ?_ ?_ ?_ ?_ ?_; rotate_left; fail_if_success (iterate 13 (with_reducible exact Or.inl rfl)))
    | ((with_reducible refine Or.inr (?_ : CoresOk _ _ _)); simp +contextual [CoresOk, Cores.wf, memPut_wf, memPuts_wf, memClear_wf, memFilter_wf])
    | split

theorem execHbmReadData_keeps {vs : List View} {u₀ : State} {c : Core} {ch : BitVec 2} {s : State} (hk : Keeps vs u₀ s) (hm : [.cs, .prog, .mbox, .hall, .tags, .reads, .merges, .words, .service, .tens, .counters, .fabric, .time, .mgmt, .power] ⊆ vs) : KeepsO vs u₀ (execHbmReadData c ch s) := by
  refine KeepsO.then hk hm ?_
  clear hk hm
  unfold execHbmReadData
  try dsimp -proj only
  repeat' first
    | (with_reducible exact Keeps.refl _ _)
    | (with_reducible assumption)
    | (with_reducible exact Or.inl rfl)
    | exact Or.inr (by decide)
    | decide
    | (with_reducible apply State.passTo_keeps)
    | (with_reducible apply State.land_keeps)
    | (with_reducible refine Keeps.foldl ?_ (fun _ _ _ => ?_))
    | (with_reducible refine Keeps.foldlFst ?_ (fun _ _ _ => ?_))
    | (with_reducible refine Keeps.ite ?_ ?_)
    | (with_reducible refine KeepsO.next ?_)
    | (with_reducible refine KeepsO.ite ?_ ?_)
    | (with_reducible refine Keeps.upd ?_ rfl rfl ?_ ?_ ?_ ?_ ?_ ?_ ?_ ?_ ?_ ?_ ?_ ?_ ?_; rotate_left; fail_if_success (iterate 13 (with_reducible exact Or.inl rfl)))
    | ((with_reducible refine Or.inr (?_ : CoresOk _ _ _)); simp +contextual [CoresOk, Cores.wf, memPut_wf, memPuts_wf, memClear_wf, memFilter_wf])
    | split

theorem rangeIn_noAfter {s : State} {c : Core} {sp : Nat} {a : Int} {n : Nat} {isOut : Bool} : NoAfter (rangeIn s c sp a n isOut) := by
  unfold rangeIn
  try dsimp -proj only
  repeat' first
    | (with_reducible apply csRange_noAfter)
    | (with_reducible apply mboxRange_noAfter)
    | (with_reducible apply hbmRange_noAfter)
    | (with_reducible exact NoAfter.need)
    | (with_reducible exact NoAfter.ok)
    | (with_reducible exact NoAfter.pure)
    | (with_reducible exact NoAfter.fault)
    | (with_reducible refine NoAfter.bind ?_ (fun _ => ?_))
    | (with_reducible refine NoAfter.map ?_)
    | split

theorem needBlocks_noAfter {s : State} {sp : Space} {base n : Nat} {conv : Bool} {fmt : Nat} {tag : Option Nat} : NoAfter (needBlocks s sp base n conv fmt tag) := by
  unfold needBlocks
  try dsimp -proj only
  repeat' first
    | (with_reducible apply need_noAfter)
    | (with_reducible exact NoAfter.need)
    | (with_reducible exact NoAfter.ok)
    | (with_reducible exact NoAfter.pure)
    | (with_reducible exact NoAfter.fault)
    | (with_reducible refine NoAfter.bind ?_ (fun _ => ?_))
    | (with_reducible refine NoAfter.map ?_)
    | (with_reducible refine NoAfter.ite ?_ ?_)

theorem State.checkCrc_keeps {vs : List View} {u₀ : State} {s rd : State} {c : Core} {sp : Space} {base n : Nat} (hk : Keeps vs u₀ s) (hm : [.counters, .mgmt] ⊆ vs) : Keeps vs u₀ (State.checkCrc s rd c sp base n) := by
  refine hk.then hm ?_
  clear hk hm
  unfold State.checkCrc
  try dsimp -proj only
  repeat' first
    | (with_reducible exact Keeps.refl _ _)
    | (with_reducible assumption)
    | decide
    | (with_reducible apply State.countCore_keeps)
    | (with_reducible apply State.dayCore_keeps)
    | (with_reducible refine Keeps.foldl ?_ (fun _ _ _ => ?_))
    | (with_reducible refine Keeps.foldlFst ?_ (fun _ _ _ => ?_))
    | (with_reducible refine Keeps.ite ?_ ?_)

theorem Move.srcTile_noAfter {m : Move} {s : State} {c : Core} {i : Nat} : NoAfter (Move.srcTile m s c i) := by
  unfold Move.srcTile
  try dsimp -proj only
  repeat' first
    | (with_reducible apply tileScale_noAfter)
    | (with_reducible exact NoAfter.need)
    | (with_reducible exact NoAfter.ok)
    | (with_reducible exact NoAfter.pure)
    | (with_reducible exact NoAfter.fault)
    | (with_reducible refine NoAfter.bind ?_ (fun _ => ?_))
    | (with_reducible refine NoAfter.map ?_)
    | (with_reducible refine NoAfter.ite ?_ ?_)

theorem Move.dstScale_noAfter {m : Move} {s : State} {c : Core} {n : Int} : NoAfter (Move.dstScale m s c n) := by
  unfold Move.dstScale
  try dsimp -proj only
  repeat' first
    | (with_reducible apply tileScale_noAfter)
    | (with_reducible exact NoAfter.need)
    | (with_reducible exact NoAfter.ok)
    | (with_reducible exact NoAfter.pure)
    | (with_reducible exact NoAfter.fault)
    | (with_reducible refine NoAfter.bind ?_ (fun _ => ?_))
    | (with_reducible refine NoAfter.map ?_)
    | (with_reducible refine NoAfter.ite ?_ ?_)

theorem Move.convTile_noAfter {m : Move} {rd : State} {c : Core} {i : Nat} {rng : Nat → Option Nat} : NoAfter (Move.convTile m rd c i rng) := by
  unfold Move.convTile
  try dsimp -proj only
  repeat' first
    | (with_reducible apply Move.srcTile_noAfter)
    | (with_reducible apply Move.dstScale_noAfter)
    | (with_reducible exact NoAfter.need)
    | (with_reducible exact NoAfter.ok)
    | (with_reducible exact NoAfter.pure)
    | (with_reducible exact NoAfter.fault)
    | (with_reducible refine NoAfter.bind ?_ (fun _ => ?_))

theorem Move.again_noAfter {m : Move} {rd : State} {c : Core} : NoAfter (Move.again m rd c) := by
  unfold Move.again
  try dsimp -proj only
  repeat' first
    | (with_reducible apply Move.srcTile_noAfter)
    | (with_reducible apply Move.dstScale_noAfter)
    | (with_reducible exact NoAfter.need)
    | (with_reducible exact NoAfter.ok)
    | (with_reducible exact NoAfter.pure)
    | (with_reducible exact NoAfter.fault)
    | (with_reducible refine NoAfter.foldlM (fun _ _ => ?_))
    | (with_reducible refine NoAfter.bind ?_ (fun _ => ?_))
    | (with_reducible refine NoAfter.map ?_)
    | (with_reducible refine NoAfter.ite ?_ ?_)

theorem Move.sameTile_noAfter {m : Move} {rd : State} {c : Core} {i : Nat} {rng : Nat → Option Nat} : NoAfter (Move.sameTile m rd c i rng) := by
  unfold Move.sameTile
  try dsimp -proj only
  repeat' first
    | (with_reducible apply Move.srcTile_noAfter)
    | (with_reducible apply Move.dstScale_noAfter)
    | (with_reducible exact NoAfter.need)
    | (with_reducible exact NoAfter.ok)
    | (with_reducible exact NoAfter.pure)
    | (with_reducible exact NoAfter.fault)
    | (with_reducible refine NoAfter.bind ?_ (fun _ => ?_))
    | (with_reducible refine NoAfter.map ?_)
    | (with_reducible refine NoAfter.ite ?_ ?_)

theorem Move.mxIn_noAfter {m : Move} {rd : State} {c : Core} {i : Nat} {rng : Nat → Option Nat} : NoAfter (Move.mxIn m rd c i rng) := by
  unfold Move.mxIn
  try dsimp -proj only
  repeat' first
    | (with_reducible apply Move.dstScale_noAfter)
    | (with_reducible exact NoAfter.need)
    | (with_reducible exact NoAfter.ok)
    | (with_reducible exact NoAfter.pure)
    | (with_reducible exact NoAfter.fault)
    | (with_reducible refine NoAfter.bind ?_ (fun _ => ?_))
    | (with_reducible refine NoAfter.map ?_)
    | (with_reducible refine NoAfter.ite ?_ ?_)

theorem Move.mxOut_noAfter {m : Move} {rd : State} {c : Core} : NoAfter (Move.mxOut m rd c) := by
  unfold Move.mxOut
  try dsimp -proj only
  repeat' first
    | (with_reducible apply Move.srcTile_noAfter)
    | (with_reducible exact NoAfter.need)
    | (with_reducible exact NoAfter.ok)
    | (with_reducible exact NoAfter.pure)
    | (with_reducible exact NoAfter.fault)
    | (with_reducible refine NoAfter.flatMapM (fun _ => ?_))
    | (with_reducible refine NoAfter.bind ?_ (fun _ => ?_))

theorem Move.compress_noAfter {m : Move} {rd : State} {c : Core} {pat : Nat} {mask : Option Nat} {ix : Nat} {i : Nat} {free : Nat → Nat} {rng : Nat → Option Nat} : NoAfter (Move.compress m rd c pat mask ix i free rng) := by
  unfold Move.compress
  try dsimp -proj only
  repeat' first
    | (with_reducible apply Move.srcTile_noAfter)
    | (with_reducible apply Move.dstScale_noAfter)
    | (with_reducible exact NoAfter.need)
    | (with_reducible exact NoAfter.ok)
    | (with_reducible exact NoAfter.pure)
    | (with_reducible exact NoAfter.fault)
    | (with_reducible refine NoAfter.bind ?_ (fun _ => ?_))

theorem Move.expand_noAfter {m : Move} {rd : State} {c : Core} {pat ix i : Nat} {rng : Nat → Option Nat} : NoAfter (Move.expand m rd c pat ix i rng) := by
  unfold Move.expand
  try dsimp -proj only
  repeat' first
    | (with_reducible apply tileScale_noAfter)
    | (with_reducible apply Move.dstScale_noAfter)
    | (with_reducible exact NoAfter.need)
    | (with_reducible exact NoAfter.ok)
    | (with_reducible exact NoAfter.pure)
    | (with_reducible exact NoAfter.fault)
    | (with_reducible refine NoAfter.bind ?_ (fun _ => ?_))
    | (with_reducible refine NoAfter.map ?_)
    | (with_reducible refine NoAfter.ite ?_ ?_)

theorem planeBase_noAfter {f : Nat} {tile : Nat × Nat} {sh base : Nat} {a : Int} : NoAfter (planeBase f tile sh base a) := by
  unfold planeBase
  try dsimp -proj only
  repeat' first
    | (with_reducible apply need_noAfter)
    | (with_reducible exact NoAfter.need)
    | (with_reducible exact NoAfter.ok)
    | (with_reducible exact NoAfter.pure)
    | (with_reducible exact NoAfter.fault)
    | (with_reducible refine NoAfter.bind ?_ (fun _ => ?_))
    | (with_reducible refine NoAfter.map ?_)
    | (with_reducible refine NoAfter.ite ?_ ?_)

theorem planeAt_noAfter {s : State} {c : Core} {sp : Nat} {a : Int} {n : Nat} {isOut : Bool} : NoAfter (planeAt s c sp a n isOut) := by
  unfold planeAt
  try dsimp -proj only
  repeat' first
    | (with_reducible apply rangeIn_noAfter)
    | (with_reducible exact NoAfter.need)
    | (with_reducible exact NoAfter.ok)
    | (with_reducible exact NoAfter.pure)
    | (with_reducible exact NoAfter.fault)
    | (with_reducible refine NoAfter.bind ?_ (fun _ => ?_))
    | (with_reducible refine NoAfter.map ?_)
    | (with_reducible refine NoAfter.ite ?_ ?_)

theorem State.deliver_keeps {vs : List View} {u₀ : State} {s : State} {c : Core} {ch : Nat} {ssp : Nat} {sp : Space} {outs : List Out} {at' : Nat → Nat} {src : Nat → Option Nat} {hall : BitVec 64 → Nat → BitVec 64} (hk : Keeps vs u₀ s) (hm : [.cs, .mbox, .hall, .reads, .merges, .words, .tens, .counters, .fabric, .mgmt, .power] ⊆ vs) : Keeps vs u₀ (State.deliver s c ch ssp sp outs at' src hall) := by
  refine hk.then hm ?_
  clear hk hm
  unfold State.deliver
  try dsimp -proj only
  repeat' first
    | (with_reducible exact Keeps.refl _ _)
    | (with_reducible assumption)
    | (with_reducible exact Or.inl rfl)
    | exact Or.inr (by decide)
    | decide
    | (with_reducible apply State.emitWith_keeps)
    | (with_reducible apply State.enqueue_keeps)
    | (with_reducible refine Keeps.ite ?_ ?_)

theorem openMove_noAfter {s : State} {c : Core} {d : BitVec 512} : NoAfter (openMove s c d) := by
  unfold openMove
  try dsimp -proj only
  repeat' first
    | (with_reducible apply need_noAfter)
    | (with_reducible apply rangeIn_noAfter)
    | (with_reducible apply planeBase_noAfter)
    | (with_reducible apply planeAt_noAfter)
    | (with_reducible exact NoAfter.need)
    | (with_reducible exact NoAfter.ok)
    | (with_reducible exact NoAfter.pure)
    | (with_reducible exact NoAfter.fault)
    | (with_reducible refine NoAfter.bind ?_ (fun _ => ?_))
    | (with_reducible refine NoAfter.map ?_)
    | (with_reducible refine NoAfter.ite ?_ ?_)

theorem Move.work_noAfter {m : Move} {rd : State} {c : Core} {rng : Nat → Option Nat} : NoAfter (Move.work m rd c rng) := by
  unfold Move.work
  try dsimp -proj only
  repeat' first
    | (with_reducible apply State.count_keeps)
    | (with_reducible apply csRange_noAfter)
    | (with_reducible apply needHall_noAfter)
    | (with_reducible apply Move.convTile_noAfter)
    | (with_reducible apply Move.sameTile_noAfter)
    | (with_reducible apply Move.mxIn_noAfter)
    | (with_reducible apply Move.mxOut_noAfter)
    | (with_reducible apply Move.compress_noAfter)
    | (with_reducible apply Move.expand_noAfter)
    | (with_reducible exact NoAfter.need)
    | (with_reducible exact NoAfter.ok)
    | (with_reducible exact NoAfter.pure)
    | (with_reducible exact NoAfter.fault)
    | (with_reducible refine NoAfter.foldlM (fun _ _ => ?_))
    | (with_reducible refine NoAfter.bind ?_ (fun _ => ?_))
    | (with_reducible refine NoAfter.map ?_)
    | (with_reducible refine NoAfter.ite ?_ ?_)

theorem State.noteMove_keeps {vs : List View} {u₀ : State} {s rd : State} {c : Core} {m : Move} {w : Moved} {key : Option Nat} (hk : Keeps vs u₀ s) (hm : [.busy, .stores, .tens, .counters, .fabric, .mgmt, .power, .fresh] ⊆ vs) : Keeps vs u₀ (State.noteMove s rd c m w key) := by
  refine hk.then hm ?_
  clear hk hm
  unfold State.noteMove
  try dsimp -proj only
  repeat' first
    | (with_reducible exact Keeps.refl _ _)
    | (with_reducible assumption)
    | (with_reducible exact Or.inl rfl)
    | exact Or.inr (by decide)
    | decide
    | (with_reducible apply State.noteTile_keeps)
    | (with_reducible apply State.report_keeps)
    | (with_reducible apply State.countWatch_keeps)
    | (with_reducible apply State.guardLatch_keeps)
    | (with_reducible refine Keeps.foldl ?_ (fun _ _ _ => ?_))
    | (with_reducible refine Keeps.foldlFst ?_ (fun _ _ _ => ?_))
    | (with_reducible refine Keeps.ite ?_ ?_)
    | (with_reducible refine Keeps.upd ?_ rfl rfl ?_ ?_ ?_ ?_ ?_ ?_ ?_ ?_ ?_ ?_ ?_ ?_ ?_; rotate_left; fail_if_success (iterate 13 (with_reducible exact Or.inl rfl)))
    | split

theorem State.finishMove_keeps {vs : List View} {u₀ : State} {s rd : State} {c : Core} {ch : Nat} {m : Move} {w : Moved} {again : List Nat} {conv : Bool} {first rate : Nat} (hk : Keeps vs u₀ s) (hm : [.cs, .mbox, .hall, .reads, .merges, .words, .tens, .counters, .fabric, .mgmt, .power] ⊆ vs) : Keeps vs u₀ (State.finishMove s rd c ch m w again conv first rate) := by
  refine hk.then hm ?_
  clear hk hm
  unfold State.finishMove
  try dsimp -proj only
  repeat' first
    | (with_reducible exact Keeps.refl _ _)
    | (with_reducible assumption)
    | decide
    | (with_reducible apply State.count_keeps)
    | (with_reducible apply State.deliver_keeps)

theorem unstash_noAfter {rd : State} {f base area dir bmap j : Nat} : NoAfter (unstash rd f base area dir bmap j) := by
  unfold unstash
  try dsimp -proj only
  repeat' first
    | (with_reducible apply need_noAfter)
    | (with_reducible exact NoAfter.need)
    | (with_reducible exact NoAfter.ok)
    | (with_reducible exact NoAfter.pure)
    | (with_reducible exact NoAfter.fault)
    | (with_reducible refine NoAfter.bind ?_ (fun _ => ?_))

theorem openReturn_noAfter {rd : State} {c : Core} {d : BitVec 512} {f count : Nat} : NoAfter (openReturn rd c d f count) := by
  unfold openReturn
  try dsimp -proj only
  repeat' first
    | (with_reducible apply State.writeWord_keeps)
    | (with_reducible apply State.writeHall_keeps)
    | (with_reducible apply need_noAfter)
    | (with_reducible apply hbmRange_noAfter)
    | (with_reducible apply needHall_noAfter)
    | (with_reducible apply unstash_noAfter)
    | (with_reducible exact NoAfter.need)
    | (with_reducible exact NoAfter.ok)
    | (with_reducible exact NoAfter.pure)
    | (with_reducible exact NoAfter.fault)
    | (with_reducible refine NoAfter.foldlM (fun _ _ => ?_))
    | (with_reducible refine NoAfter.bind ?_ (fun _ => ?_))

theorem State.keepStash_keeps {vs : List View} {u₀ : State} {s : State} {k : Nat} {h : BitVec 64} (hk : Keeps vs u₀ s) (hm : [.service] ⊆ vs) : Keeps vs u₀ (State.keepStash s k h) := by
  refine hk.then hm ?_
  clear hk hm
  unfold State.keepStash
  try dsimp -proj only
  repeat' first
    | (with_reducible exact Keeps.refl _ _)
    | (with_reducible assumption)
    | (with_reducible exact Or.inl rfl)
    | exact Or.inr (by decide)
    | decide
    | (with_reducible refine Keeps.upd ?_ rfl rfl ?_ ?_ ?_ ?_ ?_ ?_ ?_ ?_ ?_ ?_ ?_ ?_ ?_; rotate_left; fail_if_success (iterate 13 (with_reducible exact Or.inl rfl)))
    | ((with_reducible refine Or.inr (?_ : HbmOk _ _ _)); simp +contextual [HbmOk, hbmPut_wf, hbmFilter_wf, hbmClear_wf])

theorem stashPlan_noAfter {rd : State} {c : Core} {m : Move} {w : Moved} : NoAfter (stashPlan rd c m w) := by
  unfold stashPlan
  try dsimp -proj only
  repeat' first
    | (with_reducible apply hbmRange_noAfter)
    | (with_reducible exact NoAfter.need)
    | (with_reducible exact NoAfter.ok)
    | (with_reducible exact NoAfter.pure)
    | (with_reducible exact NoAfter.fault)
    | (with_reducible refine NoAfter.bind ?_ (fun _ => ?_))

theorem State.putBlock_keeps {vs : List View} {u₀ : State} {s : State} {t : Nat} {c : Core} {m : Move} {p : StashPlan} {k : StashBlk} (hk : Keeps vs u₀ s) (hm : [.cs, .mbox, .hall, .merges, .words, .service, .tens, .counters, .fabric, .mgmt, .power] ⊆ vs) : Keeps vs u₀ (State.putBlock s t c m p k) := by
  refine hk.then hm ?_
  clear hk hm
  unfold State.putBlock
  try dsimp -proj only
  repeat' first
    | (with_reducible exact Keeps.refl _ _)
    | (with_reducible assumption)
    | decide
    | (with_reducible apply State.countCore_keeps)
    | (with_reducible apply State.foldTwin_keeps)
    | (with_reducible apply State.writeOut_keeps)
    | (with_reducible apply State.writeHallT_keeps)
    | (with_reducible apply State.keepStash_keeps)
    | (with_reducible refine Keeps.foldl ?_ (fun _ _ _ => ?_))
    | (with_reducible refine Keeps.foldlFst ?_ (fun _ _ _ => ?_))
    | (with_reducible refine Keeps.ite ?_ ?_)

theorem State.putStash_keeps {vs : List View} {u₀ : State} {s : State} {t : Nat} {c : Core} {m : Move} {p : StashPlan} {shs : List Out} (hk : Keeps vs u₀ s) (hm : [.cs, .mbox, .hall, .merges, .words, .service, .tens, .counters, .fabric, .mgmt, .power] ⊆ vs) : Keeps vs u₀ (State.putStash s t c m p shs) := by
  refine hk.then hm ?_
  clear hk hm
  unfold State.putStash
  try dsimp -proj only
  repeat' first
    | (with_reducible exact Keeps.refl _ _)
    | (with_reducible assumption)
    | decide
    | (with_reducible apply State.emit_keeps)
    | (with_reducible apply State.putBlock_keeps)
    | (with_reducible refine Keeps.foldl ?_ (fun _ _ _ => ?_))
    | (with_reducible refine Keeps.foldlFst ?_ (fun _ _ _ => ?_))
    | (with_reducible refine Keeps.ite ?_ ?_)

theorem State.takeChannel_keeps {vs : List View} {u₀ : State} {s : State} {c : Core} {ch until' : Nat} (hk : Keeps vs u₀ s) (hm : [.busy] ⊆ vs) : Keeps vs u₀ (State.takeChannel s c ch until') := by
  refine hk.then hm ?_
  clear hk hm
  unfold State.takeChannel
  try dsimp -proj only
  repeat' first
    | (with_reducible exact Keeps.refl _ _)
    | (with_reducible assumption)
    | (with_reducible exact Or.inl rfl)
    | exact Or.inr (by decide)
    | decide
    | (with_reducible refine Keeps.upd ?_ rfl rfl ?_ ?_ ?_ ?_ ?_ ?_ ?_ ?_ ?_ ?_ ?_ ?_ ?_; rotate_left; fail_if_success (iterate 13 (with_reducible exact Or.inl rfl)))
    | ((with_reducible refine Or.inr (?_ : CoresOk _ _ _)); simp +contextual [CoresOk, Cores.wf, memPut_wf, memPuts_wf, memClear_wf, memFilter_wf])

theorem needChannel_noAfter {rd : State} {c : Core} {ch : Nat} : NoAfter (needChannel rd c ch) := by
  unfold needChannel
  try dsimp -proj only
  repeat' first
    | (with_reducible apply need_noAfter)
    | (with_reducible exact NoAfter.need)

theorem Move.workOver_noAfter {m : Move} {rd : State} {c : Core} {rng : Nat → Option Nat} {copied : Bool} {first rate lat : Nat} {fuel : Nat} {again : List (Nat × MemWord)} : NoAfter (Move.workOver m rd c rng copied first rate lat fuel again) := by
  induction fuel generalizing again with
  | zero =>
    unfold Move.workOver
    exact NoAfter.bind Move.work_noAfter (fun _ => NoAfter.pure)
  | succ f ih =>
    unfold Move.workOver
    refine NoAfter.bind Move.work_noAfter (fun _ => ?_)
    dsimp -proj only
    split
    · exact NoAfter.pure
    · exact ih

theorem hmovePlan_noAfter {c : Core} {desc : BitVec 10} {ch : BitVec 2} {rate : Nat} {rd : State} : NoAfter (hmovePlan c desc ch rate rd) := by
  unfold hmovePlan
  try dsimp -proj only
  repeat' first
    | (with_reducible apply State.count_keeps)
    | (with_reducible apply need_noAfter)
    | (with_reducible apply latchForm_noAfter)
    | (with_reducible apply quantOpen_noAfter)
    | (with_reducible apply watchKey_noAfter)
    | (with_reducible apply rngOf_noAfter)
    | (with_reducible apply needBlocks_noAfter)
    | (with_reducible apply Move.again_noAfter)
    | (with_reducible apply openMove_noAfter)
    | (with_reducible apply openReturn_noAfter)
    | (with_reducible apply stashPlan_noAfter)
    | (with_reducible apply needChannel_noAfter)
    | (with_reducible apply Move.workOver_noAfter)
    | (with_reducible exact NoAfter.need)
    | (with_reducible exact NoAfter.ok)
    | (with_reducible exact NoAfter.pure)
    | (with_reducible exact NoAfter.fault)
    | (with_reducible refine NoAfter.forM (fun _ => ?_))
    | (with_reducible refine NoAfter.bind ?_ (fun _ => ?_))
    | (with_reducible refine NoAfter.map ?_)
    | (with_reducible refine NoAfter.ite ?_ ?_)

theorem moveRun_keeps {vs : List View} {u₀ : State} {c : Core} {ch : BitVec 2} {rate : Nat} {p : MovePlan} {rd s : State} (hk : Keeps vs u₀ s) (hm : [.cs, .mbox, .hall, .busy, .reads, .merges, .words, .service, .stores, .tens, .counters, .fabric, .mgmt, .power, .fresh] ⊆ vs) : Keeps vs u₀ (moveRun c ch rate p rd s) := by
  refine hk.then hm ?_
  clear hk hm
  unfold moveRun
  try dsimp -proj only
  repeat' first
    | (with_reducible exact Keeps.refl _ _)
    | (with_reducible assumption)
    | (with_reducible exact Or.inl rfl)
    | exact Or.inr (by decide)
    | decide
    | (with_reducible apply State.count_keeps)
    | (with_reducible apply State.sumHaul_keeps)
    | (with_reducible apply State.noteReads_keeps)
    | (with_reducible apply State.quantUntil_keeps)
    | (with_reducible apply State.checkCrc_keeps)
    | (with_reducible apply Move.again_noAfter)
    | (with_reducible apply State.noteMove_keeps)
    | (with_reducible apply State.finishMove_keeps)
    | (with_reducible apply State.putStash_keeps)
    | (with_reducible apply State.takeChannel_keeps)
    | (with_reducible refine Keeps.ite ?_ ?_)
    | (with_reducible refine Keeps.upd ?_ rfl rfl ?_ ?_ ?_ ?_ ?_ ?_ ?_ ?_ ?_ ?_ ?_ ?_ ?_; rotate_left; fail_if_success (iterate 13 (with_reducible exact Or.inl rfl)))
    | split

theorem hmoveAct_keeps {vs : List View} {u₀ : State} {c : Core} {desc : BitVec 10} {ch rateCode : BitVec 2} {rd s : State} (hk : Keeps vs u₀ s) (hm : [.cs, .mbox, .hall, .busy, .reads, .merges, .words, .service, .stores, .tens, .counters, .fabric, .mgmt, .power, .fresh] ⊆ vs) : KeepsR vs u₀ (hmoveAct c desc ch rateCode rd s) := by
  refine KeepsR.then hk hm ?_
  clear hk hm
  unfold hmoveAct
  try dsimp -proj only
  repeat' first
    | (with_reducible exact Keeps.refl _ _)
    | (with_reducible assumption)
    | (with_reducible exact Or.inl rfl)
    | exact Or.inr (by decide)
    | decide
    | (with_reducible apply State.claimPorts_keeps)
    | (with_reducible apply State.holdMerges_keeps)
    | (with_reducible apply State.claimSlots_keeps)
    | (with_reducible apply hmovePlan_noAfter)
    | (with_reducible apply moveRun_keeps)
    | (with_reducible refine Keeps.ite ?_ ?_)
    | (with_reducible refine KeepsR.bindS ?_ (fun _ _ => ?_))
    | (with_reducible refine KeepsR.bind ?_ (fun _ => ?_))
    | (with_reducible refine KeepsR.ite ?_ ?_)
    | (with_reducible refine KeepsR.ok ?_)
    | (with_reducible refine KeepsR.pure ?_)
    | (with_reducible exact KeepsR.fault)
    | (with_reducible exact KeepsR.throwFault)
    | (with_reducible refine KeepsR.after ?_)
    | (with_reducible refine KeepsR.throwAfter ?_)

theorem execHmove_keeps {vs : List View} {u₀ : State} {c : Core} {desc : BitVec 10} {ch rate : BitVec 2} {s : State} (hk : Keeps vs u₀ s) (hm : [.cs, .mbox, .hall, .busy, .reads, .merges, .words, .service, .stores, .tens, .counters, .fabric, .mgmt, .power, .fresh] ⊆ vs) : KeepsO vs u₀ (execHmove c desc ch rate s) :=
  KeepsO.then hk hm (KeepsO.next (slotOp_keeps (Keeps.refl _ _) (by decide) (hmoveAct_keeps (Keeps.refl _ _) (by decide))))

end Sys2Proof.Machine
end

