-- ==== Sys2Proof/Laws/CollectivesKeeps.lean ====
section
/-! SUPPORT. What each operation of Machine/Collectives.lean may change: the parts named, the queue and the identity never, and no canonical form. -/

namespace Sys2Proof.Machine

open Sys2Proof

theorem State.setColl_keeps {vs : List View} {u₀ : State} {s : State} {t ch : Nat} {k : Coll} (hk : Keeps vs u₀ s) (hm : [.fabric] ⊆ vs) : Keeps vs u₀ (State.setColl s t ch k) := by
  refine hk.then hm ?_
  clear hk hm
  unfold State.setColl
  try dsimp -proj only
  repeat' first
    | (with_reducible exact Keeps.refl _ _)
    | (with_reducible assumption)
    | (with_reducible exact Or.inl rfl)
    | exact Or.inr (by decide)
    | decide
    | (with_reducible refine Keeps.upd ?_ rfl rfl ?_ ?_ ?_ ?_ ?_ ?_ ?_ ?_ ?_ ?_ ?_ ?_ ?_; rotate_left; fail_if_success (iterate 13 (with_reducible exact Or.inl rfl)))

theorem State.sendPart_keeps {vs : List View} {u₀ : State} {s : State} {t ch : Nat} {k : Coll} {gather : Bool} {step b i rel : Nat} (hk : Keeps vs u₀ s) (hm : [.tens, .counters, .fabric, .power] ⊆ vs) : Keeps vs u₀ (State.sendPart s t ch k gather step b i rel) := by
  refine hk.then hm ?_
  clear hk hm
  unfold State.sendPart
  try dsimp -proj only
  repeat' first
    | (with_reducible exact Keeps.refl _ _)
    | (with_reducible assumption)
    | (with_reducible exact Or.inl rfl)
    | exact Or.inr (by decide)
    | decide
    | (with_reducible apply State.push_keeps)

theorem State.gatherOn_keeps {vs : List View} {u₀ : State} {s : State} {t ch : Nat} {k : Coll} {b i lev : Nat} (hk : Keeps vs u₀ s) (hm : [.tens, .counters, .fabric, .power] ⊆ vs) : Keeps vs u₀ (State.gatherOn s t ch k b i lev) := by
  refine hk.then hm ?_
  clear hk hm
  unfold State.gatherOn
  try dsimp -proj only
  repeat' first
    | (with_reducible exact Keeps.refl _ _)
    | (with_reducible assumption)
    | decide
    | (with_reducible apply State.sendPart_keeps)
    | (with_reducible refine Keeps.foldl ?_ (fun _ _ _ => ?_))
    | (with_reducible refine Keeps.foldlFst ?_ (fun _ _ _ => ?_))
    | (with_reducible refine Keeps.ite ?_ ?_)

theorem State.reduceOn_keeps {vs : List View} {u₀ : State} {s : State} {t ch : Nat} {k : Coll} {b i : Nat} (hk : Keeps vs u₀ s) (hm : [.tens, .counters, .fabric, .power] ⊆ vs) : Keeps vs u₀ (State.reduceOn s t ch k b i).1 := by
  refine hk.then hm ?_
  clear hk hm
  unfold State.reduceOn
  try dsimp -proj only
  repeat' first
    | (with_reducible exact Keeps.refl _ _)
    | (with_reducible assumption)
    | (with_reducible exact Or.inl rfl)
    | exact Or.inr (by decide)
    | decide
    | (with_reducible apply State.sendPart_keeps)
    | (with_reducible apply State.gatherOn_keeps)
    | (with_reducible refine Keeps.ite ?_ ?_)
    | (with_reducible refine Keeps.upd ?_ rfl rfl ?_ ?_ ?_ ?_ ?_ ?_ ?_ ?_ ?_ ?_ ?_ ?_ ?_; rotate_left; fail_if_success (iterate 13 (with_reducible exact Or.inl rfl)))
    | split

theorem State.startPass_keeps {vs : List View} {u₀ : State} {s : State} {t ch : Nat} {k : Coll} (hk : Keeps vs u₀ s) (hm : [.tens, .counters, .fabric, .power] ⊆ vs) : Keeps vs u₀ (State.startPass s t ch k) := by
  refine hk.then hm ?_
  clear hk hm
  unfold State.startPass
  try dsimp -proj only
  repeat' first
    | (with_reducible exact Keeps.refl _ _)
    | (with_reducible assumption)
    | decide
    | (with_reducible apply State.setColl_keeps)
    | (with_reducible apply State.gatherOn_keeps)
    | (with_reducible apply State.reduceOn_keeps)
    | (with_reducible refine Keeps.foldl ?_ (fun _ _ _ => ?_))
    | (with_reducible refine Keeps.foldlFst ?_ (fun _ _ _ => ?_))
    | (with_reducible refine Keeps.ite ?_ ?_)

theorem State.adderStrike_keeps {vs : List View} {u₀ : State} {s : State} {t ch op : Nat} (hk : Keeps vs u₀ s) (hm : [.tens, .counters, .fabric, .mgmt, .power, .upsets] ⊆ vs) : Keeps vs u₀ (State.adderStrike s t ch op) := by
  refine hk.then hm ?_
  clear hk hm
  unfold State.adderStrike
  try dsimp -proj only
  repeat' first
    | (with_reducible exact Keeps.refl _ _)
    | (with_reducible assumption)
    | (with_reducible exact Or.inl rfl)
    | exact Or.inr (by decide)
    | decide
    | (with_reducible apply State.countChip_keeps)
    | (with_reducible apply State.daybook_keeps)
    | (with_reducible apply State.jobError_keeps)
    | (with_reducible refine Keeps.ite ?_ ?_)
    | (with_reducible refine Keeps.upd ?_ rfl rfl ?_ ?_ ?_ ?_ ?_ ?_ ?_ ?_ ?_ ?_ ?_ ?_ ?_; rotate_left; fail_if_success (iterate 13 (with_reducible exact Or.inl rfl)))

theorem State.collFault_keeps {vs : List View} {u₀ : State} {s : State} {t : Nat} {k : Coll} {code : Nat} (hk : Keeps vs u₀ s) (hm : [.tens, .counters, .fabric, .mgmt, .power] ⊆ vs) : Keeps vs u₀ (State.collFault s t k code) := by
  refine hk.then hm ?_
  clear hk hm
  unfold State.collFault
  try dsimp -proj only
  repeat' first
    | (with_reducible exact Keeps.refl _ _)
    | (with_reducible assumption)
    | decide
    | (with_reducible apply State.countTen_keeps)
    | (with_reducible apply State.progFaultAt_keeps)

theorem State.parcel_keeps {vs : List View} {u₀ : State} {s : State} {t ch : Nat} {f : Frame} {ws : List MemWord} (hk : Keeps vs u₀ s) (hm : [.tens, .counters, .fabric, .mgmt, .power, .upsets] ⊆ vs) : Keeps vs u₀ (State.parcel s t ch f ws) := by
  refine hk.then hm ?_
  clear hk hm
  unfold State.parcel
  try dsimp -proj only
  repeat' first
    | (with_reducible exact Keeps.refl _ _)
    | (with_reducible assumption)
    | (with_reducible exact Or.inl rfl)
    | exact Or.inr (by decide)
    | decide
    | (with_reducible apply State.count_keeps)
    | (with_reducible apply State.charge_keeps)
    | (with_reducible apply State.modChan_keeps)
    | (with_reducible apply State.setColl_keeps)
    | (with_reducible apply State.gatherOn_keeps)
    | (with_reducible apply State.reduceOn_keeps)
    | (with_reducible apply State.adderStrike_keeps)
    | (with_reducible apply State.collFault_keeps)
    | (with_reducible refine Keeps.ite ?_ ?_)
    | (with_reducible refine Keeps.upd ?_ rfl rfl ?_ ?_ ?_ ?_ ?_ ?_ ?_ ?_ ?_ ?_ ?_ ?_ ?_; rotate_left; fail_if_success (iterate 13 (with_reducible exact Or.inl rfl)))
    | split

theorem State.takeEarly_keeps {vs : List View} {u₀ : State} {s : State} {t ch : Nat} (hk : Keeps vs u₀ s) (hm : [.tens, .counters, .fabric, .mgmt, .power, .upsets] ⊆ vs) : Keeps vs u₀ (State.takeEarly s t ch) := by
  refine hk.then hm ?_
  clear hk hm
  unfold State.takeEarly
  try dsimp -proj only
  repeat' first
    | (with_reducible exact Keeps.refl _ _)
    | (with_reducible assumption)
    | (with_reducible exact Or.inl rfl)
    | exact Or.inr (by decide)
    | decide
    | (with_reducible apply State.modChan_keeps)
    | (with_reducible apply State.parcel_keeps)
    | (with_reducible refine Keeps.foldl ?_ (fun _ _ _ => ?_))

theorem tableAnchors_noAfter {s : State} {k : Coll} : NoAfter (tableAnchors s k) := by
  unfold tableAnchors
  try dsimp -proj only
  repeat' first
    | (with_reducible apply need_noAfter)
    | (with_reducible exact NoAfter.need)
    | (with_reducible exact NoAfter.ok)
    | (with_reducible exact NoAfter.pure)
    | (with_reducible exact NoAfter.fault)
    | (with_reducible refine NoAfter.mapM (fun _ => ?_))
    | (with_reducible refine NoAfter.bind ?_ (fun _ => ?_))

theorem mapAnchors_noAfter {s : State} {k : Coll} : NoAfter (mapAnchors s k) := by
  unfold mapAnchors
  try dsimp -proj only
  repeat' first
    | (with_reducible apply anchorEntry_noAfter)
    | (with_reducible exact NoAfter.need)
    | (with_reducible exact NoAfter.ok)
    | (with_reducible exact NoAfter.pure)
    | (with_reducible exact NoAfter.fault)
    | (with_reducible refine NoAfter.mapM (fun _ => ?_))
    | (with_reducible refine NoAfter.bind ?_ (fun _ => ?_))

theorem fcollPlan_noAfter {c : Core} {chan : Chan} {axis : BitVec 2} {op : BitVec 4} {desc : BitVec 10} {rd : State} : NoAfter (fcollPlan c chan axis op desc rd) := by
  unfold fcollPlan
  try dsimp -proj only
  repeat' first
    | (with_reducible apply need_noAfter)
    | (with_reducible apply csRange_noAfter)
    | (with_reducible apply latchForm_noAfter)
    | (with_reducible apply needBlocks_noAfter)
    | (with_reducible apply tableAnchors_noAfter)
    | (with_reducible apply mapAnchors_noAfter)
    | (with_reducible exact NoAfter.need)
    | (with_reducible exact NoAfter.ok)
    | (with_reducible exact NoAfter.pure)
    | (with_reducible exact NoAfter.fault)
    | (with_reducible refine NoAfter.bind ?_ (fun _ => ?_))
    | (with_reducible refine NoAfter.map ?_)
    | (with_reducible refine NoAfter.ite ?_ ?_)
    | split

theorem fcollRun_keeps {vs : List View} {u₀ : State} {c : Core} {ch : Nat} {k : Coll} {rd s : State} (hk : Keeps vs u₀ s) (hm : [.cs, .mbox, .words, .service, .tens, .counters, .fabric, .mgmt, .power, .upsets] ⊆ vs) : Keeps vs u₀ (fcollRun c ch k rd s) := by
  refine hk.then hm ?_
  clear hk hm
  unfold fcollRun
  try dsimp -proj only
  repeat' first
    | (with_reducible exact Keeps.refl _ _)
    | (with_reducible assumption)
    | (with_reducible exact Or.inl rfl)
    | exact Or.inr (by decide)
    | decide
    | (with_reducible apply State.count_keeps)
    | (with_reducible apply State.noteReads_keeps)
    | (with_reducible apply State.checkCrc_keeps)
    | (with_reducible apply State.startPass_keeps)
    | (with_reducible apply State.takeEarly_keeps)
    | (with_reducible refine Keeps.upd ?_ rfl rfl ?_ ?_ ?_ ?_ ?_ ?_ ?_ ?_ ?_ ?_ ?_ ?_ ?_; rotate_left; fail_if_success (iterate 13 (with_reducible exact Or.inl rfl)))

theorem fcollAct_keeps {vs : List View} {u₀ : State} {c : Core} {chan : Chan} {axis : BitVec 2} {op : BitVec 4} {desc : BitVec 10} {rd s : State} (hk : Keeps vs u₀ s) (hm : [.cs, .mbox, .words, .service, .tens, .counters, .fabric, .mgmt, .power, .upsets] ⊆ vs) : KeepsR vs u₀ (fcollAct c chan axis op desc rd s) := by
  refine KeepsR.then hk hm ?_
  clear hk hm
  unfold fcollAct
  try dsimp -proj only
  repeat' first
    | (with_reducible exact Keeps.refl _ _)
    | (with_reducible assumption)
    | decide
    | (with_reducible apply fcollPlan_noAfter)
    | (with_reducible apply fcollRun_keeps)
    | (with_reducible refine KeepsR.bindS ?_ (fun _ _ => ?_))
    | (with_reducible refine KeepsR.bind ?_ (fun _ => ?_))
    | (with_reducible refine KeepsR.ok ?_)
    | (with_reducible refine KeepsR.pure ?_)

theorem State.writeAnchors_keeps {vs : List View} {u₀ : State} {s : State} {k : Coll} (hk : Keeps vs u₀ s) (hm : [.cs, .mbox, .words] ⊆ vs) : Keeps vs u₀ (State.writeAnchors s k) := by
  refine hk.then hm ?_
  clear hk hm
  unfold State.writeAnchors
  try dsimp -proj only
  repeat' first
    | (with_reducible exact Keeps.refl _ _)
    | (with_reducible assumption)
    | decide
    | (with_reducible apply State.writeWord_keeps)
    | (with_reducible refine Keeps.foldl ?_ (fun _ _ _ => ?_))

theorem State.scatterWork_keeps {vs : List View} {u₀ : State} {s : State} {k : Coll} (hk : Keeps vs u₀ s) (hm : [.cs, .mbox, .words, .counters, .fresh] ⊆ vs) : Keeps vs u₀ (State.scatterWork s k) := by
  refine hk.then hm ?_
  clear hk hm
  unfold State.scatterWork
  try dsimp -proj only
  repeat' first
    | (with_reducible exact Keeps.refl _ _)
    | (with_reducible assumption)
    | (with_reducible exact Or.inl rfl)
    | exact Or.inr (by decide)
    | decide
    | (with_reducible apply State.count_keeps)
    | (with_reducible apply State.writeWord_keeps)
    | (with_reducible refine Keeps.foldl ?_ (fun _ _ _ => ?_))
    | (with_reducible refine Keeps.foldlFst ?_ (fun _ _ _ => ?_))
    | (with_reducible refine Keeps.upd ?_ rfl rfl ?_ ?_ ?_ ?_ ?_ ?_ ?_ ?_ ?_ ?_ ?_ ?_ ?_; rotate_left; fail_if_success (iterate 13 (with_reducible exact Or.inl rfl)))

theorem State.clearLog_keeps {vs : List View} {u₀ : State} {s : State} {t ch : Nat} {k : Coll} (hk : Keeps vs u₀ s) (hm : [.mgmt] ⊆ vs) : Keeps vs u₀ (State.clearLog s t ch k) := by
  refine hk.then hm ?_
  clear hk hm
  unfold State.clearLog
  try dsimp -proj only
  repeat' first
    | (with_reducible exact Keeps.refl _ _)
    | (with_reducible assumption)
    | (with_reducible exact Or.inl rfl)
    | exact Or.inr (by decide)
    | decide
    | (with_reducible apply State.dayTen_keeps)
    | (with_reducible refine Keeps.ite ?_ ?_)
    | (with_reducible refine Keeps.upd ?_ rfl rfl ?_ ?_ ?_ ?_ ?_ ?_ ?_ ?_ ?_ ?_ ?_ ?_ ?_; rotate_left; fail_if_success (iterate 13 (with_reducible exact Or.inl rfl)))
    | split

theorem State.redoPass_keeps {vs : List View} {u₀ : State} {s : State} {t ch : Nat} {k : Coll} (hk : Keeps vs u₀ s) (hm : [.tens, .counters, .fabric, .mgmt, .power, .upsets] ⊆ vs) : Keeps vs u₀ (State.redoPass s t ch k) := by
  refine hk.then hm ?_
  clear hk hm
  unfold State.redoPass
  try dsimp -proj only
  repeat' first
    | (with_reducible exact Keeps.refl _ _)
    | (with_reducible assumption)
    | (with_reducible exact Or.inl rfl)
    | exact Or.inr (by decide)
    | decide
    | (with_reducible apply State.countTen_keeps)
    | (with_reducible apply State.dayTen_keeps)
    | (with_reducible apply State.startPass_keeps)
    | (with_reducible apply State.takeEarly_keeps)

theorem State.writeResults_keeps {vs : List View} {u₀ : State} {s : State} {t ch : Nat} {k : Coll} (hk : Keeps vs u₀ s) (hm : [.cs, .mbox, .hall, .merges, .words, .tens, .counters, .fabric, .mgmt, .power, .fresh] ⊆ vs) : Keeps vs u₀ (State.writeResults s t ch k) := by
  refine hk.then hm ?_
  clear hk hm
  unfold State.writeResults
  try dsimp -proj only
  repeat' first
    | (with_reducible exact Keeps.refl _ _)
    | (with_reducible assumption)
    | (with_reducible exact Or.inl rfl)
    | exact Or.inr (by decide)
    | decide
    | (with_reducible apply State.countTen_keeps)
    | (with_reducible apply State.emit_keeps)
    | (with_reducible apply State.setColl_keeps)
    | (with_reducible apply State.writeAnchors_keeps)
    | (with_reducible apply State.scatterWork_keeps)
    | (with_reducible apply State.clearLog_keeps)
    | (with_reducible refine Keeps.ite ?_ ?_)

theorem State.mergePass_keeps {vs : List View} {u₀ : State} {s : State} {t : Nat} (hk : Keeps vs u₀ s) (hm : [.tens, .counters, .fabric, .mgmt, .power, .upsets] ⊆ vs) : Keeps vs u₀ (State.mergePass s t) := by
  refine hk.then hm ?_
  clear hk hm
  unfold State.mergePass
  try dsimp -proj only
  repeat' first
    | (with_reducible exact Keeps.refl _ _)
    | (with_reducible assumption)
    | (with_reducible exact Or.inl rfl)
    | exact Or.inr (by decide)
    | decide
    | (with_reducible apply State.modTen_keeps)
    | (with_reducible apply State.startPass_keeps)
    | (with_reducible apply State.takeEarly_keeps)
    | (with_reducible refine Keeps.upd ?_ rfl rfl ?_ ?_ ?_ ?_ ?_ ?_ ?_ ?_ ?_ ?_ ?_ ?_ ?_; rotate_left; fail_if_success (iterate 13 (with_reducible exact Or.inl rfl)))
    | split

theorem State.startMerge_keeps {vs : List View} {u₀ : State} {s : State} {t : Nat} (hk : Keeps vs u₀ s) (hm : [.tens, .counters, .fabric, .mgmt, .power, .upsets] ⊆ vs) : Keeps vs u₀ (State.startMerge s t) := by
  refine hk.then hm ?_
  clear hk hm
  unfold State.startMerge
  try dsimp -proj only
  repeat' first
    | (with_reducible exact Keeps.refl _ _)
    | (with_reducible assumption)
    | (with_reducible exact Or.inl rfl)
    | exact Or.inr (by decide)
    | decide
    | (with_reducible apply State.modTen_keeps)
    | (with_reducible apply State.mergePass_keeps)

theorem State.mergeDone_keeps {vs : List View} {u₀ : State} {s : State} {t : Nat} {k : Coll} (hk : Keeps vs u₀ s) (hm : [.stores, .tens, .counters, .fabric, .mgmt, .power, .upsets] ⊆ vs) : Keeps vs u₀ (State.mergeDone s t k) := by
  refine hk.then hm ?_
  clear hk hm
  unfold State.mergeDone
  try dsimp -proj only
  repeat' first
    | (with_reducible exact Keeps.refl _ _)
    | (with_reducible assumption)
    | (with_reducible exact Or.inl rfl)
    | exact Or.inr (by decide)
    | decide
    | (with_reducible apply State.countTen_keeps)
    | (with_reducible apply State.modTen_keeps)
    | (with_reducible apply State.mergePass_keeps)
    | (with_reducible refine Keeps.foldl ?_ (fun _ _ _ => ?_))
    | (with_reducible refine Keeps.foldlFst ?_ (fun _ _ _ => ?_))
    | (with_reducible refine Keeps.ite ?_ ?_)
    | (with_reducible refine Keeps.upd ?_ rfl rfl ?_ ?_ ?_ ?_ ?_ ?_ ?_ ?_ ?_ ?_ ?_ ?_ ?_; rotate_left; fail_if_success (iterate 13 (with_reducible exact Or.inl rfl)))

end Sys2Proof.Machine
end

