-- ==== Sys2Proof/Laws/GatherKeeps.lean ====
section
/-! SUPPORT. What each operation of Machine/Gather.lean may change: the parts named, the queue and the identity never, and no canonical form. -/

namespace Sys2Proof.Machine

open Sys2Proof

theorem Gath.rowWords_noAfter {g : Gath} {s : State} {c : Core} {sp : Nat} {a sh : Int} {r : Nat} {isOut : Bool} : NoAfter (Gath.rowWords g s c sp a sh r isOut) := by
  unfold Gath.rowWords
  try dsimp -proj only
  repeat' first
    | (with_reducible apply rangeIn_noAfter)
    | (with_reducible exact NoAfter.need)
    | (with_reducible exact NoAfter.ok)
    | (with_reducible exact NoAfter.pure)
    | (with_reducible exact NoAfter.fault)
    | (with_reducible refine NoAfter.mapM (fun _ => ?_))
    | (with_reducible refine NoAfter.flatMapM (fun _ => ?_))
    | (with_reducible refine NoAfter.bind ?_ (fun _ => ?_))
    | (with_reducible refine NoAfter.map ?_)
    | (with_reducible refine NoAfter.ite ?_ ?_)

theorem Gath.copyRow_noAfter {g : Gath} {rd : State} {c : Core} {src dst : Nat} {dAdd : Int} {rng : Nat → Option Nat} : NoAfter (Gath.copyRow g rd c src dst dAdd rng) := by
  unfold Gath.copyRow
  try dsimp -proj only
  repeat' first
    | (with_reducible apply tileScale_noAfter)
    | (with_reducible apply rangeIn_noAfter)
    | (with_reducible exact NoAfter.need)
    | (with_reducible exact NoAfter.ok)
    | (with_reducible exact NoAfter.pure)
    | (with_reducible exact NoAfter.fault)
    | (with_reducible refine NoAfter.foldlM (fun _ _ => ?_))
    | (with_reducible refine NoAfter.bind ?_ (fun _ => ?_))
    | (with_reducible refine NoAfter.map ?_)
    | (with_reducible refine NoAfter.ite ?_ ?_)

theorem Gath.padRow_noAfter {g : Gath} {rd : State} {c : Core} {dst : Nat} : NoAfter (Gath.padRow g rd c dst) := by
  unfold Gath.padRow
  try dsimp -proj only
  repeat' first
    | (with_reducible apply Gath.rowWords_noAfter)
    | (with_reducible exact NoAfter.need)
    | (with_reducible exact NoAfter.ok)
    | (with_reducible exact NoAfter.pure)
    | (with_reducible exact NoAfter.fault)
    | (with_reducible refine NoAfter.bind ?_ (fun _ => ?_))

theorem gathPlan_noAfter {c : Core} {scat : Bool} {desc : BitVec 10} {ch : BitVec 2} {nent : BitVec 13} {rd : State} : NoAfter (gathPlan c scat desc ch nent rd) := by
  unfold gathPlan
  try dsimp -proj only
  repeat' first
    | (with_reducible apply need_noAfter)
    | (with_reducible apply csRange_noAfter)
    | (with_reducible apply latchForm_noAfter)
    | (with_reducible apply quantOpen_noAfter)
    | (with_reducible apply rngOf_noAfter)
    | (with_reducible apply needHall_noAfter)
    | (with_reducible apply planeBase_noAfter)
    | (with_reducible apply needChannel_noAfter)
    | (with_reducible exact NoAfter.need)
    | (with_reducible exact NoAfter.ok)
    | (with_reducible exact NoAfter.pure)
    | (with_reducible exact NoAfter.fault)
    | (with_reducible refine NoAfter.bind ?_ (fun _ => ?_))
    | (with_reducible refine NoAfter.map ?_)
    | (with_reducible refine NoAfter.ite ?_ ?_)

theorem gathRun_keeps {vs : List View} {u₀ : State} {c : Core} {ch : BitVec 2} {n : Nat} {p : GathPlan} {rd s : State} (hk : Keeps vs u₀ s) (hm : [.cs, .mbox, .hall, .busy, .reads, .merges, .words, .service, .stores, .tens, .counters, .fabric, .mgmt, .power, .fresh] ⊆ vs) : Keeps vs u₀ (gathRun c ch n p rd s) := by
  refine hk.then hm ?_
  clear hk hm
  unfold gathRun
  try dsimp -proj only
  repeat' first
    | (with_reducible exact Keeps.refl _ _)
    | (with_reducible assumption)
    | decide
    | (with_reducible apply State.countCore_keeps)
    | (with_reducible apply State.noteReads_keeps)
    | (with_reducible apply State.noteTile_keeps)
    | (with_reducible apply State.report_keeps)
    | (with_reducible apply State.quantUntil_keeps)
    | (with_reducible apply State.consume_keeps)
    | (with_reducible apply State.deliver_keeps)
    | (with_reducible apply State.takeChannel_keeps)
    | (with_reducible refine Keeps.foldl ?_ (fun _ _ _ => ?_))

theorem gathAct_keeps {vs : List View} {u₀ : State} {c : Core} {scat : Bool} {desc : BitVec 10} {ch : BitVec 2} {nent : BitVec 13} {rd s : State} (hk : Keeps vs u₀ s) (hm : [.cs, .mbox, .hall, .busy, .reads, .merges, .words, .service, .stores, .tens, .counters, .fabric, .mgmt, .power, .fresh] ⊆ vs) : KeepsR vs u₀ (gathAct c scat desc ch nent rd s) := by
  refine KeepsR.then hk hm ?_
  clear hk hm
  unfold gathAct
  try dsimp -proj only
  repeat' first
    | (with_reducible exact Keeps.refl _ _)
    | (with_reducible assumption)
    | (with_reducible exact Or.inl rfl)
    | exact Or.inr (by decide)
    | decide
    | (with_reducible apply State.claimPorts_keeps)
    | (with_reducible apply State.holdMerges_keeps)
    | (with_reducible apply State.claimSlots_keeps)
    | (with_reducible apply gathPlan_noAfter)
    | (with_reducible apply gathRun_keeps)
    | (with_reducible refine KeepsR.bindS ?_ (fun _ _ => ?_))
    | (with_reducible refine KeepsR.bind ?_ (fun _ => ?_))
    | (with_reducible refine KeepsR.ok ?_)
    | (with_reducible refine KeepsR.pure ?_)
    | (with_reducible exact KeepsR.fault)
    | (with_reducible exact KeepsR.throwFault)
    | (with_reducible refine KeepsR.after ?_)
    | (with_reducible refine KeepsR.throwAfter ?_)
    | (with_reducible exact NoAfter.need)
    | (with_reducible exact NoAfter.ok)
    | (with_reducible exact NoAfter.pure)
    | (with_reducible exact NoAfter.fault)
    | (with_reducible exact NoAfter.throwFault)
    | (with_reducible exact NoAfter.throwPoison)
    | (with_reducible refine NoAfter.bind ?_ (fun _ => ?_))
    | (with_reducible refine NoAfter.map ?_)
    | split

theorem hmeshPlan_noAfter {c : Core} {desc : BitVec 10} {ch : BitVec 2} {x y : BitVec 3} {count : BitVec 16} {rd : State} : NoAfter (hmeshPlan c desc ch x y count rd) := by
  unfold hmeshPlan
  try dsimp -proj only
  repeat' first
    | (with_reducible apply need_noAfter)
    | (with_reducible apply csRange_noAfter)
    | (with_reducible apply latchForm_noAfter)
    | (with_reducible apply needBlocks_noAfter)
    | (with_reducible apply needChannel_noAfter)
    | (with_reducible exact NoAfter.need)
    | (with_reducible exact NoAfter.ok)
    | (with_reducible exact NoAfter.pure)
    | (with_reducible exact NoAfter.fault)
    | (with_reducible refine NoAfter.bind ?_ (fun _ => ?_))

theorem meshRun_keeps {vs : List View} {u₀ : State} {c : Core} {ch : BitVec 2} {p : MeshPlan} {rd s : State} (hk : Keeps vs u₀ s) (hm : [.cs, .mbox, .hall, .busy, .merges, .words, .service, .tens, .counters, .fabric, .mgmt, .power] ⊆ vs) : Keeps vs u₀ (meshRun c ch p rd s) := by
  refine hk.then hm ?_
  clear hk hm
  unfold meshRun
  try dsimp -proj only
  repeat' first
    | (with_reducible exact Keeps.refl _ _)
    | (with_reducible assumption)
    | decide
    | (with_reducible apply State.chargeCore_keeps)
    | (with_reducible apply State.noteReads_keeps)
    | (with_reducible apply State.emitWith_keeps)
    | (with_reducible apply State.takeLinks_keeps)
    | (with_reducible apply State.checkCrc_keeps)
    | (with_reducible apply State.takeChannel_keeps)

theorem hmeshAct_keeps {vs : List View} {u₀ : State} {c : Core} {desc : BitVec 10} {ch : BitVec 2} {x y : BitVec 3} {count : BitVec 16} {rd s : State} (hk : Keeps vs u₀ s) (hm : [.cs, .mbox, .hall, .busy, .merges, .words, .service, .tens, .counters, .fabric, .mgmt, .power] ⊆ vs) : KeepsR vs u₀ (hmeshAct c desc ch x y count rd s) := by
  refine KeepsR.then hk hm ?_
  clear hk hm
  unfold hmeshAct
  try dsimp -proj only
  repeat' first
    | (with_reducible exact Keeps.refl _ _)
    | (with_reducible assumption)
    | decide
    | (with_reducible apply State.claimPorts_keeps)
    | (with_reducible apply State.meshFaults_keeps)
    | (with_reducible apply hmeshPlan_noAfter)
    | (with_reducible apply meshRun_keeps)
    | (with_reducible refine Keeps.ite ?_ ?_)
    | (with_reducible refine KeepsR.bindS ?_ (fun _ _ => ?_))
    | (with_reducible refine KeepsR.bind ?_ (fun _ => ?_))
    | (with_reducible refine KeepsR.ite ?_ ?_)
    | (with_reducible refine KeepsR.ok ?_)
    | (with_reducible refine KeepsR.pure ?_)
    | (with_reducible exact KeepsR.fault)
    | (with_reducible exact KeepsR.throwFault)
    | (with_reducible refine KeepsR.after ?_)
    | (with_reducible refine KeepsR.throwAfter ?_)

theorem hpagePlan_noAfter {c : Core} {desc : BitVec 10} {ch : BitVec 2} {page : BitVec 3} {tag : BitVec 8} {rd : State} : NoAfter (hpagePlan c desc ch page tag rd) := by
  unfold hpagePlan
  try dsimp -proj only
  repeat' first
    | (with_reducible apply need_noAfter)
    | (with_reducible apply hbmRange_noAfter)
    | (with_reducible apply latchForm_noAfter)
    | (with_reducible apply needBlocks_noAfter)
    | (with_reducible apply needChannel_noAfter)
    | (with_reducible exact NoAfter.need)
    | (with_reducible exact NoAfter.ok)
    | (with_reducible exact NoAfter.pure)
    | (with_reducible exact NoAfter.fault)
    | (with_reducible refine NoAfter.bind ?_ (fun _ => ?_))

theorem State.beginFill_keeps {vs : List View} {u₀ : State} {s : State} {c : Core} {page : BitVec 3} (hk : Keeps vs u₀ s) (hm : [.tags] ⊆ vs) : Keeps vs u₀ (State.beginFill s c page) := by
  refine hk.then hm ?_
  clear hk hm
  unfold State.beginFill
  try dsimp -proj only
  repeat' first
    | (with_reducible exact Keeps.refl _ _)
    | (with_reducible assumption)
    | (with_reducible exact Or.inl rfl)
    | exact Or.inr (by decide)
    | decide
    | (with_reducible refine Keeps.upd ?_ rfl rfl ?_ ?_ ?_ ?_ ?_ ?_ ?_ ?_ ?_ ?_ ?_ ?_ ?_; rotate_left; fail_if_success (iterate 13 (with_reducible exact Or.inl rfl)))
    | ((with_reducible refine Or.inr (?_ : CoresOk _ _ _)); simp +contextual [CoresOk, Cores.wf, memPut_wf, memPuts_wf, memClear_wf, memFilter_wf])

theorem pageRun_keeps {vs : List View} {u₀ : State} {c : Core} {ch : BitVec 2} {page : BitVec 3} {tag : BitVec 8} {sb : Nat} {rd s : State} (hk : Keeps vs u₀ s) (hm : [.tags, .busy, .reads, .counters, .mgmt] ⊆ vs) : Keeps vs u₀ (pageRun c ch page tag sb rd s) := by
  refine hk.then hm ?_
  clear hk hm
  unfold pageRun
  try dsimp -proj only
  repeat' first
    | (with_reducible exact Keeps.refl _ _)
    | (with_reducible assumption)
    | decide
    | (with_reducible apply State.enqueue_keeps)
    | (with_reducible apply State.checkCrc_keeps)
    | (with_reducible apply State.takeChannel_keeps)
    | (with_reducible apply State.beginFill_keeps)

theorem hpageAct_keeps {vs : List View} {u₀ : State} {c : Core} {desc : BitVec 10} {ch : BitVec 2} {page : BitVec 3} {tag : BitVec 8} {rd s : State} (hk : Keeps vs u₀ s) (hm : [.tags, .busy, .reads, .service, .tens, .counters, .fabric, .mgmt, .power] ⊆ vs) : KeepsR vs u₀ (hpageAct c desc ch page tag rd s) := by
  refine KeepsR.then hk hm ?_
  clear hk hm
  unfold hpageAct
  try dsimp -proj only
  repeat' first
    | (with_reducible exact Keeps.refl _ _)
    | (with_reducible assumption)
    | decide
    | (with_reducible apply State.claimSlots_keeps)
    | (with_reducible apply hpagePlan_noAfter)
    | (with_reducible apply pageRun_keeps)
    | (with_reducible refine KeepsR.bindS ?_ (fun _ _ => ?_))
    | (with_reducible refine KeepsR.bind ?_ (fun _ => ?_))
    | (with_reducible refine KeepsR.ok ?_)
    | (with_reducible refine KeepsR.pure ?_)

theorem hdescPlan_noAfter {c : Core} {entry : BitVec 10} {ch : BitVec 2} {addr : BitVec 18} {kind : BitVec 3} {rd : State} : NoAfter (hdescPlan c entry ch addr kind rd) := by
  unfold hdescPlan
  try dsimp -proj only
  repeat' first
    | (with_reducible apply need_noAfter)
    | (with_reducible apply csRange_noAfter)
    | (with_reducible apply needChannel_noAfter)
    | (with_reducible exact NoAfter.need)
    | (with_reducible exact NoAfter.ok)
    | (with_reducible exact NoAfter.pure)
    | (with_reducible exact NoAfter.fault)
    | (with_reducible refine NoAfter.bind ?_ (fun _ => ?_))

theorem descRun_keeps {vs : List View} {u₀ : State} {c : Core} {entry : BitVec 10} {ch : BitVec 2} {kind : BitVec 3} {a : Nat} {rd s : State} (hk : Keeps vs u₀ s) (hm : [.cs, .desc, .mbox, .busy, .words, .service, .tens, .counters, .power] ⊆ vs) : Keeps vs u₀ (descRun c entry ch kind a rd s) := by
  refine hk.then hm ?_
  clear hk hm
  unfold descRun
  try dsimp -proj only
  repeat' first
    | (with_reducible exact Keeps.refl _ _)
    | (with_reducible assumption)
    | (with_reducible exact Or.inl rfl)
    | exact Or.inr (by decide)
    | decide
    | (with_reducible apply State.noteReads_keeps)
    | (with_reducible apply State.takeChannel_keeps)
    | (with_reducible refine Keeps.upd ?_ rfl rfl ?_ ?_ ?_ ?_ ?_ ?_ ?_ ?_ ?_ ?_ ?_ ?_ ?_; rotate_left; fail_if_success (iterate 13 (with_reducible exact Or.inl rfl)))
    | ((with_reducible refine Or.inr (?_ : CoresOk _ _ _)); simp +contextual [CoresOk, Cores.wf, memPut_wf, memPuts_wf, memClear_wf, memFilter_wf])

theorem hdescAct_keeps {vs : List View} {u₀ : State} {c : Core} {entry : BitVec 10} {ch : BitVec 2} {addr : BitVec 18} {kind : BitVec 3} {rd s : State} (hk : Keeps vs u₀ s) (hm : [.cs, .desc, .mbox, .busy, .words, .service, .tens, .counters, .power] ⊆ vs) : KeepsR vs u₀ (hdescAct c entry ch addr kind rd s) := by
  refine KeepsR.then hk hm ?_
  clear hk hm
  unfold hdescAct
  try dsimp -proj only
  repeat' first
    | (with_reducible exact Keeps.refl _ _)
    | (with_reducible assumption)
    | decide
    | (with_reducible apply State.claimPorts_keeps)
    | (with_reducible apply hdescPlan_noAfter)
    | (with_reducible apply descRun_keeps)
    | (with_reducible refine KeepsR.bindS ?_ (fun _ _ => ?_))
    | (with_reducible refine KeepsR.bind ?_ (fun _ => ?_))
    | (with_reducible refine KeepsR.ok ?_)
    | (with_reducible refine KeepsR.pure ?_)

theorem dspAddr_noAfter {s : State} {c : Core} {d : BitVec 512} {i n : Nat} : NoAfter (dspAddr s c d i n) := by
  unfold dspAddr
  try dsimp -proj only
  repeat' first
    | (with_reducible apply csRange_noAfter)

theorem topkPlan_noAfter {c : Core} {d : BitVec 512} {rd : State} : NoAfter (topkPlan c d rd) := by
  unfold topkPlan
  try dsimp -proj only
  repeat' first
    | (with_reducible apply need_noAfter)
    | (with_reducible apply needHall_noAfter)
    | (with_reducible apply dspAddr_noAfter)
    | (with_reducible exact NoAfter.need)
    | (with_reducible exact NoAfter.ok)
    | (with_reducible exact NoAfter.pure)
    | (with_reducible exact NoAfter.fault)
    | (with_reducible refine NoAfter.bind ?_ (fun _ => ?_))

theorem uniquePlan_noAfter {c : Core} {d : BitVec 512} {rd : State} : NoAfter (uniquePlan c d rd) := by
  unfold uniquePlan
  try dsimp -proj only
  repeat' first
    | (with_reducible apply need_noAfter)
    | (with_reducible apply needHall_noAfter)
    | (with_reducible apply dspAddr_noAfter)
    | (with_reducible exact NoAfter.need)
    | (with_reducible exact NoAfter.ok)
    | (with_reducible exact NoAfter.pure)
    | (with_reducible exact NoAfter.fault)
    | (with_reducible refine NoAfter.bind ?_ (fun _ => ?_))

theorem hdspPlan_noAfter {c : Core} {desc : BitVec 10} {rd : State} : NoAfter (hdspPlan c desc rd) := by
  unfold hdspPlan
  try dsimp -proj only
  repeat' first
    | (with_reducible apply need_noAfter)
    | (with_reducible apply latchForm_noAfter)
    | (with_reducible apply needChannel_noAfter)
    | (with_reducible apply topkPlan_noAfter)
    | (with_reducible apply uniquePlan_noAfter)
    | (with_reducible exact NoAfter.need)
    | (with_reducible exact NoAfter.ok)
    | (with_reducible exact NoAfter.pure)
    | (with_reducible exact NoAfter.fault)
    | (with_reducible refine NoAfter.bind ?_ (fun _ => ?_))
    | (with_reducible refine NoAfter.map ?_)
    | (with_reducible refine NoAfter.ite ?_ ?_)

theorem dispRun_keeps {vs : List View} {u₀ : State} {c : Core} {p : DispPlan} {rd s : State} (hk : Keeps vs u₀ s) (hm : [.cs, .mbox, .hall, .busy, .merges, .words, .service, .tens, .counters, .fabric, .mgmt, .power] ⊆ vs) : Keeps vs u₀ (dispRun c p rd s) := by
  refine hk.then hm ?_
  clear hk hm
  unfold dispRun
  try dsimp -proj only
  repeat' first
    | (with_reducible exact Keeps.refl _ _)
    | (with_reducible assumption)
    | decide
    | (with_reducible apply State.countCore_keeps)
    | (with_reducible apply State.emit_keeps)
    | (with_reducible apply State.consume_keeps)
    | (with_reducible apply State.takeChannel_keeps)
    | (with_reducible refine Keeps.foldl ?_ (fun _ _ _ => ?_))

theorem hdspAct_keeps {vs : List View} {u₀ : State} {c : Core} {desc : BitVec 10} {rd s : State} (hk : Keeps vs u₀ s) (hm : [.cs, .mbox, .hall, .busy, .merges, .words, .service, .tens, .counters, .fabric, .mgmt, .power] ⊆ vs) : KeepsR vs u₀ (hdspAct c desc rd s) := by
  refine KeepsR.then hk hm ?_
  clear hk hm
  unfold hdspAct
  try dsimp -proj only
  repeat' first
    | (with_reducible exact Keeps.refl _ _)
    | (with_reducible assumption)
    | decide
    | (with_reducible apply State.claimPorts_keeps)
    | (with_reducible apply State.holdMerges_keeps)
    | (with_reducible apply hdspPlan_noAfter)
    | (with_reducible apply dispRun_keeps)
    | (with_reducible refine KeepsR.bindS ?_ (fun _ _ => ?_))
    | (with_reducible refine KeepsR.bind ?_ (fun _ => ?_))

theorem execHgath_keeps {vs : List View} {u₀ : State} {c : Core} {desc : BitVec 10} {ch : BitVec 2} {nent : BitVec 13} {s : State} (hk : Keeps vs u₀ s) (hm : [.cs, .mbox, .hall, .busy, .reads, .merges, .words, .service, .stores, .tens, .counters, .fabric, .mgmt, .power, .fresh] ⊆ vs) : KeepsO vs u₀ (execHgath c desc ch nent s) :=
  KeepsO.then hk hm (KeepsO.next (slotOp_keeps (Keeps.refl _ _) (by decide) (gathAct_keeps (Keeps.refl _ _) (by decide))))

theorem execHscat_keeps {vs : List View} {u₀ : State} {c : Core} {desc : BitVec 10} {ch : BitVec 2} {nent : BitVec 13} {s : State} (hk : Keeps vs u₀ s) (hm : [.cs, .mbox, .hall, .busy, .reads, .merges, .words, .service, .stores, .tens, .counters, .fabric, .mgmt, .power, .fresh] ⊆ vs) : KeepsO vs u₀ (execHscat c desc ch nent s) :=
  KeepsO.then hk hm (KeepsO.next (slotOp_keeps (Keeps.refl _ _) (by decide) (gathAct_keeps (Keeps.refl _ _) (by decide))))

theorem execHmesh_keeps {vs : List View} {u₀ : State} {c : Core} {desc : BitVec 10} {ch : BitVec 2} {x y : BitVec 3} {count : BitVec 16} {s : State} (hk : Keeps vs u₀ s) (hm : [.cs, .mbox, .hall, .busy, .merges, .words, .service, .tens, .counters, .fabric, .mgmt, .power] ⊆ vs) : KeepsO vs u₀ (execHmesh c desc ch x y count s) :=
  KeepsO.then hk hm (KeepsO.next (slotOp_keeps (Keeps.refl _ _) (by decide) (hmeshAct_keeps (Keeps.refl _ _) (by decide))))

theorem execHpage_keeps {vs : List View} {u₀ : State} {c : Core} {desc : BitVec 10} {ch : BitVec 2} {page : BitVec 3} {tag : BitVec 8} {s : State} (hk : Keeps vs u₀ s) (hm : [.tags, .busy, .reads, .service, .tens, .counters, .fabric, .mgmt, .power] ⊆ vs) : KeepsO vs u₀ (execHpage c desc ch page tag s) :=
  KeepsO.then hk hm (KeepsO.next (slotOp_keeps (Keeps.refl _ _) (by decide) (hpageAct_keeps (Keeps.refl _ _) (by decide))))

theorem execHdesc_keeps {vs : List View} {u₀ : State} {c : Core} {entry : BitVec 10} {ch : BitVec 2} {addr : BitVec 18} {kind : BitVec 3} {s : State} (hk : Keeps vs u₀ s) (hm : [.cs, .desc, .mbox, .busy, .words, .service, .tens, .counters, .fabric, .mgmt, .power] ⊆ vs) : KeepsO vs u₀ (execHdesc c entry ch addr kind s) :=
  KeepsO.then hk hm (KeepsO.next (slotOp_keeps (Keeps.refl _ _) (by decide) (hdescAct_keeps (Keeps.refl _ _) (by decide))))

theorem execHdsp_keeps {vs : List View} {u₀ : State} {c : Core} {desc : BitVec 10} {s : State} (hk : Keeps vs u₀ s) (hm : [.cs, .mbox, .hall, .busy, .merges, .words, .service, .tens, .counters, .fabric, .mgmt, .power] ⊆ vs) : KeepsO vs u₀ (execHdsp c desc s) :=
  KeepsO.then hk hm (KeepsO.next (slotOp_keeps (Keeps.refl _ _) (by decide) (hdspAct_keeps (Keeps.refl _ _) (by decide))))

end Sys2Proof.Machine
end

