-- ==== Sys2Proof/Laws/RowKeeps.lean ====
section
/-! SUPPORT. What each operation of Machine/Row.lean may change: the parts named, the queue and the identity never, and no canonical form. -/

namespace Sys2Proof.Machine

open Sys2Proof

theorem openRaw_noAfter {s : State} {c : Core} {d : BitVec 512} {k n : Nat} {isIn : Bool} : NoAfter (openRaw s c d k n isIn) := by
  unfold openRaw
  try dsimp -proj only
  repeat' first
    | (with_reducible apply need_noAfter)
    | (with_reducible apply csRange_noAfter)
    | (with_reducible apply needHall_noAfter)
    | (with_reducible exact NoAfter.need)
    | (with_reducible exact NoAfter.ok)
    | (with_reducible exact NoAfter.pure)
    | (with_reducible exact NoAfter.fault)
    | (with_reducible refine NoAfter.bind ?_ (fun _ => ?_))
    | (with_reducible refine NoAfter.map ?_)
    | (with_reducible refine NoAfter.ite ?_ ?_)

theorem State.setPurse_keeps {vs : List View} {u₀ : State} {s : State} {c : Core} {i : Nat} {e : PurseEntry} (hk : Keeps vs u₀ s) (hm : [.purse] ⊆ vs) : Keeps vs u₀ (State.setPurse s c i e) := by
  refine hk.then hm ?_
  clear hk hm
  unfold State.setPurse
  try dsimp -proj only
  repeat' first
    | (with_reducible exact Keeps.refl _ _)
    | (with_reducible assumption)
    | (with_reducible exact Or.inl rfl)
    | exact Or.inr (by decide)
    | decide
    | (with_reducible refine Keeps.upd ?_ rfl rfl ?_ ?_ ?_ ?_ ?_ ?_ ?_ ?_ ?_ ?_ ?_ ?_ ?_; rotate_left; fail_if_success (iterate 13 (with_reducible exact Or.inl rfl)))
    | ((with_reducible refine Or.inr (?_ : CoresOk _ _ _)); simp +contextual [CoresOk, Cores.wf, memPut_wf, memPuts_wf, memClear_wf, memFilter_wf])

theorem State.notePurse_keeps {vs : List View} {u₀ : State} {s : State} {c : Core} {base n : Nat} (hk : Keeps vs u₀ s) (hm : [.purse, .counters, .mgmt] ⊆ vs) : Keeps vs u₀ (State.notePurse s c base n) := by
  refine hk.then hm ?_
  clear hk hm
  unfold State.notePurse
  try dsimp -proj only
  repeat' first
    | (with_reducible exact Keeps.refl _ _)
    | (with_reducible assumption)
    | (with_reducible exact Or.inl rfl)
    | exact Or.inr (by decide)
    | decide
    | (with_reducible apply State.countCore_keeps)
    | (with_reducible apply State.addFigure_keeps)
    | (with_reducible apply State.setPurse_keeps)
    | (with_reducible refine Keeps.foldl ?_ (fun _ _ _ => ?_))
    | (with_reducible refine Keeps.foldlFst ?_ (fun _ _ _ => ?_))
    | (with_reducible refine Keeps.upd ?_ rfl rfl ?_ ?_ ?_ ?_ ?_ ?_ ?_ ?_ ?_ ?_ ?_ ?_ ?_; rotate_left; fail_if_success (iterate 13 (with_reducible exact Or.inl rfl)))
    | split

theorem rowIssue_noAfter {c : Core} {a : RowArgs} {h : RowShape} {okFlags : Bool} {rd : State} : NoAfter (rowIssue c a h okFlags rd) := by
  unfold rowIssue
  try dsimp -proj only
  repeat' first
    | (with_reducible apply need_noAfter)
    | (with_reducible apply latchForm_noAfter)
    | (with_reducible exact NoAfter.need)
    | (with_reducible exact NoAfter.ok)
    | (with_reducible exact NoAfter.pure)
    | (with_reducible exact NoAfter.fault)
    | (with_reducible refine NoAfter.bind ?_ (fun _ => ?_))

theorem State.takeRow_keeps {vs : List View} {u₀ : State} {s : State} {c : Core} {until' : Nat} (hk : Keeps vs u₀ s) (hm : [.busy] ⊆ vs) : Keeps vs u₀ (State.takeRow s c until') := by
  refine hk.then hm ?_
  clear hk hm
  unfold State.takeRow
  try dsimp -proj only
  repeat' first
    | (with_reducible exact Keeps.refl _ _)
    | (with_reducible assumption)
    | (with_reducible exact Or.inl rfl)
    | exact Or.inr (by decide)
    | decide
    | (with_reducible refine Keeps.upd ?_ rfl rfl ?_ ?_ ?_ ?_ ?_ ?_ ?_ ?_ ?_ ?_ ?_ ?_ ?_; rotate_left; fail_if_success (iterate 13 (with_reducible exact Or.inl rfl)))
    | ((with_reducible refine Or.inr (?_ : CoresOk _ _ _)); simp +contextual [CoresOk, Cores.wf, memPut_wf, memPuts_wf, memClear_wf, memFilter_wf])

theorem rowWrite_keeps {vs : List View} {u₀ : State} {c : Core} {a : RowArgs} {d : BitVec 512} {rd : State} {rng : Int → Option Nat} {outs : List RowOut} {s : State} {o : Option (Strm × Walk)} {get : RowOut → List (Num × Bool)} (hk : Keeps vs u₀ s) (hm : [.cs, .mbox, .hall, .merges, .words, .stores, .tens, .counters, .fabric, .mgmt, .power, .fresh] ⊆ vs) : Keeps vs u₀ (rowWrite c a d rd rng outs s o get) := by
  refine hk.then hm ?_
  clear hk hm
  unfold rowWrite
  try dsimp -proj only
  repeat' first
    | (with_reducible exact Keeps.refl _ _)
    | (with_reducible assumption)
    | (with_reducible exact Or.inl rfl)
    | exact Or.inr (by decide)
    | decide
    | (with_reducible apply State.emit_keeps)
    | (with_reducible apply State.report_keeps)
    | (with_reducible apply State.noteStrm_keeps)
    | (with_reducible refine Keeps.upd ?_ rfl rfl ?_ ?_ ?_ ?_ ?_ ?_ ?_ ?_ ?_ ?_ ?_ ?_ ?_; rotate_left; fail_if_success (iterate 13 (with_reducible exact Or.inl rfl)))
    | split

theorem rowRaw_keeps {vs : List View} {u₀ : State} {c : Core} {a : RowArgs} {d : BitVec 512} {rd : State} {outs : List RowOut} {s : State} {rawC : Option Nat} (hk : Keeps vs u₀ s) (hm : [.cs, .mbox, .hall, .merges, .words, .tens, .counters, .fabric, .mgmt, .power] ⊆ vs) : Keeps vs u₀ (rowRaw c a d rd outs s rawC) := by
  refine hk.then hm ?_
  clear hk hm
  unfold rowRaw
  try dsimp -proj only
  repeat' first
    | (with_reducible exact Keeps.refl _ _)
    | (with_reducible assumption)
    | (with_reducible exact Or.inl rfl)
    | exact Or.inr (by decide)
    | decide
    | (with_reducible apply State.emit_keeps)
    | (with_reducible refine Keeps.upd ?_ rfl rfl ?_ ?_ ?_ ?_ ?_ ?_ ?_ ?_ ?_ ?_ ?_ ?_ ?_; rotate_left; fail_if_success (iterate 13 (with_reducible exact Or.inl rfl)))
    | split

theorem rowReads_keeps {vs : List View} {u₀ : State} {c : Core} {a : RowArgs} {rd : State} {ran : Nat} {s : State} {ins : List (Strm × Walk)} {rawWords : List Nat} (hk : Keeps vs u₀ s) (hm : [.cs, .mbox, .words, .service, .stores, .tens, .counters, .fabric, .mgmt, .power, .fresh] ⊆ vs) : Keeps vs u₀ (rowReads c a rd ran s ins rawWords) := by
  refine hk.then hm ?_
  clear hk hm
  unfold rowReads
  try dsimp -proj only
  repeat' first
    | (with_reducible exact Keeps.refl _ _)
    | (with_reducible assumption)
    | decide
    | (with_reducible apply State.noteStrm_keeps)
    | (with_reducible apply State.consume_keeps)
    | (with_reducible refine Keeps.foldl ?_ (fun _ _ _ => ?_))
    | (with_reducible refine Keeps.foldlFst ?_ (fun _ _ _ => ?_))
    | (with_reducible refine Keeps.ite ?_ ?_)

theorem rowPurseReads_keeps {vs : List View} {u₀ : State} {c : Core} {rd : State} {base n : Nat} {s : State} (hk : Keeps vs u₀ s) (hm : [.purse, .tens, .counters, .fabric, .mgmt, .power, .fresh] ⊆ vs) : Keeps vs u₀ (rowPurseReads c rd base n s) := by
  refine hk.then hm ?_
  clear hk hm
  unfold rowPurseReads
  try dsimp -proj only
  repeat' first
    | (with_reducible exact Keeps.refl _ _)
    | (with_reducible assumption)
    | decide
    | (with_reducible apply State.draw_keeps)
    | (with_reducible apply State.poisonConsumed_keeps)
    | (with_reducible apply State.notePurse_keeps)
    | (with_reducible refine Keeps.ite ?_ ?_)

theorem rowPurse_keeps {vs : List View} {u₀ : State} {c : Core} {base per tag : Nat} {outs : List RowOut} {s : State} (hk : Keeps vs u₀ s) (hm : [.purse] ⊆ vs) : Keeps vs u₀ (rowPurse c base per tag outs s) := by
  refine hk.then hm ?_
  clear hk hm
  unfold rowPurse
  try dsimp -proj only
  repeat' first
    | (with_reducible exact Keeps.refl _ _)
    | (with_reducible assumption)
    | decide
    | (with_reducible apply State.setPurse_keeps)
    | (with_reducible refine Keeps.foldl ?_ (fun _ _ _ => ?_))

theorem rowRun_keeps {vs : List View} {u₀ : State} {c : Core} {a : RowArgs} {p : RowPlan} {rd s : State} (hk : Keeps vs u₀ s) (hm : [.cs, .purse, .mbox, .hall, .busy, .merges, .words, .service, .stores, .tens, .counters, .fabric, .mgmt, .power, .upsets, .fresh] ⊆ vs) : Keeps vs u₀ (rowRun c a p rd s) := by
  refine hk.then hm ?_
  clear hk hm
  unfold rowRun
  try dsimp -proj only
  repeat' first
    | (with_reducible exact Keeps.refl _ _)
    | (with_reducible assumption)
    | (with_reducible exact Or.inl rfl)
    | exact Or.inr (by decide)
    | decide
    | (with_reducible apply State.countCore_keeps)
    | (with_reducible apply State.chargeCore_keeps)
    | (with_reducible apply State.dupStrike_keeps)
    | (with_reducible apply State.romStrike_keeps)
    | (with_reducible apply State.quantUntil_keeps)
    | (with_reducible apply State.takeRow_keeps)
    | (with_reducible apply rowWrite_keeps)
    | (with_reducible apply rowRaw_keeps)
    | (with_reducible apply rowReads_keeps)
    | (with_reducible apply rowPurseReads_keeps)
    | (with_reducible apply rowPurse_keeps)
    | (with_reducible refine Keeps.foldl ?_ (fun _ _ _ => ?_))
    | (with_reducible refine Keeps.foldlFst ?_ (fun _ _ _ => ?_))
    | (with_reducible refine Keeps.ite ?_ ?_)
    | (with_reducible refine Keeps.upd ?_ rfl rfl ?_ ?_ ?_ ?_ ?_ ?_ ?_ ?_ ?_ ?_ ?_ ?_ ?_; rotate_left; fail_if_success (iterate 13 (with_reducible exact Or.inl rfl)))

/-- A row operation changes what its work changes, and the ports. -/
theorem rowDo_keeps {vs : List View} {u₀ : State} {plan : State → Res RowPlan} {c : Core} {a : RowArgs} {rd s : State} (hk : Keeps vs u₀ s)
    (hm : [.cs, .purse, .mbox, .hall, .busy, .merges, .words, .service, .stores, .tens, .counters, .fabric, .mgmt, .power, .upsets, .fresh] ⊆ vs) (hp : ∀ u, NoAfter (plan u)) : KeepsR vs u₀ (rowDo plan c a rd s) := by
  refine KeepsR.then hk hm ?_
  unfold rowDo
  refine KeepsR.bind (hp rd) (fun p => KeepsR.bindS (State.claimPorts_keeps (Keeps.refl _ _) (by decide)) (fun t ht =>
    KeepsR.bindS (State.holdMerges_keeps (rowRun_keeps ht (by decide)) (by decide)) (fun u hu => ?_)))
  split
  · exact KeepsR.ok hu
  · exact KeepsR.throwAfter hu

theorem rowPlan_noAfter {h : RowShape} {okFlags : Bool} {roles : List (Option Walk)} {outD outC : Option Walk} {rawB rawC rawOut : Bool} {f : RowIn → RowOut} {c : Core} {a : RowArgs} {rd : State} : NoAfter (rowPlan h okFlags roles outD outC rawB rawC rawOut f c a rd) := by
  unfold rowPlan
  try dsimp -proj only
  repeat' first
    | (with_reducible apply need_noAfter)
    | (with_reducible apply quantOpen_noAfter)
    | (with_reducible apply rngOf_noAfter)
    | (with_reducible apply openStrm_noAfter)
    | (with_reducible apply Strm.ready_noAfter)
    | (with_reducible apply openRaw_noAfter)
    | (with_reducible apply rowIssue_noAfter)
    | (with_reducible exact NoAfter.need)
    | (with_reducible exact NoAfter.ok)
    | (with_reducible exact NoAfter.pure)
    | (with_reducible exact NoAfter.fault)
    | (with_reducible refine NoAfter.filterMapM (fun _ => ?_))
    | (with_reducible refine NoAfter.bind ?_ (fun _ => ?_))
    | (with_reducible refine NoAfter.map ?_)
    | (with_reducible refine NoAfter.ite ?_ ?_)
    | split

theorem combWords_noAfter {rd : State} {c : Core} {d : BitVec 512} {rows : Nat} : NoAfter (combWords rd c d rows) := by
  unfold combWords
  try dsimp -proj only
  repeat' first
    | (with_reducible apply csRange_noAfter)
    | (with_reducible apply needHall_noAfter)
    | (with_reducible exact NoAfter.need)
    | (with_reducible exact NoAfter.ok)
    | (with_reducible exact NoAfter.pure)
    | (with_reducible exact NoAfter.fault)
    | (with_reducible refine NoAfter.bind ?_ (fun _ => ?_))

theorem routeStrm_noAfter {rd : State} {c : Core} {d : BitVec 512} {k : Nat} {isOut : Bool} {es : Strm → List Int} : NoAfter (routeStrm rd c d k isOut es) := by
  unfold routeStrm
  try dsimp -proj only
  repeat' first
    | (with_reducible apply openStrm_noAfter)
    | (with_reducible apply Strm.ready_noAfter)
    | (with_reducible exact NoAfter.need)
    | (with_reducible exact NoAfter.ok)
    | (with_reducible exact NoAfter.pure)
    | (with_reducible exact NoAfter.fault)
    | (with_reducible refine NoAfter.bind ?_ (fun _ => ?_))

theorem rroutePlan_noAfter {c : Core} {a : RowArgs} {rd : State} : NoAfter (rroutePlan c a rd) := by
  unfold rroutePlan
  try dsimp -proj only
  repeat' first
    | (with_reducible apply need_noAfter)
    | (with_reducible apply rngOf_noAfter)
    | (with_reducible apply rowIssue_noAfter)
    | (with_reducible apply combWords_noAfter)
    | (with_reducible apply routeStrm_noAfter)
    | (with_reducible exact NoAfter.need)
    | (with_reducible exact NoAfter.ok)
    | (with_reducible exact NoAfter.pure)
    | (with_reducible exact NoAfter.fault)
    | (with_reducible refine NoAfter.bind ?_ (fun _ => ?_))

theorem rrouteAct_keeps {vs : List View} {u₀ : State} {c : Core} {a : RowArgs} {rd s : State} (hk : Keeps vs u₀ s) (hm : [.cs, .purse, .mbox, .hall, .busy, .merges, .words, .service, .stores, .tens, .counters, .fabric, .mgmt, .power, .upsets, .fresh] ⊆ vs) : KeepsR vs u₀ (rrouteAct c a rd s) := by
  refine KeepsR.then hk hm ?_
  clear hk hm
  unfold rrouteAct
  try dsimp -proj only
  repeat' first
    | (with_reducible exact Keeps.refl _ _)
    | (with_reducible assumption)
    | decide
    | (with_reducible refine rowDo_keeps ?_ ?_ (fun _ => ?_))
    | (with_reducible apply rroutePlan_noAfter)

theorem rroutebPlan_noAfter {c : Core} {a : RowArgs} {rd : State} : NoAfter (rroutebPlan c a rd) := by
  unfold rroutebPlan
  try dsimp -proj only
  repeat' first
    | (with_reducible apply need_noAfter)
    | (with_reducible apply rngOf_noAfter)
    | (with_reducible apply rowIssue_noAfter)
    | (with_reducible apply combWords_noAfter)
    | (with_reducible apply routeStrm_noAfter)
    | (with_reducible exact NoAfter.need)
    | (with_reducible exact NoAfter.ok)
    | (with_reducible exact NoAfter.pure)
    | (with_reducible exact NoAfter.fault)
    | (with_reducible refine NoAfter.bind ?_ (fun _ => ?_))

theorem rroutebAct_keeps {vs : List View} {u₀ : State} {c : Core} {a : RowArgs} {rd s : State} (hk : Keeps vs u₀ s) (hm : [.cs, .purse, .mbox, .hall, .busy, .merges, .words, .service, .stores, .tens, .counters, .fabric, .mgmt, .power, .upsets, .fresh] ⊆ vs) : KeepsR vs u₀ (rroutebAct c a rd s) := by
  refine KeepsR.then hk hm ?_
  clear hk hm
  unfold rroutebAct
  try dsimp -proj only
  repeat' first
    | (with_reducible exact Keeps.refl _ _)
    | (with_reducible assumption)
    | decide
    | (with_reducible refine rowDo_keeps ?_ ?_ (fun _ => ?_))
    | (with_reducible apply rroutebPlan_noAfter)

theorem rcombPlan_noAfter {c : Core} {a : RowArgs} {rd : State} : NoAfter (rcombPlan c a rd) := by
  unfold rcombPlan
  try dsimp -proj only
  repeat' first
    | (with_reducible apply need_noAfter)
    | (with_reducible apply rngOf_noAfter)
    | (with_reducible apply rowIssue_noAfter)
    | (with_reducible apply combWords_noAfter)
    | (with_reducible apply routeStrm_noAfter)
    | (with_reducible exact NoAfter.need)
    | (with_reducible exact NoAfter.ok)
    | (with_reducible exact NoAfter.pure)
    | (with_reducible exact NoAfter.fault)
    | (with_reducible refine NoAfter.bind ?_ (fun _ => ?_))

theorem rcombAct_keeps {vs : List View} {u₀ : State} {c : Core} {a : RowArgs} {rd s : State} (hk : Keeps vs u₀ s) (hm : [.cs, .purse, .mbox, .hall, .busy, .merges, .words, .service, .stores, .tens, .counters, .fabric, .mgmt, .power, .upsets, .fresh] ⊆ vs) : KeepsR vs u₀ (rcombAct c a rd s) := by
  refine KeepsR.then hk hm ?_
  clear hk hm
  unfold rcombAct
  try dsimp -proj only
  repeat' first
    | (with_reducible exact Keeps.refl _ _)
    | (with_reducible assumption)
    | decide
    | (with_reducible refine rowDo_keeps ?_ ?_ (fun _ => ?_))
    | (with_reducible apply rcombPlan_noAfter)

theorem rcsumPlan_noAfter {c : Core} {a : RowArgs} {rd : State} : NoAfter (rcsumPlan c a rd) := by
  unfold rcsumPlan
  try dsimp -proj only
  repeat' first
    | (with_reducible apply need_noAfter)
    | (with_reducible apply quantOpen_noAfter)
    | (with_reducible apply rngOf_noAfter)
    | (with_reducible apply openStrm_noAfter)
    | (with_reducible apply Strm.ready_noAfter)
    | (with_reducible apply openRaw_noAfter)
    | (with_reducible apply rowIssue_noAfter)
    | (with_reducible apply routeStrm_noAfter)
    | (with_reducible exact NoAfter.need)
    | (with_reducible exact NoAfter.ok)
    | (with_reducible exact NoAfter.pure)
    | (with_reducible exact NoAfter.fault)
    | (with_reducible refine NoAfter.bind ?_ (fun _ => ?_))
    | (with_reducible refine NoAfter.map ?_)
    | (with_reducible refine NoAfter.ite ?_ ?_)

theorem rcsumRun_keeps {vs : List View} {u₀ : State} {c : Core} {a : RowArgs} {p : CsumPlan} {rd s : State} (hk : Keeps vs u₀ s) (hm : [.cs, .mbox, .hall, .busy, .merges, .words, .service, .stores, .tens, .counters, .fabric, .mgmt, .power, .upsets, .fresh] ⊆ vs) : Keeps vs u₀ (rcsumRun c a p rd s) := by
  refine hk.then hm ?_
  clear hk hm
  unfold rcsumRun
  try dsimp -proj only
  repeat' first
    | (with_reducible exact Keeps.refl _ _)
    | (with_reducible assumption)
    | (with_reducible exact Or.inl rfl)
    | exact Or.inr (by decide)
    | decide
    | (with_reducible apply State.countCore_keeps)
    | (with_reducible apply State.chargeCore_keeps)
    | (with_reducible apply State.dupStrike_keeps)
    | (with_reducible apply State.emit_keeps)
    | (with_reducible apply State.report_keeps)
    | (with_reducible apply State.quantUntil_keeps)
    | (with_reducible apply State.noteStrm_keeps)
    | (with_reducible apply State.consume_keeps)
    | (with_reducible apply State.takeRow_keeps)
    | (with_reducible refine Keeps.foldl ?_ (fun _ _ _ => ?_))
    | (with_reducible refine Keeps.foldlFst ?_ (fun _ _ _ => ?_))
    | (with_reducible refine Keeps.ite ?_ ?_)
    | (with_reducible refine Keeps.upd ?_ rfl rfl ?_ ?_ ?_ ?_ ?_ ?_ ?_ ?_ ?_ ?_ ?_ ?_ ?_; rotate_left; fail_if_success (iterate 13 (with_reducible exact Or.inl rfl)))
    | split

theorem rcsumAct_keeps {vs : List View} {u₀ : State} {c : Core} {a : RowArgs} {rd s : State} (hk : Keeps vs u₀ s) (hm : [.cs, .mbox, .hall, .busy, .merges, .words, .service, .stores, .tens, .counters, .fabric, .mgmt, .power, .upsets, .fresh] ⊆ vs) : KeepsR vs u₀ (rcsumAct c a rd s) := by
  refine KeepsR.then hk hm ?_
  clear hk hm
  unfold rcsumAct
  try dsimp -proj only
  repeat' first
    | (with_reducible exact Keeps.refl _ _)
    | (with_reducible assumption)
    | decide
    | (with_reducible apply State.claimPorts_keeps)
    | (with_reducible apply State.holdMerges_keeps)
    | (with_reducible apply rcsumPlan_noAfter)
    | (with_reducible apply rcsumRun_keeps)
    | (with_reducible refine KeepsR.bindS ?_ (fun _ _ => ?_))
    | (with_reducible refine KeepsR.bind ?_ (fun _ => ?_))

theorem rnormPlan_noAfter {c : Core} {a : RowArgs} {rd : State} : NoAfter (rnormPlan c a rd) := by
  unfold rnormPlan
  try dsimp -proj only
  repeat' first
    | (with_reducible apply rowPlan_noAfter)

theorem rnormbPlan_noAfter {c : Core} {a : RowArgs} {rd : State} : NoAfter (rnormbPlan c a rd) := by
  unfold rnormbPlan
  try dsimp -proj only
  repeat' first
    | (with_reducible apply rowPlan_noAfter)

theorem rsmaxPlan_noAfter {c : Core} {a : RowArgs} {rd : State} : NoAfter (rsmaxPlan c a rd) := by
  unfold rsmaxPlan
  try dsimp -proj only
  repeat' first
    | (with_reducible apply rowPlan_noAfter)

theorem rsmaxbPlan_noAfter {c : Core} {a : RowArgs} {rd : State} : NoAfter (rsmaxbPlan c a rd) := by
  unfold rsmaxbPlan
  try dsimp -proj only
  repeat' first
    | (with_reducible apply rowPlan_noAfter)

theorem rfoldPlan_noAfter {c : Core} {a : RowArgs} {rd : State} : NoAfter (rfoldPlan c a rd) := by
  unfold rfoldPlan
  try dsimp -proj only
  repeat' first
    | (with_reducible apply rowPlan_noAfter)

theorem rxentPlan_noAfter {c : Core} {a : RowArgs} {rd : State} : NoAfter (rxentPlan c a rd) := by
  unfold rxentPlan
  try dsimp -proj only
  repeat' first
    | (with_reducible apply rowPlan_noAfter)

theorem rnormAct_keeps {vs : List View} {u₀ : State} {c : Core} {a : RowArgs} {rd s : State} (hk : Keeps vs u₀ s) (hm : [.cs, .purse, .mbox, .hall, .busy, .merges, .words, .service, .stores, .tens, .counters, .fabric, .mgmt, .power, .upsets, .fresh] ⊆ vs) : KeepsR vs u₀ (rnormAct c a rd s) := by
  refine KeepsR.then hk hm ?_
  clear hk hm
  unfold rnormAct
  try dsimp -proj only
  repeat' first
    | (with_reducible exact Keeps.refl _ _)
    | (with_reducible assumption)
    | decide
    | (with_reducible refine rowDo_keeps ?_ ?_ (fun _ => ?_))
    | (with_reducible apply rnormPlan_noAfter)

theorem rnormbAct_keeps {vs : List View} {u₀ : State} {c : Core} {a : RowArgs} {rd s : State} (hk : Keeps vs u₀ s) (hm : [.cs, .purse, .mbox, .hall, .busy, .merges, .words, .service, .stores, .tens, .counters, .fabric, .mgmt, .power, .upsets, .fresh] ⊆ vs) : KeepsR vs u₀ (rnormbAct c a rd s) := by
  refine KeepsR.then hk hm ?_
  clear hk hm
  unfold rnormbAct
  try dsimp -proj only
  repeat' first
    | (with_reducible exact Keeps.refl _ _)
    | (with_reducible assumption)
    | decide
    | (with_reducible refine rowDo_keeps ?_ ?_ (fun _ => ?_))
    | (with_reducible apply rnormbPlan_noAfter)

theorem rsmaxAct_keeps {vs : List View} {u₀ : State} {c : Core} {a : RowArgs} {rd s : State} (hk : Keeps vs u₀ s) (hm : [.cs, .purse, .mbox, .hall, .busy, .merges, .words, .service, .stores, .tens, .counters, .fabric, .mgmt, .power, .upsets, .fresh] ⊆ vs) : KeepsR vs u₀ (rsmaxAct c a rd s) := by
  refine KeepsR.then hk hm ?_
  clear hk hm
  unfold rsmaxAct
  try dsimp -proj only
  repeat' first
    | (with_reducible exact Keeps.refl _ _)
    | (with_reducible assumption)
    | decide
    | (with_reducible refine rowDo_keeps ?_ ?_ (fun _ => ?_))
    | (with_reducible apply rsmaxPlan_noAfter)

theorem rsmaxbAct_keeps {vs : List View} {u₀ : State} {c : Core} {a : RowArgs} {rd s : State} (hk : Keeps vs u₀ s) (hm : [.cs, .purse, .mbox, .hall, .busy, .merges, .words, .service, .stores, .tens, .counters, .fabric, .mgmt, .power, .upsets, .fresh] ⊆ vs) : KeepsR vs u₀ (rsmaxbAct c a rd s) := by
  refine KeepsR.then hk hm ?_
  clear hk hm
  unfold rsmaxbAct
  try dsimp -proj only
  repeat' first
    | (with_reducible exact Keeps.refl _ _)
    | (with_reducible assumption)
    | decide
    | (with_reducible refine rowDo_keeps ?_ ?_ (fun _ => ?_))
    | (with_reducible apply rsmaxbPlan_noAfter)

theorem rfoldAct_keeps {vs : List View} {u₀ : State} {c : Core} {a : RowArgs} {rd s : State} (hk : Keeps vs u₀ s) (hm : [.cs, .purse, .mbox, .hall, .busy, .merges, .words, .service, .stores, .tens, .counters, .fabric, .mgmt, .power, .upsets, .fresh] ⊆ vs) : KeepsR vs u₀ (rfoldAct c a rd s) := by
  refine KeepsR.then hk hm ?_
  clear hk hm
  unfold rfoldAct
  try dsimp -proj only
  repeat' first
    | (with_reducible exact Keeps.refl _ _)
    | (with_reducible assumption)
    | decide
    | (with_reducible refine rowDo_keeps ?_ ?_ (fun _ => ?_))
    | (with_reducible apply rfoldPlan_noAfter)

theorem rxentAct_keeps {vs : List View} {u₀ : State} {c : Core} {a : RowArgs} {rd s : State} (hk : Keeps vs u₀ s) (hm : [.cs, .purse, .mbox, .hall, .busy, .merges, .words, .service, .stores, .tens, .counters, .fabric, .mgmt, .power, .upsets, .fresh] ⊆ vs) : KeepsR vs u₀ (rxentAct c a rd s) := by
  refine KeepsR.then hk hm ?_
  clear hk hm
  unfold rxentAct
  try dsimp -proj only
  repeat' first
    | (with_reducible exact Keeps.refl _ _)
    | (with_reducible assumption)
    | decide
    | (with_reducible refine rowDo_keeps ?_ ?_ (fun _ => ?_))
    | (with_reducible apply rxentPlan_noAfter)

theorem execRnorm_keeps {vs : List View} {u₀ : State} {c : Core} {a : RowArgs} {s : State} (hk : Keeps vs u₀ s) (hm : [.cs, .purse, .mbox, .hall, .busy, .merges, .words, .service, .stores, .tens, .counters, .fabric, .mgmt, .power, .upsets, .fresh] ⊆ vs) : KeepsO vs u₀ (execRnorm c a s) :=
  KeepsO.then hk hm (KeepsO.next (slotOp_keeps (Keeps.refl _ _) (by decide) (rnormAct_keeps (Keeps.refl _ _) (by decide))))

theorem execRnormb_keeps {vs : List View} {u₀ : State} {c : Core} {a : RowArgs} {s : State} (hk : Keeps vs u₀ s) (hm : [.cs, .purse, .mbox, .hall, .busy, .merges, .words, .service, .stores, .tens, .counters, .fabric, .mgmt, .power, .upsets, .fresh] ⊆ vs) : KeepsO vs u₀ (execRnormb c a s) :=
  KeepsO.then hk hm (KeepsO.next (slotOp_keeps (Keeps.refl _ _) (by decide) (rnormbAct_keeps (Keeps.refl _ _) (by decide))))

theorem execRsmax_keeps {vs : List View} {u₀ : State} {c : Core} {a : RowArgs} {s : State} (hk : Keeps vs u₀ s) (hm : [.cs, .purse, .mbox, .hall, .busy, .merges, .words, .service, .stores, .tens, .counters, .fabric, .mgmt, .power, .upsets, .fresh] ⊆ vs) : KeepsO vs u₀ (execRsmax c a s) :=
  KeepsO.then hk hm (KeepsO.next (slotOp_keeps (Keeps.refl _ _) (by decide) (rsmaxAct_keeps (Keeps.refl _ _) (by decide))))

theorem execRsmaxb_keeps {vs : List View} {u₀ : State} {c : Core} {a : RowArgs} {s : State} (hk : Keeps vs u₀ s) (hm : [.cs, .purse, .mbox, .hall, .busy, .merges, .words, .service, .stores, .tens, .counters, .fabric, .mgmt, .power, .upsets, .fresh] ⊆ vs) : KeepsO vs u₀ (execRsmaxb c a s) :=
  KeepsO.then hk hm (KeepsO.next (slotOp_keeps (Keeps.refl _ _) (by decide) (rsmaxbAct_keeps (Keeps.refl _ _) (by decide))))

theorem execRfold_keeps {vs : List View} {u₀ : State} {c : Core} {a : RowArgs} {s : State} (hk : Keeps vs u₀ s) (hm : [.cs, .purse, .mbox, .hall, .busy, .merges, .words, .service, .stores, .tens, .counters, .fabric, .mgmt, .power, .upsets, .fresh] ⊆ vs) : KeepsO vs u₀ (execRfold c a s) :=
  KeepsO.then hk hm (KeepsO.next (slotOp_keeps (Keeps.refl _ _) (by decide) (rfoldAct_keeps (Keeps.refl _ _) (by decide))))

theorem execRxent_keeps {vs : List View} {u₀ : State} {c : Core} {a : RowArgs} {s : State} (hk : Keeps vs u₀ s) (hm : [.cs, .purse, .mbox, .hall, .busy, .merges, .words, .service, .stores, .tens, .counters, .fabric, .mgmt, .power, .upsets, .fresh] ⊆ vs) : KeepsO vs u₀ (execRxent c a s) :=
  KeepsO.then hk hm (KeepsO.next (slotOp_keeps (Keeps.refl _ _) (by decide) (rxentAct_keeps (Keeps.refl _ _) (by decide))))

theorem execRroute_keeps {vs : List View} {u₀ : State} {c : Core} {a : RowArgs} {s : State} (hk : Keeps vs u₀ s) (hm : [.cs, .purse, .mbox, .hall, .busy, .merges, .words, .service, .stores, .tens, .counters, .fabric, .mgmt, .power, .upsets, .fresh] ⊆ vs) : KeepsO vs u₀ (execRroute c a s) :=
  KeepsO.then hk hm (KeepsO.next (slotOp_keeps (Keeps.refl _ _) (by decide) (rrouteAct_keeps (Keeps.refl _ _) (by decide))))

theorem execRrouteb_keeps {vs : List View} {u₀ : State} {c : Core} {a : RowArgs} {s : State} (hk : Keeps vs u₀ s) (hm : [.cs, .purse, .mbox, .hall, .busy, .merges, .words, .service, .stores, .tens, .counters, .fabric, .mgmt, .power, .upsets, .fresh] ⊆ vs) : KeepsO vs u₀ (execRrouteb c a s) :=
  KeepsO.then hk hm (KeepsO.next (slotOp_keeps (Keeps.refl _ _) (by decide) (rroutebAct_keeps (Keeps.refl _ _) (by decide))))

theorem execRcomb_keeps {vs : List View} {u₀ : State} {c : Core} {a : RowArgs} {s : State} (hk : Keeps vs u₀ s) (hm : [.cs, .purse, .mbox, .hall, .busy, .merges, .words, .service, .stores, .tens, .counters, .fabric, .mgmt, .power, .upsets, .fresh] ⊆ vs) : KeepsO vs u₀ (execRcomb c a s) :=
  KeepsO.then hk hm (KeepsO.next (slotOp_keeps (Keeps.refl _ _) (by decide) (rcombAct_keeps (Keeps.refl _ _) (by decide))))

theorem execRcsum_keeps {vs : List View} {u₀ : State} {c : Core} {a : RowArgs} {s : State} (hk : Keeps vs u₀ s) (hm : [.cs, .mbox, .hall, .busy, .merges, .words, .service, .stores, .tens, .counters, .fabric, .mgmt, .power, .upsets, .fresh] ⊆ vs) : KeepsO vs u₀ (execRcsum c a s) :=
  KeepsO.then hk hm (KeepsO.next (slotOp_keeps (Keeps.refl _ _) (by decide) (rcsumAct_keeps (Keeps.refl _ _) (by decide))))

end Sys2Proof.Machine
end

