-- ==== Sys2Proof/Laws/PurseKeeps.lean ====
section
/-! SUPPORT. What each operation of Machine/Purse.lean may change: the parts named, the queue and the identity never, and no canonical form. -/

namespace Sys2Proof.Machine

open Sys2Proof

theorem spillBase_noAfter {s : State} {c : Core} {d : BitVec 512} {k n : Nat} : NoAfter (spillBase s c d k n) := by
  unfold spillBase
  try dsimp -proj only
  repeat' first
    | (with_reducible apply need_noAfter)
    | (with_reducible apply csRange_noAfter)
    | (with_reducible exact NoAfter.need)
    | (with_reducible exact NoAfter.ok)
    | (with_reducible exact NoAfter.pure)
    | (with_reducible exact NoAfter.fault)
    | (with_reducible refine NoAfter.bind ?_ (fun _ => ?_))

theorem purseIssue_noAfter {c : Core} {group : BitVec 6} {n : Nat} {rd : State} : NoAfter (purseIssue c group n rd) := by
  unfold purseIssue
  try dsimp -proj only
  repeat' first
    | (with_reducible apply need_noAfter)
    | (with_reducible exact NoAfter.need)
    | (with_reducible exact NoAfter.ok)
    | (with_reducible exact NoAfter.pure)
    | (with_reducible exact NoAfter.fault)
    | (with_reducible refine NoAfter.bind ?_ (fun _ => ?_))

theorem pspillPlan_noAfter {c : Core} {desc : BitVec 10} {group n : BitVec 6} {rd : State} : NoAfter (pspillPlan c desc group n rd) := by
  unfold pspillPlan
  try dsimp -proj only
  repeat' first
    | (with_reducible apply need_noAfter)
    | (with_reducible apply latchForm_noAfter)
    | (with_reducible apply spillBase_noAfter)
    | (with_reducible apply purseIssue_noAfter)
    | (with_reducible exact NoAfter.need)
    | (with_reducible exact NoAfter.ok)
    | (with_reducible exact NoAfter.pure)
    | (with_reducible exact NoAfter.fault)
    | (with_reducible refine NoAfter.bind ?_ (fun _ => ?_))

theorem State.clearValid_keeps {vs : List View} {u₀ : State} {s : State} {c : Core} {first n : Nat} (hk : Keeps vs u₀ s) (hm : [.purse] ⊆ vs) : Keeps vs u₀ (State.clearValid s c first n) := by
  refine hk.then hm ?_
  clear hk hm
  unfold State.clearValid
  try dsimp -proj only
  repeat' first
    | (with_reducible exact Keeps.refl _ _)
    | (with_reducible assumption)
    | (with_reducible exact Or.inl rfl)
    | exact Or.inr (by decide)
    | decide
    | (with_reducible apply State.setPurse_keeps)
    | (with_reducible refine Keeps.foldl ?_ (fun _ _ _ => ?_))

theorem pspillRun_keeps {vs : List View} {u₀ : State} {c : Core} {group n : BitVec 6} {release : Bool} {p : SpillPlan} {rd s : State} (hk : Keeps vs u₀ s) (hm : [.cs, .purse, .mbox, .hall, .busy, .merges, .words, .tens, .counters, .fabric, .mgmt, .power, .fresh] ⊆ vs) : Keeps vs u₀ (pspillRun c group n release p rd s) := by
  refine hk.then hm ?_
  clear hk hm
  unfold pspillRun
  try dsimp -proj only
  repeat' first
    | (with_reducible exact Keeps.refl _ _)
    | (with_reducible assumption)
    | decide
    | (with_reducible apply State.draw_keeps)
    | (with_reducible apply State.countCore_keeps)
    | (with_reducible apply State.poisonConsumed_keeps)
    | (with_reducible apply State.emit_keeps)
    | (with_reducible apply State.notePurse_keeps)
    | (with_reducible apply State.takeRow_keeps)
    | (with_reducible apply State.clearValid_keeps)
    | (with_reducible refine Keeps.ite ?_ ?_)

theorem pspillAct_keeps {vs : List View} {u₀ : State} {c : Core} {desc : BitVec 10} {group n : BitVec 6} {release : Bool} {rd s : State} (hk : Keeps vs u₀ s) (hm : [.cs, .purse, .mbox, .hall, .busy, .merges, .words, .tens, .counters, .fabric, .mgmt, .power, .fresh] ⊆ vs) : KeepsR vs u₀ (pspillAct c desc group n release rd s) := by
  refine KeepsR.then hk hm ?_
  clear hk hm
  unfold pspillAct
  try dsimp -proj only
  repeat' first
    | (with_reducible exact Keeps.refl _ _)
    | (with_reducible assumption)
    | decide
    | (with_reducible apply State.claimPorts_keeps)
    | (with_reducible apply pspillPlan_noAfter)
    | (with_reducible apply pspillRun_keeps)
    | (with_reducible refine KeepsR.bindS ?_ (fun _ _ => ?_))
    | (with_reducible refine KeepsR.bind ?_ (fun _ => ?_))
    | (with_reducible refine KeepsR.ok ?_)
    | (with_reducible refine KeepsR.pure ?_)

theorem pfillPlan_noAfter {c : Core} {desc : BitVec 10} {group n : BitVec 6} {rd : State} : NoAfter (pfillPlan c desc group n rd) := by
  unfold pfillPlan
  try dsimp -proj only
  repeat' first
    | (with_reducible apply need_noAfter)
    | (with_reducible apply latchForm_noAfter)
    | (with_reducible apply spillBase_noAfter)
    | (with_reducible apply purseIssue_noAfter)
    | (with_reducible exact NoAfter.need)
    | (with_reducible exact NoAfter.ok)
    | (with_reducible exact NoAfter.pure)
    | (with_reducible exact NoAfter.fault)
    | (with_reducible refine NoAfter.bind ?_ (fun _ => ?_))

theorem pfillRun_keeps {vs : List View} {u₀ : State} {c : Core} {group n : BitVec 6} {p : BitVec 512 × Nat} {rd s : State} (hk : Keeps vs u₀ s) (hm : [.cs, .purse, .mbox, .busy, .words, .service, .tens, .counters, .fabric, .mgmt, .power] ⊆ vs) : Keeps vs u₀ (pfillRun c group n p rd s) := by
  refine hk.then hm ?_
  clear hk hm
  unfold pfillRun
  try dsimp -proj only
  repeat' first
    | (with_reducible exact Keeps.refl _ _)
    | (with_reducible assumption)
    | decide
    | (with_reducible apply State.countCore_keeps)
    | (with_reducible apply State.consume_keeps)
    | (with_reducible apply State.setPurse_keeps)
    | (with_reducible apply State.takeRow_keeps)
    | (with_reducible refine Keeps.foldl ?_ (fun _ _ _ => ?_))

theorem pfillAct_keeps {vs : List View} {u₀ : State} {c : Core} {desc : BitVec 10} {group n : BitVec 6} {rd s : State} (hk : Keeps vs u₀ s) (hm : [.cs, .purse, .mbox, .busy, .words, .service, .tens, .counters, .fabric, .mgmt, .power] ⊆ vs) : KeepsR vs u₀ (pfillAct c desc group n rd s) := by
  refine KeepsR.then hk hm ?_
  clear hk hm
  unfold pfillAct
  try dsimp -proj only
  repeat' first
    | (with_reducible exact Keeps.refl _ _)
    | (with_reducible assumption)
    | decide
    | (with_reducible apply State.claimPorts_keeps)
    | (with_reducible apply pfillPlan_noAfter)
    | (with_reducible apply pfillRun_keeps)
    | (with_reducible refine KeepsR.bindS ?_ (fun _ _ => ?_))
    | (with_reducible refine KeepsR.bind ?_ (fun _ => ?_))
    | (with_reducible refine KeepsR.ok ?_)
    | (with_reducible refine KeepsR.pure ?_)

theorem pclrAct_keeps {vs : List View} {u₀ : State} {c : Core} {group n : BitVec 6} {rd s : State} (hk : Keeps vs u₀ s) (hm : [.purse, .busy] ⊆ vs) : KeepsR vs u₀ (pclrAct c group n rd s) := by
  refine KeepsR.then hk hm ?_
  clear hk hm
  unfold pclrAct
  try dsimp -proj only
  repeat' first
    | (with_reducible exact Keeps.refl _ _)
    | (with_reducible assumption)
    | decide
    | (with_reducible apply State.takeRow_keeps)
    | (with_reducible apply purseIssue_noAfter)
    | (with_reducible apply State.clearValid_keeps)
    | (with_reducible refine KeepsR.bindS ?_ (fun _ _ => ?_))
    | (with_reducible refine KeepsR.bind ?_ (fun _ => ?_))
    | (with_reducible refine KeepsR.ok ?_)
    | (with_reducible refine KeepsR.pure ?_)

theorem execPspill_keeps {vs : List View} {u₀ : State} {c : Core} {desc : BitVec 10} {group n : BitVec 6} {release : Bool} {s : State} (hk : Keeps vs u₀ s) (hm : [.cs, .purse, .mbox, .hall, .busy, .merges, .words, .tens, .counters, .fabric, .mgmt, .power, .fresh] ⊆ vs) : KeepsO vs u₀ (execPspill c desc group n release s) :=
  KeepsO.then hk hm (KeepsO.next (slotOp_keeps (Keeps.refl _ _) (by decide) (pspillAct_keeps (Keeps.refl _ _) (by decide))))

theorem execPfill_keeps {vs : List View} {u₀ : State} {c : Core} {desc : BitVec 10} {group n : BitVec 6} {s : State} (hk : Keeps vs u₀ s) (hm : [.cs, .purse, .mbox, .busy, .words, .service, .tens, .counters, .fabric, .mgmt, .power] ⊆ vs) : KeepsO vs u₀ (execPfill c desc group n s) :=
  KeepsO.then hk hm (KeepsO.next (slotOp_keeps (Keeps.refl _ _) (by decide) (pfillAct_keeps (Keeps.refl _ _) (by decide))))

theorem execPclr_keeps {vs : List View} {u₀ : State} {c : Core} {group n : BitVec 6} {s : State} (hk : Keeps vs u₀ s) (hm : [.purse, .busy, .tens, .counters, .fabric, .mgmt, .power] ⊆ vs) : KeepsO vs u₀ (execPclr c group n s) :=
  KeepsO.then hk hm (KeepsO.next (slotOp_keeps (Keeps.refl _ _) (by decide) (pclrAct_keeps (Keeps.refl _ _) (by decide))))

end Sys2Proof.Machine
end

