-- ==== Sys2Proof/Laws/VectorKeeps.lean ====
section
/-! SUPPORT. What each operation of Machine/Vector.lean may change: the parts named, the queue and the identity never, and no canonical form. -/

namespace Sys2Proof.Machine

open Sys2Proof

theorem State.takeVx_keeps {vs : List View} {u₀ : State} {s : State} {c : Core} {until' : Nat} (hk : Keeps vs u₀ s) (hm : [.busy] ⊆ vs) : Keeps vs u₀ (State.takeVx s c until') := by
  refine hk.then hm ?_
  clear hk hm
  unfold State.takeVx
  try dsimp -proj only
  repeat' first
    | (with_reducible exact Keeps.refl _ _)
    | (with_reducible assumption)
    | (with_reducible exact Or.inl rfl)
    | exact Or.inr (by decide)
    | decide
    | (with_reducible refine Keeps.upd ?_ rfl rfl ?_ ?_ ?_ ?_ ?_ ?_ ?_ ?_ ?_ ?_ ?_ ?_ ?_; rotate_left; fail_if_success (iterate 13 (with_reducible exact Or.inl rfl)))
    | ((with_reducible refine Or.inr (?_ : CoresOk _ _ _)); simp +contextual [CoresOk, Cores.wf, memPut_wf, memPuts_wf, memClear_wf, memFilter_wf])

theorem vxPlan_noAfter {op : VxOp} {c : Core} {a : VxArgs} {rd : State} : NoAfter (vxPlan op c a rd) := by
  unfold vxPlan
  try dsimp -proj only
  repeat' first
    | (with_reducible apply State.count_keeps)
    | (with_reducible apply need_noAfter)
    | (with_reducible apply latchForm_noAfter)
    | (with_reducible apply quantOpen_noAfter)
    | (with_reducible apply rngOf_noAfter)
    | (with_reducible apply openStrm_noAfter)
    | (with_reducible apply Strm.ready_noAfter)
    | (with_reducible exact NoAfter.need)
    | (with_reducible exact NoAfter.ok)
    | (with_reducible exact NoAfter.pure)
    | (with_reducible exact NoAfter.fault)
    | (with_reducible refine NoAfter.mapM (fun _ => ?_))
    | (with_reducible refine NoAfter.bind ?_ (fun _ => ?_))
    | (with_reducible refine NoAfter.map ?_)
    | (with_reducible refine NoAfter.ite ?_ ?_)

theorem vxRun_keeps {vs : List View} {u₀ : State} {op : VxOp} {c : Core} {a : VxArgs} {p : VxPlan} {rd s : State} (hk : Keeps vs u₀ s) (hm : [.cs, .mbox, .hall, .busy, .merges, .words, .service, .stores, .tens, .counters, .fabric, .mgmt, .power, .upsets, .fresh] ⊆ vs) : Keeps vs u₀ (vxRun op c a p rd s) := by
  refine hk.then hm ?_
  clear hk hm
  unfold vxRun
  try dsimp -proj only
  repeat' first
    | (with_reducible exact Keeps.refl _ _)
    | (with_reducible assumption)
    | decide
    | (with_reducible apply State.countCore_keeps)
    | (with_reducible apply State.chargeCore_keeps)
    | (with_reducible apply State.dupStrike_keeps)
    | (with_reducible apply State.romStrike_keeps)
    | (with_reducible apply State.emit_keeps)
    | (with_reducible apply State.report_keeps)
    | (with_reducible apply State.quantUntil_keeps)
    | (with_reducible apply State.noteStrm_keeps)
    | (with_reducible apply State.consume_keeps)
    | (with_reducible apply State.takeVx_keeps)
    | (with_reducible refine Keeps.foldl ?_ (fun _ _ _ => ?_))
    | (with_reducible refine Keeps.foldlFst ?_ (fun _ _ _ => ?_))
    | (with_reducible refine Keeps.ite ?_ ?_)

theorem vxAct_keeps {vs : List View} {u₀ : State} {op : VxOp} {c : Core} {a : VxArgs} {rd s : State} (hk : Keeps vs u₀ s) (hm : [.cs, .mbox, .hall, .busy, .merges, .words, .service, .stores, .tens, .counters, .fabric, .mgmt, .power, .upsets, .fresh] ⊆ vs) : KeepsR vs u₀ (vxAct op c a rd s) := by
  refine KeepsR.then hk hm ?_
  clear hk hm
  unfold vxAct
  try dsimp -proj only
  repeat' first
    | (with_reducible exact Keeps.refl _ _)
    | (with_reducible assumption)
    | decide
    | (with_reducible apply State.claimPorts_keeps)
    | (with_reducible apply State.holdMerges_keeps)
    | (with_reducible apply vxPlan_noAfter)
    | (with_reducible apply vxRun_keeps)
    | (with_reducible refine KeepsR.bindS ?_ (fun _ _ => ?_))
    | (with_reducible refine KeepsR.bind ?_ (fun _ => ?_))

theorem execAdd_keeps {vs : List View} {u₀ : State} {c : Core} {a : VxArgs} {s : State} (hk : Keeps vs u₀ s) (hm : [.cs, .mbox, .hall, .busy, .merges, .words, .service, .stores, .tens, .counters, .fabric, .mgmt, .power, .upsets, .fresh] ⊆ vs) : KeepsO vs u₀ (execAdd c a s) :=
  KeepsO.then hk hm (KeepsO.next (slotOp_keeps (Keeps.refl _ _) (by decide) (vxAct_keeps (Keeps.refl _ _) (by decide))))

theorem execSub_keeps {vs : List View} {u₀ : State} {c : Core} {a : VxArgs} {s : State} (hk : Keeps vs u₀ s) (hm : [.cs, .mbox, .hall, .busy, .merges, .words, .service, .stores, .tens, .counters, .fabric, .mgmt, .power, .upsets, .fresh] ⊆ vs) : KeepsO vs u₀ (execSub c a s) :=
  KeepsO.then hk hm (KeepsO.next (slotOp_keeps (Keeps.refl _ _) (by decide) (vxAct_keeps (Keeps.refl _ _) (by decide))))

theorem execMul_keeps {vs : List View} {u₀ : State} {c : Core} {a : VxArgs} {s : State} (hk : Keeps vs u₀ s) (hm : [.cs, .mbox, .hall, .busy, .merges, .words, .service, .stores, .tens, .counters, .fabric, .mgmt, .power, .upsets, .fresh] ⊆ vs) : KeepsO vs u₀ (execMul c a s) :=
  KeepsO.then hk hm (KeepsO.next (slotOp_keeps (Keeps.refl _ _) (by decide) (vxAct_keeps (Keeps.refl _ _) (by decide))))

theorem execFma_keeps {vs : List View} {u₀ : State} {c : Core} {a : VxArgs} {s : State} (hk : Keeps vs u₀ s) (hm : [.cs, .mbox, .hall, .busy, .merges, .words, .service, .stores, .tens, .counters, .fabric, .mgmt, .power, .upsets, .fresh] ⊆ vs) : KeepsO vs u₀ (execFma c a s) :=
  KeepsO.then hk hm (KeepsO.next (slotOp_keeps (Keeps.refl _ _) (by decide) (vxAct_keeps (Keeps.refl _ _) (by decide))))

theorem execFnma_keeps {vs : List View} {u₀ : State} {c : Core} {a : VxArgs} {s : State} (hk : Keeps vs u₀ s) (hm : [.cs, .mbox, .hall, .busy, .merges, .words, .service, .stores, .tens, .counters, .fabric, .mgmt, .power, .upsets, .fresh] ⊆ vs) : KeepsO vs u₀ (execFnma c a s) :=
  KeepsO.then hk hm (KeepsO.next (slotOp_keeps (Keeps.refl _ _) (by decide) (vxAct_keeps (Keeps.refl _ _) (by decide))))

theorem execMin_keeps {vs : List View} {u₀ : State} {c : Core} {a : VxArgs} {s : State} (hk : Keeps vs u₀ s) (hm : [.cs, .mbox, .hall, .busy, .merges, .words, .service, .stores, .tens, .counters, .fabric, .mgmt, .power, .upsets, .fresh] ⊆ vs) : KeepsO vs u₀ (execMin c a s) :=
  KeepsO.then hk hm (KeepsO.next (slotOp_keeps (Keeps.refl _ _) (by decide) (vxAct_keeps (Keeps.refl _ _) (by decide))))

theorem execMax_keeps {vs : List View} {u₀ : State} {c : Core} {a : VxArgs} {s : State} (hk : Keeps vs u₀ s) (hm : [.cs, .mbox, .hall, .busy, .merges, .words, .service, .stores, .tens, .counters, .fabric, .mgmt, .power, .upsets, .fresh] ⊆ vs) : KeepsO vs u₀ (execMax c a s) :=
  KeepsO.then hk hm (KeepsO.next (slotOp_keeps (Keeps.refl _ _) (by decide) (vxAct_keeps (Keeps.refl _ _) (by decide))))

theorem execNeg_keeps {vs : List View} {u₀ : State} {c : Core} {a : VxArgs} {s : State} (hk : Keeps vs u₀ s) (hm : [.cs, .mbox, .hall, .busy, .merges, .words, .service, .stores, .tens, .counters, .fabric, .mgmt, .power, .upsets, .fresh] ⊆ vs) : KeepsO vs u₀ (execNeg c a s) :=
  KeepsO.then hk hm (KeepsO.next (slotOp_keeps (Keeps.refl _ _) (by decide) (vxAct_keeps (Keeps.refl _ _) (by decide))))

theorem execAbs_keeps {vs : List View} {u₀ : State} {c : Core} {a : VxArgs} {s : State} (hk : Keeps vs u₀ s) (hm : [.cs, .mbox, .hall, .busy, .merges, .words, .service, .stores, .tens, .counters, .fabric, .mgmt, .power, .upsets, .fresh] ⊆ vs) : KeepsO vs u₀ (execAbs c a s) :=
  KeepsO.then hk hm (KeepsO.next (slotOp_keeps (Keeps.refl _ _) (by decide) (vxAct_keeps (Keeps.refl _ _) (by decide))))

theorem execCmplt_keeps {vs : List View} {u₀ : State} {c : Core} {a : VxArgs} {s : State} (hk : Keeps vs u₀ s) (hm : [.cs, .mbox, .hall, .busy, .merges, .words, .service, .stores, .tens, .counters, .fabric, .mgmt, .power, .upsets, .fresh] ⊆ vs) : KeepsO vs u₀ (execCmplt c a s) :=
  KeepsO.then hk hm (KeepsO.next (slotOp_keeps (Keeps.refl _ _) (by decide) (vxAct_keeps (Keeps.refl _ _) (by decide))))

theorem execCmple_keeps {vs : List View} {u₀ : State} {c : Core} {a : VxArgs} {s : State} (hk : Keeps vs u₀ s) (hm : [.cs, .mbox, .hall, .busy, .merges, .words, .service, .stores, .tens, .counters, .fabric, .mgmt, .power, .upsets, .fresh] ⊆ vs) : KeepsO vs u₀ (execCmple c a s) :=
  KeepsO.then hk hm (KeepsO.next (slotOp_keeps (Keeps.refl _ _) (by decide) (vxAct_keeps (Keeps.refl _ _) (by decide))))

theorem execCmpeq_keeps {vs : List View} {u₀ : State} {c : Core} {a : VxArgs} {s : State} (hk : Keeps vs u₀ s) (hm : [.cs, .mbox, .hall, .busy, .merges, .words, .service, .stores, .tens, .counters, .fabric, .mgmt, .power, .upsets, .fresh] ⊆ vs) : KeepsO vs u₀ (execCmpeq c a s) :=
  KeepsO.then hk hm (KeepsO.next (slotOp_keeps (Keeps.refl _ _) (by decide) (vxAct_keeps (Keeps.refl _ _) (by decide))))

theorem execSel_keeps {vs : List View} {u₀ : State} {c : Core} {a : VxArgs} {s : State} (hk : Keeps vs u₀ s) (hm : [.cs, .mbox, .hall, .busy, .merges, .words, .service, .stores, .tens, .counters, .fabric, .mgmt, .power, .upsets, .fresh] ⊆ vs) : KeepsO vs u₀ (execSel c a s) :=
  KeepsO.then hk hm (KeepsO.next (slotOp_keeps (Keeps.refl _ _) (by decide) (vxAct_keeps (Keeps.refl _ _) (by decide))))

theorem execDrop_keeps {vs : List View} {u₀ : State} {c : Core} {a : VxArgs} {s : State} (hk : Keeps vs u₀ s) (hm : [.cs, .mbox, .hall, .busy, .merges, .words, .service, .stores, .tens, .counters, .fabric, .mgmt, .power, .upsets, .fresh] ⊆ vs) : KeepsO vs u₀ (execDrop c a s) :=
  KeepsO.then hk hm (KeepsO.next (slotOp_keeps (Keeps.refl _ _) (by decide) (vxAct_keeps (Keeps.refl _ _) (by decide))))

theorem execCvt_keeps {vs : List View} {u₀ : State} {c : Core} {a : VxArgs} {s : State} (hk : Keeps vs u₀ s) (hm : [.cs, .mbox, .hall, .busy, .merges, .words, .service, .stores, .tens, .counters, .fabric, .mgmt, .power, .upsets, .fresh] ⊆ vs) : KeepsO vs u₀ (execCvt c a s) :=
  KeepsO.then hk hm (KeepsO.next (slotOp_keeps (Keeps.refl _ _) (by decide) (vxAct_keeps (Keeps.refl _ _) (by decide))))

theorem execDiv_keeps {vs : List View} {u₀ : State} {c : Core} {a : VxArgs} {s : State} (hk : Keeps vs u₀ s) (hm : [.cs, .mbox, .hall, .busy, .merges, .words, .service, .stores, .tens, .counters, .fabric, .mgmt, .power, .upsets, .fresh] ⊆ vs) : KeepsO vs u₀ (execDiv c a s) :=
  KeepsO.then hk hm (KeepsO.next (slotOp_keeps (Keeps.refl _ _) (by decide) (vxAct_keeps (Keeps.refl _ _) (by decide))))

theorem execRcp_keeps {vs : List View} {u₀ : State} {c : Core} {a : VxArgs} {s : State} (hk : Keeps vs u₀ s) (hm : [.cs, .mbox, .hall, .busy, .merges, .words, .service, .stores, .tens, .counters, .fabric, .mgmt, .power, .upsets, .fresh] ⊆ vs) : KeepsO vs u₀ (execRcp c a s) :=
  KeepsO.then hk hm (KeepsO.next (slotOp_keeps (Keeps.refl _ _) (by decide) (vxAct_keeps (Keeps.refl _ _) (by decide))))

theorem execSqrt_keeps {vs : List View} {u₀ : State} {c : Core} {a : VxArgs} {s : State} (hk : Keeps vs u₀ s) (hm : [.cs, .mbox, .hall, .busy, .merges, .words, .service, .stores, .tens, .counters, .fabric, .mgmt, .power, .upsets, .fresh] ⊆ vs) : KeepsO vs u₀ (execSqrt c a s) :=
  KeepsO.then hk hm (KeepsO.next (slotOp_keeps (Keeps.refl _ _) (by decide) (vxAct_keeps (Keeps.refl _ _) (by decide))))

theorem execRsqrt_keeps {vs : List View} {u₀ : State} {c : Core} {a : VxArgs} {s : State} (hk : Keeps vs u₀ s) (hm : [.cs, .mbox, .hall, .busy, .merges, .words, .service, .stores, .tens, .counters, .fabric, .mgmt, .power, .upsets, .fresh] ⊆ vs) : KeepsO vs u₀ (execRsqrt c a s) :=
  KeepsO.then hk hm (KeepsO.next (slotOp_keeps (Keeps.refl _ _) (by decide) (vxAct_keeps (Keeps.refl _ _) (by decide))))

theorem execExp2_keeps {vs : List View} {u₀ : State} {c : Core} {a : VxArgs} {s : State} (hk : Keeps vs u₀ s) (hm : [.cs, .mbox, .hall, .busy, .merges, .words, .service, .stores, .tens, .counters, .fabric, .mgmt, .power, .upsets, .fresh] ⊆ vs) : KeepsO vs u₀ (execExp2 c a s) :=
  KeepsO.then hk hm (KeepsO.next (slotOp_keeps (Keeps.refl _ _) (by decide) (vxAct_keeps (Keeps.refl _ _) (by decide))))

theorem execExp_keeps {vs : List View} {u₀ : State} {c : Core} {a : VxArgs} {s : State} (hk : Keeps vs u₀ s) (hm : [.cs, .mbox, .hall, .busy, .merges, .words, .service, .stores, .tens, .counters, .fabric, .mgmt, .power, .upsets, .fresh] ⊆ vs) : KeepsO vs u₀ (execExp c a s) :=
  KeepsO.then hk hm (KeepsO.next (slotOp_keeps (Keeps.refl _ _) (by decide) (vxAct_keeps (Keeps.refl _ _) (by decide))))

theorem execLog2_keeps {vs : List View} {u₀ : State} {c : Core} {a : VxArgs} {s : State} (hk : Keeps vs u₀ s) (hm : [.cs, .mbox, .hall, .busy, .merges, .words, .service, .stores, .tens, .counters, .fabric, .mgmt, .power, .upsets, .fresh] ⊆ vs) : KeepsO vs u₀ (execLog2 c a s) :=
  KeepsO.then hk hm (KeepsO.next (slotOp_keeps (Keeps.refl _ _) (by decide) (vxAct_keeps (Keeps.refl _ _) (by decide))))

theorem execLn_keeps {vs : List View} {u₀ : State} {c : Core} {a : VxArgs} {s : State} (hk : Keeps vs u₀ s) (hm : [.cs, .mbox, .hall, .busy, .merges, .words, .service, .stores, .tens, .counters, .fabric, .mgmt, .power, .upsets, .fresh] ⊆ vs) : KeepsO vs u₀ (execLn c a s) :=
  KeepsO.then hk hm (KeepsO.next (slotOp_keeps (Keeps.refl _ _) (by decide) (vxAct_keeps (Keeps.refl _ _) (by decide))))

theorem execLn1p_keeps {vs : List View} {u₀ : State} {c : Core} {a : VxArgs} {s : State} (hk : Keeps vs u₀ s) (hm : [.cs, .mbox, .hall, .busy, .merges, .words, .service, .stores, .tens, .counters, .fabric, .mgmt, .power, .upsets, .fresh] ⊆ vs) : KeepsO vs u₀ (execLn1p c a s) :=
  KeepsO.then hk hm (KeepsO.next (slotOp_keeps (Keeps.refl _ _) (by decide) (vxAct_keeps (Keeps.refl _ _) (by decide))))

theorem execTanh_keeps {vs : List View} {u₀ : State} {c : Core} {a : VxArgs} {s : State} (hk : Keeps vs u₀ s) (hm : [.cs, .mbox, .hall, .busy, .merges, .words, .service, .stores, .tens, .counters, .fabric, .mgmt, .power, .upsets, .fresh] ⊆ vs) : KeepsO vs u₀ (execTanh c a s) :=
  KeepsO.then hk hm (KeepsO.next (slotOp_keeps (Keeps.refl _ _) (by decide) (vxAct_keeps (Keeps.refl _ _) (by decide))))

theorem execErf_keeps {vs : List View} {u₀ : State} {c : Core} {a : VxArgs} {s : State} (hk : Keeps vs u₀ s) (hm : [.cs, .mbox, .hall, .busy, .merges, .words, .service, .stores, .tens, .counters, .fabric, .mgmt, .power, .upsets, .fresh] ⊆ vs) : KeepsO vs u₀ (execErf c a s) :=
  KeepsO.then hk hm (KeepsO.next (slotOp_keeps (Keeps.refl _ _) (by decide) (vxAct_keeps (Keeps.refl _ _) (by decide))))

theorem execSigmoid_keeps {vs : List View} {u₀ : State} {c : Core} {a : VxArgs} {s : State} (hk : Keeps vs u₀ s) (hm : [.cs, .mbox, .hall, .busy, .merges, .words, .service, .stores, .tens, .counters, .fabric, .mgmt, .power, .upsets, .fresh] ⊆ vs) : KeepsO vs u₀ (execSigmoid c a s) :=
  KeepsO.then hk hm (KeepsO.next (slotOp_keeps (Keeps.refl _ _) (by decide) (vxAct_keeps (Keeps.refl _ _) (by decide))))

theorem execSilu_keeps {vs : List View} {u₀ : State} {c : Core} {a : VxArgs} {s : State} (hk : Keeps vs u₀ s) (hm : [.cs, .mbox, .hall, .busy, .merges, .words, .service, .stores, .tens, .counters, .fabric, .mgmt, .power, .upsets, .fresh] ⊆ vs) : KeepsO vs u₀ (execSilu c a s) :=
  KeepsO.then hk hm (KeepsO.next (slotOp_keeps (Keeps.refl _ _) (by decide) (vxAct_keeps (Keeps.refl _ _) (by decide))))

theorem execGelu_keeps {vs : List View} {u₀ : State} {c : Core} {a : VxArgs} {s : State} (hk : Keeps vs u₀ s) (hm : [.cs, .mbox, .hall, .busy, .merges, .words, .service, .stores, .tens, .counters, .fabric, .mgmt, .power, .upsets, .fresh] ⊆ vs) : KeepsO vs u₀ (execGelu c a s) :=
  KeepsO.then hk hm (KeepsO.next (slotOp_keeps (Keeps.refl _ _) (by decide) (vxAct_keeps (Keeps.refl _ _) (by decide))))

theorem execGeluT_keeps {vs : List View} {u₀ : State} {c : Core} {a : VxArgs} {s : State} (hk : Keeps vs u₀ s) (hm : [.cs, .mbox, .hall, .busy, .merges, .words, .service, .stores, .tens, .counters, .fabric, .mgmt, .power, .upsets, .fresh] ⊆ vs) : KeepsO vs u₀ (execGeluT c a s) :=
  KeepsO.then hk hm (KeepsO.next (slotOp_keeps (Keeps.refl _ _) (by decide) (vxAct_keeps (Keeps.refl _ _) (by decide))))

theorem execSoftplus_keeps {vs : List View} {u₀ : State} {c : Core} {a : VxArgs} {s : State} (hk : Keeps vs u₀ s) (hm : [.cs, .mbox, .hall, .busy, .merges, .words, .service, .stores, .tens, .counters, .fabric, .mgmt, .power, .upsets, .fresh] ⊆ vs) : KeepsO vs u₀ (execSoftplus c a s) :=
  KeepsO.then hk hm (KeepsO.next (slotOp_keeps (Keeps.refl _ _) (by decide) (vxAct_keeps (Keeps.refl _ _) (by decide))))

theorem execRelu_keeps {vs : List View} {u₀ : State} {c : Core} {a : VxArgs} {s : State} (hk : Keeps vs u₀ s) (hm : [.cs, .mbox, .hall, .busy, .merges, .words, .service, .stores, .tens, .counters, .fabric, .mgmt, .power, .upsets, .fresh] ⊆ vs) : KeepsO vs u₀ (execRelu c a s) :=
  KeepsO.then hk hm (KeepsO.next (slotOp_keeps (Keeps.refl _ _) (by decide) (vxAct_keeps (Keeps.refl _ _) (by decide))))

theorem execDsigmoid_keeps {vs : List View} {u₀ : State} {c : Core} {a : VxArgs} {s : State} (hk : Keeps vs u₀ s) (hm : [.cs, .mbox, .hall, .busy, .merges, .words, .service, .stores, .tens, .counters, .fabric, .mgmt, .power, .upsets, .fresh] ⊆ vs) : KeepsO vs u₀ (execDsigmoid c a s) :=
  KeepsO.then hk hm (KeepsO.next (slotOp_keeps (Keeps.refl _ _) (by decide) (vxAct_keeps (Keeps.refl _ _) (by decide))))

theorem execDtanh_keeps {vs : List View} {u₀ : State} {c : Core} {a : VxArgs} {s : State} (hk : Keeps vs u₀ s) (hm : [.cs, .mbox, .hall, .busy, .merges, .words, .service, .stores, .tens, .counters, .fabric, .mgmt, .power, .upsets, .fresh] ⊆ vs) : KeepsO vs u₀ (execDtanh c a s) :=
  KeepsO.then hk hm (KeepsO.next (slotOp_keeps (Keeps.refl _ _) (by decide) (vxAct_keeps (Keeps.refl _ _) (by decide))))

theorem execDsilu_keeps {vs : List View} {u₀ : State} {c : Core} {a : VxArgs} {s : State} (hk : Keeps vs u₀ s) (hm : [.cs, .mbox, .hall, .busy, .merges, .words, .service, .stores, .tens, .counters, .fabric, .mgmt, .power, .upsets, .fresh] ⊆ vs) : KeepsO vs u₀ (execDsilu c a s) :=
  KeepsO.then hk hm (KeepsO.next (slotOp_keeps (Keeps.refl _ _) (by decide) (vxAct_keeps (Keeps.refl _ _) (by decide))))

theorem execDgelu_keeps {vs : List View} {u₀ : State} {c : Core} {a : VxArgs} {s : State} (hk : Keeps vs u₀ s) (hm : [.cs, .mbox, .hall, .busy, .merges, .words, .service, .stores, .tens, .counters, .fabric, .mgmt, .power, .upsets, .fresh] ⊆ vs) : KeepsO vs u₀ (execDgelu c a s) :=
  KeepsO.then hk hm (KeepsO.next (slotOp_keeps (Keeps.refl _ _) (by decide) (vxAct_keeps (Keeps.refl _ _) (by decide))))

theorem execDgeluT_keeps {vs : List View} {u₀ : State} {c : Core} {a : VxArgs} {s : State} (hk : Keeps vs u₀ s) (hm : [.cs, .mbox, .hall, .busy, .merges, .words, .service, .stores, .tens, .counters, .fabric, .mgmt, .power, .upsets, .fresh] ⊆ vs) : KeepsO vs u₀ (execDgeluT c a s) :=
  KeepsO.then hk hm (KeepsO.next (slotOp_keeps (Keeps.refl _ _) (by decide) (vxAct_keeps (Keeps.refl _ _) (by decide))))

theorem execDsoftplus_keeps {vs : List View} {u₀ : State} {c : Core} {a : VxArgs} {s : State} (hk : Keeps vs u₀ s) (hm : [.cs, .mbox, .hall, .busy, .merges, .words, .service, .stores, .tens, .counters, .fabric, .mgmt, .power, .upsets, .fresh] ⊆ vs) : KeepsO vs u₀ (execDsoftplus c a s) :=
  KeepsO.then hk hm (KeepsO.next (slotOp_keeps (Keeps.refl _ _) (by decide) (vxAct_keeps (Keeps.refl _ _) (by decide))))

theorem execDrelu_keeps {vs : List View} {u₀ : State} {c : Core} {a : VxArgs} {s : State} (hk : Keeps vs u₀ s) (hm : [.cs, .mbox, .hall, .busy, .merges, .words, .service, .stores, .tens, .counters, .fabric, .mgmt, .power, .upsets, .fresh] ⊆ vs) : KeepsO vs u₀ (execDrelu c a s) :=
  KeepsO.then hk hm (KeepsO.next (slotOp_keeps (Keeps.refl _ _) (by decide) (vxAct_keeps (Keeps.refl _ _) (by decide))))

end Sys2Proof.Machine
end

