-- ==== Sys2Proof/Laws/SequencerKeeps.lean ====
section
/-! SUPPORT. What each operation of Machine/Sequencer.lean may change: the parts named, the queue and the identity never, and no canonical form. -/

namespace Sys2Proof.Machine

open Sys2Proof

theorem State.setSeq_keeps {vs : List View} {u₀ : State} {s : State} {c : Core} {q : Seq} (hk : Keeps vs u₀ s) (hm : [.seqs] ⊆ vs) : Keeps vs u₀ (State.setSeq s c q) := by
  refine hk.then hm ?_
  clear hk hm
  unfold State.setSeq
  try dsimp -proj only
  repeat' first
    | (with_reducible exact Keeps.refl _ _)
    | (with_reducible assumption)
    | (with_reducible exact Or.inl rfl)
    | exact Or.inr (by decide)
    | decide
    | (with_reducible refine Keeps.upd ?_ rfl rfl ?_ ?_ ?_ ?_ ?_ ?_ ?_ ?_ ?_ ?_ ?_ ?_ ?_; rotate_left; fail_if_success (iterate 13 (with_reducible exact Or.inl rfl)))
    | ((with_reducible refine Or.inr (?_ : CoresOk _ _ _)); simp +contextual [CoresOk, Cores.wf, memPut_wf, memPuts_wf, memClear_wf, memFilter_wf])

theorem State.modSeq_keeps {vs : List View} {u₀ : State} {s : State} {c : Core} {f : Seq → Seq} (hk : Keeps vs u₀ s) (hm : [.seqs] ⊆ vs) : Keeps vs u₀ (State.modSeq s c f) := by
  refine hk.then hm ?_
  clear hk hm
  unfold State.modSeq
  try dsimp -proj only
  repeat' first
    | (with_reducible exact Keeps.refl _ _)
    | (with_reducible assumption)
    | decide
    | (with_reducible apply State.setSeq_keeps)

theorem State.restClocks_keeps {vs : List View} {u₀ : State} {s : State} {t : Nat} (hk : Keeps vs u₀ s) (hm : [.seqs] ⊆ vs) : Keeps vs u₀ (State.restClocks s t) := by
  refine hk.then hm ?_
  clear hk hm
  unfold State.restClocks
  try dsimp -proj only
  repeat' first
    | (with_reducible exact Keeps.refl _ _)
    | (with_reducible assumption)
    | (with_reducible exact Or.inl rfl)
    | exact Or.inr (by decide)
    | decide
    | (with_reducible apply State.modSeq_keeps)
    | (with_reducible refine Keeps.foldl ?_ (fun _ _ _ => ?_))

theorem State.advance_keeps {vs : List View} {u₀ : State} {s : State} {c : Core} (hk : Keeps vs u₀ s) (hm : [.seqs] ⊆ vs) : KeepsR vs u₀ (State.advance s c) := by
  refine KeepsR.then hk hm ?_
  clear hk hm
  unfold State.advance
  try dsimp -proj only
  repeat' first
    | (with_reducible exact Keeps.refl _ _)
    | (with_reducible assumption)
    | (with_reducible exact Or.inl rfl)
    | exact Or.inr (by decide)
    | decide
    | (with_reducible apply State.setSeq_keeps)
    | (with_reducible refine Keeps.ite ?_ ?_)
    | (with_reducible refine KeepsR.bindS ?_ (fun _ _ => ?_))
    | (with_reducible refine KeepsR.bind ?_ (fun _ => ?_))
    | (with_reducible refine KeepsR.ite ?_ ?_)
    | (with_reducible refine KeepsR.ok ?_)
    | (with_reducible refine KeepsR.pure ?_)
    | (with_reducible exact KeepsR.fault)
    | (with_reducible exact KeepsR.throwFault)
    | (with_reducible refine KeepsR.after ?_)

theorem State.jumpTo_keeps {vs : List View} {u₀ : State} {s : State} {c : Core} {page : BitVec 3} {b : Nat} {tag : BitVec 8} (hk : Keeps vs u₀ s) (hm : [.seqs] ⊆ vs) : KeepsR vs u₀ (State.jumpTo s c page b tag) := by
  refine KeepsR.then hk hm ?_
  clear hk hm
  unfold State.jumpTo
  try dsimp -proj only
  repeat' first
    | (with_reducible exact Keeps.refl _ _)
    | (with_reducible assumption)
    | (with_reducible exact Or.inl rfl)
    | exact Or.inr (by decide)
    | decide
    | (with_reducible apply need_noAfter)
    | (with_reducible apply State.modSeq_keeps)
    | (with_reducible refine KeepsR.bindS ?_ (fun _ _ => ?_))
    | (with_reducible refine KeepsR.bind ?_ (fun _ => ?_))
    | (with_reducible refine KeepsR.ok ?_)
    | (with_reducible refine KeepsR.pure ?_)
    | (with_reducible exact KeepsR.fault)
    | (with_reducible exact KeepsR.throwFault)
    | (with_reducible refine KeepsR.after ?_)
    | (with_reducible refine KeepsR.throwAfter ?_)
    | (with_reducible exact NoAfter.need)

theorem loopAct_keeps {vs : List View} {u₀ : State} {c : Core} {n : BitVec 17} {l : BitVec 10} {s : State} (hk : Keeps vs u₀ s) (hm : [.seqs] ⊆ vs) : KeepsR vs u₀ (loopAct c n l s) := by
  refine KeepsR.then hk hm ?_
  clear hk hm
  unfold loopAct
  try dsimp -proj only
  repeat' first
    | (with_reducible exact Keeps.refl _ _)
    | (with_reducible assumption)
    | (with_reducible exact Or.inl rfl)
    | exact Or.inr (by decide)
    | decide
    | (with_reducible apply need_noAfter)
    | (with_reducible apply State.setSeq_keeps)
    | (with_reducible refine KeepsR.bindS ?_ (fun _ _ => ?_))
    | (with_reducible refine KeepsR.bind ?_ (fun _ => ?_))
    | (with_reducible refine KeepsR.ok ?_)
    | (with_reducible refine KeepsR.pure ?_)
    | (with_reducible exact KeepsR.fault)
    | (with_reducible exact KeepsR.throwFault)
    | (with_reducible refine KeepsR.after ?_)
    | (with_reducible refine KeepsR.throwAfter ?_)
    | (with_reducible exact NoAfter.need)

theorem pjumpAct_keeps {vs : List View} {u₀ : State} {c : Core} {page : BitVec 3} {tag : BitVec 8} {s : State} (hk : Keeps vs u₀ s) (hm : [.seqs] ⊆ vs) : KeepsR vs u₀ (pjumpAct c page tag s) := by
  refine KeepsR.then hk hm ?_
  clear hk hm
  unfold pjumpAct
  try dsimp -proj only
  repeat' first
    | (with_reducible exact Keeps.refl _ _)
    | (with_reducible assumption)
    | decide
    | (with_reducible apply need_noAfter)
    | (with_reducible apply State.jumpTo_keeps)
    | (with_reducible refine KeepsR.bindS ?_ (fun _ _ => ?_))
    | (with_reducible refine KeepsR.bind ?_ (fun _ => ?_))
    | (with_reducible refine KeepsR.ok ?_)
    | (with_reducible refine KeepsR.pure ?_)
    | (with_reducible exact KeepsR.fault)
    | (with_reducible exact KeepsR.throwFault)
    | (with_reducible refine KeepsR.after ?_)
    | (with_reducible refine KeepsR.throwAfter ?_)
    | (with_reducible exact NoAfter.need)

theorem cendAct_keeps {vs : List View} {u₀ : State} {c : Core} {pos : Nat} {s : State} (hk : Keeps vs u₀ s) (hm : [.seqs] ⊆ vs) : KeepsR vs u₀ (cendAct c pos s) := by
  refine KeepsR.then hk hm ?_
  clear hk hm
  unfold cendAct
  try dsimp -proj only
  repeat' first
    | (with_reducible exact Keeps.refl _ _)
    | (with_reducible assumption)
    | (with_reducible exact Or.inl rfl)
    | exact Or.inr (by decide)
    | decide
    | (with_reducible apply need_noAfter)
    | (with_reducible apply State.modSeq_keeps)
    | (with_reducible refine KeepsR.bindS ?_ (fun _ _ => ?_))
    | (with_reducible refine KeepsR.bind ?_ (fun _ => ?_))
    | (with_reducible refine KeepsR.ok ?_)
    | (with_reducible refine KeepsR.pure ?_)
    | (with_reducible exact KeepsR.fault)
    | (with_reducible exact KeepsR.throwFault)
    | (with_reducible refine KeepsR.after ?_)
    | (with_reducible refine KeepsR.throwAfter ?_)
    | (with_reducible exact NoAfter.need)

theorem State.branch_keeps {vs : List View} {u₀ s : State} {t : Nat} {v : Vote} {x : Waiter} (hk : Keeps vs u₀ s)
    (hm : [.seqs, .tens, .counters, .fabric, .mgmt, .power] ⊆ vs) : Keeps vs u₀ (State.branch s t v x) := by
  refine hk.then hm ?_
  unfold State.branch
  dsimp -proj only
  split
  · exact Keeps.refl _ _
  · have h : ∀ y, Keeps [.seqs, .tens, .counters, .fabric, .mgmt, .power] s (((s.daybook 0x32 0 t (phys s x.core) 9 v.check.toNat (s.ten t).steps.step.toNat 0).countTen t 0x20B8 1).setSeq x.core y) := fun y =>
      State.setSeq_keeps (State.countTen_keeps (State.daybook_keeps (Keeps.refl _ _) (by decide)) (by decide)) (by decide)
    split
    · rename_i s2 e
      exact State.jumpTo_keeps (h _) (by decide) s2 (.inl e)
    · exact State.progFaultAt_keeps (State.countTen_keeps (State.daybook_keeps (Keeps.refl _ _) (by decide)) (by decide)) (by decide)

theorem State.settleVote_keeps {vs : List View} {u₀ : State} {s : State} {t : Nat} (hk : Keeps vs u₀ s) (hm : [.seqs, .tens, .counters, .fabric, .mgmt, .power] ⊆ vs) : Keeps vs u₀ (State.settleVote s t) := by
  refine hk.then hm ?_
  clear hk hm
  unfold State.settleVote
  try dsimp -proj only
  repeat' first
    | (with_reducible exact Keeps.refl _ _)
    | (with_reducible assumption)
    | (with_reducible exact Or.inl rfl)
    | exact Or.inr (by decide)
    | decide
    | (with_reducible apply State.modTen_keeps)
    | (with_reducible apply State.endStall_keeps)
    | (with_reducible apply State.branch_keeps)
    | (with_reducible refine Keeps.foldl ?_ (fun _ _ _ => ?_))
    | (with_reducible refine Keeps.foldlFst ?_ (fun _ _ _ => ?_))
    | (with_reducible refine Keeps.ite ?_ ?_)
    | (with_reducible refine Keeps.upd ?_ rfl rfl ?_ ?_ ?_ ?_ ?_ ?_ ?_ ?_ ?_ ?_ ?_ ?_ ?_; rotate_left; fail_if_success (iterate 13 (with_reducible exact Or.inl rfl)))
    | split

theorem State.countVote_keeps {vs : List View} {u₀ : State} {s : State} {t : Nat} {p : Port} {check : BitVec 12} {any : Bool} (hk : Keeps vs u₀ s) (hm : [.seqs, .tens, .counters, .fabric, .mgmt, .power] ⊆ vs) : Keeps vs u₀ (State.countVote s t p check any) := by
  refine hk.then hm ?_
  clear hk hm
  unfold State.countVote
  try dsimp -proj only
  repeat' first
    | (with_reducible exact Keeps.refl _ _)
    | (with_reducible assumption)
    | (with_reducible exact Or.inl rfl)
    | exact Or.inr (by decide)
    | decide
    | (with_reducible apply State.modTen_keeps)
    | (with_reducible apply State.forward_keeps)
    | (with_reducible apply State.progFaultAt_keeps)
    | (with_reducible apply State.progFault_keeps)
    | (with_reducible apply State.settleVote_keeps)
    | (with_reducible refine Keeps.ite ?_ ?_)
    | (with_reducible refine Keeps.upd ?_ rfl rfl ?_ ?_ ?_ ?_ ?_ ?_ ?_ ?_ ?_ ?_ ?_ ?_ ?_; rotate_left; fail_if_success (iterate 13 (with_reducible exact Or.inl rfl)))
    | split

theorem State.beginVote_keeps {vs : List View} {u₀ : State} {s : State} {t at' : Nat} {scope : BitVec 2} {check : BitVec 12} {x : Waiter} (hk : Keeps vs u₀ s) (hm : [.busy, .seqs, .tens, .counters, .fabric, .mgmt, .power] ⊆ vs) : Keeps vs u₀ (State.beginVote s t at' scope check x) := by
  refine hk.then hm ?_
  clear hk hm
  unfold State.beginVote
  try dsimp -proj only
  repeat' first
    | (with_reducible exact Keeps.refl _ _)
    | (with_reducible assumption)
    | (with_reducible exact Or.inl rfl)
    | exact Or.inr (by decide)
    | decide
    | (with_reducible apply State.modTen_keeps)
    | (with_reducible apply State.fanOut_keeps)
    | (with_reducible apply State.settleVote_keeps)
    | (with_reducible apply State.countVote_keeps)
    | (with_reducible refine Keeps.foldl ?_ (fun _ _ _ => ?_))
    | (with_reducible refine Keeps.foldlFst ?_ (fun _ _ _ => ?_))
    | (with_reducible refine Keeps.upd ?_ rfl rfl ?_ ?_ ?_ ?_ ?_ ?_ ?_ ?_ ?_ ?_ ?_ ?_ ?_; rotate_left; fail_if_success (iterate 13 (with_reducible exact Or.inl rfl)))
    | ((with_reducible refine Or.inr (?_ : CoresOk _ _ _)); simp +contextual [CoresOk, Cores.wf, memPut_wf, memPuts_wf, memClear_wf, memFilter_wf])

theorem fbchkAct_keeps {vs : List View} {u₀ : State} {c : Core} {scope : BitVec 2} {check : BitVec 12} {page : BitVec 3} {bundle : BitVec 10} {tag : BitVec 8} {pos : Nat} {s : State} (hk : Keeps vs u₀ s) (hm : [.busy, .seqs, .tens, .counters, .fabric, .mgmt, .power] ⊆ vs) : KeepsR vs u₀ (fbchkAct c scope check page bundle tag pos s) := by
  refine KeepsR.then hk hm ?_
  clear hk hm
  unfold fbchkAct
  try dsimp -proj only
  repeat' first
    | (with_reducible exact Keeps.refl _ _)
    | (with_reducible assumption)
    | (with_reducible exact Or.inl rfl)
    | exact Or.inr (by decide)
    | decide
    | (with_reducible apply State.modTen_keeps)
    | (with_reducible apply need_noAfter)
    | (with_reducible apply State.advance_keeps)
    | (with_reducible apply State.branch_keeps)
    | (with_reducible apply State.beginVote_keeps)
    | (with_reducible refine Keeps.ite ?_ ?_)
    | (with_reducible refine KeepsR.bindS ?_ (fun _ _ => ?_))
    | (with_reducible refine KeepsR.bind ?_ (fun _ => ?_))
    | (with_reducible refine KeepsR.ite ?_ ?_)
    | (with_reducible refine KeepsR.ok ?_)
    | (with_reducible refine KeepsR.pure ?_)
    | (with_reducible exact KeepsR.fault)
    | (with_reducible exact KeepsR.throwFault)
    | (with_reducible refine KeepsR.after ?_)
    | (with_reducible refine KeepsR.throwAfter ?_)
    | (with_reducible exact NoAfter.need)
    | (with_reducible exact NoAfter.ok)
    | (with_reducible exact NoAfter.pure)
    | (with_reducible exact NoAfter.fault)
    | (with_reducible refine NoAfter.bind ?_ (fun _ => ?_))
    | (with_reducible refine NoAfter.map ?_)
    | (with_reducible refine NoAfter.ite ?_ ?_)
    | split

theorem fbretAct_keeps {vs : List View} {u₀ : State} {c : Core} {s : State} (hk : Keeps vs u₀ s) (hm : [.seqs] ⊆ vs) : KeepsR vs u₀ (fbretAct c s) := by
  refine KeepsR.then hk hm ?_
  clear hk hm
  unfold fbretAct
  try dsimp -proj only
  repeat' first
    | (with_reducible exact Keeps.refl _ _)
    | (with_reducible assumption)
    | (with_reducible exact Or.inl rfl)
    | exact Or.inr (by decide)
    | decide
    | (with_reducible apply need_noAfter)
    | (with_reducible apply State.modSeq_keeps)
    | (with_reducible refine KeepsR.bindS ?_ (fun _ _ => ?_))
    | (with_reducible refine KeepsR.bind ?_ (fun _ => ?_))
    | (with_reducible refine KeepsR.ok ?_)
    | (with_reducible refine KeepsR.pure ?_)
    | (with_reducible exact KeepsR.fault)
    | (with_reducible exact KeepsR.throwFault)
    | (with_reducible refine KeepsR.after ?_)
    | (with_reducible refine KeepsR.throwAfter ?_)
    | (with_reducible exact NoAfter.need)
    | (with_reducible exact NoAfter.ok)
    | (with_reducible exact NoAfter.pure)
    | (with_reducible exact NoAfter.fault)
    | (with_reducible exact NoAfter.throwFault)
    | (with_reducible exact NoAfter.throwPoison)
    | (with_reducible refine NoAfter.bind ?_ (fun _ => ?_))
    | (with_reducible refine NoAfter.map ?_)
    | split

theorem State.compareTwin_keeps {vs : List View} {u₀ : State} {s : State} {t : Nat} (hk : Keeps vs u₀ s) (hm : [.tens, .counters, .fabric, .mgmt] ⊆ vs) : Keeps vs u₀ (State.compareTwin s t) := by
  refine hk.then hm ?_
  clear hk hm
  unfold State.compareTwin
  try dsimp -proj only
  repeat' first
    | (with_reducible exact Keeps.refl _ _)
    | (with_reducible assumption)
    | (with_reducible exact Or.inl rfl)
    | exact Or.inr (by decide)
    | decide
    | (with_reducible apply State.countTen_keeps)
    | (with_reducible apply State.modTen_keeps)
    | (with_reducible apply State.dayTen_keeps)
    | (with_reducible apply State.assayCores_keeps)
    | (with_reducible refine Keeps.foldl ?_ (fun _ _ _ => ?_))
    | (with_reducible refine Keeps.foldlFst ?_ (fun _ _ _ => ?_))
    | (with_reducible refine Keeps.ite ?_ ?_)
    | (with_reducible refine Keeps.upd ?_ rfl rfl ?_ ?_ ?_ ?_ ?_ ?_ ?_ ?_ ?_ ?_ ?_ ?_ ?_; rotate_left; fail_if_success (iterate 13 (with_reducible exact Or.inl rfl)))
    | split

theorem State.compareSeals_keeps {vs : List View} {u₀ : State} {s : State} {t : Nat} (hk : Keeps vs u₀ s) (hm : [.tens, .counters, .mgmt] ⊆ vs) : Keeps vs u₀ (State.compareSeals s t) := by
  refine hk.then hm ?_
  clear hk hm
  unfold State.compareSeals
  try dsimp -proj only
  repeat' first
    | (with_reducible exact Keeps.refl _ _)
    | (with_reducible assumption)
    | (with_reducible exact Or.inl rfl)
    | exact Or.inr (by decide)
    | decide
    | (with_reducible apply State.countTen_keeps)
    | (with_reducible apply State.modTen_keeps)
    | (with_reducible apply State.dayTen_keeps)
    | (with_reducible refine Keeps.ite ?_ ?_)
    | (with_reducible refine Keeps.upd ?_ rfl rfl ?_ ?_ ?_ ?_ ?_ ?_ ?_ ?_ ?_ ?_ ?_ ?_ ?_; rotate_left; fail_if_success (iterate 13 (with_reducible exact Or.inl rfl)))
    | split

theorem State.sendSeals_keeps {vs : List View} {u₀ : State} {s : State} {t : Nat} (hk : Keeps vs u₀ s) (hm : [.tens, .counters, .fabric, .power] ⊆ vs) : Keeps vs u₀ (State.sendSeals s t) := by
  refine hk.then hm ?_
  clear hk hm
  unfold State.sendSeals
  try dsimp -proj only
  repeat' first
    | (with_reducible exact Keeps.refl _ _)
    | (with_reducible assumption)
    | (with_reducible exact Or.inl rfl)
    | exact Or.inr (by decide)
    | decide
    | (with_reducible apply State.modTen_keeps)
    | (with_reducible apply State.pushCtl_keeps)
    | (with_reducible apply State.fanOut_keeps)
    | (with_reducible refine Keeps.ite ?_ ?_)

theorem State.countOvf_keeps {vs : List View} {u₀ : State} {s : State} {t : Nat} (hk : Keeps vs u₀ s) (hm : [.counters] ⊆ vs) : Keeps vs u₀ (State.countOvf s t) := by
  refine hk.then hm ?_
  clear hk hm
  unfold State.countOvf
  try dsimp -proj only
  repeat' first
    | (with_reducible exact Keeps.refl _ _)
    | (with_reducible assumption)
    | decide
    | (with_reducible apply State.countTen_keeps)

theorem State.closeFlight_keeps {vs : List View} {u₀ : State} {s : State} {t : Nat} (hk : Keeps vs u₀ s) (hm : [.tens, .counters, .fabric, .mgmt, .power] ⊆ vs) : Keeps vs u₀ (State.closeFlight s t) := by
  refine hk.then hm ?_
  clear hk hm
  unfold State.closeFlight
  try dsimp -proj only
  repeat' first
    | (with_reducible exact Keeps.refl _ _)
    | (with_reducible assumption)
    | decide
    | (with_reducible apply State.progFaultAt_keeps)
    | (with_reducible refine Keeps.foldl ?_ (fun _ _ _ => ?_))
    | (with_reducible refine Keeps.foldlFst ?_ (fun _ _ _ => ?_))
    | (with_reducible refine Keeps.ite ?_ ?_)

theorem scloseAct_keeps {vs : List View} {u₀ : State} {c : Core} {take : BitVec 4} {s : State} (hk : Keeps vs u₀ s) (hm : [.tens, .counters, .fabric, .mgmt, .power, .upsets] ⊆ vs) : KeepsR vs u₀ (scloseAct c take s) := by
  refine KeepsR.then hk hm ?_
  clear hk hm
  unfold scloseAct
  try dsimp -proj only
  repeat' first
    | (with_reducible exact Keeps.refl _ _)
    | (with_reducible assumption)
    | (with_reducible exact Or.inl rfl)
    | exact Or.inr (by decide)
    | decide
    | (with_reducible apply State.modTen_keeps)
    | (with_reducible apply need_noAfter)
    | (with_reducible apply State.planSwap_keeps)
    | (with_reducible apply State.startMerge_keeps)
    | (with_reducible apply State.compareTwin_keeps)
    | (with_reducible apply State.compareSeals_keeps)
    | (with_reducible apply State.sendSeals_keeps)
    | (with_reducible apply State.countOvf_keeps)
    | (with_reducible refine Keeps.ite ?_ ?_)
    | (with_reducible refine KeepsR.bindS ?_ (fun _ _ => ?_))
    | (with_reducible refine KeepsR.bind ?_ (fun _ => ?_))
    | (with_reducible refine KeepsR.ite ?_ ?_)
    | (with_reducible refine KeepsR.ok ?_)
    | (with_reducible refine KeepsR.pure ?_)
    | (with_reducible exact KeepsR.fault)
    | (with_reducible exact KeepsR.throwFault)
    | (with_reducible refine KeepsR.after ?_)
    | (with_reducible refine KeepsR.throwAfter ?_)
    | (with_reducible exact NoAfter.need)

theorem sphaseAct_keeps {vs : List View} {u₀ : State} {c : Core} {tag : BitVec 16} {s : State} (hk : Keeps vs u₀ s) (hm : [.tens] ⊆ vs) : KeepsR vs u₀ (sphaseAct c tag s) := by
  refine KeepsR.then hk hm ?_
  clear hk hm
  unfold sphaseAct
  try dsimp -proj only
  repeat' first
    | (with_reducible exact Keeps.refl _ _)
    | (with_reducible assumption)
    | (with_reducible exact Or.inl rfl)
    | exact Or.inr (by decide)
    | decide
    | (with_reducible apply State.modTen_keeps)
    | (with_reducible refine KeepsR.bindS ?_ (fun _ _ => ?_))
    | (with_reducible refine KeepsR.bind ?_ (fun _ => ?_))
    | (with_reducible refine KeepsR.ok ?_)

theorem State.addStallOf_keeps {vs : List View} {u₀ : State} {s : State} {t : Nat} {x : Stall} (hk : Keeps vs u₀ s) (hm : [.tens] ⊆ vs) : Keeps vs u₀ (State.addStallOf s t x) := by
  refine hk.then hm ?_
  clear hk hm
  unfold State.addStallOf
  try dsimp -proj only
  repeat' first
    | (with_reducible exact Keeps.refl _ _)
    | (with_reducible assumption)
    | (with_reducible exact Or.inl rfl)
    | exact Or.inr (by decide)
    | decide
    | (with_reducible apply State.modTen_keeps)

theorem fsendAct_keeps {vs : List View} {u₀ : State} {c : Core} {chan : Chan} {axis : BitVec 2} {peer : BitVec 12} {rd s : State} (hk : Keeps vs u₀ s) (hm : [.tens, .counters, .fabric, .mgmt, .power] ⊆ vs) : KeepsR vs u₀ (fsendAct c chan axis peer rd s) := by
  refine KeepsR.then hk hm ?_
  clear hk hm
  unfold fsendAct
  try dsimp -proj only
  repeat' first
    | (with_reducible exact Keeps.refl _ _)
    | (with_reducible assumption)
    | decide
    | (with_reducible apply State.sendStaged_keeps)
    | (with_reducible apply need_noAfter)
    | (with_reducible apply State.checkCrc_keeps)
    | (with_reducible apply State.addStallOf_keeps)
    | (with_reducible refine Keeps.foldl ?_ (fun _ _ _ => ?_))
    | (with_reducible refine Keeps.foldlFst ?_ (fun _ _ _ => ?_))
    | (with_reducible refine Keeps.ite ?_ ?_)
    | (with_reducible refine KeepsR.bindS ?_ (fun _ _ => ?_))
    | (with_reducible refine KeepsR.bind ?_ (fun _ => ?_))
    | (with_reducible refine KeepsR.ite ?_ ?_)
    | (with_reducible refine KeepsR.ok ?_)
    | (with_reducible refine KeepsR.pure ?_)
    | (with_reducible exact KeepsR.fault)
    | (with_reducible exact KeepsR.throwFault)
    | (with_reducible refine KeepsR.after ?_)
    | (with_reducible refine KeepsR.throwAfter ?_)
    | (with_reducible exact NoAfter.need)

theorem fwaitAct_keeps {vs : List View} {u₀ : State} {c : Core} {chan : Chan} {count : BitVec 16} {rd s : State} (hk : Keeps vs u₀ s) (hm : [.tens, .fabric] ⊆ vs) : KeepsR vs u₀ (fwaitAct c chan count rd s) := by
  refine KeepsR.then hk hm ?_
  clear hk hm
  unfold fwaitAct
  try dsimp -proj only
  repeat' first
    | (with_reducible exact Keeps.refl _ _)
    | (with_reducible assumption)
    | (with_reducible exact Or.inl rfl)
    | exact Or.inr (by decide)
    | decide
    | (with_reducible apply State.modChan_keeps)
    | (with_reducible apply need_noAfter)
    | (with_reducible apply State.setColl_keeps)
    | (with_reducible apply State.addStallOf_keeps)
    | (with_reducible refine Keeps.ite ?_ ?_)
    | (with_reducible refine KeepsR.bindS ?_ (fun _ _ => ?_))
    | (with_reducible refine KeepsR.bind ?_ (fun _ => ?_))
    | (with_reducible refine KeepsR.ite ?_ ?_)
    | (with_reducible refine KeepsR.ok ?_)
    | (with_reducible refine KeepsR.pure ?_)
    | (with_reducible exact KeepsR.fault)
    | (with_reducible exact KeepsR.throwFault)
    | (with_reducible refine KeepsR.after ?_)
    | (with_reducible refine KeepsR.throwAfter ?_)
    | (with_reducible exact NoAfter.need)
    | (with_reducible exact NoAfter.ok)
    | (with_reducible exact NoAfter.pure)
    | (with_reducible exact NoAfter.fault)
    | (with_reducible refine NoAfter.bind ?_ (fun _ => ?_))
    | (with_reducible refine NoAfter.map ?_)
    | (with_reducible refine NoAfter.ite ?_ ?_)
    | (with_reducible refine Keeps.upd ?_ rfl rfl ?_ ?_ ?_ ?_ ?_ ?_ ?_ ?_ ?_ ?_ ?_ ?_ ?_; rotate_left; fail_if_success (iterate 13 (with_reducible exact Or.inl rfl)))
    | split

theorem slotAct_keeps {vs : List View} {u₀ : State} {i : Instr} {rd s : State} (hk : Keeps vs u₀ s) (hm : [.cs, .desc, .purse, .mbox, .hall, .tags, .acc, .engines, .busy, .reads, .merges, .words, .service, .stores, .tens, .counters, .fabric, .mgmt, .power, .upsets, .fresh] ⊆ vs) : KeepsR vs u₀ (slotAct i rd s) := by
  refine KeepsR.then hk hm ?_
  clear hk hm
  unfold slotAct
  try dsimp -proj only
  repeat' first
    | (with_reducible exact Keeps.refl _ _)
    | (with_reducible assumption)
    | (with_reducible exact Or.inl rfl)
    | exact Or.inr (by decide)
    | decide
    | (with_reducible apply vxAct_keeps)
    | (with_reducible apply rrouteAct_keeps)
    | (with_reducible apply rroutebAct_keeps)
    | (with_reducible apply rcombAct_keeps)
    | (with_reducible apply rcsumAct_keeps)
    | (with_reducible apply rnormAct_keeps)
    | (with_reducible apply rnormbAct_keeps)
    | (with_reducible apply rsmaxAct_keeps)
    | (with_reducible apply rsmaxbAct_keeps)
    | (with_reducible apply rfoldAct_keeps)
    | (with_reducible apply rxentAct_keeps)
    | (with_reducible apply pspillAct_keeps)
    | (with_reducible apply pfillAct_keeps)
    | (with_reducible apply pclrAct_keeps)
    | (with_reducible apply mrunAct_keeps)
    | (with_reducible apply maltAct_keeps)
    | (with_reducible apply mpreAct_keeps)
    | (with_reducible apply mdrnAct_keeps)
    | (with_reducible apply mrelAct_keeps)
    | (with_reducible apply hmoveAct_keeps)
    | (with_reducible apply gathAct_keeps)
    | (with_reducible apply hmeshAct_keeps)
    | (with_reducible apply hpageAct_keeps)
    | (with_reducible apply hdescAct_keeps)
    | (with_reducible apply hdspAct_keeps)
    | (with_reducible apply fcollAct_keeps)
    | (with_reducible apply sphaseAct_keeps)
    | (with_reducible apply fsendAct_keeps)
    | (with_reducible apply fwaitAct_keeps)
    | (with_reducible refine KeepsR.bindS ?_ (fun _ _ => ?_))
    | (with_reducible refine KeepsR.bind ?_ (fun _ => ?_))
    | (with_reducible refine KeepsR.ok ?_)
    | (with_reducible refine KeepsR.pure ?_)
    | (with_reducible exact KeepsR.fault)
    | (with_reducible exact KeepsR.throwFault)
    | (with_reducible refine KeepsR.after ?_)
    | (with_reducible refine KeepsR.throwAfter ?_)
    | (with_reducible exact NoAfter.need)
    | (with_reducible exact NoAfter.ok)
    | (with_reducible exact NoAfter.pure)
    | (with_reducible exact NoAfter.fault)
    | (with_reducible refine NoAfter.bind ?_ (fun _ => ?_))
    | (with_reducible refine NoAfter.map ?_)
    | split

theorem controlAct_keeps {vs : List View} {u₀ : State} {i : Option Instr} {c : Core} {pos : Nat} {s : State} (hk : Keeps vs u₀ s) (hm : [.busy, .seqs, .tens, .counters, .fabric, .mgmt, .power, .upsets] ⊆ vs) : KeepsR vs u₀ (controlAct i c pos s) := by
  refine KeepsR.then hk hm ?_
  clear hk hm
  unfold controlAct
  try dsimp -proj only
  repeat' first
    | (with_reducible exact Keeps.refl _ _)
    | (with_reducible assumption)
    | (with_reducible exact Or.inl rfl)
    | exact Or.inr (by decide)
    | decide
    | (with_reducible apply State.advance_keeps)
    | (with_reducible apply loopAct_keeps)
    | (with_reducible apply pjumpAct_keeps)
    | (with_reducible apply cendAct_keeps)
    | (with_reducible apply fbchkAct_keeps)
    | (with_reducible apply fbretAct_keeps)
    | (with_reducible apply scloseAct_keeps)
    | (with_reducible refine KeepsR.bindS ?_ (fun _ _ => ?_))
    | (with_reducible refine KeepsR.bind ?_ (fun _ => ?_))
    | (with_reducible refine KeepsR.ok ?_)
    | (with_reducible refine KeepsR.pure ?_)
    | (with_reducible exact KeepsR.fault)
    | (with_reducible exact KeepsR.throwFault)
    | (with_reducible refine KeepsR.after ?_)
    | (with_reducible refine KeepsR.throwAfter ?_)
    | (with_reducible exact NoAfter.need)
    | (with_reducible exact NoAfter.ok)
    | (with_reducible exact NoAfter.pure)
    | (with_reducible exact NoAfter.fault)
    | (with_reducible refine NoAfter.bind ?_ (fun _ => ?_))
    | (with_reducible refine NoAfter.map ?_)
    | split

theorem State.trap_keeps {vs : List View} {u₀ : State} {s rd : State} {c : Core} {x : Nat × Option Instr × Trap} (hk : Keeps vs u₀ s) (hm : [.cs, .desc, .purse, .mbox, .hall, .tags, .acc, .engines, .busy, .reads, .merges, .words, .service, .stores, .tens, .counters, .fabric, .mgmt, .power, .upsets, .fresh] ⊆ vs) : Keeps vs u₀ (State.trap s rd c x) := by
  refine hk.then hm ?_
  clear hk hm
  unfold State.trap
  try dsimp -proj only
  repeat' first
    | (with_reducible exact Keeps.refl _ _)
    | (with_reducible assumption)
    | (with_reducible exact Or.inl rfl)
    | exact Or.inr (by decide)
    | decide
    | (with_reducible apply State.progFault_keeps)
    | (with_reducible apply State.poisonStop_keeps)
    | (with_reducible apply slotAct_keeps)
    | (with_reducible refine Keeps.upd ?_ rfl rfl ?_ ?_ ?_ ?_ ?_ ?_ ?_ ?_ ?_ ?_ ?_ ?_ ?_; rotate_left; fail_if_success (iterate 13 (with_reducible exact Or.inl rfl)))
    | (with_reducible refine KeepsR.getOk (by assumption) ?_)
    | (with_reducible refine KeepsR.getAfter (by assumption) ?_)
    | split

theorem runSlots_keeps {vs : List View} {u₀ : State} {rd : State} {slots : List (Nat × Option Instr)} {s : State} (hk : Keeps vs u₀ s) (hm : [.cs, .desc, .purse, .mbox, .hall, .tags, .acc, .engines, .busy, .reads, .merges, .words, .service, .stores, .tens, .counters, .fabric, .mgmt, .power, .upsets, .fresh] ⊆ vs) : Keeps vs u₀ (runSlots rd slots s).1 := by
  refine hk.then hm ?_
  clear hk hm
  unfold runSlots
  try dsimp -proj only
  repeat' first
    | (with_reducible exact Keeps.refl _ _)
    | (with_reducible assumption)
    | (with_reducible exact Or.inl rfl)
    | exact Or.inr (by decide)
    | decide
    | (with_reducible apply slotAct_keeps)
    | (with_reducible refine Keeps.foldl ?_ (fun _ _ _ => ?_))
    | (with_reducible refine Keeps.foldlFst ?_ (fun _ _ _ => ?_))
    | (with_reducible refine Keeps.upd ?_ rfl rfl ?_ ?_ ?_ ?_ ?_ ?_ ?_ ?_ ?_ ?_ ?_ ?_ ?_; rotate_left; fail_if_success (iterate 13 (with_reducible exact Or.inl rfl)))
    | (with_reducible refine KeepsR.getOk (by assumption) ?_)
    | (with_reducible refine KeepsR.getAfter (by assumption) ?_)
    | split

theorem bundleWork_keeps {vs : List View} {u₀ : State} {rd : State} {c : Core} {pos : Nat} {slots : List (Nat × Option Instr)} {s : State} (hk : Keeps vs u₀ s) (hm : [.cs, .desc, .purse, .mbox, .hall, .tags, .acc, .engines, .busy, .seqs, .reads, .merges, .words, .service, .stores, .tens, .counters, .fabric, .mgmt, .power, .upsets, .fresh] ⊆ vs) : Keeps vs u₀ (bundleWork rd c pos slots s).1 := by
  refine hk.then hm ?_
  clear hk hm
  unfold bundleWork
  try dsimp -proj only
  repeat' first
    | (with_reducible exact Keeps.refl _ _)
    | (with_reducible assumption)
    | (with_reducible exact Or.inl rfl)
    | exact Or.inr (by decide)
    | decide
    | (with_reducible apply State.setSeq_keeps)
    | (with_reducible apply State.closeFlight_keeps)
    | (with_reducible apply controlAct_keeps)
    | (with_reducible apply runSlots_keeps)
    | (with_reducible refine Keeps.ite ?_ ?_)
    | (with_reducible refine Keeps.upd ?_ rfl rfl ?_ ?_ ?_ ?_ ?_ ?_ ?_ ?_ ?_ ?_ ?_ ?_ ?_; rotate_left; fail_if_success (iterate 13 (with_reducible exact Or.inl rfl)))
    | (with_reducible refine KeepsR.getOk (by assumption) ?_)
    | (with_reducible refine KeepsR.getAfter (by assumption) ?_)
    | split

theorem State.issue_keeps {vs : List View} {u₀ : State} {s : State} {c : Core} {pos : Nat} (hk : Keeps vs u₀ s) (hm : [.cs, .prog, .desc, .purse, .mbox, .hall, .tags, .acc, .engines, .busy, .seqs, .reads, .merges, .words, .service, .stores, .tens, .counters, .fabric, .mgmt, .power, .upsets, .fresh] ⊆ vs) : Keeps vs u₀ (State.issue s c pos) := by
  refine hk.then hm ?_
  clear hk hm
  unfold State.issue
  try dsimp -proj only
  repeat' first
    | (with_reducible exact Keeps.refl _ _)
    | (with_reducible assumption)
    | (with_reducible exact Or.inl rfl)
    | exact Or.inr (by decide)
    | decide
    | (with_reducible apply State.countTen_keeps)
    | (with_reducible apply State.poisonStop_keeps)
    | (with_reducible apply State.strikeAccs_keeps)
    | (with_reducible apply State.trap_keeps)
    | (with_reducible apply bundleWork_keeps)
    | (with_reducible refine Keeps.foldl ?_ (fun _ _ _ => ?_))
    | (with_reducible refine Keeps.foldlFst ?_ (fun _ _ _ => ?_))
    | (with_reducible refine Keeps.ite ?_ ?_)
    | (with_reducible refine Keeps.upd ?_ rfl rfl ?_ ?_ ?_ ?_ ?_ ?_ ?_ ?_ ?_ ?_ ?_ ?_ ?_; rotate_left; fail_if_success (iterate 13 (with_reducible exact Or.inl rfl)))
    | ((with_reducible refine Or.inr (?_ : CoresOk _ _ _)); simp +contextual [CoresOk, Cores.wf, memPut_wf, memPuts_wf, memClear_wf, memFilter_wf])

theorem execBundleIssue_keeps {vs : List View} {u₀ : State} {c : Core} {s : State} (hk : Keeps vs u₀ s) (hm : [.cs, .prog, .desc, .purse, .mbox, .hall, .tags, .acc, .engines, .busy, .seqs, .reads, .merges, .words, .service, .stores, .tens, .counters, .fabric, .time, .mgmt, .power, .upsets, .fresh] ⊆ vs) : KeepsO vs u₀ (execBundleIssue c s) := by
  refine KeepsO.then hk hm ?_
  clear hk hm
  unfold execBundleIssue
  try dsimp -proj only
  repeat' first
    | (with_reducible exact Keeps.refl _ _)
    | (with_reducible assumption)
    | decide
    | (with_reducible apply State.runTo_keeps)
    | (with_reducible apply State.issue_keeps)
    | (with_reducible refine Keeps.ite ?_ ?_)
    | (with_reducible refine KeepsO.next ?_)
    | (with_reducible refine KeepsO.ite ?_ ?_)

theorem soloControl_keeps {vs : List View} {u₀ : State} {c : Core} {i : Instr} {_rd s : State} (hk : Keeps vs u₀ s) (hm : [.busy, .seqs, .tens, .counters, .fabric, .mgmt, .power, .upsets] ⊆ vs) : KeepsR vs u₀ (soloControl c i _rd s) := by
  refine KeepsR.then hk hm ?_
  clear hk hm
  unfold soloControl
  try dsimp -proj only
  repeat' first
    | (with_reducible exact Keeps.refl _ _)
    | (with_reducible assumption)
    | decide
    | (with_reducible apply controlAct_keeps)

theorem soloClose_keeps {vs : List View} {u₀ : State} {c : Core} {take : BitVec 4} {rd s : State} (hk : Keeps vs u₀ s) (hm : [.tens, .counters, .fabric, .mgmt, .power, .upsets] ⊆ vs) : KeepsR vs u₀ (soloClose c take rd s) := by
  refine KeepsR.then hk hm ?_
  clear hk hm
  unfold soloClose
  try dsimp -proj only
  repeat' first
    | (with_reducible exact Keeps.refl _ _)
    | (with_reducible assumption)
    | decide
    | (with_reducible apply State.closeFlight_keeps)
    | (with_reducible apply scloseAct_keeps)
    | (with_reducible refine Keeps.ite ?_ ?_)
    | (with_reducible refine KeepsR.bindS ?_ (fun _ _ => ?_))
    | (with_reducible refine KeepsR.bind ?_ (fun _ => ?_))
    | (with_reducible refine KeepsR.ite ?_ ?_)
    | (with_reducible refine KeepsR.ok ?_)
    | (with_reducible refine KeepsR.pure ?_)

theorem execLoop_keeps {vs : List View} {u₀ : State} {c : Core} {n : BitVec 17} {l : BitVec 10} {s : State} (hk : Keeps vs u₀ s) (hm : [.busy, .seqs, .tens, .counters, .fabric, .mgmt, .power, .upsets] ⊆ vs) : KeepsO vs u₀ (execLoop c n l s) :=
  KeepsO.then hk hm (KeepsO.next (slotOp_keeps (Keeps.refl _ _) (by decide) (soloControl_keeps (Keeps.refl _ _) (by decide))))

theorem execPjump_keeps {vs : List View} {u₀ : State} {c : Core} {page : BitVec 3} {tag : BitVec 8} {s : State} (hk : Keeps vs u₀ s) (hm : [.busy, .seqs, .tens, .counters, .fabric, .mgmt, .power, .upsets] ⊆ vs) : KeepsO vs u₀ (execPjump c page tag s) :=
  KeepsO.then hk hm (KeepsO.next (slotOp_keeps (Keeps.refl _ _) (by decide) (soloControl_keeps (Keeps.refl _ _) (by decide))))

theorem execCend_keeps {vs : List View} {u₀ : State} {c : Core} {s : State} (hk : Keeps vs u₀ s) (hm : [.busy, .seqs, .tens, .counters, .fabric, .mgmt, .power, .upsets] ⊆ vs) : KeepsO vs u₀ (execCend c s) :=
  KeepsO.then hk hm (KeepsO.next (slotOp_keeps (Keeps.refl _ _) (by decide) (soloControl_keeps (Keeps.refl _ _) (by decide))))

theorem execFbchk_keeps {vs : List View} {u₀ : State} {c : Core} {scope : BitVec 2} {check : BitVec 12} {page : BitVec 3} {bundle : BitVec 10} {tag : BitVec 8} {s : State} (hk : Keeps vs u₀ s) (hm : [.busy, .seqs, .tens, .counters, .fabric, .mgmt, .power, .upsets] ⊆ vs) : KeepsO vs u₀ (execFbchk c scope check page bundle tag s) :=
  KeepsO.then hk hm (KeepsO.next (slotOp_keeps (Keeps.refl _ _) (by decide) (soloControl_keeps (Keeps.refl _ _) (by decide))))

theorem execFbret_keeps {vs : List View} {u₀ : State} {c : Core} {s : State} (hk : Keeps vs u₀ s) (hm : [.busy, .seqs, .tens, .counters, .fabric, .mgmt, .power, .upsets] ⊆ vs) : KeepsO vs u₀ (execFbret c s) :=
  KeepsO.then hk hm (KeepsO.next (slotOp_keeps (Keeps.refl _ _) (by decide) (soloControl_keeps (Keeps.refl _ _) (by decide))))

theorem execSclose_keeps {vs : List View} {u₀ : State} {c : Core} {take : BitVec 4} {s : State} (hk : Keeps vs u₀ s) (hm : [.tens, .counters, .fabric, .mgmt, .power, .upsets] ⊆ vs) : KeepsO vs u₀ (execSclose c take s) :=
  KeepsO.then hk hm (KeepsO.next (slotOp_keeps (Keeps.refl _ _) (by decide) (soloClose_keeps (Keeps.refl _ _) (by decide))))

theorem execSphase_keeps {vs : List View} {u₀ : State} {c : Core} {tag : BitVec 16} {s : State} (hk : Keeps vs u₀ s) (hm : [.tens, .counters, .fabric, .mgmt, .power] ⊆ vs) : KeepsO vs u₀ (execSphase c tag s) :=
  KeepsO.then hk hm (KeepsO.next (slotOp_keeps (Keeps.refl _ _) (by decide) (sphaseAct_keeps (Keeps.refl _ _) (by decide))))

theorem execFsend_keeps {vs : List View} {u₀ : State} {c : Core} {chan : Chan} {axis : BitVec 2} {peer : BitVec 12} {s : State} (hk : Keeps vs u₀ s) (hm : [.tens, .counters, .fabric, .mgmt, .power] ⊆ vs) : KeepsO vs u₀ (execFsend c chan axis peer s) :=
  KeepsO.then hk hm (KeepsO.next (slotOp_keeps (Keeps.refl _ _) (by decide) (fsendAct_keeps (Keeps.refl _ _) (by decide))))

theorem execFwait_keeps {vs : List View} {u₀ : State} {c : Core} {chan : Chan} {count : BitVec 16} {s : State} (hk : Keeps vs u₀ s) (hm : [.tens, .counters, .fabric, .mgmt, .power] ⊆ vs) : KeepsO vs u₀ (execFwait c chan count s) :=
  KeepsO.then hk hm (KeepsO.next (slotOp_keeps (Keeps.refl _ _) (by decide) (fwaitAct_keeps (Keeps.refl _ _) (by decide))))

theorem execFcoll_keeps {vs : List View} {u₀ : State} {c : Core} {chan : Chan} {axis : BitVec 2} {op : BitVec 4} {desc : BitVec 10} {s : State} (hk : Keeps vs u₀ s) (hm : [.cs, .mbox, .words, .service, .tens, .counters, .fabric, .mgmt, .power, .upsets] ⊆ vs) : KeepsO vs u₀ (execFcoll c chan axis op desc s) :=
  KeepsO.then hk hm (KeepsO.next (slotOp_keeps (Keeps.refl _ _) (by decide) (fcollAct_keeps (Keeps.refl _ _) (by decide))))

end Sys2Proof.Machine
end

