-- ==== Sys2Proof/Laws/TransportKeeps.lean ====
section
/-! SUPPORT. What each operation of Machine/Transport.lean may change: the parts named, the queue and the identity never, and no canonical form. -/

namespace Sys2Proof.Machine

open Sys2Proof

theorem State.landHall_keeps {vs : List View} {u₀ : State} {s : State} {t ch a : Nat} {f : Frame} {ws : List MemWord} (hk : Keeps vs u₀ s) (hm : [.cs, .mbox, .hall, .words, .counters, .mgmt] ⊆ vs) : Keeps vs u₀ (State.landHall s t ch a f ws) := by
  refine hk.then hm ?_
  clear hk hm
  unfold State.landHall
  try dsimp -proj only
  repeat' first
    | (with_reducible exact Keeps.refl _ _)
    | (with_reducible assumption)
    | decide
    | (with_reducible apply State.countCore_keeps)
    | (with_reducible apply State.writeHall_keeps)
    | (with_reducible apply State.dayCore_keeps)
    | (with_reducible refine Keeps.foldl ?_ (fun _ _ _ => ?_))
    | (with_reducible refine Keeps.foldlFst ?_ (fun _ _ _ => ?_))
    | (with_reducible refine Keeps.ite ?_ ?_)

theorem State.landParcel_keeps {vs : List View} {u₀ : State} {s : State} {p : Port} {f : Frame} (hk : Keeps vs u₀ s) (hm : [.cs, .mbox, .hall, .words, .tens, .counters, .fabric, .mgmt] ⊆ vs) : Keeps vs u₀ (State.landParcel s p f) := by
  refine hk.then hm ?_
  clear hk hm
  unfold State.landParcel
  try dsimp -proj only
  repeat' first
    | (with_reducible exact Keeps.refl _ _)
    | (with_reducible assumption)
    | (with_reducible exact Or.inl rfl)
    | exact Or.inr (by decide)
    | decide
    | (with_reducible apply State.writeWord_keeps)
    | (with_reducible apply State.modChan_keeps)
    | (with_reducible apply State.endStall_keeps)
    | (with_reducible apply State.decodePayload_keeps)
    | (with_reducible apply State.landHall_keeps)
    | (with_reducible refine Keeps.foldl ?_ (fun _ _ _ => ?_))
    | (with_reducible refine Keeps.foldlFst ?_ (fun _ _ _ => ?_))
    | (with_reducible refine Keeps.ite ?_ ?_)

theorem execDataParcel_keeps {vs : List View} {u₀ : State} {p : Port} {f : Frame} {s : State} (hk : Keeps vs u₀ s) (hm : [.cs, .mbox, .hall, .words, .tens, .counters, .fabric, .mgmt, .power] ⊆ vs) : KeepsO vs u₀ (execDataParcel p f s) := by
  refine KeepsO.then hk hm ?_
  clear hk hm
  unfold execDataParcel
  try dsimp -proj only
  repeat' first
    | (with_reducible exact Keeps.refl _ _)
    | (with_reducible assumption)
    | decide
    | (with_reducible apply State.receive_keeps)
    | (with_reducible apply State.landParcel_keeps)
    | (with_reducible refine Keeps.ite ?_ ?_)
    | (with_reducible refine KeepsO.next ?_)

theorem execCollectiveParcel_keeps {vs : List View} {u₀ : State} {p : Port} {f : Frame} {s : State} (hk : Keeps vs u₀ s) (hm : [.tens, .counters, .fabric, .mgmt, .power, .upsets] ⊆ vs) : KeepsO vs u₀ (execCollectiveParcel p f s) := by
  refine KeepsO.then hk hm ?_
  clear hk hm
  unfold execCollectiveParcel
  try dsimp -proj only
  repeat' first
    | (with_reducible exact Keeps.refl _ _)
    | (with_reducible assumption)
    | decide
    | (with_reducible apply State.receive_keeps)
    | (with_reducible apply State.decodePayload_keeps)
    | (with_reducible apply State.parcel_keeps)
    | (with_reducible refine Keeps.ite ?_ ?_)
    | (with_reducible refine KeepsO.next ?_)
    | (with_reducible refine KeepsO.ite ?_ ?_)

theorem State.completeColl_keeps {vs : List View} {u₀ : State} {s : State} {t ch : Nat} {k : Coll} (hk : Keeps vs u₀ s) (hm : [.cs, .mbox, .hall, .merges, .words, .tens, .counters, .fabric, .mgmt, .power, .fresh] ⊆ vs) : Keeps vs u₀ (State.completeColl s t ch k) := by
  refine hk.then hm ?_
  clear hk hm
  unfold State.completeColl
  try dsimp -proj only
  repeat' first
    | (with_reducible exact Keeps.refl _ _)
    | (with_reducible assumption)
    | (with_reducible exact Or.inl rfl)
    | exact Or.inr (by decide)
    | decide
    | (with_reducible apply State.endStall_keeps)
    | (with_reducible apply State.writeResults_keeps)
    | (with_reducible refine Keeps.upd ?_ rfl rfl ?_ ?_ ?_ ?_ ?_ ?_ ?_ ?_ ?_ ?_ ?_ ?_ ?_; rotate_left; fail_if_success (iterate 13 (with_reducible exact Or.inl rfl)))
    | split

theorem execCollectiveTimeout_keeps {vs : List View} {u₀ : State} {t : Ten} {chan : Chan} {s : State} (hk : Keeps vs u₀ s) (hm : [.cs, .mbox, .merges, .words, .tens, .counters, .fabric, .time, .mgmt, .power] ⊆ vs) : KeepsO vs u₀ (execCollectiveTimeout t chan s) := by
  refine KeepsO.then hk hm ?_
  clear hk hm
  unfold execCollectiveTimeout
  try dsimp -proj only
  repeat' first
    | (with_reducible exact Keeps.refl _ _)
    | (with_reducible assumption)
    | (with_reducible exact Or.inl rfl)
    | exact Or.inr (by decide)
    | decide
    | (with_reducible apply State.countTen_keeps)
    | (with_reducible apply State.passTo_keeps)
    | (with_reducible apply State.jobFatal_keeps)
    | (with_reducible refine KeepsO.next ?_)
    | split

theorem execAckCredit_keeps {vs : List View} {u₀ : State} {p : Port} {f : Frame} {s : State} (hk : Keeps vs u₀ s) (hm : [.tens, .counters, .fabric, .mgmt, .power] ⊆ vs) : KeepsO vs u₀ (execAckCredit p f s) := by
  refine KeepsO.then hk hm ?_
  clear hk hm
  unfold execAckCredit
  try dsimp -proj only
  repeat' first
    | (with_reducible exact Keeps.refl _ _)
    | (with_reducible assumption)
    | decide
    | (with_reducible apply State.takeBack_keeps)
    | (with_reducible apply State.checkFrame_keeps)
    | (with_reducible refine Keeps.ite ?_ ?_)
    | (with_reducible refine KeepsO.next ?_)

theorem State.sendAck_keeps {vs : List View} {u₀ : State} {s : State} {t ch peer : Nat} (hk : Keeps vs u₀ s) (hm : [.tens, .counters, .fabric, .power] ⊆ vs) : Keeps vs u₀ (State.sendAck s t ch peer) := by
  refine hk.then hm ?_
  clear hk hm
  unfold State.sendAck
  try dsimp -proj only
  repeat' first
    | (with_reducible exact Keeps.refl _ _)
    | (with_reducible assumption)
    | (with_reducible exact Or.inl rfl)
    | exact Or.inr (by decide)
    | decide
    | (with_reducible apply State.modChan_keeps)
    | (with_reducible apply State.emitFrame_keeps)
    | (with_reducible apply State.setRecv_keeps)
    | (with_reducible refine Keeps.ite ?_ ?_)

theorem execAckSend_keeps {vs : List View} {u₀ : State} {t : Ten} {chan : Chan} {s : State} (hk : Keeps vs u₀ s) (hm : [.tens, .counters, .fabric, .power] ⊆ vs) : KeepsO vs u₀ (execAckSend t chan s) := by
  refine KeepsO.then hk hm ?_
  clear hk hm
  unfold execAckSend
  try dsimp -proj only
  repeat' first
    | (with_reducible exact Keeps.refl _ _)
    | (with_reducible assumption)
    | decide
    | (with_reducible apply State.sendAck_keeps)
    | (with_reducible refine Keeps.foldl ?_ (fun _ _ _ => ?_))
    | (with_reducible refine Keeps.foldlFst ?_ (fun _ _ _ => ?_))
    | (with_reducible refine KeepsO.next ?_)

theorem execNak_keeps {vs : List View} {u₀ : State} {p : Port} {f : Frame} {s : State} (hk : Keeps vs u₀ s) (hm : [.tens, .counters, .fabric, .mgmt, .power] ⊆ vs) : KeepsO vs u₀ (execNak p f s) := by
  refine KeepsO.then hk hm ?_
  clear hk hm
  unfold execNak
  try dsimp -proj only
  repeat' first
    | (with_reducible exact Keeps.refl _ _)
    | (with_reducible assumption)
    | (with_reducible exact Or.inl rfl)
    | exact Or.inr (by decide)
    | decide
    | (with_reducible apply State.count_keeps)
    | (with_reducible apply State.goBack_keeps)
    | (with_reducible apply State.checkFrame_keeps)
    | (with_reducible refine Keeps.ite ?_ ?_)
    | (with_reducible refine KeepsO.next ?_)
    | (with_reducible refine KeepsO.ite ?_ ?_)
    | split

theorem execRetryTimeout_keeps {vs : List View} {u₀ : State} {t : Ten} {chan : Chan} {s : State} (hk : Keeps vs u₀ s) (hm : [.cs, .mbox, .merges, .words, .tens, .counters, .fabric, .time, .mgmt, .power] ⊆ vs) : KeepsO vs u₀ (execRetryTimeout t chan s) := by
  refine KeepsO.then hk hm ?_
  clear hk hm
  unfold execRetryTimeout
  try dsimp -proj only
  repeat' first
    | (with_reducible exact Keeps.refl _ _)
    | (with_reducible assumption)
    | (with_reducible exact Or.inl rfl)
    | exact Or.inr (by decide)
    | decide
    | (with_reducible apply State.setSend_keeps)
    | (with_reducible apply State.goBack_keeps)
    | (with_reducible apply State.passTo_keeps)
    | (with_reducible apply State.jobFatal_keeps)
    | (with_reducible apply State.failOver_keeps)
    | (with_reducible refine Keeps.ite ?_ ?_)
    | (with_reducible refine KeepsO.next ?_)
    | (with_reducible refine KeepsO.ite ?_ ?_)
    | split

theorem execFcsDrop_keeps {vs : List View} {u₀ : State} {p : Port} {s : State} (hk : Keeps vs u₀ s) (hm : [.counters] ⊆ vs) : KeepsO vs u₀ (execFcsDrop p s) := by
  refine KeepsO.then hk hm ?_
  clear hk hm
  unfold execFcsDrop
  try dsimp -proj only
  repeat' first
    | (with_reducible exact Keeps.refl _ _)
    | (with_reducible assumption)
    | decide
    | (with_reducible apply State.count_keeps)
    | (with_reducible refine KeepsO.next ?_)

theorem execForeignFrame_keeps {vs : List View} {u₀ : State} {p : Port} {s : State} (hk : Keeps vs u₀ s) (hm : [.counters] ⊆ vs) : KeepsO vs u₀ (execForeignFrame p s) := by
  refine KeepsO.then hk hm ?_
  clear hk hm
  unfold execForeignFrame
  try dsimp -proj only
  repeat' first
    | (with_reducible exact Keeps.refl _ _)
    | (with_reducible assumption)
    | decide
    | (with_reducible apply State.count_keeps)
    | (with_reducible refine KeepsO.next ?_)

theorem execPfcFrame_keeps {vs : List View} {u₀ : State} {p : Port} {pause : BitVec 8} {s : State} (hk : Keeps vs u₀ s) (hm : [.counters, .fabric] ⊆ vs) : KeepsO vs u₀ (execPfcFrame p pause s) := by
  refine KeepsO.then hk hm ?_
  clear hk hm
  unfold execPfcFrame
  try dsimp -proj only
  repeat' first
    | (with_reducible exact Keeps.refl _ _)
    | (with_reducible assumption)
    | (with_reducible exact Or.inl rfl)
    | exact Or.inr (by decide)
    | decide
    | (with_reducible apply State.count_keeps)
    | (with_reducible apply State.modPort_keeps)
    | (with_reducible refine KeepsO.next ?_)

theorem execBadHeader_keeps {vs : List View} {u₀ : State} {p : Port} {f : Frame} {s : State} (hk : Keeps vs u₀ s) (hm : [.tens, .counters, .power] ⊆ vs) : KeepsO vs u₀ (execBadHeader p f s) := by
  refine KeepsO.then hk hm ?_
  clear hk hm
  unfold execBadHeader
  try dsimp -proj only
  repeat' first
    | (with_reducible exact Keeps.refl _ _)
    | (with_reducible assumption)
    | decide
    | (with_reducible apply State.count_keeps)
    | (with_reducible apply State.chargeFrame_keeps)
    | (with_reducible refine Keeps.ite ?_ ?_)
    | (with_reducible refine KeepsO.next ?_)

end Sys2Proof.Machine
end

