-- ==== Sys2Proof/Laws/EscrowKeeps.lean ====
section
/-! SUPPORT. What each operation of Machine/Escrow.lean may change: the parts named, the queue and the identity never, and no canonical form. -/

namespace Sys2Proof.Machine

open Sys2Proof

theorem State.writePage_keeps {vs : List View} {u₀ : State} {s : State} {k : Nat} {p : PageImage} (hk : Keeps vs u₀ s) (hm : [.cs, .mbox, .words] ⊆ vs) : Keeps vs u₀ (State.writePage s k p) := by
  refine hk.then hm ?_
  clear hk hm
  unfold State.writePage
  try dsimp -proj only
  repeat' first
    | (with_reducible exact Keeps.refl _ _)
    | (with_reducible assumption)
    | decide
    | (with_reducible apply State.writeWord_keeps)
    | (with_reducible refine Keeps.foldl ?_ (fun _ _ _ => ?_))

theorem State.writePlainBlock_keeps {vs : List View} {u₀ : State} {s : State} {k : Nat} {ds : List (BitVec 256)} (hk : Keeps vs u₀ s) (hm : [.cs, .mbox, .hall, .words] ⊆ vs) : Keeps vs u₀ (State.writePlainBlock s k ds) := by
  refine hk.then hm ?_
  clear hk hm
  unfold State.writePlainBlock
  try dsimp -proj only
  repeat' first
    | (with_reducible exact Keeps.refl _ _)
    | (with_reducible assumption)
    | decide
    | (with_reducible apply State.writeWord_keeps)
    | (with_reducible apply State.writeHall_keeps)
    | (with_reducible refine Keeps.foldl ?_ (fun _ _ _ => ?_))

theorem State.chargePages_keeps {vs : List View} {u₀ : State} {s : State} {t st r n m : Nat} (hk : Keeps vs u₀ s) (hm : [.tens, .power] ⊆ vs) : Keeps vs u₀ (State.chargePages s t st r n m) := by
  refine hk.then hm ?_
  clear hk hm
  unfold State.chargePages
  try dsimp -proj only
  repeat' first
    | (with_reducible exact Keeps.refl _ _)
    | (with_reducible assumption)
    | decide
    | (with_reducible apply State.charge_keeps)

theorem State.modGens_keeps {vs : List View} {u₀ : State} {s : State} {t : Nat} {f : List Generation → List Generation} (hk : Keeps vs u₀ s) (hm : [.tens] ⊆ vs) : Keeps vs u₀ (State.modGens s t f) := by
  refine hk.then hm ?_
  clear hk hm
  unfold State.modGens
  try dsimp -proj only
  repeat' first
    | (with_reducible exact Keeps.refl _ _)
    | (with_reducible assumption)
    | (with_reducible exact Or.inl rfl)
    | exact Or.inr (by decide)
    | decide
    | (with_reducible apply State.modTen_keeps)

theorem State.modGen_keeps {vs : List View} {u₀ : State} {s : State} {t : Nat} {step : BitVec 32} {f : Generation → Generation} (hk : Keeps vs u₀ s) (hm : [.tens] ⊆ vs) : Keeps vs u₀ (State.modGen s t step f) := by
  refine hk.then hm ?_
  clear hk hm
  unfold State.modGen
  try dsimp -proj only
  repeat' first
    | (with_reducible exact Keeps.refl _ _)
    | (with_reducible assumption)
    | decide
    | (with_reducible apply State.modGens_keeps)

theorem State.finishGen_keeps {vs : List View} {u₀ : State} {s : State} {t : Nat} {step : BitVec 32} (hk : Keeps vs u₀ s) (hm : [.cs, .mbox, .hall, .words, .tens] ⊆ vs) : Keeps vs u₀ (State.finishGen s t step) := by
  refine hk.then hm ?_
  clear hk hm
  unfold State.finishGen
  try dsimp -proj only
  repeat' first
    | (with_reducible exact Keeps.refl _ _)
    | (with_reducible assumption)
    | (with_reducible exact Or.inl rfl)
    | exact Or.inr (by decide)
    | decide
    | (with_reducible apply State.writePlainBlock_keeps)
    | (with_reducible apply State.modGen_keeps)
    | (with_reducible refine Keeps.foldl ?_ (fun _ _ _ => ?_))
    | (with_reducible refine Keeps.foldlFst ?_ (fun _ _ _ => ?_))
    | (with_reducible refine Keeps.ite ?_ ?_)
    | (with_reducible refine Keeps.upd ?_ rfl rfl ?_ ?_ ?_ ?_ ?_ ?_ ?_ ?_ ?_ ?_ ?_ ?_ ?_; rotate_left; fail_if_success (iterate 13 (with_reducible exact Or.inl rfl)))
    | split

theorem State.markCopied_keeps {vs : List View} {u₀ : State} {s : State} {t : Nat} {step : BitVec 32} {m : Nat} (hk : Keeps vs u₀ s) (hm : [.cs, .mbox, .hall, .words, .tens] ⊆ vs) : Keeps vs u₀ (State.markCopied s t step m) := by
  refine hk.then hm ?_
  clear hk hm
  unfold State.markCopied
  try dsimp -proj only
  repeat' first
    | (with_reducible exact Keeps.refl _ _)
    | (with_reducible assumption)
    | (with_reducible exact Or.inl rfl)
    | exact Or.inr (by decide)
    | decide
    | (with_reducible apply State.modGen_keeps)
    | (with_reducible apply State.finishGen_keeps)

theorem State.startCopy_keeps {vs : List View} {u₀ : State} {s : State} {t st m cause : Nat} (hk : Keeps vs u₀ s) (hm : [.tens] ⊆ vs) : Keeps vs u₀ (State.startCopy s t st m cause) := by
  refine hk.then hm ?_
  clear hk hm
  unfold State.startCopy
  try dsimp -proj only
  repeat' first
    | (with_reducible exact Keeps.refl _ _)
    | (with_reducible assumption)
    | (with_reducible exact Or.inl rfl)
    | exact Or.inr (by decide)
    | decide
    | (with_reducible apply State.modTen_keeps)

theorem execEscrowWindowCopy_keeps {vs : List View} {u₀ : State} {t : Ten} {st : Stack} {s : State} (hk : Keeps vs u₀ s) (hm : [.tens] ⊆ vs) : KeepsO vs u₀ (execEscrowWindowCopy t st s) := by
  refine KeepsO.then hk hm ?_
  clear hk hm
  unfold execEscrowWindowCopy
  try dsimp -proj only
  repeat' first
    | (with_reducible exact Keeps.refl _ _)
    | (with_reducible assumption)
    | (with_reducible exact Or.inl rfl)
    | exact Or.inr (by decide)
    | decide
    | (with_reducible apply State.startCopy_keeps)
    | (with_reducible refine KeepsO.next ?_)
    | split

theorem State.releaseHeld_keeps {vs : List View} {u₀ : State} {s : State} {t st m : Nat} (hk : Keeps vs u₀ s) (hm : [.cs, .mbox, .words, .tens] ⊆ vs) : Keeps vs u₀ (State.releaseHeld s t st m) := by
  refine hk.then hm ?_
  clear hk hm
  unfold State.releaseHeld
  try dsimp -proj only
  repeat' first
    | (with_reducible exact Keeps.refl _ _)
    | (with_reducible assumption)
    | (with_reducible exact Or.inl rfl)
    | exact Or.inr (by decide)
    | decide
    | (with_reducible apply State.modTen_keeps)
    | (with_reducible apply State.writeWord_keeps)
    | (with_reducible apply State.endStall_keeps)
    | (with_reducible refine Keeps.foldl ?_ (fun _ _ _ => ?_))

theorem execEscrowCopyDone_keeps {vs : List View} {u₀ : State} {t : Ten} {st : Stack} {s : State} (hk : Keeps vs u₀ s) (hm : [.cs, .mbox, .hall, .words, .tens, .counters, .power] ⊆ vs) : KeepsO vs u₀ (execEscrowCopyDone t st s) := by
  refine KeepsO.then hk hm ?_
  clear hk hm
  unfold execEscrowCopyDone
  try dsimp -proj only
  repeat' first
    | (with_reducible exact Keeps.refl _ _)
    | (with_reducible assumption)
    | (with_reducible exact Or.inl rfl)
    | exact Or.inr (by decide)
    | decide
    | (with_reducible apply State.countTen_keeps)
    | (with_reducible apply State.modTen_keeps)
    | (with_reducible apply State.writePage_keeps)
    | (with_reducible apply State.chargePages_keeps)
    | (with_reducible apply State.markCopied_keeps)
    | (with_reducible apply State.startCopy_keeps)
    | (with_reducible apply State.releaseHeld_keeps)
    | (with_reducible refine Keeps.foldl ?_ (fun _ _ _ => ?_))
    | (with_reducible refine Keeps.foldlFst ?_ (fun _ _ _ => ?_))
    | (with_reducible refine Keeps.ite ?_ ?_)
    | (with_reducible refine KeepsO.next ?_)
    | (with_reducible refine KeepsO.ite ?_ ?_)
    | (with_reducible refine Keeps.upd ?_ rfl rfl ?_ ?_ ?_ ?_ ?_ ?_ ?_ ?_ ?_ ?_ ?_ ?_ ?_; rotate_left; fail_if_success (iterate 13 (with_reducible exact Or.inl rfl)))
    | split

theorem State.writeState_keeps {vs : List View} {u₀ : State} {s : State} {t : Nat} (hk : Keeps vs u₀ s) (hm : [.cs, .mbox, .hall, .words, .tens] ⊆ vs) : Keeps vs u₀ (State.writeState s t) := by
  refine hk.then hm ?_
  clear hk hm
  unfold State.writeState
  try dsimp -proj only
  repeat' first
    | (with_reducible exact Keeps.refl _ _)
    | (with_reducible assumption)
    | (with_reducible exact Or.inl rfl)
    | exact Or.inr (by decide)
    | decide
    | (with_reducible apply State.writePlainBlock_keeps)
    | (with_reducible apply State.modGen_keeps)
    | (with_reducible apply State.markCopied_keeps)
    | (with_reducible refine Keeps.foldl ?_ (fun _ _ _ => ?_))
    | (with_reducible refine Keeps.foldlFst ?_ (fun _ _ _ => ?_))
    | (with_reducible refine Keeps.upd ?_ rfl rfl ?_ ?_ ?_ ?_ ?_ ?_ ?_ ?_ ?_ ?_ ?_ ?_ ?_; rotate_left; fail_if_success (iterate 13 (with_reducible exact Or.inl rfl)))
    | split

theorem State.sendPage_keeps {vs : List View} {u₀ : State} {s : State} {t q m : Nat} {k : BitVec 8} {p : PageImage} (hk : Keeps vs u₀ s) (hm : [.tens, .counters, .fabric, .power] ⊆ vs) : Keeps vs u₀ (State.sendPage s t q m k p) := by
  refine hk.then hm ?_
  clear hk hm
  unfold State.sendPage
  try dsimp -proj only
  repeat' first
    | (with_reducible exact Keeps.refl _ _)
    | (with_reducible assumption)
    | (with_reducible exact Or.inl rfl)
    | exact Or.inr (by decide)
    | decide
    | (with_reducible apply State.push_keeps)
    | (with_reducible refine Keeps.foldl ?_ (fun _ _ _ => ?_))

theorem State.sendNext_keeps {vs : List View} {u₀ : State} {s : State} {t st : Nat} {g : Generation} (hk : Keeps vs u₀ s) (hm : [.tens, .counters, .fabric, .power] ⊆ vs) : Keeps vs u₀ (State.sendNext s t st g) := by
  refine hk.then hm ?_
  clear hk hm
  unfold State.sendNext
  try dsimp -proj only
  repeat' first
    | (with_reducible exact Keeps.refl _ _)
    | (with_reducible assumption)
    | (with_reducible exact Or.inl rfl)
    | exact Or.inr (by decide)
    | decide
    | (with_reducible apply State.countTen_keeps)
    | (with_reducible apply State.chargePages_keeps)
    | (with_reducible apply State.modGen_keeps)
    | (with_reducible apply State.sendPage_keeps)
    | (with_reducible refine Keeps.foldl ?_ (fun _ _ _ => ?_))
    | (with_reducible refine Keeps.foldlFst ?_ (fun _ _ _ => ?_))
    | (with_reducible refine Keeps.ite ?_ ?_)
    | split

theorem execEscrowDrain_keeps {vs : List View} {u₀ : State} {t : Ten} {st : Stack} {s : State} (hk : Keeps vs u₀ s) (hm : [.tens, .counters, .fabric, .power] ⊆ vs) : KeepsO vs u₀ (execEscrowDrain t st s) := by
  refine KeepsO.then hk hm ?_
  clear hk hm
  unfold execEscrowDrain
  try dsimp -proj only
  repeat' first
    | (with_reducible exact Keeps.refl _ _)
    | (with_reducible assumption)
    | (with_reducible exact Or.inl rfl)
    | exact Or.inr (by decide)
    | decide
    | (with_reducible apply State.countTen_keeps)
    | (with_reducible apply State.chargePages_keeps)
    | (with_reducible apply State.modGen_keeps)
    | (with_reducible apply State.startCopy_keeps)
    | (with_reducible apply State.sendPage_keeps)
    | (with_reducible apply State.sendNext_keeps)
    | (with_reducible refine Keeps.foldl ?_ (fun _ _ _ => ?_))
    | (with_reducible refine Keeps.foldlFst ?_ (fun _ _ _ => ?_))
    | (with_reducible refine Keeps.ite ?_ ?_)
    | (with_reducible refine KeepsO.next ?_)
    | (with_reducible refine KeepsO.ite ?_ ?_)
    | split

theorem State.foldBlock_keeps {vs : List View} {u₀ : State} {s : State} {t : Nat} {g : Generation} {r i b : Nat} {ws : List (BitVec 256)} {po : Bool} {h : BitVec 64} (hk : Keeps vs u₀ s) (hm : [.cs, .mbox, .hall, .words, .tens] ⊆ vs) : Keeps vs u₀ (State.foldBlock s t g r i b ws po h) := by
  refine hk.then hm ?_
  clear hk hm
  unfold State.foldBlock
  try dsimp -proj only
  repeat' first
    | (with_reducible exact Keeps.refl _ _)
    | (with_reducible assumption)
    | (with_reducible exact Or.inl rfl)
    | exact Or.inr (by decide)
    | decide
    | (with_reducible apply State.writeWord_keeps)
    | (with_reducible apply State.writeHall_keeps)
    | (with_reducible apply State.modGen_keeps)
    | (with_reducible refine Keeps.foldl ?_ (fun _ _ _ => ?_))

theorem State.sendAccept_keeps {vs : List View} {u₀ : State} {s : State} {t q m : Nat} {step : BitVec 32} (hk : Keeps vs u₀ s) (hm : [.tens, .counters, .fabric, .power] ⊆ vs) : Keeps vs u₀ (State.sendAccept s t q m step) := by
  refine hk.then hm ?_
  clear hk hm
  unfold State.sendAccept
  try dsimp -proj only
  repeat' first
    | (with_reducible exact Keeps.refl _ _)
    | (with_reducible assumption)
    | decide
    | (with_reducible apply State.push_keeps)

theorem State.takeRebuild_keeps {vs : List View} {u₀ : State} {s : State} {t : Nat} {g : Generation} {q : Nat} {ws : List (BitVec 256)} {h : BitVec 64} (hk : Keeps vs u₀ s) (hm : [.cs, .mbox, .hall, .words, .tens] ⊆ vs) : Keeps vs u₀ (State.takeRebuild s t g q ws h) := by
  refine hk.then hm ?_
  clear hk hm
  unfold State.takeRebuild
  try dsimp -proj only
  repeat' first
    | (with_reducible exact Keeps.refl _ _)
    | (with_reducible assumption)
    | (with_reducible exact Or.inl rfl)
    | exact Or.inr (by decide)
    | decide
    | (with_reducible apply State.writeWord_keeps)
    | (with_reducible apply State.modGen_keeps)
    | (with_reducible apply State.foldBlock_keeps)
    | (with_reducible refine Keeps.foldl ?_ (fun _ _ _ => ?_))
    | (with_reducible refine Keeps.foldlFst ?_ (fun _ _ _ => ?_))
    | (with_reducible refine Keeps.ite ?_ ?_)

theorem State.takePart_keeps {vs : List View} {u₀ : State} {s : State} {t : Nat} {f : Frame} (hk : Keeps vs u₀ s) (hm : [.cs, .mbox, .hall, .words, .tens, .counters, .fabric, .power] ⊆ vs) : Keeps vs u₀ (State.takePart s t f) := by
  refine hk.then hm ?_
  clear hk hm
  unfold State.takePart
  try dsimp -proj only
  repeat' first
    | (with_reducible exact Keeps.refl _ _)
    | (with_reducible assumption)
    | (with_reducible exact Or.inl rfl)
    | exact Or.inr (by decide)
    | decide
    | (with_reducible apply State.countTen_keeps)
    | (with_reducible apply State.charge_keeps)
    | (with_reducible apply State.modGen_keeps)
    | (with_reducible apply State.modChan_keeps)
    | (with_reducible apply State.finishGen_keeps)
    | (with_reducible apply State.foldBlock_keeps)
    | (with_reducible apply State.sendAccept_keeps)
    | (with_reducible apply State.takeRebuild_keeps)
    | (with_reducible refine Keeps.ite ?_ ?_)
    | split

theorem execEscrowParityParcel_keeps {vs : List View} {u₀ : State} {p : Port} {f : Frame} {s : State} (hk : Keeps vs u₀ s) (hm : [.cs, .mbox, .hall, .words, .tens, .counters, .fabric, .mgmt, .power] ⊆ vs) : KeepsO vs u₀ (execEscrowParityParcel p f s) := by
  refine KeepsO.then hk hm ?_
  clear hk hm
  unfold execEscrowParityParcel
  try dsimp -proj only
  repeat' first
    | (with_reducible exact Keeps.refl _ _)
    | (with_reducible assumption)
    | decide
    | (with_reducible apply State.receive_keeps)
    | (with_reducible apply State.decodePayload_keeps)
    | (with_reducible apply State.takePart_keeps)
    | (with_reducible refine KeepsO.next ?_)
    | (with_reducible refine KeepsO.ite ?_ ?_)

theorem State.takeParts_keeps {vs : List View} {u₀ : State} {s : State} {t : Nat} (hk : Keeps vs u₀ s) (hm : [.cs, .mbox, .hall, .words, .tens, .counters, .fabric, .power] ⊆ vs) : Keeps vs u₀ (State.takeParts s t) := by
  refine hk.then hm ?_
  clear hk hm
  unfold State.takeParts
  try dsimp -proj only
  repeat' first
    | (with_reducible exact Keeps.refl _ _)
    | (with_reducible assumption)
    | decide
    | (with_reducible apply State.modChan_keeps)
    | (with_reducible apply State.takePart_keeps)
    | (with_reducible refine Keeps.foldl ?_ (fun _ _ _ => ?_))

theorem State.sealGen_keeps {vs : List View} {u₀ : State} {s : State} {t : Nat} {pos : CoursePos} {c : Nat} (hk : Keeps vs u₀ s) (hm : [.cs, .mbox, .hall, .words, .tens, .counters, .fabric, .power] ⊆ vs) : Keeps vs u₀ (State.sealGen s t pos c) := by
  refine hk.then hm ?_
  clear hk hm
  unfold State.sealGen
  try dsimp -proj only
  repeat' first
    | (with_reducible exact Keeps.refl _ _)
    | (with_reducible assumption)
    | (with_reducible exact Or.inl rfl)
    | exact Or.inr (by decide)
    | decide
    | (with_reducible apply State.countTen_keeps)
    | (with_reducible apply State.modGens_keeps)
    | (with_reducible apply State.finishGen_keeps)
    | (with_reducible apply State.takeParts_keeps)
    | (with_reducible refine Keeps.ite ?_ ?_)
    | (with_reducible refine Keeps.upd ?_ rfl rfl ?_ ?_ ?_ ?_ ?_ ?_ ?_ ?_ ?_ ?_ ?_ ?_ ?_; rotate_left; fail_if_success (iterate 13 (with_reducible exact Or.inl rfl)))
    | split

theorem execEscrowAccept_keeps {vs : List View} {u₀ : State} {p : Port} {f : Frame} {s : State} (hk : Keeps vs u₀ s) (hm : [.cs, .mbox, .hall, .words, .tens, .counters, .fabric, .mgmt, .power] ⊆ vs) : KeepsO vs u₀ (execEscrowAccept p f s) := by
  refine KeepsO.then hk hm ?_
  clear hk hm
  unfold execEscrowAccept
  try dsimp -proj only
  repeat' first
    | (with_reducible exact Keeps.refl _ _)
    | (with_reducible assumption)
    | (with_reducible exact Or.inl rfl)
    | exact Or.inr (by decide)
    | decide
    | (with_reducible apply State.receive_keeps)
    | (with_reducible apply State.decodePayload_keeps)
    | (with_reducible apply State.modGen_keeps)
    | (with_reducible apply State.finishGen_keeps)
    | (with_reducible refine Keeps.ite ?_ ?_)
    | (with_reducible refine KeepsO.next ?_)
    | (with_reducible refine KeepsO.ite ?_ ?_)

theorem State.restoreLedger_keeps {vs : List View} {u₀ : State} {s : State} {t : Nat} {g : Generation} (hk : Keeps vs u₀ s) (hm : [.stores] ⊆ vs) : Keeps vs u₀ (State.restoreLedger s t g) := by
  refine hk.then hm ?_
  clear hk hm
  unfold State.restoreLedger
  try dsimp -proj only
  repeat' first
    | (with_reducible exact Keeps.refl _ _)
    | (with_reducible assumption)
    | (with_reducible exact Or.inl rfl)
    | exact Or.inr (by decide)
    | decide
    | (with_reducible refine Keeps.foldl ?_ (fun _ _ _ => ?_))
    | (with_reducible refine Keeps.foldlFst ?_ (fun _ _ _ => ?_))
    | (with_reducible refine Keeps.ite ?_ ?_)
    | (with_reducible refine Keeps.upd ?_ rfl rfl ?_ ?_ ?_ ?_ ?_ ?_ ?_ ?_ ?_ ?_ ?_ ?_ ?_; rotate_left; fail_if_success (iterate 13 (with_reducible exact Or.inl rfl)))

theorem State.clearWatches_keeps {vs : List View} {u₀ : State} {s : State} {t : Nat} (hk : Keeps vs u₀ s) (hm : [.stores] ⊆ vs) : Keeps vs u₀ (State.clearWatches s t) := by
  refine hk.then hm ?_
  clear hk hm
  unfold State.clearWatches
  try dsimp -proj only
  repeat' first
    | (with_reducible exact Keeps.refl _ _)
    | (with_reducible assumption)
    | (with_reducible exact Or.inl rfl)
    | exact Or.inr (by decide)
    | decide
    | (with_reducible refine Keeps.upd ?_ rfl rfl ?_ ?_ ?_ ?_ ?_ ?_ ?_ ?_ ?_ ?_ ?_ ?_ ?_; rotate_left; fail_if_success (iterate 13 (with_reducible exact Or.inl rfl)))

theorem State.restoreGen_keeps {vs : List View} {u₀ : State} {s : State} {t : Nat} {g : Generation} (hk : Keeps vs u₀ s) (hm : [.cs, .mbox, .words, .stores, .tens, .counters, .power] ⊆ vs) : Keeps vs u₀ (State.restoreGen s t g) := by
  refine hk.then hm ?_
  clear hk hm
  unfold State.restoreGen
  try dsimp -proj only
  repeat' first
    | (with_reducible exact Keeps.refl _ _)
    | (with_reducible assumption)
    | (with_reducible exact Or.inl rfl)
    | exact Or.inr (by decide)
    | decide
    | (with_reducible apply State.countTen_keeps)
    | (with_reducible apply State.modTen_keeps)
    | (with_reducible apply State.writePage_keeps)
    | (with_reducible apply State.chargePages_keeps)
    | (with_reducible apply State.restoreLedger_keeps)
    | (with_reducible apply State.clearWatches_keeps)
    | (with_reducible refine Keeps.foldl ?_ (fun _ _ _ => ?_))
    | (with_reducible refine Keeps.foldlFst ?_ (fun _ _ _ => ?_))
    | (with_reducible refine Keeps.ite ?_ ?_)
    | (with_reducible refine Keeps.upd ?_ rfl rfl ?_ ?_ ?_ ?_ ?_ ?_ ?_ ?_ ?_ ?_ ?_ ?_ ?_; rotate_left; fail_if_success (iterate 13 (with_reducible exact Or.inl rfl)))
    | split

end Sys2Proof.Machine
end

