-- ==== Sys2Proof/Laws/NoticesKeeps.lean ====
section
/-! SUPPORT. What each operation of Machine/Notices.lean may change: the parts named, the queue and the identity never, and no canonical form. -/

namespace Sys2Proof.Machine

open Sys2Proof

theorem State.setBox_keeps {vs : List View} {u₀ : State} {s : State} {fn : Nat} {m : Mailbox} (hk : Keeps vs u₀ s) (hm : [.mgmt] ⊆ vs) : Keeps vs u₀ (State.setBox s fn m) := by
  refine hk.then hm ?_
  clear hk hm
  unfold State.setBox
  try dsimp -proj only
  repeat' first
    | (with_reducible exact Keeps.refl _ _)
    | (with_reducible assumption)
    | (with_reducible exact Or.inl rfl)
    | exact Or.inr (by decide)
    | decide
    | (with_reducible refine Keeps.upd ?_ rfl rfl ?_ ?_ ?_ ?_ ?_ ?_ ?_ ?_ ?_ ?_ ?_ ?_ ?_; rotate_left; fail_if_success (iterate 13 (with_reducible exact Or.inl rfl)))

theorem State.respond_keeps {vs : List View} {u₀ : State} {s : State} {fn : Nat} {w : BitVec 256} (hk : Keeps vs u₀ s) (hm : [.mgmt] ⊆ vs) : Keeps vs u₀ (State.respond s fn w) := by
  refine hk.then hm ?_
  clear hk hm
  unfold State.respond
  try dsimp -proj only
  repeat' first
    | (with_reducible exact Keeps.refl _ _)
    | (with_reducible assumption)
    | (with_reducible exact Or.inl rfl)
    | exact Or.inr (by decide)
    | decide
    | (with_reducible apply State.raiseInt_keeps)
    | (with_reducible apply State.setBox_keeps)
    | (with_reducible refine Keeps.ite ?_ ?_)

theorem State.notice_keeps {vs : List View} {u₀ : State} {s : State} {fn kind payload : Nat} (hk : Keeps vs u₀ s) (hm : [.mgmt] ⊆ vs) : Keeps vs u₀ (State.notice s fn kind payload) := by
  refine hk.then hm ?_
  clear hk hm
  unfold State.notice
  try dsimp -proj only
  repeat' first
    | (with_reducible exact Keeps.refl _ _)
    | (with_reducible assumption)
    | (with_reducible exact Or.inl rfl)
    | exact Or.inr (by decide)
    | decide
    | (with_reducible apply State.dayChip_keeps)
    | (with_reducible apply State.raiseInt_keeps)
    | (with_reducible apply State.setBox_keeps)
    | (with_reducible refine Keeps.ite ?_ ?_)

theorem State.answer_keeps {vs : List View} {u₀ : State} {s : State} {r : Req} {kind status payload : Nat} (hk : Keeps vs u₀ s) (hm : [.mgmt] ⊆ vs) : Keeps vs u₀ (State.answer s r kind status payload) := by
  refine hk.then hm ?_
  clear hk hm
  unfold State.answer
  try dsimp -proj only
  repeat' first
    | (with_reducible exact Keeps.refl _ _)
    | (with_reducible assumption)
    | decide
    | (with_reducible apply State.respond_keeps)

end Sys2Proof.Machine
end

