-- ==== Sys2Proof/Laws/CloseKeeps.lean ====
section
/-! SUPPORT. What each operation of Machine/Close.lean may change: the parts named, the queue and the identity never, and no canonical form. -/

namespace Sys2Proof.Machine

open Sys2Proof

theorem State.takeOne_keeps {vs : List View} {u₀ : State} {s : State} {t e : Nat} {logged : List Nat} (hk : Keeps vs u₀ s) (hm : [.stores, .counters, .mgmt] ⊆ vs) : Keeps vs u₀ (State.takeOne s t e logged).1 := by
  refine hk.then hm ?_
  clear hk hm
  unfold State.takeOne
  try dsimp -proj only
  repeat' first
    | (with_reducible exact Keeps.refl _ _)
    | (with_reducible assumption)
    | (with_reducible exact Or.inl rfl)
    | exact Or.inr (by decide)
    | decide
    | (with_reducible apply State.countTen_keeps)
    | (with_reducible apply State.dayTen_keeps)
    | (with_reducible refine Keeps.ite ?_ ?_)
    | (with_reducible refine Keeps.upd ?_ rfl rfl ?_ ?_ ?_ ?_ ?_ ?_ ?_ ?_ ?_ ?_ ?_ ?_ ?_; rotate_left; fail_if_success (iterate 13 (with_reducible exact Or.inl rfl)))
    | split

theorem State.takeLedger_keeps {vs : List View} {u₀ : State} {s : State} {t : Nat} (hk : Keeps vs u₀ s) (hm : [.stores, .counters, .mgmt] ⊆ vs) : Keeps vs u₀ (State.takeLedger s t) := by
  refine hk.then hm ?_
  clear hk hm
  unfold State.takeLedger
  try dsimp -proj only
  repeat' first
    | (with_reducible exact Keeps.refl _ _)
    | (with_reducible assumption)
    | decide
    | (with_reducible apply State.takeOne_keeps)
    | (with_reducible refine Keeps.foldl ?_ (fun _ _ _ => ?_))
    | (with_reducible refine Keeps.foldlFst ?_ (fun _ _ _ => ?_))

theorem State.clearSteps_keeps {vs : List View} {u₀ : State} {s : State} {t : Nat} (hk : Keeps vs u₀ s) (hm : [.stores] ⊆ vs) : Keeps vs u₀ (State.clearSteps s t) := by
  refine hk.then hm ?_
  clear hk hm
  unfold State.clearSteps
  try dsimp -proj only
  repeat' first
    | (with_reducible exact Keeps.refl _ _)
    | (with_reducible assumption)
    | (with_reducible exact Or.inl rfl)
    | exact Or.inr (by decide)
    | decide
    | (with_reducible refine Keeps.foldl ?_ (fun _ _ _ => ?_))
    | (with_reducible refine Keeps.foldlFst ?_ (fun _ _ _ => ?_))
    | (with_reducible refine Keeps.upd ?_ rfl rfl ?_ ?_ ?_ ?_ ?_ ?_ ?_ ?_ ?_ ?_ ?_ ?_ ?_; rotate_left; fail_if_success (iterate 13 (with_reducible exact Or.inl rfl)))

theorem State.streakEvents_keeps {vs : List View} {u₀ : State} {s : State} {t i old : Nat} {k : Streak} {code : BitVec 8} {off bit : Nat} (hk : Keeps vs u₀ s) (hm : [.counters, .mgmt] ⊆ vs) : Keeps vs u₀ (State.streakEvents s t i old k code off bit) := by
  refine hk.then hm ?_
  clear hk hm
  unfold State.streakEvents
  try dsimp -proj only
  repeat' first
    | (with_reducible exact Keeps.refl _ _)
    | (with_reducible assumption)
    | decide
    | (with_reducible apply State.countTen_keeps)
    | (with_reducible apply State.dayTen_keeps)
    | (with_reducible apply State.raiseTen_keeps)
    | (with_reducible refine Keeps.ite ?_ ?_)

theorem State.takeWatches_keeps {vs : List View} {u₀ : State} {s : State} {t : Nat} (hk : Keeps vs u₀ s) (hm : [.stores, .counters, .fabric, .mgmt] ⊆ vs) : Keeps vs u₀ (State.takeWatches s t) := by
  refine hk.then hm ?_
  clear hk hm
  unfold State.takeWatches
  try dsimp -proj only
  repeat' first
    | (with_reducible exact Keeps.refl _ _)
    | (with_reducible assumption)
    | (with_reducible exact Or.inl rfl)
    | exact Or.inr (by decide)
    | decide
    | (with_reducible apply State.assayCores_keeps)
    | (with_reducible apply State.streakEvents_keeps)
    | (with_reducible refine Keeps.foldl ?_ (fun _ _ _ => ?_))
    | (with_reducible refine Keeps.foldlFst ?_ (fun _ _ _ => ?_))
    | (with_reducible refine Keeps.ite ?_ ?_)
    | (with_reducible refine Keeps.upd ?_ rfl rfl ?_ ?_ ?_ ?_ ?_ ?_ ?_ ?_ ?_ ?_ ?_ ?_ ?_; rotate_left; fail_if_success (iterate 13 (with_reducible exact Or.inl rfl)))

theorem State.clearWatchSteps_keeps {vs : List View} {u₀ : State} {s : State} {t : Nat} (hk : Keeps vs u₀ s) (hm : [.stores] ⊆ vs) : Keeps vs u₀ (State.clearWatchSteps s t) := by
  refine hk.then hm ?_
  clear hk hm
  unfold State.clearWatchSteps
  try dsimp -proj only
  repeat' first
    | (with_reducible exact Keeps.refl _ _)
    | (with_reducible assumption)
    | (with_reducible exact Or.inl rfl)
    | exact Or.inr (by decide)
    | decide
    | (with_reducible refine Keeps.foldl ?_ (fun _ _ _ => ?_))
    | (with_reducible refine Keeps.foldlFst ?_ (fun _ _ _ => ?_))
    | (with_reducible refine Keeps.upd ?_ rfl rfl ?_ ?_ ?_ ?_ ?_ ?_ ?_ ?_ ?_ ?_ ?_ ?_ ?_; rotate_left; fail_if_success (iterate 13 (with_reducible exact Or.inl rfl)))

theorem State.nextStep_keeps {vs : List View} {u₀ : State} {s : State} {t : Nat} (hk : Keeps vs u₀ s) (hm : [.tens, .mgmt] ⊆ vs) : Keeps vs u₀ (State.nextStep s t) := by
  refine hk.then hm ?_
  clear hk hm
  unfold State.nextStep
  try dsimp -proj only
  repeat' first
    | (with_reducible exact Keeps.refl _ _)
    | (with_reducible assumption)
    | (with_reducible exact Or.inl rfl)
    | exact Or.inr (by decide)
    | decide
    | (with_reducible apply State.modTen_keeps)
    | (with_reducible apply State.dayTen_keeps)
    | (with_reducible refine Keeps.ite ?_ ?_)

theorem State.applyTake_keeps {vs : List View} {u₀ : State} {s : State} {t : Nat} {pos : CoursePos} (hk : Keeps vs u₀ s) (hm : [.cs, .mbox, .hall, .words, .stores, .tens, .counters, .fabric, .mgmt, .power] ⊆ vs) : Keeps vs u₀ (State.applyTake s t pos) := by
  refine hk.then hm ?_
  clear hk hm
  unfold State.applyTake
  try dsimp -proj only
  repeat' first
    | (with_reducible exact Keeps.refl _ _)
    | (with_reducible assumption)
    | (with_reducible exact Or.inl rfl)
    | exact Or.inr (by decide)
    | decide
    | (with_reducible apply State.modTen_keeps)
    | (with_reducible apply State.jobError_keeps)
    | (with_reducible apply State.sealGen_keeps)
    | (with_reducible apply State.takeLedger_keeps)
    | (with_reducible apply State.takeWatches_keeps)
    | (with_reducible apply State.nextStep_keeps)
    | (with_reducible apply State.apply_keeps)
    | (with_reducible refine Keeps.ite ?_ ?_)

end Sys2Proof.Machine
end

