-- ==== Sys2Proof/Laws/RecoveryKeeps.lean ====
section
/-! SUPPORT. What each operation of Machine/Recovery.lean may change: the parts named, the queue and the identity never, and no canonical form. -/

namespace Sys2Proof.Machine

open Sys2Proof

theorem State.modRecov_keeps {vs : List View} {u₀ : State} {s : State} {t : Nat} {f : Recovery → Recovery} (hk : Keeps vs u₀ s) (hm : [.tens] ⊆ vs) : Keeps vs u₀ (State.modRecov s t f) := by
  refine hk.then hm ?_
  clear hk hm
  unfold State.modRecov
  try dsimp -proj only
  repeat' first
    | (with_reducible exact Keeps.refl _ _)
    | (with_reducible assumption)
    | (with_reducible exact Or.inl rfl)
    | exact Or.inr (by decide)
    | decide
    | (with_reducible apply State.modTen_keeps)

theorem State.openCensus_keeps {vs : List View} {u₀ : State} {s : State} {t : Nat} {c : BitVec 16} (hk : Keeps vs u₀ s) (hm : [.tens] ⊆ vs) : Keeps vs u₀ (State.openCensus s t c) := by
  refine hk.then hm ?_
  clear hk hm
  unfold State.openCensus
  try dsimp -proj only
  repeat' first
    | (with_reducible exact Keeps.refl _ _)
    | (with_reducible assumption)
    | (with_reducible exact Or.inl rfl)
    | exact Or.inr (by decide)
    | decide
    | (with_reducible apply State.modRecov_keeps)
    | (with_reducible refine Keeps.ite ?_ ?_)

theorem State.dropFlight_keeps {vs : List View} {u₀ : State} {s0 : State} {t : Nat} (hk : Keeps vs u₀ s0) (hm : [.desc, .tags, .engines, .busy, .seqs, .reads, .merges, .service] ⊆ vs) : Keeps vs u₀ (State.dropFlight s0 t) := by
  refine hk.then hm ?_
  clear hk hm
  unfold State.dropFlight
  try dsimp -proj only
  repeat' first
    | (with_reducible exact Keeps.refl _ _)
    | (with_reducible assumption)
    | (with_reducible exact Or.inl rfl)
    | exact Or.inr (by decide)
    | decide
    | (with_reducible apply State.restClocks_keeps)
    | (with_reducible refine Keeps.foldl ?_ (fun _ _ _ => ?_))
    | (with_reducible refine Keeps.foldlFst ?_ (fun _ _ _ => ?_))
    | (with_reducible refine Keeps.ite ?_ ?_)
    | (with_reducible refine Keeps.upd ?_ rfl rfl ?_ ?_ ?_ ?_ ?_ ?_ ?_ ?_ ?_ ?_ ?_ ?_ ?_; rotate_left; fail_if_success (iterate 13 (with_reducible exact Or.inl rfl)))
    | ((with_reducible refine Or.inr (?_ : CoresOk _ _ _)); simp +contextual [CoresOk, Cores.wf, memPut_wf, memPuts_wf, memClear_wf, memFilter_wf])
    | ((with_reducible refine Or.inr (?_ : HbmOk _ _ _)); simp +contextual [HbmOk, hbmPut_wf, hbmFilter_wf, hbmClear_wf])

theorem State.stopChip_keeps {vs : List View} {u₀ : State} {s : State} {t : Nat} {e : JobError} (hk : Keeps vs u₀ s) (hm : [.desc, .tags, .engines, .busy, .seqs, .reads, .merges, .service, .tens, .mgmt] ⊆ vs) : Keeps vs u₀ (State.stopChip s t e) := by
  refine hk.then hm ?_
  clear hk hm
  unfold State.stopChip
  try dsimp -proj only
  repeat' first
    | (with_reducible exact Keeps.refl _ _)
    | (with_reducible assumption)
    | (with_reducible exact Or.inl rfl)
    | exact Or.inr (by decide)
    | decide
    | (with_reducible apply State.modTen_keeps)
    | (with_reducible apply State.dayTen_keeps)
    | (with_reducible apply State.dropFlight_keeps)

theorem State.sendStop_keeps {vs : List View} {u₀ : State} {s : State} {t : Nat} {e : JobError} (hk : Keeps vs u₀ s) (hm : [.tens, .counters, .fabric, .power] ⊆ vs) : Keeps vs u₀ (State.sendStop s t e) := by
  refine hk.then hm ?_
  clear hk hm
  unfold State.sendStop
  try dsimp -proj only
  repeat' first
    | (with_reducible exact Keeps.refl _ _)
    | (with_reducible assumption)
    | decide
    | (with_reducible apply State.broadcast_keeps)

theorem State.takePlan_keeps {vs : List View} {u₀ : State} {s : State} {t : Nat} {cls path : BitVec 3} {taint epoch : BitVec 32} (hk : Keeps vs u₀ s) (hm : [.tens] ⊆ vs) : Keeps vs u₀ (State.takePlan s t cls path taint epoch) := by
  refine hk.then hm ?_
  clear hk hm
  unfold State.takePlan
  try dsimp -proj only
  repeat' first
    | (with_reducible exact Keeps.refl _ _)
    | (with_reducible assumption)
    | (with_reducible exact Or.inl rfl)
    | exact Or.inr (by decide)
    | decide
    | (with_reducible apply State.modRecov_keeps)

theorem State.fixPlan_keeps {vs : List View} {u₀ : State} {s : State} {t : Nat} {cls path : BitVec 3} {taint : BitVec 32} {opt : Bool} (hk : Keeps vs u₀ s) (hm : [.tens, .counters, .fabric, .power] ⊆ vs) : Keeps vs u₀ (State.fixPlan s t cls path taint opt) := by
  refine hk.then hm ?_
  clear hk hm
  unfold State.fixPlan
  try dsimp -proj only
  repeat' first
    | (with_reducible exact Keeps.refl _ _)
    | (with_reducible assumption)
    | decide
    | (with_reducible apply State.broadcast_keeps)
    | (with_reducible apply State.jobFatal_keeps)
    | (with_reducible apply State.takePlan_keeps)
    | (with_reducible refine Keeps.ite ?_ ?_)

theorem State.tryReport_keeps {vs : List View} {u₀ : State} {s : State} {t : Nat} (hk : Keeps vs u₀ s) (hm : [.tens, .counters, .fabric, .power] ⊆ vs) : Keeps vs u₀ (State.tryReport s t) := by
  refine hk.then hm ?_
  clear hk hm
  unfold State.tryReport
  try dsimp -proj only
  repeat' first
    | (with_reducible exact Keeps.refl _ _)
    | (with_reducible assumption)
    | (with_reducible exact Or.inl rfl)
    | exact Or.inr (by decide)
    | decide
    | (with_reducible apply State.sendRootward_keeps)
    | (with_reducible apply State.modRecov_keeps)
    | (with_reducible apply State.fixPlan_keeps)
    | (with_reducible refine Keeps.ite ?_ ?_)

theorem State.clearPurse_keeps {vs : List View} {u₀ : State} {s : State} {t : Nat} (hk : Keeps vs u₀ s) (hm : [.purse] ⊆ vs) : Keeps vs u₀ (State.clearPurse s t) := by
  refine hk.then hm ?_
  clear hk hm
  unfold State.clearPurse
  try dsimp -proj only
  repeat' first
    | (with_reducible exact Keeps.refl _ _)
    | (with_reducible assumption)
    | (with_reducible exact Or.inl rfl)
    | exact Or.inr (by decide)
    | decide
    | (with_reducible refine Keeps.ite ?_ ?_)
    | (with_reducible refine Keeps.upd ?_ rfl rfl ?_ ?_ ?_ ?_ ?_ ?_ ?_ ?_ ?_ ?_ ?_ ?_ ?_; rotate_left; fail_if_success (iterate 13 (with_reducible exact Or.inl rfl)))
    | ((with_reducible refine Or.inr (?_ : CoresOk _ _ _)); simp +contextual [CoresOk, Cores.wf, memPut_wf, memPuts_wf, memClear_wf, memFilter_wf])

theorem State.clearFlows_keeps {vs : List View} {u₀ : State} {s : State} {t : Nat} (hk : Keeps vs u₀ s) (hm : [.fabric] ⊆ vs) : Keeps vs u₀ (State.clearFlows s t) := by
  refine hk.then hm ?_
  clear hk hm
  unfold State.clearFlows
  try dsimp -proj only
  repeat' first
    | (with_reducible exact Keeps.refl _ _)
    | (with_reducible assumption)
    | (with_reducible exact Or.inl rfl)
    | exact Or.inr (by decide)
    | decide
    | (with_reducible refine Keeps.upd ?_ rfl rfl ?_ ?_ ?_ ?_ ?_ ?_ ?_ ?_ ?_ ?_ ?_ ?_ ?_; rotate_left; fail_if_success (iterate 13 (with_reducible exact Or.inl rfl)))

theorem State.startEpoch_keeps {vs : List View} {u₀ : State} {s : State} {t : Nat} {epoch : BitVec 32} (hk : Keeps vs u₀ s) (hm : [.purse, .tens, .fabric] ⊆ vs) : Keeps vs u₀ (State.startEpoch s t epoch) := by
  refine hk.then hm ?_
  clear hk hm
  unfold State.startEpoch
  try dsimp -proj only
  repeat' first
    | (with_reducible exact Keeps.refl _ _)
    | (with_reducible assumption)
    | (with_reducible exact Or.inl rfl)
    | exact Or.inr (by decide)
    | decide
    | (with_reducible apply State.modTen_keeps)
    | (with_reducible apply State.clearPurse_keeps)
    | (with_reducible apply State.clearFlows_keeps)

theorem State.tellRecovery_keeps {vs : List View} {u₀ : State} {s : State} {t : Nat} {path : BitVec 3} {taint resume : BitVec 32} (hk : Keeps vs u₀ s) (hm : [.mgmt] ⊆ vs) : Keeps vs u₀ (State.tellRecovery s t path taint resume) := by
  refine hk.then hm ?_
  clear hk hm
  unfold State.tellRecovery
  try dsimp -proj only
  repeat' first
    | (with_reducible exact Keeps.refl _ _)
    | (with_reducible assumption)
    | decide
    | (with_reducible apply State.raiseTen_keeps)
    | (with_reducible apply State.notice_keeps)

theorem State.beginPlan_keeps {vs : List View} {u₀ : State} {s : State} {t : Nat} {path : BitVec 3} {taint epoch : BitVec 32} (hk : Keeps vs u₀ s) (hm : [.purse, .tens, .counters, .fabric, .mgmt, .power] ⊆ vs) : Keeps vs u₀ (State.beginPlan s t path taint epoch) := by
  refine hk.then hm ?_
  clear hk hm
  unfold State.beginPlan
  try dsimp -proj only
  repeat' first
    | (with_reducible exact Keeps.refl _ _)
    | (with_reducible assumption)
    | (with_reducible exact Or.inl rfl)
    | exact Or.inr (by decide)
    | decide
    | (with_reducible apply State.jobFatal_keeps)
    | (with_reducible apply State.modRecov_keeps)
    | (with_reducible apply State.startEpoch_keeps)
    | (with_reducible apply State.tellRecovery_keeps)
    | (with_reducible refine Keeps.ite ?_ ?_)
    | (with_reducible refine Keeps.upd ?_ rfl rfl ?_ ?_ ?_ ?_ ?_ ?_ ?_ ?_ ?_ ?_ ?_ ?_ ?_; rotate_left; fail_if_success (iterate 13 (with_reducible exact Or.inl rfl)))
    | split

theorem State.settlePage_keeps {vs : List View} {u₀ : State} {s : State} {t m : Nat} (hk : Keeps vs u₀ s) (hm : [.cs, .mbox, .hall, .words, .tens, .power] ⊆ vs) : Keeps vs u₀ (State.settlePage s t m) := by
  refine hk.then hm ?_
  clear hk hm
  unfold State.settlePage
  try dsimp -proj only
  repeat' first
    | (with_reducible exact Keeps.refl _ _)
    | (with_reducible assumption)
    | (with_reducible exact Or.inl rfl)
    | exact Or.inr (by decide)
    | decide
    | (with_reducible apply State.writePage_keeps)
    | (with_reducible apply State.chargePages_keeps)
    | (with_reducible apply State.markCopied_keeps)
    | (with_reducible refine Keeps.foldl ?_ (fun _ _ _ => ?_))
    | (with_reducible refine Keeps.foldlFst ?_ (fun _ _ _ => ?_))
    | (with_reducible refine Keeps.ite ?_ ?_)
    | (with_reducible refine Keeps.upd ?_ rfl rfl ?_ ?_ ?_ ?_ ?_ ?_ ?_ ?_ ?_ ?_ ?_ ?_ ?_; rotate_left; fail_if_success (iterate 13 (with_reducible exact Or.inl rfl)))
    | split

theorem State.reseat_keeps {vs : List View} {u₀ : State} {s : State} {t : Nat} (hk : Keeps vs u₀ s) (hm : [.cs, .mbox, .hall, .words, .tens, .power, .fresh] ⊆ vs) : Keeps vs u₀ (State.reseat s t) := by
  refine hk.then hm ?_
  clear hk hm
  unfold State.reseat
  try dsimp -proj only
  repeat' first
    | (with_reducible exact Keeps.refl _ _)
    | (with_reducible assumption)
    | (with_reducible exact Or.inl rfl)
    | exact Or.inr (by decide)
    | decide
    | (with_reducible apply State.writeWord_keeps)
    | (with_reducible apply State.writeHall_keeps)
    | (with_reducible apply State.settlePage_keeps)
    | (with_reducible refine Keeps.foldl ?_ (fun _ _ _ => ?_))
    | (with_reducible refine Keeps.foldlFst ?_ (fun _ _ _ => ?_))
    | (with_reducible refine Keeps.ite ?_ ?_)
    | (with_reducible refine Keeps.upd ?_ rfl rfl ?_ ?_ ?_ ?_ ?_ ?_ ?_ ?_ ?_ ?_ ?_ ?_ ?_; rotate_left; fail_if_success (iterate 13 (with_reducible exact Or.inl rfl)))
    | split

theorem State.redoStep_keeps {vs : List View} {u₀ : State} {s : State} {t : Nat} (hk : Keeps vs u₀ s) (hm : [.acc, .engines, .busy, .stores, .tens, .counters] ⊆ vs) : Keeps vs u₀ (State.redoStep s t) := by
  refine hk.then hm ?_
  clear hk hm
  unfold State.redoStep
  try dsimp -proj only
  repeat' first
    | (with_reducible exact Keeps.refl _ _)
    | (with_reducible assumption)
    | (with_reducible exact Or.inl rfl)
    | exact Or.inr (by decide)
    | decide
    | (with_reducible apply State.countTen_keeps)
    | (with_reducible apply State.modTen_keeps)
    | (with_reducible apply State.clearSteps_keeps)
    | (with_reducible apply State.clearWatchSteps_keeps)
    | (with_reducible refine Keeps.ite ?_ ?_)
    | (with_reducible refine Keeps.upd ?_ rfl rfl ?_ ?_ ?_ ?_ ?_ ?_ ?_ ?_ ?_ ?_ ?_ ?_ ?_; rotate_left; fail_if_success (iterate 13 (with_reducible exact Or.inl rfl)))
    | ((with_reducible refine Or.inr (?_ : CoresOk _ _ _)); simp +contextual [CoresOk, Cores.wf, memPut_wf, memPuts_wf, memClear_wf, memFilter_wf])

theorem State.rollBack_keeps {vs : List View} {u₀ : State} {s : State} {t : Nat} {g : Generation} (hk : Keeps vs u₀ s) (hm : [.cs, .mbox, .words, .stores, .tens, .counters, .power] ⊆ vs) : Keeps vs u₀ (State.rollBack s t g) := by
  refine hk.then hm ?_
  clear hk hm
  unfold State.rollBack
  try dsimp -proj only
  repeat' first
    | (with_reducible exact Keeps.refl _ _)
    | (with_reducible assumption)
    | (with_reducible exact Or.inl rfl)
    | exact Or.inr (by decide)
    | decide
    | (with_reducible apply State.countTen_keeps)
    | (with_reducible apply State.modTen_keeps)
    | (with_reducible apply State.restoreGen_keeps)

theorem State.tryDone_keeps {vs : List View} {u₀ : State} {s : State} {t : Nat} (hk : Keeps vs u₀ s) (hm : [.tens, .counters, .fabric, .power] ⊆ vs) : Keeps vs u₀ (State.tryDone s t) := by
  refine hk.then hm ?_
  clear hk hm
  unfold State.tryDone
  try dsimp -proj only
  repeat' first
    | (with_reducible exact Keeps.refl _ _)
    | (with_reducible assumption)
    | (with_reducible exact Or.inl rfl)
    | exact Or.inr (by decide)
    | decide
    | (with_reducible apply State.broadcast_keeps)
    | (with_reducible apply State.sendRootward_keeps)
    | (with_reducible apply State.modRecov_keeps)
    | (with_reducible refine Keeps.ite ?_ ?_)

theorem State.actionsDone_keeps {vs : List View} {u₀ : State} {s : State} {t : Nat} (hk : Keeps vs u₀ s) (hm : [.tens, .counters, .fabric, .power] ⊆ vs) : Keeps vs u₀ (State.actionsDone s t) := by
  refine hk.then hm ?_
  clear hk hm
  unfold State.actionsDone
  try dsimp -proj only
  repeat' first
    | (with_reducible exact Keeps.refl _ _)
    | (with_reducible assumption)
    | (with_reducible exact Or.inl rfl)
    | exact Or.inr (by decide)
    | decide
    | (with_reducible apply State.modRecov_keeps)
    | (with_reducible apply State.tryDone_keeps)

theorem execRecoveryActionsComplete_keeps {vs : List View} {u₀ : State} {t : Ten} {s : State} (hk : Keeps vs u₀ s) (hm : [.cs, .mbox, .hall, .acc, .engines, .busy, .words, .stores, .tens, .counters, .fabric, .power, .fresh] ⊆ vs) : KeepsO vs u₀ (execRecoveryActionsComplete t s) := by
  refine KeepsO.then hk hm ?_
  clear hk hm
  unfold execRecoveryActionsComplete
  try dsimp -proj only
  repeat' first
    | (with_reducible exact Keeps.refl _ _)
    | (with_reducible assumption)
    | (with_reducible exact Or.inl rfl)
    | exact Or.inr (by decide)
    | decide
    | (with_reducible apply State.draw_keeps)
    | (with_reducible apply State.countTen_keeps)
    | (with_reducible apply State.modTen_keeps)
    | (with_reducible apply State.modRecov_keeps)
    | (with_reducible apply State.reseat_keeps)
    | (with_reducible apply State.redoStep_keeps)
    | (with_reducible apply State.rollBack_keeps)
    | (with_reducible apply State.actionsDone_keeps)
    | (with_reducible refine Keeps.ite ?_ ?_)
    | (with_reducible refine KeepsO.next ?_)
    | (with_reducible refine KeepsO.ite ?_ ?_)
    | split

theorem State.endJob_keeps {vs : List View} {u₀ : State} {s : State} {t : Nat} {e : JobError} (hk : Keeps vs u₀ s) (hm : [.desc, .tags, .engines, .busy, .seqs, .reads, .merges, .service, .tens, .counters, .fabric, .mgmt] ⊆ vs) : Keeps vs u₀ (State.endJob s t e) := by
  refine hk.then hm ?_
  clear hk hm
  unfold State.endJob
  try dsimp -proj only
  repeat' first
    | (with_reducible exact Keeps.refl _ _)
    | (with_reducible assumption)
    | (with_reducible exact Or.inl rfl)
    | exact Or.inr (by decide)
    | decide
    | (with_reducible apply State.countTen_keeps)
    | (with_reducible apply State.modTen_keeps)
    | (with_reducible apply State.addFigure_keeps)
    | (with_reducible apply State.dayTen_keeps)
    | (with_reducible apply State.startAssays_keeps)
    | (with_reducible apply State.raiseTen_keeps)
    | (with_reducible apply State.notice_keeps)
    | (with_reducible apply State.dropFlight_keeps)

theorem State.deviceError_keeps {vs : List View} {u₀ : State} {s : State} {kind : BitVec 8} (hk : Keeps vs u₀ s) (hm : [.desc, .tags, .engines, .busy, .seqs, .reads, .merges, .service, .tens, .counters, .fabric, .time, .mgmt, .power, .board] ⊆ vs) : Keeps vs u₀ (State.deviceError s kind) := by
  refine hk.then hm ?_
  clear hk hm
  unfold State.deviceError
  try dsimp -proj only
  repeat' first
    | (with_reducible exact Keeps.refl _ _)
    | (with_reducible assumption)
    | (with_reducible exact Or.inl rfl)
    | exact Or.inr (by decide)
    | decide
    | (with_reducible apply State.commitEvents_keeps)
    | (with_reducible apply State.modPort_keeps)
    | (with_reducible apply State.raiseInt_keeps)
    | (with_reducible apply State.jobFatal_keeps)
    | (with_reducible apply State.endJob_keeps)
    | (with_reducible refine Keeps.foldl ?_ (fun _ _ _ => ?_))
    | (with_reducible refine Keeps.foldlFst ?_ (fun _ _ _ => ?_))
    | (with_reducible refine Keeps.ite ?_ ?_)
    | (with_reducible refine Keeps.upd ?_ rfl rfl ?_ ?_ ?_ ?_ ?_ ?_ ?_ ?_ ?_ ?_ ?_ ?_ ?_; rotate_left; fail_if_success (iterate 13 (with_reducible exact Or.inl rfl)))
    | split

theorem State.resumeJob_keeps {vs : List View} {u₀ : State} {s : State} {t : Nat} (hk : Keeps vs u₀ s) (hm : [.tens, .counters, .fabric, .power] ⊆ vs) : Keeps vs u₀ (State.resumeJob s t) := by
  refine hk.then hm ?_
  clear hk hm
  unfold State.resumeJob
  try dsimp -proj only
  repeat' first
    | (with_reducible exact Keeps.refl _ _)
    | (with_reducible assumption)
    | (with_reducible exact Or.inl rfl)
    | exact Or.inr (by decide)
    | decide
    | (with_reducible apply State.modTen_keeps)
    | (with_reducible apply State.openCaution_keeps)
    | (with_reducible apply State.jobFatal_keeps)
    | (with_reducible refine Keeps.ite ?_ ?_)

theorem State.recover_keeps {vs : List View} {u₀ : State} {s : State} {t c : Nat} (hk : Keeps vs u₀ s) (hm : [.desc, .purse, .tags, .engines, .busy, .seqs, .reads, .merges, .service, .tens, .counters, .fabric, .mgmt, .power] ⊆ vs) : Keeps vs u₀ (State.recover s t c) := by
  refine hk.then hm ?_
  clear hk hm
  unfold State.recover
  try dsimp -proj only
  repeat' first
    | (with_reducible exact Keeps.refl _ _)
    | (with_reducible assumption)
    | (with_reducible exact Or.inl rfl)
    | exact Or.inr (by decide)
    | decide
    | (with_reducible apply State.countTen_keeps)
    | (with_reducible apply State.modRecov_keeps)
    | (with_reducible apply State.openCensus_keeps)
    | (with_reducible apply State.stopChip_keeps)
    | (with_reducible apply State.sendStop_keeps)
    | (with_reducible apply State.tryReport_keeps)
    | (with_reducible apply State.beginPlan_keeps)
    | (with_reducible apply State.endJob_keeps)
    | (with_reducible apply State.resumeJob_keeps)
    | (with_reducible refine Keeps.ite ?_ ?_)
    | (with_reducible refine Keeps.upd ?_ rfl rfl ?_ ?_ ?_ ?_ ?_ ?_ ?_ ?_ ?_ ?_ ?_ ?_ ?_; rotate_left; fail_if_success (iterate 13 (with_reducible exact Or.inl rfl)))
    | split

theorem State.takeCtl_keeps {vs : List View} {u₀ : State} {s : State} {p : Port} {f : Frame} {sub n : Nat} {spread : Bool} (hk : Keeps vs u₀ s) (hm : [.tens, .counters, .fabric, .mgmt, .power] ⊆ vs) : Keeps vs u₀ (State.takeCtl s p f sub n spread).1 := by
  refine hk.then hm ?_
  clear hk hm
  unfold State.takeCtl
  try dsimp -proj only
  repeat' first
    | (with_reducible exact Keeps.refl _ _)
    | (with_reducible assumption)
    | decide
    | (with_reducible apply State.forward_keeps)
    | (with_reducible apply State.receiveCtl_keeps)
    | (with_reducible refine Keeps.ite ?_ ?_)
    | split

theorem execStop_keeps {vs : List View} {u₀ : State} {p : Port} {f : Frame} {s : State} (hk : Keeps vs u₀ s) (hm : [.tens, .counters, .fabric, .mgmt, .power] ⊆ vs) : KeepsO vs u₀ (execStop p f s) := by
  refine KeepsO.then hk hm ?_
  clear hk hm
  unfold execStop
  try dsimp -proj only
  repeat' first
    | (with_reducible exact Keeps.refl _ _)
    | (with_reducible assumption)
    | (with_reducible exact Or.inl rfl)
    | exact Or.inr (by decide)
    | decide
    | (with_reducible apply State.modRecov_keeps)
    | (with_reducible apply State.openCensus_keeps)
    | (with_reducible apply State.takeCtl_keeps)
    | (with_reducible refine Keeps.ite ?_ ?_)
    | (with_reducible refine KeepsO.next ?_)
    | (with_reducible refine KeepsO.ite ?_ ?_)
    | (with_reducible refine Keeps.upd ?_ rfl rfl ?_ ?_ ?_ ?_ ?_ ?_ ?_ ?_ ?_ ?_ ?_ ?_ ?_; rotate_left; fail_if_success (iterate 13 (with_reducible exact Or.inl rfl)))
    | (with_reducible refine Keeps.getFst (by assumption) ?_)
    | split

theorem execReport_keeps {vs : List View} {u₀ : State} {p : Port} {f : Frame} {s : State} (hk : Keeps vs u₀ s) (hm : [.tens, .counters, .fabric, .mgmt, .power] ⊆ vs) : KeepsO vs u₀ (execReport p f s) := by
  refine KeepsO.then hk hm ?_
  clear hk hm
  unfold execReport
  try dsimp -proj only
  repeat' first
    | (with_reducible exact Keeps.refl _ _)
    | (with_reducible assumption)
    | (with_reducible exact Or.inl rfl)
    | exact Or.inr (by decide)
    | decide
    | (with_reducible apply State.modRecov_keeps)
    | (with_reducible apply State.openCensus_keeps)
    | (with_reducible apply State.tryReport_keeps)
    | (with_reducible apply State.takeCtl_keeps)
    | (with_reducible refine Keeps.ite ?_ ?_)
    | (with_reducible refine KeepsO.next ?_)
    | (with_reducible refine KeepsO.ite ?_ ?_)
    | (with_reducible refine Keeps.upd ?_ rfl rfl ?_ ?_ ?_ ?_ ?_ ?_ ?_ ?_ ?_ ?_ ?_ ?_ ?_; rotate_left; fail_if_success (iterate 13 (with_reducible exact Or.inl rfl)))
    | (with_reducible refine Keeps.getFst (by assumption) ?_)
    | split

theorem execPlan_keeps {vs : List View} {u₀ : State} {p : Port} {f : Frame} {s : State} (hk : Keeps vs u₀ s) (hm : [.tens, .counters, .fabric, .mgmt, .power] ⊆ vs) : KeepsO vs u₀ (execPlan p f s) := by
  refine KeepsO.then hk hm ?_
  clear hk hm
  unfold execPlan
  try dsimp -proj only
  repeat' first
    | (with_reducible exact Keeps.refl _ _)
    | (with_reducible assumption)
    | (with_reducible exact Or.inl rfl)
    | exact Or.inr (by decide)
    | decide
    | (with_reducible apply State.takePlan_keeps)
    | (with_reducible apply State.takeCtl_keeps)
    | (with_reducible refine Keeps.ite ?_ ?_)
    | (with_reducible refine KeepsO.next ?_)
    | (with_reducible refine KeepsO.ite ?_ ?_)
    | (with_reducible refine Keeps.upd ?_ rfl rfl ?_ ?_ ?_ ?_ ?_ ?_ ?_ ?_ ?_ ?_ ?_ ?_ ?_; rotate_left; fail_if_success (iterate 13 (with_reducible exact Or.inl rfl)))
    | (with_reducible refine Keeps.getFst (by assumption) ?_)
    | split

theorem execDone_keeps {vs : List View} {u₀ : State} {p : Port} {f : Frame} {s : State} (hk : Keeps vs u₀ s) (hm : [.tens, .counters, .fabric, .mgmt, .power] ⊆ vs) : KeepsO vs u₀ (execDone p f s) := by
  refine KeepsO.then hk hm ?_
  clear hk hm
  unfold execDone
  try dsimp -proj only
  repeat' first
    | (with_reducible exact Keeps.refl _ _)
    | (with_reducible assumption)
    | (with_reducible exact Or.inl rfl)
    | exact Or.inr (by decide)
    | decide
    | (with_reducible apply State.modRecov_keeps)
    | (with_reducible apply State.tryDone_keeps)
    | (with_reducible apply State.takeCtl_keeps)
    | (with_reducible refine Keeps.ite ?_ ?_)
    | (with_reducible refine KeepsO.next ?_)
    | (with_reducible refine KeepsO.ite ?_ ?_)
    | (with_reducible refine Keeps.upd ?_ rfl rfl ?_ ?_ ?_ ?_ ?_ ?_ ?_ ?_ ?_ ?_ ?_ ?_ ?_; rotate_left; fail_if_success (iterate 13 (with_reducible exact Or.inl rfl)))
    | (with_reducible refine Keeps.getFst (by assumption) ?_)
    | split

theorem execResume_keeps {vs : List View} {u₀ : State} {p : Port} {f : Frame} {s : State} (hk : Keeps vs u₀ s) (hm : [.tens, .counters, .fabric, .mgmt, .power] ⊆ vs) : KeepsO vs u₀ (execResume p f s) := by
  refine KeepsO.then hk hm ?_
  clear hk hm
  unfold execResume
  try dsimp -proj only
  repeat' first
    | (with_reducible exact Keeps.refl _ _)
    | (with_reducible assumption)
    | (with_reducible exact Or.inl rfl)
    | exact Or.inr (by decide)
    | decide
    | (with_reducible apply State.jobFatal_keeps)
    | (with_reducible apply State.modRecov_keeps)
    | (with_reducible apply State.takeCtl_keeps)
    | (with_reducible refine Keeps.ite ?_ ?_)
    | (with_reducible refine KeepsO.next ?_)
    | (with_reducible refine KeepsO.ite ?_ ?_)
    | (with_reducible refine Keeps.upd ?_ rfl rfl ?_ ?_ ?_ ?_ ?_ ?_ ?_ ?_ ?_ ?_ ?_ ?_ ?_; rotate_left; fail_if_success (iterate 13 (with_reducible exact Or.inl rfl)))
    | (with_reducible refine Keeps.getFst (by assumption) ?_)
    | split

theorem execEndJob_keeps {vs : List View} {u₀ : State} {p : Port} {f : Frame} {s : State} (hk : Keeps vs u₀ s) (hm : [.tens, .counters, .fabric, .mgmt, .power] ⊆ vs) : KeepsO vs u₀ (execEndJob p f s) := by
  refine KeepsO.then hk hm ?_
  clear hk hm
  unfold execEndJob
  try dsimp -proj only
  repeat' first
    | (with_reducible exact Keeps.refl _ _)
    | (with_reducible assumption)
    | (with_reducible exact Or.inl rfl)
    | exact Or.inr (by decide)
    | decide
    | (with_reducible apply State.modTen_keeps)
    | (with_reducible apply State.takeCtl_keeps)
    | (with_reducible refine KeepsO.next ?_)
    | (with_reducible refine Keeps.upd ?_ rfl rfl ?_ ?_ ?_ ?_ ?_ ?_ ?_ ?_ ?_ ?_ ?_ ?_ ?_; rotate_left; fail_if_success (iterate 13 (with_reducible exact Or.inl rfl)))
    | (with_reducible refine Keeps.getFst (by assumption) ?_)
    | split

theorem execRecoveryTimeout_keeps {vs : List View} {u₀ : State} {t : Ten} {s : State} (hk : Keeps vs u₀ s) (hm : [.cs, .mbox, .merges, .words, .tens, .counters, .fabric, .time, .mgmt, .power] ⊆ vs) : KeepsO vs u₀ (execRecoveryTimeout t s) := by
  refine KeepsO.then hk hm ?_
  clear hk hm
  unfold execRecoveryTimeout
  try dsimp -proj only
  repeat' first
    | (with_reducible exact Keeps.refl _ _)
    | (with_reducible assumption)
    | decide
    | (with_reducible apply State.passTo_keeps)
    | (with_reducible apply State.jobFatal_keeps)
    | (with_reducible refine Keeps.ite ?_ ?_)
    | (with_reducible refine KeepsO.next ?_)
    | (with_reducible refine KeepsO.ite ?_ ?_)

end Sys2Proof.Machine
end

