-- ==== Sys2Proof/Laws/PowerKeeps.lean ====
section
/-! SUPPORT. What each operation of Machine/Power.lean may change: the parts named, the queue and the identity never, and no canonical form. -/

namespace Sys2Proof.Machine

open Sys2Proof

theorem State.learn_keeps {vs : List View} {u₀ s : State} {t : Nat} {tag : BitVec 16} {x0 : Nat} (hk : Keeps vs u₀ s)
    (hm : [.stores, .power] ⊆ vs) : Keeps vs u₀ (State.learn s t tag x0) := by
  refine hk.then hm ?_
  unfold State.learn
  split
  · exact Keeps.refl _ _
  · with_reducible refine Keeps.upd (Keeps.refl _ _) rfl rfl ?_ ?_ ?_ ?_ ?_ ?_ ?_ ?_ ?_ ?_ ?_ ?_ ?_
    all_goals first
      | exact Or.inr (by decide)
      | (with_reducible exact Or.inl rfl)

theorem State.announceLean_keeps {vs : List View} {u₀ : State} {s : State} {t c0 : Nat} {r : BitVec 64} (hk : Keeps vs u₀ s) (hm : [.tens, .counters, .fabric, .power] ⊆ vs) : Keeps vs u₀ (State.announceLean s t c0 r) := by
  refine hk.then hm ?_
  clear hk hm
  unfold State.announceLean
  try dsimp -proj only
  repeat' first
    | (with_reducible exact Keeps.refl _ _)
    | (with_reducible assumption)
    | (with_reducible exact Or.inl rfl)
    | exact Or.inr (by decide)
    | decide
    | (with_reducible apply State.sendBlank_keeps)
    | (with_reducible refine Keeps.foldl ?_ (fun _ _ _ => ?_))
    | (with_reducible refine Keeps.foldlFst ?_ (fun _ _ _ => ?_))
    | (with_reducible refine Keeps.ite ?_ ?_)
    | (with_reducible refine Keeps.upd ?_ rfl rfl ?_ ?_ ?_ ?_ ?_ ?_ ?_ ?_ ?_ ?_ ?_ ?_ ?_; rotate_left; fail_if_success (iterate 13 (with_reducible exact Or.inl rfl)))
    | split

theorem State.evaluate_keeps {vs : List View} {u₀ : State} {s : State} {t c : Nat} (hk : Keeps vs u₀ s) (hm : [.tens, .counters, .fabric, .power] ⊆ vs) : Keeps vs u₀ (State.evaluate s t c) := by
  refine hk.then hm ?_
  clear hk hm
  unfold State.evaluate
  try dsimp -proj only
  repeat' first
    | (with_reducible exact Keeps.refl _ _)
    | (with_reducible assumption)
    | (with_reducible exact Or.inl rfl)
    | exact Or.inr (by decide)
    | decide
    | (with_reducible apply State.modTen_keeps)
    | (with_reducible apply need_noAfter)
    | (with_reducible apply State.announce_keeps)
    | (with_reducible apply State.announceLean_keeps)
    | (with_reducible apply State.grant_keeps)
    | (with_reducible refine Keeps.foldl ?_ (fun _ _ _ => ?_))
    | (with_reducible refine Keeps.foldlFst ?_ (fun _ _ _ => ?_))
    | (with_reducible refine Keeps.ite ?_ ?_)

theorem State.tellThermal_keeps {vs : List View} {u₀ : State} {s : State} {step tj : Nat} (hk : Keeps vs u₀ s) (hm : [.mgmt] ⊆ vs) : Keeps vs u₀ (State.tellThermal s step tj) := by
  refine hk.then hm ?_
  clear hk hm
  unfold State.tellThermal
  try dsimp -proj only
  repeat' first
    | (with_reducible exact Keeps.refl _ _)
    | (with_reducible assumption)
    | decide
    | (with_reducible apply State.dayChip_keeps)
    | (with_reducible apply State.notice_keeps)
    | (with_reducible refine Keeps.foldl ?_ (fun _ _ _ => ?_))

theorem State.tripNow_keeps {vs : List View} {u₀ : State} {s : State} (hk : Keeps vs u₀ s) (hm : [.desc, .tags, .engines, .busy, .seqs, .reads, .merges, .service, .tens, .counters, .fabric, .time, .mgmt, .power, .board] ⊆ vs) : Keeps vs u₀ (State.tripNow s) := by
  refine hk.then hm ?_
  clear hk hm
  unfold State.tripNow
  try dsimp -proj only
  repeat' first
    | (with_reducible exact Keeps.refl _ _)
    | (with_reducible assumption)
    | (with_reducible exact Or.inl rfl)
    | exact Or.inr (by decide)
    | decide
    | (with_reducible apply State.addFigure_keeps)
    | (with_reducible apply State.deviceError_keeps)
    | (with_reducible refine Keeps.ite ?_ ?_)
    | (with_reducible refine Keeps.upd ?_ rfl rfl ?_ ?_ ?_ ?_ ?_ ?_ ?_ ?_ ?_ ?_ ?_ ?_ ?_; rotate_left; fail_if_success (iterate 13 (with_reducible exact Or.inl rfl)))

theorem State.stackTherm_keeps {vs : List View} {u₀ : State} {s : State} {st tj : Nat} (hk : Keeps vs u₀ s) (hm : [.desc, .tags, .engines, .busy, .seqs, .reads, .merges, .service, .tens, .counters, .fabric, .time, .mgmt, .power, .board] ⊆ vs) : Keeps vs u₀ (State.stackTherm s st tj) := by
  refine hk.then hm ?_
  clear hk hm
  unfold State.stackTherm
  try dsimp -proj only
  repeat' first
    | (with_reducible exact Keeps.refl _ _)
    | (with_reducible assumption)
    | (with_reducible exact Or.inl rfl)
    | exact Or.inr (by decide)
    | decide
    | (with_reducible apply State.tellThermal_keeps)
    | (with_reducible apply State.tripNow_keeps)
    | (with_reducible refine Keeps.ite ?_ ?_)
    | (with_reducible refine Keeps.upd ?_ rfl rfl ?_ ?_ ?_ ?_ ?_ ?_ ?_ ?_ ?_ ?_ ?_ ?_ ?_; rotate_left; fail_if_success (iterate 13 (with_reducible exact Or.inl rfl)))

theorem State.takeTemps_keeps {vs : List View} {u₀ : State} {s : State} {tp : Temps} (hk : Keeps vs u₀ s) (hm : [.desc, .tags, .engines, .busy, .seqs, .reads, .merges, .service, .tens, .counters, .fabric, .time, .mgmt, .power, .board] ⊆ vs) : Keeps vs u₀ (State.takeTemps s tp) := by
  refine hk.then hm ?_
  clear hk hm
  unfold State.takeTemps
  try dsimp -proj only
  repeat' first
    | (with_reducible exact Keeps.refl _ _)
    | (with_reducible assumption)
    | (with_reducible exact Or.inl rfl)
    | exact Or.inr (by decide)
    | decide
    | (with_reducible apply State.addFigure_keeps)
    | (with_reducible apply State.tellThermal_keeps)
    | (with_reducible apply State.tripNow_keeps)
    | (with_reducible apply State.stackTherm_keeps)
    | (with_reducible refine Keeps.foldl ?_ (fun _ _ _ => ?_))
    | (with_reducible refine Keeps.foldlFst ?_ (fun _ _ _ => ?_))
    | (with_reducible refine Keeps.ite ?_ ?_)
    | (with_reducible refine Keeps.upd ?_ rfl rfl ?_ ?_ ?_ ?_ ?_ ?_ ?_ ?_ ?_ ?_ ?_ ?_ ?_; rotate_left; fail_if_success (iterate 13 (with_reducible exact Or.inl rfl)))

theorem State.thermalBlanks_keeps {vs : List View} {u₀ : State} {s : State} {t c : Nat} (hk : Keeps vs u₀ s) (hm : [.tens, .counters, .fabric, .power] ⊆ vs) : Keeps vs u₀ (State.thermalBlanks s t c) := by
  refine hk.then hm ?_
  clear hk hm
  unfold State.thermalBlanks
  try dsimp -proj only
  repeat' first
    | (with_reducible exact Keeps.refl _ _)
    | (with_reducible assumption)
    | (with_reducible exact Or.inl rfl)
    | exact Or.inr (by decide)
    | decide
    | (with_reducible apply State.announce_keeps)
    | (with_reducible refine Keeps.foldl ?_ (fun _ _ _ => ?_))
    | (with_reducible refine Keeps.foldlFst ?_ (fun _ _ _ => ?_))
    | (with_reducible refine Keeps.ite ?_ ?_)

theorem State.chargeStatic_keeps {vs : List View} {u₀ : State} {s : State} (hk : Keeps vs u₀ s) (hm : [.tens, .power] ⊆ vs) : Keeps vs u₀ (State.chargeStatic s) := by
  refine hk.then hm ?_
  clear hk hm
  unfold State.chargeStatic
  try dsimp -proj only
  repeat' first
    | (with_reducible exact Keeps.refl _ _)
    | (with_reducible assumption)
    | decide
    | (with_reducible apply State.charge_keeps)
    | (with_reducible refine Keeps.foldl ?_ (fun _ _ _ => ?_))

theorem State.divideCap_keeps {vs : List View} {u₀ : State} {s : State} {unowned : Nat} (hk : Keeps vs u₀ s) (hm : [.tens] ⊆ vs) : Keeps vs u₀ (State.divideCap s unowned) := by
  refine hk.then hm ?_
  clear hk hm
  unfold State.divideCap
  try dsimp -proj only
  repeat' first
    | (with_reducible exact Keeps.refl _ _)
    | (with_reducible assumption)
    | (with_reducible exact Or.inl rfl)
    | exact Or.inr (by decide)
    | decide
    | (with_reducible apply State.modTen_keeps)
    | (with_reducible apply need_noAfter)
    | (with_reducible refine Keeps.foldl ?_ (fun _ _ _ => ?_))

theorem State.storeTriggers_keeps {vs : List View} {u₀ : State} {s : State} (hk : Keeps vs u₀ s) (hm : [.service, .fabric, .mgmt] ⊆ vs) : Keeps vs u₀ (State.storeTriggers s) := by
  refine hk.then hm ?_
  clear hk hm
  unfold State.storeTriggers
  try dsimp -proj only
  repeat' first
    | (with_reducible exact Keeps.refl _ _)
    | (with_reducible assumption)
    | (with_reducible exact Or.inl rfl)
    | exact Or.inr (by decide)
    | decide
    | (with_reducible apply State.requestAssay_keeps)
    | (with_reducible refine Keeps.foldl ?_ (fun _ _ _ => ?_))
    | (with_reducible refine Keeps.foldlFst ?_ (fun _ _ _ => ?_))
    | (with_reducible refine Keeps.ite ?_ ?_)
    | (with_reducible refine Keeps.upd ?_ rfl rfl ?_ ?_ ?_ ?_ ?_ ?_ ?_ ?_ ?_ ?_ ?_ ?_ ?_; rotate_left; fail_if_success (iterate 13 (with_reducible exact Or.inl rfl)))
    | ((with_reducible refine Or.inr (?_ : HbmOk _ _ _)); simp +contextual [HbmOk, hbmPut_wf, hbmFilter_wf, hbmClear_wf])

theorem State.estimateOff_keeps {vs : List View} {u₀ : State} {s : State} {est m : Nat} (hk : Keeps vs u₀ s) (hm : [.fabric, .mgmt, .power] ⊆ vs) : Keeps vs u₀ (State.estimateOff s est m) := by
  refine hk.then hm ?_
  clear hk hm
  unfold State.estimateOff
  try dsimp -proj only
  repeat' first
    | (with_reducible exact Keeps.refl _ _)
    | (with_reducible assumption)
    | (with_reducible exact Or.inl rfl)
    | exact Or.inr (by decide)
    | decide
    | (with_reducible apply State.dayChip_keeps)
    | (with_reducible apply State.requestAssay_keeps)
    | (with_reducible apply State.raiseAll_keeps)
    | (with_reducible refine Keeps.upd ?_ rfl rfl ?_ ?_ ?_ ?_ ?_ ?_ ?_ ?_ ?_ ?_ ?_ ?_ ?_; rotate_left; fail_if_success (iterate 13 (with_reducible exact Or.inl rfl)))

theorem State.overCap_keeps {vs : List View} {u₀ : State} {s : State} {m : Nat} (hk : Keeps vs u₀ s) (hm : [.counters, .mgmt, .power] ⊆ vs) : Keeps vs u₀ (State.overCap s m) := by
  refine hk.then hm ?_
  clear hk hm
  unfold State.overCap
  try dsimp -proj only
  repeat' first
    | (with_reducible exact Keeps.refl _ _)
    | (with_reducible assumption)
    | (with_reducible exact Or.inl rfl)
    | exact Or.inr (by decide)
    | decide
    | (with_reducible apply State.countChip_keeps)
    | (with_reducible apply State.dayChip_keeps)
    | (with_reducible refine Keeps.upd ?_ rfl rfl ?_ ?_ ?_ ?_ ?_ ?_ ?_ ?_ ?_ ?_ ?_ ?_ ?_; rotate_left; fail_if_success (iterate 13 (with_reducible exact Or.inl rfl)))

theorem State.nextWindow_keeps {vs : List View} {u₀ : State} {s : State} (hk : Keeps vs u₀ s) (hm : [.service, .fabric, .mgmt, .power] ⊆ vs) : Keeps vs u₀ (State.nextWindow s) := by
  refine hk.then hm ?_
  clear hk hm
  unfold State.nextWindow
  try dsimp -proj only
  repeat' first
    | (with_reducible exact Keeps.refl _ _)
    | (with_reducible assumption)
    | (with_reducible exact Or.inl rfl)
    | exact Or.inr (by decide)
    | decide
    | (with_reducible apply State.storeTriggers_keeps)
    | (with_reducible refine Keeps.upd ?_ rfl rfl ?_ ?_ ?_ ?_ ?_ ?_ ?_ ?_ ?_ ?_ ?_ ?_ ?_; rotate_left; fail_if_success (iterate 13 (with_reducible exact Or.inl rfl)))

theorem execReconcile_keeps {vs : List View} {u₀ : State} {measured : BitVec 48} {s : State} (hk : Keeps vs u₀ s) (hm : [.service, .tens, .counters, .fabric, .mgmt, .power] ⊆ vs) : KeepsO vs u₀ (execReconcile measured s) := by
  refine KeepsO.then hk hm ?_
  clear hk hm
  unfold execReconcile
  try dsimp -proj only
  repeat' first
    | (with_reducible exact Keeps.refl _ _)
    | (with_reducible assumption)
    | (with_reducible exact Or.inl rfl)
    | exact Or.inr (by decide)
    | decide
    | (with_reducible apply State.account_keeps)
    | (with_reducible apply State.divideCap_keeps)
    | (with_reducible apply State.estimateOff_keeps)
    | (with_reducible apply State.overCap_keeps)
    | (with_reducible apply State.nextWindow_keeps)
    | (with_reducible refine Keeps.ite ?_ ?_)
    | (with_reducible refine KeepsO.next ?_)
    | (with_reducible refine KeepsO.ite ?_ ?_)
    | (with_reducible refine Keeps.upd ?_ rfl rfl ?_ ?_ ?_ ?_ ?_ ?_ ?_ ?_ ?_ ?_ ?_ ?_ ?_; rotate_left; fail_if_success (iterate 13 (with_reducible exact Or.inl rfl)))

theorem execCpmReport_keeps {vs : List View} {u₀ : State} {slack : List (BitVec 6)} {s : State} (hk : Keeps vs u₀ s) (hm : [.counters, .mgmt, .power] ⊆ vs) : KeepsO vs u₀ (execCpmReport slack s) := by
  refine KeepsO.then hk hm ?_
  clear hk hm
  unfold execCpmReport
  try dsimp -proj only
  repeat' first
    | (with_reducible exact Keeps.refl _ _)
    | (with_reducible assumption)
    | (with_reducible exact Or.inl rfl)
    | exact Or.inr (by decide)
    | decide
    | (with_reducible apply State.countChip_keeps)
    | (with_reducible apply State.dayChip_keeps)
    | (with_reducible refine Keeps.foldl ?_ (fun _ _ _ => ?_))
    | (with_reducible refine Keeps.foldlFst ?_ (fun _ _ _ => ?_))
    | (with_reducible refine Keeps.ite ?_ ?_)
    | (with_reducible refine KeepsO.next ?_)
    | (with_reducible refine KeepsO.ite ?_ ?_)
    | (with_reducible refine Keeps.upd ?_ rfl rfl ?_ ?_ ?_ ?_ ?_ ?_ ?_ ?_ ?_ ?_ ?_ ?_ ?_; rotate_left; fail_if_success (iterate 13 (with_reducible exact Or.inl rfl)))

theorem State.trimNow_keeps {vs : List View} {u₀ : State} {s : State} (hk : Keeps vs u₀ s) (hm : [.counters, .mgmt, .power] ⊆ vs) : Keeps vs u₀ (State.trimNow s) := by
  refine hk.then hm ?_
  clear hk hm
  unfold State.trimNow
  try dsimp -proj only
  repeat' first
    | (with_reducible exact Keeps.refl _ _)
    | (with_reducible assumption)
    | (with_reducible exact Or.inl rfl)
    | exact Or.inr (by decide)
    | decide
    | (with_reducible apply State.countChip_keeps)
    | (with_reducible apply State.dayChip_keeps)
    | (with_reducible apply State.raiseAll_keeps)
    | (with_reducible refine Keeps.ite ?_ ?_)
    | (with_reducible refine Keeps.upd ?_ rfl rfl ?_ ?_ ?_ ?_ ?_ ?_ ?_ ?_ ?_ ?_ ?_ ?_ ?_; rotate_left; fail_if_success (iterate 13 (with_reducible exact Or.inl rfl)))

theorem State.wantTrim_keeps {vs : List View} {u₀ : State} {s : State} (hk : Keeps vs u₀ s) (hm : [.tens, .counters, .fabric, .mgmt, .power] ⊆ vs) : Keeps vs u₀ (State.wantTrim s) := by
  refine hk.then hm ?_
  clear hk hm
  unfold State.wantTrim
  try dsimp -proj only
  repeat' first
    | (with_reducible exact Keeps.refl _ _)
    | (with_reducible assumption)
    | (with_reducible exact Or.inl rfl)
    | exact Or.inr (by decide)
    | decide
    | (with_reducible apply State.announce_keeps)
    | (with_reducible apply State.trimNow_keeps)
    | (with_reducible refine Keeps.foldl ?_ (fun _ _ _ => ?_))
    | (with_reducible refine Keeps.foldlFst ?_ (fun _ _ _ => ?_))
    | (with_reducible refine Keeps.ite ?_ ?_)
    | (with_reducible refine Keeps.upd ?_ rfl rfl ?_ ?_ ?_ ?_ ?_ ?_ ?_ ?_ ?_ ?_ ?_ ?_ ?_; rotate_left; fail_if_success (iterate 13 (with_reducible exact Or.inl rfl)))

theorem execTrim_keeps {vs : List View} {u₀ : State} {s : State} (hk : Keeps vs u₀ s) (hm : [.tens, .counters, .fabric, .mgmt, .power] ⊆ vs) : KeepsO vs u₀ (execTrim s) := by
  refine KeepsO.then hk hm ?_
  clear hk hm
  unfold execTrim
  try dsimp -proj only
  repeat' first
    | (with_reducible exact Keeps.refl _ _)
    | (with_reducible assumption)
    | decide
    | (with_reducible apply State.wantTrim_keeps)
    | (with_reducible refine KeepsO.next ?_)

end Sys2Proof.Machine
end

