-- ==== Sys2Proof/Laws/CourseKeeps.lean ====
section
/-! SUPPORT. What each operation of Machine/Course.lean may change: the parts named, the queue and the identity never, and no canonical form. -/

namespace Sys2Proof.Machine

open Sys2Proof

theorem State.checkTags_keeps {vs : List View} {u₀ : State} {s : State} {t : Nat} {page : BitVec 3} {tag : BitVec 8} (hk : Keeps vs u₀ s) (hm : [.tens, .counters, .fabric, .mgmt, .power] ⊆ vs) : Keeps vs u₀ (State.checkTags s t page tag) := by
  refine hk.then hm ?_
  clear hk hm
  unfold State.checkTags
  try dsimp -proj only
  repeat' first
    | (with_reducible exact Keeps.refl _ _)
    | (with_reducible assumption)
    | decide
    | (with_reducible apply State.progFaultAt_keeps)
    | (with_reducible refine Keeps.foldl ?_ (fun _ _ _ => ?_))
    | (with_reducible refine Keeps.foldlFst ?_ (fun _ _ _ => ?_))
    | (with_reducible refine Keeps.ite ?_ ?_)

theorem State.startEntry_keeps {vs : List View} {u₀ : State} {s : State} {t : Nat} (hk : Keeps vs u₀ s) (hm : [.seqs, .service, .tens, .counters, .fabric, .mgmt, .power] ⊆ vs) : Keeps vs u₀ (State.startEntry s t) := by
  refine hk.then hm ?_
  clear hk hm
  unfold State.startEntry
  try dsimp -proj only
  repeat' first
    | (with_reducible exact Keeps.refl _ _)
    | (with_reducible assumption)
    | (with_reducible exact Or.inl rfl)
    | exact Or.inr (by decide)
    | decide
    | (with_reducible apply State.resumeReqs_keeps)
    | (with_reducible apply State.modCourse_keeps)
    | (with_reducible apply State.modSeq_keeps)
    | (with_reducible apply State.checkTags_keeps)
    | (with_reducible refine Keeps.foldl ?_ (fun _ _ _ => ?_))

theorem State.enter_keeps {vs : List View} {u₀ : State} {s : State} {t : Nat} (hk : Keeps vs u₀ s) (hm : [.cs, .desc, .purse, .mbox, .hall, .tags, .engines, .busy, .seqs, .reads, .merges, .words, .service, .stores, .tens, .counters, .fabric, .mgmt, .power] ⊆ vs) : Keeps vs u₀ (State.enter s t) := by
  refine hk.then hm ?_
  clear hk hm
  unfold State.enter
  try dsimp -proj only
  repeat' first
    | (with_reducible exact Keeps.refl _ _)
    | (with_reducible assumption)
    | decide
    | (with_reducible apply State.countTen_keeps)
    | (with_reducible apply State.endStall_keeps)
    | (with_reducible apply State.addStallOf_keeps)
    | (with_reducible apply State.applyTake_keeps)
    | (with_reducible apply State.recover_keeps)
    | (with_reducible apply State.startEntry_keeps)
    | (with_reducible refine Keeps.ite ?_ ?_)

theorem State.tryTake_keeps {vs : List View} {u₀ : State} {s : State} {t : Nat} (hk : Keeps vs u₀ s) (hm : [.cs, .desc, .purse, .mbox, .hall, .tags, .engines, .busy, .seqs, .reads, .merges, .words, .service, .stores, .tens, .counters, .fabric, .mgmt, .power] ⊆ vs) : Keeps vs u₀ (State.tryTake s t) := by
  refine hk.then hm ?_
  clear hk hm
  unfold State.tryTake
  try dsimp -proj only
  repeat' first
    | (with_reducible exact Keeps.refl _ _)
    | (with_reducible assumption)
    | decide
    | (with_reducible apply State.enter_keeps)
    | (with_reducible refine Keeps.ite ?_ ?_)

theorem State.openCourse_keeps {vs : List View} {u₀ : State} {s : State} {t : Nat} (hk : Keeps vs u₀ s) (hm : [.cs, .desc, .purse, .mbox, .hall, .tags, .engines, .busy, .seqs, .reads, .merges, .words, .service, .stores, .tens, .counters, .fabric, .mgmt, .power] ⊆ vs) : Keeps vs u₀ (State.openCourse s t) := by
  refine hk.then hm ?_
  clear hk hm
  unfold State.openCourse
  try dsimp -proj only
  repeat' first
    | (with_reducible exact Keeps.refl _ _)
    | (with_reducible assumption)
    | (with_reducible exact Or.inl rfl)
    | exact Or.inr (by decide)
    | decide
    | (with_reducible apply State.modTen_keeps)
    | (with_reducible apply State.addFigure_keeps)
    | (with_reducible apply State.modSeq_keeps)
    | (with_reducible apply State.enter_keeps)
    | (with_reducible refine Keeps.foldl ?_ (fun _ _ _ => ?_))

theorem State.endCourse_keeps {vs : List View} {u₀ : State} {s : State} {t : Nat} (hk : Keeps vs u₀ s) (hm : [.seqs, .stores, .tens, .counters, .mgmt, .power] ⊆ vs) : Keeps vs u₀ (State.endCourse s t) := by
  refine hk.then hm ?_
  clear hk hm
  unfold State.endCourse
  try dsimp -proj only
  repeat' first
    | (with_reducible exact Keeps.refl _ _)
    | (with_reducible assumption)
    | (with_reducible exact Or.inl rfl)
    | exact Or.inr (by decide)
    | decide
    | (with_reducible apply State.countTen_keeps)
    | (with_reducible apply State.dayTen_keeps)
    | (with_reducible apply State.modCourse_keeps)
    | (with_reducible apply State.restClocks_keeps)
    | (with_reducible apply State.learn_keeps)
    | (with_reducible refine Keeps.foldl ?_ (fun _ _ _ => ?_))
    | (with_reducible refine Keeps.foldlFst ?_ (fun _ _ _ => ?_))
    | (with_reducible refine Keeps.ite ?_ ?_)

theorem State.passPending_keeps {vs : List View} {u₀ : State} {s : State} {t c : Nat} (hk : Keeps vs u₀ s) (hm : [.tens] ⊆ vs) : Keeps vs u₀ (State.passPending s t c) := by
  refine hk.then hm ?_
  clear hk hm
  unfold State.passPending
  try dsimp -proj only
  repeat' first
    | (with_reducible exact Keeps.refl _ _)
    | (with_reducible assumption)
    | (with_reducible exact Or.inl rfl)
    | exact Or.inr (by decide)
    | decide
    | (with_reducible apply State.modCourse_keeps)

theorem State.passSlipped_keeps {vs : List View} {u₀ : State} {s : State} {t c : Nat} (hk : Keeps vs u₀ s) (hm : [.tens, .counters] ⊆ vs) : Keeps vs u₀ (State.passSlipped s t c) := by
  refine hk.then hm ?_
  clear hk hm
  unfold State.passSlipped
  try dsimp -proj only
  repeat' first
    | (with_reducible exact Keeps.refl _ _)
    | (with_reducible assumption)
    | (with_reducible exact Or.inl rfl)
    | exact Or.inr (by decide)
    | decide
    | (with_reducible apply State.countTen_keeps)
    | (with_reducible apply State.modCourse_keeps)
    | (with_reducible apply State.passPending_keeps)
    | (with_reducible refine Keeps.ite ?_ ?_)

theorem State.runCourse_keeps {vs : List View} {u₀ : State} {s : State} {t c : Nat} (hk : Keeps vs u₀ s) (hm : [.cs, .desc, .purse, .mbox, .hall, .tags, .engines, .busy, .seqs, .reads, .merges, .words, .service, .stores, .tens, .counters, .fabric, .mgmt, .power] ⊆ vs) : Keeps vs u₀ (State.runCourse s t c) := by
  refine hk.then hm ?_
  clear hk hm
  unfold State.runCourse
  try dsimp -proj only
  repeat' first
    | (with_reducible exact Keeps.refl _ _)
    | (with_reducible assumption)
    | (with_reducible exact Or.inl rfl)
    | exact Or.inr (by decide)
    | decide
    | (with_reducible apply State.countTen_keeps)
    | (with_reducible apply State.modCourse_keeps)
    | (with_reducible apply State.announce_keeps)
    | (with_reducible apply State.openCourse_keeps)
    | (with_reducible apply State.passPending_keeps)
    | (with_reducible refine Keeps.ite ?_ ?_)
    | (with_reducible refine Keeps.upd ?_ rfl rfl ?_ ?_ ?_ ?_ ?_ ?_ ?_ ?_ ?_ ?_ ?_ ?_ ?_; rotate_left; fail_if_success (iterate 13 (with_reducible exact Or.inl rfl)))
    | split

theorem idleWith_wf {s : State} {p gone : Nat} (h : s.cores.wf) : ∀ x ∈ idleWith s p gone, x.2.wf := by
  unfold idleWith
  split
  · intro x hx
    rcases mem_put hx with rfl | hx
    · exact ⟨partAt_wf _ _ h.1, partAt_wf _ _ h.2.1, partAt_wf _ _ h.2.2.1⟩
    · exact h.2.2.2 x (mem_del hx)
  · exact h.2.2.2

theorem State.finishSwap_keeps {vs : List View} {u₀ : State} {s : State} {t c : Nat} (hk : Keeps vs u₀ s) (hm : [.idle, .tens, .spares, .fabric, .mgmt] ⊆ vs) : Keeps vs u₀ (State.finishSwap s t c) := by
  refine hk.then hm ?_
  clear hk hm
  unfold State.finishSwap
  try dsimp -proj only
  repeat' first
    | (exact Or.inr (coresOk_idle idleWith_wf))
    | (with_reducible exact Keeps.refl _ _)
    | (with_reducible assumption)
    | (with_reducible exact Or.inl rfl)
    | exact Or.inr (by decide)
    | decide
    | (with_reducible apply State.daybook_keeps)
    | (with_reducible apply State.startAssays_keeps)
    | (with_reducible apply State.modCourse_keeps)
    | (with_reducible refine Keeps.foldl ?_ (fun _ _ _ => ?_))
    | (with_reducible refine Keeps.foldlFst ?_ (fun _ _ _ => ?_))
    | (with_reducible refine Keeps.ite ?_ ?_)
    | (with_reducible refine Keeps.upd ?_ rfl rfl ?_ ?_ ?_ ?_ ?_ ?_ ?_ ?_ ?_ ?_ ?_ ?_ ?_; rotate_left; fail_if_success (iterate 13 (with_reducible exact Or.inl rfl)))
    | split

theorem State.keepForce_keeps {vs : List View} {u₀ : State} {s : State} {t c : Nat} (hk : Keeps vs u₀ s) (hm : [.tens, .counters, .fabric, .mgmt, .power] ⊆ vs) : Keeps vs u₀ (State.keepForce s t c) := by
  refine hk.then hm ?_
  clear hk hm
  unfold State.keepForce
  try dsimp -proj only
  repeat' first
    | (with_reducible exact Keeps.refl _ _)
    | (with_reducible assumption)
    | (with_reducible exact Or.inl rfl)
    | exact Or.inr (by decide)
    | decide
    | (with_reducible apply State.modCourse_keeps)
    | (with_reducible apply State.keepBlank_keeps)
    | (with_reducible refine Keeps.ite ?_ ?_)
    | (with_reducible refine Keeps.upd ?_ rfl rfl ?_ ?_ ?_ ?_ ?_ ?_ ?_ ?_ ?_ ?_ ?_ ?_ ?_; rotate_left; fail_if_success (iterate 13 (with_reducible exact Or.inl rfl)))
    | split

theorem State.sendNotices_keeps {vs : List View} {u₀ : State} {s : State} {t c : Nat} (hk : Keeps vs u₀ s) (hm : [.tens, .counters, .fabric, .mgmt, .power] ⊆ vs) : Keeps vs u₀ (State.sendNotices s t c) := by
  refine hk.then hm ?_
  clear hk hm
  unfold State.sendNotices
  try dsimp -proj only
  repeat' first
    | (with_reducible exact Keeps.refl _ _)
    | (with_reducible assumption)
    | decide
    | (with_reducible apply State.keepBlank_keeps)
    | (with_reducible apply State.evaluate_keeps)
    | (with_reducible apply State.thermalBlanks_keeps)
    | (with_reducible apply State.keepForce_keeps)
    | (with_reducible refine Keeps.ite ?_ ?_)

theorem State.tryReady_keeps {vs : List View} {u₀ : State} {s : State} {t : Nat} (hk : Keeps vs u₀ s) (hm : [.tens, .counters, .fabric, .power] ⊆ vs) : Keeps vs u₀ (State.tryReady s t) := by
  refine hk.then hm ?_
  clear hk hm
  unfold State.tryReady
  try dsimp -proj only
  repeat' first
    | (with_reducible exact Keeps.refl _ _)
    | (with_reducible assumption)
    | (with_reducible exact Or.inl rfl)
    | exact Or.inr (by decide)
    | decide
    | (with_reducible apply State.modTen_keeps)
    | (with_reducible apply State.broadcast_keeps)
    | (with_reducible apply State.sendRootward_keeps)
    | (with_reducible apply Strm.ready_noAfter)
    | (with_reducible refine Keeps.ite ?_ ?_)

theorem State.restoreLoad_keeps {vs : List View} {u₀ : State} {s : State} {t : Nat} {g : Generation} (hk : Keeps vs u₀ s) (hm : [.cs, .mbox, .words, .stores, .tens, .counters, .power] ⊆ vs) : Keeps vs u₀ (State.restoreLoad s t g) := by
  refine hk.then hm ?_
  clear hk hm
  unfold State.restoreLoad
  try dsimp -proj only
  repeat' first
    | (with_reducible exact Keeps.refl _ _)
    | (with_reducible assumption)
    | (with_reducible exact Or.inl rfl)
    | exact Or.inr (by decide)
    | decide
    | (with_reducible apply State.modTen_keeps)
    | (with_reducible apply State.openCaution_keeps)
    | (with_reducible apply State.restoreGen_keeps)

theorem State.readyNow_keeps {vs : List View} {u₀ : State} {s : State} {t : Nat} (hk : Keeps vs u₀ s) (hm : [.cs, .mbox, .words, .stores, .tens, .counters, .fabric, .power] ⊆ vs) : Keeps vs u₀ (State.readyNow s t) := by
  refine hk.then hm ?_
  clear hk hm
  unfold State.readyNow
  try dsimp -proj only
  repeat' first
    | (with_reducible exact Keeps.refl _ _)
    | (with_reducible assumption)
    | (with_reducible exact Or.inl rfl)
    | exact Or.inr (by decide)
    | decide
    | (with_reducible apply State.modTen_keeps)
    | (with_reducible apply Strm.ready_noAfter)
    | (with_reducible apply State.modGen_keeps)
    | (with_reducible apply State.tryReady_keeps)
    | (with_reducible apply State.restoreLoad_keeps)
    | (with_reducible refine Keeps.ite ?_ ?_)
    | (with_reducible refine Keeps.upd ?_ rfl rfl ?_ ?_ ?_ ?_ ?_ ?_ ?_ ?_ ?_ ?_ ?_ ?_ ?_; rotate_left; fail_if_success (iterate 13 (with_reducible exact Or.inl rfl)))
    | split

theorem State.launchNow_keeps {vs : List View} {u₀ : State} {s : State} {t c : Nat} (hk : Keeps vs u₀ s) (hm : [.cs, .mbox, .hall, .words, .tens, .counters, .fabric, .mgmt, .power] ⊆ vs) : Keeps vs u₀ (State.launchNow s t c) := by
  refine hk.then hm ?_
  clear hk hm
  unfold State.launchNow
  try dsimp -proj only
  repeat' first
    | (with_reducible exact Keeps.refl _ _)
    | (with_reducible assumption)
    | (with_reducible exact Or.inl rfl)
    | exact Or.inr (by decide)
    | decide
    | (with_reducible apply State.modTen_keeps)
    | (with_reducible apply State.raiseTen_keeps)
    | (with_reducible apply State.sealGen_keeps)
    | (with_reducible apply State.modRecov_keeps)
    | (with_reducible refine Keeps.ite ?_ ?_)

theorem State.tenBoundary_keeps {vs : List View} {u₀ : State} {s : State} {t c : Nat} (hk : Keeps vs u₀ s) (hm : [.cs, .desc, .purse, .mbox, .hall, .tags, .engines, .busy, .seqs, .reads, .idle, .merges, .words, .service, .stores, .tens, .spares, .counters, .fabric, .mgmt, .power] ⊆ vs) : Keeps vs u₀ (State.tenBoundary s t c) := by
  refine hk.then hm ?_
  clear hk hm
  unfold State.tenBoundary
  try dsimp -proj only
  repeat' first
    | (with_reducible exact Keeps.refl _ _)
    | (with_reducible assumption)
    | (with_reducible exact Or.inl rfl)
    | exact Or.inr (by decide)
    | decide
    | (with_reducible apply Strm.ready_noAfter)
    | (with_reducible apply State.jobFatal_keeps)
    | (with_reducible apply State.slip_keeps)
    | (with_reducible apply State.endJob_keeps)
    | (with_reducible apply State.recover_keeps)
    | (with_reducible apply State.endCourse_keeps)
    | (with_reducible apply State.passPending_keeps)
    | (with_reducible apply State.passSlipped_keeps)
    | (with_reducible apply State.runCourse_keeps)
    | (with_reducible apply State.finishSwap_keeps)
    | (with_reducible apply State.sendNotices_keeps)
    | (with_reducible apply State.readyNow_keeps)
    | (with_reducible apply State.launchNow_keeps)
    | (with_reducible refine Keeps.ite ?_ ?_)
    | (with_reducible refine Keeps.upd ?_ rfl rfl ?_ ?_ ?_ ?_ ?_ ?_ ?_ ?_ ?_ ?_ ?_ ?_ ?_; rotate_left; fail_if_success (iterate 13 (with_reducible exact Or.inl rfl)))
    | split

theorem State.boundary_keeps {vs : List View} {u₀ : State} {s : State} {tp : Temps} {c : Nat} (hk : Keeps vs u₀ s) (hm : [.cs, .desc, .purse, .mbox, .hall, .tags, .engines, .busy, .seqs, .reads, .idle, .merges, .words, .service, .stores, .tens, .spares, .counters, .fabric, .time, .mgmt, .power, .board] ⊆ vs) : Keeps vs u₀ (State.boundary s tp c) := by
  refine hk.then hm ?_
  clear hk hm
  unfold State.boundary
  try dsimp -proj only
  repeat' first
    | (with_reducible exact Keeps.refl _ _)
    | (with_reducible assumption)
    | (with_reducible exact Or.inl rfl)
    | exact Or.inr (by decide)
    | decide
    | (with_reducible apply State.takeTemps_keeps)
    | (with_reducible apply State.chargeStatic_keeps)
    | (with_reducible apply State.trimNow_keeps)
    | (with_reducible apply State.wantTrim_keeps)
    | (with_reducible apply State.tenBoundary_keeps)
    | (with_reducible refine Keeps.foldl ?_ (fun _ _ _ => ?_))
    | (with_reducible refine Keeps.foldlFst ?_ (fun _ _ _ => ?_))
    | (with_reducible refine Keeps.ite ?_ ?_)
    | (with_reducible refine Keeps.upd ?_ rfl rfl ?_ ?_ ?_ ?_ ?_ ?_ ?_ ?_ ?_ ?_ ?_ ?_ ?_; rotate_left; fail_if_success (iterate 13 (with_reducible exact Or.inl rfl)))

theorem execCourseBoundary_keeps {vs : List View} {u₀ : State} {tp : Temps} {s : State} (hk : Keeps vs u₀ s) (hm : [.cs, .desc, .purse, .mbox, .hall, .tags, .acc, .engines, .busy, .seqs, .reads, .idle, .merges, .words, .service, .stores, .tens, .spares, .counters, .fabric, .time, .mgmt, .power, .board] ⊆ vs) : KeepsO vs u₀ (execCourseBoundary tp s) := by
  refine KeepsO.then hk hm ?_
  clear hk hm
  unfold execCourseBoundary
  try dsimp -proj only
  repeat' first
    | (with_reducible exact Keeps.refl _ _)
    | (with_reducible assumption)
    | (with_reducible exact Or.inl rfl)
    | exact Or.inr (by decide)
    | decide
    | (with_reducible apply State.runTo_keeps)
    | (with_reducible apply State.remapCands_keeps)
    | (with_reducible apply State.boundary_keeps)
    | (with_reducible refine Keeps.ite ?_ ?_)
    | (with_reducible refine KeepsO.next ?_)
    | (with_reducible refine KeepsO.ite ?_ ?_)

theorem execBlankNotice_keeps {vs : List View} {u₀ : State} {p : Port} {f : Frame} {s : State} (hk : Keeps vs u₀ s) (hm : [.tens, .counters, .fabric, .mgmt, .power] ⊆ vs) : KeepsO vs u₀ (execBlankNotice p f s) := by
  refine KeepsO.then hk hm ?_
  clear hk hm
  unfold execBlankNotice
  try dsimp -proj only
  repeat' first
    | (with_reducible exact Keeps.refl _ _)
    | (with_reducible assumption)
    | (with_reducible exact Or.inl rfl)
    | exact Or.inr (by decide)
    | decide
    | (with_reducible apply State.forward_keeps)
    | (with_reducible apply State.jobFatal_keeps)
    | (with_reducible apply State.receiveCtl_keeps)
    | (with_reducible apply State.modCourse_keeps)
    | (with_reducible refine Keeps.ite ?_ ?_)
    | (with_reducible refine KeepsO.next ?_)
    | (with_reducible refine KeepsO.ite ?_ ?_)
    | split

theorem execVote_keeps {vs : List View} {u₀ : State} {p : Port} {f : Frame} {s : State} (hk : Keeps vs u₀ s) (hm : [.seqs, .tens, .counters, .fabric, .mgmt, .power] ⊆ vs) : KeepsO vs u₀ (execVote p f s) := by
  refine KeepsO.then hk hm ?_
  clear hk hm
  unfold execVote
  try dsimp -proj only
  repeat' first
    | (with_reducible exact Keeps.refl _ _)
    | (with_reducible assumption)
    | (with_reducible exact Or.inl rfl)
    | exact Or.inr (by decide)
    | decide
    | (with_reducible apply State.modTen_keeps)
    | (with_reducible apply State.receiveCtl_keeps)
    | (with_reducible apply State.countVote_keeps)
    | (with_reducible refine Keeps.ite ?_ ?_)
    | (with_reducible refine KeepsO.next ?_)
    | (with_reducible refine KeepsO.ite ?_ ?_)
    | split

theorem execLaunchReady_keeps {vs : List View} {u₀ : State} {p : Port} {f : Frame} {s : State} (hk : Keeps vs u₀ s) (hm : [.tens, .counters, .fabric, .mgmt, .power] ⊆ vs) : KeepsO vs u₀ (execLaunchReady p f s) := by
  refine KeepsO.then hk hm ?_
  clear hk hm
  unfold execLaunchReady
  try dsimp -proj only
  repeat' first
    | (with_reducible exact Keeps.refl _ _)
    | (with_reducible assumption)
    | (with_reducible exact Or.inl rfl)
    | exact Or.inr (by decide)
    | decide
    | (with_reducible apply State.modTen_keeps)
    | (with_reducible apply State.receiveCtl_keeps)
    | (with_reducible apply State.tryReady_keeps)
    | (with_reducible refine Keeps.ite ?_ ?_)
    | (with_reducible refine KeepsO.next ?_)
    | (with_reducible refine KeepsO.ite ?_ ?_)

theorem State.takeLaunch_keeps {vs : List View} {u₀ : State} {s : State} {t c : Nat} (hk : Keeps vs u₀ s) (hm : [.tens, .counters, .fabric, .power] ⊆ vs) : Keeps vs u₀ (State.takeLaunch s t c) := by
  refine hk.then hm ?_
  clear hk hm
  unfold State.takeLaunch
  try dsimp -proj only
  repeat' first
    | (with_reducible exact Keeps.refl _ _)
    | (with_reducible assumption)
    | (with_reducible exact Or.inl rfl)
    | exact Or.inr (by decide)
    | decide
    | (with_reducible apply State.modTen_keeps)
    | (with_reducible apply State.endError_keeps)
    | (with_reducible apply State.jobFatal_keeps)
    | (with_reducible refine Keeps.ite ?_ ?_)
    | (with_reducible refine Keeps.upd ?_ rfl rfl ?_ ?_ ?_ ?_ ?_ ?_ ?_ ?_ ?_ ?_ ?_ ?_ ?_; rotate_left; fail_if_success (iterate 13 (with_reducible exact Or.inl rfl)))
    | split

theorem execLaunchGo_keeps {vs : List View} {u₀ : State} {p : Port} {f : Frame} {s : State} (hk : Keeps vs u₀ s) (hm : [.tens, .counters, .fabric, .mgmt, .power] ⊆ vs) : KeepsO vs u₀ (execLaunchGo p f s) := by
  refine KeepsO.then hk hm ?_
  clear hk hm
  unfold execLaunchGo
  try dsimp -proj only
  repeat' first
    | (with_reducible exact Keeps.refl _ _)
    | (with_reducible assumption)
    | decide
    | (with_reducible apply State.count_keeps)
    | (with_reducible apply State.chargeFrame_keeps)
    | (with_reducible apply State.forward_keeps)
    | (with_reducible apply State.receiveCtl_keeps)
    | (with_reducible apply State.takeLaunch_keeps)
    | (with_reducible refine Keeps.ite ?_ ?_)
    | (with_reducible refine KeepsO.next ?_)
    | (with_reducible refine KeepsO.ite ?_ ?_)

theorem execLaunchTimeout_keeps {vs : List View} {u₀ : State} {t : Ten} {s : State} (hk : Keeps vs u₀ s) (hm : [.cs, .mbox, .merges, .words, .tens, .counters, .fabric, .time, .mgmt, .power] ⊆ vs) : KeepsO vs u₀ (execLaunchTimeout t s) := by
  refine KeepsO.then hk hm ?_
  clear hk hm
  unfold execLaunchTimeout
  try dsimp -proj only
  repeat' first
    | (with_reducible exact Keeps.refl _ _)
    | (with_reducible assumption)
    | (with_reducible exact Or.inl rfl)
    | exact Or.inr (by decide)
    | decide
    | (with_reducible apply State.modTen_keeps)
    | (with_reducible apply State.dayTen_keeps)
    | (with_reducible apply State.passTo_keeps)
    | (with_reducible apply State.notice_keeps)
    | (with_reducible refine Keeps.ite ?_ ?_)
    | (with_reducible refine KeepsO.next ?_)
    | (with_reducible refine KeepsO.ite ?_ ?_)
    | split

theorem execCollectiveComplete_keeps {vs : List View} {u₀ : State} {t : Ten} {chan : Chan} {s : State} (hk : Keeps vs u₀ s) (hm : [.cs, .desc, .purse, .mbox, .hall, .tags, .engines, .busy, .seqs, .reads, .merges, .words, .service, .stores, .tens, .counters, .fabric, .mgmt, .power, .upsets, .fresh] ⊆ vs) : KeepsO vs u₀ (execCollectiveComplete t chan s) := by
  refine KeepsO.then hk hm ?_
  clear hk hm
  unfold execCollectiveComplete
  try dsimp -proj only
  repeat' first
    | (with_reducible exact Keeps.refl _ _)
    | (with_reducible assumption)
    | (with_reducible exact Or.inl rfl)
    | exact Or.inr (by decide)
    | decide
    | (with_reducible apply Strm.ready_noAfter)
    | (with_reducible apply State.redoPass_keeps)
    | (with_reducible apply State.mergeDone_keeps)
    | (with_reducible apply State.completeColl_keeps)
    | (with_reducible apply State.tryTake_keeps)
    | (with_reducible refine Keeps.ite ?_ ?_)
    | (with_reducible refine KeepsO.next ?_)
    | (with_reducible refine KeepsO.ite ?_ ?_)
    | split

theorem execSeals_keeps {vs : List View} {u₀ : State} {p : Port} {f : Frame} {s : State} (hk : Keeps vs u₀ s) (hm : [.cs, .desc, .purse, .mbox, .hall, .tags, .engines, .busy, .seqs, .reads, .merges, .words, .service, .stores, .tens, .counters, .fabric, .mgmt, .power] ⊆ vs) : KeepsO vs u₀ (execSeals p f s) := by
  refine KeepsO.then hk hm ?_
  clear hk hm
  unfold execSeals
  try dsimp -proj only
  repeat' first
    | (with_reducible exact Keeps.refl _ _)
    | (with_reducible assumption)
    | (with_reducible exact Or.inl rfl)
    | exact Or.inr (by decide)
    | decide
    | (with_reducible apply State.modTen_keeps)
    | (with_reducible apply State.compareSeals_keeps)
    | (with_reducible apply State.takeCtl_keeps)
    | (with_reducible apply State.tryTake_keeps)
    | (with_reducible refine KeepsO.next ?_)
    | (with_reducible refine Keeps.upd ?_ rfl rfl ?_ ?_ ?_ ?_ ?_ ?_ ?_ ?_ ?_ ?_ ?_ ?_ ?_; rotate_left; fail_if_success (iterate 13 (with_reducible exact Or.inl rfl)))
    | (with_reducible refine Keeps.getFst (by assumption) ?_)
    | split

theorem execTwin_keeps {vs : List View} {u₀ : State} {p : Port} {f : Frame} {s : State} (hk : Keeps vs u₀ s) (hm : [.cs, .desc, .purse, .mbox, .hall, .tags, .engines, .busy, .seqs, .reads, .merges, .words, .service, .stores, .tens, .counters, .fabric, .mgmt, .power] ⊆ vs) : KeepsO vs u₀ (execTwin p f s) := by
  refine KeepsO.then hk hm ?_
  clear hk hm
  unfold execTwin
  try dsimp -proj only
  repeat' first
    | (with_reducible exact Keeps.refl _ _)
    | (with_reducible assumption)
    | (with_reducible exact Or.inl rfl)
    | exact Or.inr (by decide)
    | decide
    | (with_reducible apply State.modTen_keeps)
    | (with_reducible apply State.compareTwin_keeps)
    | (with_reducible apply State.takeCtl_keeps)
    | (with_reducible apply State.tryTake_keeps)
    | (with_reducible refine KeepsO.next ?_)
    | (with_reducible refine Keeps.upd ?_ rfl rfl ?_ ?_ ?_ ?_ ?_ ?_ ?_ ?_ ?_ ?_ ?_ ?_ ?_; rotate_left; fail_if_success (iterate 13 (with_reducible exact Or.inl rfl)))
    | (with_reducible refine Keeps.getFst (by assumption) ?_)
    | split

theorem execStatePagesWritten_keeps {vs : List View} {u₀ : State} {t : Ten} {s : State} (hk : Keeps vs u₀ s) (hm : [.cs, .desc, .purse, .mbox, .hall, .tags, .engines, .busy, .seqs, .reads, .merges, .words, .service, .stores, .tens, .counters, .fabric, .mgmt, .power] ⊆ vs) : KeepsO vs u₀ (execStatePagesWritten t s) := by
  refine KeepsO.then hk hm ?_
  clear hk hm
  unfold execStatePagesWritten
  try dsimp -proj only
  repeat' first
    | (with_reducible exact Keeps.refl _ _)
    | (with_reducible assumption)
    | decide
    | (with_reducible apply State.writeState_keeps)
    | (with_reducible apply State.tryTake_keeps)
    | (with_reducible refine KeepsO.next ?_)

end Sys2Proof.Machine
end

