-- ==== Sys2Proof/Laws/TallyKeeps.lean ====
section
/-! SUPPORT. What each operation of Machine/Tally.lean may change: the parts named, the queue and the identity never, and no canonical form. -/

namespace Sys2Proof.Machine

open Sys2Proof

theorem State.hear_keeps {vs : List View} {u₀ : State} {s : State} {b : BitVec 8 × BitVec 16} (hk : Keeps vs u₀ s) (hm : [.time] ⊆ vs) : Keeps vs u₀ (State.hear s b) := by
  refine hk.then hm ?_
  clear hk hm
  unfold State.hear
  try dsimp -proj only
  repeat' first
    | (with_reducible exact Keeps.refl _ _)
    | (with_reducible assumption)
    | (with_reducible exact Or.inl rfl)
    | exact Or.inr (by decide)
    | decide
    | (with_reducible refine Keeps.ite ?_ ?_)
    | (with_reducible refine Keeps.upd ?_ rfl rfl ?_ ?_ ?_ ?_ ?_ ?_ ?_ ?_ ?_ ?_ ?_ ?_ ?_; rotate_left; fail_if_success (iterate 13 (with_reducible exact Or.inl rfl)))

theorem State.raiseTime_keeps {vs : List View} {u₀ : State} {s : State} {bit : Nat} (hk : Keeps vs u₀ s) (hm : [.mgmt] ⊆ vs) : Keeps vs u₀ (State.raiseTime s bit) := by
  refine hk.then hm ?_
  clear hk hm
  unfold State.raiseTime
  try dsimp -proj only
  repeat' first
    | (with_reducible exact Keeps.refl _ _)
    | (with_reducible assumption)
    | decide
    | (with_reducible apply State.raiseInt_keeps)
    | (with_reducible refine Keeps.foldl ?_ (fun _ _ _ => ?_))

theorem State.selectPll_keeps {vs : List View} {u₀ : State} {s : State} (hk : Keeps vs u₀ s) (hm : [.time, .mgmt] ⊆ vs) : Keeps vs u₀ (State.selectPll s) := by
  refine hk.then hm ?_
  clear hk hm
  unfold State.selectPll
  try dsimp -proj only
  repeat' first
    | (with_reducible exact Keeps.refl _ _)
    | (with_reducible assumption)
    | (with_reducible exact Or.inl rfl)
    | exact Or.inr (by decide)
    | decide
    | (with_reducible apply State.dayChip_keeps)
    | (with_reducible apply State.raiseTime_keeps)
    | (with_reducible refine Keeps.ite ?_ ?_)
    | (with_reducible refine Keeps.upd ?_ rfl rfl ?_ ?_ ?_ ?_ ?_ ?_ ?_ ?_ ?_ ?_ ?_ ?_ ?_; rotate_left; fail_if_success (iterate 13 (with_reducible exact Or.inl rfl)))

theorem State.forgetPair_keeps {vs : List View} {u₀ : State} {s : State} (hk : Keeps vs u₀ s) (hm : [.time, .mgmt] ⊆ vs) : Keeps vs u₀ (State.forgetPair s) := by
  refine hk.then hm ?_
  clear hk hm
  unfold State.forgetPair
  try dsimp -proj only
  repeat' first
    | (with_reducible exact Keeps.refl _ _)
    | (with_reducible assumption)
    | (with_reducible exact Or.inl rfl)
    | exact Or.inr (by decide)
    | decide
    | (with_reducible apply State.selectPll_keeps)
    | (with_reducible refine Keeps.ite ?_ ?_)
    | (with_reducible refine Keeps.upd ?_ rfl rfl ?_ ?_ ?_ ?_ ?_ ?_ ?_ ?_ ?_ ?_ ?_ ?_ ?_; rotate_left; fail_if_success (iterate 13 (with_reducible exact Or.inl rfl)))

theorem execFabricLinkUp_keeps {vs : List View} {u₀ : State} {p : Port} {s : State} (hk : Keeps vs u₀ s) (hm : [.fabric, .time, .mgmt] ⊆ vs) : KeepsO vs u₀ (execFabricLinkUp p s) := by
  refine KeepsO.then hk hm ?_
  clear hk hm
  unfold execFabricLinkUp
  try dsimp -proj only
  repeat' first
    | (with_reducible exact Keeps.refl _ _)
    | (with_reducible assumption)
    | (with_reducible exact Or.inl rfl)
    | exact Or.inr (by decide)
    | decide
    | (with_reducible apply State.modPort_keeps)
    | (with_reducible apply State.selectPll_keeps)
    | (with_reducible refine Keeps.ite ?_ ?_)
    | (with_reducible refine KeepsO.next ?_)
    | (with_reducible refine KeepsO.ite ?_ ?_)

theorem execLinkLoss_keeps {vs : List View} {u₀ : State} {p : Port} {s : State} (hk : Keeps vs u₀ s) (hm : [.fabric, .time, .mgmt] ⊆ vs) : KeepsO vs u₀ (execLinkLoss p s) := by
  refine KeepsO.then hk hm ?_
  clear hk hm
  unfold execLinkLoss
  try dsimp -proj only
  repeat' first
    | (with_reducible exact Keeps.refl _ _)
    | (with_reducible assumption)
    | (with_reducible exact Or.inl rfl)
    | exact Or.inr (by decide)
    | decide
    | (with_reducible apply State.modPort_keeps)
    | (with_reducible apply State.selectPll_keeps)
    | (with_reducible refine Keeps.ite ?_ ?_)
    | (with_reducible refine KeepsO.next ?_)
    | (with_reducible refine KeepsO.ite ?_ ?_)

theorem execLossOfLock_keeps {vs : List View} {u₀ : State} {p : Port} {s : State} (hk : Keeps vs u₀ s) (hm : [.fabric, .time, .mgmt] ⊆ vs) : KeepsO vs u₀ (execLossOfLock p s) := by
  refine KeepsO.then hk hm ?_
  clear hk hm
  unfold execLossOfLock
  try dsimp -proj only
  repeat' first
    | (with_reducible exact Keeps.refl _ _)
    | (with_reducible assumption)
    | (with_reducible exact Or.inl rfl)
    | exact Or.inr (by decide)
    | decide
    | (with_reducible apply State.modPort_keeps)
    | (with_reducible apply State.selectPll_keeps)
    | (with_reducible refine KeepsO.next ?_)

theorem execLockRegained_keeps {vs : List View} {u₀ : State} {p : Port} {s : State} (hk : Keeps vs u₀ s) (hm : [.fabric, .time, .mgmt] ⊆ vs) : KeepsO vs u₀ (execLockRegained p s) := by
  refine KeepsO.then hk hm ?_
  clear hk hm
  unfold execLockRegained
  try dsimp -proj only
  repeat' first
    | (with_reducible exact Keeps.refl _ _)
    | (with_reducible assumption)
    | (with_reducible exact Or.inl rfl)
    | exact Or.inr (by decide)
    | decide
    | (with_reducible apply State.modPort_keeps)
    | (with_reducible apply State.selectPll_keeps)
    | (with_reducible refine KeepsO.next ?_)

theorem execPortDown_keeps {vs : List View} {u₀ : State} {p : Port} {s : State} (hk : Keeps vs u₀ s) (hm : [.cs, .mbox, .merges, .words, .tens, .counters, .fabric, .time, .mgmt, .power] ⊆ vs) : KeepsO vs u₀ (execPortDown p s) := by
  refine KeepsO.then hk hm ?_
  clear hk hm
  unfold execPortDown
  try dsimp -proj only
  repeat' first
    | (with_reducible exact Keeps.refl _ _)
    | (with_reducible assumption)
    | (with_reducible exact Or.inl rfl)
    | exact Or.inr (by decide)
    | decide
    | (with_reducible apply State.modPort_keeps)
    | (with_reducible apply State.startAssays_keeps)
    | (with_reducible apply State.passTo_keeps)
    | (with_reducible apply State.failOver_keeps)
    | (with_reducible refine Keeps.foldl ?_ (fun _ _ _ => ?_))
    | (with_reducible refine Keeps.foldlFst ?_ (fun _ _ _ => ?_))
    | (with_reducible refine Keeps.ite ?_ ?_)
    | (with_reducible refine KeepsO.next ?_)
    | (with_reducible refine KeepsO.ite ?_ ?_)
    | split

theorem State.badConfig_keeps {vs : List View} {u₀ : State} {s : State} (hk : Keeps vs u₀ s) (hm : [.fabric, .time, .mgmt] ⊆ vs) : Keeps vs u₀ (State.badConfig s) := by
  refine hk.then hm ?_
  clear hk hm
  unfold State.badConfig
  try dsimp -proj only
  repeat' first
    | (with_reducible exact Keeps.refl _ _)
    | (with_reducible assumption)
    | (with_reducible exact Or.inl rfl)
    | exact Or.inr (by decide)
    | decide
    | (with_reducible apply State.modPort_keeps)
    | (with_reducible apply State.selectPll_keeps)
    | (with_reducible refine Keeps.foldl ?_ (fun _ _ _ => ?_))
    | (with_reducible refine Keeps.foldlFst ?_ (fun _ _ _ => ?_))
    | (with_reducible refine Keeps.upd ?_ rfl rfl ?_ ?_ ?_ ?_ ?_ ?_ ?_ ?_ ?_ ?_ ?_ ?_ ?_; rotate_left; fail_if_success (iterate 13 (with_reducible exact Or.inl rfl)))

theorem State.writeFabCfg_keeps {vs : List View} {u₀ : State} {s : State} {v : BitVec 64} (hk : Keeps vs u₀ s) (hm : [.fabric, .time, .mgmt] ⊆ vs) : Keeps vs u₀ (State.writeFabCfg s v) := by
  refine hk.then hm ?_
  clear hk hm
  unfold State.writeFabCfg
  try dsimp -proj only
  repeat' first
    | (with_reducible exact Keeps.refl _ _)
    | (with_reducible assumption)
    | (with_reducible exact Or.inl rfl)
    | exact Or.inr (by decide)
    | decide
    | (with_reducible apply State.dayChip_keeps)
    | (with_reducible apply State.badConfig_keeps)
    | (with_reducible refine Keeps.ite ?_ ?_)
    | (with_reducible refine Keeps.upd ?_ rfl rfl ?_ ?_ ?_ ?_ ?_ ?_ ?_ ?_ ?_ ?_ ?_ ?_ ?_; rotate_left; fail_if_success (iterate 13 (with_reducible exact Or.inl rfl)))

theorem State.writeFabAxes_keeps {vs : List View} {u₀ : State} {s : State} {v : BitVec 64} (hk : Keeps vs u₀ s) (hm : [.fabric, .time, .mgmt] ⊆ vs) : Keeps vs u₀ (State.writeFabAxes s v) := by
  refine hk.then hm ?_
  clear hk hm
  unfold State.writeFabAxes
  try dsimp -proj only
  repeat' first
    | (with_reducible exact Keeps.refl _ _)
    | (with_reducible assumption)
    | (with_reducible exact Or.inl rfl)
    | exact Or.inr (by decide)
    | decide
    | (with_reducible apply State.dayChip_keeps)
    | (with_reducible apply State.badConfig_keeps)
    | (with_reducible refine Keeps.ite ?_ ?_)
    | (with_reducible refine Keeps.upd ?_ rfl rfl ?_ ?_ ?_ ?_ ?_ ?_ ?_ ?_ ?_ ?_ ?_ ?_ ?_; rotate_left; fail_if_success (iterate 13 (with_reducible exact Or.inl rfl)))

theorem execFabCfgLock_keeps {vs : List View} {u₀ : State} {value : BitVec 64} {s : State} (hk : Keeps vs u₀ s) (hm : [.fabric, .time, .mgmt] ⊆ vs) : KeepsO vs u₀ (execFabCfgLock value s) := by
  refine KeepsO.then hk hm ?_
  clear hk hm
  unfold execFabCfgLock
  try dsimp -proj only
  repeat' first
    | (with_reducible exact Keeps.refl _ _)
    | (with_reducible assumption)
    | decide
    | (with_reducible apply State.writeFabCfg_keeps)
    | (with_reducible refine KeepsO.next ?_)

theorem State.sendProbe_keeps {vs : List View} {u₀ : State} {s : State} {kind dst : Nat} {p : Port} {w : BitVec 256} (hk : Keeps vs u₀ s) (hm : [.tens, .counters, .fabric, .power] ⊆ vs) : Keeps vs u₀ (State.sendProbe s kind dst p w) := by
  refine hk.then hm ?_
  clear hk hm
  unfold State.sendProbe
  try dsimp -proj only
  repeat' first
    | (with_reducible exact Keeps.refl _ _)
    | (with_reducible assumption)
    | (with_reducible exact Or.inl rfl)
    | exact Or.inr (by decide)
    | decide
    | (with_reducible apply State.emitFrame_keeps)

theorem State.checkHoldover_keeps {vs : List View} {u₀ : State} {s : State} {off : Int} (hk : Keeps vs u₀ s) (hm : [.tens, .counters, .fabric, .mgmt, .power] ⊆ vs) : Keeps vs u₀ (State.checkHoldover s off) := by
  refine hk.then hm ?_
  clear hk hm
  unfold State.checkHoldover
  try dsimp -proj only
  repeat' first
    | (with_reducible exact Keeps.refl _ _)
    | (with_reducible assumption)
    | decide
    | (with_reducible apply State.dayChip_keeps)
    | (with_reducible apply State.jobEnds_keeps)
    | (with_reducible apply State.raiseTime_keeps)
    | (with_reducible refine Keeps.foldl ?_ (fun _ _ _ => ?_))
    | (with_reducible refine Keeps.foldlFst ?_ (fun _ _ _ => ?_))
    | (with_reducible refine Keeps.ite ?_ ?_)

theorem State.correct_keeps {vs : List View} {u₀ : State} {s : State} {off : Int} (hk : Keeps vs u₀ s) (hm : [.time] ⊆ vs) : Keeps vs u₀ (State.correct s off) := by
  refine hk.then hm ?_
  clear hk hm
  unfold State.correct
  try dsimp -proj only
  repeat' first
    | (with_reducible exact Keeps.refl _ _)
    | (with_reducible assumption)
    | (with_reducible exact Or.inl rfl)
    | exact Or.inr (by decide)
    | decide
    | (with_reducible refine Keeps.ite ?_ ?_)
    | (with_reducible refine Keeps.upd ?_ rfl rfl ?_ ?_ ?_ ?_ ?_ ?_ ?_ ?_ ?_ ?_ ?_ ?_ ?_; rotate_left; fail_if_success (iterate 13 (with_reducible exact Or.inl rfl)))

theorem State.settleProbes_keeps {vs : List View} {u₀ : State} {s : State} (hk : Keeps vs u₀ s) (hm : [.tens, .counters, .fabric, .time, .mgmt, .power] ⊆ vs) : Keeps vs u₀ (State.settleProbes s) := by
  refine hk.then hm ?_
  clear hk hm
  unfold State.settleProbes
  try dsimp -proj only
  repeat' first
    | (with_reducible exact Keeps.refl _ _)
    | (with_reducible assumption)
    | (with_reducible exact Or.inl rfl)
    | exact Or.inr (by decide)
    | decide
    | (with_reducible apply State.countChip_keeps)
    | (with_reducible apply State.checkHoldover_keeps)
    | (with_reducible apply State.correct_keeps)
    | (with_reducible refine Keeps.ite ?_ ?_)
    | (with_reducible refine Keeps.upd ?_ rfl rfl ?_ ?_ ?_ ?_ ?_ ?_ ?_ ?_ ?_ ?_ ?_ ?_ ?_; rotate_left; fail_if_success (iterate 13 (with_reducible exact Or.inl rfl)))
    | split

theorem State.oneProbe_keeps {vs : List View} {u₀ : State} {s : State} {dst : Nat} (hk : Keeps vs u₀ s) (hm : [.tens, .counters, .fabric, .time, .power] ⊆ vs) : Keeps vs u₀ (State.oneProbe s dst) := by
  refine hk.then hm ?_
  clear hk hm
  unfold State.oneProbe
  try dsimp -proj only
  repeat' first
    | (with_reducible exact Keeps.refl _ _)
    | (with_reducible assumption)
    | (with_reducible exact Or.inl rfl)
    | exact Or.inr (by decide)
    | decide
    | (with_reducible apply State.sendProbe_keeps)
    | (with_reducible refine Keeps.upd ?_ rfl rfl ?_ ?_ ?_ ?_ ?_ ?_ ?_ ?_ ?_ ?_ ?_ ?_ ?_; rotate_left; fail_if_success (iterate 13 (with_reducible exact Or.inl rfl)))
    | split

theorem State.sendProbes_keeps {vs : List View} {u₀ : State} {n : Nat} {s : State} {dst : Nat} (hk : Keeps vs u₀ s)
    (hm : [.cs, .mbox, .merges, .words, .tens, .counters, .fabric, .time, .mgmt, .power] ⊆ vs) : Keeps vs u₀ (State.sendProbes n s dst) := by
  induction n generalizing s with
  | zero => exact hk
  | succ m ih =>
    have h : Keeps vs u₀ (s.oneProbe dst) := State.oneProbe_keeps hk (List.Subset.trans (by decide) hm)
    exact ih (Keeps.ite h (State.pass_keeps h (List.Subset.trans (by decide) hm)))

theorem execTallyProbe_keeps {vs : List View} {u₀ : State} {s : State} (hk : Keeps vs u₀ s) (hm : [.cs, .mbox, .merges, .words, .tens, .counters, .fabric, .time, .mgmt, .power] ⊆ vs) : KeepsO vs u₀ (execTallyProbe s) := by
  refine KeepsO.then hk hm ?_
  clear hk hm
  unfold execTallyProbe
  try dsimp -proj only
  repeat' first
    | (with_reducible exact Keeps.refl _ _)
    | (with_reducible assumption)
    | (with_reducible exact Or.inl rfl)
    | exact Or.inr (by decide)
    | decide
    | (with_reducible apply State.passTo_keeps)
    | (with_reducible apply State.forgetPair_keeps)
    | (with_reducible apply State.settleProbes_keeps)
    | (with_reducible apply State.sendProbes_keeps)
    | (with_reducible refine Keeps.ite ?_ ?_)
    | (with_reducible refine KeepsO.next ?_)
    | (with_reducible refine KeepsO.ite ?_ ?_)
    | (with_reducible refine Keeps.upd ?_ rfl rfl ?_ ?_ ?_ ?_ ?_ ?_ ?_ ?_ ?_ ?_ ?_ ?_ ?_; rotate_left; fail_if_success (iterate 13 (with_reducible exact Or.inl rfl)))
    | split

theorem State.takeProbe_keeps {vs : List View} {u₀ : State} {s : State} {p : Port} {f : Frame} {kind : BitVec 4} (hk : Keeps vs u₀ s) (hm : [.tens, .counters, .time, .power] ⊆ vs) : Keeps vs u₀ (State.takeProbe s p f kind).1 := by
  refine hk.then hm ?_
  clear hk hm
  unfold State.takeProbe
  try dsimp -proj only
  repeat' first
    | (with_reducible exact Keeps.refl _ _)
    | (with_reducible assumption)
    | (with_reducible exact Or.inl rfl)
    | exact Or.inr (by decide)
    | decide
    | (with_reducible apply State.count_keeps)
    | (with_reducible apply State.chargeFrame_keeps)
    | (with_reducible apply State.decodePayload_keeps)
    | (with_reducible apply State.hear_keeps)
    | (with_reducible refine Keeps.ite ?_ ?_)
    | (with_reducible refine Keeps.upd ?_ rfl rfl ?_ ?_ ?_ ?_ ?_ ?_ ?_ ?_ ?_ ?_ ?_ ?_ ?_; rotate_left; fail_if_success (iterate 13 (with_reducible exact Or.inl rfl)))
    | split

theorem execProbeFrame_keeps {vs : List View} {u₀ : State} {p : Port} {f : Frame} {s : State} (hk : Keeps vs u₀ s) (hm : [.tens, .counters, .fabric, .time, .mgmt, .power] ⊆ vs) : KeepsO vs u₀ (execProbeFrame p f s) := by
  refine KeepsO.then hk hm ?_
  clear hk hm
  unfold execProbeFrame
  try dsimp -proj only
  repeat' first
    | (with_reducible exact Keeps.refl _ _)
    | (with_reducible assumption)
    | (with_reducible exact Or.inl rfl)
    | exact Or.inr (by decide)
    | decide
    | (with_reducible apply State.selectPll_keeps)
    | (with_reducible apply State.sendProbe_keeps)
    | (with_reducible apply State.takeProbe_keeps)
    | (with_reducible refine KeepsO.next ?_)
    | (with_reducible refine Keeps.upd ?_ rfl rfl ?_ ?_ ?_ ?_ ?_ ?_ ?_ ?_ ?_ ?_ ?_ ?_ ?_; rotate_left; fail_if_success (iterate 13 (with_reducible exact Or.inl rfl)))
    | (with_reducible refine Keeps.getFst (by assumption) ?_)
    | split

theorem execProbeAnswer_keeps {vs : List View} {u₀ : State} {p : Port} {f : Frame} {s : State} (hk : Keeps vs u₀ s) (hm : [.tens, .counters, .time, .mgmt, .power] ⊆ vs) : KeepsO vs u₀ (execProbeAnswer p f s) := by
  refine KeepsO.then hk hm ?_
  clear hk hm
  unfold execProbeAnswer
  try dsimp -proj only
  repeat' first
    | (with_reducible exact Keeps.refl _ _)
    | (with_reducible assumption)
    | (with_reducible exact Or.inl rfl)
    | exact Or.inr (by decide)
    | decide
    | (with_reducible apply State.countChip_keeps)
    | (with_reducible apply State.selectPll_keeps)
    | (with_reducible apply State.takeProbe_keeps)
    | (with_reducible refine Keeps.ite ?_ ?_)
    | (with_reducible refine KeepsO.next ?_)
    | (with_reducible refine KeepsO.ite ?_ ?_)
    | (with_reducible refine Keeps.upd ?_ rfl rfl ?_ ?_ ?_ ?_ ?_ ?_ ?_ ?_ ?_ ?_ ?_ ?_ ?_; rotate_left; fail_if_success (iterate 13 (with_reducible exact Or.inl rfl)))
    | (with_reducible refine Keeps.getFst (by assumption) ?_)
    | split

theorem execPpsInEdge_keeps {vs : List View} {u₀ : State} {s : State} (hk : Keeps vs u₀ s) (hm : [.time] ⊆ vs) : KeepsO vs u₀ (execPpsInEdge s) := by
  refine KeepsO.then hk hm ?_
  clear hk hm
  unfold execPpsInEdge
  try dsimp -proj only
  repeat' first
    | (with_reducible exact Keeps.refl _ _)
    | (with_reducible assumption)
    | (with_reducible exact Or.inl rfl)
    | exact Or.inr (by decide)
    | decide
    | (with_reducible refine KeepsO.next ?_)
    | (with_reducible refine Keeps.upd ?_ rfl rfl ?_ ?_ ?_ ?_ ?_ ?_ ?_ ?_ ?_ ?_ ?_ ?_ ?_; rotate_left; fail_if_success (iterate 13 (with_reducible exact Or.inl rfl)))

theorem execPpsOutEdge_keeps {vs : List View} {u₀ : State} {s : State} (hk : Keeps vs u₀ s) (hm : [.cs, .mbox, .merges, .words, .tens, .counters, .fabric, .time, .mgmt, .power, .board] ⊆ vs) : KeepsO vs u₀ (execPpsOutEdge s) := by
  refine KeepsO.then hk hm ?_
  clear hk hm
  unfold execPpsOutEdge
  try dsimp -proj only
  repeat' first
    | (with_reducible exact Keeps.refl _ _)
    | (with_reducible assumption)
    | (with_reducible exact Or.inl rfl)
    | exact Or.inr (by decide)
    | decide
    | (with_reducible apply State.pass_keeps)
    | (with_reducible refine Keeps.ite ?_ ?_)
    | (with_reducible refine KeepsO.next ?_)
    | (with_reducible refine KeepsO.ite ?_ ?_)
    | (with_reducible refine Keeps.upd ?_ rfl rfl ?_ ?_ ?_ ?_ ?_ ?_ ?_ ?_ ?_ ?_ ?_ ?_ ?_; rotate_left; fail_if_success (iterate 13 (with_reducible exact Or.inl rfl)))

theorem execTallyRefOutEdge_keeps {vs : List View} {u₀ : State} {s : State} (hk : Keeps vs u₀ s) (hm : [.cs, .mbox, .merges, .words, .tens, .counters, .fabric, .time, .mgmt, .power, .board] ⊆ vs) : KeepsO vs u₀ (execTallyRefOutEdge s) := by
  refine KeepsO.then hk hm ?_
  clear hk hm
  unfold execTallyRefOutEdge
  try dsimp -proj only
  repeat' first
    | (with_reducible exact Keeps.refl _ _)
    | (with_reducible assumption)
    | (with_reducible exact Or.inl rfl)
    | exact Or.inr (by decide)
    | decide
    | (with_reducible apply State.pass_keeps)
    | (with_reducible refine Keeps.ite ?_ ?_)
    | (with_reducible refine KeepsO.next ?_)
    | (with_reducible refine KeepsO.ite ?_ ?_)
    | (with_reducible refine Keeps.upd ?_ rfl rfl ?_ ?_ ?_ ?_ ?_ ?_ ?_ ?_ ?_ ?_ ?_ ?_ ?_; rotate_left; fail_if_success (iterate 13 (with_reducible exact Or.inl rfl)))

end Sys2Proof.Machine
end

