-- ==== Sys2Proof/Laws/ServiceKeeps.lean ====
section
/-! SUPPORT. What each operation of Machine/Service.lean may change: the parts named, the queue and the identity never, and no canonical form. -/

namespace Sys2Proof.Machine

open Sys2Proof

theorem State.scrubWord_keeps {vs : List View} {u₀ : State} {s : State} {sp : Space} {a : Nat} {again : Bool} (hk : Keeps vs u₀ s) (hm : [.cs, .mbox, .words, .service, .counters, .fabric, .mgmt] ⊆ vs) : Keeps vs u₀ (State.scrubWord s sp a again) := by
  refine hk.then hm ?_
  clear hk hm
  unfold State.scrubWord
  try dsimp -proj only
  repeat' first
    | (with_reducible exact Keeps.refl _ _)
    | (with_reducible assumption)
    | (with_reducible exact Or.inl rfl)
    | exact Or.inr (by decide)
    | decide
    | (with_reducible apply State.count_keeps)
    | (with_reducible apply State.writeWord_keeps)
    | (with_reducible apply State.markUncorr_keeps)
    | (with_reducible apply State.daybook_keeps)
    | (with_reducible apply State.remap_keeps)
    | (with_reducible refine Keeps.ite ?_ ?_)
    | (with_reducible refine Keeps.upd ?_ rfl rfl ?_ ?_ ?_ ?_ ?_ ?_ ?_ ?_ ?_ ?_ ?_ ?_ ?_; rotate_left; fail_if_success (iterate 13 (with_reducible exact Or.inl rfl)))
    | split

theorem State.scrubData_keeps {vs : List View} {u₀ : State} {s : State} (hk : Keeps vs u₀ s) (hm : [.cs, .mbox, .words, .service, .counters, .fabric, .mgmt] ⊆ vs) : Keeps vs u₀ (State.scrubData s) := by
  refine hk.then hm ?_
  clear hk hm
  unfold State.scrubData
  try dsimp -proj only
  repeat' first
    | (with_reducible exact Keeps.refl _ _)
    | (with_reducible assumption)
    | (with_reducible exact Or.inl rfl)
    | exact Or.inr (by decide)
    | decide
    | (with_reducible apply State.scrubWord_keeps)
    | (with_reducible refine Keeps.foldl ?_ (fun _ _ _ => ?_))
    | (with_reducible refine Keeps.foldlFst ?_ (fun _ _ _ => ?_))
    | (with_reducible refine Keeps.upd ?_ rfl rfl ?_ ?_ ?_ ?_ ?_ ?_ ?_ ?_ ?_ ?_ ?_ ?_ ?_; rotate_left; fail_if_success (iterate 13 (with_reducible exact Or.inl rfl)))
    | ((with_reducible refine Or.inr (?_ : HbmOk _ _ _)); simp +contextual [HbmOk, hbmPut_wf, hbmFilter_wf, hbmClear_wf])

theorem State.scrubPoison_keeps {vs : List View} {u₀ : State} {s : State} {c : Core} {kind a : Nat} (hk : Keeps vs u₀ s) (hm : [.mgmt] ⊆ vs) : Keeps vs u₀ (State.scrubPoison s c kind a) := by
  refine hk.then hm ?_
  clear hk hm
  unfold State.scrubPoison
  try dsimp -proj only
  repeat' first
    | (with_reducible exact Keeps.refl _ _)
    | (with_reducible assumption)
    | (with_reducible exact Or.inl rfl)
    | exact Or.inr (by decide)
    | decide
    | (with_reducible apply State.daybook_keeps)
    | (with_reducible refine Keeps.upd ?_ rfl rfl ?_ ?_ ?_ ?_ ?_ ?_ ?_ ?_ ?_ ?_ ?_ ?_ ?_; rotate_left; fail_if_success (iterate 13 (with_reducible exact Or.inl rfl)))
    | split

theorem State.scrubProg_keeps {vs : List View} {u₀ : State} {s : State} (hk : Keeps vs u₀ s) (hm : [.prog, .mgmt] ⊆ vs) : Keeps vs u₀ (State.scrubProg s) := by
  refine hk.then hm ?_
  clear hk hm
  unfold State.scrubProg
  try dsimp -proj only
  repeat' first
    | (with_reducible exact Keeps.refl _ _)
    | (with_reducible assumption)
    | (with_reducible exact Or.inl rfl)
    | exact Or.inr (by decide)
    | decide
    | (with_reducible apply State.scrubPoison_keeps)
    | (with_reducible refine Keeps.foldl ?_ (fun _ _ _ => ?_))
    | (with_reducible refine Keeps.foldlFst ?_ (fun _ _ _ => ?_))
    | (with_reducible refine Keeps.ite ?_ ?_)
    | (with_reducible refine Keeps.upd ?_ rfl rfl ?_ ?_ ?_ ?_ ?_ ?_ ?_ ?_ ?_ ?_ ?_ ?_ ?_; rotate_left; fail_if_success (iterate 13 (with_reducible exact Or.inl rfl)))
    | ((with_reducible refine Or.inr (?_ : CoresOk _ _ _)); simp +contextual [CoresOk, Cores.wf, memPut_wf, memPuts_wf, memClear_wf, memFilter_wf])

theorem State.scrubDesc_keeps {vs : List View} {u₀ : State} {s : State} (hk : Keeps vs u₀ s) (hm : [.desc, .mgmt] ⊆ vs) : Keeps vs u₀ (State.scrubDesc s) := by
  refine hk.then hm ?_
  clear hk hm
  unfold State.scrubDesc
  try dsimp -proj only
  repeat' first
    | (with_reducible exact Keeps.refl _ _)
    | (with_reducible assumption)
    | (with_reducible exact Or.inl rfl)
    | exact Or.inr (by decide)
    | decide
    | (with_reducible apply State.scrubPoison_keeps)
    | (with_reducible refine Keeps.foldl ?_ (fun _ _ _ => ?_))
    | (with_reducible refine Keeps.foldlFst ?_ (fun _ _ _ => ?_))
    | (with_reducible refine Keeps.ite ?_ ?_)
    | (with_reducible refine Keeps.upd ?_ rfl rfl ?_ ?_ ?_ ?_ ?_ ?_ ?_ ?_ ?_ ?_ ?_ ?_ ?_; rotate_left; fail_if_success (iterate 13 (with_reducible exact Or.inl rfl)))
    | ((with_reducible refine Or.inr (?_ : CoresOk _ _ _)); simp +contextual [CoresOk, Cores.wf, memPut_wf, memPuts_wf, memClear_wf, memFilter_wf])

theorem State.scrubHall_keeps {vs : List View} {u₀ : State} {s : State} (hk : Keeps vs u₀ s) (hm : [.hall, .counters] ⊆ vs) : Keeps vs u₀ (State.scrubHall s) := by
  refine hk.then hm ?_
  clear hk hm
  unfold State.scrubHall
  try dsimp -proj only
  repeat' first
    | (with_reducible exact Keeps.refl _ _)
    | (with_reducible assumption)
    | (with_reducible exact Or.inl rfl)
    | exact Or.inr (by decide)
    | decide
    | (with_reducible apply State.countCore_keeps)
    | (with_reducible refine Keeps.foldl ?_ (fun _ _ _ => ?_))
    | (with_reducible refine Keeps.foldlFst ?_ (fun _ _ _ => ?_))
    | (with_reducible refine Keeps.upd ?_ rfl rfl ?_ ?_ ?_ ?_ ?_ ?_ ?_ ?_ ?_ ?_ ?_ ?_ ?_; rotate_left; fail_if_success (iterate 13 (with_reducible exact Or.inl rfl)))
    | ((with_reducible refine Or.inr (?_ : CoresOk _ _ _)); simp +contextual [CoresOk, Cores.wf, memPut_wf, memPuts_wf, memClear_wf, memFilter_wf])
    | split

theorem State.sparePoison_keeps {vs : List View} {u₀ : State} {s : State} {p kind a : Nat} (hk : Keeps vs u₀ s) (hm : [.mgmt] ⊆ vs) : Keeps vs u₀ (State.sparePoison s p kind a) := by
  refine hk.then hm ?_
  clear hk hm
  unfold State.sparePoison
  try dsimp -proj only
  repeat' first
    | (with_reducible exact Keeps.refl _ _)
    | (with_reducible assumption)
    | decide
    | (with_reducible apply State.daybook_keeps)

theorem State.noteSpare_keeps {vs : List View} {u₀ : State} {s : State} {p : Nat} (hk : Keeps vs u₀ s) (hm : [.service, .counters, .mgmt] ⊆ vs) : Keeps vs u₀ (State.noteSpare s p) := by
  refine hk.then hm ?_
  clear hk hm
  unfold State.noteSpare
  try dsimp -proj only
  repeat' first
    | (with_reducible exact Keeps.refl _ _)
    | (with_reducible assumption)
    | (with_reducible exact Or.inl rfl)
    | exact Or.inr (by decide)
    | decide
    | (with_reducible apply State.count_keeps)
    | (with_reducible apply State.sparePoison_keeps)
    | (with_reducible refine Keeps.foldl ?_ (fun _ _ _ => ?_))
    | (with_reducible refine Keeps.foldlFst ?_ (fun _ _ _ => ?_))
    | (with_reducible refine Keeps.ite ?_ ?_)
    | (with_reducible refine Keeps.upd ?_ rfl rfl ?_ ?_ ?_ ?_ ?_ ?_ ?_ ?_ ?_ ?_ ?_ ?_ ?_; rotate_left; fail_if_success (iterate 13 (with_reducible exact Or.inl rfl)))
    | ((with_reducible refine Or.inr (?_ : HbmOk _ _ _)); simp +contextual [HbmOk, hbmPut_wf, hbmFilter_wf, hbmClear_wf])

theorem scrubbedMem_wf {m : Mem} (h : Memory.wf m = true) : Memory.wf (scrubbedMem m) = true := by
  unfold scrubbedMem
  suffices ∀ (l : Mem) (k : Mem), Memory.wf k = true → Memory.wf (l.foldl (fun (m : Mem) (e : Nat × MemWord) => memPut m e.1 (decodeWord e.2).w) k) = true from
    this m m h
  intro l
  induction l with
  | nil => exact fun _ h => h
  | cons e r ih => exact fun k h => ih _ (memPut_wf _ _ h)

theorem look_idle_wf {m : Sparse SpareStores} (h : ∀ x ∈ m, x.2.wf) (p : Nat) : (look m {} p).wf := by
  unfold look
  cases e : find m p with
  | none => exact ⟨rfl, rfl, rfl⟩
  | some y => exact h (p, y) (find_mem e)

theorem idle_scrubbed_wf {c : Cores} {p : Nat} (h : c.wf) : ∀ x ∈ put ({} : SpareStores) c.idle p (look c.idle {} p).scrubbed, x.2.wf := by
  intro x hx
  rcases mem_put hx with rfl | hx
  · have := look_idle_wf h.2.2.2 p
    exact ⟨scrubbedMem_wf this.1, this.2.1, scrubbedMem_wf this.2.2⟩
  · exact h.2.2.2 x hx

theorem State.scrubSpare_keeps {vs : List View} {u₀ : State} {s : State} {p : Nat} (hk : Keeps vs u₀ s) (hm : [.idle, .service, .counters, .mgmt] ⊆ vs) : Keeps vs u₀ (State.scrubSpare s p) := by
  refine hk.then hm ?_
  clear hk hm
  unfold State.scrubSpare
  try dsimp -proj only
  repeat' first
    | (exact Or.inr (coresOk_idle idle_scrubbed_wf))
    | (with_reducible exact Keeps.refl _ _)
    | (with_reducible assumption)
    | (with_reducible exact Or.inl rfl)
    | exact Or.inr (by decide)
    | decide
    | (with_reducible apply State.noteSpare_keeps)
    | (with_reducible refine Keeps.upd ?_ rfl rfl ?_ ?_ ?_ ?_ ?_ ?_ ?_ ?_ ?_ ?_ ?_ ?_ ?_; rotate_left; fail_if_success (iterate 13 (with_reducible exact Or.inl rfl)))

theorem State.scrubSpares_keeps {vs : List View} {u₀ : State} {s : State} (hk : Keeps vs u₀ s) (hm : [.idle, .service, .counters, .mgmt] ⊆ vs) : Keeps vs u₀ (State.scrubSpares s) := by
  refine hk.then hm ?_
  clear hk hm
  unfold State.scrubSpares
  try dsimp -proj only
  repeat' first
    | (with_reducible exact Keeps.refl _ _)
    | (with_reducible assumption)
    | decide
    | (with_reducible apply State.scrubSpare_keeps)
    | (with_reducible refine Keeps.foldl ?_ (fun _ _ _ => ?_))

theorem State.chargeScrub_keeps {vs : List View} {u₀ : State} {s : State} (hk : Keeps vs u₀ s) (hm : [.tens, .power] ⊆ vs) : Keeps vs u₀ (State.chargeScrub s) := by
  refine hk.then hm ?_
  clear hk hm
  unfold State.chargeScrub
  try dsimp -proj only
  repeat' first
    | (with_reducible exact Keeps.refl _ _)
    | (with_reducible assumption)
    | decide
    | (with_reducible apply State.charge_keeps)
    | (with_reducible refine Keeps.foldl ?_ (fun _ _ _ => ?_))

theorem State.logBehind_keeps {vs : List View} {u₀ : State} {s : State} (hk : Keeps vs u₀ s) (hm : [.service, .counters, .mgmt] ⊆ vs) : Keeps vs u₀ (State.logBehind s) := by
  refine hk.then hm ?_
  clear hk hm
  unfold State.logBehind
  try dsimp -proj only
  repeat' first
    | (with_reducible exact Keeps.refl _ _)
    | (with_reducible assumption)
    | (with_reducible exact Or.inl rfl)
    | exact Or.inr (by decide)
    | decide
    | (with_reducible apply State.countChip_keeps)
    | (with_reducible apply State.dayChip_keeps)
    | (with_reducible refine Keeps.ite ?_ ?_)
    | (with_reducible refine Keeps.upd ?_ rfl rfl ?_ ?_ ?_ ?_ ?_ ?_ ?_ ?_ ?_ ?_ ?_ ?_ ?_; rotate_left; fail_if_success (iterate 13 (with_reducible exact Or.inl rfl)))
    | ((with_reducible refine Or.inr (?_ : HbmOk _ _ _)); simp +contextual [HbmOk, hbmPut_wf, hbmFilter_wf, hbmClear_wf])

theorem State.beginPass_keeps {vs : List View} {u₀ : State} {s : State} (hk : Keeps vs u₀ s) (hm : [.service] ⊆ vs) : Keeps vs u₀ (State.beginPass s) := by
  refine hk.then hm ?_
  clear hk hm
  unfold State.beginPass
  try dsimp -proj only
  repeat' first
    | (with_reducible exact Keeps.refl _ _)
    | (with_reducible assumption)
    | (with_reducible exact Or.inl rfl)
    | exact Or.inr (by decide)
    | decide
    | (with_reducible refine Keeps.upd ?_ rfl rfl ?_ ?_ ?_ ?_ ?_ ?_ ?_ ?_ ?_ ?_ ?_ ?_ ?_; rotate_left; fail_if_success (iterate 13 (with_reducible exact Or.inl rfl)))
    | ((with_reducible refine Or.inr (?_ : HbmOk _ _ _)); simp +contextual [HbmOk, hbmPut_wf, hbmFilter_wf, hbmClear_wf])

theorem execScrubPass_keeps {vs : List View} {u₀ : State} {s : State} (hk : Keeps vs u₀ s) (hm : [.cs, .prog, .desc, .mbox, .hall, .idle, .words, .service, .tens, .counters, .fabric, .mgmt, .power] ⊆ vs) : KeepsO vs u₀ (execScrubPass s) := by
  refine KeepsO.then hk hm ?_
  clear hk hm
  unfold execScrubPass
  try dsimp -proj only
  repeat' first
    | (with_reducible exact Keeps.refl _ _)
    | (with_reducible assumption)
    | decide
    | (with_reducible apply State.countChip_keeps)
    | (with_reducible apply State.scrubData_keeps)
    | (with_reducible apply State.scrubProg_keeps)
    | (with_reducible apply State.scrubDesc_keeps)
    | (with_reducible apply State.scrubHall_keeps)
    | (with_reducible apply State.scrubSpares_keeps)
    | (with_reducible apply State.chargeScrub_keeps)
    | (with_reducible apply State.logBehind_keeps)
    | (with_reducible apply State.beginPass_keeps)
    | (with_reducible refine KeepsO.next ?_)

theorem execScrubBehind_keeps {vs : List View} {u₀ : State} {s : State} (hk : Keeps vs u₀ s) (hm : [.cs, .mbox, .merges, .words, .service, .tens, .counters, .fabric, .time, .mgmt, .power] ⊆ vs) : KeepsO vs u₀ (execScrubBehind s) := by
  refine KeepsO.then hk hm ?_
  clear hk hm
  unfold execScrubBehind
  try dsimp -proj only
  repeat' first
    | (with_reducible exact Keeps.refl _ _)
    | (with_reducible assumption)
    | decide
    | (with_reducible apply State.passTo_keeps)
    | (with_reducible apply State.logBehind_keeps)
    | (with_reducible refine Keeps.ite ?_ ?_)
    | (with_reducible refine KeepsO.next ?_)
    | (with_reducible refine KeepsO.ite ?_ ?_)

theorem execRefreshHole_keeps {vs : List View} {u₀ : State} {s : State} (hk : Keeps vs u₀ s) (hm : [.cs, .mbox, .merges, .words, .service, .tens, .counters, .fabric, .time, .mgmt, .power] ⊆ vs) : KeepsO vs u₀ (execRefreshHole s) := by
  refine KeepsO.then hk hm ?_
  clear hk hm
  unfold execRefreshHole
  try dsimp -proj only
  repeat' first
    | (with_reducible exact Keeps.refl _ _)
    | (with_reducible assumption)
    | (with_reducible exact Or.inl rfl)
    | exact Or.inr (by decide)
    | decide
    | (with_reducible apply State.charge_keeps)
    | (with_reducible apply State.passTo_keeps)
    | (with_reducible refine Keeps.foldl ?_ (fun _ _ _ => ?_))
    | (with_reducible refine Keeps.foldlFst ?_ (fun _ _ _ => ?_))
    | (with_reducible refine KeepsO.next ?_)
    | (with_reducible refine Keeps.upd ?_ rfl rfl ?_ ?_ ?_ ?_ ?_ ?_ ?_ ?_ ?_ ?_ ?_ ?_ ?_; rotate_left; fail_if_success (iterate 13 (with_reducible exact Or.inl rfl)))
    | ((with_reducible refine Or.inr (?_ : HbmOk _ _ _)); simp +contextual [HbmOk, hbmPut_wf, hbmFilter_wf, hbmClear_wf])
    | split

theorem execCalibrationHole_keeps {vs : List View} {u₀ : State} {events : List (BitVec 16)} {s : State} (hk : Keeps vs u₀ s) (hm : [.cs, .mbox, .merges, .words, .service, .tens, .counters, .fabric, .time, .mgmt, .power] ⊆ vs) : KeepsO vs u₀ (execCalibrationHole events s) := by
  refine KeepsO.then hk hm ?_
  clear hk hm
  unfold execCalibrationHole
  try dsimp -proj only
  repeat' first
    | (with_reducible exact Keeps.refl _ _)
    | (with_reducible assumption)
    | (with_reducible exact Or.inl rfl)
    | exact Or.inr (by decide)
    | decide
    | (with_reducible apply State.count_keeps)
    | (with_reducible apply State.passTo_keeps)
    | (with_reducible refine Keeps.foldl ?_ (fun _ _ _ => ?_))
    | (with_reducible refine Keeps.foldlFst ?_ (fun _ _ _ => ?_))
    | (with_reducible refine Keeps.ite ?_ ?_)
    | (with_reducible refine KeepsO.next ?_)
    | (with_reducible refine KeepsO.ite ?_ ?_)
    | (with_reducible refine Keeps.upd ?_ rfl rfl ?_ ?_ ?_ ?_ ?_ ?_ ?_ ?_ ?_ ?_ ?_ ?_ ?_; rotate_left; fail_if_success (iterate 13 (with_reducible exact Or.inl rfl)))
    | ((with_reducible refine Or.inr (?_ : HbmOk _ _ _)); simp +contextual [HbmOk, hbmPut_wf, hbmFilter_wf, hbmClear_wf])
    | split

theorem execLedgerSnapshot_keeps {vs : List View} {u₀ : State} {s : State} (hk : Keeps vs u₀ s) (hm : [.cs, .mbox, .merges, .words, .tens, .counters, .fabric, .time, .mgmt, .power] ⊆ vs) : KeepsO vs u₀ (execLedgerSnapshot s) := by
  refine KeepsO.then hk hm ?_
  clear hk hm
  unfold execLedgerSnapshot
  try dsimp -proj only
  repeat' first
    | (with_reducible exact Keeps.refl _ _)
    | (with_reducible assumption)
    | (with_reducible exact Or.inl rfl)
    | exact Or.inr (by decide)
    | decide
    | (with_reducible apply State.addFigure_keeps)
    | (with_reducible apply State.commitFigures_keeps)
    | (with_reducible apply State.passTo_keeps)
    | (with_reducible refine KeepsO.next ?_)
    | (with_reducible refine Keeps.upd ?_ rfl rfl ?_ ?_ ?_ ?_ ?_ ?_ ?_ ?_ ?_ ?_ ?_ ?_ ?_; rotate_left; fail_if_success (iterate 13 (with_reducible exact Or.inl rfl)))

theorem execLedgerEventWrite_keeps {vs : List View} {u₀ : State} {s : State} (hk : Keeps vs u₀ s) (hm : [.cs, .mbox, .merges, .words, .tens, .counters, .fabric, .time, .mgmt, .power] ⊆ vs) : KeepsO vs u₀ (execLedgerEventWrite s) := by
  refine KeepsO.then hk hm ?_
  clear hk hm
  unfold execLedgerEventWrite
  try dsimp -proj only
  repeat' first
    | (with_reducible exact Keeps.refl _ _)
    | (with_reducible assumption)
    | (with_reducible exact Or.inl rfl)
    | exact Or.inr (by decide)
    | decide
    | (with_reducible apply State.commitEvents_keeps)
    | (with_reducible apply State.passTo_keeps)
    | (with_reducible refine Keeps.ite ?_ ?_)
    | (with_reducible refine KeepsO.next ?_)
    | (with_reducible refine KeepsO.ite ?_ ?_)
    | split

theorem State.applyAssay_keeps {vs : List View} {u₀ : State} {s : State} {r : AssayResult} (hk : Keeps vs u₀ s) (hm : [.fabric, .mgmt, .power] ⊆ vs) : Keeps vs u₀ (State.applyAssay s r) := by
  refine hk.then hm ?_
  clear hk hm
  unfold State.applyAssay
  try dsimp -proj only
  repeat' first
    | (with_reducible exact Keeps.refl _ _)
    | (with_reducible assumption)
    | (with_reducible exact Or.inl rfl)
    | exact Or.inr (by decide)
    | decide
    | (with_reducible apply State.addFigure_keeps)
    | (with_reducible apply State.modPort_keeps)
    | (with_reducible refine Keeps.ite ?_ ?_)
    | (with_reducible refine Keeps.upd ?_ rfl rfl ?_ ?_ ?_ ?_ ?_ ?_ ?_ ?_ ?_ ?_ ?_ ?_ ?_; rotate_left; fail_if_success (iterate 13 (with_reducible exact Or.inl rfl)))
    | split

theorem execAssayComplete_keeps {vs : List View} {u₀ : State} {r : AssayResult} {s : State} (hk : Keeps vs u₀ s) (hm : [.fabric, .mgmt, .power] ⊆ vs) : KeepsO vs u₀ (execAssayComplete r s) := by
  refine KeepsO.then hk hm ?_
  clear hk hm
  unfold execAssayComplete
  try dsimp -proj only
  repeat' first
    | (with_reducible exact Keeps.refl _ _)
    | (with_reducible assumption)
    | (with_reducible exact Or.inl rfl)
    | exact Or.inr (by decide)
    | decide
    | (with_reducible apply State.daybook_keeps)
    | (with_reducible apply State.startAssays_keeps)
    | (with_reducible apply State.raiseInt_keeps)
    | (with_reducible apply State.notice_keeps)
    | (with_reducible apply State.applyAssay_keeps)
    | (with_reducible refine Keeps.ite ?_ ?_)
    | (with_reducible refine KeepsO.next ?_)
    | (with_reducible refine KeepsO.ite ?_ ?_)
    | (with_reducible refine Keeps.upd ?_ rfl rfl ?_ ?_ ?_ ?_ ?_ ?_ ?_ ?_ ?_ ?_ ?_ ?_ ?_; rotate_left; fail_if_success (iterate 13 (with_reducible exact Or.inl rfl)))
    | split

end Sys2Proof.Machine
end

