-- ==== Sys2Proof/Laws/ManageKeeps.lean ====
section
/-! SUPPORT. What each operation of Machine/Manage.lean may change: the parts named, the queue and the identity never, and no canonical form. -/

namespace Sys2Proof.Machine

open Sys2Proof

set_option Elab.async false

theorem State.popReq_keeps {vs : List View} {u₀ : State} {s : State} {fn : Nat} (hk : Keeps vs u₀ s) (hm : [.mgmt] ⊆ vs) : Keeps vs u₀ (State.popReq s fn) := by
  refine hk.then hm ?_
  clear hk hm
  unfold State.popReq
  try dsimp -proj only
  repeat' first
    | (with_reducible exact Keeps.refl _ _)
    | (with_reducible assumption)
    | (with_reducible exact Or.inl rfl)
    | exact Or.inr (by decide)
    | decide
    | (with_reducible apply State.setBox_keeps)
    | (with_reducible refine Keeps.ite ?_ ?_)

/-- A request changes what its action changes, and the mailboxes of management. -/
theorem State.takeReq_keeps {vs : List View} {u₀ s : State} {r : Req} {kind : Nat} {pfOnly : Bool} {act : State → State × Nat × Nat}
    (hk : Keeps vs u₀ s) (hm : [.mgmt] ⊆ vs) (hf : ∀ u, Keeps vs u₀ u → Keeps vs u₀ (act u).1) :
    KeepsO vs u₀ (State.takeReq s r kind pfOnly act) := by
  have h : Keeps vs u₀ (s.popReq r.fn.val) := State.popReq_keeps hk (List.Subset.trans (by decide) hm)
  have g : ∀ {u : State} {a b : Nat}, Keeps vs u₀ u → Keeps vs u₀ (u.answer r kind a b) := fun k =>
    State.answer_keeps k (List.Subset.trans (by decide) hm)
  unfold State.takeReq
  dsimp -proj only
  split
  · exact KeepsO.next hk
  · split
    · exact KeepsO.next (g h)
    · split
      · exact KeepsO.next (g h)
      · exact KeepsO.next (g (hf _ h))

theorem onTen_keeps {vs : List View} {u₀ s : State} {r : Req} {ten : BitVec 8} {act : State × Nat × Nat} (hk : Keeps vs u₀ s)
    (ha : Keeps vs u₀ act.1) : Keeps vs u₀ (onTen r ten s act).1 := by
  unfold onTen
  split
  · exact hk
  · split
    · exact hk
    · exact ha

theorem State.grant_keeps {vs : List View} {u₀ : State} {s : State} {arb req n : Nat} (hk : Keeps vs u₀ s) (hm : [.counters] ⊆ vs) : Keeps vs u₀ (State.grant s arb req n) := by
  refine hk.then hm ?_
  clear hk hm
  unfold State.grant
  try dsimp -proj only
  repeat' first
    | (with_reducible exact Keeps.refl _ _)
    | (with_reducible assumption)
    | decide
    | (with_reducible apply State.count_keeps)

theorem State.toHost_keeps {vs : List View} {u₀ : State} {s : State} {req : Nat} {addr : Nat} {ws : List (BitVec 256)} (hk : Keeps vs u₀ s) (hm : [.counters, .mgmt] ⊆ vs) : Keeps vs u₀ (State.toHost s req addr ws) := by
  refine hk.then hm ?_
  clear hk hm
  unfold State.toHost
  try dsimp -proj only
  repeat' first
    | (with_reducible exact Keeps.refl _ _)
    | (with_reducible assumption)
    | (with_reducible exact Or.inl rfl)
    | exact Or.inr (by decide)
    | decide
    | (with_reducible apply State.grant_keeps)
    | (with_reducible refine Keeps.foldl ?_ (fun _ _ _ => ?_))
    | (with_reducible refine Keeps.foldlFst ?_ (fun _ _ _ => ?_))
    | (with_reducible refine Keeps.upd ?_ rfl rfl ?_ ?_ ?_ ?_ ?_ ?_ ?_ ?_ ?_ ?_ ?_ ?_ ?_; rotate_left; fail_if_success (iterate 13 (with_reducible exact Or.inl rfl)))

theorem State.dayInts_keeps {vs : List View} {u₀ : State} {s : State} {w : BitVec 256} {readers : List Nat} (hk : Keeps vs u₀ s) (hm : [.mgmt] ⊆ vs) : Keeps vs u₀ (State.dayInts s w readers) := by
  refine hk.then hm ?_
  clear hk hm
  unfold State.dayInts
  try dsimp -proj only
  repeat' first
    | (with_reducible exact Keeps.refl _ _)
    | (with_reducible assumption)
    | decide
    | (with_reducible apply State.raiseInt_keeps)
    | (with_reducible refine Keeps.foldl ?_ (fun _ _ _ => ?_))
    | (with_reducible refine Keeps.foldlFst ?_ (fun _ _ _ => ?_))
    | (with_reducible refine Keeps.ite ?_ ?_)

theorem State.addEntry_keeps {vs : List View} {u₀ : State} {s : State} {w : BitVec 256} {rs : List Nat} (hk : Keeps vs u₀ s) (hm : [.mgmt] ⊆ vs) : Keeps vs u₀ (State.addEntry s w rs) := by
  refine hk.then hm ?_
  clear hk hm
  unfold State.addEntry
  try dsimp -proj only
  repeat' first
    | (with_reducible exact Keeps.refl _ _)
    | (with_reducible assumption)
    | (with_reducible exact Or.inl rfl)
    | exact Or.inr (by decide)
    | decide
    | (with_reducible apply State.dayInts_keeps)
    | (with_reducible refine Keeps.upd ?_ rfl rfl ?_ ?_ ?_ ?_ ?_ ?_ ?_ ?_ ?_ ?_ ?_ ?_ ?_; rotate_left; fail_if_success (iterate 13 (with_reducible exact Or.inl rfl)))

theorem State.releaseOne_keeps {vs : List View} {u₀ : State} {s : State} {w : BitVec 256} (hk : Keeps vs u₀ s) (hm : [.mgmt] ⊆ vs) : Keeps vs u₀ (State.releaseOne s w) := by
  refine hk.then hm ?_
  clear hk hm
  unfold State.releaseOne
  try dsimp -proj only
  repeat' first
    | (with_reducible exact Keeps.refl _ _)
    | (with_reducible assumption)
    | (with_reducible exact Or.inl rfl)
    | exact Or.inr (by decide)
    | decide
    | (with_reducible apply State.addEntry_keeps)
    | (with_reducible refine Keeps.ite ?_ ?_)
    | (with_reducible refine Keeps.upd ?_ rfl rfl ?_ ?_ ?_ ?_ ?_ ?_ ?_ ?_ ?_ ?_ ?_ ?_ ?_; rotate_left; fail_if_success (iterate 13 (with_reducible exact Or.inl rfl)))
    | split

theorem execDaybookRelease_keeps {vs : List View} {u₀ : State} {s : State} (hk : Keeps vs u₀ s) (hm : [.cs, .mbox, .merges, .words, .tens, .counters, .fabric, .time, .mgmt, .power] ⊆ vs) : KeepsO vs u₀ (execDaybookRelease s) := by
  refine KeepsO.then hk hm ?_
  clear hk hm
  unfold execDaybookRelease
  try dsimp -proj only
  repeat' first
    | (with_reducible exact Keeps.refl _ _)
    | (with_reducible assumption)
    | (with_reducible exact Or.inl rfl)
    | exact Or.inr (by decide)
    | decide
    | (with_reducible apply State.passTo_keeps)
    | (with_reducible apply State.releaseOne_keeps)
    | (with_reducible refine Keeps.foldl ?_ (fun _ _ _ => ?_))
    | (with_reducible refine Keeps.foldlFst ?_ (fun _ _ _ => ?_))
    | (with_reducible refine KeepsO.next ?_)
    | (with_reducible refine Keeps.upd ?_ rfl rfl ?_ ?_ ?_ ?_ ?_ ?_ ?_ ?_ ?_ ?_ ?_ ?_ ?_; rotate_left; fail_if_success (iterate 13 (with_reducible exact Or.inl rfl)))
    | split

theorem execDaybookDrain_keeps {vs : List View} {u₀ : State} {r : Req} {addr : BitVec 64} {limit : BitVec 16} {s : State} (hk : Keeps vs u₀ s) (hm : [.counters, .mgmt] ⊆ vs) : KeepsO vs u₀ (execDaybookDrain r addr limit s) := by
  refine KeepsO.then hk hm ?_
  clear hk hm
  unfold execDaybookDrain
  try dsimp -proj only
  repeat' first
    | (with_reducible exact Keeps.refl _ _)
    | (with_reducible assumption)
    | (with_reducible exact Or.inl rfl)
    | exact Or.inr (by decide)
    | decide
    | ((with_reducible refine State.takeReq_keeps ?_ ?_ (fun _ _ => ?_)) <;> try dsimp -proj only)
    | (with_reducible apply State.toHost_keeps)
    | (with_reducible refine Keeps.ite ?_ ?_)
    | (with_reducible refine KeepsO.next ?_)
    | (with_reducible refine KeepsO.ite ?_ ?_)
    | (with_reducible refine Keeps.upd ?_ rfl rfl ?_ ?_ ?_ ?_ ?_ ?_ ?_ ?_ ?_ ?_ ?_ ?_ ?_; rotate_left; fail_if_success (iterate 13 (with_reducible exact Or.inl rfl)))
    | split

theorem execLedgerRead_keeps {vs : List View} {u₀ : State} {r : Req} {sec : BitVec 8} {addr : BitVec 64} {s : State} (hk : Keeps vs u₀ s) (hm : [.counters, .mgmt] ⊆ vs) : KeepsO vs u₀ (execLedgerRead r sec addr s) := by
  refine KeepsO.then hk hm ?_
  clear hk hm
  unfold execLedgerRead
  try dsimp -proj only
  repeat' first
    | (with_reducible exact Keeps.refl _ _)
    | (with_reducible assumption)
    | decide
    | ((with_reducible refine State.takeReq_keeps ?_ ?_ (fun _ _ => ?_)) <;> try dsimp -proj only)
    | (with_reducible apply State.toHost_keeps)
    | (with_reducible refine Keeps.ite ?_ ?_)
    | (with_reducible refine KeepsO.next ?_)
    | (with_reducible refine KeepsO.ite ?_ ?_)
    | split

theorem execAssayRequest_keeps {vs : List View} {u₀ : State} {r : Req} {kind : BitVec 8} {target : BitVec 16} {force : Bool} {s : State} (hk : Keeps vs u₀ s) (hm : [.fabric, .mgmt] ⊆ vs) : KeepsO vs u₀ (execAssayRequest r kind target force s) := by
  refine KeepsO.then hk hm ?_
  clear hk hm
  unfold execAssayRequest
  try dsimp -proj only
  repeat' first
    | (with_reducible exact Keeps.refl _ _)
    | (with_reducible assumption)
    | decide
    | (with_reducible apply State.requestAssay_keeps)
    | ((with_reducible refine State.takeReq_keeps ?_ ?_ (fun _ _ => ?_)) <;> try dsimp -proj only)
    | (with_reducible refine Keeps.ite ?_ ?_)
    | (with_reducible refine KeepsO.next ?_)
    | (with_reducible refine KeepsO.ite ?_ ?_)
    | split

theorem execCapSet_keeps {vs : List View} {u₀ : State} {r : Req} {watts : BitVec 16} {s : State} (hk : Keeps vs u₀ s) (hm : [.mgmt, .power] ⊆ vs) : KeepsO vs u₀ (execCapSet r watts s) := by
  refine KeepsO.then hk hm ?_
  clear hk hm
  unfold execCapSet
  try dsimp -proj only
  repeat' first
    | (with_reducible exact Keeps.refl _ _)
    | (with_reducible assumption)
    | (with_reducible exact Or.inl rfl)
    | exact Or.inr (by decide)
    | decide
    | ((with_reducible refine State.takeReq_keeps ?_ ?_ (fun _ _ => ?_)) <;> try dsimp -proj only)
    | (with_reducible refine Keeps.ite ?_ ?_)
    | (with_reducible refine KeepsO.next ?_)
    | (with_reducible refine KeepsO.ite ?_ ?_)
    | (with_reducible refine Keeps.upd ?_ rfl rfl ?_ ?_ ?_ ?_ ?_ ?_ ?_ ?_ ?_ ?_ ?_ ?_ ?_; rotate_left; fail_if_success (iterate 13 (with_reducible exact Or.inl rfl)))
    | split

theorem execArbiterPriority_keeps {vs : List View} {u₀ : State} {r : Req} {mask : BitVec 33} {requester : BitVec 4} {level : BitVec 3} {row : BitVec 16} {s : State} (hk : Keeps vs u₀ s) (hm : [.mgmt] ⊆ vs) : KeepsO vs u₀ (execArbiterPriority r mask requester level row s) := by
  refine KeepsO.then hk hm ?_
  clear hk hm
  unfold execArbiterPriority
  try dsimp -proj only
  repeat' first
    | (with_reducible exact Keeps.refl _ _)
    | (with_reducible assumption)
    | (with_reducible exact Or.inl rfl)
    | exact Or.inr (by decide)
    | decide
    | (with_reducible apply State.dayChip_keeps)
    | ((with_reducible refine State.takeReq_keeps ?_ ?_ (fun _ _ => ?_)) <;> try dsimp -proj only)
    | (with_reducible refine Keeps.foldl ?_ (fun _ _ _ => ?_))
    | (with_reducible refine Keeps.foldlFst ?_ (fun _ _ _ => ?_))
    | (with_reducible refine KeepsO.next ?_)
    | (with_reducible refine Keeps.upd ?_ rfl rfl ?_ ?_ ?_ ?_ ?_ ?_ ?_ ?_ ?_ ?_ ?_ ?_ ?_; rotate_left; fail_if_success (iterate 13 (with_reducible exact Or.inl rfl)))
    | split

theorem State.timeOp_keeps {vs : List View} {u₀ : State} {s : State} {op : TimeOp} (hk : Keeps vs u₀ s) (hm : [.time, .mgmt] ⊆ vs) : Keeps vs u₀ (State.timeOp s op).1 := by
  refine hk.then hm ?_
  clear hk hm
  unfold State.timeOp
  try dsimp -proj only
  repeat' first
    | (with_reducible exact Keeps.refl _ _)
    | (with_reducible assumption)
    | (with_reducible exact Or.inl rfl)
    | exact Or.inr (by decide)
    | decide
    | (with_reducible apply State.selectPll_keeps)
    | (with_reducible refine Keeps.ite ?_ ?_)
    | (with_reducible refine Keeps.upd ?_ rfl rfl ?_ ?_ ?_ ?_ ?_ ?_ ?_ ?_ ?_ ?_ ?_ ?_ ?_; rotate_left; fail_if_success (iterate 13 (with_reducible exact Or.inl rfl)))
    | split

theorem execTimeSetup_keeps {vs : List View} {u₀ : State} {r : Req} {op : TimeOp} {s : State} (hk : Keeps vs u₀ s) (hm : [.time, .mgmt] ⊆ vs) : KeepsO vs u₀ (execTimeSetup r op s) := by
  refine KeepsO.then hk hm ?_
  clear hk hm
  unfold execTimeSetup
  try dsimp -proj only
  repeat' first
    | (with_reducible exact Keeps.refl _ _)
    | (with_reducible assumption)
    | decide
    | ((with_reducible refine State.takeReq_keeps ?_ ?_ (fun _ _ => ?_)) <;> try dsimp -proj only)
    | (with_reducible apply State.timeOp_keeps)

theorem execDelayRequest_keeps {vs : List View} {u₀ : State} {seqId : BitVec 16} {s : State} (hk : Keeps vs u₀ s) (hm : [.time] ⊆ vs) : KeepsO vs u₀ (execDelayRequest seqId s) := by
  refine KeepsO.then hk hm ?_
  clear hk hm
  unfold execDelayRequest
  try dsimp -proj only
  repeat' first
    | (with_reducible exact Keeps.refl _ _)
    | (with_reducible assumption)
    | (with_reducible exact Or.inl rfl)
    | exact Or.inr (by decide)
    | decide
    | (with_reducible refine Keeps.ite ?_ ?_)
    | (with_reducible refine KeepsO.next ?_)
    | (with_reducible refine KeepsO.ite ?_ ?_)
    | (with_reducible refine Keeps.upd ?_ rfl rfl ?_ ?_ ?_ ?_ ?_ ?_ ?_ ?_ ?_ ?_ ?_ ?_ ?_; rotate_left; fail_if_success (iterate 13 (with_reducible exact Or.inl rfl)))

theorem execLaunch_keeps {vs : List View} {u₀ : State} {r : Req} {ten : BitVec 8} {course : BitVec 50} {s : State} (hk : Keeps vs u₀ s) (hm : [.tens, .counters, .fabric, .mgmt, .power] ⊆ vs) : KeepsO vs u₀ (execLaunch r ten course s) := by
  refine KeepsO.then hk hm ?_
  clear hk hm
  unfold execLaunch
  try dsimp -proj only
  repeat' first
    | (with_reducible exact Keeps.refl _ _)
    | (with_reducible assumption)
    | decide
    | (with_reducible apply State.broadcast_keeps)
    | (with_reducible apply State.takeLaunch_keeps)
    | ((with_reducible refine State.takeReq_keeps ?_ ?_ (fun _ _ => ?_)) <;> try dsimp -proj only)
    | (with_reducible apply onTen_keeps)
    | (with_reducible refine Keeps.ite ?_ ?_)
    | (with_reducible refine KeepsO.next ?_)
    | (with_reducible refine KeepsO.ite ?_ ?_)
    | split

theorem execBlankRequest_keeps {vs : List View} {u₀ : State} {r : Req} {ten count : BitVec 8} {s : State} (hk : Keeps vs u₀ s) (hm : [.tens, .counters, .fabric, .mgmt, .power] ⊆ vs) : KeepsO vs u₀ (execBlankRequest r ten count s) := by
  refine KeepsO.then hk hm ?_
  clear hk hm
  unfold execBlankRequest
  try dsimp -proj only
  repeat' first
    | (with_reducible exact Keeps.refl _ _)
    | (with_reducible assumption)
    | decide
    | (with_reducible apply State.announce_keeps)
    | ((with_reducible refine State.takeReq_keeps ?_ ?_ (fun _ _ => ?_)) <;> try dsimp -proj only)
    | (with_reducible apply onTen_keeps)
    | (with_reducible refine Keeps.foldl ?_ (fun _ _ _ => ?_))
    | (with_reducible refine Keeps.foldlFst ?_ (fun _ _ _ => ?_))
    | (with_reducible refine Keeps.ite ?_ ?_)
    | (with_reducible refine KeepsO.next ?_)
    | (with_reducible refine KeepsO.ite ?_ ?_)
    | split

theorem State.repairRow_keeps {vs : List View} {u₀ : State} {s : State} {row : Nat} {ok : Bool} (hk : Keeps vs u₀ s) (hm : [.service, .mgmt] ⊆ vs) : Keeps vs u₀ (State.repairRow s row ok) := by
  refine hk.then hm ?_
  clear hk hm
  unfold State.repairRow
  try dsimp -proj only
  repeat' first
    | (with_reducible exact Keeps.refl _ _)
    | (with_reducible assumption)
    | (with_reducible exact Or.inl rfl)
    | exact Or.inr (by decide)
    | decide
    | (with_reducible refine Keeps.ite ?_ ?_)
    | (with_reducible refine Keeps.upd ?_ rfl rfl ?_ ?_ ?_ ?_ ?_ ?_ ?_ ?_ ?_ ?_ ?_ ?_ ?_; rotate_left; fail_if_success (iterate 13 (with_reducible exact Or.inl rfl)))
    | ((with_reducible refine Or.inr (?_ : HbmOk _ _ _)); simp +contextual [HbmOk, hbmPut_wf, hbmFilter_wf, hbmClear_wf])

theorem execMaintenance_keeps {vs : List View} {u₀ : State} {r : Req} {repaired : List Bool} {s : State} (hk : Keeps vs u₀ s) (hm : [.service, .fabric, .mgmt] ⊆ vs) : KeepsO vs u₀ (execMaintenance r repaired s) := by
  refine KeepsO.then hk hm ?_
  clear hk hm
  unfold execMaintenance
  try dsimp -proj only
  repeat' first
    | (with_reducible exact Keeps.refl _ _)
    | (with_reducible assumption)
    | decide
    | (with_reducible apply State.startAssays_keeps)
    | ((with_reducible refine State.takeReq_keeps ?_ ?_ (fun _ _ => ?_)) <;> try dsimp -proj only)
    | (with_reducible apply State.repairRow_keeps)
    | (with_reducible refine Keeps.foldl ?_ (fun _ _ _ => ?_))
    | (with_reducible refine Keeps.foldlFst ?_ (fun _ _ _ => ?_))
    | (with_reducible refine Keeps.ite ?_ ?_)
    | (with_reducible refine KeepsO.next ?_)
    | (with_reducible refine KeepsO.ite ?_ ?_)
    | split

theorem execUnknownKind_keeps {vs : List View} {u₀ : State} {r : Req} {kind : BitVec 8} {s : State} (hk : Keeps vs u₀ s) (hm : [.mgmt] ⊆ vs) : KeepsO vs u₀ (execUnknownKind r kind s) := by
  refine KeepsO.then hk hm ?_
  clear hk hm
  unfold execUnknownKind
  try dsimp -proj only
  repeat' first
    | (with_reducible exact Keeps.refl _ _)
    | (with_reducible assumption)
    | decide
    | ((with_reducible refine State.takeReq_keeps ?_ ?_ (fun _ _ => ?_)) <;> try dsimp -proj only)

theorem State.setSlot_keeps {vs : List View} {u₀ : State} {s : State} {b : Bool} {f : FwSlot} (hk : Keeps vs u₀ s) (hm : [.mgmt] ⊆ vs) : Keeps vs u₀ (State.setSlot s b f) := by
  refine hk.then hm ?_
  clear hk hm
  unfold State.setSlot
  try dsimp -proj only
  repeat' first
    | (with_reducible exact Keeps.refl _ _)
    | (with_reducible assumption)
    | (with_reducible exact Or.inl rfl)
    | exact Or.inr (by decide)
    | decide
    | (with_reducible refine Keeps.ite ?_ ?_)
    | (with_reducible refine Keeps.upd ?_ rfl rfl ?_ ?_ ?_ ?_ ?_ ?_ ?_ ?_ ?_ ?_ ?_ ?_ ?_; rotate_left; fail_if_success (iterate 13 (with_reducible exact Or.inl rfl)))

theorem State.fwEvent_keeps {vs : List View} {u₀ : State} {s : State} {ev slot : Nat} (hk : Keeps vs u₀ s) (hm : [.mgmt] ⊆ vs) : Keeps vs u₀ (State.fwEvent s ev slot) := by
  refine hk.then hm ?_
  clear hk hm
  unfold State.fwEvent
  try dsimp -proj only
  repeat' first
    | (with_reducible exact Keeps.refl _ _)
    | (with_reducible assumption)
    | (with_reducible exact Or.inl rfl)
    | exact Or.inr (by decide)
    | decide
    | (with_reducible apply State.daybook_keeps)
    | (with_reducible refine Keeps.upd ?_ rfl rfl ?_ ?_ ?_ ?_ ?_ ?_ ?_ ?_ ?_ ?_ ?_ ?_ ?_; rotate_left; fail_if_success (iterate 13 (with_reducible exact Or.inl rfl)))

theorem execFwStage_keeps {vs : List View} {u₀ : State} {r : Req} {_addr : BitVec 64} {len : BitVec 32} {image : FwImage} {s : State} (hk : Keeps vs u₀ s) (hm : [.counters, .mgmt] ⊆ vs) : KeepsO vs u₀ (execFwStage r _addr len image s) := by
  refine KeepsO.then hk hm ?_
  clear hk hm
  unfold execFwStage
  try dsimp -proj only
  repeat' first
    | (with_reducible exact Keeps.refl _ _)
    | (with_reducible assumption)
    | decide
    | ((with_reducible refine State.takeReq_keeps ?_ ?_ (fun _ _ => ?_)) <;> try dsimp -proj only)
    | (with_reducible apply State.grant_keeps)
    | (with_reducible apply State.setSlot_keeps)
    | (with_reducible apply State.fwEvent_keeps)
    | (with_reducible refine Keeps.ite ?_ ?_)
    | (with_reducible refine KeepsO.next ?_)
    | (with_reducible refine KeepsO.ite ?_ ?_)
    | split

theorem execFwCommit_keeps {vs : List View} {u₀ : State} {r : Req} {slot : BitVec 8} {s : State} (hk : Keeps vs u₀ s) (hm : [.mgmt] ⊆ vs) : KeepsO vs u₀ (execFwCommit r slot s) := by
  refine KeepsO.then hk hm ?_
  clear hk hm
  unfold execFwCommit
  try dsimp -proj only
  repeat' first
    | (with_reducible exact Keeps.refl _ _)
    | (with_reducible assumption)
    | (with_reducible exact Or.inl rfl)
    | exact Or.inr (by decide)
    | decide
    | ((with_reducible refine State.takeReq_keeps ?_ ?_ (fun _ _ => ?_)) <;> try dsimp -proj only)
    | (with_reducible apply State.setSlot_keeps)
    | (with_reducible apply State.fwEvent_keeps)
    | (with_reducible refine Keeps.ite ?_ ?_)
    | (with_reducible refine KeepsO.next ?_)
    | (with_reducible refine KeepsO.ite ?_ ?_)
    | (with_reducible refine Keeps.upd ?_ rfl rfl ?_ ?_ ?_ ?_ ?_ ?_ ?_ ?_ ?_ ?_ ?_ ?_ ?_; rotate_left; fail_if_success (iterate 13 (with_reducible exact Or.inl rfl)))
    | split

theorem State.startFw_keeps {vs : List View} {u₀ : State} {s : State} {b fell : Bool} (hk : Keeps vs u₀ s) (hm : [.mgmt, .board] ⊆ vs) : Keeps vs u₀ (State.startFw s b fell) := by
  refine hk.then hm ?_
  clear hk hm
  unfold State.startFw
  try dsimp -proj only
  repeat' first
    | (with_reducible exact Keeps.refl _ _)
    | (with_reducible assumption)
    | (with_reducible exact Or.inl rfl)
    | exact Or.inr (by decide)
    | decide
    | (with_reducible apply State.fwEvent_keeps)
    | (with_reducible refine Keeps.ite ?_ ?_)
    | (with_reducible refine Keeps.upd ?_ rfl rfl ?_ ?_ ?_ ?_ ?_ ?_ ?_ ?_ ?_ ?_ ?_ ?_ ?_; rotate_left; fail_if_success (iterate 13 (with_reducible exact Or.inl rfl)))

theorem State.restartMgmt_keeps {vs : List View} {u₀ : State} {s : State} (hk : Keeps vs u₀ s) (hm : [.mgmt, .board] ⊆ vs) : Keeps vs u₀ (State.restartMgmt s) := by
  refine hk.then hm ?_
  clear hk hm
  unfold State.restartMgmt
  try dsimp -proj only
  repeat' first
    | (with_reducible exact Keeps.refl _ _)
    | (with_reducible assumption)
    | (with_reducible exact Or.inl rfl)
    | exact Or.inr (by decide)
    | decide
    | (with_reducible apply State.startFw_keeps)
    | (with_reducible refine Keeps.upd ?_ rfl rfl ?_ ?_ ?_ ?_ ?_ ?_ ?_ ?_ ?_ ?_ ?_ ?_ ?_; rotate_left; fail_if_success (iterate 13 (with_reducible exact Or.inl rfl)))
    | split

theorem execFwActivate_keeps {vs : List View} {u₀ : State} {r : Req} {s : State} (hk : Keeps vs u₀ s) (hm : [.mgmt, .board] ⊆ vs) : KeepsO vs u₀ (execFwActivate r s) := by
  refine KeepsO.then hk hm ?_
  clear hk hm
  unfold execFwActivate
  try dsimp -proj only
  repeat' first
    | (with_reducible exact Keeps.refl _ _)
    | (with_reducible assumption)
    | decide
    | ((with_reducible refine State.takeReq_keeps ?_ ?_ (fun _ _ => ?_)) <;> try dsimp -proj only)
    | (with_reducible apply State.fwEvent_keeps)
    | (with_reducible apply State.restartMgmt_keeps)
    | (with_reducible refine Keeps.ite ?_ ?_)
    | (with_reducible refine KeepsO.next ?_)
    | (with_reducible refine KeepsO.ite ?_ ?_)
    | split

end Sys2Proof.Machine
end

