-- ==== Sys2Proof/Laws/TenancyKeeps.lean ====
section
/-! SUPPORT. What each operation of Machine/Tenancy.lean may change: the parts named, the queue and the identity never, and no canonical form. -/

namespace Sys2Proof.Machine

open Sys2Proof

set_option Elab.async false

theorem onEmpty_keeps {vs : List View} {u₀ s : State} {ten : BitVec 8} {act : State × Nat × Nat} (hk : Keeps vs u₀ s)
    (ha : Keeps vs u₀ act.1) : Keeps vs u₀ (onEmpty s ten act).1 := by
  unfold onEmpty
  repeat' first
    | exact hk
    | exact ha
    | split

theorem State.modDef_keeps {vs : List View} {u₀ : State} {s : State} {t : Nat} {f : TenDef → TenDef} (hk : Keeps vs u₀ s) (hm : [.tens] ⊆ vs) : Keeps vs u₀ (State.modDef s t f) := by
  refine hk.then hm ?_
  clear hk hm
  unfold State.modDef
  try dsimp -proj only
  repeat' first
    | (with_reducible exact Keeps.refl _ _)
    | (with_reducible assumption)
    | (with_reducible exact Or.inl rfl)
    | exact Or.inr (by decide)
    | decide
    | (with_reducible apply State.modTen_keeps)

theorem execCreate_keeps {vs : List View} {u₀ : State} {r : Req} {ten y0 h weight : BitVec 8} {ports : BitVec 16} {s : State} (hk : Keeps vs u₀ s) (hm : [.tens, .mgmt] ⊆ vs) : KeepsO vs u₀ (execCreate r ten y0 h weight ports s) := by
  refine KeepsO.then hk hm ?_
  clear hk hm
  unfold execCreate
  try dsimp -proj only
  repeat' first
    | (with_reducible exact Keeps.refl _ _)
    | (with_reducible assumption)
    | decide
    | (with_reducible apply State.setTen_keeps)
    | ((with_reducible refine State.takeReq_keeps ?_ ?_ (fun _ _ => ?_)) <;> try dsimp -proj only)
    | (with_reducible refine Keeps.ite ?_ ?_)
    | (with_reducible refine KeepsO.next ?_)
    | (with_reducible refine KeepsO.ite ?_ ?_)
    | split

theorem State.freeRuns_keeps {vs : List View} {u₀ : State} {s : State} {st : Nat} {rs : List (Nat × Nat)} (hk : Keeps vs u₀ s) (hm : [.service] ⊆ vs) : Keeps vs u₀ (State.freeRuns s st rs) := by
  refine hk.then hm ?_
  clear hk hm
  unfold State.freeRuns
  try dsimp -proj only
  repeat' first
    | (with_reducible exact Keeps.refl _ _)
    | (with_reducible assumption)
    | (with_reducible exact Or.inl rfl)
    | exact Or.inr (by decide)
    | decide
    | (with_reducible refine Keeps.upd ?_ rfl rfl ?_ ?_ ?_ ?_ ?_ ?_ ?_ ?_ ?_ ?_ ?_ ?_ ?_; rotate_left; fail_if_success (iterate 13 (with_reducible exact Or.inl rfl)))
    | ((with_reducible refine Or.inr (?_ : HbmOk _ _ _)); simp +contextual [HbmOk, hbmPut_wf, hbmFilter_wf, hbmClear_wf])

theorem execShare_keeps {vs : List View} {u₀ : State} {r : Req} {ten stack : BitVec 8} {base size : BitVec 32} {s : State} (hk : Keeps vs u₀ s) (hm : [.service, .tens, .mgmt] ⊆ vs) : KeepsO vs u₀ (execShare r ten stack base size s) := by
  refine KeepsO.then hk hm ?_
  clear hk hm
  unfold execShare
  try dsimp -proj only
  repeat' first
    | (with_reducible exact Keeps.refl _ _)
    | (with_reducible assumption)
    | (with_reducible exact Or.inl rfl)
    | exact Or.inr (by decide)
    | decide
    | ((with_reducible refine State.takeReq_keeps ?_ ?_ (fun _ _ => ?_)) <;> try dsimp -proj only)
    | (with_reducible apply onEmpty_keeps)
    | (with_reducible apply State.modDef_keeps)
    | (with_reducible apply State.freeRuns_keeps)
    | (with_reducible refine Keeps.ite ?_ ?_)
    | (with_reducible refine KeepsO.next ?_)
    | (with_reducible refine KeepsO.ite ?_ ?_)
    | (with_reducible refine Keeps.upd ?_ rfl rfl ?_ ?_ ?_ ?_ ?_ ?_ ?_ ?_ ?_ ?_ ?_ ?_ ?_; rotate_left; fail_if_success (iterate 13 (with_reducible exact Or.inl rfl)))
    | split

theorem execWindows_keeps {vs : List View} {u₀ : State} {r : Req} {ten stack : BitVec 8} {allow : BitVec 64} {s : State} (hk : Keeps vs u₀ s) (hm : [.tens, .mgmt] ⊆ vs) : KeepsO vs u₀ (execWindows r ten stack allow s) := by
  refine KeepsO.then hk hm ?_
  clear hk hm
  unfold execWindows
  try dsimp -proj only
  repeat' first
    | (with_reducible exact Keeps.refl _ _)
    | (with_reducible assumption)
    | (with_reducible exact Or.inl rfl)
    | exact Or.inr (by decide)
    | decide
    | ((with_reducible refine State.takeReq_keeps ?_ ?_ (fun _ _ => ?_)) <;> try dsimp -proj only)
    | (with_reducible apply onEmpty_keeps)
    | (with_reducible apply State.modDef_keeps)
    | (with_reducible refine Keeps.ite ?_ ?_)
    | (with_reducible refine KeepsO.next ?_)
    | (with_reducible refine KeepsO.ite ?_ ?_)
    | (with_reducible refine Keeps.upd ?_ rfl rfl ?_ ?_ ?_ ?_ ?_ ?_ ?_ ?_ ?_ ?_ ?_ ?_ ?_; rotate_left; fail_if_success (iterate 13 (with_reducible exact Or.inl rfl)))
    | split

theorem execPartition_keeps {vs : List View} {u₀ : State} {r : Req} {ten code : BitVec 8} {base size : BitVec 32} {s : State} (hk : Keeps vs u₀ s) (hm : [.tens, .mgmt] ⊆ vs) : KeepsO vs u₀ (execPartition r ten code base size s) := by
  refine KeepsO.then hk hm ?_
  clear hk hm
  unfold execPartition
  try dsimp -proj only
  repeat' first
    | (with_reducible exact Keeps.refl _ _)
    | (with_reducible assumption)
    | (with_reducible exact Or.inl rfl)
    | exact Or.inr (by decide)
    | decide
    | ((with_reducible refine State.takeReq_keeps ?_ ?_ (fun _ _ => ?_)) <;> try dsimp -proj only)
    | (with_reducible apply onEmpty_keeps)
    | (with_reducible apply State.modDef_keeps)
    | (with_reducible refine Keeps.ite ?_ ?_)
    | (with_reducible refine KeepsO.next ?_)
    | (with_reducible refine KeepsO.ite ?_ ?_)
    | (with_reducible refine Keeps.upd ?_ rfl rfl ?_ ?_ ?_ ?_ ?_ ?_ ?_ ?_ ?_ ?_ ?_ ?_ ?_; rotate_left; fail_if_success (iterate 13 (with_reducible exact Or.inl rfl)))
    | split

theorem execWeight_keeps {vs : List View} {u₀ : State} {r : Req} {ten w : BitVec 8} {s : State} (hk : Keeps vs u₀ s) (hm : [.tens, .mgmt] ⊆ vs) : KeepsO vs u₀ (execWeight r ten w s) := by
  refine KeepsO.then hk hm ?_
  clear hk hm
  unfold execWeight
  try dsimp -proj only
  repeat' first
    | (with_reducible exact Keeps.refl _ _)
    | (with_reducible assumption)
    | (with_reducible exact Or.inl rfl)
    | exact Or.inr (by decide)
    | decide
    | (with_reducible apply State.modTen_keeps)
    | ((with_reducible refine State.takeReq_keeps ?_ ?_ (fun _ _ => ?_)) <;> try dsimp -proj only)
    | (with_reducible refine Keeps.ite ?_ ?_)
    | (with_reducible refine KeepsO.next ?_)
    | (with_reducible refine KeepsO.ite ?_ ?_)
    | (with_reducible refine Keeps.upd ?_ rfl rfl ?_ ?_ ?_ ?_ ?_ ?_ ?_ ?_ ?_ ?_ ?_ ?_ ?_; rotate_left; fail_if_success (iterate 13 (with_reducible exact Or.inl rfl)))
    | split

theorem State.dropReader_keeps {vs : List View} {u₀ : State} {s : State} {fn : Nat} (hk : Keeps vs u₀ s) (hm : [.mgmt] ⊆ vs) : Keeps vs u₀ (State.dropReader s fn) := by
  refine hk.then hm ?_
  clear hk hm
  unfold State.dropReader
  try dsimp -proj only
  repeat' first
    | (with_reducible exact Keeps.refl _ _)
    | (with_reducible assumption)
    | (with_reducible exact Or.inl rfl)
    | exact Or.inr (by decide)
    | decide
    | (with_reducible refine Keeps.upd ?_ rfl rfl ?_ ?_ ?_ ?_ ?_ ?_ ?_ ?_ ?_ ?_ ?_ ?_ ?_; rotate_left; fail_if_success (iterate 13 (with_reducible exact Or.inl rfl)))

theorem State.freeTen_keeps {vs : List View} {u₀ : State} {s : State} {t : Nat} (hk : Keeps vs u₀ s) (hm : [.service, .tens, .spares, .mgmt] ⊆ vs) : Keeps vs u₀ (State.freeTen s t) := by
  refine hk.then hm ?_
  clear hk hm
  unfold State.freeTen
  try dsimp -proj only
  repeat' first
    | (with_reducible exact Keeps.refl _ _)
    | (with_reducible assumption)
    | (with_reducible exact Or.inl rfl)
    | exact Or.inr (by decide)
    | decide
    | (with_reducible apply State.freeRuns_keeps)
    | (with_reducible apply State.dropReader_keeps)
    | (with_reducible refine Keeps.foldl ?_ (fun _ _ _ => ?_))
    | (with_reducible refine Keeps.foldlFst ?_ (fun _ _ _ => ?_))
    | (with_reducible refine Keeps.upd ?_ rfl rfl ?_ ?_ ?_ ?_ ?_ ?_ ?_ ?_ ?_ ?_ ?_ ?_ ?_; rotate_left; fail_if_success (iterate 13 (with_reducible exact Or.inl rfl)))

theorem execDestroy_keeps {vs : List View} {u₀ : State} {r : Req} {ten : BitVec 8} {s : State} (hk : Keeps vs u₀ s) (hm : [.service, .tens, .spares, .mgmt] ⊆ vs) : KeepsO vs u₀ (execDestroy r ten s) := by
  refine KeepsO.then hk hm ?_
  clear hk hm
  unfold execDestroy
  try dsimp -proj only
  repeat' first
    | (with_reducible exact Keeps.refl _ _)
    | (with_reducible assumption)
    | decide
    | ((with_reducible refine State.takeReq_keeps ?_ ?_ (fun _ _ => ?_)) <;> try dsimp -proj only)
    | (with_reducible apply onEmpty_keeps)
    | (with_reducible apply State.freeTen_keeps)
    | (with_reducible refine Keeps.ite ?_ ?_)
    | (with_reducible refine KeepsO.next ?_)
    | (with_reducible refine KeepsO.ite ?_ ?_)
    | split

theorem execShareClearingDone_keeps {vs : List View} {u₀ : State} {s : State} (hk : Keeps vs u₀ s) (hm : [.words, .service, .tens, .power] ⊆ vs) : KeepsO vs u₀ (execShareClearingDone s) := by
  refine KeepsO.then hk hm ?_
  clear hk hm
  unfold execShareClearingDone
  try dsimp -proj only
  repeat' first
    | (with_reducible exact Keeps.refl _ _)
    | (with_reducible assumption)
    | (with_reducible exact Or.inl rfl)
    | exact Or.inr (by decide)
    | decide
    | (with_reducible apply State.charge_keeps)
    | (with_reducible refine Keeps.foldl ?_ (fun _ _ _ => ?_))
    | (with_reducible refine Keeps.foldlFst ?_ (fun _ _ _ => ?_))
    | (with_reducible refine KeepsO.next ?_)
    | (with_reducible refine Keeps.upd ?_ rfl rfl ?_ ?_ ?_ ?_ ?_ ?_ ?_ ?_ ?_ ?_ ?_ ?_ ?_; rotate_left; fail_if_success (iterate 13 (with_reducible exact Or.inl rfl)))
    | ((with_reducible refine Or.inr (?_ : HbmOk _ _ _)); simp +contextual [HbmOk, hbmPut_wf, hbmFilter_wf, hbmClear_wf])

theorem execVfEnable_keeps {vs : List View} {u₀ : State} {vf : Ten} {on : Bool} {s : State} (hk : Keeps vs u₀ s) (hm : [.mgmt] ⊆ vs) : KeepsO vs u₀ (execVfEnable vf on s) := by
  refine KeepsO.then hk hm ?_
  clear hk hm
  unfold execVfEnable
  try dsimp -proj only
  repeat' first
    | (with_reducible exact Keeps.refl _ _)
    | (with_reducible assumption)
    | (with_reducible exact Or.inl rfl)
    | exact Or.inr (by decide)
    | decide
    | (with_reducible apply State.dropReader_keeps)
    | (with_reducible refine Keeps.ite ?_ ?_)
    | (with_reducible refine KeepsO.next ?_)
    | (with_reducible refine KeepsO.ite ?_ ?_)
    | (with_reducible refine Keeps.upd ?_ rfl rfl ?_ ?_ ?_ ?_ ?_ ?_ ?_ ?_ ?_ ?_ ?_ ?_ ?_; rotate_left; fail_if_success (iterate 13 (with_reducible exact Or.inl rfl)))

end Sys2Proof.Machine
end

