-- ==== Sys2Proof/Laws/LoaderKeeps.lean ====
section
/-! SUPPORT. What each operation of Machine/Loader.lean may change: the parts named, the queue and the identity never, and no canonical form. -/

namespace Sys2Proof.Machine

open Sys2Proof

set_option Elab.async false

theorem State.loadWords_keeps {vs : List View} {u₀ : State} {s : State} {key n : Nat} (hk : Keeps vs u₀ s) (hm : [.cs, .mbox, .words, .service, .tens, .counters, .power] ⊆ vs) : Keeps vs u₀ (State.loadWords s key n).1 := by
  refine hk.then hm ?_
  clear hk hm
  unfold State.loadWords
  try dsimp -proj only
  repeat' first
    | (with_reducible exact Keeps.refl _ _)
    | (with_reducible assumption)
    | decide
    | (with_reducible apply State.account_keeps)
    | (with_reducible apply State.noteReads_keeps)
    | (with_reducible refine Keeps.ite ?_ ?_)
    | split

theorem State.loadPages_keeps {vs : List View} {u₀ : State} {s : State} {c : Core} {first count : Nat} {tag : BitVec 8} {ws : List (BitVec 256)} (hk : Keeps vs u₀ s) (hm : [.prog, .tags] ⊆ vs) : Keeps vs u₀ (State.loadPages s c first count tag ws) := by
  refine hk.then hm ?_
  clear hk hm
  unfold State.loadPages
  try dsimp -proj only
  repeat' first
    | (with_reducible exact Keeps.refl _ _)
    | (with_reducible assumption)
    | (with_reducible exact Or.inl rfl)
    | exact Or.inr (by decide)
    | decide
    | (with_reducible refine Keeps.foldl ?_ (fun _ _ _ => ?_))
    | (with_reducible refine Keeps.foldlFst ?_ (fun _ _ _ => ?_))
    | (with_reducible refine Keeps.upd ?_ rfl rfl ?_ ?_ ?_ ?_ ?_ ?_ ?_ ?_ ?_ ?_ ?_ ?_ ?_; rotate_left; fail_if_success (iterate 13 (with_reducible exact Or.inl rfl)))
    | ((with_reducible refine Or.inr (?_ : CoresOk _ _ _)); simp +contextual [CoresOk, Cores.wf, memPut_wf, memPuts_wf, memClear_wf, memFilter_wf])

theorem State.loadDescs_keeps {vs : List View} {u₀ : State} {s : State} {c : Core} {first count : Nat} {ro : Bool} {ws : List (BitVec 256)} (hk : Keeps vs u₀ s) (hm : [.desc] ⊆ vs) : Keeps vs u₀ (State.loadDescs s c first count ro ws) := by
  refine hk.then hm ?_
  clear hk hm
  unfold State.loadDescs
  try dsimp -proj only
  repeat' first
    | (with_reducible exact Keeps.refl _ _)
    | (with_reducible assumption)
    | (with_reducible exact Or.inl rfl)
    | exact Or.inr (by decide)
    | decide
    | (with_reducible refine Keeps.foldl ?_ (fun _ _ _ => ?_))
    | (with_reducible refine Keeps.foldlFst ?_ (fun _ _ _ => ?_))
    | (with_reducible refine Keeps.upd ?_ rfl rfl ?_ ?_ ?_ ?_ ?_ ?_ ?_ ?_ ?_ ?_ ?_ ?_ ?_; rotate_left; fail_if_success (iterate 13 (with_reducible exact Or.inl rfl)))
    | ((with_reducible refine Or.inr (?_ : CoresOk _ _ _)); simp +contextual [CoresOk, Cores.wf, memPut_wf, memPuts_wf, memClear_wf, memFilter_wf])

theorem State.loadCs_keeps {vs : List View} {u₀ : State} {s : State} {c : Core} {first key : Nat} {ws : List (BitVec 256)} (hk : Keeps vs u₀ s) (hm : [.cs, .mbox, .hall, .words, .tens, .power] ⊆ vs) : Keeps vs u₀ (State.loadCs s c first key ws) := by
  refine hk.then hm ?_
  clear hk hm
  unfold State.loadCs
  try dsimp -proj only
  repeat' first
    | (with_reducible exact Keeps.refl _ _)
    | (with_reducible assumption)
    | decide
    | (with_reducible apply State.chargeCore_keeps)
    | (with_reducible apply State.writeWord_keeps)
    | (with_reducible apply State.writeHall_keeps)
    | (with_reducible refine Keeps.foldl ?_ (fun _ _ _ => ?_))

theorem State.loadInto_keeps {vs : List View} {u₀ : State} {s : State} {t : Nat} {w : BitVec 256} {key : Nat} {ws : List (BitVec 256)} (hk : Keeps vs u₀ s) (hm : [.cs, .prog, .desc, .mbox, .hall, .tags, .words, .stores, .tens, .fabric, .power] ⊆ vs) : Keeps vs u₀ (State.loadInto s t w key ws) := by
  refine hk.then hm ?_
  clear hk hm
  unfold State.loadInto
  try dsimp -proj only
  repeat' first
    | (with_reducible exact Keeps.refl _ _)
    | (with_reducible assumption)
    | (with_reducible exact Or.inl rfl)
    | exact Or.inr (by decide)
    | decide
    | (with_reducible apply State.modTen_keeps)
    | (with_reducible apply State.loadPages_keeps)
    | (with_reducible apply State.loadDescs_keeps)
    | (with_reducible apply State.loadCs_keeps)
    | (with_reducible refine Keeps.foldl ?_ (fun _ _ _ => ?_))
    | (with_reducible refine Keeps.foldlFst ?_ (fun _ _ _ => ?_))
    | (with_reducible refine Keeps.upd ?_ rfl rfl ?_ ?_ ?_ ?_ ?_ ?_ ?_ ?_ ?_ ?_ ?_ ?_ ?_; rotate_left; fail_if_success (iterate 13 (with_reducible exact Or.inl rfl)))
    | split

theorem State.loadRecord_keeps {vs : List View} {u₀ : State} {s : State} {t i : Nat} (hk : Keeps vs u₀ s) (hm : [.cs, .prog, .desc, .mbox, .hall, .tags, .words, .service, .stores, .tens, .counters, .fabric, .power] ⊆ vs) : Keeps vs u₀ (State.loadRecord s t i).1 := by
  refine hk.then hm ?_
  clear hk hm
  unfold State.loadRecord
  try dsimp -proj only
  repeat' first
    | (with_reducible exact Keeps.refl _ _)
    | (with_reducible assumption)
    | (with_reducible exact Or.inl rfl)
    | exact Or.inr (by decide)
    | decide
    | (with_reducible apply State.loadWords_keeps)
    | (with_reducible apply State.loadInto_keeps)
    | (with_reducible refine Keeps.ite ?_ ?_)
    | (with_reducible refine Keeps.upd ?_ rfl rfl ?_ ?_ ?_ ?_ ?_ ?_ ?_ ?_ ?_ ?_ ?_ ?_ ?_; rotate_left; fail_if_success (iterate 13 (with_reducible exact Or.inl rfl)))
    | split

theorem State.loadList_keeps {vs : List View} {u₀ : State} {n : Nat} {s : State} {t i : Nat} (hk : Keeps vs u₀ s)
    (hm : [.cs, .prog, .desc, .mbox, .hall, .tags, .words, .service, .stores, .tens, .counters, .fabric, .power] ⊆ vs) : Keeps vs u₀ (State.loadList n s t i).1 := by
  induction n generalizing s i with
  | zero => exact hk
  | succ m ih =>
    have h : Keeps vs u₀ (s.loadRecord t i).1 := State.loadRecord_keeps hk (List.Subset.trans (by decide) hm)
    unfold State.loadList
    dsimp -proj only
    split
    · exact h
    · exact ih h

theorem State.loadTo_keeps {vs : List View} {u₀ : State} {s : State} {t : Nat} {st : LoadSt} (hk : Keeps vs u₀ s) (hm : [.tens, .mgmt] ⊆ vs) : Keeps vs u₀ (State.loadTo s t st) := by
  refine hk.then hm ?_
  clear hk hm
  unfold State.loadTo
  try dsimp -proj only
  repeat' first
    | (with_reducible exact Keeps.refl _ _)
    | (with_reducible assumption)
    | (with_reducible exact Or.inl rfl)
    | exact Or.inr (by decide)
    | decide
    | (with_reducible apply State.modTen_keeps)
    | (with_reducible apply State.raiseTen_keeps)

theorem State.loadErr_keeps {vs : List View} {u₀ : State} {s : State} {t : Nat} (hk : Keeps vs u₀ s) (hm : [.tens] ⊆ vs) : Keeps vs u₀ (State.loadErr s t) := by
  refine hk.then hm ?_
  clear hk hm
  unfold State.loadErr
  try dsimp -proj only
  repeat' first
    | (with_reducible exact Keeps.refl _ _)
    | (with_reducible assumption)
    | (with_reducible exact Or.inl rfl)
    | exact Or.inr (by decide)
    | decide
    | (with_reducible apply State.modTen_keeps)

theorem State.commit_keeps {vs : List View} {u₀ : State} {s : State} {t : Nat} (hk : Keeps vs u₀ s) (hm : [.tens, .spares, .fabric, .mgmt] ⊆ vs) : Keeps vs u₀ (State.commit s t) := by
  refine hk.then hm ?_
  clear hk hm
  unfold State.commit
  try dsimp -proj only
  repeat' first
    | (with_reducible exact Keeps.refl _ _)
    | (with_reducible assumption)
    | (with_reducible exact Or.inl rfl)
    | exact Or.inr (by decide)
    | decide
    | (with_reducible apply State.modTen_keeps)
    | (with_reducible apply State.raiseTen_keeps)
    | (with_reducible apply State.clearFlows_keeps)
    | (with_reducible apply State.loadErr_keeps)
    | (with_reducible refine Keeps.foldl ?_ (fun _ _ _ => ?_))
    | (with_reducible refine Keeps.foldlFst ?_ (fun _ _ _ => ?_))
    | (with_reducible refine Keeps.ite ?_ ?_)
    | (with_reducible refine Keeps.upd ?_ rfl rfl ?_ ?_ ?_ ?_ ?_ ?_ ?_ ?_ ?_ ?_ ?_ ?_ ?_; rotate_left; fail_if_success (iterate 13 (with_reducible exact Or.inl rfl)))

theorem execCommit_keeps {vs : List View} {u₀ : State} {t : Ten} {s : State} (hk : Keeps vs u₀ s) (hm : [.tens, .spares, .fabric, .mgmt] ⊆ vs) : KeepsO vs u₀ (execCommit t s) := by
  refine KeepsO.then hk hm ?_
  clear hk hm
  unfold execCommit
  try dsimp -proj only
  repeat' first
    | (with_reducible exact Keeps.refl _ _)
    | (with_reducible assumption)
    | decide
    | (with_reducible apply State.commit_keeps)
    | (with_reducible refine Keeps.ite ?_ ?_)
    | (with_reducible refine KeepsO.next ?_)

theorem State.startJob_keeps {vs : List View} {u₀ : State} {s : State} {t : Nat} (hk : Keeps vs u₀ s) (hm : [.purse, .stores, .tens] ⊆ vs) : Keeps vs u₀ (State.startJob s t) := by
  refine hk.then hm ?_
  clear hk hm
  unfold State.startJob
  try dsimp -proj only
  repeat' first
    | (with_reducible exact Keeps.refl _ _)
    | (with_reducible assumption)
    | (with_reducible exact Or.inl rfl)
    | exact Or.inr (by decide)
    | decide
    | (with_reducible apply State.modTen_keeps)
    | (with_reducible apply State.clearSteps_keeps)
    | (with_reducible apply State.clearPurse_keeps)

theorem State.loadFails_keeps {vs : List View} {u₀ : State} {s : State} {t code : Nat} {record : BitVec 24} (hk : Keeps vs u₀ s) (hm : [.tens, .mgmt] ⊆ vs) : Keeps vs u₀ (State.loadFails s t code record) := by
  refine hk.then hm ?_
  clear hk hm
  unfold State.loadFails
  try dsimp -proj only
  repeat' first
    | (with_reducible exact Keeps.refl _ _)
    | (with_reducible assumption)
    | (with_reducible exact Or.inl rfl)
    | exact Or.inr (by decide)
    | decide
    | (with_reducible apply State.modTen_keeps)
    | (with_reducible apply State.loadTo_keeps)

theorem execLoadComplete_keeps {vs : List View} {u₀ : State} {t : Ten} {s : State} (hk : Keeps vs u₀ s) (hm : [.cs, .prog, .desc, .purse, .mbox, .hall, .tags, .words, .service, .stores, .tens, .counters, .fabric, .mgmt, .power, .fresh] ⊆ vs) : KeepsO vs u₀ (execLoadComplete t s) := by
  refine KeepsO.then hk hm ?_
  clear hk hm
  unfold execLoadComplete
  try dsimp -proj only
  repeat' first
    | (with_reducible exact Keeps.refl _ _)
    | (with_reducible assumption)
    | (with_reducible exact Or.inl rfl)
    | exact Or.inr (by decide)
    | decide
    | (with_reducible apply State.draw_keeps)
    | (with_reducible apply State.addFigure_keeps)
    | (with_reducible apply State.wantTrim_keeps)
    | (with_reducible apply State.readyNow_keeps)
    | (with_reducible apply State.loadList_keeps)
    | (with_reducible apply State.loadTo_keeps)
    | (with_reducible apply State.startJob_keeps)
    | (with_reducible apply State.loadFails_keeps)
    | (with_reducible refine Keeps.ite ?_ ?_)
    | (with_reducible refine KeepsO.next ?_)
    | (with_reducible refine KeepsO.ite ?_ ?_)
    | split

theorem State.clearCores_keeps {vs : List View} {u₀ : State} {s : State} {t : Nat} (hk : Keeps vs u₀ s) (hm : [.cs, .desc, .mbox, .hall, .tags, .acc, .engines, .busy, .seqs, .reads, .idle, .merges, .service] ⊆ vs) : Keeps vs u₀ (State.clearCores s t) := by
  refine hk.then hm ?_
  clear hk hm
  unfold State.clearCores
  try dsimp -proj only
  repeat' first
    | (((with_reducible refine Or.inr (?_ : CoresOk _ _ _)); simp +contextual [CoresOk, Cores.wf, memPut_wf, memPuts_wf, memClear_wf, memFilter_wf]; exact fun _ _ _ h a b hm _ => h a b hm))
    | (with_reducible exact Keeps.refl _ _)
    | (with_reducible assumption)
    | (with_reducible exact Or.inl rfl)
    | exact Or.inr (by decide)
    | decide
    | (with_reducible apply State.dropFlight_keeps)
    | (with_reducible refine Keeps.upd ?_ rfl rfl ?_ ?_ ?_ ?_ ?_ ?_ ?_ ?_ ?_ ?_ ?_ ?_ ?_; rotate_left; fail_if_success (iterate 13 (with_reducible exact Or.inl rfl)))

theorem State.clearParts_keeps {vs : List View} {u₀ : State} {s : State} {t : Nat} (hk : Keeps vs u₀ s) (hm : [.stores, .fabric] ⊆ vs) : Keeps vs u₀ (State.clearParts s t) := by
  refine hk.then hm ?_
  clear hk hm
  unfold State.clearParts
  try dsimp -proj only
  repeat' first
    | (with_reducible exact Keeps.refl _ _)
    | (with_reducible assumption)
    | (with_reducible exact Or.inl rfl)
    | exact Or.inr (by decide)
    | decide
    | (with_reducible refine Keeps.upd ?_ rfl rfl ?_ ?_ ?_ ?_ ?_ ?_ ?_ ?_ ?_ ?_ ?_ ?_ ?_; rotate_left; fail_if_success (iterate 13 (with_reducible exact Or.inl rfl)))

theorem State.hostEnds_keeps {vs : List View} {u₀ : State} {s : State} {t : Nat} (hk : Keeps vs u₀ s) (hm : [.desc, .tags, .engines, .busy, .seqs, .reads, .merges, .service, .tens, .counters, .fabric, .mgmt, .power] ⊆ vs) : Keeps vs u₀ (State.hostEnds s t) := by
  refine hk.then hm ?_
  clear hk hm
  unfold State.hostEnds
  try dsimp -proj only
  repeat' first
    | (with_reducible exact Keeps.refl _ _)
    | (with_reducible assumption)
    | (with_reducible exact Or.inl rfl)
    | exact Or.inr (by decide)
    | decide
    | (with_reducible apply State.jobFatal_keeps)
    | (with_reducible apply State.endJob_keeps)
    | (with_reducible refine Keeps.upd ?_ rfl rfl ?_ ?_ ?_ ?_ ?_ ?_ ?_ ?_ ?_ ?_ ?_ ?_ ?_; rotate_left; fail_if_success (iterate 13 (with_reducible exact Or.inl rfl)))
    | split

theorem State.clearLoad_keeps {vs : List View} {u₀ : State} {s : State} {t : Nat} (hk : Keeps vs u₀ s) (hm : [.cs, .desc, .mbox, .hall, .tags, .acc, .engines, .busy, .seqs, .reads, .idle, .merges, .service, .stores, .tens, .fabric, .mgmt] ⊆ vs) : Keeps vs u₀ (State.clearLoad s t) := by
  refine hk.then hm ?_
  clear hk hm
  unfold State.clearLoad
  try dsimp -proj only
  repeat' first
    | (with_reducible exact Keeps.refl _ _)
    | (with_reducible assumption)
    | (with_reducible exact Or.inl rfl)
    | exact Or.inr (by decide)
    | decide
    | (with_reducible apply State.modTen_keeps)
    | (with_reducible apply State.startAssays_keeps)
    | (with_reducible apply State.raiseTen_keeps)
    | (with_reducible apply State.clearFlows_keeps)
    | (with_reducible apply State.clearCores_keeps)
    | (with_reducible apply State.clearParts_keeps)

theorem State.unload_keeps {vs : List View} {u₀ : State} {s : State} {t : Nat} (hk : Keeps vs u₀ s) (hm : [.cs, .desc, .mbox, .hall, .tags, .acc, .engines, .busy, .seqs, .reads, .idle, .merges, .service, .stores, .tens, .counters, .fabric, .mgmt, .power] ⊆ vs) : Keeps vs u₀ (State.unload s t) := by
  refine hk.then hm ?_
  clear hk hm
  unfold State.unload
  try dsimp -proj only
  repeat' first
    | (with_reducible exact Keeps.refl _ _)
    | (with_reducible assumption)
    | (with_reducible exact Or.inl rfl)
    | exact Or.inr (by decide)
    | decide
    | (with_reducible apply State.loadErr_keeps)
    | (with_reducible apply State.hostEnds_keeps)
    | (with_reducible apply State.clearLoad_keeps)
    | (with_reducible refine Keeps.upd ?_ rfl rfl ?_ ?_ ?_ ?_ ?_ ?_ ?_ ?_ ?_ ?_ ?_ ?_ ?_; rotate_left; fail_if_success (iterate 13 (with_reducible exact Or.inl rfl)))
    | split

theorem execUnload_keeps {vs : List View} {u₀ : State} {t : Ten} {s : State} (hk : Keeps vs u₀ s) (hm : [.cs, .desc, .mbox, .hall, .tags, .acc, .engines, .busy, .seqs, .reads, .idle, .merges, .service, .stores, .tens, .counters, .fabric, .mgmt, .power] ⊆ vs) : KeepsO vs u₀ (execUnload t s) := by
  refine KeepsO.then hk hm ?_
  clear hk hm
  unfold execUnload
  try dsimp -proj only
  repeat' first
    | (with_reducible exact Keeps.refl _ _)
    | (with_reducible assumption)
    | decide
    | (with_reducible apply State.unload_keeps)
    | (with_reducible refine Keeps.ite ?_ ?_)
    | (with_reducible refine KeepsO.next ?_)

theorem State.apply_keeps {vs : List View} {u₀ : State} {s : State} {t : Nat} (hk : Keeps vs u₀ s) (hm : [.tens] ⊆ vs) : Keeps vs u₀ (State.apply s t) := by
  refine hk.then hm ?_
  clear hk hm
  unfold State.apply
  try dsimp -proj only
  repeat' first
    | (with_reducible exact Keeps.refl _ _)
    | (with_reducible assumption)
    | (with_reducible exact Or.inl rfl)
    | exact Or.inr (by decide)
    | decide
    | (with_reducible apply State.modTen_keeps)

theorem execApply_keeps {vs : List View} {u₀ : State} {t : Ten} {s : State} (hk : Keeps vs u₀ s) (hm : [.tens] ⊆ vs) : KeepsO vs u₀ (execApply t s) := by
  refine KeepsO.then hk hm ?_
  clear hk hm
  unfold execApply
  try dsimp -proj only
  repeat' first
    | (with_reducible exact Keeps.refl _ _)
    | (with_reducible assumption)
    | decide
    | (with_reducible apply State.apply_keeps)
    | (with_reducible refine Keeps.ite ?_ ?_)
    | (with_reducible refine KeepsO.next ?_)

theorem State.blankReq_keeps {vs : List View} {u₀ : State} {s : State} {t : Nat} (hk : Keeps vs u₀ s) (hm : [.tens, .counters, .fabric, .power] ⊆ vs) : Keeps vs u₀ (State.blankReq s t) := by
  refine hk.then hm ?_
  clear hk hm
  unfold State.blankReq
  try dsimp -proj only
  repeat' first
    | (with_reducible exact Keeps.refl _ _)
    | (with_reducible assumption)
    | decide
    | (with_reducible apply State.announce_keeps)
    | (with_reducible refine Keeps.ite ?_ ?_)

theorem execBlankReq_keeps {vs : List View} {u₀ : State} {t : Ten} {s : State} (hk : Keeps vs u₀ s) (hm : [.tens, .counters, .fabric, .power] ⊆ vs) : KeepsO vs u₀ (execBlankReq t s) := by
  refine KeepsO.then hk hm ?_
  clear hk hm
  unfold execBlankReq
  try dsimp -proj only
  repeat' first
    | (with_reducible exact Keeps.refl _ _)
    | (with_reducible assumption)
    | decide
    | (with_reducible apply State.blankReq_keeps)
    | (with_reducible refine Keeps.ite ?_ ?_)
    | (with_reducible refine KeepsO.next ?_)

theorem State.hold_keeps {vs : List View} {u₀ : State} {s : State} {t : Nat} {on : Bool} (hk : Keeps vs u₀ s) (hm : [.tens, .counters, .fabric, .power] ⊆ vs) : Keeps vs u₀ (State.hold s t on) := by
  refine hk.then hm ?_
  clear hk hm
  unfold State.hold
  try dsimp -proj only
  repeat' first
    | (with_reducible exact Keeps.refl _ _)
    | (with_reducible assumption)
    | (with_reducible exact Or.inl rfl)
    | exact Or.inr (by decide)
    | decide
    | (with_reducible apply State.modCourse_keeps)
    | (with_reducible apply State.keepBlank_keeps)
    | (with_reducible refine Keeps.ite ?_ ?_)

theorem execHold_keeps {vs : List View} {u₀ : State} {t : Ten} {on : Bool} {s : State} (hk : Keeps vs u₀ s) (hm : [.tens, .counters, .fabric, .power] ⊆ vs) : KeepsO vs u₀ (execHold t on s) := by
  refine KeepsO.then hk hm ?_
  clear hk hm
  unfold execHold
  try dsimp -proj only
  repeat' first
    | (with_reducible exact Keeps.refl _ _)
    | (with_reducible assumption)
    | decide
    | (with_reducible apply State.hold_keeps)
    | (with_reducible refine Keeps.ite ?_ ?_)
    | (with_reducible refine KeepsO.next ?_)

end Sys2Proof.Machine
end

