-- ==== Sys2Proof/Laws/RegistersKeeps.lean ====
section
/-! SUPPORT. What each operation of Machine/Registers.lean may change: the parts named, the queue and the identity never, and no canonical form. -/

namespace Sys2Proof.Machine

open Sys2Proof

set_option Elab.async false

theorem State.hostUr_keeps {vs : List View} {u₀ : State} {s : State} {fn : Nat} (hk : Keeps vs u₀ s) (hm : [.counters] ⊆ vs) : Keeps vs u₀ (State.hostUr s fn) := by
  refine hk.then hm ?_
  clear hk hm
  unfold State.hostUr
  try dsimp -proj only
  repeat' first
    | (with_reducible exact Keeps.refl _ _)
    | (with_reducible assumption)
    | decide
    | (with_reducible apply State.count_keeps)
    | (with_reducible apply State.countTen_keeps)
    | (with_reducible refine Keeps.ite ?_ ?_)

theorem State.dropLatch_keeps {vs : List View} {u₀ : State} {s : State} {fn : Nat} (hk : Keeps vs u₀ s) (hm : [.mgmt] ⊆ vs) : Keeps vs u₀ (State.dropLatch s fn) := by
  refine hk.then hm ?_
  clear hk hm
  unfold State.dropLatch
  try dsimp -proj only
  repeat' first
    | (with_reducible exact Keeps.refl _ _)
    | (with_reducible assumption)
    | (with_reducible exact Or.inl rfl)
    | exact Or.inr (by decide)
    | decide
    | (with_reducible apply latch_noAfter)
    | (with_reducible refine Keeps.upd ?_ rfl rfl ?_ ?_ ?_ ?_ ?_ ?_ ?_ ?_ ?_ ?_ ?_ ?_ ?_; rotate_left; fail_if_success (iterate 13 (with_reducible exact Or.inl rfl)))

theorem State.setLatch_keeps {vs : List View} {u₀ : State} {s : State} {fn o : Nat} {hi : BitVec 32} (hk : Keeps vs u₀ s) (hm : [.mgmt] ⊆ vs) : Keeps vs u₀ (State.setLatch s fn o hi) := by
  refine hk.then hm ?_
  clear hk hm
  unfold State.setLatch
  try dsimp -proj only
  repeat' first
    | (with_reducible exact Keeps.refl _ _)
    | (with_reducible assumption)
    | (with_reducible exact Or.inl rfl)
    | exact Or.inr (by decide)
    | decide
    | (with_reducible apply latch_noAfter)
    | (with_reducible refine Keeps.upd ?_ rfl rfl ?_ ?_ ?_ ?_ ?_ ?_ ?_ ?_ ?_ ?_ ?_ ?_ ?_; rotate_left; fail_if_success (iterate 13 (with_reducible exact Or.inl rfl)))

theorem State.readBack_keeps {vs : List View} {u₀ : State} {s : State} {v : BitVec 64} (hk : Keeps vs u₀ s) (hm : [.mgmt] ⊆ vs) : Keeps vs u₀ (State.readBack s v) := by
  refine hk.then hm ?_
  clear hk hm
  unfold State.readBack
  try dsimp -proj only
  repeat' first
    | (with_reducible exact Keeps.refl _ _)
    | (with_reducible assumption)
    | (with_reducible exact Or.inl rfl)
    | exact Or.inr (by decide)
    | decide
    | (with_reducible refine Keeps.upd ?_ rfl rfl ?_ ?_ ?_ ?_ ?_ ?_ ?_ ?_ ?_ ?_ ?_ ?_ ?_; rotate_left; fail_if_success (iterate 13 (with_reducible exact Or.inl rfl)))

theorem State.readWait_keeps {vs : List View} {u₀ : State} {s : State} {fn off : Nat} {wide : Bool} (hk : Keeps vs u₀ s) (hm : [.counters, .mgmt] ⊆ vs) : Keeps vs u₀ (State.readWait s fn off wide) := by
  refine hk.then hm ?_
  clear hk hm
  unfold State.readWait
  try dsimp -proj only
  repeat' first
    | (with_reducible exact Keeps.refl _ _)
    | (with_reducible assumption)
    | (with_reducible exact Or.inl rfl)
    | exact Or.inr (by decide)
    | decide
    | (with_reducible apply State.dropLatch_keeps)
    | (with_reducible apply State.setLatch_keeps)
    | (with_reducible apply State.readBack_keeps)
    | (with_reducible refine Keeps.ite ?_ ?_)
    | (with_reducible refine Keeps.upd ?_ rfl rfl ?_ ?_ ?_ ?_ ?_ ?_ ?_ ?_ ?_ ?_ ?_ ?_ ?_; rotate_left; fail_if_success (iterate 13 (with_reducible exact Or.inl rfl)))

theorem execArbWaitMax_keeps {vs : List View} {u₀ : State} {fn : Fn} {arb : BitVec 6} {requester : BitVec 4} {wide : Bool} {s : State} (hk : Keeps vs u₀ s) (hm : [.counters, .mgmt] ⊆ vs) : KeepsO vs u₀ (execArbWaitMax fn arb requester wide s) := by
  refine KeepsO.then hk hm ?_
  clear hk hm
  unfold execArbWaitMax
  try dsimp -proj only
  repeat' first
    | (with_reducible exact Keeps.refl _ _)
    | (with_reducible assumption)
    | (with_reducible exact Or.inl rfl)
    | exact Or.inr (by decide)
    | decide
    | (with_reducible apply State.dropLatch_keeps)
    | (with_reducible apply State.readBack_keeps)
    | (with_reducible apply State.readWait_keeps)
    | (with_reducible refine Keeps.ite ?_ ?_)
    | (with_reducible refine KeepsO.next ?_)
    | (with_reducible refine KeepsO.ite ?_ ?_)
    | split

theorem execCounterLowRead_keeps {vs : List View} {u₀ : State} {fn : Fn} {off : BitVec 20} {s : State} (hk : Keeps vs u₀ s) (hm : [.counters, .mgmt] ⊆ vs) : KeepsO vs u₀ (execCounterLowRead fn off s) := by
  refine KeepsO.then hk hm ?_
  clear hk hm
  unfold execCounterLowRead
  try dsimp -proj only
  repeat' first
    | (with_reducible exact Keeps.refl _ _)
    | (with_reducible assumption)
    | (with_reducible exact Or.inl rfl)
    | exact Or.inr (by decide)
    | decide
    | (with_reducible apply State.hostUr_keeps)
    | (with_reducible apply State.dropLatch_keeps)
    | (with_reducible apply State.setLatch_keeps)
    | (with_reducible apply State.readBack_keeps)
    | (with_reducible apply State.readWait_keeps)
    | (with_reducible refine Keeps.ite ?_ ?_)
    | (with_reducible refine KeepsO.next ?_)
    | (with_reducible refine KeepsO.ite ?_ ?_)
    | (with_reducible refine Keeps.upd ?_ rfl rfl ?_ ?_ ?_ ?_ ?_ ?_ ?_ ?_ ?_ ?_ ?_ ?_ ?_; rotate_left; fail_if_success (iterate 13 (with_reducible exact Or.inl rfl)))
    | split

theorem execTallySnap_keeps {vs : List View} {u₀ : State} {fn : Fn} {s : State} (hk : Keeps vs u₀ s) (hm : [.mgmt] ⊆ vs) : KeepsO vs u₀ (execTallySnap fn s) := by
  refine KeepsO.then hk hm ?_
  clear hk hm
  unfold execTallySnap
  try dsimp -proj only
  repeat' first
    | (with_reducible exact Keeps.refl _ _)
    | (with_reducible assumption)
    | decide
    | (with_reducible apply State.dropLatch_keeps)
    | (with_reducible apply State.readBack_keeps)
    | (with_reducible refine Keeps.ite ?_ ?_)
    | (with_reducible refine KeepsO.next ?_)
    | (with_reducible refine KeepsO.ite ?_ ?_)

theorem execTelemetry_keeps {vs : List View} {u₀ : State} {r : Req} {offsets : List (BitVec 20)} {s : State} (hk : Keeps vs u₀ s) (hm : [.counters, .mgmt] ⊆ vs) : KeepsO vs u₀ (execTelemetry r offsets s) := by
  refine KeepsO.then hk hm ?_
  clear hk hm
  unfold execTelemetry
  try dsimp -proj only
  repeat' first
    | (with_reducible exact Keeps.refl _ _)
    | (with_reducible assumption)
    | decide
    | ((with_reducible refine State.takeReq_keeps ?_ ?_ (fun _ _ => ?_)) <;> try dsimp -proj only)
    | (with_reducible apply State.grant_keeps)
    | (with_reducible refine Keeps.ite ?_ ?_)
    | (with_reducible refine KeepsO.next ?_)
    | (with_reducible refine KeepsO.ite ?_ ?_)
    | split

theorem State.moveTail_keeps {vs : List View} {u₀ : State} {s : State} {fn : Nat} {tail : BitVec 6} (hk : Keeps vs u₀ s) (hm : [.mgmt] ⊆ vs) : Keeps vs u₀ (State.moveTail s fn tail) := by
  refine hk.then hm ?_
  clear hk hm
  unfold State.moveTail
  try dsimp -proj only
  repeat' first
    | (with_reducible exact Keeps.refl _ _)
    | (with_reducible assumption)
    | (with_reducible exact Or.inl rfl)
    | exact Or.inr (by decide)
    | decide
    | (with_reducible apply State.setBox_keeps)
    | (with_reducible refine Keeps.ite ?_ ?_)

theorem State.moveHead_keeps {vs : List View} {u₀ : State} {s : State} {fn : Nat} {head : BitVec 8} (hk : Keeps vs u₀ s) (hm : [.mgmt] ⊆ vs) : Keeps vs u₀ (State.moveHead s fn head) := by
  refine hk.then hm ?_
  clear hk hm
  unfold State.moveHead
  try dsimp -proj only
  repeat' first
    | (with_reducible exact Keeps.refl _ _)
    | (with_reducible assumption)
    | (with_reducible exact Or.inl rfl)
    | exact Or.inr (by decide)
    | decide
    | (with_reducible apply State.raiseInt_keeps)
    | (with_reducible apply State.setBox_keeps)
    | (with_reducible refine Keeps.ite ?_ ?_)

theorem execMbxReqTail_keeps {vs : List View} {u₀ : State} {fn : Fn} {tail : BitVec 6} {slots : List (BitVec 256)} {s : State} (hk : Keeps vs u₀ s) (hm : [.mgmt] ⊆ vs) : KeepsO vs u₀ (execMbxReqTail fn tail slots s) := by
  refine KeepsO.then hk hm ?_
  clear hk hm
  unfold execMbxReqTail
  try dsimp -proj only
  repeat' first
    | (with_reducible exact Keeps.refl _ _)
    | (with_reducible assumption)
    | (with_reducible exact Or.inl rfl)
    | exact Or.inr (by decide)
    | decide
    | (with_reducible apply State.setBox_keeps)
    | (with_reducible apply State.moveTail_keeps)
    | (with_reducible refine Keeps.foldl ?_ (fun _ _ _ => ?_))
    | (with_reducible refine Keeps.foldlFst ?_ (fun _ _ _ => ?_))
    | (with_reducible refine Keeps.ite ?_ ?_)
    | (with_reducible refine KeepsO.next ?_)
    | (with_reducible refine KeepsO.ite ?_ ?_)

theorem execMbxRspHead_keeps {vs : List View} {u₀ : State} {fn : Fn} {head : BitVec 8} {s : State} (hk : Keeps vs u₀ s) (hm : [.mgmt] ⊆ vs) : KeepsO vs u₀ (execMbxRspHead fn head s) := by
  refine KeepsO.then hk hm ?_
  clear hk hm
  unfold execMbxRspHead
  try dsimp -proj only
  repeat' first
    | (with_reducible exact Keeps.refl _ _)
    | (with_reducible assumption)
    | decide
    | (with_reducible apply State.moveHead_keeps)
    | (with_reducible refine Keeps.ite ?_ ?_)
    | (with_reducible refine KeepsO.next ?_)
    | (with_reducible refine KeepsO.ite ?_ ?_)

theorem State.lockViolation_keeps {vs : List View} {u₀ : State} {s : State} {o : Nat} {v : BitVec 64} (hk : Keeps vs u₀ s) (hm : [.mgmt] ⊆ vs) : Keeps vs u₀ (State.lockViolation s o v) := by
  refine hk.then hm ?_
  clear hk hm
  unfold State.lockViolation
  try dsimp -proj only
  repeat' first
    | (with_reducible exact Keeps.refl _ _)
    | (with_reducible assumption)
    | decide
    | (with_reducible apply State.dayChip_keeps)

theorem State.clearInts_keeps {vs : List View} {u₀ : State} {s : State} {fn : Nat} {v : BitVec 64} (hk : Keeps vs u₀ s) (hm : [.mgmt] ⊆ vs) : Keeps vs u₀ (State.clearInts s fn v) := by
  refine hk.then hm ?_
  clear hk hm
  unfold State.clearInts
  try dsimp -proj only
  repeat' first
    | (with_reducible exact Keeps.refl _ _)
    | (with_reducible assumption)
    | (with_reducible exact Or.inl rfl)
    | exact Or.inr (by decide)
    | decide
    | (with_reducible refine Keeps.upd ?_ rfl rfl ?_ ?_ ?_ ?_ ?_ ?_ ?_ ?_ ?_ ?_ ?_ ?_ ?_; rotate_left; fail_if_success (iterate 13 (with_reducible exact Or.inl rfl)))

theorem State.msixWrite_keeps {vs : List View} {u₀ : State} {s : State} {fn o : Nat} {v m : BitVec 64} (hk : Keeps vs u₀ s) (hm : [.mgmt] ⊆ vs) : Keeps vs u₀ (State.msixWrite s fn o v m) := by
  refine hk.then hm ?_
  clear hk hm
  unfold State.msixWrite
  try dsimp -proj only
  repeat' first
    | (with_reducible exact Keeps.refl _ _)
    | (with_reducible assumption)
    | (with_reducible exact Or.inl rfl)
    | exact Or.inr (by decide)
    | decide
    | (with_reducible refine Keeps.ite ?_ ?_)
    | (with_reducible refine Keeps.upd ?_ rfl rfl ?_ ?_ ?_ ?_ ?_ ?_ ?_ ?_ ?_ ?_ ?_ ?_ ?_; rotate_left; fail_if_success (iterate 13 (with_reducible exact Or.inl rfl)))

theorem State.controlWrite_keeps {vs : List View} {u₀ : State} {s : State} {t o w : Nat} {v m : BitVec 64} (hk : Keeps vs u₀ s) (hm : [.cs, .desc, .mbox, .hall, .tags, .acc, .engines, .busy, .seqs, .reads, .idle, .merges, .service, .stores, .tens, .spares, .counters, .fabric, .mgmt, .power] ⊆ vs) : Keeps vs u₀ (State.controlWrite s t o w v m) := by
  refine hk.then hm ?_
  clear hk hm
  unfold State.controlWrite
  try dsimp -proj only
  repeat' first
    | (with_reducible exact Keeps.refl _ _)
    | (with_reducible assumption)
    | (with_reducible exact Or.inl rfl)
    | exact Or.inr (by decide)
    | decide
    | (with_reducible apply State.modTen_keeps)
    | (with_reducible apply State.modCourse_keeps)
    | (with_reducible apply State.modRecov_keeps)
    | (with_reducible apply State.commit_keeps)
    | (with_reducible apply State.unload_keeps)
    | (with_reducible apply State.apply_keeps)
    | (with_reducible apply State.blankReq_keeps)
    | (with_reducible apply State.hold_keeps)
    | (with_reducible apply State.lockViolation_keeps)
    | (with_reducible apply State.clearInts_keeps)
    | (with_reducible refine Keeps.ite ?_ ?_)
    | (with_reducible refine Keeps.upd ?_ rfl rfl ?_ ?_ ?_ ?_ ?_ ?_ ?_ ?_ ?_ ?_ ?_ ?_ ?_; rotate_left; fail_if_success (iterate 13 (with_reducible exact Or.inl rfl)))
    | split

theorem State.slotWrite_keeps {vs : List View} {u₀ : State} {s : State} {t o : Nat} {v m : BitVec 64} (hk : Keeps vs u₀ s) (hm : [.tens] ⊆ vs) : Keeps vs u₀ (State.slotWrite s t o v m) := by
  refine hk.then hm ?_
  clear hk hm
  unfold State.slotWrite
  try dsimp -proj only
  repeat' first
    | (with_reducible exact Keeps.refl _ _)
    | (with_reducible assumption)
    | (with_reducible exact Or.inl rfl)
    | exact Or.inr (by decide)
    | decide
    | (with_reducible apply State.modTen_keeps)

theorem State.windowWrite_keeps {vs : List View} {u₀ : State} {s : State} {t o w : Nat} {v m : BitVec 64} {pf : Bool} (hk : Keeps vs u₀ s) (hm : [.cs, .desc, .mbox, .hall, .tags, .acc, .engines, .busy, .seqs, .reads, .idle, .merges, .service, .stores, .tens, .spares, .counters, .fabric, .mgmt, .power] ⊆ vs) : Keeps vs u₀ (State.windowWrite s t o w v m pf) := by
  refine hk.then hm ?_
  clear hk hm
  unfold State.windowWrite
  try dsimp -proj only
  repeat' first
    | (with_reducible exact Keeps.refl _ _)
    | (with_reducible assumption)
    | decide
    | (with_reducible apply State.msixWrite_keeps)
    | (with_reducible apply State.controlWrite_keeps)
    | (with_reducible apply State.slotWrite_keeps)
    | (with_reducible refine Keeps.ite ?_ ?_)

theorem State.pfWrite_keeps {vs : List View} {u₀ : State} {s : State} {o : Nat} {v m : BitVec 64} (hk : Keeps vs u₀ s) (hm : [.cs, .desc, .mbox, .hall, .tags, .acc, .engines, .busy, .seqs, .reads, .idle, .merges, .service, .stores, .tens, .spares, .counters, .fabric, .time, .mgmt, .power] ⊆ vs) : Keeps vs u₀ (State.pfWrite s o v m) := by
  refine hk.then hm ?_
  clear hk hm
  unfold State.pfWrite
  try dsimp -proj only
  repeat' first
    | (with_reducible exact Keeps.refl _ _)
    | (with_reducible assumption)
    | (with_reducible exact Or.inl rfl)
    | exact Or.inr (by decide)
    | decide
    | (with_reducible apply State.lockViolation_keeps)
    | (with_reducible apply State.clearInts_keeps)
    | (with_reducible apply State.msixWrite_keeps)
    | (with_reducible apply State.windowWrite_keeps)
    | (with_reducible refine Keeps.ite ?_ ?_)
    | (with_reducible refine Keeps.upd ?_ rfl rfl ?_ ?_ ?_ ?_ ?_ ?_ ?_ ?_ ?_ ?_ ?_ ?_ ?_; rotate_left; fail_if_success (iterate 13 (with_reducible exact Or.inl rfl)))

theorem State.firmWrite_keeps {vs : List View} {u₀ : State} {s : State} {o : Nat} {v m : BitVec 64} (hk : Keeps vs u₀ s) (hm : [.tens, .fabric, .time, .mgmt, .power] ⊆ vs) : Keeps vs u₀ (State.firmWrite s o v m) := by
  refine hk.then hm ?_
  clear hk hm
  unfold State.firmWrite
  try dsimp -proj only
  repeat' first
    | (with_reducible exact Keeps.refl _ _)
    | (with_reducible assumption)
    | (with_reducible exact Or.inl rfl)
    | exact Or.inr (by decide)
    | decide
    | (with_reducible apply State.modTen_keeps)
    | (with_reducible apply State.selectPll_keeps)
    | (with_reducible apply State.writeFabCfg_keeps)
    | (with_reducible apply State.writeFabAxes_keeps)
    | (with_reducible refine Keeps.ite ?_ ?_)
    | (with_reducible refine Keeps.upd ?_ rfl rfl ?_ ?_ ?_ ?_ ?_ ?_ ?_ ?_ ?_ ?_ ?_ ?_ ?_; rotate_left; fail_if_success (iterate 13 (with_reducible exact Or.inl rfl)))

theorem State.boxWrite_keeps {vs : List View} {u₀ : State} {s : State} {fn o : Nat} {v m : BitVec 64} (hk : Keeps vs u₀ s) (hm : [.mgmt] ⊆ vs) : Keeps vs u₀ (State.boxWrite s fn o v m) := by
  refine hk.then hm ?_
  clear hk hm
  unfold State.boxWrite
  try dsimp -proj only
  repeat' first
    | (with_reducible exact Keeps.refl _ _)
    | (with_reducible assumption)
    | (with_reducible exact Or.inl rfl)
    | exact Or.inr (by decide)
    | decide
    | (with_reducible apply State.setBox_keeps)
    | (with_reducible apply State.moveTail_keeps)
    | (with_reducible apply State.moveHead_keeps)
    | (with_reducible refine Keeps.ite ?_ ?_)

theorem execRegisterWrite_keeps {vs : List View} {u₀ : State} {fn : Fn} {bar4 : Bool} {off : BitVec 20} {bytes : BitVec 4} {value : BitVec 64} {firmware : Bool} {s : State} (hk : Keeps vs u₀ s) (hm : [.cs, .desc, .mbox, .hall, .tags, .acc, .engines, .busy, .seqs, .reads, .idle, .merges, .service, .stores, .tens, .spares, .counters, .fabric, .time, .mgmt, .power] ⊆ vs) : KeepsO vs u₀ (execRegisterWrite fn bar4 off bytes value firmware s) := by
  refine KeepsO.then hk hm ?_
  clear hk hm
  unfold execRegisterWrite
  try dsimp -proj only
  repeat' first
    | (with_reducible exact Keeps.refl _ _)
    | (with_reducible assumption)
    | decide
    | (with_reducible apply State.hostUr_keeps)
    | (with_reducible apply State.dropLatch_keeps)
    | (with_reducible apply State.windowWrite_keeps)
    | (with_reducible apply State.pfWrite_keeps)
    | (with_reducible apply State.firmWrite_keeps)
    | (with_reducible apply State.boxWrite_keeps)
    | (with_reducible refine Keeps.ite ?_ ?_)
    | (with_reducible refine KeepsO.next ?_)
    | (with_reducible refine KeepsO.ite ?_ ?_)

theorem execIntStatusClear_keeps {vs : List View} {u₀ : State} {fn : Fn} {mask : BitVec 64} {s : State} (hk : Keeps vs u₀ s) (hm : [.mgmt] ⊆ vs) : KeepsO vs u₀ (execIntStatusClear fn mask s) := by
  refine KeepsO.then hk hm ?_
  clear hk hm
  unfold execIntStatusClear
  try dsimp -proj only
  repeat' first
    | (with_reducible exact Keeps.refl _ _)
    | (with_reducible assumption)
    | decide
    | (with_reducible apply State.dropLatch_keeps)
    | (with_reducible apply State.clearInts_keeps)
    | (with_reducible refine Keeps.ite ?_ ?_)
    | (with_reducible refine KeepsO.next ?_)
    | (with_reducible refine KeepsO.ite ?_ ?_)

end Sys2Proof.Machine
end

