-- ==== Sys2Proof/Laws/HostIoKeeps.lean ====
section
/-! SUPPORT. What each operation of Machine/HostIo.lean may change: the parts named, the queue and the identity never, and no canonical form. -/

namespace Sys2Proof.Machine

open Sys2Proof

set_option Elab.async false

theorem State.hostCharge_keeps {vs : List View} {u₀ : State} {s : State} {key cls : Nat} (hk : Keeps vs u₀ s) (hm : [.tens, .power] ⊆ vs) : Keeps vs u₀ (State.hostCharge s key cls) := by
  refine hk.then hm ?_
  clear hk hm
  unfold State.hostCharge
  try dsimp -proj only
  repeat' first
    | (with_reducible exact Keeps.refl _ _)
    | (with_reducible assumption)
    | decide
    | (with_reducible apply State.charge_keeps)

theorem State.hostGet_keeps {vs : List View} {u₀ : State} {s : State} {key : Nat} (hk : Keeps vs u₀ s) (hm : [.cs, .mbox, .words, .service, .tens, .counters, .power] ⊆ vs) : Keeps vs u₀ (State.hostGet s key) := by
  refine hk.then hm ?_
  clear hk hm
  unfold State.hostGet
  try dsimp -proj only
  repeat' first
    | (with_reducible exact Keeps.refl _ _)
    | (with_reducible assumption)
    | decide
    | (with_reducible apply State.count_keeps)
    | (with_reducible apply State.writeWord_keeps)
    | (with_reducible apply State.markUncorr_keeps)
    | (with_reducible apply State.hostCharge_keeps)
    | (with_reducible refine Keeps.ite ?_ ?_)

theorem State.hostPut_keeps {vs : List View} {u₀ : State} {s : State} {key : Nat} {w : MemWord} (hk : Keeps vs u₀ s) (hm : [.cs, .mbox, .words, .tens] ⊆ vs) : Keeps vs u₀ (State.hostPut s key w) := by
  refine hk.then hm ?_
  clear hk hm
  unfold State.hostPut
  try dsimp -proj only
  repeat' first
    | (with_reducible exact Keeps.refl _ _)
    | (with_reducible assumption)
    | (with_reducible exact Or.inl rfl)
    | exact Or.inr (by decide)
    | decide
    | (with_reducible apply State.modTen_keeps)
    | (with_reducible apply State.writeWord_keeps)
    | (with_reducible refine Keeps.ite ?_ ?_)
    | (with_reducible refine Keeps.upd ?_ rfl rfl ?_ ?_ ?_ ?_ ?_ ?_ ?_ ?_ ?_ ?_ ?_ ?_ ?_; rotate_left; fail_if_success (iterate 13 (with_reducible exact Or.inl rfl)))
    | split

theorem State.hostWord_keeps {vs : List View} {u₀ : State} {s : State} {key : Nat} {bs : List (Nat × BitVec 8)} {ep : Bool} (hk : Keeps vs u₀ s) (hm : [.cs, .mbox, .words, .service, .tens, .counters, .power] ⊆ vs) : Keeps vs u₀ (State.hostWord s key bs ep) := by
  refine hk.then hm ?_
  clear hk hm
  unfold State.hostWord
  try dsimp -proj only
  repeat' first
    | (with_reducible exact Keeps.refl _ _)
    | (with_reducible assumption)
    | decide
    | (with_reducible apply State.hostCharge_keeps)
    | (with_reducible apply State.hostGet_keeps)
    | (with_reducible apply State.hostPut_keeps)
    | (with_reducible refine Keeps.ite ?_ ?_)

theorem State.hostGrants_keeps {vs : List View} {u₀ : State} {s : State} {keys : List Nat} (hk : Keeps vs u₀ s) (hm : [.counters] ⊆ vs) : Keeps vs u₀ (State.hostGrants s keys) := by
  refine hk.then hm ?_
  clear hk hm
  unfold State.hostGrants
  try dsimp -proj only
  repeat' first
    | (with_reducible exact Keeps.refl _ _)
    | (with_reducible assumption)
    | (with_reducible exact Or.inl rfl)
    | exact Or.inr (by decide)
    | decide
    | (with_reducible apply State.grant_keeps)
    | (with_reducible refine Keeps.upd ?_ rfl rfl ?_ ?_ ?_ ?_ ?_ ?_ ?_ ?_ ?_ ?_ ?_ ?_ ?_; rotate_left; fail_if_success (iterate 13 (with_reducible exact Or.inl rfl)))
    | split

theorem execHostHbmAccess_keeps {vs : List View} {u₀ : State} {fn : Fn} {off : BitVec 36} {write : Bool} {len : BitVec 16} {data : List (BitVec 8)} {ep : Bool} {s : State} (hk : Keeps vs u₀ s) (hm : [.cs, .mbox, .words, .service, .tens, .counters, .mgmt, .power] ⊆ vs) : KeepsO vs u₀ (execHostHbmAccess fn off write len data ep s) := by
  refine KeepsO.then hk hm ?_
  clear hk hm
  unfold execHostHbmAccess
  try dsimp -proj only
  repeat' first
    | (with_reducible exact Keeps.refl _ _)
    | (with_reducible assumption)
    | (with_reducible exact Or.inl rfl)
    | exact Or.inr (by decide)
    | decide
    | (with_reducible apply State.hostUr_keeps)
    | (with_reducible apply State.hostGet_keeps)
    | (with_reducible apply State.hostWord_keeps)
    | (with_reducible apply State.hostGrants_keeps)
    | (with_reducible refine Keeps.foldl ?_ (fun _ _ _ => ?_))
    | (with_reducible refine Keeps.foldlFst ?_ (fun _ _ _ => ?_))
    | (with_reducible refine Keeps.ite ?_ ?_)
    | (with_reducible refine KeepsO.next ?_)
    | (with_reducible refine KeepsO.ite ?_ ?_)
    | (with_reducible refine Keeps.upd ?_ rfl rfl ?_ ?_ ?_ ?_ ?_ ?_ ?_ ?_ ?_ ?_ ?_ ?_ ?_; rotate_left; fail_if_success (iterate 13 (with_reducible exact Or.inl rfl)))

theorem State.clearBox_keeps {vs : List View} {u₀ : State} {s : State} {fn : Nat} (hk : Keeps vs u₀ s) (hm : [.mgmt] ⊆ vs) : Keeps vs u₀ (State.clearBox s fn) := by
  refine hk.then hm ?_
  clear hk hm
  unfold State.clearBox
  try dsimp -proj only
  repeat' first
    | (with_reducible exact Keeps.refl _ _)
    | (with_reducible assumption)
    | (with_reducible exact Or.inl rfl)
    | exact Or.inr (by decide)
    | decide
    | (with_reducible apply State.setBox_keeps)
    | (with_reducible refine Keeps.ite ?_ ?_)
    | (with_reducible refine Keeps.upd ?_ rfl rfl ?_ ?_ ?_ ?_ ?_ ?_ ?_ ?_ ?_ ?_ ?_ ?_ ?_; rotate_left; fail_if_success (iterate 13 (with_reducible exact Or.inl rfl)))

theorem State.resetTen_keeps {vs : List View} {u₀ : State} {s : State} {t : Nat} (hk : Keeps vs u₀ s) (hm : [.cs, .desc, .mbox, .hall, .tags, .acc, .engines, .busy, .seqs, .reads, .idle, .merges, .service, .stores, .tens, .counters, .fabric, .mgmt, .power] ⊆ vs) : Keeps vs u₀ (State.resetTen s t) := by
  refine hk.then hm ?_
  clear hk hm
  unfold State.resetTen
  try dsimp -proj only
  repeat' first
    | (with_reducible exact Keeps.refl _ _)
    | (with_reducible assumption)
    | decide
    | (with_reducible apply State.hostEnds_keeps)
    | (with_reducible apply State.clearLoad_keeps)
    | (with_reducible apply State.clearBox_keeps)
    | (with_reducible refine Keeps.ite ?_ ?_)

theorem State.resetPf_keeps {vs : List View} {u₀ : State} {s : State} (hk : Keeps vs u₀ s) (hm : [.cs, .desc, .mbox, .hall, .tags, .acc, .engines, .busy, .seqs, .reads, .idle, .merges, .service, .stores, .tens, .counters, .fabric, .mgmt, .power] ⊆ vs) : Keeps vs u₀ (State.resetPf s) := by
  refine hk.then hm ?_
  clear hk hm
  unfold State.resetPf
  try dsimp -proj only
  repeat' first
    | (with_reducible exact Keeps.refl _ _)
    | (with_reducible assumption)
    | decide
    | (with_reducible apply State.clearBox_keeps)
    | (with_reducible apply State.resetTen_keeps)
    | (with_reducible refine Keeps.foldl ?_ (fun _ _ _ => ?_))

theorem execFunctionLevelReset_keeps {vs : List View} {u₀ : State} {fn : Fn} {s : State} (hk : Keeps vs u₀ s) (hm : [.cs, .desc, .mbox, .hall, .tags, .acc, .engines, .busy, .seqs, .reads, .idle, .merges, .service, .stores, .tens, .counters, .fabric, .mgmt, .power] ⊆ vs) : KeepsO vs u₀ (execFunctionLevelReset fn s) := by
  refine KeepsO.then hk hm ?_
  clear hk hm
  unfold execFunctionLevelReset
  try dsimp -proj only
  repeat' first
    | (with_reducible exact Keeps.refl _ _)
    | (with_reducible assumption)
    | decide
    | (with_reducible apply State.resetTen_keeps)
    | (with_reducible apply State.resetPf_keeps)
    | (with_reducible refine Keeps.ite ?_ ?_)
    | (with_reducible refine KeepsO.next ?_)
    | (with_reducible refine KeepsO.ite ?_ ?_)

theorem State.retrain_keeps {vs : List View} {u₀ : State} {s : State} (hk : Keeps vs u₀ s) (hm : [.board] ⊆ vs) : Keeps vs u₀ (State.retrain s) := by
  refine hk.then hm ?_
  clear hk hm
  unfold State.retrain
  try dsimp -proj only
  repeat' first
    | (with_reducible exact Keeps.refl _ _)
    | (with_reducible assumption)
    | (with_reducible exact Or.inl rfl)
    | exact Or.inr (by decide)
    | decide
    | (with_reducible refine Keeps.upd ?_ rfl rfl ?_ ?_ ?_ ?_ ?_ ?_ ?_ ?_ ?_ ?_ ?_ ?_ ?_; rotate_left; fail_if_success (iterate 13 (with_reducible exact Or.inl rfl)))

theorem execHotReset_keeps {vs : List View} {u₀ : State} {s : State} (hk : Keeps vs u₀ s) (hm : [.cs, .desc, .mbox, .hall, .tags, .acc, .engines, .busy, .seqs, .reads, .idle, .merges, .service, .stores, .tens, .counters, .fabric, .mgmt, .power, .board] ⊆ vs) : KeepsO vs u₀ (execHotReset s) := by
  refine KeepsO.then hk hm ?_
  clear hk hm
  unfold execHotReset
  try dsimp -proj only
  repeat' first
    | (with_reducible exact Keeps.refl _ _)
    | (with_reducible assumption)
    | decide
    | (with_reducible apply State.resetPf_keeps)
    | (with_reducible apply State.retrain_keeps)
    | (with_reducible refine KeepsO.next ?_)

end Sys2Proof.Machine
end

