-- ==== Sys2Proof/Laws/BootKeeps.lean ====
section
/-! SUPPORT. What each operation of Machine/Boot.lean may change: the parts named, the queue and the identity never, and no canonical form. -/

namespace Sys2Proof.Machine

open Sys2Proof

set_option Elab.async false

theorem State.afterReset_keeps {vs : List View} {u₀ s : State} (hk : Keeps vs u₀ s)
    (hm : [.cs, .prog, .desc, .purse, .mbox, .hall, .tags, .acc, .engines, .busy, .seqs, .reads, .idle, .merges, .words, .service, .stores, .tens, .spares, .counters, .fabric, .time, .mgmt, .power, .board, .upsets, .fresh] ⊆ vs) : Keeps vs u₀ (State.afterReset s) := by
  refine hk.trans ⟨rfl, rfl, fun _ => ⟨⟨rfl, rfl, rfl, fun _ h => nomatch h⟩, rfl⟩, fun v hv => absurd (hm ?_) hv⟩
  cases v <;> decide

theorem execDeviceReset_keeps {vs : List View} {u₀ : State} {s : State} (hk : Keeps vs u₀ s) (hm : [.cs, .prog, .desc, .purse, .mbox, .hall, .tags, .acc, .engines, .busy, .seqs, .reads, .idle, .merges, .words, .service, .stores, .tens, .spares, .counters, .fabric, .time, .mgmt, .power, .board, .upsets, .fresh] ⊆ vs) : KeepsO vs u₀ (execDeviceReset s) := by
  refine KeepsO.then hk hm ?_
  clear hk hm
  unfold execDeviceReset
  try dsimp -proj only
  repeat' first
    | (with_reducible exact Keeps.refl _ _)
    | (with_reducible assumption)
    | decide
    | (with_reducible apply State.afterReset_keeps)
    | (with_reducible refine KeepsO.next ?_)

theorem State.logDevice_keeps {vs : List View} {u₀ : State} {s : State} {k : BitVec 8} (hk : Keeps vs u₀ s) (hm : [.mgmt] ⊆ vs) : Keeps vs u₀ (State.logDevice s k) := by
  refine hk.then hm ?_
  clear hk hm
  unfold State.logDevice
  try dsimp -proj only
  repeat' first
    | (with_reducible exact Keeps.refl _ _)
    | (with_reducible assumption)
    | (with_reducible exact Or.inl rfl)
    | exact Or.inr (by decide)
    | decide
    | (with_reducible refine Keeps.upd ?_ rfl rfl ?_ ?_ ?_ ?_ ?_ ?_ ?_ ?_ ?_ ?_ ?_ ?_ ?_; rotate_left; fail_if_success (iterate 13 (with_reducible exact Or.inl rfl)))

theorem State.begin_keeps {vs : List View} {u₀ : State} {s : State} {stage : BitVec 8} (hk : Keeps vs u₀ s) (hm : [.board] ⊆ vs) : Keeps vs u₀ (State.begin s stage) := by
  refine hk.then hm ?_
  clear hk hm
  unfold State.begin
  try dsimp -proj only
  repeat' first
    | (with_reducible exact Keeps.refl _ _)
    | (with_reducible assumption)
    | (with_reducible exact Or.inl rfl)
    | exact Or.inr (by decide)
    | decide
    | (with_reducible refine Keeps.upd ?_ rfl rfl ?_ ?_ ?_ ?_ ?_ ?_ ?_ ?_ ?_ ?_ ?_ ?_ ?_; rotate_left; fail_if_success (iterate 13 (with_reducible exact Or.inl rfl)))

theorem State.bootFail_keeps {vs : List View} {u₀ : State} {s : State} {code detail : BitVec 8} (hk : Keeps vs u₀ s) (hm : [.fabric, .time, .mgmt, .board] ⊆ vs) : Keeps vs u₀ (State.bootFail s code detail) := by
  refine hk.then hm ?_
  clear hk hm
  unfold State.bootFail
  try dsimp -proj only
  repeat' first
    | (with_reducible exact Keeps.refl _ _)
    | (with_reducible assumption)
    | (with_reducible exact Or.inl rfl)
    | exact Or.inr (by decide)
    | decide
    | (with_reducible apply State.commitEvents_keeps)
    | (with_reducible apply State.stage_keeps)
    | (with_reducible apply State.logDevice_keeps)
    | (with_reducible refine Keeps.ite ?_ ?_)
    | (with_reducible refine Keeps.upd ?_ rfl rfl ?_ ?_ ?_ ?_ ?_ ?_ ?_ ?_ ?_ ?_ ?_ ?_ ?_; rotate_left; fail_if_success (iterate 13 (with_reducible exact Or.inl rfl)))

theorem State.clockFail_keeps {vs : List View} {u₀ : State} {s : State} (hk : Keeps vs u₀ s) (hm : [.fabric, .time, .mgmt, .board, .fresh] ⊆ vs) : Keeps vs u₀ (State.clockFail s) := by
  refine hk.then hm ?_
  clear hk hm
  unfold State.clockFail
  try dsimp -proj only
  repeat' first
    | (with_reducible exact Keeps.refl _ _)
    | (with_reducible assumption)
    | decide
    | (with_reducible apply State.draw_keeps)
    | (with_reducible apply State.bootFail_keeps)

theorem State.bootA_keeps {vs : List View} {u₀ : State} {s : State} {b : BootReadings} (hk : Keeps vs u₀ s) (hm : [.fabric, .time, .mgmt, .board, .fresh] ⊆ vs) : Keeps vs u₀ (State.bootA s b) := by
  refine hk.then hm ?_
  clear hk hm
  unfold State.bootA
  try dsimp -proj only
  repeat' first
    | (with_reducible exact Keeps.refl _ _)
    | (with_reducible assumption)
    | (with_reducible exact Or.inl rfl)
    | exact Or.inr (by decide)
    | decide
    | (with_reducible apply State.begin_keeps)
    | (with_reducible apply State.clockFail_keeps)
    | (with_reducible refine Keeps.ite ?_ ?_)
    | (with_reducible refine Keeps.upd ?_ rfl rfl ?_ ?_ ?_ ?_ ?_ ?_ ?_ ?_ ?_ ?_ ?_ ?_ ?_; rotate_left; fail_if_success (iterate 13 (with_reducible exact Or.inl rfl)))

theorem State.clearHbm_keeps {vs : List View} {u₀ : State} {s : State} (hk : Keeps vs u₀ s) (hm : [.words, .service] ⊆ vs) : Keeps vs u₀ (State.clearHbm s) := by
  refine hk.then hm ?_
  clear hk hm
  unfold State.clearHbm
  try dsimp -proj only
  repeat' first
    | (with_reducible exact Keeps.refl _ _)
    | (with_reducible assumption)
    | (with_reducible exact Or.inl rfl)
    | exact Or.inr (by decide)
    | decide
    | (with_reducible refine Keeps.upd ?_ rfl rfl ?_ ?_ ?_ ?_ ?_ ?_ ?_ ?_ ?_ ?_ ?_ ?_ ?_; rotate_left; fail_if_success (iterate 13 (with_reducible exact Or.inl rfl)))
    | ((with_reducible refine Or.inr (?_ : HbmOk _ _ _)); simp +contextual [HbmOk, hbmPut_wf, hbmFilter_wf, hbmClear_wf])

theorem State.clearDies_keeps {vs : List View} {u₀ : State} {s : State} (hk : Keeps vs u₀ s) (hm : [.cs, .prog, .desc, .purse, .mbox, .hall, .tags, .acc, .engines, .busy, .seqs, .reads, .idle, .merges, .stores, .fabric] ⊆ vs) : Keeps vs u₀ (State.clearDies s) := by
  refine hk.then hm ?_
  clear hk hm
  unfold State.clearDies
  try dsimp -proj only
  repeat' first
    | (with_reducible exact Keeps.refl _ _)
    | (with_reducible assumption)
    | (with_reducible exact Or.inl rfl)
    | exact Or.inr (by decide)
    | decide
    | (with_reducible refine Keeps.upd ?_ rfl rfl ?_ ?_ ?_ ?_ ?_ ?_ ?_ ?_ ?_ ?_ ?_ ?_ ?_; rotate_left; fail_if_success (iterate 13 (with_reducible exact Or.inl rfl)))
    | ((with_reducible refine Or.inr (?_ : CoresOk _ _ _)); simp +contextual [CoresOk, Cores.wf, memPut_wf, memPuts_wf, memClear_wf, memFilter_wf])

theorem State.boot8_keeps {vs : List View} {u₀ : State} {s : State} {b : BootReadings} (hk : Keeps vs u₀ s) (hm : [.cs, .prog, .desc, .purse, .mbox, .hall, .tags, .acc, .engines, .busy, .seqs, .reads, .idle, .merges, .words, .service, .stores, .fabric, .time, .mgmt, .board, .fresh] ⊆ vs) : Keeps vs u₀ (State.boot8 s b) := by
  refine hk.then hm ?_
  clear hk hm
  unfold State.boot8
  try dsimp -proj only
  repeat' first
    | (with_reducible exact Keeps.refl _ _)
    | (with_reducible assumption)
    | decide
    | (with_reducible apply State.begin_keeps)
    | (with_reducible apply State.bootFail_keeps)
    | (with_reducible apply State.clockFail_keeps)
    | (with_reducible apply State.bootA_keeps)
    | (with_reducible apply State.clearHbm_keeps)
    | (with_reducible apply State.clearDies_keeps)
    | (with_reducible refine Keeps.ite ?_ ?_)

theorem State.boot6_keeps {vs : List View} {u₀ : State} {s : State} {b : BootReadings} (hk : Keeps vs u₀ s) (hm : [.cs, .prog, .desc, .purse, .mbox, .hall, .tags, .acc, .engines, .busy, .seqs, .reads, .idle, .merges, .words, .service, .stores, .fabric, .time, .mgmt, .board, .fresh] ⊆ vs) : Keeps vs u₀ (State.boot6 s b) := by
  refine hk.then hm ?_
  clear hk hm
  unfold State.boot6
  try dsimp -proj only
  repeat' first
    | (with_reducible exact Keeps.refl _ _)
    | (with_reducible assumption)
    | (with_reducible exact Or.inl rfl)
    | exact Or.inr (by decide)
    | decide
    | (with_reducible apply State.begin_keeps)
    | (with_reducible apply State.bootFail_keeps)
    | (with_reducible apply State.boot8_keeps)
    | (with_reducible refine Keeps.ite ?_ ?_)
    | (with_reducible refine Keeps.upd ?_ rfl rfl ?_ ?_ ?_ ?_ ?_ ?_ ?_ ?_ ?_ ?_ ?_ ?_ ?_; rotate_left; fail_if_success (iterate 13 (with_reducible exact Or.inl rfl)))
    | ((with_reducible refine Or.inr (?_ : HbmOk _ _ _)); simp +contextual [HbmOk, hbmPut_wf, hbmFilter_wf, hbmClear_wf])

theorem State.boot5_keeps {vs : List View} {u₀ : State} {s : State} {b : BootReadings} (hk : Keeps vs u₀ s) (hm : [.cs, .prog, .desc, .purse, .mbox, .hall, .tags, .acc, .engines, .busy, .seqs, .reads, .idle, .merges, .words, .service, .stores, .tens, .counters, .fabric, .time, .mgmt, .power, .board, .fresh] ⊆ vs) : Keeps vs u₀ (State.boot5 s b) := by
  refine hk.then hm ?_
  clear hk hm
  unfold State.boot5
  try dsimp -proj only
  repeat' first
    | (with_reducible exact Keeps.refl _ _)
    | (with_reducible assumption)
    | decide
    | (with_reducible apply State.takeTemps_keeps)
    | (with_reducible apply State.begin_keeps)
    | (with_reducible apply State.bootFail_keeps)
    | (with_reducible apply State.boot6_keeps)
    | (with_reducible refine Keeps.ite ?_ ?_)

theorem State.boot3_keeps {vs : List View} {u₀ : State} {s : State} {b : BootReadings} (hk : Keeps vs u₀ s) (hm : [.cs, .prog, .desc, .purse, .mbox, .hall, .tags, .acc, .engines, .busy, .seqs, .reads, .idle, .merges, .words, .service, .stores, .tens, .counters, .fabric, .time, .mgmt, .power, .board, .fresh] ⊆ vs) : Keeps vs u₀ (State.boot3 s b) := by
  refine hk.then hm ?_
  clear hk hm
  unfold State.boot3
  try dsimp -proj only
  repeat' first
    | (with_reducible exact Keeps.refl _ _)
    | (with_reducible assumption)
    | (with_reducible exact Or.inl rfl)
    | exact Or.inr (by decide)
    | decide
    | (with_reducible apply State.begin_keeps)
    | (with_reducible apply State.bootFail_keeps)
    | (with_reducible apply State.boot5_keeps)
    | (with_reducible refine Keeps.ite ?_ ?_)
    | (with_reducible refine Keeps.upd ?_ rfl rfl ?_ ?_ ?_ ?_ ?_ ?_ ?_ ?_ ?_ ?_ ?_ ?_ ?_; rotate_left; fail_if_success (iterate 13 (with_reducible exact Or.inl rfl)))

theorem State.boot2_keeps {vs : List View} {u₀ : State} {s : State} {b : BootReadings} (hk : Keeps vs u₀ s) (hm : [.cs, .prog, .desc, .purse, .mbox, .hall, .tags, .acc, .engines, .busy, .seqs, .reads, .idle, .merges, .words, .service, .stores, .tens, .counters, .fabric, .time, .mgmt, .power, .board, .fresh] ⊆ vs) : Keeps vs u₀ (State.boot2 s b) := by
  refine hk.then hm ?_
  clear hk hm
  unfold State.boot2
  try dsimp -proj only
  repeat' first
    | (with_reducible exact Keeps.refl _ _)
    | (with_reducible assumption)
    | (with_reducible exact Or.inl rfl)
    | exact Or.inr (by decide)
    | decide
    | (with_reducible apply State.startFw_keeps)
    | (with_reducible apply State.begin_keeps)
    | (with_reducible apply State.bootFail_keeps)
    | (with_reducible apply State.boot3_keeps)
    | (with_reducible refine Keeps.upd ?_ rfl rfl ?_ ?_ ?_ ?_ ?_ ?_ ?_ ?_ ?_ ?_ ?_ ?_ ?_; rotate_left; fail_if_success (iterate 13 (with_reducible exact Or.inl rfl)))
    | split

theorem State.boot1_keeps {vs : List View} {u₀ : State} {s : State} {b : BootReadings} (hk : Keeps vs u₀ s) (hm : [.cs, .prog, .desc, .purse, .mbox, .hall, .tags, .acc, .engines, .busy, .seqs, .reads, .idle, .merges, .words, .service, .stores, .tens, .counters, .fabric, .time, .mgmt, .power, .board, .fresh] ⊆ vs) : Keeps vs u₀ (State.boot1 s b) := by
  refine hk.then hm ?_
  clear hk hm
  unfold State.boot1
  try dsimp -proj only
  repeat' first
    | (with_reducible exact Keeps.refl _ _)
    | (with_reducible assumption)
    | (with_reducible exact Or.inl rfl)
    | exact Or.inr (by decide)
    | decide
    | (with_reducible apply State.begin_keeps)
    | (with_reducible apply State.bootFail_keeps)
    | (with_reducible apply State.clockFail_keeps)
    | (with_reducible apply State.boot2_keeps)
    | (with_reducible refine Keeps.ite ?_ ?_)
    | (with_reducible refine Keeps.upd ?_ rfl rfl ?_ ?_ ?_ ?_ ?_ ?_ ?_ ?_ ?_ ?_ ?_ ?_ ?_; rotate_left; fail_if_success (iterate 13 (with_reducible exact Or.inl rfl)))

theorem execBoot_keeps {vs : List View} {u₀ : State} {b : BootReadings} {s : State} (hk : Keeps vs u₀ s) (hm : [.cs, .prog, .desc, .purse, .mbox, .hall, .tags, .acc, .engines, .busy, .seqs, .reads, .idle, .merges, .words, .service, .stores, .tens, .counters, .fabric, .time, .mgmt, .power, .board, .fresh] ⊆ vs) : KeepsO vs u₀ (execBoot b s) := by
  refine KeepsO.then hk hm ?_
  clear hk hm
  unfold execBoot
  try dsimp -proj only
  repeat' first
    | (with_reducible exact Keeps.refl _ _)
    | (with_reducible assumption)
    | decide
    | (with_reducible apply State.boot1_keeps)
    | (with_reducible refine Keeps.ite ?_ ?_)
    | (with_reducible refine KeepsO.next ?_)

theorem execPerstNRise_keeps {vs : List View} {u₀ : State} {s : State} (hk : Keeps vs u₀ s) (hm : [.fabric, .board] ⊆ vs) : KeepsO vs u₀ (execPerstNRise s) := by
  refine KeepsO.then hk hm ?_
  clear hk hm
  unfold execPerstNRise
  try dsimp -proj only
  repeat' first
    | (with_reducible exact Keeps.refl _ _)
    | (with_reducible assumption)
    | (with_reducible exact Or.inl rfl)
    | exact Or.inr (by decide)
    | decide
    | (with_reducible apply State.stage_keeps)
    | (with_reducible refine KeepsO.next ?_)
    | (with_reducible refine Keeps.upd ?_ rfl rfl ?_ ?_ ?_ ?_ ?_ ?_ ?_ ?_ ?_ ?_ ?_ ?_ ?_; rotate_left; fail_if_success (iterate 13 (with_reducible exact Or.inl rfl)))

theorem State.bootEnds_keeps {vs : List View} {u₀ : State} {s : State} (hk : Keeps vs u₀ s) (hm : [.service, .board] ⊆ vs) : Keeps vs u₀ (State.bootEnds s) := by
  refine hk.then hm ?_
  clear hk hm
  unfold State.bootEnds
  try dsimp -proj only
  repeat' first
    | (with_reducible exact Keeps.refl _ _)
    | (with_reducible assumption)
    | (with_reducible exact Or.inl rfl)
    | exact Or.inr (by decide)
    | decide
    | (with_reducible refine Keeps.upd ?_ rfl rfl ?_ ?_ ?_ ?_ ?_ ?_ ?_ ?_ ?_ ?_ ?_ ?_ ?_; rotate_left; fail_if_success (iterate 13 (with_reducible exact Or.inl rfl)))
    | ((with_reducible refine Or.inr (?_ : HbmOk _ _ _)); simp +contextual [HbmOk, hbmPut_wf, hbmFilter_wf, hbmClear_wf])

theorem execPcieLinkUp_keeps {vs : List View} {u₀ : State} {s : State} (hk : Keeps vs u₀ s) (hm : [.service, .fabric, .board] ⊆ vs) : KeepsO vs u₀ (execPcieLinkUp s) := by
  refine KeepsO.then hk hm ?_
  clear hk hm
  unfold execPcieLinkUp
  try dsimp -proj only
  repeat' first
    | (with_reducible exact Keeps.refl _ _)
    | (with_reducible assumption)
    | (with_reducible exact Or.inl rfl)
    | exact Or.inr (by decide)
    | decide
    | (with_reducible apply State.stage_keeps)
    | (with_reducible apply State.bootEnds_keeps)
    | (with_reducible refine Keeps.ite ?_ ?_)
    | (with_reducible refine KeepsO.next ?_)
    | (with_reducible refine KeepsO.ite ?_ ?_)
    | (with_reducible refine Keeps.upd ?_ rfl rfl ?_ ?_ ?_ ?_ ?_ ?_ ?_ ?_ ?_ ?_ ?_ ?_ ?_; rotate_left; fail_if_success (iterate 13 (with_reducible exact Or.inl rfl)))

theorem execMgmtRstN_keeps {vs : List View} {u₀ : State} {s : State} (hk : Keeps vs u₀ s) (hm : [.cs, .prog, .desc, .purse, .mbox, .hall, .tags, .acc, .engines, .busy, .seqs, .reads, .idle, .merges, .words, .service, .stores, .tens, .counters, .fabric, .time, .mgmt, .power, .board, .fresh] ⊆ vs) : KeepsO vs u₀ (execMgmtRstN s) := by
  refine KeepsO.then hk hm ?_
  clear hk hm
  unfold execMgmtRstN
  try dsimp -proj only
  repeat' first
    | (with_reducible exact Keeps.refl _ _)
    | (with_reducible assumption)
    | (with_reducible exact Or.inl rfl)
    | exact Or.inr (by decide)
    | decide
    | (with_reducible apply State.deviceError_keeps)
    | (with_reducible apply State.restartMgmt_keeps)
    | (with_reducible apply State.boot2_keeps)
    | (with_reducible refine Keeps.ite ?_ ?_)
    | (with_reducible refine KeepsO.next ?_)
    | (with_reducible refine KeepsO.ite ?_ ?_)
    | split

theorem execBrownOut_keeps {vs : List View} {u₀ : State} {r : Rail} {s : State} (hk : Keeps vs u₀ s) (hm : [.desc, .tags, .engines, .busy, .seqs, .reads, .merges, .service, .tens, .counters, .fabric, .time, .mgmt, .power, .board] ⊆ vs) : KeepsO vs u₀ (execBrownOut r s) := by
  refine KeepsO.then hk hm ?_
  clear hk hm
  unfold execBrownOut
  try dsimp -proj only
  repeat' first
    | (with_reducible exact Keeps.refl _ _)
    | (with_reducible assumption)
    | (with_reducible exact Or.inl rfl)
    | exact Or.inr (by decide)
    | decide
    | (with_reducible apply State.deviceError_keeps)
    | (with_reducible apply State.logDevice_keeps)
    | (with_reducible refine Keeps.ite ?_ ?_)
    | (with_reducible refine KeepsO.next ?_)
    | (with_reducible refine KeepsO.ite ?_ ?_)
    | (with_reducible refine Keeps.upd ?_ rfl rfl ?_ ?_ ?_ ?_ ?_ ?_ ?_ ?_ ?_ ?_ ?_ ?_ ?_; rotate_left; fail_if_success (iterate 13 (with_reducible exact Or.inl rfl)))
    | split

theorem execRailBackInRange_keeps {vs : List View} {u₀ : State} {r : Rail} {s : State} (hk : Keeps vs u₀ s) (hm : [.desc, .tags, .engines, .busy, .seqs, .reads, .merges, .service, .tens, .counters, .fabric, .time, .mgmt, .power, .board] ⊆ vs) : KeepsO vs u₀ (execRailBackInRange r s) := by
  refine KeepsO.then hk hm ?_
  clear hk hm
  unfold execRailBackInRange
  try dsimp -proj only
  repeat' first
    | (with_reducible exact Keeps.refl _ _)
    | (with_reducible assumption)
    | (with_reducible exact Or.inl rfl)
    | exact Or.inr (by decide)
    | decide
    | (with_reducible apply State.deviceError_keeps)
    | (with_reducible apply State.restartMgmt_keeps)
    | (with_reducible refine Keeps.ite ?_ ?_)
    | (with_reducible refine KeepsO.next ?_)
    | (with_reducible refine KeepsO.ite ?_ ?_)
    | (with_reducible refine Keeps.upd ?_ rfl rfl ?_ ?_ ?_ ?_ ?_ ?_ ?_ ?_ ?_ ?_ ?_ ?_ ?_; rotate_left; fail_if_success (iterate 13 (with_reducible exact Or.inl rfl)))

theorem execConnectionLoss_keeps {vs : List View} {u₀ : State} {_d : Conn} {s : State} (hk : Keeps vs u₀ s) (hm : [.desc, .tags, .engines, .busy, .seqs, .reads, .merges, .service, .tens, .counters, .fabric, .time, .mgmt, .power, .board] ⊆ vs) : KeepsO vs u₀ (execConnectionLoss _d s) := by
  refine KeepsO.then hk hm ?_
  clear hk hm
  unfold execConnectionLoss
  try dsimp -proj only
  repeat' first
    | (with_reducible exact Keeps.refl _ _)
    | (with_reducible assumption)
    | decide
    | (with_reducible apply State.deviceError_keeps)
    | (with_reducible refine KeepsO.next ?_)

theorem execRouterFault_keeps {vs : List View} {u₀ : State} {_phys : BitVec 7} {s : State} (hk : Keeps vs u₀ s) (hm : [.desc, .tags, .engines, .busy, .seqs, .reads, .merges, .service, .tens, .counters, .fabric, .time, .mgmt, .power, .board] ⊆ vs) : KeepsO vs u₀ (execRouterFault _phys s) := by
  refine KeepsO.then hk hm ?_
  clear hk hm
  unfold execRouterFault
  try dsimp -proj only
  repeat' first
    | (with_reducible exact Keeps.refl _ _)
    | (with_reducible assumption)
    | decide
    | (with_reducible apply State.deviceError_keeps)
    | (with_reducible refine KeepsO.next ?_)

theorem execI3cRead_keeps {vs : List View} {u₀ : State} {index : BitVec 8} {s : State} (hk : Keeps vs u₀ s) (hm : [.board] ⊆ vs) : KeepsO vs u₀ (execI3cRead index s) := by
  refine KeepsO.then hk hm ?_
  clear hk hm
  unfold execI3cRead
  try dsimp -proj only
  repeat' first
    | (with_reducible exact Keeps.refl _ _)
    | (with_reducible assumption)
    | (with_reducible exact Or.inl rfl)
    | exact Or.inr (by decide)
    | decide
    | (with_reducible refine Keeps.ite ?_ ?_)
    | (with_reducible refine KeepsO.next ?_)
    | (with_reducible refine KeepsO.ite ?_ ?_)
    | (with_reducible refine Keeps.upd ?_ rfl rfl ?_ ?_ ?_ ?_ ?_ ?_ ?_ ?_ ?_ ?_ ?_ ?_ ?_; rotate_left; fail_if_success (iterate 13 (with_reducible exact Or.inl rfl)))

theorem execDynamicAddress_keeps {vs : List View} {u₀ : State} {a : BitVec 7} {s : State} (hk : Keeps vs u₀ s) (hm : [.board] ⊆ vs) : KeepsO vs u₀ (execDynamicAddress a s) := by
  refine KeepsO.then hk hm ?_
  clear hk hm
  unfold execDynamicAddress
  try dsimp -proj only
  repeat' first
    | (with_reducible exact Keeps.refl _ _)
    | (with_reducible assumption)
    | (with_reducible exact Or.inl rfl)
    | exact Or.inr (by decide)
    | decide
    | (with_reducible refine Keeps.ite ?_ ?_)
    | (with_reducible refine KeepsO.next ?_)
    | (with_reducible refine KeepsO.ite ?_ ?_)
    | (with_reducible refine Keeps.upd ?_ rfl rfl ?_ ?_ ?_ ?_ ?_ ?_ ?_ ?_ ?_ ?_ ?_ ?_ ?_; rotate_left; fail_if_success (iterate 13 (with_reducible exact Or.inl rfl)))

theorem State.tap_keeps {vs : List View} {u₀ : State} {s : State} {i : BitVec 3} {d : BitVec 32} (hk : Keeps vs u₀ s) (hm : [.board] ⊆ vs) : Keeps vs u₀ (State.tap s i d) := by
  refine hk.then hm ?_
  clear hk hm
  unfold State.tap
  try dsimp -proj only
  repeat' first
    | (with_reducible exact Keeps.refl _ _)
    | (with_reducible assumption)
    | (with_reducible exact Or.inl rfl)
    | exact Or.inr (by decide)
    | decide
    | (with_reducible refine Keeps.ite ?_ ?_)
    | (with_reducible refine Keeps.upd ?_ rfl rfl ?_ ?_ ?_ ?_ ?_ ?_ ?_ ?_ ?_ ?_ ?_ ?_ ?_; rotate_left; fail_if_success (iterate 13 (with_reducible exact Or.inl rfl)))

theorem State.tapPor_keeps {vs : List View} {u₀ : State} {s : State} {i : BitVec 3} {d : BitVec 32} (hk : Keeps vs u₀ s) (hm : [.board] ⊆ vs) : Keeps vs u₀ (State.tapPor s i d) := by
  refine hk.then hm ?_
  clear hk hm
  unfold State.tapPor
  try dsimp -proj only
  repeat' first
    | (with_reducible exact Keeps.refl _ _)
    | (with_reducible assumption)
    | decide
    | (with_reducible apply State.tap_keeps)
    | (with_reducible refine Keeps.ite ?_ ?_)

theorem execBypass_keeps {vs : List View} {u₀ : State} {s : State} (hk : Keeps vs u₀ s) (hm : [.board] ⊆ vs) : KeepsO vs u₀ (execBypass s) := by
  refine KeepsO.then hk hm ?_
  clear hk hm
  unfold execBypass
  try dsimp -proj only
  repeat' first
    | (with_reducible exact Keeps.refl _ _)
    | (with_reducible assumption)
    | decide
    | (with_reducible apply State.tap_keeps)
    | (with_reducible refine KeepsO.next ?_)

theorem execIdcode_keeps {vs : List View} {u₀ : State} {s : State} (hk : Keeps vs u₀ s) (hm : [.board] ⊆ vs) : KeepsO vs u₀ (execIdcode s) := by
  refine KeepsO.then hk hm ?_
  clear hk hm
  unfold execIdcode
  try dsimp -proj only
  repeat' first
    | (with_reducible exact Keeps.refl _ _)
    | (with_reducible assumption)
    | decide
    | (with_reducible apply State.tap_keeps)
    | (with_reducible refine KeepsO.next ?_)

theorem execSamplePreload_keeps {vs : List View} {u₀ : State} {pins : BitVec 32} {s : State} (hk : Keeps vs u₀ s) (hm : [.board] ⊆ vs) : KeepsO vs u₀ (execSamplePreload pins s) := by
  refine KeepsO.then hk hm ?_
  clear hk hm
  unfold execSamplePreload
  try dsimp -proj only
  repeat' first
    | (with_reducible exact Keeps.refl _ _)
    | (with_reducible assumption)
    | (with_reducible exact Or.inl rfl)
    | exact Or.inr (by decide)
    | decide
    | (with_reducible apply State.tap_keeps)
    | (with_reducible refine Keeps.ite ?_ ?_)
    | (with_reducible refine KeepsO.next ?_)
    | (with_reducible refine KeepsO.ite ?_ ?_)
    | (with_reducible refine Keeps.upd ?_ rfl rfl ?_ ?_ ?_ ?_ ?_ ?_ ?_ ?_ ?_ ?_ ?_ ?_ ?_; rotate_left; fail_if_success (iterate 13 (with_reducible exact Or.inl rfl)))

theorem execExtest_keeps {vs : List View} {u₀ : State} {s : State} (hk : Keeps vs u₀ s) (hm : [.cs, .desc, .purse, .mbox, .hall, .tags, .engines, .busy, .seqs, .reads, .idle, .merges, .words, .service, .stores, .tens, .spares, .counters, .fabric, .time, .mgmt, .power, .board] ⊆ vs) : KeepsO vs u₀ (execExtest s) := by
  refine KeepsO.then hk hm ?_
  clear hk hm
  unfold execExtest
  try dsimp -proj only
  repeat' first
    | (with_reducible exact Keeps.refl _ _)
    | (with_reducible assumption)
    | decide
    | (with_reducible apply State.boundary_keeps)
    | (with_reducible apply State.tapPor_keeps)
    | (with_reducible refine KeepsO.next ?_)

theorem execClamp_keeps {vs : List View} {u₀ : State} {s : State} (hk : Keeps vs u₀ s) (hm : [.board] ⊆ vs) : KeepsO vs u₀ (execClamp s) := by
  refine KeepsO.then hk hm ?_
  clear hk hm
  unfold execClamp
  try dsimp -proj only
  repeat' first
    | (with_reducible exact Keeps.refl _ _)
    | (with_reducible assumption)
    | decide
    | (with_reducible apply State.tapPor_keeps)
    | (with_reducible refine KeepsO.next ?_)

theorem execHighz_keeps {vs : List View} {u₀ : State} {s : State} (hk : Keeps vs u₀ s) (hm : [.board] ⊆ vs) : KeepsO vs u₀ (execHighz s) := by
  refine KeepsO.then hk hm ?_
  clear hk hm
  unfold execHighz
  try dsimp -proj only
  repeat' first
    | (with_reducible exact Keeps.refl _ _)
    | (with_reducible assumption)
    | decide
    | (with_reducible apply State.tapPor_keeps)
    | (with_reducible refine KeepsO.next ?_)

end Sys2Proof.Machine
end

