-- ==== Sys2Proof/Laws/KeepsEq.lean ====
section
/-! SUPPORT. The parts that Keeps leaves, as equations. -/

namespace Sys2Proof.Machine

open Sys2Proof

set_option Elab.async false

variable {vs : List View} {s t : State}

theorem Keeps.eq_stores (k : Keeps vs s t) (h : View.stores ∉ vs := by decide) : t.stores = s.stores := (k.same _ h).2.2
theorem Keeps.eq_tens (k : Keeps vs s t) (h : View.tens ∉ vs := by decide) : t.tens = s.tens := (k.same _ h).2.2
theorem Keeps.eq_spares (k : Keeps vs s t) (h : View.spares ∉ vs := by decide) : t.spares = s.spares := (k.same _ h).2.2
theorem Keeps.eq_counters (k : Keeps vs s t) (h : View.counters ∉ vs := by decide) : t.counters = s.counters := (k.same _ h).2.2
theorem Keeps.eq_fabric (k : Keeps vs s t) (h : View.fabric ∉ vs := by decide) : t.fabric = s.fabric := (k.same _ h).2.2
theorem Keeps.eq_time (k : Keeps vs s t) (h : View.time ∉ vs := by decide) : t.time = s.time := (k.same _ h).2.2
theorem Keeps.eq_mgmt (k : Keeps vs s t) (h : View.mgmt ∉ vs := by decide) : t.mgmt = s.mgmt := (k.same _ h).2.2
theorem Keeps.eq_power (k : Keeps vs s t) (h : View.power ∉ vs := by decide) : t.power = s.power := (k.same _ h).2.2
theorem Keeps.eq_board (k : Keeps vs s t) (h : View.board ∉ vs := by decide) : t.board = s.board := (k.same _ h).2.2
theorem Keeps.eq_upsets (k : Keeps vs s t) (h : View.upsets ∉ vs := by decide) : t.upsets = s.upsets := (k.same _ h).2.2
theorem Keeps.eq_fresh (k : Keeps vs s t) (h : View.fresh ∉ vs := by decide) : t.fresh = s.fresh := (k.same _ h).2.2
theorem Keeps.eq_cs (k : Keeps vs s t) (h : View.cs ∉ vs := by decide) : t.cores.cs = s.cores.cs := (k.same _ h).1
theorem Keeps.eq_prog (k : Keeps vs s t) (h : View.prog ∉ vs := by decide) : t.cores.prog = s.cores.prog := (k.same _ h).1
theorem Keeps.eq_desc (k : Keeps vs s t) (h : View.desc ∉ vs := by decide) : t.cores.desc = s.cores.desc := (k.same _ h).1.1
theorem Keeps.eq_purse (k : Keeps vs s t) (h : View.purse ∉ vs := by decide) : t.cores.purse = s.cores.purse := (k.same _ h).1
theorem Keeps.eq_mbox (k : Keeps vs s t) (h : View.mbox ∉ vs := by decide) : t.cores.mbox = s.cores.mbox := (k.same _ h).1
theorem Keeps.eq_engines (k : Keeps vs s t) (h : View.engines ∉ vs := by decide) : t.cores.engines = s.cores.engines := (k.same _ h).1
theorem Keeps.eq_seqs (k : Keeps vs s t) (h : View.seqs ∉ vs := by decide) : t.cores.seqs = s.cores.seqs := (k.same _ h).1
theorem Keeps.eq_reads (k : Keeps vs s t) (h : View.reads ∉ vs := by decide) : t.cores.reads = s.cores.reads := (k.same _ h).1
theorem Keeps.eq_tags (k : Keeps vs s t) (h : View.tags ∉ vs := by decide) : t.cores.tags = s.cores.tags := (k.same _ h).1.1
theorem Keeps.eq_fills (k : Keeps vs s t) (h : View.tags ∉ vs := by decide) : t.cores.fills = s.cores.fills := (k.same _ h).1.2
theorem Keeps.eq_acc (k : Keeps vs s t) (h : View.acc ∉ vs := by decide) : t.cores.acc = s.cores.acc := (k.same _ h).1.1
theorem Keeps.eq_bind (k : Keeps vs s t) (h : View.acc ∉ vs := by decide) : t.cores.bind = s.cores.bind := (k.same _ h).1.2
theorem Keeps.eq_words (k : Keeps vs s t) (h : View.words ∉ vs := by decide) : t.hbm.words = s.hbm.words := (k.same _ h).2.1
theorem Keeps.eq_bcast (k : Keeps vs s t) (h : View.busy ∉ vs := by decide) : t.cores.bcast = s.cores.bcast := (k.same _ h).1.1
theorem Keeps.eq_pairs (k : Keeps vs s t) (h : View.busy ∉ vs := by decide) : t.cores.pairs = s.cores.pairs := (k.same _ h).1.2.1
theorem Keeps.eq_vxBusy (k : Keeps vs s t) (h : View.busy ∉ vs := by decide) : t.cores.vxBusy = s.cores.vxBusy := (k.same _ h).1.2.2.1
theorem Keeps.eq_rwBusy (k : Keeps vs s t) (h : View.busy ∉ vs := by decide) : t.cores.rwBusy = s.cores.rwBusy := (k.same _ h).1.2.2.2.1
theorem Keeps.eq_chBusy (k : Keeps vs s t) (h : View.busy ∉ vs := by decide) : t.cores.chBusy = s.cores.chBusy := (k.same _ h).1.2.2.2.2.1
theorem Keeps.eq_links (k : Keeps vs s t) (h : View.busy ∉ vs := by decide) : t.cores.links = s.cores.links := (k.same _ h).1.2.2.2.2.2.1
theorem Keeps.eq_guard (k : Keeps vs s t) (h : View.busy ∉ vs := by decide) : t.cores.guard = s.cores.guard := (k.same _ h).1.2.2.2.2.2.2.1
theorem Keeps.eq_ports (k : Keeps vs s t) (h : View.busy ∉ vs := by decide) : t.cores.ports = s.cores.ports := (k.same _ h).1.2.2.2.2.2.2.2.1
theorem Keeps.eq_quants (k : Keeps vs s t) (h : View.busy ∉ vs := by decide) : t.cores.quants = s.cores.quants := (k.same _ h).1.2.2.2.2.2.2.2.2
theorem Keeps.eq_idle (k : Keeps vs s t) (h : View.idle ∉ vs := by decide) : t.cores.idle = s.cores.idle := (k.same _ h).1
theorem Keeps.eq_merges (k : Keeps vs s t) (h : View.merges ∉ vs := by decide) : t.cores.merges = s.cores.merges := (k.same _ h).1
theorem Keeps.eq_hbmMerges (k : Keeps vs s t) (h : View.merges ∉ vs := by decide) : t.hbm.merges = s.hbm.merges := (k.same _ h).2.1

theorem Keeps.ten_eq (k : Keeps vs s t) (u : Nat) (h : View.tens ∉ vs := by decide) : t.ten u = s.ten u := by
  unfold State.ten
  rw [k.eq_tens h]

theorem Keeps.counter_eq (k : Keeps vs s t) (o : Nat) (h : View.counters ∉ vs := by decide) : t.counter o = s.counter o := by
  unfold State.counter
  rw [k.eq_counters h]

end Sys2Proof.Machine
end

