-- ==== Sys2Proof/Laws/State.lean ====
section
/-! SUPPORT. What each setter of a part of the state gives to the getters, and leaves alone. -/

namespace Sys2Proof.Machine

open Sys2Proof

set_option Elab.async false

/-! ### Tenancies -/

@[simp] theorem State.ten_setTen (s : State) (t : Nat) (r : Tenancy) : (s.setTen t r).ten t = r := look_put _ _ _ _

theorem State.ten_setTen_ne (s : State) {t u : Nat} (r : Tenancy) (h : u ≠ t) : (s.setTen t r).ten u = s.ten u := look_put_ne _ _ _ h

@[simp] theorem State.ten_modTen (s : State) (t : Nat) (f : Tenancy → Tenancy) : (s.modTen t f).ten t = f (s.ten t) := s.ten_setTen t _

theorem State.ten_modTen_ne (s : State) {t u : Nat} (f : Tenancy → Tenancy) (h : u ≠ t) : (s.modTen t f).ten u = s.ten u :=
  s.ten_setTen_ne _ h

@[simp] theorem State.setTen_cores (s : State) (t : Nat) (r : Tenancy) : (s.setTen t r).cores = s.cores := rfl
@[simp] theorem State.setTen_hbm (s : State) (t : Nat) (r : Tenancy) : (s.setTen t r).hbm = s.hbm := rfl
@[simp] theorem State.setTen_stores (s : State) (t : Nat) (r : Tenancy) : (s.setTen t r).stores = s.stores := rfl
@[simp] theorem State.setTen_counters (s : State) (t : Nat) (r : Tenancy) : (s.setTen t r).counters = s.counters := rfl
@[simp] theorem State.setTen_fabric (s : State) (t : Nat) (r : Tenancy) : (s.setTen t r).fabric = s.fabric := rfl
@[simp] theorem State.setTen_time (s : State) (t : Nat) (r : Tenancy) : (s.setTen t r).time = s.time := rfl
@[simp] theorem State.setTen_mgmt (s : State) (t : Nat) (r : Tenancy) : (s.setTen t r).mgmt = s.mgmt := rfl
@[simp] theorem State.setTen_power (s : State) (t : Nat) (r : Tenancy) : (s.setTen t r).power = s.power := rfl
@[simp] theorem State.setTen_board (s : State) (t : Nat) (r : Tenancy) : (s.setTen t r).board = s.board := rfl
@[simp] theorem State.setTen_ident (s : State) (t : Nat) (r : Tenancy) : (s.setTen t r).ident = s.ident := rfl
@[simp] theorem State.setTen_spares (s : State) (t : Nat) (r : Tenancy) : (s.setTen t r).spares = s.spares := rfl
@[simp] theorem State.setTen_upsets (s : State) (t : Nat) (r : Tenancy) : (s.setTen t r).upsets = s.upsets := rfl
@[simp] theorem State.setTen_fresh (s : State) (t : Nat) (r : Tenancy) : (s.setTen t r).fresh = s.fresh := rfl
@[simp] theorem State.setTen_pending (s : State) (t : Nat) (r : Tenancy) : (s.setTen t r).pending = s.pending := rfl

theorem State.modTen_eq (s : State) (t : Nat) (f : Tenancy → Tenancy) : s.modTen t f = s.setTen t (f (s.ten t)) := rfl

/-! ### Counters -/

/-- A counter raised reads its sum, held at all ones; every other reads as before. -/
theorem State.counter_count (s : State) (o n p : Nat) :
    (s.count o n).counter p = if p = o then BitVec.ofNat 64 (min counterMax ((s.counter o).toNat + n)) else s.counter p := by
  unfold State.counter State.count
  exact look_put_eq 0 s.counters o p _

@[simp] theorem State.count_cores (s : State) (o n : Nat) : (s.count o n).cores = s.cores := rfl
@[simp] theorem State.count_hbm (s : State) (o n : Nat) : (s.count o n).hbm = s.hbm := rfl
@[simp] theorem State.count_stores (s : State) (o n : Nat) : (s.count o n).stores = s.stores := rfl
@[simp] theorem State.count_tens (s : State) (o n : Nat) : (s.count o n).tens = s.tens := rfl
@[simp] theorem State.count_ten (s : State) (o n t : Nat) : (s.count o n).ten t = s.ten t := rfl
@[simp] theorem State.count_fabric (s : State) (o n : Nat) : (s.count o n).fabric = s.fabric := rfl
@[simp] theorem State.count_time (s : State) (o n : Nat) : (s.count o n).time = s.time := rfl
@[simp] theorem State.count_mgmt (s : State) (o n : Nat) : (s.count o n).mgmt = s.mgmt := rfl
@[simp] theorem State.count_power (s : State) (o n : Nat) : (s.count o n).power = s.power := rfl
@[simp] theorem State.count_board (s : State) (o n : Nat) : (s.count o n).board = s.board := rfl
@[simp] theorem State.count_ident (s : State) (o n : Nat) : (s.count o n).ident = s.ident := rfl

/-! ### Sequencers and units -/

@[simp] theorem seqOf_setSeq (s : State) (c : Core) (q : Seq) : seqOf (s.setSeq c q) c = q := look_put _ _ _ _

theorem seqOf_setSeq_ne (s : State) {c d : Core} (q : Seq) (h : d ≠ c) : seqOf (s.setSeq c q) d = seqOf s d :=
  look_put_ne _ _ _ (fun e => h (Fin.ext e))

@[simp] theorem State.takeRow_busy (s : State) (c : Core) (u : Nat) : look (s.takeRow c u).cores.rwBusy 0 c.val = u :=
  look_put (0 : Nat) s.cores.rwBusy c.val u

@[simp] theorem State.takeVx_busy (s : State) (c : Core) (u : Nat) : look (s.takeVx c u).cores.vxBusy 0 c.val = u :=
  look_put (0 : Nat) s.cores.vxBusy c.val u

@[simp] theorem State.quantUntil_vxBusy (s rd : State) (c : Core) (slot : Nat) (yes : Bool) (u : Nat) :
    (s.quantUntil rd c slot yes u).cores.vxBusy = s.cores.vxBusy := by
  unfold State.quantUntil
  split <;> rfl

@[simp] theorem State.quantUntil_rwBusy (s rd : State) (c : Core) (slot : Nat) (yes : Bool) (u : Nat) :
    (s.quantUntil rd c slot yes u).cores.rwBusy = s.cores.rwBusy := by
  unfold State.quantUntil
  split <;> rfl

@[simp] theorem State.takeChannel_busy (s : State) (c : Core) (ch u : Nat) : look (s.takeChannel c ch u).cores.chBusy 0 (chKey c ch) = u :=
  look_put (0 : Nat) s.cores.chBusy (chKey c ch) u

@[simp] theorem State.takeCast_busy (s : State) (c : Core) (u : Nat) : look (s.takeCast c u).cores.bcast 0 c.val = u :=
  look_put (0 : Nat) s.cores.bcast c.val u

/-! ### The daybook -/

@[simp] theorem State.daybook_waiting (s : State) (code : BitVec 8) (cls : BitVec 3) (ten core unit a b c : Nat) :
    (s.daybook code cls ten core unit a b c).mgmt.waiting = s.mgmt.waiting ++ [dayWord s.time.tally code cls ten core unit a b c] := rfl

@[simp] theorem State.daybook_tens (s : State) (code : BitVec 8) (cls : BitVec 3) (ten core unit a b c : Nat) :
    (s.daybook code cls ten core unit a b c).tens = s.tens := rfl

@[simp] theorem State.daybook_cores (s : State) (code : BitVec 8) (cls : BitVec 3) (ten core unit a b c : Nat) :
    (s.daybook code cls ten core unit a b c).cores = s.cores := rfl

@[simp] theorem State.daybook_counters (s : State) (code : BitVec 8) (cls : BitVec 3) (ten core unit a b c : Nat) :
    (s.daybook code cls ten core unit a b c).counters = s.counters := rfl

/-! ### Words -/

/-- A word written reads back; every other word of every space reads as before. -/
theorem rawWord_writeWord (s : State) (sp sp' : Space) (a b : Nat) (w : MemWord)
    (ha : match sp with | .cs _ => a < csWords | .mbox _ => a < mboxWords | .hbm => True)
    (hb : match sp' with | .cs _ => b < csWords | .mbox _ => b < mboxWords | .hbm => True) :
    rawWord (s.writeWord sp a w) sp' b = if sp' = sp ∧ b = a then w else rawWord s sp' b := by
  have key : ∀ (n : Nat) (c d : Core) (x y : Nat), x < n → y < n → n * c.val + x = n * d.val + y → c = d ∧ x = y := by
    intro n c d x y hx hy h
    have h1 : (n * c.val + x) / n = c.val := by rw [Nat.mul_add_div (by omega), Nat.div_eq_of_lt hx]; omega
    have h2 : (n * d.val + y) / n = d.val := by rw [Nat.mul_add_div (by omega), Nat.div_eq_of_lt hy]; omega
    have h3 : c.val = d.val := by rw [← h1, ← h2, h]
    exact ⟨Fin.ext h3, by rw [h3] at h; omega⟩
  cases sp <;> cases sp' <;> simp only [rawWord, State.writeWord, memGet_memPut, hbmGet_hbmPut] <;> simp_all
  · rename_i c d
    by_cases h : csKey d b = csKey c a
    · obtain ⟨rfl, rfl⟩ := key _ _ _ _ _ hb ha h; simp
    · rw [if_neg h, if_neg]
      rintro ⟨rfl, rfl⟩
      exact h rfl
  · rename_i c d
    by_cases h : mboxKey d b = mboxKey c a
    · obtain ⟨rfl, rfl⟩ := key _ _ _ _ _ hb ha h; simp
    · rw [if_neg h, if_neg]
      rintro ⟨rfl, rfl⟩
      exact h rfl

end Sys2Proof.Machine
end

