-- ==== Sys2Proof/Laws/Words.lean ====
section
/-! SUPPORT. Which words each operation on words may change, and what a word written reads. -/

namespace Sys2Proof.Machine

open Sys2Proof

set_option Elab.async false

theorem rawWord_eq (s : State) (sp : Space) (a : Nat) : rawWord s sp a = rawAt s (place sp a) := by cases sp <;> rfl

theorem place_inj {sp : Space} {a b : Nat} (h : place sp a = place sp b) : a = b := by
  cases sp <;> simp [place, csKey, mboxKey] at h <;> omega

/-! ### Touches -/

theorem settles_trans {a b c : MemWord} (h : settles a b) (k : settles b c) : settles a c := by
  rcases h with rfl | ⟨hu, rfl⟩
  · exact k
  · refine Or.inr ⟨hu, ?_⟩
    have : (decodeWord a).w.syn = poisonSyn := by
      revert hu
      unfold decodeWord
      split
      · simp
      · split
        · simp
        · split
          · simp
          · split <;> simp
    rcases k with rfl | ⟨hv, -⟩
    · rfl
    · generalize (decodeWord a).w = x at this hv
      simp [decodeWord, this, poisonSyn] at hv

theorem Touches.refl (ws rs : List (Bank × Nat)) (s : State) : Touches ws rs s s := fun _ _ => Or.inl rfl

theorem Touches.trans {ws rs : List (Bank × Nat)} {s t u : State} (h : Touches ws rs s t) (k : Touches ws rs t u) : Touches ws rs s u := by
  intro p hp
  rcases h p hp with e | ⟨hr, e⟩
  · rw [← e]; exact k p hp
  · rcases k p hp with f | ⟨-, f⟩
    · rw [f]; exact Or.inr ⟨hr, e⟩
    · exact Or.inr ⟨hr, settles_trans e f⟩

theorem Touches.mono {ws rs vs qs : List (Bank × Nat)} {s t : State} (h : Touches ws rs s t) (hw : ws ⊆ vs) (hr : rs ⊆ qs) :
    Touches vs qs s t := by
  intro p hp
  rcases h p (fun e => hp (hw e)) with e | ⟨e, f⟩
  · exact Or.inl e
  · exact Or.inr ⟨hr e, f⟩

theorem Touches.foldl {α : Type} {ws rs : List (Bank × Nat)} {s t : State} {l : List α} {f : State → α → State} (h : Touches ws rs s t)
    (hf : ∀ u, ∀ a ∈ l, Touches ws rs u (f u a)) : Touches ws rs s (l.foldl f t) := by
  induction l generalizing t with
  | nil => exact h
  | cons a r ih => exact ih (h.trans (hf t a (by simp))) (fun u b hb => hf u b (by simp [hb]))

/-- What keeps the three memories touches no word. -/
theorem Keeps.touches {vs : List View} {ws rs : List (Bank × Nat)} {s t : State} (h : Keeps vs s t) (h1 : View.cs ∉ vs) (h2 : View.mbox ∉ vs)
    (h3 : View.words ∉ vs) : Touches ws rs s t := by
  rintro ⟨b, k⟩ -
  left
  cases b
  · exact congrArg (fun m => memGet m k) (h.same _ h1).1
  · exact congrArg (fun m => memGet m k) (h.same _ h2).1
  · exact congrArg (fun m => hbmGet m k) (h.same _ h3).2.1

theorem rawAt_writeWord (s : State) (sp : Space) (a : Nat) (w : MemWord) (p : Bank × Nat) :
    rawAt (s.writeWord sp a w) p = if p = place sp a then w else rawAt s p := by
  obtain ⟨b, k⟩ := p
  cases sp <;> cases b <;> simp [rawAt, State.writeWord, place, memGet_memPut, hbmGet_hbmPut]

theorem touches_writeWord (s : State) (sp : Space) (a : Nat) (w : MemWord) : Touches [place sp a] [] s (s.writeWord sp a w) := by
  intro p hp
  left
  rw [rawAt_writeWord, if_neg (by simpa using hp)]

/-! ### Reads -/

theorem touches_noteRead (s : State) (sp : Space) (a : Nat) : Touches [] [place sp a] s (s.noteRead sp a) := by
  unfold State.noteRead
  dsimp only
  have h0 : Keeps [.tens, .power] s (s.chargeRead sp a) := State.chargeRead_keeps (Keeps.refl _ _) (by decide)
  generalize s.chargeRead sp a = s0 at h0 ⊢
  have t0 : Touches [] [place sp a] s s0 := h0.touches (by decide) (by decide) (by decide)
  have hc : ∀ (u : State) (o n : Nat), Touches [] [place sp a] u (u.count o n) := fun u o n =>
    (State.count_keeps (vs := [.counters]) (Keeps.refl _ _) (by decide)).touches (by decide) (by decide) (by decide)
  split
  · split
    · exact t0.trans (hc _ _ _)
    · exact t0
  · split
    · rename_i hu
      have t1 : Touches [] [place sp a] s ((s0.markUncorr sp a).writeWord sp a (decodeWord (rawWord s sp a)).w) := by
        have hm : Keeps [.tens, .power, .service] s (s0.markUncorr sp a) :=
          State.markUncorr_keeps (h0.mono (by decide)) (by decide)
        have tm : Touches [] [] s (s0.markUncorr sp a) := hm.touches (by decide) (by decide) (by decide)
        intro p _
        by_cases hp : p = place sp a
        · subst hp
          refine Or.inr ⟨by simp, Or.inr ⟨by rw [← rawWord_eq]; exact hu, ?_⟩⟩
          rw [rawAt_writeWord, if_pos rfl, rawWord_eq]
        · rw [rawAt_writeWord, if_neg hp]
          rcases tm p (by simp) with e | ⟨e, -⟩
          · exact Or.inl e
          · cases e
      split
      · exact t1.trans (hc _ _ _)
      · exact t1
    · exact t0

theorem touches_noteReads (s : State) (sp : Space) (as : List Nat) : Touches [] (as.map (place sp)) s (s.noteReads sp as) :=
  Touches.foldl (Touches.refl _ _ _) (fun u a ha => (touches_noteRead u sp a).mono (by simp) (by simpa using ⟨a, ha, rfl⟩))

/-- The hallmark words that reading the hallmarks of the blocks of a run reads: HBM keeps them beside its words. -/
def hallReads (sp : Space) (as : List Nat) : List (Bank × Nat) :=
  match sp with
  | .hbm => (blocksOf as).map (fun b => (.hbm, hallWord (128 * b)))
  | _ => []

theorem touches_noteHall (s : State) (sp : Space) (a : Nat) :
    Touches [] (match sp with | .hbm => [(.hbm, hallWord a)] | _ => []) s (s.noteHall sp a) := by
  cases sp with
  | cs c =>
    unfold State.noteHall
    dsimp only
    split
    · exact (State.countCore_keeps (vs := [.counters]) (Keeps.refl _ _) (by decide)).touches (by decide) (by decide) (by decide)
    · exact Touches.refl _ _ _
  | mbox c => exact Touches.refl _ _ _
  | hbm => exact touches_noteRead s .hbm (hallWord a)

theorem poisonConsumed_touches {ws rs : List (Bank × Nat)} (s : State) (c : Core) (unit kind addr : Nat) :
    Touches ws rs s (s.poisonConsumed c unit kind addr) :=
  (State.poisonConsumed_keeps (vs := [.tens, .counters, .fabric, .mgmt, .power]) (Keeps.refl _ _) (by decide)).touches
    (by decide) (by decide) (by decide)

/-- A consumer's reads settle the words it reads, and in HBM their hallmarks. -/
theorem touches_consume (s rd : State) (c : Core) (unit : Nat) (sp : Space) (as : List Nat) :
    Touches [] (as.map (place sp) ++ hallReads sp as) s (s.consume rd c unit sp as) := by
  unfold State.consume
  have h1 : Touches [] (as.map (place sp) ++ hallReads sp as) s (s.noteReads sp as) := (touches_noteReads s sp as).mono (by simp) (by simp)
  have h2 : Touches [] (as.map (place sp) ++ hallReads sp as) s
      ((blocksOf as).foldl (fun s b => s.noteHall sp (128 * b)) (s.noteReads sp as)) := by
    refine Touches.foldl h1 (fun u b hb => (touches_noteHall u sp (128 * b)).mono (by simp) ?_)
    cases sp <;> simp [hallReads]
    right; exact ⟨b, hb, rfl⟩
  dsimp only
  split
  · exact h2.trans (poisonConsumed_touches _ _ _ _ _)
  · exact h2

/-! ### What is written -/

/-- What keeps the memories and the merge entries leaves every word as it was. -/
theorem Keeps.held {vs : List View} {s t : State} (h : Keeps vs s t) (p : Bank × Nat) (h1 : View.cs ∉ vs := by decide)
    (h2 : View.mbox ∉ vs := by decide) (h3 : View.words ∉ vs := by decide) (h4 : View.merges ∉ vs := by decide) : heldAt t p = heldAt s p := by
  have hr : rawAt t p = rawAt s p := by
    rcases h.touches (ws := []) (rs := []) h1 h2 h3 p (by simp) with e | ⟨e, -⟩
    · exact e
    · cases e
  have hw : waitsAt t p = waitsAt s p := by
    obtain ⟨b, k⟩ := p
    have hm := h.same _ h4
    cases b
    · exact congrArg (fun m => (find m k).map (fun e : MergeEntry => (e.word, e.mask))) hm.1
    · rfl
    · exact congrArg (fun m => (find m k).map (fun e : MergeEntry => (e.word, e.mask))) hm.2.1
  simp only [heldAt, hr, hw]

theorem Keeps.waits {vs : List View} {s t : State} (h : Keeps vs s t) (p : Bank × Nat) (h4 : View.merges ∉ vs := by decide) :
    waitsAt t p = waitsAt s p := by
  obtain ⟨b, k⟩ := p
  have hm := h.same _ h4
  cases b
  · exact congrArg (fun m => (find m k).map (fun e : MergeEntry => (e.word, e.mask))) hm.1
  · rfl
  · exact congrArg (fun m => (find m k).map (fun e : MergeEntry => (e.word, e.mask))) hm.2.1

theorem Writes.refl (rs : List (Bank × Nat)) (s : State) : Writes [] rs s s := fun p => ⟨rawAt s p, Or.inl rfl, rfl⟩

theorem Writes.of_held {rs : List (Bank × Nat)} {s t : State} (h : ∀ p, heldAt t p = heldAt s p) : Writes [] rs s t :=
  fun p => ⟨rawAt s p, Or.inl rfl, h p⟩

/-- What keeps the memories and the merge entries writes nothing. -/
theorem Keeps.writes {vs : List View} {rs : List (Bank × Nat)} {s t : State} (h : Keeps vs s t) (h1 : View.cs ∉ vs := by decide)
    (h2 : View.mbox ∉ vs := by decide) (h3 : View.words ∉ vs := by decide) (h4 : View.merges ∉ vs := by decide) : Writes [] rs s t :=
  Writes.of_held (fun p => h.held p h1 h2 h3 h4)

/-- Reads that settle words write nothing. -/
theorem Touches.writes {rs : List (Bank × Nat)} {s t : State} (h : Touches [] rs s t) (hw : ∀ p, waitsAt t p = waitsAt s p) : Writes [] rs s t := by
  intro p
  refine ⟨rawAt t p, ?_, ?_⟩
  · exact h p (by simp)
  · simp [heldAt, hw]

/-- Reads, then a run of writes. -/
theorem Writes.after_reads {ws : List ((Bank × Nat) × Out)} {rs qs : List (Bank × Nat)} {s t u : State} (h : Writes [] rs s t)
    (k : Writes ws qs t u) : Writes ws (rs ++ qs) s u := by
  intro p
  obtain ⟨w, hw, e⟩ := h p
  obtain ⟨x, hx, f⟩ := k p
  obtain ⟨e1, e2⟩ : rawAt t p = w ∧ waitsAt t p = waitsAt s p := Prod.ext_iff.mp e
  refine ⟨x, ?_, by rw [f, e2]⟩
  rw [e1] at hx
  rcases hw with rfl | ⟨hr, hw⟩
  · rcases hx with rfl | ⟨hq, hx⟩
    · exact Or.inl rfl
    · exact Or.inr ⟨by simp [hq], hx⟩
  · rcases hx with rfl | ⟨-, hx⟩
    · exact Or.inr ⟨by simp [hr], hw⟩
    · exact Or.inr ⟨by simp [hr], settles_trans hw hx⟩

/-- A run of writes, then another with no reads. -/
theorem Writes.append {ws vs : List ((Bank × Nat) × Out)} {rs : List (Bank × Nat)} {s t u : State} (h : Writes ws rs s t)
    (k : Writes vs [] t u) : Writes (ws ++ vs) rs s u := by
  intro p
  obtain ⟨w, hw, e⟩ := h p
  obtain ⟨x, hx, f⟩ := k p
  refine ⟨w, hw, ?_⟩
  have hx : x = rawAt t p := hx.resolve_right (by simp)
  rw [f, hx, List.filter_append, List.map_append, List.foldl_append, ← e]
  rfl

theorem Writes.mono {ws : List ((Bank × Nat) × Out)} {rs qs : List (Bank × Nat)} {s t : State} (h : Writes ws rs s t) (hr : rs ⊆ qs) :
    Writes ws qs s t := by
  intro p
  obtain ⟨w, hw, e⟩ := h p
  exact ⟨w, hw.imp_right (fun k => ⟨hr k.1, k.2⟩), e⟩

/-- After a run of writes what leaves memories and merge entries alone. -/
theorem Writes.of_keeps {vs : List View} {ws : List ((Bank × Nat) × Out)} {rs : List (Bank × Nat)} {s t u : State} (h : Writes ws rs s t)
    (k : Keeps vs t u) (h1 : View.cs ∉ vs := by decide) (h2 : View.mbox ∉ vs := by decide) (h3 : View.words ∉ vs := by decide)
    (h4 : View.merges ∉ vs := by decide) : Writes ws rs s u := by
  have := h.append (vs := []) (k.writes h1 h2 h3 h4)
  rwa [List.append_nil] at this

theorem Writes.foldl_reads {α : Type} {rs : List (Bank × Nat)} {s : State} {l : List α} {f : State → α → State}
    (hf : ∀ u, ∀ a ∈ l, Writes [] rs u (f u a)) : Writes [] rs s (l.foldl f s) := by
  induction l generalizing s with
  | nil => exact Writes.refl _ _
  | cons a r ih =>
    have := (hf s a (by simp)).after_reads (ih (s := f s a) (fun u b hb => hf u b (by simp [hb])))
    exact this.mono (by simp)

/-- A word that a run writes whole, and that does not wait, is what the run gives it last. -/
theorem foldl_takeIn_whole (b : Bank) (os : List Out) (w : MemWord) (h : ∀ o ∈ os, o.part = false) :
    os.foldl (takeIn b) (w, none) = (((os.getLast?).map (·.w)).getD w, none) := by
  induction os generalizing w with
  | nil => rfl
  | cons o r ih =>
    have ho : takeIn b (w, none) o = (o.w, none) := by
      have := h o (by simp)
      cases b <;> simp [takeIn, this]
    rw [List.foldl_cons, ho, ih _ (fun x hx => h x (by simp [hx]))]
    cases r <;> simp [List.getLast?_cons]

/-- In a mailbox every write is written out. -/
theorem foldl_takeIn_mbox (os : List Out) (h : MemWord × Option (MemWord × BitVec 32)) :
    os.foldl (takeIn .mbox) h = (((os.getLast?).map (·.w)).getD h.1, h.2) := by
  induction os generalizing h with
  | nil => rfl
  | cons o r ih =>
    rw [List.foldl_cons, ih]
    cases r <;> simp [takeIn, List.getLast?_cons]

/-- A space of a core, where every write of a run lands at once. -/
def Space.near (sp : Space) : Prop := match sp with | .hbm => False | _ => True

theorem find_del_at (b : Bank) (m : Sparse MergeEntry) (i k : Nat) : (find (del m i) k).map (fun e => (e.word, e.mask))
    = if (b, k) = (b, i) then none else (find m k).map (fun e => (e.word, e.mask)) := by
  by_cases h : k = i
  · rw [if_pos (by rw [h]), h, find_del]
    rfl
  · rw [if_neg (fun e => h (congrArg Prod.snd e)), find_del_ne _ h]

theorem find_set_at (b : Bank) (m : Sparse MergeEntry) (i k : Nat) (v : MergeEntry) : (find (set m i v) k).map (fun e => (e.word, e.mask))
    = if (b, k) = (b, i) then some (v.word, v.mask) else (find m k).map (fun e => (e.word, e.mask)) := by
  by_cases h : k = i
  · rw [if_pos (by rw [h]), h, find_set]
    rfl
  · rw [if_neg (fun e => h (congrArg Prod.snd e)), find_set_ne _ _ h]

theorem takeIn_none {b : Bank} {h : MemWord × Option (MemWord × BitVec 32)} (o : Out) (hb : b ≠ .mbox) (hh : h.2 = none) :
    takeIn b h o = if o.part then (h.1, some (o.w, o.mask)) else (o.w, none) := by
  unfold takeIn
  rw [hh]
  cases b <;> first | rfl | exact absurd rfl hb

theorem takeIn_some {b : Bank} {h : MemWord × Option (MemWord × BitVec 32)} {e : MemWord × BitVec 32} (o : Out) (hb : b ≠ .mbox) (hh : h.2 = some e) :
    takeIn b h o = if (mergeIn e o).2 = allBytes then ((mergeIn e o).1, none) else (h.1, some (mergeIn e o)) := by
  unfold takeIn
  rw [hh]
  cases b <;> first | rfl | exact absurd rfl hb

theorem waitsAt_setMerges_del (s : State) (sp : Space) (a : Nat) (p : Bank × Nat) (hm : ∀ c, sp ≠ .mbox c) :
    waitsAt (s.setMerges sp (del (mergesOf s sp) (mergeKey sp a))) p = if p = place sp a then none else waitsAt s p := by
  obtain ⟨b, k⟩ := p
  cases sp with
  | mbox c => exact absurd rfl (hm c)
  | _ =>
    cases b <;> simp only [waitsAt, State.setMerges, mergesOf, mergeKey, place] <;> try rfl
    exact find_del_at _ _ _ _

theorem waitsAt_setMerges_set (s : State) (sp : Space) (a : Nat) (e : MergeEntry) (p : Bank × Nat) (hm : ∀ c, sp ≠ .mbox c) :
    waitsAt (s.setMerges sp (set (mergesOf s sp) (mergeKey sp a) e)) p = if p = place sp a then some (e.word, e.mask) else waitsAt s p := by
  obtain ⟨b, k⟩ := p
  cases sp with
  | mbox c => exact absurd rfl (hm c)
  | _ =>
    cases b <;> simp only [waitsAt, State.setMerges, mergesOf, mergeKey, place] <;> try rfl
    exact find_set_at _ _ _ _ _

theorem rawAt_setMerges (s : State) (sp : Space) (m : Sparse MergeEntry) (p : Bank × Nat) : rawAt (s.setMerges sp m) p = rawAt s p := by
  cases sp <;> rfl

/-- A whole word written in a core's space. -/
theorem heldAt_writeWhole (s : State) (t : Option Nat) {sp : Space} (hn : sp.near) (a : Nat) (w : MemWord) (p : Bank × Nat) :
    heldAt (s.writeWhole t sp a w) p = (if p = place sp a then w else rawAt s p, waitsAt s p) := by
  have hk : Keeps [.tens, .counters, .fabric, .mgmt, .power] (s.writeWord sp a w) (s.writeWhole t sp a w) := by
    cases sp with
    | cs c => exact State.chargeCore_keeps (Keeps.refl _ _) (by decide)
    | mbox c => exact State.stage_keeps (Keeps.refl _ _) (by decide)
    | hbm => exact hn.elim
  rw [hk.held p]
  have hw : waitsAt (s.writeWord sp a w) p = waitsAt s p := by cases sp <;> rfl
  simp only [heldAt, rawAt_writeWord, hw]

/-- A write of a run taken in at its place. -/
theorem heldAt_writeOut (s : State) (t : Option Nat) {sp : Space} (hn : sp.near) (o : Out) (p : Bank × Nat) :
    heldAt (s.writeOut t sp o) p = if p = place sp o.a then takeIn p.1 (heldAt s p) o else heldAt s p := by
  cases sp with
  | hbm => exact hn.elim
  | mbox c =>
    simp only [State.writeOut]
    rw [heldAt_writeWhole _ _ hn]
    split
    · subst_vars
      rfl
    · rfl
  | cs c =>
    have hm : ∀ d, Space.cs c ≠ .mbox d := fun _ => nofun
    have hw : ∀ e, find (mergesOf s (.cs c)) (mergeKey (.cs c) o.a) = e →
        waitsAt s (place (.cs c) o.a) = e.map (fun e => (e.word, e.mask)) := fun e he => by rw [← he]; rfl
    unfold State.writeOut
    dsimp only
    cases he : find (mergesOf s (.cs c)) (mergeKey (.cs c) o.a) with
    | none =>
      have hw := hw _ he
      dsimp only
      split
      · rename_i hp
        have : heldAt (s.setMerges (.cs c) (set (mergesOf s (.cs c)) (mergeKey (.cs c) o.a) { word := o.w, mask := o.mask })) p
            = (rawAt s p, if p = place (.cs c) o.a then some (o.w, o.mask) else waitsAt s p) := by
          simp only [heldAt, rawAt_setMerges, waitsAt_setMerges_set _ _ _ _ _ hm]
        rw [this]
        split
        · subst_vars
          rw [takeIn_none _ (by simp [place]) hw, if_pos hp]
          rfl
        · rfl
      · rename_i hp
        rw [heldAt_writeWhole _ _ hn]
        split
        · subst_vars
          rw [takeIn_none _ (by simp [place]) hw, if_neg hp, hw]
          rfl
        · rfl
    | some e =>
      have hw := hw _ he
      dsimp only
      split
      · rename_i hp
        rw [heldAt_writeWhole _ _ hn, waitsAt_setMerges_del _ _ _ _ hm, rawAt_setMerges]
        split
        · subst_vars
          have : (mergeIn (e.word, e.mask) o).2 = allBytes := hp
          rw [takeIn_some _ (by simp [place]) hw, if_pos this]
          rfl
        · rfl
      · rename_i hp
        have : heldAt (s.setMerges (.cs c) (set (mergesOf s (.cs c)) (mergeKey (.cs c) o.a) (e.add o))) p
            = (rawAt s p, if p = place (.cs c) o.a then some (mergeIn (e.word, e.mask) o) else waitsAt s p) := by
          simp only [heldAt, rawAt_setMerges, waitsAt_setMerges_set _ _ _ _ _ hm]
          rfl
        rw [this]
        split
        · subst_vars
          have : (mergeIn (e.word, e.mask) o).2 ≠ allBytes := hp
          rw [takeIn_some _ (by simp [place]) hw, if_neg this]
          rfl
        · rfl

theorem heldAt_writeOuts (s : State) (t : Option Nat) {sp : Space} (hn : sp.near) (outs : List Out) (p : Bank × Nat) :
    heldAt (outs.foldl (fun (s : State) o => s.writeOut t sp o) s) p
      = (((inSpace sp outs).filter (fun x => x.1 = p)).map (·.2)).foldl (takeIn p.1) (heldAt s p) := by
  induction outs generalizing s with
  | nil => rfl
  | cons o r ih =>
    rw [List.foldl_cons, ih, heldAt_writeOut _ _ hn]
    simp only [inSpace, List.map_cons, List.filter_cons, decide_eq_true_eq]
    by_cases h : p = place sp o.a
    · rw [if_pos h, if_pos h.symm]
      rfl
    · rw [if_neg h, if_neg (Ne.symm h)]

theorem writeHallT_keeps_near {s : State} {t : Option Nat} {sp : Space} (hn : sp.near) (b : Nat) (h : BitVec 64)
    (ds : Option (List (BitVec 256))) : Keeps [.hall, .tens, .counters] s (s.writeHallT t sp b h ds) := by
  have h1 : Keeps [.hall] s (s.writeHall sp (128 * b) h) := by
    cases sp with
    | hbm => exact hn.elim
    | _ =>
      unfold State.writeHall
      refine Keeps.upd (Keeps.refl _ _) rfl rfl (Or.inr ?_) (Or.inl rfl) (Or.inl rfl) (Or.inl rfl) (Or.inl rfl) (Or.inl rfl) (Or.inl rfl)
        (Or.inl rfl) (Or.inl rfl) (Or.inl rfl) (Or.inl rfl) (Or.inl rfl) (Or.inl rfl)
      simp +contextual [CoresOk, Cores.wf]
  unfold State.writeHallT
  cases t with
  | none => exact h1.mono (by decide)
  | some t =>
    cases sp with
    | hbm => exact hn.elim
    | _ => exact State.foldTwin_keeps (h1.mono (by decide)) (by decide)

/-- Words written to a core's space are taken in, each at its place. -/
theorem heldAt_emitWith (s : State) {sp : Space} (hn : sp.near) (outs : List Out) (hall : BitVec 64 → Nat → BitVec 64) (p : Bank × Nat) :
    heldAt (s.emitWith sp outs hall) p = (((inSpace sp outs).filter (fun x => x.1 = p)).map (·.2)).foldl (takeIn p.1) (heldAt s p) := by
  cases outs with
  | nil => rfl
  | cons o r =>
    unfold State.emitWith
    dsimp only
    rw [← heldAt_writeOuts s (ownerOf s sp o.a) hn (o :: r) p]
    exact Keeps.held (vs := [.hall, .tens, .counters]) (Keeps.foldl (Keeps.refl _ _) (fun u b k => k.trans (writeHallT_keeps_near hn b _ _))) p

theorem writes_emitWith (s : State) {sp : Space} (hn : sp.near) (outs : List Out) (hall : BitVec 64 → Nat → BitVec 64) :
    Writes (inSpace sp outs) [] s (s.emitWith sp outs hall) := fun p => ⟨rawAt s p, Or.inl rfl, heldAt_emitWith s hn outs hall p⟩

theorem writes_emit (s : State) {sp : Space} (hn : sp.near) (fmt gen : Nat) (outs : List Out) :
    Writes (inSpace sp outs) [] s (s.emit sp fmt gen outs) := writes_emitWith s hn outs _

theorem inSpace_append (sp : Space) (xs ys : List Out) : inSpace sp (xs ++ ys) = inSpace sp xs ++ inSpace sp ys := List.map_append ..

theorem find_map_snd {α β : Type} (f : Nat × α → β) (m : Sparse α) (k : Nat) : find (m.map (fun x => (x.1, f x))) k = (find m k).map (fun v => f (k, v)) := by
  induction m with
  | nil => rfl
  | cons e r ih =>
    obtain ⟨a, w⟩ := e
    simp only [List.map_cons, find]
    split
    · subst_vars
      rfl
    · exact ih

/-- What waits still waits when an operation holds it to its end. -/
theorem heldAt_holdTill (s : State) (c : Core) (n : Nat) (p : Bank × Nat) : heldAt (s.holdTill c n) p = heldAt s p := by
  have key : ∀ (m : Sparse MergeEntry) (k : Nat), (find (m.map (fun (x : Nat × MergeEntry) =>
      if x.2.closes.isNone then (x.1, { x.2 with core := c, closes := some n }) else x)) k).map (fun e : MergeEntry => (e.word, e.mask))
      = (find m k).map (fun e => (e.word, e.mask)) := by
    intro m k
    have : (fun (x : Nat × MergeEntry) => if x.2.closes.isNone then (x.1, { x.2 with core := c, closes := some n }) else x)
        = fun x => (x.1, (fun (x : Nat × MergeEntry) => if x.2.closes.isNone then { x.2 with core := c, closes := some n } else x.2) x) := by
      funext x
      dsimp only
      split <;> rfl
    rw [this, find_map_snd]
    cases find m k with
    | none => rfl
    | some e =>
      simp only [Option.map_some]
      split <;> rfl
  obtain ⟨b, k⟩ := p
  cases b
  · exact Prod.ext rfl (key _ _)
  · rfl
  · exact Prod.ext rfl (key _ _)

/-- A word outside the written ones that a run of operations touches reads the last word written before. -/
theorem Touches.rawAt_eq {rs : List (Bank × Nat)} {s t : State} (h : Touches [] rs s t) {p : Bank × Nat} (hp : p ∉ rs) : rawAt t p = rawAt s p := by
  rcases h p (by simp) with e | ⟨e, -⟩
  · exact e
  · exact absurd e hp

end Sys2Proof.Machine
end

