-- ==== Sys2Proof/Laws/Slots.lean ====
section
/-! SUPPORT. An operation issued in a slot whose checks pass, and what its reads and writes of a core's words leave. -/

namespace Sys2Proof.Machine

open Sys2Proof

set_option Elab.async false

/-- A run of checks that passes: each passes. -/
theorem bind_ok {α β : Type} {x : Res α} {f : α → Res β} {b : β} (h : x >>= f = .ok b) : ∃ a, x = .ok a ∧ f a = .ok b := by
  cases x with
  | ok a => exact ⟨a, rfl, h⟩
  | error e => cases h

theorem need_ok {b : Bool} {k d : Nat} {u : Unit} (h : need b k d = .ok u) : b = true := by
  unfold need at h
  split at h
  · assumption
  · cases h

theorem mapM_ok {α β : Type} {f : α → Res β} {l : List α} {ys : List β} (h : l.mapM f = .ok ys) : ∀ a ∈ l, ∃ b, f a = .ok b := by
  induction l generalizing ys with
  | nil => simp
  | cons a r ih =>
    rw [List.mapM_cons] at h
    obtain ⟨b, hb, h⟩ := bind_ok h
    obtain ⟨bs, hbs, h⟩ := bind_ok h
    intro x hx
    rcases List.mem_cons.mp hx with rfl | hx
    · exact ⟨b, hb⟩
    · exact ih hbs x hx

theorem csRange_ok {s : State} {c : Core} {a : Int} {n k : Nat} (h : csRange s c a n = .ok k) : 0 ≤ a ∧ k = a.toNat ∧ a.toNat + n ≤ csWords := by
  unfold csRange at h
  obtain ⟨u, hu, h⟩ := bind_ok h
  have := need_ok hu
  simp only [Bool.and_eq_true, decide_eq_true_eq] at this
  cases h
  exact ⟨this.1.1, rfl, this.1.2⟩

theorem mem_words (t : Strm) (es : List Int) : ∀ e ∈ es, t.word e ∈ t.words es := by
  have key : ∀ (es : List Int) (l : List Int), (∀ x ∈ l, x ∈ es.foldl (fun l e => match l with
      | [] => [t.word e] | a :: _ => if a = t.word e then l else t.word e :: l) l) ∧
      ∀ e ∈ es, t.word e ∈ es.foldl (fun l e => match l with | [] => [t.word e] | a :: _ => if a = t.word e then l else t.word e :: l) l := by
    intro es
    induction es with
    | nil => intro l; simp
    | cons e r ih =>
      intro l
      simp only [List.foldl_cons]
      generalize hl : (match l with | [] => [t.word e] | a :: _ => if a = t.word e then l else t.word e :: l) = l'
      have h1 : (∀ x ∈ l, x ∈ l') ∧ t.word e ∈ l' := by
        subst hl
        cases l with
        | nil => simp
        | cons a q =>
          dsimp only
          split
          · rename_i h
            exact ⟨fun _ h => h, by simp [h]⟩
          · exact ⟨fun _ h => List.mem_cons_of_mem _ h, List.mem_cons_self⟩
      refine ⟨fun x hx => (ih l').1 x (h1.1 x hx), fun y hy => ?_⟩
      rcases List.mem_cons.mp hy with rfl | hy
      · exact (ih l').1 _ h1.2
      · exact (ih l').2 y hy
  intro e he
  unfold Strm.words
  rw [List.mem_reverse]
  exact (key es []).2 e he

/-- A stream made ready is the same stream with its scales read, and its words lie in the store. -/
theorem ready_ok {s : State} {c : Core} {t m : Strm} {es : List Int} {tag : Nat} {isIn : Bool} (h : t.ready s c es tag isIn = .ok m) :
    (∃ x, m = { t with scales := x }) ∧ (t.imm = none → ∀ e ∈ es, 0 ≤ t.word e ∧ (t.word e).toNat < csWords) := by
  unfold Strm.ready at h
  split at h
  · rename_i hi
    cases h
    refine ⟨⟨t.scales, rfl⟩, fun hn => ?_⟩
    rw [hn] at hi
    cases hi
  · obtain ⟨ws, hw, h⟩ := bind_ok h
    obtain ⟨ss, hs, h⟩ := bind_ok h
    refine ⟨?_, fun _ e he => ?_⟩
    · cases hS : isShingled t.fmt <;> cases isIn <;> simp only [hS, Bool.not_true, Bool.not_false, if_true, Bool.false_eq_true, if_false] at h
      · cases h
        exact ⟨t.scales, rfl⟩
      · obtain ⟨_, -, h⟩ := bind_ok h
        obtain ⟨_, -, h⟩ := bind_ok h
        cases h
        exact ⟨t.scales, rfl⟩
      · obtain ⟨sc, -, h⟩ := bind_ok h
        cases h
        exact ⟨sc, rfl⟩
      · obtain ⟨_, -, h⟩ := bind_ok h
        obtain ⟨_, -, h⟩ := bind_ok h
        obtain ⟨sc, -, h⟩ := bind_ok h
        cases h
        exact ⟨sc, rfl⟩
    · obtain ⟨k, hk⟩ := mapM_ok hw _ (mem_words t es e he)
      have := csRange_ok hk
      exact ⟨this.1, by omega⟩

theorem slotOp_ok {c : Core} {slot : Nat} {f : State → State → Res State} {rd s t : State} (h : issues rd c = true) (hf : f rd s = .ok t) :
    slotOp c slot f rd s = t := by
  unfold slotOp
  rw [if_pos h, hf]

theorem claimPorts_keeps {s t : State} {c : Core} {rs : List PortRun} (h : s.claimPorts c rs = .ok t) : Keeps [.busy] s t :=
  (State.claimPorts_keeps (Keeps.refl _ _) (by decide)).getOk h

theorem claimSlots_keeps {s t : State} {c : Core} {ch : Nat} {rs : List (Nat × Nat)} (h : s.claimSlots c ch rs = .ok t) :
    Keeps [.service, .tens, .counters, .fabric, .mgmt, .power] s t :=
  KeepsR.getOk h (State.claimSlots_keeps (Keeps.refl _ _) (by decide))

/-- Merge entries held to an operation's end: nothing else changes, nor what waits. -/
theorem holdMerges_ok {s rd t : State} {c : Core} {rs : List PortRun} (h : s.holdMerges rd c rs = .ok t) : t = s.holdTill c (opEnd (unitClock rd c) rs) := by
  unfold State.holdMerges at h
  obtain ⟨_, -, h⟩ := bind_ok h
  cases h
  rfl

/-- With no more entries open than a merge buffer has, they are held to the operation's end. -/
theorem holdMerges_fit {s : State} (h : s.mergesFit) (rd : State) (c : Core) (rs : List PortRun) :
    s.holdMerges rd c rs = .ok (s.holdTill c (opEnd (unitClock rd c) rs)) := by
  have hf : ∀ (m : Sparse MergeEntry) (k n : Nat),
      (∀ x ∈ m, (m.filter (fun (y : Nat × MergeEntry) => y.1 / k = x.1 / k)).length ≤ n) →
      m.any (fun x => decide (n < (m.filter (fun (y : Nat × MergeEntry) => y.1 / k = x.1 / k)).length)) = false := by
    intro m k n hm
    rw [List.any_eq_false]
    intro x hx
    simpa using hm x hx
  unfold State.holdMerges
  dsimp only
  rw [hf _ _ _ h.1, hf _ _ _ h.2]
  rfl

theorem holdTill_keeps (s : State) (c : Core) (n : Nat) : Keeps [.merges] s (s.holdTill c n) := State.holdTill_keeps (Keeps.refl _ _) (by decide)

/-- Writes, held to their operation's end. -/
theorem Writes.hold {ws : List ((Bank × Nat) × Out)} {rs : List (Bank × Nat)} {s t : State} (h : Writes ws rs s t) (c : Core) (n : Nat) :
    Writes ws rs s (t.holdTill c n) := by
  have := h.append (vs := []) (Writes.of_held (heldAt_holdTill t c n))
  rwa [List.append_nil] at this

/-- The places of a core store's words. -/
theorem place_cs (c : Core) (a : Nat) : place (.cs c) a = (Bank.cs, csKey c a) := rfl

theorem near_cs (c : Core) : (Space.cs c).near := trivial
theorem near_mbox (c : Core) : (Space.mbox c).near := trivial

/-- A consumer's reads of a core's words settle no other word. -/
theorem touches_consume_cs (s rd : State) (c d : Core) (unit : Nat) (as : List Nat) :
    Touches [] (as.map (place (.cs d))) s (s.consume rd c unit (.cs d) as) :=
  (touches_consume s rd c unit (.cs d) as).mono (by simp) (by simp [hallReads])

/-- A consumer's reads of a core's words write nothing. -/
theorem writes_consume_cs (s rd : State) (c d : Core) (unit : Nat) (as : List Nat) :
    Writes [] (as.map (place (.cs d))) s (s.consume rd c unit (.cs d) as) :=
  (touches_consume_cs s rd c d unit as).writes (fun p => Keeps.waits (vs := [.cs, .mbox, .words, .service, .tens, .counters, .fabric, .mgmt, .power])
    (State.consume_keeps (Keeps.refl _ _) (by decide)) p)

theorem Touches.of_keeps {vs : List View} {ws rs : List (Bank × Nat)} {s t u : State} (h : Touches ws rs s t) (k : Keeps vs t u)
    (h1 : View.cs ∉ vs := by decide) (h2 : View.mbox ∉ vs := by decide) (h3 : View.words ∉ vs := by decide) : Touches ws rs s u :=
  h.trans (k.touches h1 h2 h3)

/-- A word that later steps do not touch. -/
theorem Touches.keepsWord {ws rs : List (Bank × Nat)} {s t : State} (h : Touches ws rs s t) {p : Bank × Nat} (h1 : p ∉ ws) (h2 : p ∉ rs) :
    rawAt t p = rawAt s p := by
  rcases h p h1 with e | ⟨e, -⟩
  · exact e
  · exact absurd e h2

end Sys2Proof.Machine
end

