-- ==== Sys2Proof/Laws/Purse.lean ====
section
/-! SUPPORT. What the purse instructions leave in the purse and the core store. -/

namespace Sys2Proof.Machine

open Sys2Proof

set_option Elab.async false

theorem purseAt_setPurse (s : State) (c d : Core) (i k : Nat) (e : PurseEntry) (hi : i < 4096) (hk : k < 4096) :
    purseAt (s.setPurse c i e) d k = if d = c ∧ k = i then e else purseAt s d k := by
  unfold purseAt State.setPurse
  dsimp only
  rw [look_put_eq]
  by_cases h : d = c ∧ k = i
  · obtain ⟨rfl, rfl⟩ := h
    simp
  · rw [if_neg h, if_neg]
    intro e
    apply h
    have : d.val = c.val := by omega
    exact ⟨Fin.ext this, by omega⟩

/-- Entries written one after another from `first`, each from what the entry held. -/
theorem purseAt_fold (f : State → Nat → PurseEntry) (g : Nat → PurseEntry → PurseEntry) (c : Core) (first n : Nat) (s : State)
    (hf : ∀ u i, f u i = g i (purseAt u c (first + i))) (hn : first + n ≤ 4096) : ∀ (d : Core) (k : Nat), k < 4096 →
    purseAt ((upTo n).foldl (fun (s : State) i => s.setPurse c (first + i) (f s i)) s) d k =
      if d = c ∧ first ≤ k ∧ k < first + n then g (k - first) (purseAt s d k) else purseAt s d k := by
  induction n with
  | zero =>
    intro d k hk
    rw [if_neg (by omega)]
    rfl
  | succ m ih =>
    intro d k hk
    have ih' := ih (by omega)
    unfold upTo at *
    rw [List.range_succ, List.foldl_append]
    simp only [List.foldl_cons, List.foldl_nil]
    have e1 := ih' c (first + m) (by omega)
    rw [if_neg (by omega)] at e1
    rw [purseAt_setPurse _ _ _ _ _ _ (by omega) hk, hf, e1, ih' d k hk]
    by_cases h : d = c ∧ k = first + m
    · obtain ⟨rfl, rfl⟩ := h
      rw [if_pos ⟨rfl, rfl⟩, if_pos ⟨rfl, by omega, by omega⟩, Nat.add_sub_cancel_left]
    · rw [if_neg h]
      by_cases h2 : d = c ∧ first ≤ k ∧ k < first + m
      · rw [if_pos h2, if_pos ⟨h2.1, h2.2.1, by omega⟩]
      · rw [if_neg h2, if_neg]
        rintro ⟨h3, h4, h5⟩
        exact h2 ⟨h3, h4, by
          by_contra hc
          exact h ⟨h3, by omega⟩⟩

theorem purseAt_clearValid (s : State) (c : Core) (first n : Nat) (hn : first + n ≤ 4096) (d : Core) (k : Nat) (hk : k < 4096) :
    purseAt (s.clearValid c first n) d k =
      if d = c ∧ first ≤ k ∧ k < first + n then { purseAt s d k with valid := false } else purseAt s d k :=
  purseAt_fold (fun s i => { (purseAt s c (first + i)) with valid := false }) (fun _ e => { e with valid := false }) c first n s
    (fun _ _ => rfl) hn d k hk

/-- Reading entries never changes which are valid. -/
theorem notePurse_valid (s : State) (c : Core) (base n : Nat) (hn : base + n ≤ 4096) (d : Core) (k : Nat) (hk : k < 4096) :
    (purseAt (s.notePurse c base n) d k).valid = (purseAt s d k).valid := by
  unfold State.notePurse
  have key : ∀ (l : List Nat) (u : State), (∀ i ∈ l, base + i < 4096) → (purseAt (l.foldl (fun (s : State) k =>
      let e := purseAt s c (base + k)
      match e.err with
      | .one _ => (s.setPurse c (base + k) { e with err := .clean }).countCore c 0x128 1
      | .bad => s.addFigure 2 163 1
      | .clean => s) u) d k).valid = (purseAt u d k).valid := by
    intro l
    induction l with
    | nil => intro u _; rfl
    | cons i r ih =>
      intro u hl
      rw [List.foldl_cons, ih _ (fun j hj => hl j (by simp [hj]))]
      dsimp only
      split
      · show (purseAt (u.setPurse c (base + i) _) d k).valid = _
        rw [purseAt_setPurse _ _ _ _ _ _ (hl i (by simp)) hk]
        split
        · rename_i h
          obtain ⟨rfl, rfl⟩ := h
          rfl
        · rfl
      · rfl
      · rfl
  exact key _ _ (fun i hi => by have := List.mem_range.mp hi; omega)

theorem purse_of_keeps {vs : List View} {s t : State} (k : Keeps vs s t) (h : View.purse ∉ vs := by decide) (d : Core) (i : Nat) :
    purseAt t d i = purseAt s d i := by
  unfold purseAt
  rw [k.eq_purse h]

theorem pspillRun_valid (c : Core) (g n : BitVec 6) (release : Bool) (p : SpillPlan) (rd s : State) (h : g.toNat + zeroIs 64 n ≤ 64)
    (d : Core) (k : Nat) (hk : k < 4096) : (purseAt (pspillRun c g n release p rd s) d k).valid =
      ((purseAt s d k).valid && !(release && decide (d = c) && decide (64 * g.toNat ≤ k) && decide (k < 64 * (g.toNat + zeroIs 64 n)))) := by
  unfold pspillRun
  dsimp -proj only
  have hn : 64 * g.toNat + 64 * zeroIs 64 n ≤ 4096 := by omega
  rw [purse_of_keeps (State.takeRow_keeps (vs := [.busy]) (Keeps.refl _ _) (by decide)) (by decide)]
  have h3 : ∀ u : State, (purseAt (if p.es.any (fun e => e.err = .bad) then u.draw.2.poisonConsumed c 6 (u.draw.1 % 8) (64 * g.toNat) else u) d k)
      = purseAt u d k := by
    intro u
    split
    · exact purse_of_keeps (State.poisonConsumed_keeps (vs := [.tens, .counters, .fabric, .mgmt, .power, .fresh])
        (State.draw_keeps (Keeps.refl _ _) (by decide)) (by decide)) (by decide) d k
    · rfl
  have h2 : (purseAt (((s.emit (.cs c) 0 (bitsN p.d 437 422) p.outs).notePurse c (64 * g.toNat) (64 * zeroIs 64 n)).countCore c 0x130 (zeroIs 64 n)) d k).valid
      = (purseAt s d k).valid := by
    show (purseAt ((s.emit (.cs c) 0 (bitsN p.d 437 422) p.outs).notePurse c (64 * g.toNat) (64 * zeroIs 64 n)) d k).valid = _
    rw [notePurse_valid _ _ _ _ hn d k hk]
    rw [purse_of_keeps (State.emit_keeps (vs := [.cs, .mbox, .hall, .merges, .words, .tens, .counters, .fabric, .mgmt, .power]) (Keeps.refl _ _) (by decide))
      (by decide)]
  cases release
  · simp only [Bool.false_eq_true, if_false, Bool.false_and, Bool.not_false, Bool.and_true]
    rw [h3, h2]
  · simp only [if_true, Bool.true_and]
    rw [purseAt_clearValid _ _ _ _ hn d k hk]
    by_cases hc : d = c ∧ 64 * g.toNat ≤ k ∧ k < 64 * g.toNat + 64 * zeroIs 64 n
    · rw [if_pos hc]
      have : k < 64 * (g.toNat + zeroIs 64 n) := by omega
      simp [hc.1, hc.2.1, this]
    · rw [if_neg hc, h3, h2]
      have : ¬ (d = c ∧ 64 * g.toNat ≤ k ∧ k < 64 * (g.toNat + zeroIs 64 n)) := fun h => hc ⟨h.1, h.2.1, by omega⟩
      by_cases h4 : d = c <;> by_cases h5 : 64 * g.toNat ≤ k <;> by_cases h6 : k < 64 * (g.toNat + zeroIs 64 n) <;> simp_all

/-- After its writes nothing that a spill does touches a word. -/
theorem pspillRun_after (c : Core) (g n : BitVec 6) (release : Bool) (p : SpillPlan) (rd s : State) :
    Keeps [.purse, .busy, .tens, .counters, .fabric, .mgmt, .power, .fresh] (s.emit (.cs c) 0 (bitsN p.d 437 422) p.outs)
      (pspillRun c g n release p rd s) := by
  unfold pspillRun
  dsimp -proj only
  refine State.takeRow_keeps ?_ (by decide)
  have h2 : Keeps [.purse, .busy, .tens, .counters, .fabric, .mgmt, .power, .fresh] (s.emit (.cs c) 0 (bitsN p.d 437 422) p.outs)
      (((s.emit (.cs c) 0 (bitsN p.d 437 422) p.outs).notePurse c (64 * g.toNat) (64 * zeroIs 64 n)).countCore c 0x130 (zeroIs 64 n)) :=
    State.countCore_keeps (State.notePurse_keeps (Keeps.refl _ _) (by decide)) (by decide)
  split
  · exact State.clearValid_keeps (Keeps.ite (State.poisonConsumed_keeps (State.draw_keeps h2 (by decide)) (by decide)) h2) (by decide)
  · exact Keeps.ite (State.poisonConsumed_keeps (State.draw_keeps h2 (by decide)) (by decide)) h2

/-- The words a spill writes. -/
theorem pspillRun_writes (c : Core) (g n : BitVec 6) (release : Bool) (p : SpillPlan) (rd s : State) :
    Writes (inSpace (.cs c) p.outs) [] s (pspillRun c g n release p rd s) :=
  (writes_emit s (near_cs c) _ _ _).of_keeps (pspillRun_after c g n release p rd s)

theorem pfillRun_purse (c : Core) (g n : BitVec 6) (p : BitVec 512 × Nat) (rd s : State) (h : g.toNat + zeroIs 64 n ≤ 64)
    (d : Core) (k : Nat) (hk : k < 4096) : purseAt (pfillRun c g n p rd s) d k =
      if d = c ∧ 64 * g.toNat ≤ k ∧ k < 64 * (g.toNat + zeroIs 64 n) then fillEntry c p rd (k - 64 * g.toNat) else purseAt s d k := by
  unfold pfillRun
  dsimp -proj only
  rw [purse_of_keeps (State.takeRow_keeps (vs := [.busy, .cs, .mbox, .words, .service, .tens, .counters, .fabric, .mgmt, .power])
    (State.countCore_keeps (State.consume_keeps (Keeps.refl _ _) (by decide)) (by decide)) (by decide)) (by decide)]
  rw [purseAt_fold (fun _ i => fillEntry c p rd i) (fun i _ => fillEntry c p rd i) c (64 * g.toNat) (64 * zeroIs 64 n) s (fun _ _ => rfl) (by omega) d k hk]
  have : 64 * (g.toNat + zeroIs 64 n) = 64 * g.toNat + 64 * zeroIs 64 n := by omega
  rw [this]

/-- A fill writes no word. -/
theorem pfillRun_writes (c : Core) (g n : BitVec 6) (p : BitVec 512 × Nat) (rd s : State) :
    Writes [] (((upTo (8 * zeroIs 64 n)).map (p.2 + ·)).map (place (.cs c))) s (pfillRun c g n p rd s) := by
  unfold pfillRun
  dsimp -proj only
  have h1 : Keeps [.purse] s ((upTo (64 * zeroIs 64 n)).foldl (fun (s : State) i => s.setPurse c (64 * g.toNat + i) (fillEntry c p rd i)) s) :=
    Keeps.foldl (Keeps.refl _ _) (fun u i k => State.setPurse_keeps k (by decide))
  exact ((Writes.after_reads (rs := []) h1.writes (writes_consume_cs _ rd c c 6 _)).mono (by simp)).of_keeps
    (State.takeRow_keeps (vs := [.busy, .counters]) (State.countCore_keeps (Keeps.refl _ _) (by decide)) (by decide))

end Sys2Proof.Machine
end

