-- ==== Sys2Proof/Laws/Row.lean ====
section
/-! SUPPORT. The words a row instruction reads and writes. -/

namespace Sys2Proof.Machine

open Sys2Proof

set_option Elab.async false

/-- A unit's stream read: its scales noted, its words consumed. -/
theorem writes_readStrm {rs : List (Bank × Nat)} (s rd : State) (c : Core) (unit : Nat) (m : Strm) (as : List Nat)
    (h : as.map (place (.cs c)) ⊆ rs) :
    Writes [] rs s (if m.imm.isSome then s else (s.noteStrm c unit m).consume rd c unit (.cs c) as) := by
  split
  · exact Writes.refl _ _
  · exact (Writes.after_reads (rs := []) ((State.noteStrm_keeps (vs := [.stores, .tens, .counters, .fabric, .mgmt, .power, .fresh])
      (Keeps.refl _ _) (by decide)).writes) (writes_consume_cs _ rd c c unit as)).mono (by simpa using h)

/-- More words read: the keys or the raw words of a row operation. -/
theorem writes_readMore {rs : List (Bank × Nat)} {s t : State} (h : Writes [] rs s t) (rd : State) (c : Core) (as : List Nat)
    (hr : as.map (place (.cs c)) ⊆ rs) : Writes [] rs s (if as = [] then t else t.consume rd c 6 (.cs c) as) := by
  split
  · exact h
  · exact (h.after_reads (writes_consume_cs t rd c c 6 as)).mono (List.append_subset.mpr ⟨fun _ h => h, hr⟩)

theorem rowReads_writes (c : Core) (a : RowArgs) (rd : State) (ran : Nat) (s : State) (ins : List (Strm × Walk)) (raw : List Nat) :
    Writes [] ((ins.flatMap (rowWords a ran) ++ raw).map (place (.cs c))) s (rowReads c a rd ran s ins raw) := by
  unfold rowReads
  refine writes_readMore (Writes.foldl_reads (fun u q hq => writes_readStrm u rd c 6 q.1 _ ?_)) rd c raw
    (List.map_subset _ (List.subset_append_right _ _))
  exact List.map_subset _ (List.subset_append_of_subset_left _ (fun x hx => List.mem_flatMap.mpr ⟨q, hq, hx⟩))

/-- The words that one output stream of a row operation stores. -/
def rowStores (c : Core) (a : RowArgs) (rd : State) (rng : Int → Option Nat) (outs : List RowOut) (o : Option (Strm × Walk))
    (get : RowOut → List (Num × Bool)) : List Out :=
  match o with
  | none => []
  | some q => (rowWrote c a rd rng outs q get).els ++ (rowWrote c a rd rng outs q get).shs

theorem rowWrite_writes (c : Core) (a : RowArgs) (d : BitVec 512) (rd : State) (rng : Int → Option Nat) (outs : List RowOut) (s : State)
    (o : Option (Strm × Walk)) (get : RowOut → List (Num × Bool)) :
    Writes (inSpace (.cs c) (rowStores c a rd rng outs o get)) [] s (rowWrite c a d rd rng outs s o get) := by
  cases o with
  | none => exact Writes.refl _ _
  | some q =>
    unfold rowStores
    dsimp only
    rw [inSpace_append]
    exact ((writes_emit s (near_cs c) q.1.fmt (bitsN d 437 422) (rowWrote c a rd rng outs q get).els).append (writes_emit _ (near_cs c) _ _ _)).of_keeps
      (State.report_keeps (vs := [.stores, .tens, .counters, .fabric, .mgmt, .power, .fresh])
        (State.noteStrm_keeps (Keeps.refl _ _) (by decide)) (by decide))

/-- The raw words that a row operation stores. -/
def rawStores (c : Core) (a : RowArgs) (rd : State) (outs : List RowOut) (rawC : Option Nat) : List Out :=
  match rawC with | none => [] | some b => rowRawOuts c a rd outs b

theorem rowRaw_writes (c : Core) (a : RowArgs) (d : BitVec 512) (rd : State) (outs : List RowOut) (s : State) (rawC : Option Nat) :
    Writes (inSpace (.cs c) (rawStores c a rd outs rawC)) [] s (rowRaw c a d rd outs s rawC) := by
  cases rawC with
  | none => exact Writes.refl _ _
  | some b => exact writes_emit _ (near_cs c) _ _ _

theorem rowOuts_eq (c : Core) (a : RowArgs) (p : RowPlan) (rd : State) : p.outs c a rd =
    rowStores c a rd p.rng p.res.1 p.out (·.d) ++ rowStores c a rd (fun _ => none) p.res.1 p.outC (·.c) ++ rawStores c a rd p.res.1 p.rawC := by
  unfold RowPlan.outs rowStores rawStores
  cases p.out <;> cases p.outC <;> cases p.rawC <;> rfl

/-- The words of a row operation read, then written. -/
def rowWroteAll (c : Core) (a : RowArgs) (p : RowPlan) (rd s : State) : State :=
  rowRaw c a p.d rd p.res.1 (rowWrite c a p.d rd (fun _ => none) p.res.1 (rowWrite c a p.d rd p.rng p.res.1
    (rowReads c a rd p.res.1.length s p.ins p.rawWords) p.out (·.d)) p.outC (·.c)) p.rawC

/-- What follows the writes of a row operation: its purse entries, counts, the engine taken, what strikes it. -/
def rowAfter (c : Core) (a : RowArgs) (p : RowPlan) (rd u : State) : State :=
  let quant := (p.out.toList ++ p.outC.toList).any (fun q => isShingled q.1.fmt)
  let s6 := ((((u.countCore c 0x120 (p.res.1.foldl (fun t r => t + r.low) 0)).countCore c 0x118 p.nans).chargeCore c 8
    (p.h.sweeps * p.res.1.length * (32 * zeroIs 4096 a.w32)) 0x190).takeRow c (rowBusy c a p.d p.h rd)).quantUntil rd c 2 quant
    (rowBusy c a p.d p.h rd + rwLat rd)
  let s7 := s6.dupStrike c true 6 0x148 a.desc.toNat
  let s8 := if p.h.rom then s7.romStrike c true 6 else s7
  { s8 with fresh := s8.fresh + p.draws }

theorem rowRun_eq (c : Core) (a : RowArgs) (p : RowPlan) (rd s : State) : rowRun c a p rd s =
    rowAfter c a p rd (let s3 := if p.h.reads then rowPurseReads c rd (bitsN p.d 481 470) (p.h.per * p.res.1.length) (rowWroteAll c a p rd s)
        else rowWroteAll c a p rd s
      if p.h.writes then rowPurse c (bitsN p.d 481 470) p.h.per (bitsN p.d 469 454) p.res.1 s3 else s3) := rfl

theorem rowAfter_keeps (c : Core) (a : RowArgs) (p : RowPlan) (rd u : State) :
    Keeps [.busy, .tens, .counters, .fabric, .mgmt, .power, .upsets, .fresh] u (rowAfter c a p rd u) := by
  unfold rowAfter
  dsimp -proj only
  refine Keeps.trans (t := if p.h.rom then _ else _) (Keeps.ite ?_ ?_) (Keeps.upd (vs := [.fresh]) (Keeps.refl _ _) rfl rfl
    (Or.inl rfl) (Or.inl rfl) (Or.inl rfl) (Or.inl rfl) (Or.inl rfl) (Or.inl rfl) (Or.inl rfl) (Or.inl rfl) (Or.inl rfl) (Or.inl rfl)
    (Or.inl rfl) (Or.inl rfl) (Or.inr (by decide)) |>.mono (by decide))
  · exact State.romStrike_keeps (State.dupStrike_keeps (State.quantUntil_keeps (State.takeRow_keeps (State.chargeCore_keeps
      (State.countCore_keeps (State.countCore_keeps (Keeps.refl _ u) (by decide)) (by decide)) (by decide)) (by decide)) (by decide))
      (by decide)) (by decide)
  · exact State.dupStrike_keeps (State.quantUntil_keeps (State.takeRow_keeps (State.chargeCore_keeps
      (State.countCore_keeps (State.countCore_keeps (Keeps.refl _ u) (by decide)) (by decide)) (by decide)) (by decide)) (by decide))
      (by decide)

theorem rowAfter_busy (c : Core) (a : RowArgs) (p : RowPlan) (rd u : State) :
    look (rowAfter c a p rd u).cores.rwBusy 0 c.val = rowBusy c a p.d p.h rd := by
  unfold rowAfter
  dsimp -proj only
  have strike : ∀ u : State, (if p.h.rom then (u.dupStrike c true 6 0x148 a.desc.toNat).romStrike c true 6
      else u.dupStrike c true 6 0x148 a.desc.toNat).cores.rwBusy = u.cores.rwBusy := by
    intro u
    split
    · exact (State.romStrike_keeps (vs := [.tens, .counters, .fabric, .mgmt, .power, .upsets])
        (State.dupStrike_keeps (Keeps.refl _ _) (by decide)) (by decide)).eq_rwBusy
    · exact (State.dupStrike_keeps (vs := [.tens, .counters, .fabric, .mgmt, .power, .upsets]) (Keeps.refl _ _) (by decide)).eq_rwBusy
  rw [strike, State.quantUntil_rwBusy, State.takeRow_busy]

theorem rowRun_keeps_after (c : Core) (a : RowArgs) (p : RowPlan) (rd s : State) :
    Keeps [.purse, .busy, .tens, .counters, .fabric, .mgmt, .power, .upsets, .fresh] (rowWroteAll c a p rd s) (rowRun c a p rd s) := by
  rw [rowRun_eq]
  dsimp -proj only
  exact Keeps.trans (Keeps.ite (rowPurse_keeps (Keeps.ite (rowPurseReads_keeps (Keeps.refl _ _) (by decide)) (Keeps.refl _ _)) (by decide))
      (Keeps.ite (rowPurseReads_keeps (Keeps.refl _ _) (by decide)) (Keeps.refl _ _))) ((rowAfter_keeps c a p rd _).mono (by decide))

/-- An operation that neither reads nor writes the purse leaves it. -/
theorem rowRun_purse (c : Core) (a : RowArgs) (p : RowPlan) (rd s : State) (h1 : p.h.reads = false) (h2 : p.h.writes = false) :
    Keeps [.busy, .tens, .counters, .fabric, .mgmt, .power, .upsets, .fresh] (rowWroteAll c a p rd s) (rowRun c a p rd s) := by
  rw [rowRun_eq, h1, h2]
  exact rowAfter_keeps c a p rd _

/-- A row operation takes the engine until its end. -/
theorem rowRun_busy (c : Core) (a : RowArgs) (p : RowPlan) (rd s : State) :
    look (rowRun c a p rd s).cores.rwBusy 0 c.val = rowBusy c a p.d p.h rd := by
  rw [rowRun_eq]
  exact rowAfter_busy _ _ _ _ _

/-- The words a row operation writes, after those it reads. -/
theorem rowRun_writes (c : Core) (a : RowArgs) (p : RowPlan) (rd s : State) :
    Writes (inSpace (.cs c) (p.outs c a rd)) ((p.reads a).map (place (.cs c))) s (rowRun c a p rd s) := by
  have h := (rowReads_writes c a rd p.res.1.length s p.ins p.rawWords).after_reads (((rowWrite_writes c a p.d rd p.rng p.res.1 _ p.out (·.d)).append
    (rowWrite_writes c a p.d rd (fun _ => none) p.res.1 _ p.outC (·.c))).append (rowRaw_writes c a p.d rd p.res.1 _ p.rawC))
  rw [← inSpace_append, ← inSpace_append, ← rowOuts_eq, List.append_nil] at h
  exact h.of_keeps (rowRun_keeps_after c a p rd s)

/-! ### `RCSUM` -/

/-- The words of the sums of columns read, then written. -/
def csumRead (c : Core) (p : CsumPlan) (rd s : State) : State :=
  let s1 := p.ins.foldl (fun (s : State) (m : Strm) => if m.imm.isSome then s else (s.noteStrm c 6 m).consume rd c 6 (.cs c) (p.words m)) s
  if p.keys = [] then s1 else s1.consume rd c 6 (.cs c) p.keys

def csumWrote (c : Core) (p : CsumPlan) (rd s : State) : State :=
  p.runs.foldl (fun (s : State) (r : Nat × List Out) => s.emit (.cs c) r.1 (bitsN p.d 437 422) r.2) (csumRead c p rd s)

theorem csumRead_writes (c : Core) (p : CsumPlan) (rd s : State) : Writes [] (p.reads.map (place (.cs c))) s (csumRead c p rd s) := by
  unfold csumRead
  refine writes_readMore (Writes.foldl_reads (fun u m hm => writes_readStrm u rd c 6 m _ ?_)) rd c p.keys
    (List.map_subset _ (List.subset_append_right _ _))
  exact List.map_subset _ (List.subset_append_of_subset_left _ (fun x hx => List.mem_flatMap.mpr ⟨m, hm, hx⟩))

/-- Runs of words written one after another. -/
theorem writes_emitRuns (s : State) (c : Core) (gen : Nat) (runs : List (Nat × List Out)) : Writes (inSpace (.cs c) (runs.flatMap (·.2))) [] s
    (runs.foldl (fun (s : State) (r : Nat × List Out) => s.emit (.cs c) r.1 gen r.2) s) := by
  induction runs generalizing s with
  | nil => exact Writes.refl _ _
  | cons r q ih =>
    rw [List.flatMap_cons, inSpace_append]
    exact (writes_emit s (near_cs c) r.1 gen r.2).append (ih _)

theorem rcsumRun_keeps_after (c : Core) (a : RowArgs) (p : CsumPlan) (rd s : State) :
    Keeps [.busy, .stores, .tens, .counters, .fabric, .mgmt, .power, .upsets, .fresh] (csumWrote c p rd s) (rcsumRun c a p rd s) := by
  unfold rcsumRun
  dsimp -proj only
  refine State.dupStrike_keeps (State.quantUntil_keeps (State.takeRow_keeps (State.chargeCore_keeps (State.countCore_keeps (State.countCore_keeps ?_
    (by decide)) (by decide)) (by decide)) (by decide)) (by decide)) (by decide)
  split
  · exact State.report_keeps (State.noteStrm_keeps (Keeps.refl _ _) (by decide)) (by decide)
  · exact Keeps.refl _ _

/-- The words that `RCSUM` writes, after those it reads. -/
theorem rcsumRun_writes (c : Core) (a : RowArgs) (p : CsumPlan) (rd s : State) :
    Writes (inSpace (.cs c) p.outs) (p.reads.map (place (.cs c))) s (rcsumRun c a p rd s) := by
  have h := (csumRead_writes c p rd s).after_reads (writes_emitRuns (csumRead c p rd s) c (bitsN p.d 437 422) p.runs)
  rw [List.append_nil] at h
  exact h.of_keeps (rcsumRun_keeps_after c a p rd s)

theorem rcsumRun_busy (c : Core) (a : RowArgs) (p : CsumPlan) (rd s : State) :
    look (rcsumRun c a p rd s).cores.rwBusy 0 c.val = rowBusy c a p.d csumShape rd := by
  unfold rcsumRun
  dsimp -proj only
  rw [(State.dupStrike_keeps (vs := [.tens, .counters, .fabric, .mgmt, .power, .upsets]) (Keeps.refl _ _) (by decide)).eq_rwBusy,
    State.quantUntil_rwBusy, State.takeRow_busy]

end Sys2Proof.Machine
end

