-- ==== Sys2Proof/Laws/StepKeeps.lean ====
section
/-! SUPPORT. What one step may change: every command completes, and keeps the queue, the identity and the canonical forms. -/

namespace Sys2Proof.Machine

open Sys2Proof

set_option Elab.async false

/-- Every part of the state. -/
def allViews : List View :=
  [.cs, .prog, .desc, .purse, .mbox, .hall, .tags, .acc, .engines, .busy, .seqs, .reads, .idle, .merges, .words, .service,
   .stores, .tens, .spares, .counters, .fabric, .time, .mgmt, .power, .board, .upsets, .fresh]

theorem exec_keeps (i : Instr) (s : State) : KeepsO allViews s (exec i s) := by
  cases i with
  | bundleIssue _ => exact execBundleIssue_keeps (Keeps.refl _ _) (by decide)
  | courseBoundary _ => exact execCourseBoundary_keeps (Keeps.refl _ _) (by decide)
  | mrun _ _ => exact execMrun_keeps (Keeps.refl _ _) (by decide)
  | malt _ _ _ => exact execMalt_keeps (Keeps.refl _ _) (by decide)
  | mpre _ _ => exact execMpre_keeps (Keeps.refl _ _) (by decide)
  | mdrn _ _ _ _ => exact execMdrn_keeps (Keeps.refl _ _) (by decide)
  | mrel _ _ _ => exact execMrel_keeps (Keeps.refl _ _) (by decide)
  | add _ _ => exact execAdd_keeps (Keeps.refl _ _) (by decide)
  | sub _ _ => exact execSub_keeps (Keeps.refl _ _) (by decide)
  | mul _ _ => exact execMul_keeps (Keeps.refl _ _) (by decide)
  | fma _ _ => exact execFma_keeps (Keeps.refl _ _) (by decide)
  | fnma _ _ => exact execFnma_keeps (Keeps.refl _ _) (by decide)
  | min _ _ => exact execMin_keeps (Keeps.refl _ _) (by decide)
  | max _ _ => exact execMax_keeps (Keeps.refl _ _) (by decide)
  | neg _ _ => exact execNeg_keeps (Keeps.refl _ _) (by decide)
  | abs _ _ => exact execAbs_keeps (Keeps.refl _ _) (by decide)
  | cmplt _ _ => exact execCmplt_keeps (Keeps.refl _ _) (by decide)
  | cmple _ _ => exact execCmple_keeps (Keeps.refl _ _) (by decide)
  | cmpeq _ _ => exact execCmpeq_keeps (Keeps.refl _ _) (by decide)
  | sel _ _ => exact execSel_keeps (Keeps.refl _ _) (by decide)
  | drop _ _ => exact execDrop_keeps (Keeps.refl _ _) (by decide)
  | cvt _ _ => exact execCvt_keeps (Keeps.refl _ _) (by decide)
  | div _ _ => exact execDiv_keeps (Keeps.refl _ _) (by decide)
  | rcp _ _ => exact execRcp_keeps (Keeps.refl _ _) (by decide)
  | sqrt _ _ => exact execSqrt_keeps (Keeps.refl _ _) (by decide)
  | rsqrt _ _ => exact execRsqrt_keeps (Keeps.refl _ _) (by decide)
  | exp2 _ _ => exact execExp2_keeps (Keeps.refl _ _) (by decide)
  | exp _ _ => exact execExp_keeps (Keeps.refl _ _) (by decide)
  | log2 _ _ => exact execLog2_keeps (Keeps.refl _ _) (by decide)
  | ln _ _ => exact execLn_keeps (Keeps.refl _ _) (by decide)
  | ln1p _ _ => exact execLn1p_keeps (Keeps.refl _ _) (by decide)
  | tanh _ _ => exact execTanh_keeps (Keeps.refl _ _) (by decide)
  | erf _ _ => exact execErf_keeps (Keeps.refl _ _) (by decide)
  | sigmoid _ _ => exact execSigmoid_keeps (Keeps.refl _ _) (by decide)
  | silu _ _ => exact execSilu_keeps (Keeps.refl _ _) (by decide)
  | gelu _ _ => exact execGelu_keeps (Keeps.refl _ _) (by decide)
  | geluT _ _ => exact execGeluT_keeps (Keeps.refl _ _) (by decide)
  | softplus _ _ => exact execSoftplus_keeps (Keeps.refl _ _) (by decide)
  | relu _ _ => exact execRelu_keeps (Keeps.refl _ _) (by decide)
  | dsigmoid _ _ => exact execDsigmoid_keeps (Keeps.refl _ _) (by decide)
  | dtanh _ _ => exact execDtanh_keeps (Keeps.refl _ _) (by decide)
  | dsilu _ _ => exact execDsilu_keeps (Keeps.refl _ _) (by decide)
  | dgelu _ _ => exact execDgelu_keeps (Keeps.refl _ _) (by decide)
  | dgeluT _ _ => exact execDgeluT_keeps (Keeps.refl _ _) (by decide)
  | dsoftplus _ _ => exact execDsoftplus_keeps (Keeps.refl _ _) (by decide)
  | drelu _ _ => exact execDrelu_keeps (Keeps.refl _ _) (by decide)
  | rnorm _ _ => exact execRnorm_keeps (Keeps.refl _ _) (by decide)
  | rnormb _ _ => exact execRnormb_keeps (Keeps.refl _ _) (by decide)
  | rsmax _ _ => exact execRsmax_keeps (Keeps.refl _ _) (by decide)
  | rsmaxb _ _ => exact execRsmaxb_keeps (Keeps.refl _ _) (by decide)
  | rfold _ _ => exact execRfold_keeps (Keeps.refl _ _) (by decide)
  | rxent _ _ => exact execRxent_keeps (Keeps.refl _ _) (by decide)
  | rroute _ _ => exact execRroute_keeps (Keeps.refl _ _) (by decide)
  | rrouteb _ _ => exact execRrouteb_keeps (Keeps.refl _ _) (by decide)
  | rcomb _ _ => exact execRcomb_keeps (Keeps.refl _ _) (by decide)
  | rcsum _ _ => exact execRcsum_keeps (Keeps.refl _ _) (by decide)
  | pspill _ _ _ _ _ => exact execPspill_keeps (Keeps.refl _ _) (by decide)
  | pfill _ _ _ _ => exact execPfill_keeps (Keeps.refl _ _) (by decide)
  | pclr _ _ _ => exact execPclr_keeps (Keeps.refl _ _) (by decide)
  | hmove _ _ _ _ => exact execHmove_keeps (Keeps.refl _ _) (by decide)
  | hbmReadData _ _ => exact execHbmReadData_keeps (Keeps.refl _ _) (by decide)
  | hgath _ _ _ _ => exact execHgath_keeps (Keeps.refl _ _) (by decide)
  | hscat _ _ _ _ => exact execHscat_keeps (Keeps.refl _ _) (by decide)
  | hmesh _ _ _ _ _ _ => exact execHmesh_keeps (Keeps.refl _ _) (by decide)
  | hpage _ _ _ _ _ => exact execHpage_keeps (Keeps.refl _ _) (by decide)
  | hdesc _ _ _ _ _ => exact execHdesc_keeps (Keeps.refl _ _) (by decide)
  | hdsp _ _ => exact execHdsp_keeps (Keeps.refl _ _) (by decide)
  | loop _ _ _ => exact execLoop_keeps (Keeps.refl _ _) (by decide)
  | pjump _ _ _ => exact execPjump_keeps (Keeps.refl _ _) (by decide)
  | cend _ => exact execCend_keeps (Keeps.refl _ _) (by decide)
  | fbchk _ _ _ _ _ _ => exact execFbchk_keeps (Keeps.refl _ _) (by decide)
  | fbret _ => exact execFbret_keeps (Keeps.refl _ _) (by decide)
  | sclose _ _ => exact execSclose_keeps (Keeps.refl _ _) (by decide)
  | sphase _ _ => exact execSphase_keeps (Keeps.refl _ _) (by decide)
  | fsend _ _ _ _ => exact execFsend_keeps (Keeps.refl _ _) (by decide)
  | fwait _ _ _ => exact execFwait_keeps (Keeps.refl _ _) (by decide)
  | fcoll _ _ _ _ _ => exact execFcoll_keeps (Keeps.refl _ _) (by decide)
  | collectiveComplete _ _ => exact execCollectiveComplete_keeps (Keeps.refl _ _) (by decide)
  | collectiveTimeout _ _ => exact execCollectiveTimeout_keeps (Keeps.refl _ _) (by decide)
  | dataParcel _ _ => exact execDataParcel_keeps (Keeps.refl _ _) (by decide)
  | collectiveParcel _ _ => exact execCollectiveParcel_keeps (Keeps.refl _ _) (by decide)
  | ackCredit _ _ => exact execAckCredit_keeps (Keeps.refl _ _) (by decide)
  | ackSend _ _ => exact execAckSend_keeps (Keeps.refl _ _) (by decide)
  | nak _ _ => exact execNak_keeps (Keeps.refl _ _) (by decide)
  | retryTimeout _ _ => exact execRetryTimeout_keeps (Keeps.refl _ _) (by decide)
  | portDown _ => exact execPortDown_keeps (Keeps.refl _ _) (by decide)
  | fabricLinkUp _ => exact execFabricLinkUp_keeps (Keeps.refl _ _) (by decide)
  | blankNotice _ _ => exact execBlankNotice_keeps (Keeps.refl _ _) (by decide)
  | vote _ _ => exact execVote_keeps (Keeps.refl _ _) (by decide)
  | launchReady _ _ => exact execLaunchReady_keeps (Keeps.refl _ _) (by decide)
  | launchGo _ _ => exact execLaunchGo_keeps (Keeps.refl _ _) (by decide)
  | launchTimeout _ => exact execLaunchTimeout_keeps (Keeps.refl _ _) (by decide)
  | tallyProbe => exact execTallyProbe_keeps (Keeps.refl _ _) (by decide)
  | probeFrame _ _ => exact execProbeFrame_keeps (Keeps.refl _ _) (by decide)
  | probeAnswer _ _ => exact execProbeAnswer_keeps (Keeps.refl _ _) (by decide)
  | ppsInEdge => exact execPpsInEdge_keeps (Keeps.refl _ _) (by decide)
  | stop _ _ => exact execStop_keeps (Keeps.refl _ _) (by decide)
  | report _ _ => exact execReport_keeps (Keeps.refl _ _) (by decide)
  | plan _ _ => exact execPlan_keeps (Keeps.refl _ _) (by decide)
  | recoveryActionsComplete _ => exact execRecoveryActionsComplete_keeps (Keeps.refl _ _) (by decide)
  | done _ _ => exact execDone_keeps (Keeps.refl _ _) (by decide)
  | resume _ _ => exact execResume_keeps (Keeps.refl _ _) (by decide)
  | endJob _ _ => exact execEndJob_keeps (Keeps.refl _ _) (by decide)
  | seals _ _ => exact execSeals_keeps (Keeps.refl _ _) (by decide)
  | twin _ _ => exact execTwin_keeps (Keeps.refl _ _) (by decide)
  | recoveryTimeout _ => exact execRecoveryTimeout_keeps (Keeps.refl _ _) (by decide)
  | escrowWindowCopy _ _ => exact execEscrowWindowCopy_keeps (Keeps.refl _ _) (by decide)
  | escrowCopyDone _ _ => exact execEscrowCopyDone_keeps (Keeps.refl _ _) (by decide)
  | escrowDrain _ _ => exact execEscrowDrain_keeps (Keeps.refl _ _) (by decide)
  | escrowParityParcel _ _ => exact execEscrowParityParcel_keeps (Keeps.refl _ _) (by decide)
  | escrowAccept _ _ => exact execEscrowAccept_keeps (Keeps.refl _ _) (by decide)
  | scrubPass => exact execScrubPass_keeps (Keeps.refl _ _) (by decide)
  | scrubBehind => exact execScrubBehind_keeps (Keeps.refl _ _) (by decide)
  | refreshHole => exact execRefreshHole_keeps (Keeps.refl _ _) (by decide)
  | calibrationHole _ => exact execCalibrationHole_keeps (Keeps.refl _ _) (by decide)
  | daybookRelease => exact execDaybookRelease_keeps (Keeps.refl _ _) (by decide)
  | ledgerSnapshot => exact execLedgerSnapshot_keeps (Keeps.refl _ _) (by decide)
  | ledgerEventWrite => exact execLedgerEventWrite_keeps (Keeps.refl _ _) (by decide)
  | reconcile _ => exact execReconcile_keeps (Keeps.refl _ _) (by decide)
  | cpmReport _ => exact execCpmReport_keeps (Keeps.refl _ _) (by decide)
  | trim => exact execTrim_keeps (Keeps.refl _ _) (by decide)
  | assayComplete _ => exact execAssayComplete_keeps (Keeps.refl _ _) (by decide)
  | telemetry _ _ => exact execTelemetry_keeps (Keeps.refl _ _) (by decide)
  | daybookDrain _ _ _ => exact execDaybookDrain_keeps (Keeps.refl _ _) (by decide)
  | assayRequest _ _ _ _ => exact execAssayRequest_keeps (Keeps.refl _ _) (by decide)
  | capSet _ _ => exact execCapSet_keeps (Keeps.refl _ _) (by decide)
  | create _ _ _ _ _ _ => exact execCreate_keeps (Keeps.refl _ _) (by decide)
  | share _ _ _ _ _ => exact execShare_keeps (Keeps.refl _ _) (by decide)
  | windows _ _ _ _ => exact execWindows_keeps (Keeps.refl _ _) (by decide)
  | partition _ _ _ _ _ => exact execPartition_keeps (Keeps.refl _ _) (by decide)
  | weight _ _ _ => exact execWeight_keeps (Keeps.refl _ _) (by decide)
  | destroy _ _ => exact execDestroy_keeps (Keeps.refl _ _) (by decide)
  | blankRequest _ _ _ => exact execBlankRequest_keeps (Keeps.refl _ _) (by decide)
  | ledgerRead _ _ _ => exact execLedgerRead_keeps (Keeps.refl _ _) (by decide)
  | fwStage _ addr _ _ => exact execFwStage_keeps (_addr := addr) (Keeps.refl _ _) (by decide)
  | fwCommit _ _ => exact execFwCommit_keeps (Keeps.refl _ _) (by decide)
  | fwActivate _ => exact execFwActivate_keeps (Keeps.refl _ _) (by decide)
  | timeSetup _ _ => exact execTimeSetup_keeps (Keeps.refl _ _) (by decide)
  | arbiterPriority _ _ _ _ _ => exact execArbiterPriority_keeps (Keeps.refl _ _) (by decide)
  | launch _ _ _ => exact execLaunch_keeps (Keeps.refl _ _) (by decide)
  | maintenance _ _ => exact execMaintenance_keeps (Keeps.refl _ _) (by decide)
  | mbxReqTail _ _ _ => exact execMbxReqTail_keeps (Keeps.refl _ _) (by decide)
  | mbxRspHead _ _ => exact execMbxRspHead_keeps (Keeps.refl _ _) (by decide)
  | commit _ => exact execCommit_keeps (Keeps.refl _ _) (by decide)
  | loadComplete _ => exact execLoadComplete_keeps (Keeps.refl _ _) (by decide)
  | unload _ => exact execUnload_keeps (Keeps.refl _ _) (by decide)
  | apply _ => exact execApply_keeps (Keeps.refl _ _) (by decide)
  | blankReq _ => exact execBlankReq_keeps (Keeps.refl _ _) (by decide)
  | hold _ _ => exact execHold_keeps (Keeps.refl _ _) (by decide)
  | fabCfgLock _ => exact execFabCfgLock_keeps (Keeps.refl _ _) (by decide)
  | intStatusClear _ _ => exact execIntStatusClear_keeps (Keeps.refl _ _) (by decide)
  | counterLowRead _ _ => exact execCounterLowRead_keeps (Keeps.refl _ _) (by decide)
  | arbWaitMax _ _ _ _ => exact execArbWaitMax_keeps (Keeps.refl _ _) (by decide)
  | tallySnap _ => exact execTallySnap_keeps (Keeps.refl _ _) (by decide)
  | registerWrite _ _ _ _ _ _ => exact execRegisterWrite_keeps (Keeps.refl _ _) (by decide)
  | hostHbmAccess _ _ _ _ _ _ => exact execHostHbmAccess_keeps (Keeps.refl _ _) (by decide)
  | functionLevelReset _ => exact execFunctionLevelReset_keeps (Keeps.refl _ _) (by decide)
  | hotReset => exact execHotReset_keeps (Keeps.refl _ _) (by decide)
  | deviceReset => exact execDeviceReset_keeps (Keeps.refl _ _) (by decide)
  | boot _ => exact execBoot_keeps (Keeps.refl _ _) (by decide)
  | perstNRise => exact execPerstNRise_keeps (Keeps.refl _ _) (by decide)
  | mgmtRstN => exact execMgmtRstN_keeps (Keeps.refl _ _) (by decide)
  | brownOut _ => exact execBrownOut_keeps (Keeps.refl _ _) (by decide)
  | i3cRead _ => exact execI3cRead_keeps (Keeps.refl _ _) (by decide)
  | dynamicAddress _ => exact execDynamicAddress_keeps (Keeps.refl _ _) (by decide)
  | bypass => exact execBypass_keeps (Keeps.refl _ _) (by decide)
  | idcode => exact execIdcode_keeps (Keeps.refl _ _) (by decide)
  | samplePreload _ => exact execSamplePreload_keeps (Keeps.refl _ _) (by decide)
  | extest => exact execExtest_keeps (Keeps.refl _ _) (by decide)
  | clamp => exact execClamp_keeps (Keeps.refl _ _) (by decide)
  | highz => exact execHighz_keeps (Keeps.refl _ _) (by decide)
  | linkLoss _ => exact execLinkLoss_keeps (Keeps.refl _ _) (by decide)
  | lossOfLock _ => exact execLossOfLock_keeps (Keeps.refl _ _) (by decide)
  | lockRegained _ => exact execLockRegained_keeps (Keeps.refl _ _) (by decide)
  | connectionLoss d => exact execConnectionLoss_keeps (_d := d) (Keeps.refl _ _) (by decide)
  | routerFault k => exact execRouterFault_keeps (_phys := k) (Keeps.refl _ _) (by decide)
  | railBackInRange _ => exact execRailBackInRange_keeps (Keeps.refl _ _) (by decide)
  | ppsOutEdge => exact execPpsOutEdge_keeps (Keeps.refl _ _) (by decide)
  | tallyRefOutEdge => exact execTallyRefOutEdge_keeps (Keeps.refl _ _) (by decide)
  | pcieLinkUp => exact execPcieLinkUp_keeps (Keeps.refl _ _) (by decide)
  | pfcFrame _ _ => exact execPfcFrame_keeps (Keeps.refl _ _) (by decide)
  | foreignFrame _ => exact execForeignFrame_keeps (Keeps.refl _ _) (by decide)
  | fcsDrop _ => exact execFcsDrop_keeps (Keeps.refl _ _) (by decide)
  | badHeader _ f => exact execBadHeader_keeps (f := f) (Keeps.refl _ _) (by decide)
  | statePagesWritten _ => exact execStatePagesWritten_keeps (Keeps.refl _ _) (by decide)
  | shareClearingDone => exact execShareClearingDone_keeps (Keeps.refl _ _) (by decide)
  | vfEnable _ _ => exact execVfEnable_keeps (Keeps.refl _ _) (by decide)
  | unknownKind _ _ => exact execUnknownKind_keeps (Keeps.refl _ _) (by decide)
  | delayRequest _ => exact execDelayRequest_keeps (Keeps.refl _ _) (by decide)

theorem step_push (i : Instr) (q : List Instr) (s : State) : step { s with pending := i :: q } = exec i { s with pending := q } := rfl

theorem step_idle (s : State) (h : s.pending = []) : step s = .next (s.pass 1) := by unfold step; rw [h]

end Sys2Proof.Machine
end

