-- ==== Sys2Proof/Laws/Talks.lean ====
section
/-! SUPPORT. Every operation of sending and receiving keeps Talks. -/

namespace Sys2Proof.Machine

open Sys2Proof

set_option Elab.async false

theorem Tenancy.talks_refl (a : Tenancy) : a.talks a := rfl

theorem Tenancy.talks_trans {a b c : Tenancy} (h : a.talks b) (k : b.talks c) : a.talks c := by
  unfold Tenancy.talks at *
  rw [k, h]

theorem Fabric.talks_trans {a b c : Fabric} (h : a.talks b) (k : b.talks c) : a.talks c := by
  unfold Fabric.talks at *
  rw [k, h]

theorem Talks.refl (s : State) : Talks s s := ⟨fun _ => rfl, rfl⟩

theorem Talks.trans {s t u : State} (h : Talks s t) (k : Talks t u) : Talks s u :=
  ⟨fun n => Tenancy.talks_trans (h.1 n) (k.1 n), Fabric.talks_trans h.2 k.2⟩

/-- A change of no tenancy, and of the fabric within its talk. -/
theorem Talks.of {s t : State} (h : t.tens = s.tens) (k : s.fabric.talks t.fabric) : Talks s t :=
  ⟨fun n => by unfold State.ten; rw [h]; rfl, k⟩

theorem Talks.of_keeps {vs : List View} {s t : State} (h : Keeps vs s t) (h1 : View.tens ∉ vs := by decide) (h2 : View.fabric ∉ vs := by decide) :
    Talks s t := Talks.of (h.eq_tens h1) (by rw [h.eq_fabric h2]; rfl)

theorem Talks.foldl {α : Type} {s t : State} {l : List α} {f : State → α → State} (h : Talks s t)
    (hf : ∀ u a, Talks u (f u a)) : Talks s (l.foldl f t) := by
  induction l generalizing t with
  | nil => exact h
  | cons a r ih => exact ih (h.trans (hf t a))

theorem Talks.ite {s a b : State} {c : Prop} [Decidable c] (ha : Talks s a) (hb : Talks s b) : Talks s (if c then a else b) := by
  split <;> assumption

theorem Talks.modTen {s : State} {t : Nat} {f : Tenancy → Tenancy} (h : (s.ten t).talks (f (s.ten t))) : Talks s (s.modTen t f) := by
  refine ⟨fun n => ?_, rfl⟩
  by_cases e : n = t
  · subst e; rw [State.ten_modTen]; exact h
  · rw [State.ten_modTen_ne _ _ e]; rfl

theorem count_talks (s : State) (o n : Nat) : Talks s (s.count o n) := Talks.of rfl rfl

theorem account_talks (s : State) (o n : Nat) : Talks s (s.account o n) := Talks.of rfl rfl

theorem charge_talks (s : State) (t : Option Nat) (e : Nat) (offs : List Nat) : Talks s (s.charge t e offs) := by
  unfold State.charge
  have h : Talks s (offs.foldl (fun (u : State) o => u.account o e) (s.account (chipOff 0x80) e)) :=
    (account_talks s _ _).foldl (fun u a => account_talks u _ _)
  cases t with
  | none => exact h.trans (account_talks _ _ _)
  | some t => exact h.trans ((account_talks _ _ _).trans (Talks.modTen rfl))

theorem chargeFrame_talks (s : State) (p : Port) (f : Frame) : Talks s (s.chargeFrame p f) := charge_talks _ _ _ _

theorem emitFrame_talks (s : State) (p : Port) (f : Frame) : Talks s (s.emitFrame p f) := by
  unfold State.emitFrame
  split
  · exact Talks.refl s
  · have h := (count_talks s (portOff p.val 0) 1).trans (chargeFrame_talks _ p f)
    refine h.trans (Talks.of rfl ?_)
    have : ((s.count (portOff p.val 0) 1).chargeFrame p f).fabric = s.fabric :=
      (State.chargeFrame_keeps (vs := [.tens, .power]) (Keeps.refl _ _) (by decide)).eq_fabric
    simp only [this]
    rfl

theorem setSend_talks (s : State) (t ch peer : Nat) (f : SendFlow) : Talks s (s.setSend t ch peer f) := Talks.of rfl rfl

theorem setRecv_talks (s : State) (t ch peer : Nat) (f : RecvFlow) : Talks s (s.setRecv t ch peer f) := Talks.of rfl rfl

theorem modChan_talks (s : State) (t ch : Nat) (f : ChanSt → ChanSt) : Talks s (s.modChan t ch f) := Talks.of rfl rfl

theorem transmit_talks (s : State) (t ch peer : Nat) (u : Unacked) : Talks s (s.transmit t ch peer u) := by
  unfold State.transmit
  exact (setRecv_talks _ _ _ _ _).trans (emitFrame_talks _ _ _)

theorem sendNow_talks (s : State) (t ch peer : Nat) (h : Held) : Talks s (s.sendNow t ch peer h) := by
  unfold State.sendNow
  refine Talks.trans ?_ (transmit_talks _ _ _ _ _)
  refine Talks.ite (setSend_talks _ _ _ _ _) ((setSend_talks _ _ _ _ _).trans (modChan_talks _ _ _ _))

theorem push_talks (s : State) (t ch peer : Nat) (h : Held) : Talks s (s.push t ch peer h) := by
  unfold State.push
  exact Talks.ite (sendNow_talks _ _ _ _ _) (setSend_talks _ _ _ _ _)

theorem pump_talks (s : State) (t ch peer : Nat) : Talks s (s.pump t ch peer) := by
  unfold State.pump
  exact (setSend_talks _ _ _ _ _).foldl (fun u a => sendNow_talks u _ _ _ _)

theorem acked_talks (s : State) (t ch peer : Nat) (a : BitVec 24) : Talks s (s.acked t ch peer a) := by
  unfold State.acked
  dsimp only
  split
  · exact Talks.refl s
  · refine Talks.ite (Talks.refl s) (Talks.trans ?_ (pump_talks _ _ _ _))
    exact Talks.ite (setSend_talks _ _ _ _ _) ((setSend_talks _ _ _ _ _).trans (modChan_talks _ _ _ _))

theorem sendStaged_talks (s : State) (t ch : Nat) (is : List Nat) : Talks s (s.sendStaged t ch is) := by
  unfold State.sendStaged
  exact (modChan_talks _ _ _ _).foldl (fun u a => push_talks u _ _ _ _)

theorem endStall_talks (s : State) (t : Nat) (p : Stall → Bool) : Talks s (s.endStall t p) := Talks.modTen rfl

theorem credited_talks (s : State) (t ch n : Nat) : Talks s (s.credited t ch n) := by
  unfold State.credited
  refine Talks.ite (Talks.refl s) ?_
  exact Talks.ite ((modChan_talks _ _ _ _).trans ((endStall_talks _ _ _).trans (sendStaged_talks _ _ _ _))) (modChan_talks _ _ _ _)

theorem takeBack_talks (s : State) (t : Nat) (f : Frame) : Talks s (s.takeBack t f) := by
  unfold State.takeBack
  have h : Talks s (if f.ackv then s.acked t f.chan.toNat f.src.toNat f.ack else s) := Talks.ite (acked_talks _ _ _ _ _) (Talks.refl s)
  exact Talks.ite (h.trans (credited_talks _ _ _ _)) h

theorem goBack_talks (s : State) (t ch peer n : Nat) : Talks s (s.goBack t ch peer n) := by
  unfold State.goBack State.countTen
  exact (count_talks _ _ _).foldl (fun u a => transmit_talks u _ _ _ _)

theorem fanOut_talks (s : State) (t kind : Nat) (axes : List Nat) (ws : List MemWord) : Talks s (s.fanOut t kind axes ws) := by
  unfold State.fanOut
  refine (Talks.refl s).foldl (fun u k => (Talks.refl u).foldl (fun v j => ?_))
  exact Talks.ite (Talks.refl v) (push_talks _ _ _ _ _)

theorem broadcast_talks (s : State) (t kind : Nat) (ws : List MemWord) : Talks s (s.broadcast t kind ws) := fanOut_talks _ _ _ _ _

theorem forward_talks (s : State) (t kind : Nat) (p : Port) (axes : List Nat) (ws : List MemWord) : Talks s (s.forward t kind p axes ws) := by
  unfold State.forward
  split
  · exact fanOut_talks _ _ _ _ _
  · exact Talks.refl s

theorem sendRootward_talks (s : State) (t kind : Nat) (w : BitVec 256) : Talks s (s.sendRootward t kind w) := by
  unfold State.sendRootward
  split
  · exact Talks.refl s
  · exact push_talks _ _ _ _ _

theorem decodePayload_talks (s : State) (p : Port) (ws : List MemWord) : Talks s (s.decodePayload p ws).1 :=
  Talks.of_keeps (State.decodePayload_keeps (vs := [.counters]) (Keeps.refl _ _) (by decide))

theorem sendNak_talks (s : State) (p : Port) (t ch peer : Nat) : Talks s (s.sendNak p t ch peer) := by
  unfold State.sendNak
  exact ((count_talks _ _ _).trans (setRecv_talks _ _ _ _ _)).trans (emitFrame_talks _ _ _)

/-! ### A frame that passes its checks -/

/-- The checks of Table 13.7 that a frame passes (13 R350). -/
theorem checkFrame_pass {s : State} {p : Port} {f : Frame} {bad peerOk : Bool} (h1 : (portOf s p).link = true) (h2 : badHeaderOf f = false)
    (h3 : bad = false) (h4 : f.dst.toNat = myId s) (h5 : f.plane.toNat = p.val) (h6 : f.epoch = (s.ten f.ten.toNat).recov.epoch)
    (h7 : jobMatches s f = true) (h8 : peerOk = true) :
    s.checkFrame p f bad peerOk = ((s.count (portOff p.val 0x08) 1).chargeFrame p f, true) := by
  have hk : Keeps [.tens, .counters, .power] s ((s.count (portOff p.val 0x08) 1).chargeFrame p f) :=
    State.chargeFrame_keeps (State.count_keeps (Keeps.refl _ _) (by decide)) (by decide)
  have ht : Talks s ((s.count (portOff p.val 0x08) 1).chargeFrame p f) := (count_talks s _ 1).trans (chargeFrame_talks _ p f)
  have e1 : myId ((s.count (portOff p.val 0x08) 1).chargeFrame p f) = myId s := by unfold myId; rw [hk.eq_fabric]
  have ht' := ht.1 f.ten.toNat
  have e2 : (((s.count (portOff p.val 0x08) 1).chargeFrame p f).ten f.ten.toNat).recov = (s.ten f.ten.toNat).recov := by
    unfold Tenancy.talks at ht'; rw [ht']
  have e3 : (((s.count (portOff p.val 0x08) 1).chargeFrame p f).ten f.ten.toNat).load = (s.ten f.ten.toNat).load := by
    unfold Tenancy.talks at ht'; rw [ht']
  have e4 : jobMatches ((s.count (portOff p.val 0x08) 1).chargeFrame p f) f = true := by
    unfold jobMatches hdr at *; simp only [e3]; exact h7
  unfold State.checkFrame
  simp only [h1, Bool.not_true, Bool.false_eq_true, if_false, h2, h3, Bool.or_self, e1, h4, h5, ne_eq, not_true_eq_false, or_self, e2, h6,
    e4, h8, Bool.or_false]
  simp

/-- A sequenced frame accepted: its flow moves on, and it returns what it carries (13 R349, R350). -/
theorem receive_pass {s : State} {p : Port} {f : Frame} {bad peerOk : Bool} {u : State} (h : s.checkFrame p f bad peerOk = (u, true))
    (hs : f.seq = (recvOf u f.ten.toNat f.chan.toNat f.src.toNat).expected) :
    s.receive p f bad peerOk = (((u.setRecv f.ten.toNat f.chan.toNat f.src.toNat
      { expected := (recvOf u f.ten.toNat f.chan.toNat f.src.toNat).expected + 1, nakSent := false, owes := true, port := p }).countTen
        f.ten.toNat 0x2100 1).takeBack f.ten.toNat f, true) := by
  unfold State.receive
  simp only [h, Bool.not_true, Bool.false_eq_true, if_false, hs, BitVec.sub_self, BitVec.toNat_ofNat, Nat.zero_mod, if_true]

end Sys2Proof.Machine
end

