-- ==== Sys2Proof/Laws/Tick.lean ====
section
/-! SUPPORT. Time that passes. -/

namespace Sys2Proof.Machine

open Sys2Proof

set_option Elab.async false

theorem State.pass_tally (s : State) (n : Nat) (h : s.time.pll ≠ .off) : (s.pass n).time.tally = s.time.tally + BitVec.ofNat 64 n := by
  by_cases hn : n = 0
  · subst hn
    simp [State.pass]
  · have hk : Keeps [.tens, .counters] s ((tenancies s).foldl (fun (u : State) t => (u.countIdle t n).addStall t n) s) :=
      Keeps.foldl (Keeps.refl _ _) (fun u a k => State.addStall_keeps (State.countIdle_keeps k (by decide)) (by decide))
    have ht := hk.eq_time
    unfold State.pass
    simp only [clockOn, decide_eq_true h, hn, ne_eq, not_false_eq_true, decide_true, Bool.and_self, if_true]
    rw [(State.settleMerges_keeps (vs := [.cs, .mbox, .merges, .words, .tens, .counters, .fabric, .mgmt, .power]) (Keeps.refl _ _)
      (by decide)).eq_time]
    split <;> split <;> simp_all [State.countChip]

theorem State.pass_off (s : State) (n : Nat) (h : s.time.pll = .off) : s.pass n = s := by
  unfold State.pass
  simp [clockOn, h]

end Sys2Proof.Machine
end

