-- ==== Sys2Proof/Laws/WriteRun.lean ====
section
/-! SUPPORT. What a run of values written in a plain format leaves in its words. -/

namespace Sys2Proof.Machine

open Sys2Proof

set_option Elab.async false

/-! ### Packing -/

theorem packNat_div (w : Nat) (es : List Nat) (i : Nat) (h : i < es.length) :
    (es.foldr (fun e acc => acc * 2 ^ w + e % 2 ^ w) 0) / 2 ^ (w * i) % 2 ^ w = es[i] % 2 ^ w := by
  induction es generalizing i with
  | nil => simp at h
  | cons e r ih =>
    cases i with
    | zero => simp
    | succ j =>
      have hj : j < r.length := by simpa using h
      have key : ∀ x : Nat, (x * 2 ^ w + e % 2 ^ w) / 2 ^ (w * (j + 1)) = x / 2 ^ (w * j) := by
        intro x
        rw [Nat.mul_add, Nat.mul_one, Nat.add_comm (w * j) w, Nat.pow_add, ← Nat.div_div_eq_div_mul]
        congr 1
        rw [Nat.add_comm, Nat.add_mul_div_right _ _ (Nat.two_pow_pos w), Nat.div_eq_of_lt (Nat.mod_lt _ (Nat.two_pow_pos w)), Nat.zero_add]
      simp only [List.foldr_cons, List.getElem_cons_succ]
      rw [key]
      exact ih j hj

theorem elemOf_packWord (w : Nat) (es : List Nat) (i : Nat) (h : i < es.length) (hw : w * (i + 1) ≤ 256) :
    elemOf w i (packWord w es) = es[i] % 2 ^ w := by
  unfold elemOf packWord
  rw [BitVec.extractLsb'_toNat, BitVec.toNat_ofNat, Nat.shiftRight_eq_div_pow, ← packNat_div w es i h]
  generalize es.foldr (fun e acc => acc * 2 ^ w + e % 2 ^ w) 0 = n
  have h1 : 256 = w * i + (256 - w * i) := by have : w * (i + 1) = w * i + w := by ring
                                              omega
  have h2 : w ≤ 256 - w * i := by have : w * (i + 1) = w * i + w := by ring
                                  omega
  conv_lhs => rw [h1, Nat.pow_add, Nat.mod_mul_right_div_self]
  exact Nat.mod_mod_of_dvd _ (Nat.pow_dvd_pow 2 h2)

/-! ### Groups of a run -/

theorem splitBy_pairwise {α : Type} (f : α → Int) (gs : List (List α)) (hne : ∀ g ∈ gs, g ≠ [])
    (hs : gs.flatten.Pairwise (fun x y => f x ≤ f y))
    (hc : gs.IsChain (fun a b => ∃ ha hb, f (a.getLast ha) ≠ f (b.head hb))) :
    gs.Pairwise (fun g h => ∀ x ∈ g, ∀ y ∈ h, f x < f y) := by
  induction gs with
  | nil => exact List.Pairwise.nil
  | cons g r ih =>
    rw [List.flatten_cons, List.pairwise_append] at hs
    refine List.Pairwise.cons ?_ (ih (fun k hk => hne k (by simp [hk])) hs.2.1 hc.tail)
    intro k hk x hx y hy
    cases r with
    | nil => cases hk
    | cons b r =>
      obtain ⟨ha, hb, hn⟩ := (List.isChain_cons_cons.mp hc).1
      have h1 : f x ≤ f (g.getLast ha) := by
        have hg := hs.1
        rcases List.eq_nil_or_concat g with rfl | ⟨g', z, rfl⟩
        · cases hx
        · simp only [List.concat_eq_append, List.getLast_append_singleton] at hx hg ⊢
          rw [List.pairwise_append] at hg
          rcases List.mem_append.mp hx with hx | hx
          · exact hg.2.2 x hx z (by simp)
          · simp at hx; subst hx; exact le_refl _
      have h2 : f (g.getLast ha) ≤ f (b.head hb) :=
        hs.2.2 _ (List.getLast_mem ha) _ (by rw [List.flatten_cons]; simp [List.head_mem])
      have h3 : f (b.head hb) ≤ f y := by
        rcases List.mem_cons.mp hk with rfl | hk
        · have hp : k.Pairwise (fun x y => f x ≤ f y) := by
            have := hs.2.1
            rw [List.flatten_cons, List.pairwise_append] at this
            exact this.1
          cases k with
          | nil => cases hy
          | cons z l =>
            rcases List.mem_cons.mp hy with rfl | hy
            · exact le_refl _
            · exact (List.pairwise_cons.mp hp).1 y hy
        · have := hs.2.1
          rw [List.flatten_cons, List.pairwise_append] at this
          exact this.2.2 _ (List.head_mem hb) _ (List.mem_flatten.mpr ⟨k, hk, hy⟩)
      omega

theorem chain_same {α : Type} {f : α → Int} {g : List α} (h : g.IsChain (fun a b => f a = f b)) : ∀ x ∈ g, ∀ y ∈ g, f x = f y := by
  have key : ∀ (l : List α) (a : α), (a :: l).IsChain (fun a b => f a = f b) → ∀ x ∈ a :: l, f x = f a := by
    intro l
    induction l with
    | nil => intro a _ x hx; simp at hx; rw [hx]
    | cons b r ih =>
      intro a h x hx
      have h2 := List.isChain_cons_cons.mp h
      rcases List.mem_cons.mp hx with rfl | hx
      · rfl
      · rw [ih b h2.2 x hx, h2.1]
  cases g with
  | nil => simp
  | cons a l =>
    intro x hx y hy
    rw [key l a h x hx, key l a h y hy]

theorem filter_unique {outs : List Out} {o : Out} (h : outs.Pairwise (fun x y => x.a ≠ y.a)) (ho : o ∈ outs) :
    outs.filter (fun x => decide (x.a = o.a)) = [o] := by
  induction outs with
  | nil => cases ho
  | cons x r ih =>
    obtain ⟨h1, h2⟩ := List.pairwise_cons.mp h
    rcases List.mem_cons.mp ho with rfl | ho
    · rw [List.filter_cons_of_pos (by simp), List.filter_eq_nil_iff.mpr (fun y hy => by simpa using (h1 y hy).symm)]
    · rw [List.filter_cons_of_neg (by simpa using h1 o ho), ih h2 ho]

/-! ### Bytes -/

/-- The bytes that hold bits `lo` to `lo + n - 1` are among those a mask names. -/
def covers (m : BitVec 32) (lo n : Nat) : Prop := ∀ i, lo ≤ i → i < lo + n → m.getLsbD (i / 8) = true

theorem maskBits_get (m : BitVec 32) (i : Nat) (h : i < 256) : (maskBits m).getLsbD i = m.getLsbD (i / 8) := by
  have hk : i / 8 < 32 := by omega
  have h1 := elemOf_packWord 8 ((upTo 32).map (fun i => if m.getLsbD i then 255 else 0)) (i / 8) (by simpa [upTo] using hk) (by omega)
  have h2 : ((upTo 32).map (fun i => if m.getLsbD i then 255 else 0))[i / 8]'(by simpa [upTo] using hk)
      = if m.getLsbD (i / 8) then 255 else 0 := by simp [upTo]
  rw [h2] at h1
  have h3 : (maskBits m).getLsbD i = ((maskBits m).extractLsb' (8 * (i / 8)) 8).toNat.testBit (i % 8) := by
    rw [← BitVec.testBit_toNat, BitVec.extractLsb'_toNat, Nat.testBit_mod_two_pow, Nat.testBit_shiftRight]
    have : 8 * (i / 8) + i % 8 = i := Nat.div_add_mod i 8
    rw [this]
    simp [Nat.mod_lt i (by omega : 0 < 8)]
  rw [h3]
  unfold maskBits
  unfold elemOf at h1
  rw [h1]
  have hm : i % 8 < 8 := Nat.mod_lt _ (by omega)
  generalize i % 8 = j at hm
  cases m.getLsbD (i / 8) <;> revert j <;> decide

/-- Where a write covers an element, the newest form of its word holds it, and its poison. -/
theorem newest_takeIn (b : Bank) (h : MemWord × Option (MemWord × BitVec 32)) (o : Out) (w k : Nat) (hk : w * (k + 1) ≤ 256)
    (hc : covers o.mask (w * k) w) (hm : b = .mbox → h.2 = none) :
    elemOf w k (newest (takeIn b h o)).data = elemOf w k o.w.data ∧ (isPoisoned o.w = true → isPoisoned (newest (takeIn b h o)) = true) := by
  have key : ∀ e : MemWord × BitVec 32, elemOf w k (mergeIn e o).1.data = elemOf w k o.w.data ∧
      (isPoisoned o.w = true → isPoisoned (mergeIn e o).1 = true) := by
    intro e
    constructor
    · unfold elemOf
      congr 1
      ext i hi
      have h1 : w * k + i < 256 := by
        have : w * (k + 1) = w * k + w := by ring
        omega
      simp only [mergeIn, wordOf, BitVec.getElem_extractLsb', BitVec.getLsbD_or, BitVec.getLsbD_and, BitVec.getLsbD_not,
        maskBits_get _ _ h1, hc (w * k + i) (by omega) (by omega), h1]
      simp
    · intro hp
      simp [mergeIn, wordOf, isPoisoned] at hp ⊢
      simp [hp]
  by_cases hb : b = .mbox
  · subst hb
    simp [takeIn, hm rfl, newest]
  · cases hh : h.2 with
    | none =>
      rw [takeIn_none o hb hh]
      split <;> simp [newest]
    | some e =>
      rw [takeIn_some o hb hh]
      split
      · exact key e
      · exact key e

theorem plain_bits {fmt : Nat} (hf : isPlain fmt = true) : elemBits fmt = 8 ∨ elemBits fmt = 16 ∨ elemBits fmt = 32 := by
  have : fmt ≤ 2 := by simpa [isPlain] using hf
  interval_cases fmt <;> decide

/-- The bytes of the elements of a plain format. -/
theorem bytesOf_covers {w : Nat} (hw : w = 8 ∨ w = 16 ∨ w = 32) {is : List Nat} {k : Nat} (hk : k ∈ is) (h : k < 256 / w) :
    covers (bytesOf w is) (w * k) w := by
  have seg : ∀ k < 256 / w, ∀ j < w, (((1#32 <<< (ceilDiv (k * w % 8 + w) 8)) - 1) <<< (k * w / 8)).getLsbD ((w * k + j) / 8) = true := by
    rcases hw with rfl | rfl | rfl <;> decide
  have mono : ∀ (l : List Nat) (m : BitVec 32) (t : Nat), m.getLsbD t = true →
      (l.foldl (fun (m : BitVec 32) i => m ||| (((1#32 <<< (ceilDiv (i * w % 8 + w) 8)) - 1) <<< (i * w / 8))) m).getLsbD t = true := by
    intro l
    induction l with
    | nil => exact fun _ _ h => h
    | cons a r ih =>
      intro m t hm
      exact ih _ _ (by simp [BitVec.getLsbD_or, hm])
  have key : ∀ (l : List Nat) (m : BitVec 32), k ∈ l → ∀ j < w,
      (l.foldl (fun (m : BitVec 32) i => m ||| (((1#32 <<< (ceilDiv (i * w % 8 + w) 8)) - 1) <<< (i * w / 8))) m).getLsbD ((w * k + j) / 8) = true := by
    intro l
    induction l with
    | nil => intro _ h; cases h
    | cons a r ih =>
      intro m hm j hj
      rcases List.mem_cons.mp hm with rfl | hm
      · refine mono r _ _ ?_
        rw [BitVec.getLsbD_or, seg _ h j hj]
        simp
      · exact ih _ hm j hj
  intro i h1 h2
  have := key is 0 hk (i - w * k) (by omega)
  rwa [show w * k + (i - w * k) = i by omega] at this

/-- Cells in the order of their offsets. -/
def rowCells (e0 : Int) (n : Nat) (v : Nat → Num) (bad low : Nat → Bool) : List Cell := (upTo n).map (fun (i : Nat) => (⟨e0 + (i : Int), v i, bad i, low i⟩ : Cell))

/-- In a plain format each element of a run of values lies, rounded, in its place of its word, and poison of a value poisons it. -/
theorem writeRun_plain (s : State) (sp : Space) (fmt base sh region : Nat) (n0 : Int) (sc : Int → Int × Bool) (u : Int → Option Nat)
    (e0 : Int) (n : Nat) (v : Nat → Num) (bad low : Nat → Bool) (hf : isPlain fmt = true) (hw : 0 < elemBits fmt) (hw2 : elemBits fmt ≤ 256)
    (ha : ∀ i, i < n → 0 ≤ (base : Int) + (e0 + i) / perWord fmt) (i : Nat) (hi : i < n) :
    let wr := writeRun s sp fmt base sh region n0 sc u false false (rowCells e0 n v bad low)
    wr.shs = [] ∧ ∃ o, wr.els.filter (fun o => decide (o.a = ((base : Int) + (e0 + i) / perWord fmt).toNat)) = [o] ∧
      elemOf (elemBits fmt) ((e0 + i) % perWord fmt).toNat o.w.data
        = (fmtOf fmt).encode (if fmt = 0 then none else u (e0 + i)) (v i) % 2 ^ elemBits fmt ∧
      covers o.mask (elemBits fmt * ((e0 + i) % perWord fmt).toNat) (elemBits fmt) ∧ (bad i = true → isPoisoned o.w = true) := by
  have hpw : 0 < perWord fmt := Nat.div_pos hw2 hw
  have hpw' : (0 : Int) < perWord fmt := by exact_mod_cast hpw
  intro wr
  have hwr : wr = writeRun s sp fmt base sh region n0 sc u false false (rowCells e0 n v bad low) := rfl
  unfold writeRun at hwr
  simp only [hf, if_true, Bool.false_eq_true, if_false] at hwr
  refine ⟨by rw [hwr], ?_⟩
  set cells := rowCells e0 n v bad low with hcells
  set f : Cell → Int := fun x => x.e / perWord fmt with hfdef
  set gs := cells.splitBy (fun x y => decide (f x = f y)) with hgs
  have hmem : ∀ x ∈ cells, ∃ j, j < n ∧ x = ⟨e0 + j, v j, bad j, low j⟩ := by
    intro x hx
    obtain ⟨j, hj, rfl⟩ := List.mem_map.mp hx
    exact ⟨j, List.mem_range.mp hj, rfl⟩
  have hflat : gs.flatten = cells := List.flatten_splitBy _ _
  have hpair : gs.Pairwise (fun g h => ∀ x ∈ g, ∀ y ∈ h, f x < f y) := by
    refine splitBy_pairwise f gs (fun g hg => ?_) ?_ ?_
    · rintro rfl
      exact List.nil_notMem_splitBy _ _ hg
    · rw [hflat, hcells]
      unfold rowCells
      rw [List.pairwise_map]
      refine List.Pairwise.imp ?_ List.pairwise_lt_range
      intro a b hab
      exact Int.ediv_le_ediv hpw' (by dsimp only; omega)
    · refine List.IsChain.imp ?_ (List.isChain_getLast_head_splitBy (fun x y => decide (f x = f y)) cells)
      rintro a b ⟨h1, h2, h3⟩
      exact ⟨h1, h2, by simpa using h3⟩
  have hsame : ∀ g ∈ gs, ∀ x ∈ g, ∀ y ∈ g, f x = f y := by
    intro g hg
    have hc := List.isChain_of_mem_splitBy hg
    exact chain_same (List.IsChain.imp (fun a b h => by simpa using h) hc)
  -- the cell and its group
  let x : Cell := ⟨e0 + i, v i, bad i, low i⟩
  have hx : x ∈ cells := List.mem_map.mpr ⟨i, List.mem_range.mpr hi, rfl⟩
  obtain ⟨g, hg, hxg⟩ := List.mem_flatten.mp (by rw [hflat]; exact hx)
  -- the outs
  let pw : Int := perWord fmt
  let codes (g : List Cell) : List (Nat × Nat) :=
    g.map (fun x => ((x.e % pw).toNat, (fmtOf fmt).encode (if fmt = 0 then none else u x.e) x.v))
  let outOf (g : List Cell) (c : Cell) : Out :=
    ⟨((base : Int) + c.e / pw).toNat, wordOf (mergeWord false (elemBits fmt) (readWord s sp ((base : Int) + c.e / pw).toNat).data (codes g))
        (g.any (·.bad)), maxExpOf ((codes g).map (fun k => (fmtOf fmt).decode k.2)), g.any (·.low),
      maskOf false (elemBits fmt) ((codes g).map (·.1))⟩
  have hels : wr.els = gs.filterMap (fun g => match g with | [] => none | c :: r => some (outOf (c :: r) c)) := by
    rw [hwr]
    refine congrArg (fun f => gs.filterMap f) (funext fun g => ?_)
    cases g <;> simp [outOf, codes, pw]
  have hpos : ∀ y ∈ cells, 0 ≤ (base : Int) + f y := by
    intro y hy
    obtain ⟨j, hj, rfl⟩ := hmem y hy
    exact ha j hj
  have hcell : ∀ g ∈ gs, ∀ y ∈ g, y ∈ cells := fun g hg y hy => by rw [← hflat]; exact List.mem_flatten.mpr ⟨g, hg, hy⟩
  have houts : wr.els.Pairwise (fun x y => x.a ≠ y.a) := by
    rw [hels, List.pairwise_filterMap]
    refine List.Pairwise.imp_of_mem ?_ hpair
    intro g h hgm hhm hlt o ho o' ho'
    cases g with
    | nil => cases ho
    | cons c r =>
      cases h with
      | nil => cases ho'
      | cons c' r' =>
        cases ho
        cases ho'
        have h1 := hlt c (by simp) c' (by simp)
        have h2 := hpos c (hcell _ hgm c (by simp))
        have h3 := hpos c' (hcell _ hhm c' (by simp))
        simp only [hfdef] at h1 h2 h3
        show ((base : Int) + c.e / perWord fmt).toNat ≠ ((base : Int) + c'.e / perWord fmt).toNat
        omega
  obtain ⟨c, r, rfl⟩ : ∃ c r, g = c :: r := by
    cases g with
    | nil => cases hxg
    | cons c r => exact ⟨c, r, rfl⟩
  have hfc : f c = f x := hsame _ hg c (by simp) x hxg
  have hmo : outOf (c :: r) c ∈ wr.els := by
    rw [hels]
    exact List.mem_filterMap.mpr ⟨c :: r, hg, rfl⟩
  have haddr : (outOf (c :: r) c).a = ((base : Int) + (e0 + i) / perWord fmt).toNat := by
    show ((base : Int) + f c).toNat = _
    rw [hfc]
  refine ⟨outOf (c :: r) c, ?_, ?_, ?_, ?_⟩
  · rw [← haddr]
    exact filter_unique houts hmo
  · have hk : ((e0 + (i : Int)) % perWord fmt).toNat < perWord fmt := by
      have h1 := Int.emod_lt_of_pos (e0 + i) hpw'
      have h2 := Int.emod_nonneg (e0 + i) (by omega : (perWord fmt : Int) ≠ 0)
      omega
    set k := ((e0 + (i : Int)) % perWord fmt).toNat with hkdef
    show elemOf (elemBits fmt) k (wordOf (mergeWord _ _ _ _) _).data = _
    simp only [wordOf, mergeWord]
    refine (elemOf_packWord _ _ k (by simpa [upTo, perWord] using hk) ?_).trans ?_
    · calc elemBits fmt * (k + 1) ≤ elemBits fmt * perWord fmt := Nat.mul_le_mul_left _ hk
        _ ≤ 256 := Nat.mul_div_le 256 _
    · congr 1
      rw [List.getElem_map]
      have hget : (upTo (256 / elemBits fmt))[k]'(by simpa [upTo, perWord] using hk) = k := by simp [upTo]
      rw [hget]
      have hfind : (codes (c :: r)).find? (fun e => decide (e.1 = k))
          = some (k, (fmtOf fmt).encode (if fmt = 0 then none else u (e0 + i)) (v i)) := by
        cases hfi : (codes (c :: r)).find? (fun e => decide (e.1 = k)) with
        | none =>
          exfalso
          rw [List.find?_eq_none] at hfi
          exact hfi ((x.e % pw).toNat, (fmtOf fmt).encode (if fmt = 0 then none else u x.e) x.v) (List.mem_map.mpr ⟨x, hxg, rfl⟩) (by simp [x, hkdef, pw])
        | some e =>
          have h1 := List.find?_some hfi
          obtain ⟨y, hy, rfl⟩ := List.mem_map.mp (List.mem_of_find?_eq_some hfi)
          simp only [decide_eq_true_eq] at h1
          have hfy : f y = f x := hsame _ hg y hy x hxg
          obtain ⟨j, hj, rfl⟩ := hmem y (hcell _ hg y hy)
          have hij : j = i := by
            have h2 := Int.emod_nonneg (e0 + j) (by omega : (perWord fmt : Int) ≠ 0)
            have h3 := Int.emod_nonneg (e0 + i) (by omega : (perWord fmt : Int) ≠ 0)
            have h4 : (e0 + (j : Int)) % perWord fmt = (e0 + i) % perWord fmt := by
              have h1' : ((e0 + (j : Int)) % perWord fmt).toNat = ((e0 + (i : Int)) % perWord fmt).toNat := h1
              omega
            have h5 : (e0 + (j : Int)) / perWord fmt = (e0 + i) / perWord fmt := hfy
            have h6 := Int.mul_ediv_add_emod (e0 + j) (perWord fmt)
            have h7 := Int.mul_ediv_add_emod (e0 + i) (perWord fmt)
            rw [h4, h5] at h6
            omega
          subst hij
          simp [hkdef, pw]
      rw [hfind]
  · have hk : ((e0 + (i : Int)) % perWord fmt).toNat < 256 / elemBits fmt := by
      have h1 := Int.emod_lt_of_pos (e0 + i) hpw'
      have h2 := Int.emod_nonneg (e0 + i) (by omega : (perWord fmt : Int) ≠ 0)
      show _ < perWord fmt
      omega
    have hmem : ((e0 + (i : Int)) % perWord fmt).toNat ∈ (codes (c :: r)).map (·.1) :=
      List.mem_map_of_mem (f := (·.1)) (List.mem_map_of_mem (f := fun x : Cell => ((x.e % pw).toNat,
        (fmtOf fmt).encode (if fmt = 0 then none else u x.e) x.v)) hxg)
    have hmask : (outOf (c :: r) c).mask = bytesOf (elemBits fmt) ((codes (c :: r)).map (·.1)) := rfl
    rw [hmask]
    exact bytesOf_covers (plain_bits hf) hmem hk
  · intro hb
    show isPoisoned (wordOf _ ((c :: r).any (·.bad))) = true
    have : (c :: r).any (·.bad) = true := List.any_eq_true.mpr ⟨x, hxg, hb⟩
    rw [this]
    simp [wordOf, isPoisoned]

end Sys2Proof.Machine
end

