-- ==== Sys2Proof/Laws/Vector.lean ====
section
/-! SUPPORT. The words a vector instruction reads and writes, and what its checks find. -/

namespace Sys2Proof.Machine

open Sys2Proof

set_option Elab.async false

/-- The reads of a vector instruction, then its writes, in order. -/
def vxRead (c : Core) (p : VxPlan) (rd s : State) : State :=
  p.ins.foldl (fun (s : State) (m : Strm) => if m.imm.isSome then s else (s.noteStrm c 5 m).consume rd c 5 (.cs c) (p.reads m)) s

def vxWrote (c : Core) (p : VxPlan) (rd s : State) : State :=
  ((vxRead c p rd s).emit (.cs c) p.out.fmt (bitsN p.d 437 422) p.wrote.els).emit (.cs c) 0xE (bitsN p.d 437 422) p.wrote.shs

theorem vxRead_writes (c : Core) (p : VxPlan) (rd s : State) :
    Writes [] ((p.ins.flatMap p.reads).map (place (.cs c))) s (vxRead c p rd s) := by
  refine Writes.foldl_reads (fun u m hm => ?_)
  split
  · exact Writes.refl _ _
  · refine (Writes.after_reads (rs := []) ((State.noteStrm_keeps (vs := [.stores, .tens, .counters, .fabric, .mgmt, .power, .fresh])
      (Keeps.refl _ _) (by decide)).writes) (writes_consume_cs _ rd c c 5 (p.reads m))).mono ?_
    intro x hx
    obtain ⟨a, ha, rfl⟩ := List.mem_map.mp (by simpa using hx)
    exact List.mem_map_of_mem (List.mem_flatMap.mpr ⟨m, hm, ha⟩)

/-- After the writes of a vector instruction nothing it does touches a word. -/
theorem vxRun_keeps_after (op : VxOp) (c : Core) (a : VxArgs) (p : VxPlan) (rd s : State) :
    Keeps [.busy, .stores, .tens, .counters, .fabric, .mgmt, .power, .upsets, .fresh] (vxWrote c p rd s) (vxRun op c a p rd s) := by
  unfold vxRun
  dsimp only
  split
  · exact State.romStrike_keeps (State.dupStrike_keeps (State.quantUntil_keeps (State.takeVx_keeps (State.chargeCore_keeps
      (State.countCore_keeps (State.report_keeps (State.noteStrm_keeps (Keeps.refl _ _) (by decide)) (by decide)) (by decide)) (by decide))
      (by decide)) (by decide)) (by decide)) (by decide)
  · exact State.dupStrike_keeps (State.quantUntil_keeps (State.takeVx_keeps (State.chargeCore_keeps
      (State.countCore_keeps (State.report_keeps (State.noteStrm_keeps (Keeps.refl _ _) (by decide)) (by decide)) (by decide)) (by decide))
      (by decide)) (by decide)) (by decide)

/-- A vector instruction takes the unit until its end. -/
theorem vxRun_busy (op : VxOp) (c : Core) (a : VxArgs) (p : VxPlan) (rd s : State) :
    look (vxRun op c a p rd s).cores.vxBusy 0 c.val = p.until op := by
  have strike : ∀ u : State, (if op.pipe then (u.dupStrike c false 5 0x140 a.desc.toNat).romStrike c false 5
      else u.dupStrike c false 5 0x140 a.desc.toNat).cores.vxBusy = u.cores.vxBusy := by
    intro u
    split
    · exact (State.romStrike_keeps (vs := [.tens, .counters, .fabric, .mgmt, .power, .upsets])
        (State.dupStrike_keeps (Keeps.refl _ _) (by decide)) (by decide)).eq_vxBusy
    · exact (State.dupStrike_keeps (vs := [.tens, .counters, .fabric, .mgmt, .power, .upsets]) (Keeps.refl _ _) (by decide)).eq_vxBusy
  unfold vxRun
  dsimp only
  rw [strike, State.quantUntil_vxBusy, State.takeVx_busy]

/-- The words a vector instruction writes, after those it reads. -/
theorem vxRun_writes (op : VxOp) (c : Core) (a : VxArgs) (p : VxPlan) (rd s : State) :
    Writes (inSpace (.cs c) p.outs) ((p.ins.flatMap p.reads).map (place (.cs c))) s (vxRun op c a p rd s) := by
  have h := (vxRead_writes c p rd s).after_reads ((writes_emit (vxRead c p rd s) (near_cs c) p.out.fmt (bitsN p.d 437 422) p.wrote.els).append
    (writes_emit _ (near_cs c) 0xE (bitsN p.d 437 422) p.wrote.shs))
  rw [← inSpace_append, List.append_nil] at h
  exact h.of_keeps (vxRun_keeps_after op c a p rd s)

/-- A stream written is no immediate, and lies as its descriptor says. -/
theorem openStrm_out {s : State} {c : Core} {d : BitVec 512} {k : Nat} {m : Strm} (h : openStrm s c d k true = .ok m) :
    m.imm = none ∧ m.diag = bitB d (strmAt k + 69) ∧ bitsN d (strmAt k + 23) (strmAt k + 22) = 0 := by
  unfold openStrm at h
  dsimp only at h
  split at h
  · obtain ⟨_, hn, h⟩ := bind_ok h
    have := need_ok hn
    simp at this
  · obtain ⟨_, h0, h⟩ := bind_ok h
    obtain ⟨_, -, h⟩ := bind_ok h
    obtain ⟨_, -, h⟩ := bind_ok h
    obtain ⟨_, -, h⟩ := bind_ok h
    obtain ⟨_, -, h⟩ := bind_ok h
    obtain ⟨_, -, h⟩ := bind_ok h
    obtain ⟨_, -, h⟩ := bind_ok h
    cases h
    exact ⟨rfl, rfl, by simpa using need_ok h0⟩

theorem bit_of_bits {n : Nat} {d : BitVec n} {k : Nat} (h : bitsN d (k + 1) k = 0) : bitB d k = false := by
  have h1 : bits d (k + 1) k = 0 := BitVec.eq_of_toNat_eq h
  have h2 := congrArg (fun w => BitVec.getLsbD w 0) h1
  simpa [bits, bitB, BitVec.getLsbD_extractLsb'] using h2

theorem rngOf_none {s : State} {c : Core} {b : Bool} {o : Nat} {rng : Nat → Option Nat} (h : rngOf s c b o = .ok rng) (hb : b = false) :
    ∀ j, rng j = none := by
  subst hb
  unfold rngOf at h
  cases h
  exact fun _ => rfl

/-- What the checks of a vector instruction find. -/
theorem vxPlan_ok {op : VxOp} {c : Core} {a : VxArgs} {rd : State} {p : VxPlan} (h : vxPlan op c a rd = .ok p) :
    p.out.diag = false ∧ (∀ i : Nat, i < p.n → 0 ≤ p.out.word (p.out.e0 + i)) ∧
    ∃ (u : Nat → Option Nat) (r : Nat → Option Nat), (p.out.stoch = false → ∀ i, u i = none) ∧
      p.wrote = vxWrite rd c p.out u (p.cells.map (·.1)) ∧
      (vxMeets p.ins p.out p.n = false → p.cells = (upTo p.n).map (fun i => vxCell op a.bf16 p.d p.out (r i) (vxIn rd c p.ins i) i)) := by
  unfold vxPlan at h
  obtain ⟨_, -, h⟩ := bind_ok h
  obtain ⟨_, -, h⟩ := bind_ok h
  obtain ⟨d, -, h⟩ := bind_ok h
  obtain ⟨_, -, h⟩ := bind_ok h
  obtain ⟨_, hd, h⟩ := bind_ok h
  obtain ⟨ins, -, h⟩ := bind_ok h
  obtain ⟨out, ho, h⟩ := bind_ok h
  obtain ⟨_, -, h⟩ := bind_ok h
  obtain ⟨ins', -, h⟩ := bind_ok h
  obtain ⟨out', ho', h⟩ := bind_ok h
  obtain ⟨himm, hdg, h0⟩ := openStrm_out ho
  have hdiag : out.diag = false := by
    rw [hdg]
    have := need_ok hd
    simp only [List.all_append, Bool.and_eq_true, List.all_cons, List.all_nil, Bool.or_eq_true, decide_eq_true_eq, h0, ne_eq,
      not_true_eq_false, false_or] at this
    exact bit_of_bits this.2.1
  obtain ⟨⟨sc, hsc⟩, hr⟩ := ready_ok ho'
  have h1 : out'.diag = false := by rw [hsc]; exact hdiag
  have h2 : ∀ i : Nat, i < zeroIs 4096 a.count * (if a.bf16 = true then 128 else 64) → 0 ≤ out'.word (out'.e0 + i) := by
    intro i hi
    have hw : out'.word (out'.e0 + i) = out.word (out.e0 + i) := by rw [hsc]; rfl
    rw [hw]
    exact (hr himm _ (List.mem_map.mpr ⟨i, List.mem_range.mpr hi, rfl⟩)).1
  clear hr hsc ho ho' himm hd hdg h0 hdiag
  cases hS : isShingled out'.fmt <;> simp only [hS, if_true, Bool.false_eq_true, if_false] at h
  · obtain ⟨rng, hrng, h⟩ := bind_ok h
    obtain ⟨drops, -, h⟩ := bind_ok h
    cases h
    refine ⟨h1, h2, ?_, ?_, ?hs, ?hw, ?hc⟩
    case hw => with_reducible exact rfl
    case hs => exact fun hs i => rngOf_none hrng hs _
    case hc => exact fun hm => (if_neg (by rw [hm]; simp)).trans (by with_reducible exact rfl)
  · obtain ⟨_, -, h⟩ := bind_ok h
    obtain ⟨rng, hrng, h⟩ := bind_ok h
    obtain ⟨drops, -, h⟩ := bind_ok h
    cases h
    refine ⟨h1, h2, ?_, ?_, ?hs, ?hw, ?hc⟩
    case hw => with_reducible exact rfl
    case hs => exact fun hs i => rngOf_none hrng hs _
    case hc => exact fun hm => (if_neg (by rw [hm]; simp)).trans (by with_reducible exact rfl)

end Sys2Proof.Machine
end

