-- ==== Sys2Proof/Tests/Slice0.lean ====
section
/-! SUPPORT. Witnesses: for each statement with hypotheses, a concrete state and operands that meet all of them; and an ill-formed
command for each check of WellFormed. -/

namespace Sys2Proof.Tests

open Sys2Proof Sys2Proof.Machine Sys2Proof.Claims

set_option Elab.async false

/-! ### Builders -/

/-- Fields at bit positions, as one number. -/
def fields (l : List (Nat × Nat)) : Nat := l.foldl (fun a x => a + x.2 * 2 ^ x.1) 0

/-- A job header from fields at byte positions: job 7, a box of 3 × 1 × 1 × 1 chips, ports 0 and 1 on axis D, a lead of 4 courses. -/
def header (l : List (Nat × Nat)) : BitVec 2048 :=
  BitVec.ofNat 2048 (fields (([(2, 7), (32, 4), (64, 3), (66, 1), (68, 1), (70, 1), (72, 9)] ++ l).map (fun (x : Nat × Nat) => (8 * x.1, x.2))))

/-- Tenancy 0: the whole grid and all ports, shares of stacks 0 and 1, and a partition of every store. -/
def tenancy : Tenancy where
  def_ := { exists_ := true, h := 8, ports := 0xFFFF, shares := [(0, (0, 1024)), (1, (0, 1024))],
            parts := [(0, (0, 1024)), (1, (0, 64)), (2, (0, 64)), (3, (0, 16)), (4, (0, 16)), (5, (0, 64)), (6, (0, 64)), (7, (0, 16))] }
  load := { st := .running, header := header [] }

/-- The chip at tick 100 of course 3, between courses of its job, with links, and tenancy 0 changed by `f`. -/
def chip (f : Tenancy → Tenancy) : State :=
  { State.reset with
    tens := [(0, f tenancy)]
    cores := { State.reset.cores with seqs := [(0, { base := 900 })] }
    time := { State.reset.time with tally := 49252, pll := .freeRun, lastCourse := some 3 }
    fabric := { State.reset.fabric with cfg := 0x20881F50000088B5, axes := 2, ports := (List.range 16).map (fun k => (k, { link := true, locked := true })) }
    board := { State.reset.board with stage := 0x0F, bootDone := true, por := true, perst := true, pcieUp := true } }

/-- The same with its job at position 100 of a schedule course; core 0's units stand at cycle 1,000. -/
def inRun (f : Tenancy → Tenancy) : State := chip (fun n => f { n with course := { n.course with inCourse := true, start := 49152 } })

/-- Room in the merge entries (12 R317), as a check. -/
def fits (s : State) : Bool :=
  s.cores.merges.all (fun x => decide ((s.cores.merges.filter (fun (y : Nat × MergeEntry) => y.1 / csWords = x.1 / csWords)).length ≤ 16)) &&
  s.hbm.merges.all (fun x => decide ((s.hbm.merges.filter (fun (y : Nat × MergeEntry) => y.1 / stackWords = x.1 / stackWords)).length ≤ 64))

theorem fits_of {s : State} (h : fits s = true) : s.mergesFit := by
  obtain ⟨h1, h2⟩ := Bool.and_eq_true_iff.mp h
  exact ⟨fun x hx => of_decide_eq_true (List.all_eq_true.mp h1 x hx), fun x hx => of_decide_eq_true (List.all_eq_true.mp h2 x hx)⟩

/-- A check that passes has a result with what it is asked. -/
def passing {α : Type} (r : Res α) (q : α → Bool) : Bool := match r with | .ok a => q a | .error _ => false

theorem of_passing {α : Type} {r : Res α} {q : α → Bool} (h : passing r q = true) : ∃ a, r = .ok a ∧ q a = true := by
  cases r with
  | ok a => exact ⟨a, rfl, h⟩
  | error e => exact absurd h (by simp [passing])

/-- A state with descriptor entries of core 0. -/
def withDesc (s : State) (l : List (Nat × Nat × Nat)) : State :=
  { s with cores := { s.cores with desc := l.map (fun x => (x.1, { kind := BitVec.ofNat 3 x.2.1, data := BitVec.ofNat 512 x.2.2 })) } }

/-- A frame to this chip on port 1, of job 7. -/
def frame (kind : BitVec 4) (src : BitVec 16) (chan : BitVec 12) (seq : BitVec 24) (payload : List MemWord) : Frame :=
  { ver := 1, kind, src, dst := 0, plane := 1, chan, ten := 0, hm := false, epoch := 0, seq, ack := 0, ackv := false, credit := 0, job := 7,
    port := 1, late := false, vlan := 0, pcp := 0, payload, hall := 0 }

/-- A clean word with fields at bit positions. -/
def word (l : List (Nat × Nat)) : MemWord := MemWord.clean (BitVec.ofNat 256 (fields l))

/-- The chip with its fabric changed. -/
def withFabric (f : Fabric → Fabric) (s : State) : State := { s with fabric := f s.fabric }

/-- The key of the flow from chip 1 on a channel. -/
def flow1 (ch : Nat) : Nat := 65536 * ch + 1

/-! ### Commands and steps -/

theorem witness_emptyQueue : ∃ s : State, s.pending = [] ∧ s.time.pll ≠ .off := ⟨chip id, rfl, by decide⟩

theorem witness_emptyQueue_off : ∃ s : State, s.pending = [] ∧ s.time.pll = .off := ⟨State.reset, rfl, rfl⟩

theorem witness_stepKeepsForm : ∃ s t : State, s.wf ∧ s.queueWf ∧ step s = .next t :=
  ⟨State.reset, State.reset, by unfold State.wf Cores.wf SpareStores.wf; decide, by unfold State.queueWf; decide, rfl⟩

/-! ### Vector unit and row engine -/

/-- `1 + 2` of immediates, 64 elements in FP32 at word 256. -/
def vxState : State := withDesc (inRun id) [(0, 2, fields [(0, 2), (24, 1), (96, 2), (218, 256), (290, 0x3F800000), (322, 0x40000000)])]

set_option maxRecDepth 100000 in
theorem witness_vector : ∃ x ∈ vectorRows, ∃ (c : Core) (a : VxArgs) (s s1 : State) (p : VxPlan), issues s c = true ∧
    vxPlan x.2 c a s = .ok p ∧ s.claimPorts c (p.ports x.2 a.bf16 s) = .ok s1 ∧ (vxRun x.2 c a p s s1).mergesFit ∧ isPlain p.out.fmt = true := by
  obtain ⟨p, hp, h⟩ := of_passing (r := vxPlan vAdd 0 ⟨0, 1, false⟩ vxState)
    (q := fun p => isPlain p.out.fmt && passing (vxState.claimPorts 0 (p.ports vAdd false vxState))
      (fun s1 => fits (vxRun vAdd 0 ⟨0, 1, false⟩ p vxState s1))) (by decide +kernel)
  obtain ⟨h2, h3⟩ := Bool.and_eq_true_iff.mp h
  obtain ⟨s1, h4, h5⟩ := of_passing h3
  exact ⟨(.add, vAdd), .head _, 0, ⟨0, 1, false⟩, vxState, s1, p, by decide +kernel, hp, h4, fits_of h5, h2⟩

/-- Row operations on an immediate: `RSMAX` of one row of 32 ones, in FP32, to word 256. -/
def rowState : State := withDesc (inRun id) [(0, 2, fields [(0, 2), (24, 1), (218, 256), (290, 0x3F800000)])]

set_option maxRecDepth 100000 in
theorem witness_row : ∃ x ∈ rowRows, ∃ (c : Core) (a : RowArgs) (s s1 : State) (p : RowPlan), issues s c = true ∧ x.2 c a s = .ok p ∧
    s.claimPorts c (p.ports c a s) = .ok s1 ∧ (rowRun c a p s s1).mergesFit ∧ p.res.2 = none := by
  obtain ⟨p, hp, h⟩ := of_passing (r := rsmaxPlan 0 ⟨0, 1, 1, 0⟩ rowState)
    (q := fun p => decide (p.res.2 = none) && passing (rowState.claimPorts 0 (p.ports 0 ⟨0, 1, 1, 0⟩ rowState))
      (fun s1 => fits (rowRun 0 ⟨0, 1, 1, 0⟩ p rowState s1))) (by decide +kernel)
  obtain ⟨h2, h3⟩ := Bool.and_eq_true_iff.mp h
  obtain ⟨s1, h4, h5⟩ := of_passing h3
  exact ⟨(.rsmax, rsmaxPlan), by simp [rowRows], 0, ⟨0, 1, 1, 0⟩, rowState, s1, p, by decide +kernel, hp, h4, fits_of h5, of_decide_eq_true h2⟩

set_option maxRecDepth 100000 in
theorem witness_columnSums : ∃ (c : Core) (a : RowArgs) (s s1 : State) (p : CsumPlan), issues s c = true ∧ rcsumPlan c a s = .ok p ∧
    s.claimPorts c (p.ports c a s) = .ok s1 ∧ (rcsumRun c a p s s1).mergesFit := by
  obtain ⟨p, hp, h⟩ := of_passing (r := rcsumPlan 0 ⟨0, 1, 1, 0⟩ rowState)
    (q := fun p => passing (rowState.claimPorts 0 (p.ports 0 ⟨0, 1, 1, 0⟩ rowState)) (fun s1 => fits (rcsumRun 0 ⟨0, 1, 1, 0⟩ p rowState s1)))
    (by decide +kernel)
  obtain ⟨s1, h4, h5⟩ := of_passing h
  exact ⟨0, ⟨0, 1, 1, 0⟩, rowState, s1, p, by decide +kernel, hp, h4, fits_of h5⟩

/-- The last group of core 0's purse filled, and a descriptor of its words. -/
def purseState : State :=
  { withDesc (inRun id) [(0, 2, fields [(0, 2), (2, 256), (218, 512), (454, 9)])] with
    cores := { (withDesc (inRun id) [(0, 2, fields [(0, 2), (2, 256), (218, 512), (454, 9)])]).cores with
      purse := (List.range 64).map (fun k => (4032 + k, { valid := true, tag := 9 })) } }

theorem witness_purseSpill : ∃ (c : Core) (desc : BitVec 10) (g n : BitVec 6) (s s1 : State) (p : SpillPlan), issues s c = true ∧
    pspillPlan c desc g n s = .ok p ∧ s.claimPorts c [.solid (unitClock s c + 1) (8 * zeroIs 64 n) 0 1] = .ok s1 := by
  obtain ⟨p, hp, _⟩ := of_passing (r := pspillPlan 0 0 63 1 purseState) (q := fun _ => true) (by decide +kernel)
  obtain ⟨s1, h, _⟩ := of_passing (r := purseState.claimPorts 0 [.solid (unitClock purseState 0 + 1) (8 * zeroIs 64 (1 : BitVec 6)) 0 1])
    (q := fun _ => true) (by decide +kernel)
  exact ⟨0, 0, 63, 1, purseState, s1, p, by decide +kernel, hp, h⟩

theorem witness_purseFill : ∃ (c : Core) (desc : BitVec 10) (g n : BitVec 6) (s s1 : State) (p : BitVec 512 × Nat), issues s c = true ∧
    pfillPlan c desc g n s = .ok p ∧ s.claimPorts c [.solid (unitClock s c + 1) (8 * zeroIs 64 n) 1 0] = .ok s1 := by
  obtain ⟨p, hp, _⟩ := of_passing (r := pfillPlan 0 0 0 0 purseState) (q := fun _ => true) (by decide +kernel)
  obtain ⟨s1, h, _⟩ := of_passing (r := purseState.claimPorts 0 [.solid (unitClock purseState 0 + 1) (8 * zeroIs 64 (0 : BitVec 6)) 1 0])
    (q := fun _ => true) (by decide +kernel)
  exact ⟨0, 0, 0, 0, purseState, s1, p, by decide +kernel, hp, h⟩

theorem witness_purseClear : ∃ (c : Core) (g n : BitVec 6) (s : State), issues s c = true ∧ look s.cores.rwBusy 0 c.val ≤ unitClock s c ∧
    g.toNat + zeroIs 64 n ≤ 64 := ⟨0, 63, 1, purseState, by decide +kernel, by decide +kernel, by decide +kernel⟩

/-! ### Matrix engines -/

theorem ok_of {α : Type} {r : Res α} (h : passing r (fun _ => true) = true) : ∃ a, r = .ok a := (of_passing h).imp (fun _ h => h.1)

theorem mapM_isOk {α β : Type} {f : α → Res β} {l : List α} (h : ∀ a ∈ l, ∃ b, f a = .ok b) : ∃ ys, l.mapM f = .ok ys := by
  induction l with
  | nil => exact ⟨[], rfl⟩
  | cons a l ih =>
    obtain ⟨b, hb⟩ := h a (.head _)
    obtain ⟨ys, hy⟩ := ih (fun x hx => h x (.tail _ hx))
    exact ⟨b :: ys, by simp [List.mapM_cons, hb, hy, bind, Except.bind, pure, Except.pure]⟩

theorem flatMapM_isOk {α β : Type} {f : α → Res (List β)} {l : List α} (h : ∀ a ∈ l, ∃ b, f a = .ok b) : ∃ ys, l.flatMapM f = .ok ys := by
  have go : ∀ acc : List (List β), ∃ ys, List.flatMapM.loop f l acc = .ok ys := by
    induction l with
    | nil => exact fun acc => ⟨_, rfl⟩
    | cons a l ih =>
      intro acc
      obtain ⟨b, hb⟩ := h a (.head _)
      obtain ⟨ys, hy⟩ := ih (fun x hx => h x (.tail _ hx)) (b :: acc)
      exact ⟨ys, by simp [List.flatMapM.loop, hb, hy, bind, Except.bind]⟩
  exact go []

theorem foldlM_isOk {α β : Type} {f : β → α → Res β} {l : List α} (h : ∀ a ∈ l, ∀ x, ∃ b, f x a = .ok b) : ∀ x, ∃ y, l.foldlM f x = .ok y := by
  induction l with
  | nil => exact fun x => ⟨x, rfl⟩
  | cons a l ih =>
    intro x
    obtain ⟨b, hb⟩ := h a (.head _) x
    obtain ⟨y, hy⟩ := ih (fun z hz => h z (.tail _ hz)) b
    exact ⟨y, by simp [List.foldlM_cons, hb, hy, bind, Except.bind]⟩

theorem bind_isOk {α β : Type} {r : Res α} {f : α → Res β} (h : ∃ a, r = .ok a) (hf : ∀ a, ∃ b, f a = .ok b) : ∃ b, (r >>= f) = .ok b := by
  obtain ⟨a, rfl⟩ := h
  exact hf a

/-- The operands of a product can be read. -/
def workOk (s : State) (c : Core) (p : Prod) (q : Option (Core × Prod)) : Bool :=
  p.blocks.zipIdx.all (fun b =>
    (upTo p.m).all (fun r =>
      let f := castFrom c p q b.2
      passing (prodP s f.1 f.2 (nth f.2.rows (0, 0) r).1 (f.2.kTile (nth f.2.blocks b.1 b.2)).1) (fun _ => true)) &&
    p.openTiles.all (fun x => passing (prodQ s c p (p.kTile b.1).1 x.2.1 x.2.2) (fun _ => true)))

theorem prodWork_ok {s : State} {c : Core} {p : Prod} {q : Option (Core × Prod)} (qs : List QWords) (h : workOk s c p q = true) :
    ∃ v, prodWork s c p q qs = .ok v := by
  have h1 : ∀ b ∈ p.blocks.zipIdx, ∀ r ∈ upTo p.m, ∃ v, prodP s (castFrom c p q b.2).1 (castFrom c p q b.2).2
      (nth (castFrom c p q b.2).2.rows (0, 0) r).1 ((castFrom c p q b.2).2.kTile (nth (castFrom c p q b.2).2.blocks b.1 b.2)).1 = .ok v :=
    fun b hb r hr => ok_of (List.all_eq_true.mp (Bool.and_eq_true_iff.mp (List.all_eq_true.mp h b hb)).1 r hr)
  have h2 : ∀ b ∈ p.blocks.zipIdx, ∀ x ∈ p.openTiles, ∃ v, prodQ s c p (p.kTile b.1).1 x.2.1 x.2.2 = .ok v :=
    fun b hb x hx => ok_of (List.all_eq_true.mp (Bool.and_eq_true_iff.mp (List.all_eq_true.mp h b hb)).2 x hx)
  have hi : ∀ x : Nat × Nat × Nat, ∀ i ∈ upTo 128, (128 * x.2.2 + i) / 128 = x.2.2 := fun x i hi => by
    have : i < 128 := by simpa [upTo] using hi
    omega
  refine bind_isOk (foldlM_isOk (fun b hb n => foldlM_isOk (fun r hr n => bind_isOk (h1 b hb r hr) (fun v => ⟨_, rfl⟩)) n) 0) (fun n =>
    bind_isOk (flatMapM_isOk (fun x hx => flatMapM_isOk (fun r hr => mapM_isOk (fun i hi' => bind_isOk ?_ (fun a => ⟨_, rfl⟩))))) (fun cells => ⟨_, rfl⟩))
  refine bind_isOk (foldlM_isOk (fun b hb acc => bind_isOk (h1 b hb r hr) (fun v => bind_isOk ?_ (fun w => ⟨_, rfl⟩))) _) (fun a => ⟨_, rfl⟩)
  rw [hi x i hi']
  exact h2 b hb x hx

/-- Core 0 with BF16 tiles of zeros at words 0 (P) and 1,024 (Q), and descriptors. -/
def mxState (l : List (Nat × Nat × Nat)) : State :=
  { withDesc (inRun id) l with
    cores := { (withDesc (inRun id) l).cores with
      hall := (List.range 16).map (fun k => (k, (⟨mkHall crcZeroBlock 0 1 false false false 0, .clean⟩ : Cell64))) } }

/-- An `MRUN` of 8 rows and one K-block on engine 0. -/
def runDesc : Nat := fields [(0, 0), (4, 1), (8, 1), (12, 1), (18, 1), (19, 1), (54, 1), (229, 0), (348, 1024)]

def runState : State := mxState [(0, 1, runDesc)]

set_option maxRecDepth 100000 in
theorem witness_run : ∃ (c : Core) (s : State) (desc : BitVec 10) (d : BitVec 512) (p : Prod) (o : ProdOps) (v : ProdVals) (s1 : State),
    issues s c = true ∧
    let r := s.strikeAccs c
    let now := unitClock r c
    let s0 := runFirst r c p
    latchForm r c desc 1 [0] = .ok d ∧ prepare r c d 0 (bound r c d 229 true) (bound r c d 348 false) = .ok p ∧ runPlan c p r = .ok o ∧
    r.claimPorts c (prodPorts r p now (loadStart r c p.engs now) s0) = .ok s1 ∧ p.paired = false ∧ prodWork r c p none o.qs = .ok v := by
  obtain ⟨d, hd, h⟩ := of_passing (r := latchForm (runState.strikeAccs 0) 0 0 1 [0])
    (q := fun d => passing (prepare (runState.strikeAccs 0) 0 d 0 (bound (runState.strikeAccs 0) 0 d 229 true) (bound (runState.strikeAccs 0) 0 d 348 false)) (fun p =>
      passing (runPlan 0 p (runState.strikeAccs 0)) (fun _ => true) &&
      passing ((runState.strikeAccs 0).claimPorts 0 (prodPorts (runState.strikeAccs 0) p (unitClock (runState.strikeAccs 0) 0)
        (loadStart (runState.strikeAccs 0) 0 p.engs (unitClock (runState.strikeAccs 0) 0)) (runFirst (runState.strikeAccs 0) 0 p))) (fun _ => true) &&
      !p.paired && workOk (runState.strikeAccs 0) 0 p none)) (by decide +kernel)
  obtain ⟨p, hp, h⟩ := of_passing h
  simp only [Bool.and_eq_true] at h
  obtain ⟨⟨⟨h1, h2⟩, h3⟩, h4⟩ := h
  obtain ⟨o, ho⟩ := ok_of h1
  obtain ⟨s1, hs⟩ := ok_of h2
  obtain ⟨v, hv⟩ := prodWork_ok o.qs h4
  exact ⟨0, runState, 0, d, p, o, v, s1, by decide +kernel, hd, hp, ho, hs, by simpa using h3, hv⟩

/-- Two products of 128 rows on engine 0, for `MALT`. -/
def altDesc : Nat := fields [(0, 0), (4, 1), (8, 1), (12, 1), (18, 1), (19, 16), (54, 1), (229, 0), (348, 1024)]

def altState : State := mxState [(0, 1, altDesc), (1, 1, altDesc)]

/-- What `MALT` asks of its descriptors after they are latched. -/
def altMet (r : State) (d0 d1 : BitVec 512) : Bool :=
  let now := unitClock r 0
  altFits d0 d1 && passing (prepare r 0 d0 0 (bound r 0 d0 229 true) (bound r 0 d0 348 false)) (fun p0 =>
    passing (prepare r 0 d1 1 (bound r 0 d1 229 true) (bound r 0 d1 348 false)) (fun p1 =>
      passing (altPlan 0 p0 p1 r) (fun _ => true) && workOk r 0 p0 none && workOk r 0 p1 none &&
      passing (r.claimPorts 0 (altPorts r p0 p1 now (loadStart r 0 p0.engs now) (firstVector r 0 p0.engs now))) (fun _ => true)))

set_option maxRecDepth 1000000 in
theorem witness_alternate : ∃ (c : Core) (s : State) (desc0 desc1 : BitVec 10) (d0 d1 : BitVec 512) (p0 p1 : Prod) (o : ProdOps × ProdOps)
    (v0 v1 : ProdVals) (s1 : State), issues s c = true ∧
    let r := s.strikeAccs c
    let now := unitClock r c
    let s0 := firstVector r c p0.engs now
    latchForm r c desc0 1 [0] = .ok d0 ∧ latchForm r c desc1 1 [0] = .ok d1 ∧ altFits d0 d1 = true ∧
    prepare r c d0 0 (bound r c d0 229 true) (bound r c d0 348 false) = .ok p0 ∧
    prepare r c d1 1 (bound r c d1 229 true) (bound r c d1 348 false) = .ok p1 ∧ altPlan c p0 p1 r = .ok o ∧
    prodWork r c p0 none o.1.qs = .ok v0 ∧ prodWork r c p1 none o.2.qs = .ok v1 ∧
    r.claimPorts c (altPorts r p0 p1 now (loadStart r c p0.engs now) s0) = .ok s1 := by
  obtain ⟨d0, hd0, h⟩ := of_passing (r := latchForm (altState.strikeAccs 0) 0 0 1 [0])
    (q := fun d0 => passing (latchForm (altState.strikeAccs 0) 0 1 1 [0]) (fun d1 => altMet (altState.strikeAccs 0) d0 d1)) (by decide +kernel)
  obtain ⟨d1, hd1, h⟩ := of_passing h
  obtain ⟨h1, h⟩ := Bool.and_eq_true_iff.mp h
  obtain ⟨p0, hp0, h⟩ := of_passing h
  obtain ⟨p1, hp1, h⟩ := of_passing h
  simp only [Bool.and_eq_true] at h
  obtain ⟨⟨⟨h2, h3⟩, h4⟩, h5⟩ := h
  obtain ⟨o, ho⟩ := ok_of h2
  obtain ⟨v0, hv0⟩ := prodWork_ok o.1.qs h3
  obtain ⟨v1, hv1⟩ := prodWork_ok o.2.qs h4
  obtain ⟨s1, hs⟩ := ok_of h5
  exact ⟨0, altState, 0, 1, d0, d1, p0, p1, o, v0, v1, s1, by decide +kernel, hd0, hd1, h1, hp0, hp1, ho, hv0, hv1, hs⟩

/-- A paired 1:4 product of SF4 zeros, 8 rows and one span of K-blocks, on engine 0. -/
def pairDesc : Nat := fields [(4, 1), (8, 3), (12, 3), (16, 2), (18, 1), (19, 1), (54, 4), (93, 1), (100, 1), (209, 1280), (247, 1024), (348, 512), (366, 1152)]

/-- Cores 0 and 1 with that descriptor and its operands; `ps` are the halves that wait. -/
def pairState (ps : Sparse PairWait) : State :=
  let s := inRun id
  let h (k : Nat) (b : Nat × Nat) : Nat × Cell64 := (2048 * k + b.1, ⟨mkHall crcZeroBlock 0 (b.2) false false false 0, .clean⟩)
  let hs := [(0, 3), (1, 3), (4, 3), (8, 14), (9, 14), (10, 15)]
  { s with
    cores := { s.cores with
      seqs := [(0, { base := 900 }), (1, { base := 900 })]
      desc := [(0, { kind := 1, data := BitVec.ofNat 512 pairDesc }), (1024, { kind := 1, data := BitVec.ofNat 512 pairDesc })]
      hall := hs.map (h 0) ++ hs.map (h 1)
      pairs := ps }
    stores := { s.stores with regions := [(0, BitVec.ofNat _ (2 ^ 24))] } }

/-- The first vector of either. -/
def pairFirst : Nat := 1128

/-- What a half of a pair asks of core 1's descriptor once it is latched, with `q` of it. -/
def pairMet (r : State) (d : BitVec 512) (q : Prod → ProdOps → State → Bool) : Bool :=
  passing (prepare r 1 d 0 (bound r 1 d 229 true) (bound r 1 d 348 false)) (fun p =>
    passing (runPlan 1 p r) (fun o =>
      passing (r.claimPorts 1 (prodPorts r p (unitClock r 1) (loadStart r 1 p.engs (unitClock r 1)) (runFirst r 1 p))) (fun s1 =>
        p.paired && q p o s1)))

/-- The first of a pair to issue. -/
def pairFirstState : State := pairState []

set_option maxRecDepth 1000000 in
theorem witness_pairFirst : ∃ (c : Core) (s : State) (desc : BitVec 10) (d : BitVec 512) (p : Prod) (o : ProdOps) (s1 : State),
    issues s c = true ∧
    let r := s.strikeAccs c
    let now := unitClock r c
    let s0 := runFirst r c p
    let e := partnerOf c
    latchForm r c desc 1 [0] = .ok d ∧ prepare r c d 0 (bound r c d 229 true) (bound r c d 348 false) = .ok p ∧ runPlan c p r = .ok o ∧
    r.claimPorts c (prodPorts r p now (loadStart r c p.engs now) s0) = .ok s1 ∧ p.paired = true ∧ find r.cores.pairs e.val = none := by
  obtain ⟨d, hd, h⟩ := of_passing (r := latchForm (pairFirstState.strikeAccs 1) 1 0 1 [0])
    (q := fun d => pairMet (pairFirstState.strikeAccs 1) d (fun _ _ _ => true)) (by decide +kernel)
  obtain ⟨p, hp, h⟩ := of_passing h
  obtain ⟨o, ho, h⟩ := of_passing h
  obtain ⟨s1, hs, h⟩ := of_passing h
  obtain ⟨h1, _⟩ := Bool.and_eq_true_iff.mp h
  exact ⟨1, pairFirstState, 0, d, p, o, s1, by decide +kernel, hd, hp, ho, hs, h1, by decide +kernel⟩

/-- Core 0 waits for core 1. -/
def pairWait : PairWait := ⟨pairFirst, BitVec.ofNat 512 pairDesc, 0, 0, 0, 0⟩
def pairSecondState : State := pairState [(0, pairWait)]

/-- What the two products of a pair ask. -/
def bothMet (r : State) (p : Prod) (s1 : State) : Bool :=
  decide ((pairWait.first : Int) + unitClock r 1 = (runFirst r 1 p : Int) + unitClock r 0) && pairAgree p pairWait.desc &&
  passing (prepare r 0 pairWait.desc 0 0 0) (fun p2 => passing (prodOps r 0 p2) (fun _ => true) &&
    workOk r 1 p (some (0, p2)) && workOk r 0 p2 (some (1, p)) && (meshHits s1 (pairLinks r 1 p (runFirst r 1 p) ++ pairLinks r 0 p2 pairWait.first)).isEmpty)

set_option maxRecDepth 1000000 in
theorem witness_pairSecond : ∃ (c : Core) (s : State) (desc : BitVec 10) (d : BitVec 512) (p : Prod) (o : ProdOps) (s1 : State)
    (q : PairWait) (p2 : Prod) (o2 : ProdOps) (v v2 : ProdVals), issues s c = true ∧
    let r := s.strikeAccs c
    let now := unitClock r c
    let s0 := runFirst r c p
    let e := partnerOf c
    latchForm r c desc 1 [0] = .ok d ∧ prepare r c d 0 (bound r c d 229 true) (bound r c d 348 false) = .ok p ∧ runPlan c p r = .ok o ∧
    r.claimPorts c (prodPorts r p now (loadStart r c p.engs now) s0) = .ok s1 ∧ p.paired = true ∧ find r.cores.pairs e.val = some q ∧
    (q.first : Int) + unitClock r c = (s0 : Int) + unitClock r e ∧ pairAgree p q.desc = true ∧
    prepare r e q.desc 0 q.x q.xq = .ok p2 ∧ prodOps r e p2 = .ok o2 ∧ prodWork r c p (some (e, p2)) o.qs = .ok v ∧
    prodWork r e p2 (some (c, p)) o2.qs = .ok v2 ∧ meshHits s1 (pairLinks r c p s0 ++ pairLinks r e p2 q.first) = [] := by
  obtain ⟨d, hd, h⟩ := of_passing (r := latchForm (pairSecondState.strikeAccs 1) 1 0 1 [0])
    (q := fun d => pairMet (pairSecondState.strikeAccs 1) d (fun p _ s1 => bothMet (pairSecondState.strikeAccs 1) p s1)) (by decide +kernel)
  obtain ⟨p, hp, h⟩ := of_passing h
  obtain ⟨o, ho, h⟩ := of_passing h
  obtain ⟨s1, hs, h⟩ := of_passing h
  obtain ⟨h1, h⟩ := Bool.and_eq_true_iff.mp h
  unfold bothMet at h
  simp only [Bool.and_eq_true] at h
  obtain ⟨⟨h2, h3⟩, h⟩ := h
  obtain ⟨p2, hp2, h⟩ := of_passing h
  simp only [Bool.and_eq_true] at h
  obtain ⟨⟨⟨h4, h5⟩, h6⟩, h7⟩ := h
  obtain ⟨o2, ho2⟩ := ok_of h4
  obtain ⟨v, hv⟩ := prodWork_ok o.qs h5
  obtain ⟨v2, hv2⟩ := prodWork_ok o2.qs h6
  exact ⟨1, pairSecondState, 0, d, p, o, s1, pairWait, p2, o2, v, v2, by decide +kernel, hd, hp, ho, hs, h1, by decide +kernel,
    of_decide_eq_true h2, h3, hp2, ho2, hv, hv2, List.isEmpty_iff.mp h7⟩

/-- Descriptors: entry 2 a preload of FP32 tiles at word 0 into engine 3, entry 3 a drain of 8 rows of engine 3 in FP32 to word 4,096, entry 5 its row map. -/
def preState : State :=
  let s := withDesc (inRun id) [(2, 1, fields [(0, 2), (2, 8), (6, 1), (25, 4000), (256, 0)]), (3, 1, fields [(0, 1), (2, 8), (6, 1), (12, 3), (32, 2), (34, 5), (256, 4096)]), (5, 4, 2 ^ 512 - 256)]
  { s with cores := { s.cores with hall := (List.range 16).map (fun k => (k, (⟨mkHall crcZeroBlock 0 0 false false false 0, .clean⟩ : Cell64))) } }

set_option maxRecDepth 1000000 in
theorem witness_preload : ∃ (c : Core) (desc : BitVec 10) (s : State) (d : BitVec 512) (p : PrePlan) (s1 : State), issues s c = true ∧
    let r := s.strikeAccs c
    latchForm r c desc 1 [2] = .ok d ∧ prePlan c d r = .ok p ∧
    r.claimPorts c [.solid (unitClock r c + 1) (512 * p.halves) ((if p.part then 16 else 4) * p.engs.length) 0] = .ok s1 := by
  obtain ⟨d, hd, h⟩ := of_passing (r := latchForm (preState.strikeAccs 0) 0 2 1 [2]) (q := fun d =>
    passing (prePlan 0 d (preState.strikeAccs 0)) (fun p => passing ((preState.strikeAccs 0).claimPorts 0
      [.solid (unitClock (preState.strikeAccs 0) 0 + 1) (512 * p.halves) ((if p.part then 16 else 4) * p.engs.length) 0]) (fun _ => true)))
    (by decide +kernel)
  obtain ⟨p, hp, h⟩ := of_passing h
  obtain ⟨s1, h1⟩ := ok_of h
  exact ⟨0, 2, preState, d, p, s1, by decide +kernel, hd, hp, h1⟩

theorem witness_release : ∃ (c : Core) (desc : BitVec 10) (s : State) (d : BitVec 512) (bank : Bool), issues s c = true ∧
    let r := s.strikeAccs c
    latchForm r c desc 1 [0, 1, 2] = .ok d ∧ formCheck d = true ∧ setOf (formSet d) ≠ [] ∧
    ∀ e ∈ setOf (formSet d), inFlight (r.engine c e) (if bank then 1 else 0) (unitClock r c) = false := by
  obtain ⟨d, hd, h⟩ := of_passing (r := latchForm (preState.strikeAccs 0) 0 2 1 [0, 1, 2])
    (q := fun d => formCheck d && decide (setOf (formSet d) ≠ []) &&
      (setOf (formSet d)).all (fun e => !inFlight ((preState.strikeAccs 0).engine 0 e) 1 (unitClock (preState.strikeAccs 0) 0))) (by decide +kernel)
  simp only [Bool.and_eq_true] at h
  obtain ⟨⟨h1, h2⟩, h3⟩ := h
  refine ⟨0, 2, preState, d, true, by decide +kernel, hd, h1, of_decide_eq_true h2, fun e he => ?_⟩
  simpa using List.all_eq_true.mp h3 e he

set_option maxRecDepth 1000000 in
theorem witness_drain : ∃ (c : Core) (desc : BitVec 10) (bank release : Bool) (s s1 : State) (d : BitVec 512) (x : DrainPlan), issues s c = true ∧
    let r := s.strikeAccs c
    let b := if bank then 1 else 0
    latchForm r c desc 1 [1] = .ok d ∧ drainPlan c d b r = .ok x ∧ r.claimPorts c (x.ports r c) = .ok s1 ∧
    (drainRun c desc b release x r s1).mergesFit := by
  obtain ⟨d, hd, h⟩ := of_passing (r := latchForm (preState.strikeAccs 0) 0 3 1 [1]) (q := fun d =>
    passing (drainPlan 0 d 0 (preState.strikeAccs 0)) (fun x => passing ((preState.strikeAccs 0).claimPorts 0 (x.ports (preState.strikeAccs 0) 0)) (fun s1 =>
      fits (drainRun 0 3 0 false x (preState.strikeAccs 0) s1)))) (by decide +kernel)
  obtain ⟨x, hx, h⟩ := of_passing h
  obtain ⟨s1, h1, h⟩ := of_passing h
  exact ⟨0, 3, false, false, preState, s1, d, x, by decide +kernel, hd, hx, h1, fits_of h⟩

/-! ### Haul unit -/

/-- Moves of 4 FP32 words: entry 0 within core 0's store, entry 1 from HBM to it, entry 2 from it to HBM. -/
def moveState : State :=
  let s := withDesc (inRun id) [(0, 2, fields [(6, 4), (320, 4096)]), (1, 2, fields [(2, 1), (6, 4), (320, 4096)]), (2, 2, fields [(4, 1), (6, 4)])]
  let h := mkHall crcZeroBlock 0 0 false false false 0
  { s with cores := { s.cores with hall := [(0, ⟨h, .clean⟩)] }
           hbm := { s.hbm with words := [(hallWord 0, wordOf (h.setWidth 256) false)] } }

/-- A stash of one block of BF16 words of core 0's store to HBM. -/
def stashState : State :=
  let s := withDesc (inRun id) [(0, 2, fields [(4, 1), (6, 4), (30, 1), (34, 1), (44, 1), (169, 512), (203, 600)])]
  { s with cores := { s.cores with hall := [(0, ⟨mkHall crcZeroBlock 0 1 false false false 0, .clean⟩)] } }

/-- What a move at rate 8 on channel 3 asks, with `q` of its plan. -/
def moveMet (s : State) (desc : BitVec 10) (q : MovePlan → Bool) : Bool :=
  passing (hmovePlan 0 desc 3 8 s) (fun p =>
    q p && (match p.stash with | some st => !st.short | none => true) &&
    passing (s.claimPorts 0 (p.portRuns (unitClock s 0) 8 (moveLat s (bitsN p.m.d 3 2) p.conv))) (fun s1 =>
      passing (s1.claimSlots 0 3 (p.slots 8)) (fun s2 => fits (moveRun 0 3 8 p s s2))))

/-- The hypotheses of a move hold, with `q` of its plan. -/
def MoveRuns (q : MovePlan → Bool) : Prop :=
  ∃ (c : Core) (desc : BitVec 10) (ch rate : BitVec 2) (s s1 s2 : State) (p : MovePlan), issues s c = true ∧
    let r := 2 ^ rate.toNat
    let use := p.portRuns (unitClock s c) r (moveLat s (bitsN p.m.d 3 2) p.conv)
    hmovePlan c desc ch r s = .ok p ∧ s.claimPorts c use = .ok s1 ∧ s1.claimSlots c ch.toNat (p.slots r) = .ok s2 ∧
    (moveRun c ch r p s s2).mergesFit ∧ (∀ st, p.stash = some st → st.short = false) ∧ nothingKept s ∧ q p = true

theorem moveRuns_of (s : State) (desc : BitVec 10) (q : MovePlan → Bool) (hi : issues s 0 = true) (hk : nothingKept s)
    (h : moveMet s desc q = true) : MoveRuns q := by
  obtain ⟨p, hp, h⟩ := of_passing h
  simp only [Bool.and_eq_true] at h
  obtain ⟨⟨h1, h2⟩, h3⟩ := h
  obtain ⟨s1, hs1, h4⟩ := of_passing h3
  obtain ⟨s2, hs2, h5⟩ := of_passing h4
  refine ⟨0, desc, 3, 3, s, s1, s2, p, hi, hp, hs1, hs2, fits_of h5, fun st hst => ?_, hk, h1⟩
  simpa [hst] using h2

theorem moveKept : nothingKept moveState := fun n => by cases n <;> rfl

set_option maxRecDepth 1000000 in
theorem witness_moveWithin : MoveRuns (fun p => p.stash.isNone && decide (bitsN p.m.d 3 2 ≠ 1 ∧ p.m.dsp ≠ .hbm)) :=
  moveRuns_of moveState 0 _ (by decide +kernel) moveKept (by decide +kernel)

set_option maxRecDepth 1000000 in
theorem witness_moveFromHbm : MoveRuns (fun p => p.stash.isNone && decide (bitsN p.m.d 3 2 = 1 ∧ p.m.dsp ≠ .hbm)) :=
  moveRuns_of moveState 1 _ (by decide +kernel) moveKept (by decide +kernel)

set_option maxRecDepth 1000000 in
theorem witness_moveToHbm : MoveRuns (fun p => p.stash.isNone && decide (bitsN p.m.d 3 2 ≠ 1 ∧ p.m.dsp = .hbm)) :=
  moveRuns_of moveState 2 _ (by decide +kernel) moveKept (by decide +kernel)

theorem stashKept : nothingKept stashState := fun n => by cases n <;> rfl

set_option maxRecDepth 1000000 in
theorem witness_stash : MoveRuns (fun p => p.stash.isSome && decide (bitsN p.m.d 45 44 = 1)) :=
  moveRuns_of stashState 0 _ (by decide +kernel) stashKept (by decide +kernel)

/-- Gathers and scatters of one row of 128 FP32 elements, with its list at word 512 of core 0's store: entry 0 within the store, entry 1 from
HBM. -/
def gathState : State :=
  let s := withDesc (inRun id) [(0, 2, fields [(0, 1), (10, 128), (28, 512), (86, 4), (320, 4096)]), (1, 2, fields [(0, 1), (6, 1), (10, 128), (28, 512), (86, 4), (320, 4096)])]
  { s with cores := { s.cores with cs := [(512, wordOf 0x80000000 false)], hall := [(0, ⟨mkHall crcZeroBlock 0 0 false false false 0, .clean⟩)] }
           hbm := { s.hbm with words := [(hallWord 0, wordOf ((mkHall crcZeroBlock 0 0 false false false 0).setWidth 256) false)] } }

def GathRuns (scat : Bool) (q : GathPlan → Bool) : Prop :=
  ∃ (c : Core) (desc : BitVec 10) (ch : BitVec 2) (n : BitVec 13) (s s1 s2 : State) (p : GathPlan), issues s c = true ∧
    gathPlan c scat desc ch n s = .ok p ∧ p.r.fault = none ∧ s.claimPorts c (p.ports s c n.toNat) = .ok s1 ∧
    s1.claimSlots c ch.toNat (p.r.reqs.map (fun x => (unitClock s c + 1 + x.1, x.2))) = .ok s2 ∧
    (gathRun c ch n.toNat p s s2).mergesFit ∧ nothingKept s ∧ q p = true

def gathOk (scat : Bool) (desc : BitVec 10) (q : GathPlan → Bool) : Bool :=
  passing (gathPlan 0 scat desc 3 1 gathState) (fun p => p.r.fault.isNone && q p &&
    passing (gathState.claimPorts 0 (p.ports gathState 0 (1 : BitVec 13).toNat)) (fun s1 =>
      passing (s1.claimSlots 0 (3 : BitVec 2).toNat (p.r.reqs.map (fun (x : Nat × Nat) => (unitClock gathState 0 + 1 + x.1, x.2)))) (fun s2 =>
        fits (gathRun 0 3 (1 : BitVec 13).toNat p gathState s2))))

theorem gathRuns_of (scat : Bool) (desc : BitVec 10) (q : GathPlan → Bool) (h : gathOk scat desc q = true) : GathRuns scat q := by
  obtain ⟨p, hp, h⟩ := of_passing h
  obtain ⟨h1, h2⟩ := Bool.and_eq_true_iff.mp h
  obtain ⟨h3, h4⟩ := Bool.and_eq_true_iff.mp h1
  obtain ⟨s1, hs1, h5⟩ := of_passing h2
  obtain ⟨s2, hs2, h6⟩ := of_passing h5
  exact ⟨0, desc, 3, 1, gathState, s1, s2, p, by decide +kernel, hp, by simpa using h3, hs1, hs2, fits_of h6, fun n => by cases n <;> rfl, h4⟩

set_option maxRecDepth 1000000 in
theorem witness_gatherWithin : GathRuns false (fun p => decide (p.g.ssp ≠ 1 ∧ spaceOf 0 p.g.dsp ≠ .hbm ∧ p.r.rows = 1)) :=
  gathRuns_of false 0 _ (by decide +kernel)

set_option maxRecDepth 1000000 in
theorem witness_gatherFromHbm : GathRuns false (fun p => decide (p.g.ssp = 1 ∧ spaceOf 0 p.g.dsp ≠ .hbm ∧ p.r.rows = 1)) :=
  gathRuns_of false 1 _ (by decide +kernel)

set_option maxRecDepth 1000000 in
theorem witness_scatter : GathRuns true (fun p => decide (p.g.ssp ≠ 1 ∧ spaceOf 0 p.g.dsp ≠ .hbm ∧ p.r.rows = 1)) :=
  gathRuns_of true 0 _ (by decide +kernel)

/-- A mesh transfer of 4 words (entry 0), a page refill from HBM (entry 1) and a dispatch of unique rows (entry 2). -/
def meshState : State := withDesc (inRun id) [(0, 2, fields [(34, 0xF), (30, 0xF), (320, 4096)]), (1, 2, fields [(2, 1)]),
  (2, 3, fields [(0, 1), (28, 1), (41, 0), (59, 1024), (77, 2048), (95, 4096), (113, 4)])]

theorem witness_mesh : ∃ (c : Core) (desc : BitVec 10) (ch : BitVec 2) (x y : BitVec 3) (count : BitVec 16) (s s1 s2 : State) (p : MeshPlan),
    issues s c = true ∧ hmeshPlan c desc ch x y count s = .ok p ∧ meshHits s p.uses = [] ∧
    s.claimPorts c [.solid (unitClock s c + 1) (ceilDiv p.n 16) (min p.n 16) 0] = .ok s1 ∧
    s1.claimPorts p.dst [.solid (unitClock s p.dst + 1 + (meshBase s + p.uses.length * meshHop s)) (ceilDiv p.n 16) 0 (min p.n 16)] = .ok s2 := by
  have h : passing (hmeshPlan 0 0 3 1 1 4 meshState) (fun p =>
      (meshHits meshState p.uses).isEmpty &&
      passing (meshState.claimPorts 0 [.solid (unitClock meshState 0 + 1) (ceilDiv p.n 16) (min p.n 16) 0]) (fun s1 =>
        passing (s1.claimPorts p.dst [.solid (unitClock meshState p.dst + 1 + (meshBase meshState + p.uses.length * meshHop meshState))
          (ceilDiv p.n 16) 0 (min p.n 16)]) (fun _ => true))) = true := by decide +kernel
  obtain ⟨p, hp, h⟩ := of_passing h
  obtain ⟨h1, h2⟩ := Bool.and_eq_true_iff.mp h
  obtain ⟨s1, hs1, h5⟩ := of_passing h2
  obtain ⟨s2, hs2, _⟩ := of_passing h5
  exact ⟨0, 0, 3, 1, 1, 4, meshState, s1, s2, p, by decide +kernel, hp, by simpa using h1, hs1, hs2⟩

theorem witness_page : ∃ (c : Core) (s : State) (desc : BitVec 10) (ch : BitVec 2) (page : BitVec 3) (tag : BitVec 8) (sb : Nat) (s1 : State),
    issues s c = true ∧ hpagePlan c desc ch page tag s = .ok sb ∧ s.claimSlots c ch.toNat (pageRequests (unitClock s c) sb) = .ok s1 := by
  have h : passing (hpagePlan 0 1 3 7 1 meshState) (fun sb =>
      passing (meshState.claimSlots 0 (3 : BitVec 2).toNat (pageRequests (unitClock meshState 0) sb)) (fun _ => true)) = true := by decide +kernel
  obtain ⟨p, hp, h⟩ := of_passing h
  obtain ⟨s1, hs1, _⟩ := of_passing h
  exact ⟨0, meshState, 1, 3, 7, 1, p, s1, by decide +kernel, hp, hs1⟩

theorem witness_descriptor : ∃ (c : Core) (s : State) (e : BitVec 10) (ch : BitVec 2) (addr : BitVec 18) (kind : BitVec 3) (a : Nat) (s1 : State),
    issues s c = true ∧ hdescPlan c e ch addr kind s = .ok a ∧ s.claimPorts c [.solid (unitClock s c + 1) 2 1 0] = .ok s1 := by
  have h : passing (hdescPlan 0 1023 3 100 3 meshState) (fun _ =>
      passing (meshState.claimPorts 0 [.solid (unitClock meshState 0 + 1) 2 1 0]) (fun _ => true)) = true := by decide +kernel
  obtain ⟨p, hp, h⟩ := of_passing h
  obtain ⟨s1, hs1, _⟩ := of_passing h
  exact ⟨0, meshState, 1023, 3, 100, 3, p, s1, by decide +kernel, hp, hs1⟩

set_option maxRecDepth 1000000 in
theorem witness_dispatch : ∃ (c : Core) (s : State) (desc : BitVec 10) (p : DispPlan) (s1 : State), issues s c = true ∧
    hdspPlan c desc s = .ok p ∧ s.claimPorts c p.ports = .ok s1 ∧ (dispRun c p s s1).mergesFit := by
  have h : passing (hdspPlan 0 2 meshState) (fun p => passing (meshState.claimPorts 0 p.ports) (fun s1 => fits (dispRun 0 p meshState s1))) = true := by
    decide +kernel
  obtain ⟨p, hp, h⟩ := of_passing h
  obtain ⟨s1, hs1, h1⟩ := of_passing h
  exact ⟨0, meshState, 2, p, s1, by decide +kernel, hp, hs1, fits_of h1⟩

/-- Words on their way on channels 0, 1 and 2 of core 0, one to the last word of its store, its mailbox and its program store, that land in
cycle `n`. -/
def readsAt (n : Nat) (s : State) : State :=
  { s with cores := { s.cores with reads := [(0, [{ landsAt := n, target := 0, dst := csWords - 1, word := wordOf 5 false }]),
      (1, [{ landsAt := n, target := 1, dst := 16383, word := wordOf 5 false }]),
      (2, [{ landsAt := n, target := 2, dst := 8191, word := wordOf 5 false, tag := some 7 }])] } }

/-- Whether a word lands: its cycle has come, or the schedule comes to it in the course that runs. -/
def isDue (c : Core) (s : State) (r : ReadInFlight) : Prop :=
  r.landsAt ≤ unitClock s c ∨ (advancing s (tenNo s c) = true ∧ (seqOf s c).ended = false ∧
    tallyAt s (tenNo s c) (r.landsAt - unitClock s c) / 16384 ≤ s.time.lastCourse.getD 0)

/-- A word on its way, with `q` of it. -/
def Reads (q : Core → State → ReadInFlight → Prop) : Prop :=
  ∃ (c : Core) (ch : BitVec 2) (s : State) (r : ReadInFlight) (rest : List ReadInFlight), look s.cores.reads [] (chKey c ch.toNat) = r :: rest ∧ q c s r

theorem witness_readNow : ∀ k ∈ [0, 1, 2], Reads (fun c s r => stopped s c = false ∧ isDue c s r ∧ r.landsAt ≤ unitClock s c ∧ r.target = k) := by
  intro k hk
  unfold isDue
  fin_cases hk
  · exact ⟨0, 0, readsAt 1000 (inRun id), _, _, rfl, by decide +kernel⟩
  · exact ⟨0, 1, readsAt 1000 (inRun id), _, _, rfl, by decide +kernel⟩
  · exact ⟨0, 2, readsAt 1000 (inRun id), _, _, rfl, by decide +kernel⟩

theorem witness_readAhead : Reads (fun c s r => stopped s c = false ∧ isDue c s r ∧ ¬ r.landsAt ≤ unitClock s c) := by
  unfold isDue
  exact ⟨0, 2, readsAt 1001 (inRun id), _, _, rfl, by decide +kernel⟩

theorem witness_readNotDue : Reads (fun c s r => stopped s c = false ∧ ¬ isDue c s r) := by
  unfold isDue
  exact ⟨0, 0, readsAt 1001 (chip id), _, _, rfl, by decide +kernel⟩

theorem witness_readStopped : Reads (fun c s _ => stopped s c = true) :=
  ⟨0, 0, readsAt 1001 (inRun (fun n => { n with course := { n.course with stopped := true } })), _, _, rfl, by decide +kernel⟩

/-! ### Sequencer -/

/-- Core 0's sequencer at `q`, in a course that runs. -/
def seqState (q : Seq) : State :=
  let s := inRun id
  { s with cores := { s.cores with seqs := [(0, q)] } }

theorem witness_loopRepeats : ∃ (c : Core) (s : State) (f : LoopFrame) (outer : List LoopFrame), (seqOf s c).loops = outer ++ [f] ∧
    (seqOf s c).bundle + 1 = f.stop ∧ f.first ≤ 1023 ∧ f.index + 1 < f.trips :=
  ⟨0, seqState { bundle := 1023, loops := [⟨2, 1024, 9, 1⟩, ⟨1023, 1024, 2, 0⟩] }, ⟨1023, 1024, 2, 0⟩, [⟨2, 1024, 9, 1⟩], by decide +kernel⟩

theorem witness_loop : ∃ (c : Core) (s : State) (n : BitVec 17) (l : BitVec 10), issues s c = true ∧ n ≠ 0 ∧ n.toNat ≤ 65536 ∧ l ≠ 0 ∧
    (seqOf s c).bundle + 1 + l.toNat ≤ 1024 ∧ (seqOf s c).loops.length < 4 ∧
    (∀ f ∈ (seqOf s c).loops.getLast?, (seqOf s c).bundle + 1 + l.toNat ≤ f.stop) ∧ (seqOf s c).loops.length = 3 :=
  ⟨0, seqState { bundle := 0, loops := [⟨0, 1024, 9, 1⟩, ⟨0, 1024, 9, 1⟩, ⟨0, 1024, 9, 1⟩] }, 65536, 1023, by decide +kernel⟩

theorem witness_pjump : ∃ (c : Core) (s : State) (page : BitVec 3) (tag : BitVec 8), issues s c = true ∧ (seqOf s c).loops = [] ∧
    pageTag s c page = tag := ⟨0, seqState {}, 7, 0, by decide +kernel⟩

theorem witness_cend : ∃ (c : Core) (s : State), issues s c = true ∧ (seqOf s c).loops = [] ∧ (seqOf s c).ret = none :=
  ⟨0, seqState {}, by decide +kernel⟩

/-- Core 0 before a fallback check, with its job in cautious mode where `on` says so and in a vote. -/
def checkState (on : Bool) (v : Option Vote) : State :=
  let s := inRun (fun n => { n with steps := { n.steps with cautOn := on, cautious := n.steps.step }, vote := v })
  { s with cores := { s.cores with seqs := [(0, { bundle := 1022 })], guard := [0] } }

/-- The hypotheses of a fallback check, with `q` of its core's tenancy. -/
def Checks (on : Bool) (q : Tenancy → Nat → Bool) : Prop :=
  ∃ (c : Core) (s : State), issues s c = true ∧ (seqOf s c).loops = [] ∧ (seqOf s c).ret = none ∧ (seqOf s c).bundle < 1023 ∧
    cautious s (tenNo s c) = on ∧ pageTag s c 3 = 0 ∧
    q (s.ten (tenNo s c)) ((s.ten (tenNo s c)).course.start + schedPos s (tenNo s c)) = true

theorem witness_checkPassed : Checks false (fun _ _ => true) := ⟨0, checkState false none, by decide +kernel⟩
theorem witness_checkVotes : Checks true (fun n _ => n.vote.isNone) := ⟨0, checkState true none, by decide +kernel⟩
theorem witness_checkJoins : Checks true (fun n _ => n.vote.any (fun v => v.check = 9 && !v.done)) :=
  ⟨0, checkState true (some { check := 9 }), by decide +kernel⟩
theorem witness_checkGoesOn : Checks true (fun n pos => n.vote.any (fun v => v.check = 9 && v.done && v.at' = pos && !v.any)) :=
  ⟨0, checkState true (some { check := 9, done := true, at' := 49252 }), by decide +kernel⟩
theorem witness_checkBranches : Checks true (fun n pos => n.vote.any (fun v => v.check = 9 && v.done && v.at' = pos && v.any)) :=
  ⟨0, checkState true (some { check := 9, done := true, any := true, at' := 49252 }), by decide +kernel⟩

theorem witness_fbret : ∃ (c : Core) (s : State) (r : BitVec 3 × Nat), issues s c = true ∧ (seqOf s c).loops = [] ∧ (seqOf s c).ret = some r :=
  ⟨0, seqState { ret := some (1, 1023) }, _, by decide +kernel, rfl, rfl⟩

theorem witness_close : ∃ (c : Core) (s : State) (take : BitVec 4), issues s c = true ∧ take ≠ 0 ∧ (seqOf s c).loops = [] ∧
    (seqOf s c).ret = none ∧ (s.ten (tenNo s c)).close.cut = false := ⟨0, seqState {}, 15, by decide +kernel⟩

theorem witness_closeAgain : ∃ (c : Core) (s : State) (take : BitVec 4), issues s c = true ∧ take ≠ 0 ∧ (seqOf s c).loops = [] ∧
    (seqOf s c).ret = none ∧ (s.ten (tenNo s c)).close.cut = true ∧ (s.ten (tenNo s c)).close.at' = s.now :=
  ⟨0, inRun (fun n => { n with close := { n.close with cut := true, at' := 49252 } }), 1, by decide +kernel⟩

/-- Core 0 at a bundle with no slot filled, whose offset of 1 puts it at position `n` of the schedule. -/
def bundleAt (n : Nat) : State :=
  let s := seqState { bundle := 1022, lastPos := n }
  { s with cores := { s.cores with prog := [(1022, wordOf 1 false)] } }

theorem witness_bundleNow : ∃ (c : Core) (s : State) (t : Nat), tenOf s c = some t ∧ issues s c = true ∧ emptyBundle s c ∧
    nextPos s c = schedPos s t := by
  unfold emptyBundle
  refine ⟨0, bundleAt 100, 0, ?_⟩
  decide +kernel

theorem witness_bundleAhead : ∃ (c : Core) (s : State) (t : Nat), tenOf s c = some t ∧
    let pos := nextPos s c
    let v := tallyAt s t (pos - schedPos s t)
    issues s c = true ∧ emptyBundle s c ∧ schedPos s t < pos ∧ advancing s t = true ∧ v / 16384 ≤ s.time.lastCourse.getD 0 ∧
      s.time.pll ≠ .off ∧ s.now ≤ v ∧ v < 2 ^ 64 ∧ dueCycles s = [] ∧ s.cores.merges = [] ∧ s.hbm.merges = [] := by
  unfold emptyBundle
  refine ⟨0, bundleAt 101, 0, ?_⟩
  decide +kernel

theorem witness_bundleNone : ∃ (c : Core) (s : State) (t : Nat), tenOf s c = some t ∧ issues s c = false ∧ stopping s c = false :=
  ⟨0, chip id, 0, by decide +kernel⟩

theorem witness_bundleNotAdvancing : ∃ (c : Core) (s : State) (t : Nat), tenOf s c = some t ∧ schedPos s t < nextPos s c ∧ advancing s t = false := by
  refine ⟨0, { bundleAt 101 with tens := [(0, let n := (bundleAt 101).ten 0; { n with course := { n.course with stalls := [.vote 0] } })] }, 0, ?_⟩
  decide +kernel

theorem witness_bundleBeyond : ∃ (c : Core) (s : State) (t : Nat), tenOf s c = some t ∧ schedPos s t < nextPos s c ∧
    s.time.lastCourse.getD 0 < tallyAt s t (nextPos s c - schedPos s t) / 16384 :=
  ⟨0, bundleAt 16384, 0, by decide +kernel⟩

/-- A fault of a slot of core 0. -/
def Faults (q : State → Core → Nat → Bool) : Prop :=
  ∃ (c : Core) (code detail t : Nat) (f : State → State → Res State) (s : State), tenOf s c = some t ∧ f s s = .error (.fault code detail) ∧
    q s c t = true

theorem witness_faultFirst : Faults (fun s c t => issues s c && !(s.ten t).fault.getLsbD 63) :=
  ⟨0, 0x14, 0, 0, fun _ _ => .error (.fault 0x14 0), inRun id, by decide +kernel, rfl, by decide +kernel⟩

/-- In the cycle in which its tenancy stops, with fault 0x15 in the register. -/
theorem witness_faultStopping : Faults (fun s c t => stopping s c && (s.ten t).fault.getLsbD 63 && decide ((s.ten t).faultAt = s.time.tally)) :=
  ⟨0, 0x14, 0, 0, fun _ _ => .error (.fault 0x14 0), inRun (fun n => { n with
    course := { n.course with stopped := true, stopCyc := 49252 }, fault := 2 ^ 63 + 0x15, faultAt := 49252 }), by decide +kernel, rfl, by decide +kernel⟩

theorem witness_faultNone : Faults (fun s c _ => !issues s c && !stopping s c) :=
  ⟨0, 0x14, 0, 0, fun _ _ => .error (.fault 0x14 0), chip id, by decide +kernel, rfl, by decide +kernel⟩

/-! ### Frames, channels and collectives -/

theorem witness_noLink : ∃ (p : Port) (s : State), (portOf s p).link = false := ⟨0, State.reset, by decide +kernel⟩

theorem witness_badHeader : ∀ x ∈ frameRows, ∃ (p : Port) (f : Frame) (s : State), (portOf s p).link = true ∧ (badHeaderOf f || x.2 f) = true := by
  intro x _
  exact ⟨1, { frame 10 1 4095 0 [] with ver := 2 }, chip id, by decide +kernel, rfl⟩

theorem witness_notMine : ∃ (p : Port) (f : Frame) (s : State), (portOf s p).link = true ∧ (badHeaderOf f || collBad f) = false ∧ f.dst.toNat ≠ myId s :=
  ⟨1, { frame 8 1 5 0 (List.replicate 65 MemWord.zero) with dst := 1 }, chip id, by decide +kernel⟩

theorem witness_pastEpoch : ∃ (p : Port) (f : Frame) (s : State), (portOf s p).link = true ∧ (badHeaderOf f || f.kind ≠ 0) = false ∧
    f.dst.toNat = myId s ∧ f.plane.toNat = p.val ∧ f.epoch < (s.ten f.ten.toNat).recov.epoch :=
  ⟨1, frame 0 1 5 0 [], chip (fun n => { n with recov := { n.recov with epoch := 1 } }), by decide +kernel⟩

theorem witness_epochToCome : ∃ (p : Port) (f : Frame) (s : State), (portOf s p).link = true ∧ (badHeaderOf f || f.kind ≠ 0) = false ∧
    f.dst.toNat = myId s ∧ f.plane.toNat = p.val ∧ (s.ten f.ten.toNat).recov.epoch < f.epoch :=
  ⟨1, { frame 0 1 5 0 [] with epoch := 1 }, chip id, by decide +kernel⟩

theorem witness_otherJob : ∃ (p : Port) (f : Frame) (s : State), (portOf s p).link = true ∧ (badHeaderOf f || f.kind ≠ 0) = false ∧
    f.dst.toNat = myId s ∧ f.plane.toNat = p.val ∧ f.epoch = (s.ten f.ten.toNat).recov.epoch ∧ jobMatches s f = false :=
  ⟨1, { frame 0 1 5 0 [] with job := 8 }, chip id, by decide +kernel⟩

/-- A frame of the control flow whose flow stands at a frame expected and at a NAK that has, or has not, gone. -/
def OrderMet (q : BitVec 24 → Bool → Bool) : Prop :=
  ∃ (p : Port) (f : Frame) (s : State), passes p f s ∧ ctlBad 5 1 f = false ∧ inBox s f.ten.toNat f.src.toNat = true ∧ f.src.toNat ≠ myId s ∧
    q (f.seq - (flowOf s f).expected) (flowOf s f).nakSent = true

def orderState (e : BitVec 24) (nak : Bool) : State :=
  withFabric (fun k => { k with recvs := [(flow1 4095, { expected := e, nakSent := nak })] }) (chip id)

theorem witness_before : OrderMet (fun d _ => decide (2 ^ 23 ≤ d.toNat)) := by
  unfold OrderMet passes
  exact ⟨1, frame 5 1 4095 0 [MemWord.zero], orderState 0x800000 false, by decide +kernel⟩

theorem witness_afterNak : OrderMet (fun d n => decide (d ≠ 0) && decide (d.toNat < 2 ^ 23) && n) := by
  unfold OrderMet passes
  exact ⟨1, frame 5 1 4095 0 [MemWord.zero], orderState 0xFFFFFF true, by decide +kernel⟩

theorem witness_afterNoNak : OrderMet (fun d n => decide (d ≠ 0) && decide (d.toNat < 2 ^ 23) && !n) := by
  unfold OrderMet passes
  exact ⟨1, frame 5 1 4095 0x7FFFFF [MemWord.zero], orderState 0 false, by decide +kernel⟩

/-- Channel 5 of core 0: parcels of 4 words and hallmark-less, 2 send and 2 receive slots at words 0 and 100 of the mailbox, 2 credits, to chip 1 and from it. -/
def record : BitVec 128 := BitVec.ofNat 128 (fields [(6, 1), (8, 4), (16, 2), (24, 2), (46, 100), (60, 2), (70, 1), (84, 1), (96, 1)])

def chanState (k : ChanSt) (g : Fabric → Fabric) : State :=
  withFabric (fun x => g { x with records := [(5, record)], chans := [(5, k)] }) (inRun id)

/-- The hypotheses of a send that hold with `q` of the staged slots and the credit. -/
def SendMet (q : List Nat → Nat → Bool) : Prop :=
  ∃ (c : Core) (chan : Chan) (axis : BitVec 2) (peer : BitVec 12) (s : State), issues s c = true ∧
    let n := tenNo s c
    let ch := chan.toNat
    let r := chanRec s n ch
    peer ≠ 0 ∧ recValid r = true ∧ chanCore s n r = c.val ∧ recSaxis r = axis.toNat ∧ recSoff r = peer.toInt ∧
    peer.toInt.natAbs < boxN s n axis.toNat ∧ recSslots r ≠ 0 ∧ collOf s n ch = none ∧ q (stagedRing s n ch) (creditOf s n ch) = true

theorem witness_sendNone : SendMet (fun l _ => l.isEmpty) := by
  refine ⟨0, 5, 0, 1, chanState {} id, ?_⟩
  decide +kernel

theorem witness_sendAll : SendMet (fun l n => decide (l.length = 2 ∧ n = 2)) := by
  refine ⟨0, 5, 0, 1, chanState { staged := [1, 0] } id, ?_⟩
  decide +kernel

theorem witness_sendShort : SendMet (fun l n => decide (l.length = 2 ∧ n = 1)) := by
  refine ⟨0, 5, 0, 1, chanState { staged := [0, 1], spent := 1 } id, ?_⟩
  decide +kernel

theorem witness_waitChannel : ∃ (c : Core) (chan : Chan) (count : BitVec 16) (s : State), issues s c = true ∧
    recValid (chanRec s (tenNo s c) chan.toNat) = true ∧ chanCore s (tenNo s c) (chanRec s (tenNo s c) chan.toNat) = c.val ∧ count ≠ 0 ∧
    collOf s (tenNo s c) chan.toNat = none ∧ count.toNat ≤ recRslots (chanRec s (tenNo s c) chan.toNat) :=
  ⟨0, 5, 2, chanState {} id, by decide +kernel⟩

theorem witness_waitCollective : ∃ (c : Core) (chan : Chan) (count : BitVec 16) (s : State) (g : Coll), issues s c = true ∧
    recValid (chanRec s (tenNo s c) chan.toNat) = true ∧ chanCore s (tenNo s c) (chanRec s (tenNo s c) chan.toNat) = c.val ∧ count = 1 ∧
    collOf s (tenNo s c) chan.toNat = some g :=
  ⟨0, 5, 1, chanState {} (fun k => { k with colls := [(5, {})] }), {}, by decide +kernel⟩

/-- Core 0 with the descriptor of a collective of one block. -/
def collState : State :=
  withFabric (fun x => { x with records := [(5, record)] }) (withDesc (inRun id) [(0, 2, fields [(6, 128), (30, 15), (34, 15), (320, 4096)])])

set_option maxRecDepth 1000000 in
theorem witness_collective : ∃ (c : Core) (chan : Chan) (axis : BitVec 2) (op : BitVec 4) (desc : BitVec 10) (s : State) (k : Coll),
    issues s c = true ∧ fcollPlan c chan axis op desc s = .ok k ∧ (chanOf s (tenNo s c) chan.toNat).early = [] := by
  have h : passing (fcollPlan 0 5 0 2 0 collState) (fun _ => true) = true := by decide +kernel
  obtain ⟨k, hk, _⟩ := of_passing h
  exact ⟨0, 5, 0, 2, 0, collState, k, by decide +kernel, hk, by decide +kernel⟩

/-- A collective of one block on channel 5 among chips 0 to 2, changed by `f`. -/
def collChip (f : Coll → Coll) : State := chanState {} (fun k => { k with colls := [(5, f { op := 0, n := 3, count := 128, known := [0, 1] })] })

theorem witness_completes : ∃ (n : Ten) (chan : Chan) (s : State) (k : Coll), chan.toNat ≠ 4094 ∧ collOf s n.val chan.toNat = some k ∧
    k.ready = true ∧ k.done = false ∧ ¬ (k.op = 0 ∧ k.cautious = true ∧ k.redo = false ∧ (upTo k.blocks).any (fun b => (look k.res {} b).ovf) = true) :=
  ⟨0, 5, collChip id, _, by decide +kernel, rfl, by decide +kernel⟩

theorem witness_secondPass : ∃ (n : Ten) (chan : Chan) (s : State) (k : Coll), chan.toNat ≠ 4094 ∧ collOf s n.val chan.toNat = some k ∧
    k.ready = true ∧ k.done = false ∧ (k.op = 0 ∧ k.cautious = true ∧ k.redo = false ∧ (upTo k.blocks).any (fun b => (look k.res {} b).ovf) = true) ∧
    (chanOf s n.val chan.toNat).early = [] :=
  ⟨0, 5, collChip (fun k => { k with cautious := true, res := [(0, { ovf := true })] }), _, by decide +kernel, rfl, by decide +kernel⟩

theorem witness_noCollective : ∃ (n : Ten) (chan : Chan) (s : State), chan.toNat ≠ 4094 ∧
    (∀ k, collOf s n.val chan.toNat = some k → k.ready = false ∨ k.done = true) :=
  ⟨0, 5, chip id, by decide, fun k h => by cases h⟩

theorem witness_mergePass : ∃ (n : Ten) (s : State) (k : Coll) (ax : BitVec 2), collOf s n.val 4094 = some k ∧ k.ready = true ∧ k.done = false ∧
    (s.ten n.val).close.passes = [ax] ∧ (s.ten n.val).close.due = false := by
  refine ⟨0, withFabric (fun x => { x with colls := [(4094, { op := 4, n := 3, count := 128, known := [0, 1] })] })
    (chip (fun n => { n with close := { n.close with passes := [0] } })), { op := 4, n := 3, count := 128, known := [0, 1] }, 0, ?_⟩
  decide +kernel

/-- A parcel of 4 words from chip 1, for a tenancy that runs or that is stopped. -/
def ParcelMet (stopped : Bool) : Prop :=
  ∃ (p : Port) (f : Frame) (s : State), passes p f s ∧ f.seq = (flowOf s f).expected ∧ f.kind = 0 ∧
    recValid (chanRec s f.ten.toNat f.chan.toNat) = true ∧ recRslots (chanRec s f.ten.toNat f.chan.toNat) ≠ 0 ∧
    recvPeer s f.ten.toNat (chanRec s f.ten.toNat f.chan.toNat) = f.src.toNat ∧ (s.ten f.ten.toNat).course.stopped = stopped

def parcelState (stopped : Bool) : State :=
  withFabric (fun x => { x with records := [(5, record)] }) (chip (fun n => { n with course := { n.course with stopped := stopped } }))

theorem witness_parcel : ParcelMet false := by
  unfold ParcelMet passes
  exact ⟨1, frame 0 1 5 0 [word [(0, 1)], word [(0, 2)], word [(0, 3)], word [(0, 4)]], parcelState false, by decide +kernel⟩

theorem witness_parcelStopped : ParcelMet true := by
  unfold ParcelMet passes
  exact ⟨1, frame 0 1 5 0 [], parcelState true, by decide +kernel⟩

theorem witness_collEarly : ∃ (p : Port) (f : Frame) (s : State), passes p f s ∧ f.seq = (flowOf s f).expected ∧ collBad f = false ∧
    collPeer s f.ten.toNat f.chan.toNat f.src.toNat = true ∧ (s.ten f.ten.toNat).course.stopped = false ∧ collOf s f.ten.toNat f.chan.toNat = none := by
  unfold passes
  exact ⟨1, frame 8 1 5 0 (List.replicate 65 MemWord.zero), parcelState false, by decide +kernel⟩

/-- A collective parcel of one phase. -/
def CollMet (gather : Bool) : Prop :=
  ∃ (p : Port) (f : Frame) (s : State) (k : Coll), passes p f s ∧ f.seq = (flowOf s f).expected ∧ collBad f = false ∧
    let n := f.ten.toNat
    let ch := f.chan.toNat
    let h := first f
    collOf s n ch = some k ∧
    collPeer s n ch f.src.toNat = true ∧ (s.ten n).course.stopped = false ∧ bits h 92 61 = k.number ∧ bitB h 60 = k.redo ∧ bits h 3 0 = k.op ∧
    bits h 5 4 = k.width ∧ bitsN h 116 93 = k.count ∧ k.sends (bitB h 11) (relCoord s n f.src.toNat k.axis.toNat) (k.shareOf (bitsN h 31 12)) = true ∧
    (k.op = 0 ∨ k.op = 1 → bitsS h 49 34 = look k.anchors 0 (bitsN h 31 12)) ∧ Upset.adder ∉ s.upsets ∧ bitB h 11 = gather

/-- Chip 2 sends chip 0 of 3: in the gather phase share 1, in the reduce phase share 0. -/
theorem witness_collGather : CollMet true := by
  unfold CollMet passes
  refine ⟨1, frame 8 2 5 0 (word [(0, 2), (11, 1), (12, 1), (93, 128)] :: List.replicate 64 MemWord.zero), chanState {} (fun k =>
    { k with colls := [(5, { op := 2, n := 3, count := 128 })] }), { op := 2, n := 3, count := 128 }, ?_⟩
  decide +kernel

theorem witness_collReduce : CollMet false := by
  unfold CollMet passes
  refine ⟨1, frame 8 2 5 0 (word [(93, 384)] :: List.replicate 64 MemWord.zero), chanState {} (fun k =>
    { k with colls := [(5, { op := 0, n := 3, count := 384 })] }), { op := 0, n := 3, count := 384 }, ?_⟩
  decide +kernel

/-- The flow to chip 1 of channel 5 with two frames not yet acknowledged. -/
def heldFlow : SendFlow := { next := 2, held := [⟨0, .slot 0, 0⟩, ⟨1, .slot 1, 0⟩] }
def heldState : State := chanState {} (fun k => { k with sends := [(flow1 5, heldFlow)] })

theorem witness_ack : ∃ (p : Port) (f : Frame) (s : State), passes p f s ∧ f.kind = 1 ∧ f.payload = [] ∧
    flowPeerOk s f.ten.toNat f.chan.toNat f.src.toNat = true ∧ ∃ o r k,
      (sendOf s f.ten.toNat f.chan.toNat f.src.toNat).held = o :: r ∧ k = (f.ack - o.seq).toNat ∧ k ≠ 0 ∧ k ≤ (o :: r).length ∧
      f.ackv = true ∧ f.credit = 0 := by
  unfold passes
  exact ⟨1, { frame 1 1 5 0 [] with ack := 2, ackv := true }, heldState, by decide +kernel, rfl, rfl, by decide +kernel,
    ⟨0, .slot 0, 0⟩, [⟨1, .slot 1, 0⟩], 2, by decide +kernel⟩

theorem witness_nak : ∃ (p : Port) (f : Frame) (s : State), passes p f s ∧ f.kind = 2 ∧ f.payload = [] ∧
    flowPeerOk s f.ten.toNat f.chan.toNat f.src.toNat = true ∧ ∃ o r k,
      (sendOf s f.ten.toNat f.chan.toNat f.src.toNat).held = o :: r ∧ k = (f.ack - o.seq).toNat ∧ k ≤ r.length := by
  unfold passes
  exact ⟨1, { frame 2 1 5 0 [] with ack := 1, ackv := true }, heldState, by decide +kernel, rfl, rfl, by decide +kernel,
    ⟨0, .slot 0, 0⟩, [⟨1, .slot 1, 0⟩], 1, by decide +kernel⟩

theorem witness_retry : ∃ (n : Ten) (chan : Chan) (s : State) (peer : Nat) (fl : SendFlow), oldestFlow s n.val chan.toNat = some (peer, fl) ∧
    fl.timeouts + 1 < retryMax s ∧ fl.onPort + 1 < retryPort s ∧ s.time.pll ≠ .off ∧ s.now ≤ 49252 + retryTicks s ∧ fl.advanced = 49252 := by
  refine ⟨0, 5, withFabric (fun k => { k with sends := [(flow1 5, { heldFlow with timeouts := 14, onPort := 2, advanced := 49252 })] }) heldState, 1,
    { heldFlow with timeouts := 14, onPort := 2, advanced := 49252 }, ?_⟩
  decide +kernel

/-! ### Ports, tally and probes -/

theorem witness_frameOnPort : ∃ (p : Port) (s : State), (portOf s p).link = true ∧ s.fabric.cfgBad = false ∧ bitB s.fabric.cfg 63 = false :=
  ⟨15, chip id, by decide +kernel⟩

theorem witness_badConfig : ∃ s : State, s.fabric.cfgBad = true := ⟨withFabric (fun k => { k with cfgBad := true }) (chip id), rfl⟩

/-- Port 0 without link since the last millisecond. -/
def downState (f : SendFlow) : State :=
  withFabric (fun k => { k with ports := set k.ports 0 { lost := some 49252 }, records := [(5, record)], sends := [(flow1 5, f)] }) (chip id)

theorem witness_portDown : ∃ (p : Port) (s : State) (v : Nat), (portOf s p).lost = some v ∧ (portOf s p).link = false ∧ (portOf s p).down = false ∧
    flowsOn ((s.passTo (v + 1800000)).modPort p (fun q => { q with down := true })) p = [] ∧ s.time.pll ≠ .off ∧ s.now ≤ v + 1800000 :=
  ⟨0, downState { port := some 1 }, 49252, by decide +kernel⟩

theorem witness_flowMoves : ∃ (p : Port) (s : State) (v : Nat) (n ch peer : Nat) (q : Port), (portOf s p).lost = some v ∧ (portOf s p).link = false ∧
    (portOf s p).down = false ∧
    let s1 := (s.passTo (v + 1800000)).modPort p (fun q => { q with down := true })
    flowsOn s1 p = [(n, ch, peer)] ∧ (((axisPorts s1 n (flowAxis s1 n ch peer)).filter (fun x => p < x)) ++
      ((axisPorts s1 n (flowAxis s1 n ch peer)).filter (fun x => x < p))).find? (fun x => livePort s1 x) = some q := by
  refine ⟨0, downState { heldFlow with port := some 0 }, 49252, 0, 5, 1, 1, ?_⟩
  decide +kernel

theorem witness_cfgLocks : ∃ (v : BitVec 64) (s : State), bitB s.fabric.cfg 63 = false ∧
    cfgInconsistent { s with fabric := { s.fabric with cfg := v ||| (1#64 <<< 63) } } = true := ⟨0, chip id, by decide +kernel⟩

theorem witness_cfgGood : ∃ (v : BitVec 64) (s : State), bitB s.fabric.cfg 63 = false ∧
    cfgInconsistent { s with fabric := { s.fabric with cfg := v ||| (1#64 <<< 63) } } = false := ⟨0x20881F5000000000, chip id, by decide +kernel⟩

theorem witness_cfgLocked : ∃ s : State, bitB s.fabric.cfg 63 = true :=
  ⟨withFabric (fun k => { k with cfg := k.cfg ||| (1#64 <<< 63) }) (chip id), by decide +kernel⟩

theorem witness_clock : ∃ s : State, s.time.pll ≠ .off ∧ s.now + 1800000000 < 2 ^ 64 := ⟨chip id, by decide +kernel⟩

theorem witness_probe : ∃ (p : Port) (f : Frame) (s : State), probeOk 3 p f s ∧ bitsN s.fabric.cfg 15 0 ≠ 0 := by
  unfold probeOk
  exact ⟨1, frame 3 1 4095 0 [word [(0, 49000)]], chip id, by decide +kernel⟩

/-- Probes went at tick 49,000 and after; chip 1, of priority 1, is the parent. -/
def probed : State :=
  let s := chip id
  { s with time := { s.time with setup := true, parent := some 1, best := some (1, 1), probeSent := [49000] } }

theorem witness_answer : ∃ (p : Port) (f : Frame) (s : State), probeOk 4 p f s ∧
    parentOf (((((s.count (portOff p.val 0x08) 1).chargeFrame p f).decodePayload p f.payload).1.hear
      (bits (first f) 199 192, bits (first f) 215 200)).selectPll) = some f.src.toNat ∧ (bits (first f) 63 0 : BitVec 64).toNat ∈ s.time.probeSent := by
  unfold probeOk
  exact ⟨1, frame 4 1 4095 0 [word [(0, 49000), (64, 49100), (128, 49110), (192, 1), (200, 1)]], probed, by decide +kernel⟩

theorem witness_probesGo : ∃ s : State, s.time.pll ≠ .off ∧ s.now + 3600000 < 2 ^ 64 ∧ s.time.probeSent = [] ∧
    s.now % 1800000 = s.time.schedule.toNat % 1800000 ∧ (s.time.best = none ∨ s.now ≤ s.time.bestAt + 3600000) ∧ (parentOf s).isSome = true :=
  ⟨{ probed with time := { probed.time with probeSent := [], schedule := 49252 } }, by decide +kernel⟩

theorem witness_noParent : ∃ s : State, s.time.pll ≠ .off ∧ s.now + 3600000 < 2 ^ 64 ∧ s.time.probeSent = [] ∧
    s.now % 1800000 = s.time.schedule.toNat % 1800000 ∧ (s.time.best = none ∨ s.now ≤ s.time.bestAt + 3600000) ∧ parentOf s = none :=
  ⟨{ chip id with time := { (chip id).time with schedule := 49252 } }, by decide +kernel⟩

/-- The parent has not been heard for two probe periods. -/
theorem witness_pairForgotten : ∃ s : State, s.time.pll ≠ .off ∧ s.now + 3600000 < 2 ^ 64 ∧ s.time.probeSent = [] ∧
    s.now % 1800000 = s.time.schedule.toNat % 1800000 ∧ s.time.best ≠ none ∧ s.time.bestAt + 3600000 < s.now :=
  ⟨{ probed with time := { probed.time with probeSent := [], tally := 3600001, schedule := 3600001 } }, by decide +kernel⟩

/-! ### Control frames of a job -/

/-- A frame of the control flow from chip 1 to the chip as `f` changes its tenancy, with `q` of the two. -/
def Control (bad : Frame → Bool) (q : Frame → State → Bool) : Prop :=
  ∃ (p : Port) (f : Frame) (s : State), comes bad p f s ∧ jobLive s f.ten.toNat = true ∧ q f s = true

theorem control_of (bad : Frame → Bool) (q : Frame → State → Bool) (f : Frame) (g : Tenancy → Tenancy)
    (h : decide ((portOf (chip g) 1).link = true ∧ badHeaderOf f = false ∧ f.dst.toNat = myId (chip g) ∧ f.plane.toNat = (1 : Port).val ∧
      f.epoch = ((chip g).ten f.ten.toNat).recov.epoch ∧ jobMatches (chip g) f = true ∧ bad f = false ∧
      inBox (chip g) f.ten.toNat f.src.toNat = true ∧ f.src.toNat ≠ myId (chip g) ∧ f.seq = (flowOf (chip g) f).expected ∧
      jobLive (chip g) f.ten.toNat = true ∧ q f (chip g) = true) = true) : Control bad q := by
  obtain ⟨h1, h2, h3, h4, h5, h6, h7, h8, h9, h10, h11, h12⟩ := of_decide_eq_true h
  exact ⟨1, f, chip g, ⟨⟨h1, h2, h3, h4, h5, h6⟩, h7, h8, h9, h10⟩, h11, h12⟩

/-- A blank notice's course, and the course of its tenancy. -/
def noticeOf (f : Frame) : Nat := bitsN (first f) 49 0
def courseOf (s : State) : Course := (s.ten 0).course

theorem witness_noticeOld : Control (ctlBad 5 1) (fun f s => decide ((s.ten 0).load.st = .running ∧ bits (first f) 127 96 < (s.ten 0).recov.epoch)) :=
  control_of _ _ { frame 5 1 4095 0 [word [(0, 9)]] with epoch := 1 } (fun n => { n with recov := { n.recov with epoch := 1 } }) (by decide +kernel)

theorem witness_noticeJoins : Control (ctlBad 5 1) (fun f s => decide ((s.ten 0).load.st = .running ∧
    courseNow s + 1 < noticeOf f ∧ (courseOf s).pending.length = 15)) :=
  control_of _ _ (frame 5 1 4095 0 [word [(0, 5), (50, 1)]])
    (fun n => { n with course := { n.course with pending := (upTo 15).map (fun k => ⟨100 + k, 0, true⟩) } }) (by decide +kernel)

theorem witness_noticeLate : Control (ctlBad 5 1) (fun f s => decide ((s.ten 0).load.st = .running ∧
    pendingAt (courseOf s).pending (noticeOf f) = none ∧ noticeOf f = courseNow s + 1)) :=
  control_of _ _ (frame 5 1 4095 0 [word [(0, 4), (50, 1)]]) id (by decide +kernel)

theorem witness_noticeFull : Control (ctlBad 5 1) (fun f s => decide ((s.ten 0).load.st = .running ∧
    pendingAt (courseOf s).pending (noticeOf f) = none ∧ courseNow s + 1 < noticeOf f ∧ (courseOf s).lean = none ∧ 16 ≤ (courseOf s).pending.length)) :=
  control_of _ _ (frame 5 1 4095 0 [word [(0, 5), (50, 1)]])
    (fun n => { n with course := { n.course with pending := (upTo 16).map (fun k => ⟨100 + k, 0, true⟩) } }) (by decide +kernel)

theorem witness_voteKept : Control (ctlBad 6 1) (fun _ s => decide ((s.ten 0).vote = none)) :=
  control_of _ _ (frame 6 1 4095 0 [word [(0, 3), (12, 1)]]) id (by decide +kernel)

theorem witness_voteCounts : Control (ctlBad 6 1) (fun f s => match (s.ten 0).vote with
    | some v => !v.done && decide (v.check = bits (first f) 11 0) | none => false) :=
  control_of _ _ (frame 6 1 4095 0 [word [(0, 3), (12, 1)]]) (fun n => { n with vote := some { scope := 0, check := 3 } }) (by decide +kernel)

theorem witness_voteDone : Control (ctlBad 6 1) (fun _ s => (s.ten 0).vote.any (·.done)) :=
  control_of _ _ (frame 6 1 4095 0 [word [(0, 3), (12, 1)]]) (fun n => { n with vote := some { scope := 0, check := 3, done := true } }) (by decide +kernel)

theorem witness_ready : Control (fun f => ctlBad 7 1 f || bitB (first f) 50) (fun f s =>
    let l : Launch := { (s.ten 0).launch with heard := insertNew (s.ten 0).launch.heard f.src }
    decide (l.ready = true ∧ (s.ten 0).load.st = .loaded ∧ hdr s 0 6 1 = 0 ∧ l.sentAt = none ∧ l.course = none ∧ rootChildren s 0 ≤ l.heard.length ∧
      isRoot s 0 = true)) :=
  control_of _ _ (frame 7 1 4095 0 [word []])
    (fun n => { n with load := { n.load with st := .loaded }, launch := { n.launch with ready := true, heard := [2] } }) (by decide +kernel)

theorem witness_notReady : Control (fun f => ctlBad 7 1 f || bitB (first f) 50) (fun _ s => decide ((s.ten 0).launch.ready = false)) :=
  control_of _ _ (frame 7 1 4095 0 [word []]) id (by decide +kernel)

/-- The job's root is another chip: this is chip 1 of the box, and chip 2 its child. -/
theorem witness_readyOn : ∃ (p : Port) (f : Frame) (s : State), comes (fun f => ctlBad 7 1 f || bitB (first f) 50) p f s ∧
    (let l : Launch := { (s.ten 0).launch with heard := insertNew (s.ten 0).launch.heard f.src }
     l.ready = true ∧ (s.ten 0).load.st = .loaded ∧ hdr s 0 6 1 = 0 ∧ l.sentAt = none ∧ l.course = none ∧ rootChildren s 0 ≤ l.heard.length ∧
      isRoot s 0 = false) := by
  unfold comes passes
  refine ⟨1, { frame 7 2 4095 0 [word []] with dst := 1 }, withFabric (fun k => { k with axes := k.axes ||| (1#64 <<< 48) })
    (chip (fun n => { n with load := { n.load with st := .loaded }, launch := { n.launch with ready := true } })), ?_⟩
  decide +kernel

theorem witness_go : Control (fun f => ctlBad 7 1 f || !bitB (first f) 50) (fun f s => decide ((s.ten 0).load.st = .loaded ∧
    courseNow s + 2 < noticeOf f)) :=
  control_of _ _ (frame 7 1 4095 0 [word [(0, 6), (50, 1)]]) (fun n => { n with load := { n.load with st := .loaded } }) (by decide +kernel)

theorem witness_goLate : Control (fun f => ctlBad 7 1 f || !bitB (first f) 50) (fun f s => decide ((s.ten 0).load.st = .loaded ∧
    noticeOf f = courseNow s + 2)) :=
  control_of _ _ (frame 7 1 4095 0 [word [(0, 5), (50, 1)]]) (fun n => { n with load := { n.load with st := .loaded } }) (by decide +kernel)

theorem witness_goNotLoaded : ∃ (p : Port) (f : Frame) (s : State), comes (fun f => ctlBad 7 1 f || !bitB (first f) 50) p f s ∧
    (s.ten f.ten.toNat).load.st = .loading := by
  unfold comes passes
  exact ⟨1, frame 7 1 4095 0 [word [(0, 6), (50, 1)]], chip (fun n => { n with load := { n.load with st := .loading } }), by decide +kernel⟩

theorem witness_goAfter : ∃ (p : Port) (f : Frame) (s : State), comes (fun f => ctlBad 7 1 f || !bitB (first f) 50) p f s ∧
    (s.ten f.ten.toNat).load.st = .running := by
  unfold comes passes
  exact ⟨1, frame 7 1 4095 0 [word [(0, 6), (50, 1)]], chip id, by decide +kernel⟩

theorem witness_goWhole : ∃ (p : Port) (f : Frame) (s : State), (s.ten f.ten.toNat).load.st = .loading ∧ goWhole s p f = true :=
  ⟨1, frame 7 1 4095 0 [word [(0, 6), (50, 1)]], chip (fun n => { n with load := { n.load with st := .loading } }), by decide +kernel⟩

theorem witness_launchTimeout : ∃ (n : Ten) (s : State) (v : Nat), (s.ten n.val).launch.sentAt = some v ∧ (s.ten n.val).launch.course = none ∧
    (s.ten n.val).launch.timedOut = false ∧ (s.ten n.val).load.st = .loaded ∧ s.time.pll ≠ .off ∧ s.now ≤ v + hdr s n.val 34 2 * 1800000 := by
  refine ⟨0, chip (fun n => { n with load := { n.load with st := .loaded, header := header [(34, 1)] }, launch := { n.launch with sentAt := some 49000 } }), 49000, ?_⟩
  decide +kernel

/-! ### Recovery -/

/-- A recovery control frame from chip 1: its word's fields beside its kind. -/
def recFrame (sub n : Nat) (l : List (Nat × Nat)) : Frame := frame 9 1 4095 0 (word ((0, sub) :: l) :: List.replicate (n - 1) MemWord.zero)

def inStage (st : BitVec 3) (census : BitVec 16) (n : Tenancy) : Tenancy := { n with recov := { n.recov with st := st, census := census } }

def censusOf (f : Frame) : BitVec 16 := bits (first f) 181 166

theorem witness_stop : Control (recvBad 0 1) (fun f s => decide ((s.ten 0).recov.st = 1 ∧ (s.ten 0).recov.census < censusOf f)) :=
  control_of _ _ (recFrame 0 1 [(4, 2), (7, 2), (166, 4)]) (inStage 1 3) (by decide +kernel)

theorem witness_stopFirst : Control (recvBad 0 1) (fun _ s => decide ((s.ten 0).recov.st = 0)) :=
  control_of _ _ (recFrame 0 1 [(4, 2), (7, 2)]) id (by decide +kernel)

theorem witness_stopOld : Control (recvBad 0 1) (fun f s => decide ((s.ten 0).recov.st ≠ 0 ∧ censusOf f = (s.ten 0).recov.census)) :=
  control_of _ _ (recFrame 0 1 [(166, 3)]) (inStage 1 3) (by decide +kernel)

theorem witness_reportOld : Control (recvBad 1 1) (fun f s => decide (censusOf f < (s.ten 0).recov.census)) :=
  control_of _ _ (recFrame 1 1 [(166, 2), (125, 1)]) (inStage 1 3) (by decide +kernel)

/-- The last chip that the root waits for reports. -/
theorem witness_report : Control (recvBad 1 1) (fun f s => decide (censusOf f = (s.ten 0).recov.census ∧ (s.ten 0).recov.st = 1 ∧
    (s.ten 0).recov.reported = false ∧ (s.ten 0).recov.chips + bitsN (first f) 141 125 + 1 = rootSub s 0)) :=
  control_of _ _ (recFrame 1 1 [(7, 1), (125, 2), (166, 3)]) (inStage 1 3) (by decide +kernel)

theorem witness_plan : Control (recvBad 2 1) (fun f s => decide ((s.ten 0).recov.st = 2 ∧ censusOf f = (s.ten 0).recov.census)) :=
  control_of _ _ (recFrame 2 1 [(7, 1), (42, 1), (166, 3)]) (inStage 2 3) (by decide +kernel)

theorem witness_done : Control (recvBad 3 1) (fun f s => decide (censusOf f = (s.ten 0).recov.census)) :=
  control_of _ _ (recFrame 3 1 [(125, 1), (166, 3)]) (inStage 4 3) (by decide +kernel)

theorem witness_doneOther : Control (recvBad 3 1) (fun f s => decide (censusOf f ≠ (s.ten 0).recov.census)) :=
  control_of _ _ (recFrame 3 1 [(125, 1), (166, 2)]) (inStage 4 3) (by decide +kernel)

theorem witness_resume : Control (recvBad 4 1) (fun f s => decide ((s.ten 0).recov.st = 4 ∧ censusOf f = (s.ten 0).recov.census ∧
    bitsN (first f) 123 74 = courseNow s + 3)) :=
  control_of _ _ (recFrame 4 1 [(74, 6), (166, 3)]) (inStage 4 3) (by decide +kernel)

theorem witness_resumeLate : Control (recvBad 4 1) (fun f s => decide ((s.ten 0).recov.st = 4 ∧ censusOf f = (s.ten 0).recov.census ∧
    bitsN (first f) 123 74 = courseNow s + 2)) :=
  control_of _ _ (recFrame 4 1 [(74, 5), (166, 3)]) (inStage 4 3) (by decide +kernel)

theorem witness_resumeOther : Control (recvBad 4 1) (fun _ s => decide ((s.ten 0).recov.st ≠ 4)) :=
  control_of _ _ (recFrame 4 1 [(74, 6)]) id (by decide +kernel)

theorem witness_endJob : Control (recvBad 5 1) (fun _ s => (s.ten 0).recov.ending.isNone) :=
  control_of _ _ (recFrame 5 1 [(4, 4), (142, 9)]) id (by decide +kernel)

theorem witness_sealsKept : Control (recvBad 6 6) (fun _ s => !(s.ten 0).close.due && !(s.ten 0).close.cut) :=
  control_of _ _ (recFrame 6 6 []) id (by decide +kernel)

/-- The cut is made, with this chip's own values, and those of chip 2, there. -/
def atCut (n : Tenancy) : Tenancy :=
  let own : SealVal := { digests := List.replicate 16 0, counts := List.replicate 16 0 }
  { n with close := { n.close with cut := true },
           steps := { n.steps with sealSelf := some own, twinSelf := some own, sealGot := [{ own with src := 2 }],
                                   twins := [(0, { record := 2 ^ 32 })] } }

theorem witness_sealsAgree : Control (recvBad 6 6) (fun f s => !(s.ten 0).close.due && (s.ten 0).close.cut && !(s.ten 0).close.sealCmp &&
    match (s.ten 0).steps.sealSelf with
    | some own =>
      let vs := own :: ((s.ten 0).steps.sealGot ++ [sealOfWords f (f.payload.map (fun w => (decodeWord w).w))]).filter (fun x => x.step = (s.ten 0).steps.step)
      decide (boxN s 0 0 ≤ vs.length) && vs.all (fun x => x.same own)
    | none => false) :=
  control_of _ _ (recFrame 6 6 []) atCut (by decide +kernel)

theorem witness_sealsDiffer : Control (recvBad 6 6) (fun f s => !(s.ten 0).close.due && (s.ten 0).close.cut && !(s.ten 0).close.sealCmp &&
    match (s.ten 0).steps.sealSelf with
    | some own =>
      let vs := own :: ((s.ten 0).steps.sealGot ++ [sealOfWords f (f.payload.map (fun w => (decodeWord w).w))]).filter (fun x => x.step = (s.ten 0).steps.step)
      decide (boxN s 0 0 ≤ vs.length) && !vs.all (fun x => x.same own)
    | none => false) :=
  control_of _ _ (frame 9 1 4095 0 (word [(0, 6)] :: word [(0, 1)] :: List.replicate 4 MemWord.zero)) atCut (by decide +kernel)

theorem witness_twinKept : Control (recvBad 7 6) (fun _ s => !(s.ten 0).close.due && !(s.ten 0).close.cut) :=
  control_of _ _ (recFrame 7 6 []) id (by decide +kernel)

theorem witness_twinCompared : Control (recvBad 7 6) (fun f s => !(s.ten 0).close.due && (s.ten 0).close.cut && !(s.ten 0).close.twinCmp &&
    (s.ten 0).steps.twinSelf.isSome && decide ((sealOfWords f (f.payload.map (fun w => (decodeWord w).w))).step = (s.ten 0).steps.step) &&
    (s.ten 0).steps.twinGot.isEmpty && (s.ten 0).steps.twins.any (fun r => isTwinHome r.2.record)) :=
  control_of _ _ (recFrame 7 6 []) atCut (by decide +kernel)

/-- A chip whose actions of a plan are done. -/
def Acting (path : BitVec 3) (q : State → Bool) : Prop :=
  ∃ (n : Ten) (s : State), (s.ten n.val).recov.st = 3 ∧ (s.ten n.val).recov.preempt = none ∧ (s.ten n.val).recov.stopGot = none ∧
    (s.ten n.val).recov.ending = none ∧ (s.ten n.val).recov.path = path ∧ q s = true

def acting (path : BitVec 3) (odd : Bool) (n : Tenancy) : Tenancy :=
  { n with recov := { n.recov with st := 3, path := path, odd := odd, taint := 5 }, escrow := { n.escrow with gens := [{ step := 4 }, { step := 5 }, { step := 6 }] } }

theorem witness_redo : Acting 1 (fun _ => true) := ⟨0, chip (acting 1 false), by decide +kernel⟩
theorem witness_reseat : Acting 2 (fun s => !(s.ten 0).recov.odd) := ⟨0, chip (acting 2 false), by decide +kernel⟩
theorem witness_reseatOdd : Acting 2 (fun s => (s.ten 0).recov.odd) := ⟨0, chip (acting 2 true), by decide +kernel⟩
theorem witness_rollback : Acting 3 (fun s => (soundGen s 0 5).isSome) := ⟨0, chip (acting 3 false), by decide +kernel⟩
theorem witness_notActing : ∃ s : State, (s.ten 0).recov.st ≠ 3 := ⟨chip id, by decide +kernel⟩

theorem witness_recoveryTimeout : ∃ (n : Ten) (s : State), inRecovery s n.val = true ∧ (s.ten n.val).recov.resumeAt = none ∧
    (s.ten n.val).load.st = .running ∧ s.time.pll ≠ .off ∧ s.now ≤ (s.ten n.val).recov.stopTally + hdr s n.val 50 2 * 1800000000 := by
  refine ⟨0, chip (fun n => { inStage 1 0 n with load := { n.load with header := header [(50, 1)] } }), ?_⟩
  decide +kernel

theorem witness_notInRecovery : ∃ (n : Ten) (s : State), inRecovery s n.val = false := ⟨7, chip id, by decide +kernel⟩

theorem witness_collTimeout : ∃ (n : Ten) (chan : Chan) (s : State) (k : Coll) (w : Nat), collOf s n.val chan.toNat = some k ∧ k.waitFrom = some w ∧
    (s.ten n.val).load.st = .running ∧ (s.ten n.val).recov.ending = none ∧ s.time.pll ≠ .off ∧ s.now ≤ w + 268435457 :=
  ⟨0, 5, collChip (fun k => { k with waitFrom := some 49000 }), _, 49000, rfl, by decide +kernel⟩

theorem witness_collNoWait : ∃ (n : Ten) (chan : Chan) (s : State), ∀ k, collOf s n.val chan.toNat = some k → k.waitFrom = none :=
  ⟨0, 5, chip id, fun k h => by cases h⟩

/-! ### Escrow -/

/-- Escrow of two pages of stack 0, with generations and copies. -/
def esc (gens : List Generation) (copying : Sparse (Nat × Nat × List (BitVec 32))) (n : Tenancy) : Tenancy :=
  { n with escrow := { n.escrow with records := [(0, BitVec.ofNat 64 (fields [(0, 1), (35, 2)]))], gens := gens, copying := copying } }

theorem witness_statePages : ∃ (n : Ten) (s : State) (g : Generation), (s.ten n.val).close.due = false ∧
    ((s.ten n.val).escrow.gens.filter (fun g => !g.stateDone)).getLast? = some g ∧ genOf s n.val g.step = some g :=
  ⟨0, chip (esc [{ step := 4, stateDone := true }, { step := 5 }, { step := 6 }] []), { step := 6 }, by decide +kernel⟩

theorem witness_noStatePages : ∃ (n : Ten) (s : State), (s.ten n.val).close.due = false ∧ ∀ g ∈ (s.ten n.val).escrow.gens, g.stateDone = true :=
  ⟨0, chip (esc [{ step := 4, stateDone := true }] []), by decide +kernel⟩

theorem witness_windowNone : ∃ (n : Ten) (st : Stack) (s : State), firstSealed s n.val st.val = none ∧ find (s.ten n.val).escrow.copying st.val = none :=
  ⟨0, 1, chip (esc [{ step := 4 }] []), by decide +kernel⟩

theorem witness_window : ∃ (n : Ten) (st : Stack) (s : State) (m : Nat), firstSealed s n.val st.val = some m ∧ m = 1 ∧
    find (s.ten n.val).escrow.copying st.val = none :=
  ⟨0, 0, chip (esc [{ step := 4, pages := [(0, .copied)] }] []), 1, by decide +kernel⟩

/-- A copy done for the cause it was made for. -/
def CopyMet (cause : Nat) : Prop :=
  ∃ (n : Ten) (st : Stack) (s : State) (m : Nat) (steps : List (BitVec 32)) (k : Nat), find (s.ten n.val).escrow.copying st.val = some (m, cause, steps) ∧
    pageKey s n.val m = some k ∧ (∀ x ∈ sealedFor s n.val m, x ∈ steps) ∧ (∀ h ∈ (s.ten n.val).escrow.held, h.stack ≠ st.val ∨ h.page = m)

theorem witness_copyWindow : CopyMet 0 := by
  have h : sealedFor (chip (esc [{ step := 4 }] [(0, 1, 0, [4])])) 0 1 = [4] := by decide +kernel
  exact ⟨0, 0, chip (esc [{ step := 4 }] [(0, 1, 0, [4])]), 1, [4], 2048, by decide +kernel, by decide +kernel, fun x hx => by
    rw [show ((0 : Ten).val) = 0 from rfl, h] at hx; exact hx, by decide +kernel⟩
theorem witness_copyDrain : CopyMet 1 := by
  have h : sealedFor (chip (esc [{ step := 4 }] [(0, 1, 1, [4])])) 0 1 = [4] := by decide +kernel
  exact ⟨0, 0, chip (esc [{ step := 4 }] [(0, 1, 1, [4])]), 1, [4], 2048, by decide +kernel, by decide +kernel, fun x hx => by
    rw [show ((0 : Ten).val) = 0 from rfl, h] at hx; exact hx, by decide +kernel⟩

theorem witness_escrowDrain : ∃ (n : Ten) (st : Stack) (s : State) (g : Generation) (m : Nat), (s.ten n.val).load.st ≠ .loaded ∧
    let gs := (s.ten n.val).escrow.gens
    let lacks (g : Generation) (m : Nat) : Bool := decide ((placeOfPage s n.val m).1 = st.val) && g.sealedPage m
    gs.find? (fun g => (upTo (dataPages s n.val)).any (lacks g)) = some g ∧ (upTo (dataPages s n.val)).find? (lacks g) = some m ∧
      find (s.ten n.val).escrow.copying st.val = none := by
  refine ⟨0, 0, chip (esc [{ step := 4, pages := [(0, .copied)] }] []), { step := 4, pages := [(0, .copied)] }, 1, ?_⟩
  decide +kernel

/-- A parity group of three chips along axis D. -/
def group (n : Tenancy) : Tenancy := { n with load := { n.load with header := header [(43, 1), (44, 3)] } }

def sentGen : Generation := { step := 4, pages := [(0, .copied), (1, .copied)] }

theorem witness_drainSends : ∃ (n : Ten) (st : Stack) (s : State) (g : Generation), (s.ten n.val).load.st ≠ .loaded ∧
    let gs := (s.ten n.val).escrow.gens
    let lacks (g : Generation) (m : Nat) : Bool := decide ((placeOfPage s n.val m).1 = st.val) && g.sealedPage m
    gs.find? (fun g => (upTo (dataPages s n.val)).any (lacks g)) = none ∧ striped s n.val = true ∧
      gs.find? (fun g => decide (g.sent < allPages s n.val)) = some g ∧ genOf s n.val g.step = some g ∧
      stackOfPage s n.val g.sent = st.val ∧ find g.pages g.sent = some .copied := by
  refine ⟨0, 0, chip (fun n => esc [sentGen] [] (group n)), sentGen, ?_⟩
  decide +kernel

/-- What `duePages` says where the pages of the group's other members are `gp`. -/
def dueFor (gp : Nat → Nat → Nat) (s : State) (t q : Nat) : List Nat :=
  let pg (q : Nat) : Nat := if q = memberNo s t then allPages s t else gp t q
  let rows := if striped s t then
      (upTo (stripeLen s t)).foldl (fun n q => if pg q = 0 then n else max n (rowOfPage s t q (pg q - 1) + 1)) 0
    else 0
  (((upTo rows).filter (fun r => (holdersOf s t r).contains (memberNo s t))).filter
    (fun r => isDataMember s t q r && decide (pageOfRow s t q r < pg q))).map (fun r => pageOfRow s t q r)

theorem duePages_eq (s : State) (t q : Nat) : duePages s t q = dueFor Config.groupPages s t q := rfl

/-- A parcel of member 1 while it has pages to send: its pages are a free value (log entry 12), here 4. -/
theorem witness_parityParcel (h : Config.groupPages = fun _ _ => 4) : ∃ (p : Port) (f : Frame) (s : State) (q : Nat) (g : Generation), passes p f s ∧
    f.seq = (flowOf s f).expected ∧ f.kind = 0 ∧ f.chan = 4093 ∧ groupMember s f.ten.toNat f.src.toNat = some q ∧ f.hm = true ∧
    f.payload.length = 128 ∧
    (s.ten f.ten.toNat).escrow.gens.find? (fun g => g.rebuild || decide (look g.folded 0 q < 16 * (duePages s f.ten.toNat q).length)) = some g ∧
    g.rebuild = false ∧ genOf s f.ten.toNat g.step = some g := by
  unfold passes
  simp only [duePages_eq, h]
  exact ⟨1, { frame 0 1 4093 0 (List.replicate 128 MemWord.zero) with hm := true }, chip (fun n => esc [sentGen] [] (group n)), 1, sentGen,
    by decide +kernel⟩

theorem witness_escrowAccept : ∃ (p : Port) (f : Frame) (s : State) (q : Nat) (g : Generation), passes p f s ∧
    f.seq = (flowOf s f).expected ∧ f.kind = 0 ∧ f.chan = 4093 ∧ groupMember s f.ten.toNat f.src.toNat = some q ∧ f.hm = false ∧
    f.payload.length = 1 ∧ genOf s f.ten.toNat (bits (first f) 31 0) = some g ∧
    let m := bitsN (first f) 63 32
    (holdersOf s f.ten.toNat (rowOfPage s f.ten.toNat (memberNo s f.ten.toNat) m)).length ≤ look g.acks 0 m + 1 ∧ find g.pages m = some .copied := by
  unfold passes
  refine ⟨1, frame 0 1 4093 0 [word [(0, 4), (32, 1)]], chip (fun n => esc [sentGen] [] (group n)), 1, sentGen, ?_⟩
  decide +kernel

/-! ### Ledger requests -/

/-- A request of a function, and the chip with its VF. -/
def req (fn : Fn) : Req := ⟨fn, 9, false⟩

def withMgmt (f : Mgmt → Mgmt) (s : State) : State := { s with mgmt := f s.mgmt }

/-- The chip with tenancy 0 EMPTY, and its VF enabled. -/
def idle : State := withMgmt (fun m => { m with vfOn := [1] }) (chip (fun n => { n with load := {} }))

theorem witness_accepted : accepted (req 0) idle ∧ accepted (req 1) idle := by
  unfold accepted takes
  decide +kernel

theorem witness_reserved : takes { req 1 with reserved := true } idle := by
  unfold takes
  decide +kernel

/-- More than 768 messages wait, and exactly 768. -/
theorem witness_notTaken : ¬ takes (req 0) (withMgmt (fun m => { m with mailboxes := [(0, { backlog := List.replicate 769 0 })] }) idle) := by
  unfold takes
  decide +kernel

theorem witness_lastTaken : takes (req 0) (withMgmt (fun m => { m with mailboxes := [(0, { backlog := List.replicate 768 0 })] }) idle) := by
  unfold takes
  decide +kernel

theorem witness_answerWaits : ∃ (r : Req) (s : State), (boxOf s r.fn.val).backlog = [] ∧ (boxOf s r.fn.val).rspTail + 1 = (boxOf s r.fn.val).rspHead :=
  ⟨req 0, withMgmt (fun m => { m with mailboxes := [(0, { rspTail := 255 })] }) idle, by decide +kernel⟩

theorem witness_answerGoes : ∃ (r : Req) (s : State), (boxOf s r.fn.val).backlog = [] ∧ (boxOf s r.fn.val).rspTail + 1 ≠ (boxOf s r.fn.val).rspHead :=
  ⟨req 0, idle, by decide +kernel⟩

theorem witness_rings : ∃ (fn : Fn) (tail : BitVec 6) (slots : List (BitVec 256)) (head : BitVec 8) (s : State), hostOn s fn.val = true ∧
    slots.length ≤ 64 ∧ 63 < ((boxOf s fn.val).reqTail - (boxOf s fn.val).reqHead).toNat + (tail - (boxOf s fn.val).reqTail).toNat ∧
    ((boxOf s fn.val).rspTail - (boxOf s fn.val).rspHead).toNat < (head - (boxOf s fn.val).rspHead).toNat :=
  ⟨0, 2, List.replicate 64 0, 1, withMgmt (fun m => { m with mailboxes := [(0, { reqTail := 3 })] }) idle, by decide +kernel⟩

/-! ### Tenancies -/

/-- A second tenancy takes rows 4 to 7 of a chip whose first has rows 0 to 3. -/
theorem witness_create : ∃ (ten y0 h weight : BitVec 8) (ports : BitVec 16) (s : State), accepted (req 0) s ∧ s.tenExists ten.toNat = false ∧
    ten.toNat < 8 ∧ 1 ≤ h.toNat ∧ y0.toNat + h.toNat ≤ 8 ∧ weight ≠ 0 ∧ (bitsN ports 7 0 = 0 ∨ y0 = 0) ∧
    (bitsN ports 15 8 = 0 ∨ y0.toNat + h.toNat = 8) ∧
    (∀ m ∈ tenancies s, runsMeet y0.toNat h.toNat (s.ten m).def_.y0.toNat (s.ten m).def_.h.toNat = false ∧ (s.ten m).def_.ports &&& ports = 0) := by
  unfold accepted takes
  exact ⟨7, 4, 4, 16, 0xFF00, chip (fun n => { n with def_ := { n.def_ with h := 4, ports := 0xFF } }), by decide +kernel⟩

theorem witness_share : ∃ (ten stack : BitVec 8) (base size : BitVec 32) (s : State), accepted (req 0) s ∧ s.tenExists ten.toNat = true ∧
    (s.ten ten.toNat).load.st = .empty ∧ (s.ten ten.toNat).def_.reaches stack.toNat = true ∧ size ≠ 0 ∧ 64 * (base.toNat + size.toNat) ≤ 16646144 ∧
    (∀ m ∈ tenancies s, m ≠ ten.toNat → runsMeet (8192 * base.toNat) (8192 * size.toNat) (shareOf s m stack.toNat).1 (shareOf s m stack.toNat).2 = false) ∧
    (∀ x ∈ s.hbm.clearing, x.1 = stack.toNat → runsMeet (8192 * base.toNat) (8192 * size.toNat) x.2.1 x.2.2 = false) := by
  unfold accepted takes
  exact ⟨0, 7, 260095, 1, idle, by decide +kernel⟩

theorem witness_windows : ∃ (ten stack : BitVec 8) (allow : BitVec 64) (s : State), accepted (req 0) s ∧ s.tenExists ten.toNat = true ∧
    (s.ten ten.toNat).load.st = .empty ∧ (s.ten ten.toNat).def_.reaches stack.toNat = true ∧ allow &&& 0xE400_2001_0008_0040 = 0 ∧
    (∀ m ∈ tenancies s, m ≠ ten.toNat → look (s.ten m).def_.allow 0 stack.toNat &&& allow = 0) := by
  unfold accepted takes
  exact ⟨0, 0, ~~~0xE400_2001_0008_0040, idle, by decide +kernel⟩

theorem witness_partition : ∃ (ten code : BitVec 8) (base size : BitVec 32) (s : State), accepted (req 0) s ∧ s.tenExists ten.toNat = true ∧
    (s.ten ten.toNat).load.st = .empty ∧ code.toNat < 8 ∧
    base.toNat * storeUnit code.toNat + size.toNat * storeUnit code.toNat ≤ storeEntries code.toNat ∧
    (code.toNat = 6 → size.toNat * storeUnit code.toNat ∈ phaseSizes) ∧
    (∀ m ∈ tenancies s, m ≠ ten.toNat → runsMeet (base.toNat * storeUnit code.toNat) (size.toNat * storeUnit code.toNat)
      (partOf s m code.toNat).1 (partOf s m code.toNat).2 = false) := by
  unfold accepted takes
  exact ⟨0, 6, 768, 256, idle, by decide +kernel⟩

theorem witness_weight : ∃ (ten w : BitVec 8) (s : State), accepted (req 0) s ∧ s.tenExists ten.toNat = true ∧ w ≠ 0 := by
  unfold accepted takes
  exact ⟨0, 255, idle, by decide +kernel⟩

theorem witness_setupRefused : ∃ (ten : BitVec 8) (s : State), accepted (req 0) s ∧ s.tenExists ten.toNat = true ∧ (s.ten ten.toNat).load.st ≠ .empty := by
  unfold accepted takes
  exact ⟨0, chip id, by decide +kernel⟩

/-! ### Requests for the chip -/

theorem witness_telemetry : ∃ (r : Req) (offsets : List (BitVec 20)) (s : State), accepted r s ∧ offsets.length = 3 ∧
    ∀ o ∈ offsets, o.toNat % 8 = 0 ∧ o.toNat < bar0Size r.fn.val := by
  unfold accepted takes
  refine ⟨req 0, [0, 0x4000, 0xFFFF8], idle, by decide +kernel, rfl, fun o ho => ?_⟩
  simp only [List.mem_cons, List.not_mem_nil, or_false] at ho
  rcases ho with rfl | rfl | rfl <;> decide +kernel

theorem witness_drainBook : ∃ (r : Req) (limit : BitVec 16) (s : State), accepted r s ∧ limit ≠ 0 ∧ limit.toNat ≤ 8192 ∧
    ∀ e ∈ s.mgmt.ring, e.readers.Nodup := by
  unfold accepted takes
  exact ⟨req 0, 8192, withMgmt (fun m => { m with ring := [⟨7, [0, 1]⟩] }) idle, by decide +kernel⟩

theorem witness_assayAsked : ∃ (r : Req) (kind : BitVec 8) (target : BitVec 16) (s : State), accepted r s ∧ r.fn = 0 ∧
    assayTarget kind.toNat target.toNat = true ∧ (kind = 4 → ∀ a ∈ s.mgmt.assays ++ s.mgmt.running, a.kind ≠ 4) := by
  unfold accepted takes
  exact ⟨req 0, 3, 15, idle, by decide +kernel⟩

theorem witness_cap : ∃ (r : Req) (low high : BitVec 16) (s : State), accepted r s ∧ r.fn = 0 ∧ 700 ≤ low.toNat ∧ low.toNat ≤ tdp s ∧
    low.toNat % 10 = 0 ∧ tdp s < high.toNat := by
  unfold accepted takes
  exact ⟨req 0, 1500, 1501, idle, by decide +kernel⟩

theorem witness_arbiter : ∃ (r : Req) (sec : BitVec 8) (mask : BitVec 33) (s : State), accepted r s ∧ r.fn = 0 ∧ sec.toNat ≤ 11 ∧ mask ≠ 0 := by
  unfold accepted takes
  exact ⟨req 0, 11, 1#33 <<< 32, idle, by decide +kernel⟩

theorem witness_child : ∃ s : State, s.time.children.length < 256 := ⟨idle, by decide +kernel⟩

theorem witness_grandmaster : ∃ s : State, s.time.grand = true ∧ bitB s.board.straps 4 = true ∧ mgmtOn s = true :=
  ⟨{ idle with time := { idle.time with grand := true }, board := { idle.board with straps := 0x10 } }, by decide +kernel⟩

theorem witness_notGrandmaster : ∃ s : State, s.time.grand = false := ⟨idle, by decide +kernel⟩

theorem witness_launch : ∃ (r : Req) (ten : BitVec 8) (course : BitVec 50) (s : State), accepted r s ∧ r.fn.val = ten.toNat + 1 ∧
    s.tenExists ten.toNat = true ∧ (s.ten ten.toNat).load.st = .loaded ∧ course.toNat = courseNow s + 3 := by
  unfold accepted takes
  exact ⟨req 1, 0, 6, withMgmt (fun m => { m with vfOn := [1] }) (chip (fun n => { n with load := { n.load with st := .loaded } })), by decide +kernel⟩

theorem witness_notLoaded : ∃ (r : Req) (ten : BitVec 8) (s : State), accepted r s ∧ r.fn.val = ten.toNat + 1 ∧ s.tenExists ten.toNat = true ∧
    (s.ten ten.toNat).load.st = .empty := by
  unfold accepted takes
  exact ⟨req 1, 0, idle, by decide +kernel⟩

/-- A job that is loading when it is launched. -/
theorem witness_launchEarly : ∃ (r : Req) (ten : BitVec 8) (s : State), accepted r s ∧ r.fn = 0 ∧ s.tenExists ten.toNat = true ∧
    (s.ten ten.toNat).load.st = .loading := by
  unfold accepted takes
  exact ⟨req 0, 0, chip (fun n => { n with load := { n.load with st := .loading } }), by decide +kernel⟩

theorem witness_blanks : ∃ (r : Req) (ten count : BitVec 8) (s : State), accepted r s ∧ (r.fn = 0 ∨ r.fn.val = ten.toNat + 1) ∧
    s.tenExists ten.toNat = true ∧ 1 ≤ count.toNat ∧ count.toNat ≤ 16 ∧ (s.ten ten.toNat).load.st = .running ∧
    (s.ten ten.toNat).course.pending.length + count.toNat ≤ 16 := by
  unfold accepted takes
  exact ⟨req 0, 0, 16, chip id, by decide +kernel⟩

/-- A row on the repair list; slot 1 the newer image, and slot 0 revoked. -/
def serviced : State :=
  let s := withMgmt (fun m => { m with slot1 := { image := ⟨5, 0, 1, true, true⟩ }, revoked := 1 }) idle
  { s with hbm := { s.hbm with repair := [7] } }

theorem witness_firmware : ∃ (r : Req) (len : BitVec 32) (s : State), accepted r s ∧ r.fn = 0 ∧ anyLoaded s = false ∧ len ≠ 0 ∧ len.toNat ≤ 8388608 ∧
    bootSlot s = some (true, false) ∧ fwValid s (slotOf s true) = true ∧ fwValid s (slotOf s false) = false := by
  unfold accepted takes
  exact ⟨req 0, 8388608, serviced, by decide +kernel⟩

theorem witness_jobRuns : ∃ (r : Req) (s : State), accepted r s ∧ r.fn = 0 ∧ anyLoaded s = true := by
  unfold accepted takes
  exact ⟨req 0, chip id, by decide +kernel⟩

/-! ### Loading -/

theorem witness_commit : ∃ (n : Ten) (s : State), tenOn s n = true ∧ (s.ten n.val).load.st = .empty ∧ s.board.classD = 0 ∧ assayHolds s n.val = false ∧
    ∀ y ∈ rowsOf s n.val, (failedIn s y).Nodup := ⟨0, idle, by decide +kernel⟩

theorem witness_commitIgnored : ∃ (n : Ten) (s : State), tenOn s n = true ∧ (s.ten n.val).load.st ≠ .empty := ⟨0, chip id, by decide +kernel⟩

/-- A tenancy with no entries in its stores that loads a list of `k` records at word 0 of stack 0: its job header, at word 8, with the
fields `l` beside those that pass the commit checks. -/
def loading (k : Nat) (l : List (Nat × Nat)) : State :=
  let h : BitVec 2048 := header ([(0, 1), (4, 1), (5, 1), (32, 12), (34, 1), (42, 2), (48, 1), (50, 1), (52, 16)] ++ l)
  let s := chip (fun n => { n with def_ := { n.def_ with parts := [] }, load := { st := .loading, list := BitVec.ofNat 64 (k * 2 ^ 34) } })
  { s with hbm := { s.hbm with words := (0, word [(0, 1), (64, 1), (96, 8)]) :: (upTo 8).filterMap (fun i =>
      let w : BitVec 256 := h.extractLsb' (256 * i) 256
      if w = 0 then none else some (8 + i, MemWord.clean w)) } }

theorem witness_loads : ∃ (n : Ten) (s : State), (s.ten n.val).load.st = .loading ∧
    let count := bitsN (s.ten n.val).load.list 57 34
    let x := State.loadList count s n.val 0
    x.2 = none ∧ count ≠ 0 ∧ commitFails x.1 n.val = none ∧ hdr x.1 n.val 7 1 = 0 := by
  refine ⟨0, loading 1 [], ?_⟩
  decide +kernel

theorem witness_recordFails : ∃ (n : Ten) (s : State) (code i : Nat), (s.ten n.val).load.st = .loading ∧
    (State.loadList (bitsN (s.ten n.val).load.list 57 34) s n.val 0).2 = some (code, i) ∧ i = 1 := by
  refine ⟨0, loading 2 [], 6, 1, ?_⟩
  decide +kernel

theorem witness_checkFails : ∃ (n : Ten) (s : State) (code : Nat), (s.ten n.val).load.st = .loading ∧
    let count := bitsN (s.ten n.val).load.list 57 34
    let x := State.loadList count s n.val 0
    x.2 = none ∧ count ≠ 0 ∧ commitFails x.1 n.val = some code := by
  refine ⟨0, loading 1 [(54, 6)], 9, ?_⟩
  decide +kernel

theorem witness_unload : ∃ (n : Ten) (s : State) (c : Core), tenOn s n = true ∧ (s.ten n.val).load.st ≠ .empty ∧ (s.ten n.val).load.st ≠ .running ∧
    tenOf s c = some n.val :=
  ⟨0, chip (fun n => { n with load := { n.load with st := .failed } }), 63, by decide +kernel⟩

theorem witness_blankReq : ∃ (n : Ten) (s : State), tenOn s n = true ∧ (s.ten n.val).load.st = .running ∧ (s.ten n.val).course.pending.length < 16 :=
  ⟨0, chip id, by decide +kernel⟩

theorem witness_hold : ∃ (n : Ten) (s : State), tenOn s n = true ∧ (s.ten n.val).load.st = .running ∧ (s.ten n.val).course.pending.length < 16 ∧
    pendingAt (s.ten n.val).course.pending (courseNow s + 8) = none := ⟨0, chip id, by decide +kernel⟩

theorem witness_notOn : ∃ (n : Ten) (s : State), tenOn s n = false := ⟨7, chip id, by decide +kernel⟩

/-! ### Registers and the host -/

theorem witness_counterRead : ∃ (fn : Fn) (off : BitVec 20) (s : State), s.board.safe = false ∧ readable s fn.val = true ∧ off.toNat % 8 = 0 ∧
    off.toNat < bar0Size fn.val ∧ isCounter fn.val off.toNat = true ∧ waitAt fn.val off.toNat = none :=
  ⟨1, 0x5FF8, idle, by decide +kernel⟩

theorem witness_wait : ∃ (fn : Fn) (arb : BitVec 6) (q : BitVec 4) (s : State) (off : Nat), readable s fn.val = true ∧
    waitOff fn.val arb.toNat q.toNat = some off := ⟨1, 32, 8, idle, 0xC110, by decide +kernel⟩

theorem witness_misaligned : ∃ (fn : Fn) (off : BitVec 20) (bytes : BitVec 4) (s : State), hostOn s fn.val = true ∧ (bytes = 4 ∨ bytes = 8) ∧
    off.toNat % bytes.toNat ≠ 0 ∧ off.toNat < bar0Size fn.val := ⟨0, 0xFFFFC, 8, idle, by decide +kernel⟩

theorem witness_beyond : ∃ (fn : Fn) (off : BitVec 20) (bytes : BitVec 4) (s : State), hostOn s fn.val = true ∧ (bytes = 4 ∨ bytes = 8) ∧
    off.toNat = bar0Size fn.val := ⟨1, 0x10000, 4, idle, by decide +kernel⟩

theorem witness_hostOff : ∃ (fn : Fn) (s : State), hostOn s fn.val = false := ⟨2, idle, by decide +kernel⟩

theorem witness_loadListWrite : ∃ (n : Ten) (s : State), hostOn s (n.val + 1) = true ∧ s.tenExists n.val = true := ⟨0, idle, by decide +kernel⟩

theorem witness_firmwareRegister : ∃ s : State, s.board.safe = false ∧ mgmtOn s = true := ⟨idle, by decide +kernel⟩

/-- The last bytes of the VF's share of stack 0. -/
theorem witness_hostRead : ∃ (fn : Fn) (off : BitVec 36) (s : State), hostOn s fn.val = true ∧
    (∀ i, i < 32 → (aperture s fn.val (off.toNat + i)).isSome = true) ∧ aperture s fn.val (off.toNat + 32) = none := by
  refine ⟨1, 0xFFFFFE0, idle, by decide +kernel, ?_, by decide +kernel⟩
  decide +kernel

theorem witness_hostWrite : ∃ (fn : Fn) (off : BitVec 36) (s : State), hostOn s fn.val = true ∧
    (∀ i, i < 32 → (aperture s fn.val (off.toNat + i)).isSome = true) ∧ (fn = 0 ∨ bitB (look s.mgmt.apt 0 fn.val) 3 = false) ∧
    (∀ n, (s.ten n).escrow.gens = []) := by
  refine ⟨1, 0xFFFFFE0, idle, by decide +kernel, by decide +kernel, by decide +kernel, fun n => ?_⟩
  cases n <;> rfl

/-! ### Boot, reset and device errors -/

/-- The chip before boot, with good readings. -/
def readings : BootReadings := ⟨0x10, 0, true, true, true, true, 0, true, 0, true, 0, true, 439⟩

theorem witness_boot : ∃ (b : BootReadings) (s : State) (slot fell : Bool), s.board.por = false ∧ goodBoot b ∧ bootSlot s = some (slot, fell) := by
  unfold goodBoot
  exact ⟨readings, State.reset, false, false, by decide +kernel⟩

theorem witness_bootRails : ∃ (b : BootReadings) (s : State), s.board.por = false ∧ b.railsBad ≠ 0 :=
  ⟨{ readings with railsBad := 0x80 }, State.reset, by decide +kernel⟩

theorem witness_bootNoSlot : ∃ (b : BootReadings) (s : State), s.board.por = false ∧ goodBoot b ∧ bootSlot s = none := by
  unfold goodBoot
  exact ⟨readings, withMgmt (fun m => { m with slot0 := { blank := true } }) State.reset, by decide +kernel⟩

theorem witness_bootHot : ∃ (b : BootReadings) (s : State), s.board.por = false ∧ 440 ≤ b.tj.toNat ∧ goodBoot { b with tj := 0 } ∧
    (bootSlot s).isSome = true := by
  unfold goodBoot
  exact ⟨{ readings with tj := 440 }, State.reset, by decide +kernel⟩

theorem witness_afterBoot : ∃ s : State, s.board.por = true ∧ s.board.bootDone = true := ⟨chip id, by decide +kernel⟩

theorem witness_training : ∃ s : State, s.board.training = true ∧ s.board.stage = 0x0A ∧ s.board.fail = 0 :=
  ⟨{ idle with board := { idle.board with training := true, stage := 0x0A, bootDone := false } }, by decide +kernel⟩

theorem witness_mgmtReset : ∃ (s : State) (slot fell : Bool), s.board.por = true ∧ s.board.test = false ∧ bootSlot s = some (slot, fell) ∧
    s.board.bootDone = true ∧ anyLoaded s = false := ⟨idle, false, false, by decide +kernel⟩

theorem witness_mgmtResetBoot : ∃ (s : State) (slot fell : Bool) (b : BootReadings), s.board.por = true ∧ s.board.test = false ∧
    bootSlot s = some (slot, fell) ∧ s.board.bootDone = false ∧ s.board.readings = some b ∧ goodBoot b := by
  unfold goodBoot
  exact ⟨{ idle with board := { idle.board with bootDone := false, stage := 3, fail := 1, readings := some readings } }, false, false, readings,
    by decide +kernel⟩

/-- A job is running when the device is lost, for the second time. -/
theorem witness_lost : ∃ (s : State) (n : Nat), n ∈ tenancies s ∧ (s.ten n).load.st = .running ∧ s.board.classD ≠ 0 ∧ s.board.bootDone = true :=
  ⟨{ chip id with board := { (chip id).board with classD := 1 } }, 0, by decide +kernel⟩

theorem witness_railBack : ∃ (r : Rail) (s : State), r ∈ s.board.railsOut ∧ Rail.mgmt ∉ s.board.railsOut.erase r ∧ Rail.io ∉ s.board.railsOut.erase r :=
  ⟨.mgmt, { chip id with board := { (chip id).board with railsOut := [.mgmt] } }, by decide +kernel⟩

theorem witness_railLeft : ∃ (r : Rail) (s : State), r ∈ s.board.railsOut ∧ Rail.io ∈ s.board.railsOut.erase r :=
  ⟨.mgmt, { chip id with board := { (chip id).board with railsOut := [.io, .mgmt] } }, by decide +kernel⟩

theorem witness_railIn : ∃ (r : Rail) (s : State), r ∉ s.board.railsOut := ⟨.core, chip id, by decide +kernel⟩

theorem witness_mgmtResetLoaded : ∃ s : State, s.board.por = true ∧ s.board.test = false ∧ s.board.bootDone = true ∧ anyLoaded s = true :=
  ⟨chip id, by decide +kernel⟩

theorem witness_boardAccess : ∃ s : State, s.board.por = true ∧ mgmtOn s = true ∧ s.board.jtag = true := ⟨idle, by decide +kernel⟩

theorem witness_tapHeld : ∃ s : State, s.board.por = false ∧ s.board.jtag = true := ⟨State.reset, by decide +kernel⟩

theorem witness_noTap : ∃ s : State, s.board.jtag = false := ⟨{ idle with board := { idle.board with jtag := false } }, rfl⟩

/-! ### The chip's care, power and courses -/

theorem witness_scrubBehind : ∃ s : State, s.hbm.merges = [] ∧ s.time.pll ≠ .off ∧ s.hbm.lateLog = false ∧ s.hbm.passStart + dayTicks + 1 < 2 ^ 64 ∧ s.hbm.passStart ≤ s.now :=
  ⟨chip id, by decide +kernel⟩

theorem witness_scrubLogged : ∃ s : State, s.hbm.lateLog = true := ⟨{ idle with hbm := { idle.hbm with lateLog := true } }, rfl⟩

/-- In the last window of the last refresh hole of the course, and after it. -/
theorem witness_refresh : ∃ (s : State) (w : Nat), nextHole s [6, 19, 32, 45, 58] 1 s.hbm.refreshed = some w ∧ s.hbm.merges = [] ∧ 256 * w < 2 ^ 64 ∧
    w = 250 := ⟨{ idle with time := { idle.time with tally := 64255, lastCourse := some 3 }, hbm := { idle.hbm with refreshed := some 237 } }, 250, by decide +kernel⟩

theorem witness_noRefresh : ∃ s : State, nextHole s [6, 19, 32, 45, 58] 1 s.hbm.refreshed = none :=
  ⟨{ idle with time := { idle.time with tally := 64256 } }, by decide +kernel⟩

/-- Course 63, before its calibration hole. -/
theorem witness_calibration : ∃ (events : List (BitVec 16)) (s : State) (w : Nat), events.length = 8 ∧ courseNow s % 64 = 63 ∧
    nextHole s [61] 2 s.hbm.calibrated = some w ∧ 256 * w < 2 ^ 64 :=
  ⟨List.replicate 8 1, { idle with time := { idle.time with tally := 63 * 16384 } }, 64 * 63 + 61, by decide +kernel⟩

theorem witness_noCalibration : ∃ (events : List (BitVec 16)) (s : State), events.length = 8 ∧ courseNow s % 64 ≠ 63 :=
  ⟨List.replicate 8 1, idle, by decide +kernel⟩

/-- A spare core whose store holds words. -/
theorem witness_idleCores : ∃ s : State, s.cores.idle ≠ [] ∧ (s.cores.idle.map (·.1)).Nodup :=
  ⟨{ idle with cores := { idle.cores with idle := [(8, { cs := [(0, wordOf 1 false)] })] } }, by decide +kernel⟩

/-- One daybook entry waits, that the host may read. -/
def booked : State := withMgmt (fun m => { m with waiting := [dayWord 49000 0x43 0 15 0x7F 0 24 0 0] }) idle

theorem witness_bookRelease : booked.mgmt.waiting ≠ [] ∧ booked.time.pll ≠ .off ∧ booked.hbm.merges = [] ∧ booked.mgmt.ring.length + 1 ≤ 8191 ∧
    (∀ e ∈ booked.mgmt.ring.getLast?, dayCode e.word ≠ 0x02) ∧ releaseAt (dayWord 49000 0x43 0 15 0x7F 0 24 0 0) = 49000 + 65536 ∧
    dayCode (dayWord 49000 0x43 0 15 0x7F 0 24 0 0) ≠ 0x02 := by decide +kernel

theorem witness_snapshot : ∃ s : State, rising 0 s.mgmt.ledger.figures = true ∧ s.time.pll ≠ .off ∧ s.mgmt.lastSnap + hourTicks < 2 ^ 64 :=
  ⟨idle, by decide +kernel⟩

/-- A core has been marked failed since the last record. -/
def failedCore : State := withMgmt (fun m => { m with ledger := { m.ledger with failed := [(3, 49000)] }, lastEvt := some 49000 }) idle

theorem witness_events : ∃ (s : State) (v : Nat), eventsWait s = true ∧ s.mgmt.lastEvt = some v ∧ s.time.pll ≠ .off ∧ v + 60 * 1800000000 < 2 ^ 64 :=
  ⟨failedCore, 49000, by decide +kernel⟩

theorem witness_noEvents : ∃ s : State, eventsWait s = false := ⟨State.reset, by decide +kernel⟩

/-- The result of an assay, and one in progress. -/
def result (kind : BitVec 4) (outcome : BitVec 4) (target : BitVec 16) : AssayResult := ⟨kind, outcome, target, 0, 0, 0⟩
def assayed (kind : BitVec 4) (target : BitVec 16) : State := withMgmt (fun m => { m with running := [{ kind := kind, target := target }] }) idle

theorem witness_assays : ∀ x ∈ [((1 : BitVec 4), (1 : BitVec 4), (71 : BitVec 16)), (3, 0, 15), (4, 0, 0)], ∃ (r : AssayResult) (s : State),
    ((s.mgmt.running.find? (fun a => a.kind = r.kind && a.target = r.target)).isSome = true) ∧ (r.kind, r.outcome, r.target) = x := by
  intro x hx
  simp only [List.mem_cons, List.not_mem_nil, or_false] at hx
  rcases hx with rfl | rfl | rfl
  · exact ⟨result 1 1 71, assayed 1 71, by decide +kernel⟩
  · exact ⟨result 3 0 15, assayed 3 15, by decide +kernel⟩
  · exact ⟨result 4 0 0, assayed 4 0, by decide +kernel⟩

theorem witness_noAssay : ∃ (r : AssayResult) (s : State), s.mgmt.running.find? (fun a => a.kind = r.kind && a.target = r.target) = none :=
  ⟨result 1 1 71, idle, by decide +kernel⟩

theorem witness_trimNow : ∃ s : State, trimFree s = true := ⟨idle, by decide +kernel⟩

/-- A job in a course, with a trim wanted or not. -/
def courseState (due : Bool) : State := { seqState {} with power := { (seqState {}).power with trimDue := due } }

theorem witness_trimWanted : ∃ (s : State) (n : Nat), trimFree s = false ∧ s.power.trimDue = false ∧ n ∈ runningTens s ∧
    (s.ten n).course.pending.length < 16 := ⟨courseState false, 0, by decide +kernel⟩

theorem witness_trimDue : ∃ s : State, trimFree s = false ∧ s.power.trimDue = true := ⟨courseState true, by decide +kernel⟩

/-- The sixteenth window in a row off by 15 % or more, with one job: it gets what the cap leaves. -/
theorem witness_reconcile : ∃ (measured : BitVec 48) (s : State) (n : Nat), runningTens s = [n] ∧ (s.ten n).weight ≠ 0 ∧ s.power.run = 15 ∧
    bitsN s.power.cap 10 0 * 105 * 10000 < measured.toNat := by
  refine ⟨0xFFFFFFFFFFFF, { chip id with power := { (chip id).power with run := 15 } }, 0, ?_⟩
  decide +kernel

/-- A course's temperatures. -/
def cool : Temps := ⟨359, List.replicate 8 399⟩

theorem cool_hbm : ∀ x ∈ cool.hbm, x.toNat < 400 := by
  intro x hx
  rw [List.eq_of_mem_replicate hx]
  decide

/-- A quiet chip at a boundary, its tenancy changed by `f`. -/
theorem quiet_of (s : State)
    (h : decide (tenancies s = [0] ∧ (s.ten 0).course.inCourse = false ∧ (s.ten 0).course.blank = none ∧ (s.ten 0).course.stopped = false ∧
      (s.ten 0).course.pending.length < 16 ∧ (s.ten 0).course.lag = 0 ∧ (s.ten 0).course.swap = none ∧ (s.ten 0).course.force = none ∧
      (s.ten 0).course.hostHold = false ∧ (s.ten 0).recov.ending = none ∧ (s.ten 0).recov.preempt = none ∧ (s.ten 0).recov.stopGot = none ∧
      (s.ten 0).recov.st = 0 ∧ (s.ten 0).recov.queue = [] ∧ s.hbm.reqs = [] ∧ s.hbm.later = [] ∧ (s.ten 0).close.cut = false ∧ (s.ten 0).close.due = false ∧ (s.ten 0).grant = 0 ∧
      cool.tj.toNat < 360 ∧ s.power.thermStep = 0 ∧ s.power.stackHot = []) = true) : quiet 0 cool s := by
  obtain ⟨a1, a2, a3, a4, a5, a6, a7, a8, a9, a10, a11, a12, a13, a14, a15, a16, a17, a18, a19, a20, a21, a22⟩ := of_decide_eq_true h
  exact ⟨a1, a2, a3, a4, a5, a6, a7, a8, a9, a10, a11, a12, a13, a14, a15, a16, a17, a18, a19, a20, a21, a22, cool_hbm⟩

/-- The state before a boundary: no course is begun, and the table's first entry names page 0 with tag 0. -/
theorem witness_nextCourse : ∃ (tp : Temps) (s : State), quiet 0 tp s ∧ s.time.pll ≠ .off ∧ (courseNow s + 1) * 16384 < 2 ^ 64 ∧
    (s.ten 0).load.st = .running ∧ pendingAt (s.ten 0).course.pending 4 = none ∧ opens s 0 ((aheadOf s 0).next s 0).entry = none ∧
    (∀ k ∈ jobCores s 0, pageTag s k (entPage (entryWord s 0 ((aheadOf s 0).next s 0).entry)) =
      entTag (entryWord s 0 ((aheadOf s 0).next s 0).entry)) ∧
    (match s.time.lastCourse with | none => decide (s.now % 16384 = 0) | some k => decide (k < courseNow s)) = false :=
  ⟨cool, chip id, quiet_of _ (by decide +kernel), by decide +kernel, by decide +kernel, by decide +kernel, by decide +kernel, by decide +kernel,
    by decide +kernel, by decide +kernel⟩

theorem witness_blankCourse : ∃ (tp : Temps) (s : State) (b : Blank), quiet 0 tp s ∧ s.time.pll ≠ .off ∧ (courseNow s + 1) * 16384 < 2 ^ 64 ∧
    (s.ten 0).load.st = .running ∧ pendingAt (s.ten 0).course.pending 4 = some b ∧ 4 ∉ (s.ten 0).course.consumed :=
  ⟨cool, chip (fun n => { n with course := { n.course with pending := [⟨4, 3, false⟩] } }), ⟨4, 3, false⟩, quiet_of _ (by decide +kernel),
    by decide +kernel⟩

theorem witness_launchCourse : ∃ (tp : Temps) (s : State), quiet 0 tp s ∧ s.time.pll ≠ .off ∧ (courseNow s + 1) * 16384 < 2 ^ 64 ∧
    (s.ten 0).load.st = .loaded ∧ (s.ten 0).launch.ready = true ∧ (s.ten 0).launch.course = some 4 :=
  ⟨cool, chip (fun n => { n with load := { n.load with st := .loaded }, launch := { n.launch with ready := true, course := some 4 } }),
    quiet_of _ (by decide +kernel), by decide +kernel⟩

/-- At a boundary not yet run, and with no clock. -/
theorem witness_atBoundary : ∃ s : State, s.time.pll ≠ .off ∧ s.time.lastCourse = none ∧ s.now % 16384 = 0 :=
  ⟨{ State.reset with time := { State.reset.time with pll := .freeRun } }, by decide +kernel⟩

theorem witness_noClock : ∃ s : State, s.time.pll = .off := ⟨State.reset, by decide +kernel⟩

/-! ### WellFormed -/

theorem test_ill_frameKind : illOf (.vote 0 (frame 5 1 4095 0 [])) = some .frameKind := by decide
theorem test_ill_frameLength : illOf (.dataParcel 0 (frame 0 1 5 0 (List.replicate 256 MemWord.zero))) = some .frameLength := by decide +kernel
theorem test_ill_stackCount : illOf (.courseBoundary ⟨0, []⟩) = some .stackCount := by decide
theorem test_ill_eventCount : illOf (.calibrationHole []) = some .eventCount := by decide
theorem test_ill_monitorCount : illOf (.cpmReport []) = some .monitorCount := by decide
theorem test_ill_offsetCount : illOf (.telemetry (req 0) [0, 8, 16, 24]) = some .offsetCount := by decide
theorem test_ill_slotCount : illOf (.mbxReqTail 0 0 (List.replicate 65 0)) = some .slotCount := by decide +kernel
theorem test_ill_writeSize : illOf (.registerWrite 0 false 0 2 0 false) = some .writeSize := by decide
theorem test_wellFormed : wellFormed (.registerWrite 0 false 0 8 0 false) = true := by decide

end Sys2Proof.Tests
end

section
/-! SUPPORT. What time that passes changes beside the tally: courses and escrow of tenancies, counters, and the end of the daybook's
waiting list (09 R219 to R223, R233, R244; 12 R317; 16 R430). -/

namespace Sys2Proof.Machine

open Sys2Proof

/-! ### Ages -/

/-- A tenancy changes in no more than its course and its escrow. -/
def Tenancy.ages (a b : Tenancy) : Prop := b = { a with course := b.course, escrow := b.escrow }

/-- Management changes in no more than daybook entries put behind those that wait. -/
def Mgmt.ages (a b : Mgmt) : Prop := ∃ ws, b = { a with waiting := a.waiting ++ ws }

/-- The chip counters that passing time raises: milliseconds of holdover (0x00) and swallowed ticks (0xA0). -/
def agingOffs : List Nat := [0x00, 0xA0]

/-- What passing time may change of tenancies, chip counters and management. -/
structure Ages (s t : State) : Prop where
  tens  : ∀ n, (s.ten n).ages (t.ten n)
  chip  : ∀ o, o < 0x1000 → o ∉ agingOffs → t.counter (chipOff o) = s.counter (chipOff o)
  mgmt  : s.mgmt.ages t.mgmt

theorem Tenancy.ages_refl (a : Tenancy) : a.ages a := rfl

theorem Tenancy.ages_trans {a b c : Tenancy} (h : a.ages b) (k : b.ages c) : a.ages c := by
  unfold Tenancy.ages at *
  rw [k, h]

theorem Tenancy.ages_of_talks {a b : Tenancy} (h : a.talks b) : a.ages b := by
  unfold Tenancy.talks at h
  unfold Tenancy.ages
  rw [h]

theorem Tenancy.ages_load {a b : Tenancy} (h : a.ages b) : b.load = a.load := by
  unfold Tenancy.ages at h
  rw [h]

theorem Tenancy.ages_recov {a b : Tenancy} (h : a.ages b) : b.recov = a.recov := by
  unfold Tenancy.ages at h
  rw [h]

theorem Mgmt.ages_refl (a : Mgmt) : a.ages a := ⟨[], by rw [List.append_nil]⟩

theorem Mgmt.ages_trans {a b c : Mgmt} (h : a.ages b) (k : b.ages c) : a.ages c := by
  obtain ⟨xs, rfl⟩ := h
  obtain ⟨ys, rfl⟩ := k
  exact ⟨xs ++ ys, by rw [List.append_assoc]⟩

theorem Mgmt.ages_length {a b : Mgmt} (h : a.ages b) : a.waiting.length ≤ b.waiting.length := by
  obtain ⟨ws, rfl⟩ := h
  rw [List.length_append]
  exact Nat.le_add_right _ _

theorem Ages.refl (s : State) : Ages s s := ⟨fun _ => Tenancy.ages_refl _, fun _ _ _ => rfl, Mgmt.ages_refl _⟩

theorem Ages.trans {s t u : State} (h : Ages s t) (k : Ages t u) : Ages s u :=
  ⟨fun n => Tenancy.ages_trans (h.tens n) (k.tens n), fun o ho hn => (k.chip o ho hn).trans (h.chip o ho hn),
    Mgmt.ages_trans h.mgmt k.mgmt⟩

theorem Ages.foldl {α : Type} {s t : State} {l : List α} {f : State → α → State} (h : Ages s t) (hf : ∀ u a, Ages u (f u a)) :
    Ages s (l.foldl f t) := by
  induction l generalizing t with
  | nil => exact h
  | cons a r ih => exact ih (h.trans (hf t a))

theorem Ages.ite {s a b : State} {c : Prop} [Decidable c] (ha : Ages s a) (hb : Ages s b) : Ages s (if c then a else b) := by
  split <;> assumption

/-- A change of no tenancy, counter or part of management. -/
theorem Ages.of_keeps {vs : List View} {s t : State} (h : Keeps vs s t) (ht : View.tens ∉ vs := by decide)
    (hc : View.counters ∉ vs := by decide) (hm : View.mgmt ∉ vs := by decide) : Ages s t where
  tens n := by rw [h.ten_eq n ht]; exact Tenancy.ages_refl _
  chip o _ _ := h.counter_eq _ hc
  mgmt := by rw [h.eq_mgmt hm]; exact Mgmt.ages_refl _

/-- A change of tenancies within their talk, and of no counter or part of management. -/
theorem Ages.of_talks {vs : List View} {s t : State} (h : Talks s t) (hk : Keeps vs s t) (hc : View.counters ∉ vs := by decide)
    (hm : View.mgmt ∉ vs := by decide) : Ages s t where
  tens n := Tenancy.ages_of_talks (h.1 n)
  chip o _ _ := hk.counter_eq _ hc
  mgmt := by rw [hk.eq_mgmt hm]; exact Mgmt.ages_refl _

/-! ### Counters, tenancies and the daybook -/

/-- A counter raised that is none of the chip's, or one that passing time raises. -/
theorem count_ages (s : State) {o : Nat} (n : Nat) (h : ∀ x, x < 0x1000 → x ∉ agingOffs → chipOff x ≠ o) : Ages s (s.count o n) where
  tens _ := Tenancy.ages_refl _
  chip x hx hn := by rw [State.counter_count, if_neg (h x hx hn)]
  mgmt := Mgmt.ages_refl _

theorem countChip_ages (s : State) {o : Nat} (n : Nat) (h : o ∈ agingOffs) : Ages s (s.countChip o n) :=
  count_ages s n (fun x _ hx e => hx (by rwa [Nat.add_left_cancel e]))

theorem countCore_ages (s : State) (c : Core) (o n : Nat) : Ages s (s.countCore c o n) :=
  count_ages s n (fun x hx _ => by unfold chipOff coreOff; omega)

theorem countTen_ages (s : State) (t o n : Nat) : Ages s (s.countTen t o n) :=
  count_ages s n (fun x hx _ => by unfold chipOff tenOff; omega)

theorem countStack_ages (s : State) (st o n : Nat) : Ages s (s.count (stackOff st o) n) :=
  count_ages s n (fun x hx _ => by unfold chipOff stackOff; omega)

theorem modTen_ages {s : State} {t : Nat} {f : Tenancy → Tenancy} (h : (s.ten t).ages (f (s.ten t))) : Ages s (s.modTen t f) where
  tens n := by
    by_cases e : n = t
    · subst e; rw [State.ten_modTen]; exact h
    · rw [State.ten_modTen_ne _ _ e]; exact Tenancy.ages_refl _
  chip _ _ _ := rfl
  mgmt := Mgmt.ages_refl _

theorem dayTen_ages (s : State) (t : Nat) (code : BitVec 8) (cls : BitVec 3) (a b c : Nat) : Ages s (s.dayTen t code cls a b c) :=
  ⟨fun _ => Tenancy.ages_refl _, fun _ _ _ => rfl, ⟨_, rfl⟩⟩

theorem charge_ages (s : State) (t : Option Nat) (e : Nat) (offs : List Nat) : Ages s (s.charge t e offs) :=
  .of_talks (charge_talks s t e offs) (State.charge_keeps (vs := [.tens, .power]) (Keeps.refl _ _) (by decide))

/-! ### Words written -/

theorem setMerges_ages (s : State) (sp : Space) (m : Sparse MergeEntry) : Ages s (s.setMerges sp m) :=
  .of_keeps (State.setMerges_keeps (vs := [.merges]) (Keeps.refl _ _) (by decide))

theorem writeWord_ages (s : State) (sp : Space) (a : Nat) (w : MemWord) : Ages s (s.writeWord sp a w) :=
  .of_keeps (State.writeWord_keeps (vs := [.cs, .mbox, .words]) (Keeps.refl _ _) (by decide))

theorem holdWrite_ages (s : State) (t m key : Nat) (w : MemWord) : Ages s (s.holdWrite t m key w) := by
  unfold State.holdWrite
  dsimp only
  split
  · exact modTen_ages rfl
  · refine .ite ((Ages.trans (modTen_ages ?_) (countTen_ages _ _ _ _)).trans (dayTen_ages _ _ _ _ _ _ _))
      (Ages.trans (modTen_ages ?_) (countTen_ages _ _ _ _)) <;> rfl

theorem writeFore_ages (s : State) (t at' key : Nat) (w : MemWord) : Ages s (s.writeFore t at' key w) := by
  unfold State.writeFore
  split
  · exact holdWrite_ages _ _ _ _ _
  · exact writeWord_ages _ _ _ _

theorem writeWhole_cs (s : State) (t : Option Nat) (c : Core) (a : Nat) (w : MemWord) :
    s.writeWhole t (.cs c) a w = (s.writeWord (.cs c) a w).chargeCore c 10 1 0x1A0 := by
  cases t <;> rfl

theorem writeWhole_cs_ages (s : State) (t : Option Nat) (c : Core) (a : Nat) (w : MemWord) : Ages s (s.writeWhole t (.cs c) a w) := by
  rw [writeWhole_cs]
  exact (writeWord_ages _ _ _ _).trans (charge_ages _ _ _ _)

theorem writeWhole_hbm_ages (s : State) (t : Option Nat) (a : Nat) (w : MemWord) : Ages s (s.writeWhole t .hbm a w) := by
  cases t with
  | none => exact writeWord_ages s .hbm a w
  | some t => exact (writeFore_ages s t a a w).trans (charge_ages _ (some t) _ _)

/-! ### Merge entries written out -/

theorem closeMerge_cs_ages (s : State) (t : Option Nat) (c : Core) (a : Nat) (e : MergeEntry) : Ages s (s.closeMerge t (.cs c) a e) :=
  ((setMerges_ages _ _ _).trans (writeWhole_cs_ages _ _ _ _ _)).trans (countCore_ages _ _ _ _)

theorem closeMerge_hbm_ages (s : State) (t : Option Nat) (a : Nat) (e : MergeEntry) : Ages s (s.closeMerge t .hbm a e) :=
  ((setMerges_ages _ _ _).trans (writeWhole_hbm_ages _ _ _ _)).trans (countStack_ages _ _ _ _)

theorem settleMerges_ages (s : State) : Ages s s.settleMerges :=
  Ages.foldl (Ages.foldl (Ages.refl s) (fun _ _ => .ite (closeMerge_cs_ages _ _ _ _ _) (Ages.refl _)))
    (fun _ _ => .ite (closeMerge_hbm_ages _ _ _ _) (Ages.refl _))

/-- A word of core store written changes core stores alone. -/
theorem writeWord_cs_keeps (s : State) (c : Core) (a : Nat) (w : MemWord) : Keeps [.cs] s (s.writeWord (.cs c) a w) where
  pending := rfl
  ident := rfl
  wf := fun ⟨⟨hcs, hrest⟩, hw⟩ => ⟨⟨memPut_wf _ _ hcs, hrest⟩, hw⟩
  same v hv := by cases v <;> simp_all [View.same, View.sameCores, View.sameHbm, State.writeWord]

/-- An entry of a core store written out reaches neither HBM's words nor management. -/
theorem closeMerge_cs_keeps (s : State) (t : Option Nat) (c : Core) (a : Nat) (e : MergeEntry) :
    Keeps [.cs, .merges, .tens, .counters, .power] s (s.closeMerge t (.cs c) a e) := by
  unfold State.closeMerge
  rw [writeWhole_cs]
  have h : Keeps [.merges] s (s.setMerges (.cs c) (del (mergesOf s (.cs c)) (mergeKey (.cs c) a))) :=
    State.setMerges_keeps (Keeps.refl _ _) (by decide)
  exact State.countCore_keeps (State.chargeCore_keeps ((h.mono (by decide)).then (by decide) (writeWord_cs_keeps _ _ _ _)) (by decide))
    (by decide)

/-- With no entry open on HBM, the entries that end are those of core stores. -/
theorem settleMerges_keeps_of_noHbm {s : State} (h : s.hbm.merges = []) :
    Keeps [.cs, .merges, .tens, .counters, .power] s s.settleMerges := by
  unfold State.settleMerges
  rw [h, List.foldl_nil]
  exact Keeps.foldl (Keeps.refl _ _) (fun u _ k => .ite (k.trans (closeMerge_cs_keeps u _ _ _ _)) k)

/-! ### Ticks -/

theorem countIdle_ages (s : State) (t n : Nat) : Ages s (s.countIdle t n) :=
  (Ages.refl s).foldl (fun u _ => (Ages.refl u).foldl (fun v _ => .ite (Ages.refl v) (countCore_ages _ _ _ _)))

theorem addStall_ages (s : State) (t n : Nat) : Ages s (s.addStall t n) :=
  .ite (modTen_ages rfl) (Ages.refl s)

/-- What `n` ticks count before the tally moves: idle cycles, stalls, swallowed ticks and the milliseconds of holdover. -/
def State.countTicks (s : State) (n : Nat) : State :=
  let s1 := (tenancies s).foldl (fun (u : State) t => (u.countIdle t n).addStall t n) s
  let s2 := if swallowed s s.now n = 0 then s1 else s1.countChip 0xA0 (swallowed s s.now n)
  if s.time.pll = .holdover then
    { (s2.countChip 0 ((s.time.msHold + n) / 1800000)) with time := { s2.time with msHold := (s.time.msHold + n) % 1800000 } }
  else s2

/-- Passing time counts its ticks, moves the tally and writes out the merge entries that end. -/
theorem State.pass_eq (s : State) (n : Nat) : s.pass n = if clockOn s && n ≠ 0 then
    ({ s.countTicks n with time := { (s.countTicks n).time with tally := (s.countTicks n).time.tally + BitVec.ofNat 64 n } }).settleMerges
    else s := rfl

theorem setTime_keeps (s : State) (ti : Time) : Keeps [.time] s { s with time := ti } where
  pending := rfl
  ident := rfl
  wf := id
  same v hv := by cases v <;> simp_all [View.same, View.sameCores, View.sameHbm]

theorem setTime_ages (s : State) (ti : Time) : Ages s { s with time := ti } :=
  ⟨fun _ => Tenancy.ages_refl _, fun _ _ _ => rfl, Mgmt.ages_refl _⟩

theorem countTicks_ages (s : State) (n : Nat) : Ages s (s.countTicks n) := by
  have h1 : Ages s ((tenancies s).foldl (fun (u : State) t => (u.countIdle t n).addStall t n) s) :=
    (Ages.refl s).foldl (fun _ _ => (countIdle_ages _ _ _).trans (addStall_ages _ _ _))
  have h2 := Ages.ite (c := swallowed s s.now n = 0) h1 (h1.trans (countChip_ages _ (swallowed s s.now n) (o := 0xA0) (by decide)))
  exact .ite ((h2.trans (countChip_ages _ _ (by decide))).trans (setTime_ages _ _)) h2

theorem countTicks_keeps (s : State) (n : Nat) : Keeps [.tens, .counters, .time] s (s.countTicks n) := by
  have h1 : Keeps [.tens, .counters, .time] s ((tenancies s).foldl (fun (u : State) t => (u.countIdle t n).addStall t n) s) :=
    Keeps.foldl (Keeps.refl _ _) (fun _ _ k => State.addStall_keeps (State.countIdle_keeps k (by decide)) (by decide))
  have h2 := Keeps.ite (c := swallowed s s.now n = 0) h1
    (State.countChip_keeps (off := 0xA0) (n := swallowed s s.now n) h1 (by decide))
  exact .ite ((State.countChip_keeps h2 (by decide)).then (by decide) (setTime_keeps _ _)) h2

theorem pass_ages (s : State) (n : Nat) : Ages s (s.pass n) := by
  rw [State.pass_eq]
  exact .ite (((countTicks_ages s n).trans (setTime_ages _ _)).trans (settleMerges_ages _)) (Ages.refl s)

/-- With no merge entry open on HBM, time that passes leaves HBM's words and management. -/
theorem pass_keeps_of_noHbm {s : State} (n : Nat) (h : s.hbm.merges = []) :
    Keeps [.cs, .merges, .tens, .counters, .time, .power] s (s.pass n) := by
  rw [State.pass_eq]
  have hk := (countTicks_keeps s n).then (by decide) (setTime_keeps (s.countTicks n)
    { (s.countTicks n).time with tally := (s.countTicks n).time.tally + BitVec.ofNat 64 n })
  exact .ite ((hk.mono (by decide)).then (by decide) (settleMerges_keeps_of_noHbm (hk.eq_hbmMerges.trans h))) (Keeps.refl _ s)

theorem passTo_ages (s : State) (v : Nat) : Ages s (s.passTo v) := pass_ages s _

theorem passTo_keeps_of_noHbm {s : State} (v : Nat) (h : s.hbm.merges = []) :
    Keeps [.cs, .merges, .tens, .counters, .time, .power] s (s.passTo v) := pass_keeps_of_noHbm _ h

/-- With the clock on, time passes to a tally that lies ahead, and stands at one that is past. -/
theorem passTo_now {s : State} {v : Nat} (hc : s.time.pll ≠ .off) (hv : v < 2 ^ 64) : (s.passTo v).now = max s.now v := by
  have hn : s.now < 2 ^ 64 := s.time.tally.isLt
  calc (s.passTo v).now = (s.now + (v - s.now) % 2 ^ 64) % 2 ^ 64 := by
        unfold State.passTo State.now
        rw [State.pass_tally _ _ hc, BitVec.toNat_add, BitVec.toNat_ofNat]
    _ = max s.now v := by omega

/-- Of HBM, time that passes may change words and what waits of them. -/
theorem passTo_hbm (s : State) (v : Nat) :
    (s.passTo v).hbm = { s.hbm with words := (s.passTo v).hbm.words, merges := (s.passTo v).hbm.merges } := by
  have h : ({ (s.passTo v).hbm with words := [], merges := [] } : Hbm) = { s.hbm with words := [], merges := [] } :=
    ((State.passTo_keeps (Keeps.refl Claims.timeViews s) (by decide)).same .service (by decide)).2.1
  exact congrArg (fun x : Hbm => { x with words := (s.passTo v).hbm.words, merges := (s.passTo v).hbm.merges }) h

end Sys2Proof.Machine
end

section
/-! SUPPORT. The statement ScrubBehind (12 R327): time passes to the tick after the pass's 24 hours, and the pass is then logged. -/

namespace Sys2Proof.Machine

open Sys2Proof Sys2Proof.Claims

/-! ### The entry of a late pass -/

/-- The daybook entry of a pass that is late at this tally, with its hours. -/
def behindWord (s : State) : BitVec 256 := dayWord s.time.tally 0x43 0 15 0x7F 0 ((s.now - s.hbm.passStart) / hourTicks) 0 0

/-- A pass longer than 24 hours is marked, noted and counted. -/
theorem logBehind_late {s : State} (hd : dayTicks < s.now - s.hbm.passStart) (hl : s.hbm.lateLog = false) :
    s.logBehind = (({ s with
      hbm := { s.hbm with lateLog := true }
      mgmt := { s.mgmt with waiting := s.mgmt.waiting ++ [behindWord s] } } : State).countChip 0x20 1) := by
  unfold State.logBehind
  rw [if_pos (by simp [hd, hl])]
  rfl

theorem exec_scrubBehind (s : State) : exec .scrubBehind s = execScrubBehind s := rfl

/-- A pass already noted is not noted again. -/
theorem scrubBehind_logged {s : State} (h : s.hbm.lateLog = true) : exec .scrubBehind s = .next s := by
  rw [exec_scrubBehind, execScrubBehind, h, Bool.or_true, if_pos rfl]

/-- With the clock on, time passes to the end of the pass's 24 hours and the pass is logged. -/
theorem scrubBehind_late {s : State} (hc : s.time.pll ≠ .off) (hl : s.hbm.lateLog = false) :
    exec .scrubBehind s = .next (s.passTo (s.hbm.passStart + dayTicks + 1)).logBehind := by
  rw [exec_scrubBehind, execScrubBehind, if_neg (by simp [clockOn, hc, hl])]

/-- Settles O57 (12 R327): by `passTo_ages` time that passes leaves the counter, the tenancies' loads and recovery, and the entries that
wait; the late pass is logged behind them. That time passes to the moment only where it lies ahead is the model's choice (log entry 14). -/
theorem scrubBehind : Obligations.ScrubBehind := by
  unfold Obligations.ScrubBehind
  refine fun s => ⟨scrubBehind_logged, fun hc hl hv _ => ⟨_, scrubBehind_late hc hl, ?_⟩⟩
  set u := s.passTo (s.hbm.passStart + dayTicks + 1)
  have hnow : u.now = max s.now (s.hbm.passStart + dayTicks + 1) := passTo_now hc hv
  have hhbm : u.hbm = { s.hbm with words := u.hbm.words, merges := u.hbm.merges } := passTo_hbm s _
  have hages : Ages s u := passTo_ages s _
  have hquiet : s.hbm.merges = [] → Keeps [.cs, .merges, .tens, .counters, .time, .power] s u := passTo_keeps_of_noHbm _
  have hstart : u.hbm.passStart = s.hbm.passStart := by rw [hhbm]
  have hlate : u.hbm.lateLog = false := by rw [hhbm]; exact hl
  have hkeeps : Keeps (.service :: timeViews) s u.logBehind :=
    State.logBehind_keeps (State.passTo_keeps (Keeps.refl _ s) (by decide)) (by decide)
  have hword : behindWord u = dayWord u.time.tally 0x43 0 15 0x7F 0 ((u.now - s.hbm.passStart) / hourTicks) 0 0 := by
    rw [behindWord, hstart]
  rw [logBehind_late (by omega) hlate, hword] at hkeeps ⊢
  refine ⟨hnow, ?hbm, ?counted, ⟨?noted, fun hm => ⟨(hquiet hm).eq_words, ?onlyNoted⟩⟩, fun n => ?ten, hkeeps⟩
  case hbm => exact congrArg (fun x : Hbm => { x with lateLog := true }) hhbm
  case counted =>
    have h : u.counter (chipOff 0x20) = s.counter (chipOff 0x20) := hages.chip 0x20 (by decide) (by decide)
    unfold counted State.countChip
    rw [State.counter_count, if_pos rfl, ← h]
    rfl
  case noted =>
    have hlen : s.mgmt.waiting.length ≤ u.mgmt.waiting.length := Mgmt.ages_length hages.mgmt
    show _ ∈ List.drop _ (u.mgmt.waiting ++ [_])
    rw [List.drop_append_of_le_length hlen]
    exact List.mem_append_right _ (List.mem_singleton_self _)
  case onlyNoted => rw [← (hquiet hm).eq_mgmt]; rfl
  case ten => exact ⟨(Tenancy.ages_load (hages.tens n)).symm, (Tenancy.ages_recov (hages.tens n)).symm⟩

end Sys2Proof.Machine
end

section
/-! SUPPORT. The statement DeviceId (20 R533): the PF's first register is DEV_ID, and its fields are fixed by the part and the stepping. -/

namespace Sys2Proof.Machine

open Sys2Proof

/-! ### The read of DEV_ID -/

theorem regRead_pf (s : State) (o : Nat) : regRead s 0 o = pfReg s o := if_pos rfl

/-- The first page of the PF's map is the identity page (20 Table 20.1). -/
theorem pfReg_identity (s : State) {o : Nat} (h : o < 0x1000) : pfReg s o = identReg s o := if_pos h

theorem identReg_zero (s : State) : identReg s 0 = devId s := rfl

/-! ### Its fields by part: the part number, the stepping, the cores and the grid's width (20 Table 20.4) -/

theorem devId_of_64L {s : State} (h : s.ident.is64 = true) :
    devId s = regOf [0x7064, flagAt s.ident.isB0 16, 64 * 2 ^ 20, 8 * 2 ^ 27] := by
  rw [devId, gridW, h]; rfl

theorem devId_of_56L {s : State} (h : s.ident.is64 = false) :
    devId s = regOf [0x7056, flagAt s.ident.isB0 16, 56 * 2 ^ 20, 7 * 2 ^ 27] := by
  rw [devId, gridW, h]; rfl

/-- Settles O52 (20 R533): a read of the PF at offset 0 reaches DEV_ID in every state; the part fixes all its fields but the stepping, and
for each of the two steppings their sum is the value of R533. -/
theorem deviceId : Obligations.DeviceId := by
  unfold Obligations.DeviceId
  intro s
  rw [regRead_pf, pfReg_identity s (by decide), identReg_zero]
  cases hpart : s.ident.is64 with
  | true =>
    rw [devId_of_64L hpart]
    cases s.ident.isB0 with
    | true => decide
    | false => decide
  | false =>
    rw [devId_of_56L hpart]
    cases s.ident.isB0 with
    | true => decide
    | false => decide

end Sys2Proof.Machine
end

section
/-! SUPPORT. The statements about every command and every step: a step runs the front of the queue or one tick, every command completes,
and the canonical forms are kept (12 R309, R311; 95). -/

namespace Sys2Proof.Machine

open Sys2Proof Sys2Proof.Claims

set_option Elab.async false

/-- One tick of time answers a next state and keeps all but what time changes. -/
theorem pass_keeps_time (s : State) (n : Nat) : Keeps timeViews s (s.pass n) := State.pass_keeps (Keeps.refl _ s) (by decide)

theorem Keeps.queueWf {vs : List View} {s t : State} (h : Keeps vs s t) (hq : s.queueWf) : t.queueWf := by
  unfold State.queueWf
  rwa [h.pending]

/-- Every step keeps the stores' canonical form, and the queue but for the command it runs. -/
theorem step_keeps_wf {s t : State} (hw : s.wf) (hq : s.queueWf) (h : step s = .next t) : t.wf ∧ t.queueWf := by
  match hp : s.pending with
  | [] =>
    rw [step_idle s hp] at h
    cases h
    have hk := pass_keeps_time s 1
    exact ⟨hk.wf hw, hk.queueWf hq⟩
  | i :: rest =>
    have hrun : step s = exec i { s with pending := rest } := by
      rw [← step_push]
      exact congrArg step (by rw [← hp])
    obtain ⟨u, hu, hk⟩ := exec_keeps i { s with pending := rest }
    rw [hrun, hu] at h
    cases h
    have hrest : State.queueWf { s with pending := rest } := fun j hj => hq j (by rw [hp]; exact List.mem_cons_of_mem _ hj)
    exact ⟨hk.wf hw, hk.queueWf hrest⟩

/-- Settles O4: a step runs the command at the front, of which `exec_keeps` says that it keeps the canonical forms, or one tick. -/
theorem stepKeepsForm : Obligations.StepKeepsForm := by
  unfold Obligations.StepKeepsForm
  exact fun _ _ => step_keeps_wf

/-- Settles O3: by `exec_keeps`, whatever the command. -/
theorem everyCommandCompletes : Obligations.EveryCommandCompletes := by
  unfold Obligations.EveryCommandCompletes
  intro i s
  obtain ⟨t, ht, hk⟩ := exec_keeps i s
  exact ⟨t, ht, hk.pending, hk.ident⟩

/-- Settles O1: `step` at a queue with a front is `exec` of the front on the state with the rest. -/
theorem stepRunsFront : Obligations.StepRunsFront := by
  unfold Obligations.StepRunsFront
  exact step_push

/-- Settles O2: with the clock on the tally moves by one tick (`State.pass_tally`), with the PLL off time stands (`State.pass_off`). That an
idle step is one tick is the model's choice (log entry 7). -/
theorem emptyQueueIsOneTick : Obligations.EmptyQueueIsOneTick := by
  unfold Obligations.EmptyQueueIsOneTick
  intro s hs
  exact ⟨s.pass 1, step_idle s hs, s.pass_tally 1, s.pass_off 1, pass_keeps_time s 1⟩

/-- Settles O5: at reset every store is empty, and so is the queue. -/
theorem resetForm : Obligations.ResetForm := by
  unfold Obligations.ResetForm
  have hqueue : State.reset.queueWf := fun i hi => absurd hi (by simp [State.reset])
  have hidle : ∀ x ∈ State.reset.cores.idle, x.2.wf := fun x hx => absurd hx (by simp [State.reset])
  exact ⟨⟨⟨rfl, rfl, rfl, hidle⟩, rfl⟩, hqueue⟩

end Sys2Proof.Machine
end

section
/-! SUPPORT. The statements about the vector unit, the row engine and the purse: what an instruction whose checks pass stores, occupies and
leaves (06 R135, R143 to R158; 11 R292, R295, R296). -/

namespace Sys2Proof.Machine

open Sys2Proof Sys2Proof.Claims

set_option Elab.async false

/-! ### An operation issued alone in its slot -/

/-- Writes after the ports claimed, and held to the operation's end, are writes from the state at issue. -/
theorem Writes.issued {ws : List ((Bank × Nat) × Out)} {rs : List (Bank × Nat)} {s s1 t : State} {c : Core} {ps : List PortRun}
    (hp : s.claimPorts c ps = .ok s1) (h : Writes ws rs s1 t) : Writes ws rs s t := by
  have hk : Writes [] [] s s1 := (claimPorts_keeps hp).writes
  have hc := hk.after_reads h
  rwa [List.nil_append] at hc

/-- The unit that an operation takes stays taken when its merge entries are held to its end. -/
theorem holdTill_vxBusy (s : State) (c : Core) (n : Nat) : (s.holdTill c n).cores.vxBusy = s.cores.vxBusy := (holdTill_keeps s c n).eq_vxBusy

theorem holdTill_rwBusy (s : State) (c : Core) (n : Nat) : (s.holdTill c n).cores.rwBusy = s.cores.rwBusy := (holdTill_keeps s c n).eq_rwBusy

/-! ### Vector instructions -/

/-- Each vector row runs its operation in slot VX (06 Tables 06.1 to 06.3). -/
theorem exec_vectorRow : ∀ x ∈ vectorRows, ∀ (c : Core) (a : VxArgs) (s : State),
    exec (x.1 c a) s = .next (slotOp c 1 (vxAct x.2 c a) s s) := by
  simp only [vectorRows, List.forall_mem_cons, List.not_mem_nil, IsEmpty.forall_iff, implies_true, and_true]
  repeat' apply And.intro
  all_goals exact fun _ _ _ => rfl

/-- A vector instruction whose checks pass and whose merge entries have room runs, and holds its entries to its end. -/
theorem vxAct_ok {op : VxOp} {c : Core} {a : VxArgs} {rd s s1 : State} {p : VxPlan} (hp : vxPlan op c a rd = .ok p)
    (hc : s.claimPorts c (p.ports op a.bf16 rd) = .ok s1) (hm : (vxRun op c a p rd s1).mergesFit) :
    vxAct op c a rd s = .ok ((vxRun op c a p rd s1).holdTill c (opEnd (unitClock rd c) (p.ports op a.bf16 rd))) := by
  unfold vxAct
  rw [hp]
  show (s.claimPorts c (p.ports op a.bf16 rd) >>= fun s1 => (vxRun op c a p rd s1).holdMerges rd c (p.ports op a.bf16 rd)) = _
  rw [hc]
  exact holdMerges_fit hm rd c _

/-- Settles O6: `vxRun_writes` gives its words, `vxRun_busy` its unit; ports claimed and merge entries held leave both. -/
theorem vectorInstructions : Obligations.VectorInstructions := by
  unfold Obligations.VectorInstructions
  intro x hx c a s s1 p hi hp hc hm
  have hok := vxAct_ok hp hc hm
  refine ⟨_, (exec_vectorRow x hx c a s).trans (congrArg _ (slotOp_ok hi hok)), ?_, ?_, ?_⟩
  · exact ((vxRun_writes x.2 c a p s s1).issued hc).hold c _
  · rw [holdTill_vxBusy, vxRun_busy]
  · exact (vxAct_keeps (Keeps.refl _ _) (by decide)).getOk hok

/-! ### Row instructions -/

/-- Each row instruction runs its plan in slot RW (06 Tables 06.4, 06.5). -/
theorem exec_rowRow : ∀ x ∈ rowRows, ∀ (c : Core) (a : RowArgs) (s : State),
    exec (x.1 c a) s = .next (slotOp c 2 (rowDo (x.2 c a) c a) s s) := by
  simp only [rowRows, List.forall_mem_cons, List.not_mem_nil, IsEmpty.forall_iff, implies_true, and_true]
  repeat' apply And.intro
  all_goals exact fun _ _ _ => rfl

/-- The checks of a row instruction leave no state. -/
theorem rowRow_noAfter : ∀ x ∈ rowRows, ∀ (c : Core) (a : RowArgs) (s : State), NoAfter (x.2 c a s) := by
  simp only [rowRows, List.forall_mem_cons, List.not_mem_nil, IsEmpty.forall_iff, implies_true, and_true]
  exact ⟨fun _ _ _ => rnormPlan_noAfter, fun _ _ _ => rnormbPlan_noAfter, fun _ _ _ => rsmaxPlan_noAfter,
    fun _ _ _ => rsmaxbPlan_noAfter, fun _ _ _ => rfoldPlan_noAfter, fun _ _ _ => rxentPlan_noAfter,
    fun _ _ _ => rroutePlan_noAfter, fun _ _ _ => rroutebPlan_noAfter, fun _ _ _ => rcombPlan_noAfter⟩

/-- A row instruction whose checks pass, whose rows all run and whose merge entries have room runs. -/
theorem rowDo_ok {plan : State → Res RowPlan} {c : Core} {a : RowArgs} {rd s s1 : State} {p : RowPlan} (hp : plan rd = .ok p)
    (hc : s.claimPorts c (p.ports c a rd) = .ok s1) (hm : (rowRun c a p rd s1).mergesFit) (hr : p.res.2 = none) :
    rowDo plan c a rd s = .ok ((rowRun c a p rd s1).holdTill c (opEnd (unitClock rd c) (p.ports c a rd))) := by
  unfold rowDo
  rw [hp]
  show (s.claimPorts c (p.ports c a rd) >>= fun s1 => (rowRun c a p rd s1).holdMerges rd c (p.ports c a rd) >>= fun s2 =>
    match p.res.2 with | none => pure s2 | some k => throw (.after s2 k 0)) = _
  rw [hc]
  show ((rowRun c a p rd s1).holdMerges rd c (p.ports c a rd) >>= fun s2 =>
    match p.res.2 with | none => pure s2 | some k => throw (.after s2 k 0)) = _
  rw [holdMerges_fit hm, hr]
  rfl

/-- A row operation that neither reads nor writes purse entries leaves the purse. -/
theorem rowRun_purse_eq {c : Core} {a : RowArgs} {p : RowPlan} (rd s : State) (h1 : p.h.reads = false) (h2 : p.h.writes = false) :
    (rowRun c a p rd s).cores.purse = s.cores.purse := by
  have hwrote : Keeps [.cs, .mbox, .hall, .merges, .words, .service, .stores, .tens, .counters, .fabric, .mgmt, .power, .fresh] s
      (rowWroteAll c a p rd s) :=
    rowRaw_keeps (rowWrite_keeps (rowWrite_keeps (rowReads_keeps (Keeps.refl _ _) (by decide)) (by decide)) (by decide)) (by decide)
  rw [(rowRun_purse c a p rd s h1 h2).eq_purse, hwrote.eq_purse]

theorem rcsumAct_ok {c : Core} {a : RowArgs} {rd s s1 : State} {p : CsumPlan} (hp : rcsumPlan c a rd = .ok p)
    (hc : s.claimPorts c (p.ports c a rd) = .ok s1) (hm : (rcsumRun c a p rd s1).mergesFit) :
    rcsumAct c a rd s = .ok ((rcsumRun c a p rd s1).holdTill c (opEnd (unitClock rd c) (p.ports c a rd))) := by
  unfold rcsumAct
  rw [hp]
  show (s.claimPorts c (p.ports c a rd) >>= fun s1 => (rcsumRun c a p rd s1).holdMerges rd c (p.ports c a rd)) = _
  rw [hc]
  exact holdMerges_fit hm rd c _

/-- `RCSUM` stores its sums and takes the row engine (06 R150). -/
theorem columnSums_hold : columnSums := by
  unfold columnSums
  intro c a s s1 p hi hp hc hm
  have hok := rcsumAct_ok hp hc hm
  have hexec : exec (.rcsum c a) s = .next (slotOp c 2 (rcsumAct c a) s s) := rfl
  refine ⟨_, hexec.trans (congrArg _ (slotOp_ok hi hok)), ?_, ?_, ?_⟩
  · exact ((rcsumRun_writes c a p s s1).issued hc).hold c _
  · rw [holdTill_rwBusy, rcsumRun_busy]
  · exact (rcsumAct_keeps (Keeps.refl _ _) (by decide)).getOk hok

/-- Settles O8: `rowRun_writes` and `rowRun_busy` give the words and the engine of a row instruction, `columnSums_hold` those of `RCSUM`. -/
theorem rowInstructions : Obligations.RowInstructions := by
  unfold Obligations.RowInstructions
  refine ⟨fun x hx c a s s1 p hi hp hc hm hr => ?_, columnSums_hold⟩
  have hok := rowDo_ok hp hc hm hr
  refine ⟨_, (exec_rowRow x hx c a s).trans (congrArg _ (slotOp_ok hi hok)), ?_, ?_, fun h1 h2 => ?_, ?_⟩
  · exact ((rowRun_writes c a p s s1).issued hc).hold c _
  · rw [holdTill_rwBusy, rowRun_busy]
  · rw [(holdTill_keeps _ _ _).eq_purse, rowRun_purse_eq s s1 h1 h2, (claimPorts_keeps hc).eq_purse]
  · exact (rowDo_keeps (Keeps.refl _ _) (by decide) (rowRow_noAfter x hx c a)).getOk hok

/-! ### Purse instructions -/

/-- A purse instruction issues with its groups within the purse. -/
theorem purseIssue_ok {c : Core} {g : BitVec 6} {n : Nat} {rd : State} {u : Unit} (h : purseIssue c g n rd = .ok u) : g.toNat + n ≤ 64 := by
  unfold purseIssue at h
  obtain ⟨_, -, h⟩ := bind_ok h
  simpa using need_ok h

theorem purseIssue_pass {c : Core} {g : BitVec 6} {n : Nat} {rd : State} (hb : look rd.cores.rwBusy 0 c.val ≤ unitClock rd c)
    (hg : g.toNat + n ≤ 64) : purseIssue c g n rd = .ok () := by
  unfold purseIssue need
  rw [decide_eq_true hb, decide_eq_true hg]
  rfl

theorem pspillPlan_groups {c : Core} {desc : BitVec 10} {g n : BitVec 6} {rd : State} {p : SpillPlan}
    (h : pspillPlan c desc g n rd = .ok p) : g.toNat + zeroIs 64 n ≤ 64 := by
  unfold pspillPlan at h
  obtain ⟨_, hi, -⟩ := bind_ok h
  exact purseIssue_ok hi

theorem pfillPlan_groups {c : Core} {desc : BitVec 10} {g n : BitVec 6} {rd : State} {p : BitVec 512 × Nat}
    (h : pfillPlan c desc g n rd = .ok p) : g.toNat + zeroIs 64 n ≤ 64 := by
  unfold pfillPlan at h
  obtain ⟨_, hi, -⟩ := bind_ok h
  exact purseIssue_ok hi

theorem pspillAct_ok {c : Core} {desc : BitVec 10} {g n : BitVec 6} {release : Bool} {rd s s1 : State} {p : SpillPlan}
    (hp : pspillPlan c desc g n rd = .ok p) (hc : s.claimPorts c [.solid (unitClock rd c + 1) (8 * zeroIs 64 n) 0 1] = .ok s1) :
    pspillAct c desc g n release rd s = .ok (pspillRun c g n release p rd s1) := by
  unfold pspillAct
  rw [hp]
  exact congrArg (fun r => r >>= fun s1 => pure (pspillRun c g n release p rd s1)) hc

theorem pfillAct_ok {c : Core} {desc : BitVec 10} {g n : BitVec 6} {rd s s1 : State} {p : BitVec 512 × Nat}
    (hp : pfillPlan c desc g n rd = .ok p) (hc : s.claimPorts c [.solid (unitClock rd c + 1) (8 * zeroIs 64 n) 1 0] = .ok s1) :
    pfillAct c desc g n rd s = .ok (pfillRun c g n p rd s1) := by
  unfold pfillAct
  rw [hp]
  exact congrArg (fun r => r >>= fun s1 => pure (pfillRun c g n p rd s1)) hc

theorem pclrAct_ok {c : Core} {g n : BitVec 6} {rd s : State} (hb : look rd.cores.rwBusy 0 c.val ≤ unitClock rd c)
    (hg : g.toNat + zeroIs 64 n ≤ 64) :
    pclrAct c g n rd s = .ok ((s.clearValid c (64 * g.toNat) (64 * zeroIs 64 n)).takeRow c (unitClock rd c + 1)) := by
  unfold pclrAct
  rw [purseIssue_pass hb hg]
  rfl

theorem pspillRun_busy (c : Core) (g n : BitVec 6) (release : Bool) (p : SpillPlan) (rd s : State) :
    look (pspillRun c g n release p rd s).cores.rwBusy 0 c.val = unitClock rd c + 8 * zeroIs 64 n + 1 := State.takeRow_busy _ _ _

theorem pfillRun_busy (c : Core) (g n : BitVec 6) (p : BitVec 512 × Nat) (rd s : State) :
    look (pfillRun c g n p rd s).cores.rwBusy 0 c.val = unitClock rd c + 8 * zeroIs 64 n + 1 := State.takeRow_busy _ _ _

/-- Settles O9: a spill by `pspillRun_writes` and `pspillRun_valid`, a fill by `pfillRun_writes` and `pfillRun_purse`, a clear by
`purseAt_clearValid`; ports claimed before leave the purse. -/
theorem purseInstructions : Obligations.PurseInstructions := by
  unfold Obligations.PurseInstructions
  intro c desc g n release s s1 hi
  refine ⟨fun p hp hc => ?spill, fun p hp hc => ?fill, fun hb hg => ?clear⟩
  case spill =>
    have hok := pspillAct_ok (release := release) hp hc
    have hexec : exec (.pspill c desc g n release) s = .next (slotOp c 2 (pspillAct c desc g n release) s s) := rfl
    refine ⟨_, hexec.trans (congrArg _ (slotOp_ok hi hok)), ?_, fun d k hk => ?_, pspillRun_busy _ _ _ _ _ _ _, ?_⟩
    · exact (pspillRun_writes c g n release p s s1).issued hc
    · rw [pspillRun_valid c g n release p s s1 (pspillPlan_groups hp) d k hk, purse_of_keeps (claimPorts_keeps hc)]
    · exact (pspillAct_keeps (Keeps.refl _ _) (by decide)).getOk hok
  case fill =>
    have hok := pfillAct_ok hp hc
    have hexec : exec (.pfill c desc g n) s = .next (slotOp c 2 (pfillAct c desc g n) s s) := rfl
    refine ⟨_, hexec.trans (congrArg _ (slotOp_ok hi hok)), ?_, fun d k hk => ?_, pfillRun_busy _ _ _ _ _ _, ?_⟩
    · exact (pfillRun_writes c g n p s s1).issued hc
    · rw [pfillRun_purse c g n p s s1 (pfillPlan_groups hp) d k hk, purse_of_keeps (claimPorts_keeps hc)]
    · exact (pfillAct_keeps (Keeps.refl _ _) (by decide)).getOk hok
  case clear =>
    have hok := pclrAct_ok (s := s) hb hg
    have hexec : exec (.pclr c g n) s = .next (slotOp c 2 (pclrAct c g n) s s) := rfl
    refine ⟨_, hexec.trans (congrArg _ (slotOp_ok hi hok)), fun d k hk => ?_, State.takeRow_busy _ _ _, ?_⟩
    · have hbusy : Keeps [.busy] (s.clearValid c (64 * g.toNat) (64 * zeroIs 64 n)) _ :=
        State.takeRow_keeps (c := c) (until' := unitClock s c + 1) (Keeps.refl _ _) (by decide)
      have hlast : 64 * (g.toNat + zeroIs 64 n) = 64 * g.toNat + 64 * zeroIs 64 n := Nat.mul_add _ _ _
      rw [purse_of_keeps hbusy, purseAt_clearValid _ _ _ _ (by omega) d k hk, hlast]
    · exact (pclrAct_keeps (Keeps.refl _ _) (by decide)).getOk hok

end Sys2Proof.Machine
end

section
/-! SUPPORT. The statement about the elements of a vector instruction's plain destination (06 R135; 11 R292, R293): what its vectors find
where it reads words of its own destination, and what its words then hold. -/

namespace Sys2Proof.Machine

open Sys2Proof Sys2Proof.Claims

set_option Elab.async false

/-! ### Chunks of a run -/

theorem upTo_succ (n : Nat) : upTo (n + 1) = upTo n ++ [n] := List.range_succ

/-- A run taken `k` at a time, joined again. -/
theorem flatten_chunks {α : Type} (f : Nat → Nat → α) (k n m : Nat) (hk : 0 < k) :
    ((upTo m).map (fun x => (upTo (min k (n - k * x))).map (fun i => f x (k * x + i)))).flatten =
      (upTo (min n (k * m))).map (fun j => f (j / k) j) := by
  induction m with
  | zero => simp [upTo]
  | succ m ih =>
    have hlen : min n (k * (m + 1)) = min n (k * m) + min k (n - k * m) := by
      rw [Nat.mul_succ]
      omega
    rw [upTo_succ, List.map_append, List.flatten_append, ih, hlen, upTo, upTo, List.range_add, List.map_append, List.map_map]
    congr 1
    simp only [List.map_cons, List.map_nil, List.flatten_cons, List.flatten_nil, List.append_nil, upTo]
    refine List.map_congr_left (fun i hi => ?_)
    have hi' := List.mem_range.mp hi
    have hfull : min n (k * m) = k * m := by omega
    have hdiv : (k * m + i) / k = m := by rw [Nat.mul_add_div hk, Nat.div_eq_of_lt (by omega), Nat.add_zero]
    show f m (k * m + i) = f ((min n (k * m) + i) / k) (min n (k * m) + i)
    rw [hfull, hdiv]

/-- The chunks that hold a run hold all of it. -/
theorem le_mul_ceilDiv (n k : Nat) (hk : 0 < k) : n ≤ k * ceilDiv n k := by
  unfold ceilDiv
  have h := Nat.div_add_mod (n + k - 1) k
  have hlt := Nat.mod_lt (n + k - 1) hk
  omega

/-! ### Vectors that read words of their own destination -/

/-- A cycle of `vxInTurn`: the vector that is due written, the cycle's elements read, and joined to the vectors not yet written. -/
def vxTurn (c : Core) (take per depth : Nat) (cell : State → Nat → Cell × Bool) (write : List Cell → List Out) (n : Nat)
    (a : State × List (List Cell) × List (List (Cell × Bool))) (x : Nat) : State × List (List Cell) × List (List (Cell × Bool)) :=
  let due := decide (depth < x) && decide ((x - 1 - depth) % per = 0)
  let u := if due then (write (a.2.1.headD [])).foldl (fun (s : State) o => s.writeWord (.cs c) o.a o.w) a.1 else a.1
  let cs := (upTo (min take (n - take * x))).map (fun i => cell u (take * x + i))
  let queue := if due then a.2.1.tail else a.2.1
  let queue := if x % per = 0 then queue ++ [cs.map (·.1)] else queue.dropLast ++ [queue.getLastD [] ++ cs.map (·.1)]
  (u, queue, a.2.2 ++ [cs])

theorem vxInTurn_eq (rd : State) (c : Core) (take per depth : Nat) (cell : State → Nat → Cell × Bool) (write : List Cell → List Out) (n : Nat) :
    vxInTurn rd c take per depth cell write n =
      ((upTo (ceilDiv n take)).foldl (vxTurn c take per depth cell write n) (rd, [], [])).2.2.flatten := rfl

/-- Vectors of elements of the instruction, whatever each was made of. -/
def ownCells (cell : State → Nat → Cell × Bool) (n : Nat) (q : List (List Cell)) : Prop :=
  ∀ cs ∈ q, ∀ x ∈ cs, ∃ v i, i < n ∧ x = (cell v i).1

theorem ownCells_headD {cell : State → Nat → Cell × Bool} {n : Nat} {q : List (List Cell)} (h : ownCells cell n q) :
    ∀ x ∈ q.headD [], ∃ v i, i < n ∧ x = (cell v i).1 := by
  cases q with
  | nil => exact fun x hx => nomatch hx
  | cons cs r => exact h cs List.mem_cons_self

theorem ownCells_getLastD {cell : State → Nat → Cell × Bool} {n : Nat} {q : List (List Cell)} (h : ownCells cell n q) :
    ∀ x ∈ q.getLastD [], ∃ v i, i < n ∧ x = (cell v i).1 := by
  rcases List.eq_nil_or_concat q with rfl | ⟨r, cs, rfl⟩
  · exact fun x hx => nomatch hx
  · rw [List.concat_eq_append, List.getLastD_concat]
    exact h cs (by simp)

/-- What the first `m` cycles leave: a state within `P`, the one at issue as long as no vector was due; vectors of the instruction's own
elements; and the elements of each cycle, of what the cycle found. -/
structure VxTurns (rd : State) (take depth : Nat) (cell : State → Nat → Cell × Bool) (n : Nat) (P : State → Prop) (m : Nat)
    (a : State × List (List Cell) × List (List (Cell × Bool))) : Prop where
  now   : P a.1
  early : m ≤ depth + 1 → a.1 = rd
  queue : ownCells cell n a.2.1
  cells : ∃ st : Nat → State, (∀ x, P (st x)) ∧ (∀ x, x ≤ depth → st x = rd) ∧
    a.2.2 = (upTo m).map (fun x => (upTo (min take (n - take * x))).map (fun i => cell (st x) (take * x + i)))

/-- Words that an instruction may write keep a state within `P`. -/
def writesWithin (c : Core) (cell : State → Nat → Cell × Bool) (write : List Cell → List Out) (n : Nat) (P : State → Prop) : Prop :=
  ∀ cs, (∀ x ∈ cs, ∃ v i, i < n ∧ x = (cell v i).1) → ∀ u, P u → ∀ o ∈ write cs, P (u.writeWord (.cs c) o.a o.w)

theorem foldl_within {P : State → Prop} {c : Core} (os : List Out) (h : ∀ u, P u → ∀ o ∈ os, P (u.writeWord (.cs c) o.a o.w)) :
    ∀ u, P u → P (os.foldl (fun (s : State) o => s.writeWord (.cs c) o.a o.w) u) := by
  induction os with
  | nil => exact fun _ hu => hu
  | cons o r ih =>
    intro u hu
    exact ih (fun v hv q hq => h v hv q (List.mem_cons_of_mem _ hq)) _ (h u hu o List.mem_cons_self)

/-- One more cycle. -/
theorem VxTurns.step {rd : State} {c : Core} {take per depth n m : Nat} {cell : State → Nat → Cell × Bool} {write : List Cell → List Out}
    {P : State → Prop} {a : State × List (List Cell) × List (List (Cell × Bool))} (hw : writesWithin c cell write n P)
    (h : VxTurns rd take depth cell n P m a) : VxTurns rd take depth cell n P (m + 1) (vxTurn c take per depth cell write n a m) := by
  obtain ⟨hnow, hearly, hqueue, st, hst, hst0, hcells⟩ := h
  set due := decide (depth < m) && decide ((m - 1 - depth) % per = 0) with hdue
  set u := if due then (write (a.2.1.headD [])).foldl (fun (s : State) o => s.writeWord (.cs c) o.a o.w) a.1 else a.1 with hu
  set cs := (upTo (min take (n - take * m))).map (fun i => cell u (take * m + i)) with hcs
  have hPu : P u := by
    rw [hu]
    split
    · exact foldl_within _ (hw _ (ownCells_headD hqueue)) _ hnow
    · exact hnow
  have hu0 : m ≤ depth → u = rd := by
    intro hm
    rw [hu, if_neg (by simp [hdue]; omega)]
    exact hearly (by omega)
  have hown : ∀ x ∈ cs.map (·.1), ∃ v i, i < n ∧ x = (cell v i).1 := by
    intro x hx
    obtain ⟨y, hy, rfl⟩ := List.mem_map.mp hx
    obtain ⟨i, hi, rfl⟩ := List.mem_map.mp hy
    have := List.mem_range.mp hi
    exact ⟨u, take * m + i, by omega, rfl⟩
  have hq : ownCells cell n (if due then a.2.1.tail else a.2.1) := by
    split
    · exact fun y hy => hqueue y (List.mem_of_mem_tail hy)
    · exact hqueue
  refine ⟨hPu, fun hm => hu0 (by omega), ?queue, fun x => if x = m then u else st x, ?within, ?early, ?cells⟩
  case queue =>
    show ownCells cell n (if m % per = 0 then _ else _)
    split <;> intro y hy x hx <;> rcases List.mem_append.mp hy with hy | hy
    · exact hq y hy x hx
    · rw [List.mem_singleton.mp hy] at hx
      exact hown x hx
    · exact hq y (List.mem_of_mem_dropLast hy) x hx
    · rw [List.mem_singleton.mp hy] at hx
      rcases List.mem_append.mp hx with hx | hx
      · exact ownCells_getLastD hq x hx
      · exact hown x hx
  case within =>
    intro x
    dsimp only
    split
    · exact hPu
    · exact hst x
  case early =>
    intro x hx
    dsimp only
    split
    · exact hu0 (by omega)
    · exact hst0 x hx
  case cells =>
    show a.2.2 ++ [cs] = _
    rw [hcells, upTo_succ, List.map_append]
    congr 1
    · refine List.map_congr_left (fun x hx => ?_)
      have hx' := List.mem_range.mp hx
      simp only [if_neg (show x ≠ m by omega)]
    · simp only [List.map_singleton, if_true, hcs]

theorem VxTurns.run {rd : State} {c : Core} {take per depth n : Nat} {cell : State → Nat → Cell × Bool} {write : List Cell → List Out}
    {P : State → Prop} (hw : writesWithin c cell write n P) (hrd : P rd) (m : Nat) :
    VxTurns rd take depth cell n P m ((upTo m).foldl (vxTurn c take per depth cell write n) (rd, [], [])) := by
  induction m with
  | zero => exact ⟨hrd, fun _ => rfl, fun _ h => absurd h List.not_mem_nil, fun _ => rd, fun _ => hrd, fun _ _ => rfl, rfl⟩
  | succ m ih =>
    rw [upTo_succ, List.foldl_append]
    exact ih.step hw

/-- The elements of an instruction whose vectors read words of its destination: each of what its cycle found, which in the first cycles is
the state at issue. -/
theorem vxInTurn_cells {rd : State} {c : Core} {take per depth n : Nat} {cell : State → Nat → Cell × Bool} {write : List Cell → List Out}
    {P : State → Prop} (ht : 0 < take) (hw : writesWithin c cell write n P) (hrd : P rd) :
    ∃ st : Nat → State, (∀ i, P (st i)) ∧ (∀ i, i / take ≤ depth → st i = rd) ∧
      vxInTurn rd c take per depth cell write n = (upTo n).map (fun i => cell (st i) i) := by
  obtain ⟨-, -, -, st, hst, hst0, hcells⟩ := VxTurns.run (per := per) (take := take) (depth := depth) hw hrd (ceilDiv n take)
  refine ⟨fun i => st (i / take), fun i => hst _, fun i hi => hst0 _ hi, ?_⟩
  rw [vxInTurn_eq, hcells, flatten_chunks (fun x j => cell (st x) j) take n _ ht, Nat.min_eq_left (le_mul_ceilDiv n take ht)]

/-! ### The checks of a vector instruction -/

/-- Elements that a vector instruction takes up in one cycle (06 R135). -/
@[reducible] def vxTake (op : VxOp) (bf16 : Bool) : Nat := if op.pipe then 16 else if bf16 then 128 else 64

theorem vxTake_pos (op : VxOp) (bf16 : Bool) : 0 < vxTake op bf16 := by
  unfold vxTake
  split
  · decide
  · split <;> decide

/-- The elements of a vector instruction that may read words of its own destination. -/
theorem vxPlan_meets {op : VxOp} {c : Core} {a : VxArgs} {rd : State} {p : VxPlan} (h : vxPlan op c a rd = .ok p)
    (hm : vxMeets p.ins p.out p.n = true) : ∃ rng r : Nat → Option Nat,
    p.cells = vxInTurn rd c (vxTake op a.bf16) (vxStep op.pipe) (vxDepth rd op.pipe)
      (fun u i => vxCell op a.bf16 p.d p.out (r i) (vxIn u c p.ins i) i) (fun cs => (vxWrite rd c p.out rng cs).els) p.n := by
  unfold vxPlan at h
  obtain ⟨_, -, h⟩ := bind_ok h
  obtain ⟨_, -, h⟩ := bind_ok h
  obtain ⟨d, -, h⟩ := bind_ok h
  obtain ⟨_, -, h⟩ := bind_ok h
  obtain ⟨_, -, h⟩ := bind_ok h
  obtain ⟨ins, -, h⟩ := bind_ok h
  obtain ⟨out, -, h⟩ := bind_ok h
  obtain ⟨_, -, h⟩ := bind_ok h
  obtain ⟨ins', -, h⟩ := bind_ok h
  obtain ⟨out', -, h⟩ := bind_ok h
  cases hS : isShingled out'.fmt <;> simp only [hS, if_true, Bool.false_eq_true, if_false] at h
  · obtain ⟨rng, -, h⟩ := bind_ok h
    obtain ⟨drops, -, h⟩ := bind_ok h
    cases h
    exact ⟨_, _, (if_pos hm).trans (by with_reducible exact rfl)⟩
  · obtain ⟨_, -, h⟩ := bind_ok h
    obtain ⟨rng, -, h⟩ := bind_ok h
    obtain ⟨drops, -, h⟩ := bind_ok h
    cases h
    exact ⟨_, _, (if_pos hm).trans (by with_reducible exact rfl)⟩

/-- In a plain format each word of a run is that of one of its elements. -/
theorem writeRun_addr {s : State} {sp : Space} {fmt base sh region : Nat} {n0 : Int} {sc : Int → Int × Bool} {u : Int → Option Nat}
    {cells : List Cell} (hf : isPlain fmt = true) {o : Out} (ho : o ∈ (writeRun s sp fmt base sh region n0 sc u false false cells).els) :
    ∃ x ∈ cells, o.a = ((base : Int) + x.e / perWord fmt).toNat := by
  unfold writeRun at ho
  simp only [hf, if_true, Bool.false_eq_true, if_false] at ho
  obtain ⟨g, hg, hgo⟩ := List.mem_filterMap.mp ho
  cases g with
  | nil => cases hgo
  | cons x r =>
    cases hgo
    refine ⟨x, ?_, rfl⟩
    rw [← List.flatten_splitBy (fun x y : Cell => decide (x.e / (perWord fmt : Int) = y.e / (perWord fmt : Int))) cells]
    exact List.mem_flatten.mpr ⟨_, hg, List.mem_cons_self⟩

/-- A stream that lies straight: its word by offset. -/
theorem Strm.word_straight {t : Strm} (h : t.diag = false) (e : Int) : t.word e = (t.base : Int) + e / perWord t.fmt := by
  unfold Strm.word
  rw [h]
  rfl

/-! ### What the words hold -/

/-- The word of the element at position `i` of D. -/
def VxPlan.dst (p : VxPlan) (i : Nat) : Nat := (p.out.word (p.out.e0 + i)).toNat

/-- What a cycle of the instruction may find: the state at issue but for the words of its own elements. -/
def vxFound (c : Core) (p : VxPlan) (s v : State) : Prop :=
  (∀ b, (∀ i < p.n, b ≠ csKey c (p.dst i)) → memGet v.cores.cs b = memGet s.cores.cs b) ∧ Keeps [.cs] s v

theorem vxFound_refl (c : Core) (p : VxPlan) (s : State) : vxFound c p s s := ⟨fun _ _ => rfl, Keeps.refl _ _⟩

theorem vxFound_write {c : Core} {p : VxPlan} {s v : State} (h : vxFound c p s v) {i : Nat} (hi : i < p.n) (w : MemWord) :
    vxFound c p s (v.writeWord (.cs c) (p.dst i) w) := by
  refine ⟨fun b hb => ?_, h.2.trans (writeWord_cs_keeps v c _ w)⟩
  show memGet (memPut v.cores.cs (csKey c (p.dst i)) w) b = _
  rw [memGet_memPut, if_neg (hb i hi)]
  exact h.1 b hb

/-- The vectors of an instruction are written to the words of its own elements. -/
theorem vxWrite_within {op : VxOp} {c : Core} {a : VxArgs} {s : State} {p : VxPlan} (hdiag : p.out.diag = false)
    (hf : isPlain p.out.fmt = true) (rng r : Nat → Option Nat) :
    writesWithin c (fun u i => vxCell op a.bf16 p.d p.out (r i) (vxIn u c p.ins i) i) (fun cs => (vxWrite s c p.out rng cs).els) p.n
      (vxFound c p s) := by
  intro cs hcs u hu o ho
  obtain ⟨x, hx, haddr⟩ := writeRun_addr hf ho
  obtain ⟨v, i, hi, rfl⟩ := hcs x hx
  have hdst : o.a = p.dst i := by rw [haddr, VxPlan.dst, Strm.word_straight hdiag]; rfl
  rw [hdst]
  exact vxFound_write hu hi o.w

/-- The elements of a vector instruction, each of the operands that its cycle found. -/
theorem vxPlan_elements {op : VxOp} {c : Core} {a : VxArgs} {s : State} {p : VxPlan} (hp : vxPlan op c a s = .ok p)
    (hf : isPlain p.out.fmt = true) : ∃ (u r : Nat → Option Nat) (st : Nat → State),
    (p.out.stoch = false → ∀ i, u i = none) ∧ (∀ i, vxFound c p s (st i)) ∧
    (∀ i, vxMeets p.ins p.out p.n = false ∨ i / vxTake op a.bf16 ≤ vxDepth s op.pipe → st i = s) ∧
    p.wrote = vxWrite s c p.out u ((upTo p.n).map (fun i => (vxCell op a.bf16 p.d p.out (r i) (vxIn (st i) c p.ins i) i).1)) := by
  obtain ⟨hdiag, -, u, r, hu, hw, hcells⟩ := vxPlan_ok hp
  cases hm : vxMeets p.ins p.out p.n with
  | false =>
    refine ⟨u, r, fun _ => s, hu, fun _ => vxFound_refl c p s, fun _ _ => rfl, ?_⟩
    rw [hw, hcells hm, List.map_map]
    rfl
  | true =>
    obtain ⟨rng, r', hturn⟩ := vxPlan_meets hp hm
    obtain ⟨st, hst, hst0, heq⟩ := vxInTurn_cells (per := vxStep op.pipe) (depth := vxDepth s op.pipe) (vxTake_pos op a.bf16)
      (vxWrite_within (op := op) (a := a) hdiag hf rng r') (vxFound_refl c p s)
    refine ⟨u, r', st, hu, hst, fun i hi => hst0 i (hi.resolve_left (by simp)), ?_⟩
    rw [hw, hturn, heq, List.map_map]
    rfl

/-- A word stored once by a run, whatever waited of it, holds what the run gives it where its bytes are covered. -/
theorem newest_of_stored {c : Core} {outs : List Out} {reads : List Nat} {s t : State} (h : leavesWords c outs reads s t) {o : Out} {b w k : Nat}
    (ho : outs.filter (fun x => decide (x.a = b)) = [o]) (hk : w * (k + 1) ≤ 256) (hc : covers o.mask (w * k) w) :
    elemOf w k (newest (heldAt t (place (.cs c) b))).data = elemOf w k o.w.data ∧
      (isPoisoned o.w = true → isPoisoned (newest (heldAt t (place (.cs c) b))) = true) := by
  obtain ⟨w0, -, hheld⟩ := h (place (.cs c) b)
  have hone : ((inSpace (.cs c) outs).filter (fun x => x.1 = place (.cs c) b)).map (·.2) = [o] := by
    have hsame : ∀ x : Out, decide (place (.cs c) x.a = place (.cs c) b) = decide (x.a = b) :=
      fun x => decide_eq_decide.mpr ⟨place_inj, congrArg _⟩
    rw [inSpace, List.filter_map, List.map_map, ← ho]
    simp only [Function.comp_def, hsame, List.map_id']
  rw [hheld, hone]
  exact newest_takeIn .cs _ o w k hk hc (fun hb => nomatch hb)

/-- The word of an element of a plain destination is stored once, and holds its code. -/
theorem vxPlan_word {op : VxOp} {c : Core} {a : VxArgs} {s : State} {p : VxPlan} (hp : vxPlan op c a s = .ok p)
    (hf : isPlain p.out.fmt = true) {u r : Nat → Option Nat} {st : Nat → State}
    (hw : p.wrote = vxWrite s c p.out u ((upTo p.n).map (fun i => (vxCell op a.bf16 p.d p.out (r i) (vxIn (st i) c p.ins i) i).1)))
    {i : Nat} (hi : i < p.n) : ∃ o, p.outs.filter (fun x => decide (x.a = p.dst i)) = [o] ∧
      (let k := ((p.out.e0 + (i : Int)) % perWord p.out.fmt).toNat
       elemOf (elemBits p.out.fmt) k o.w.data = (fmtOf p.out.fmt).encode (if p.out.fmt = 0 then none else u i)
          (Machine.vxElem op a.bf16 (bitsN p.d 321 290) (bits p.d 353 322) ((r i).getD 0) ((vxIn (st i) c p.ins i).map (·.1)))
            % 2 ^ elemBits p.out.fmt ∧
       covers o.mask (elemBits p.out.fmt * k) (elemBits p.out.fmt)) ∧
      ((vxIn (st i) c p.ins i).any (·.2) = true → isPoisoned o.w = true) := by
  obtain ⟨hdiag, hpos, -⟩ := vxPlan_ok hp
  have hbits : 0 < elemBits p.out.fmt ∧ elemBits p.out.fmt ≤ 256 := by
    rcases plain_bits hf with h | h | h <;> rw [h] <;> decide
  obtain ⟨hshs, o, hone, hval, hcov, hbad⟩ := writeRun_plain s (.cs c) p.out.fmt p.out.base p.out.sh p.out.region p.out.tile0 p.out.scale
    (fun e => u (e - p.out.e0).toNat) p.out.e0 p.n
    (fun i => Machine.vxElem op a.bf16 (bitsN p.d 321 290) (bits p.d 353 322) ((r i).getD 0) ((vxIn (st i) c p.ins i).map (·.1)))
    (fun i => (vxIn (st i) c p.ins i).any (·.2)) (fun _ => false) hf hbits.1 hbits.2
    (fun j hj => by rw [← Strm.word_straight hdiag]; exact hpos j hj) i hi
  have hsub : p.out.e0 + (i : Int) - p.out.e0 = i := by omega
  refine ⟨o, ?_, ⟨?_, hcov⟩, hbad⟩
  · have houts : p.outs = p.wrote.els := by
      rw [VxPlan.outs, hw]
      exact (congrArg (_ ++ ·) hshs).trans (List.append_nil _)
    rw [houts, hw, VxPlan.dst, Strm.word_straight hdiag]
    exact hone
  · simpa only [hsub, Int.toNat_natCast] using hval

/-- Settles O7: `vxPlan_elements` says what each element is made of, `vxPlan_word` that its word is stored once with its code, and
`newest_of_stored` that the store then holds it. -/
theorem vectorElements : Obligations.VectorElements := by
  unfold Obligations.VectorElements
  intro x hx c a s s1 p hi hp hc hm hf
  obtain ⟨t, ht, hleaves, -, -⟩ := vectorInstructions x hx c a s s1 p hi hp hc hm
  obtain ⟨u, r, st, hu, hst, hst0, hw⟩ := vxPlan_elements hp hf
  refine ⟨t, ht, fun i hin => ⟨st i, u i, r i, hst0 i, fun b hb => (hst i).1 b (fun j hj => ?_), (hst i).2, fun hs => hu hs i, ?_⟩⟩
  · obtain ⟨o, ho, -⟩ := vxPlan_word hp hf hw hj
    have hmem : o ∈ p.outs.filter (fun x => decide (x.a = p.dst j)) := ho ▸ List.mem_singleton_self o
    obtain ⟨hmem, haddr⟩ := List.mem_filter.mp hmem
    exact of_decide_eq_true haddr ▸ hb o hmem
  · obtain ⟨o, ho, ⟨hval, hcov⟩, hbad⟩ := vxPlan_word hp hf hw hin
    have hk : elemBits p.out.fmt * (((p.out.e0 + (i : Int)) % perWord p.out.fmt).toNat + 1) ≤ 256 := by
      have hpw : (0 : Int) < perWord p.out.fmt := by
        rcases plain_bits hf with h | h | h <;> rw [perWord, h] <;> decide
      have hlt := Int.emod_lt_of_pos (p.out.e0 + i) hpw
      have hnn := Int.emod_nonneg (p.out.e0 + i) hpw.ne'
      calc elemBits p.out.fmt * (((p.out.e0 + (i : Int)) % perWord p.out.fmt).toNat + 1) ≤ elemBits p.out.fmt * perWord p.out.fmt :=
            Nat.mul_le_mul_left _ (by omega)
        _ ≤ 256 := Nat.mul_div_le 256 _
    obtain ⟨hnew, hpoison⟩ := newest_of_stored hleaves ho hk hcov
    exact ⟨hnew.trans hval, fun h => hpoison (hbad h)⟩

end Sys2Proof.Machine
end

section
/-! SUPPORT. The statement about loops, jumps and course ends (10 R249, R256 to R259). -/

namespace Sys2Proof.Machine

open Sys2Proof Sys2Proof.Claims

set_option Elab.async false

/-! ### Checks that pass -/

theorem need_pass {b : Bool} {k d : Nat} (h : b = true) : need b k d = .ok () := by
  unfold need
  rw [if_pos h]

/-- A check that passes lets what follows it run. -/
theorem need_bind {α : Type} {b : Bool} {k d : Nat} {f : Unit → Res α} (h : b = true) : (need b k d >>= f) = f () := by
  rw [need_pass h]
  rfl

/-! ### Control instructions issued alone -/

theorem exec_loop {c : Core} {n : BitVec 17} {l : BitVec 10} {s t : State} (hi : issues s c = true) (h : loopAct c n l s = .ok t) :
    exec (.loop c n l) s = .next t :=
  congrArg Host.Outcome.next (slotOp_ok (f := soloControl c (.loop c n l)) hi h)

theorem exec_pjump {c : Core} {page : BitVec 3} {tag : BitVec 8} {s t : State} (hi : issues s c = true) (h : pjumpAct c page tag s = .ok t) :
    exec (.pjump c page tag) s = .next t :=
  congrArg Host.Outcome.next (slotOp_ok (f := soloControl c (.pjump c page tag)) hi h)

theorem exec_cend {c : Core} {s t : State} (hi : issues s c = true) (h : cendAct c (schedPos s (tenNo s c)) s = .ok t) :
    exec (.cend c) s = .next t :=
  congrArg Host.Outcome.next (slotOp_ok (f := soloControl c (.cend c)) hi h)

theorem inLoop_nil {s : State} {c : Core} (h : (seqOf s c).loops = []) : inLoop s c = false := by simp [inLoop, h]

/-- A body that lies within its enclosing level and the page is entered with a fresh level of index 0. -/
theorem loopAct_ok {c : Core} {n : BitVec 17} {l : BitVec 10} {s : State} (hn : n ≠ 0) (hmax : n.toNat ≤ 65536) (hl : l ≠ 0)
    (hpage : (seqOf s c).bundle + 1 + l.toNat ≤ 1024) (hdepth : (seqOf s c).loops.length < 4)
    (hnest : ∀ f ∈ (seqOf s c).loops.getLast?, (seqOf s c).bundle + 1 + l.toNat ≤ f.stop) :
    loopAct c n l s = .ok (s.setSeq c { seqOf s c with
      bundle := (seqOf s c).bundle + 1
      loops := (seqOf s c).loops ++ [⟨(seqOf s c).bundle + 1, (seqOf s c).bundle + 1 + l.toNat, n.toNat, 0⟩] }) := by
  have hin : (match (seqOf s c).loops.getLast? with
      | some f => decide ((seqOf s c).bundle + 1 + l.toNat ≤ f.stop) | none => true) = true := by
    cases hlast : (seqOf s c).loops.getLast? with
    | none => rfl
    | some f => exact decide_eq_true (hnest f hlast)
  unfold loopAct
  rw [need_bind (decide_eq_true hmax)]
  dsimp only
  rw [need_bind]
  · rfl
  · simp only [hn, hl, hpage, hdepth, ne_eq, not_false_eq_true, decide_true, Bool.true_and, Bool.and_true]
    exact hin

theorem pjumpAct_ok {c : Core} {page : BitVec 3} {tag : BitVec 8} {s : State} (hl : (seqOf s c).loops = []) (ht : pageTag s c page = tag) :
    pjumpAct c page tag s = .ok (s.setSeq c { seqOf s c with page := page, bundle := 0 }) := by
  unfold pjumpAct State.jumpTo
  rw [need_bind (by rw [inLoop_nil hl]; rfl), need_bind (decide_eq_true ht)]
  rfl

theorem cendAct_ok {c : Core} {pos : Nat} {s : State} (hl : (seqOf s c).loops = []) (hr : (seqOf s c).ret = none) :
    cendAct c pos s = .ok (s.setSeq c { seqOf s c with ended := true, len := pos + 1, endAt := s.now }) := by
  unfold cendAct
  rw [need_bind (by rw [inLoop_nil hl, hr]; rfl)]
  rfl

/-- At a body's end a level with trips left goes back to its first bundle. -/
theorem loopNext_repeats {b : Nat} {f : LoopFrame} {r : List LoopFrame} (hb : f.stop = b) (ht : f.index + 1 < f.trips) :
    loopNext b (f :: r) = ({ f with index := f.index + 1 } :: r, f.first) := by
  unfold loopNext
  rw [if_pos hb, if_pos ht]

theorem loopRepeats_hold : loopRepeats := by
  unfold loopRepeats
  intro c s f outer hloops hstop hfirst htrips
  unfold State.advance
  dsimp only
  rw [hloops, List.reverse_append, List.reverse_singleton, List.singleton_append, loopNext_repeats hstop.symm htrips]
  dsimp only
  rw [if_pos hfirst, List.reverse_cons, List.reverse_reverse]

/-- Settles O18: `loopAct_ok`, `pjumpAct_ok` and `cendAct_ok` say what each leaves, `loopNext_repeats` how a body repeats. -/
theorem loopJumpEnd : Obligations.LoopJumpEnd := by
  unfold Obligations.LoopJumpEnd
  refine ⟨fun c s hi => ⟨?loop, ?jump, ?cend⟩, loopRepeats_hold⟩
  case loop => exact fun n l hn hmax hl hpage hdepth hnest => exec_loop hi (loopAct_ok hn hmax hl hpage hdepth hnest)
  case jump => exact fun page tag hl ht => exec_pjump hi (pjumpAct_ok hl ht)
  case cend => exact fun hl hr => exec_cend hi (cendAct_ok hl hr)

end Sys2Proof.Machine
end

section
/-! SUPPORT. The statements about sends and waits (13 R346 to R348; 14 R368): flows and channels under each operation of sending. -/

namespace Sys2Proof.Machine

open Sys2Proof Sys2Proof.Claims

set_option Elab.async false

/-! ### Flows and channels -/

@[simp] theorem sendOf_setSend (s : State) (t ch peer : Nat) (f : SendFlow) : sendOf (s.setSend t ch peer f) t ch peer = f := look_put _ _ _ _
@[simp] theorem recvOf_setRecv (s : State) (t ch peer : Nat) (f : RecvFlow) : recvOf (s.setRecv t ch peer f) t ch peer = f := look_put _ _ _ _
@[simp] theorem chanOf_modChan (s : State) (t ch : Nat) (f : ChanSt → ChanSt) : chanOf (s.modChan t ch f) t ch = f (chanOf s t ch) :=
  look_put _ _ _ _

/-- The views of a core file, and those of HBM. -/
def coreViews : List View :=
  [.cs, .prog, .desc, .purse, .mbox, .hall, .tags, .acc, .engines, .busy, .seqs, .reads, .idle, .merges]

theorem Keeps.eq_cores {vs : List View} {s t : State} (k : Keeps vs s t) (h : ∀ v ∈ coreViews, v ∉ vs := by decide) :
    t.cores = s.cores := by
  have hv : ∀ v ∈ coreViews, v.sameCores s.cores t.cores := fun v hv => (k.same v (h v hv)).1
  simp only [coreViews, List.forall_mem_cons, List.not_mem_nil, IsEmpty.forall_iff, implies_true, View.sameCores] at hv
  generalize t.cores = a at hv ⊢
  generalize s.cores = b at hv ⊢
  cases a
  cases b
  simp_all

theorem Keeps.eq_hbm {vs : List View} {s t : State} (k : Keeps vs s t) (hw : View.words ∉ vs := by decide)
    (hs : View.service ∉ vs := by decide) (hm : View.merges ∉ vs := by decide) : t.hbm = s.hbm := by
  have h1 := k.eq_words hw
  have h2 := k.eq_hbmMerges hm
  have h3 : ({ t.hbm with words := [], merges := [] } : Hbm) = { s.hbm with words := [], merges := [] } := (k.same _ hs).2.1
  generalize t.hbm = a at h1 h2 h3 ⊢
  generalize s.hbm = b at h1 h2 h3 ⊢
  cases a
  cases b
  simp_all

theorem Keeps.sendOf_eq {vs : List View} {s t : State} (k : Keeps vs s t) (n ch peer : Nat) (h : View.fabric ∉ vs := by decide) :
    sendOf t n ch peer = sendOf s n ch peer := by
  unfold sendOf
  rw [k.eq_fabric h]

theorem Keeps.chanOf_eq {vs : List View} {s t : State} (k : Keeps vs s t) (n ch : Nat) (h : View.fabric ∉ vs := by decide) :
    chanOf t n ch = chanOf s n ch := by
  unfold chanOf
  rw [k.eq_fabric h]

/-- A frame sent changes of the fabric the frames sent. -/
theorem emitFrame_fabric (s : State) (p : Port) (f : Frame) :
    ∃ o, (s.emitFrame p f).fabric = { s.fabric with outbox := o } := by
  unfold State.emitFrame
  split
  · exact ⟨s.fabric.outbox, rfl⟩
  · exact ⟨_, rfl⟩

/-- A frame transmitted changes of the fabric its flow's acknowledgement and the frames sent. -/
theorem transmit_fabric (s : State) (t ch peer : Nat) (u : Unacked) :
    ∃ rs o, (s.transmit t ch peer u).fabric = { s.fabric with recvs := rs, outbox := o } := by
  unfold State.transmit
  obtain ⟨o, ho⟩ := emitFrame_fabric (s.setRecv t ch peer { recvOf s t ch peer with owes := false })
    ((sendOf s t ch peer).port.getD (Fin.ofNat 16 (match u.what with | .slot i => slotFrame s t ch peer i | .frame f => f).port.toNat))
    { (match u.what with | .slot i => slotFrame s t ch peer i | .frame f => f) with
      seq := u.seq, ack := (recvOf s t ch peer).expected, ackv := (recvOf s t ch peer).owes, credit := BitVec.ofNat 8 u.credit }
  exact ⟨_, o, ho⟩

theorem sendOf_transmit (s : State) (t ch peer : Nat) (u : Unacked) (n k q : Nat) :
    sendOf (s.transmit t ch peer u) n k q = sendOf s n k q := by
  obtain ⟨rs, o, h⟩ := transmit_fabric s t ch peer u
  unfold sendOf
  rw [h]

theorem chanOf_transmit (s : State) (t ch peer : Nat) (u : Unacked) (n k : Nat) :
    chanOf (s.transmit t ch peer u) n k = chanOf s n k := by
  obtain ⟨rs, o, h⟩ := transmit_fabric s t ch peer u
  unfold chanOf
  rw [h]

theorem sendOf_modChan (s : State) (t ch : Nat) (f : ChanSt → ChanSt) (n k q : Nat) : sendOf (s.modChan t ch f) n k q = sendOf s n k q := rfl
theorem chanOf_setSend (s : State) (t ch peer : Nat) (f : SendFlow) (n k : Nat) : chanOf (s.setSend t ch peer f) n k = chanOf s n k := rfl

/-- A change of counters and management alone. -/
theorem Keeps.eq_upd {s t : State} (k : Keeps [.counters, .mgmt] s t) : t = { s with counters := t.counters, mgmt := t.mgmt } := by
  have hcores : t.cores = s.cores := k.eq_cores
  have hhbm : t.hbm = s.hbm := k.eq_hbm
  have hrest := And.intro k.pending (And.intro k.ident (And.intro k.eq_stores (And.intro k.eq_tens (And.intro k.eq_spares
    (And.intro k.eq_fabric (And.intro k.eq_time (And.intro k.eq_power (And.intro k.eq_board (And.intro k.eq_upsets k.eq_fresh)))))))))
  obtain ⟨hp, hi, hst, hte, hsp, hf, hti, hpo, hb, hu, hfr⟩ := hrest
  cases s
  cases t
  simp_all

/-! ### A frame given to a flow -/

/-- What a frame sent on a channel leaves of the channel: all but the credits it carries. -/
def ChanSt.owesLess (a b : ChanSt) : Prop := b = { a with owed := b.owed }

theorem ChanSt.owesLess_refl (a : ChanSt) : a.owesLess a := rfl

theorem ChanSt.owesLess_trans {a b c : ChanSt} (h : a.owesLess b) (k : b.owesLess c) : a.owesLess c := by
  unfold ChanSt.owesLess at *
  rw [k, h]

/-- The credit that a frame sent on a channel carries back. -/
def creditSent (s : State) (t ch peer : Nat) : Nat :=
  if recvPeer s t (chanRec s t ch) = peer && recValid (chanRec s t ch) then min 128 (chanOf s t ch).owed else 0

/-- A flow with one more frame held unacknowledged. -/
def SendFlow.holding (fl : SendFlow) (h : Held) (cr now : Nat) : SendFlow :=
  { fl with next := fl.next + 1, held := fl.held ++ [⟨fl.next, h, cr⟩], advanced := if fl.held = [] then now else fl.advanced }

/-- The state that `sendNow` transmits from. -/
def State.holdFrame (s : State) (t ch peer : Nat) (h : Held) : State :=
  let s1 := s.setSend t ch peer ((sendOf s t ch peer).holding h (creditSent s t ch peer) s.now)
  if creditSent s t ch peer = 0 then s1 else s1.modChan t ch (fun k => { k with owed := k.owed - creditSent s t ch peer })

theorem sendNow_eq (s : State) (t ch peer : Nat) (h : Held) : s.sendNow t ch peer h =
    (s.holdFrame t ch peer h).transmit t ch peer ⟨(sendOf s t ch peer).next, h, creditSent s t ch peer⟩ := rfl

theorem sendOf_holdFrame (s : State) (t ch peer : Nat) (h : Held) :
    sendOf (s.holdFrame t ch peer h) t ch peer = (sendOf s t ch peer).holding h (creditSent s t ch peer) s.now := by
  unfold State.holdFrame
  split
  · exact sendOf_setSend _ _ _ _ _
  · rw [sendOf_modChan]
    exact sendOf_setSend _ _ _ _ _

theorem holdFrame_chan (s : State) (t ch peer : Nat) (h : Held) : (chanOf s t ch).owesLess (chanOf (s.holdFrame t ch peer h) t ch) := by
  unfold State.holdFrame
  split
  · exact ChanSt.owesLess_refl _
  · rw [chanOf_modChan, chanOf_setSend]
    rfl

/-- A frame sent is held by its flow behind those sent before. -/
theorem sendOf_sendNow (s : State) (t ch peer : Nat) (h : Held) :
    sendOf (s.sendNow t ch peer h) t ch peer = (sendOf s t ch peer).holding h (creditSent s t ch peer) s.now := by
  rw [sendNow_eq, sendOf_transmit, sendOf_holdFrame]

theorem sendNow_chan (s : State) (t ch peer : Nat) (h : Held) : (chanOf s t ch).owesLess (chanOf (s.sendNow t ch peer h) t ch) := by
  rw [sendNow_eq, chanOf_transmit]
  exact holdFrame_chan s t ch peer h

/-- A slot given to a flow stands behind its slots held and queued. -/
theorem push_slots (s : State) (t ch peer i : Nat) :
    (sendOf (s.push t ch peer (.slot i)) t ch peer).slots = (sendOf s t ch peer).slots ++ [i] := by
  unfold State.push
  dsimp only
  split
  · rename_i hroom
    have hq : (sendOf s t ch peer).queue = [] := of_decide_eq_true (Bool.and_eq_true_iff.mp hroom).2
    rw [sendOf_sendNow]
    simp only [SendFlow.slots, SendFlow.holding, hq, List.flatMap_append, List.flatMap_cons, List.flatMap_nil, List.append_nil]
  · rw [sendOf_setSend]
    simp only [SendFlow.slots, List.flatMap_append, List.flatMap_cons, List.flatMap_nil, List.append_nil, List.append_assoc]

theorem push_chan (s : State) (t ch peer : Nat) (h : Held) : (chanOf s t ch).owesLess (chanOf (s.push t ch peer h) t ch) := by
  unfold State.push
  dsimp only
  split
  · exact sendNow_chan _ _ _ _ _
  · exact ChanSt.owesLess_refl _

theorem pushAll_slots (t ch peer : Nat) (is : List Nat) (s : State) :
    (sendOf (is.foldl (fun (u : State) i => u.push t ch peer (.slot i)) s) t ch peer).slots = (sendOf s t ch peer).slots ++ is := by
  induction is generalizing s with
  | nil => rw [List.foldl_nil, List.append_nil]
  | cons i r ih => rw [List.foldl_cons, ih, push_slots, List.append_assoc, List.singleton_append]

theorem pushAll_chan (t ch peer : Nat) (is : List Nat) (s : State) :
    (chanOf s t ch).owesLess (chanOf (is.foldl (fun (u : State) i => u.push t ch peer (.slot i)) s) t ch) := by
  induction is generalizing s with
  | nil => exact ChanSt.owesLess_refl _
  | cons i r ih => exact ChanSt.owesLess_trans (push_chan s t ch peer (.slot i)) (ih _)

/-- Slots sent: their flow holds or queues them in order, and their channel has spent a credit for each. -/
theorem sendStaged_slots (s : State) (t ch : Nat) (is : List Nat) :
    (sendOf (s.sendStaged t ch is) t ch (sendPeer s t (chanRec s t ch))).slots =
      (sendOf s t ch (sendPeer s t (chanRec s t ch))).slots ++ is := by
  unfold State.sendStaged
  rw [pushAll_slots, sendOf_modChan]

theorem sendStaged_chan (s : State) (t ch : Nat) (is : List Nat) :
    (chanOf (s.sendStaged t ch is) t ch).spent = (chanOf s t ch).spent + is.length ∧
      (chanOf (s.sendStaged t ch is) t ch).staged = (chanOf s t ch).staged.filter (fun i => !is.contains i) := by
  have h : ∃ rank, ChanSt.owesLess { chanOf s t ch with
      staged := (chanOf s t ch).staged.filter (fun i => !is.contains i), spent := (chanOf s t ch).spent + is.length, rank := rank }
      (chanOf (s.sendStaged t ch is) t ch) :=
    ⟨_, Eq.subst (motive := fun x => ChanSt.owesLess x _) (chanOf_modChan s t ch _) (pushAll_chan t ch _ is _)⟩
  obtain ⟨rank, h⟩ := h
  rw [h]
  exact ⟨rfl, rfl⟩

/-! ### `FSEND` -/

/-- The slots that `FSEND` checks before it sends them: where the channel's parcels carry hallmarks. -/
def sendChecked (c : Core) (r : BitVec 128) (is : List Nat) (rd s : State) : State :=
  if recHm r then is.foldl (fun (u : State) i => u.checkCrc rd c (.mbox c) (recSbase r + i * recWords r) (recWords r)) s else s

theorem sendChecked_keeps (c : Core) (r : BitVec 128) (is : List Nat) (rd s : State) : Keeps [.counters, .mgmt] s (sendChecked c r is rd s) :=
  Keeps.ite (Keeps.foldl (Keeps.refl _ _) (fun _ _ k => State.checkCrc_keeps k (by decide))) (Keeps.refl _ _)

/-- The checks of `FSEND` passed: nothing staged does nothing, slots within the credit go, and more of them stall. -/
theorem fsendAct_ok {c : Core} {chan : Chan} {axis : BitVec 2} {peer : BitVec 12} {rd s : State}
    (hp : peer ≠ 0) (hv : recValid (chanRec rd (tenNo rd c) chan.toNat) = true)
    (hc : chanCore rd (tenNo rd c) (chanRec rd (tenNo rd c) chan.toNat) = c.val)
    (ha : recSaxis (chanRec rd (tenNo rd c) chan.toNat) = axis.toNat) (ho : recSoff (chanRec rd (tenNo rd c) chan.toNat) = peer.toInt)
    (hb : peer.toInt.natAbs < boxN rd (tenNo rd c) axis.toNat) (hs : recSslots (chanRec rd (tenNo rd c) chan.toNat) ≠ 0)
    (hn : collOf rd (tenNo rd c) chan.toNat = none) :
    fsendAct c chan axis peer rd s =
      let n := tenNo rd c
      let is := stagedRing rd n chan.toNat
      if is = [] then .ok s else
        let s1 := sendChecked c (chanRec rd n chan.toNat) is rd s
        if is.length ≤ creditOf rd n chan.toNat then .ok (s1.sendStaged n chan.toNat is) else .ok (s1.addStallOf n (.credit c chan)) := by
  unfold fsendAct
  dsimp only
  rw [need_bind (decide_eq_true hp), need_bind (by simp [hv, hc]), need_bind (by simp [ha, ho, hb]), need_bind (by simp [hs, hn])]
  rfl

theorem exec_fsend {c : Core} {chan : Chan} {axis : BitVec 2} {peer : BitVec 12} {s t : State} (hi : issues s c = true)
    (h : fsendAct c chan axis peer s s = .ok t) : exec (.fsend c chan axis peer) s = .next t :=
  congrArg Host.Outcome.next (slotOp_ok hi h)

/-- Settles O25: `fsendAct_ok` gives the three outcomes; the slots sent stand in their flow by `pushAll_slots`, and their channel has spent a
credit for each by `pushAll_chan`. -/
theorem sendStaged : Obligations.SendStaged := by
  unfold Obligations.SendStaged
  intro c chan axis peer s hi n ch r hp hv hc ha ho hb hs hn
  have hok := fsendAct_ok (s := s) hp hv hc ha ho hb hs hn
  have hchk := sendChecked_keeps c r (stagedRing s n ch) s s
  refine ⟨fun he => exec_fsend hi (hok.trans (if_pos he)), fun he hcr => ?sent, fun hcr => ?stalled⟩
  case sent =>
    have hrun := hok.trans ((if_neg he).trans (if_pos hcr))
    set s1 := sendChecked c r (stagedRing s n ch) s s with hs1
    have hpeer : sendPeer s1 n (chanRec s1 n ch) = sendPeer s n r := by rw [hchk.eq_upd]; rfl
    have hslots := sendStaged_slots s1 n ch (stagedRing s n ch)
    obtain ⟨hspent, hstaged⟩ := sendStaged_chan s1 n ch (stagedRing s n ch)
    rw [hpeer, hchk.sendOf_eq] at hslots
    rw [hchk.chanOf_eq] at hspent hstaged
    exact ⟨_, exec_fsend hi hrun, hslots, hspent, hstaged, (Talks.of_keeps hchk).trans (sendStaged_talks s1 n ch _),
      (fsendAct_keeps (Keeps.refl _ _) (by decide)).getOk hrun⟩
  case stalled =>
    have he : stagedRing s n ch ≠ [] := fun h => by rw [h] at hcr; exact absurd hcr (Nat.not_lt_zero _)
    have hrun := hok.trans ((if_neg he).trans (if_neg (Nat.not_le.mpr hcr)))
    refine ⟨_, exec_fsend hi hrun, ?_, hchk.eq_fabric, ?_⟩
    · rw [State.addStallOf, State.ten_modTen, hchk.ten_eq]
    · exact State.addStallOf_keeps (hchk.mono (by decide)) (by decide)

/-! ### `FWAIT` -/

theorem fwaitAct_chan {c : Core} {chan : Chan} {count : BitVec 16} {rd s : State} (h0 : count ≠ 0)
    (hv : recValid (chanRec rd (tenNo rd c) chan.toNat) = true)
    (hc : chanCore rd (tenNo rd c) (chanRec rd (tenNo rd c) chan.toNat) = c.val) (hn : collOf rd (tenNo rd c) chan.toNat = none)
    (hr : count.toNat ≤ recRslots (chanRec rd (tenNo rd c) chan.toNat)) :
    fwaitAct c chan count rd s =
      let n := tenNo rd c
      let k := chanOf rd n chan.toNat
      let up := k.waited + count.toNat
      let s1 := s.modChan n chan.toNat (fun k => { k with owed := k.owed + k.toFree, toFree := count.toNat, waited := up })
      if k.written < up then .ok (s1.addStallOf n (.late c chan up)) else .ok s1 := by
  have hslots : recRslots (chanRec rd (tenNo rd c) chan.toNat) ≠ 0 := by
    have hpos : count.toNat ≠ 0 := fun h => h0 (BitVec.eq_of_toNat_eq h)
    omega
  unfold fwaitAct
  dsimp only
  rw [need_bind (decide_eq_true h0), need_bind (by simp [hv, hc]), hn]
  dsimp only
  rw [need_bind (by simp [hslots, hr])]
  rfl

theorem fwaitAct_coll {c : Core} {chan : Chan} {rd s : State} {g : Coll} (hv : recValid (chanRec rd (tenNo rd c) chan.toNat) = true)
    (hc : chanCore rd (tenNo rd c) (chanRec rd (tenNo rd c) chan.toNat) = c.val) (hg : collOf rd (tenNo rd c) chan.toNat = some g) :
    fwaitAct c chan 1 rd s =
      let n := tenNo rd c
      if g.done then .ok { s with fabric := { s.fabric with colls := del s.fabric.colls (chanKey n chan.toNat) } }
      else .ok ((s.setColl n chan.toNat { g with waitFrom := some s.now }).addStallOf n (.coll c chan)) := by
  unfold fwaitAct
  dsimp only
  rw [need_bind (by decide), need_bind (by simp [hv, hc]), hg]
  dsimp only
  rw [need_bind (by decide)]
  rfl

theorem exec_fwait {c : Core} {chan : Chan} {count : BitVec 16} {s t : State} (hi : issues s c = true)
    (h : fwaitAct c chan count s s = .ok t) : exec (.fwait c chan count) s = .next t :=
  congrArg Host.Outcome.next (slotOp_ok hi h)

theorem addStallOf_stalls (s : State) (t : Nat) (x : Stall) :
    ((s.addStallOf t x).ten t).course.stalls = (s.ten t).course.stalls ++ [x] := by
  unfold State.addStallOf
  rw [State.ten_modTen]

theorem fwait_keeps {c : Core} {chan : Chan} {count : BitVec 16} {s t : State} (h : fwaitAct c chan count s s = .ok t) :
    Keeps [.tens, .fabric] s t := (fwaitAct_keeps (Keeps.refl _ _) (by decide)).getOk h

/-- Settles O26: `fwaitAct_chan` and `fwaitAct_coll` give what an `FWAIT` leaves of its channel or collective, and whether it stalls. -/
theorem waitForParcels : Obligations.WaitForParcels := by
  unfold Obligations.WaitForParcels
  intro c chan count s hi n ch r k hv hc
  refine ⟨fun h0 hn hr => ?parcels, fun g h1 hg => ?results⟩
  case parcels =>
    have hok := fwaitAct_chan (s := s) h0 hv hc hn hr
    have hchan : ∀ up, chanOf (s.modChan n ch (fun k => { k with owed := k.owed + k.toFree, toFree := count.toNat, waited := up })) n ch =
        { k with owed := k.owed + k.toFree, toFree := count.toNat, waited := up } := fun up => chanOf_modChan s n ch _
    by_cases hlate : k.written < k.waited + count.toNat
    · have hrun := hok.trans (if_pos hlate)
      refine ⟨_, exec_fwait hi hrun, hchan _, ?_, fwait_keeps hrun⟩
      rw [if_pos hlate]
      exact addStallOf_stalls _ _ _
    · have hrun := hok.trans (if_neg hlate)
      refine ⟨_, exec_fwait hi hrun, hchan _, ?_, fwait_keeps hrun⟩
      rw [if_neg hlate, List.append_nil]
      rfl
  case results =>
    subst h1
    have hok := fwaitAct_coll (s := s) hv hc hg
    by_cases hd : g.done = true
    · have hrun := hok.trans (if_pos hd)
      refine ⟨_, exec_fwait hi hrun, ?_, ?_, fwait_keeps hrun⟩
      · rw [if_pos hd]
        exact find_del _ _
      · rw [if_pos hd, List.append_nil]
        rfl
    · have hrun := hok.trans (if_neg hd)
      refine ⟨_, exec_fwait hi hrun, ?_, ?_, fwait_keeps hrun⟩
      · rw [if_neg hd]
        exact find_set _ _ _
      · rw [if_neg hd]
        exact addStallOf_stalls _ _ _

end Sys2Proof.Machine
end

section
/-! SUPPORT. The statement about when a bundle issues (10 R247, R248; 09 R220, R221): an empty bundle, and time that passes to it. -/

namespace Sys2Proof.Machine

open Sys2Proof Sys2Proof.Claims

set_option Elab.async false

/-! ### An empty bundle -/

/-- A word with no syndrome reads as it is. -/
theorem decodeWord_clean {w : MemWord} (h : w.syn = 0) : decodeWord w = ⟨w, false, false⟩ := by
  unfold decodeWord
  rw [if_pos h]

theorem isPoisoned_clean {w : MemWord} (h : w.syn = 0) : isPoisoned w = false := by
  unfold isPoisoned
  rw [h]
  decide

/-- A core that issues is not stopping. -/
theorem stopping_of_issues {s : State} {c : Core} (h : issues s c = true) : stopping s c = false := by
  unfold issues at h
  obtain ⟨-, hrun⟩ := Bool.and_eq_true_iff.mp h
  unfold stopped at hrun
  unfold stopping
  cases ht : tenOf s c with
  | none => simp
  | some t =>
    rw [ht] at hrun
    have hs : (s.ten t).course.stopped = false := by simpa using hrun
    simp [hs]

@[simp] theorem State.ten_setSeq (s : State) (c : Core) (q : Seq) (n : Nat) : (s.setSeq c q).ten n = s.ten n := rfl

/-- The sequencer after an empty bundle that issued at position `pos`. -/
def Seq.stepped (q : Seq) (pos : Nat) : Seq := { q with bundle := q.bundle + 1, lastPos := pos + 1 }

/-- Outside loops the sequencer moves on to the bundle that follows on its page. -/
theorem advance_inOrder {s : State} {c : Core} (hl : (seqOf s c).loops = []) (hb : (seqOf s c).bundle < 1023) :
    s.advance c = .ok (s.setSeq c { seqOf s c with bundle := (seqOf s c).bundle + 1 }) := by
  unfold State.advance
  dsimp only
  rw [hl, List.reverse_nil]
  unfold loopNext
  dsimp only
  rw [if_pos (by omega), List.reverse_nil]

/-- The state that the work of an empty bundle leaves. -/
def State.emptied (s : State) (c : Core) (pos : Nat) : State :=
  (((s.setSeq c { seqOf s c with lastPos := pos + 1 }).setSeq c ((seqOf s c).stepped pos)).setSeq c (seqOf s c)).setSeq c
    ((seqOf s c).stepped pos)

theorem emptied_keeps (s : State) (c : Core) (pos : Nat) : Keeps [.seqs] s (s.emptied c pos) :=
  State.setSeq_keeps (State.setSeq_keeps (State.setSeq_keeps (State.setSeq_keeps (Keeps.refl _ s) (by decide)) (by decide)) (by decide))
    (by decide)

/-- An empty bundle does nothing but move its sequencer on. -/
theorem bundleWork_empty {s : State} {c : Core} (pos : Nat) (hr : (seqOf s c).ret = none) (hl : (seqOf s c).loops = [])
    (hb : (seqOf s c).bundle < 1023) : bundleWork s c pos [] s = (s.emptied c pos, []) := by
  have hadv : controlAct none c pos (s.setSeq c { seqOf s c with lastPos := pos + 1 }) =
      .ok ((s.setSeq c { seqOf s c with lastPos := pos + 1 }).setSeq c ((seqOf s c).stepped pos)) := by
    refine (advance_inOrder ?_ ?_).trans ?_ <;> rw [seqOf_setSeq]
    · exact hl
    · exact hb
    · rfl
  have hstray : (seqOf s c).ret.isSome = false := by rw [hr]; rfl
  unfold bundleWork
  simp only [List.filter_nil, List.filterMap_nil, List.head?_nil, runSlots, List.foldl_nil, hadv, hstray, Bool.false_and, Bool.false_eq_true,
    if_false, List.append_nil, seqOf_setSeq, State.ten_setSeq, Bool.and_not_self]
  rfl

theorem issue_empty {s : State} {c : Core} (pos : Nat) (hi : issues s c = true) (he : emptyBundle s c) :
    s.issue c pos = s.emptied c pos := by
  obtain ⟨hsyn, hslots, hr, hl, hb⟩ := he
  unfold State.issue
  dsimp only
  rw [decodeWord_clean hsyn, isPoisoned_clean hsyn]
  simp only [hslots, Bool.false_eq_true, if_false, List.any_nil, bundleWork_empty pos hr hl hb, if_true, stopping_of_issues hi]

theorem seqOf_emptied (s : State) (c : Core) (pos : Nat) : seqOf (s.emptied c pos) c = (seqOf s c).stepped pos := seqOf_setSeq _ _ _

/-! ### Time that passes with no merge entry open -/

/-- A tenancy changes in no more than its course's stall cycles. -/
def Tenancy.lags (a b : Tenancy) : Prop := b = { a with course := { a.course with s := b.course.s } }

theorem Tenancy.lags_refl (a : Tenancy) : a.lags a := rfl

theorem Tenancy.lags_trans {a b c : Tenancy} (h : a.lags b) (k : b.lags c) : a.lags c := by
  unfold Tenancy.lags at *
  rw [k, h]

/-- The tenancies of a state lag behind those of another in no more than stall cycles. -/
def Lags (s t : State) : Prop := ∀ n, (s.ten n).lags (t.ten n)

theorem Lags.refl (s : State) : Lags s s := fun _ => Tenancy.lags_refl _

theorem Lags.trans {s t u : State} (h : Lags s t) (k : Lags t u) : Lags s u := fun n => Tenancy.lags_trans (h n) (k n)

theorem Lags.of_keeps {vs : List View} {s t : State} (k : Keeps vs s t) (h : View.tens ∉ vs := by decide) : Lags s t :=
  fun n => by rw [k.ten_eq n h]; exact Tenancy.lags_refl _

theorem Lags.foldl {α : Type} {s t : State} {l : List α} {f : State → α → State} (h : Lags s t) (hf : ∀ u a, Lags u (f u a)) :
    Lags s (l.foldl f t) := by
  induction l generalizing t with
  | nil => exact h
  | cons a r ih => exact ih (h.trans (hf t a))

theorem addStall_lags (s : State) (t n : Nat) : Lags s (s.addStall t n) := by
  unfold State.addStall
  dsimp only
  split
  · intro k
    by_cases e : k = t
    · subst e
      rw [State.ten_modTen]
      rfl
    · rw [State.ten_modTen_ne _ _ e]
      exact Tenancy.lags_refl _
  · exact Lags.refl s

theorem countTicks_lags (s : State) (n : Nat) : Lags s (s.countTicks n) := by
  have h1 : Lags s ((tenancies s).foldl (fun (u : State) t => (u.countIdle t n).addStall t n) s) :=
    (Lags.refl s).foldl (fun u t => (Lags.of_keeps (State.countIdle_keeps (vs := [.counters]) (Keeps.refl _ u) (by decide))).trans
      (addStall_lags _ t n))
  unfold State.countTicks
  dsimp only
  split <;> split <;> exact h1

theorem settleMerges_none {s : State} (hc : s.cores.merges = []) (hh : s.hbm.merges = []) : s.settleMerges = s := by
  unfold State.settleMerges
  rw [hc, hh]
  rfl

/-- With no merge entry open tenancies change in stall cycles alone as time passes. -/
theorem pass_lags {s : State} (n : Nat) (hc : s.cores.merges = []) (hh : s.hbm.merges = []) : Lags s (s.pass n) := by
  rw [State.pass_eq]
  split
  · have hk : Keeps [.tens, .counters, .time] s (s.countTicks n) := countTicks_keeps s n
    have hnone : ∀ ti : Time, ({ s.countTicks n with time := ti } : State).settleMerges = { s.countTicks n with time := ti } :=
      fun ti => settleMerges_none (hk.eq_merges.trans hc) (hk.eq_hbmMerges.trans hh)
    rw [hnone]
    exact countTicks_lags s n
  · exact Lags.refl s

theorem passTo_lags {s : State} (v : Nat) (hc : s.cores.merges = []) (hh : s.hbm.merges = []) : Lags s (s.passTo v) := pass_lags _ hc hh

/-- Time runs to a tally before which no hazard falls. -/
theorem runTo_quiet {s : State} {v : Nat} (h : dueCycles s = []) : s.runTo v = s.passTo v := by
  unfold State.runTo
  rw [List.foldl_fixed' (fun _ => ?_)]
  rw [h]
  rfl

/-! ### Which tenancy a core belongs to, and whether it issues -/

theorem tenOf_of_def {s t : State} (hi : t.ident = s.ident) (hd : ∀ n, (t.ten n).def_ = (s.ten n).def_) (c : Core) : tenOf t c = tenOf s c := by
  unfold tenOf inGrid gridW tenOfRow tenancies State.tenExists
  simp only [hi, hd]

theorem Lags.tenOf_eq {s t : State} (h : Lags s t) (hi : t.ident = s.ident) (c : Core) : tenOf t c = tenOf s c :=
  tenOf_of_def hi (fun n => by rw [h n]) c

/-- A core issues as it did before time that leaves its tenancy's course and its sequencer. -/
theorem Lags.issues_eq {s t : State} (h : Lags s t) (hi : t.ident = s.ident) (hq : t.cores.seqs = s.cores.seqs) (c : Core) :
    issues t c = issues s c := by
  have hseq : seqOf t c = seqOf s c := by unfold seqOf; rw [hq]
  unfold issues inSchedule stopped
  rw [h.tenOf_eq hi c, hseq]
  cases tenOf s c with
  | none => rfl
  | some n => dsimp only; rw [h n]

theorem emptyBundle_of_keeps {vs : List View} {s t : State} {c : Core} (k : Keeps vs s t) (he : emptyBundle s c)
    (hq : View.seqs ∉ vs := by decide) (hp : View.prog ∉ vs := by decide) : emptyBundle t c := by
  unfold emptyBundle at *
  have hseq : seqOf t c = seqOf s c := by unfold seqOf; rw [k.eq_seqs hq]
  rw [hseq, k.eq_prog hp]
  exact he

/-! ### The statement -/

theorem exec_bundleIssue (c : Core) (s : State) : exec (.bundleIssue c) s = execBundleIssue c s := rfl

theorem tenNo_of {s : State} {c : Core} {t : Nat} (h : tenOf s c = some t) : tenNo s c = t := by
  unfold tenNo
  rw [h]
  rfl

/-- A bundle whose position the schedule has come to issues at once. -/
theorem bundleIssue_come {s : State} {c : Core} {t : Nat} (ht : tenOf s c = some t) (hi : issues s c = true)
    (hp : nextPos s c ≤ schedPos s t) : exec (.bundleIssue c) s = .next (s.issue c (nextPos s c)) := by
  rw [exec_bundleIssue, execBundleIssue, tenNo_of ht, hi]
  exact (if_neg (by simp)).trans (if_pos hp)

/-- A bundle that lies ahead issues in its cycle, to which time runs. -/
theorem bundleIssue_ahead {s : State} {c : Core} {t : Nat} (ht : tenOf s c = some t) (hi : issues s c = true)
    (hp : schedPos s t < nextPos s c) (ha : advancing s t = true)
    (hv : tallyAt s t (nextPos s c - schedPos s t) / 16384 ≤ s.time.lastCourse.getD 0)
    (hnow : (s.runTo (tallyAt s t (nextPos s c - schedPos s t))).now = tallyAt s t (nextPos s c - schedPos s t))
    (hi1 : issues (s.runTo (tallyAt s t (nextPos s c - schedPos s t))) c = true) :
    exec (.bundleIssue c) s = .next ((s.runTo (tallyAt s t (nextPos s c - schedPos s t))).issue c (nextPos s c)) := by
  rw [exec_bundleIssue, execBundleIssue, tenNo_of ht, hi]
  refine (if_neg (by simp)).trans ((if_neg (Nat.not_le.mpr hp)).trans ((if_pos (by simp [ha, hv])).trans ?_))
  exact congrArg Host.Outcome.next (if_pos (by simp [hnow, hi1]))

/-- Of a core that issues nothing nothing happens, nor of one whose bundle lies ahead of a schedule that does not come to it. -/
theorem bundleIssue_idle {s : State} {c : Core} (hi : issues s c = false) (hs : stopping s c = false) :
    exec (.bundleIssue c) s = .next s := by
  rw [exec_bundleIssue, execBundleIssue, hi, hs]
  exact if_pos (by decide)

theorem bundleIssue_never {s : State} {c : Core} {t : Nat} (ht : tenOf s c = some t) (hp : schedPos s t < nextPos s c)
    (hn : advancing s t = false ∨ s.time.lastCourse.getD 0 < tallyAt s t (nextPos s c - schedPos s t) / 16384) :
    exec (.bundleIssue c) s = .next s := by
  rw [exec_bundleIssue, execBundleIssue, tenNo_of ht]
  have hbeyond : (advancing s t && decide (tallyAt s t (nextPos s c - schedPos s t) / 16384 ≤ s.time.lastCourse.getD 0)) = false := by
    rcases hn with h | h
    · rw [h, Bool.false_and]
    · rw [decide_eq_false (Nat.not_le.mpr h), Bool.and_false]
  dsimp only
  rw [hbeyond]
  split
  · rfl
  · rw [if_neg (Nat.not_le.mpr hp)]
    rfl

/-- Settles O21: an empty bundle moves its sequencer on (`issue_empty`), at the state that stands or at the one that time leaves
(`runTo_quiet`, `passTo_now`). Which cycles time passes to is the model's choice (log entry 14). -/
theorem bundleIssues : Obligations.BundleIssues := by
  unfold Obligations.BundleIssues
  intro c s t ht pos v after
  refine ⟨fun hi he hp => ?come, fun hi he hp ha hv hc hnv hv64 hdue hcm hhm => ?ahead, bundleIssue_idle, bundleIssue_never ht⟩
  case come => exact ⟨_, (bundleIssue_come ht hi hp).trans (congrArg _ (issue_empty pos hi he)), seqOf_emptied s c pos, emptied_keeps s c pos⟩
  case ahead =>
    have hrun : s.runTo v = s.passTo v := runTo_quiet hdue
    have hk : Keeps timeViews s (s.passTo v) := State.passTo_keeps (Keeps.refl _ s) (by decide)
    have hnow : (s.passTo v).now = v := (passTo_now hc hv64).trans (Nat.max_eq_right hnv)
    have hi1 : issues (s.passTo v) c = true := ((passTo_lags v hcm hhm).issues_eq hk.ident hk.eq_seqs c).trans hi
    have hexec := bundleIssue_ahead ht hi hp ha hv (by rw [hrun]; exact hnow) (by rw [hrun]; exact hi1)
    have hempty := emptied_keeps (s.passTo v) c pos
    have hseq : seqOf (s.passTo v) c = seqOf s c := by unfold seqOf; rw [hk.eq_seqs]
    rw [hrun, issue_empty pos hi1 (emptyBundle_of_keeps hk he)] at hexec
    refine ⟨_, hexec, ?_, ?_, (hk.mono (List.subset_cons_self _ _)).then (by decide) hempty⟩
    · unfold State.now at *
      rw [hempty.eq_time]
      exact hnow
    · rw [seqOf_emptied, hseq]
      rfl

end Sys2Proof.Machine
end

section
/-! SUPPORT. The statements about ports, the tally's pins and the board's interfaces (13 R338, R342; 09 R246; 21 R558, R571, R572). -/

namespace Sys2Proof.Machine

open Sys2Proof Sys2Proof.Claims

set_option Elab.async false

/-! ### Counters -/

/-- A counter counted once is one more, held at its greatest value. -/
theorem counted_count (s : State) (o : Nat) : counted s (s.count o 1) o := by
  unfold counted
  rw [State.counter_count, if_pos rfl]

theorem counter_count_ne (s : State) {o p : Nat} (n : Nat) (h : p ≠ o) : (s.count o n).counter p = s.counter p := by
  rw [State.counter_count, if_neg h]

/-- What changes a counter neither before nor after it is counted leaves it counted. -/
theorem counted.of_eq {s t u v : State} {o : Nat} (h : counted t u o) (hs : t.counter o = s.counter o) (hv : v.counter o = u.counter o) :
    counted s v o := by
  unfold counted at *
  rw [hv, h, hs]

theorem charge_counter (s : State) (t : Option Nat) (e : Nat) (offs : List Nat) (o : Nat) : (s.charge t e offs).counter o = s.counter o :=
  (State.charge_keeps (vs := [.tens, .power]) (Keeps.refl _ s) (by decide)).counter_eq o

theorem chargeFrame_counter (s : State) (p : Port) (f : Frame) (o : Nat) : (s.chargeFrame p f).counter o = s.counter o := charge_counter _ _ _ _ _

/-! ### Ports -/

theorem portOf_modPort (s : State) (p : Port) (f : PortSt → PortSt) : portOf (s.modPort p f) p = f (portOf s p) := look_put _ _ _ _

theorem portOf_modPort_ne (s : State) {p q : Port} (f : PortSt → PortSt) (h : q ≠ p) : portOf (s.modPort p f) q = portOf s q :=
  look_put_ne _ _ _ (fun e => h (Fin.ext e))

theorem Keeps.portOf_eq {vs : List View} {s t : State} (k : Keeps vs s t) (p : Port) (h : View.fabric ∉ vs := by decide) :
    portOf t p = portOf s p := by
  unfold portOf
  rw [k.eq_fabric h]

/-- Settles O32, a clause for each frame: each counts one register of its port. -/
theorem portFrames : Obligations.PortFrames := by
  unfold Obligations.PortFrames
  intro p s
  refine ⟨⟨_, rfl, counted_count _ _, State.count_keeps (Keeps.refl _ s) (by decide)⟩,
    ⟨_, rfl, counted_count _ _, State.count_keeps (Keeps.refl _ s) (by decide)⟩, fun pause => ?_, fun f hl => ?_⟩
  · exact ⟨_, rfl, counted_count _ _, portOf_modPort _ p _, fun q hq => portOf_modPort_ne _ _ hq,
      State.modPort_keeps (State.count_keeps (Keeps.refl _ s) (by decide)) (by decide)⟩
  · have hne : portOff p.val 0x08 ≠ portOff p.val 0x40 := by unfold portOff; omega
    refine ⟨((s.count (portOff p.val 0x08) 1).chargeFrame p f).count (portOff p.val 0x40) 1, ?_, ?_, ?_, ?_, ?_⟩
    · exact congrArg _ (if_pos hl)
    · refine counted.of_eq (counted_count s _) rfl ?_
      rw [counter_count_ne _ _ hne, chargeFrame_counter]
    · refine counted.of_eq (counted_count _ _) ?_ rfl
      rw [chargeFrame_counter, counter_count_ne _ _ hne.symm]
    · exact ((count_talks _ _ _).trans (chargeFrame_talks _ _ _)).trans (count_talks _ _ _)
    · exact State.count_keeps (State.chargeFrame_keeps (State.count_keeps (Keeps.refl _ s) (by decide)) (by decide)) (by decide)

/-! ### The source of the PLL -/

/-- The source that a selection leaves: none with the PLL off, else the one that its inputs choose. -/
theorem selectPll_pll (s : State) : s.selectPll.time.pll = if s.time.pll = .off then .off else choosePll s := by
  unfold State.selectPll
  by_cases h : s.time.pll = .off
  · rw [if_pos h, if_pos h, h]
  · simp only [if_neg h]
    split
    · exact congrArg Time.pll ((State.raiseTime_keeps (vs := [.mgmt]) (State.dayChip_keeps (Keeps.refl _ _) (by decide)) (by decide)).eq_time)
    · rfl

/-- The choice rests on the fabric and on the time, and there on the last lock only where no port serves. -/
theorem choosePll_congr {s t : State} {pll : PllSource} {ever : Bool} (hf : t.fabric = s.fabric)
    (ht : t.time = { s.time with pll := pll, everLocked := ever })
    (he : choosePll s = .portA ∨ choosePll s = .portB ∨ ever = s.time.everLocked) : choosePll t = choosePll s := by
  have hm : isMaster t = isMaster s := by unfold isMaster knownPair ownPair myId; rw [hf, ht]
  have hp (k : Nat) : portLocked t k = portLocked s k := by unfold portLocked portOf; rw [hf]
  have hc : t.time.ctl = s.time.ctl := by rw [ht]
  have hv : t.time.everLocked = ever := by rw [ht]
  unfold choosePll at he ⊢
  rw [hm, hp, hp, hc, hv]
  split_ifs at he ⊢ <;> simp_all

/-- A selection leaves the choice as it was. -/
theorem choosePll_selectPll (s : State) : choosePll s.selectPll = choosePll s := by
  unfold State.selectPll
  split
  · rfl
  · let n := choosePll s
    let onPort := decide (n = .portA) || decide (n = .portB)
    let s1 := { s with time := { s.time with pll := n, everLocked := s.time.everLocked || onPort } }
    have he : choosePll s = .portA ∨ choosePll s = .portB ∨ (s.time.everLocked || onPort) = s.time.everLocked := by
      by_cases ha : n = .portA
      · exact .inl ha
      · by_cases hb : n = .portB
        · exact .inr (.inl hb)
        · exact .inr (.inr (by simp [onPort, ha, hb]))
    dsimp only
    split
    · have k : Keeps [.mgmt] s1 ((s1.dayChip 0x13 0 (if n = .portA then bitsN s.time.ctl 3 0 else bitsN s.time.ctl 7 4) 0 0).raiseTime 10) :=
        State.raiseTime_keeps (State.dayChip_keeps (Keeps.refl _ _) (by decide)) (by decide)
      exact choosePll_congr k.eq_fabric k.eq_time he
    · exact choosePll_congr (t := s1) rfl rfl he

/-- What an event of port `p` that changes it by `f` and then selects a source leaves. -/
theorem portEvent_done (p : Port) (f : PortSt → PortSt) (s : State) :
    let t := (s.modPort p f).selectPll
    portOf t p = f (portOf s p) ∧ (∀ q, q ≠ p → portOf t q = portOf s q) ∧
      t.time.pll = (if s.time.pll = .off then .off else choosePll t) ∧ Keeps [.fabric, .time, .mgmt] s t := by
  have k : Keeps [.time, .mgmt] (s.modPort p f) (s.modPort p f).selectPll := State.selectPll_keeps (Keeps.refl _ _) (by decide)
  refine ⟨?_, fun q hq => ?_, ?_, (State.modPort_keeps (Keeps.refl _ s) (by decide)).then (by decide) k⟩
  · rw [k.portOf_eq, portOf_modPort]
  · rw [k.portOf_eq, portOf_modPort_ne _ _ hq]
  · rw [choosePll_selectPll, selectPll_pll]; rfl

/-- Settles O33: each event changes its own port and then selects the PLL's source. -/
theorem portLinks : Obligations.PortLinks := by
  unfold Obligations.PortLinks
  intro p s
  refine ⟨fun h => ⟨_, ?_, portEvent_done p (fun q => { q with link := true, locked := true, lost := none, down := q.failed || q.assay }) s⟩,
    fun h => ?_,
    fun h => ⟨_, ?_, portEvent_done p (fun q => { q with link := false, locked := false, paused := 0, lost := some s.now }) s⟩,
    ⟨_, rfl, portEvent_done p (fun q => { q with locked := false }) s⟩,
    ⟨_, rfl, portEvent_done p (fun q => { q with locked := q.link }) s⟩⟩
  · change execFabricLinkUp p s = _
    unfold execFabricLinkUp
    rw [if_neg (by simp [h])]
  · change execFabricLinkUp p s = _
    unfold execFabricLinkUp
    rw [if_pos h]
  · change execLinkLoss p s = _
    unfold execLinkLoss
    rw [if_neg (by simp [h])]

/-! ### The pins of the tally -/

/-- With the clock on, a pass that does not overflow the tally adds its ticks. -/
theorem pass_now {s : State} {n : Nat} (hc : s.time.pll ≠ .off) (hn : s.now + n < 2 ^ 64) : (s.pass n).now = s.now + n := by
  have h := passTo_now hc hn
  unfold State.passTo at h
  rwa [Nat.add_sub_cancel_left, Nat.max_eq_right (Nat.le_add_right _ _)] at h

theorem untilEdge_le {period high x : Nat} (hh : high ≤ period) : untilEdge period high x ≤ period := by
  unfold untilEdge
  split <;> omega

theorem setBoard_keeps (s : State) (b : Board) : Keeps [.board] s { s with board := b } where
  pending := rfl
  ident := rfl
  wf := id
  same v hv := by cases v <;> simp_all [View.same, View.sameCores, View.sameHbm]

/-- The state in which a pin takes its level: at the wave's change where the pin stands at the wave's level, and here where it does not. -/
def State.atEdge (s : State) (stands : Bool) (n : Nat) : State := if stands then s.pass n else s

theorem atEdge_now {s : State} {n : Nat} (stands : Bool) (hc : s.time.pll ≠ .off) (hn : s.now + n < 2 ^ 64) :
    (s.atEdge stands n).now = if stands = true then s.now + n else s.now := by
  unfold State.atEdge
  split
  · exact pass_now hc hn
  · rfl

theorem atEdge_keeps (s : State) (stands : Bool) (n : Nat) : Keeps timeViews s (s.atEdge stands n) :=
  .ite (pass_keeps_time s n) (Keeps.refl _ s)

theorem ppsPhase_congr {s t : State} (h : t.time = s.time) : ppsPhase t = ppsPhase s := by unfold ppsPhase State.now; rw [h]

theorem clockOn_of {s : State} (h : s.time.pll ≠ .off) : clockOn s = true := decide_eq_true h

/-- The next edge of PPS_OUT. -/
def State.ppsEdge (s : State) : State :=
  s.atEdge (s.board.pps = decide (ppsPhase s < 180000000)) (untilEdge 1800000000 180000000 (ppsPhase s))

/-- The next edge of TALLY_REF. -/
def State.refEdge (s : State) : State := s.atEdge (s.board.tallyRef = decide (s.now % 180 < 90)) (untilEdge 180 90 (s.now % 180))

/-- PPS_OUT at its next edge takes the level of the wave there. -/
def State.ppsOut (s : State) : State :=
  { s.ppsEdge with board := { s.ppsEdge.board with pps := decide (ppsPhase s.ppsEdge < 180000000) } }

/-- TALLY_REF at its next edge takes the level of the wave there. -/
def State.refOut (s : State) : State :=
  { s.refEdge with board := { s.refEdge.board with tallyRef := decide (s.refEdge.now % 180 < 90) } }

theorem exec_ppsOutEdge {s : State} (hc : s.time.pll ≠ .off) : exec .ppsOutEdge s = .next s.ppsOut := by
  change execPpsOutEdge s = _
  unfold execPpsOutEdge State.ppsOut State.ppsEdge State.atEdge
  rw [clockOn_of hc]
  simp

theorem exec_tallyRefOutEdge {s : State} (hc : s.time.pll ≠ .off) : exec .tallyRefOutEdge s = .next s.refOut := by
  change execTallyRefOutEdge s = _
  unfold execTallyRefOutEdge State.refOut State.refEdge State.atEdge
  rw [clockOn_of hc]
  simp

theorem setBoard_now (s : State) (b : Board) : ({ s with board := b } : State).now = s.now := rfl
theorem setBoard_ppsPhase (s : State) (b : Board) : ppsPhase { s with board := b } = ppsPhase s := ppsPhase_congr rfl

theorem ppsOut_now (s : State) : s.ppsOut.now = s.ppsEdge.now := setBoard_now _ _
theorem refOut_now (s : State) : s.refOut.now = s.refEdge.now := setBoard_now _ _

theorem ppsOut_level (s : State) : s.ppsOut.board.pps = decide (ppsPhase s.ppsOut < 180000000) := by
  have h : ppsPhase s.ppsOut = ppsPhase s.ppsEdge := setBoard_ppsPhase _ _
  rw [h]
  unfold State.ppsOut
  rfl

theorem refOut_level (s : State) : s.refOut.board.tallyRef = decide (s.refOut.now % 180 < 90) := by
  rw [refOut_now]
  rfl

theorem ppsOut_keeps (s : State) : Keeps (.board :: timeViews) s s.ppsOut :=
  ((atEdge_keeps _ _ _).mono (by decide)).then (by decide) (setBoard_keeps _ _)

theorem refOut_keeps (s : State) : Keeps (.board :: timeViews) s s.refOut :=
  ((atEdge_keeps _ _ _).mono (by decide)).then (by decide) (setBoard_keeps _ _)

theorem ppsEdge_now {s : State} (hc : s.time.pll ≠ .off) (hn : s.now + 1800000000 < 2 ^ 64) : s.ppsEdge.now =
    if s.board.pps = decide (ppsPhase s < 180000000) then s.now + untilEdge 1800000000 180000000 (ppsPhase s) else s.now := by
  have hle : untilEdge 1800000000 180000000 (ppsPhase s) ≤ 1800000000 := untilEdge_le (by omega)
  unfold State.ppsEdge
  rw [atEdge_now _ hc (by omega)]
  simp only [decide_eq_true_eq]

theorem refEdge_now {s : State} (hc : s.time.pll ≠ .off) (hn : s.now + 1800000000 < 2 ^ 64) : s.refEdge.now =
    if s.board.tallyRef = decide (s.now % 180 < 90) then s.now + untilEdge 180 90 (s.now % 180) else s.now := by
  have hle : untilEdge 180 90 (s.now % 180) ≤ 180 := untilEdge_le (by omega)
  unfold State.refEdge
  rw [atEdge_now _ hc (by omega)]
  simp only [decide_eq_true_eq]

/-- Settles O35: an edge takes the time to the wave's change where the pin stands at the wave's level, and the pin then takes the level. -/
theorem tallyPins : Obligations.TallyPins := by
  unfold Obligations.TallyPins
  intro s
  refine ⟨⟨_, rfl, rfl, rfl, rfl, setTime_keeps _ _⟩, fun hc hn => ⟨?_, ?_⟩⟩
  · exact ⟨s.ppsOut, exec_ppsOutEdge hc, ppsOut_level s, (ppsOut_now s).trans (ppsEdge_now hc hn), ppsOut_keeps s⟩
  · exact ⟨s.refOut, exec_tallyRefOutEdge hc, refOut_level s, (refOut_now s).trans (refEdge_now hc hn), refOut_keeps s⟩

/-! ### The board's interfaces -/

theorem toNat_bits {n : Nat} (w : BitVec n) (hi lo : Nat) : (bits w hi lo).toNat = w.toNat / 2 ^ lo % 2 ^ (hi + 1 - lo) := by
  unfold bits
  rw [BitVec.extractLsb'_toNat, Nat.shiftRight_eq_div_pow]

theorem bitB_eq {n : Nat} (w : BitVec n) (i : Nat) : bitB w i = decide (w.toNat / 2 ^ i % 2 = 1) := by
  unfold bitB BitVec.getLsbD
  rw [Nat.testBit_eq_decide_div_mod_eq]

/-- A register's value is the sum of its fields, where that fits 64 bits. -/
theorem regOf_toNat {l : List Nat} (h : l.sum < 2 ^ 64) : (regOf l).toNat = l.sum := by
  unfold regOf
  rw [BitVec.toNat_ofNat, ← List.sum_eq_foldl, Nat.mod_eq_of_lt h]

theorem flagAt_eq (b : Bool) (i : Nat) : flagAt b i = b.toNat * 2 ^ i := by
  cases b
  · exact (Nat.zero_mul _).symm
  · exact (Nat.one_mul _).symm

theorem bool_of_toNat (b : Bool) : decide (b.toNat = 1) = b := by cases b <;> rfl

/-- A register of seven fields. -/
theorem regOf_seven {a b c d e f g : Nat} (h : a + (b + (c + (d + (e + (f + g))))) < 2 ^ 64) :
    (regOf [a, b, c, d, e, f, g]).toNat = a + (b + (c + (d + (e + (f + g))))) := by
  have hs : [a, b, c, d, e, f, g].sum = a + (b + (c + (d + (e + (f + g))))) := by simp
  rw [regOf_toNat (hs ▸ h), hs]

/-- BOOT_STATUS as the sum of its fields (21 Table 21.9). -/
theorem bootStatus_toNat (s : State) : (bootStatus s).toNat = s.board.stage.toNat + (s.board.fail.toNat * 2 ^ 8 +
    (s.board.detail.toNat * 2 ^ 16 + (s.board.bootDone.toNat * 2 ^ 24 + (s.board.fallback.toNat * 2 ^ 25 + (s.board.test.toNat * 2 ^ 26 +
      s.board.straps.toNat * 2 ^ 27))))) := by
  have hb := s.board.bootDone.toNat_lt
  have hfb := s.board.fallback.toNat_lt
  have htt := s.board.test.toNat_lt
  unfold bootStatus
  dsimp only
  rw [flagAt_eq, flagAt_eq, flagAt_eq]
  exact regOf_seven (by omega)

/-- The fields of BOOT_STATUS. -/
theorem bootStatus_fields (s : State) : bits (bootStatus s) 7 0 = s.board.stage ∧ bits (bootStatus s) 15 8 = s.board.fail ∧
    bits (bootStatus s) 23 16 = s.board.detail ∧ bitB (bootStatus s) 24 = s.board.bootDone := by
  have hw := bootStatus_toNat s
  have hb := s.board.bootDone.toNat_lt
  generalize bootStatus s = w at *
  refine ⟨BitVec.eq_of_toNat_eq ?_, BitVec.eq_of_toNat_eq ?_, BitVec.eq_of_toNat_eq ?_, ?_⟩
  · rw [toNat_bits]; omega
  · rw [toNat_bits]; omega
  · rw [toNat_bits]; omega
  · rw [bitB_eq, ← bool_of_toNat s.board.bootDone]
    exact decide_eq_decide.2 (by omega)

/-- While the board's boot has begun and the management domain runs, an I3C read gives the register. -/
theorem exec_i3cRead {s : State} (hp : s.board.por = true) (hm : mgmtOn s = true) (index : BitVec 8) :
    exec (.i3cRead index) s = .next { s with board := { s.board with i3cReg := index, i3cData := i3cValue s index } } := by
  change execI3cRead index s = _
  unfold execI3cRead
  rw [hp, hm]
  rfl

theorem exec_dynamicAddress {s : State} (hp : s.board.por = true) (hm : mgmtOn s = true) (a : BitVec 7) :
    exec (.dynamicAddress a) s = .next { s with board := { s.board with i3cAddr := some a } } := by
  change execDynamicAddress a s = _
  unfold execDynamicAddress
  rw [hp, hm]
  rfl

/-- A TAP instruction in force. -/
def State.tapped (s : State) (i : BitVec 3) (d : BitVec 32) : State := { s with board := { s.board with tapInstr := i, tapData := d } }

theorem tap_on {s : State} (h : s.board.jtag = true) (i : BitVec 3) (d : BitVec 32) : s.tap i d = s.tapped i d := if_pos h

theorem tap_off {s : State} (h : s.board.jtag = false) (i : BitVec 3) (d : BitVec 32) : s.tap i d = s := if_neg (by simp [h])

theorem tapPor_low {s : State} (h : s.board.por = false) (i : BitVec 3) (d : BitVec 32) : s.tapPor i d = s.tap i d := if_neg (by simp [h])

theorem tapPor_high {s : State} (h : s.board.por = true) (i : BitVec 3) (d : BitVec 32) : s.tapPor i d = s.tap 1 0 := if_pos h

/-- Held in Test-Logic-Reset no instruction of the TAP does anything. -/
theorem tap_held {s : State} (h : s.board.jtag = false) (pins : BitVec 32) :
    ∀ i ∈ [Instr.bypass, .idcode, .samplePreload pins, .extest, .clamp, .highz], exec i s = .next s := by
  have hp (i : BitVec 3) (d : BitVec 32) : s.tapPor i d = s := by
    unfold State.tapPor
    split <;> exact tap_off h _ _
  have hs : (let s1 := s.tap 3 pins; if s.board.jtag then { s1 with board := { s1.board with boundary := pins } } else s1) = s := by
    dsimp only
    rw [if_neg (by simp [h]), tap_off h]
  simp only [List.mem_cons, List.not_mem_nil, or_false, forall_eq_or_imp, forall_eq]
  exact ⟨congrArg _ (tap_off h _ _), congrArg _ (tap_off h _ _), congrArg _ hs, congrArg _ (hp _ _), congrArg _ (hp _ _), congrArg _ (hp _ _)⟩

/-- A TAP instruction is in force with its data register, and nothing else has changed. -/
def inForce (s : State) (o : Answer) (code : BitVec 3) (d : BitVec 32) : Prop :=
  ∃ t, o = .next t ∧ t.board.tapInstr = code ∧ t.board.tapData = d ∧ t.board.boundary = s.board.boundary ∧ Keeps [.board] s t

theorem tap_inForce {s : State} (h : s.board.jtag = true) (i : BitVec 3) (d : BitVec 32) : inForce s (.next (s.tap i d)) i d :=
  ⟨_, congrArg _ (tap_on h i d), rfl, rfl, rfl, setBoard_keeps _ _⟩

theorem tapPor_inForce {s : State} (h : s.board.jtag = true) (hp : s.board.por = false) (i : BitVec 3) (d : BitVec 32) :
    inForce s (.next (s.tapPor i d)) i d := by
  rw [tapPor_low hp]
  exact tap_inForce h i d

theorem tapPor_bypass {s : State} (h : s.board.jtag = true) (hp : s.board.por = true) (i : BitVec 3) (d : BitVec 32) :
    inForce s (.next (s.tapPor i d)) 1 0 := by
  rw [tapPor_high hp]
  exact tap_inForce h 1 0

/-- SAMPLE/PRELOAD selects the boundary register, which takes the pins. -/
theorem exec_samplePreload {s : State} (h : s.board.jtag = true) (pins : BitVec 32) : exec (.samplePreload pins) s =
    .next { s with board := { s.board with tapInstr := 3, tapData := pins, boundary := pins } } := by
  change execSamplePreload pins s = _
  unfold execSamplePreload
  dsimp only
  rw [tap_on h, if_pos h]
  rfl

/-- Settles O56: the target gives the register that its index names, and each TAP instruction is in force with its data register. -/
theorem boardAccess : Obligations.BoardAccess := by
  unfold Obligations.BoardAccess
  intro s
  refine ⟨fun hp hm => ⟨fun index => ?_, fun a => ?_⟩, fun hj => ⟨tap_inForce hj 1 0, tap_inForce hj 2 (idcode s), fun pins => ?_,
    fun hp => ⟨tapPor_inForce hj hp 4 s.board.boundary, tapPor_inForce hj hp 5 0, tapPor_inForce hj hp 6 0⟩, fun hp => ?_⟩,
    fun hj pins => tap_held hj pins⟩
  · refine ⟨_, exec_i3cRead hp hm index, rfl, ?_, ?_, ?_, ?_, setBoard_keeps _ _⟩
    · rintro rfl; exact bootStatus_fields s
    · rintro rfl; rfl
    · rintro rfl; rfl
    · rintro rfl; rfl
  · exact ⟨_, exec_dynamicAddress hp hm a, rfl, setBoard_keeps _ _⟩
  · exact ⟨_, exec_samplePreload hj pins, rfl, rfl, rfl, setBoard_keeps _ _⟩
  · simp only [List.mem_cons, List.not_mem_nil, or_false, forall_eq_or_imp, forall_eq]
    exact ⟨tapPor_bypass hj hp 4 _, tapPor_bypass hj hp 5 0, tapPor_bypass hj hp 6 0⟩

end Sys2Proof.Machine
end

section
/-! SUPPORT. What operations leave of a tenancy: the parts that a projection shows, the errors that end a job, and the control frames of a job
(13 R350, R356; 15 R402 to R406, R417). -/

namespace Sys2Proof.Machine

open Sys2Proof Sys2Proof.Claims

set_option Elab.async false

/-! ### Parts of the tenancies that stand -/

/-- What `π` shows of each tenancy stands. -/
def Fixes {α : Type} (π : Tenancy → α) (s t : State) : Prop := ∀ n, π (t.ten n) = π (s.ten n)

/-- A part of a tenancy that sending and receiving frames leaves. -/
@[reducible] def Unspoken {α : Type} (π : Tenancy → α) : Prop := ∀ (r : Tenancy) (e : Nat) (l : List Stall) (k : Nat),
  π { r with course := { r.course with energy := e, stalls := l, shift := k } } = π r

/-- A part of a tenancy that the end of its job leaves. -/
@[reducible] def Unended {α : Type} (π : Tenancy → α) : Prop := ∀ (r : Tenancy) (x : Option JobError) (b : Bool) (c : Nat),
  π { r with recov := { r.recov with ending := x }, course := { r.course with stopped := b, stopCyc := c } } = π r

section Fixes

variable {α : Type} {π : Tenancy → α} {s t u : State}

theorem Fixes.refl (s : State) : Fixes π s s := fun _ => rfl

theorem Fixes.trans (h : Fixes π s t) (k : Fixes π t u) : Fixes π s u := fun n => (k n).trans (h n)

theorem Fixes.of_keeps {vs : List View} (k : Keeps vs s t) (h : View.tens ∉ vs := by decide) : Fixes π s t := fun n => congrArg π (k.ten_eq n h)

theorem Fixes.of_tens (h : t.tens = s.tens) : Fixes π s t := fun n => by unfold State.ten; rw [h]

theorem Fixes.ite {c : Prop} [Decidable c] (ha : Fixes π s t) (hb : Fixes π s u) : Fixes π s (if c then t else u) := by
  split <;> assumption

theorem Fixes.foldl {β : Type} {l : List β} {f : State → β → State} (h : Fixes π s t) (hf : ∀ v a, Fixes π v (f v a)) :
    Fixes π s (l.foldl f t) := by
  induction l generalizing t with
  | nil => exact h
  | cons a r ih => exact ih (h.trans (hf t a))

theorem Tenancy.talks_unspoken {a b : Tenancy} (h : a.talks b) (hπ : Unspoken π) : π b = π a := by
  unfold Tenancy.talks at h
  rw [h]
  exact hπ _ _ _ _

theorem Fixes.of_talks (h : Talks s t) (hπ : Unspoken π := by exact fun _ _ _ _ => rfl) : Fixes π s t := fun n => Tenancy.talks_unspoken (h.1 n) hπ

theorem Fixes.modTen {n : Nat} {f : Tenancy → Tenancy} (h : ∀ r, π (f r) = π r) : Fixes π s (s.modTen n f) := by
  intro m
  by_cases e : m = n
  · subst e; rw [State.ten_modTen]; exact h _
  · rw [State.ten_modTen_ne _ _ e]

end Fixes

/-! ### What frames sent and received leave -/

section Talks

variable {s t : State}

theorem Talks.ten_load (h : Talks s t) (n : Nat) : (t.ten n).load = (s.ten n).load := Fixes.of_talks (π := (·.load)) h (fun _ _ _ _ => rfl) n
theorem Talks.ten_recov (h : Talks s t) (n : Nat) : (t.ten n).recov = (s.ten n).recov := Fixes.of_talks (π := (·.recov)) h (fun _ _ _ _ => rfl) n
theorem Talks.ten_launch (h : Talks s t) (n : Nat) : (t.ten n).launch = (s.ten n).launch :=
  Fixes.of_talks (π := (·.launch)) h (fun _ _ _ _ => rfl) n
theorem Talks.ten_vote (h : Talks s t) (n : Nat) : (t.ten n).vote = (s.ten n).vote := Fixes.of_talks (π := (·.vote)) h (fun _ _ _ _ => rfl) n
theorem Talks.ten_close (h : Talks s t) (n : Nat) : (t.ten n).close = (s.ten n).close := Fixes.of_talks (π := (·.close)) h (fun _ _ _ _ => rfl) n
theorem Talks.ten_steps (h : Talks s t) (n : Nat) : (t.ten n).steps = (s.ten n).steps := Fixes.of_talks (π := (·.steps)) h (fun _ _ _ _ => rfl) n
theorem Talks.ten_pending (h : Talks s t) (n : Nat) : (t.ten n).course.pending = (s.ten n).course.pending :=
  Fixes.of_talks (π := (·.course.pending)) h (fun _ _ _ _ => rfl) n
theorem Talks.ten_lean (h : Talks s t) (n : Nat) : (t.ten n).course.lean = (s.ten n).course.lean :=
  Fixes.of_talks (π := (·.course.lean)) h (fun _ _ _ _ => rfl) n
theorem Talks.ten_stopped (h : Talks s t) (n : Nat) : (t.ten n).course.stopped = (s.ten n).course.stopped :=
  Fixes.of_talks (π := (·.course.stopped)) h (fun _ _ _ _ => rfl) n

theorem Talks.hdr_eq (h : Talks s t) (n a k : Nat) : hdr t n a k = hdr s n a k := by unfold hdr; rw [h.ten_load]

theorem Talks.axes_eq (h : Talks s t) : t.fabric.axes = s.fabric.axes := by
  obtain ⟨-, hf⟩ := h
  unfold Fabric.talks at hf
  rw [hf]

theorem Talks.myId_eq (h : Talks s t) : myId t = myId s := by unfold myId; rw [h.axes_eq]

theorem Talks.axisLen_eq (h : Talks s t) (k : Nat) : axisLen t k = axisLen s k := by unfold axisLen; rw [h.axes_eq]

theorem Talks.coordOf_eq (h : Talks s t) (id k : Nat) : coordOf t id k = coordOf s id k := by
  unfold coordOf axisStride
  simp only [h.axisLen_eq]

theorem Talks.boxN_eq (h : Talks s t) (n k : Nat) : boxN t n k = boxN s n k := h.hdr_eq _ _ _

theorem Talks.relCoord_eq (h : Talks s t) (n id k : Nat) : relCoord t n id k = relCoord s n id k := by
  unfold relCoord boxO
  rw [h.coordOf_eq, h.hdr_eq]

theorem Talks.isRoot_eq (h : Talks s t) (n : Nat) : isRoot t n = isRoot s n := by
  unfold isRoot
  simp only [h.relCoord_eq, h.myId_eq]

theorem Talks.rootChildren_eq (h : Talks s t) (n : Nat) : rootChildren t n = rootChildren s n := by
  unfold rootChildren
  simp only [h.relCoord_eq, h.myId_eq, h.boxN_eq]

theorem Talks.rootSub_eq (h : Talks s t) (n : Nat) : rootSub t n = rootSub s n := by
  unfold rootSub
  simp only [h.relCoord_eq, h.myId_eq, h.boxN_eq]

theorem Talks.jobLive_eq (h : Talks s t) (n : Nat) : jobLive t n = jobLive s n := by
  unfold jobLive
  rw [h.ten_load, h.ten_recov]

end Talks

/-! ### A tenancy changed among others that stand -/

theorem becomes.of_talks {n : Nat} {s t : State} (h : Talks s t) : becomes n id s t := fun m => by
  by_cases e : m = n
  · subst e; rw [if_pos rfl]; exact h.1 m
  · rw [if_neg e]; exact h.1 m

theorem becomes.then {n : Nat} {g : Tenancy → Tenancy} {s t u : State} (h : becomes n g s t) (k : Talks t u) : becomes n g s u :=
  fun m => Tenancy.talks_trans (h m) (k.1 m)

/-- A change of a tenancy that commutes with what frames change of a tenancy. -/
@[reducible] def Commutes (g : Tenancy → Tenancy) : Prop := ∀ a b : Tenancy, a.talks b → (g a).talks (g b)

/-- After frames, tenancy `n` changed by `g`. -/
theorem becomes.modTen {n : Nat} {g : Tenancy → Tenancy} {s t : State} (h : Talks s t) (hg : Commutes g) : becomes n g s (t.modTen n g) :=
  fun m => by
    by_cases e : m = n
    · subst e; rw [if_pos rfl, State.ten_modTen]; exact hg _ _ (h.1 m)
    · rw [if_neg e, State.ten_modTen_ne _ _ e]; exact h.1 m

/-- The same of a change that reads the state which the frames left. -/
theorem becomes.of_modTen {n : Nat} {g g' : Tenancy → Tenancy} {s t : State} (h : Talks s t) (hg : Commutes g)
    (e : g' (t.ten n) = g (t.ten n)) : becomes n g s (t.modTen n g') := by
  have : t.modTen n g' = t.modTen n g := by unfold State.modTen; rw [e]
  rw [this]
  exact becomes.modTen h hg

/-- A change that leaves the course, or changes it only in what frames do not, commutes with them. -/
theorem commutes_of {g : Tenancy → Tenancy} (h : ∀ (a : Tenancy) (e : Nat) (l : List Stall) (k : Nat), (g { a with course :=
    { a.course with energy := e, stalls := l, shift := k } }) = { g a with course := { (g a).course with energy := e, stalls := l, shift := k } }) :
    Commutes g := by
  intro a b hab
  unfold Tenancy.talks at hab ⊢
  rw [hab, h]

/-! ### Errors that end a job -/

/-- The job-ending error of class J with a code. -/
def endsWith (code : BitVec 8) : JobError := ⟨clsJ, 4, 0, code⟩

/-- The tenancy's job has the error with a code, unless it had one, and this chip has stopped. -/
def endedBy (n : Nat) (code : BitVec 8) (s t : State) : Prop :=
  (t.ten n).recov.ending = (s.ten n).recov.ending.or (some (endsWith code)) ∧ (t.ten n).course.stopped = true

theorem endedBy.ended {n k : Nat} {s t : State} (h : endedBy n (BitVec.ofNat 8 (Config.endCode k)) s t) : ended n k s t := h

/-- What frames change beforehand changes nothing of a job's end. -/
theorem endedBy.after {n : Nat} {code : BitVec 8} {s t u : State} (h : endedBy n code t u) (k : Talks s t) : endedBy n code s u := by
  unfold endedBy at *
  rwa [k.ten_recov] at h

theorem ended.after {n k : Nat} {s t u : State} (h : ended n k t u) (hk : Talks s t) : ended n k s u := endedBy.after h hk

theorem endError_ending (s : State) (n : Nat) (code : BitVec 8) :
    ((s.endError n code).ten n).recov.ending = (s.ten n).recov.ending.or (some (endsWith code)) := by
  unfold State.endError
  cases h : (s.ten n).recov.ending with
  | some x => exact h
  | none => rw [(broadcast_talks _ _ _ _).ten_recov, State.ten_modTen]; rfl

theorem stopNow_recov (r : Tenancy) (tally : Nat) : (r.stopNow tally).recov = r.recov := by
  unfold Tenancy.stopNow
  split <;> rfl

theorem stopNow_stopped (r : Tenancy) (tally : Nat) : (r.stopNow tally).course.stopped = true := by
  unfold Tenancy.stopNow
  split
  · assumption
  · rfl

/-- A tenancy stops at a tally: only its flag and its cycle change, if it had not stopped. -/
theorem stopNow_eq (r : Tenancy) (tally : Nat) : ∃ c, r.stopNow tally = { r with course := { r.course with stopped := true, stopCyc := c } } := by
  unfold Tenancy.stopNow
  split
  · next h => exact ⟨r.course.stopCyc, by rw [← h]⟩
  · exact ⟨tally, rfl⟩

/-- An error that ends the job and stops this chip. -/
def State.endStop (s : State) (n : Nat) (code : BitVec 8) : State := (s.endError n code).modTen n (fun r => r.stopNow s.now)

theorem endStop_ended (s : State) (n : Nat) (code : BitVec 8) : endedBy n code s (s.endStop n code) := by
  unfold State.endStop endedBy
  rw [State.ten_modTen, stopNow_recov, endError_ending]
  exact ⟨rfl, stopNow_stopped _ _⟩

/-- The job of a tenancy runs or is loaded. -/
def canEnd (s : State) (n : Nat) : Prop := (s.ten n).load.st = .running ∨ (s.ten n).load.st = .loaded

theorem jobEnds_live {s : State} {n : Nat} (code : BitVec 8) (h : canEnd s n) : s.jobEnds n code = s.endStop n code := by
  unfold State.jobEnds
  rw [if_pos (by rcases h with h | h <;> simp [h])]
  rfl

theorem jobFatal_ended {s : State} {n : Nat} (k : Nat) (h : canEnd s n) : ended n k s (s.jobFatal n k) := by
  unfold State.jobFatal
  rw [jobEnds_live _ h]
  exact (endStop_ended _ _ _).ended

theorem endError_fixes {α : Type} {π : Tenancy → α} (s : State) (n : Nat) (code : BitVec 8) (hu : Unspoken π := by exact fun _ _ _ _ => rfl)
    (he : Unended π := by exact fun _ _ _ _ => rfl) : Fixes π s (s.endError n code) := by
  unfold State.endError
  split
  · exact Fixes.refl s
  · exact (Fixes.modTen (fun r => he r _ r.course.stopped r.course.stopCyc)).trans (Fixes.of_talks (broadcast_talks _ _ _ _) hu)

theorem stopNow_fixes {α : Type} {π : Tenancy → α} (he : Unended π := by exact fun _ _ _ _ => rfl) (r : Tenancy) (tally : Nat) : π (r.stopNow tally) = π r := by
  obtain ⟨c, hc⟩ := stopNow_eq r tally
  rw [hc]
  exact he r r.recov.ending true c

theorem endStop_fixes {α : Type} {π : Tenancy → α} (s : State) (n : Nat) (code : BitVec 8) (hu : Unspoken π := by exact fun _ _ _ _ => rfl)
    (he : Unended π := by exact fun _ _ _ _ => rfl) : Fixes π s (s.endStop n code) :=
  (endError_fixes s n code hu he).trans (Fixes.modTen (fun r => stopNow_fixes he r _))

theorem jobEnds_fixes {α : Type} {π : Tenancy → α} (s : State) (n : Nat) (code : BitVec 8) (hu : Unspoken π := by exact fun _ _ _ _ => rfl)
    (he : Unended π := by exact fun _ _ _ _ => rfl) : Fixes π s (s.jobEnds n code) :=
  .ite (endStop_fixes s n code hu he) (Fixes.refl s)

theorem jobFatal_fixes {α : Type} {π : Tenancy → α} (s : State) (n k : Nat) (hu : Unspoken π := by exact fun _ _ _ _ => rfl)
    (he : Unended π := by exact fun _ _ _ _ => rfl) : Fixes π s (s.jobFatal n k) := jobEnds_fixes s n _ hu he

/-! ### Control frames received -/

theorem decodeWord_zero : (decodeWord MemWord.zero).w = MemWord.zero := by decide

/-- The word that a receiver decodes first is the frame's. -/
theorem word0_decoded (f : Frame) : word0 (f.payload.map (fun w => (decodeWord w).w)) = first f := by
  unfold word0 first nth
  cases f.payload with
  | nil => exact congrArg MemWord.data decodeWord_zero.symm
  | cons w r => rfl

theorem decodePayload_words (s : State) (p : Port) (ws : List MemWord) : (s.decodePayload p ws).2 = ws.map (fun w => (decodeWord w).w) := by
  unfold State.decodePayload
  exact List.map_map

/-- The views that a control frame received may change. -/
def ctlViews : List View := [.tens, .counters, .fabric, .power]

/-- What a frame counts as it is received on a port. -/
def State.arrive (s : State) (p : Port) (f : Frame) : State := (s.count (portOff p.val 0x08) 1).chargeFrame p f

theorem arrive_keeps (s : State) (p : Port) (f : Frame) : Keeps [.tens, .counters, .power] s (s.arrive p f) :=
  State.chargeFrame_keeps (State.count_keeps (Keeps.refl _ _) (by decide)) (by decide)

theorem arrive_talks (s : State) (p : Port) (f : Frame) : Talks s (s.arrive p f) := (count_talks s _ 1).trans (chargeFrame_talks _ p f)

/-- A sequenced frame accepted: its flow moves on, and it returns what it carries. -/
def State.accept (s : State) (p : Port) (f : Frame) : State :=
  (((s.arrive p f).setRecv f.ten.toNat f.chan.toNat f.src.toNat
    { expected := (flowOf s f).expected + 1, nakSent := false, owes := true, port := p }).countTen f.ten.toNat 0x2100 1).takeBack f.ten.toNat f

theorem accept_keeps (s : State) (p : Port) (f : Frame) : Keeps ctlViews s (s.accept p f) :=
  State.takeBack_keeps (State.countTen_keeps (State.setRecv_keeps ((arrive_keeps s p f).mono (by decide)) (by decide)) (by decide)) (by decide)

theorem accept_talks (s : State) (p : Port) (f : Frame) : Talks s (s.accept p f) :=
  (((arrive_talks s p f).trans (setRecv_talks _ _ _ _ _)).trans (count_talks _ _ _)).trans (takeBack_talks _ _ _)

/-- A frame that passes its checks and is the one its flow expects is accepted. -/
theorem receive_accepts {p : Port} {f : Frame} {s : State} {bad ok : Bool} (h : passes p f s) (hb : bad = false) (hok : ok = true)
    (hseq : f.seq = (flowOf s f).expected) : s.receive p f bad ok = (s.accept p f, true) := by
  obtain ⟨hl, hbh, hd, hpl, he, hj⟩ := h
  have hc := checkFrame_pass hl hbh hb hd hpl he hj hok
  have hflow : recvOf (s.arrive p f) f.ten.toNat f.chan.toNat f.src.toNat = flowOf s f := by
    unfold flowOf recvOf
    rw [(arrive_keeps s p f).eq_fabric]
  have hr := receive_pass hc (by rw [hseq]; exact congrArg RecvFlow.expected hflow.symm)
  rw [hr]
  unfold State.accept
  rw [← hflow]
  rfl

/-- A frame of the control flow received, its payload decoded. -/
def State.ctlIn (s : State) (p : Port) (f : Frame) : State := ((s.accept p f).decodePayload p f.payload).1

theorem ctlIn_talks (s : State) (p : Port) (f : Frame) : Talks s (s.ctlIn p f) := (accept_talks s p f).trans (decodePayload_talks _ _ _)

theorem ctlIn_keeps (s : State) (p : Port) (f : Frame) : Keeps ctlViews s (s.ctlIn p f) :=
  State.decodePayload_keeps (accept_keeps s p f) (by decide)

/-- A frame of the control flow that comes is accepted, with its payload as its receiver decodes it. -/
theorem receiveCtl_ctlIn {bad : Frame → Bool} {p : Port} {f : Frame} {s : State} (h : comes bad p f s) {b : Bool}
    (hb : (b || f.chan ≠ 4095) = false) : s.receiveCtl p f b = (s.ctlIn p f, true, f.payload.map (fun w => (decodeWord w).w)) := by
  obtain ⟨hp, -, hin, hsrc, hseq⟩ := h
  unfold State.receiveCtl
  dsimp only
  rw [receive_accepts hp hb (by simp [hin, hsrc]) hseq, if_pos rfl, decodePayload_words]
  rfl

theorem receiveCtl_comes {bad : Frame → Bool} {p : Port} {f : Frame} {s : State} (h : comes bad p f s) {b : Bool}
    (hb : (b || f.chan ≠ 4095) = false) :
    ∃ u, s.receiveCtl p f b = (u, true, f.payload.map (fun w => (decodeWord w).w)) ∧ Talks s u ∧ Keeps ctlViews s u :=
  ⟨_, receiveCtl_ctlIn h hb, ctlIn_talks s p f, ctlIn_keeps s p f⟩

/-! ### A launch course for a job that is not loaded yet -/

theorem takeLaunch_loading {s : State} {n : Nat} (c : Nat) (h : (s.ten n).load.st = .loading) :
    s.takeLaunch n c = s.endStop n (BitVec.ofNat 8 (Config.endCode 4)) := by
  unfold State.takeLaunch
  dsimp only
  rw [h]
  rfl

/-- Of a job that is loading, a launch course that is whole ends the job whatever its sequence number, epoch and job. -/
theorem launchGo_loading {s : State} {p : Port} {f : Frame} (h : (s.ten f.ten.toNat).load.st = .loading) (hg : goWhole s p f = true) :
    exec (.launchGo p f) s = .next (((s.count (portOff p.val 0x08) 1).chargeFrame p f).endStop f.ten.toNat (BitVec.ofNat 8 (Config.endCode 4))) := by
  have hu : Talks s ((s.count (portOff p.val 0x08) 1).chargeFrame p f) := (count_talks s _ 1).trans (chargeFrame_talks _ p f)
  change execLaunchGo p f s = _
  unfold execLaunchGo
  dsimp only
  have hl := h
  rw [← hu.ten_load] at hl
  rw [if_pos (by simp [h, hg]), takeLaunch_loading _ hl]

theorem launchGo_loading_ended {s : State} {p : Port} {f : Frame} (h : (s.ten f.ten.toNat).load.st = .loading) (hg : goWhole s p f = true) :
    ∃ t, exec (.launchGo p f) s = .next t ∧ ended f.ten.toNat 4 s t ∧ Keeps ctlViews s t :=
  ⟨_, launchGo_loading h hg, ((endStop_ended _ _ _).after ((count_talks s _ 1).trans (chargeFrame_talks _ p f))).ended,
    State.modTen_keeps (State.endError_keeps (State.chargeFrame_keeps (State.count_keeps (Keeps.refl _ s) (by decide)) (by decide)) (by decide))
      (by decide)⟩

/-- What ends a job is no frame's talk: its ending was none. -/
theorem ended.not_talks {n k : Nat} {s t : State} (h : ended n k s t) (hn : (s.ten n).recov.ending = none) : ¬ Talks s t := by
  intro ht
  obtain ⟨he, -⟩ := h
  rw [ht.ten_recov, hn] at he
  exact absurd he (by simp)

/-- A job that is loading on a chip whose port 0 has link, and whose flow of control frames from chip 1 expects number 0 and has sent a NAK; its box
is two chips long on axis 0. -/
def loadingState : State :=
  { State.reset with
    tens := [(0, { load := { st := .loading, header := (2#2048 <<< 512) ||| (1#2048 <<< 528) ||| (1#2048 <<< 544) ||| (1#2048 <<< 560) } })]
    fabric := { axes := 1, ports := [(0, { link := true })], recvs := [(flowKey 0 4095 1, { nakSent := true })] } }

/-- A launch course from chip 1, with an epoch and a number of its flow. -/
def goFrame (epoch : BitVec 32) (seq : BitVec 24) : Frame :=
  { ver := 1, kind := 7, src := 1, dst := 0, plane := 0, chan := 4095, ten := 0, hm := false, epoch, seq, ack := 0, ackv := false, credit := 0,
    job := 0, port := 0, late := false, vlan := 0, pcp := 0, payload := [⟨2 ^ 50, 0⟩], hall := 0 }

theorem goWhole_flow (s : State) (p : Port) (f : Frame) (epoch : BitVec 32) (seq : BitVec 24) :
    goWhole s p { f with epoch := epoch, seq := seq } = goWhole s p f := rfl

theorem goFrame_whole (epoch : BitVec 32) (seq : BitVec 24) : goWhole loadingState 0 (goFrame epoch seq) = true :=
  (goWhole_flow loadingState 0 (goFrame 0 0) epoch seq).trans (by decide)

theorem launchGo_row : ((.launchGo, fun f => ctlBad 7 1 f || !bitB (first f) 50) : (Port → Frame → Instr) × (Frame → Bool)) ∈ ctlRows := by
  simp [ctlRows, frameRows]

theorem goFrame_ends (epoch : BitVec 32) (seq : BitVec 24) {t : State} (h : exec (.launchGo 0 (goFrame epoch seq)) loadingState = .next t) :
    ¬ Talks loadingState t := by
  obtain ⟨u, hu, he, -⟩ := launchGo_loading_ended (s := loadingState) (f := goFrame epoch seq) rfl (goFrame_whole epoch seq)
  rw [h] at hu
  cases hu
  exact ended.not_talks he rfl

/-- Refutes O23: of a job that is loading, a launch course whose epoch is not yet begun is not discarded with that row's counter; it ends the
job. -/
theorem not_frameChecks : ¬ Obligations.FrameChecks := by
  unfold Obligations.FrameChecks
  intro h
  have hx := List.mem_of_mem_drop (List.mem_of_mem_take launchGo_row)
  obtain ⟨-, -, -, hlate⟩ := h _ hx 0 (goFrame 1 0) loadingState
  obtain ⟨-, hearly, -⟩ := hlate rfl (by decide) (by decide) (by decide)
  exact goFrame_ends 1 0 (hearly (by decide)) (((count_talks _ _ _).trans (chargeFrame_talks _ _ _)).trans (count_talks _ _ _))

/-- Refutes O24: of a job that is loading, a launch course one after the one that its flow expects, which has sent its NAK, ends the job. -/
theorem not_frameOrder : ¬ Obligations.FrameOrder := by
  unfold Obligations.FrameOrder
  intro h
  have hp : passes 0 (goFrame 0 1) loadingState := by unfold passes; decide +kernel
  obtain ⟨-, hafter, -⟩ := h _ launchGo_row 0 (goFrame 0 1) loadingState hp (by decide) (by decide +kernel) (by decide)
  obtain ⟨t, ht, htalks, -⟩ := hafter (by decide) (by decide) (by decide)
  exact goFrame_ends 0 1 ht htalks

end Sys2Proof.Machine
end

section
/-! SUPPORT. The control frames of a job: blank notices, votes and launch frames (09 R234, R235, R240 to R242; 07 R177; 13 R356). -/

namespace Sys2Proof.Machine

open Sys2Proof Sys2Proof.Claims

set_option Elab.async false

/-! ### Blank notices -/

theorem comes_formed {bad : Frame → Bool} {p : Port} {f : Frame} {s : State} (h : comes bad p f s) : bad f = false := h.2.1

theorem courseNow_of_time {s t : State} (h : t.time = s.time) : courseNow t = courseNow s := by unfold courseNow State.now; rw [h]

theorem Keeps.courseNow_eq {vs : List View} {s t : State} (k : Keeps vs s t) (h : View.time ∉ vs := by decide) : courseNow t = courseNow s :=
  courseNow_of_time (k.eq_time h)

/-- A broadcast frame that comes: received, and sent on along the axes after the one it came on. -/
theorem receiveCtl_forward {bad : Frame → Bool} {p : Port} {f : Frame} {s : State} (h : comes bad p f s) {b : Bool}
    (hb : (b || f.chan ≠ 4095) = false) (kind : Nat) : ∃ u, s.receiveCtl p f b = (u, true, f.payload.map (fun w => (decodeWord w).w)) ∧
      Talks s (u.forward f.ten.toNat kind p (jobAxes u f.ten.toNat) (f.payload.map (fun w => (decodeWord w).w))) ∧
      Keeps ctlViews s (u.forward f.ten.toNat kind p (jobAxes u f.ten.toNat) (f.payload.map (fun w => (decodeWord w).w))) := by
  obtain ⟨u, hr, ht, hk⟩ := receiveCtl_comes h hb
  exact ⟨u, hr, ht.trans (forward_talks _ _ _ _ _ _), State.forward_keeps hk (by decide)⟩

/-- A blank notice for course `c` taken: it joins the pending blanks. -/
def State.joinNotice (s : State) (n c : Nat) (cause : BitVec 3) : State :=
  s.modCourse n (fun k => { k with pending := joinBlank k.pending c cause })

/-- Whether a course is one of the lean range. -/
def inLean (k : Course) (c : Nat) : Bool := match k.lean with | some x => x.1 ≤ c && c < x.2 | none => false

/-- What a blank notice for course `c` leaves of a running job whose epoch is not past. -/
def State.noticed (s : State) (n c : Nat) (cause : BitVec 3) : State :=
  if (pendingAt (s.ten n).course.pending c).isSome then s.joinNotice n c cause
  else if c ≤ courseNow s + 1 || (cause = 1 && inLean (s.ten n).course c) then s.jobFatal n 2
  else if 16 ≤ (s.ten n).course.pending.length then s.jobFatal n 1
  else s.joinNotice n c cause

/-- A blank notice for a running job is forwarded; one whose epoch is past leaves it at that. -/
theorem exec_blankNotice {p : Port} {f : Frame} {s : State} (h : comes (ctlBad 5 1) p f s) (hr : (s.ten f.ten.toNat).load.st = .running) :
    ∃ v, Talks s v ∧ Keeps ctlViews s v ∧ exec (.blankNotice p f) s = .next
      (if bits (first f) 127 96 < (s.ten f.ten.toNat).recov.epoch then v
        else v.noticed f.ten.toNat (bitsN (first f) 49 0) (bits (first f) 52 50)) := by
  obtain ⟨u, hu, ht, hk⟩ := receiveCtl_forward h (comes_formed h) 5
  refine ⟨_, ht, hk, ?_⟩
  change execBlankNotice p f s = _
  unfold execBlankNotice
  dsimp only
  rw [hu]
  dsimp only
  rw [word0_decoded]
  generalize u.forward f.ten.toNat 5 p (jobAxes u f.ten.toNat) (f.payload.map (fun w => (decodeWord w).w)) = v at *
  rw [← ht.ten_load] at hr
  rw [← ht.ten_recov, if_neg (by simp)]
  by_cases he : bits (first f) 127 96 < (v.ten f.ten.toNat).recov.epoch
  · rw [if_pos (by simp [he]), if_pos he]
  · rw [if_neg (by simp [he, hr]), if_neg he]
    unfold State.noticed
    cases hp : pendingAt (v.ten f.ten.toNat).course.pending (bitsN (first f) 49 0) with
    | some b => rw [Option.isSome_some, if_pos rfl]; rfl
    | none =>
      rw [Option.isSome_none, if_neg Bool.false_ne_true]
      by_cases hc : (decide (bitsN (first f) 49 0 ≤ courseNow v + 1) || (decide ((bits (first f) 52 50 : BitVec 3) = 1) &&
          inLean (v.ten f.ten.toNat).course (bitsN (first f) 49 0))) = true
      · rw [if_pos hc]; exact if_pos hc
      · rw [if_neg hc]
        refine (if_neg hc).trans ?_
        split <;> rfl

/-- After frames, a notice joins the blanks that were pending before them. -/
theorem joinNotice_becomes {s v : State} {n c : Nat} {cause : BitVec 3} (ht : Talks s v) :
    becomes n (fun m => { m with course := { m.course with pending := joinBlank (s.ten n).course.pending c cause } }) s (v.joinNotice n c cause) := by
  unfold State.joinNotice State.modCourse
  refine becomes.of_modTen ht (commutes_of (fun _ _ _ _ => rfl)) ?_
  dsimp only
  rw [ht.ten_pending]

section noticed

variable {v : State} {n c : Nat} {cause : BitVec 3}

theorem noticed_joins (h : (pendingAt (v.ten n).course.pending c).isSome = true ∨
    courseNow v + 1 < c ∧ ¬ (cause = 1 ∧ inLean (v.ten n).course c = true) ∧ (v.ten n).course.pending.length < 16) :
    v.noticed n c cause = v.joinNotice n c cause := by
  unfold State.noticed
  split
  · rfl
  · next hs =>
    obtain ⟨h1, h2, h3⟩ := h.resolve_left hs
    rw [if_neg (by simp only [Bool.or_eq_true, Bool.and_eq_true, decide_eq_true_eq, not_or]; exact ⟨by omega, h2⟩), if_neg (by omega)]

theorem noticed_late (hp : pendingAt (v.ten n).course.pending c = none)
    (h : c ≤ courseNow v + 1 ∨ cause = 1 ∧ inLean (v.ten n).course c = true) : v.noticed n c cause = v.jobFatal n 2 := by
  unfold State.noticed
  rw [hp, if_neg (by simp), if_pos (by simp only [Bool.or_eq_true, Bool.and_eq_true, decide_eq_true_eq]; exact h)]

theorem noticed_overflow (hp : pendingAt (v.ten n).course.pending c = none) (h1 : courseNow v + 1 < c)
    (h2 : ¬ (cause = 1 ∧ inLean (v.ten n).course c = true)) (h3 : 16 ≤ (v.ten n).course.pending.length) :
    v.noticed n c cause = v.jobFatal n 1 := by
  unfold State.noticed
  rw [hp, if_neg (by simp), if_neg (by simp only [Bool.or_eq_true, Bool.and_eq_true, decide_eq_true_eq, not_or]; exact ⟨by omega, h2⟩), if_pos h3]

end noticed

/-- Settles O37: a notice is forwarded, and then joins, comes too late, or overflows the pending blanks. -/
theorem blankNotices : Obligations.BlankNotices := by
  unfold Obligations.BlankNotices
  intro p f s h hr
  obtain ⟨v, ht, hk, hx⟩ := exec_blankNotice h hr
  have hc : courseNow v = courseNow s := hk.courseNow_eq
  have hl : inLean (v.ten f.ten.toNat).course = inLean (s.ten f.ten.toNat).course := by unfold inLean; rw [ht.ten_lean]
  have hlive : canEnd v f.ten.toNat := .inl (by rw [ht.ten_load, hr])
  dsimp only
  refine ⟨fun he => ⟨v, ?_, ht, hk⟩, fun he => ?_⟩
  · rw [hx, if_pos he]
  · rw [if_neg (BitVec.not_lt.2 he)] at hx
    refine ⟨fun hj => ⟨_, hx.trans (congrArg _ (noticed_joins ?_)), ?_, State.modCourse_keeps hk (by decide)⟩,
      fun hp hj => ⟨_, hx.trans (congrArg _ (noticed_late ?_ ?_)), ended.after (jobFatal_ended 2 hlive) ht, State.jobFatal_keeps hk (by decide)⟩,
      fun hp h1 h2 h3 => ⟨_, hx.trans (congrArg _ (noticed_overflow ?_ ?_ ?_ ?_)), ended.after (jobFatal_ended 1 hlive) ht,
        State.jobFatal_keeps hk (by decide)⟩⟩
    · rw [ht.ten_pending, hc, hl]; exact hj
    · exact joinNotice_becomes ht
    · rw [ht.ten_pending]; exact hp
    · rw [hc, hl]; exact hj
    · rw [ht.ten_pending]; exact hp
    · rw [hc]; exact h1
    · rw [hl]; exact h2
    · rw [ht.ten_pending]; exact h3

/-! ### Votes -/

/-- A part of a tenancy that a fault of a program leaves. -/
@[reducible] def Unfaulted {α : Type} (π : Tenancy → α) : Prop := ∀ (r : Tenancy) (f a : BitVec 64), π { r with fault := f, faultAt := a } = π r

theorem Fixes.setTen {α : Type} {π : Tenancy → α} {s : State} {n : Nat} {r : Tenancy} (h : π r = π (s.ten n)) : Fixes π s (s.setTen n r) := by
  intro m
  by_cases e : m = n
  · subst e; rw [State.ten_setTen]; exact h
  · rw [State.ten_setTen_ne _ _ e]

theorem progFaultAt_fixes {α : Type} {π : Tenancy → α} (s : State) (c : Core) (page bundle slot code detail : Nat)
    (hu : Unspoken π := by exact fun _ _ _ _ => rfl) (he : Unended π := by exact fun _ _ _ _ => rfl)
    (hf : Unfaulted π := by exact fun _ _ _ => rfl) : Fixes π s (s.progFaultAt c page bundle slot code detail) := by
  unfold State.progFaultAt
  split
  · exact Fixes.refl s
  · next t _ =>
    dsimp only
    refine Fixes.trans ?_ (endError_fixes _ _ _ hu he)
    refine Fixes.trans (Fixes.setTen ?_) (Fixes.of_keeps (vs := [.counters, .mgmt])
      (State.raiseTen_keeps (State.countTen_keeps (State.daybook_keeps (Keeps.refl _ _) (by decide)) (by decide)) (by decide)))
    rw [stopNow_fixes he]
    exact hf _ _ _

theorem branch_fixes {α : Type} {π : Tenancy → α} (s : State) (t : Nat) (v : Vote) (x : Waiter)
    (hu : Unspoken π := by exact fun _ _ _ _ => rfl) (he : Unended π := by exact fun _ _ _ _ => rfl)
    (hf : Unfaulted π := by exact fun _ _ _ => rfl) : Fixes π s (s.branch t v x) := by
  unfold State.branch
  split
  · exact Fixes.refl s
  · dsimp only
    have k : Keeps [.counters, .mgmt] s ((s.daybook 0x32 0 t (phys s x.core) 9 v.check.toNat (s.ten t).steps.step.toNat 0).countTen t 0x20B8 1) :=
      State.countTen_keeps (State.daybook_keeps (Keeps.refl _ _) (by decide)) (by decide)
    split
    · next s2 h =>
      have k2 := (State.jumpTo_keeps (vs := [.seqs, .counters, .mgmt])
        (State.setSeq_keeps (c := x.core) (k.mono (by decide)) (by decide)) (by decide)).getOk h
      exact Fixes.of_keeps k2
    · exact (Fixes.of_keeps k).trans (progFaultAt_fixes _ _ _ _ _ _ _ hu he hf)

/-- A vote settles: with every other chip of its scope heard it is done, and else it stands. -/
theorem settleVote_vote {s : State} {n : Nat} {v : Vote} (h : (s.ten n).vote = some v) (hd : v.done = false) :
    ∃ v2, ((s.settleVote n).ten n).vote = some v2 ∧ v2.check = v.check ∧ v2.at' = v.at' ∧ v2.got = v.got ∧ v2.any = v.any ∧
      v2.done = decide (scopeOthers s n v.scope ≤ v.got) := by
  unfold State.settleVote
  rw [h]
  dsimp only
  by_cases hg : v.got < scopeOthers s n v.scope
  · rw [if_pos (by simp [hg])]
    exact ⟨v, h, rfl, rfl, rfl, rfl, by rw [hd, decide_eq_false (by omega)]⟩
  · rw [if_neg (by simp [hg, hd])]
    refine ⟨{ v with done := true, waiting := [] }, ?_, rfl, rfl, rfl, rfl, (decide_eq_true (by omega)).symm⟩
    refine (Fixes.foldl (π := (·.vote)) (Fixes.refl _) (fun u x => branch_fixes u n v x) n).trans ?_
    dsimp only
    rw [(endStall_talks _ _ _).ten_vote, State.ten_modTen]

theorem scopeOthers_congr {s t : State} {n : Nat} (h : (t.ten n).load = (s.ten n).load) (scope : BitVec 2) :
    scopeOthers t n scope = scopeOthers s n scope := by
  unfold scopeOthers boxN hdr
  rw [h]

/-- A vote for the check that this chip takes part in counts. -/
theorem countVote_vote {s : State} {n : Nat} {v : Vote} (p : Port) (yes : Bool) (h : (s.ten n).vote = some v) (hd : v.done = false) :
    ∃ v2, ((s.countVote n p v.check yes).ten n).vote = some v2 ∧ v2.check = v.check ∧ v2.at' = v.at' ∧ v2.got = v.got + 1 ∧
      v2.any = (v.any || yes) ∧ v2.done = decide (scopeOthers s n v.scope ≤ v.got + 1) := by
  unfold State.countVote
  rw [h]
  dsimp only
  rw [if_neg (by simp)]
  let v1 : Vote := { v with got := v.got + 1, any := v.any || yes }
  have ht := forward_talks (s.modTen n (fun r => { r with vote := some v1 })) n 6 p ((scopeAxes v.scope).filter (fun k => 1 < boxN s n k))
    [MemWord.clean (voteWord v.check yes)]
  have hv := ht.ten_vote n
  have hl := ht.ten_load n
  rw [State.ten_modTen] at hv hl
  have hs := settleVote_vote hv hd
  rw [scopeOthers_congr hl] at hs
  exact hs

/-- A vote of another chip that comes is received with its check and its word. -/
theorem exec_vote {p : Port} {f : Frame} {s : State} (h : comes (ctlBad 6 1) p f s) : ∃ u, Talks s u ∧ Keeps ctlViews s u ∧
    ((∀ v, (s.ten f.ten.toNat).vote = some v → v.done = true) → exec (.vote p f) s =
      .next (u.modTen f.ten.toNat (fun n => { n with votes := n.votes ++ [(p, bits (first f) 11 0, bitB (first f) 12)] }))) ∧
    (∀ v, (s.ten f.ten.toNat).vote = some v → v.done = false → exec (.vote p f) s =
      .next (u.countVote f.ten.toNat p (bits (first f) 11 0) (bitB (first f) 12))) := by
  obtain ⟨u, hu, ht, hk⟩ := receiveCtl_comes h (comes_formed h)
  refine ⟨u, ht, hk, ?_⟩
  have hx : exec (.vote p f) s = execVote p f s := rfl
  unfold execVote at hx
  dsimp only at hx
  rw [hu] at hx
  dsimp only at hx
  rw [word0_decoded, if_neg (by simp), ht.ten_vote] at hx
  refine ⟨fun hv => ?_, fun v hv hd => ?_⟩
  · rw [hx]
    split
    · next v e => rw [if_pos (hv v e)]
    · rfl
  · rw [hx, hv]
    dsimp only
    rw [if_neg (by simp [hd])]

/-- Settles O38: a vote is received, and then kept or counted. -/
theorem votes : Obligations.Votes := by
  unfold Obligations.Votes
  intro p f s h
  obtain ⟨u, ht, hk, hkeep, hcount⟩ := exec_vote h
  have kept := becomes.modTen (n := f.ten.toNat) (g := fun m => { m with votes := m.votes ++ [(p, bits (first f) 11 0, bitB (first f) 12)] }) ht
    (commutes_of (fun _ _ _ _ => rfl))
  refine ⟨fun hv => ⟨_, hkeep (fun v e => ?_), kept, State.modTen_keeps hk (by decide)⟩,
    fun v hv hd => ⟨_, hkeep (fun w e => ?_), kept, State.modTen_keeps hk (by decide)⟩, fun v hv hd hc => ⟨_, hcount v hv hd, ?_, ?_⟩⟩
  · rw [hv] at e; cases e
  · rw [hv] at e; cases e; exact hd
  · have hc2 := countVote_vote (s := u) p (bitB (first f) 12) ((ht.ten_vote _).trans hv) hd
    rw [hc, scopeOthers_congr (ht.ten_load _)] at hc2
    exact hc2
  · exact State.countVote_keeps (hk.mono (by decide)) (by decide)

/-! ### Launch frames -/

theorem becomes.congr {n : Nat} {g g' : Tenancy → Tenancy} {s t : State} (h : becomes n g s t) (e : g' (s.ten n) = g (s.ten n)) :
    becomes n g' s t := fun m => by
  have hm := h m
  by_cases k : m = n
  · subst k; rw [if_pos rfl] at hm ⊢; rw [e]; exact hm
  · rw [if_neg k] at hm ⊢; exact hm

/-- A second change of the tenancy after the first. -/
theorem becomes.again {n : Nat} {g g2 : Tenancy → Tenancy} {s t : State} (h : becomes n g s t) (hg : Commutes g2) :
    becomes n (fun m => g2 (g m)) s (t.modTen n g2) := fun m => by
  have hm := h m
  by_cases k : m = n
  · subst k; rw [if_pos rfl] at hm ⊢; rw [State.ten_modTen]; exact hg _ _ hm
  · rw [if_neg k] at hm ⊢; rw [State.ten_modTen_ne _ _ k]; exact hm

/-- The launch record of a tenancy with a chip's ready frame noted. -/
def Launch.hears (l : Launch) (src : BitVec 16) : Launch := { l with heard := insertNew l.heard src }

/-- A ready frame noted in the tenancy. -/
def Tenancy.hears (src : BitVec 16) (n : Tenancy) : Tenancy := { n with launch := n.launch.hears src }

theorem first_def (f : Frame) : (decodeWord (nth f.payload MemWord.zero 0)).w.data = first f := rfl

theorem exec_launchReady {p : Port} {f : Frame} {s : State} (h : comes (fun f => ctlBad 7 1 f || bitB (first f) 50) p f s) :
    ∃ u, Talks s u ∧ Keeps ctlViews s u ∧
      exec (.launchReady p f) s = .next ((u.modTen f.ten.toNat (Tenancy.hears f.src)).tryReady f.ten.toNat) := by
  have hb : ((f.kind ≠ 7 || f.payload.length ≠ 1 || bitB (first f) 50) || decide (f.chan ≠ 4095)) = false := by
    rw [← comes_formed h]
    unfold ctlBad
    rw [Bool.or_assoc, Bool.or_assoc, Bool.or_comm (bitB _ _), ← Bool.or_assoc, ← Bool.or_assoc]
  obtain ⟨u, hu, ht, hk⟩ := receiveCtl_comes h hb
  refine ⟨u, ht, hk, ?_⟩
  change execLaunchReady p f s = _
  unfold execLaunchReady
  dsimp only
  rw [first_def, hu]
  rfl

/-- The chips that a tenancy waits for are ready, and so is this one, which has not told so yet. -/
def readyToTell (s : State) (n : Nat) (l : Launch) : Prop :=
  l.ready = true ∧ (s.ten n).load.st = .loaded ∧ hdr s n 6 1 = 0 ∧ l.sentAt = none ∧ l.course = none ∧ rootChildren s n ≤ l.heard.length

theorem tryReady_not {s : State} {n : Nat} (h : ¬ readyToTell s n (s.ten n).launch) : s.tryReady n = s := by
  unfold State.tryReady
  refine if_neg (fun hc => h ?_)
  simpa [readyToTell, and_assoc] using hc

theorem tryReady_root {s : State} {n : Nat} (h : readyToTell s n (s.ten n).launch) (hr : isRoot s n = true) :
    s.tryReady n = (s.broadcast n 7 [MemWord.clean (launchWord (courseNow s + hdr s n 32 2) true)]).modTen n
      (fun m => { m with launch := { m.launch with course := some (courseNow s + hdr s n 32 2) } }) := by
  unfold State.tryReady
  dsimp only
  rw [if_pos (by simpa [readyToTell, and_assoc] using h), if_pos hr]

theorem tryReady_leaf {s : State} {n : Nat} (h : readyToTell s n (s.ten n).launch) (hr : isRoot s n = false) :
    s.tryReady n = (s.sendRootward n 7 (launchWord 0 false)).modTen n (fun m => { m with launch := { m.launch with sentAt := some s.now } }) := by
  unfold State.tryReady
  dsimp only
  rw [if_pos (by simpa [readyToTell, and_assoc] using h), if_neg (by simp [hr])]

theorem readyToTell_congr {s t : State} {n : Nat} (l : Launch) (hl : (t.ten n).load = (s.ten n).load) (ha : t.fabric.axes = s.fabric.axes) :
    readyToTell t n l ↔ readyToTell s n l := by
  unfold readyToTell rootChildren relCoord coordOf axisStride axisLen boxO boxN myId hdr
  rw [hl, ha]

/-- A ready frame is noted, and then told on. -/
theorem launchReady_frames {p : Port} {f : Frame} {s : State} (h : comes (fun f => ctlBad 7 1 f || bitB (first f) 50) p f s) :
    let n := f.ten.toNat
    let l := (s.ten n).launch.hears f.src
    ∃ t, exec (.launchReady p f) s = .next t ∧ Keeps ctlViews s t ∧
      (¬ readyToTell s n l → becomes n (fun m => { m with launch := l }) s t) ∧
      (readyToTell s n l → isRoot s n = true → becomes n (fun m => { m with launch := { l with course := some (courseNow s + hdr s n 32 2) } }) s t) ∧
      (readyToTell s n l → isRoot s n = false → becomes n (fun m => { m with launch := { l with sentAt := some s.now } }) s t) := by
  intro n l
  obtain ⟨u, ht, hk, hx⟩ := exec_launchReady h
  have hnote : becomes n (Tenancy.hears f.src) s (u.modTen n (Tenancy.hears f.src)) := becomes.modTen ht (commutes_of (fun _ _ _ _ => rfl))
  have hkw : Keeps ctlViews s (u.modTen n (Tenancy.hears f.src)) := State.modTen_keeps hk (by decide)
  have hload : ((u.modTen n (Tenancy.hears f.src)).ten n).load = (s.ten n).load := by rw [State.ten_modTen]; exact ht.ten_load n
  have haxes : (u.modTen n (Tenancy.hears f.src)).fabric.axes = s.fabric.axes := ht.axes_eq
  have hl : ((u.modTen n (Tenancy.hears f.src)).ten n).launch = l := by
    rw [State.ten_modTen]
    unfold Tenancy.hears
    rw [ht.ten_launch]
  generalize u.modTen n (Tenancy.hears f.src) = w at *
  have hready : readyToTell w n (w.ten n).launch ↔ readyToTell s n l := by rw [hl]; exact readyToTell_congr l hload haxes
  have hroot : isRoot w n = isRoot s n := by
    unfold isRoot relCoord coordOf axisStride axisLen boxO myId hdr
    rw [hload, haxes]
  have hhdr : hdr w n 32 2 = hdr s n 32 2 := by unfold hdr; rw [hload]
  refine ⟨_, hx, State.tryReady_keeps hkw (by decide), fun hr => ?_, fun hr hroot' => ?_, fun hr hroot' => ?_⟩
  · rw [tryReady_not (fun k => hr (hready.1 k))]
    exact becomes.congr hnote rfl
  · rw [tryReady_root (hready.2 hr) (hroot.trans hroot'), hkw.courseNow_eq, hhdr]
    exact becomes.congr (becomes.again (becomes.then hnote (broadcast_talks _ _ _ _)) (commutes_of (fun _ _ _ _ => rfl))) rfl
  · rw [tryReady_leaf (hready.2 hr) (hroot.trans hroot')]
    have hnow : w.now = s.now := by unfold State.now; rw [hkw.eq_time]
    rw [hnow]
    exact becomes.congr (becomes.again (becomes.then hnote (sendRootward_talks _ _ _ _)) (commutes_of (fun _ _ _ _ => rfl))) rfl

/-! ### The launch course -/

theorem takeLaunch_ahead {s : State} {n c : Nat} (h : (s.ten n).load.st = .loaded) (hc : courseNow s + 2 < c) :
    s.takeLaunch n c = s.modTen n (fun m => { m with launch := { m.launch with course := some c } }) := by
  unfold State.takeLaunch
  dsimp only
  rw [h]
  exact if_neg (by omega)

theorem takeLaunch_late {s : State} {n c : Nat} (h : (s.ten n).load.st = .loaded) (hc : c ≤ courseNow s + 2) :
    s.takeLaunch n c = s.jobFatal n 3 := by
  unfold State.takeLaunch
  dsimp only
  rw [h]
  exact if_pos hc

theorem takeLaunch_past {s : State} {n : Nat} (c : Nat) (h : (s.ten n).load.st = .running ∨ (s.ten n).load.st = .ended) : s.takeLaunch n c = s := by
  unfold State.takeLaunch
  dsimp only
  rcases h with h | h <;> rw [h]

/-- A launch course that comes is sent on and taken, but for a whole one of a job that is loading. -/
theorem exec_launchGo {p : Port} {f : Frame} {s : State} (h : comes (fun f => ctlBad 7 1 f || !bitB (first f) 50) p f s)
    (hl : ¬ ((s.ten f.ten.toNat).load.st = .loading ∧ goWhole s p f = true)) :
    ∃ v, Talks s v ∧ Keeps ctlViews s v ∧ exec (.launchGo p f) s = .next (v.takeLaunch f.ten.toNat (bitsN (first f) 49 0)) := by
  have hb : ((f.kind ≠ 7 || f.payload.length ≠ 1 || !bitB (first f) 50) || decide (f.chan ≠ 4095)) = false := by
    rw [← comes_formed h]
    unfold ctlBad
    rw [Bool.or_assoc, Bool.or_assoc, Bool.or_comm (!bitB _ _), ← Bool.or_assoc, ← Bool.or_assoc]
  obtain ⟨u, hu, ht, hk⟩ := receiveCtl_forward h hb 7
  refine ⟨_, ht, hk, ?_⟩
  change execLaunchGo p f s = _
  unfold execLaunchGo
  dsimp only
  rw [if_neg (by simpa using hl), first_def, hu]
  dsimp only
  rw [word0_decoded, if_neg (by simp)]

/-- Of a frame with a launch course that comes, for each load state. -/
theorem launchGo_frames {p : Port} {f : Frame} {s : State} (h : comes (fun f => ctlBad 7 1 f || !bitB (first f) 50) p f s) :
    let n := f.ten.toNat
    let c := bitsN (first f) 49 0
    ∃ t, exec (.launchGo p f) s = .next t ∧ Keeps ctlViews s t ∧
      ((s.ten n).load.st = .loaded → courseNow s + 2 < c → becomes n (fun m => { m with launch := { m.launch with course := some c } }) s t) ∧
      ((s.ten n).load.st = .loaded → c ≤ courseNow s + 2 → ended n 3 s t) ∧
      ((s.ten n).load.st = .loading → ended n 4 s t) ∧
      ((s.ten n).load.st = .running ∨ (s.ten n).load.st = .ended → Talks s t) := by
  intro n c
  by_cases hl : (s.ten n).load.st = .loading ∧ goWhole s p f = true
  · obtain ⟨hst, hg⟩ := hl
    obtain ⟨t, hx, he, hk⟩ := launchGo_loading_ended hst hg
    exact ⟨t, hx, hk, fun k => by simp [k] at hst, fun k => by simp [k] at hst, fun _ => he, fun k => by rcases k with k | k <;> simp [k] at hst⟩
  · obtain ⟨v, ht, hk, hx⟩ := exec_launchGo h hl
    have hc : courseNow v = courseNow s := hk.courseNow_eq
    refine ⟨_, hx, State.takeLaunch_keeps hk (by decide), fun hs hlt => ?_, fun hs hle => ?_, fun hs => ?_, fun hs => ?_⟩
    · rw [takeLaunch_ahead (by rw [ht.ten_load, hs]) (by rw [hc]; exact hlt)]
      exact becomes.modTen ht (commutes_of (fun _ _ _ _ => rfl))
    · rw [takeLaunch_late (by rw [ht.ten_load, hs]) (by rw [hc]; exact hle)]
      exact ended.after (jobFatal_ended 3 (.inr (by rw [ht.ten_load, hs]))) ht
    · rw [takeLaunch_loading _ (by rw [ht.ten_load, hs])]
      exact endedBy.after (endStop_ended _ _ _) ht
    · rw [takeLaunch_past _ (by rw [ht.ten_load]; exact hs)]
      exact ht

/-! ### The launch timeout -/

/-- Daybook entries are put behind those that wait. -/
def Notes (s t : State) : Prop := ∃ ws, t.mgmt.waiting = s.mgmt.waiting ++ ws

theorem Notes.refl (s : State) : Notes s s := ⟨[], (List.append_nil _).symm⟩

theorem Notes.of_eq {s t : State} (h : t.mgmt.waiting = s.mgmt.waiting) : Notes s t := ⟨[], by rw [h, List.append_nil]⟩

theorem Notes.trans {s t u : State} (h : Notes s t) (k : Notes t u) : Notes s u := by
  obtain ⟨ws, hw⟩ := h
  obtain ⟨vs, hv⟩ := k
  exact ⟨ws ++ vs, by rw [hv, hw, List.append_assoc]⟩

/-- An entry behind those that waited stays there. -/
theorem Notes.mem_drop {s t u : State} {w : BitVec 256} (h : Notes s t) (hw : t.mgmt.waiting ++ [w] <+: u.mgmt.waiting) :
    w ∈ u.mgmt.waiting.drop s.mgmt.waiting.length := by
  obtain ⟨ws, hws⟩ := h
  obtain ⟨vs, hvs⟩ := hw
  rw [← hvs, hws, List.append_assoc, List.append_assoc, List.drop_left]
  simp

theorem Notes.of_mgmt_ages {s t : State} (h : s.mgmt.ages t.mgmt) : Notes s t := by
  obtain ⟨ws, hw⟩ := h
  exact ⟨ws, by rw [hw]⟩

theorem daybook_notes (s : State) (code : BitVec 8) (cls : BitVec 3) (ten core unit a b c : Nat) :
    Notes s (s.daybook code cls ten core unit a b c) := ⟨[_], rfl⟩

theorem sendMsg_waiting (s : State) (fn v : Nat) : (s.sendMsg fn v).mgmt.waiting = s.mgmt.waiting := by
  unfold State.sendMsg
  split <;> rfl

theorem raiseInt_waiting (s : State) (fn bit : Nat) : (s.raiseInt fn bit).mgmt.waiting = s.mgmt.waiting := by
  unfold State.raiseInt
  dsimp only
  split
  · rw [sendMsg_waiting]
  · rfl

theorem notice_notes (s : State) (fn kind payload : Nat) : Notes s (s.notice fn kind payload) := by
  unfold State.notice
  dsimp only
  split_ifs
  · exact Notes.of_eq (raiseInt_waiting _ _ _)
  · exact Notes.of_eq rfl
  · exact daybook_notes (s.setBox fn { boxOf s fn with lost := true }) _ _ _ _ _ _ _ _
  · exact Notes.of_eq rfl

/-- What the launch timeout of a job leaves once the time has come to it. -/
def State.launchLate (s : State) (n v : Nat) : State :=
  ((s.dayTen n 0x14 0 0 v 0).notice (fnOf n) noteLaunch v).modTen n (fun n => { n with launch := { n.launch with timedOut := true } })

theorem exec_launchTimeout {n : Ten} {s : State} {v : Nat} (hv : (s.ten n.val).launch.sentAt = some v) (hc : (s.ten n.val).launch.course = none)
    (ht : (s.ten n.val).launch.timedOut = false) (hst : (s.ten n.val).load.st = .loaded) :
    exec (.launchTimeout n) s = .next ((s.passTo (v + hdr s n.val 34 2 * 1800000)).launchLate n.val v) := by
  change execLaunchTimeout n s = _
  unfold execLaunchTimeout
  dsimp only
  rw [hv]
  exact if_neg (by simp [hc, ht, hst])

/-- The notice of a late launch: the daybook's entry, and the mark of the launch record. -/
theorem launchLate_noted (s : State) (n v : Nat) : (s.launchLate n v).time = s.time ∧
    s.mgmt.waiting ++ [dayWord s.time.tally 0x14 0 n 0x7F 0 0 v 0] <+: (s.launchLate n v).mgmt.waiting ∧
    ((s.launchLate n v).ten n).launch = { (s.ten n).launch with timedOut := true } ∧ Keeps [.tens, .mgmt] s (s.launchLate n v) := by
  have kd : Keeps [.mgmt] s ((s.dayTen n 0x14 0 0 v 0).notice (fnOf n) noteLaunch v) :=
    State.notice_keeps (State.dayTen_keeps (Keeps.refl _ s) (by decide)) (by decide)
  have k : Keeps [.tens, .mgmt] s (s.launchLate n v) := State.modTen_keeps (kd.mono (by decide)) (by decide)
  obtain ⟨ws, hw⟩ := notice_notes (s.dayTen n 0x14 0 0 v 0) (fnOf n) noteLaunch v
  refine ⟨k.eq_time, ⟨ws, hw.symm⟩, ?_, k⟩
  unfold State.launchLate
  rw [State.ten_modTen, kd.ten_eq]

theorem launchTimeout_late {n : Ten} {s : State} {v : Nat} (hv : (s.ten n.val).launch.sentAt = some v) (hc : (s.ten n.val).launch.course = none)
    (ht : (s.ten n.val).launch.timedOut = false) (hst : (s.ten n.val).load.st = .loaded) :
    ∃ t, exec (.launchTimeout n) s = .next t ∧ (t.ten n.val).launch = { (s.ten n.val).launch with timedOut := true } ∧
      dayWord t.time.tally 0x14 0 n.val 0x7F 0 0 v 0 ∈ t.mgmt.waiting.drop s.mgmt.waiting.length ∧
      (let u := v + hdr s n.val 34 2 * 1800000
       s.time.pll ≠ .off → s.now ≤ u → u < 2 ^ 64 → t.now = u) ∧ Keeps timeViews s t := by
  have ha := passTo_ages s (v + hdr s n.val 34 2 * 1800000)
  have hk : Keeps timeViews s (s.passTo (v + hdr s n.val 34 2 * 1800000)) := pass_keeps_time _ _
  refine ⟨_, exec_launchTimeout hv hc ht hst, ?_⟩
  have hn (h1 : s.time.pll ≠ .off) (h3 : v + hdr s n.val 34 2 * 1800000 < 2 ^ 64) := passTo_now h1 h3
  generalize s.passTo (v + hdr s n.val 34 2 * 1800000) = w at *
  obtain ⟨htime, hwait, hlaunch, hkl⟩ := launchLate_noted w n.val v
  refine ⟨?_, ?_, fun h1 h2 h3 => ?_, hk.then (by decide) hkl⟩
  · rw [hlaunch]
    have h := ha.tens n.val
    unfold Tenancy.ages at h
    rw [h]
  · rw [htime]
    exact (Notes.of_mgmt_ages ha.mgmt).mem_drop hwait
  · unfold State.now
    rw [htime]
    exact (hn h1 h3).trans (Nat.max_eq_right h2)

/-- Settles O39: a ready frame, a launch course by load state, and the timeout, to which time passes. -/
theorem launchFrames : Obligations.LaunchFrames := by
  unfold Obligations.LaunchFrames
  refine ⟨fun p f s h => ?_, fun p f s h => launchGo_frames h, fun p f s hst hg => launchGo_loading_ended hst hg,
    fun n s v hv hc ht hst => launchTimeout_late hv hc ht hst⟩
  obtain ⟨t, hx, hk, h1, h2, h3⟩ := launchReady_frames h
  exact ⟨t, hx, hk, h1, h2, h3⟩

end Sys2Proof.Machine
end

section
/-! SUPPORT. The control frames of a recovery, and its time limits (15 R411, R413, R417, R418; 14 R368). -/

namespace Sys2Proof.Machine

open Sys2Proof Sys2Proof.Claims

set_option Elab.async false

/-! ### Receipt -/

/-- A recovery control frame that comes, of a job that can still take part, gives its words. -/
theorem takeCtl_comes {sub k : Nat} {p : Port} {f : Frame} {s : State} (spread : Bool) (h : comes (recvBad sub k) p f s)
    (hl : jobLive s f.ten.toNat = true) :
    ∃ v, s.takeCtl p f sub k spread = (v, some (f.payload.map (fun w => (decodeWord w).w))) ∧ Talks s v ∧ Keeps ctlViews s v := by
  obtain ⟨u, hu, ht, hk⟩ := receiveCtl_comes h (b := recBad f sub k) (comes_formed h)
  unfold State.takeCtl
  dsimp only
  rw [hu]
  dsimp only
  rw [if_neg (by simp)]
  cases spread with
  | false => exact ⟨u, by rw [if_neg Bool.false_ne_true, ht.jobLive_eq, hl, if_pos rfl], ht, hk⟩
  | true =>
    have ht2 := ht.trans (forward_talks u f.ten.toNat 9 p (jobAxes u f.ten.toNat) (f.payload.map (fun w => (decodeWord w).w)))
    exact ⟨_, by rw [if_pos rfl, ht2.jobLive_eq, hl, if_pos rfl], ht2, State.forward_keeps hk (by decide)⟩

/-! ### STOP -/

/-- What a newer census makes of a recovery record. -/
def Recovery.toCensus (r : Recovery) (c : BitVec 16) : Recovery :=
  if r.census < c then
    { r with
      census := c, chips := 0, repOpt := false, reported := false, plan := none, doneChips := 0, selfDone := false, doneSent := false
      resumeAt := none }
  else r

theorem openCensus_eq (s : State) (n : Nat) (c : BitVec 16) : (s.openCensus n c).ten n = { s.ten n with recov := (s.ten n).recov.toCensus c } := by
  unfold State.openCensus Recovery.toCensus
  split
  · exact State.ten_modTen _ _ _
  · rfl

theorem toCensus_census (r : Recovery) (c : BitVec 16) : (r.toCensus c).census = bvMax r.census c := by
  unfold Recovery.toCensus bvMax
  split <;> rfl

theorem toCensus_stopGot (r : Recovery) (c : BitVec 16) : (r.toCensus c).stopGot = r.stopGot := by
  unfold Recovery.toCensus
  split <;> rfl

/-- An error that a STOP brings, joined with what an earlier one brought. -/
def Recovery.stopped (r : Recovery) (e : JobError) (c : BitVec 16) : Recovery :=
  { r with stopGot := some (match r.stopGot with | some x => (x.1.join e, c) | none => (e, c)) }

/-- The error that a recovery word carries. -/
def errorOf (w : BitVec 256) : JobError := ⟨bits w 6 4, bits w 9 7, bits w 41 10, bits w 149 142⟩

theorem exec_stop {p : Port} {f : Frame} {s : State} (h : comes (recvBad 0 1) p f s) (hl : jobLive s f.ten.toNat = true) :
    ∃ v, Talks s v ∧ Keeps ctlViews s v ∧ exec (.stop p f) s = .next
      (if (s.ten f.ten.toNat).recov.st = 0 ∨ (s.ten f.ten.toNat).recov.census < bits (first f) 181 166 then
        (v.openCensus f.ten.toNat (bits (first f) 181 166)).modRecov f.ten.toNat
          (fun r => r.stopped (errorOf (first f)) (bits (first f) 181 166)) else v) := by
  obtain ⟨v, hv, ht, hk⟩ := takeCtl_comes true h hl
  refine ⟨v, ht, hk, ?_⟩
  change execStop p f s = _
  unfold execStop
  dsimp only
  rw [hv]
  dsimp only
  rw [word0_decoded, ht.ten_recov]
  by_cases hc : (s.ten f.ten.toNat).recov.st = 0 ∨ (s.ten f.ten.toNat).recov.census < bits (first f) 181 166
  · rw [if_pos hc]; exact if_pos (by simpa using hc)
  · rw [if_neg hc]; exact if_neg (by simpa using hc)

theorem modRecov_recov (s : State) (n : Nat) (f : Recovery → Recovery) : ((s.modRecov n f).ten n).recov = f (s.ten n).recov := by
  unfold State.modRecov
  rw [State.ten_modTen]

theorem stop_frames {p : Port} {f : Frame} {s : State} (h : comes (recvBad 0 1) p f s) (hl : jobLive s f.ten.toNat = true) :
    let n := f.ten.toNat
    let r := (s.ten n).recov
    let census : BitVec 16 := bits (first f) 181 166
    ∃ t, exec (.stop p f) s = .next t ∧ Keeps ctlViews s t ∧
      (r.st = 0 ∨ r.census < census → (t.ten n).recov.census = bvMax r.census census ∧
        (t.ten n).recov.stopGot = (r.stopped (errorOf (first f)) census).stopGot) ∧
      (r.st ≠ 0 → census ≤ r.census → Talks s t) := by
  intro n r census
  obtain ⟨v, ht, hk, hx⟩ := exec_stop h hl
  refine ⟨_, hx, .ite (State.modRecov_keeps (State.openCensus_keeps hk (by decide)) (by decide)) hk, fun hc => ?_, fun h0 hc => ?_⟩
  · rw [if_pos hc, modRecov_recov, openCensus_eq, ht.ten_recov]
    unfold Recovery.stopped
    dsimp only
    rw [toCensus_stopGot]
    exact ⟨toCensus_census _ _, rfl⟩
  · rw [if_neg (by rw [not_or]; exact ⟨h0, BitVec.not_lt.2 hc⟩)]
    exact ht

/-! ### REPORT -/

/-- A part of a tenancy that a plan taken leaves. -/
@[reducible] def Unplanned {α : Type} (π : Tenancy → α) : Prop := ∀ (r : Tenancy) (cls path : BitVec 3) (taint : BitVec 32)
  (plan : Option (BitVec 3 × BitVec 32 × BitVec 32)), π { r with recov := { r.recov with cls := cls, path := path, taint := taint, plan := plan } } = π r

theorem fixPlan_fixes {α : Type} {π : Tenancy → α} (s : State) (n : Nat) (cls path : BitVec 3) (taint : BitVec 32) (opt : Bool)
    (hu : Unspoken π := by exact fun _ _ _ _ => rfl) (he : Unended π := by exact fun _ _ _ _ => rfl)
    (hp : Unplanned π := by exact fun _ _ _ _ _ => rfl) : Fixes π s (s.fixPlan n cls path taint opt) :=
  .ite (jobFatal_fixes s n 13 hu he) ((Fixes.of_talks (broadcast_talks _ _ _ _) hu).trans (Fixes.modTen (fun r => hp r _ _ _ _)))

/-- A part of a tenancy that its report leaves. -/
@[reducible] def Unreported {α : Type} (π : Tenancy → α) : Prop :=
  ∀ (r : Tenancy) (b : Bool) (st : BitVec 3), π { r with recov := { r.recov with reported := b, st := st } } = π r

/-- The report of a chip that all below it have reported to, sent on or, at the root, planned from. -/
def State.reports (s : State) (n : Nat) : State :=
  let r := (s.ten n).recov
  let opt := r.repOpt || optOf s n r.repTaint
  let s1 := s.modRecov n (fun r => { r with reported := true, st := 2 })
  if isRoot s n then s1.fixPlan n r.repCls r.repPath r.repTaint opt
  else s1.sendRootward n 9 (recWord 1 r.repCls.toNat r.repPath.toNat r.repTaint.toNat 0 0 opt (r.chips + 1) 0 0 r.census.toNat)

theorem tryReport_eq (s : State) (n : Nat) : s.tryReport n =
    if (s.ten n).recov.st = 1 && !(s.ten n).recov.reported && (s.ten n).recov.chips + 1 = rootSub s n then s.reports n else s := rfl

/-- What a report leaves after its mark. -/
theorem reports_fixes {α : Type} {π : Tenancy → α} (s : State) (n : Nat) (hu : Unspoken π := by exact fun _ _ _ _ => rfl)
    (he : Unended π := by exact fun _ _ _ _ => rfl) (hp : Unplanned π := by exact fun _ _ _ _ _ => rfl) :
    Fixes π (s.modRecov n (fun r => { r with reported := true, st := 2 })) (s.reports n) :=
  .ite (fixPlan_fixes _ _ _ _ _ _ hu he hp) (Fixes.of_talks (sendRootward_talks _ _ _ _) hu)

theorem tryReport_fixes {α : Type} {π : Tenancy → α} (s : State) (n : Nat) (hu : Unspoken π := by exact fun _ _ _ _ => rfl)
    (he : Unended π := by exact fun _ _ _ _ => rfl) (hp : Unplanned π := by exact fun _ _ _ _ _ => rfl)
    (hr : Unreported π := by exact fun _ _ _ => rfl) : Fixes π s (s.tryReport n) :=
  .ite ((Fixes.modTen (fun r => hr r _ _)).trans (reports_fixes s n hu he hp)) (Fixes.refl s)

theorem tryReport_marks {s : State} {n : Nat} (h1 : (s.ten n).recov.st = 1) (h2 : (s.ten n).recov.reported = false)
    (h3 : (s.ten n).recov.chips + 1 = rootSub s n) : ((s.tryReport n).ten n).recov.st = 2 ∧ ((s.tryReport n).ten n).recov.reported = true := by
  have hf := reports_fixes (π := fun r => (r.recov.st, r.recov.reported)) s n
  have h := hf n
  dsimp only at h
  rw [modRecov_recov] at h
  rw [tryReport_eq, if_pos (by simp [h1, h2, h3])]
  exact ⟨congrArg Prod.fst h, congrArg Prod.snd h⟩

/-- A report gathered into a chip's. -/
def Recovery.gather (r : Recovery) (w : BitVec 256) : Recovery :=
  { r with chips := r.chips + bitsN w 141 125, repCls := bvMax r.repCls (bits w 6 4), repPath := bvMax r.repPath (bits w 9 7)
           repTaint := bvMin r.repTaint (bits w 41 10), repOpt := r.repOpt || bitB w 124 }

theorem exec_report {p : Port} {f : Frame} {s : State} (h : comes (recvBad 1 1) p f s) (hl : jobLive s f.ten.toNat = true) :
    ∃ v, Talks s v ∧ Keeps ctlViews s v ∧ exec (.report p f) s = .next
      (if bits (first f) 181 166 < (s.ten f.ten.toNat).recov.census then v else
        ((v.openCensus f.ten.toNat (bits (first f) 181 166)).modRecov f.ten.toNat (fun r => r.gather (first f))).tryReport f.ten.toNat) := by
  obtain ⟨v, hv, ht, hk⟩ := takeCtl_comes false h hl
  refine ⟨v, ht, hk, ?_⟩
  change execReport p f s = _
  unfold execReport
  dsimp only
  rw [hv]
  dsimp only
  rw [word0_decoded, ht.ten_recov]
  split <;> rfl

/-- The chips that a census has heard of, and what of the report stands of an older one. -/
theorem toCensus_report (r : Recovery) (c : BitVec 16) : (r.toCensus c).chips = (if r.census < c then 0 else r.chips) ∧
    (r.toCensus c).repCls = r.repCls ∧ (r.toCensus c).repPath = r.repPath ∧ (r.toCensus c).repTaint = r.repTaint ∧ (r.toCensus c).st = r.st ∧
    (r.reported = false ∨ r.census < c → (r.toCensus c).reported = false) := by
  unfold Recovery.toCensus
  split
  · exact ⟨rfl, rfl, rfl, rfl, rfl, fun _ => rfl⟩
  · next h => exact ⟨rfl, rfl, rfl, rfl, rfl, fun k => k.resolve_right h⟩

theorem rootSub_congr {s t : State} {n : Nat} (hl : (t.ten n).load = (s.ten n).load) (ha : t.fabric.axes = s.fabric.axes) :
    rootSub t n = rootSub s n := by
  unfold rootSub relCoord coordOf axisStride axisLen boxO boxN myId hdr
  rw [hl, ha]

theorem report_frames {p : Port} {f : Frame} {s : State} (h : comes (recvBad 1 1) p f s) (hl : jobLive s f.ten.toNat = true) :
    let n := f.ten.toNat
    let w := first f
    let r := (s.ten n).recov
    let census : BitVec 16 := bits w 181 166
    ∃ t, exec (.report p f) s = .next t ∧ Keeps ctlViews s t ∧
      (census < r.census → Talks s t) ∧
      (r.census ≤ census → (t.ten n).recov.census = census ∧
        (t.ten n).recov.chips = (if r.census < census then 0 else r.chips) + bitsN w 141 125 ∧
        (t.ten n).recov.repCls = bvMax r.repCls (bits w 6 4) ∧ (t.ten n).recov.repPath = bvMax r.repPath (bits w 9 7) ∧
        (t.ten n).recov.repTaint = bvMin r.repTaint (bits w 41 10) ∧
        (r.st = 1 → r.reported = false ∨ r.census < census → (t.ten n).recov.chips + 1 = rootSub s n →
          (t.ten n).recov.st = 2 ∧ (t.ten n).recov.reported = true)) := by
  intro n w r census
  obtain ⟨v, ht, hk, hx⟩ := exec_report h hl
  refine ⟨_, hx, .ite hk (State.tryReport_keeps (State.modRecov_keeps (State.openCensus_keeps hk (by decide)) (by decide)) (by decide)),
    fun hc => ?_, fun hc => ?_⟩
  · rw [if_pos hc]; exact ht
  · rw [if_neg (BitVec.not_lt.2 hc)]
    have hu : ((v.openCensus n census).modRecov n (fun r => r.gather w)).ten n = { v.ten n with recov := (r.toCensus census).gather w } := by
      unfold State.modRecov
      rw [State.ten_modTen, openCensus_eq, ht.ten_recov]
    have hsub : rootSub ((v.openCensus n census).modRecov n (fun r => r.gather w)) n = rootSub s n := 
      rootSub_congr (by rw [hu]; exact ht.ten_load n)
        ((State.modRecov_keeps (vs := [.tens]) (State.openCensus_keeps (Keeps.refl _ v) (by decide)) (by decide)).eq_fabric ▸ ht.axes_eq)
    generalize (v.openCensus n census).modRecov n (fun r => r.gather w) = u at *
    obtain ⟨hchips, hcls, hpath, htaint, hst, hrep⟩ := toCensus_report r census
    have hf := tryReport_fixes (π := fun r => (r.recov.census, r.recov.chips, r.recov.repCls, r.recov.repPath, r.recov.repTaint)) u n
    have hn := hf n
    rw [hu] at hn
    dsimp only at hn
    injection hn with e1 hn
    injection hn with e2 hn
    injection hn with e3 hn
    injection hn with e4 e5
    refine ⟨e1.trans ((toCensus_census r census).trans ?_), e2.trans ?_, e3.trans ?_, e4.trans ?_, e5.trans ?_, fun h1 h2 h3 => ?_⟩
    · unfold bvMax
      split
      · rfl
      · next hlt => exact BitVec.le_antisymm hc (BitVec.not_lt.1 hlt)
    · exact congrArg (· + bitsN w 141 125) hchips
    · exact congrArg (bvMax · (bits w 6 4)) hcls
    · exact congrArg (bvMax · (bits w 9 7)) hpath
    · exact congrArg (bvMin · (bits w 41 10)) htaint
    · refine tryReport_marks ?_ ?_ ?_
      · rw [hu]; exact hst.trans h1
      · rw [hu]; exact hrep h2
      · rw [hu, hsub, ← h3, e2]

/-! ### PLAN, DONE, RESUME, END -/

theorem exec_plan {p : Port} {f : Frame} {s : State} (h : comes (recvBad 2 1) p f s) (hl : jobLive s f.ten.toNat = true) :
    ∃ v, Talks s v ∧ Keeps ctlViews s v ∧ exec (.plan p f) s = .next
      (if ((s.ten f.ten.toNat).recov.st = 1 ∨ (s.ten f.ten.toNat).recov.st = 2) ∧ bits (first f) 181 166 = (s.ten f.ten.toNat).recov.census then
        v.takePlan f.ten.toNat (bits (first f) 6 4) (bits (first f) 9 7) (bits (first f) 41 10) (bits (first f) 73 42) else v) := by
  obtain ⟨v, hv, ht, hk⟩ := takeCtl_comes true h hl
  refine ⟨v, ht, hk, ?_⟩
  change execPlan p f s = _
  unfold execPlan
  dsimp only
  rw [hv]
  dsimp only
  rw [word0_decoded, ht.ten_recov]
  split_ifs with h1 h2 h3
  · rfl
  · exact absurd (by simpa using h1) h2
  · exact absurd (by simpa using h3) h1
  · rfl

theorem plan_frames {p : Port} {f : Frame} {s : State} (h : comes (recvBad 2 1) p f s) (hl : jobLive s f.ten.toNat = true) :
    let n := f.ten.toNat
    let w := first f
    let r := (s.ten n).recov
    ∃ t, exec (.plan p f) s = .next t ∧ Keeps ctlViews s t ∧
      ((r.st = 1 ∨ r.st = 2) → bits w 181 166 = r.census → becomes n (fun m => { m with recov := { m.recov with
        cls := bits w 6 4, path := bits w 9 7, taint := bits w 41 10, plan := some (bits w 9 7, bits w 41 10, bits w 73 42) } }) s t) := by
  intro n w r
  obtain ⟨v, ht, hk, hx⟩ := exec_plan h hl
  refine ⟨_, hx, .ite (State.takePlan_keeps hk (by decide)) hk, fun hst hc => ?_⟩
  rw [if_pos ⟨hst, hc⟩]
  exact becomes.modTen ht (commutes_of (fun _ _ _ _ => rfl))

/-- A part of a tenancy that the end of its actions leaves. -/
@[reducible] def Undone {α : Type} (π : Tenancy → α) : Prop :=
  ∀ (r : Tenancy) (b : Bool) (l : Option Nat), π { r with recov := { r.recov with doneSent := b, resumeAt := l } } = π r

theorem tryDone_fixes {α : Type} {π : Tenancy → α} (s : State) (n : Nat) (hu : Unspoken π := by exact fun _ _ _ _ => rfl)
    (hd : Undone π := by exact fun _ _ _ => rfl) : Fixes π s (s.tryDone n) := by
  unfold State.tryDone
  dsimp only
  have h1 : Fixes π s (s.modRecov n (fun r => { r with doneSent := true })) := Fixes.modTen (fun r => hd r true r.recov.resumeAt)
  exact .ite (.ite ((h1.trans (Fixes.of_talks (broadcast_talks _ _ _ _) hu)).trans (Fixes.modTen (fun r => hd r r.recov.doneSent _)))
    (h1.trans (Fixes.of_talks (sendRootward_talks _ _ _ _) hu))) (Fixes.refl s)

theorem done_frames {p : Port} {f : Frame} {s : State} (h : comes (recvBad 3 1) p f s) (hl : jobLive s f.ten.toNat = true) :
    let n := f.ten.toNat
    let w := first f
    let r := (s.ten n).recov
    ∃ t, exec (.done p f) s = .next t ∧ Keeps ctlViews s t ∧
      (bits w 181 166 = r.census → (t.ten n).recov.doneChips = r.doneChips + bitsN w 141 125) ∧ (bits w 181 166 ≠ r.census → Talks s t) := by
  intro n w r
  obtain ⟨v, hv, ht, hk⟩ := takeCtl_comes false h hl
  have hx : exec (.done p f) s = .next (if bits w 181 166 = r.census then
      (v.modRecov n (fun r => { r with doneChips := r.doneChips + bitsN w 141 125 })).tryDone n else v) := by
    change execDone p f s = _
    unfold execDone
    dsimp only
    rw [hv]
    dsimp only
    rw [word0_decoded, ht.ten_recov]
    split <;> rfl
  refine ⟨_, hx, .ite (State.tryDone_keeps (State.modRecov_keeps hk (by decide)) (by decide)) hk, fun hc => ?_, fun hc => ?_⟩
  · rw [if_pos hc]
    have hf := tryDone_fixes (π := (·.recov.doneChips)) (v.modRecov n (fun r => { r with doneChips := r.doneChips + bitsN w 141 125 })) n
    refine (hf n).trans ?_
    dsimp only
    rw [modRecov_recov, ht.ten_recov]
  · rw [if_neg hc]; exact ht

theorem jobLive_canEnd {s : State} {n : Nat} (h : jobLive s n = true) : canEnd s n := by
  unfold jobLive at h
  simp only [Bool.and_eq_true, Bool.or_eq_true, decide_eq_true_eq] at h
  exact h.1

theorem resume_frames {p : Port} {f : Frame} {s : State} (h : comes (recvBad 4 1) p f s) (hl : jobLive s f.ten.toNat = true) :
    let n := f.ten.toNat
    let w := first f
    let r := (s.ten n).recov
    ∃ t, exec (.resume p f) s = .next t ∧ Keeps ctlViews s t ∧
      (r.st = 4 → bits w 181 166 = r.census → courseNow s + 2 < bitsN w 123 74 →
        becomes n (fun m => { m with recov := { m.recov with resumeAt := some (bitsN w 123 74) } }) s t) ∧
      (r.st = 4 → bits w 181 166 = r.census → bitsN w 123 74 ≤ courseNow s + 2 → ended n 3 s t) ∧
      (r.st ≠ 4 ∨ bits w 181 166 ≠ r.census → Talks s t) := by
  intro n w r
  obtain ⟨v, hv, ht, hk⟩ := takeCtl_comes true h hl
  have hx : exec (.resume p f) s = .next (if r.st ≠ 4 ∨ bits w 181 166 ≠ r.census then v else
      if bitsN w 123 74 ≤ courseNow s + 2 then v.jobFatal n 3 else v.modRecov n (fun r => { r with resumeAt := some (bitsN w 123 74) })) := by
    change execResume p f s = _
    unfold execResume
    dsimp only
    rw [hv]
    dsimp only
    rw [word0_decoded, ht.ten_recov, hk.courseNow_eq]
    by_cases h1 : r.st ≠ 4 ∨ bits w 181 166 ≠ r.census
    · rw [if_pos h1]; exact if_pos (by simpa using h1)
    · rw [if_neg h1]
      refine (if_neg (by simpa using h1)).trans ?_
      split <;> rfl
  refine ⟨_, hx, .ite hk (.ite (State.jobFatal_keeps hk (by decide)) (State.modRecov_keeps hk (by decide))), fun h4 hc hlt => ?_, fun h4 hc hle => ?_,
    fun hc => ?_⟩
  · rw [if_neg (by simp [h4, hc]), if_neg (Nat.not_le.2 hlt)]
    exact becomes.modTen ht (commutes_of (fun _ _ _ _ => rfl))
  · rw [if_neg (by simp [h4, hc]), if_pos hle]
    refine ended.after (jobFatal_ended 3 ?_) ht
    unfold canEnd
    rw [ht.ten_load]
    exact jobLive_canEnd hl
  · rw [if_pos hc]; exact ht

theorem end_frames {p : Port} {f : Frame} {s : State} (h : comes (recvBad 5 1) p f s) (hl : jobLive s f.ten.toNat = true) :
    let n := f.ten.toNat
    let w := first f
    ∃ t, exec (.endJob p f) s = .next t ∧ Keeps ctlViews s t ∧
      (t.ten n).recov.ending = (s.ten n).recov.ending.or (some ⟨bits w 6 4, 4, 0, bits w 149 142⟩) ∧ (t.ten n).course.stopped = true := by
  intro n w
  obtain ⟨v, hv, ht, hk⟩ := takeCtl_comes true h hl
  have hx : exec (.endJob p f) s = .next (v.modTen n (fun n => ({ n with recov := { n.recov with
      ending := n.recov.ending.or (some ⟨bits w 6 4, 4, 0, bits w 149 142⟩) } } : Tenancy).stopNow v.now)) := by
    change execEndJob p f s = _
    unfold execEndJob
    dsimp only
    rw [hv]
    dsimp only
    rw [word0_decoded]
  refine ⟨_, hx, State.modTen_keeps hk (by decide), ?_, ?_⟩
  · rw [State.ten_modTen, stopNow_recov]
    dsimp only
    rw [ht.ten_recov]
  · rw [State.ten_modTen]; exact stopNow_stopped _ _

/-- Settles O40, a clause for each frame. -/
theorem recoveryFrames : Obligations.RecoveryFrames := by
  unfold Obligations.RecoveryFrames
  intro p f s hl
  refine ⟨fun h => ?_, fun h => report_frames h hl, fun h => plan_frames h hl, fun h => done_frames h hl, fun h => resume_frames h hl,
    fun h => end_frames h hl⟩
  obtain ⟨t, hx, hk, h1, h2⟩ := stop_frames h hl
  refine ⟨t, hx, hk, fun hc => ⟨(h1 hc).1, (h1 hc).2.trans ?_⟩, h2⟩
  unfold Recovery.stopped
  cases (s.ten f.ten.toNat).recov.stopGot <;> rfl

/-! ### Time limits -/

theorem canEnd_ages {s t : State} {n : Nat} (h : Ages s t) (k : canEnd s n) : canEnd t n := by
  unfold canEnd at *
  rwa [Tenancy.ages_load (h.tens n)]

/-- A job that ends once time has passed. -/
theorem ended.after_ages {n k : Nat} {s t u : State} (h : ended n k t u) (ha : Ages s t) : ended n k s u := by
  unfold ended at *
  rwa [Tenancy.ages_recov (ha.tens n)] at h

theorem passTo_now_to {s : State} {v : Nat} (hc : s.time.pll ≠ .off) (hle : s.now ≤ v) (hv : v < 2 ^ 64) : (s.passTo v).now = v :=
  (passTo_now hc hv).trans (Nat.max_eq_right hle)

theorem now_of_time {s t : State} (h : t.time = s.time) : t.now = s.now := by unfold State.now; rw [h]

/-- A job-ending error once time has come to a tick. -/
theorem jobFatal_at {s : State} {n k v : Nat} (h : canEnd s n) : ended n k s ((s.passTo v).jobFatal n k) ∧
    (s.time.pll ≠ .off → s.now ≤ v → v < 2 ^ 64 → ((s.passTo v).jobFatal n k).now = v) ∧ Keeps timeViews s ((s.passTo v).jobFatal n k) := by
  have ha := passTo_ages s v
  have hk : Keeps timeViews s (s.passTo v) := pass_keeps_time _ _
  have hf : Keeps ctlViews (s.passTo v) ((s.passTo v).jobFatal n k) := State.jobFatal_keeps (Keeps.refl _ _) (by decide)
  exact ⟨ended.after_ages (jobFatal_ended k (canEnd_ages ha h)) ha, fun h1 h2 h3 => (now_of_time hf.eq_time).trans (passTo_now_to h1 h2 h3),
    hk.then (by decide) hf⟩

/-- The limit of a collective, counted, and its job ended. -/
theorem collectiveTimesOut_hold : collectiveTimesOut := by
  intro n chan s
  refine ⟨fun k w hc hw hst he => ?_, fun h => ?_⟩
  · have hx : exec (.collectiveTimeout n chan) s = .next (((s.passTo (w + 268435457)).countTen n.val 0x2170 1).jobFatal n.val 5) := by
      change execCollectiveTimeout n chan s = _
      unfold execCollectiveTimeout
      rw [hc]
      dsimp only
      rw [hw]
    have ha := passTo_ages s (w + 268435457)
    have hk : Keeps timeViews s ((s.passTo (w + 268435457)).countTen n.val 0x2170 1) := State.countTen_keeps (pass_keeps_time _ _) (by decide)
    have hn (h1 : s.time.pll ≠ .off) (h2 : s.now ≤ w + 268435457) (h3 : w + 268435457 < 2 ^ 64) := passTo_now_to h1 h2 h3
    generalize s.passTo (w + 268435457) = u at *
    have ht : Talks u (u.countTen n.val 0x2170 1) := count_talks _ _ _
    have hf : Keeps ctlViews (u.countTen n.val 0x2170 1) ((u.countTen n.val 0x2170 1).jobFatal n.val 5) :=
      State.jobFatal_keeps (Keeps.refl _ _) (by decide)
    have hlive : canEnd (u.countTen n.val 0x2170 1) n.val := by
      unfold canEnd
      rw [ht.ten_load]
      exact canEnd_ages ha (.inl hst)
    obtain ⟨hend, hstop⟩ := ended.after_ages (ended.after (jobFatal_ended 5 hlive) ht) ha
    rw [he] at hend
    exact ⟨_, hx, hend, hstop, fun h1 h2 h3 => (now_of_time hf.eq_time).trans (hn h1 h2 h3), hk.then (by decide) hf⟩
  · change execCollectiveTimeout n chan s = _
    unfold execCollectiveTimeout
    cases hc : collOf s n.val chan.toNat with
    | none => rfl
    | some k => dsimp only; rw [h k hc]

/-- Settles O43: each limit is a tick to which time passes, at which the job ends. -/
theorem timeLimits : Obligations.TimeLimits := by
  unfold Obligations.TimeLimits
  refine ⟨fun n s => ⟨fun hr hl hst => ?_, fun h => ?_⟩, collectiveTimesOut_hold⟩
  · obtain ⟨he, hn, hk⟩ := jobFatal_at (s := s) (k := 12) (v := (s.ten n.val).recov.stopTally + hdr s n.val 50 2 * 1800000000) hst
    refine ⟨_, ?_, he, hn, hk⟩
    change execRecoveryTimeout n s = _
    unfold execRecoveryTimeout
    exact if_pos (by simp [hr, hl])
  · change execRecoveryTimeout n s = _
    unfold execRecoveryTimeout
    refine if_neg ?_
    rcases h with h | h
    · simp [h]
    · simp [Option.isNone_iff_eq_none, h]

end Sys2Proof.Machine
end

section
/-! SUPPORT. The cut of a close, and the seal and twin values (07 R169, R170; 15 R396, R400). -/

namespace Sys2Proof.Machine

open Sys2Proof Sys2Proof.Claims

set_option Elab.async false

/-! ### Parts of a tenancy apart from its course, its errors and its faults -/

/-- A part of a tenancy that its course, its recovery record and the faults of its programs leave. -/
@[reducible] def Apart {α : Type} (π : Tenancy → α) : Prop := ∀ (r : Tenancy) (c : Course) (v : Recovery) (f a : BitVec 64),
  π { r with course := c, recov := v, fault := f, faultAt := a } = π r

section Apart

variable {α : Type} {π : Tenancy → α}

theorem Apart.unspoken (h : Apart π) : Unspoken π := fun r e l k => h r { r.course with energy := e, stalls := l, shift := k } r.recov r.fault r.faultAt

theorem Apart.unended (h : Apart π) : Unended π := fun r x b c =>
  h r { r.course with stopped := b, stopCyc := c } { r.recov with ending := x } r.fault r.faultAt

theorem Apart.unfaulted (h : Apart π) : Unfaulted π := fun r f a => h r r.course r.recov f a

variable (h : Apart π) (s : State) (t ch : Nat)
include h

theorem Apart.modCourse (f : Course → Course) : Fixes π s (s.modCourse t f) := Fixes.modTen (fun r => h r (f r.course) r.recov r.fault r.faultAt)

theorem Apart.jobFatal (k : Nat) : Fixes π s (s.jobFatal t k) := jobFatal_fixes s t k h.unspoken h.unended

theorem Apart.progFaultAt (c : Core) (page bundle slot code detail : Nat) : Fixes π s (s.progFaultAt c page bundle slot code detail) :=
  progFaultAt_fixes s c page bundle slot code detail h.unspoken h.unended h.unfaulted

theorem Apart.queueError (e : JobError) : Fixes π s (s.queueError t e) := by
  unfold State.queueError
  dsimp only
  split
  · exact .modTen (fun r => h r r.course _ r.fault r.faultAt)
  · exact Fixes.trans (.modTen (fun r => h r r.course _ r.fault r.faultAt)) (.of_keeps (vs := [.counters, .mgmt])
      (State.dayTen_keeps (State.countTen_keeps (Keeps.refl _ _) (by decide)) (by decide)))

theorem Apart.jobError (e : JobError) : Fixes π s (s.jobError t e) := by
  unfold State.jobError
  dsimp only
  split
  · split
    · exact endError_fixes s t _ h.unspoken h.unended
    · split
      · exact h.queueError s t e
      · exact .modTen (fun r => h r r.course _ r.fault r.faultAt)
  · exact h.queueError s t e

theorem Apart.sendBlank (c : Nat) (cause : BitVec 3) : Fixes π s (s.sendBlank t c cause) := by
  unfold State.sendBlank
  dsimp only
  split
  · exact h.jobFatal s t 1
  · exact (Fixes.of_talks (count_talks s _ 1) h.unspoken).trans ((h.modCourse _ t _).trans (.of_talks (broadcast_talks _ _ _ _) h.unspoken))

theorem Apart.planSwap (take : Nat) : Fixes π s (s.planSwap t take) := by
  unfold State.planSwap
  dsimp only
  split
  · exact Fixes.refl s
  · split
    · exact Fixes.refl s
    · split
      · exact (h.sendBlank s t _ _).trans ((h.sendBlank _ t _ _).trans (h.modCourse _ t _))
      · exact (h.sendBlank s t _ _).trans (h.modCourse _ t _)

theorem Apart.closeFlight : Fixes π s (s.closeFlight t) := by
  unfold State.closeFlight
  exact Fixes.foldl (Fixes.refl s) (fun v c => .ite (h.progFaultAt v c _ _ _ _ _) (Fixes.refl v))

/-! Collectives -/

theorem Apart.collFault (k : Coll) (code : Nat) : Fixes π s (s.collFault t k code) :=
  (Fixes.of_talks (count_talks s _ 1) h.unspoken).trans (h.progFaultAt _ k.core _ _ _ _ _)

theorem Apart.adderStrike (op : Nat) : Fixes π s (s.adderStrike t ch op) := by
  unfold State.adderStrike
  split
  · refine Fixes.trans ?_ (h.jobError _ t _)
    have e : Fixes π s { s with upsets := s.upsets.erase .adder } := .of_tens rfl
    exact e.trans (.of_keeps (vs := [.counters, .mgmt]) (State.daybook_keeps (State.countChip_keeps (Keeps.refl _ _) (by decide)) (by decide)))
  · exact Fixes.refl s

omit h in
theorem setColl_fixes (k : Coll) : Fixes π s (s.setColl t ch k) := .of_tens rfl

omit h in
theorem sendPart_talks (k : Coll) (gather : Bool) (step b i rel : Nat) : Talks s (s.sendPart t ch k gather step b i rel) := by
  unfold State.sendPart
  exact push_talks _ _ _ _ _

omit h in
theorem gatherOn_talks (k : Coll) (b i lev : Nat) : Talks s (s.gatherOn t ch k b i lev) := by
  unfold State.gatherOn
  dsimp only
  split
  · exact Talks.refl s
  · split
    · exact Talks.foldl (Talks.refl s) (fun v _ => .ite (sendPart_talks v t ch _ _ _ _ _ _) (Talks.refl v))
    · exact .ite (Talks.refl s) (sendPart_talks s t ch _ _ _ _ _ _)

omit h in
theorem Talks.ite_fst {β : Type} {s : State} {p q : State × β} {c : Prop} [Decidable c] (hp : Talks s p.1) (hq : Talks s q.1) :
    Talks s (if c then p else q).1 := by
  split <;> assumption

omit h in
theorem reduceOn_talks (k : Coll) (b i : Nat) : Talks s (s.reduceOn t ch k b i).1 := by
  unfold State.reduceOn
  dsimp only
  by_cases hme : k.shareOf b = k.me
  · rw [if_pos hme]
    exact Talks.ite_fst (gatherOn_talks s t ch _ _ _ _) (Talks.refl s)
  · rw [if_neg hme]
    exact Talks.ite_fst (.ite (sendPart_talks s t ch _ _ _ _ _ _) (Talks.refl s)) (.ite (sendPart_talks s t ch _ _ _ _ _ _) (Talks.refl s))

theorem Apart.parcel (f : Frame) (ws : List MemWord) : Fixes π s (s.parcel t ch f ws) := by
  have later (u : State) (g : ChanSt → ChanSt) : Fixes π u (u.modChan t ch g) := .of_talks (modChan_talks u t ch g) h.unspoken
  unfold State.parcel
  dsimp only
  split
  · exact later s _
  · next k _ =>
    refine .ite (later s _) (.ite (h.collFault s t k _) (.ite (h.collFault s t k _) (.ite ?_ ?_)))
    · exact (h.adderStrike s t ch _).trans ((Fixes.of_talks (gatherOn_talks _ t ch _ _ _ _) h.unspoken).trans (setColl_fixes _ t ch _))
    · exact (h.adderStrike s t ch _).trans ((Fixes.of_talks ((charge_talks _ _ _ _).trans (reduceOn_talks _ t ch _ _ _)) h.unspoken).trans
        (setColl_fixes _ t ch _))

theorem Apart.takeEarly : Fixes π s (s.takeEarly t ch) := by
  unfold State.takeEarly
  exact Fixes.foldl (.of_talks (modChan_talks s t ch _) h.unspoken) (fun v f => h.parcel v t ch f _)

omit h in
theorem Talks.foldl_fst {β γ : Type} {f : State × β → γ → State × β} (hf : ∀ v b a, Talks v (f (v, b) a).1) (l : List γ) :
    ∀ (v : State) (b : β), Talks v (l.foldl f (v, b)).1 := by
  induction l with
  | nil => exact fun v _ => Talks.refl v
  | cons a r ih => exact fun v b => (hf v b a).trans (ih (f (v, b) a).1 (f (v, b) a).2)

theorem Apart.startPass (k : Coll) : Fixes π s (s.startPass t ch k) := by
  unfold State.startPass
  dsimp only
  split
  · refine Fixes.trans (.of_talks (Talks.foldl (Talks.refl s) (fun v x => ?_)) h.unspoken) (setColl_fixes _ t ch k)
    exact .ite (Talks.refl v) (gatherOn_talks v t ch k _ _ _)
  · exact Fixes.trans (.of_talks (Talks.foldl_fst (fun v b x => reduceOn_talks v t ch b x.1 x.2) _ s k) h.unspoken) (setColl_fixes _ t ch _)

end Apart

/-! ### The cut -/

/-- What the cut of a close fixes: that it is made, when, with which take, and that none is due. -/
def Close.cutOf (k : Close) : Bool × Nat × Nat × Bool := (k.cut, k.at', k.wait, k.due)

/-- What a tenancy shows of its cut. -/
def Tenancy.cutOf (r : Tenancy) : Bool × Nat × Nat × Bool := r.close.cutOf

theorem cutOf_apart : Apart Tenancy.cutOf := fun _ _ _ _ _ => rfl

theorem mergePass_cut (s : State) (t : Nat) : Fixes Tenancy.cutOf s (s.mergePass t) := by
  unfold State.mergePass
  split
  · exact .modTen (fun _ => rfl)
  · refine Fixes.trans (Fixes.trans ?_ (cutOf_apart.startPass _ t 4094 _)) (cutOf_apart.takeEarly _ t 4094)
    exact .of_tens rfl

theorem startMerge_cut (s : State) (t : Nat) : Fixes Tenancy.cutOf s (s.startMerge t) := by
  unfold State.startMerge
  refine Fixes.trans ?_ (mergePass_cut _ t)
  exact .modTen (fun _ => rfl)

theorem countOvf_talks (s : State) (t : Nat) : Talks s (s.countOvf t) := count_talks _ _ _

theorem sendSeals_cut (s : State) (t : Nat) : Fixes Tenancy.cutOf s (s.sendSeals t) := by
  unfold State.sendSeals
  dsimp only
  refine Fixes.trans ?_ (.of_talks (fanOut_talks _ _ _ _ _))
  refine Fixes.trans ?_ (.of_talks (.ite (push_talks _ _ _ _ _) (Talks.refl _)))
  exact .modTen (fun _ => rfl)

/-- What the comparison of twin values leaves: counts and notes, and, once made, its result. -/
theorem compareTwin_cases (s : State) (t : Nat) : s.compareTwin t = s ∨ ∃ (u : State) (b : Bool), Keeps [.counters, .fabric, .mgmt] s u ∧
    s.compareTwin t = u.modTen t (fun r => { r with close := { r.close with twinCmp := true, twinBad := b } }) := by
  unfold State.compareTwin
  dsimp only
  split
  · next own v ho hv =>
    split
    · exact .inl rfl
    · refine .inr ⟨_, _, ?_, rfl⟩
      refine .ite (State.assayCores_keeps ?_ (by decide)) ?_
      all_goals exact .foldl (State.countTen_keeps (Keeps.refl _ _) (by decide)) (fun w r hw =>
        State.dayTen_keeps (State.countTen_keeps hw (by decide)) (by decide))
  · exact .inl rfl

theorem compareTwin_cut (s : State) (t : Nat) : Fixes Tenancy.cutOf s (s.compareTwin t) := by
  obtain h | ⟨u, b, k, h⟩ := compareTwin_cases s t
  · rw [h]; exact .refl s
  · rw [h]; exact (Fixes.of_keeps k).trans (.modTen (fun _ => rfl))

/-- What the comparison of seal values leaves: counts and notes, and, once made, its result. -/
theorem compareSeals_cases (s : State) (t : Nat) : s.compareSeals t = s ∨ ∃ (u : State) (b : Close → Close), Keeps [.counters, .mgmt] s u ∧
    (∀ k, (b k).cutOf = k.cutOf) ∧ s.compareSeals t = u.modTen t (fun r => { r with close := b r.close }) := by
  unfold State.compareSeals
  dsimp only
  split
  · exact .inl rfl
  · split
    · exact .inl rfl
    · split
      · exact .inr ⟨_, fun k => { k with sealCmp := true }, State.countTen_keeps (Keeps.refl _ _) (by decide), fun _ => rfl, rfl⟩
      · exact .inr ⟨_, fun k => { k with sealCmp := true, sealPath := _, odd := _ },
          State.dayTen_keeps (State.countTen_keeps (Keeps.refl _ _) (by decide)) (by decide), fun _ => rfl, rfl⟩

theorem compareSeals_cut (s : State) (t : Nat) : Fixes Tenancy.cutOf s (s.compareSeals t) := by
  obtain h | ⟨u, b, k, hb, h⟩ := compareSeals_cases s t
  · rw [h]; exact .refl s
  · rw [h]; exact (Fixes.of_keeps k).trans (.modTen (fun r => hb r.close))

/-- The first `SCLOSE` of a tenancy, once its checks pass. -/
def State.cutAt (s : State) (t take : Nat) : State :=
  s.modTen t (fun n => { n with
    close := { cut := true, at' := s.now, wait := take }
    recov := { n.recov with optPhase := true } })

theorem soloClose_first {c : Core} {take : BitVec 4} {s : State} (h0 : take ≠ 0) (hl : (seqOf s c).loops = []) (hr : (seqOf s c).ret = none)
    (hc : (s.ten (tenNo s c)).close.cut = false) : soloClose c take s s =
      .ok (((((((s.cutAt (tenNo s c) take.toNat).planSwap (tenNo s c) take.toNat).countOvf (tenNo s c)).sendSeals (tenNo s c)).compareTwin
        (tenNo s c)).compareSeals (tenNo s c)).startMerge (tenNo s c) |>.closeFlight (tenNo s c)) := by
  unfold soloClose scloseAct
  rw [need_pass (by simpa using h0), need_pass (by simp [inLoop, hl, hr])]
  simp only [hc]
  rfl

/-- A further `SCLOSE` in the cycle of the cut. -/
theorem soloClose_again {c : Core} {take : BitVec 4} {s : State} (h0 : take ≠ 0) (hl : (seqOf s c).loops = []) (hr : (seqOf s c).ret = none)
    (hc : (s.ten (tenNo s c)).close.cut = true) (ha : (s.ten (tenNo s c)).close.at' = s.now) : soloClose c take s s = .ok s := by
  unfold soloClose scloseAct
  rw [need_pass (by simpa using h0), need_pass (by simp [inLoop, hl, hr])]
  simp only [hc, if_true]
  rw [need_pass (by simpa using ha)]
  rfl

/-- What follows the cut leaves it. -/
theorem cut_stands (s : State) (t take : Nat) :
    Fixes Tenancy.cutOf s (((((((s.planSwap t take).countOvf t).sendSeals t).compareTwin t).compareSeals t).startMerge t).closeFlight t) :=
  (cutOf_apart.planSwap s t take).trans ((Fixes.of_talks (countOvf_talks _ t) cutOf_apart.unspoken).trans ((sendSeals_cut _ t).trans
    ((compareTwin_cut _ t).trans ((compareSeals_cut _ t).trans ((startMerge_cut _ t).trans (cutOf_apart.closeFlight _ t))))))

theorem cutAt_cutOf (s : State) (t take : Nat) : ((s.cutAt t take).ten t).cutOf = (true, s.now, take, false) := by
  unfold State.cutAt
  rw [State.ten_modTen]
  rfl

theorem cutOf_fields {r : Tenancy} {a d : Bool} {b w : Nat} (h : r.cutOf = (a, b, w, d)) : r.close.cut = a ∧ r.close.at' = b ∧ r.close.wait = w := by
  unfold Tenancy.cutOf Close.cutOf at h
  injection h with h1 h
  injection h with h2 h
  injection h with h3 _
  exact ⟨h1, h2, h3⟩

/-- `SPHASE` gives its tenancy the tag, and no other. -/
theorem exec_sphase {c : Core} {s : State} (hi : issues s c = true) (tag : BitVec 16) :
    exec (.sphase c tag) s = .next (s.modTen (tenNo s c) (fun n => { n with course := { n.course with phase := tag } })) :=
  congrArg Host.Outcome.next (slotOp_ok (f := fun _ u => sphaseAct c tag u) hi rfl)

/-- Settles O20: nothing that follows the cut changes it. -/
theorem closeAndPhase : Obligations.CloseAndPhase := by
  unfold Obligations.CloseAndPhase
  intro c s hi
  refine ⟨fun take h0 hl hr => ⟨fun hc => ?_, fun hc ha => ?_⟩, fun tag => ⟨_, exec_sphase hi tag, State.ten_modTen _ _ _,
    fun u hu => State.ten_modTen_ne _ _ hu, State.modTen_keeps (Keeps.refl _ _) (by decide)⟩⟩
  · have hx := soloClose_first h0 hl hr hc
    obtain ⟨h1, h2, h3⟩ := cutOf_fields ((cut_stands (s.cutAt (tenNo s c) take.toNat) (tenNo s c) take.toNat (tenNo s c)).trans (cutAt_cutOf _ _ _))
    exact ⟨_, congrArg Host.Outcome.next (slotOp_ok hi hx), h1, h2, h3, (soloClose_keeps (Keeps.refl _ _) (by decide)).getOk hx⟩
  · exact congrArg Host.Outcome.next (slotOp_ok hi (soloClose_again h0 hl hr hc ha))

end Sys2Proof.Machine
end

section
/-! SUPPORT. Which counters frames count, and the seal and twin values that frames bring (13 R349, R350; 15 R396, R400). -/

namespace Sys2Proof.Machine

open Sys2Proof Sys2Proof.Claims

set_option Elab.async false

/-! ### Counters outside of a set stand -/

/-- Every counter outside of `P` stands. -/
def CountsIn (P : Nat → Prop) (s t : State) : Prop := ∀ o, ¬ P o → t.counter o = s.counter o

section CountsIn

variable {P Q : Nat → Prop} {s t u : State}

theorem CountsIn.refl (s : State) : CountsIn P s s := fun _ _ => rfl

theorem CountsIn.trans (h : CountsIn P s t) (k : CountsIn P t u) : CountsIn P s u := fun o ho => (k o ho).trans (h o ho)

theorem CountsIn.mono (h : CountsIn P s t) (hPQ : ∀ o, P o → Q o) : CountsIn Q s t := fun o ho => h o (fun k => ho (hPQ o k))

theorem CountsIn.of_eq (h : t.counters = s.counters) : CountsIn P s t := fun _ _ => by unfold State.counter; rw [h]

theorem CountsIn.of_keeps {vs : List View} (k : Keeps vs s t) (h : View.counters ∉ vs := by decide) : CountsIn P s t := .of_eq (k.eq_counters h)

theorem CountsIn.count {o n : Nat} (h : P o) : CountsIn P s (s.count o n) := fun _ hp => counter_count_ne s n (fun e => hp (e ▸ h))

theorem CountsIn.ite {c : Prop} [Decidable c] (ha : CountsIn P s t) (hb : CountsIn P s u) : CountsIn P s (if c then t else u) := by
  split <;> assumption

theorem CountsIn.foldl {α : Type} {l : List α} {f : State → α → State} (h : CountsIn P s t) (hf : ∀ v a, CountsIn P v (f v a)) :
    CountsIn P s (l.foldl f t) := by
  induction l generalizing t with
  | nil => exact h
  | cons a r ih => exact ih (h.trans (hf t a))

/-- A counter outside of the set that both count around is counted all the same. -/
theorem counted.within {s t u v : State} {o : Nat} (h : counted t u o) (hs : CountsIn P s t) (hv : CountsIn Q u v) (hP : ¬ P o) (hQ : ¬ Q o) :
    counted s v o := counted.of_eq h (hs o hP) (hv o hQ)

end CountsIn

/-! ### Frames sent count on ports -/

/-- The counters of the ports (20 Table 20.17). -/
def onPort (o : Nat) : Prop := 0x6000 ≤ o ∧ o < 0x7000

theorem onPort_portOff (p : Port) {o : Nat} (h : o < 0x100) : onPort (portOff p.val o) := by
  have := p.isLt
  unfold onPort portOff
  omega

theorem not_onPort_tenOff (n o : Nat) : ¬ onPort (tenOff n o) := by
  unfold onPort tenOff
  omega

theorem not_onPort_chipOff {o : Nat} (h : o < 0x2000) : ¬ onPort (chipOff o) := by
  unfold onPort chipOff
  omega

theorem emitFrame_counts (s : State) (p : Port) (f : Frame) : CountsIn onPort s (s.emitFrame p f) := by
  unfold State.emitFrame
  exact .ite (.refl s) (fun o ho =>
    (chargeFrame_counter (s.count (portOff p.val 0) 1) p f o).trans (counter_count_ne s 1 (fun e => ho (e ▸ onPort_portOff p (by omega)))))

theorem transmit_counts (s : State) (t ch peer : Nat) (u : Unacked) : CountsIn onPort s (s.transmit t ch peer u) := by
  unfold State.transmit
  exact .trans (.of_eq rfl) (emitFrame_counts _ _ _)

theorem sendNow_counts (s : State) (t ch peer : Nat) (h : Held) : CountsIn onPort s (s.sendNow t ch peer h) := by
  unfold State.sendNow
  refine .trans ?_ (transmit_counts _ _ _ _ _)
  exact .ite (.of_eq rfl) (.of_eq rfl)

theorem push_counts (s : State) (t ch peer : Nat) (h : Held) : CountsIn onPort s (s.push t ch peer h) := by
  unfold State.push
  exact .ite (sendNow_counts _ _ _ _ _) (.of_eq rfl)

theorem pump_counts (s : State) (t ch peer : Nat) : CountsIn onPort s (s.pump t ch peer) := by
  unfold State.pump
  exact .foldl (.of_eq rfl) (fun u a => sendNow_counts u _ _ _ _)

theorem acked_counts (s : State) (t ch peer : Nat) (a : BitVec 24) : CountsIn onPort s (s.acked t ch peer a) := by
  unfold State.acked
  dsimp only
  split
  · exact .refl s
  · refine .ite (.refl s) (.trans ?_ (pump_counts _ _ _ _))
    exact .ite (.of_eq rfl) (.of_eq rfl)

theorem sendStaged_counts (s : State) (t ch : Nat) (is : List Nat) : CountsIn onPort s (s.sendStaged t ch is) := by
  unfold State.sendStaged
  exact .foldl (.of_eq rfl) (fun u a => push_counts u _ _ _ _)

theorem modChan_counts {P : Nat → Prop} (s : State) (t ch : Nat) (f : ChanSt → ChanSt) : CountsIn P s (s.modChan t ch f) := .of_eq rfl

theorem endStall_counts {P : Nat → Prop} (s : State) (t : Nat) (p : Stall → Bool) : CountsIn P s (s.endStall t p) := .of_eq rfl

theorem credited_counts (s : State) (t ch n : Nat) : CountsIn onPort s (s.credited t ch n) := by
  unfold State.credited
  have hm := modChan_counts (P := onPort) s t ch (fun k => k.backNow s.now n [])
  exact .ite (.refl s) (.ite ((hm.trans (endStall_counts _ _ _)).trans (sendStaged_counts _ _ _ _)) hm)

theorem takeBack_counts (s : State) (t : Nat) (f : Frame) : CountsIn onPort s (s.takeBack t f) := by
  unfold State.takeBack
  have h : CountsIn onPort s (if f.ackv then s.acked t f.chan.toNat f.src.toNat f.ack else s) := .ite (acked_counts _ _ _ _ _) (.refl s)
  exact .ite (h.trans (credited_counts _ _ _ _)) h

theorem fanOut_counts (s : State) (t kind : Nat) (axes : List Nat) (ws : List MemWord) : CountsIn onPort s (s.fanOut t kind axes ws) := by
  unfold State.fanOut
  refine .foldl (.refl s) (fun u k => .foldl (.refl u) (fun v j => ?_))
  exact .ite (.refl v) (push_counts _ _ _ _ _)

theorem broadcast_counts (s : State) (t kind : Nat) (ws : List MemWord) : CountsIn onPort s (s.broadcast t kind ws) := fanOut_counts _ _ _ _ _

theorem forward_counts (s : State) (t kind : Nat) (p : Port) (axes : List Nat) (ws : List MemWord) : CountsIn onPort s (s.forward t kind p axes ws) := by
  unfold State.forward
  split
  · exact fanOut_counts _ _ _ _ _
  · exact .refl s

/-! ### Frames received -/

/-- What a frame of tenancy `n` received counts: on its port, and that it came. -/
def onReceipt (n o : Nat) : Prop := onPort o ∨ o = tenOff n 0x2100

theorem arrive_counts (s : State) (p : Port) (f : Frame) : CountsIn onPort s (s.arrive p f) :=
  .trans (.count (onPort_portOff p (o := 0x08) (by omega))) (fun o _ => chargeFrame_counter _ p f o)

theorem setRecv_counts {P : Nat → Prop} (s : State) (t ch peer : Nat) (r : RecvFlow) : CountsIn P s (s.setRecv t ch peer r) := .of_eq rfl

/-- A frame accepted is counted in its tenancy. -/
theorem accept_counted (s : State) (p : Port) (f : Frame) : counted s (s.accept p f) (tenOff f.ten.toNat 0x2100) := by
  unfold State.accept State.countTen
  exact counted.within (counted_count _ _) ((arrive_counts s p f).trans (setRecv_counts _ _ _ _ _)) (takeBack_counts _ _ _)
    (not_onPort_tenOff _ _) (not_onPort_tenOff _ _)

theorem accept_counts (s : State) (p : Port) (f : Frame) : CountsIn (onReceipt f.ten.toNat) s (s.accept p f) := by
  unfold State.accept State.countTen
  refine CountsIn.trans ?_ ((takeBack_counts _ _ _).mono (fun _ => .inl))
  refine CountsIn.trans ?_ (.count (.inr rfl))
  exact ((arrive_counts s p f).trans (setRecv_counts _ _ _ _ _)).mono (fun _ => .inl)

/-- What the words of a frame count as they are decoded: on their port, and with the corrected words of the chip. -/
def onDecode (o : Nat) : Prop := onPort o ∨ o = chipOff 0x10

theorem decodePayload_counts (s : State) (p : Port) (ws : List MemWord) : CountsIn onDecode s (s.decodePayload p ws).1 := by
  have hc (n : Nat) : CountsIn onDecode s (s.countChip 0x10 n) := .count (.inr rfl)
  have hp (u : State) (n : Nat) : CountsIn onDecode u (u.count (portOff p.val 0x50) n) := .count (.inl (onPort_portOff p (by omega)))
  unfold State.decodePayload
  dsimp only
  generalize ((ws.map decodeWord).filter (·.corrected)).length = a
  generalize ((ws.map decodeWord).filter (·.uncorr)).length = b
  cases a with
  | zero =>
    cases b with
    | zero => exact .refl s
    | succ n => exact hp s _
  | succ m =>
    cases b with
    | zero => exact hc _
    | succ n => exact (hc _).trans (hp _ _)

theorem ctlIn_counts (s : State) (p : Port) (f : Frame) {n o : Nat} (h : o < 0x10000) (h2 : o ≠ 0x2100) (hn : n = f.ten.toNat) :
    (s.ctlIn p f).counter (tenOff n o) = s.counter (tenOff n o) := by
  subst hn
  refine (decodePayload_counts _ p f.payload _ ?_).trans (accept_counts s p f _ ?_)
  · rintro (hp | hc)
    · exact not_onPort_tenOff _ _ hp
    · unfold tenOff chipOff at hc; omega
  · rintro (hp | hc)
    · exact not_onPort_tenOff _ _ hp
    · unfold tenOff at hc; omega

/-! ### Seal and twin values -/

theorem takeCtl_ctlIn {sub k : Nat} {p : Port} {f : Frame} {s : State} (h : comes (recvBad sub k) p f s) (hl : jobLive s f.ten.toNat = true) :
    s.takeCtl p f sub k false = (s.ctlIn p f, some (f.payload.map (fun w => (decodeWord w).w))) := by
  unfold State.takeCtl
  dsimp only
  rw [receiveCtl_ctlIn h (b := recBad f sub k) (comes_formed h), if_neg (by simp), if_neg Bool.false_ne_true, (ctlIn_talks s p f).jobLive_eq, hl, if_pos rfl]

/-- Values of a frame kept with those that the tenancy has. -/
def State.keepSeal (s : State) (t : Nat) (v : SealVal) : State :=
  s.modTen t (fun n => { n with steps := { n.steps with sealGot := n.steps.sealGot ++ [v] } })

def State.keepTwin (s : State) (t : Nat) (v : SealVal) : State :=
  s.modTen t (fun n => { n with steps := { n.steps with twinGot := n.steps.twinGot ++ [v] } })

/-- A take that is not due is not tried. -/
theorem tryTake_none {s : State} {t : Nat} (h : (s.ten t).close.due = false) : s.tryTake t = s := by
  unfold State.tryTake
  rw [h]
  rfl

theorem due_of_cut {s u : State} {t : Nat} (h : Fixes Tenancy.cutOf s u) (hd : (s.ten t).close.due = false) : (u.ten t).close.due = false :=
  (congrArg (fun x : Bool × Nat × Nat × Bool => x.2.2.2) (h t)).trans hd

theorem exec_seals {p : Port} {f : Frame} {s : State} (h : comes (recvBad 6 6) p f s) (hl : jobLive s f.ten.toNat = true)
    (hd : (s.ten f.ten.toNat).close.due = false) : exec (.seals p f) s = .next (((s.ctlIn p f).keepSeal f.ten.toNat
      (sealOfWords f (f.payload.map (fun w => (decodeWord w).w)))).compareSeals f.ten.toNat) := by
  change execSeals p f s = _
  unfold execSeals
  rw [takeCtl_ctlIn h hl]
  refine congrArg Host.Outcome.next (tryTake_none (due_of_cut (compareSeals_cut _ _) ?_))
  rw [State.ten_modTen]
  exact ((ctlIn_talks s p f).ten_close _).symm ▸ hd

theorem exec_twin {p : Port} {f : Frame} {s : State} (h : comes (recvBad 7 6) p f s) (hl : jobLive s f.ten.toNat = true)
    (hd : (s.ten f.ten.toNat).close.due = false) : exec (.twin p f) s = .next (((s.ctlIn p f).keepTwin f.ten.toNat
      (sealOfWords f (f.payload.map (fun w => (decodeWord w).w)))).compareTwin f.ten.toNat) := by
  change execTwin p f s = _
  unfold execTwin
  rw [takeCtl_ctlIn h hl]
  refine congrArg Host.Outcome.next (tryTake_none (due_of_cut (compareTwin_cut _ _) ?_))
  rw [State.ten_modTen]
  exact ((ctlIn_talks s p f).ten_close _).symm ▸ hd

theorem compareSeals_steps (s : State) (t : Nat) : Fixes (·.steps) s (s.compareSeals t) := by
  obtain h | ⟨u, b, k, -, h⟩ := compareSeals_cases s t
  · rw [h]; exact .refl s
  · rw [h]; exact (Fixes.of_keeps k).trans (.modTen (fun _ => rfl))

theorem compareTwin_steps (s : State) (t : Nat) : Fixes (·.steps) s (s.compareTwin t) := by
  obtain h | ⟨u, b, k, h⟩ := compareTwin_cases s t
  · rw [h]; exact .refl s
  · rw [h]; exact (Fixes.of_keeps k).trans (.modTen (fun _ => rfl))

theorem compareSeals_uncut {s : State} {t : Nat} (h : (s.ten t).close.cut = false) : s.compareSeals t = s := by
  unfold State.compareSeals
  dsimp only
  split
  · rfl
  · exact if_pos (by rw [h]; rfl)

theorem compareTwin_uncut {s : State} {t : Nat} (h : (s.ten t).close.cut = false) : s.compareTwin t = s := by
  unfold State.compareTwin
  dsimp only
  split
  · exact if_pos (by rw [h]; rfl)
  · rfl

/-- The seal values that a comparison compares: this chip's and those that came for its step. -/
def sealsFor (s : State) (t : Nat) (own : SealVal) : List SealVal := own :: (s.ten t).steps.sealGot.filter (fun v => v.step = (s.ten t).steps.step)

/-- More than half of the holders have one value, and the job's header has it reseat the others. -/
def majority (s : State) (t : Nat) (own : SealVal) : Prop :=
  3 ≤ boxN s t 0 ∧ bitB (BitVec.ofNat 8 (hdr s t 47 1)) 1 = true ∧
    (sealsFor s t own).any (fun x => decide (boxN s t 0 < 2 * ((sealsFor s t own).filter (fun u => u.same x)).length)) = true

theorem find_isSome_if {α : Type} {a : Prop} [Decidable a] {b : Bool} {l : List α} {p : α → Bool} :
    (if (decide a && b) = true then l.find? p else none).isSome = true ↔ a ∧ b = true ∧ l.any p = true := by
  split
  · next h => simp_all [List.find?_isSome]
  · next h => simp_all

section compareSeals

variable {s : State} {t : Nat} {own : SealVal} (hc : (s.ten t).close.cut = true) (hn : (s.ten t).close.sealCmp = false)
  (ho : (s.ten t).steps.sealSelf = some own) (hl : boxN s t 0 ≤ (sealsFor s t own).length)
include hc hn ho hl

/-- Seal values that all agree are counted, and the step stays sound. -/
theorem compareSeals_agree (h : (sealsFor s t own).all (fun v => v.same own) = true) :
    s.compareSeals t = (s.countTen t 0x2198 1).modTen t (fun n => { n with close := { n.close with sealCmp := true } }) := by
  unfold State.compareSeals
  dsimp only
  rw [ho]
  dsimp only
  rw [if_neg (by simpa [hc, hn, sealsFor] using hl)]
  exact if_pos h

/-- Seal values that differ are counted, and the step is bad: reseated where a majority agrees, and else rolled back. -/
theorem compareSeals_differ (h : (sealsFor s t own).all (fun v => v.same own) = false) :
    ∃ (u : State) (path : BitVec 3) (odd : Bool), Keeps [.mgmt] (s.countTen t 0x21A0 1) u ∧ (majority s t own → path = 2) ∧
      (¬ majority s t own → path = 3) ∧ s.compareSeals t = u.modTen t (fun n => { n with close := { n.close with sealCmp := true, sealPath := path, odd := odd } }) := by
  unfold State.compareSeals
  dsimp only
  rw [ho]
  dsimp only
  rw [if_neg (by simpa [hc, hn, sealsFor] using hl), if_neg (by rw [Bool.not_eq_true]; exact h)]
  exact ⟨_, _, _, State.dayTen_keeps (Keeps.refl _ _) (by decide), fun hm => if_pos (find_isSome_if.2 hm),
    fun hm => if_neg (fun hs => hm (find_isSome_if.1 hs)), rfl⟩

end compareSeals

/-- Whether a home's record differs between two chips' values. -/
def differs (a b : SealVal) (r : Nat × FoldRec) : Prop :=
  isTwinHome r.2.record = true ∧ (nth a.digests 0 r.1 ≠ nth b.digests 0 r.1 ∨ nth a.counts 0 r.1 ≠ nth b.counts 0 r.1)

theorem filter_map_filter_ne_nil {α : Type} {l : List (Nat × α)} {p : Nat × α → Bool} {q : Nat → Bool} :
    ((l.filter p).map (·.1)).filter q ≠ [] ↔ ∃ r ∈ l, p r = true ∧ q r.1 = true := by
  rw [ne_eq, List.filter_eq_nil_iff]
  simp only [not_forall, List.mem_map, List.mem_filter]
  constructor
  · rintro ⟨_, ⟨r, ⟨hr, hp⟩, rfl⟩, hq⟩
    exact ⟨r, hr, hp, by simpa using hq⟩
  · rintro ⟨r, hr, hp, hq⟩
    exact ⟨r.1, ⟨r, ⟨hr, hp⟩, rfl⟩, by simpa using hq⟩

/-- Twin values compared: the step is bad where a home's record differs. -/
theorem compareTwin_made {s : State} {t : Nat} {own v : SealVal} (hc : (s.ten t).close.cut = true) (hn : (s.ten t).close.twinCmp = false)
    (ho : (s.ten t).steps.twinSelf = some own) (hv : (s.ten t).steps.twinGot.find? (fun v => v.step = (s.ten t).steps.step) = some v) :
    ((s.compareTwin t).ten t).close.twinCmp = true ∧
      (((s.compareTwin t).ten t).close.twinBad = true ↔ ∃ r ∈ (s.ten t).steps.twins, differs own v r) := by
  unfold State.compareTwin
  dsimp only
  rw [ho, hv]
  dsimp only
  rw [if_neg (by simp [hc, hn]), State.ten_modTen]
  refine ⟨rfl, decide_eq_true_iff.trans (filter_map_filter_ne_nil.trans ?_)⟩
  simp only [differs, Bool.or_eq_true, decide_eq_true_eq]

/-- The values of a frame of the step are the first to come for it. -/
theorem find_append_only {α : Type} {l : List α} {a : α} {p : α → Bool} (h : ∀ x ∈ l, p x = false) (ha : p a = true) : (l ++ [a]).find? p = some a := by
  rw [List.find?_append, List.find?_eq_none.2 (fun x hx => by rw [h x hx]; simp)]
  simp [ha]

section keeps

variable (s : State) (p : Port) (f : Frame) (v : SealVal)

theorem keepSeal_ten : ((s.ctlIn p f).keepSeal f.ten.toNat v).ten f.ten.toNat =
    { (s.ctlIn p f).ten f.ten.toNat with steps := { ((s.ctlIn p f).ten f.ten.toNat).steps with
      sealGot := ((s.ctlIn p f).ten f.ten.toNat).steps.sealGot ++ [v] } } := State.ten_modTen _ _ _

theorem keepTwin_ten : ((s.ctlIn p f).keepTwin f.ten.toNat v).ten f.ten.toNat =
    { (s.ctlIn p f).ten f.ten.toNat with steps := { ((s.ctlIn p f).ten f.ten.toNat).steps with
      twinGot := ((s.ctlIn p f).ten f.ten.toNat).steps.twinGot ++ [v] } } := State.ten_modTen _ _ _

theorem keepSeal_steps : (((s.ctlIn p f).keepSeal f.ten.toNat v).ten f.ten.toNat).steps =
    { (s.ten f.ten.toNat).steps with sealGot := (s.ten f.ten.toNat).steps.sealGot ++ [v] } := by
  rw [keepSeal_ten, (ctlIn_talks s p f).ten_steps]

theorem keepTwin_steps : (((s.ctlIn p f).keepTwin f.ten.toNat v).ten f.ten.toNat).steps =
    { (s.ten f.ten.toNat).steps with twinGot := (s.ten f.ten.toNat).steps.twinGot ++ [v] } := by
  rw [keepTwin_ten, (ctlIn_talks s p f).ten_steps]

theorem keepSeal_close : (((s.ctlIn p f).keepSeal f.ten.toNat v).ten f.ten.toNat).close = (s.ten f.ten.toNat).close := by
  rw [keepSeal_ten]
  exact (ctlIn_talks s p f).ten_close _

theorem keepTwin_close : (((s.ctlIn p f).keepTwin f.ten.toNat v).ten f.ten.toNat).close = (s.ten f.ten.toNat).close := by
  rw [keepTwin_ten]
  exact (ctlIn_talks s p f).ten_close _

theorem keepSeal_hdr (a k : Nat) : hdr ((s.ctlIn p f).keepSeal f.ten.toNat v) f.ten.toNat a k = hdr s f.ten.toNat a k := by
  unfold hdr
  rw [keepSeal_ten, (ctlIn_talks s p f).ten_load]

theorem keepSeal_counter {o : Nat} (h : o < 0x10000) (h2 : o ≠ 0x2100) :
    ((s.ctlIn p f).keepSeal f.ten.toNat v).counter (tenOff f.ten.toNat o) = s.counter (tenOff f.ten.toNat o) := ctlIn_counts s p f h h2 rfl

end keeps

/-- The seal values of a frame kept and compared, with those of every chip there. -/
theorem seals_compared {s : State} {p : Port} {f : Frame} {v own : SealVal} (hc : (s.ten f.ten.toNat).close.cut = true)
    (hn : (s.ten f.ten.toNat).close.sealCmp = false) (ho : (s.ten f.ten.toNat).steps.sealSelf = some own) :
    let n := f.ten.toNat
    let t := ((s.ctlIn p f).keepSeal n v).compareSeals n
    let st := (s.ten n).steps
    let vs := own :: (st.sealGot ++ [v]).filter (fun x => x.step = st.step)
    boxN s n 0 ≤ vs.length → (t.ten n).close.sealCmp = true ∧
      (vs.all (fun x => x.same own) = true → (t.ten n).close.sealPath = (s.ten n).close.sealPath ∧ counted s t (tenOff n 0x2198)) ∧
      (vs.all (fun x => x.same own) = false → counted s t (tenOff n 0x21A0) ∧ (t.ten n).close.sealPath =
        (if 3 ≤ boxN s n 0 ∧ bitB (BitVec.ofNat 8 (hdr s n 47 1)) 1 = true ∧
            vs.any (fun x => decide (boxN s n 0 < 2 * (vs.filter (fun u => u.same x)).length)) = true then 2 else 3)) := by
  intro n t st vs hlen
  have hvs : sealsFor ((s.ctlIn p f).keepSeal n v) n own = vs := by unfold sealsFor; rw [keepSeal_steps]
  have hbox : boxN ((s.ctlIn p f).keepSeal n v) n 0 = boxN s n 0 := keepSeal_hdr s p f v _ _
  have hc' : (((s.ctlIn p f).keepSeal n v).ten n).close.cut = true := by rw [keepSeal_close]; exact hc
  have hn' : (((s.ctlIn p f).keepSeal n v).ten n).close.sealCmp = false := by rw [keepSeal_close]; exact hn
  have ho' : (((s.ctlIn p f).keepSeal n v).ten n).steps.sealSelf = some own := by rw [keepSeal_steps]; exact ho
  have hl' : boxN ((s.ctlIn p f).keepSeal n v) n 0 ≤ (sealsFor ((s.ctlIn p f).keepSeal n v) n own).length := by rw [hvs, hbox]; exact hlen
  have hmaj : majority ((s.ctlIn p f).keepSeal n v) n own ↔ 3 ≤ boxN s n 0 ∧ bitB (BitVec.ofNat 8 (hdr s n 47 1)) 1 = true ∧
      vs.any (fun x => decide (boxN s n 0 < 2 * (vs.filter (fun u => u.same x)).length)) = true := by
    unfold majority
    rw [hvs, hbox, keepSeal_hdr]
  cases ha : vs.all (fun x => x.same own) with
  | true =>
    have e : t = _ := compareSeals_agree hc' hn' ho' hl' (by rw [hvs]; exact ha)
    rw [e]
    refine ⟨by rw [State.ten_modTen], fun _ => ⟨?_, ?_⟩, fun h => nomatch h⟩
    · have e2 := congrArg Close.sealPath (keepSeal_close s p f v)
      rw [State.ten_modTen]
      exact e2
    · exact counted.of_eq (counted_count _ _) (keepSeal_counter s p f v (by omega) (by omega)) rfl
  | false =>
    obtain ⟨u, path, odd, hk, h2, h3, e⟩ := compareSeals_differ hc' hn' ho' hl' (by rw [hvs]; exact ha)
    have e : t = _ := e
    rw [e]
    refine ⟨by rw [State.ten_modTen], fun h => (nomatch h), fun _ => ⟨?_, ?_⟩⟩
    · exact counted.of_eq (counted_count _ _) (keepSeal_counter s p f v (by omega) (by omega)) (hk.counter_eq _)
    · rw [State.ten_modTen]
      split
      · next hm => exact h2 (hmaj.2 hm)
      · next hm => exact h3 (fun h => hm (hmaj.1 h))

/-- Settles O41: the frame's values are kept, and compared once the cut is made. -/
theorem sealsAndTwins : Obligations.SealsAndTwins := by
  unfold Obligations.SealsAndTwins
  intro p f s hl hd
  have ht := ctlIn_talks s p f
  have hk := (ctlIn_keeps s p f).mono (ws := [.tens, .counters, .fabric, .mgmt, .power]) (by decide)
  dsimp only
  refine ⟨fun h => ⟨_, exec_seals h hl hd, State.compareSeals_keeps (State.modTen_keeps hk (by decide)) (by decide), ?_, fun hc => ?_,
      fun own hc hn ho hlen => ?_⟩,
    fun h => ⟨_, exec_twin h hl hd, State.compareTwin_keeps (State.modTen_keeps hk (by decide)) (by decide), ?_, fun hc => ?_,
      fun own hc hn ho hv hx => ?_⟩⟩
  · exact (congrArg Steps.sealGot (compareSeals_steps _ _ _)).trans (congrArg Steps.sealGot (keepSeal_steps s p f _))
  · rw [compareSeals_uncut (by rw [keepSeal_close]; exact hc)]
    exact becomes.modTen ht (commutes_of (fun _ _ _ _ => rfl))
  · obtain ⟨h1, h2, h3⟩ := seals_compared (p := p) hc hn ho hlen
    exact ⟨h1, fun ha => ⟨(h2 ha).1, fun _ => (h2 ha).2⟩, fun ha => ⟨fun _ => (h3 ha).1, (h3 ha).2⟩⟩
  · exact (congrArg Steps.twinGot (compareTwin_steps _ _ _)).trans (congrArg Steps.twinGot (keepTwin_steps s p f _))
  · rw [compareTwin_uncut (by rw [keepTwin_close]; exact hc)]
    exact becomes.modTen ht (commutes_of (fun _ _ _ _ => rfl))
  · have hm := compareTwin_made (s := (s.ctlIn p f).keepTwin f.ten.toNat (sealOfWords f (f.payload.map (fun w => (decodeWord w).w))))
      (t := f.ten.toNat) (own := own) (v := sealOfWords f (f.payload.map (fun w => (decodeWord w).w))) (by rw [keepTwin_close]; exact hc)
      (by rw [keepTwin_close]; exact hn) (by rw [keepTwin_steps]; exact ho)
      (by rw [keepTwin_steps]; exact find_append_only (fun x hm => decide_eq_false (hx x hm)) (decide_eq_true hv))
    rw [keepTwin_steps] at hm
    exact hm

end Sys2Proof.Machine
end

section
/-! SUPPORT. The parcels of channels: what frames sent leave of the flows received, data parcels and collective parcels
(13 R346, R347, R350; 14 R367, R369, R376, R379). -/

namespace Sys2Proof.Machine

open Sys2Proof Sys2Proof.Claims

set_option Elab.async false

/-! ### What frames sent leave of what is received -/

/-- Every flow expects the frame that it did, and every channel has the parcels that it had. -/
def Hears (s t : State) : Prop :=
  (∀ k, (look t.fabric.recvs {} k).expected = (look s.fabric.recvs {} k).expected ∧ (look t.fabric.recvs {} k).nakSent = (look s.fabric.recvs {} k).nakSent) ∧
  (∀ k, (look t.fabric.chans {} k).written = (look s.fabric.chans {} k).written ∧ (look t.fabric.chans {} k).early = (look s.fabric.chans {} k).early)

section Hears

variable {s t u : State}

theorem Hears.refl (s : State) : Hears s s := ⟨fun _ => ⟨rfl, rfl⟩, fun _ => ⟨rfl, rfl⟩⟩

theorem Hears.trans (h : Hears s t) (k : Hears t u) : Hears s u :=
  ⟨fun x => ⟨(k.1 x).1.trans (h.1 x).1, (k.1 x).2.trans (h.1 x).2⟩, fun x => ⟨(k.2 x).1.trans (h.2 x).1, (k.2 x).2.trans (h.2 x).2⟩⟩

theorem Hears.of_eq (hr : t.fabric.recvs = s.fabric.recvs) (hc : t.fabric.chans = s.fabric.chans) : Hears s t := by
  unfold Hears
  rw [hr, hc]
  exact Hears.refl s

theorem Hears.of_keeps {vs : List View} (k : Keeps vs s t) (h : View.fabric ∉ vs := by decide) : Hears s t := by
  have e := k.eq_fabric h
  exact .of_eq (by rw [e]) (by rw [e])

theorem Hears.ite {c : Prop} [Decidable c] (ha : Hears s t) (hb : Hears s u) : Hears s (if c then t else u) := by
  split <;> assumption

theorem Hears.foldl {α : Type} {l : List α} {f : State → α → State} (h : Hears s t) (hf : ∀ v a, Hears v (f v a)) : Hears s (l.foldl f t) := by
  induction l generalizing t with
  | nil => exact h
  | cons a r ih => exact ih (h.trans (hf t a))

theorem Hears.expected (h : Hears s t) (n ch peer : Nat) : (recvOf t n ch peer).expected = (recvOf s n ch peer).expected := (h.1 _).1
theorem Hears.nakSent (h : Hears s t) (n ch peer : Nat) : (recvOf t n ch peer).nakSent = (recvOf s n ch peer).nakSent := (h.1 _).2
theorem Hears.written (h : Hears s t) (n ch : Nat) : (chanOf t n ch).written = (chanOf s n ch).written := (h.2 _).1
theorem Hears.early (h : Hears s t) (n ch : Nat) : (chanOf t n ch).early = (chanOf s n ch).early := (h.2 _).2

end Hears

theorem setSend_hears (s : State) (t ch peer : Nat) (f : SendFlow) : Hears s (s.setSend t ch peer f) := .of_eq rfl rfl

theorem setRecv_hears {s : State} {t ch peer : Nat} {r : RecvFlow} (he : r.expected = (recvOf s t ch peer).expected)
    (hn : r.nakSent = (recvOf s t ch peer).nakSent) : Hears s (s.setRecv t ch peer r) := by
  refine ⟨fun k => ?_, fun _ => ⟨rfl, rfl⟩⟩
  by_cases e : k = flowKey t ch peer
  · subst e
    unfold State.setRecv
    rw [look_put]
    exact ⟨he, hn⟩
  · unfold State.setRecv
    rw [look_put_ne _ _ _ e]
    exact ⟨rfl, rfl⟩

theorem modChan_hears (s : State) (t ch : Nat) {f : ChanSt → ChanSt} (h : ∀ k, (f k).written = k.written ∧ (f k).early = k.early) :
    Hears s (s.modChan t ch f) := by
  refine ⟨fun _ => ⟨rfl, rfl⟩, fun k => ?_⟩
  by_cases e : k = chanKey t ch
  · subst e
    unfold State.modChan
    rw [look_put]
    exact h _
  · unfold State.modChan
    rw [look_put_ne _ _ _ e]
    exact ⟨rfl, rfl⟩

theorem backNow_hears (k : ChanSt) (now c : Nat) (l : List Nat) : (k.backNow now c l).written = k.written ∧ (k.backNow now c l).early = k.early := by
  unfold ChanSt.backNow
  split <;> exact ⟨rfl, rfl⟩

theorem emitFrame_hears (s : State) (p : Port) (f : Frame) : Hears s (s.emitFrame p f) := by
  obtain ⟨o, h⟩ := emitFrame_fabric s p f
  exact .of_eq (by rw [h]) (by rw [h])

theorem transmit_hears (s : State) (t ch peer : Nat) (u : Unacked) : Hears s (s.transmit t ch peer u) := by
  unfold State.transmit
  refine Hears.trans ?_ (emitFrame_hears _ _ _)
  exact setRecv_hears rfl rfl

theorem sendNow_hears (s : State) (t ch peer : Nat) (h : Held) : Hears s (s.sendNow t ch peer h) := by
  unfold State.sendNow
  refine Hears.trans ?_ (transmit_hears _ _ _ _ _)
  exact .ite (setSend_hears _ _ _ _ _) ((setSend_hears _ _ _ _ _).trans (modChan_hears _ _ _ (fun _ => ⟨rfl, rfl⟩)))

theorem push_hears (s : State) (t ch peer : Nat) (h : Held) : Hears s (s.push t ch peer h) := by
  unfold State.push
  exact .ite (sendNow_hears _ _ _ _ _) (setSend_hears _ _ _ _ _)

theorem pump_hears (s : State) (t ch peer : Nat) : Hears s (s.pump t ch peer) := by
  unfold State.pump
  exact .foldl (setSend_hears _ _ _ _ _) (fun u a => sendNow_hears u _ _ _ _)

theorem acked_hears (s : State) (t ch peer : Nat) (a : BitVec 24) : Hears s (s.acked t ch peer a) := by
  unfold State.acked
  dsimp only
  split
  · exact .refl s
  · refine .ite (.refl s) (Hears.trans ?_ (pump_hears _ _ _ _))
    exact .ite (setSend_hears _ _ _ _ _) ((setSend_hears _ _ _ _ _).trans (modChan_hears _ _ _ (fun k => backNow_hears k _ _ _)))

theorem sendStaged_hears (s : State) (t ch : Nat) (is : List Nat) : Hears s (s.sendStaged t ch is) := by
  unfold State.sendStaged
  exact .foldl (modChan_hears _ _ _ (fun _ => ⟨rfl, rfl⟩)) (fun u a => push_hears u _ _ _ _)

theorem endStall_hears (s : State) (t : Nat) (p : Stall → Bool) : Hears s (s.endStall t p) := .of_eq rfl rfl

theorem credited_hears (s : State) (t ch n : Nat) : Hears s (s.credited t ch n) := by
  unfold State.credited
  have hm : Hears s (s.modChan t ch (fun k => k.backNow s.now n [])) := modChan_hears _ _ _ (fun k => backNow_hears k _ _ _)
  exact .ite (.refl s) (.ite ((hm.trans (endStall_hears _ _ _)).trans (sendStaged_hears _ _ _ _)) hm)

theorem takeBack_hears (s : State) (t : Nat) (f : Frame) : Hears s (s.takeBack t f) := by
  unfold State.takeBack
  have h : Hears s (if f.ackv then s.acked t f.chan.toNat f.src.toNat f.ack else s) := .ite (acked_hears _ _ _ _ _) (.refl s)
  exact .ite (h.trans (credited_hears _ _ _ _)) h

/-! ### A frame accepted -/

section accept

variable (s : State) (p : Port) (f : Frame)

/-- The flow of a frame accepted expects the frame after it. -/
theorem flowOf_accept : (flowOf (s.accept p f) f).expected = (flowOf s f).expected + 1 ∧ (flowOf (s.accept p f) f).nakSent = false := by
  have h := takeBack_hears (((s.arrive p f).setRecv f.ten.toNat f.chan.toNat f.src.toNat
    { expected := (flowOf s f).expected + 1, nakSent := false, owes := true, port := p }).countTen f.ten.toNat 0x2100 1) f.ten.toNat f
  refine ⟨(h.expected _ _ _).trans ?_, (h.nakSent _ _ _).trans ?_⟩
  · exact congrArg RecvFlow.expected (look_put _ _ _ _)
  · exact congrArg RecvFlow.nakSent (look_put _ _ _ _)

/-- The parcels of every channel are those that it had. -/
theorem accept_chan (n ch : Nat) : (chanOf (s.accept p f) n ch).written = (chanOf s n ch).written ∧
    (chanOf (s.accept p f) n ch).early = (chanOf s n ch).early := by
  have h := takeBack_hears (((s.arrive p f).setRecv f.ten.toNat f.chan.toNat f.src.toNat
    { expected := (flowOf s f).expected + 1, nakSent := false, owes := true, port := p }).countTen f.ten.toNat 0x2100 1) f.ten.toNat f
  have e : ∀ m, look (s.arrive p f).fabric.chans {} m = look s.fabric.chans {} m := fun m => by rw [(arrive_keeps s p f).eq_fabric]
  refine ⟨(h.written n ch).trans ?_, (h.early n ch).trans ?_⟩
  · exact congrArg ChanSt.written (e _)
  · exact congrArg ChanSt.early (e _)

theorem decodePayload_hears (ws : List MemWord) : Hears s (s.decodePayload p ws).1 :=
  .of_keeps (State.decodePayload_keeps (vs := [.counters]) (Keeps.refl _ _) (by decide))

end accept

/-! ### Data parcels -/

theorem Talks.ten_def (h : Talks s t) (n : Nat) : (t.ten n).def_ = (s.ten n).def_ := Fixes.of_talks (π := (·.def_)) h (fun _ _ _ _ => rfl) n

theorem Talks.records_eq {s t : State} (h : Talks s t) : t.fabric.records = s.fabric.records := by
  obtain ⟨-, hf⟩ := h
  unfold Fabric.talks at hf
  rw [hf]

theorem Talks.chanRec_eq {s t : State} (h : Talks s t) (n ch : Nat) : chanRec t n ch = chanRec s n ch := by
  unfold chanRec partOf
  rw [h.ten_def, h.records_eq]

theorem Talks.chanCore_eq {s t : State} (h : Talks s t) (n : Nat) (r : BitVec 128) : chanCore t n r = chanCore s n r := by
  unfold chanCore
  rw [h.ten_def]

/-- Words written into consecutive places of a mailbox, from the `k`-th on, read as they were written. -/
theorem rawWord_mbox_run (c : Core) (a i : Nat) : ∀ (ws : List MemWord) (k : Nat) (s : State),
    rawWord ((ws.zipIdx k).foldl (fun (u : State) (w : MemWord × Nat) => u.writeWord (.mbox c) (a + w.2) w.1) s) (.mbox c) (a + i) =
      if k ≤ i ∧ i < k + ws.length then nth ws MemWord.zero (i - k) else rawWord s (.mbox c) (a + i)
  | [], k, s => by
    rw [if_neg (by simp)]
    rfl
  | w :: ws, k, s => by
    have hw : rawWord (s.writeWord (.mbox c) (a + k) w) (.mbox c) (a + i) = if i = k then w else rawWord s (.mbox c) (a + i) := by
      unfold rawWord State.writeWord
      dsimp only
      rw [memGet_memPut]
      exact if_congr (by unfold mboxKey; omega) rfl rfl
    rw [List.zipIdx_cons, List.foldl_cons, rawWord_mbox_run c a i ws (k + 1), hw]
    by_cases hi : i = k
    · subst hi
      rw [if_neg (by omega), if_pos rfl, if_pos (by simp), Nat.sub_self]
      rfl
    · rw [if_neg hi]
      by_cases hr : k + 1 ≤ i ∧ i < k + 1 + ws.length
      · obtain ⟨j, rfl⟩ : ∃ j, i = k + 1 + j := ⟨i - (k + 1), by omega⟩
        rw [if_pos hr, if_pos (by simp; omega), Nat.add_sub_cancel_left, show k + 1 + j - k = j + 1 by omega]
        rfl
      · rw [if_neg hr, if_neg (by simp; omega)]

/-- The counters of the cores' hallmarks (12 R331, R332). -/
def onHall (o : Nat) : Prop := ∃ p, o = coreOff p 0x230 ∨ o = coreOff p 0x228

theorem not_onHall_tenOff (n : Nat) : ¬ onHall (tenOff n 0x2100) := by
  rintro ⟨p, h | h⟩ <;> (unfold tenOff coreOff at h; omega)

/-- No word of a mailbox changes, and no counter but those of hallmarks. -/
def OnlyHalls (s t : State) : Prop := t.cores.mbox = s.cores.mbox ∧ CountsIn onHall s t

theorem OnlyHalls.refl (s : State) : OnlyHalls s s := ⟨rfl, .refl s⟩

theorem OnlyHalls.trans {s t u : State} (h : OnlyHalls s t) (k : OnlyHalls t u) : OnlyHalls s u := ⟨k.1.trans h.1, h.2.trans k.2⟩

theorem OnlyHalls.ite {s t u : State} {c : Prop} [Decidable c] (ha : OnlyHalls s t) (hb : OnlyHalls s u) : OnlyHalls s (if c then t else u) := by
  split <;> assumption

theorem writeHall_onlyHalls (s : State) (c : Core) (a : Nat) (h : BitVec 64) : OnlyHalls s (s.writeHall (.mbox c) a h) := ⟨rfl, .of_eq rfl⟩

theorem landHall_onlyHalls (s : State) (t ch a : Nat) (f : Frame) (ws : List MemWord) : OnlyHalls s (s.landHall t ch a f ws) := by
  have hn (u : State) (c : Core) : OnlyHalls u (u.countCore c 0x230 1) := ⟨rfl, .count ⟨phys u c, .inl rfl⟩⟩
  have hc (u : State) (c : Core) : OnlyHalls u (u.countCore c 0x228 1) := ⟨rfl, .count ⟨phys u c, .inr rfl⟩⟩
  have hd (u : State) (c : Core) (x y z : Nat) (code : BitVec 8) : OnlyHalls u (u.dayCore c 11 code 0 x y z) :=
    have k : Keeps [.mgmt] u (u.dayCore c 11 code 0 x y z) := State.dayCore_keeps (Keeps.refl _ _) (by decide)
    ⟨congrArg Cores.mbox k.eq_cores, .of_keeps k⟩
  unfold State.landHall
  dsimp only
  split
  · exact OnlyHalls.trans (.ite (hn _ _) (.ite ((hd _ _ _ _ _ _).trans (hc _ _)) (.refl s))) (writeHall_onlyHalls _ _ _ _)
  · exact List.foldlRecOn _ _ (motive := OnlyHalls s) (.refl s) (fun u hu _ _ => hu.trans (writeHall_onlyHalls u _ _ _))

/-- A data parcel of the channel's receive peer is accepted and lands. -/
theorem exec_dataParcel {p : Port} {f : Frame} {s : State} (hp : passes p f s) (hs : f.seq = (flowOf s f).expected) (hk : f.kind = 0)
    (hv : recValid (chanRec s f.ten.toNat f.chan.toNat) = true) (hr : recRslots (chanRec s f.ten.toNat f.chan.toNat) ≠ 0)
    (hpeer : recvPeer s f.ten.toNat (chanRec s f.ten.toNat f.chan.toNat) = f.src.toNat) :
    exec (.dataParcel p f) s = .next ((s.accept p f).landParcel p f) := by
  change execDataParcel p f s = _
  unfold execDataParcel
  dsimp only
  rw [receive_accepts hp (by simp [hk]) (by simp [hv, hr, hpeer]) hs, if_pos rfl]

/-- The parcel of a stopped tenancy is only decoded. -/
theorem landParcel_stopped {s : State} {p : Port} {f : Frame} (h : (s.ten f.ten.toNat).course.stopped = true) : s.landParcel p f = (s.decodePayload p f.payload).1 := by
  unfold State.landParcel
  dsimp only
  rw [if_pos]
  rw [(decodePayload_talks s p f.payload).ten_stopped]
  exact h

/-- Where a channel's next parcel goes. -/
def slotAt (s : State) (n ch : Nat) : Nat :=
  recRbase (chanRec s n ch) + ((chanOf s n ch).written % recRslots (chanRec s n ch)) * recWords (chanRec s n ch)

def slotCore (s : State) (n ch : Nat) : Core := Fin.ofNat 64 (chanCore s n (chanRec s n ch))

/-- The words of a parcel, as its receiver decodes them, up to its channel's slot. -/
def slotWords (s : State) (n ch : Nat) (f : Frame) : List MemWord := (f.payload.map (fun w => (decodeWord w).w)).take (recWords (chanRec s n ch))

/-- A parcel's words and its hallmark written. -/
def State.putParcel (s : State) (p : Port) (f : Frame) : State :=
  let n := f.ten.toNat
  let ch := f.chan.toNat
  (((slotWords s n ch f).zipIdx.foldl (fun (u : State) (w : MemWord × Nat) => u.writeWord (.mbox (slotCore s n ch)) (slotAt s n ch + w.2) w.1)
    (s.decodePayload p f.payload).1).landHall n ch (slotAt s n ch) f (slotWords s n ch f)).modChan n ch (fun k => { k with written := k.written + 1 })

theorem landParcel_running {s : State} {p : Port} {f : Frame} (h : (s.ten f.ten.toNat).course.stopped = false) :
    ∃ q, s.landParcel p f = (s.putParcel p f).endStall f.ten.toNat q := by
  have hk : Keeps [.counters] s (s.decodePayload p f.payload).1 := State.decodePayload_keeps (Keeps.refl _ _) (by decide)
  have hc : chanOf (s.decodePayload p f.payload).1 f.ten.toNat f.chan.toNat = chanOf s f.ten.toNat f.chan.toNat := by
    unfold chanOf
    rw [hk.eq_fabric]
  unfold State.landParcel
  dsimp only
  rw [if_neg (by rw [hk.ten_eq, h]; exact Bool.false_ne_true), hc, decodePayload_words]
  exact ⟨_, rfl⟩

section putParcel

variable (s : State) (p : Port) (f : Frame)

/-- A parcel written: each word of its slot is the one that came. -/
theorem putParcel_word {i : Nat} (h : i < f.payload.length) (hw : i < recWords (chanRec s f.ten.toNat f.chan.toNat)) :
    rawWord (s.putParcel p f) (.mbox (slotCore s f.ten.toNat f.chan.toNat)) (slotAt s f.ten.toNat f.chan.toNat + i) =
      (decodeWord (nth f.payload MemWord.zero i)).w := by
  unfold State.putParcel
  dsimp only
  change memGet (State.cores (State.landHall _ _ _ _ _ _)).mbox _ = _
  rw [(landHall_onlyHalls _ _ _ _ _ _).1]
  refine (rawWord_mbox_run _ _ i _ 0 _).trans ?_
  rw [if_pos ⟨Nat.zero_le _, by unfold slotWords; simp; omega⟩, Nat.sub_zero]
  unfold nth slotWords
  rw [List.getD_eq_getElem?_getD, List.getD_eq_getElem?_getD, List.getElem?_take_of_lt hw, List.getElem?_map, List.getElem?_eq_getElem h]
  rfl

theorem putParcel_counts : CountsIn (fun o => onDecode o ∨ onHall o) s (s.putParcel p f) := by
  unfold State.putParcel
  dsimp only
  refine .trans ?_ (modChan_counts _ _ _ _)
  refine .trans ?_ ((landHall_onlyHalls _ _ _ _ _ _).2.mono (fun _ => .inr))
  exact .foldl ((decodePayload_counts _ _ _).mono (fun _ => .inl)) (fun u w => .of_eq rfl)

theorem putParcel_fabric : (s.putParcel p f).fabric.recvs = s.fabric.recvs ∧
    (chanOf (s.putParcel p f) f.ten.toNat f.chan.toNat).written = (chanOf s f.ten.toNat f.chan.toNat).written + 1 := by
  have hd : Keeps [.cs, .mbox, .hall, .words, .counters, .mgmt] s (s.decodePayload p f.payload).1 :=
    State.decodePayload_keeps (Keeps.refl _ _) (by decide)
  have hk (l : List (MemWord × Nat)) (c : Core) (a : Nat) : Keeps [.cs, .mbox, .hall, .words, .counters, .mgmt] s
      ((l.foldl (fun (u : State) (w : MemWord × Nat) => u.writeWord (.mbox c) (a + w.2) w.1) (s.decodePayload p f.payload).1).landHall
        f.ten.toNat f.chan.toNat (slotAt s f.ten.toNat f.chan.toNat) f (slotWords s f.ten.toNat f.chan.toNat f)) :=
    State.landHall_keeps (.foldl hd (fun u w hu => State.writeWord_keeps hu (by decide))) (by decide)
  have he := (hk ((slotWords s f.ten.toNat f.chan.toNat f).zipIdx) (slotCore s f.ten.toNat f.chan.toNat) (slotAt s f.ten.toNat f.chan.toNat)).eq_fabric
  have hr := congrArg Fabric.recvs he
  have hc := congrArg (fun x : Fabric => (look x.chans {} (chanKey f.ten.toNat f.chan.toNat)).written + 1) he
  exact ⟨hr, (congrArg ChanSt.written (look_put _ _ _ _)).trans hc⟩

end putParcel

theorem not_onDecode_tenOff (n o : Nat) : ¬ onDecode (tenOff n o) := by
  rintro (h | h)
  · exact not_onPort_tenOff n o h
  · unfold tenOff chipOff at h; omega

/-- Settles O29: the parcel is accepted, and a tenancy that has not stopped has it written. -/
theorem dataParcelLands : Obligations.DataParcelLands := by
  unfold Obligations.DataParcelLands
  intro p f s hp hs hkind
  dsimp only
  intro hv hr hpeer
  have hx := exec_dataParcel hp hs hkind hv hr hpeer
  have ht := accept_talks s p f
  have hstop := ht.ten_stopped f.ten.toNat
  obtain ⟨he, hn⟩ := flowOf_accept s p f
  have hkeep : Keeps [.cs, .mbox, .hall, .words, .tens, .counters, .fabric, .mgmt, .power] s ((s.accept p f).landParcel p f) :=
    State.landParcel_keeps ((accept_keeps s p f).mono (by decide)) (by decide)
  refine ⟨_, hx, ?_⟩
  cases hst : (s.ten f.ten.toNat).course.stopped with
  | true =>
    rw [landParcel_stopped (hstop.trans hst)] at hkeep ⊢
    have hd := decodePayload_hears (s.accept p f) p f.payload
    have hk : Keeps ctlViews s ((s.accept p f).decodePayload p f.payload).1 := State.decodePayload_keeps (accept_keeps s p f) (by decide)
    exact ⟨((hd.expected _ _ _).trans he).trans (by rw [hs]), (hd.nakSent _ _ _).trans hn, fun h => (nomatch h),
      fun _ => ⟨hk.eq_cores, hk.eq_hbm, (hd.written _ _).trans (accept_chan s p f _ _).1⟩,
      counted.within (accept_counted s p f) (CountsIn.refl (P := fun _ => False) s) (decodePayload_counts _ _ _) id
        (not_onDecode_tenOff _ _), hkeep⟩
  | false =>
    obtain ⟨q, hq⟩ := landParcel_running (p := p) (hstop.trans hst)
    rw [hq] at hkeep ⊢
    obtain ⟨hfr, hfw⟩ := putParcel_fabric (s.accept p f) p f
    have hrecv : flowOf (((s.accept p f).putParcel p f).endStall f.ten.toNat q) f = flowOf (s.accept p f) f :=
      congrArg (fun m : Sparse RecvFlow => look m {} (flowKey f.ten.toNat f.chan.toNat f.src.toNat)) hfr
    have hslot : slotAt (s.accept p f) f.ten.toNat f.chan.toNat = slotAt s f.ten.toNat f.chan.toNat := by
      unfold slotAt
      rw [ht.chanRec_eq, (accept_chan s p f _ _).1]
    have hcore : slotCore (s.accept p f) f.ten.toNat f.chan.toNat = slotCore s f.ten.toNat f.chan.toNat := by
      unfold slotCore
      rw [ht.chanRec_eq, ht.chanCore_eq]
    refine ⟨by rw [hrecv, he, hs], by rw [hrecv, hn], fun _ => ⟨fun i hi hw => ?_, ?_⟩, fun h => (nomatch h), ?_, hkeep⟩
    · have hword := putParcel_word (s.accept p f) p f hi (by rw [ht.chanRec_eq]; exact hw)
      rw [hslot, hcore] at hword
      exact hword
    · exact hfw.trans (by rw [(accept_chan s p f _ _).1])
    · refine counted.within (accept_counted s p f) (CountsIn.refl (P := fun _ => False) s)
        ((putParcel_counts _ p f).trans (endStall_counts _ _ q)) id ?_
      rintro (h | h)
      · exact not_onDecode_tenOff _ _ h
      · exact not_onHall_tenOff _ h

end Sys2Proof.Machine
end

section
/-! SUPPORT. Collective parcels (14 R367, R369, R376, R379). -/

namespace Sys2Proof.Machine

open Sys2Proof Sys2Proof.Claims

set_option Elab.async false

/-- The result flags that a collective parcel's first word carries. -/
def resOf (h : BitVec 256) : BlockRes := ⟨bitsN h 57 50, bitB h 58, bitB h 59⟩

/-- The place that it names. -/
def keyOf (h : BitVec 256) : Nat := partKey (bitsN h 31 12) (bitsN h 33 32)

/-- A collective with a final parcel in its place. -/
def Coll.placed (k : Coll) (h : BitVec 256) (data : List MemWord) : Coll :=
  { k with
    parts := set k.parts (keyOf h) data
    res := put {} k.res (bitsN h 31 12) ((resOf h).merge (if k.op = 2 then {} else look k.res {} (bitsN h 31 12)))
    known := insertNew k.known (keyOf h) }

/-- A collective with a parcel combined with what it holds. -/
def Coll.joined (k : Coll) (h : BitVec 256) (data : List MemWord) : Coll :=
  { k with
    parts := set k.parts (keyOf h) (k.combine (look k.parts [] (keyOf h)) data)
    res := put {} k.res (bitsN h 31 12) ((look k.res {} (bitsN h 31 12)).merge (resOf h))
    counts := set k.counts (keyOf h) (look k.counts 0 (keyOf h) + 1) }

/-- A parcel's first word fits the collective: its number, pass, operation, shape, sender and anchor (14 R369, R374). -/
def fits (s : State) (n : Nat) (f : Frame) (k : Coll) (h : BitVec 256) : Prop :=
  bits h 92 61 = k.number ∧ bitB h 60 = k.redo ∧ bits h 3 0 = k.op ∧ bits h 5 4 = k.width ∧ bitsN h 116 93 = k.count ∧
    k.sends (bitB h 11) (relCoord s n f.src.toNat k.axis.toNat) (k.shareOf (bitsN h 31 12)) = true ∧
    (k.op = 0 ∨ k.op = 1 → bitsS h 49 34 = look k.anchors 0 (bitsN h 31 12))

/-- A reduce step changes no words and no counts of its collective. -/
theorem reduceOn_parts (s : State) (t ch : Nat) (k : Coll) (b i : Nat) :
    (s.reduceOn t ch k b i).2.parts = k.parts ∧ (s.reduceOn t ch k b i).2.counts = k.counts := by
  unfold State.reduceOn
  dsimp only
  repeat' split
  all_goals exact ⟨rfl, rfl⟩

/-- A parcel that fits is taken: sent on, and placed or combined. -/
theorem parcel_fits {s : State} {n ch : Nat} {f : Frame} {ws : List MemWord} {k : Coll} (hk : collOf s n ch = some k)
    (hf : fits s n f k (word0 ws)) (hu : Upset.adder ∉ s.upsets) :
    ∃ u k2, s.parcel n ch f ws = u.setColl n ch k2 ∧ Talks s u ∧ Keeps [.tens, .counters, .fabric, .power] s u ∧
      (bitB (word0 ws) 11 = true → k2 = k.placed (word0 ws) (ws.drop 1)) ∧
      (bitB (word0 ws) 11 = false → k2.parts = (k.joined (word0 ws) (ws.drop 1)).parts ∧ k2.counts = (k.joined (word0 ws) (ws.drop 1)).counts) := by
  obtain ⟨hnum, hredo, hop, hw, hc, hsend, ha⟩ := hf
  have hstrike (op : Nat) : s.adderStrike n ch op = s := if_neg hu
  unfold State.parcel
  dsimp only
  rw [hk]
  dsimp only
  rw [hnum, hredo, hop, hw, hc, hsend, if_neg (by cases k.redo <;> simp), if_neg (by simp), if_neg (by simpa using ha), hstrike]
  cases hb : bitB (word0 ws) 11 with
  | true =>
    rw [if_pos rfl]
    exact ⟨_, _, rfl, gatherOn_talks _ _ _ _ _ _ _, State.gatherOn_keeps (Keeps.refl _ _) (by decide), fun _ => rfl, fun h => (nomatch h)⟩
  | false =>
    rw [if_neg Bool.false_ne_true]
    refine ⟨_, _, rfl, (charge_talks _ _ _ _).trans (reduceOn_talks _ _ _ _ _ _), ?_, fun h => (nomatch h), fun _ => ?_⟩
    · exact State.reduceOn_keeps (State.charge_keeps (Keeps.refl _ _) (by decide)) (by decide)
    · exact reduceOn_parts _ n ch (k.joined (word0 ws) (ws.drop 1)) _ _

/-- A collective parcel from a partner, of a tenancy that has not stopped, is accepted and taken. -/
theorem exec_collectiveParcel {p : Port} {f : Frame} {s : State} (hp : passes p f s) (hs : f.seq = (flowOf s f).expected) (hb : collBad f = false)
    (hc : collPeer s f.ten.toNat f.chan.toNat f.src.toNat = true) (hst : (s.ten f.ten.toNat).course.stopped = false) :
    exec (.collectiveParcel p f) s =
      .next ((s.ctlIn p f).parcel f.ten.toNat f.chan.toNat f (f.payload.map (fun w => (decodeWord w).w))) := by
  have hbad : (decide (f.kind ≠ 8) || decide (bits (first f) 5 4 = (3 : BitVec 2)) ||
      decide (f.payload.length ≠ (if (decide (bits (first f) 3 0 = (0 : BitVec 4)) && decide (bits (first f) 5 4 = (1 : BitVec 2))) = true then 96 else 64) + 1)) = false := by
    unfold collBad at hb
    rw [← hb]
    split <;> rfl
  unfold first at hbad
  change execCollectiveParcel p f s = _
  unfold execCollectiveParcel
  dsimp only
  rw [receive_accepts hp hbad hc hs, if_pos rfl, decodePayload_words]
  dsimp only
  rw [if_neg]
  · rfl
  · have h := (ctlIn_talks s p f).ten_stopped f.ten.toNat
    rw [hst] at h
    exact (Bool.eq_false_iff.1 h)

theorem Talks.collOf_eq {s t : State} (h : Talks s t) (n ch : Nat) : collOf t n ch = collOf s n ch := by
  obtain ⟨-, hf⟩ := h
  unfold Fabric.talks at hf
  unfold collOf
  rw [hf]

theorem collOf_setColl (s : State) (n ch : Nat) (k : Coll) : collOf (s.setColl n ch k) n ch = some k := find_set _ _ _

theorem ctlIn_early (s : State) (p : Port) (f : Frame) (n ch : Nat) : (chanOf (s.ctlIn p f) n ch).early = (chanOf s n ch).early :=
  ((decodePayload_hears (s.accept p f) p f.payload).early n ch).trans (accept_chan s p f n ch).2

theorem mem_insertNew_self {α : Type} [DecidableEq α] (l : List α) (x : α) : x ∈ insertNew l x := by
  unfold insertNew
  split
  · assumption
  · simp

/-- Settles O30: a collective parcel waits for its collective, and else is placed or combined. -/
theorem collectiveParcelTaken : Obligations.CollectiveParcelTaken := by
  unfold Obligations.CollectiveParcelTaken
  intro p f s hp hs hb
  dsimp only
  intro hc hst
  have hx := exec_collectiveParcel hp hs hb hc hst
  have ht := ctlIn_talks s p f
  have hk := ctlIn_keeps s p f
  refine ⟨fun hn => ⟨_, hx, ?_⟩, fun k hk0 hnum hredo hop hw hcnt hsend ha hu => ?_⟩
  · have e : (s.ctlIn p f).parcel f.ten.toNat f.chan.toNat f (f.payload.map (fun w => (decodeWord w).w)) =
        (s.ctlIn p f).modChan f.ten.toNat f.chan.toNat (fun c => { c with early := c.early ++ [f] }) := by
      unfold State.parcel
      dsimp only
      rw [ht.collOf_eq, hn]
    rw [e]
    refine ⟨?_, ht.trans (modChan_talks _ _ _ _), State.modChan_keeps hk (by decide)⟩
    exact (congrArg ChanSt.early (look_put _ _ _ _)).trans (congrArg (· ++ [f]) (ctlIn_early s p f _ _))
  · have hfit : fits (s.ctlIn p f) f.ten.toNat f k (word0 (f.payload.map (fun w => (decodeWord w).w))) := by
      rw [word0_decoded]
      refine ⟨hnum, hredo, hop, hw, hcnt, ?_, ha⟩
      rw [ht.relCoord_eq]
      exact hsend
    obtain ⟨u, k2, e, hut, huk, hg, hr⟩ := parcel_fits (by rw [ht.collOf_eq]; exact hk0) hfit (by rw [hk.eq_upsets]; exact hu)
    rw [word0_decoded] at hg hr
    rw [e] at hx
    have hkeep : Keeps ctlViews s (u.setColl f.ten.toNat f.chan.toNat k2) := State.setColl_keeps (hk.trans huk) (by decide)
    refine ⟨fun h => ⟨_, hx, ⟨k2, collOf_setColl _ _ _ _, ?_⟩, hkeep⟩, fun h => ⟨_, hx, ⟨k2, collOf_setColl _ _ _ _, ?_⟩, hkeep⟩⟩
    · rw [hg h]
      exact ⟨rfl, mem_insertNew_self _ _, rfl⟩
    · obtain ⟨h1, h2⟩ := hr h
      rw [h1, h2]
      exact ⟨rfl, look_set _ _ _ _⟩

end Sys2Proof.Machine
end

section
/-! SUPPORT. Which counters time raises, and a port that goes down (13 R352). -/

namespace Sys2Proof.Machine

open Sys2Proof Sys2Proof.Claims

set_option Elab.async false

/-! ### Counters that passing time raises -/

/-- The counters that passing time may raise: milliseconds of holdover, swallowed ticks, merge entries and idle cycles of cores, merge
entries of stacks, and writes held for escrow. -/
def onAge (o : Nat) : Prop :=
  o = chipOff 0 ∨ o = chipOff 0xA0 ∨ 0x9_0000 ≤ o ∨ (∃ st, o = stackOff st 0x18) ∨ ∃ t, o = tenOff t 0x2218

theorem not_onAge_tenOff {n k : Nat} (hn : n < 8) (hk : k < 0x10000) (h8 : k % 8 = 0) (h18 : k % 256 ≠ 0x18) (h : k ≠ 0x2218) : ¬ onAge (tenOff n k) := by
  rintro (h | h | h | ⟨st, h⟩ | ⟨t, h⟩) <;> (simp only [tenOff, chipOff, stackOff] at h; omega)

section ages

variable (s : State)

theorem charge_counts {P : Nat → Prop} (t : Option Nat) (e : Nat) (offs : List Nat) : CountsIn P s (s.charge t e offs) := fun o _ => charge_counter s t e offs o

theorem countCore_counts (c : Core) {o : Nat} (n : Nat) : CountsIn onAge s (s.countCore c o n) :=
  .count (.inr (.inr (.inl (by unfold coreOff; omega))))

theorem writeWord_counts {P : Nat → Prop} (sp : Space) (a : Nat) (w : MemWord) : CountsIn P s (s.writeWord sp a w) :=
  .of_keeps (State.writeWord_keeps (vs := [.cs, .mbox, .words]) (Keeps.refl _ _) (by decide))

theorem dayTen_counts {P : Nat → Prop} (t : Nat) (code : BitVec 8) (cls : BitVec 3) (a b c : Nat) : CountsIn P s (s.dayTen t code cls a b c) := .of_eq rfl

theorem modTen_counts {P : Nat → Prop} (t : Nat) (f : Tenancy → Tenancy) : CountsIn P s (s.modTen t f) := .of_eq rfl

theorem holdWrite_counts (t m key : Nat) (w : MemWord) : CountsIn onAge s (s.holdWrite t m key w) := by
  have hc (u : State) : CountsIn onAge u (u.countTen t 0x2218 1) := .count (.inr (.inr (.inr (.inr ⟨t, rfl⟩))))
  unfold State.holdWrite
  dsimp only
  split
  · exact modTen_counts _ _ _
  · exact .ite (((modTen_counts _ _ _).trans (hc _)).trans (dayTen_counts _ _ _ _ _ _ _)) ((modTen_counts _ _ _).trans (hc _))

theorem writeFore_counts (t at' key : Nat) (w : MemWord) : CountsIn onAge s (s.writeFore t at' key w) := by
  unfold State.writeFore
  split
  · exact holdWrite_counts _ _ _ _ _
  · exact writeWord_counts _ _ _ _

theorem setMerges_counts {P : Nat → Prop} (sp : Space) (m : Sparse MergeEntry) : CountsIn P s (s.setMerges sp m) :=
  .of_keeps (State.setMerges_keeps (vs := [.merges]) (Keeps.refl _ _) (by decide))

theorem closeMerge_cs_counts (t : Option Nat) (c : Core) (a : Nat) (e : MergeEntry) : CountsIn onAge s (s.closeMerge t (.cs c) a e) := by
  unfold State.closeMerge
  rw [writeWhole_cs]
  exact (((setMerges_counts _ _ _).trans (writeWord_counts _ _ _ _)).trans (charge_counts _ _ _ _)).trans (countCore_counts _ _ _)

theorem writeWhole_hbm_counts (t : Option Nat) (a : Nat) (w : MemWord) : CountsIn onAge s (s.writeWhole t .hbm a w) := by
  cases t with
  | none => exact writeWord_counts s .hbm a w
  | some t => exact (writeFore_counts s t a a w).trans (charge_counts _ (some t) _ _)

theorem closeMerge_hbm_counts (t : Option Nat) (a : Nat) (e : MergeEntry) : CountsIn onAge s (s.closeMerge t .hbm a e) := by
  unfold State.closeMerge
  refine CountsIn.trans (CountsIn.trans ?_ (writeWhole_hbm_counts _ _ _ _)) (.count (.inr (.inr (.inr (.inl ⟨_, rfl⟩)))))
  exact setMerges_counts _ _ _

theorem settleMerges_counts : CountsIn onAge s s.settleMerges :=
  .foldl (.foldl (.refl s) (fun u _ => .ite (closeMerge_cs_counts u _ _ _ _) (.refl _))) (fun u _ => .ite (closeMerge_hbm_counts u _ _ _) (.refl _))

theorem countTicks_counts (n : Nat) : CountsIn onAge s (s.countTicks n) := by
  have h1 : CountsIn onAge s ((tenancies s).foldl (fun (u : State) t => (u.countIdle t n).addStall t n) s) := by
    refine .foldl (.refl s) (fun u t => CountsIn.trans (t := u.countIdle t n) ?_ ?_)
    · exact .foldl (.refl u) (fun v _ => .foldl (.refl v) (fun w _ => .ite (.refl w) (countCore_counts _ _ _)))
    · exact .ite (modTen_counts _ _ _) (.refl _)
  have h2 := CountsIn.ite (c := swallowed s s.now n = 0) h1
    (h1.trans (.count (o := chipOff 0xA0) (n := swallowed s s.now n) (.inr (.inl rfl))))
  exact .ite ((h2.trans (.count (.inl rfl))).trans (.of_eq rfl)) h2

theorem pass_counts (n : Nat) : CountsIn onAge s (s.pass n) := by
  rw [State.pass_eq]
  exact .ite (((countTicks_counts s n).trans (.of_eq rfl)).trans (settleMerges_counts _)) (.refl s)

theorem passTo_counts (v : Nat) : CountsIn onAge s (s.passTo v) := pass_counts s _

end ages

/-! ### A flow moved to another port -/

/-- The flows sent stand, and so do the marks of ports that are down. -/
def SendsStand (s t : State) : Prop := t.fabric.sends = s.fabric.sends ∧ ∀ p, (portOf t p).down = (portOf s p).down

section SendsStand

variable {s t u : State}

theorem SendsStand.refl (s : State) : SendsStand s s := ⟨rfl, fun _ => rfl⟩

theorem SendsStand.trans (h : SendsStand s t) (k : SendsStand t u) : SendsStand s u := ⟨k.1.trans h.1, fun p => (k.2 p).trans (h.2 p)⟩

theorem SendsStand.of_keeps {vs : List View} (k : Keeps vs s t) (h : View.fabric ∉ vs := by decide) : SendsStand s t := by
  have e := k.eq_fabric h
  exact ⟨by rw [e], fun p => by unfold portOf; rw [e]⟩

theorem SendsStand.ite {c : Prop} [Decidable c] (ha : SendsStand s t) (hb : SendsStand s u) : SendsStand s (if c then t else u) := by
  split <;> assumption

theorem SendsStand.foldl {α : Type} {l : List α} {f : State → α → State} (h : SendsStand s t) (hf : ∀ v a, SendsStand v (f v a)) :
    SendsStand s (l.foldl f t) := by
  induction l generalizing t with
  | nil => exact h
  | cons a r ih => exact ih (h.trans (hf t a))

theorem modPort_stand (s : State) (p : Port) {f : PortSt → PortSt} (h : ∀ q, (f q).down = q.down) : SendsStand s (s.modPort p f) := by
  refine ⟨rfl, fun q => ?_⟩
  by_cases e : q = p
  · subst e; rw [portOf_modPort]; exact h _
  · rw [portOf_modPort_ne _ _ e]

theorem emitFrame_stand (s : State) (p : Port) (f : Frame) : SendsStand s (s.emitFrame p f) := by
  obtain ⟨o, h⟩ := emitFrame_fabric s p f
  exact ⟨by rw [h], fun q => by unfold portOf; rw [h]⟩

theorem transmit_stand (s : State) (t ch peer : Nat) (x : Unacked) : SendsStand s (s.transmit t ch peer x) := by
  unfold State.transmit
  refine SendsStand.trans ?_ (emitFrame_stand _ _ _)
  exact ⟨rfl, fun _ => rfl⟩

theorem goBack_stand (s : State) (t ch peer n : Nat) : SendsStand s (s.goBack t ch peer n) := by
  unfold State.goBack
  exact .foldl ⟨rfl, fun _ => rfl⟩ (fun v x => transmit_stand v _ _ _ x)

theorem startAssays_stand (s : State) : SendsStand s s.startAssays := by
  unfold State.startAssays
  refine .foldl (.refl s) (fun u a => ?_)
  have hm (x : Mgmt) : SendsStand u { u with mgmt := x } := ⟨rfl, fun _ => rfl⟩
  exact .ite (.ite ((hm _).trans (modPort_stand _ _ (fun _ => rfl))) (hm _)) (.refl u)

theorem requestAssay_stand (s : State) (kind target : Nat) (force : Bool) : SendsStand s (s.requestAssay kind target force) := by
  have hm (x : Mgmt) : SendsStand s { s with mgmt := x } := ⟨rfl, fun _ => rfl⟩
  unfold State.requestAssay
  dsimp only
  refine .ite (.refl s) (.ite (hm _) ?_)
  split
  · exact (hm _).trans (.of_keeps (vs := [.mgmt]) (State.daybook_keeps (Keeps.refl _ _) (by decide)))
  · exact (hm _).trans (startAssays_stand _)

theorem portFails_stand (s : State) (p : Port) : SendsStand s (s.portFails p) := by
  have ha : SendsStand s (s.addFigure 3 (4 * p.val + 3) 1) := ⟨rfl, fun _ => rfl⟩
  have h := ha.trans (modPort_stand _ p (f := fun q => { q with failOver := q.failOver.filter (fun x => s.now < x + hourTicks) ++ [s.now] }) (fun _ => rfl))
  exact .ite (h.trans (requestAssay_stand _ _ _ _)) h

end SendsStand

/-- A flow with its frames on another port. -/
def State.moveFlow (s : State) (n ch peer : Nat) (q : Port) : State :=
  s.setSend n ch peer { sendOf s n ch peer with port := some q, onPort := 0, advanced := s.now }

theorem sendOf_moveFlow (s : State) (n ch peer : Nat) (q : Port) :
    sendOf (s.moveFlow n ch peer q) n ch peer = { sendOf s n ch peer with port := some q, onPort := 0, advanced := s.now } := look_put _ _ _ _

/-- What a port's loss of a flow that moves adds: the port's fail-overs, the count, its note, and the frames sent again. -/
def State.resend (s : State) (n ch peer : Nat) (old q : Port) : State :=
  ((((s.moveFlow n ch peer q).portFails old).countTen n 0x2130 1).dayTen n 0x51 0 (old.val * 16 + q.val) ch 0).goBack n ch peer 0

/-- A flow moves to the next live port of its axis. -/
theorem failOver_live {s : State} {n ch peer : Nat} {q : Port}
    (h : (((axisPorts s n (flowAxis s n ch peer)).filter (fun x => flowPort s n ch peer < x)) ++
      ((axisPorts s n (flowAxis s n ch peer)).filter (fun x => x < flowPort s n ch peer))).find? (fun x => livePort s x) = some q) :
    s.failOver n ch peer = s.resend n ch peer (flowPort s n ch peer) q := by
  unfold State.failOver
  dsimp only
  rw [h]
  rfl

section resend

variable (s : State) (n ch peer : Nat) (old q : Port)

theorem portFails_keeps_ports : Keeps [.fabric, .mgmt] s (s.portFails old) := State.portFails_keeps (Keeps.refl _ _) (by decide)

theorem resend_stand : SendsStand (s.moveFlow n ch peer q) (s.resend n ch peer old q) :=
  (portFails_stand _ old).trans (SendsStand.trans ⟨rfl, fun _ => rfl⟩ (goBack_stand _ n ch peer 0))

theorem goBack_counts (k : Nat) : CountsIn (fun o => onPort o ∨ o = tenOff n 0x2108) s (s.goBack n ch peer k) := by
  unfold State.goBack State.countTen
  exact .foldl (.count (.inr rfl)) (fun v x => (transmit_counts v _ _ _ x).mono (fun _ => .inl))

theorem resend_counted : counted s (s.resend n ch peer old q) (tenOff n 0x2130) := by
  have hp : CountsIn (fun _ => False) (s.moveFlow n ch peer q) ((s.moveFlow n ch peer q).portFails old) := .of_keeps (portFails_keeps_ports _ old)
  unfold State.resend State.countTen
  refine counted.within (counted_count ((s.moveFlow n ch peer q).portFails old) (tenOff n 0x2130)) hp
    ((dayTen_counts _ _ _ _ _ _ _).trans (goBack_counts _ n ch peer 0)) id ?_
  rintro (h | h)
  · exact not_onPort_tenOff _ _ h
  · unfold tenOff at h; omega

theorem resend_keeps : Keeps [.tens, .counters, .fabric, .mgmt, .power] s (s.resend n ch peer old q) :=
  State.goBack_keeps (State.dayTen_keeps (State.countTen_keeps (State.portFails_keeps (State.setSend_keeps (Keeps.refl _ _)
    (by decide)) (by decide)) (by decide)) (by decide)) (by decide)

end resend

/-- The flows on a port send on it. -/
theorem flowPort_of_flowsOn {s : State} {p : Port} {n ch peer : Nat} (h : (n, ch, peer) ∈ flowsOn s p) : flowPort s n ch peer = p := by
  unfold flowsOn at h
  have := (List.mem_filter.1 h).2
  simp only [Bool.and_eq_true, decide_eq_true_eq] at this
  exact this.1

/-- A port 1 ms after it lost link, marked down. -/
def State.markDown (s : State) (p : Port) (v : Nat) : State := (s.passTo (v + 1800000)).modPort p (fun q => { q with down := true })

theorem exec_portDown {p : Port} {s : State} {v : Nat} (hl : (portOf s p).lost = some v) (hk : (portOf s p).link = false)
    (hd : (portOf s p).down = false) : exec (.portDown p) s = .next
      ((flowsOn (s.markDown p v) p).foldl (fun (u : State) (x : Nat × Nat × Nat) => u.failOver x.1 x.2.1 x.2.2) (s.markDown p v)).startAssays := by
  change execPortDown p s = _
  unfold execPortDown
  dsimp only
  rw [hl]
  dsimp only
  rw [hk, hd]
  rfl

theorem markDown_keeps (s : State) (p : Port) (v : Nat) : Keeps timeViews s (s.markDown p v) := State.modPort_keeps (pass_keeps_time _ _) (by decide)

theorem markDown_down (s : State) (p : Port) (v : Nat) : (portOf (s.markDown p v) p).down = true := by
  unfold State.markDown
  rw [portOf_modPort]

theorem startAssays_keeps_ports (s : State) : Keeps [.fabric, .mgmt] s s.startAssays := State.startAssays_keeps (Keeps.refl _ _) (by decide)

/-- Settles O34: the port is marked, and a flow that was on it moves and is counted. -/
theorem portGoesDown : Obligations.PortGoesDown := by
  unfold Obligations.PortGoesDown
  intro p s v hl hk hd
  have hx := exec_portDown hl hk hd
  have hm := markDown_keeps s p v
  have ha := startAssays_stand
  dsimp only
  refine ⟨fun hf => ?_, fun n ch peer q hf hq => ?_⟩
  · have hf : flowsOn (s.markDown p v) p = [] := hf
    rw [hf, List.foldl_nil] at hx
    have hs := startAssays_keeps_ports (s.markDown p v)
    exact ⟨_, hx, ((ha _).2 p).trans (markDown_down s p v), fun h1 h2 h3 => (now_of_time hs.eq_time).trans (passTo_now_to h1 h2 h3),
      hm.then (by decide) hs⟩
  · have hf : flowsOn (s.markDown p v) p = [(n, ch, peer)] := hf
    have hp : flowPort (s.markDown p v) n ch peer = p := flowPort_of_flowsOn (by rw [hf]; exact List.mem_singleton_self _)
    have hmove : (s.markDown p v).failOver n ch peer = (s.markDown p v).resend n ch peer p q := by
      have h := failOver_live (s := s.markDown p v) (n := n) (ch := ch) (peer := peer) (q := q) (by rw [hp]; exact hq)
      rwa [hp] at h
    rw [hf, List.foldl_cons, List.foldl_nil, hmove] at hx
    have hs := startAssays_keeps_ports ((s.markDown p v).resend n ch peer p q)
    have hst := (resend_stand (s.markDown p v) n ch peer p q).trans (ha _)
    have hrk := resend_keeps (s.markDown p v) n ch peer p q
    refine ⟨_, hx, (hst.2 p).trans (markDown_down s p v), ?_, fun hn => ?_, (hm.then (by decide) hrk).then (by decide) hs⟩
    · have e : sendOf (((s.markDown p v).resend n ch peer p q).startAssays) n ch peer = sendOf ((s.markDown p v).moveFlow n ch peer q) n ch peer := by
        unfold sendOf
        rw [hst.1]
      rw [e, sendOf_moveFlow, (now_of_time hs.eq_time).trans (now_of_time hrk.eq_time)]
      rfl
    · exact counted.within (resend_counted (s.markDown p v) n ch peer p q) ((passTo_counts s _).trans (.of_eq rfl)) (.of_keeps (P := fun _ => False) hs)
        (not_onAge_tenOff hn (by omega) (by omega) (by omega) (by omega)) id

end Sys2Proof.Machine
end

section
/-! SUPPORT. Probes, their answers and the parent's offset (09 R230 to R232; 13 R357). -/

namespace Sys2Proof.Machine

open Sys2Proof Sys2Proof.Claims

set_option Elab.async false

/-! ### Probe words -/

/-- A field of a number is its part above the field's place. -/
theorem extract_ofNat (w x lo len : Nat) (h : lo + len ≤ w) : (BitVec.ofNat w x).extractLsb' lo len = BitVec.ofNat len (x / 2 ^ lo) := by
  refine BitVec.eq_of_getLsbD_eq (fun i hi => ?_)
  rw [BitVec.getLsbD_extractLsb', BitVec.getLsbD_ofNat, BitVec.getLsbD_ofNat, Nat.testBit_div_two_pow, Nat.add_comm lo i]
  simp only [hi, decide_true, Bool.true_and]
  rw [decide_eq_true (by omega), Bool.true_and]

theorem ofNat_add_mul (n a r : Nat) : BitVec.ofNat n (a + 2 ^ n * r) = BitVec.ofNat n a :=
  BitVec.eq_of_toNat_eq (by rw [BitVec.toNat_ofNat, BitVec.toNat_ofNat, Nat.add_mul_mod_self_left])

theorem add_mul_div_of_lt {a m : Nat} (r : Nat) (h : a < m) : (a + m * r) / m = r := by
  rw [Nat.add_mul_div_left _ _ (by omega), Nat.div_eq_of_lt h, Nat.zero_add]

/-- Three fields of `n` bits each, below a rest. -/
theorem three_fields {n w a b c r : Nat} (hw : 3 * n ≤ w) (ha : a < 2 ^ n) (hb : b < 2 ^ n) :
    let x := BitVec.ofNat w (a + 2 ^ n * (b + 2 ^ n * (c + 2 ^ n * r)))
    x.extractLsb' 0 n = BitVec.ofNat n a ∧ x.extractLsb' n n = BitVec.ofNat n b ∧ x.extractLsb' (n + n) n = BitVec.ofNat n c := by
  intro x
  refine ⟨?_, ?_, ?_⟩
  · rw [extract_ofNat _ _ _ _ (by omega), pow_zero, Nat.div_one, ofNat_add_mul]
  · rw [extract_ofNat _ _ _ _ (by omega), add_mul_div_of_lt _ ha, ofNat_add_mul]
  · rw [extract_ofNat _ _ _ _ (by omega), pow_add, ← Nat.div_div_eq_div_mul, add_mul_div_of_lt _ ha, add_mul_div_of_lt _ hb, ofNat_add_mul]

theorem fields_nested (a b c d e m k : Nat) :
    a + b * m + c * (m * m) + d * (m * m * m) + e * (m * m * m * k) = a + m * (b + m * (c + m * (d + k * e))) := by ring

theorem probeWord_fields (s : State) {t1 t2 t3 : Nat} (h1 : t1 < 2 ^ 64) (h2 : t2 < 2 ^ 64) (h3 : t3 < 2 ^ 64) :
    bits (probeWord s t1 t2 t3) 63 0 = BitVec.ofNat 64 t1 ∧ bits (probeWord s t1 t2 t3) 127 64 = BitVec.ofNat 64 t2 ∧
      bits (probeWord s t1 t2 t3) 191 128 = BitVec.ofNat 64 t3 := by
  have h128 : (2 : Nat) ^ 128 = 2 ^ 64 * 2 ^ 64 := pow_add 2 64 64
  have h192 : (2 : Nat) ^ 192 = 2 ^ 64 * 2 ^ 64 * 2 ^ 64 := (pow_add 2 128 64).trans (by rw [h128])
  have h200 : (2 : Nat) ^ 200 = 2 ^ 64 * 2 ^ 64 * 2 ^ 64 * 2 ^ 8 := (pow_add 2 192 8).trans (by rw [h192])
  unfold probeWord
  dsimp only
  rw [Nat.mod_eq_of_lt h1, Nat.mod_eq_of_lt h2, Nat.mod_eq_of_lt h3, h128, h192, h200, fields_nested]
  exact three_fields (by decide) h1 h2

/-! ### Pairs heard and the PLL's source -/

/-- Time changes in no more than the pair heard and the PLL's source. -/
def Time.hears (a b : Time) : Prop := b = { a with best := b.best, bestAt := b.bestAt, pll := b.pll, everLocked := b.everLocked }

theorem Time.hears_trans {a b c : Time} (h : a.hears b) (k : b.hears c) : a.hears c := by
  unfold Time.hears at *
  rw [k, h]

theorem Time.hears_ite {s t u : State} {c : Prop} [Decidable c] (h : s.time.hears t.time) (k : s.time.hears u.time) :
    s.time.hears (if c then t else u).time := by
  split <;> assumption

theorem hear_time (s : State) (x : BitVec 8 × BitVec 16) : s.time.hears (s.hear x).time := by
  unfold State.hear
  exact Time.hears_ite rfl rfl

theorem raiseTime_time (s : State) (code : BitVec 8) (a b c bit : Nat) : ((s.dayChip code 0 a b c).raiseTime bit).time = s.time :=
  (State.raiseTime_keeps (State.dayChip_keeps (Keeps.refl [.mgmt] s) (by decide)) (by decide)).eq_time

/-- Time changes in no more than the PLL's source. -/
def Time.locks (a b : Time) : Prop := b = { a with pll := b.pll, everLocked := b.everLocked }

theorem Time.locks_ite {s t u : State} {c : Prop} [Decidable c] (h : s.time.locks t.time) (k : s.time.locks u.time) :
    s.time.locks (if c then t else u).time := by
  split <;> assumption

theorem Time.hears_of_locks {a b : Time} (h : a.locks b) : a.hears b := by
  unfold Time.locks at h
  unfold Time.hears
  rw [h]

theorem selectPll_time (s : State) : s.time.locks s.selectPll.time := by
  unfold State.selectPll
  refine Time.locks_ite rfl (Time.locks_ite ?_ rfl)
  rw [raiseTime_time]
  rfl

/-- A pair heard, and the PLL's source chosen anew. -/
def State.heard (s : State) (x : BitVec 8 × BitVec 16) : State := (s.hear x).selectPll

theorem heard_time (s : State) (x : BitVec 8 × BitVec 16) : s.time.hears (s.heard x).time := Time.hears_trans (hear_time s x) (Time.hears_of_locks (selectPll_time _))

theorem heard_keeps (s : State) (x : BitVec 8 × BitVec 16) : Keeps [.time, .mgmt] s (s.heard x) :=
  State.selectPll_keeps (State.hear_keeps (Keeps.refl _ _) (by decide)) (by decide)

/-- The pair that a probe word carries. -/
def pairOf (w : BitVec 256) : BitVec 8 × BitVec 16 := (bits w 199 192, bits w 215 200)

/-- A probe frame received, with its word decoded. -/
def State.probeIn (s : State) (p : Port) (f : Frame) : State := ((s.arrive p f).decodePayload p f.payload).1

theorem probeIn_keeps (s : State) (p : Port) (f : Frame) : Keeps [.tens, .counters, .power] s (s.probeIn p f) :=
  State.decodePayload_keeps (arrive_keeps s p f) (by decide)

/-- A probe frame that passes its checks gives its word, and its pair is heard. -/
theorem takeProbe_ok {kind : BitVec 4} {p : Port} {f : Frame} {s : State} (h : probeOk kind p f s) :
    s.takeProbe p f kind = ((s.probeIn p f).hear (pairOf (first f)), some (first f)) := by
  obtain ⟨hl, hb, hk, hn, hd, hp, hpo⟩ := h
  obtain ⟨w, hw⟩ := List.length_eq_one_iff.1 hn
  have hf : first f = (decodeWord w).w.data := by unfold first nth; rw [hw]; rfl
  have hpo : isPoisoned (decodeWord w).w = false := by rw [hw] at hpo; exact hpo
  unfold State.takeProbe
  dsimp only
  rw [hl, if_neg (by simp), if_neg (by simp [hb, hk, hn]), if_neg (by simp [hd, hp]), decodePayload_words, hw]
  dsimp only [List.map]
  rw [hpo, if_neg Bool.false_ne_true, hf, ← hw]
  rfl

/-! ### Probes and answers received -/

theorem decodePayload_outbox (s : State) (p : Port) (f : Frame) : (s.probeIn p f).fabric = s.fabric := (probeIn_keeps s p f).eq_fabric

/-- A frame sent on a port with link, in a fabric that is configured, is the last that went out. -/
theorem emitFrame_outbox {s : State} {p : Port} (f : Frame) (hc : bitsN s.fabric.cfg 15 0 ≠ 0) (hl : (portOf s p).link = true) :
    (s.emitFrame p f).fabric.outbox = s.fabric.outbox ++ [(p, { f with port := BitVec.ofNat 4 p.val, plane := BitVec.ofNat 4 p.val })] := by
  unfold State.emitFrame
  rw [if_neg (by simp [hc, hl])]

/-- The state after a probe's receipt, its pair heard. -/
def State.probed (s : State) (p : Port) (f : Frame) : State := (s.probeIn p f).heard (pairOf (first f))

theorem probed_keeps (s : State) (p : Port) (f : Frame) : Keeps [.tens, .counters, .time, .mgmt, .power] s (s.probed p f) :=
  ((probeIn_keeps s p f).mono (by decide)).then (by decide) (heard_keeps _ _)

theorem probed_time (s : State) (p : Port) (f : Frame) : s.time.hears (s.probed p f).time := by
  have h := heard_time (s.probeIn p f) (pairOf (first f))
  rw [(probeIn_keeps s p f).eq_time] at h
  exact h

theorem Time.hears_tally {a b : Time} (h : a.hears b) : b.tally = a.tally := by unfold Time.hears at h; rw [h]
theorem Time.hears_answers {a b : Time} (h : a.hears b) : b.answers = a.answers := by unfold Time.hears at h; rw [h]
theorem Time.hears_probeSent {a b : Time} (h : a.hears b) : b.probeSent = a.probeSent := by unfold Time.hears at h; rw [h]

theorem exec_probeFrame {p : Port} {f : Frame} {s : State} (h : probeOk 3 p f s) : exec (.probeFrame p f) s =
    .next ((s.probed p f).sendProbe 4 f.src.toNat p
      (probeWord (s.probed p f) (bitsN (first f) 63 0) (s.probed p f).now (s.probed p f).now)) := by
  change execProbeFrame p f s = _
  unfold execProbeFrame
  rw [takeProbe_ok h]
  rfl

/-- A probe is answered with the times it was sent, came and left. -/
theorem probe_answered (p : Port) (f : Frame) (s : State) (h : probeOk 3 p f s) (hc : bitsN s.fabric.cfg 15 0 ≠ 0) :
    ∃ t g, exec (.probeFrame p f) s = .next t ∧ t.fabric.outbox = s.fabric.outbox ++ [(p, g)] ∧ g.kind = 4 ∧ g.dst = f.src ∧
      (∃ w, g.payload = [MemWord.clean w] ∧ bits w 63 0 = bits (first f) 63 0 ∧ bits w 127 64 = s.time.tally ∧ bits w 191 128 = s.time.tally) ∧
      t.time.tally = s.time.tally ∧ Keeps [.tens, .counters, .fabric, .time, .mgmt, .power] s t := by
  have hk := probed_keeps s p f
  have hfab : (s.probed p f).fabric = s.fabric := hk.eq_fabric
  have htally : (s.probed p f).time.tally = s.time.tally := Time.hears_tally (probed_time s p f)
  have hnow : BitVec.ofNat 64 (s.probed p f).now = s.time.tally := by
    unfold State.now
    rw [htally, BitVec.ofNat_toNat, BitVec.setWidth_eq]
  obtain ⟨h1, h2, h3⟩ := probeWord_fields (s.probed p f) (t1 := bitsN (first f) 63 0) (t2 := (s.probed p f).now) (t3 := (s.probed p f).now)
    (BitVec.isLt _) (BitVec.isLt _) (BitVec.isLt _)
  have ho := emitFrame_outbox (s := s.probed p f) (p := p) { mkFrame (s.probed p f) 0 4 f.src.toNat 4095 0 p [MemWord.clean (probeWord (s.probed p f)
    (bitsN (first f) 63 0) (s.probed p f).now (s.probed p f).now)] with epoch := 0, job := 0 } (by rw [hfab]; exact hc)
    (by unfold portOf; rw [hfab]; exact h.1)
  have hsend : Keeps [.tens, .counters, .fabric, .power] (s.probed p f) ((s.probed p f).sendProbe 4 f.src.toNat p
      (probeWord (s.probed p f) (bitsN (first f) 63 0) (s.probed p f).now (s.probed p f).now)) := State.sendProbe_keeps (Keeps.refl _ _) (by decide)
  refine ⟨_, _, exec_probeFrame h, ho.trans (by rw [hfab]), rfl, ?_, ⟨_, rfl, h1.trans ?_, h2.trans hnow, h3.trans hnow⟩, ?_,
    (hk.mono (by decide)).then (by decide) hsend⟩
  · exact (BitVec.ofNat_toNat _ _).trans (BitVec.setWidth_eq _)
  · exact (BitVec.ofNat_toNat _ _).trans (BitVec.setWidth_eq _)
  · rw [hsend.eq_time, htally]

/-- The pair of an offset and a path delay that an answer's times give (09 R232). -/
def answerOf (t1 t2 t3 : BitVec 64) (now : BitVec 64) : Int × Int :=
  (((t2 - t1).toInt - (now - t3).toInt).tdiv 2, ((t2 - t1).toInt + (now - t3).toInt).tdiv 2)

/-- An answer of the parent to a probe of this millisecond is counted and, unless it is late, kept. -/
theorem exec_probeAnswer {p : Port} {f : Frame} {s : State} (h : probeOk 4 p f s) (hp : parentOf (s.probed p f) = some f.src.toNat)
    (hs : (bits (first f) 63 0 : BitVec 64).toNat ∈ s.time.probeSent) : ∃ t, exec (.probeAnswer p f) s = .next t ∧
      Keeps [.time] ((s.probed p f).countChip 0x08 1) t ∧
      t.time.answers = s.time.answers ++ (if f.late || decide (11 < ((bits (first f) 191 128 : BitVec 64) - bits (first f) 127 64).toInt) then [] else
        [answerOf (bits (first f) 63 0) (bits (first f) 127 64) (bits (first f) 191 128) s.time.tally]) := by
  have ht := probed_time s p f
  change ∃ t, execProbeAnswer p f s = _ ∧ _
  unfold execProbeAnswer
  rw [takeProbe_ok h]
  dsimp only
  have hcond : (decide (parentOf (s.probed p f) ≠ some f.src.toNat) || !(s.probed p f).time.probeSent.contains (bits (first f) 63 0 : BitVec 64).toNat) = false := by
    rw [hp, Time.hears_probeSent ht]
    simpa using hs
  change ∃ t, (if (decide (parentOf (s.probed p f) ≠ some f.src.toNat) ||
    !(s.probed p f).time.probeSent.contains (bits (first f) 63 0 : BitVec 64).toNat) = true then _ else _) = _ ∧ _
  rw [if_neg (by rw [hcond]; exact Bool.false_ne_true)]
  split
  · exact ⟨_, rfl, Keeps.refl _ _, by rw [List.append_nil]; exact Time.hears_answers ht⟩
  · refine ⟨_, rfl, setTime_keeps _ _, ?_⟩
    dsimp only
    rw [← Time.hears_tally ht, ← Time.hears_answers ht]
    rfl

theorem probe_answer (p : Port) (f : Frame) (s : State) (h : probeOk 4 p f s) (hp : parentOf (s.probed p f) = some f.src.toNat)
    (hs : (bits (first f) 63 0 : BitVec 64).toNat ∈ s.time.probeSent) :
    ∃ t, exec (.probeAnswer p f) s = .next t ∧ counted s t (chipOff 0x08) ∧
      t.time.answers = s.time.answers ++ (if f.late || decide (11 < ((bits (first f) 191 128 : BitVec 64) - bits (first f) 127 64).toInt) then [] else
        [answerOf (bits (first f) 63 0) (bits (first f) 127 64) (bits (first f) 191 128) s.time.tally]) ∧
      Keeps [.tens, .counters, .time, .mgmt, .power] s t := by
  obtain ⟨t, hx, hk, ha⟩ := exec_probeAnswer h hp hs
  have hin : CountsIn onDecode s (s.probed p f) := (((arrive_counts s p f).mono (fun _ => .inl)).trans (decodePayload_counts _ p f.payload)).trans
    (.of_keeps (heard_keeps _ _))
  refine ⟨t, hx, counted.within (counted_count (s.probed p f) _) hin (.of_keeps (P := fun _ => False) hk) ?_ id, ha,
    (State.countChip_keeps (probed_keeps s p f) (by decide)).then (by decide) hk⟩
  rintro (h | h)
  · exact not_onPort_chipOff (by omega) h
  · unfold chipOff at h; omega

/-! ### Probes sent -/

/-- Time moves on: its tally, and the milliseconds of a holdover. -/
def Time.passes (a b : Time) : Prop := b = { a with tally := b.tally, msHold := b.msHold }

theorem countTicks_time (s : State) (n : Nat) : s.time.passes (s.countTicks n).time := by
  have h1 : ((tenancies s).foldl (fun (u : State) t => (u.countIdle t n).addStall t n) s).time = s.time :=
    (Keeps.foldl (vs := [.tens, .counters]) (Keeps.refl _ s)
      (fun _ _ k => State.addStall_keeps (State.countIdle_keeps k (by decide)) (by decide))).eq_time
  have h2 : (if swallowed s s.now n = 0 then (tenancies s).foldl (fun (u : State) t => (u.countIdle t n).addStall t n) s else
      ((tenancies s).foldl (fun (u : State) t => (u.countIdle t n).addStall t n) s).countChip 0xA0 (swallowed s s.now n)).time = s.time := by
    split <;> exact h1
  unfold State.countTicks
  dsimp only
  split
  · rw [h2]; rfl
  · rw [h2]; rfl

theorem pass_time (s : State) (n : Nat) : s.time.passes (s.pass n).time := by
  rw [State.pass_eq]
  split
  · rw [(State.settleMerges_keeps (Keeps.refl [.cs, .mbox, .merges, .words, .tens, .counters, .fabric, .mgmt, .power] _) (by decide)).eq_time]
    have h := countTicks_time s n
    unfold Time.passes at *
    rw [h]
  · rfl

theorem Time.passes_rest {a b : Time} (h : a.passes b) : b.pll = a.pll ∧ b.best = a.best ∧ b.probeSent = a.probeSent := by
  unfold Time.passes at h
  rw [h]
  exact ⟨rfl, rfl, rfl⟩

theorem oneProbe_time (s : State) (dst : Nat) : (s.oneProbe dst).time = { s.time with probeSent := s.time.probeSent ++ [s.now] } := by
  unfold State.oneProbe
  dsimp only
  split
  · rw [(State.sendProbe_keeps (Keeps.refl [.tens, .counters, .fabric, .power] _) (by decide)).eq_time]
  · rfl

theorem upTo_succ_shift (m x k : Nat) : x :: (upTo m).map (fun i => x + k + k * i) = (upTo (m + 1)).map (fun i => x + k * i) := by
  unfold upTo
  rw [List.range_succ_eq_map, List.map_cons, List.map_map]
  refine congrArg (x :: ·) (List.map_congr_left (fun i _ => ?_))
  show x + k + k * i = x + k * (i + 1)
  ring

theorem probe_room {a m : Nat} (h : a + 1800 * (m + 2) < 2 ^ 64) : a + 1800 < 2 ^ 64 ∧ a + 1800 + 1800 * (m + 1) < 2 ^ 64 := by omega

theorem probe_last (a m : Nat) : a + 1800 + m * 1800 = a + (m + 2 - 1) * 1800 := by omega

/-- What probes sent 1 µs apart leave of time. -/
theorem sendProbes_time (dst : Nat) : ∀ (n : Nat) (s : State), s.time.pll ≠ .off → s.now + 1800 * n < 2 ^ 64 →
    (State.sendProbes n s dst).now = s.now + (n - 1) * 1800 ∧
      (State.sendProbes n s dst).time.probeSent = s.time.probeSent ++ (upTo n).map (fun i => s.now + 1800 * i) ∧
      (State.sendProbes n s dst).time.best = s.time.best
  | 0, s, _, _ => ⟨rfl, (List.append_nil _).symm, rfl⟩
  | 1, s, _, _ => by
    have ht := oneProbe_time s dst
    show (s.oneProbe dst).now = _ ∧ (s.oneProbe dst).time.probeSent = _ ∧ (s.oneProbe dst).time.best = _
    unfold State.now
    rw [ht]
    exact ⟨rfl, rfl, rfl⟩
  | m + 2, s, hp, hn => by
    have ht := oneProbe_time s dst
    have hnow : (s.oneProbe dst).now = s.now := by unfold State.now; rw [ht]
    have hpass := Time.passes_rest (pass_time (s.oneProbe dst) 1800)
    have hpll : (s.oneProbe dst).time.pll ≠ .off := by rw [ht]; exact hp
    have hb : (s.oneProbe dst).now + 1800 < 2 ^ 64 := by rw [hnow]; exact (probe_room hn).1
    have hpn : ((s.oneProbe dst).pass 1800).now = s.now + 1800 := (pass_now hpll hb).trans (by rw [hnow])
    have hb2 : ((s.oneProbe dst).pass 1800).now + 1800 * (m + 1) < 2 ^ 64 := by rw [hpn]; exact (probe_room hn).2
    obtain ⟨h1, h2, h3⟩ := sendProbes_time dst (m + 1) ((s.oneProbe dst).pass 1800) (by rw [hpass.1]; exact hpll) hb2
    have e : State.sendProbes (m + 2) s dst = State.sendProbes (m + 1) ((s.oneProbe dst).pass 1800) dst := rfl
    rw [e]
    refine ⟨by rw [h1, hpn, Nat.add_sub_cancel]; exact probe_last _ _, ?_, by rw [h3, hpass.2.1, ht]⟩
    rw [h2, hpn, hpass.2.2, ht]
    dsimp only
    rw [List.append_assoc, List.singleton_append, upTo_succ_shift]

/-- The probes of a new millisecond, none sent yet. -/
def State.newMs (s : State) : State := { s with time := { s.time with probeSent := [], answers := [] } }

/-- At the tick that the schedule gives, with no probe sent: the pair may be forgotten, and probes go to the parent. -/
theorem exec_tallyProbe {s : State} (hc : s.time.pll ≠ .off) (hs : s.time.probeSent = []) (hm : s.now % 1800000 = s.time.schedule.toNat % 1800000) :
    exec .tallyProbe s = match parentOf s.newMs.forgetPair with
      | some p => .next (State.sendProbes 8 s.newMs.forgetPair p)
      | none => .next s.newMs.forgetPair := by
  have hd : (s.time.schedule.toNat % 1800000 + 1800000 - s.now % 1800000) % 1800000 = 0 := by omega
  have hp : s.passTo (s.now + 0) = s := by
    unfold State.passTo State.pass
    rw [Nat.add_zero, Nat.sub_self]
    exact if_neg (by simp)
  have hset : s.settleProbes = s := if_pos (by simp [hs])
  change execTallyProbe s = _
  unfold execTallyProbe
  dsimp only
  rw [if_neg (by simp [clockOn, hc]), hd, if_neg (by simp [hs]), hp, hset]
  rfl

theorem forgetPair_keeps_time (s : State) : Keeps [.time, .mgmt] s s.forgetPair := State.forgetPair_keeps (Keeps.refl _ _) (by decide)

theorem newMs_none {s : State} (hs : s.time.probeSent = []) : s.newMs = { s with time := { s.time with answers := [] } } := by
  unfold State.newMs
  rw [← hs]

/-- A pair heard lately is not forgotten. -/
theorem forgetPair_recent {s : State} (h : s.time.best = none ∨ s.now ≤ s.time.bestAt + 3600000) : s.newMs.forgetPair = s.newMs := by
  refine if_neg ?_
  change ¬ (s.time.best.isSome && decide (s.time.bestAt + 3600000 < s.now)) = true
  rcases h with h | h
  · simp [h]
  · simp [h]

/-- A pair not heard again for two probe periods is forgotten, and time else stands. -/
theorem forgetPair_late {s : State} (h : s.time.best ≠ none) (hl : s.time.bestAt + 3600000 < s.now) :
    s.newMs.forgetPair.time.best = none := by
  have hc : (s.time.best.isSome && decide (s.time.bestAt + 3600000 < s.now)) = true := by
    rw [Option.isSome_iff_ne_none.2 h]
    simpa using hl
  have e : s.newMs.forgetPair = ({ s.newMs with time := { s.newMs.time with best := none } } : State).selectPll := if_pos hc
  have ht := selectPll_time ({ s.newMs with time := { s.newMs.time with best := none } } : State)
  unfold Time.locks at ht
  rw [e, ht]

theorem newMs_keeps (s : State) : Keeps [.time] s s.newMs := setTime_keeps _ _

/-- The clock of a new millisecond goes on. -/
theorem newMs_pll {s : State} (h : s.time.pll ≠ .off) : s.newMs.time.pll ≠ .off := h

theorem sendProbes_best (dst : Nat) : ∀ (n : Nat) (s : State), (State.sendProbes n s dst).time.best = s.time.best
  | 0, _ => rfl
  | m + 1, s => by
    have ht := oneProbe_time s dst
    have e : State.sendProbes (m + 1) s dst = State.sendProbes m (if m = 0 then s.oneProbe dst else (s.oneProbe dst).pass 1800) dst := rfl
    rw [e, sendProbes_best dst m]
    split
    · rw [ht]
    · rw [(Time.passes_rest (pass_time _ _)).2.1, ht]

theorem sendProbes_keeps_time (n dst : Nat) (s : State) : Keeps timeViews s (State.sendProbes n s dst) :=
  State.sendProbes_keeps (Keeps.refl _ _) (by decide)

/-- Settles O36: probes and answers are taken once their frame passes, and probes go out once the schedule is reached. -/
theorem probes : Obligations.Probes := by
  unfold Obligations.Probes
  refine ⟨probe_answered, probe_answer, fun s hc hn hs hm => ⟨fun hr => ⟨fun hp => ?_, fun hp => ?_⟩, fun hb hl => ?_⟩⟩
  · have hx := exec_tallyProbe hc hs hm
    have e : parentOf s.newMs = none := hp
    rw [forgetPair_recent hr, e] at hx
    rw [hx, newMs_none hs]
  · have hx := exec_tallyProbe hc hs hm
    obtain ⟨d, hd⟩ := Option.isSome_iff_exists.1 hp
    have e : parentOf s.newMs = some d := hd
    rw [forgetPair_recent hr, e] at hx
    obtain ⟨h1, h2, h3⟩ := sendProbes_time d 8 s.newMs hc (show s.now + 1800 * 8 < 2 ^ 64 by omega)
    exact ⟨_, hx, h1, h2, h3, ((newMs_keeps s).mono (by decide)).then (by decide) (sendProbes_keeps_time _ _ _)⟩
  · have hx := exec_tallyProbe hc hs hm
    have hf := forgetPair_late hb hl
    have hk : Keeps timeViews s s.newMs.forgetPair := ((newMs_keeps s).mono (by decide)).then (by decide) (forgetPair_keeps_time _)
    cases hp : parentOf s.newMs.forgetPair with
    | none => rw [hp] at hx; exact ⟨_, hx, hf, hk⟩
    | some d => rw [hp] at hx; exact ⟨_, hx, (sendProbes_best _ _ _).trans hf, hk.then (by decide) (sendProbes_keeps_time _ _ _)⟩

end Sys2Proof.Machine
end

section
/-! SUPPORT. The mailboxes: requests taken and answered, and the pointers of the rings (18 R474 to R478). -/

namespace Sys2Proof.Machine

open Sys2Proof Sys2Proof.Claims

set_option Elab.async false

/-! ### Requests -/

/-- A request command takes a request of its kind. -/
theorem exec_request {i : Instr} {r : Req} {kind : Nat} {pf : Bool} (h : requestOf i = some (r, kind, pf)) (s : State) :
    ∃ act, exec i s = s.takeReq r kind pf act := by
  unfold requestOf at h
  split at h
  case h_21 => exact absurd h (by simp)
  all_goals
    cases h
    simp only [exec, execTelemetry, execDaybookDrain, execAssayRequest, execCapSet, execCreate, execShare, execWindows, execPartition, execWeight,
      execDestroy, execBlankRequest, execLedgerRead, execFwStage, execFwCommit, execFwActivate, execTimeSetup, execArbiterPriority, execLaunch,
      execMaintenance, execUnknownKind]
    exact ⟨_, rfl⟩

section takeReq

variable {s : State} {r : Req} {kind : Nat} {pf : Bool} {act : State → State × Nat × Nat}

/-- A request that cannot be taken changes nothing. -/
theorem takeReq_waits (h : ¬ takes r s) : s.takeReq r kind pf act = .next s := by
  unfold takes at h
  unfold State.takeReq
  refine if_pos ?_
  by_cases h1 : hostOn s r.fn.val = true
  · by_cases h2 : mgmtOn s = true
    · simp only [h1, h2, Bool.not_true, Bool.false_or, decide_eq_true_eq]
      have h3 : ¬ (boxOf s r.fn.val).backlog.length ≤ 768 := fun h3 => h ⟨h1, h2, h3⟩
      omega
    · simp [h2]
  · simp [h1]

theorem takeReq_takes (h : takes r s) : s.takeReq r kind pf act =
    if pf && r.fn ≠ 0 then .next ((s.popReq r.fn.val).answer r kind 2 0)
    else if r.reserved then .next ((s.popReq r.fn.val).answer r kind 3 0)
    else .next ((act (s.popReq r.fn.val)).1.answer r kind (act (s.popReq r.fn.val)).2.1 (act (s.popReq r.fn.val)).2.2) := by
  obtain ⟨h1, h2, h3⟩ := h
  unfold State.takeReq
  exact if_neg (by simp [h1, h2, h3])

/-- A request that its function may send, with no reserved byte set, is done. -/
theorem takeReq_accepted (h : accepted r s) (hp : pf = false ∨ r.fn = 0) : s.takeReq r kind pf act =
    .next ((act (s.popReq r.fn.val)).1.answer r kind (act (s.popReq r.fn.val)).2.1 (act (s.popReq r.fn.val)).2.2) := by
  rw [takeReq_takes h.1, if_neg (by rcases hp with hp | hp <;> simp [hp]), if_neg (by rw [h.2]; exact Bool.false_ne_true)]

end takeReq

/-! ### Responses -/

theorem boxOf_setBox (s : State) (fn : Nat) (m : Mailbox) : boxOf (s.setBox fn m) fn = m := look_put _ _ _ _

theorem boxOf_setBox_ne (s : State) {fn k : Nat} (m : Mailbox) (h : k ≠ fn) : boxOf (s.setBox fn m) k = boxOf s k := look_put_ne _ _ _ h

theorem sendMsg_boxes (s : State) (fn v : Nat) : (s.sendMsg fn v).mgmt.mailboxes = s.mgmt.mailboxes ∧ (s.sendMsg fn v).mgmt.ints = s.mgmt.ints := by
  unfold State.sendMsg
  split <;> exact ⟨rfl, rfl⟩

theorem raiseInt_boxes (s : State) (fn bit : Nat) : (s.raiseInt fn bit).mgmt.mailboxes = s.mgmt.mailboxes := by
  unfold State.raiseInt
  dsimp only
  split
  · exact (sendMsg_boxes _ _ _).1
  · rfl

theorem boxOf_raiseInt (s : State) (fn bit k : Nat) : boxOf (s.raiseInt fn bit) k = boxOf s k := by unfold boxOf; rw [raiseInt_boxes]

/-- An interrupt raised sets its bit of its function, and no other bit. -/
theorem intStatus_raiseInt (s : State) (fn bit k : Nat) :
    (s.raiseInt fn bit).intStatus k = if k = fn then s.intStatus fn ||| (1#64 <<< bit) else s.intStatus k := by
  have h : (s.raiseInt fn bit).mgmt.ints = put 0 s.mgmt.ints fn (s.intStatus fn ||| (1#64 <<< bit)) := by
    unfold State.raiseInt
    dsimp only
    split
    · exact (sendMsg_boxes _ _ _).2
    · rfl
  unfold State.intStatus
  rw [h]
  exact look_put_eq _ _ _ _ _

theorem bit_set (x : BitVec 64) {bit : Nat} (h : bit < 64) : (x ||| (1#64 <<< bit)).getLsbD bit = true := by
  rw [BitVec.getLsbD_or, BitVec.getLsbD_shiftLeft]
  simp [h]

theorem raised (s : State) (fn : Nat) {bit : Nat} (h : bit < 64) : ((s.raiseInt fn bit).intStatus fn).getLsbD bit = true := by
  rw [intStatus_raiseInt, if_pos rfl]
  exact bit_set _ h

section respond

variable {s : State} {fn : Nat} {w : BitVec 256}

theorem respond_ring (hb : (boxOf s fn).backlog = []) (hr : (boxOf s fn).rspTail + 1 ≠ (boxOf s fn).rspHead) :
    s.respond fn w = (s.setBox fn ((boxOf s fn).place w)).raiseInt fn 0 := by
  unfold State.respond
  exact if_pos (Bool.and_eq_true _ _ ▸ ⟨decide_eq_true hb, decide_eq_true hr⟩)

theorem respond_waits (h : (boxOf s fn).backlog ≠ [] ∨ (boxOf s fn).rspTail + 1 = (boxOf s fn).rspHead) :
    s.respond fn w = s.setBox fn { boxOf s fn with backlog := (boxOf s fn).backlog ++ [w] } := by
  unfold State.respond
  refine if_neg (fun hc => ?_)
  obtain ⟨hb, hr⟩ := (Bool.and_eq_true _ _).mp hc
  exact h.elim (fun h => h (of_decide_eq_true hb)) (fun h => of_decide_eq_true hr h)

theorem respond_others {k : Nat} (h : k ≠ fn) : boxOf (s.respond fn w) k = boxOf s k := by
  unfold State.respond
  dsimp only
  split
  · rw [boxOf_raiseInt, boxOf_setBox_ne _ _ h]
  · exact boxOf_setBox_ne _ _ h

end respond

theorem answer_keeps_mgmt (s : State) (r : Req) (kind status payload : Nat) : Keeps [.mgmt] s (s.answer r kind status payload) :=
  State.answer_keeps (Keeps.refl _ _) (by decide)

/-! ### The rings' pointers -/

/-- Slots written from a place of the request ring on read as they were written. -/
theorem look_ring (a : Nat) (i : Nat) : ∀ (l : List (BitVec 256)) (k : Nat) (m : Sparse (BitVec 256)), k + l.length ≤ 64 →
    i < 64 → look ((l.zipIdx k).foldl (fun (r : Sparse (BitVec 256)) (x : BitVec 256 × Nat) => put 0 r ((a + x.2) % 64) x.1) m) 0 ((a + i) % 64) =
      if k ≤ i ∧ i < k + l.length then nth l 0 (i - k) else look m 0 ((a + i) % 64)
  | [], k, m, _, _ => by
    rw [if_neg (by simp)]
    rfl
  | w :: l, k, m, hk, hi => by
    rw [List.length_cons] at hk
    have hw : look (put 0 m ((a + k) % 64) w) 0 ((a + i) % 64) = if i = k then w else look m 0 ((a + i) % 64) := by
      rw [look_put_eq]
      exact if_congr ⟨fun h => by omega, fun h => by rw [h]⟩ rfl rfl
    rw [List.zipIdx_cons, List.foldl_cons, look_ring a i l (k + 1) _ (by omega) hi, hw]
    by_cases e : i = k
    · subst e
      rw [if_neg (by omega), if_pos rfl, if_pos (by simp), Nat.sub_self]
      rfl
    · rw [if_neg e]
      by_cases hr : k + 1 ≤ i ∧ i < k + 1 + l.length
      · obtain ⟨j, rfl⟩ : ∃ j, i = k + 1 + j := ⟨i - (k + 1), by omega⟩
        rw [if_pos hr, if_pos (by simp; omega), Nat.add_sub_cancel_left, show k + 1 + j - k = j + 1 by omega]
        rfl
      · rw [if_neg hr, if_neg (by simp; omega)]

/-- A request ring with slots written from its tail on. -/
def ringWith (m : Mailbox) (slots : List (BitVec 256)) : Sparse (BitVec 256) :=
  slots.zipIdx.foldl (fun (r : Sparse (BitVec 256)) (x : BitVec 256 × Nat) => put 0 r ((m.reqTail.toNat + x.2) % 64) x.1) m.req

/-- Waiting messages move into the ring, in order, until none waits or the ring is full. -/
theorem refill_moves (ws : List (BitVec 256)) : ∀ m : Mailbox, ∃ k, (m.refill ws).backlog = ws.drop k ∧
    (m.refill ws).rspTail = m.rspTail + BitVec.ofNat 8 k ∧ (m.refill ws).rspHead = m.rspHead ∧
      ((m.refill ws).backlog = [] ∨ (m.refill ws).rspTail + 1 = m.rspHead) := by
  induction ws with
  | nil => exact fun m => ⟨0, rfl, (BitVec.add_zero _).symm, rfl, .inl rfl⟩
  | cons w r ih =>
    intro m
    by_cases hm : m.room = true
    · have e : m.refill (w :: r) = (m.place w).refill r := if_pos hm
      obtain ⟨k, h1, h2, h3, h4⟩ := ih (m.place w)
      rw [e]
      refine ⟨k + 1, h1, h2.trans ?_, h3, h4⟩
      show m.rspTail + 1 + BitVec.ofNat 8 k = _
      rw [BitVec.ofNat_add, BitVec.add_assoc, BitVec.add_comm 1]
      rfl
    · have e : m.refill (w :: r) = { m with backlog := w :: r } := if_neg hm
      rw [e]
      refine ⟨0, rfl, (BitVec.add_zero _).symm, rfl, .inr ?_⟩
      simpa [Mailbox.room] using hm

theorem moveTail_req (s : State) (fn : Nat) (tail : BitVec 6) : (boxOf (s.moveTail fn tail) fn).req = (boxOf s fn).req := by
  unfold State.moveTail
  dsimp only
  split <;> rw [boxOf_setBox]

/-- A request tail moved: ignored and noted where it passes the head by more than 63 slots. -/
theorem moveTail_tail {s : State} {fn : Nat} {tail : BitVec 6} {m : Mailbox} {q : Sparse (BitVec 256)} (h : boxOf s fn = { m with req := q }) :
    if 63 < (m.reqTail - m.reqHead).toNat + (tail - m.reqTail).toNat then
      (boxOf (s.moveTail fn tail) fn).reqTail = m.reqTail ∧ (boxOf (s.moveTail fn tail) fn).reqOver = true
    else (boxOf (s.moveTail fn tail) fn).reqTail = tail ∧ (boxOf (s.moveTail fn tail) fn).reqOver = m.reqOver := by
  unfold State.moveTail
  rw [h]
  dsimp only
  split
  · rw [boxOf_setBox]
    exact ⟨rfl, rfl⟩
  · rw [boxOf_setBox]
    exact ⟨rfl, rfl⟩

/-- A response head that passes the tail is ignored and noted. -/
theorem moveHead_beyond {s : State} {fn : Nat} {head : BitVec 8}
    (h : ((boxOf s fn).rspTail - (boxOf s fn).rspHead).toNat < (head - (boxOf s fn).rspHead).toNat) :
    boxOf (s.moveHead fn head) fn = { boxOf s fn with rspOver := true } := by
  unfold State.moveHead
  dsimp only
  rw [if_pos h, boxOf_setBox]

/-- Any other moves, and what waits goes into the ring. -/
theorem moveHead_within {s : State} {fn : Nat} {head : BitVec 8}
    (h : ¬ ((boxOf s fn).rspTail - (boxOf s fn).rspHead).toNat < (head - (boxOf s fn).rspHead).toNat) :
    (boxOf (s.moveHead fn head) fn).rspHead = head ∧ ∃ k, (boxOf (s.moveHead fn head) fn).backlog = (boxOf s fn).backlog.drop k ∧
      (boxOf (s.moveHead fn head) fn).rspTail = (boxOf s fn).rspTail + BitVec.ofNat 8 k ∧
      ((boxOf (s.moveHead fn head) fn).backlog = [] ∨ (boxOf (s.moveHead fn head) fn).rspTail + 1 = head) := by
  have hb : boxOf (s.moveHead fn head) fn = ({ boxOf s fn with rspHead := head } : Mailbox).refill (boxOf s fn).backlog := by
    unfold State.moveHead
    dsimp only
    rw [if_neg h]
    split
    · rw [boxOf_raiseInt, boxOf_setBox]
    · exact boxOf_setBox _ _ _
  rw [hb]
  obtain ⟨k, h1, h2, h3, h4⟩ := refill_moves (boxOf s fn).backlog { boxOf s fn with rspHead := head }
  exact ⟨h3, k, h1, h2, h4⟩

/-- Settles O46: requests by `takeReq`, responses by `respond`, and the pointers by the slots written and the messages moved. -/
theorem mailboxAndRequests : Obligations.MailboxAndRequests := by
  unfold Obligations.MailboxAndRequests
  refine ⟨fun i r kind pf s h => ?_, fun r kind status payload s => ?_, fun fn tail slots s hon hlen => ?_, fun fn head s hon => ?_⟩
  · obtain ⟨act, hx⟩ := exec_request h s
    rw [hx]
    refine ⟨takeReq_waits, fun ht hp hfn => ?_, fun ht hp hr => ?_, fun ha hp => ⟨_, _, _, takeReq_accepted ha hp⟩⟩
    · rw [takeReq_takes ht, if_pos (by simp [hp, hfn])]
    · rw [takeReq_takes ht, if_neg (by rcases hp with hp | hp <;> simp [hp]), if_pos hr]
  · refine ⟨fun hb hr => ?_, fun hw => ?_, fun fn hfn => respond_others hfn, answer_keeps_mgmt _ _ _ _ _⟩
    · unfold State.answer
      rw [respond_ring hb hr]
      exact ⟨(boxOf_raiseInt _ _ _ _).trans (boxOf_setBox _ _ _), raised _ _ (by omega)⟩
    · unfold State.answer
      rw [respond_waits hw]
      exact boxOf_setBox _ _ _
  · have hx : exec (.mbxReqTail fn tail slots) s =
        .next ((s.setBox fn.val { boxOf s fn.val with req := ringWith (boxOf s fn.val) slots }).moveTail fn.val tail) := by
      change execMbxReqTail fn tail slots s = _
      unfold execMbxReqTail
      rw [hon]
      rfl
    refine ⟨_, hx, fun i hi => ?_, ?_, State.moveTail_keeps (State.setBox_keeps (Keeps.refl _ _) (by decide)) (by decide)⟩
    · rw [moveTail_req, boxOf_setBox]
      refine (look_ring _ i slots 0 _ (by omega) (by omega)).trans ?_
      rw [if_pos ⟨Nat.zero_le _, by omega⟩, Nat.sub_zero]
    · exact moveTail_tail (boxOf_setBox _ _ _)
  · have hx : exec (.mbxRspHead fn head) s = .next (s.moveHead fn.val head) := if_pos hon
    refine ⟨_, hx, State.moveHead_keeps (Keeps.refl _ _) (by decide), ?_⟩
    split
    · next h => exact moveHead_beyond h
    · next h => exact moveHead_within h

end Sys2Proof.Machine
end

section
/-! SUPPORT. The setup of tenancies (19 R509 to R514). -/

namespace Sys2Proof.Machine

open Sys2Proof Sys2Proof.Claims

set_option Elab.async false

theorem KeepsO.of_next {vs : List View} {s t : State} (h : KeepsO vs s (.next t)) : Keeps vs s t := by
  obtain ⟨_, e, hk⟩ := h
  cases e
  exact hk

/-! ### What a request taken leaves -/

/-- A request done: what its act leaves, answered with its status and payload. -/
theorem takeReq_done {s u : State} {r : Req} {kind status payload : Nat} {pf : Bool} {act : State → State × Nat × Nat} (h : accepted r s)
    (hp : pf = false ∨ r.fn = 0) (e : act (s.popReq r.fn.val) = (u, status, payload)) :
    s.takeReq r kind pf act = .next (u.answer r kind status payload) := by
  rw [takeReq_accepted h hp, e]

section popReq

variable (s : State) (fn : Nat)

theorem popReq_keeps_mgmt : Keeps [.mgmt] s (s.popReq fn) := State.popReq_keeps (Keeps.refl _ _) (by decide)

@[simp] theorem popReq_ten (n : Nat) : (s.popReq fn).ten n = s.ten n := (popReq_keeps_mgmt s fn).ten_eq n
@[simp] theorem popReq_tenExists (n : Nat) : (s.popReq fn).tenExists n = s.tenExists n := by unfold State.tenExists; rw [popReq_ten]
@[simp] theorem popReq_tenancies : tenancies (s.popReq fn) = tenancies s := by unfold tenancies; simp only [popReq_tenExists]
@[simp] theorem popReq_shareOf (n st : Nat) : shareOf (s.popReq fn) n st = shareOf s n st := by unfold shareOf; rw [popReq_ten]
@[simp] theorem popReq_partOf (n k : Nat) : partOf (s.popReq fn) n k = partOf s n k := by unfold partOf; rw [popReq_ten]
@[simp] theorem popReq_hbm : (s.popReq fn).hbm = s.hbm := (popReq_keeps_mgmt s fn).eq_hbm

end popReq

theorem fn_val {r : Req} (h0 : r.fn = 0) : r.fn.val = 0 := by rw [h0]; rfl

theorem onEmpty_ready {s : State} {ten : BitVec 8} {act : State × Nat × Nat} (he : s.tenExists ten.toNat = true)
    (hs : (s.ten ten.toNat).load.st = .empty) : onEmpty s ten act = act := by
  unfold onEmpty
  rw [he, hs]
  rfl

theorem onEmpty_busy {s : State} {ten : BitVec 8} {act : State × Nat × Nat} (he : s.tenExists ten.toNat = true)
    (hs : (s.ten ten.toNat).load.st ≠ .empty) : onEmpty s ten act = (s, 6, 0) := by
  unfold onEmpty
  rw [he, if_neg (by simp), if_pos hs]

/-! ### Runs of words released -/

/-- A word of a run that the run it becomes leaves out is in what is left. -/
theorem runLeft_mem {a n b m w : Nat} (h1 : a ≤ w) (h2 : w < a + n) (h3 : w < b ∨ b + m ≤ w) :
    ∃ x ∈ runLeft a n b m, x.1 ≤ w ∧ w < x.1 + x.2 := by
  unfold runLeft runsMeet
  by_cases hm : a < b + m ∧ b < a + n
  · rw [if_neg (by simp [hm])]
    rcases h3 with h3 | h3
    · exact ⟨(a, b - a), List.mem_append_left _ (by rw [if_pos (by omega)]; exact List.mem_singleton_self _), h1, by dsimp only; omega⟩
    · exact ⟨(b + m, a + n - (b + m)), List.mem_append_right _ (by rw [if_pos (by omega)]; exact List.mem_singleton_self _), h3, by dsimp only; omega⟩
  · rw [if_pos (by simp only [Bool.not_eq_true', Bool.and_eq_false_iff, decide_eq_false_iff_not]; omega), if_neg (by omega)]
    exact ⟨(a, n), List.mem_singleton_self _, h1, h2⟩

/-- A word of a stack is among those to be cleared. -/
def toClear (s : State) (st w : Nat) : Prop := ∃ x ∈ s.hbm.clearing, x.1 = st ∧ x.2.1 ≤ w ∧ w < x.2.1 + x.2.2

theorem freeRuns_clear {s : State} {st w : Nat} {rs : List (Nat × Nat)} (h : ∃ x ∈ rs, x.1 ≤ w ∧ w < x.1 + x.2) : toClear (s.freeRuns st rs) st w := by
  obtain ⟨x, hx, h1, h2⟩ := h
  exact ⟨(st, x.1, x.2), List.mem_append_right _ (List.mem_map_of_mem hx), rfl, h1, h2⟩

theorem toClear_freeRuns {s : State} {st st' w : Nat} {rs : List (Nat × Nat)} (h : toClear s st w) : toClear (s.freeRuns st' rs) st w := by
  obtain ⟨x, hx, h1⟩ := h
  exact ⟨x, List.mem_append_left _ hx, h1⟩

@[simp] theorem freeRuns_ten (s : State) (st n : Nat) (rs : List (Nat × Nat)) : (s.freeRuns st rs).ten n = s.ten n := rfl

/-! ### The sub-operations -/

section setup

variable {r : Req} {s : State} (ha : accepted r s) (h0 : r.fn = 0) (ten : BitVec 8)
include ha h0

/-- The definition of a new tenancy. -/
def newDef (y0 h : BitVec 8) (ports : BitVec 16) : TenDef := { exists_ := true, y0 := y0.setWidth 3, h := h.setWidth 4, ports := ports }

theorem exec_create {y0 h weight : BitVec 8} {ports : BitVec 16} (hn : s.tenExists ten.toNat = false) (hc : createOk s ten y0 h weight ports = true) :
    exec (.create r ten y0 h weight ports) s =
      .next (((s.popReq 0).setTen ten.toNat { def_ := newDef y0 h ports, weight := weight }).answer r 5 0 0) := by
  have hc' : createOk (s.popReq 0) ten y0 h weight ports = true := by
    unfold createOk at hc ⊢
    simpa using hc
  change execCreate r ten y0 h weight ports s = _
  unfold execCreate
  refine takeReq_done ha (.inr h0) ?_
  rw [fn_val h0]
  dsimp only
  rw [if_neg (by simp [hn]), if_neg (by simp [hc'])]
  rfl

theorem exec_share_none {stack : BitVec 8} {base size : BitVec 32} (he : s.tenExists ten.toNat = true) (hs : (s.ten ten.toNat).load.st = .empty)
    (hr : (s.ten ten.toNat).def_.reaches stack.toNat = true) (hz : size = 0) : exec (.share r ten stack base size) s =
      .next ((((s.popReq 0).modDef ten.toNat (fun d => { d with shares := del d.shares stack.toNat })).freeRuns stack.toNat
        (runLeft (shareOf s ten.toNat stack.toNat).1 (shareOf s ten.toNat stack.toNat).2 0 0)).answer r 5 0 0) := by
  change execShare r ten stack base size s = _
  unfold execShare
  refine takeReq_done ha (.inr h0) ?_
  rw [fn_val h0]
  dsimp only
  rw [onEmpty_ready (by simpa using he) (by simpa using hs), if_neg (by simp [hr]), if_pos hz]
  simp only [popReq_shareOf]

theorem exec_share_some {stack : BitVec 8} {base size : BitVec 32} (he : s.tenExists ten.toNat = true) (hs : (s.ten ten.toNat).load.st = .empty)
    (hr : (s.ten ten.toNat).def_.reaches stack.toNat = true) (hz : size ≠ 0) (hfit : 64 * (base.toNat + size.toNat) ≤ 16646144)
    (hm : ∀ m ∈ tenancies s, m ≠ ten.toNat → runsMeet (8192 * base.toNat) (8192 * size.toNat) (shareOf s m stack.toNat).1 (shareOf s m stack.toNat).2 = false)
    (hc : ∀ x ∈ s.hbm.clearing, x.1 = stack.toNat → runsMeet (8192 * base.toNat) (8192 * size.toNat) x.2.1 x.2.2 = false) :
    exec (.share r ten stack base size) s =
      .next ((((s.popReq 0).modDef ten.toNat (fun d => { d with shares := set d.shares stack.toNat (base.toNat, size.toNat) })).freeRuns stack.toNat
        (runLeft (shareOf s ten.toNat stack.toNat).1 (shareOf s ten.toNat stack.toNat).2 (8192 * base.toNat) (8192 * size.toNat))).answer r 5 0 0) := by
  have h1 : (tenancies s).any (fun u => decide (u ≠ ten.toNat) && runsMeet (8192 * base.toNat) (8192 * size.toNat) (shareOf s u stack.toNat).1
      (shareOf s u stack.toNat).2) = false := by
    rw [List.any_eq_false]
    intro m hm'
    simp only [Bool.and_eq_true, decide_eq_true_eq, not_and, Bool.not_eq_true]
    exact hm m hm'
  have h2 : s.hbm.clearing.any (fun (x : Nat × Nat × Nat) => decide (x.1 = stack.toNat) && runsMeet (8192 * base.toNat) (8192 * size.toNat) x.2.1 x.2.2) =
      false := by
    rw [List.any_eq_false]
    intro x hx
    simp only [Bool.and_eq_true, decide_eq_true_eq, not_and, Bool.not_eq_true]
    exact hc x hx
  change execShare r ten stack base size s = _
  unfold execShare
  refine takeReq_done ha (.inr h0) ?_
  rw [fn_val h0]
  dsimp only
  rw [onEmpty_ready (by simpa using he) (by simpa using hs), if_neg (by simp [hr]), if_neg hz, if_neg (by omega)]
  simp only [popReq_shareOf, popReq_tenancies, popReq_hbm, h1, h2]
  rfl

theorem exec_windows {stack : BitVec 8} {allow : BitVec 64} (he : s.tenExists ten.toNat = true) (hs : (s.ten ten.toNat).load.st = .empty)
    (hr : (s.ten ten.toNat).def_.reaches stack.toNat = true) (hh : allow &&& 0xE400_2001_0008_0040 = 0)
    (hm : ∀ m ∈ tenancies s, m ≠ ten.toNat → look (s.ten m).def_.allow 0 stack.toNat &&& allow = 0) : exec (.windows r ten stack allow) s =
      .next (((s.popReq 0).modDef ten.toNat (fun d => { d with allow := put 0 d.allow stack.toNat allow })).answer r 5 0 0) := by
  have h1 : (tenancies s).any (fun u => decide (u ≠ ten.toNat) && decide (look (s.ten u).def_.allow 0 stack.toNat &&& allow ≠ 0)) = false := by
    rw [List.any_eq_false]
    intro m hm'
    simp only [Bool.and_eq_true, decide_eq_true_eq, not_and, not_not]
    exact hm m hm'
  change execWindows r ten stack allow s = _
  unfold execWindows
  refine takeReq_done ha (.inr h0) ?_
  rw [fn_val h0]
  dsimp only
  rw [onEmpty_ready (by simpa using he) (by simpa using hs)]
  simp only [popReq_ten, popReq_tenancies, hr, h1]
  exact if_neg (by simp only [Bool.not_true, Bool.false_or, Bool.or_false, decide_eq_true_eq, ne_eq, not_not]; exact hh)

/-- The parts of a tenancy with a partition of one store, or without where it has no entry. -/
def partsWith (ps : List (Nat × Nat × Nat)) (k a n : Nat) : List (Nat × Nat × Nat) := if n = 0 then del ps k else set ps k (a, n)

def TenDef.withPart (d : TenDef) (k a n : Nat) : TenDef := { d with parts := partsWith d.parts k a n }

theorem exec_partition {code : BitVec 8} {base size : BitVec 32} (he : s.tenExists ten.toNat = true) (hs : (s.ten ten.toNat).load.st = .empty)
    (hk : code.toNat < 8) (hfit : base.toNat * storeUnit code.toNat + size.toNat * storeUnit code.toNat ≤ storeEntries code.toNat)
    (hph : code.toNat = 6 → size.toNat * storeUnit code.toNat ∈ phaseSizes)
    (hm : ∀ m ∈ tenancies s, m ≠ ten.toNat → runsMeet (base.toNat * storeUnit code.toNat) (size.toNat * storeUnit code.toNat)
      (partOf s m code.toNat).1 (partOf s m code.toNat).2 = false) : exec (.partition r ten code base size) s =
      .next (((s.popReq 0).modDef ten.toNat (fun d => d.withPart code.toNat (base.toNat * storeUnit code.toNat)
        (size.toNat * storeUnit code.toNat))).answer r 5 0 0) := by
  have h1 : (tenancies s).any (fun u => decide (u ≠ ten.toNat) && runsMeet (base.toNat * storeUnit code.toNat) (size.toNat * storeUnit code.toNat)
      (partOf s u code.toNat).1 (partOf s u code.toNat).2) = false := by
    rw [List.any_eq_false]
    intro m hm'
    simp only [Bool.and_eq_true, decide_eq_true_eq, not_and, Bool.not_eq_true]
    exact hm m hm'
  have h2 : (decide (code.toNat = 6) && !phaseSizes.contains (size.toNat * storeUnit code.toNat)) = false := by
    by_cases h6 : code.toNat = 6
    · rw [List.contains_iff_mem.2 (hph h6)]
      simp
    · simp [h6]
  change execPartition r ten code base size s = _
  unfold execPartition
  refine takeReq_done ha (.inr h0) ?_
  rw [fn_val h0]
  dsimp only
  rw [onEmpty_ready (by simpa using he) (by simpa using hs)]
  simp only [popReq_partOf, popReq_tenancies, h1, h2]
  exact if_neg (by simp; omega)

theorem exec_weight {w : BitVec 8} (he : s.tenExists ten.toNat = true) (hw : w ≠ 0) : exec (.weight r ten w) s =
    .next (((s.popReq 0).modTen ten.toNat (fun n => { n with weight := w })).answer r 5 0 0) := by
  change execWeight r ten w s = _
  unfold execWeight
  refine takeReq_done ha (.inr h0) ?_
  rw [fn_val h0]
  exact if_neg (by simpa [he] using hw)

theorem exec_destroy (he : s.tenExists ten.toNat = true) (hs : (s.ten ten.toNat).load.st = .empty) :
    exec (.destroy r ten) s = .next (((s.popReq 0).freeTen ten.toNat).answer r 5 0 0) := by
  change execDestroy r ten s = _
  unfold execDestroy
  refine takeReq_done ha (.inr h0) ?_
  rw [fn_val h0]
  rw [if_neg (by simp [he]), onEmpty_ready (by simpa using he) (by simpa using hs)]

/-- A setup of a tenancy that is not EMPTY is refused. -/
theorem exec_setup_busy (he : s.tenExists ten.toNat = true) (hs : (s.ten ten.toNat).load.st ≠ .empty) {i : Instr}
    (hi : (∃ y0 h weight ports, i = .create r ten y0 h weight ports) ∨ (∃ stack base size, i = .share r ten stack base size) ∨
      (∃ stack allow, i = .windows r ten stack allow) ∨ (∃ code base size, i = .partition r ten code base size) ∨ i = .destroy r ten) :
    exec i s = .next ((s.popReq 0).answer r 5 6 0) := by
  have he' : (s.popReq 0).tenExists ten.toNat = true := by simpa using he
  have hs' : ((s.popReq 0).ten ten.toNat).load.st ≠ .empty := by simpa using hs
  obtain ⟨y0, h, weight, ports, rfl⟩ | ⟨stack, base, size, rfl⟩ | ⟨stack, allow, rfl⟩ | ⟨code, base, size, rfl⟩ | rfl := hi
  · change execCreate r ten y0 h weight ports s = _
    unfold execCreate
    refine takeReq_done ha (.inr h0) ?_
    rw [fn_val h0]
    dsimp only
    rw [if_pos he', if_neg hs']
  · change execShare r ten stack base size s = _
    unfold execShare
    refine takeReq_done ha (.inr h0) ?_
    rw [fn_val h0]
    exact onEmpty_busy he' hs'
  · change execWindows r ten stack allow s = _
    unfold execWindows
    refine takeReq_done ha (.inr h0) ?_
    rw [fn_val h0]
    exact onEmpty_busy he' hs'
  · change execPartition r ten code base size s = _
    unfold execPartition
    refine takeReq_done ha (.inr h0) ?_
    rw [fn_val h0]
    exact onEmpty_busy he' hs'
  · change execDestroy r ten s = _
    unfold execDestroy
    refine takeReq_done ha (.inr h0) ?_
    rw [fn_val h0]
    rw [if_neg (by simpa using he)]
    exact onEmpty_busy he' hs'

end setup

/-! ### What each sub-operation leaves -/

theorem modDef_keeps_setup (s : State) (n : Nat) (f : TenDef → TenDef) : Keeps [.tens, .mgmt] s ((s.popReq 0).modDef n f) :=
  State.modDef_keeps ((popReq_keeps_mgmt s 0).mono (by decide)) (by decide)

theorem ten_modDef (s : State) (n : Nat) (f : TenDef → TenDef) : (s.modDef n f).ten n = { s.ten n with def_ := f (s.ten n).def_ } :=
  State.ten_modTen _ _ _

theorem ten_modDef_ne (s : State) {n m : Nat} (f : TenDef → TenDef) (h : m ≠ n) : (s.modDef n f).ten m = s.ten m :=
  State.ten_modTen_ne _ _ h

theorem partOf_withPart (s : State) (n k a len : Nat) : (partOf (s.modDef n (fun d => d.withPart k a len)) n k).2 = len ∧
    (len ≠ 0 → (partOf (s.modDef n (fun d => d.withPart k a len)) n k).1 = a) := by
  unfold partOf
  rw [ten_modDef]
  by_cases h : len = 0
  · simp [TenDef.withPart, partsWith, h, look]
  · simp [TenDef.withPart, partsWith, h]

theorem ten_del (s : State) (n : Nat) : State.ten { s with tens := del s.tens n } n = {} := by simp [State.ten, look]

theorem ten_del_ne (s : State) {n m : Nat} (h : m ≠ n) : State.ten { s with tens := del s.tens n } m = s.ten m := by
  simp [State.ten, look, find_del_ne _ h]

/-- The words of each run given back over a list of stacks are among those to be cleared. -/
theorem toClear_foldl (rs : Nat → List (Nat × Nat)) (l : List Nat) (s : State) {st w : Nat}
    (h : toClear s st w ∨ st ∈ l ∧ ∃ x ∈ rs st, x.1 ≤ w ∧ w < x.1 + x.2) : toClear (l.foldl (fun (u : State) k => u.freeRuns k (rs k)) s) st w := by
  induction l generalizing s with
  | nil => exact h.resolve_right (by simp)
  | cons k l ih =>
    refine ih _ ?_
    rcases h with h | ⟨hm, hx⟩
    · exact .inl (toClear_freeRuns h)
    · rcases List.mem_cons.1 hm with rfl | hm
      · exact .inl (freeRuns_clear hx)
      · exact .inr ⟨hm, hx⟩

theorem foldl_freeRuns_tens (rs : Nat → List (Nat × Nat)) (l : List Nat) (s : State) :
    (l.foldl (fun (u : State) k => u.freeRuns k (rs k)) s).tens = s.tens := by
  induction l generalizing s with
  | nil => rfl
  | cons k l ih => exact ih _

theorem freeTen_tens (s : State) (n : Nat) : (s.freeTen n).tens = del s.tens n := by
  unfold State.freeTen State.dropReader
  simp only [foldl_freeRuns_tens (fun st => runLeft (shareOf s n st).1 (shareOf s n st).2 0 0)]

theorem freeTen_hbm (s : State) (n : Nat) : (s.freeTen n).hbm =
    ((upTo 8).foldl (fun (u : State) st => u.freeRuns st (runLeft (shareOf s n st).1 (shareOf s n st).2 0 0)) s).hbm := by
  unfold State.freeTen State.dropReader
  rfl

/-- The end of a tenancy: it is no more, the others stand, and its words are to be cleared. -/
theorem freeTen_ends (s : State) (n : Nat) : (s.freeTen n).tenExists n = false ∧ (∀ m, m ≠ n → (s.freeTen n).ten m = s.ten m) ∧
    ∀ st w, st < 8 → (shareOf s n st).1 ≤ w → w < (shareOf s n st).1 + (shareOf s n st).2 → toClear (s.freeTen n) st w := by
  have hten (m : Nat) : (s.freeTen n).ten m = State.ten { s with tens := del s.tens n } m := by
    unfold State.ten
    rw [freeTen_tens]
  refine ⟨?_, fun m hm => (hten m).trans (ten_del_ne s hm), fun st w hst h1 h2 => ?_⟩
  · unfold State.tenExists
    rw [hten, ten_del]
  · have hx : ∃ x ∈ runLeft (shareOf s n st).1 (shareOf s n st).2 0 0, x.1 ≤ w ∧ w < x.1 + x.2 := runLeft_mem h1 h2 (.inr (Nat.zero_le w))
    have hm : st ∈ upTo 8 := List.mem_range.2 hst
    have hc := toClear_foldl (fun st => runLeft (shareOf s n st).1 (shareOf s n st).2 0 0) (upTo 8) s (.inr ⟨hm, hx⟩)
    unfold toClear at hc ⊢
    rw [freeTen_hbm]
    exact hc

/-! ### Words cleared -/

theorem find_filter_keys {α : Type} (m : Sparse α) (p : Nat → Bool) (k : Nat) :
    find (m.filter (fun e => p e.1)) k = if p k then find m k else none := by
  induction m with
  | nil => simp [find]
  | cons e m ih =>
    obtain ⟨a, v⟩ := e
    by_cases hk : a = k
    · subst hk
      by_cases hp : p a = true <;> simp [find, hp, ih]
    · by_cases hp : p a = true <;> simp [find, hp, hk, ih]

theorem hbmGet_filter (m : Mem) (p : Nat → Bool) (k : Nat) :
    hbmGet (m.filter (fun e => !p e.1)) k = if p k then hbmDefault k else hbmGet m k := by
  unfold hbmGet look
  rw [find_filter_keys m (fun k => !p k)]
  by_cases h : p k = true <;> simp [h]

/-- The energy of each run cleared. -/
def chargeCleared (u : State) (x : Nat × Nat × Nat) : State :=
  u.charge none (eventEnergy u 13 (x.2.2 + x.2.2 / 128)) [stackOff x.1 0x28, chipOff 0x100]

theorem chargeCleared_keeps (rs : List (Nat × Nat × Nat)) (s : State) : Keeps [.tens, .power] s (rs.foldl chargeCleared s) :=
  Keeps.foldl (Keeps.refl _ _) (fun _ _ hu => State.charge_keeps hu (by decide))

/-- A state without the words that are to be cleared. -/
def wordsCleared (rs : List (Nat × Nat × Nat)) (s : State) : State :=
  { s with hbm := { s.hbm with words := s.hbm.words.filter (fun e => !inReleased rs e.1)
                               stash := s.hbm.stash.filter (fun e => !inReleased rs e.1), clearing := [] } }

theorem exec_shareClearingDone (s : State) :
    exec .shareClearingDone s = .next (wordsCleared s.hbm.clearing (s.hbm.clearing.foldl chargeCleared s)) := rfl

/-! ### Functions enabled -/

/-- The functions enabled with one of them on or off. -/
def vfSet (l : List Nat) (fn : Nat) (on : Bool) : List Nat := if on then insertNew l fn else l.filter (fun x => x ≠ fn)

theorem mem_vfSet (l : List Nat) (fn : Nat) (on : Bool) (x : Nat) : x ∈ vfSet l fn on ↔ if x = fn then on = true else x ∈ l := by
  unfold vfSet
  cases on with
  | true =>
    by_cases h : x = fn
    · simp [h, mem_insertNew_self]
    · simp only [if_true, if_neg h]
      unfold insertNew
      split
      · rfl
      · simp [h]
  | false => by_cases h : x = fn <;> simp [h]

/-- A function enabled or disabled; a disabled one reads no daybook entry any more. -/
def vfState (vf : Ten) (on : Bool) (s : State) : State :=
  if on then { s with mgmt := { s.mgmt with vfOn := vfSet s.mgmt.vfOn (fnOf vf.val) on } }
  else State.dropReader { s with mgmt := { s.mgmt with vfOn := vfSet s.mgmt.vfOn (fnOf vf.val) on } } (fnOf vf.val)

theorem exec_vfEnable (vf : Ten) (on : Bool) (s : State) : exec (.vfEnable vf on) s = .next (vfState vf on s) := by
  cases on <;> rfl

theorem vfOn_vfState (vf : Ten) (on : Bool) (s : State) : (vfState vf on s).mgmt.vfOn = vfSet s.mgmt.vfOn (vf.val + 1) on := by
  cases on <;> rfl

theorem dropReader_unread (s : State) (fn : Nat) : ∀ e ∈ (s.dropReader fn).mgmt.ring, fn ∉ e.readers := by
  intro e he
  obtain ⟨e', -, rfl⟩ := List.mem_map.1 (List.mem_of_mem_filter he)
  simp

/-- Settles O47: each sub-operation by what its act leaves of the state with the request taken. -/
theorem tenancySetup : Obligations.TenancySetup := by
  unfold Obligations.TenancySetup
  refine ⟨fun r s ha h0 ten => ?_, fun s => ?_, fun vf on s => ?_⟩
  · refine ⟨fun y0 h weight ports hn h8 h1 hb hw hl hr hm => ?_, fun stack base size hr hreach => ⟨fun hz => ?_, fun hz hfit hm hc => ?_⟩,
      fun stack allow hr hreach hh hm => ?_, fun code base size hr hk hfit hph hm => ?_, fun w he hw => ?_, fun hr => ?_,
      fun he hs i hi => exec_setup_busy ha h0 ten he hs hi⟩
    · refine ⟨_, exec_create ha h0 ten hn ?_, ⟨?_, ?_, ?_, ?_⟩, fun m hm => ?_⟩
      · simp only [createOk, Bool.and_eq_true, Bool.or_eq_true, decide_eq_true_eq, List.all_eq_true, Bool.not_eq_true']
        exact ⟨⟨⟨⟨⟨⟨h8, h1⟩, hb⟩, hw⟩, hl⟩, hr⟩, hm⟩
      · rw [State.ten_setTen]
        rfl
      · rw [State.ten_setTen]
      · rw [State.ten_setTen]
      · exact State.setTen_keeps ((popReq_keeps_mgmt s 0).mono (by decide)) (by decide)
      · exact (State.ten_setTen_ne _ _ hm).trans (popReq_ten s 0 m)
    · refine ⟨_, exec_share_none ha h0 ten hr.1 hr.2 hreach hz, ⟨?_, fun w h1 h2 => ?_, ?_⟩, fun m hm => ?_⟩
      · unfold shareOf
        rw [freeRuns_ten, ten_modDef]
        simp [look]
      · exact freeRuns_clear (runLeft_mem h1 h2 (.inr (Nat.zero_le w)))
      · exact State.freeRuns_keeps ((modDef_keeps_setup s _ _).mono (by decide)) (by decide)
      · rw [freeRuns_ten, ten_modDef_ne _ _ hm, popReq_ten]
    · refine ⟨_, exec_share_some ha h0 ten hr.1 hr.2 hreach hz hfit hm hc, ⟨?_, fun w h1 h2 h3 => ?_, ?_⟩, fun m hm => ?_⟩
      · unfold shareOf
        rw [freeRuns_ten, ten_modDef]
        simp
      · exact freeRuns_clear (runLeft_mem h1 h2 h3)
      · exact State.freeRuns_keeps ((modDef_keeps_setup s _ _).mono (by decide)) (by decide)
      · rw [freeRuns_ten, ten_modDef_ne _ _ hm, popReq_ten]
    · refine ⟨_, exec_windows ha h0 ten hr.1 hr.2 hreach hh hm, ⟨?_, modDef_keeps_setup s _ _⟩, fun m hm => ?_⟩
      · rw [ten_modDef]
        exact look_put _ _ _ _
      · rw [ten_modDef_ne _ _ hm, popReq_ten]
    · obtain ⟨hlen, hbase⟩ := partOf_withPart (s.popReq 0) ten.toNat code.toNat (base.toNat * storeUnit code.toNat) (size.toNat * storeUnit code.toNat)
      refine ⟨_, exec_partition ha h0 ten hr.1 hr.2 hk hfit hph hm, ⟨hlen, hbase, modDef_keeps_setup s _ _⟩, fun m hm => ?_⟩
      rw [ten_modDef_ne _ _ hm, popReq_ten]
    · refine ⟨_, exec_weight ha h0 ten he hw, ⟨?_, ?_⟩, fun m hm => ?_⟩
      · rw [State.ten_modTen, popReq_ten]
      · exact State.modTen_keeps ((popReq_keeps_mgmt s 0).mono (by decide)) (by decide)
      · rw [State.ten_modTen_ne _ _ hm, popReq_ten]
    · obtain ⟨hend, hothers, hclear⟩ := freeTen_ends (s.popReq 0) ten.toNat
      refine ⟨_, exec_destroy ha h0 ten hr.1 hr.2, ⟨hend, fun st w hst h1 h2 => hclear st w hst (by simpa using h1) (by simpa using h2), ?_⟩,
        fun m hm => ?_⟩
      · exact State.freeTen_keeps ((popReq_keeps_mgmt s 0).mono (by decide)) (by decide)
      · rw [hothers m hm, popReq_ten]
  · have hk := chargeCleared_keeps s.hbm.clearing s
    refine ⟨_, exec_shareClearingDone s, rfl, fun key => ?_, 
      KeepsO.of_next (execShareClearingDone_keeps (s := s) (Keeps.refl _ _) (by decide))⟩
    have e := hbmGet_filter (s.hbm.clearing.foldl chargeCleared s).hbm.words (inReleased s.hbm.clearing) key
    rw [show rawWord s .hbm key = hbmGet (s.hbm.clearing.foldl chargeCleared s).hbm.words key by rw [hk.eq_hbm]; rfl]
    exact e
  · refine ⟨_, exec_vfEnable vf on s, fun fn => ?_, fun hoff => ?_, KeepsO.of_next ?_⟩
    · rw [vfOn_vfState]
      exact mem_vfSet _ _ _ _
    · subst hoff
      exact dropReader_unread _ _
    · rw [← exec_vfEnable]
      exact execVfEnable_keeps (Keeps.refl _ _) (by decide)

end Sys2Proof.Machine
end

section
/-! SUPPORT. The requests about the chip (18 R474 to R488, R495; 09 R231, R234, R246; 17 R452). -/

namespace Sys2Proof.Machine

open Sys2Proof Sys2Proof.Claims

set_option Elab.async false

/-! ### Fields of a word replaced -/

theorem getLsbD_putBits {n k : Nat} (w : BitVec n) (lo : Nat) (v : BitVec k) {i : Nat} (hi : i < n) :
    (putBits w lo v).getLsbD i = if lo ≤ i ∧ i < lo + k then v.getLsbD (i - lo) else w.getLsbD i := by
  unfold putBits
  have hm : (BitVec.ofNat n (2 ^ k - 1)).getLsbD (i - lo) = decide (i - lo < k) := by
    rw [BitVec.getLsbD_ofNat, Nat.testBit_two_pow_sub_one]
    simp [show i - lo < n by omega]
  have hw : (BitVec.ofNat n v.toNat).getLsbD (i - lo) = v.getLsbD (i - lo) := by
    rw [BitVec.getLsbD_ofNat, BitVec.testBit_toNat]
    simp [show i - lo < n by omega]
  simp only [BitVec.getLsbD_or, BitVec.getLsbD_and, BitVec.getLsbD_not, BitVec.getLsbD_shiftLeft, hm, hw]
  by_cases hl : lo ≤ i
  · by_cases hk : i < lo + k
    · simp [hi, hl, hk, show ¬ i < lo by omega, show i - lo < k by omega]
    · have hv : v.getLsbD (i - lo) = false := BitVec.getLsbD_of_ge _ _ (by omega)
      simp [hi, hl, hk, hv, show ¬ i < lo by omega, show ¬ i - lo < k by omega]
  · simp [hi, hl, show i < lo by omega]

/-- The field replaced. -/
theorem extract_putBits {n k : Nat} (w : BitVec n) (lo : Nat) (v : BitVec k) (h : lo + k ≤ n) : (putBits w lo v).extractLsb' lo k = v := by
  refine BitVec.eq_of_getLsbD_eq (fun i hi => ?_)
  rw [BitVec.getLsbD_extractLsb', getLsbD_putBits _ _ _ (by omega), if_pos ⟨by omega, by omega⟩]
  simp [hi]

/-- The bits above the field replaced. -/
theorem extract_putBits_above {n k : Nat} (w : BitVec n) (lo : Nat) (v : BitVec k) {hi len : Nat} (h : lo + k ≤ hi) (hn : hi + len ≤ n) :
    (putBits w lo v).extractLsb' hi len = w.extractLsb' hi len := by
  refine BitVec.eq_of_getLsbD_eq (fun i hi' => ?_)
  rw [BitVec.getLsbD_extractLsb', BitVec.getLsbD_extractLsb', getLsbD_putBits _ _ _ (by omega), if_neg (by omega)]

/-! ### Telemetry -/

/-- Values of 64 bits, the first lowest. -/
def packed64 (l : List Nat) : Nat := l.foldr (fun v n => n * 2 ^ 64 + v) 0

theorem packed64_cons (v : Nat) (l : List Nat) : packed64 (v :: l) = packed64 l * 2 ^ 64 + v := rfl

theorem packed64_get (l : List Nat) (hl : ∀ v ∈ l, v < 2 ^ 64) (i : Nat) (hi : i < l.length) : packed64 l / 2 ^ (64 * i) % 2 ^ 64 = l[i] := by
  induction l generalizing i with
  | nil => exact absurd hi (by simp)
  | cons v l ih =>
    have hv := hl v List.mem_cons_self
    rw [packed64_cons]
    cases i with
    | zero => rw [Nat.mul_zero, pow_zero, Nat.div_one, Nat.mul_comm, Nat.mul_add_mod, Nat.mod_eq_of_lt hv]; rfl
    | succ i =>
      have e : (packed64 l * 2 ^ 64 + v) / 2 ^ 64 = packed64 l := by
        rw [Nat.mul_comm, Nat.mul_add_div (by decide), Nat.div_eq_of_lt hv, Nat.add_zero]
      rw [Nat.mul_succ, Nat.add_comm (64 * i), Nat.pow_add, ← Nat.div_div_eq_div_mul, e]
      exact ih (fun x hx => hl x (List.mem_cons_of_mem _ hx)) i (by simpa using hi)

/-! ### The daybook's drain -/

/-- Words written to the host at an address and on. -/
theorem look_hostWrites (ws : List (BitVec 256)) (m : Sparse (BitVec 256)) (a : Nat) :
    let x := (ws.foldl (fun (p : Sparse (BitVec 256) × Nat) w => (set p.1 p.2 w, p.2 + 32)) (m, a)).1
    (∀ i (_ : i < ws.length), look x 0 (a + 32 * i) = ws[i]) ∧ ∀ k, k < a → look x 0 k = look m 0 k := by
  induction ws generalizing m a with
  | nil => exact ⟨fun i hi => absurd hi (by simp), fun _ _ => rfl⟩
  | cons w ws ih =>
    obtain ⟨h1, h2⟩ := ih (set m a w) (a + 32)
    refine ⟨fun i hi => ?_, fun k hk => (h2 k (by omega)).trans (look_set_ne _ _ _ (by omega))⟩
    cases i with
    | zero => exact (h2 _ (by omega)).trans (look_set _ _ _ _)
    | succ i =>
      have e := h1 i (by simpa using hi)
      rw [show a + 32 + 32 * i = a + 32 * (i + 1) by omega] at e
      exact e

/-- The entries of a daybook that a function may read. -/
def readEntries (fn : Nat) (l : List DayEntry) : List DayEntry := l.filter (fun e => e.readers.contains fn)

theorem readEntries_reader {fn : Nat} {e : DayEntry} (h : e.readers.contains fn = true) (l : List DayEntry) :
    readEntries fn (e :: l) = e :: readEntries fn l := List.filter_cons_of_pos (p := fun e : DayEntry => e.readers.contains fn) h

theorem readEntries_other {fn : Nat} {e : DayEntry} (h : e.readers.contains fn = false) (l : List DayEntry) :
    readEntries fn (e :: l) = readEntries fn l := List.filter_cons_of_neg (p := fun e : DayEntry => e.readers.contains fn) (by rw [h]; simp)

theorem popReq_ring (s : State) (fn : Nat) : (s.popReq fn).mgmt.ring = s.mgmt.ring := by
  unfold State.popReq
  dsimp only
  split
  · rfl
  · rfl

/-- An entry drained: it stays while another function may still read it. -/
theorem drainRing_takes {fn : Nat} {e : DayEntry} (n : Nat) (l : List DayEntry) (h : e.readers.contains fn = true) :
    drainRing fn (n + 1) (e :: l) = (if e.readers.erase fn = [] then (drainRing fn n l).1
      else ⟨e.word, e.readers.erase fn⟩ :: (drainRing fn n l).1, e.word :: (drainRing fn n l).2) := by
  rw [drainRing, if_pos (by rw [h]; rfl)]
  rfl

theorem drainRing_passes {fn : Nat} {e : DayEntry} (n : Nat) (l : List DayEntry) (h : n = 0 ∨ e.readers.contains fn = false) :
    drainRing fn n (e :: l) = (e :: (drainRing fn n l).1, (drainRing fn n l).2) := by
  rw [drainRing, if_neg]
  rcases h with rfl | h
  · simp
  · rw [h]
    simp

theorem drainRing_words (fn n : Nat) (l : List DayEntry) : (drainRing fn n l).2 = ((readEntries fn l).take n).map (·.word) := by
  induction l generalizing n with
  | nil => simp [drainRing, readEntries]
  | cons e l ih =>
    cases hc : e.readers.contains fn with
    | true =>
      cases n with
      | zero => rw [drainRing_passes _ _ (.inl rfl), ih, List.take_zero, List.take_zero]
      | succ n => rw [drainRing_takes n l hc, ih, readEntries_reader hc, List.take_succ_cons, List.map_cons]
    | false => rw [drainRing_passes _ _ (.inr hc), readEntries_other hc, ih]

theorem drainRing_unread (fn n : Nat) (l : List DayEntry) (hl : ∀ e ∈ l, e.readers.Nodup) :
    (readEntries fn (drainRing fn n l).1).length = (readEntries fn l).length - n := by
  induction l generalizing n with
  | nil => simp [drainRing, readEntries]
  | cons e l ih =>
    have hl' : ∀ e ∈ l, e.readers.Nodup := fun x hx => hl x (List.mem_cons_of_mem _ hx)
    cases hc : e.readers.contains fn with
    | true =>
      cases n with
      | zero => rw [drainRing_passes _ _ (.inl rfl), readEntries_reader hc, readEntries_reader hc, List.length_cons, ih 0 hl']; rfl
      | succ n =>
        have hleft : (e.readers.erase fn).contains fn = false := by
          rw [List.contains_eq_mem, decide_eq_false_iff_not]
          exact (hl e List.mem_cons_self).not_mem_erase
        have hr : readEntries fn (drainRing fn (n + 1) (e :: l)).1 = readEntries fn (drainRing fn n l).1 := by
          rw [drainRing_takes n l hc]
          dsimp only
          split
          · rfl
          · exact readEntries_other hleft _
        rw [hr, ih n hl', readEntries_reader hc, List.length_cons]
        omega
    | false => rw [drainRing_passes _ _ (.inr hc), readEntries_other hc, readEntries_other hc, ih n hl']

theorem toHost_hostMem (s : State) (req addr : Nat) (ws : List (BitVec 256)) (i : Nat) (hi : i < ws.length) :
    look (s.toHost req addr ws).mgmt.hostMem 0 (addr + 32 * i) = ws[i] :=
  (look_hostWrites ws s.mgmt.hostMem addr).1 i hi

theorem ring_keeps (s : State) (l : List DayEntry) : Keeps [.mgmt] s { s with mgmt := { s.mgmt with ring := l } } where
  pending := rfl
  ident := rfl
  wf := id
  same v hv := by cases v <;> simp_all [View.same, View.sameCores, View.sameHbm]

/-- The daybook drained by a function to the host's memory. -/
def State.drainTo (u : State) (fn n addr : Nat) : State :=
  State.toHost { u with mgmt := { u.mgmt with ring := (drainRing fn n u.mgmt.ring).1 } } 3 addr (drainRing fn n u.mgmt.ring).2

theorem toHost_ring (s : State) (req addr : Nat) (ws : List (BitVec 256)) : (s.toHost req addr ws).mgmt.ring = s.mgmt.ring := by
  unfold State.toHost State.grant State.count
  rfl

/-! ### Assays -/

/-- An assay of a kind and a target asked for or running. -/
def hasAssay (s : State) (kind target : Nat) : Prop := ∃ a ∈ s.mgmt.assays ++ s.mgmt.running, a.kind.toNat = kind ∧ a.target.toNat = target

theorem hasAssay_start {u : State} {kind target : Nat} (a : Assay) (h : hasAssay u kind target) :
    hasAssay { u with mgmt := { u.mgmt with assays := u.mgmt.assays.erase a, running := u.mgmt.running ++ [a] } } kind target := by
  obtain ⟨b, hb, hkt⟩ := h
  refine ⟨b, ?_, hkt⟩
  dsimp only
  simp only [List.mem_append, List.mem_singleton] at hb ⊢
  by_cases e : b = a
  · exact .inr (.inr e)
  · exact hb.imp (fun hb => (List.mem_erase_of_ne e).2 hb) .inl

theorem hasAssay_startAssays {s : State} {kind target : Nat} (h : hasAssay s kind target) : hasAssay s.startAssays kind target := by
  unfold State.startAssays
  generalize s.mgmt.assays = l
  induction l generalizing s with
  | nil => exact h
  | cons a l ih =>
    refine ih ?_
    dsimp only
    split
    · split
      · exact hasAssay_start a h
      · exact hasAssay_start a h
    · exact h

theorem assayTarget_lt {kind target : Nat} (h : assayTarget kind target = true) : kind < 16 := by
  unfold assayTarget at h
  split at h
  · decide
  · decide
  · decide
  · decide
  · decide
  · exact absurd h (by simp)

theorem requestAssay_asked (s : State) {kind target : Nat} (force : Bool) (hk : kind < 16) (ht : target < 2 ^ 16) :
    hasAssay (s.requestAssay kind target force) kind target := by
  unfold State.requestAssay
  dsimp only
  split
  case isTrue h =>
    obtain ⟨a, ha, hs⟩ := List.any_eq_true.1 h
    simp only [Bool.and_eq_true, decide_eq_true_eq] at hs
    exact ⟨a, List.mem_append_right _ ha, hs⟩
  case isFalse =>
    split
    case isTrue h =>
      obtain ⟨a, ha, hs⟩ := List.any_eq_true.1 h
      refine ⟨{ a with force := a.force || force }, List.mem_append_left _ (List.mem_map.2 ⟨a, ha, if_pos hs⟩), ?_⟩
      simpa using hs
    case isFalse =>
      have hnew (d : Bool) (t : Option Nat) (u : State)
          (hu : u.mgmt.assays = s.mgmt.assays ++
            [{ kind := BitVec.ofNat 4 kind, target := BitVec.ofNat 16 target, force := force, deferred := d, ten := t }]) :
          hasAssay u kind target := by
        refine ⟨_, List.mem_append_left _ (by rw [hu]; exact List.mem_append_right _ (List.mem_singleton_self _)), ?_, ?_⟩
        · exact Nat.mod_eq_of_lt hk
        · exact Nat.mod_eq_of_lt ht
      split
      · exact hnew _ _ _ rfl
      · exact hasAssay_startAssays (hnew _ _ _ rfl)

/-! ### The levels and rows of the arbiters -/

/-- An arbiter's level and row of one requester set. -/
def State.setArb (s : State) (a q : Nat) (level : BitVec 3) (row : BitVec 16) : State :=
  { s with mgmt := { s.mgmt with
    arbLevel := put 0x0000_4924_92D6_BD21 s.mgmt.arbLevel a (putBits (arbLevels s a) (3 * q) level)
    arbRow := put (arbRowDefault q) s.mgmt.arbRow (16 * a + q) (row &&& ~~~(1#16 <<< q)) } }

theorem setArb_keeps (s : State) (a q : Nat) (level : BitVec 3) (row : BitVec 16) : Keeps [.mgmt] s (s.setArb a q level row) where
  pending := rfl
  ident := rfl
  wf := id
  same v hv := by cases v <;> simp_all [View.same, View.sameCores, View.sameHbm, State.setArb]

theorem arbLevels_setArb (s : State) (a q : Nat) (level : BitVec 3) (row : BitVec 16) :
    arbLevels (s.setArb a q level row) a = putBits (arbLevels s a) (3 * q) level := look_put _ _ _ _

theorem arbLevels_setArb_ne (s : State) {a b : Nat} (q : Nat) (level : BitVec 3) (row : BitVec 16) (h : b ≠ a) :
    arbLevels (s.setArb a q level row) b = arbLevels s b := look_put_ne _ _ _ h

theorem arbRowOf_setArb (s : State) (a q : Nat) (level : BitVec 3) (row : BitVec 16) :
    arbRowOf (s.setArb a q level row) a q = row &&& ~~~(1#16 <<< q) := look_put _ _ _ _

/-- A row of another requester or arbiter stands: its default is its own. -/
theorem look_put_other {α : Type} [DecidableEq α] (d d' : α) (m : Sparse α) {k j : Nat} (v : α) (h : j ≠ k) : look (put d m k v) d' j = look m d' j := by
  unfold put look
  split
  · rw [find_del_ne _ h]
  · rw [find_set_ne _ _ h]

theorem arbRowOf_setArb_ne (s : State) {a b q k : Nat} (level : BitVec 3) (row : BitVec 16) (hq : q < 16) (hk : k < 16) (h : b ≠ a) :
    arbRowOf (s.setArb a q level row) b k = arbRowOf s b k := look_put_other _ _ _ _ (by omega)

theorem popReq_arbLevels (s : State) (a : Nat) : arbLevels (s.popReq 0) a = arbLevels s a := by
  unfold State.popReq
  dsimp only
  split
  · rfl
  · rfl

theorem popReq_arbRowOf (s : State) (a q : Nat) : arbRowOf (s.popReq 0) a q = arbRowOf s a q := by
  unfold State.popReq
  dsimp only
  split
  · rfl
  · rfl

/-- What a list of arbiters set leaves of each arbiter. -/
theorem setArbs_each (l : List Nat) (s : State) {q : Nat} (level : BitVec 3) (row : BitVec 16) (hq : q < 16) :
    let u := l.foldl (fun (u : State) a => u.setArb a q level row) s
    (∀ a, a ∈ l → (arbLevels u a).extractLsb' (3 * q) 3 = level ∧ arbRowOf u a q = row &&& ~~~(1#16 <<< q)) ∧
    (∀ a, a ∉ l → arbLevels u a = arbLevels s a ∧ ∀ k, k < 16 → arbRowOf u a k = arbRowOf s a k) ∧ Keeps [.mgmt] s u := by
  induction l generalizing s with
  | nil => exact ⟨fun a h => absurd h (by simp), fun a _ => ⟨rfl, fun _ _ => rfl⟩, Keeps.refl _ _⟩
  | cons b l ih =>
    obtain ⟨h1, h2, h3⟩ := ih (s.setArb b q level row)
    refine ⟨fun a ha => ?_, fun a ha => ?_, (setArb_keeps s b q level row).trans h3⟩
    · by_cases hm : a ∈ l
      · exact h1 a hm
      · obtain rfl : a = b := by simpa [hm] using ha
        obtain ⟨e1, e2⟩ := h2 a hm
        refine ⟨?_, (e2 q hq).trans (arbRowOf_setArb s a q level row)⟩
        rw [List.foldl_cons, e1, arbLevels_setArb]
        exact extract_putBits _ _ _ (by omega)
    · simp only [List.mem_cons, not_or] at ha
      obtain ⟨e1, e2⟩ := h2 a ha.2
      exact ⟨e1.trans (arbLevels_setArb_ne s q level row ha.1), fun k hk => (e2 k hk).trans (arbRowOf_setArb_ne s level row hq hk ha.1)⟩

/-! ### Time set up -/

/-- A time setup that is taken: the clock's settings, and the PLL's source chosen anew. -/
def State.timeSet (s : State) (t : Time) : State := State.selectPll { s with time := { t with setup := true } }

theorem timeSet_time (s : State) (t : Time) : ({ t with setup := true } : Time).locks (s.timeSet t).time :=
  selectPll_time { s with time := { t with setup := true } }

theorem timeSet_keeps (s : State) (t : Time) : Keeps [.time, .mgmt] s (s.timeSet t) :=
  State.selectPll_keeps ((setTime_keeps s { t with setup := true }).mono (by decide)) (by decide)

/-- What a setup that is taken leaves of the clock. -/
theorem timeSet_sets (s : State) (t : Time) (ht : t.tally = s.time.tally) :
    (s.timeSet t).time.setup = true ∧ (s.timeSet t).time.tally = s.time.tally ∧ (s.timeSet t).time.parent = t.parent ∧
      (s.timeSet t).time.schedule = t.schedule ∧ (s.timeSet t).time.children = t.children ∧ (s.timeSet t).time.timeBase = t.timeBase ∧
      (s.timeSet t).time.grand = t.grand ∧ (s.timeSet t).time.clockClass = t.clockClass ∧ (s.timeSet t).time.ppsOffset = t.ppsOffset ∧
      (s.timeSet t).time.ctl = t.ctl := by
  have h := timeSet_time s t
  unfold Time.locks at h
  rw [h]
  exact ⟨rfl, ht, rfl, rfl, rfl, rfl, rfl, rfl, rfl, rfl⟩

/-- The word of TLY_CTL. -/
def ctlWord (a b : BitVec 4) (pri : BitVec 8) : BitVec 64 := BitVec.ofNat 64 (a.toNat + b.toNat * 2 ^ 4 + pri.toNat * 2 ^ 8)

theorem ctlWord_fields (a b : BitVec 4) (pri : BitVec 8) :
    bits (ctlWord a b pri) 3 0 = a ∧ bits (ctlWord a b pri) 7 4 = b ∧ bits (ctlWord a b pri) 15 8 = pri := by
  have ha := a.isLt
  have hb := b.isLt
  have hp := pri.isLt
  have h (lo len : Nat) (hw : lo + len ≤ 64) : (ctlWord a b pri).extractLsb' lo len =
      BitVec.ofNat len ((a.toNat + b.toNat * 2 ^ 4 + pri.toNat * 2 ^ 8) / 2 ^ lo) := extract_ofNat _ _ _ _ hw
  refine ⟨(h 0 4 (by decide)).trans ?_, (h 4 4 (by decide)).trans ?_, (h 8 8 (by decide)).trans ?_⟩
  · exact BitVec.eq_of_toNat_eq (by rw [BitVec.toNat_ofNat]; omega)
  · exact BitVec.eq_of_toNat_eq (by rw [BitVec.toNat_ofNat]; omega)
  · exact BitVec.eq_of_toNat_eq (by rw [BitVec.toNat_ofNat]; omega)

/-! ### The requests -/

theorem setPower_keeps (s : State) (p : Power) : Keeps [.power] s { s with power := p } where
  pending := rfl
  ident := rfl
  wf := id
  same v hv := by cases v <;> simp_all [View.same, View.sameCores, View.sameHbm]

section requests

variable {r : Req} {s : State} (ha : accepted r s)
include ha

theorem exec_telemetry {offsets : List (BitVec 20)} (hl : offsets.length ≤ 3) (ho : ∀ o ∈ offsets, o.toNat % 8 = 0 ∧ o.toNat < bar0Size r.fn.val) :
    exec (.telemetry r offsets) s = .next (((s.popReq r.fn.val).grant 28 7 1).answer r 1 0
      (packed64 (offsets.map (fun o => (regRead (s.popReq r.fn.val) r.fn.val o.toNat).toNat)))) := by
  change execTelemetry r offsets s = _
  unfold execTelemetry
  refine takeReq_done ha (.inl rfl) ?_
  rw [if_neg, List.take_of_length_le hl]
  · rfl
  · rw [Bool.not_eq_true, List.any_eq_false]
    intro o h
    obtain ⟨h1, h2⟩ := ho o h
    simp only [Bool.or_eq_true, decide_eq_true_eq, not_or, not_not, not_le]
    exact ⟨h1, h2⟩

theorem exec_daybookDrain {addr : BitVec 64} {limit : BitVec 16} (h1 : limit ≠ 0) (h2 : limit.toNat ≤ 8192) :
    exec (.daybookDrain r addr limit) s = .next (((s.popReq r.fn.val).drainTo r.fn.val limit.toNat addr.toNat).answer r 2 0
      ((drainRing r.fn.val limit.toNat (s.popReq r.fn.val).mgmt.ring).2.length +
        unread ((s.popReq r.fn.val).drainTo r.fn.val limit.toNat addr.toNat) r.fn.val * 2 ^ 32)) := by
  change execDaybookDrain r addr limit s = _
  unfold execDaybookDrain
  refine takeReq_done ha (.inl rfl) ?_
  rw [if_neg]
  · rfl
  · simp only [Bool.or_eq_true, decide_eq_true_eq, not_or]
    exact ⟨h1, by omega⟩

variable (h0 : r.fn = 0)
include h0

theorem exec_assayRequest {kind : BitVec 8} {target : BitVec 16} {force : Bool} (ht : assayTarget kind.toNat target.toNat = true)
    (h4 : kind = 4 → ∀ a ∈ s.mgmt.assays ++ s.mgmt.running, a.kind ≠ 4) : exec (.assayRequest r kind target force) s =
      .next (((s.popReq 0).requestAssay kind.toNat target.toNat force).answer r 3 0 0) := by
  have hm : ((s.popReq 0).mgmt.assays ++ (s.popReq 0).mgmt.running) = s.mgmt.assays ++ s.mgmt.running := by
    unfold State.popReq
    dsimp only
    split <;> rfl
  change execAssayRequest r kind target force s = _
  unfold execAssayRequest
  refine takeReq_done ha (.inr h0) ?_
  rw [fn_val h0, if_neg (by simp [ht]), if_neg]
  rw [hm]
  simp only [Bool.and_eq_true, decide_eq_true_eq, List.any_eq_true, not_and, not_exists]
  exact fun hk a hm' he => h4 hk a hm' he

theorem exec_ledgerRead {sec : BitVec 8} {addr : BitVec 64} (hs : sec.toNat ≤ 11) : exec (.ledgerRead r sec addr) s =
    .next (((s.popReq 0).toHost 7 addr.toNat (sectionWords s sec.toNat)).answer r 7 0 (32 * (sectionWords s sec.toNat).length)) := by
  have e : sectionWords (s.popReq 0) sec.toNat = sectionWords s sec.toNat := by
    unfold State.popReq
    dsimp only
    split <;> rfl
  change execLedgerRead r sec addr s = _
  unfold execLedgerRead
  refine takeReq_done ha (.inr h0) ?_
  rw [fn_val h0, if_neg (by omega)]
  simp only [e]

theorem exec_capSet {watts : BitVec 16} (h1 : 700 ≤ watts.toNat) (h2 : watts.toNat ≤ tdp s) (h3 : watts.toNat % 10 = 0) :
    exec (.capSet r watts) s = .next (State.answer { s.popReq 0 with
      power := { (s.popReq 0).power with cap := putBits (s.popReq 0).power.cap 0 (BitVec.ofNat 11 watts.toNat) } } r 4 0 0) := by
  have e : tdp (s.popReq 0) = tdp s := congrArg (fun i : Ident => if i.is64 then 1500 else 1320) (popReq_keeps_mgmt s 0).ident
  change execCapSet r watts s = _
  unfold execCapSet
  refine takeReq_done ha (.inr h0) ?_
  rw [fn_val h0]
  dsimp only
  rw [e, if_neg]
  simp only [Bool.or_eq_true, decide_eq_true_eq, not_or, not_lt, not_not]
  exact ⟨⟨h1, h2⟩, h3⟩

theorem exec_capSet_refused {watts : BitVec 16} (h : watts.toNat < 700 ∨ tdp s < watts.toNat ∨ watts.toNat % 10 ≠ 0) :
    exec (.capSet r watts) s = .next ((s.popReq 0).answer r 4 3 0) := by
  have e : tdp (s.popReq 0) = tdp s := congrArg (fun i : Ident => if i.is64 then 1500 else 1320) (popReq_keeps_mgmt s 0).ident
  change execCapSet r watts s = _
  unfold execCapSet
  refine takeReq_done ha (.inr h0) ?_
  rw [fn_val h0]
  dsimp only
  rw [e, if_pos]
  simp only [Bool.or_eq_true, decide_eq_true_eq, or_assoc]
  exact h

/-- A time setup that is taken. -/
theorem exec_timeSetup {op : TimeOp} {t : Time} (ho : (s.popReq 0).timeOp op = ((s.popReq 0).timeSet t, 0, 0)) :
    exec (.timeSetup r op) s = .next (((s.popReq 0).timeSet t).answer r 0x0B 0 0) := by
  change execTimeSetup r op s = _
  unfold execTimeSetup
  refine takeReq_done ha (.inr h0) ?_
  rw [fn_val h0]
  exact ho

/-- A setup taken answers 0, is noted, and leaves the tally. -/
theorem timeSetup_done {op : TimeOp} {t : Time} {post : State → Prop} (ht : t.tally = (s.popReq 0).time.tally)
    (ho : (s.popReq 0).timeOp op = ((s.popReq 0).timeSet t, 0, 0)) (hpost : post ((s.popReq 0).timeSet t)) :
    ∃ u : State, exec (.timeSetup r op) s = .next (u.answer r 0x0B 0 0) ∧ post u ∧ u.time.setup = true ∧ u.time.tally = s.time.tally ∧
      Keeps [.time, .mgmt] s u := by
  obtain ⟨hs, htl, -⟩ := timeSet_sets (s.popReq 0) t ht
  refine ⟨_, exec_timeSetup ha h0 ho, hpost, hs, ?_, ((popReq_keeps_mgmt s 0).mono (by decide)).trans (timeSet_keeps _ _)⟩
  rw [htl, (popReq_keeps_mgmt s 0).eq_time]

theorem exec_arbiterPriority {mask : BitVec 33} {q : BitVec 4} {level : BitVec 3} {row : BitVec 16} (hm : mask ≠ 0) :
    ∃ (a : Nat), exec (.arbiterPriority r mask q level row) s =
      .next ((State.dayChip (((upTo 33).filter (fun a => mask.getLsbD a)).foldl (fun (u : State) a => u.setArb a q.toNat level row) (s.popReq 0))
        0x91 0 a (q.toNat * 8 + level.toNat) 0).answer r 0x0C 0 0) := by
  have hne : (upTo 33).filter (fun a => mask.getLsbD a) ≠ [] := by
    intro h
    refine hm (BitVec.eq_of_getLsbD_eq (fun i hi => ?_))
    have := List.filter_eq_nil_iff.1 h i (List.mem_range.2 hi)
    simpa using this
  obtain ⟨a, as, e⟩ := List.exists_cons_of_ne_nil hne
  refine ⟨a, ?_⟩
  change execArbiterPriority r mask q level row s = _
  unfold execArbiterPriority
  refine takeReq_done ha (.inr h0) ?_
  rw [fn_val h0]
  dsimp only
  rw [e]
  rfl

end requests

/-! ### PTP time -/

theorem ptpTime_nanos (s : State) (v : Nat) : (ptpTime s v).2.1.toNat = v % 1800000000 * 5 / 9 := by
  refine Nat.mod_eq_of_lt ?_
  have := Nat.mod_lt v (show 0 < 1800000000 by decide)
  omega

theorem drainTo_keeps (u : State) (fn n addr : Nat) : Keeps [.counters, .mgmt] u (u.drainTo fn n addr) := by
  refine State.toHost_keeps ?_ (by decide)
  exact (ring_keeps u _).mono (by decide)

/-- What a drain leaves: the words at the host, and the entries that the function may read no more. -/
theorem drained {u : State} {fn n addr : Nat} {l : List DayEntry} (hl : u.mgmt.ring = l) (hr : ∀ e ∈ l, e.readers.Nodup) :
    let ws := ((readEntries fn l).take n).map (·.word)
    (drainRing fn n u.mgmt.ring).2 = ws ∧ (∀ i (_ : i < ws.length), look (u.drainTo fn n addr).mgmt.hostMem 0 (addr + 32 * i) = ws[i]) ∧
      unread (u.drainTo fn n addr) fn = (readEntries fn l).length - ws.length := by
  subst hl
  intro ws
  have hw : (drainRing fn n u.mgmt.ring).2 = ws := drainRing_words fn n u.mgmt.ring
  refine ⟨hw, fun i hi => ?_, ?_⟩
  · unfold State.drainTo
    rw [hw]
    exact toHost_hostMem _ 3 addr ws i hi
  · have e : unread (u.drainTo fn n addr) fn = (readEntries fn (drainRing fn n u.mgmt.ring).1).length :=
      congrArg (fun l : List DayEntry => (readEntries fn l).length) (toHost_ring _ 3 addr _)
    rw [e, drainRing_unread fn n _ hr, List.length_map, List.length_take]
    omega

/-- Settles O48: the requests' acts by the lemmas above, the time setups by the clock's settings. -/
theorem serviceRequests : Obligations.ServiceRequests := by
  unfold Obligations.ServiceRequests
  refine ⟨fun r s ha => ?_, fun seqId s => ?_⟩
  · refine ⟨fun offsets hl ho => ?_, fun addr limit h1 h2 hr => ?_, fun kind => ?_, fun h0 => ?_⟩
    · refine ⟨_, _, exec_telemetry ha hl ho, fun i hi => ?_, ?_⟩
      · have e := packed64_get (offsets.map (fun o => (regRead (s.popReq r.fn.val) r.fn.val o.toNat).toNat))
          (fun v hv => by obtain ⟨o, -, rfl⟩ := List.mem_map.1 hv; exact (regRead _ _ _).isLt) i (by simpa using hi)
        rw [e, List.getElem_map]
      · exact State.grant_keeps ((State.popReq_keeps (Keeps.refl _ _) (by decide))) (by decide)
    · obtain ⟨hw, hm, hu⟩ := drained (fn := r.fn.val) (n := limit.toNat) (addr := addr.toNat) (popReq_ring s r.fn.val) hr
      have hx := exec_daybookDrain ha (addr := addr) h1 h2
      rw [hu, hw] at hx
      exact ⟨_, hx, hm, hu, ((popReq_keeps_mgmt s r.fn.val).mono (by decide)).trans (drainTo_keeps _ _ _ _)⟩
    · change execUnknownKind r kind s = _
      exact takeReq_done ha (.inl rfl) rfl
    · refine ⟨fun kind target force ht h4 => ?_, fun sec addr hs => ?_, fun watts => ⟨fun h1 h2 h3 => ?_, exec_capSet_refused ha h0⟩,
        fun op => ?_, fun mask q level row hm => ?_⟩
      · refine ⟨_, exec_assayRequest ha h0 ht h4, ?_, State.requestAssay_keeps ((popReq_keeps_mgmt s 0).mono (by decide)) (by decide)⟩
        obtain ⟨a, hm, hk, htg⟩ := requestAssay_asked (s.popReq 0) (kind := kind.toNat) (target := target.toNat) force (assayTarget_lt ht) target.isLt
        exact ⟨a, hm, hk, BitVec.eq_of_toNat_eq htg⟩
      · exact ⟨_, exec_ledgerRead ha h0 hs, fun i hi => toHost_hostMem _ _ _ _ i hi,
          State.toHost_keeps ((popReq_keeps_mgmt s 0).mono (by decide)) (by decide)⟩
      · have hc : (s.popReq 0).power.cap = s.power.cap := by rw [(popReq_keeps_mgmt s 0).eq_power]
        have hp : tdp s ≤ 1500 := by unfold tdp; split <;> decide
        refine ⟨_, exec_capSet ha h0 h1 h2 h3, ?_, ?_, ?_⟩
        · refine (congrArg BitVec.toNat (extract_putBits (s.popReq 0).power.cap 0 (BitVec.ofNat 11 watts.toNat) (by decide))).trans ?_
          exact Nat.mod_eq_of_lt (by omega)
        · rw [← hc]
          exact congrArg BitVec.toNat (extract_putBits_above _ 0 _ (by decide) (by decide))
        · exact ((popReq_keeps_mgmt s 0).mono (by decide)).then (by decide) (setPower_keeps _ _)
      · intro ok
        cases op with
        | parent id schedule children hops =>
          intro h1 h2
          obtain ⟨-, -, hp, hs, -⟩ := timeSet_sets (s.popReq 0) { (s.popReq 0).time with parent := some id, schedule := schedule } rfl
          refine timeSetup_done ha h0 (t := { (s.popReq 0).time with parent := some id, schedule := schedule }) rfl (if_neg ?_) ⟨hp, hs⟩
          simp only [Bool.or_eq_true, decide_eq_true_eq, not_or, not_lt]
          exact ⟨h1, h2⟩
        | child id port schedule =>
          intro h1
          obtain ⟨-, -, -, -, hch, -⟩ := timeSet_sets (s.popReq 0)
            { (s.popReq 0).time with children := set (s.popReq 0).time.children id.toNat (port.val, schedule) } rfl
          refine timeSetup_done ha h0 (t := { (s.popReq 0).time with children := set (s.popReq 0).time.children id.toNat (port.val, schedule) }) rfl
            (if_neg ?_) (by rw [hch]; exact find_set _ _ _)
          rw [(popReq_keeps_mgmt s 0).eq_time]
          simp only [Bool.and_eq_true, decide_eq_true_eq, not_and, not_le]
          exact fun _ => h1
        | timeBase seconds =>
          obtain ⟨-, -, -, -, -, hb, -⟩ := timeSet_sets (s.popReq 0) { (s.popReq 0).time with timeBase := seconds } rfl
          exact timeSetup_done ha h0 (t := { (s.popReq 0).time with timeBase := seconds }) rfl rfl hb
        | ptp grandmaster clockClass =>
          obtain ⟨-, -, -, -, -, -, hg, hcl, -⟩ :=
            timeSet_sets (s.popReq 0) { (s.popReq 0).time with grand := grandmaster, clockClass := clockClass } rfl
          exact timeSetup_done ha h0 (t := { (s.popReq 0).time with grand := grandmaster, clockClass := clockClass }) rfl rfl ⟨hg, hcl⟩
        | ppsOffset ticks =>
          intro h1
          obtain ⟨-, -, -, -, -, -, -, -, hpps, -⟩ := timeSet_sets (s.popReq 0) { (s.popReq 0).time with ppsOffset := ticks } rfl
          exact timeSetup_done ha h0 (t := { (s.popReq 0).time with ppsOffset := ticks }) rfl (if_neg (Nat.not_le.2 h1)) hpps
        | tallyCtl portA portB pri =>
          obtain ⟨-, -, -, -, -, -, -, -, -, hctl⟩ := timeSet_sets (s.popReq 0) { (s.popReq 0).time with ctl := ctlWord portA portB pri } rfl
          exact timeSetup_done ha h0 (t := { (s.popReq 0).time with ctl := ctlWord portA portB pri }) rfl rfl
            (by rw [hctl]; exact ctlWord_fields portA portB pri)
      · obtain ⟨a, hx⟩ := exec_arbiterPriority ha h0 (q := q) (level := level) (row := row) hm
        obtain ⟨hin, hout, hk⟩ := setArbs_each ((upTo 33).filter (fun a => mask.getLsbD a)) (s.popReq 0) level row q.isLt
        refine ⟨_, hx, fun b hb hm => hin b ?_, fun b hb => ?_, State.dayChip_keeps ((popReq_keeps_mgmt s 0).trans hk) (by decide)⟩
        · exact List.mem_filter.2 ⟨List.mem_range.2 hb, hm⟩
        · obtain ⟨hl, hr⟩ := hout b (fun h => by
            have := (List.mem_filter.1 h).2
            simp [hb] at this)
          exact ⟨hl.trans (popReq_arbLevels s b), fun k hk => (hr k hk).trans (popReq_arbRowOf s b k)⟩
  · refine ⟨fun hg hs hm => ?_, fun h => if_pos h, fun h => if_neg h, fun v => ⟨rfl, ptpTime_nanos s v⟩, fun h => ?_⟩
    · change execDelayRequest seqId s = _
      unfold execDelayRequest
      rw [if_pos (by rw [hg, hs, hm]; rfl)]
    · change execDelayRequest seqId s = _
      unfold execDelayRequest
      rw [if_neg]
      rcases h with h | h | h <;> simp [h]

end Sys2Proof.Machine
end

section
/-! SUPPORT. The requests about a job, a repair window and firmware (09 R234, R245; 12 R324; 18 R497, R498). -/

namespace Sys2Proof.Machine

open Sys2Proof Sys2Proof.Claims

set_option Elab.async false

/-- Taking a request changes the mailboxes alone. -/
theorem popReq_eq (s : State) (fn : Nat) : ∃ m, s.popReq fn = { s with mgmt := { s.mgmt with mailboxes := m } } := by
  unfold State.popReq
  dsimp only
  split
  · exact ⟨_, rfl⟩
  · exact ⟨_, rfl⟩

theorem popReq_talks (s : State) (fn : Nat) : Talks s (s.popReq fn) := by
  obtain ⟨m, e⟩ := popReq_eq s fn
  rw [e]
  exact .of rfl rfl

/-- A launch course of a job that is not loaded yet ends it. -/
theorem takeLaunch_unloaded {s : State} {n : Nat} (c : Nat) (h : (s.ten n).load.st = .loading ∨ (s.ten n).load.st = .failed) :
    s.takeLaunch n c = s.endStop n (BitVec.ofNat 8 (Config.endCode 4)) := by
  unfold State.takeLaunch
  dsimp only
  rcases h with h | h
  · rw [h]
    rfl
  · rw [h]
    rfl

/-! ### A request about a tenancy -/

section tenancy

variable {r : Req} {s : State} (ha : accepted r s) {ten : BitVec 8} (ho : r.fn = 0 ∨ r.fn.val = ten.toNat + 1) (he : s.tenExists ten.toNat = true)

theorem onTen_own {act : State × Nat × Nat} (ho : r.fn = 0 ∨ r.fn.val = ten.toNat + 1) (he : s.tenExists ten.toNat = true) :
    onTen r ten s act = act := by
  have h : ownTen r ten = true := by
    unfold ownTen
    simpa using ho
  unfold onTen
  rw [if_neg (by simp [h]), if_neg (by simp [he])]

include ha ho he

theorem exec_launch {course : BitVec 50} {u : State} {status : Nat} (e : (let p := s.popReq r.fn.val; let t := ten.toNat
    if (p.ten t).load.st = .loading ∨ (p.ten t).load.st = .failed then (p.takeLaunch t course.toNat, 5, 0)
    else if (p.ten t).load.st ≠ .loaded then (p, 5, 0)
    else (((p.broadcast t 7 [MemWord.clean (launchWord course.toNat true)]).takeLaunch t course.toNat), 0, 0)) = (u, status, 0)) :
    exec (.launch r ten course) s = .next (u.answer r 0x0D status 0) := by
  change execLaunch r ten course s = _
  unfold execLaunch
  refine takeReq_done ha (.inl rfl) ?_
  rw [onTen_own ho (by simpa using he)]
  exact e

/-- A launch course ahead of a loaded job. -/
theorem exec_launch_loaded {course : BitVec 50} (hl : (s.ten ten.toNat).load.st = .loaded) :
    exec (.launch r ten course) s = .next ((((s.popReq r.fn.val).broadcast ten.toNat 7
      [MemWord.clean (launchWord course.toNat true)]).takeLaunch ten.toNat course.toNat).answer r 0x0D 0 0) := by
  refine exec_launch ha ho he ?_
  dsimp only
  rw [popReq_ten, if_neg (by simp [hl]), if_neg (by simp [hl])]

theorem exec_launch_early {course : BitVec 50} (hl : (s.ten ten.toNat).load.st = .loading ∨ (s.ten ten.toNat).load.st = .failed) :
    exec (.launch r ten course) s = .next (((s.popReq r.fn.val).takeLaunch ten.toNat course.toNat).answer r 0x0D 5 0) := by
  refine exec_launch ha ho he ?_
  dsimp only
  rw [popReq_ten, if_pos hl]

theorem exec_launch_refused {course : BitVec 50}
    (hl : (s.ten ten.toNat).load.st = .empty ∨ (s.ten ten.toNat).load.st = .running ∨ (s.ten ten.toNat).load.st = .ended) :
    exec (.launch r ten course) s = .next ((s.popReq r.fn.val).answer r 0x0D 5 0) := by
  refine exec_launch ha ho he ?_
  dsimp only
  rw [popReq_ten]
  rcases hl with hl | hl | hl
  · rw [if_neg (by simp [hl]), if_pos (by simp [hl])]
  · rw [if_neg (by simp [hl]), if_pos (by simp [hl])]
  · rw [if_neg (by simp [hl]), if_pos (by simp [hl])]

/-- The blanks of a request, each announced for the lowest course from nine ahead on. -/
def State.announceBlanks (s : State) (t n : Nat) : State := (upTo n).foldl (fun (u : State) _ => u.announce t (courseNow u + 9) 3) s

/-- The payload of the response: the first of the courses that are new, and each as its distance from it. -/
def blanksPayload (s u : State) (t : Nat) : Nat :=
  let new := ((u.ten t).course.pending.map (·.course)).filter (fun c => !((s.ten t).course.pending.map (·.course)).contains c)
  let first := new.foldl min (new.headD 0)
  first + (new.foldl (fun n c => n + 2 ^ (c - first)) 0) % 2 ^ 128 * 2 ^ 64

theorem exec_blankRequest {count : BitVec 8} (h1 : 1 ≤ count.toNat) (h2 : count.toNat ≤ 16) (hr : (s.ten ten.toNat).load.st = .running) :
    exec (.blankRequest r ten count) s = .next (((s.popReq r.fn.val).announceBlanks ten.toNat count.toNat).answer r 6 0
      (blanksPayload (s.popReq r.fn.val) ((s.popReq r.fn.val).announceBlanks ten.toNat count.toNat) ten.toNat)) := by
  have hz : count ≠ 0 := fun h => by simp [h] at h1
  change execBlankRequest r ten count s = _
  unfold execBlankRequest
  refine takeReq_done ha (.inl rfl) ?_
  rw [onTen_own ho (by simpa using he)]
  dsimp only
  rw [if_neg (by rw [Bool.or_eq_true, decide_eq_true_eq, decide_eq_true_eq, not_or]; exact ⟨hz, by omega⟩), if_neg (by simp [State.running, hr])]
  rfl

theorem exec_blankRequest_refused {count : BitVec 8} (h1 : 1 ≤ count.toNat) (h2 : count.toNat ≤ 16) (hr : (s.ten ten.toNat).load.st ≠ .running) :
    exec (.blankRequest r ten count) s = .next ((s.popReq r.fn.val).answer r 6 5 0) := by
  have hz : count ≠ 0 := fun h => by simp [h] at h1
  change execBlankRequest r ten count s = _
  unfold execBlankRequest
  refine takeReq_done ha (.inl rfl) ?_
  rw [onTen_own ho (by simpa using he)]
  dsimp only
  rw [if_neg (by rw [Bool.or_eq_true, decide_eq_true_eq, decide_eq_true_eq, not_or]; exact ⟨hz, by omega⟩), if_pos (by simp [State.running, hr])]

end tenancy

/-! ### Blanks announced -/

theorem pendingAt_none {ps : List Blank} {c : Nat} : pendingAt ps c = none ↔ c ∉ ps.map (·.course) := by
  unfold pendingAt
  rw [List.find?_eq_none]
  simp

/-- More courses than are pending: one of them is free. -/
theorem lowestFree_free (ps : List Blank) (c : Nat) : pendingAt ps (lowestFree ps c) = none ∧ c ≤ lowestFree ps c := by
  unfold lowestFree
  cases h : (upTo (ps.length + 1)).find? (fun i => (pendingAt ps (c + i)).isNone) with
  | some i => exact ⟨by simpa using List.find?_some h, Nat.le_add_right c i⟩
  | none =>
    exfalso
    have hsub : (upTo (ps.length + 1)).map (c + ·) ⊆ ps.map (·.course) := by
      intro x hx
      obtain ⟨i, hi, rfl⟩ := List.mem_map.1 hx
      have := List.find?_eq_none.1 h i hi
      by_contra hn
      rw [pendingAt_none.2 hn] at this
      exact this rfl
    have hnd : ((upTo (ps.length + 1)).map (c + ·)).Nodup := List.nodup_range.map (fun a b hab => by simpa using hab)
    have hle := (List.subperm_of_subset hnd hsub).length_le
    simp [upTo] at hle

/-- What an announcement leaves where fewer than 16 courses are pending: one more, that was free. -/
theorem announce_pending {s : State} {t c : Nat} (cause : BitVec 3) (h : (s.ten t).course.pending.length < 16) :
    ((s.announce t c cause).ten t).course.pending =
      (s.ten t).course.pending ++ [⟨lowestFree (s.ten t).course.pending c, cause, decide (cause = 1)⟩] := by
  obtain ⟨hf, -⟩ := lowestFree_free (s.ten t).course.pending c
  unfold State.announce State.sendBlank
  dsimp only
  rw [if_neg (by simp; omega)]
  rw [(broadcast_talks _ _ _ _).ten_pending]
  unfold State.modCourse
  rw [State.ten_modTen]
  change joinBlank (s.ten t).course.pending _ cause = _
  unfold joinBlank
  rw [hf]

/-- An announcement leaves the pending courses of every other tenancy. -/
theorem announce_pending_ne (s : State) {t m : Nat} (c : Nat) (cause : BitVec 3) (h : m ≠ t) :
    ((s.announce t c cause).ten m).course.pending = (s.ten m).course.pending := by
  unfold State.announce State.sendBlank
  dsimp only
  split
  · exact jobFatal_fixes (π := fun r => r.course.pending) s t 1 (fun _ _ _ _ => rfl) (fun _ _ _ _ => rfl) m
  · rw [(broadcast_talks _ _ _ _).ten_pending]
    unfold State.modCourse
    rw [State.ten_modTen_ne _ _ h]
    rfl

theorem announce_keeps (s : State) (t c : Nat) (cause : BitVec 3) : Keeps [.tens, .counters, .fabric, .power] s (s.announce t c cause) :=
  State.announce_keeps (Keeps.refl _ _) (by decide)

/-- The blanks announced: as many new courses as asked for, each free before and nine or more ahead. -/
theorem announce_each {β : Type} (l : List β) (s : State) (t : Nat) (h : (s.ten t).course.pending.length + l.length ≤ 16) :
    let u := l.foldl (fun (u : State) _ => u.announce t (courseNow u + 9) 3) s
    (∃ cs : List Nat, cs.length = l.length ∧ cs.Nodup ∧ (u.ten t).course.pending = (s.ten t).course.pending ++ cs.map (fun c => ⟨c, 3, false⟩) ∧
      ∀ c ∈ cs, courseNow s + 9 ≤ c ∧ pendingAt (s.ten t).course.pending c = none) ∧
    Keeps [.tens, .counters, .fabric, .power] s u := by
  induction l generalizing s with
  | nil => exact ⟨⟨[], rfl, List.nodup_nil, (List.append_nil _).symm, fun c hc => absurd hc (by simp)⟩, Keeps.refl _ _⟩
  | cons b l ih =>
    rw [List.length_cons] at h
    have hk := announce_keeps s t (courseNow s + 9) 3
    have hp : ((s.announce t (courseNow s + 9) 3).ten t).course.pending = (s.ten t).course.pending ++
        [⟨lowestFree (s.ten t).course.pending (courseNow s + 9), 3, false⟩] := announce_pending 3 (by omega)
    obtain ⟨hf, hle⟩ := lowestFree_free (s.ten t).course.pending (courseNow s + 9)
    obtain ⟨⟨cs, hlen, hnd, hpend, hall⟩, hkeep⟩ := ih (s.announce t (courseNow s + 9) 3) (by
      rw [hp, List.length_append, List.length_singleton]; omega)
    refine ⟨⟨lowestFree (s.ten t).course.pending (courseNow s + 9) :: cs, by rw [List.length_cons, List.length_cons, hlen], ?_, ?_, ?_⟩,
      hk.trans hkeep⟩
    · refine List.nodup_cons.2 ⟨fun hm => ?_, hnd⟩
      have := pendingAt_none.1 (hall _ hm).2
      rw [hp] at this
      exact this (by simp)
    · rw [List.foldl_cons, hpend, hp, List.append_assoc]
      rfl
    · intro c hc
      rcases List.mem_cons.1 hc with rfl | hc
      · exact ⟨hle, hf⟩
      · obtain ⟨h1, h2⟩ := hall c hc
        rw [hk.courseNow_eq] at h1
        rw [hp, pendingAt_none, List.map_append, List.mem_append, not_or] at h2
        exact ⟨h1, pendingAt_none.2 h2.1⟩

/-! ### The repair window -/

/-- What a repair window's outcomes leave of the remapped words and of the die ledger. -/
theorem repairRows_each (l : List (Nat × Bool)) (s : State) :
    let u := l.foldl (fun (u : State) (x : Nat × Bool) => u.repairRow x.1 x.2) s
    u.mgmt.ledger.repairs = s.mgmt.ledger.repairs ++ l ∧ (∀ x ∈ l, x.2 = true → ∀ k ∈ u.hbm.remapHbm, hbmRow k ≠ x.1) ∧
      (∀ k ∈ u.hbm.remapHbm, k ∈ s.hbm.remapHbm) ∧ u.hbm.words = s.hbm.words ∧ Keeps [.service, .mgmt] s u := by
  induction l generalizing s with
  | nil => exact ⟨(List.append_nil _).symm, fun x hx => absurd hx (by simp), fun k hk => hk, rfl, Keeps.refl _ _⟩
  | cons y l ih =>
    obtain ⟨row, ok⟩ := y
    obtain ⟨h1, h2, h3, h4, h5⟩ := ih (s.repairRow row ok)
    have hk : Keeps [.service, .mgmt] s (s.repairRow row ok) := State.repairRow_keeps (Keeps.refl _ _) (by decide)
    have hrep : (s.repairRow row ok).mgmt.ledger.repairs = s.mgmt.ledger.repairs ++ [(row, ok)] := by cases ok <;> rfl
    have hw : (s.repairRow row ok).hbm.words = s.hbm.words := by cases ok <;> rfl
    have hsub : ∀ k ∈ (s.repairRow row ok).hbm.remapHbm, k ∈ s.hbm.remapHbm := by
      cases ok with
      | true => exact fun k hk => List.mem_of_mem_filter hk
      | false => exact fun k hk => hk
    have hrow : ok = true → ∀ k ∈ (s.repairRow row ok).hbm.remapHbm, hbmRow k ≠ row := by
      rintro rfl k hk
      exact of_decide_eq_true (List.mem_filter.1 hk).2
    refine ⟨?_, fun x hx hx2 k hk => ?_, fun k hk => hsub k (h3 k hk), h4.trans hw, hk.trans h5⟩
    · rw [List.foldl_cons, h1, hrep, List.append_assoc]
      rfl
    · rcases List.mem_cons.1 hx with rfl | hx
      · exact hrow hx2 k (h3 k hk)
      · exact h2 x hx hx2 k hk

theorem startAssays_ledger (s : State) : s.startAssays.mgmt.ledger = s.mgmt.ledger := by
  unfold State.startAssays
  generalize s.mgmt.assays = l
  induction l generalizing s with
  | nil => rfl
  | cons a l ih =>
    refine (ih _).trans ?_
    dsimp only
    split
    · split
      · rfl
      · rfl
    · rfl

theorem popReq_anyLoaded (s : State) (fn : Nat) : anyLoaded (s.popReq fn) = anyLoaded s := by
  unfold anyLoaded jobLoaded
  simp only [popReq_ten]

/-! ### Slots -/

theorem slotOf_setSlot (s : State) (b : Bool) (f : FwSlot) : slotOf (s.setSlot b f) b = f := by cases b <;> rfl

theorem slotOf_setSlot_not (s : State) (b : Bool) (f : FwSlot) : slotOf (s.setSlot b f) (!b) = slotOf s (!b) := by cases b <;> rfl

theorem slotOf_fwEvent (s : State) (ev slot : Nat) (b : Bool) : slotOf (s.fwEvent ev slot) b = slotOf s b := by cases b <;> rfl

theorem slotOf_grant (s : State) (a q n : Nat) (b : Bool) : slotOf (s.grant a q n) b = slotOf s b := by cases b <;> rfl

theorem slotOf_popReq (s : State) (fn : Nat) (b : Bool) : slotOf (s.popReq fn) b = slotOf s b := by
  obtain ⟨m, e⟩ := popReq_eq s fn
  rw [e]
  rfl

theorem fwValid_popReq (s : State) (fn : Nat) (f : FwSlot) : fwValid (s.popReq fn) f = fwValid s f := by
  obtain ⟨m, e⟩ := popReq_eq s fn
  rw [e]
  rfl

theorem popReq_ledger (s : State) (fn : Nat) : (s.popReq fn).mgmt.ledger = s.mgmt.ledger := by
  obtain ⟨m, e⟩ := popReq_eq s fn
  rw [e]

theorem runSlot_popReq (s : State) (fn : Nat) : (s.popReq fn).mgmt.runSlot = s.mgmt.runSlot := by
  obtain ⟨m, e⟩ := popReq_eq s fn
  rw [e]

theorem nextSlot_popReq (s : State) (fn : Nat) : (s.popReq fn).mgmt.nextSlot = s.mgmt.nextSlot := by
  obtain ⟨m, e⟩ := popReq_eq s fn
  rw [e]

theorem nextSlot_setSlot (s : State) (b : Bool) (f : FwSlot) : (s.setSlot b f).mgmt.nextSlot = s.mgmt.nextSlot := by cases b <;> rfl

theorem nextSlot_fwEvent (s : State) (ev slot : Nat) : (s.fwEvent ev slot).mgmt.nextSlot = s.mgmt.nextSlot := rfl

theorem nextSlot_grant (s : State) (a q n : Nat) : (s.grant a q n).mgmt.nextSlot = s.mgmt.nextSlot := rfl

/-- The sequence number of a slot committed: above the other's, short of a wrap. -/
def commitSeq (o f : FwSlot) : BitVec 32 := if o.image.sequence < f.image.sequence then f.image.sequence else o.image.sequence + 1

theorem commitSeq_above {o f : FwSlot} (h : o.image.sequence ≠ 0xFFFF_FFFF) : o.image.sequence < commitSeq o f := by
  unfold commitSeq
  split
  case isTrue hlt => exact hlt
  case isFalse => bv_omega

theorem setMgmt_keeps (s : State) (m : Mgmt) : Keeps [.mgmt] s { s with mgmt := m } where
  pending := rfl
  ident := rfl
  wf := id
  same v hv := by cases v <;> simp_all [View.same, View.sameCores, View.sameHbm]

/-- The slot committed: its new sequence number, and next to boot. -/
def State.committed (s : State) (b : Bool) (slot : Nat) : State :=
  let v := (s.setSlot b ⟨{ (slotOf s b).image with sequence := commitSeq (slotOf s !b) (slotOf s b) }, false⟩).fwEvent 1 slot
  { v with mgmt := { v.mgmt with nextSlot := b } }

theorem committed_keeps (s : State) (b : Bool) (slot : Nat) : Keeps [.mgmt] s (s.committed b slot) := by
  have h : Keeps [.mgmt] s ((s.setSlot b ⟨{ (slotOf s b).image with sequence := commitSeq (slotOf s !b) (slotOf s b) }, false⟩).fwEvent 1 slot) :=
    State.fwEvent_keeps (State.setSlot_keeps (Keeps.refl _ _) (by decide)) (by decide)
  exact h.trans (setMgmt_keeps _ _)

theorem slotOf_committed (s : State) (b : Bool) (slot : Nat) : slotOf (s.committed b slot) b =
    ⟨{ (slotOf s b).image with sequence := commitSeq (slotOf s !b) (slotOf s b) }, false⟩ := by cases b <;> rfl

theorem slotOf_committed_not (s : State) (b : Bool) (slot : Nat) : slotOf (s.committed b slot) (!b) = slotOf s (!b) := by cases b <;> rfl

/-- The mailboxes with nothing waiting. -/
def noBacklog (m : Sparse Mailbox) : Sparse Mailbox := tidy {} (m.map (fun (e : Nat × Mailbox) => (e.1, { e.2 with backlog := [] })))

theorem noBacklog_look (m : Sparse Mailbox) (fn : Nat) : (look (noBacklog m) {} fn).backlog = [] := by
  unfold look
  cases h : find (noBacklog m) fn with
  | none => rfl
  | some x =>
    obtain ⟨e, -, he⟩ := List.mem_map.1 (List.mem_of_mem_filter (find_mem h))
    exact congrArg (fun p : Nat × Mailbox => p.2.backlog) he.symm

/-- A state with nothing waiting in its mailboxes. -/
def State.dropBacklog (s : State) : State := { s with mgmt := { s.mgmt with mailboxes := noBacklog s.mgmt.mailboxes } }

/-- The management domain restarted where a slot boots. -/
theorem restartMgmt_boots {s : State} {b fell : Bool} (h : bootSlot s = some (b, fell)) : s.restartMgmt = s.dropBacklog.startFw b fell := by
  have e : bootSlot s.dropBacklog = some (b, fell) := h
  unfold State.restartMgmt
  change (match bootSlot s.dropBacklog with
    | some (b, fell) => s.dropBacklog.startFw b fell
    | none => _) = _
  rw [e]

theorem slotOf_dropBacklog (s : State) (b : Bool) : slotOf s.dropBacklog b = slotOf s b := rfl

theorem dropBacklog_keeps (s : State) : Keeps [.mgmt] s s.dropBacklog := setMgmt_keeps _ _

theorem boxOf_dropBacklog (s : State) (fn : Nat) : (boxOf s.dropBacklog fn).backlog = [] := noBacklog_look _ fn

theorem startFw_slots (s : State) (b fell : Bool) : (s.startFw b fell).mgmt.runSlot = b ∧ (s.startFw b fell).mgmt.nextSlot = b ∧
    (slotOf s b).image.security ≤ (s.startFw b fell).mgmt.fuseMin ∧ (s.startFw b fell).mgmt.mailboxes = s.mgmt.mailboxes := by
  have hf : (s.startFw b fell).mgmt.fuseMin =
      if s.mgmt.fuseMin < (slotOf s b).image.security then (slotOf s b).image.security else s.mgmt.fuseMin := by cases fell <;> rfl
  refine ⟨by cases fell <;> rfl, by cases fell <;> rfl, ?_, by cases fell <;> rfl⟩
  rw [hf]
  split
  · exact BitVec.le_refl _
  · bv_omega

section firmware

variable {r : Req} {s : State} (ha : accepted r s) (h0 : r.fn = 0)
include ha h0

theorem exec_maintenance {repaired : List Bool} (h : anyLoaded s = false) : exec (.maintenance r repaired) s =
    .next ((((s.hbm.repair.zip repaired).foldl (fun (u : State) (x : Nat × Bool) => u.repairRow x.1 x.2) (s.popReq 0)).startAssays).answer r 0x0E 0 0) := by
  change execMaintenance r repaired s = _
  unfold execMaintenance
  refine takeReq_done ha (.inr h0) ?_
  rw [fn_val h0, popReq_anyLoaded, if_neg (by simp [h]), popReq_hbm]

theorem exec_maintenance_refused {repaired : List Bool} (h : anyLoaded s = true) :
    exec (.maintenance r repaired) s = .next ((s.popReq 0).answer r 0x0E 6 0) := by
  change execMaintenance r repaired s = _
  unfold execMaintenance
  refine takeReq_done ha (.inr h0) ?_
  rw [fn_val h0, popReq_anyLoaded, if_pos h]

theorem exec_fwStage {addr : BitVec 64} {len : BitVec 32} {image : FwImage} (h1 : len ≠ 0) (h2 : len.toNat ≤ 8388608) :
    exec (.fwStage r addr len image) s = .next (((((s.popReq 0).setSlot (!s.mgmt.runSlot) ⟨image, false⟩).grant 28 7
      (ceilDiv len.toNat 4096)).fwEvent 0 (!s.mgmt.runSlot).toNat).answer r 8 0 0) := by
  change execFwStage r addr len image s = _
  unfold execFwStage
  refine takeReq_done ha (.inr h0) ?_
  rw [fn_val h0, if_neg (by rw [Bool.or_eq_true, decide_eq_true_eq, decide_eq_true_eq, not_or]; exact ⟨h1, by omega⟩), runSlot_popReq]

theorem exec_fwCommit {slot : BitVec 8} (hs : slot.toNat ≤ 1) (hv : fwValid s (slotOf s (decide (slot = 1))) = true) :
    exec (.fwCommit r slot) s = .next (((s.popReq 0).committed (decide (slot = 1)) slot.toNat).answer r 9 0 0) := by
  change execFwCommit r slot s = _
  unfold execFwCommit
  refine takeReq_done ha (.inr h0) ?_
  rw [fn_val h0, if_neg (by omega)]
  dsimp only
  rw [slotOf_popReq, fwValid_popReq, if_neg (by rw [hv]; decide), slotOf_popReq]
  unfold State.committed commitSeq
  rw [slotOf_popReq, slotOf_popReq]

theorem exec_fwCommit_invalid {slot : BitVec 8} (hs : slot.toNat ≤ 1) (hv : fwValid s (slotOf s (decide (slot = 1))) = false) :
    exec (.fwCommit r slot) s = .next (((s.popReq 0).fwEvent 3 slot.toNat).answer r 9 7 0) := by
  change execFwCommit r slot s = _
  unfold execFwCommit
  refine takeReq_done ha (.inr h0) ?_
  rw [fn_val h0, if_neg (by omega)]
  dsimp only
  rw [slotOf_popReq, fwValid_popReq, if_pos (by rw [hv]; rfl)]

theorem exec_fwActivate (h : anyLoaded s = false) :
    exec (.fwActivate r) s = .next (((s.popReq 0).restartMgmt.fwEvent 2 (s.popReq 0).restartMgmt.mgmt.runSlot.toNat).answer r 0x0A 0 0) := by
  change execFwActivate r s = _
  unfold execFwActivate
  refine takeReq_done ha (.inr h0) ?_
  rw [fn_val h0, popReq_anyLoaded, if_neg (by simp [h])]

theorem exec_fwActivate_refused (h : anyLoaded s = true) : exec (.fwActivate r) s = .next ((s.popReq 0).answer r 0x0A 6 0) := by
  change execFwActivate r s = _
  unfold execFwActivate
  refine takeReq_done ha (.inr h0) ?_
  rw [fn_val h0, popReq_anyLoaded, if_pos h]

end firmware

/-- Settles O49: the launches and blanks by what takes and announces them, the repairs row by row, the firmware by its slots. -/
theorem jobAndFirmwareRequests : Obligations.JobAndFirmwareRequests := by
  unfold Obligations.JobAndFirmwareRequests
  refine fun r s ha => ⟨fun ten ho he => ?_, fun h0 => ?_⟩
  · have ht := popReq_talks s r.fn.val
    have hk := (popReq_keeps_mgmt s r.fn.val).mono (ws := [.tens, .counters, .fabric, .mgmt, .power]) (by decide)
    refine ⟨fun course hl hc => ?_, fun course hl => ?_, fun course hl => exec_launch_refused ha ho he hl, fun count h1 h2 hr hp => ?_,
      fun count h1 h2 hr => exec_blankRequest_refused ha ho he h1 h2 hr⟩
    · have hkb := State.broadcast_keeps (t := ten.toNat) (kind := 7) (ws := [MemWord.clean (launchWord course.toNat true)]) hk (by decide)
      have htb := ht.trans (broadcast_talks (s.popReq r.fn.val) ten.toNat 7 [MemWord.clean (launchWord course.toNat true)])
      refine ⟨_, exec_launch_loaded ha ho he hl, ?_, State.takeLaunch_keeps hkb (by decide)⟩
      rw [takeLaunch_ahead (by rw [htb.ten_load]; exact hl) (by rw [hkb.courseNow_eq]; exact hc)]
      exact becomes.modTen htb (commutes_of (fun _ _ _ _ => rfl))
    · refine ⟨_, exec_launch_early ha ho he hl, ?_, State.takeLaunch_keeps hk (by decide)⟩
      rw [takeLaunch_unloaded _ (by rw [popReq_ten]; exact hl)]
      exact ended.after (endStop_ended _ _ _).ended ht
    · obtain ⟨⟨cs, hlen, hnd, hpend, hall⟩, hka⟩ := announce_each (upTo count.toNat) (s.popReq r.fn.val) ten.toNat
        (by rw [popReq_ten, upTo, List.length_range]; exact hp)
      rw [popReq_ten] at hpend
      refine ⟨_, _, exec_blankRequest ha ho he h1 h2 hr, ⟨cs, hlen.trans List.length_range, hnd, hpend, fun c hc => ?_⟩,
        hk.trans (hka.mono (by decide))⟩
      have := hall c hc
      rwa [popReq_ten, hk.courseNow_eq] at this
  · have hp := popReq_keeps_mgmt s 0
    refine ⟨fun repaired h => ?_, fun repaired h => exec_maintenance_refused ha h0 h, fun addr len image h1 h2 => ?_,
      fun slot hs => ⟨fun hv => ?_, fun hv => ?_⟩, fun b fell hl hb => ?_, fun h => exec_fwActivate_refused ha h0 h⟩
    · obtain ⟨h1, h2, h3, h4, hk⟩ := repairRows_each (s.hbm.repair.zip repaired) (s.popReq 0)
      have hs := startAssays_keeps_ports ((s.hbm.repair.zip repaired).foldl (fun (u : State) (x : Nat × Bool) => u.repairRow x.1 x.2) (s.popReq 0))
      refine ⟨_, exec_maintenance ha h0 h, ?_, ?_, ?_, ?_, ((hp.mono (by decide)).trans (hk.mono (by decide))).trans (hs.mono (by decide))⟩
      · rw [startAssays_ledger, h1, popReq_ledger]
      · rw [hs.eq_hbm]
        exact h2
      · rw [hs.eq_hbm]
        exact fun k hk => popReq_hbm s 0 ▸ h3 k hk
      · rw [hs.eq_hbm, h4, popReq_hbm]
    · refine ⟨_, exec_fwStage ha h0 h1 h2, ?_, ?_, ?_, ?_⟩
      · rw [slotOf_fwEvent, slotOf_grant, slotOf_setSlot]
      · rw [slotOf_fwEvent, slotOf_grant]
        have e := slotOf_setSlot_not (s.popReq 0) (!s.mgmt.runSlot) ⟨image, false⟩
        rw [Bool.not_not, slotOf_popReq] at e
        exact e
      · rw [nextSlot_fwEvent, nextSlot_grant, nextSlot_setSlot, nextSlot_popReq]
      · exact State.fwEvent_keeps (State.grant_keeps (State.setSlot_keeps (hp.mono (by decide)) (by decide)) (by decide)) (by decide)
    · refine ⟨_, exec_fwCommit ha h0 hs hv, rfl, ?_, ⟨commitSeq (slotOf s !decide (slot = 1)) (slotOf s (decide (slot = 1))), ?_, commitSeq_above⟩,
        hp.trans (committed_keeps _ _ _)⟩
      · exact (slotOf_committed_not _ _ _).trans (slotOf_popReq _ _ _)
      · rw [slotOf_committed, slotOf_popReq, slotOf_popReq]
    · refine ⟨_, exec_fwCommit_invalid ha h0 hs hv, nextSlot_popReq s 0, fun k => ?_, State.fwEvent_keeps hp (by decide)⟩
      rw [slotOf_fwEvent, slotOf_popReq]
    · have hb' : bootSlot (s.popReq 0) = some (b, fell) := by
        obtain ⟨m, e⟩ := popReq_eq s 0
        rw [e]
        exact hb
      have hx := exec_fwActivate ha h0 hl
      rw [restartMgmt_boots hb'] at hx
      obtain ⟨h1, h2, h3, h4⟩ := startFw_slots (s.popReq 0).dropBacklog b fell
      rw [slotOf_dropBacklog, slotOf_popReq] at h3
      refine ⟨_, hx, h1, h2, h3, fun fn => ?_, ?_⟩
      · have e := boxOf_dropBacklog (s.popReq 0) fn
        unfold boxOf at e ⊢
        rw [← h4] at e
        exact e
      · exact State.fwEvent_keeps (State.startFw_keeps ((hp.trans (dropBacklog_keeps _)).mono (by decide)) (by decide)) (by decide)

end Sys2Proof.Machine
end

section
/-! SUPPORT. Register reads and writes (20 R527 to R529, R536, R538; 00 R9, R10; 18 R496), and the lock of FAB_CFG (13 R353). -/

namespace Sys2Proof.Machine

open Sys2Proof Sys2Proof.Claims

set_option Elab.async false

/-! ### Reads -/

theorem intStatus_clearInts (s : State) (fn k : Nat) (v : BitVec 64) :
    (s.clearInts fn v).intStatus k = if k = fn then s.intStatus k &&& ~~~v else s.intStatus k := by
  unfold State.clearInts State.intStatus
  by_cases h : k = fn
  · subst h
    rw [if_pos rfl]
    exact look_put _ _ _ _
  · rw [if_neg h]
    exact look_put_ne _ _ _ h

theorem dropLatch_keeps (s : State) (fn : Nat) : Keeps [.mgmt] s (s.dropLatch fn) := setMgmt_keeps _ _

theorem exec_intStatusClear {fn : Fn} {mask : BitVec 64} {s : State} (h : s.board.safe = false) :
    exec (.intStatusClear fn mask) s = .next ((s.dropLatch fn.val).clearInts fn.val mask) := if_neg (by rw [h]; decide)

theorem exec_tallySnap {fn : Fn} {s : State} (h : readable s fn.val = true) :
    exec (.tallySnap fn) s = .next ((s.dropLatch fn.val).readBack s.time.tally) := if_pos h

theorem latch_dropLatch (s : State) (fn : Nat) (v : BitVec 64) : find ((s.dropLatch fn).readBack v).mgmt.latch fn = none := find_del _ _

theorem latch_setLatch (s : State) (fn o : Nat) (hi : BitVec 32) (v : BitVec 64) :
    find ((s.setLatch fn o hi).readBack v).mgmt.latch fn = some (o, hi) := find_set _ _ _

theorem answer_high (s : State) (fn : Nat) (w : BitVec 64) :
    ((s.dropLatch fn).readBack ((bits w 63 32).setWidth 64)).mgmt.answer = BitVec.ofNat 64 (bitsN w 63 32) :=
  (BitVec.ofNat_toNat 64 (bits w 63 32)).symm

theorem readBack_keeps (s : State) (v : BitVec 64) : Keeps [.mgmt] s (s.readBack v) := setMgmt_keeps _ _

theorem setLatch_keeps (s : State) (fn o : Nat) (hi : BitVec 32) : Keeps [.mgmt] s (s.setLatch fn o hi) := setMgmt_keeps _ _

/-- A 4-byte read of a counter's low half. -/
theorem exec_counterLowRead_low {fn : Fn} {off : BitVec 20} {s : State} (hr : readable s fn.val = true) (h8 : off.toNat % 8 = 0)
    (hb : off.toNat < bar0Size fn.val) (hc : isCounter fn.val off.toNat = true) (hw : waitAt fn.val off.toNat = none) :
    exec (.counterLowRead fn off) s = .next ((s.setLatch fn.val off.toNat (bits (regRead s fn.val off.toNat) 63 32)).readBack
      (BitVec.ofNat 64 (bitsN (regRead s fn.val off.toNat) 31 0))) := by
  have h4 : ¬ (decide (off.toNat % 4 ≠ 0) || decide (bar0Size fn.val ≤ off.toNat)) = true := by
    simp only [Bool.or_eq_true, decide_eq_true_eq, not_or]
    omega
  change execCounterLowRead fn off s = _
  unfold execCounterLowRead
  dsimp only
  rw [if_neg (by rw [hr]; decide), if_neg h4, if_neg (by omega), hw]
  dsimp only
  rw [if_pos hc]

/-- A 4-byte read of a high half just latched. -/
theorem exec_counterLowRead_high {fn : Fn} {off : BitVec 20} {hi : BitVec 32} {s : State} (hr : readable s fn.val = true) (h4 : off.toNat % 8 = 4)
    (hb : off.toNat < bar0Size fn.val) (hl : find s.mgmt.latch fn.val = some (off.toNat - 4, hi)) :
    exec (.counterLowRead fn off) s = .next ((s.dropLatch fn.val).readBack (hi.setWidth 64)) := by
  have hn : ¬ (decide (off.toNat % 4 ≠ 0) || decide (bar0Size fn.val ≤ off.toNat)) = true := by
    simp only [Bool.or_eq_true, decide_eq_true_eq, not_or]
    omega
  change execCounterLowRead fn off s = _
  unfold execCounterLowRead
  dsimp only
  rw [if_neg (by rw [hr]; decide), if_neg hn, if_pos h4, hl]
  dsimp only
  rw [if_pos rfl]

theorem bar0Size_cases (fn : Nat) : bar0Size fn = 0x10_0000 ∨ bar0Size fn = 0x1_0000 := by
  unfold bar0Size
  split
  · exact .inl rfl
  · exact .inr rfl

theorem add_four {off : BitVec 20} {fn : Nat} (h8 : off.toNat % 8 = 0) (hb : off.toNat < bar0Size fn) :
    (off + 4).toNat = off.toNat + 4 ∧ off.toNat + 4 < bar0Size fn := by
  have hs : off.toNat + 4 < bar0Size fn := by
    rcases bar0Size_cases fn with h | h <;> omega
  refine ⟨?_, hs⟩
  have h20 : off.toNat + 4 < 2 ^ 20 := by
    rcases bar0Size_cases fn with h | h <;> omega
  rw [BitVec.toNat_add]
  exact Nat.mod_eq_of_lt h20

/-- The longest wait read, then cleared. -/
theorem readWait_clears (s : State) (fn off : Nat) (wide : Bool) : (s.readWait fn off wide).counter off = 0 ∧
    (s.readWait fn off wide).mgmt.answer = (if wide then s.counter off else BitVec.ofNat 64 (bitsN (s.counter off) 31 0)) ∧
    ∀ o, o ≠ off → (s.readWait fn off wide).counter o = s.counter o := by
  have hc : (s.readWait fn off wide).counters = del s.counters off := by cases wide <;> rfl
  refine ⟨?_, by cases wide <;> rfl, fun o ho => ?_⟩
  · unfold State.counter
    rw [hc, look, find_del]
    rfl
  · unfold State.counter
    rw [hc, look, find_del_ne _ ho]
    rfl

theorem exec_arbWaitMax {fn : Fn} {arb : BitVec 6} {q : BitVec 4} {wide : Bool} {off : Nat} {s : State} (hr : readable s fn.val = true)
    (hw : waitOff fn.val arb.toNat q.toNat = some off) : exec (.arbWaitMax fn arb q wide) s = .next (s.readWait fn.val off wide) := by
  change execArbWaitMax fn arb q wide s = _
  unfold execArbWaitMax
  rw [if_neg (by rw [hr]; decide), hw]

/-! ### Writes -/

/-- A write of eight bytes covers the whole register. -/
theorem lanes_eight (o : Nat) : lanes o 8 = 0xFFFF_FFFF_FFFF_FFFF := rfl

theorem onLanes_eight (o : Nat) (v : BitVec 64) : onLanes o 8 v = v := by
  unfold onLanes
  rw [lanes_eight, if_pos (by rfl)]
  exact BitVec.and_allOnes

theorem storeOn_all (old v field : BitVec 64) : storeOn old v 0xFFFF_FFFF_FFFF_FFFF field = (old &&& ~~~field) ||| (v &&& field) := by
  unfold storeOn
  rw [show (0xFFFF_FFFF_FFFF_FFFF : BitVec 64) = BitVec.allOnes 64 from rfl, BitVec.allOnes_and, BitVec.and_allOnes]

section write

variable {fn : Fn} {off : BitVec 20} {v : BitVec 64} {s : State}

theorem exec_registerWrite_off {bar4 : Bool} {bytes : BitVec 4} (h : hostOn s fn.val = false) :
    exec (.registerWrite fn bar4 off bytes v false) s = .next s := by
  change execRegisterWrite fn bar4 off bytes v false s = _
  unfold execRegisterWrite
  dsimp only
  exact if_pos (by simp [h])

/-- A write that is misaligned or beyond its BAR is counted. -/
theorem exec_registerWrite_refused {bytes : BitVec 4} (h : hostOn s fn.val = true) (hb : bytes = 4 ∨ bytes = 8)
    (ho : off.toNat % bytes.toNat ≠ 0 ∨ bar0Size fn.val ≤ off.toNat) :
    exec (.registerWrite fn false off bytes v false) s = .next ((s.dropLatch fn.val).hostUr fn.val) := by
  have hodd : ((!((decide (bytes.toNat = 8) && decide (off.toNat % 8 = 0)) || (decide (bytes.toNat = 4) && decide (off.toNat % 4 = 0))))
      || decide (bar0Size fn.val ≤ off.toNat)) = true := by
    rcases hb with rfl | rfl
    · have e : (4 : BitVec 4).toNat = 4 := rfl
      rw [e] at ho ⊢
      simpa using ho
    · have e : (8 : BitVec 4).toNat = 8 := rfl
      rw [e] at ho ⊢
      simpa using ho
  change execRegisterWrite fn false off bytes v false s = _
  unfold execRegisterWrite
  dsimp only
  rw [if_neg (by simp [h]), if_neg (by decide), if_pos hodd]
  rfl

/-- A write of a whole register of BAR0. -/
theorem exec_registerWrite_whole (h : hostOn s fn.val = true) (h8 : off.toNat % 8 = 0) (hb : off.toNat < bar0Size fn.val) :
    exec (.registerWrite fn false off 8 v false) s = .next (if fn.val = 0 then (s.dropLatch fn.val).pfWrite off.toNat v 0xFFFF_FFFF_FFFF_FFFF
      else (s.dropLatch fn.val).windowWrite (fn.val - 1) off.toNat off.toNat v 0xFFFF_FFFF_FFFF_FFFF false) := by
  have e8 : (8 : BitVec 4).toNat = 8 := rfl
  have hodd : ¬ ((!((decide ((8 : BitVec 4).toNat = 8) && decide (off.toNat % 8 = 0)) || (decide ((8 : BitVec 4).toNat = 4) && decide (off.toNat % 4 = 0))))
      || decide (bar0Size fn.val ≤ off.toNat)) = true := by
    rw [e8]
    simp [h8]
    omega
  change execRegisterWrite fn false off 8 v false s = _
  unfold execRegisterWrite
  dsimp only
  rw [if_neg (by simp [h]), if_neg (by decide), if_neg hodd, if_neg (by decide)]
  rw [show (8 : BitVec 4).toNat = 8 from rfl, onLanes_eight, lanes_eight, show off.toNat / 8 * 8 = off.toNat by omega]
  split
  · rfl
  · rfl

/-- A write of a whole register of BAR4. -/
theorem exec_registerWrite_box (h : hostOn s fn.val = true) (h8 : off.toNat % 8 = 0) :
    exec (.registerWrite fn true off 8 v false) s = .next (s.boxWrite fn.val off.toNat v 0xFFFF_FFFF_FFFF_FFFF) := by
  have e8 : (8 : BitVec 4).toNat = 8 := rfl
  have hodd : ¬ (!((decide ((8 : BitVec 4).toNat = 8) && decide (off.toNat % 8 = 0)) || (decide ((8 : BitVec 4).toNat = 4) && decide (off.toNat % 4 = 0)))) = true := by
    rw [e8]
    simp [h8]
  change execRegisterWrite fn true off 8 v false s = _
  unfold execRegisterWrite
  dsimp only
  rw [if_neg (by simp [h]), if_pos rfl, if_neg hodd]
  rw [show (8 : BitVec 4).toNat = 8 from rfl, onLanes_eight, lanes_eight, show off.toNat / 8 * 8 = off.toNat by omega]
  rfl

/-- The firmware's write of a whole register that it alone writes. -/
theorem exec_registerWrite_firm (hm : mgmtOn s = true) (hs : s.board.safe = false) (h8 : off.toNat % 8 = 0) (hb : off.toNat < bar0Size 0)
    (ho : firmOwn off.toNat = true) : exec (.registerWrite 0 false off 8 v true) s = .next (s.firmWrite off.toNat v 0xFFFF_FFFF_FFFF_FFFF) := by
  have e8 : (8 : BitVec 4).toNat = 8 := rfl
  have hodd : ¬ ((!((decide ((8 : BitVec 4).toNat = 8) && decide (off.toNat % 8 = 0)) || (decide ((8 : BitVec 4).toNat = 4) && decide (off.toNat % 4 = 0))))
      || decide (bar0Size 0 ≤ off.toNat)) = true := by
    rw [e8]
    simp [h8]
    omega
  change execRegisterWrite 0 false off 8 v true s = _
  unfold execRegisterWrite
  dsimp only
  rw [if_neg (by simp [hm, hs]), if_neg (by decide)]
  rw [show off.toNat / 8 * 8 = off.toNat by omega]
  refine (if_neg hodd).trans ?_
  rw [if_pos rfl, if_pos ho, show (8 : BitVec 4).toNat = 8 from rfl, onLanes_eight, lanes_eight]
  rfl

end write

theorem hostUr_counted (s : State) (fn : Nat) : counted s (s.hostUr fn) (if fn = 0 then 0x7010 else tenOff (fn - 1) 0x2268) := by
  unfold State.hostUr
  split
  · exact counted_count s _
  · exact counted_count s _

/-- A host's write to a firmware register is noted. -/
theorem pfWrite_violation {s : State} {o : Nat} {v m : BitVec 64} (h : m &&& firmField o ≠ 0) : s.pfWrite o v m = s.lockViolation o v := if_pos h

/-! ### The lock of FAB_CFG -/

theorem linksDown (l : List Port) (s : State) (q : Port) :
    (portOf (l.foldl (fun (u : State) p => u.modPort p (fun q => { q with link := false, locked := false })) s) q).link =
      if q ∈ l then false else (portOf s q).link := by
  induction l generalizing s with
  | nil => rfl
  | cons p l ih =>
    rw [List.foldl_cons, ih]
    by_cases hl : q ∈ l
    · rw [if_pos hl, if_pos (List.mem_cons_of_mem _ hl)]
    · by_cases hp : q = p
      · subst hp
        rw [if_neg hl, if_pos List.mem_cons_self, portOf_modPort]
      · rw [if_neg hl, if_neg (by simp [hp, hl]), portOf_modPort_ne _ _ hp]

/-- A state with an inconsistent configuration noted, before its links go. -/
def State.cfgBad (s : State) : State := { s with fabric := { s.fabric with cfgBad := true } }

/-- The links of every port of the chip down. -/
def State.linksOff (s : State) : State :=
  (List.finRange 16).foldl (fun (u : State) p => u.modPort p (fun q => { q with link := false, locked := false })) s

theorem badConfig_eq (s : State) : s.badConfig = s.cfgBad.linksOff.selectPll := rfl

theorem linksOff_keeps (l : List Port) (s : State) :
    (l.foldl (fun (u : State) p => u.modPort p (fun q => { q with link := false, locked := false })) s).fabric.cfg = s.fabric.cfg ∧
    (l.foldl (fun (u : State) p => u.modPort p (fun q => { q with link := false, locked := false })) s).fabric.axes = s.fabric.axes := by
  induction l generalizing s with
  | nil => exact ⟨rfl, rfl⟩
  | cons p l ih => exact ih (s.modPort p _)

/-- What an inconsistent configuration leaves: the configuration itself, and no link. -/
theorem badConfig_leaves (s : State) : s.badConfig.fabric.cfg = s.fabric.cfg ∧ s.badConfig.fabric.axes = s.fabric.axes ∧
    ∀ q, (portOf s.badConfig q).link = false := by
  have hk : Keeps [.time, .mgmt] s.cfgBad.linksOff s.badConfig := State.selectPll_keeps (Keeps.refl _ _) (by decide)
  obtain ⟨h1, h2⟩ := linksOff_keeps (List.finRange 16) s.cfgBad
  refine ⟨?_, ?_, fun q => ?_⟩
  · rw [hk.eq_fabric]
    exact h1
  · rw [hk.eq_fabric]
    exact h2
  · rw [hk.portOf_eq]
    exact (linksDown _ _ _).trans (if_pos (List.mem_finRange q))

theorem lock_bit (v : BitVec 64) : bitB (v ||| (1#64 <<< 63)) 63 = true := by
  unfold bitB
  rw [BitVec.getLsbD_or]
  exact Bool.or_eq_true_iff.2 (.inr (by decide))

/-- A state with FAB_CFG given a value. -/
def State.withCfg (s : State) (v : BitVec 64) : State := { s with fabric := { s.fabric with cfg := v } }

theorem setFabric_keeps (s : State) (f : Fabric) : Keeps [.fabric] s { s with fabric := f } where
  pending := rfl
  ident := rfl
  wf := id
  same v hv := by cases v <;> simp_all [View.same, View.sameCores, View.sameHbm]

theorem fabCfgLocks_holds : fabCfgLocks := by
  intro v s
  refine ⟨fun hu => ?_, fun hl => congrArg _ (if_pos hl)⟩
  have hx : exec (.fabCfgLock v) s = .next (if cfgInconsistent (s.withCfg (v ||| (1#64 <<< 63))) then (s.withCfg (v ||| (1#64 <<< 63))).badConfig
      else s.withCfg (v ||| (1#64 <<< 63))) := by
    refine congrArg _ ((if_neg (by rw [hu]; decide)).trans ?_)
    dsimp only
    rw [lock_bit, Bool.true_and]
    rfl
  have hk : Keeps [.fabric, .time, .mgmt] s (s.withCfg (v ||| (1#64 <<< 63))) := (setFabric_keeps s _).mono (by decide)
  cases hc : cfgInconsistent (s.withCfg (v ||| (1#64 <<< 63))) with
  | true =>
    rw [if_pos hc] at hx
    obtain ⟨h1, h2, h3⟩ := badConfig_leaves (s.withCfg (v ||| (1#64 <<< 63)))
    exact ⟨_, hx, h1, h2, fun _ => h3, fun k => absurd (hc.symm.trans k) (by decide), State.badConfig_keeps hk (by decide)⟩
  | false =>
    rw [if_neg (by rw [hc]; decide)] at hx
    exact ⟨_, hx, rfl, rfl, fun k => absurd (hc.symm.trans k) (by decide), fun _ => rfl, hk⟩

/-! ### Single registers -/

/-- A write to LDR_LIST. -/
theorem windowWrite_list {s : State} {t : Nat} {v : BitVec 64} (ht : s.tenExists t = true) (w : Nat) (pf : Bool) :
    s.windowWrite t 0x48 w v 0xFFFF_FFFF_FFFF_FFFF pf = s.modTen t (fun n => { n with load := { n.load with
      list := (n.load.list &&& ~~~0x03FF_FFFF_FFFF_FFFF#64) ||| (v &&& 0x03FF_FFFF_FFFF_FFFF) } }) := by
  unfold State.windowWrite
  rw [if_neg (by decide), if_neg (by rw [ht]; decide), if_pos (by decide)]
  unfold State.controlWrite
  simp only [storeOn_all]
  rfl

/-- The offsets of the registers that the firmware alone writes. -/
theorem firmField_some {o : Nat} (h : o ∈ [0x1018, 0x1020, 0x1028, 0x2000, 0x2008, 0x3000]) :
    (0xFFFF_FFFF_FFFF_FFFF : BitVec 64) &&& firmField o ≠ 0 ∧ o % 8 = 0 ∧ o < 0x10_0000 := by
  have all : ∀ o ∈ [0x1018, 0x1020, 0x1028, 0x2000, 0x2008, 0x3000], (0xFFFF_FFFF_FFFF_FFFF : BitVec 64) &&& firmField o ≠ 0 ∧ o % 8 = 0 ∧
      o < 0x10_0000 := by decide
  exact all o h

theorem firmWrite_cap (s : State) (v : BitVec 64) : s.firmWrite 0x3000 v 0xFFFF_FFFF_FFFF_FFFF =
    { s with power := { s.power with cap := (s.power.cap &&& ~~~0x7FF_FFFF#64) ||| (v &&& 0x7FF_FFFF) } } := by
  unfold State.firmWrite
  rw [if_neg (by decide), if_neg (by decide), if_pos rfl]
  simp only [storeOn_all]
  rfl

theorem boxWrite_thresh (s : State) (fn : Nat) (v : BitVec 64) : s.boxWrite fn 0x3028 v 0xFFFF_FFFF_FFFF_FFFF =
    s.setBox fn { boxOf s fn with thresh := BitVec.ofNat 14 (min 8192 (bitsN v 13 0)) } := by
  unfold State.boxWrite
  dsimp only
  rw [if_neg (by decide), if_neg (by decide), if_neg (by decide), if_neg (by decide), if_pos rfl, if_pos (by decide)]

/-- Settles O51: each register by its own lemma, the refusals by their guards, FAB_CFG by `fabCfgLocks_holds`. -/
theorem registerAccesses : Obligations.RegisterAccesses := by
  unfold Obligations.RegisterAccesses
  refine ⟨fun fn s => ⟨fun mask hs => ?_, fun hr => ⟨?_, fun off h8 hb hc hw => ?_, fun arb q wide off hw => ?_⟩, fun off bytes v ho hb hoff => ?_,
    fun bar4 off bytes v ho => exec_registerWrite_off ho, fun v ho => ?_⟩, fun n v s ho he => ?_, fun off v s hoff hs => ?_, fun v s hm hs => ?_,
    fabCfgLocks_holds⟩
  · exact ⟨_, exec_intStatusClear hs, fun k => intStatus_clearInts _ _ _ _, State.clearInts_keeps (dropLatch_keeps _ _) (by decide)⟩
  · exact ⟨_, exec_tallySnap hr, rfl, rfl, latch_dropLatch _ _ _, (dropLatch_keeps _ _).trans (readBack_keeps _ _)⟩
  · obtain ⟨h4, hb4⟩ := add_four h8 hb
    have hx := exec_counterLowRead_low hr h8 hb hc hw
    have hy := exec_counterLowRead_high (fn := fn) (off := off + 4) (hi := bits (regRead s fn.val off.toNat) 63 32)
      (s := (s.setLatch fn.val off.toNat (bits (regRead s fn.val off.toNat) 63 32)).readBack (BitVec.ofNat 64 (bitsN (regRead s fn.val off.toNat) 31 0)))
      hr (by omega) (by omega) (by rw [h4, Nat.add_sub_cancel]; exact latch_setLatch _ _ _ _ _)
    exact ⟨_, _, hx, rfl, hy, answer_high _ _ _, latch_dropLatch _ _ _, (setLatch_keeps _ _ _ _).trans (readBack_keeps _ _),
      (dropLatch_keeps _ _).trans (readBack_keeps _ _)⟩
  · obtain ⟨h1, h2, h3⟩ := readWait_clears s fn.val off wide
    exact ⟨_, exec_arbWaitMax hr hw, h1, h2, h3, State.readWait_keeps (Keeps.refl _ _) (by decide)⟩
  · have hc := hostUr_counted (s.dropLatch fn.val) fn.val
    have hf : (fn = 0) = (fn.val = 0) := propext ⟨fun h => by rw [h]; rfl, fun h => Fin.ext h⟩
    refine ⟨_, exec_registerWrite_refused ho hb hoff, ?_, State.hostUr_keeps ((dropLatch_keeps _ _).mono (by decide)) (by decide)⟩
    simp only [hf]
    exact hc
  · refine ⟨_, exec_registerWrite_box ho (by decide), ?_, State.boxWrite_keeps (Keeps.refl _ _) (by decide)⟩
    rw [show (0x3028 : BitVec 20).toNat = 0x3028 from rfl, boxWrite_thresh, boxOf_setBox]
    exact Nat.mod_eq_of_lt (by omega)
  · have hv : (Fin.ofNat 9 (n.val + 1) : Fn).val = n.val + 1 := Nat.mod_eq_of_lt (by omega)
    have hb : (0x48 : BitVec 20).toNat < bar0Size (Fin.ofNat 9 (n.val + 1) : Fn).val := by
      rcases bar0Size_cases (Fin.ofNat 9 (n.val + 1) : Fn).val with h | h
      · rw [h]; decide
      · rw [h]; decide
    have hx := exec_registerWrite_whole (fn := Fin.ofNat 9 (n.val + 1)) (off := 0x48) (v := v) (s := s) (by rw [hv]; exact ho) (by decide) hb
    rw [if_neg (by rw [hv]; omega), hv, Nat.add_sub_cancel, show (0x48 : BitVec 20).toNat = 0x48 from rfl,
      windowWrite_list (show (s.dropLatch (n.val + 1)).tenExists n.val = true from he)] at hx
    refine ⟨_, hx, ?_, fun m hm => State.ten_modTen_ne _ _ hm, State.modTen_keeps ((dropLatch_keeps _ _).mono (by decide)) (by decide)⟩
    rw [State.ten_modTen]
    rfl
  · have hmem : off.toNat ∈ [0x1018, 0x1020, 0x1028, 0x2000, 0x2008, 0x3000] := List.mem_map_of_mem (f := BitVec.toNat) hoff
    obtain ⟨hf, h8, hb⟩ := firmField_some hmem
    have hx := exec_registerWrite_whole (fn := 0) (off := off) (v := v) (s := s) (by unfold hostOn; rw [hs]; rfl) h8 hb
    rw [if_pos (show (0 : Fn).val = 0 from rfl), pfWrite_violation hf] at hx
    exact ⟨_, hx, rfl, State.lockViolation_keeps (dropLatch_keeps _ _) (by decide)⟩
  · have hx := exec_registerWrite_firm (off := 0x3000) (v := v) hm hs (by decide) (by decide) (by decide)
    rw [show (0x3000 : BitVec 20).toNat = 0x3000 from rfl, firmWrite_cap] at hx
    exact ⟨_, hx, rfl, setPower_keeps _ _⟩

end Sys2Proof.Machine
end

section
/-! SUPPORT. The monitors' reports, the trims and the reconciliation (17 R450 to R453, R468 to R470). -/

namespace Sys2Proof.Machine

open Sys2Proof Sys2Proof.Claims

set_option Elab.async false

/-! ### The energy accounts alone change of the power state -/

/-- Of the power state no more than the energy accounts changes. -/
def Spends (s t : State) : Prop := t.power = { s.power with accounts := t.power.accounts }

section Spends

variable {s t u : State}

theorem Spends.of_eq (h : t.power = s.power) : Spends s t := by unfold Spends; rw [h]

theorem Spends.refl (s : State) : Spends s s := rfl

theorem Spends.of_keeps {vs : List View} (k : Keeps vs s t) (h : View.power ∉ vs := by decide) : Spends s t := .of_eq (k.eq_power h)

theorem Spends.trans (h : Spends s t) (k : Spends t u) : Spends s u := by
  unfold Spends at *
  rw [k, h]

theorem Spends.ite {c : Prop} [Decidable c] (h : Spends s t) (k : Spends s u) : Spends s (if c then t else u) := by
  split <;> assumption

theorem Spends.foldl {α : Type} {l : List α} {f : State → α → State} (h : Spends s t) (hf : ∀ v a, Spends v (f v a)) : Spends s (l.foldl f t) := by
  induction l generalizing t with
  | nil => exact h
  | cons a l ih => exact ih (h.trans (hf t a))

end Spends

theorem account_spends (s : State) (o e : Nat) : Spends s (s.account o e) := rfl

theorem charge_spends (s : State) (t : Option Nat) (e : Nat) (offs : List Nat) : Spends s (s.charge t e offs) := by
  have h : Spends s (offs.foldl (fun (u : State) o => u.account o e) (s.account (chipOff 0x80) e)) :=
    .foldl (account_spends _ _ _) (fun u o => account_spends u o e)
  unfold State.charge
  dsimp only
  split
  · exact (h.trans (account_spends _ _ _)).trans (.of_eq rfl)
  · exact h.trans (account_spends _ _ _)

theorem emitFrame_spends (s : State) (p : Port) (f : Frame) : Spends s (s.emitFrame p f) := by
  unfold State.emitFrame
  exact .ite (.refl s) (charge_spends (s.count (portOff p.val 0) 1) _ _ _)

theorem transmit_spends (s : State) (t ch peer : Nat) (u : Unacked) : Spends s (s.transmit t ch peer u) := by
  unfold State.transmit
  exact .trans (.of_eq rfl) (emitFrame_spends _ _ _)

theorem sendNow_spends (s : State) (t ch peer : Nat) (h : Held) : Spends s (s.sendNow t ch peer h) := by
  unfold State.sendNow
  refine .trans ?_ (transmit_spends _ _ _ _ _)
  exact .ite (.of_eq rfl) (.of_eq rfl)

theorem push_spends (s : State) (t ch peer : Nat) (h : Held) : Spends s (s.push t ch peer h) := by
  unfold State.push
  exact .ite (sendNow_spends _ _ _ _ _) (.of_eq rfl)

theorem fanOut_spends (s : State) (t kind : Nat) (axes : List Nat) (ws : List MemWord) : Spends s (s.fanOut t kind axes ws) := by
  unfold State.fanOut
  refine .foldl (.refl s) (fun u k => .foldl (.refl u) (fun v j => ?_))
  exact .ite (.refl v) (push_spends _ _ _ _ _)

theorem broadcast_spends (s : State) (t kind : Nat) (ws : List MemWord) : Spends s (s.broadcast t kind ws) := fanOut_spends _ _ _ _ _

theorem endError_spends (s : State) (n : Nat) (code : BitVec 8) : Spends s (s.endError n code) := by
  unfold State.endError
  split
  · exact .refl s
  · refine .trans ?_ (broadcast_spends _ _ _ _)
    exact .of_eq rfl

theorem jobFatal_spends (s : State) (n k : Nat) : Spends s (s.jobFatal n k) := by
  unfold State.jobFatal State.jobEnds
  refine .ite ?_ (.refl s)
  exact (endError_spends s n _).trans (.of_eq rfl)

theorem sendBlank_spends (s : State) (n c : Nat) (cause : BitVec 3) : Spends s (s.sendBlank n c cause) := by
  unfold State.sendBlank
  dsimp only
  refine .ite (jobFatal_spends s n 1) (.trans ?_ (broadcast_spends _ _ _ _))
  exact .of_eq rfl

theorem announce_spends (s : State) (n c : Nat) (cause : BitVec 3) : Spends s (s.announce n c cause) := sendBlank_spends _ _ _ _

/-! ### Reports of the monitors -/

/-- A counter after `k` counts. -/
def bumped (c : BitVec 64) (k : Nat) : BitVec 64 := if k = 0 then c else BitVec.ofNat 64 (min counterMax (c.toNat + k))

theorem bumped_succ (c : BitVec 64) (k : Nat) : bumped (bumped c 1) k = bumped c (k + 1) := by
  unfold bumped counterMax
  rw [if_neg (by decide : ¬ (1 = 0)), if_neg (by omega : ¬ (k + 1 = 0))]
  have h1 : (BitVec.ofNat 64 (min (2 ^ 48 - 1) (c.toNat + 1))).toNat = min (2 ^ 48 - 1) (c.toNat + 1) := Nat.mod_eq_of_lt (by omega)
  split
  case isTrue h => rw [h]
  case isFalse h =>
    rw [h1]
    exact congrArg (BitVec.ofNat 64) (by omega)

/-- One monitor's report taken. -/
def State.cpmOne (u : State) (x : BitVec 6 × Nat) : State :=
  let u1 := { u with power := { u.power with sMin := if x.1 < u.power.sMin then x.1 else u.power.sMin } }
  if x.1 = 0 then (u1.dayChip 0x73 0 x.2 0 0).countChip 0xA8 1 else u1

theorem cpmOne_sMin (u : State) (x : BitVec 6 × Nat) : (u.cpmOne x).power.sMin = if x.1 < u.power.sMin then x.1 else u.power.sMin := by
  unfold State.cpmOne
  dsimp only
  split
  · rfl
  · rfl

theorem cpmOne_counter (u : State) (x : BitVec 6 × Nat) :
    (u.cpmOne x).counter (chipOff 0xA8) = bumped (u.counter (chipOff 0xA8)) (if x.1 = 0 then 1 else 0) := by
  unfold State.cpmOne
  dsimp only
  by_cases h : x.1 = 0
  · rw [if_pos h, if_pos h]
    exact (State.counter_count _ _ _ _).trans (if_pos rfl)
  · rw [if_neg h, if_neg h]
    rfl

/-- What reports taken in turn leave of the least slack, and of the counter of monitors that had none. -/
theorem cpm_taken (l : List (BitVec 6 × Nat)) (s : State) :
    let u := l.foldl State.cpmOne s
    (∀ x ∈ l, u.power.sMin ≤ x.1) ∧ u.power.sMin ≤ s.power.sMin ∧ (u.power.sMin = s.power.sMin ∨ u.power.sMin ∈ l.map (·.1)) ∧
      u.counter (chipOff 0xA8) = bumped (s.counter (chipOff 0xA8)) (l.filter (fun x => decide (x.1 = 0))).length := by
  induction l generalizing s with
  | nil => exact ⟨fun x hx => absurd hx (by simp), BitVec.le_refl _, .inl rfl, rfl⟩
  | cons x l ih =>
    obtain ⟨h1, h2, h3, h4⟩ := ih (s.cpmOne x)
    have hm := cpmOne_sMin s x
    refine ⟨fun y hy => ?_, ?_, ?_, ?_⟩
    · rcases List.mem_cons.1 hy with rfl | hy
      · refine BitVec.le_trans h2 ?_
        rw [hm]
        split
        · exact BitVec.le_refl _
        · bv_omega
      · exact h1 y hy
    · refine BitVec.le_trans h2 ?_
      rw [hm]
      split
      · bv_omega
      · exact BitVec.le_refl _
    · rw [List.foldl_cons, List.map_cons, List.mem_cons]
      rcases h3 with h3 | h3
      · rw [h3, hm]
        split
        · exact .inr (.inl rfl)
        · exact .inl rfl
      · exact .inr (.inr h3)
    · rw [List.foldl_cons, h4, cpmOne_counter]
      by_cases h : x.1 = 0
      · rw [if_pos h, bumped_succ, List.filter_cons_of_pos (by simpa using h), List.length_cons]
      · rw [if_neg h, List.filter_cons_of_neg (by simpa using h)]
        rfl

theorem exec_cpmReport (slack : List (BitVec 6)) (s : State) : exec (.cpmReport slack) s = .next (slack.zipIdx.foldl State.cpmOne s) := rfl

/-! ### Trims -/

/-- The setpoint that a trim chooses. -/
def trimTo (v m : Nat) : Nat :=
  if m < 8 then (if v + 5 ≤ 820 then v + 5 else v) else if 14 ≤ m then (if setFloor + 5 ≤ v then v - 5 else v) else v

theorem trimTo_eq (v m : Nat) : trimTo v m = if m < 8 ∧ v + 5 ≤ 820 then v + 5 else if 14 ≤ m ∧ setFloor + 5 ≤ v then v - 5 else v := by
  unfold trimTo
  generalize setFloor = f
  split_ifs <;> omega

theorem trimTo_lt {v : Nat} (m : Nat) (h : v < 1024) : trimTo v m < 1024 := by
  unfold trimTo
  generalize setFloor = f
  split_ifs <;> omega

/-- A state with the trim made, before it is noted and counted. -/
def State.trimmed (s : State) : State :=
  let v := s.power.vset.toNat
  let m := s.power.sMin.toNat
  { s with
    power := { s.power with vset := BitVec.ofNat 10 (trimTo v m), sMin := 63, lastTrim := s.now, trimDue := false,
                            margin := s.power.margin || (decide (m < 8) && decide (820 < v + 5)) }
    mgmt := { s.mgmt with ledger := { s.mgmt.ledger with
      trims := ((s.mgmt.ledger.trims ++ [(s.time.tally, v, trimTo v m, m, s.power.tj.toNat)]).reverse.take 256).reverse } } }

/-- The notes and counts of a trim leave the power state. -/
theorem trimNow_power (s : State) : s.trimNow.power = s.trimmed.power := by
  have hr (v : Nat) : (((s.trimmed.dayChip 0x74 0 v 0 0).raiseAll 8)).power = s.trimmed.power :=
    (State.raiseAll_keeps (State.dayChip_keeps (Keeps.refl [.mgmt] _) (by decide)) (by decide)).eq_power
  have hi (c : Prop) [Decidable c] (a b : State) (x : Power) (ha : a.power = x) (hb : b.power = x) : (if c then a else b).power = x := by
    split
    · exact ha
    · exact hb
  have h2 : (if s.power.sMin.toNat < 8 && 820 < s.power.vset.toNat + 5 then (s.trimmed.dayChip 0x74 0 s.power.vset.toNat 0 0).raiseAll 8
      else s.trimmed).power = s.trimmed.power := hi _ _ _ _ (hr _) rfl
  exact hi _ _ _ _ h2 h2

/-- A trim wanted in each running job's blank: one notice each. -/
theorem announceAll_pending (l : List Nat) (hnd : l.Nodup) (s : State) :
    let u := l.foldl (fun (u : State) t => u.announce t (courseNow u + 9) 1) s
    (∀ n, n ∉ l → (u.ten n).course.pending = (s.ten n).course.pending) ∧
    (∀ n ∈ l, (s.ten n).course.pending.length < 16 → ∃ c, courseNow s + 9 ≤ c ∧ pendingAt (s.ten n).course.pending c = none ∧
      (u.ten n).course.pending = (s.ten n).course.pending ++ [⟨c, 1, true⟩]) := by
  induction l generalizing s with
  | nil => exact ⟨fun _ _ => rfl, fun n hn => absurd hn (by simp)⟩
  | cons t l ih =>
    obtain ⟨ht, hl⟩ := List.nodup_cons.1 hnd
    obtain ⟨h1, h2⟩ := ih hl (s.announce t (courseNow s + 9) 1)
    have hc : courseNow (s.announce t (courseNow s + 9) 1) = courseNow s := (announce_keeps s t _ 1).courseNow_eq
    refine ⟨fun n hn => ?_, fun n hn hlen => ?_⟩
    · rw [List.mem_cons, not_or] at hn
      exact (h1 n hn.2).trans (announce_pending_ne s _ 1 hn.1)
    · rcases List.mem_cons.1 hn with rfl | hn
      · obtain ⟨hf, hle⟩ := lowestFree_free (s.ten n).course.pending (courseNow s + 9)
        exact ⟨_, hle, hf, (h1 n ht).trans (announce_pending 1 hlen)⟩
      · have hne : n ≠ t := fun e => ht (e ▸ hn)
        have hp := announce_pending_ne s (courseNow s + 9) 1 hne
        have h := h2 n hn (by rw [hp]; exact hlen)
        rw [hp, hc] at h
        exact h

theorem tenancies_nodup (s : State) : (tenancies s).Nodup := List.nodup_range.filter _

theorem runningTens_nodup (s : State) : (runningTens s).Nodup := (tenancies_nodup s).filter _

/-! ### The cap divided -/

/-- Each tenancy of a list changed by its own function. -/
theorem modTens_each (l : List Nat) (hnd : l.Nodup) (f : Nat → Tenancy → Tenancy) (s : State) (n : Nat) :
    (l.foldl (fun (u : State) t => u.modTen t (f t)) s).ten n = if n ∈ l then f n (s.ten n) else s.ten n := by
  induction l generalizing s with
  | nil => rfl
  | cons t l ih =>
    obtain ⟨ht, hl⟩ := List.nodup_cons.1 hnd
    rw [List.foldl_cons, ih hl]
    by_cases e : n = t
    · subst e
      rw [if_neg ht, if_pos List.mem_cons_self, State.ten_modTen]
    · by_cases hm : n ∈ l
      · rw [if_pos hm, if_pos (List.mem_cons_of_mem _ hm), State.ten_modTen_ne _ _ e]
      · rw [if_neg hm, if_neg (by simp [e, hm]), State.ten_modTen_ne _ _ e]

/-- A job that lacks something where nothing is left over, or lacks nothing, is lent nothing. -/
theorem lend_alone (k pool n w lack : Nat) (h : pool = 0 ∨ lack = 0) : lend (k + 1) pool [(n, w, lack)] = [(n, 0)] := by
  unfold lend
  dsimp only
  rcases h with rfl | rfl
  · rw [if_pos (by simp)]
    rfl
  · rw [if_pos (by simp)]
    rfl

/-- What the cap leaves, in units of 0.1 W. -/
def capLeft (s : State) (un : Nat) : Nat := 10 * bitsN s.power.cap 10 0 - un / 100000

/-- A running job's share of what is left. -/
def capShare (s : State) (un t : Nat) : Nat :=
  capLeft s un * (s.ten t).weight.toNat / max 1 ((runningTens s).foldl (fun a t => a + (s.ten t).weight.toNat) 0)

/-- What the shares exceed the needs by, the loans made of it, and a job's grant. -/
def capPool (s : State) (un : Nat) : Nat := (runningTens s).foldl (fun a t => a + (capShare s un t - (s.ten t).need.toNat)) 0

def capLoans (s : State) (un : Nat) : List (Nat × Nat) :=
  lend 8 (capPool s un) ((runningTens s).map (fun t => (t, (s.ten t).weight.toNat, (s.ten t).need.toNat - capShare s un t)))

def capGrant (s : State) (un t : Nat) : Nat :=
  if (runningTens s).contains t then capShare s un t + look (capLoans s un) 0 t - (if capPool s un = 0 then 0
    else (capLoans s un).foldl (fun a x => a + x.2) 0 * (capShare s un t - (s.ten t).need.toNat) / capPool s un) else 0

/-- A tenancy with its share and grant. -/
def Tenancy.granted (r : Tenancy) (s : State) (un t : Nat) : Tenancy :=
  { r with share := BitVec.ofNat 16 (min 65535 (if (runningTens s).contains t then capShare s un t else 0))
           grant := BitVec.ofNat 16 (min 65535 (capGrant s un t)) }

theorem divideCap_eq (s : State) (un : Nat) :
    s.divideCap un = (tenancies s).foldl (fun (u : State) t => u.modTen t (fun n => n.granted s un t)) s := rfl

theorem divideCap_each {s : State} (un : Nat) {n : Nat} (h : n ∈ tenancies s) : (s.divideCap un).ten n = (s.ten n).granted s un n := by
  rw [divideCap_eq]
  exact (modTens_each (tenancies s) (tenancies_nodup s) (fun t r => r.granted s un t) s n).trans (if_pos h)

theorem mem_runningTens {s : State} {n : Nat} : n ∈ runningTens s ↔ n ∈ tenancies s ∧ s.running n = true := List.mem_filter

/-- A job that runs alone has the whole of what the cap leaves. -/
theorem divideCap_alone {s : State} {un n : Nat} (hr : runningTens s = [n]) (hw : (s.ten n).weight ≠ 0) :
    ((s.divideCap un).ten n).grant = BitVec.ofNat 16 (min 65535 (capLeft s un)) ∧ ((s.divideCap un).ten n).share = ((s.divideCap un).ten n).grant := by
  have hin : n ∈ runningTens s := by rw [hr]; exact List.mem_singleton_self n
  have hpos : 0 < (s.ten n).weight.toNat := Nat.pos_of_ne_zero (fun h => hw (BitVec.eq_of_toNat_eq h))
  have hshare : capShare s un n = capLeft s un := by
    unfold capShare
    rw [hr, List.foldl_cons, List.foldl_nil, Nat.zero_add, Nat.max_eq_right hpos, Nat.mul_div_cancel _ hpos]
  have hpool : capPool s un = capLeft s un - (s.ten n).need.toNat := by
    unfold capPool
    rw [hr, List.foldl_cons, List.foldl_nil, Nat.zero_add, hshare]
  have hloans : capLoans s un = [(n, 0)] := by
    unfold capLoans
    rw [hr, List.map_cons, List.map_nil, hshare, hpool]
    exact lend_alone _ _ _ _ _ (by omega)
  have hgrant : capGrant s un n = capLeft s un := by
    have hl : look [(n, 0)] 0 n = 0 := by simp [look, find]
    unfold capGrant
    rw [if_pos (List.contains_iff_mem.2 hin), hloans, hl, hshare, List.foldl_cons, List.foldl_nil]
    simp
  rw [divideCap_each un (mem_runningTens.1 hin).1]
  unfold Tenancy.granted
  rw [hgrant, if_pos (List.contains_iff_mem.2 hin), hshare]
  exact ⟨rfl, rfl⟩

theorem divideCap_idle {s : State} (un : Nat) {n : Nat} (h : n ∈ tenancies s) (hr : s.running n = false) : ((s.divideCap un).ten n).grant = 0 := by
  have hn : (runningTens s).contains n = false := by
    rw [List.contains_eq_mem, decide_eq_false_iff_not, mem_runningTens, hr]
    simp
  rw [divideCap_each un h]
  unfold Tenancy.granted capGrant
  rw [hn]
  rfl

/-! ### The reconciliation -/

theorem requestAssay_kept (s : State) (kind target : Nat) (force : Bool) : Keeps [.fabric, .mgmt] s (s.requestAssay kind target force) :=
  State.requestAssay_keeps (Keeps.refl _ _) (by decide)

/-- A state with the window's estimate noted. -/
def State.measuredOn (s : State) (est m : Nat) : State :=
  let u := (s.dayChip 0x70 0 0 est m).raiseAll 7
  { u with power := { u.power with measured := true } }

theorem estimateOff_power (s : State) (est m : Nat) : (s.estimateOff est m).power = { s.power with measured := true } := by
  have h : ((s.dayChip 0x70 0 0 est m).raiseAll 7).power = s.power :=
    (State.raiseAll_keeps (State.dayChip_keeps (Keeps.refl [.mgmt] s) (by decide)) (by decide)).eq_power
  exact (requestAssay_kept (s.measuredOn est m) 4 0 false).eq_power.trans (congrArg (fun p : Power => { p with measured := true }) h)

theorem storeTriggers_kept (s : State) : Keeps [.service, .fabric, .mgmt] s s.storeTriggers := State.storeTriggers_keeps (Keeps.refl _ _) (by decide)

theorem nextWindow_power (s : State) : s.nextWindow.power = { s.power with ranTags := [] } :=
  (storeTriggers_kept { s with power := { s.power with ranTags := [] } }).eq_power

theorem nextWindow_kept (s : State) : Keeps [.service, .fabric, .mgmt, .power] s s.nextWindow := State.nextWindow_keeps (Keeps.refl _ _) (by decide)

/-- A state with a window's sums taken. -/
def State.windowTaken (s : State) (m est run : Nat) : State :=
  let s1 := s.account (chipOff 0x88) (m * 65536)
  { s1 with power := { s1.power with
    run := BitVec.ofNat 5 run, rho := (m, est), lastChip := look s.power.accounts 0 0x4080, lastUnown := look s.power.accounts 0 0x4090 } }

/-- The windows in a row whose estimate and measurement lie 15 % apart. -/
def runAfter (s : State) (m est : Nat) : Nat := if decide (15 * m < 100 * (max est m - min est m)) then min 16 (s.power.run.toNat + 1) else 0

theorem runAfter_le (s : State) (m est : Nat) : runAfter s m est ≤ 16 := by
  unfold runAfter
  split
  · exact Nat.min_le_left _ _
  · exact Nat.zero_le _

/-- The state after the mismatch rule, and after the cap is divided and held against the measurement. -/
def State.mismatched (s : State) (m est : Nat) : State :=
  let run := runAfter s m est
  if run = 16 && s.power.run.toNat < 16 then (s.windowTaken m est run).estimateOff est m else s.windowTaken m est run

def State.capped (s : State) (m un cap : Nat) : State := if decide (cap * 105 * 10000 < m) then (s.divideCap un).overCap m else s.divideCap un

theorem exec_reconcile (measured : BitVec 48) (s : State) : exec (.reconcile measured) s =
    .next ((s.mismatched measured.toNat (windowNJ s 0x4080 s.power.lastChip)).capped measured.toNat (windowNJ s 0x4090 s.power.lastUnown)
      (bitsN s.power.cap 10 0)).nextWindow := by
  change execReconcile measured s = _
  unfold execReconcile State.capped State.mismatched
  rfl

theorem windowTaken_keeps (s : State) (m est run : Nat) : Keeps [.power] s (s.windowTaken m est run) :=
  (State.account_keeps (Keeps.refl _ _) (by decide)).trans (setPower_keeps _ _)

theorem mismatched_keeps (s : State) (m est : Nat) : Keeps [.fabric, .mgmt, .power] s (s.mismatched m est) :=
  .ite (State.estimateOff_keeps ((windowTaken_keeps _ _ _ _).mono (by decide)) (by decide)) ((windowTaken_keeps _ _ _ _).mono (by decide))

/-- The power state after the mismatch rule. -/
theorem mismatched_power (s : State) (m est : Nat) : (s.mismatched m est).power.rho = (m, est) ∧
    (s.mismatched m est).power.run = BitVec.ofNat 5 (runAfter s m est) ∧ (s.mismatched m est).power.cap = s.power.cap ∧
    (runAfter s m est = 16 → s.power.run.toNat < 16 → (s.mismatched m est).power.measured = true) := by
  unfold State.mismatched
  dsimp only
  by_cases h : runAfter s m est = 16 ∧ s.power.run.toNat < 16
  · rw [if_pos (by simpa using h), estimateOff_power]
    exact ⟨rfl, rfl, rfl, fun _ _ => rfl⟩
  · rw [if_neg (by simpa using h)]
    exact ⟨rfl, rfl, rfl, fun h1 h2 => absurd ⟨h1, h2⟩ h⟩

theorem divideCap_kept (s : State) (un : Nat) : Keeps [.tens] s (s.divideCap un) := State.divideCap_keeps (Keeps.refl _ _) (by decide)

theorem overCap_power (s : State) (m : Nat) : (s.overCap m).power = { s.power with penalty := 16, penTags := s.power.ranTags } := rfl

theorem overCap_counted (s : State) (m : Nat) : counted s (s.overCap m) (chipOff 0x98) := counted_count (s.dayChip 0x71 0 (m / 1000000) 0 0) _

theorem overCap_kept (s : State) (m : Nat) : Keeps [.counters, .mgmt, .power] s (s.overCap m) := State.overCap_keeps (Keeps.refl _ _) (by decide)

/-- What holding the cap against the measurement leaves of the power state. -/
theorem capped_power (s : State) (m un cap : Nat) : (s.capped m un cap).power.rho = s.power.rho ∧ (s.capped m un cap).power.run = s.power.run ∧
    (s.capped m un cap).power.measured = s.power.measured ∧ (cap * 105 * 10000 < m → (s.capped m un cap).power.penalty = 16) := by
  have hp := (divideCap_kept s un).eq_power
  unfold State.capped
  by_cases h : cap * 105 * 10000 < m
  · rw [if_pos (by simpa using h), overCap_power, hp]
    exact ⟨rfl, rfl, rfl, fun _ => rfl⟩
  · rw [if_neg (by simpa using h), hp]
    exact ⟨rfl, rfl, rfl, fun k => absurd k h⟩

theorem capped_counted {s : State} {m cap : Nat} (un : Nat) (h : cap * 105 * 10000 < m) : counted s (s.capped m un cap) (chipOff 0x98) := by
  unfold State.capped
  rw [if_pos (by simpa using h)]
  refine counted.of_eq (overCap_counted (s.divideCap un) m) ?_ rfl
  exact congrArg (fun c : Sparse (BitVec 64) => look c 0 (chipOff 0x98)) (divideCap_kept s un).eq_counters

theorem capped_ten (s : State) (m un cap n : Nat) : (s.capped m un cap).ten n = (s.divideCap un).ten n := by
  unfold State.capped
  split
  · exact (overCap_kept _ m).ten_eq n
  · rfl

theorem capped_keeps (s : State) (m un cap : Nat) : Keeps [.tens, .counters, .mgmt, .power] s (s.capped m un cap) :=
  .ite (State.overCap_keeps ((divideCap_kept s un).mono (by decide)) (by decide)) ((divideCap_kept s un).mono (by decide))

/-- Settles O59: the reports taken in turn, the trim's power state, and the division of the cap for a job that runs alone. -/
theorem powerControl : Obligations.PowerControl := by
  unfold Obligations.PowerControl
  refine ⟨fun slack s => ?_, fun s => ⟨fun hf => ?_, fun hf hd => ?_, fun hf hd => ?_⟩, fun measured s => ?_⟩
  · obtain ⟨h1, h2, h3, h4⟩ := cpm_taken slack.zipIdx s
    have hz : slack.zipIdx.map (·.1) = slack := List.zipIdx_map_fst 0 slack
    refine ⟨_, exec_cpmReport slack s, fun x hx => ?_, h2, ?_, ?_, ?_⟩
    · rw [← hz] at hx
      obtain ⟨y, hy, rfl⟩ := List.mem_map.1 hx
      exact h1 y hy
    · rwa [hz] at h3
    · have hl : (slack.zipIdx.filter (fun x => decide (x.1 = 0))).length = (slack.filter (fun x => decide (x = 0))).length := by
        conv_rhs => rw [← hz, List.filter_map, List.length_map]
        rfl
      rw [h4, hl]
      rfl
    · refine KeepsO.of_next ?_
      rw [← exec_cpmReport]
      exact execCpmReport_keeps (Keeps.refl _ _) (by decide)
  · have hx : exec .trim s = .next s.trimNow := congrArg Host.Outcome.next (if_pos hf)
    have hp := trimNow_power s
    refine ⟨_, hx, ?_, ?_, ?_, ?_, ?_, State.trimNow_keeps (Keeps.refl _ _) (by decide)⟩
    · rw [hp, ← trimTo_eq]
      exact Nat.mod_eq_of_lt (trimTo_lt _ s.power.vset.isLt)
    · rw [hp]; rfl
    · rw [hp]; rfl
    · rw [hp]; rfl
    · rw [hp]; rfl
  · exact congrArg Host.Outcome.next ((if_neg (by rw [hf]; decide)).trans (if_pos hd))
  · have hx : exec .trim s = .next s.wantTrim := rfl
    have hw : s.wantTrim = (runningTens s).foldl (fun (u : State) t => u.announce t (courseNow u + 9) 1)
        { s with power := { s.power with trimDue := true } } := (if_neg (by rw [hf]; decide)).trans (if_neg (by rw [hd]; decide))
    obtain ⟨-, hall⟩ := announceAll_pending (runningTens s) (runningTens_nodup s) { s with power := { s.power with trimDue := true } }
    refine ⟨_, hx, ?_, fun n hn hlen => ?_, State.wantTrim_keeps (Keeps.refl _ _) (by decide)⟩
    · have hs : Spends { s with power := { s.power with trimDue := true } } s.wantTrim := by
        rw [hw]
        exact .foldl (.refl _) (fun u t => announce_spends u t _ 1)
      unfold Spends at hs
      rw [hs]
    · rw [hw]
      exact hall n hn hlen
  · intro m est un run left
    have hm := mismatched_keeps s m est
    obtain ⟨hrho, hrun, hcap, hmeas⟩ := mismatched_power s m est
    obtain ⟨kr, kn, km, kp⟩ := capped_power (s.mismatched m est) m un (bitsN s.power.cap 10 0)
    have hw := nextWindow_power ((s.mismatched m est).capped m un (bitsN s.power.cap 10 0))
    have hr : runAfter s m est = run := if_congr decide_eq_true_iff rfl rfl
    have hten (n : Nat) : ((s.mismatched m est).capped m un (bitsN s.power.cap 10 0)).nextWindow.ten n = ((s.mismatched m est).divideCap un).ten n :=
      ((nextWindow_kept _).ten_eq n).trans (capped_ten _ _ _ _ n)
    have hrunning (n : Nat) : (s.mismatched m est).running n = s.running n := by unfold State.running; rw [hm.ten_eq n]
    have htens : tenancies (s.mismatched m est) = tenancies s := by
      unfold tenancies State.tenExists
      simp only [fun n => hm.ten_eq n]
    refine ⟨_, exec_reconcile measured s, ?_, ?_, fun h1 h2 => ?_, fun hc => ⟨?_, ?_⟩, fun n hn hwt => ?_, fun n hn hnr => ?_, ?_⟩
    · rw [hw]
      exact kr.trans hrho
    · rw [hw]
      dsimp only
      rw [kn, hrun, hr]
      exact Nat.mod_eq_of_lt (by rw [← hr]; exact Nat.lt_of_le_of_lt (runAfter_le s m est) (by decide))
    · rw [hw]
      dsimp only
      rw [km]
      exact hmeas (hr.trans h1) h2
    · rw [hw]
      exact kp hc
    · refine counted.of_eq (capped_counted (s := s.mismatched m est) un hc) ?_ ?_
      · exact congrArg (fun c : Sparse (BitVec 64) => look c 0 (chipOff 0x98)) hm.eq_counters
      · exact congrArg (fun c : Sparse (BitVec 64) => look c 0 (chipOff 0x98)) (nextWindow_kept _).eq_counters
    · rw [hten n]
      have hl : capLeft (s.mismatched m est) un = left := by unfold capLeft; rw [hcap]
      rw [← hl]
      refine divideCap_alone ?_ (by rw [hm.ten_eq n]; exact hwt)
      unfold runningTens
      rw [htens]
      simp only [hrunning]
      exact hn
    · rw [hten n]
      exact divideCap_idle un (by rw [htens]; exact hn) (by rw [hrunning]; exact hnr)
    · exact ((hm.mono (by decide)).trans ((capped_keeps _ _ _ _).mono (by decide))).trans ((nextWindow_kept _).mono (by decide))

end Sys2Proof.Machine
end

section
/-! SUPPORT. Class D errors, the device's reset and its boot (15 R407; 21 R548 to R570; 01 R13, R22). -/

namespace Sys2Proof.Machine

open Sys2Proof Sys2Proof.Claims

set_option Elab.async false

/-! ### Notes of the management domain: interrupts stay, records of the device stay, and the firmware slot that runs -/

/-- No interrupt and no record of the device is lost, and the same firmware slot runs. -/
structure Logs (s t : State) : Prop where
  ints : ∀ fn b, (s.intStatus fn).getLsbD b = true → (t.intStatus fn).getLsbD b = true
  device : ∀ x ∈ s.mgmt.ledger.device, x ∈ t.mgmt.ledger.device
  runs : t.mgmt.runSlot = s.mgmt.runSlot

section Logs

variable {s t u : State}

theorem Logs.of_same (hi : t.mgmt.ints = s.mgmt.ints) (hd : t.mgmt.ledger.device = s.mgmt.ledger.device) (hr : t.mgmt.runSlot = s.mgmt.runSlot) :
    Logs s t where
  ints fn b h := by unfold State.intStatus at *; rwa [hi]
  device x h := by rwa [hd]
  runs := hr

theorem Logs.of_mgmt (h : t.mgmt = s.mgmt) : Logs s t := .of_same (by rw [h]) (by rw [h]) (by rw [h])

theorem Logs.of_keeps {vs : List View} (k : Keeps vs s t) (h : View.mgmt ∉ vs := by decide) : Logs s t := .of_mgmt (k.eq_mgmt h)

theorem Logs.refl (s : State) : Logs s s := .of_mgmt rfl

theorem Logs.trans (h : Logs s t) (k : Logs t u) : Logs s u :=
  ⟨fun fn b hb => k.ints fn b (h.ints fn b hb), fun x hx => k.device x (h.device x hx), k.runs.trans h.runs⟩

theorem Logs.ite {c : Prop} [Decidable c] (h : Logs s t) (k : Logs s u) : Logs s (if c then t else u) := by
  split <;> assumption

theorem Logs.foldl {α : Type} {l : List α} {f : State → α → State} (h : Logs s t) (hf : ∀ v a, Logs v (f v a)) : Logs s (l.foldl f t) := by
  induction l generalizing t with
  | nil => exact h
  | cons a l ih => exact ih (h.trans (hf t a))

end Logs

theorem sendMsg_logs (s : State) (fn v : Nat) : Logs s (s.sendMsg fn v) := by
  unfold State.sendMsg
  exact .ite (.of_same rfl rfl rfl) (.of_same rfl rfl rfl)

theorem raiseInt_logs (s : State) (fn bit : Nat) : Logs s (s.raiseInt fn bit) where
  ints k b h := by
    rw [intStatus_raiseInt]
    split
    case isTrue e =>
      subst e
      rw [BitVec.getLsbD_or, h]
      rfl
    case isFalse => exact h
  device x h := by
    unfold State.raiseInt
    dsimp only
    split
    · exact (sendMsg_logs _ _ _).device x h
    · exact h
  runs := by
    unfold State.raiseInt
    dsimp only
    split
    · exact (sendMsg_logs _ _ _).runs
    · rfl

theorem daybook_logs (s : State) (code : BitVec 8) (cls : BitVec 3) (t c u a b k : Nat) : Logs s (s.daybook code cls t c u a b k) := .of_same rfl rfl rfl

theorem addFigure_logs (s : State) (sec i n : Nat) : Logs s (s.addFigure sec i n) := .of_same rfl rfl rfl

theorem setBox_logs (s : State) (fn : Nat) (m : Mailbox) : Logs s (s.setBox fn m) := .of_same rfl rfl rfl

theorem notice_logs (s : State) (fn kind payload : Nat) : Logs s (s.notice fn kind payload) := by
  unfold State.notice
  refine .ite ?_ (.ite (setBox_logs _ _ _) (.ite ?_ (setBox_logs _ _ _)))
  · exact (setBox_logs s fn _).trans (raiseInt_logs _ fn 0)
  · exact (setBox_logs s fn _).trans (daybook_logs _ _ _ _ _ _ _ _ _)

theorem startAssays_logs (s : State) : Logs s s.startAssays := by
  unfold State.startAssays
  refine .foldl (.refl s) (fun u a => .ite (.ite ?_ ?_) (.refl u))
  · exact .of_same rfl rfl rfl
  · exact .of_same rfl rfl rfl

theorem tellThermal_logs (s : State) (step tj : Nat) : Logs s (s.tellThermal step tj) := by
  unfold State.tellThermal
  exact .foldl (daybook_logs s _ _ _ _ _ _ _ _) (fun u t => notice_logs u _ _ _)

theorem commitFigures_logs (s : State) (p : Nat → Bool) : Logs s (s.commitFigures p) := by
  unfold State.commitFigures
  exact .of_same rfl rfl rfl

theorem commitEvents_logs (s : State) : Logs s s.commitEvents := by
  unfold State.commitEvents
  exact .of_same rfl rfl rfl

theorem jobFatal_logs (s : State) (n k : Nat) : Logs s (s.jobFatal n k) := .of_keeps (State.jobFatal_keeps (Keeps.refl [.tens, .counters, .fabric, .power] s) (by decide))

theorem logDevice_logs (s : State) (k : BitVec 8) : Logs s (s.logDevice k) where
  ints _ _ h := h
  device _ h := List.mem_append_left _ h
  runs := rfl

theorem mem_logDevice (s : State) (k : BitVec 8) : (k, s.time.tally) ∈ (s.logDevice k).mgmt.ledger.device :=
  List.mem_append_right _ (List.mem_singleton_self _)

theorem fwEvent_logs (s : State) (ev slot : Nat) : Logs s (s.fwEvent ev slot) := .of_same rfl rfl rfl

theorem raiseTen_logs (s : State) (n bit : Nat) : Logs s (s.raiseTen n bit) := (raiseInt_logs s 0 bit).trans (raiseInt_logs _ (n + 1) bit)

/-! ### The end of a job -/

/-- A tenancy with its job ended. -/
def Tenancy.over (r : Tenancy) (e : JobError) : Tenancy :=
  { r with
    load := { r.load with st := .ended }
    vote := none
    course := { r.course with inCourse := false, blank := none, stalls := [], hold := false, pending := [], lag := 0 }
    recov := { r.recov with st := 5, cls := e.cls, queue := [], preempt := none, stopGot := none, plan := none, resumeAt := none } }

/-- A job's end told: to the daybook, the die ledger, the function and the assays that waited for it. -/
def State.tellEnd (s : State) (t : Nat) (e : JobError) : State :=
  ((((s.dayTen t 0x63 e.cls e.code.toNat 0 0).countTen t 0x21D0 1).addFigure 1 (4 + e.cls.toNat) 1).notice (fnOf t) noteJobEnd
    (e.cls.toNat + e.code.toNat * 2 ^ 8)).raiseTen t 12 |>.startAssays

theorem endJob_eq (s : State) (t : Nat) (e : JobError) : s.endJob t e = ((s.dropFlight t).modTen t (fun r => r.over e)).tellEnd t e := rfl

theorem tellEnd_keeps (s : State) (t : Nat) (e : JobError) : Keeps [.counters, .fabric, .mgmt] s (s.tellEnd t e) := by
  have h : Keeps [.counters, .fabric, .mgmt] s ((s.dayTen t 0x63 e.cls e.code.toNat 0 0).countTen t 0x21D0 1) :=
    State.countTen_keeps (State.dayTen_keeps (Keeps.refl _ _) (by decide)) (by decide)
  exact State.startAssays_keeps (State.raiseTen_keeps (State.notice_keeps (State.addFigure_keeps h (by decide)) (by decide)) (by decide)) (by decide)

theorem tellEnd_logs (s : State) (t : Nat) (e : JobError) : Logs s (s.tellEnd t e) := by
  have h : Logs s ((s.dayTen t 0x63 e.cls e.code.toNat 0 0).countTen t 0x21D0 1) := (daybook_logs s _ _ _ _ _ _ _ _).trans (.of_mgmt rfl)
  exact (((h.trans (addFigure_logs _ _ _ _)).trans (notice_logs _ _ _ _)).trans (raiseTen_logs _ _ _)).trans (startAssays_logs _)

theorem dropFlight_kept (s : State) (t : Nat) : Keeps [.desc, .tags, .engines, .busy, .seqs, .reads, .merges, .service] s (s.dropFlight t) :=
  State.dropFlight_keeps (Keeps.refl _ _) (by decide)

theorem endJob_logs (s : State) (t : Nat) (e : JobError) : Logs s (s.endJob t e) := by
  rw [endJob_eq]
  have h : Logs s ((s.dropFlight t).modTen t (fun r => r.over e)) := (Logs.of_keeps (dropFlight_kept s t)).trans (.of_mgmt rfl)
  exact h.trans (tellEnd_logs _ t e)

theorem endJob_ten (s : State) (t : Nat) (e : JobError) : (s.endJob t e).ten t = (s.ten t).over e := by
  rw [endJob_eq, (tellEnd_keeps _ t e).ten_eq, State.ten_modTen, (dropFlight_kept s t).ten_eq]

theorem endJob_ten_ne (s : State) {t m : Nat} (e : JobError) (h : m ≠ t) : (s.endJob t e).ten m = s.ten m := by
  rw [endJob_eq, (tellEnd_keeps _ t e).ten_eq, State.ten_modTen_ne _ _ h, (dropFlight_kept s t).ten_eq]

/-- A job that ends leaves every other tenancy but for what its frames change. -/
theorem endStop_ten_ne (s : State) {n m : Nat} (code : BitVec 8) (h : m ≠ n) : (s.ten m).talks ((s.endStop n code).ten m) := by
  unfold State.endStop
  rw [State.ten_modTen_ne _ _ h]
  unfold State.endError
  split
  · exact (Talks.refl s).1 m
  · have ht := (broadcast_talks (s.modTen n (fun r => { r with recov := { r.recov with ending := some ⟨clsJ, 4, 0, code⟩ } })) n 9
      [MemWord.clean (recWord 5 3 4 0 0 0 false 0 code.toNat 0 (s.ten n).recov.census.toNat)]).1 m
    rw [State.ten_modTen_ne _ _ h] at ht
    exact ht

theorem jobFatal_ten_ne (s : State) {n m : Nat} (k : Nat) (h : m ≠ n) : (s.ten m).talks ((s.jobFatal n k).ten m) := by
  unfold State.jobFatal State.jobEnds
  split
  · exact endStop_ten_ne s _ h
  · exact (Talks.refl s).1 m

/-! ### A class D error -/

/-- A class D error counted. -/
def State.oneMoreD (s : State) : State := { s with board := { s.board with classD := s.board.classD + 1 } }

theorem oneMoreD_logs (s : State) : Logs s s.oneMoreD := .of_mgmt rfl

/-- A class D error counted, kept and told. -/
def State.errorTaken (s : State) (kind : BitVec 8) : State :=
  (s.oneMoreD.logDevice kind).raiseInt 0 13

/-- One job ended by a class D error: at once where no course boundary comes any more. -/
def State.loseJob (kind : BitVec 8) (now : Bool) (u : State) (t : Nat) : State :=
  let v := u.jobFatal t (13 + kind.toNat)
  match (v.ten t).recov.ending with
  | some e => if now && ((v.ten t).load.st = .running || (v.ten t).load.st = .loaded) then v.endJob t e else v
  | none => v

/-- The device in its safe state: its ports down, its PLL stopped. -/
def State.portsLost (s : State) : State :=
  (List.finRange 16).foldl (fun (u : State) p => u.modPort p (fun q => { q with link := false, down := true })) s

def State.madeSafe (s : State) : State := { s with board := { s.board with safe := true }, time := { s.time with pll := .off } }

/-- Every job of the device lost. -/
def State.jobsLost (s : State) (kind : BitVec 8) : State :=
  (tenancies (s.errorTaken kind)).foldl (State.loseJob kind (kind = 3 || s.board.classD ≠ 0 || s.time.pll = .off)) (s.errorTaken kind)

theorem deviceError_eq (s : State) (kind : BitVec 8) : s.deviceError kind =
    if s.board.classD = 0 then (s.jobsLost kind).commitEvents else ((s.jobsLost kind).logDevice 5).portsLost.madeSafe.commitEvents := rfl

theorem loseJob_keeps {vs : List View} {s u : State} (kind : BitVec 8) (now : Bool) (t : Nat) (h : Keeps vs s u)
    (hm : [.desc, .tags, .engines, .busy, .seqs, .reads, .merges, .service, .tens, .counters, .fabric, .mgmt, .power] ⊆ vs) :
    Keeps vs s (State.loseJob kind now u t) := by
  have hj : Keeps vs s (u.jobFatal t (13 + kind.toNat)) := State.jobFatal_keeps h (fun _ hv => hm (by revert hv; decide +revert))
  unfold State.loseJob
  dsimp only
  split
  · exact .ite (State.endJob_keeps hj (fun _ hv => hm (by revert hv; decide +revert))) hj
  · exact hj

theorem loseJob_logs (kind : BitVec 8) (now : Bool) (u : State) (t : Nat) : Logs u (State.loseJob kind now u t) := by
  unfold State.loseJob
  dsimp only
  split
  · exact .ite ((jobFatal_logs _ _ _).trans (endJob_logs _ _ _)) (jobFatal_logs _ _ _)
  · exact jobFatal_logs _ _ _

/-- A job's end has come, or is on its way. -/
def lost (r : Tenancy) : Prop := r.load.st = .ended ∨ r.recov.ending ≠ none ∧ r.course.stopped = true

theorem lost_of_talks {a b : Tenancy} (h : a.talks b) (hl : lost a) : lost b := by
  unfold Tenancy.talks at h
  rw [h]
  exact hl

theorem loseJob_ten_ne (kind : BitVec 8) (now : Bool) (u : State) {t m : Nat} (h : m ≠ t) : (u.ten m).talks ((State.loseJob kind now u t).ten m) := by
  have hj := jobFatal_ten_ne u (13 + kind.toNat) h
  unfold State.loseJob
  dsimp only
  split
  · split
    · rw [endJob_ten_ne _ _ h]
      exact hj
    · exact hj
  · exact hj

/-- A job that runs or is loaded is lost. -/
theorem loseJob_lost (kind : BitVec 8) (now : Bool) {u : State} {t : Nat} (h : canEnd u t) : lost ((State.loseJob kind now u t).ten t) := by
  obtain ⟨he, hs⟩ := jobFatal_ended (13 + kind.toNat) h
  unfold State.loseJob
  dsimp only
  split
  case h_1 e hend =>
    split
    · rw [endJob_ten]
      exact .inl rfl
    · exact .inr ⟨by rw [hend]; simp, hs⟩
  case h_2 hend =>
    rw [he] at hend
    exact absurd hend (by cases (u.ten t).recov.ending <;> simp)

/-- Every job that runs or is loaded is lost, in turn. -/
theorem loseJobs_lost (kind : BitVec 8) (now : Bool) (l : List Nat) (hnd : l.Nodup) (s : State) (n : Nat) :
    (n ∉ l → (s.ten n).talks ((l.foldl (State.loseJob kind now) s).ten n)) ∧
    (n ∈ l → canEnd s n → lost ((l.foldl (State.loseJob kind now) s).ten n)) := by
  induction l generalizing s with
  | nil => exact ⟨fun _ => (Talks.refl s).1 n, fun h => absurd h (by simp)⟩
  | cons t l ih =>
    obtain ⟨ht, hl⟩ := List.nodup_cons.1 hnd
    obtain ⟨h1, h2⟩ := ih hl (State.loseJob kind now s t)
    refine ⟨fun hn => ?_, fun hn hc => ?_⟩
    · rw [List.mem_cons, not_or] at hn
      exact Tenancy.talks_trans (loseJob_ten_ne kind now s hn.1) (h1 hn.2)
    · by_cases e : n = t
      · subst e
        exact lost_of_talks (h1 ht) (loseJob_lost kind now hc)
      · refine h2 ((List.mem_cons.1 hn).resolve_left e) ?_
        have hten := loseJob_ten_ne kind now s e
        unfold Tenancy.talks at hten
        unfold canEnd
        rw [hten]
        exact hc

/-- The views that the loss of every job may change. -/
def lossViews : List View := [.desc, .tags, .engines, .busy, .seqs, .reads, .merges, .service, .tens, .counters, .fabric, .mgmt, .power]

theorem jobsLost_keeps (s : State) (kind : BitVec 8) : Keeps lossViews (s.errorTaken kind) (s.jobsLost kind) :=
  .foldl (Keeps.refl _ _) (fun u t hu => loseJob_keeps kind _ t hu (by decide))

theorem jobsLost_logs (s : State) (kind : BitVec 8) : Logs (s.errorTaken kind) (s.jobsLost kind) := .foldl (.refl _) (fun u t => loseJob_logs kind _ u t)

theorem errorTaken_logs (s : State) (kind : BitVec 8) : Logs s (s.errorTaken kind) :=
  ((oneMoreD_logs s).trans (logDevice_logs _ kind)).trans (raiseInt_logs _ 0 13)

theorem raiseInt_kept (s : State) (fn bit : Nat) : Keeps [.mgmt] s (s.raiseInt fn bit) := State.raiseInt_keeps (Keeps.refl _ _) (by decide)

theorem errorTaken_board (s : State) (kind : BitVec 8) : (s.errorTaken kind).board = { s.board with classD := s.board.classD + 1 } :=
  (raiseInt_kept _ 0 13).eq_board

theorem errorTaken_ten (s : State) (kind : BitVec 8) (n : Nat) : (s.errorTaken kind).ten n = s.ten n := (raiseInt_kept _ 0 13).ten_eq n

theorem portsLost_board (s : State) : s.portsLost.board = s.board ∧ s.portsLost.mgmt = s.mgmt ∧ s.portsLost.tens = s.tens ∧ Keeps [.fabric] s s.portsLost := by
  have h : Keeps [.fabric] s s.portsLost := .foldl (Keeps.refl _ _) (fun u p hu => State.modPort_keeps hu (by decide))
  exact ⟨h.eq_board, h.eq_mgmt, h.eq_tens, h⟩

theorem portsLost_link (s : State) (q : Port) : (portOf s.portsLost q).link = false := by
  have each (l : List Port) (s : State) : (portOf (l.foldl (fun (u : State) p => u.modPort p (fun q => { q with link := false, down := true })) s) q).link =
      if q ∈ l then false else (portOf s q).link := by
    induction l generalizing s with
    | nil => rfl
    | cons p l ih =>
      rw [List.foldl_cons, ih]
      by_cases hl : q ∈ l
      · rw [if_pos hl, if_pos (List.mem_cons_of_mem _ hl)]
      · by_cases hp : q = p
        · subst hp
          rw [if_neg hl, if_pos List.mem_cons_self, portOf_modPort]
        · rw [if_neg hl, if_neg (by simp [hp, hl]), portOf_modPort_ne _ _ hp]
  exact (each _ s).trans (if_pos (List.mem_finRange q))

theorem madeSafe_mgmt (s : State) : s.madeSafe.mgmt = s.mgmt := rfl
theorem madeSafe_tens (s : State) : s.madeSafe.tens = s.tens := rfl
theorem madeSafe_pll (s : State) : s.madeSafe.time.pll = .off := rfl
theorem madeSafe_portOf (s : State) (q : Port) : portOf s.madeSafe q = portOf s q := rfl
theorem commitEvents_tens (s : State) : s.commitEvents.tens = s.tens := rfl
theorem commitEvents_time (s : State) : s.commitEvents.time = s.time := rfl
theorem commitEvents_portOf (s : State) (q : Port) : portOf s.commitEvents q = portOf s q := rfl
theorem logDevice_tens (s : State) (k : BitVec 8) : (s.logDevice k).tens = s.tens := rfl

theorem lostSafe_logs (s : State) : Logs s s.portsLost.madeSafe := .of_mgmt ((madeSafe_mgmt _).trans (portsLost_board s).2.1)

/-- A class D error's board: one more, and safe with a second one. -/
theorem deviceError_board (s : State) (kind : BitVec 8) :
    (s.deviceError kind).board = { s.board with classD := s.board.classD + 1, safe := s.board.safe || decide (s.board.classD ≠ 0) } := by
  have hj : (s.jobsLost kind).board = { s.board with classD := s.board.classD + 1 } := (jobsLost_keeps s kind).eq_board.trans (errorTaken_board s kind)
  have hc (u : State) : u.commitEvents.board = u.board := rfl
  have hm (u : State) : u.madeSafe.board = { u.board with safe := true } := rfl
  rw [deviceError_eq]
  by_cases h : s.board.classD = 0
  · rw [if_pos h, hc, hj, decide_eq_false (not_not.2 h), Bool.or_false]
  · rw [if_neg h, hc, hm, (portsLost_board _).1, decide_eq_true h, Bool.or_true]
    exact congrArg (fun b : Board => { b with safe := true }) hj

theorem deviceError_logs (s : State) (kind : BitVec 8) : Logs (s.errorTaken kind) (s.deviceError kind) := by
  have hj := jobsLost_logs s kind
  rw [deviceError_eq]
  refine .ite (hj.trans (commitEvents_logs _)) ?_
  exact ((hj.trans (logDevice_logs _ 5)).trans (lostSafe_logs _)).trans (commitEvents_logs _)

/-- The tenancies once every job is lost. -/
theorem deviceError_ten (s : State) (kind : BitVec 8) (n : Nat) : (s.deviceError kind).ten n = (s.jobsLost kind).ten n := by
  have h : (s.deviceError kind).tens = (s.jobsLost kind).tens := by
    rw [deviceError_eq]
    split
    · rw [commitEvents_tens]
    · rw [commitEvents_tens, madeSafe_tens, (portsLost_board _).2.2.1, logDevice_tens]
  unfold State.ten
  rw [h]

/-- What a class D error leaves. -/
theorem deviceError_lost (s : State) (kind : BitVec 8) : deviceLost kind s (s.deviceError kind) := by
  have hl := deviceError_logs s kind
  refine ⟨by rw [deviceError_board], ?_, ?_, fun n hn hc => ?_, fun hd => ⟨?_, ?_, fun p => ?_⟩, State.deviceError_keeps (Keeps.refl _ _) (by decide)⟩
  · exact hl.ints 0 13 (raised _ 0 (by decide))
  · refine hl.device _ ?_
    exact (raiseInt_logs _ 0 13).device _ (mem_logDevice s.oneMoreD kind)
  · have htens : tenancies (s.errorTaken kind) = tenancies s := by
      unfold tenancies State.tenExists
      simp only [errorTaken_ten]
    rw [deviceError_ten]
    unfold State.jobsLost
    refine (loseJobs_lost kind _ _ (tenancies_nodup _) (s.errorTaken kind) n).2 (by rw [htens]; exact hn) ?_
    unfold canEnd
    rw [errorTaken_ten]
    exact hc
  · rw [deviceError_board, decide_eq_true hd, Bool.or_true]
  · rw [deviceError_eq, if_neg hd, commitEvents_time, madeSafe_pll]
  · rw [deviceError_eq, if_neg hd, commitEvents_portOf, madeSafe_portOf]
    exact portsLost_link _ p

/-- A class D error after what changes neither the jobs nor the count of such errors. -/
theorem deviceLost.after {kind : BitVec 8} {s s' t : State} (h : deviceLost kind s' t) (hk : Keeps [.time, .mgmt, .board] s s')
    (hc : s'.board.classD = s.board.classD) (ht : s'.time.tally = s.time.tally) : deviceLost kind s t := by
  obtain ⟨h1, h2, h3, h4, h5, h6⟩ := h
  have htens : tenancies s' = tenancies s := by
    unfold tenancies State.tenExists
    simp only [fun n => hk.ten_eq n]
  refine ⟨by rw [h1, hc], h2, by rw [← ht]; exact h3, fun n hn hl => h4 n (by rw [htens]; exact hn) (by rw [hk.ten_eq n]; exact hl),
    fun hd => h5 (by rw [hc]; exact hd), (hk.mono (by decide)).trans h6⟩

/-- A PLL that is off stays off. -/
theorem deviceError_off {s : State} {kind : BitVec 8} (h : s.time.pll = .off) : (s.deviceError kind).time.pll = .off := by
  have ht : (s.jobsLost kind).time = s.time := (jobsLost_keeps s kind).eq_time.trans (raiseInt_kept _ 0 13).eq_time
  rw [deviceError_eq]
  split
  · rw [commitEvents_time, ht, h]
  · rw [commitEvents_time, madeSafe_pll]

theorem restartMgmt_board (s : State) : s.restartMgmt.board.classD = s.board.classD ∧ s.restartMgmt.board.railsOut = s.board.railsOut := by
  unfold State.restartMgmt
  dsimp only
  split
  case h_1 b fell _ =>
    cases fell with
    | true => exact ⟨rfl, rfl⟩
    | false => exact ⟨rfl, rfl⟩
  case h_2 => exact ⟨rfl, rfl⟩

theorem restartMgmt_kept (s : State) : Keeps [.mgmt, .board] s s.restartMgmt := State.restartMgmt_keeps (Keeps.refl _ _) (by decide)

/-- The management domain restarted while jobs are there: a class D error. -/
theorem restart_lost (s : State) : deviceLost 4 s (s.restartMgmt.deviceError 4) :=
  deviceLost.after (deviceError_lost s.restartMgmt 4) ((restartMgmt_kept s).mono (by decide)) (restartMgmt_board s).1 (by rw [(restartMgmt_kept s).eq_time])

/-! ### Brown-outs -/

/-- A brown-out recorded, and the PLL stopped. -/
def State.pllStopped (s : State) : State := { s with time := { s.time with pll := .off } }

theorem pllStopped_keeps (s : State) : Keeps [.time] s s.pllStopped := setTime_keeps _ _

theorem logDevice_keeps (s : State) (k : BitVec 8) : Keeps [.mgmt] s (s.logDevice k) := setMgmt_keeps _ _

/-- A rail of the compute die lost. -/
theorem railLost (s : State) (k : BitVec 8) : deviceLost 1 s ((s.logDevice k).pllStopped.deviceError 1) ∧
    ((s.logDevice k).pllStopped.deviceError 1).time.pll = .off ∧ (k, s.time.tally) ∈ ((s.logDevice k).pllStopped.deviceError 1).mgmt.ledger.device := by
  have hk : Keeps [.time, .mgmt, .board] s (s.logDevice k).pllStopped :=
    ((logDevice_keeps s k).mono (by decide)).trans ((pllStopped_keeps _).mono (by decide))
  have hl : Logs (s.logDevice k) ((s.logDevice k).pllStopped.deviceError 1) :=
    ((Logs.of_keeps (pllStopped_keeps _)).trans (errorTaken_logs _ 1)).trans (deviceError_logs _ 1)
  exact ⟨deviceLost.after (deviceError_lost _ 1) hk rfl rfl, deviceError_off rfl, hl.device _ (mem_logDevice s k)⟩

/-- A state with a rail of the management domain out. -/
def State.railOut (s : State) (r : Rail) : State := { s with board := { s.board with railsOut := insertNew s.board.railsOut r } }

theorem mgmtOn_railOut (s : State) {r : Rail} (h : r = .mgmt ∨ r = .io) : mgmtOn (s.railOut r) = false := by
  have hm : (s.railOut r).board.railsOut.contains r = true := List.contains_iff_mem.2 (mem_insertNew_self _ _)
  unfold mgmtOn
  rcases h with rfl | rfl
  · rw [hm]
    rfl
  · rw [hm]
    simp

theorem mgmtOn_iff (s : State) : mgmtOn s = true ↔ .mgmt ∉ s.board.railsOut ∧ .io ∉ s.board.railsOut := by
  simp [mgmtOn]

/-- A state with a rail back in range. -/
def State.railBack (s : State) (r : Rail) : State := { s with board := { s.board with railsOut := s.board.railsOut.erase r } }

theorem exec_railBack {s : State} {r : Rail} (h : r ∈ s.board.railsOut) : exec (.railBackInRange r) s =
    if mgmtOn (s.railBack r) then .next ((s.railBack r).restartMgmt.deviceError 4) else .next (s.railBack r) :=
  if_neg (by rw [List.contains_iff_mem.2 h]; decide)

theorem exec_mgmtRstN_loaded {s : State} (hp : s.board.por = true) (ht : s.board.test = false) (hd : s.board.bootDone = true)
    (hl : anyLoaded s = true) : exec .mgmtRstN s = .next (s.restartMgmt.deviceError 4) := by
  change execMgmtRstN s = _
  unfold execMgmtRstN
  rw [if_neg (by rw [hp, ht]; decide), if_neg (by rw [hd]; decide), if_pos hl]

/-- Settles O55: each loss and return by `deviceError_lost`. -/
theorem deviceErrors : Obligations.DeviceErrors := by
  unfold Obligations.DeviceErrors
  refine fun s => ⟨fun d => ⟨_, rfl, deviceError_lost s 1⟩, fun phys => ⟨_, rfl, deviceError_lost s 2⟩, fun r hb => ?_, fun r hb => ?_,
    fun r hr => ⟨fun hm hio => ?_, fun hout => ?_⟩, fun r hr => ?_, fun hp ht hd hl => ⟨_, exec_mgmtRstN_loaded hp ht hd hl, restart_lost s⟩⟩
  · by_cases hr : r = .mgmt ∨ r = .io
    · have hx : exec (.brownOut r) s = .next ((s.logDevice (BitVec.ofNat 8 (0x10 + railNum r))).railOut r) := by
        change execBrownOut r s = _
        unfold execBrownOut
        rw [if_neg (by rw [hb]; decide)]
        rcases hr with rfl | rfl
        · rfl
        · rfl
      refine ⟨_, hx, mem_logDevice s _, fun h1 h2 => absurd hr (by simp [h1, h2]), fun _ => ⟨mem_insertNew_self _ _, mgmtOn_railOut _ hr, ?_⟩⟩
      exact ((logDevice_keeps s _).mono (by decide)).trans ((setBoard_keeps _ _).mono (by decide))
    · have hx : exec (.brownOut r) s = .next ((s.logDevice (BitVec.ofNat 8 (0x10 + railNum r))).pllStopped.deviceError 1) := by
        change execBrownOut r s = _
        unfold execBrownOut
        rw [if_neg (by rw [hb]; decide)]
        cases r with
        | mgmt => exact absurd (.inl rfl) hr
        | io => exact absurd (.inr rfl) hr
        | _ => rfl
      obtain ⟨h1, h2, h3⟩ := railLost s (BitVec.ofNat 8 (0x10 + railNum r))
      exact ⟨_, hx, h3, fun _ _ => ⟨h1, h2⟩, fun k => absurd k hr⟩
  · exact if_pos (by rw [hb]; rfl)
  · have hx := exec_railBack hr
    rw [if_pos ((mgmtOn_iff _).2 ⟨hm, hio⟩)] at hx
    refine ⟨_, hx, ?_, deviceLost.after (restart_lost (s.railBack r)) ((setBoard_keeps _ _).mono (by decide)) rfl rfl⟩
    rw [deviceError_board]
    exact (restartMgmt_board (s.railBack r)).2
  · have hx := exec_railBack hr
    rw [if_neg (fun h => by
      obtain ⟨h1, h2⟩ := (mgmtOn_iff _).1 h
      exact hout.elim h1 h2)] at hx
    exact ⟨_, hx, rfl, setBoard_keeps _ _⟩
  · exact if_pos (by simpa using hr)

end Sys2Proof.Machine
end

section
/-! SUPPORT. Boot, device reset and link training (21 R548 to R570). -/

namespace Sys2Proof.Machine

open Sys2Proof Sys2Proof.Claims

set_option Elab.async false

/-! ### Temperatures taken during boot -/

/-- The temperature of the die taken, without a stack's. -/
def State.dieTemp (s : State) (tj : BitVec 12) : State :=
  let step := thermOf s.power.thermStep.toNat tj.toNat
  { s with power := { s.power with
    tj := tj, tjMax := if s.power.tjMax < tj then tj else s.power.tjMax, thermStep := BitVec.ofNat 3 step, stretch := decide (step = 5)
    stretched := s.power.stretched || decide (step = 5) } }

/-- A change of the thermal step told and kept. -/
def State.stepTold (s : State) (old step tj : Nat) : State :=
  if step ≠ old then
    let u := s.tellThermal step tj
    if old < step then (upTo (step - old)).foldl (fun (v : State) i => v.addFigure 9 (1 + old + i) 1) u else u
  else s

theorem stepTold_keeps (s : State) (old step tj : Nat) : Keeps [.mgmt] s (s.stepTold old step tj) := by
  have h : Keeps [.mgmt] s (s.tellThermal step tj) := State.tellThermal_keeps (Keeps.refl _ _) (by decide)
  exact .ite (.ite (.foldl h (fun u i hu => State.addFigure_keeps hu (by decide))) h) (Keeps.refl _ _)

theorem stepTold_logs (s : State) (old step tj : Nat) : Logs s (s.stepTold old step tj) := by
  have h : Logs s (s.tellThermal step tj) := tellThermal_logs _ _ _
  exact .ite (.ite (.foldl h (fun u i => addFigure_logs u _ _ _)) h) (.refl _)

/-- A state with ALERT_N at a level. -/
def State.withAlert (s : State) (a : Bool) : State := { s with board := { s.board with alert := a } }

theorem withAlert_logs (s : State) (a : Bool) : Logs s (s.withAlert a) := .of_mgmt rfl

/-- The state after the temperatures of a boot, before a trip. -/
def State.bootTemps (s : State) (tj : BitVec 12) : State :=
  let u := (s.dieTemp tj).stepTold s.power.thermStep.toNat (thermOf s.power.thermStep.toNat tj.toNat) tj.toNat
  u.withAlert (!(decide (4 ≤ thermOf s.power.thermStep.toNat tj.toNat) || u.power.stackHot ≠ []))

theorem takeTemps_eq (s : State) (tj : BitVec 12) :
    s.takeTemps ⟨tj, []⟩ = if 440 ≤ tj.toNat then (s.bootTemps tj).tripNow else s.bootTemps tj := rfl

/-- What the temperatures of a boot leave alone. -/
theorem bootTemps_leaves (s : State) (tj : BitVec 12) :
    Keeps [.mgmt, .power, .board] s (s.bootTemps tj) ∧ (∃ a, (s.bootTemps tj).board = { s.board with alert := a }) ∧
      (s.bootTemps tj).power.cap = s.power.cap ∧ (s.bootTemps tj).power.vset = s.power.vset ∧ (s.bootTemps tj).mgmt.runSlot = s.mgmt.runSlot := by
  have hd : Keeps [.power] s (s.dieTemp tj) := setPower_keeps _ _
  have hs := stepTold_keeps (s.dieTemp tj) s.power.thermStep.toNat (thermOf s.power.thermStep.toNat tj.toNat) tj.toNat
  have hp : (s.bootTemps tj).power = (s.dieTemp tj).power := hs.eq_power
  refine ⟨((hd.mono (by decide)).trans (hs.mono (by decide))).trans ((setBoard_keeps _ _).mono (by decide)),
    ⟨(s.bootTemps tj).board.alert, ?_⟩, ?_, ?_, ?_⟩
  · exact congrArg (fun b : Board => { b with alert := (s.bootTemps tj).board.alert }) (hs.eq_board.trans hd.eq_board)
  · rw [hp]
    rfl
  · rw [hp]
    rfl
  · exact (stepTold_logs (s.dieTemp tj) _ _ _).runs

/-! ### The stages of boot -/

/-- The last stages: every store cleared, the ports started, and link training where PERST_N is high. -/
theorem boot8_good {s : State} {b : BootReadings} (h1 : b.fabClock = true) (h2 : b.fabricStart = true) (h3 : b.pcieClock = true) :
    (s.boot8 b).board = { s.board with stage := 0x0A, training := s.board.perst } ∧ (s.boot8 b).cores = {} ∧ (s.boot8 b).stores = {} ∧
      (s.boot8 b).hbm.words = [] ∧ (s.boot8 b).tens = s.tens ∧ (s.boot8 b).power = s.power ∧ (s.boot8 b).time = s.time ∧
      (s.boot8 b).mgmt = s.mgmt ∧ (s.boot8 b).pending = s.pending ∧ (s.boot8 b).ident = s.ident := by
  unfold State.boot8 State.bootA
  rw [h1, h2, h3]
  exact ⟨rfl, rfl, rfl, rfl, rfl, rfl, rfl, rfl, rfl, rfl⟩

/-- The remap entries of the die ledger taken, of HBM and of the core stores. -/
def State.remapsTaken (s : State) : State :=
  let keys (h : Bool) : List Nat := (s.mgmt.ledger.remaps.filter (fun x => x.1 = h)).map (·.2)
  { s with hbm := { s.hbm with remapHbm := keys true, remapCs := keys false } }

/-- The core PLL on REFCLK_SYS, with the tally at 0. -/
def State.pllLocked (s : State) : State := { s with time := { s.time with pll := .freeRun, tally := 0 } }

theorem boot6_eq {s : State} {b : BootReadings} (hp : b.pllLock = true) (hs : b.stackBad = 0) :
    s.boot6 b = ((s.begin 6).pllLocked.begin 7).remapsTaken.boot8 b := by
  unfold State.boot6
  rw [hp, hs]
  rfl

/-- What a boot whose readings are good leaves from its stage 6 on. -/
structure Booted (s t : State) : Prop where
  board : t.board = { s.board with stage := 0x0A, training := s.board.perst }
  cores : t.cores = {}
  stores : t.stores = {}
  words : t.hbm.words = []
  tens : t.tens = s.tens
  power : t.power = s.power
  pll : t.time.pll = .freeRun
  tally : t.time.tally = 0
  mgmt : t.mgmt = s.mgmt
  pending : t.pending = s.pending
  ident : t.ident = s.ident

theorem boot6_good {s : State} {b : BootReadings} (hb : goodBoot b) : Booted s (s.boot6 b) := by
  obtain ⟨-, -, hfab, hpcie, -, -, -, -, hpll, hstack, hstart, -, -⟩ := hb
  obtain ⟨h1, h2, h3, h4, h5, h6, h7, h8, h9, h10⟩ :=
    boot8_good (s := ((s.begin 6).pllLocked.begin 7).remapsTaken) hfab hstart hpcie
  rw [boot6_eq hpll hstack]
  exact ⟨h1, h2, h3, h4, h5, h6, congrArg Time.pll h7, congrArg Time.tally h7, h8, h9, h10⟩

/-- What a good boot leaves from its stage 2 on: its setpoint in its range, the default cap, the slot that boot takes. -/
structure Started (s : State) (slot : Bool) (t : State) : Prop where
  board : t.board.stage = 0x0A ∧ t.board.training = s.board.perst
  kept : t.board.por = s.board.por ∧ t.board.fail = s.board.fail ∧ t.board.straps = s.board.straps
  dies : t.cores = {} ∧ t.stores = {} ∧ t.hbm.words = []
  clock : t.time.pll = .freeRun ∧ t.time.tally = 0
  slot : t.mgmt.runSlot = slot
  tens : t.tens = s.tens
  pending : t.pending = s.pending
  ident : t.ident = s.ident

/-- From the temperatures on. -/
theorem boot5_good {s : State} {b : BootReadings} (hb : goodBoot b) :
    Started s s.mgmt.runSlot (s.boot5 b) ∧ (s.boot5 b).power.cap = s.power.cap ∧ (s.boot5 b).power.vset = s.power.vset := by
  have hg := hb
  obtain ⟨-, -, -, -, -, -, -, hd2d, -, -, -, htj, -⟩ := hb
  have e : s.boot5 b = ((s.begin 5).bootTemps b.tj).boot6 b := by
    unfold State.boot5
    dsimp only
    rw [takeTemps_eq, if_neg (Nat.not_le.2 htj), if_neg (Nat.not_le.2 htj), hd2d]
    rfl
  obtain ⟨hk, ⟨a, ha⟩, hcap, hvset, hrun⟩ := bootTemps_leaves (s.begin 5) b.tj
  have h := boot6_good (s := (s.begin 5).bootTemps b.tj) hg
  rw [← e] at h
  have hbd := h.board
  rw [ha] at hbd
  exact ⟨⟨⟨by rw [hbd], by rw [hbd]; rfl⟩, ⟨by rw [hbd]; rfl, by rw [hbd]; rfl, by rw [hbd]; rfl⟩, ⟨h.cores, h.stores, h.words⟩,
    ⟨h.pll, h.tally⟩, (congrArg Mgmt.runSlot h.mgmt).trans hrun, h.tens.trans hk.eq_tens, h.pending.trans hk.pending,
    h.ident.trans hk.ident⟩, (congrArg Power.cap h.power).trans hcap, (congrArg Power.vset h.power).trans hvset⟩

/-- The records that stage 3 reads, and the default cap. -/
def State.recordsRead (s : State) : State :=
  let cap : BitVec 64 := putBits s.power.cap 0 (BitVec.ofNat 11 (tdp s))
  { s with power := { s.power with recal := s.figure 11 0, cap := cap } }

/-- VDD_CORE at its working setpoint. -/
def State.atSetpoint (s : State) : State := { s with power := { s.power with vset := BitVec.ofNat 10 (bootSetpoint s) } }

theorem bootSetpoint_range (s : State) : 620 ≤ bootSetpoint s ∧ bootSetpoint s ≤ 820 := by
  have hf : 620 ≤ setFloor ∧ setFloor ≤ 820 := by
    unfold setFloor
    omega
  unfold bootSetpoint
  split <;> omega

theorem boot3_eq {s : State} {b : BootReadings} (hcal : b.calibration = true) (hpm : b.pmbusBad = 0) (hset : b.setpoint = true) :
    s.boot3 b = ((s.begin 3).recordsRead.begin 4).atSetpoint.boot5 b := by
  unfold State.boot3
  rw [hcal, hpm, hset]
  rfl

theorem boot3_good {s : State} {b : BootReadings} (hb : goodBoot b) :
    Started s s.mgmt.runSlot (s.boot3 b) ∧ bitsN (s.boot3 b).power.cap 10 0 = tdp s ∧ 620 ≤ (s.boot3 b).power.vset.toNat ∧
      (s.boot3 b).power.vset.toNat ≤ 820 := by
  obtain ⟨h, hcap, hvset⟩ := boot5_good (s := ((s.begin 3).recordsRead.begin 4).atSetpoint) hb
  obtain ⟨hlo, hhi⟩ := bootSetpoint_range ((s.begin 3).recordsRead.begin 4)
  have hv : (((s.begin 3).recordsRead.begin 4).atSetpoint).power.vset.toNat = bootSetpoint ((s.begin 3).recordsRead.begin 4) :=
    Nat.mod_eq_of_lt (by omega)
  obtain ⟨-, -, -, -, hcal, hpm, hset, -⟩ := hb
  rw [← boot3_eq hcal hpm hset] at h hcap hvset
  refine ⟨⟨h.board, h.kept, h.dies, h.clock, h.slot, h.tens, h.pending, h.ident⟩, ?_, by rw [hvset, hv]; exact hlo, by rw [hvset, hv]; exact hhi⟩
  have hc : (s.boot3 b).power.cap = putBits s.power.cap 0 (BitVec.ofNat 11 (tdp s)) := hcap
  have ht : tdp s < 2048 := by
    unfold tdp
    split <;> decide
  unfold bitsN
  rw [hc]
  exact (congrArg BitVec.toNat (extract_putBits s.power.cap 0 (BitVec.ofNat 11 (tdp s)) (by decide))).trans (Nat.mod_eq_of_lt ht)

/-- The boot status clear as a boot takes its firmware. -/
def State.failClear (s : State) : State := { s with board := { s.board with fail := 0, detail := 0 } }

theorem boot2_slot {s : State} {slot fell : Bool} (b : BootReadings) (h : bootSlot s = some (slot, fell)) :
    s.boot2 b = ((s.failClear.begin 2).startFw slot fell).boot3 b := by
  have e : bootSlot (s.failClear.begin 2) = some (slot, fell) := h
  change (match bootSlot (s.failClear.begin 2) with
    | some (slot, fell) => ((s.failClear.begin 2).startFw slot fell).boot3 b
    | none => _) = _
  rw [e]

theorem startFw_leaves (s : State) (b fell : Bool) : Keeps [.mgmt, .board] s (s.startFw b fell) ∧
    (s.startFw b fell).board = { s.board with fallback := fell } := by
  have hk : Keeps [.mgmt, .board] s (s.startFw b fell) := State.startFw_keeps (Keeps.refl _ _) (by decide)
  exact ⟨hk, by cases fell <;> rfl⟩

theorem boot2_good {s : State} {b : BootReadings} {slot fell : Bool} (hb : goodBoot b) (h : bootSlot s = some (slot, fell)) :
    Started s.failClear slot (s.boot2 b) ∧ bitsN (s.boot2 b).power.cap 10 0 = tdp s ∧ 620 ≤ (s.boot2 b).power.vset.toNat ∧
      (s.boot2 b).power.vset.toNat ≤ 820 := by
  obtain ⟨hk, hbd⟩ := startFw_leaves (s.failClear.begin 2) slot fell
  obtain ⟨hs, hcap, hlo, hhi⟩ := boot3_good (s := (s.failClear.begin 2).startFw slot fell) hb
  rw [← boot2_slot b h] at hs hcap hlo hhi
  have hst := hs.board
  have hkept := hs.kept
  rw [hbd] at hst hkept
  exact ⟨⟨hst, hkept, hs.dies, hs.clock, hs.slot.trans (startFw_slots _ _ _).1, hs.tens.trans hk.eq_tens, hs.pending.trans hk.pending,
    hs.ident.trans hk.ident⟩, by rw [hcap]; unfold tdp; rw [hk.ident]; rfl, hlo, hhi⟩

/-- The straps and readings taken at the rise of POR_N. -/
def State.porTaken (s : State) (b : BootReadings) : State :=
  { s with board := { s.board with
      por := true, readings := some b, straps := b.straps, jtag := bitB b.straps 5, test := decide (bitsN b.straps 7 6 ≠ 0) } }

theorem boot1_goes {s : State} {b : BootReadings} (hr : b.railsBad = 0) (hc : b.sysClock = true) (ht : bitsN b.straps 7 6 = 0) :
    s.boot1 b = ((s.porTaken b).begin 1).boot2 b := by
  have e : ((s.porTaken b).begin 1).board.test = false := by
    change decide (bitsN b.straps 7 6 ≠ 0) = false
    rw [ht]
    decide
  change (if b.railsBad ≠ 0 then _ else if !b.sysClock then _ else if ((s.porTaken b).begin 1).board.test then _
    else ((s.porTaken b).begin 1).boot2 b) = _
  rw [if_neg (not_not.2 hr), hc, if_neg (by decide), e, if_neg (by decide)]

theorem boot2_none {s : State} (b : BootReadings) (h : bootSlot s = none) : s.boot2 b = (s.failClear.begin 2).bootFail 0x10 3 := by
  have e : bootSlot (s.failClear.begin 2) = none := h
  change (match bootSlot (s.failClear.begin 2) with
    | some (slot, fell) => ((s.failClear.begin 2).startFw slot fell).boot3 b
    | none => (s.failClear.begin 2).bootFail 0x10 3) = _
  rw [e]

theorem boot1_rails {s : State} {b : BootReadings} (h : b.railsBad ≠ 0) :
    s.boot1 b = ((s.porTaken b).begin 1).bootFail 0x01 (BitVec.ofNat 8 (lowBit b.railsBad)) := if_pos h

/-- A stage failed before the firmware runs. -/
theorem bootFail_early {s : State} (code detail : BitVec 8) (h : ¬ 3 ≤ s.board.stage) :
    s.bootFail code detail = { s with
      time := {}, board := { s.board with fail := code, detail := detail, training := false, pcieUp := false } } := by
  unfold State.bootFail
  dsimp only
  rw [if_neg h]

/-- A stage failed, whichever it is. -/
theorem bootFail_board (s : State) (code detail : BitVec 8) :
    (s.bootFail code detail).board = { s.board with fail := code, detail := detail, training := false, pcieUp := false } := by
  unfold State.bootFail
  dsimp only
  split
  · rfl
  · rfl

theorem lowBit_lt {n : Nat} (w : BitVec n) (h : w ≠ 0) : lowBit w < n := by
  unfold lowBit
  cases e : (upTo n).find? (fun i => w.getLsbD i) with
  | some i => exact List.mem_range.1 (List.mem_of_find?_eq_some e)
  | none =>
    refine absurd (BitVec.eq_of_getLsbD_eq fun i hi => ?_) h
    simpa using List.find?_eq_none.1 e i (List.mem_range.2 hi)

/-- A die too hot at stage 5 trips. -/
theorem tripNow_board (s : State) : s.tripNow.board.stage = s.board.stage ∧ s.tripNow.board.trip = false := by
  unfold State.tripNow
  cases ht : s.board.trip with
  | false => exact ⟨rfl, ht⟩
  | true =>
    have hb : ((s.addFigure 9 6 1).deviceError 3).board.stage = s.board.stage := by
      rw [deviceError_board]
      rfl
    exact ⟨hb, rfl⟩

theorem boot5_hot {s : State} {b : BootReadings} (h : 440 ≤ b.tj.toNat) :
    (s.boot5 b).board.stage = 5 ∧ (s.boot5 b).board.fail = 0x24 ∧ (s.boot5 b).board.trip = false ∧ (s.boot5 b).board.training = false := by
  have e : s.boot5 b = ((s.begin 5).bootTemps b.tj).tripNow.bootFail 0x24 0 := by
    unfold State.boot5
    dsimp only
    rw [takeTemps_eq, if_pos h, if_pos h]
  obtain ⟨-, ⟨a, ha⟩, -⟩ := bootTemps_leaves (s.begin 5) b.tj
  obtain ⟨hst, htrip⟩ := tripNow_board ((s.begin 5).bootTemps b.tj)
  rw [e, bootFail_board]
  exact ⟨hst.trans (congrArg Board.stage ha), rfl, htrip, rfl⟩

section boot

variable {s : State} {b : BootReadings} (hp : s.board.por = false)

include hp

theorem exec_boot (b : BootReadings) : exec (.boot b) s = .next (s.boot1 b) := by
  change Host.Outcome.next (if s.board.por then s else s.boot1 b) = _
  rw [hp]
  rfl

theorem exec_boot_good {slot fell : Bool} (hb : goodBoot b) (h : bootSlot s = some (slot, fell)) :
    ∃ t, exec (.boot b) s = .next t ∧ t.board.por = true ∧ t.board.stage = 0x0A ∧ t.board.fail = 0 ∧ t.board.straps = b.straps ∧
      t.board.training = s.board.perst ∧ t.mgmt.runSlot = slot ∧ t.time.pll = .freeRun ∧ t.time.tally = 0 ∧ bitsN t.power.cap 10 0 = tdp s ∧
      620 ≤ t.power.vset.toNat ∧ t.power.vset.toNat ≤ 820 ∧ t.cores = {} ∧ t.stores = {} ∧ t.hbm.words = [] ∧ t.tens = s.tens ∧
      t.pending = s.pending ∧ t.ident = s.ident := by
  have hg := hb
  obtain ⟨hrails, hclock, -, -, -, -, -, -, -, -, -, -, hstraps⟩ := hb
  have h' : bootSlot ((s.porTaken b).begin 1) = some (slot, fell) := h
  obtain ⟨hs, hcap, hlo, hhi⟩ := boot2_good hg h'
  obtain ⟨hstage, htrain⟩ := hs.board
  obtain ⟨hpor, hfail, hst⟩ := hs.kept
  obtain ⟨hcores, hstores, hwords⟩ := hs.dies
  obtain ⟨hpll, htally⟩ := hs.clock
  refine ⟨((s.porTaken b).begin 1).boot2 b, (exec_boot hp b).trans (congrArg Host.Outcome.next (boot1_goes hrails hclock hstraps)), hpor, hstage, hfail,
    hst, htrain, hs.slot, hpll, htally, hcap, hlo, hhi, hcores, hstores, hwords, hs.tens, hs.pending, hs.ident⟩

theorem exec_boot_rails (hr : b.railsBad ≠ 0) :
    ∃ t, exec (.boot b) s = .next t ∧ t.board.stage = 1 ∧ t.board.fail = 0x01 ∧ t.board.training = false ∧
      t.board.detail.toNat = lowBit b.railsBad ∧ Keeps [.time, .board] s t := by
  have e := (exec_boot hp b).trans (congrArg Host.Outcome.next ((boot1_rails hr).trans
    (bootFail_early 0x01 (BitVec.ofNat 8 (lowBit b.railsBad)) (by change ¬ (3 : BitVec 8) ≤ 1; decide))))
  refine ⟨_, e, rfl, rfl, rfl, Nat.mod_eq_of_lt (Nat.lt_trans (lowBit_lt _ hr) (by decide)), ?_⟩
  exact ((setTime_keeps s {}).mono (by decide)).trans ((setBoard_keeps _ _).mono (by decide))

theorem exec_boot_noSlot (hb : goodBoot b) (h : bootSlot s = none) :
    ∃ t, exec (.boot b) s = .next t ∧ t.board.stage = 2 ∧ t.board.fail = 0x10 ∧ t.board.training = false ∧ Keeps [.time, .board] s t := by
  obtain ⟨hrails, hclock, -, -, -, -, -, -, -, -, -, -, hstraps⟩ := hb
  have h' : bootSlot ((s.porTaken b).begin 1) = none := h
  have e := (exec_boot hp b).trans (congrArg Host.Outcome.next ((boot1_goes hrails hclock hstraps).trans ((boot2_none b h').trans
    (bootFail_early 0x10 3 (by change ¬ (3 : BitVec 8) ≤ 2; decide)))))
  refine ⟨_, e, rfl, rfl, rfl, ?_⟩
  exact ((setTime_keeps s {}).mono (by decide)).trans ((setBoard_keeps _ _).mono (by decide))

theorem exec_boot_hot (hot : 440 ≤ b.tj.toNat) (hb : goodBoot { b with tj := 0 }) (h : (bootSlot s).isSome = true) :
    ∃ t, exec (.boot b) s = .next t ∧ t.board.stage = 5 ∧ t.board.fail = 0x24 ∧ t.board.trip = false ∧ t.board.training = false := by
  obtain ⟨⟨slot, fell⟩, hs⟩ := Option.isSome_iff_exists.1 h
  obtain ⟨hrails, hclock, -, -, hcal, hpm, hset, -, -, -, -, -, hstraps⟩ := hb
  have h' : bootSlot ((s.porTaken b).begin 1) = some (slot, fell) := hs
  exact ⟨_, (exec_boot hp b).trans (congrArg Host.Outcome.next ((boot1_goes (b := b) hrails hclock hstraps).trans ((boot2_slot b h').trans
    (boot3_eq hcal hpm hset)))), boot5_hot hot⟩

end boot

/-! ### Resets and link training -/

theorem exec_pcieLinkUp {s : State} (h : s.board.training = true) : ∃ t, exec .pcieLinkUp s = .next t ∧ t.board.pcieUp = true ∧
    t.board.training = false ∧ (s.board.stage = 0x0A → s.board.fail = 0 → t.board.stage = 0x0F ∧ t.board.bootDone = true ∧ t.hbm.passStart = s.now) ∧
    Keeps [.service, .fabric, .board] s t := by
  let s1 : State := { s with board := { s.board with training := false, pcieUp := true } }
  have h1 : Keeps [.service, .fabric, .board] s s1 := (setBoard_keeps _ _).mono (by decide)
  have e : exec .pcieLinkUp s = .next (if s.board.stage = 0x0A && s.board.fail = 0 then s1.bootEnds else s1) := by
    change (if !s.board.training then Host.Outcome.next s else _) = _
    rw [h]
    rfl
  have he : Keeps [.service, .fabric, .board] s s1.bootEnds := State.bootEnds_keeps h1 (by decide)
  by_cases hb : s.board.stage = 0x0A ∧ s.board.fail = 0
  · exact ⟨s1.bootEnds, by rw [e, hb.1, hb.2]; rfl, rfl, rfl, fun _ _ => ⟨rfl, rfl, rfl⟩, he⟩
  · refine ⟨s1, by rw [e, if_neg (by simpa using hb)], rfl, rfl, fun h1 h2 => absurd ⟨h1, h2⟩ hb, h1⟩

/-- Settles O54: a good boot goes stage by stage, each of which leaves what the next needs; a failed one stops where its reading is bad. -/
theorem bootAndReset : Obligations.BootAndReset := by
  intro s
  refine ⟨⟨s.afterReset, rfl, rfl, rfl, rfl, rfl, rfl, rfl, rfl, rfl, rfl, rfl, rfl, rfl, fun b => by cases b <;> rfl, rfl, rfl, rfl, rfl, rfl, rfl,
    rfl, rfl⟩, fun b hp => ?_, fun b hp => ⟨fun hb slot fell h => exec_boot_good hp hb h, fun h => exec_boot_rails hp h,
    fun hb h => exec_boot_noSlot hp hb h, fun hot hb h => exec_boot_hot hp hot hb h⟩, ⟨_, rfl, rfl, rfl, setBoard_keeps _ _⟩, exec_pcieLinkUp,
    fun h => ?_, fun slot fell hp ht hs => ⟨fun hd hl => ?_, fun b hd hr hb => ?_⟩⟩
  · change Host.Outcome.next (if s.board.por then s else s.boot1 b) = _
    rw [hp]
    rfl
  · change (if !s.board.training then Host.Outcome.next s else _) = _
    rw [h]
    rfl
  · have e : exec .mgmtRstN s = .next s.restartMgmt := by
      change execMgmtRstN s = _
      unfold execMgmtRstN
      rw [hp, ht, hd, hl]
      rfl
    obtain ⟨hrun, -, -, hboxes⟩ := startFw_slots s.dropBacklog slot fell
    refine ⟨_, e, ?_, fun fn => ?_, restartMgmt_kept s⟩
    · rw [restartMgmt_boots hs]
      exact hrun
    · rw [restartMgmt_boots hs]
      unfold boxOf
      rw [hboxes]
      exact boxOf_dropBacklog s fn
  · have e : exec .mgmtRstN s = .next (s.boot2 b) := by
      change execMgmtRstN s = _
      unfold execMgmtRstN
      rw [hp, ht, hd, hr]
      rfl
    obtain ⟨h, -, -, -⟩ := boot2_good hb hs
    exact ⟨_, e, h.board.1, h.kept.2.1, h.slot, h.clock.1, h.dies.1, h.dies.2.2⟩

end Sys2Proof.Machine
end

section
/-! SUPPORT. The host's reads and writes of HBM, and the resets of its functions (19 R501 to R506; 12 R579). -/

namespace Sys2Proof.Machine

open Sys2Proof Sys2Proof.Claims

set_option Elab.async false

/-! ### Words of HBM written one by one -/

theorem writeHbm_keeps (s : State) (a : Nat) (w : MemWord) : Keeps [.words] s (s.writeWord .hbm a w) where
  pending := rfl
  ident := rfl
  wf := (State.writeWord_keeps (sp := .hbm) (a := a) (w := w) (Keeps.refl [.cs, .mbox, .words] s) (by decide)).wf
  same v hv := by cases v <;> simp_all [View.same, View.sameCores, View.sameHbm, State.writeWord]

theorem rawAt_writeHbm (s : State) (a : Nat) (w : MemWord) (p : Bank × Nat) :
    rawAt (s.writeWord .hbm a w) p = if p = (.hbm, a) then w else rawAt s p := by
  obtain ⟨b, k⟩ := p
  cases b with
  | cs => simp [rawAt, State.writeWord]
  | mbox => simp [rawAt, State.writeWord]
  | hbm => simp [rawAt, State.writeWord, hbmGet_hbmPut]

theorem hostCharge_keeps (s : State) (key cls : Nat) : Keeps [.tens, .power] s (s.hostCharge key cls) :=
  State.charge_keeps (Keeps.refl _ _) (by decide)

/-- What the energy of the host's accesses leaves of a tenancy. -/
theorem hostCharge_fixes {α : Type} {π : Tenancy → α} (hπ : Unspoken π) (s : State) (key cls : Nat) : Fixes π s (s.hostCharge key cls) :=
  .of_talks (charge_talks _ _ _ _) hπ

/-! ### Reads -/

/-- A host's read of a word keeps all but what it charges and counts, and settles that word alone. -/
theorem hostGet_leaves (s : State) (key : Nat) :
    Keeps [.words, .service, .tens, .counters, .power] s (s.hostGet key) ∧ Touches [] [(.hbm, key)] s (s.hostGet key) := by
  have hc := hostCharge_keeps s key 12
  have hm : Keeps [.tens, .power, .service] s ((s.hostCharge key 12).markUncorr .hbm key) :=
    State.markUncorr_keeps (hc.mono (by decide)) (by decide)
  have hcount (u : State) (off : Nat) : Keeps [.counters] u (u.count off 1) := State.count_keeps (Keeps.refl _ _) (by decide)
  unfold State.hostGet
  dsimp only
  split
  · exact ⟨(hc.mono (by decide)).trans ((hcount _ _).mono (by decide)), (hc.touches (by decide) (by decide) (by decide)).of_keeps (hcount _ _)⟩
  split
  case isTrue _ hu =>
    refine ⟨((hm.mono (by decide)).trans ((writeHbm_keeps _ _ _).mono (by decide))).trans ((hcount _ _).mono (by decide)), ?_⟩
    refine Touches.of_keeps (vs := [.counters]) (fun p _ => ?_) (hcount _ _)
    rw [rawAt_writeHbm]
    split
    case isTrue hp =>
      subst hp
      exact .inr ⟨List.mem_singleton.2 rfl, .inr ⟨hu, rfl⟩⟩
    case isFalse => exact .inl ((hm.touches (ws := []) (rs := []) (by decide) (by decide) (by decide)).rawAt_eq (by simp))
  · exact ⟨hc.mono (by decide), hc.touches (by decide) (by decide) (by decide)⟩

theorem hostGet_fixes {α : Type} {π : Tenancy → α} (hπ : Unspoken π) (s : State) (key : Nat) : Fixes π s (s.hostGet key) := by
  have h := hostCharge_fixes hπ s key 12
  unfold State.hostGet
  dsimp only
  split
  · exact h
  split
  · exact h
  · exact h

/-! ### The places of an access -/

/-- The place of each byte of an access that lies inside its range. -/
theorem places_eq {at' : Nat → Option (Nat × Nat)} {n : Nat} (h : ∀ i, i < n → (at' i).isSome = true) :
    (upTo n).filterMap at' = (upTo n).map (fun i => (at' i).getD (0, 0)) := by
  rw [← List.filterMap_eq_map]
  refine List.filterMap_congr (fun i hi => ?_)
  obtain ⟨p, hp⟩ := Option.isSome_iff_exists.1 (h i (List.mem_range.1 hi))
  simp [hp]

theorem insertNews_mem {α : Type} (f : α → Nat) (ps : List α) (l : List Nat) (k : Nat) :
    k ∈ ps.foldl (fun (l : List Nat) p => insertNew l (f p)) l ↔ k ∈ l ∨ ∃ p ∈ ps, f p = k := by
  induction ps generalizing l with
  | nil => simp
  | cons p ps ih =>
    have hi : k ∈ insertNew l (f p) ↔ k ∈ l ∨ f p = k := by
      unfold insertNew
      split
      case isTrue hp => exact ⟨.inl, fun h => h.elim id (fun (e : f p = k) => by rw [← e]; exact hp)⟩
      case isFalse => simp [eq_comm]
    rw [List.foldl_cons, ih, hi, or_assoc, List.exists_mem_cons_iff]

theorem insertNews_nodup {α : Type} (f : α → Nat) (ps : List α) (l : List Nat) (h : l.Nodup) :
    (ps.foldl (fun (l : List Nat) p => insertNew l (f p)) l).Nodup := by
  induction ps generalizing l with
  | nil => exact h
  | cons p ps ih =>
    refine ih _ ?_
    dsimp only
    unfold insertNew
    split
    case isTrue => exact h
    case isFalse hp => exact List.nodup_append.2 ⟨h, List.nodup_singleton _, fun a ha b hb e => hp (by rw [← List.mem_singleton.1 hb, ← e]; exact ha)⟩

theorem mem_placeKeys (ps : List (Nat × Nat)) (k : Nat) : k ∈ placeKeys ps ↔ ∃ p ∈ ps, p.1 = k :=
  (insertNews_mem (fun p : Nat × Nat => p.1) ps [] k).trans (or_iff_right (by simp))

theorem placeKeys_nodup (ps : List (Nat × Nat)) : (placeKeys ps).Nodup := insertNews_nodup _ ps [] List.nodup_nil

theorem hostGrants_keeps (s : State) (keys : List Nat) : Keeps [.counters] s (s.hostGrants keys) := by
  unfold State.hostGrants
  split
  · exact Keeps.refl _ _
  · exact State.grant_keeps (Keeps.refl _ _) (by decide)

/-- A byte's index lies in its range where its place is among the places. -/
theorem mem_places {at' : Nat → Option (Nat × Nat)} {n : Nat} {p : Nat × Nat} :
    p ∈ (upTo n).filterMap at' ↔ ∃ i, i < n ∧ at' i = some p := by
  simp [List.mem_filterMap, upTo]

/-! ### Writes -/

theorem extract_putBits_ne {n : Nat} (w : BitVec n) (b c : Nat) (v : BitVec 8) (h : b ≠ c) (hn : 8 * c + 8 ≤ n) :
    (putBits w (8 * b) v).extractLsb' (8 * c) 8 = w.extractLsb' (8 * c) 8 := by
  refine BitVec.eq_of_getLsbD_eq (fun i hi => ?_)
  rw [BitVec.getLsbD_extractLsb', BitVec.getLsbD_extractLsb', getLsbD_putBits _ _ _ (by omega), if_neg (by omega)]

/-- A byte put into a word, the only one of its place. -/
theorem putBytes_get {bs : List (Nat × BitVec 8)} {b : Nat} {v : BitVec 8} (hb : b < 32) (hu : ∀ v', (b, v') ∈ bs → v' = v) (d : BitVec 256)
    (h : (b, v) ∈ bs ∨ d.extractLsb' (8 * b) 8 = v) : (putBytes d bs).extractLsb' (8 * b) 8 = v := by
  induction bs generalizing d with
  | nil => exact h.resolve_left (by simp)
  | cons x bs ih =>
    refine ih (fun v' hv => hu v' (List.mem_cons_of_mem _ hv)) _ ?_
    by_cases hx : x.1 = b
    · refine .inr ?_
      rw [← hx, extract_putBits _ _ _ (by omega)]
      exact hu x.2 (by rw [← hx]; exact List.mem_cons_self)
    · rcases h with h | h
      · exact .inl ((List.mem_cons.1 h).resolve_left (fun e => hx (congrArg Prod.fst e).symm))
      · exact .inr ((extract_putBits_ne d _ _ _ hx (by omega)).trans h)

/-- No generation is kept for escrow. -/
def noGens (s : State) : Prop := ∀ n, (s.ten n).escrow.gens = []

theorem hostPut_noGens {s : State} (h : noGens s) (key : Nat) (w : MemWord) : s.hostPut key w = s.writeWord .hbm key w := by
  have hp (t d : Nat) : heldPage s t d = none := by
    unfold heldPage sealedFor
    split
    · rw [h t]
      rfl
    · rfl
  unfold State.hostPut
  split
  · rfl
  · dsimp only
    rw [hp]

/-- What a host's write of bytes into one word leaves where none of it waits. -/
structure WordWritten (s t : State) (key : Nat) (bs : List (Nat × BitVec 8)) : Prop where
  kept : Keeps [.words, .service, .tens, .counters, .power] s t
  byte : ∀ {b : Nat} {v : BitVec 8}, b < 32 → (b, v) ∈ bs → (∀ v', (b, v') ∈ bs → v' = v) →
    (rawWord t .hbm key).data.extractLsb' (8 * b) 8 = v
  rest : ∀ k, k ≠ key → rawWord t .hbm k = rawWord s .hbm k
  gens : noGens t

theorem WordWritten.of_put {s u : State} {key : Nat} {bs : List (Nat × BitVec 8)} {d : BitVec 256} {p : Bool}
    (hk : Keeps [.words, .service, .tens, .counters, .power] s u) (hr : ∀ k, k ≠ key → rawWord u .hbm k = rawWord s .hbm k) (hg : noGens u) :
    WordWritten s (u.hostPut key (wordOf (putBytes d bs) p)) key bs := by
  rw [hostPut_noGens hg]
  have hw (k : Nat) : rawWord (u.writeWord .hbm key (wordOf (putBytes d bs) p)) .hbm k =
      if k = key then wordOf (putBytes d bs) p else rawWord u .hbm k := hbmGet_hbmPut _ _ _ _
  refine ⟨hk.trans ((writeHbm_keeps _ _ _).mono (by decide)), fun hb hm hu => ?_, fun k hne => ?_, hg⟩
  · rw [hw, if_pos rfl]
    exact putBytes_get hb hu _ (.inl hm)
  · rw [hw, if_neg hne, hr k hne]

theorem hostWord_written {s : State} (h : noGens s) (key : Nat) (bs : List (Nat × BitVec 8)) (ep : Bool) :
    WordWritten s (s.hostWord key bs ep) key bs := by
  have hπ : Unspoken (fun r : Tenancy => r.escrow.gens) := fun _ _ _ _ => rfl
  have hc (u : State) : Keeps [.words, .service, .tens, .counters, .power] u (u.hostCharge key 13) := (hostCharge_keeps u key 13).mono (by decide)
  have hr (u : State) (k : Nat) : rawWord (u.hostCharge key 13) .hbm k = rawWord u .hbm k :=
    congrArg (fun m => hbmGet m k) (hostCharge_keeps u key 13).eq_words
  have hgens {u : State} (hu : noGens u) : noGens (u.hostCharge key 13) := fun n => (hostCharge_fixes hπ u key 13 n).trans (hu n)
  unfold State.hostWord
  split
  · exact .of_put (hc s) (fun k _ => hr s k) (hgens h)
  · obtain ⟨hk, ht⟩ := hostGet_leaves s key
    refine .of_put (hk.trans (hc _)) (fun k hne => ?_) (hgens fun n => (hostGet_fixes hπ s key n).trans (h n))
    rw [hr]
    exact ht.rawAt_eq (p := (.hbm, k)) (by simpa using hne)

/-- Words written one after the other, each once. -/
theorem hostWords_written {s : State} (h : noGens s) (bs : Nat → List (Nat × BitVec 8)) (ep : Bool) {keys : List Nat} (hn : keys.Nodup) :
    let t := keys.foldl (fun (u : State) k => u.hostWord k (bs k) ep) s
    Keeps [.words, .service, .tens, .counters, .power] s t ∧ (∀ k, k ∉ keys → rawWord t .hbm k = rawWord s .hbm k) ∧
      ∀ k ∈ keys, ∀ b v, b < 32 → (b, v) ∈ bs k → (∀ v', (b, v') ∈ bs k → v' = v) → (rawWord t .hbm k).data.extractLsb' (8 * b) 8 = v := by
  induction keys generalizing s with
  | nil => exact ⟨Keeps.refl _ _, fun _ _ => rfl, fun k hk => (nomatch hk)⟩
  | cons key keys ih =>
    obtain ⟨hkey, hkeys⟩ := List.nodup_cons.1 hn
    have h1 := hostWord_written h key (bs key) ep
    obtain ⟨ik, ir, ib⟩ := ih h1.gens hkeys
    refine ⟨h1.kept.trans ik, fun k hk => ?_, fun k hk b v hb hm hu => ?_⟩
    · rw [List.mem_cons, not_or] at hk
      exact (ir k hk.2).trans (h1.rest k hk.1)
    · rcases List.mem_cons.1 hk with rfl | hk
      · rw [List.foldl_cons, ir _ hkey]
        exact h1.byte hb hm hu
      · exact ib k hk b v hb hm hu

/-- Bytes of a plain range lie one after the other. -/
theorem aperture_plain {s : State} {fn : Nat} (h : fn = 0 ∨ bitB (look s.mgmt.apt 0 fn) 3 = false) :
    ∃ c, ∀ o k b, aperture s fn o = some (k, b) → k = c + o / 32 ∧ b = o % 32 := by
  by_cases h0 : fn = 0
  · refine ⟨stackWords * bitsN (look s.mgmt.apt 0 fn) 2 0, fun o k b e => ?_⟩
    unfold aperture at e
    dsimp only at e
    rw [if_pos h0] at e
    split at e
    · injection e with e
      injection e with e1 e2
      exact ⟨e1.symm, e2.symm⟩
    · cases e
  · refine ⟨stackWords * bitsN (look s.mgmt.apt 0 fn) 2 0 + (shareOf s (fn - 1) (bitsN (look s.mgmt.apt 0 fn) 2 0)).1, fun o k b e => ?_⟩
    unfold aperture at e
    dsimp only at e
    rw [if_neg h0, h.resolve_left h0, if_neg (by decide)] at e
    split at e
    · injection e with e
      injection e with e1 e2
      exact ⟨e1.symm, e2.symm⟩
    · cases e

/-- The bytes an access brings for a word, each with its place in it. -/
def bytesFor (ps : List (Nat × Nat)) (data : List (BitVec 8)) (k : Nat) : List (Nat × BitVec 8) :=
  ((ps.zip data).filter (fun x => x.1.1 = k)).map (fun x => (x.1.2, x.2))

theorem mem_bytesFor {at' : Nat → Option (Nat × Nat)} {data : List (BitVec 8)} (h : ∀ i, i < data.length → (at' i).isSome = true)
    {k b : Nat} {v : BitVec 8} :
    (b, v) ∈ bytesFor ((upTo data.length).filterMap at') data k ↔ ∃ i, i < data.length ∧ at' i = some (k, b) ∧ nth data 0 i = v := by
  have hg (i : Nat) (hi : i < data.length) : at' i = some ((at' i).getD (0, 0)) := by
    obtain ⟨p, hp⟩ := Option.isSome_iff_exists.1 (h i hi)
    rw [hp]
    rfl
  have hlen : (((upTo data.length).map (fun i => (at' i).getD (0, 0))).zip data).length = data.length := by simp [upTo]
  rw [bytesFor, places_eq h, List.mem_map]
  constructor
  · rintro ⟨⟨⟨k', b'⟩, v'⟩, hx, e⟩
    obtain ⟨hz, hk⟩ := List.mem_filter.1 hx
    obtain ⟨i, hi, he⟩ := List.mem_iff_getElem.1 hz
    rw [hlen] at hi
    simp only [List.getElem_zip, List.getElem_map, upTo, List.getElem_range] at he
    injection he with h1 h2
    injection e with e1 e2
    refine ⟨i, hi, ?_, ?_⟩
    · rw [hg i hi, h1, ← of_decide_eq_true hk, ← e1]
    · rw [nth, List.getD_eq_getElem _ _ hi, h2, ← e2]
  · rintro ⟨i, hi, ha, hv⟩
    refine ⟨((k, b), v), List.mem_filter.2 ⟨List.mem_iff_getElem.2 ⟨i, by omega, ?_⟩, by simp⟩, rfl⟩
    rw [nth, List.getD_eq_getElem _ _ hi] at hv
    simp [upTo, ha, hv]

section access

variable {fn : Fn} {off : BitVec 36} {s : State} (hon : hostOn s fn.val = true)

/-- The place of a byte of an access. -/
def byteAt (s : State) (fn : Fn) (off : BitVec 36) (i : Nat) : Option (Nat × Nat) := aperture s fn.val (off.toNat + i)

include hon

/-- A read inside its range. -/
theorem exec_hostRead (len : BitVec 16) (data : List (BitVec 8)) (ep : Bool) (h : ∀ i, i < len.toNat → (byteAt s fn off i).isSome = true) :
    ∃ t, exec (.hostHbmAccess fn off false len data ep) s = .next t ∧ t.mgmt.readUr = false ∧ t.mgmt.readBytes.length = len.toNat ∧
      (∀ i k b, i < len.toNat → byteAt s fn off i = some (k, b) → nth t.mgmt.readBytes 0 i = (readWord s .hbm k).data.extractLsb' (8 * b) 8) ∧
      (t.mgmt.readEp = true ↔ ∃ i k b, i < len.toNat ∧ byteAt s fn off i = some (k, b) ∧ isPoisoned (readWord s .hbm k) = true) ∧
      Touches [] (((upTo len.toNat).filterMap (byteAt s fn off)).map (fun x => (Bank.hbm, x.1))) s t ∧
      Keeps [.words, .service, .tens, .counters, .mgmt, .power] s t := by
  have hps := places_eq h
  have hlen : ((upTo len.toNat).filterMap (byteAt s fn off)).length = len.toNat := by rw [hps]; simp [upTo]
  let keys := placeKeys ((upTo len.toNat).filterMap (byteAt s fn off))
  let u := keys.foldl (fun (u : State) k => u.hostGet k) (s.hostGrants keys)
  let got := ((upTo len.toNat).filterMap (byteAt s fn off)).map
    (fun (p : Nat × Nat) => (readWord s .hbm p.1).data.extractLsb' (8 * p.2) 8)
  let m : Mgmt := { u.mgmt with readBytes := got, readUr := false, readEp := keys.any (fun k => isPoisoned (readWord s .hbm k)) }
  have hgr := hostGrants_keeps s keys
  have hk : Keeps [.words, .service, .tens, .counters, .power] s u :=
    Keeps.foldl (hgr.mono (by decide)) (fun v k hv => hv.trans (hostGet_leaves v k).1)
  refine ⟨{ u with mgmt := m }, ?_, rfl, ?_, fun i k b hi ha => ?_, ?_, ?_, (hk.mono (by decide)).trans ((setMgmt_keeps _ _).mono (by decide))⟩
  · change execHostHbmAccess fn off false len data ep s = _
    unfold execHostHbmAccess
    rw [hon]
    exact if_neg (Nat.not_lt.2 (Nat.le_of_eq hlen.symm))
  · change (List.map _ _).length = _
    rw [List.length_map, hlen]
  · change nth (List.map _ ((upTo len.toNat).filterMap (byteAt s fn off))) 0 i = _
    rw [hps, nth, List.getD_eq_getElem _ _ (by simpa [upTo] using hi)]
    simp [upTo, ha]
  · change (placeKeys ((upTo len.toNat).filterMap (byteAt s fn off))).any (fun k => isPoisoned (readWord s .hbm k)) = true ↔ _
    rw [List.any_eq_true]
    constructor
    · rintro ⟨k, hk, hp⟩
      obtain ⟨⟨k', b⟩, hm, rfl⟩ := (mem_placeKeys _ _).1 hk
      obtain ⟨i, hi, ha⟩ := mem_places.1 hm
      exact ⟨i, _, b, hi, ha, hp⟩
    · rintro ⟨i, k, b, hi, ha, hp⟩
      exact ⟨k, (mem_placeKeys _ _).2 ⟨_, mem_places.2 ⟨i, hi, ha⟩, rfl⟩, hp⟩
  · refine Touches.of_keeps (vs := [.mgmt]) (Touches.foldl (hgr.touches (by decide) (by decide) (by decide)) (fun v k hk => ?_)) (setMgmt_keeps u m)
    obtain ⟨p, hp, rfl⟩ := (mem_placeKeys _ _).1 hk
    exact (hostGet_leaves v p.1).2.mono (by simp) (fun q hq => by rw [List.mem_singleton.1 hq]; exact List.mem_map.2 ⟨p, hp, rfl⟩)

/-- A write inside a plain range, none of which waits. -/
theorem exec_hostWrite (len : BitVec 16) (data : List (BitVec 8)) (h : ∀ i, i < data.length → (byteAt s fn off i).isSome = true)
    (hplain : fn = 0 ∨ bitB (look s.mgmt.apt 0 fn.val) 3 = false) (hg : noGens s) :
    ∃ t, exec (.hostHbmAccess fn off true len data false) s = .next t ∧
      (∀ i k b, i < data.length → byteAt s fn off i = some (k, b) → (rawWord t .hbm k).data.extractLsb' (8 * b) 8 = nth data 0 i) ∧
      (∀ k, (∀ i b, i < data.length → byteAt s fn off i ≠ some (k, b)) → rawWord t .hbm k = rawWord s .hbm k) ∧
      Keeps [.words, .service, .tens, .counters, .mgmt, .power] s t := by
  have hlen : ((upTo data.length).filterMap (byteAt s fn off)).length = data.length := by rw [places_eq h]; simp [upTo]
  let ps := (upTo data.length).filterMap (byteAt s fn off)
  have hgr := hostGrants_keeps s (placeKeys ps)
  obtain ⟨hk, hr, hb⟩ := hostWords_written (s := s.hostGrants (placeKeys ps)) (fun n => by rw [hgr.ten_eq]; exact hg n) (bytesFor ps data) false
    (placeKeys_nodup ps)
  have hraw (k : Nat) : rawWord (s.hostGrants (placeKeys ps)) .hbm k = rawWord s .hbm k := congrArg (fun m => hbmGet m k) hgr.eq_words
  obtain ⟨c, hc⟩ := aperture_plain (s := s) (fn := fn.val) (hplain.imp_left (congrArg Fin.val))
  refine ⟨_, ?_, fun i k b hi ha => ?_, fun k hno => (hr k fun hm => ?_).trans (hraw k), (hgr.mono (by decide)).trans (hk.mono (by decide))⟩
  · change execHostHbmAccess fn off true len data false s = _
    unfold execHostHbmAccess
    rw [hon]
    exact if_neg (Nat.not_lt.2 (Nat.le_of_eq hlen.symm))
  · obtain ⟨-, hbv⟩ := hc _ _ _ ha
    refine hb k ((mem_placeKeys _ _).2 ⟨_, mem_places.2 ⟨i, hi, ha⟩, rfl⟩) b _ (by omega) ((mem_bytesFor h).2 ⟨i, hi, ha, rfl⟩) (fun v' hv => ?_)
    obtain ⟨j, -, hj, rfl⟩ := (mem_bytesFor h).1 hv
    obtain ⟨h1, h2⟩ := hc _ _ _ ha
    obtain ⟨h3, h4⟩ := hc _ _ _ hj
    have e : j = i := by omega
    rw [e]
  · obtain ⟨p, hp, rfl⟩ := (mem_placeKeys _ _).1 hm
    obtain ⟨i, hi, ha⟩ := mem_places.1 hp
    exact hno i p.2 hi ha

/-- A write of which a byte lies outside its range. -/
theorem exec_hostWrite_refused (len : BitVec 16) (data : List (BitVec 8)) (ep : Bool) {i : Nat} (hi : i < data.length)
    (ha : byteAt s fn off i = none) : exec (.hostHbmAccess fn off true len data ep) s = .next (s.hostUr fn.val) := by
  have hlt : ((upTo data.length).filterMap (byteAt s fn off)).length < data.length := by
    have hle := List.length_filterMap_le (byteAt s fn off) (upTo data.length)
    rw [upTo, List.length_range] at hle
    refine lt_of_le_of_ne hle (fun e => ?_)
    have := List.filterMap_length_eq_length.1 (e.trans (List.length_range (n := data.length)).symm) i (List.mem_range.2 hi)
    rw [ha] at this
    cases this
  change execHostHbmAccess fn off true len data ep s = _
  unfold execHostHbmAccess
  rw [hon]
  exact if_pos hlt

end access

/-! ### Function resets -/

/-- A tenancy as its load's clearing leaves it. -/
def Tenancy.cleared (n : Tenancy) : Tenancy :=
  { n with load := { list := n.load.list, errState := n.load.errState }
           course := { ovrLog := n.course.ovrLog, hostHold := n.course.hostHold }
           close := {}, vote := none, votes := []
           recov := { path := n.recov.path, taint := n.recov.taint, queueOvf := n.recov.queueOvf, epoch := n.recov.epoch }
           escrow := {}, steps := { wchCtl := n.steps.wchCtl }, launch := {} }

theorem clearLoad_eq (s : State) (t : Nat) :
    s.clearLoad t = (((((s.clearCores t).clearParts t).clearFlows t).modTen t Tenancy.cleared).raiseTen t 12).startAssays := rfl

theorem clearLoad_ten (s : State) (t : Nat) : (s.clearLoad t).ten t = (s.ten t).cleared ∧ ∀ m, m ≠ t → (s.clearLoad t).ten m = s.ten m := by
  let u := ((s.clearCores t).clearParts t).clearFlows t
  have hu : Keeps [.cs, .desc, .mbox, .hall, .tags, .acc, .engines, .busy, .seqs, .reads, .idle, .merges, .service, .stores, .fabric] s u :=
    State.clearFlows_keeps (State.clearParts_keeps (State.clearCores_keeps (Keeps.refl _ s) (by decide)) (by decide)) (by decide)
  have hk : Keeps [.fabric, .mgmt] (u.modTen t Tenancy.cleared) (s.clearLoad t) := by
    rw [clearLoad_eq]
    exact State.startAssays_keeps (State.raiseTen_keeps (Keeps.refl _ _) (by decide)) (by decide)
  refine ⟨?_, fun m hm => ?_⟩
  · rw [hk.ten_eq, State.ten_modTen, hu.ten_eq]
  · rw [hk.ten_eq, State.ten_modTen_ne _ _ hm, hu.ten_eq]

theorem clearBox_keeps (s : State) (fn : Nat) : Keeps [.mgmt] s (s.clearBox fn) := State.clearBox_keeps (Keeps.refl _ _) (by decide)

theorem boxOf_clearBox (s : State) (fn : Nat) : boxOf (s.clearBox fn) fn =
    { reqOver := (boxOf s fn).reqOver, rspOver := (boxOf s fn).rspOver, lost := (boxOf s fn).lost, thresh := (boxOf s fn).thresh } :=
  boxOf_setBox s fn _

theorem hostEnds_ten_ne (s : State) {t m : Nat} (h : m ≠ t) : (s.ten m).talks ((s.hostEnds t).ten m) := by
  unfold State.hostEnds
  dsimp only
  split
  · rw [endJob_ten_ne _ _ h]
    exact jobFatal_ten_ne s _ h
  · exact jobFatal_ten_ne s _ h

/-- A reset leaves its tenancy EMPTY, and the others but for what frames change. -/
theorem resetTen_ten (s : State) (t : Nat) :
    ((s.resetTen t).ten t).load.st = .empty ∧ ∀ m, m ≠ t → (s.ten m).talks ((s.resetTen t).ten m) := by
  unfold State.resetTen
  dsimp only
  by_cases he : (s.ten t).load.st = .empty
  · rw [if_pos he, he, if_neg (by decide)]
    exact ⟨by rw [(clearBox_keeps _ _).ten_eq]; exact he, fun m _ => by rw [(clearBox_keeps _ _).ten_eq]; exact Tenancy.talks_refl _⟩
  · rw [if_neg he]
    refine ⟨?_, fun m hm => ?_⟩
    · rw [(clearBox_keeps _ _).ten_eq, (clearLoad_ten _ t).1]
      rfl
    · rw [(clearBox_keeps _ _).ten_eq, (clearLoad_ten _ t).2 m hm]
      split
      · exact hostEnds_ten_ne s hm
      · exact Tenancy.talks_refl _

theorem resetTen_box (s : State) (t : Nat) : ∃ m : Mailbox, boxOf (s.resetTen t) (fnOf t) =
    { reqOver := m.reqOver, rspOver := m.rspOver, lost := m.lost, thresh := m.thresh } := ⟨_, boxOf_clearBox _ _⟩

/-- Tenancies reset one after the other are all EMPTY. -/
theorem resetTens_empty (s : State) {l : List Nat} {n : Nat} (h : n ∈ l ∨ (s.ten n).load.st = .empty) :
    ((l.foldl (fun (u : State) t => u.resetTen t) s).ten n).load.st = .empty := by
  induction l generalizing s with
  | nil => exact h.resolve_left (by simp)
  | cons t l ih =>
    refine ih _ ?_
    by_cases hn : n = t
    · exact .inr (by rw [hn]; exact (resetTen_ten s t).1)
    · refine (h.imp_left (fun hm => (List.mem_cons.1 hm).resolve_left hn)).imp_right (fun he => ?_)
      exact (Tenancy.talks_unspoken (π := fun r => r.load.st) ((resetTen_ten s t).2 n hn) (fun _ _ _ _ => rfl)).trans he

theorem retrain_keeps (s : State) : Keeps [.board] s s.retrain := setBoard_keeps _ _

theorem boxOf_resetPf (s : State) : ∃ m : Mailbox, boxOf s.resetPf.retrain 0 =
    { reqOver := m.reqOver, rspOver := m.rspOver, lost := m.lost, thresh := m.thresh } := by
  have hr (u : State) : boxOf (u.clearBox 0).retrain 0 = boxOf (u.clearBox 0) 0 := rfl
  unfold State.resetPf
  rw [hr]
  exact ⟨_, boxOf_clearBox _ 0⟩

/-- Settles O53: a read gives the bytes of the words that its places name, a write puts its bytes there one word at a time, and a reset clears
its tenancies and its box. -/
theorem hostAccess : Obligations.HostAccess := by
  refine ⟨fun fn off s hon => ⟨fun len data ep h => exec_hostRead hon len data ep h, fun len data h hp hg => exec_hostWrite hon len data h hp hg,
    fun len data ep i hi ha => ⟨_, exec_hostWrite_refused hon len data ep hi ha, ?_, State.hostUr_keeps (Keeps.refl _ _) (by decide)⟩⟩,
    fun n s hon => ?_, fun s => ?_⟩
  · have h := hostUr_counted s fn.val
    have e : fn = 0 ↔ fn.val = 0 := Fin.ext_iff
    rwa [if_congr e rfl rfl]
  · have hval : (Fin.ofNat 9 (n.val + 1)).val = n.val + 1 := Nat.mod_eq_of_lt (by omega)
    have e : exec (.functionLevelReset (Fin.ofNat 9 (n.val + 1))) s = .next (s.resetTen n.val) := by
      change execFunctionLevelReset _ s = _
      unfold execFunctionLevelReset
      rw [hval, hon]
      rfl
    obtain ⟨m, hb⟩ := resetTen_box s n.val
    obtain ⟨hempty, hothers⟩ := resetTen_ten s n.val
    have hb' : boxOf (s.resetTen n.val) (n.val + 1) = _ := hb
    exact ⟨_, e, hempty, by rw [hb'], by rw [hb'], by rw [hb'], by rw [hb'], by rw [hb'], hothers, State.resetTen_keeps (Keeps.refl _ s) (by decide)⟩
  · obtain ⟨m, hb⟩ := boxOf_resetPf s
    refine ⟨_, rfl, rfl, rfl, fun n hn => ?_, by rw [hb], by rw [hb], by rw [hb],
      (State.resetPf_keeps (Keeps.refl _ s) (by decide)).trans ((retrain_keeps _).mono (by decide))⟩
    rw [(retrain_keeps _).ten_eq, State.resetPf, (clearBox_keeps _ _).ten_eq]
    exact resetTens_empty s (.inl (List.mem_range.2 hn))

end Sys2Proof.Machine
end

section
/-! SUPPORT. Load states: commit, the load's end, unload, blanks and holds (19 R516 to R523; 09 R244, R245). -/

namespace Sys2Proof.Machine

open Sys2Proof Sys2Proof.Claims

set_option Elab.async false

/-! ### The spare columns of a row as a word -/

/-- The word whose bits are the columns of a list. -/
def columnBits (l : List Nat) : BitVec 9 := BitVec.ofNat 9 (l.foldl (fun n x => n + 2 ^ x) 0)

theorem ofNat_add_two_pow {w n x : Nat} (hx : x < w) (h : (BitVec.ofNat w n).getLsbD x = false) (i : Nat) :
    (BitVec.ofNat w (n + 2 ^ x)).getLsbD i = ((BitVec.ofNat w n).getLsbD i || decide (x = i)) := by
  have ht : BitVec.ofNat w (2 ^ x) = BitVec.twoPow w x := BitVec.eq_of_toNat_eq (by rw [BitVec.toNat_ofNat, BitVec.toNat_twoPow])
  have hand : BitVec.ofNat w n &&& BitVec.twoPow w x = 0#w := by
    refine BitVec.eq_of_getLsbD_eq (fun j _ => ?_)
    rw [BitVec.getLsbD_and, BitVec.getLsbD_twoPow]
    by_cases hj : x = j
    · rw [← hj, h]
      simp
    · simp [hj]
  rw [BitVec.ofNat_add, ht, BitVec.add_eq_or_of_and_eq_zero _ _ hand, BitVec.getLsbD_or, BitVec.getLsbD_twoPow]
  simp [hx]

theorem getLsbD_columns {l : List Nat} (hn : l.Nodup) (hl : ∀ x ∈ l, x < 9) (n : Nat) (h : ∀ x ∈ l, (BitVec.ofNat 9 n).getLsbD x = false) (i : Nat) :
    (BitVec.ofNat 9 (l.foldl (fun n x => n + 2 ^ x) n)).getLsbD i = ((BitVec.ofNat 9 n).getLsbD i || decide (i ∈ l)) := by
  induction l generalizing n with
  | nil => simp
  | cons x l ih =>
    obtain ⟨hx, hnl⟩ := List.nodup_cons.1 hn
    have hs := ofNat_add_two_pow (n := n) (hl x List.mem_cons_self) (h x List.mem_cons_self)
    rw [List.foldl_cons, ih hnl (fun y hy => hl y (List.mem_cons_of_mem _ hy)) _ (fun y hy => ?_), hs i, Bool.or_assoc]
    · congr 1
      by_cases hi : i = x
      · simp [hi]
      · simp [hi, Ne.symm hi]
    · rw [hs y, h y (List.mem_cons_of_mem _ hy)]
      simpa using fun e : x = y => hx (by rw [e]; exact hy)

theorem getLsbD_columnBits {l : List Nat} (hn : l.Nodup) (hl : ∀ x ∈ l, x < 9) (i : Nat) : (columnBits l).getLsbD i = decide (i ∈ l) := by
  rw [columnBits, getLsbD_columns hn hl 0 (by simp) i]
  simp

theorem defaultSpares_lt {s : State} {y x : Nat} (h : x ∈ defaultSpares s y) : x < 9 := by
  rcases List.mem_append.1 h with h | h
  · obtain ⟨p, -, rfl⟩ := List.mem_map.1 h
    exact Nat.mod_lt _ (by decide)
  · have := List.mem_of_mem_filter (List.mem_of_mem_take h)
    simp at this
    omega

theorem defaultSpares_nodup {s : State} {y : Nat} (h : (failedIn s y).Nodup) : (defaultSpares s y).Nodup := by
  refine List.nodup_append.2 ⟨h, (List.Nodup.filter _ (by decide)).sublist (List.take_sublist _ _), fun a ha b hb e => ?_⟩
  have := (List.mem_filter.1 (List.mem_of_mem_take hb)).2
  rw [← e] at this
  simp [ha] at this

/-- Entries set one after the other, each of its own key. -/
theorem find_sets {α : Type} (f : Nat → α) {ks : List Nat} (m : Sparse α) {k : Nat} (h : k ∈ ks) :
    find (ks.foldl (fun (m : Sparse α) y => set m y (f y)) m) k = some (f k) := by
  have hmem : ∀ (l : List Nat) (m : Sparse α), (k ∈ l ∨ find m k = some (f k)) → find (l.foldl (fun (m : Sparse α) y => set m y (f y)) m) k = some (f k) := by
    intro l
    induction l with
    | nil => exact fun m h => h.resolve_left (by simp)
    | cons y l ih =>
      refine fun m h => ih _ ?_
      by_cases e : k = y
      · exact .inr (by rw [e, find_set])
      · exact (h.imp_left (fun hm => (List.mem_cons.1 hm).resolve_left e)).imp_right (fun hf => by rw [find_set_ne _ _ e]; exact hf)
  exact hmem ks m (.inl h)

/-! ### Commit -/

/-- A tenancy as a commit leaves it. -/
def Tenancy.committed (n : Tenancy) : Tenancy :=
  { n with load := { n.load with st := .loading, code := 0, record := 0 }, launch := {}, escrow := { n.escrow with gens := [] } }

/-- The default map of a tenancy's rows. -/
def State.rowsMapped (s : State) (t : Nat) (m : Sparse (BitVec 9)) : Sparse (BitVec 9) :=
  (rowsOf s t).foldl (fun (m : Sparse (BitVec 9)) y => set m y (columnBits (defaultSpares s y))) m

/-- A commit taken, before its interrupt. -/
def State.taken (s : State) (t : Nat) : State :=
  { (s.clearFlows t).modTen t Tenancy.committed with spares := s.rowsMapped t s.spares }

theorem commit_taken {s : State} {t : Nat} (h1 : (s.ten t).load.st = .empty) (h2 : s.board.classD = 0) (h3 : assayHolds s t = false) :
    s.commit t = (s.taken t).raiseTen t 12 := if_neg (by simp [h1, h2, h3])

theorem commit_ignored {s : State} {t : Nat} (h : (s.ten t).load.st ≠ .empty ∨ s.board.classD ≠ 0 ∨ assayHolds s t = true) :
    s.commit t = s.loadErr t := if_pos (by simpa [or_assoc] using h)

theorem raiseTen_keeps (s : State) (t b : Nat) : Keeps [.mgmt] s (s.raiseTen t b) := State.raiseTen_keeps (Keeps.refl _ _) (by decide)

theorem taken_ten (s : State) (t : Nat) : (s.taken t).ten t = (s.ten t).committed ∧ ∀ m, m ≠ t → (s.taken t).ten m = s.ten m :=
  ⟨State.ten_modTen _ _ _, fun _ hm => State.ten_modTen_ne _ _ hm⟩

theorem sparesOf_mapped {s u : State} {t y : Nat} (hu : u.spares = s.rowsMapped t s.spares) (hy : y ∈ rowsOf s t) (hf : (failedIn s y).Nodup) :
    sparesOf u y = (upTo 9).filter (fun x => (defaultSpares s y).contains x) := by
  have e : find u.spares y = some (columnBits (defaultSpares s y)) := by
    rw [hu]
    exact find_sets (fun y => columnBits (defaultSpares s y)) _ hy
  unfold sparesOf
  rw [e]
  dsimp only
  congr 1
  funext x
  rw [getLsbD_columnBits (defaultSpares_nodup hf) (fun x hx => defaultSpares_lt hx)]
  exact (List.contains_eq_mem ..).symm

/-- The PF and the function of a tenancy have the interrupt of a load state. -/
def loadTold (n : Nat) (t : State) : Prop := (t.intStatus 0).getLsbD 12 = true ∧ (t.intStatus (n + 1)).getLsbD 12 = true

theorem loadTold.after {n : Nat} {s t : State} (h : loadTold n s) (k : Logs s t) : loadTold n t := ⟨k.ints _ _ h.1, k.ints _ _ h.2⟩

theorem raiseTen_told (s : State) (n : Nat) : loadTold n (s.raiseTen n 12) :=
  ⟨(raiseInt_logs (s.raiseInt 0 12) (n + 1) 12).ints _ _ (raised s 0 (by decide)), raised _ _ (by decide)⟩

/-! ### The end of a load -/

theorem loadTo_told (s : State) (n : Nat) (st : LoadSt) : loadTold n (s.loadTo n st) := raiseTen_told _ n

theorem loadTo_ten (s : State) (n : Nat) (st : LoadSt) : (s.loadTo n st).ten n = { s.ten n with load := { (s.ten n).load with st := st } } := by
  unfold State.loadTo
  rw [(raiseTen_keeps _ _ _).ten_eq, State.ten_modTen]

theorem loadFails_leaves (s : State) (n code : Nat) (record : BitVec 24) :
    ((s.loadFails n code record).ten n).load.st = .failed ∧ ((s.loadFails n code record).ten n).load.code = BitVec.ofNat 8 code ∧
      ((s.loadFails n code record).ten n).load.record = record ∧ loadTold n (s.loadFails n code record) := by
  unfold State.loadFails
  rw [loadTo_ten, State.ten_modTen]
  exact ⟨rfl, rfl, rfl, loadTo_told _ _ _⟩

theorem trimNow_logs (s : State) : Logs s s.trimNow := by
  have h0 : Logs s s.trimmed := .of_same rfl rfl rfl
  have hall (u : State) : Logs u (u.raiseAll 8) := .foldl (raiseInt_logs u 0 8) (fun v t => raiseInt_logs v (t + 1) 8)
  have h1 : Logs s ((s.trimmed.dayChip 0x74 0 s.power.vset.toNat 0 0).raiseAll 8) := (h0.trans (daybook_logs _ _ _ _ _ _ _ _ _)).trans (hall _)
  have h2 : Logs s (if s.power.sMin.toNat < 8 && 820 < s.power.vset.toNat + 5 then (s.trimmed.dayChip 0x74 0 s.power.vset.toNat 0 0).raiseAll 8
      else s.trimmed) := .ite h1 h0
  exact .ite (h2.trans (.of_mgmt rfl)) h2

theorem announce_logs (s : State) (t c : Nat) (cause : BitVec 3) : Logs s (s.announce t c cause) := .of_keeps (announce_keeps s t c cause)

/-- The parts of a tenancy that say how its job loads and starts. -/
def Tenancy.starts (r : Tenancy) : Load × Bool × Steps × Close := (r.load, r.launch.ready, r.steps, r.close)

/-- A trim wanted leaves the interrupts, and what jobs start with. -/
theorem wantTrim_leaves (s : State) : Logs s s.wantTrim ∧ Fixes Tenancy.starts s s.wantTrim := by
  have hone (u : State) (t c : Nat) (cause : BitVec 3) : Fixes Tenancy.starts u (u.announce t c cause) := by
    unfold State.announce State.sendBlank
    refine .ite (jobFatal_fixes _ _ _ (fun _ _ _ _ => rfl) (fun _ _ _ _ => rfl)) (Fixes.trans ?_ (.of_talks (broadcast_talks _ _ _ _)))
    exact (Fixes.of_tens rfl).trans (Fixes.modTen fun _ => rfl)
  unfold State.wantTrim
  split
  · exact ⟨trimNow_logs s, .of_keeps (State.trimNow_keeps (Keeps.refl [.counters, .mgmt, .power] s) (by decide))⟩
  split
  · exact ⟨.refl _, .refl _⟩
  · exact ⟨.foldl (.of_mgmt rfl) (fun u t => announce_logs u t _ _), .foldl (.of_tens rfl) (fun u t => hone u t _ _)⟩

theorem tryReady_leaves (s : State) (n : Nat) : Logs s (s.tryReady n) ∧ Fixes Tenancy.starts s (s.tryReady n) := by
  refine ⟨.of_keeps (State.tryReady_keeps (Keeps.refl [.tens, .counters, .fabric, .power] s) (by decide)), ?_⟩
  have hmod (u : State) (f : Launch → Launch) (hf : ∀ l, (f l).ready = l.ready) :
      Fixes Tenancy.starts u (u.modTen n (fun m => { m with launch := f m.launch })) := .modTen fun r => by unfold Tenancy.starts; rw [hf]
  unfold State.tryReady
  dsimp only
  refine .ite (.ite ?_ ?_) (.refl _)
  · exact (Fixes.of_talks (broadcast_talks _ _ _ _)).trans (hmod _ (fun l => { l with course := some _ }) (fun _ => rfl))
  · exact (Fixes.of_talks (sendRootward_talks _ _ _ _)).trans (hmod _ (fun l => { l with sentAt := some s.now }) (fun _ => rfl))

/-- A job that is ready and not restored: its frames, or its launch course. -/
theorem readyNow_leaves {s : State} {n : Nat} (h : (s.ten n).load.st = .loaded) (hm : hdr s n 7 1 = 0) :
    Logs s (s.readyNow n) ∧ ((s.readyNow n).ten n).starts = ((s.ten n).load, true, (s.ten n).steps, (s.ten n).close) := by
  unfold State.readyNow
  dsimp only
  by_cases hr : (s.ten n).launch.ready = true
  · rw [if_pos (by simp [hr])]
    exact ⟨.refl _, by unfold Tenancy.starts; rw [hr]⟩
  · obtain ⟨hl, hf⟩ := tryReady_leaves (s.modTen n (fun m => { m with launch := { m.launch with ready := true } })) n
    rw [if_neg (by simp [h, hr]), if_neg (by omega)]
    have h0 : Logs s (s.modTen n (fun m => { m with launch := { m.launch with ready := true } })) := .of_mgmt rfl
    exact ⟨h0.trans hl, (hf n).trans (by rw [State.ten_modTen]; rfl)⟩

/-- A job that starts has its step, seed and step fields as its header says. -/
theorem startJob_starts {s : State} {n : Nat} (hm : hdr s n 7 1 = 0) : ((s.startJob n).ten n).load = (s.ten n).load ∧
    ((s.startJob n).ten n).steps.step = BitVec.ofNat 32 (hdr s n 24 4) ∧ ((s.startJob n).ten n).steps.seed = BitVec.ofNat 64 (hdr s n 16 8) ∧
    ((s.startJob n).ten n).close = {} := by
  have hk : Keeps [.purse, .stores] s ((s.clearPurse n).clearSteps n) :=
    State.clearSteps_keeps (State.clearPurse_keeps (Keeps.refl _ s) (by decide)) (by decide)
  have h1 : ¬ hdr s n 7 1 = 1 := by omega
  unfold State.startJob
  dsimp only
  rw [State.ten_modTen, hk.ten_eq, if_neg h1, if_neg h1]
  exact ⟨rfl, rfl, rfl, rfl⟩

/-- The state of a load that completes, from the state that its list leaves. -/
def State.loadDone (s : State) (n : Nat) : State := (((s.startJob n).addFigure 1 3 1).loadTo n .loaded).wantTrim.readyNow n

theorem loadDone_leaves {s : State} {n : Nat} (hm : hdr s n 7 1 = 0) : ((s.loadDone n).ten n).load.st = .loaded ∧
    ((s.loadDone n).ten n).launch.ready = true ∧ ((s.loadDone n).ten n).steps.step = BitVec.ofNat 32 (hdr s n 24 4) ∧
    ((s.loadDone n).ten n).steps.seed = BitVec.ofNat 64 (hdr s n 16 8) ∧ ((s.loadDone n).ten n).close = {} ∧ loadTold n (s.loadDone n) := by
  let u := ((s.startJob n).addFigure 1 3 1).loadTo n .loaded
  have hu : u.ten n = { (s.startJob n).ten n with load := { ((s.startJob n).ten n).load with st := .loaded } } := loadTo_ten _ n .loaded
  obtain ⟨hload, hstep, hseed, hclose⟩ := startJob_starts hm
  obtain ⟨hl, hf⟩ := wantTrim_leaves u
  have hw : (u.wantTrim.ten n).starts = (u.ten n).starts := hf n
  injection hw with w1 w2
  injection w2 with w2 w3
  injection w3 with w3 w4
  have hst : (u.wantTrim.ten n).load.st = .loaded := by rw [w1, hu]
  have hhdr : hdr u.wantTrim n 7 1 = 0 := by
    unfold hdr at hm ⊢
    rw [w1, hu, hload]
    exact hm
  obtain ⟨hl', hr⟩ := readyNow_leaves hst hhdr
  injection hr with r1 r2
  injection r2 with r2 r3
  injection r3 with r3 r4
  refine ⟨?_, r2, ?_, ?_, ?_, (loadTo_told _ n .loaded).after (hl.trans hl')⟩
  · exact (congrArg Load.st r1).trans hst
  · exact (congrArg Steps.step (r3.trans w3)).trans (by rw [hu]; exact hstep)
  · exact (congrArg Steps.seed (r3.trans w3)).trans (by rw [hu]; exact hseed)
  · exact (r4.trans w4).trans (by rw [hu]; exact hclose)

section complete

variable {n : Ten} {s : State} (h : (s.ten n.val).load.st = .loading)

/-- What the end of a load may change. -/
@[reducible] def loadViews : List View :=
  [.cs, .prog, .desc, .purse, .mbox, .hall, .tags, .words, .service, .stores, .tens, .counters, .fabric, .mgmt, .power, .fresh]

/-- The records of a load's list processed. -/
def State.listed (s : State) (n : Nat) : State × Option (Nat × Nat) := State.loadList (bitsN (s.ten n).load.list 57 34) s n 0

include h

theorem exec_loadComplete : exec (.loadComplete n) s =
    match (s.listed n.val).2 with
    | some (code, i) => .next ((s.listed n.val).1.loadFails n.val code (BitVec.ofNat 24 i))
    | none =>
      if bitsN (s.ten n.val).load.list 57 34 = 0 then .next ((s.listed n.val).1.loadFails n.val 0x06 0) else
        match commitFails (s.listed n.val).1 n.val with
        | some code =>
          if code = 2 || code = 3 || code = 5 then
            .next ((s.listed n.val).1.draw.2.loadFails n.val code (BitVec.ofNat 24 (s.listed n.val).1.draw.1))
          else .next ((s.listed n.val).1.loadFails n.val code 0)
        | none => .next ((s.listed n.val).1.loadDone n.val) := if_neg (by simp [h])

omit h in
theorem loadComplete_frame {t : State} (e : exec (.loadComplete n) s = .next t) : Keeps loadViews s t := by
  have hk : KeepsO loadViews s (exec (.loadComplete n) s) := execLoadComplete_keeps (Keeps.refl _ s) (by decide)
  rw [e] at hk
  exact KeepsO.of_next hk

theorem loadComplete_record {code i : Nat} (hx : (s.listed n.val).2 = some (code, i)) :
    ∃ t, exec (.loadComplete n) s = .next t ∧ ((t.ten n.val).load.st = .failed ∧ (t.ten n.val).load.code = BitVec.ofNat 8 code ∧ loadTold n.val t) ∧
      (t.ten n.val).load.record = BitVec.ofNat 24 i ∧ Keeps loadViews s t := by
  have e := exec_loadComplete h
  rw [hx] at e
  obtain ⟨h1, h2, h3, h4⟩ := loadFails_leaves (s.listed n.val).1 n.val code (BitVec.ofNat 24 i)
  exact ⟨_, e, ⟨h1, h2, h4⟩, h3, loadComplete_frame e⟩

theorem loadComplete_check {code : Nat} (hx : (s.listed n.val).2 = none) (hc : bitsN (s.ten n.val).load.list 57 34 ≠ 0)
    (hf : commitFails (s.listed n.val).1 n.val = some code) : ∃ t, exec (.loadComplete n) s = .next t ∧
      ((t.ten n.val).load.st = .failed ∧ (t.ten n.val).load.code = BitVec.ofNat 8 code ∧ loadTold n.val t) ∧ Keeps loadViews s t := by
  have e := exec_loadComplete h
  rw [hx] at e
  dsimp only at e
  rw [if_neg hc, hf] at e
  dsimp only at e
  split at e
  · obtain ⟨h1, h2, -, h4⟩ := loadFails_leaves (s.listed n.val).1.draw.2 n.val code (BitVec.ofNat 24 (s.listed n.val).1.draw.1)
    exact ⟨_, e, ⟨h1, h2, h4⟩, loadComplete_frame e⟩
  · obtain ⟨h1, h2, -, h4⟩ := loadFails_leaves (s.listed n.val).1 n.val code 0
    exact ⟨_, e, ⟨h1, h2, h4⟩, loadComplete_frame e⟩

theorem loadComplete_loads (hx : (s.listed n.val).2 = none) (hc : bitsN (s.ten n.val).load.list 57 34 ≠ 0)
    (hf : commitFails (s.listed n.val).1 n.val = none) : exec (.loadComplete n) s = .next ((s.listed n.val).1.loadDone n.val) := by
  have e := exec_loadComplete h
  rw [hx] at e
  dsimp only at e
  rwa [if_neg hc, hf] at e

end complete

/-! ### Unload -/

theorem find_filter_none {α : Type} {m : Sparse α} {p : Nat × α → Bool} {k : Nat} (h : ∀ v, p (k, v) = false) : find (m.filter p) k = none := by
  induction m with
  | nil => rfl
  | cons e m ih =>
    obtain ⟨a, v⟩ := e
    by_cases ha : a = k
    · subst ha
      rw [List.filter_cons_of_neg (by simp [h v])]
      exact ih
    · rw [List.filter_cons]
      split
      · unfold find
        rw [if_neg ha]
        exact ih
      · exact ih

/-- The store of a core's words cleared: nothing is left at a place of a core of the tenancy. -/
theorem look_cleared {α : Type} {s : State} {t : Nat} {c : Core} (hc : tenOf s c = some t) {w a : Nat} (ha : a < w) (m : Sparse α) (d : α) :
    look (m.filter (fun (e : Nat × α) => decide (tenOf s (Fin.ofNat 64 (e.1 / w)) ≠ some t))) d (w * c.val + a) = d := by
  have hk : Fin.ofNat 64 ((w * c.val + a) / w) = c := by
    rw [Nat.mul_add_div (by omega), Nat.div_eq_of_lt ha, Nat.add_zero]
    exact Fin.ext (Nat.mod_eq_of_lt c.isLt)
  unfold look
  rw [find_filter_none (fun v => by rw [hk, hc]; simp)]
  rfl

theorem clearLoad_cores (s : State) (t : Nat) : (s.clearLoad t).cores = (s.clearCores t).cores := by
  have hk : Keeps [.fabric, .mgmt] ((((s.clearCores t).clearParts t).clearFlows t).modTen t Tenancy.cleared) (s.clearLoad t) := by
    rw [clearLoad_eq]
    exact State.startAssays_keeps (State.raiseTen_keeps (Keeps.refl _ _) (by decide)) (by decide)
  exact hk.eq_cores

theorem clearLoad_stores {s : State} {t : Nat} {c : Core} (hc : tenOf s c = some t) :
    (∀ a, a < csWords → rawWord (s.clearLoad t) (.cs c) a = MemWord.zero) ∧ (∀ a, a < mboxWords → rawWord (s.clearLoad t) (.mbox c) a = MemWord.zero) ∧
      seqOf (s.clearLoad t) c = {} := by
  have e := clearLoad_cores s t
  refine ⟨fun a ha => ?_, fun a ha => ?_, ?_⟩
  · change memGet (s.clearLoad t).cores.cs (csKey c a) = _
    rw [e]
    exact look_cleared hc ha _ _
  · change memGet (s.clearLoad t).cores.mbox (mboxKey c a) = _
    rw [e]
    exact look_cleared hc ha _ _
  · change look (s.clearLoad t).cores.seqs {} c.val = _
    rw [e]
    have := look_cleared hc (w := 1) (a := 0) (by decide) (s.dropFlight t).cores.seqs {}
    rwa [Nat.one_mul, Nat.add_zero] at this

theorem clearLoad_told (s : State) (n : Nat) : loadTold n (s.clearLoad n) := by
  rw [clearLoad_eq]
  exact (raiseTen_told _ n).after (startAssays_logs _)

/-- An unload of a tenancy that is not EMPTY clears its load, after its running job has ended. -/
theorem unload_eq {s : State} {n : Nat} (h : (s.ten n).load.st ≠ .empty) :
    s.unload n = (if (s.ten n).load.st = .running then s.hostEnds n else s).clearLoad n := by
  unfold State.unload
  cases e : (s.ten n).load.st with
  | empty => exact absurd e h
  | running => rfl
  | _ => rfl

/-! ### Blanks and holds -/

/-- A tenancy with one more pending course. -/
def Tenancy.withBlank (c : Nat) (cause : BitVec 3) (m : Tenancy) : Tenancy :=
  { m with course := { m.course with pending := m.course.pending ++ [⟨c, cause, decide (cause = 1)⟩] } }

/-- A blank course sent that is not pending, of a tenancy with fewer than 16. -/
theorem sendBlank_becomes {s : State} {n c : Nat} (cause : BitVec 3) (hlen : (s.ten n).course.pending.length < 16)
    (hc : pendingAt (s.ten n).course.pending c = none) : becomes n (Tenancy.withBlank c cause) s (s.sendBlank n c cause) := by
  have hg : Commutes (Tenancy.withBlank c cause) := by
    intro a b h
    unfold Tenancy.talks at *
    rw [h]
    rfl
  have h0 : Talks s (s.countTen n 0x2010 1) := .of_keeps (vs := [.counters]) (State.countTen_keeps (Keeps.refl _ _) (by decide))
  unfold State.sendBlank
  dsimp only
  rw [if_neg (by simp; omega)]
  have hj : joinBlank (s.ten n).course.pending c cause = (s.ten n).course.pending ++ [⟨c, cause, decide (cause = 1)⟩] := by
    unfold joinBlank
    rw [hc]
  exact becomes.then (becomes.of_modTen h0 hg
    (congrArg (fun p => { s.ten n with course := { (s.ten n).course with pending := p } }) hj)) (broadcast_talks _ _ _ _)

theorem becomes.after_modTen {n : Nat} {g f : Tenancy → Tenancy} {s t : State} (h : becomes n g (s.modTen n f) t) :
    becomes n (fun m => g (f m)) s t := by
  intro m
  have hm := h m
  by_cases e : m = n
  · subst e
    rw [if_pos rfl] at hm ⊢
    rwa [State.ten_modTen] at hm
  · rw [if_neg e] at hm ⊢
    rwa [State.ten_modTen_ne _ _ e] at hm

section function

variable {n : Ten} {s : State} (hon : tenOn s n = true)

include hon

theorem exec_commit : exec (.commit n) s = .next (s.commit n.val) := congrArg Host.Outcome.next (if_pos hon)

theorem exec_unload : exec (.unload n) s = .next (s.unload n.val) := congrArg Host.Outcome.next (if_pos hon)

theorem exec_hold (on : Bool) : exec (.hold n on) s = .next (s.hold n.val on) := congrArg Host.Outcome.next (if_pos hon)

theorem exec_blankReq : exec (.blankReq n) s = .next (s.blankReq n.val) := congrArg Host.Outcome.next (if_pos hon)

theorem exec_commit_taken (h1 : (s.ten n.val).load.st = .empty) (h2 : s.board.classD = 0) (h3 : assayHolds s n.val = false) :
    ∃ t, exec (.commit n) s = .next t ∧ (t.ten n.val).load.st = .loading ∧ (t.ten n.val).load.code = 0 ∧ (t.ten n.val).launch = {} ∧
      (t.ten n.val).escrow.gens = [] ∧ (∀ m, m ≠ n.val → t.ten m = s.ten m) ∧ loadTold n.val t ∧
      (∀ y ∈ rowsOf s n.val, (failedIn s y).Nodup → sparesOf t y = (upTo 9).filter (fun x => (defaultSpares s y).contains x)) ∧
      Keeps [.tens, .spares, .fabric, .mgmt] s t := by
  have e := commit_taken h1 h2 h3
  have hr := raiseTen_keeps (s.taken n.val) n.val 12
  obtain ⟨hn, ho⟩ := taken_ten s n.val
  refine ⟨s.commit n.val, exec_commit hon, ?_, ?_, ?_, ?_, fun m hm => ?_, ?_, fun y hy hf => ?_, State.commit_keeps (Keeps.refl _ s) (by decide)⟩
  · rw [e, hr.ten_eq, hn]
    rfl
  · rw [e, hr.ten_eq, hn]
    rfl
  · rw [e, hr.ten_eq, hn]
    rfl
  · rw [e, hr.ten_eq, hn]
    rfl
  · rw [e, hr.ten_eq, ho m hm]
  · rw [e]
    exact raiseTen_told _ _
  · rw [e]
    exact sparesOf_mapped hr.eq_spares hy hf

theorem exec_commit_ignored (h : (s.ten n.val).load.st ≠ .empty ∨ s.board.classD ≠ 0 ∨ assayHolds s n.val = true) :
    ∃ t, exec (.commit n) s = .next t ∧ t.ten n.val = { s.ten n.val with load := { (s.ten n.val).load with errState := true } } ∧
      (∀ m, m ≠ n.val → t.ten m = s.ten m) ∧ Keeps [.tens] s t :=
  ⟨s.loadErr n.val, (exec_commit hon).trans (congrArg Host.Outcome.next (commit_ignored h)), State.ten_modTen _ _ _,
    fun _ hm => State.ten_modTen_ne _ _ hm, State.modTen_keeps (Keeps.refl _ _) (by decide)⟩

theorem exec_unload_clears (h : (s.ten n.val).load.st ≠ .empty) : ∃ t, exec (.unload n) s = .next t ∧ (t.ten n.val).load.st = .empty ∧
    (t.ten n.val).load.header = 0 ∧ loadTold n.val t ∧ ((s.ten n.val).load.st ≠ .running → (∀ m, m ≠ n.val → t.ten m = s.ten m) ∧
      ∀ c : Core, tenOf s c = some n.val → (∀ a, a < csWords → rawWord t (.cs c) a = MemWord.zero) ∧
        (∀ a, a < mboxWords → rawWord t (.mbox c) a = MemWord.zero) ∧ seqOf t c = {}) ∧
    Keeps [.cs, .desc, .mbox, .hall, .tags, .acc, .engines, .busy, .seqs, .reads, .idle, .merges, .service, .stores, .tens, .counters, .fabric, .mgmt, .power] s t := by
  have e := unload_eq h
  refine ⟨s.unload n.val, exec_unload hon, ?_, ?_, ?_, fun hr => ?_, State.unload_keeps (Keeps.refl _ s) (by decide)⟩
  · rw [e, (clearLoad_ten _ _).1]
    rfl
  · rw [e, (clearLoad_ten _ _).1]
    rfl
  · rw [e]
    exact clearLoad_told _ _
  · rw [e, if_neg hr]
    exact ⟨(clearLoad_ten s n.val).2, fun c hc => clearLoad_stores hc⟩

/-- A hold set or cleared, with no course to announce. -/
theorem exec_hold_quiet {on : Bool} (h : on = false ∨ (s.ten n.val).load.st ≠ .running) : ∃ t, exec (.hold n on) s = .next t ∧
    t.ten n.val = { s.ten n.val with course := { (s.ten n.val).course with hostHold := on } } ∧ (∀ m, m ≠ n.val → t.ten m = s.ten m) ∧
    Keeps [.tens] s t := by
  have e : s.hold n.val on = s.modCourse n.val (fun k => { k with hostHold := on }) := by
    refine if_neg (fun hc => ?_)
    obtain ⟨h1, h2⟩ := Bool.and_eq_true_iff.1 hc
    rcases h with h | h
    · rw [h] at h1
      cases h1
    · exact h (of_decide_eq_true h2)
  rw [exec_hold hon, e]
  exact ⟨_, rfl, State.ten_modTen _ _ _, fun _ hm => State.ten_modTen_ne _ _ hm, State.modTen_keeps (Keeps.refl _ _) (by decide)⟩

/-- A hold of a running job announces the course eight ahead. -/
theorem exec_hold_announces (hr : (s.ten n.val).load.st = .running) (hlen : (s.ten n.val).course.pending.length < 16)
    (hc : pendingAt (s.ten n.val).course.pending (courseNow s + 8) = none) :
    ∃ t, exec (.hold n true) s = .next t ∧ becomes n.val (fun m => { m with course := { m.course with
      hostHold := true
      pending := m.course.pending ++ [⟨courseNow s + 8, 4, false⟩] } }) s t ∧ Keeps [.tens, .counters, .fabric, .power] s t := by
  let f : Tenancy → Tenancy := fun m => { m with course := { m.course with hostHold := true } }
  have hu : (s.modTen n.val f).ten n.val = f (s.ten n.val) := State.ten_modTen _ _ _
  have hk : Keeps [.tens] s (s.modTen n.val f) := State.modTen_keeps (Keeps.refl _ _) (by decide)
  have hp : pendingAt ((s.modTen n.val f).ten n.val).course.pending (courseNow s + 8) = none := by rw [hu]; exact hc
  have e : s.hold n.val true = (s.modTen n.val f).sendBlank n.val (courseNow s + 8) 4 := by
    refine (if_pos (decide_eq_true hr)).trans ?_
    change (s.modTen n.val f).keepBlank n.val (courseNow s + 8) 4 = _
    unfold State.keepBlank
    rw [hp]
  refine ⟨_, (exec_hold hon true).trans (congrArg Host.Outcome.next e),
    becomes.after_modTen (sendBlank_becomes 4 (by rw [hu]; exact hlen) hp), State.sendBlank_keeps (hk.mono (by decide)) (by decide)⟩

/-- A blank asked for of a running job: a free course nine or more ahead. -/
theorem exec_blankReq_announces (hr : (s.ten n.val).load.st = .running) (hlen : (s.ten n.val).course.pending.length < 16) :
    ∃ t c, exec (.blankReq n) s = .next t ∧ courseNow s + 9 ≤ c ∧ pendingAt (s.ten n.val).course.pending c = none ∧
      becomes n.val (fun m => { m with course := { m.course with pending := m.course.pending ++ [⟨c, 3, false⟩] } }) s t ∧
      Keeps [.tens, .counters, .fabric, .power] s t := by
  obtain ⟨hfree, hle⟩ := lowestFree_free (s.ten n.val).course.pending (courseNow s + 9)
  have e : s.blankReq n.val = s.announce n.val (courseNow s + 9) 3 := if_pos (decide_eq_true hr)
  exact ⟨_, _, (exec_blankReq hon).trans (congrArg Host.Outcome.next e), hle, hfree, sendBlank_becomes 3 hlen hfree, announce_keeps _ _ _ _⟩

theorem exec_blankReq_idle (hr : (s.ten n.val).load.st ≠ .running) : exec (.blankReq n) s = .next s :=
  (exec_blankReq hon).trans (congrArg Host.Outcome.next (if_neg (fun h => hr (of_decide_eq_true h))))

end function

/-- Settles O50: each command changes its tenancy's load or course alone, and a load's end is what its list and its checks give. -/
theorem loadStates : Obligations.LoadStates := by
  intro n s
  refine ⟨fun hon => exec_commit_taken hon, fun hon => exec_commit_ignored hon, fun h => ⟨fun code i hx => loadComplete_record h hx,
    fun code hx hc hf => loadComplete_check h hx hc hf, fun hx hc hf hm => ?_⟩, fun hon => exec_unload_clears hon, fun hon =>
    ⟨⟨_, congrArg Host.Outcome.next (if_pos hon), State.ten_modTen _ _ _, fun _ hm => State.ten_modTen_ne _ _ hm,
      State.modTen_keeps (Keeps.refl _ _) (by decide)⟩, fun on h => exec_hold_quiet hon h, exec_hold_announces hon, exec_blankReq_announces hon,
      exec_blankReq_idle hon⟩, fun hoff on i hi => ?_⟩
  · obtain ⟨h1, h2, h3, h4, h5, h6⟩ := loadDone_leaves hm
    have e := loadComplete_loads h hx hc hf
    exact ⟨_, e, h1, h2, h3, h4, h5, h6, loadComplete_frame e⟩
  · have hno (u : State) : (if tenOn s n then u else s) = s := by rw [hoff]; rfl
    simp only [List.mem_cons, List.not_mem_nil, or_false] at hi
    rcases hi with rfl | rfl | rfl | rfl | rfl
    · exact congrArg Host.Outcome.next (hno _)
    · exact congrArg Host.Outcome.next (hno _)
    · exact congrArg Host.Outcome.next (hno _)
    · exact congrArg Host.Outcome.next (hno _)
    · exact congrArg Host.Outcome.next (hno _)

end Sys2Proof.Machine
end

section
/-! SUPPORT. The chip's own care: scrub, holes, daybook, journal and assays (12 R316 to R327; 18 R480 to R490). -/

namespace Sys2Proof.Machine

open Sys2Proof Sys2Proof.Claims

set_option Elab.async false

/-! ### Words scrubbed -/

/-- A word as a reader decodes it decodes to itself. -/
theorem decodeWord_again (w : MemWord) : (decodeWord (decodeWord w).w).w = (decodeWord w).w := by
  have h : (decodeWord w).w.syn = 0 ∨ (decodeWord w).w.syn = poisonSyn := by
    unfold decodeWord
    split_ifs with h0 h1
    · exact .inl h0
    · exact .inr h1
    · split
      · exact .inl rfl
      · split
        · exact .inr rfl
        · exact .inr rfl
  rcases h with h | h
  · rw [decodeWord, if_pos h]
  · rw [decodeWord, if_neg (by rw [h]; decide), if_pos h]

/-- A word that is neither corrected nor uncorrectable is as a reader decodes it. -/
theorem decodeWord_same {w : MemWord} (h1 : (decodeWord w).corrected = false) (h2 : (decodeWord w).uncorr = false) : (decodeWord w).w = w := by
  unfold decodeWord at *
  split_ifs at * with h0 h3
  · rfl
  · rfl
  · cases e : fixOf w.syn with
    | some m => simp [e] at h1
    | none => cases e' : fixOf (w.syn ^^^ poisonSyn) <;> simp [e, e'] at h1 h2

/-- A space whose words a pass scrubs, with an address of it. -/
def scrubbable (sp : Space) (a : Nat) : Prop := match sp with | .cs _ => a < csWords | .mbox _ => False | .hbm => True

theorem rawWord_write {s : State} {sp sp' : Space} {a b : Nat} (w : MemWord) (ha : scrubbable sp a) (hb : scrubbable sp' b) :
    rawWord (s.writeWord sp a w) sp' b = if sp' = sp ∧ b = a then w else rawWord s sp' b := by
  refine rawWord_writeWord s sp sp' a b w ?_ ?_
  · cases sp with
    | mbox _ => exact ha.elim
    | cs _ => exact ha
    | hbm => exact ha
  · cases sp' with
    | mbox _ => exact hb.elim
    | cs _ => exact hb
    | hbm => exact hb

theorem rawWord_keeps {vs : List View} {s t : State} (k : Keeps vs s t) (sp : Space) (a : Nat) (h1 : View.cs ∉ vs := by decide)
    (h2 : View.mbox ∉ vs := by decide) (h3 : View.words ∉ vs := by decide) : rawWord t sp a = rawWord s sp a := by
  cases sp with
  | cs c => exact congrArg (fun m => memGet m _) (k.eq_cs h1)
  | mbox c => exact congrArg (fun m => memGet m _) (k.eq_mbox h2)
  | hbm => exact congrArg (fun m => hbmGet m a) (k.eq_words h3)

/-- A counter that is not that of scrub passes. -/
@[reducible] def notPasses (o : Nat) : Prop := o ≠ chipOff 0x18

theorem count_notPasses (s : State) {o n : Nat} (h : notPasses o) : CountsIn notPasses s (s.count o n) := .count h

theorem errOffs_notPasses {s : State} {sp : Space} {a : Nat} {o : Nat × Nat} (h : errOffs s sp a = some o) : notPasses o.1 ∧ notPasses o.2 := by
  cases sp with
  | mbox _ => cases h
  | cs c => injection h with h; subst h; constructor <;> simp only [notPasses, coreOff, chipOff] <;> omega
  | hbm => injection h with h; subst h; constructor <;> simp only [notPasses, stackOff, chipOff] <;> omega

/-- What a scrub of a word leaves of its words and of the count of passes. -/
structure Scrubs (sp : Space) (a : Nat) (s t : State) : Prop where
  word : ∀ sp' b, scrubbable sp' b → rawWord t sp' b = if sp' = sp ∧ b = a then (decodeWord (rawWord s sp a)).w else rawWord s sp' b
  counts : CountsIn notPasses s t

theorem Scrubs.then {vs : List View} {sp : Space} {a : Nat} {s t u : State} (h : Scrubs sp a s t) (k : Keeps vs t u) (hc : CountsIn notPasses t u)
    (h1 : View.cs ∉ vs := by decide) (h2 : View.mbox ∉ vs := by decide) (h3 : View.words ∉ vs := by decide) : Scrubs sp a s u where
  word sp' b hb := (rawWord_keeps k sp' b h1 h2 h3).trans (h.word sp' b hb)
  counts := h.counts.trans hc

theorem Scrubs.of_write {vs : List View} {sp : Space} {a : Nat} {s u : State} (hs : scrubbable sp a) (k : Keeps vs s u) (hc : CountsIn notPasses s u)
    (h1 : View.cs ∉ vs := by decide) (h2 : View.mbox ∉ vs := by decide) (h3 : View.words ∉ vs := by decide) :
    Scrubs sp a s (u.writeWord sp a (decodeWord (rawWord s sp a)).w) where
  word sp' b hb := by rw [rawWord_write _ hs hb, rawWord_keeps k sp' b h1 h2 h3]
  counts := hc.trans (.of_keeps (State.writeWord_keeps (vs := [.cs, .mbox, .words]) (Keeps.refl _ _) (by decide)))

theorem csAssay_counts (s : State) (c : Core) : CountsIn notPasses s (s.csAssay c) :=
  .of_keeps (State.csAssay_keeps (vs := [.fabric, .mgmt]) (Keeps.refl _ _) (by decide))

theorem remap_counts (s : State) (sp : Space) (a : Nat) : CountsIn notPasses s (s.remap sp a) := by
  unfold State.remap
  cases sp with
  | mbox _ => exact .refl _
  | cs c =>
    have hc : CountsIn notPasses s (s.countCore c 0x220 1) := .count (by simp only [notPasses, coreOff, chipOff]; omega)
    exact .ite (.refl _) (.ite ((hc.trans (.of_eq rfl)).trans (csAssay_counts _ c)) (.of_eq rfl))
  | hbm =>
    have hc : CountsIn notPasses s (s.count (stackOff (a / stackWords) 0x20) 1) := .count (by simp only [notPasses, stackOff, chipOff]; omega)
    exact .ite (.refl _) (.ite (hc.trans (.of_eq rfl)) (.of_eq rfl))

/-- The count of a word in error. -/
def State.countErr (u s : State) (sp : Space) (a : Nat) (f : Nat × Nat → Nat) : State :=
  match errOffs s sp a with
  | some o => u.count (f o) 1
  | none => u

theorem countErr_leaves (u s : State) (sp : Space) (a : Nat) {f : Nat × Nat → Nat} (hf : f = (·.1) ∨ f = (·.2)) :
    Keeps [.counters] u (u.countErr s sp a f) ∧ CountsIn notPasses u (u.countErr s sp a f) := by
  unfold State.countErr
  split
  case h_1 o ho =>
    obtain ⟨h1, h2⟩ := errOffs_notPasses ho
    refine ⟨State.count_keeps (Keeps.refl _ _) (by decide), .count ?_⟩
    rcases hf with rfl | rfl
    · exact h1
    · exact h2
  case h_2 => exact ⟨Keeps.refl _ _, .refl _⟩

theorem scrubWord_eq (s : State) (sp : Space) (a : Nat) (again : Bool) : s.scrubWord sp a again =
    let g := decodeWord (rawWord s sp a)
    if g.corrected then
      let s1 := (s.writeWord sp a g.w).countErr s sp a (·.1)
      if again then s1.remap sp a else s1
    else if g.uncorr then
      let s1 := ((s.countErr s sp a (·.2)).markUncorr sp a).writeWord sp a g.w
      match wordOwner s sp a with
      | some _ => s1
      | none =>
        let core := match sp with | .cs c => phys s c | _ => 0x7F
        s1.daybook 0x41 0 15 core (if core = 0x7F then 10 else 0) (spaceKind sp) (foldAddr s sp a) 0
    else s := rfl

theorem scrubWord_scrubs (s : State) {sp : Space} {a : Nat} (again : Bool) (h : scrubbable sp a) : Scrubs sp a s (s.scrubWord sp a again) := by
  rw [scrubWord_eq]
  dsimp only
  split
  case isTrue hc =>
    obtain ⟨hk, hn⟩ := countErr_leaves (s.writeWord sp a (decodeWord (rawWord s sp a)).w) s sp a (f := (·.1)) (.inl rfl)
    have h1 := (Scrubs.of_write h (Keeps.refl [] s) (.refl s)).then hk hn
    split
    · exact h1.then (State.remap_keeps (vs := [.service, .counters, .fabric, .mgmt]) (Keeps.refl _ _) (by decide)) (remap_counts _ _ _)
    · exact h1
  case isFalse hc =>
    split
    case isTrue hu =>
      obtain ⟨hk, hn⟩ := countErr_leaves s s sp a (f := (·.2)) (.inr rfl)
      have hm : Keeps [.counters, .service] s ((s.countErr s sp a (·.2)).markUncorr sp a) :=
        State.markUncorr_keeps (hk.mono (by decide)) (by decide)
      have hn' : CountsIn notPasses s ((s.countErr s sp a (·.2)).markUncorr sp a) :=
        hn.trans (.of_keeps (State.markUncorr_keeps (vs := [.service]) (Keeps.refl _ _) (by decide)))
      have h1 := Scrubs.of_write h hm hn'
      split
      · exact h1
      · exact h1.then (State.daybook_keeps (vs := [.mgmt]) (Keeps.refl _ _) (by decide)) (.of_eq rfl)
    case isFalse hu =>
      refine ⟨fun sp' b _ => ?_, .refl s⟩
      split
      case isTrue e => rw [e.1, e.2, decodeWord_same (by simpa using hc) (by simpa using hu)]
      case isFalse => rfl

/-- Words scrubbed one after the other. -/
theorem scrubs_foldl {α : Type} (g : α → Space × Nat) {f : State → α → State} {l : List α} (s : State)
    (hf : ∀ u, ∀ x ∈ l, Scrubs (g x).1 (g x).2 u (f u x)) :
    (∀ sp b, scrubbable sp b → rawWord (l.foldl f s) sp b = if (sp, b) ∈ l.map g then (decodeWord (rawWord s sp b)).w else rawWord s sp b) ∧
      CountsIn notPasses s (l.foldl f s) := by
  induction l generalizing s with
  | nil => exact ⟨fun _ _ _ => rfl, .refl s⟩
  | cons x l ih =>
    obtain ⟨iw, ic⟩ := ih (f s x) (fun u y hy => hf u y (List.mem_cons_of_mem _ hy))
    have hx := hf s x List.mem_cons_self
    refine ⟨fun sp b hb => ?_, hx.counts.trans ic⟩
    have hw := hx.word sp b hb
    rw [List.foldl_cons, iw sp b hb]
    by_cases he : sp = (g x).1 ∧ b = (g x).2
    · rw [if_pos he, ← he.1, ← he.2] at hw
      have hm : (sp, b) ∈ (x :: l).map g := by
        rw [he.1, he.2]
        exact List.mem_cons_self
      rw [if_pos hm, hw, decodeWord_again]
      exact ite_self _
    · have hne : (sp, b) ≠ g x := fun e => he (e ▸ ⟨rfl, rfl⟩)
      rw [if_neg he] at hw
      rw [hw]
      exact if_congr (by rw [List.map_cons, List.mem_cons, or_iff_right hne]) rfl rfl

theorem decodeWord_hbmDefault (key : Nat) : (decodeWord (hbmDefault key)).w = hbmDefault key := by
  have h : (hbmDefault key).syn = 0 := by
    unfold hbmDefault
    dsimp only
    split
    · rfl
    · rfl
  rw [decodeWord, if_pos h]

theorem find_of_not_mem {α : Type} {m : Sparse α} {k : Nat} (h : k ∉ m.map (·.1)) : find m k = none := by
  cases e : find m k with
  | none => rfl
  | some v => exact absurd (List.mem_map.2 ⟨(k, v), find_mem e, rfl⟩) h

/-- The words of core stores scrubbed, before those of HBM. -/
def State.scrubCores (s : State) : State :=
  s.cores.cs.foldl (fun (u : State) (e : Nat × MemWord) =>
    u.scrubWord (.cs (Fin.ofNat 64 (e.1 / csWords))) (e.1 % csWords) (s.hbm.seenCs.contains e.1)) s

/-- The words of HBM scrubbed after them. -/
def State.scrubStacks (s u : State) : State :=
  s.hbm.words.foldl (fun (u : State) (e : Nat × MemWord) => u.scrubWord .hbm e.1 (s.hbm.seen.contains e.1)) u

theorem scrubData_eq (s : State) : s.scrubData = { s.scrubStacks s.scrubCores with
    hbm := { (s.scrubStacks s.scrubCores).hbm with seenCs := correctedKeys s.cores.cs, seen := correctedKeys s.hbm.words } } := rfl

theorem scrubData_words (s : State) :
    (∀ key, rawWord s.scrubData .hbm key = (decodeWord (rawWord s .hbm key)).w) ∧
      (∀ (c : Core) (a : Nat), a < csWords → rawWord s.scrubData (.cs c) a = (decodeWord (rawWord s (.cs c) a)).w) ∧
      CountsIn notPasses s s.scrubData := by
  have hpos : 0 < csWords := by decide
  obtain ⟨hc, cc⟩ := scrubs_foldl (l := s.cores.cs) (fun e : Nat × MemWord => (Space.cs (Fin.ofNat 64 (e.1 / csWords)), e.1 % csWords)) s
    (f := fun u e => u.scrubWord (.cs (Fin.ofNat 64 (e.1 / csWords))) (e.1 % csWords) (s.hbm.seenCs.contains e.1))
    (fun u e _ => scrubWord_scrubs u _ (Nat.mod_lt _ hpos))
  obtain ⟨hh, ch⟩ := scrubs_foldl (l := s.hbm.words) (fun e : Nat × MemWord => (Space.hbm, e.1)) s.scrubCores
    (f := fun u e => u.scrubWord .hbm e.1 (s.hbm.seen.contains e.1)) (fun u e _ => scrubWord_scrubs u _ trivial)
  refine ⟨fun key => ?_, fun c a ha => ?_, (cc.trans ch).trans (.of_eq rfl)⟩
  · have h1 : rawWord s.scrubCores .hbm key = rawWord s .hbm key :=
      (hc .hbm key trivial).trans (if_neg (by simp))
    refine (hh .hbm key trivial).trans ?_
    rw [h1]
    split
    case isTrue => rfl
    case isFalse hm =>
      have hn : key ∉ s.hbm.words.map (·.1) := fun hk => hm (by
        obtain ⟨e, he, rfl⟩ := List.mem_map.1 hk
        exact List.mem_map.2 ⟨e, he, rfl⟩)
      have e : rawWord s .hbm key = hbmDefault key := by
        change look s.hbm.words (hbmDefault key) key = _
        unfold look
        rw [find_of_not_mem hn]
        rfl
      rw [e, decodeWord_hbmDefault]
  · have h1 : rawWord s.scrubData (.cs c) a = rawWord s.scrubCores (.cs c) a := (hh (.cs c) a ha).trans (if_neg (by simp))
    refine h1.trans ((hc (.cs c) a ha).trans ?_)
    split
    case isTrue => rfl
    case isFalse hm =>
      have hn : csKey c a ∉ s.cores.cs.map (·.1) := fun hk => hm (by
        obtain ⟨e, he, hek⟩ := List.mem_map.1 hk
        refine List.mem_map.2 ⟨e, he, ?_⟩
        have h1 : csKey c a / csWords = c.val := by
          unfold csKey
          rw [Nat.mul_add_div hpos, Nat.div_eq_of_lt ha, Nat.add_zero]
        have h2 : csKey c a % csWords = a := by
          unfold csKey
          rw [Nat.mul_add_mod, Nat.mod_eq_of_lt ha]
        have h3 : Fin.ofNat 64 c.val = c := Fin.ext (Nat.mod_eq_of_lt c.isLt)
        rw [hek, h1, h2, h3])
      have e : rawWord s (.cs c) a = MemWord.zero := by
        change look s.cores.cs MemWord.zero (csKey c a) = _
        unfold look
        rw [find_of_not_mem hn]
        rfl
      rw [e, decodeWord_zero]

/-! ### Hallmarks and idle cores scrubbed -/

/-- A hallmark of a store scrubbed, where one bit of it is in error. -/
def State.scrubCell (u : State) (e : Nat × Cell64) : State :=
  match e.2.err with
  | .one _ =>
    let h : Cell64 := ⟨e.2.data, .clean⟩
    ({ u with cores := { u.cores with hall := put ⟨hallZero, .clean⟩ u.cores.hall e.1 h } } : State).countCore (Fin.ofNat 64 (e.1 / 2048)) 0x210 1
  | _ => u

theorem scrubHall_eq (s : State) : s.scrubHall = s.cores.hall.foldl State.scrubCell s := rfl

theorem scrubCell_one {u : State} {e : Nat × Cell64} {k : Nat} {b : _}
    (h : (look (u.scrubCell e).cores.hall ⟨hallZero, .clean⟩ k).err = .one b) :
    (look u.cores.hall ⟨hallZero, .clean⟩ k).err = .one b ∧ (e.1 = k → ∀ b', e.2.err ≠ .one b') := by
  unfold State.scrubCell at h
  split at h
  case h_1 b' he =>
    have e1 : (look (put ⟨hallZero, .clean⟩ u.cores.hall e.1 ⟨e.2.data, .clean⟩) ⟨hallZero, .clean⟩ k).err = .one b := h
    rw [look_put_eq] at e1
    split at e1
    case isTrue => cases e1
    case isFalse hk => exact ⟨e1, fun e2 => absurd e2.symm hk⟩
  case h_2 hne => exact ⟨h, fun _ b' hb => hne b' hb⟩

theorem scrubCells_one {l : List (Nat × Cell64)} {u : State} {k : Nat} {b : _}
    (h : (look (l.foldl State.scrubCell u).cores.hall ⟨hallZero, .clean⟩ k).err = .one b) :
    (look u.cores.hall ⟨hallZero, .clean⟩ k).err = .one b ∧ ∀ e ∈ l, e.1 = k → ∀ b', e.2.err ≠ .one b' := by
  induction l generalizing u with
  | nil => exact ⟨h, fun e he => (nomatch he)⟩
  | cons x l ih =>
    obtain ⟨h1, h2⟩ := ih h
    obtain ⟨h3, h4⟩ := scrubCell_one h1
    exact ⟨h3, fun e he => (List.mem_cons.1 he).elim (fun ex => by rw [ex]; exact h4) (h2 e)⟩

theorem scrubHall_clean (s : State) (k : Nat) (b : _) : (look s.scrubHall.cores.hall ⟨hallZero, .clean⟩ k).err ≠ .one b := by
  rw [scrubHall_eq]
  intro h
  obtain ⟨h1, h2⟩ := scrubCells_one h
  unfold look at h1
  cases hf : find s.cores.hall k with
  | none =>
    rw [hf] at h1
    cases h1
  | some v =>
    rw [hf] at h1
    exact h2 _ (find_mem hf) rfl b h1

theorem scrubHall_counts (s : State) : CountsIn notPasses s s.scrubHall := by
  rw [scrubHall_eq]
  refine .foldl (.refl s) (fun u e => ?_)
  unfold State.scrubCell
  split
  · exact CountsIn.trans (.of_eq rfl) (.count (by simp only [notPasses, coreOff, chipOff]; omega))
  · exact .refl u

/-- The keys corrected in the last pass stand, and so does the count of passes. -/
structure SeenSame (s t : State) : Prop where
  seen : t.hbm.seen = s.hbm.seen
  seenCs : t.hbm.seenCs = s.hbm.seenCs
  counts : CountsIn notPasses s t

theorem SeenSame.refl (s : State) : SeenSame s s := ⟨rfl, rfl, .refl s⟩

theorem SeenSame.trans {s t u : State} (h : SeenSame s t) (k : SeenSame t u) : SeenSame s u :=
  ⟨k.seen.trans h.seen, k.seenCs.trans h.seenCs, h.counts.trans k.counts⟩

theorem SeenSame.ite {c : Prop} [Decidable c] {s t u : State} (h : SeenSame s t) (k : SeenSame s u) : SeenSame s (if c then t else u) := by
  split
  · exact h
  · exact k

theorem SeenSame.foldl {α : Type} {l : List α} {f : State → α → State} {s t : State} (h : SeenSame s t) (hf : ∀ v a, SeenSame v (f v a)) :
    SeenSame s (l.foldl f t) := by
  induction l generalizing t with
  | nil => exact h
  | cons a l ih => exact ih (h.trans (hf t a))

theorem SeenSame.count (s : State) {o n : Nat} (h : notPasses o) : SeenSame s (s.count o n) := ⟨rfl, rfl, .count h⟩

theorem sparePoison_seen (s : State) (p kind a : Nat) : SeenSame s (s.sparePoison p kind a) := ⟨rfl, rfl, .of_eq rfl⟩

theorem coreOff_notPasses (p o : Nat) : notPasses (coreOff p o) := by
  simp only [notPasses, coreOff, chipOff]
  omega

/-- A word of an idle core's core store in error: counted, and noted where it stays so. -/
def State.noteSpareWord (now p : Nat) (u : State) (e : Nat × MemWord) : State :=
  let g := decodeWord e.2
  if g.corrected then u.count (coreOff p 0x200) 1
  else if g.uncorr then
    let u' := (u.count (coreOff p 0x208) 1).sparePoison p 0 e.1
    { u' with hbm := { u'.hbm with uncorrAt := u'.hbm.uncorrAt ++ [(p, now)] } }
  else u

theorem noteSpareWord_seen (now p : Nat) (u : State) (e : Nat × MemWord) : SeenSame u (State.noteSpareWord now p u e) :=
  .ite (.count u (coreOff_notPasses p _)) (.ite (((SeenSame.count u (coreOff_notPasses p _)).trans (sparePoison_seen _ _ _ _)).trans ⟨rfl, rfl, .of_eq rfl⟩)
    (.refl u))

theorem noteSpare_seen (s : State) (p : Nat) : SeenSame s (s.noteSpare p) := by
  let x := look s.cores.idle ({} : SpareStores) p
  have h1 : SeenSame s (x.cs.foldl (State.noteSpareWord s.time.tally.toNat p) s) := .foldl (.refl s) (noteSpareWord_seen _ p)
  have h2 : SeenSame s (x.prog.foldl (fun (u : State) (e : Nat × MemWord) => if (decodeWord e.2).uncorr then u.sparePoison p 2 e.1 else u)
      (x.cs.foldl (State.noteSpareWord s.time.tally.toNat p) s)) := .foldl h1 (fun u e => .ite (sparePoison_seen u p 2 e.1) (.refl u))
  have h3 := SeenSame.foldl (l := x.desc) (f := fun (u : State) (e : Nat × DescEntry) =>
    (upTo 2).foldl (fun (u : State) k => if (e.2.got k).uncorr then u.sparePoison p 1 (2 * e.1 + k) else u) u) h2
    (fun u e => .foldl (.refl u) (fun v k => .ite (sparePoison_seen v p 1 _) (.refl v)))
  exact .ite h3 (h3.trans (.count _ (coreOff_notPasses p _)))

theorem scrubSpares_seen (s : State) : SeenSame s s.scrubSpares :=
  .foldl (.refl s) (fun u p => (noteSpare_seen u p).trans ⟨rfl, rfl, .of_eq rfl⟩)

theorem noteSpare_idle (s : State) (p : Nat) : (s.noteSpare p).cores.idle = s.cores.idle :=
  (State.noteSpare_keeps (vs := [.service, .counters, .mgmt]) (Keeps.refl _ s) (by decide)).eq_idle

theorem scrubSpare_idle (s : State) (p q : Nat) : look (s.scrubSpare p).cores.idle {} q =
    if q = p then (look s.cores.idle {} p).scrubbed else look s.cores.idle {} q := by
  change look (put {} (s.noteSpare p).cores.idle p (look (s.noteSpare p).cores.idle {} p).scrubbed) {} q = _
  rw [noteSpare_idle, look_put_eq]

theorem scrubSpare_each {l : List Nat} (hn : l.Nodup) (s : State) (q : Nat) : look (l.foldl State.scrubSpare s).cores.idle {} q =
    if q ∈ l then (look s.cores.idle {} q).scrubbed else look s.cores.idle {} q := by
  induction l generalizing s with
  | nil => rfl
  | cons p l ih =>
    obtain ⟨hp, hl⟩ := List.nodup_cons.1 hn
    rw [List.foldl_cons, ih hl, scrubSpare_idle]
    by_cases e : q = p
    · subst e
      rw [if_neg hp, if_pos rfl, if_pos List.mem_cons_self]
    · rw [if_neg e]
      exact if_congr (by rw [List.mem_cons, or_iff_right e]) rfl rfl

theorem scrubSpares_idle {s : State} (hn : (s.cores.idle.map (·.1)).Nodup) (p : Nat) :
    look s.scrubSpares.cores.idle {} p = (look s.cores.idle {} p).scrubbed := by
  refine (scrubSpare_each hn s p).trans ?_
  split
  case isTrue => rfl
  case isFalse h =>
    have e : look s.cores.idle ({} : SpareStores) p = {} := by
      unfold look
      rw [find_of_not_mem h]
      rfl
    rw [e]
    rfl

/-! ### A scrub pass -/

/-- A pass's words, programs, descriptors and hallmarks, before its idle cores. -/
def State.scrubbedHere (s : State) : State := s.logBehind.chargeScrub.scrubData.scrubProg.scrubDesc.scrubHall

theorem logBehind_counts (s : State) : CountsIn notPasses s s.logBehind := by
  unfold State.logBehind
  exact .ite (CountsIn.trans (.of_eq rfl) (.count (by decide))) (.refl s)

/-- What comes before the words, and after them, keeps the words, the idle cores and the time. -/
theorem passBefore_keeps (s : State) : Keeps [.service, .counters, .mgmt, .tens, .power] s s.logBehind.chargeScrub :=
  State.chargeScrub_keeps (State.logBehind_keeps (Keeps.refl _ s) (by decide)) (by decide)

theorem passAfter_keeps (s : State) : Keeps [.prog, .mgmt, .desc, .hall, .counters] s s.scrubProg.scrubDesc.scrubHall :=
  State.scrubHall_keeps (State.scrubDesc_keeps (State.scrubProg_keeps (Keeps.refl _ s) (by decide)) (by decide)) (by decide)

theorem passBefore_counts (s : State) : CountsIn notPasses s s.logBehind.chargeScrub :=
  (logBehind_counts s).trans (.of_keeps (State.chargeScrub_keeps (vs := [.tens, .power]) (Keeps.refl _ _) (by decide)))

theorem passAfter_counts (s : State) : CountsIn notPasses s s.scrubProg.scrubDesc.scrubHall :=
  (CountsIn.of_keeps (State.scrubDesc_keeps (vs := [.prog, .desc, .mgmt]) (State.scrubProg_keeps (Keeps.refl _ s) (by decide)) (by decide))).trans
    (scrubHall_counts _)

theorem scrubbedHere_eq (s : State) : s.scrubbedHere = s.logBehind.chargeScrub.scrubData.scrubProg.scrubDesc.scrubHall := rfl

/-- A pass's end after its idle cores: counted, and the next begun. -/
def State.passEnded (s : State) : State := (s.countChip 0x18 1).beginPass

theorem exec_scrubPass (s : State) : exec .scrubPass s = .next s.scrubbedHere.scrubSpares.passEnded := rfl

theorem passEnded_seen (s : State) : s.passEnded.hbm.seen = s.hbm.seen ∧ s.passEnded.hbm.seenCs = s.hbm.seenCs := ⟨rfl, rfl⟩

theorem passEnded_start (s : State) : s.passEnded.hbm.passStart = s.now ∧ s.passEnded.hbm.lateLog = false := ⟨rfl, rfl⟩

theorem passEnded_counted (s : State) : counted s s.passEnded (chipOff 0x18) := counted_count s (chipOff 0x18)

theorem passEnded_keeps (s : State) : Keeps [.counters, .service] s s.passEnded :=
  State.beginPass_keeps (State.countChip_keeps (Keeps.refl _ s) (by decide)) (by decide)

theorem spares_keeps (s : State) : Keeps [.idle, .service, .counters, .mgmt] s s.scrubSpares := State.scrubSpares_keeps (Keeps.refl _ s) (by decide)

theorem scrubbedHere_keeps (s : State) : Keeps [.cs, .prog, .desc, .mbox, .hall, .words, .service, .tens, .counters, .fabric, .mgmt, .power] s s.scrubbedHere :=
  (((passBefore_keeps s).mono (by decide)).trans (State.scrubData_keeps (Keeps.refl _ _) (by decide))).trans ((passAfter_keeps _).mono (by decide))

theorem scrubPass_keeps (s : State) : Keeps [.cs, .prog, .desc, .mbox, .hall, .idle, .words, .service, .tens, .counters, .fabric, .mgmt, .power] s
    s.scrubbedHere.scrubSpares.passEnded :=
  (((scrubbedHere_keeps s).mono (by decide)).trans ((spares_keeps _).mono (by decide))).trans ((passEnded_keeps _).mono (by decide))

theorem scrubPass_counted (s : State) : counted s s.scrubbedHere.scrubSpares.passEnded (chipOff 0x18) := by
  have h1 : CountsIn notPasses s s.scrubbedHere.scrubSpares :=
    (((passBefore_counts s).trans (scrubData_words _).2.2).trans (passAfter_counts _)).trans (scrubSpares_seen _).counts
  exact counted.within (P := notPasses) (Q := notPasses) (passEnded_counted _) h1 (.refl _) (fun h => h rfl) (fun h => h rfl)

theorem scrubPass_raw (s : State) (sp : Space) (a : Nat) : rawWord s.scrubbedHere.scrubSpares.passEnded sp a =
    rawWord s.logBehind.chargeScrub.scrubData sp a :=
  (rawWord_keeps (passEnded_keeps _) sp a).trans ((rawWord_keeps (spares_keeps _) sp a).trans (rawWord_keeps (passAfter_keeps _) sp a))

theorem scrubPass_words (s : State) : (∀ key, rawWord s.scrubbedHere.scrubSpares.passEnded .hbm key = (decodeWord (rawWord s .hbm key)).w) ∧
    ∀ (c : Core) (a : Nat), a < csWords → rawWord s.scrubbedHere.scrubSpares.passEnded (.cs c) a = (decodeWord (rawWord s (.cs c) a)).w := by
  obtain ⟨hh, hc, -⟩ := scrubData_words s.logBehind.chargeScrub
  exact ⟨fun key => by rw [scrubPass_raw, hh, rawWord_keeps (passBefore_keeps s)],
    fun c a ha => by rw [scrubPass_raw, hc c a ha, rawWord_keeps (passBefore_keeps s)]⟩

theorem scrubPass_seen (s : State) : s.scrubbedHere.scrubSpares.passEnded.hbm.seen = correctedKeys s.hbm.words ∧
    s.scrubbedHere.scrubSpares.passEnded.hbm.seenCs = correctedKeys s.cores.cs := by
  have hb := passBefore_keeps s
  have hd : s.logBehind.chargeScrub.scrubData.hbm.seen = correctedKeys s.hbm.words ∧
      s.logBehind.chargeScrub.scrubData.hbm.seenCs = correctedKeys s.cores.cs := by
    rw [scrubData_eq]
    exact ⟨congrArg correctedKeys hb.eq_words, congrArg correctedKeys hb.eq_cs⟩
  have ha : s.scrubbedHere.hbm = s.logBehind.chargeScrub.scrubData.hbm := (passAfter_keeps _).eq_hbm
  have hs := scrubSpares_seen s.scrubbedHere
  obtain ⟨he, heCs⟩ := passEnded_seen s.scrubbedHere.scrubSpares
  exact ⟨by rw [he, hs.seen, ha, hd.1], by rw [heCs, hs.seenCs, ha, hd.2]⟩

/-- A scrub pass. -/
theorem scrubPass_leaves (s : State) : ∃ t, exec .scrubPass s = .next t ∧ t.hbm.passStart = s.now ∧ t.hbm.lateLog = false ∧
    counted s t (chipOff 0x18) ∧ (∀ key, rawWord t .hbm key = (decodeWord (rawWord s .hbm key)).w) ∧
    (∀ (c : Core) (a : Nat), a < csWords → rawWord t (.cs c) a = (decodeWord (rawWord s (.cs c) a)).w) ∧
    t.hbm.seen = correctedKeys s.hbm.words ∧ t.hbm.seenCs = correctedKeys s.cores.cs ∧
    (∀ k b, (look t.cores.hall ⟨hallZero, .clean⟩ k).err ≠ .one b) ∧
    ((s.cores.idle.map (·.1)).Nodup → ∀ p, look t.cores.idle {} p = (look s.cores.idle {} p).scrubbed) ∧
    Keeps [.cs, .prog, .desc, .mbox, .hall, .idle, .words, .service, .tens, .counters, .fabric, .mgmt, .power] s t := by
  have hnow : s.scrubbedHere.scrubSpares.now = s.now := now_of_time ((spares_keeps _).eq_time.trans (scrubbedHere_keeps s).eq_time)
  have hidle : s.scrubbedHere.cores.idle = s.cores.idle := (scrubbedHere_keeps s).eq_idle
  obtain ⟨hstart, hlate⟩ := passEnded_start s.scrubbedHere.scrubSpares
  refine ⟨_, exec_scrubPass s, hstart.trans hnow, hlate, scrubPass_counted s, (scrubPass_words s).1, (scrubPass_words s).2, (scrubPass_seen s).1,
    (scrubPass_seen s).2, fun k b => ?_, fun hn p => ?_, scrubPass_keeps s⟩
  · have h : s.scrubbedHere.scrubSpares.passEnded.cores.hall = s.scrubbedHere.cores.hall :=
      ((passEnded_keeps _).same .hall (by decide)).1.1.trans ((spares_keeps _).same .hall (by decide)).1.1
    rw [h]
    exact scrubHall_clean _ k b
  · have h : s.scrubbedHere.scrubSpares.passEnded.cores.idle = s.scrubbedHere.scrubSpares.cores.idle := (passEnded_keeps _).eq_idle
    rw [h, scrubSpares_idle (by rw [hidle]; exact hn), hidle]

/-! ### Energy accounts -/

/-- The energy of an account stands. -/
def Unspent (o : Nat) (s t : State) : Prop := look t.power.accounts 0 o = look s.power.accounts 0 o

section Unspent

variable {o : Nat} {s t u : State}

theorem Unspent.of_eq (h : t.power = s.power) : Unspent o s t := by unfold Unspent; rw [h]

theorem Unspent.of_keeps {vs : List View} (k : Keeps vs s t) (h : View.power ∉ vs := by decide) : Unspent o s t := .of_eq (k.eq_power h)

theorem Unspent.trans (h : Unspent o s t) (k : Unspent o t u) : Unspent o s u := Eq.trans k h

theorem Unspent.foldl {α : Type} {l : List α} {f : State → α → State} (h : Unspent o s t) (hf : ∀ v, ∀ a ∈ l, Unspent o v (f v a)) :
    Unspent o s (l.foldl f t) := by
  induction l generalizing t with
  | nil => exact h
  | cons a l ih => exact ih (h.trans (hf t a List.mem_cons_self)) (fun v b hb => hf v b (List.mem_cons_of_mem _ hb))

theorem look_account (s : State) (o k e : Nat) : look (s.account o e).power.accounts 0 k =
    if k = o then look s.power.accounts 0 o + e else look s.power.accounts 0 k := look_put_eq _ _ _ _ _

theorem account_unspent {k e : Nat} (h : o ≠ k) : Unspent o s (s.account k e) := (look_account s k o e).trans (if_neg h)

/-- A charge raises no account but the chip's, those named and its tenancy's. -/
theorem charge_unspent {n : Option Nat} {e : Nat} {offs : List Nat} (h1 : o ≠ chipOff 0x80) (h2 : ∀ k ∈ offs, o ≠ k) (h3 : o ≠ chipOff 0x90)
    (h4 : ∀ n, o ≠ tenOff n 0x2240) : Unspent o s (s.charge n e offs) := by
  have h : Unspent o s (offs.foldl (fun (u : State) k => u.account k e) (s.account (chipOff 0x80) e)) :=
    .foldl (account_unspent h1) (fun v k hk => account_unspent (h2 k hk))
  unfold State.charge
  dsimp only
  split
  · exact (h.trans (account_unspent (h4 _))).trans (.of_eq rfl)
  · exact h.trans (account_unspent h3)

/-- A charge to nobody on one account raises it. -/
theorem charge_none_look {e : Nat} (h1 : o ≠ chipOff 0x80) (h3 : o ≠ chipOff 0x90) :
    look (s.charge none e [o]).power.accounts 0 o = look s.power.accounts 0 o + e := by
  change look (((s.account (chipOff 0x80) e).account o e).account (chipOff 0x90) e).power.accounts 0 o = _
  rw [look_account, if_neg h3, look_account, if_pos rfl, look_account, if_neg h1]

end Unspent

/-- The account of a stack that refresh spends from. -/
theorem stack_apart {st : Nat} (h : st < 8) : stackOff st 0x28 ≠ chipOff 0x80 ∧ stackOff st 0x28 ≠ chipOff 0x90 ∧
    (∀ n, stackOff st 0x28 ≠ tenOff n 0x2240) ∧ ∀ p k, stackOff st 0x28 ≠ coreOff p k := by
  refine ⟨?_, ?_, fun n => ?_, fun p k => ?_⟩ <;> simp only [stackOff, chipOff, tenOff, coreOff] <;> omega

/-- Time that passes, with no entry open on HBM, spends from no stack, and changes of the power state no more than accounts. -/
theorem passTo_stack {s : State} (v : Nat) (h : s.hbm.merges = []) {st : Nat} (hst : st < 8) :
    Unspent (stackOff st 0x28) s (s.passTo v) ∧ Spends s (s.passTo v) := by
  obtain ⟨h1, h2, h3, h4⟩ := stack_apart hst
  have hclose (u : State) (t : Option Nat) (c : Core) (a : Nat) (e : MergeEntry) :
      Unspent (stackOff st 0x28) u (u.closeMerge t (.cs c) a e) ∧ Spends u (u.closeMerge t (.cs c) a e) := by
    unfold State.closeMerge
    rw [writeWhole_cs]
    exact ⟨(Unspent.of_eq rfl).trans (charge_unspent h1 (by simpa using ⟨h4 _ _, h4 _ _⟩) h2 h3), (Spends.of_eq rfl).trans (charge_spends _ _ _ _)⟩
  have hticks := countTicks_keeps s (v - s.now)
  let u : State := { s.countTicks (v - s.now) with
    time := { (s.countTicks (v - s.now)).time with tally := (s.countTicks (v - s.now)).time.tally + BitVec.ofNat 64 (v - s.now) } }
  have hu : u.power = s.power := hticks.eq_power
  have hm : u.hbm.merges = [] := hticks.eq_hbmMerges.trans h
  have hset : Unspent (stackOff st 0x28) u u.settleMerges ∧ Spends u u.settleMerges := by
    unfold State.settleMerges
    rw [hm, List.foldl_nil]
    refine ⟨.foldl (.of_eq rfl) (fun w x _ => ?_), .foldl (.refl _) (fun w x => ?_)⟩
    · dsimp only
      split
      · exact (hclose _ _ _ _ _).1
      · exact .of_eq rfl
    · exact .ite (hclose _ _ _ _ _).2 (.refl w)
  unfold State.passTo
  rw [State.pass_eq]
  split
  · exact ⟨(Unspent.of_eq hu).trans hset.1, (Spends.of_eq hu).trans hset.2⟩
  · exact ⟨.of_eq rfl, .refl s⟩

/-! ### Holes -/

/-- What time that passes to a tick may change, and HBM's service. -/
@[reducible] def holeViews : List View := .service :: timeViews

theorem passTo_timeViews (s : State) (v : Nat) : Keeps timeViews s (s.passTo v) := State.passTo_keeps (Keeps.refl _ _) (by decide)

theorem setHbm_keeps (s : State) (h : Hbm) (hw : h.words = s.hbm.words) (hm : h.merges = s.hbm.merges) : Keeps [.service] s { s with hbm := h } where
  pending := rfl
  ident := rfl
  wf k := ⟨k.1, by
    change Hbm.wf h.words = true
    rw [hw]
    exact k.2⟩
  same v hv := by cases v <;> simp_all [View.same, View.sameCores, View.sameHbm]

/-- A stack refreshed. -/
def State.refresh (u : State) (st : Nat) : State := u.charge none (eventEnergy u 14 1) [stackOff st 0x28]

theorem eventEnergy_spends {s t : State} (h : Spends s t) (cls n : Nat) : eventEnergy t cls n = eventEnergy s cls n := by
  unfold Spends at h
  unfold eventEnergy
  rw [h]

theorem refresh_spends (u : State) (k : Nat) : Spends u (u.refresh k) := charge_spends _ _ _ _

theorem refresh_each {l : List Nat} (hn : l.Nodup) {st : Nat} (hst : st < 8) (u : State) :
    look (l.foldl State.refresh u).power.accounts 0 (stackOff st 0x28) =
      look u.power.accounts 0 (stackOff st 0x28) + if st ∈ l then eventEnergy u 14 1 else 0 := by
  obtain ⟨h1, h2, h3, -⟩ := stack_apart hst
  induction l generalizing u with
  | nil => rfl
  | cons k l ih =>
    obtain ⟨hk, hl⟩ := List.nodup_cons.1 hn
    rw [List.foldl_cons, ih hl, eventEnergy_spends (refresh_spends u k)]
    by_cases e : st = k
    · subst e
      rw [if_neg hk, if_pos List.mem_cons_self, State.refresh, charge_none_look h1 h2, Nat.add_zero]
    · have hne : stackOff st 0x28 ≠ stackOff k 0x28 := by simp only [stackOff]; omega
      have hu : Unspent (stackOff st 0x28) u (u.refresh k) := charge_unspent h1 (by simpa using hne) h2 h3
      have hm : st ∈ k :: l ↔ st ∈ l := by rw [List.mem_cons, or_iff_right e]
      rw [hu, if_congr hm rfl rfl]

/-- A hole of the course refreshes each stack. -/
theorem exec_refreshHole {s : State} {w : Nat} (h : nextHole s [6, 19, 32, 45, 58] 1 s.hbm.refreshed = some w) :
    ∃ t, exec .refreshHole s = .next t ∧ t.hbm.refreshed = some w ∧ (256 * w < 2 ^ 64 → t.now = max s.now (256 * w)) ∧
      (s.hbm.merges = [] → ∀ st, st < 8 →
        look t.power.accounts 0 (stackOff st 0x28) = look s.power.accounts 0 (stackOff st 0x28) + eventEnergy s 14 1) ∧
      Keeps (.service :: timeViews) s t := by
  have hc : s.time.pll ≠ .off := by
    intro e
    unfold nextHole clockOn at h
    rw [e] at h
    cases h
  let u : State := { s.passTo (256 * w) with hbm := { (s.passTo (256 * w)).hbm with refreshed := some w } }
  have hu : Keeps [.service] (s.passTo (256 * w)) u := setHbm_keeps _ _ rfl rfl
  have hr : Keeps [.tens, .power] u ((upTo 8).foldl State.refresh u) :=
    Keeps.foldl (Keeps.refl _ _) (fun v k hv => State.charge_keeps hv (by decide))
  have e : exec .refreshHole s = .next ((upTo 8).foldl State.refresh u) := by
    change execRefreshHole s = _
    unfold execRefreshHole
    rw [h]
    rfl
  refine ⟨_, e, ?_, fun hw => ?_, fun hm st hst => ?_, ?_⟩
  · rw [hr.eq_hbm]
  · rw [now_of_time (hr.eq_time.trans hu.eq_time), passTo_now hc hw]
  · obtain ⟨hp, hs⟩ := passTo_stack (256 * w) hm hst
    have hnd : (upTo 8).Nodup := List.nodup_range
    have hin : st ∈ upTo 8 := List.mem_range.2 hst
    rw [refresh_each hnd hst, if_pos hin]
    have he : eventEnergy u 14 1 = eventEnergy s 14 1 := eventEnergy_spends (hs.trans (.of_eq rfl)) 14 1
    rw [he]
    exact congrArg (· + eventEnergy s 14 1) hp
  · exact (((passTo_timeViews s _).mono (by decide)).trans (hu.mono (by decide))).trans (hr.mono (by decide))

/-- The on-die reports of a stack counted. -/
def State.countReport (u : State) (x : BitVec 16 × Nat) : State := u.count (stackOff x.2 0x10) x.1.toNat

theorem countReports_each (l : List (BitVec 16)) (k : Nat) (u : State) (i : Nat) :
    (∀ (hi : i < l.length), ((l.zipIdx k).foldl State.countReport u).counter (stackOff (k + i) 0x10) =
      BitVec.ofNat 64 (min counterMax ((u.counter (stackOff (k + i) 0x10)).toNat + l[i].toNat))) ∧
    (∀ j, j < k → ((l.zipIdx k).foldl State.countReport u).counter (stackOff j 0x10) = u.counter (stackOff j 0x10)) := by
  induction l generalizing k i u with
  | nil => exact ⟨fun hi => (nomatch hi), fun _ _ => rfl⟩
  | cons x l ih =>
    have hne (j m : Nat) (h : j ≠ m) : stackOff j 0x10 ≠ stackOff m 0x10 := by simp only [stackOff]; omega
    refine ⟨fun hi => ?_, fun j hj => ?_⟩
    · rw [List.zipIdx_cons, List.foldl_cons]
      cases i with
      | zero =>
        rw [(ih (k + 1) (u.countReport (x, k)) 0).2 (k + 0) (by omega), State.countReport, State.counter_count,
          if_pos (by rfl)]
        rfl
      | succ i =>
        have h1 := (ih (k + 1) (u.countReport (x, k)) i).1 (by simpa using hi)
        have e : k + 1 + i = k + (i + 1) := by omega
        rw [e] at h1
        rw [h1, State.countReport, State.counter_count, if_neg (hne _ _ (by omega))]
        rfl
    · rw [List.zipIdx_cons, List.foldl_cons, (ih (k + 1) (u.countReport (x, k)) 0).2 j (by omega), State.countReport, State.counter_count,
        if_neg (hne _ _ (by omega))]

theorem not_onAge_report (i : Nat) (hi : i < 8) : ¬ onAge (stackOff i 0x10) := by
  rintro (h | h | h | ⟨st, h⟩ | ⟨t, h⟩) <;> (simp only [tenOff, chipOff, stackOff] at h; omega)

/-- The calibration hole of a course counts the stacks' reports. -/
theorem exec_calibrationHole {s : State} {events : List (BitVec 16)} (hlen : events.length = 8) {w : Nat} (h63 : courseNow s % 64 = 63)
    (h : nextHole s [61] 2 s.hbm.calibrated = some w) : ∃ t, exec (.calibrationHole events) s = .next t ∧ t.hbm.calibrated = some w ∧
      (256 * w < 2 ^ 64 → t.now = max s.now (256 * w)) ∧
      (∀ i (_ : i < events.length), t.counter (stackOff i 0x10) =
        BitVec.ofNat 64 (min counterMax ((s.counter (stackOff i 0x10)).toNat + events[i].toNat))) ∧ Keeps (.service :: timeViews) s t := by
  have hc : s.time.pll ≠ .off := by
    intro e
    unfold nextHole clockOn at h
    rw [e] at h
    cases h
  let u : State := { s.passTo (256 * w) with hbm := { (s.passTo (256 * w)).hbm with calibrated := some w } }
  have hu : Keeps [.service] (s.passTo (256 * w)) u := setHbm_keeps _ _ rfl rfl
  have hr : Keeps [.counters] u (events.zipIdx.foldl State.countReport u) :=
    Keeps.foldl (Keeps.refl _ _) (fun v k hv => State.count_keeps hv (by decide))
  have e : exec (.calibrationHole events) s = .next (events.zipIdx.foldl State.countReport u) := by
    change execCalibrationHole events s = _
    unfold execCalibrationHole
    rw [if_pos h63, h, List.take_of_length_le (by omega)]
    rfl
  refine ⟨_, e, ?_, fun hw => ?_, fun i hi => ?_, ?_⟩
  · rw [hr.eq_hbm]
  · rw [now_of_time (hr.eq_time.trans hu.eq_time), passTo_now hc hw]
  · have h1 := (countReports_each events 0 u i).1 hi
    rw [Nat.zero_add] at h1
    rw [h1]
    have h2 : u.counter (stackOff i 0x10) = s.counter (stackOff i 0x10) := passTo_counts s _ _ (not_onAge_report i (by omega))
    rw [h2]
  · exact (((passTo_timeViews s _).mono (by decide)).trans (hu.mono (by decide))).trans (hr.mono (by decide))

theorem holes_pass : holesPass := by
  refine ⟨fun s => ⟨fun h => ?_, fun w h => exec_refreshHole h⟩, fun events s hlen => ⟨fun h => ?_, fun w h63 h => exec_calibrationHole hlen h63 h⟩⟩
  · change execRefreshHole s = _
    unfold execRefreshHole
    rw [h]
  · change execCalibrationHole events s = _
    unfold execCalibrationHole
    by_cases h63 : courseNow s % 64 = 63
    · rw [if_pos h63, h.resolve_left (not_not.2 h63)]
    · rw [if_neg h63]

/-! ### The daybook -/

/-- Of management no more than interrupts and their messages changes. -/
def Signals (s t : State) : Prop := t.mgmt = { s.mgmt with ints := t.mgmt.ints, pba := t.mgmt.pba, sent := t.mgmt.sent }

section Signals

variable {s t u : State}

theorem Signals.refl (s : State) : Signals s s := rfl

theorem Signals.trans (h : Signals s t) (k : Signals t u) : Signals s u := by
  unfold Signals at *
  rw [k, h]

theorem Signals.ite {c : Prop} [Decidable c] (h : Signals s t) (k : Signals s u) : Signals s (if c then t else u) := by
  split
  · exact h
  · exact k

theorem Signals.foldl {α : Type} {l : List α} {f : State → α → State} (h : Signals s t) (hf : ∀ v a, Signals v (f v a)) : Signals s (l.foldl f t) := by
  induction l generalizing t with
  | nil => exact h
  | cons a l ih => exact ih (h.trans (hf t a))

end Signals

theorem sendMsg_signals (s : State) (fn v : Nat) : Signals s (s.sendMsg fn v) := by
  unfold State.sendMsg
  split
  · exact rfl
  · exact rfl

theorem raiseInt_signals (s : State) (fn bit : Nat) : Signals s (s.raiseInt fn bit) := by
  unfold State.raiseInt
  exact .ite (Signals.trans rfl (sendMsg_signals _ _ _)) rfl

theorem dayInts_signals (s : State) (w : BitVec 256) (rs : List Nat) : Signals s (s.dayInts w rs) :=
  .foldl (.refl s) (fun u fn => by
    have h : Signals u (if (boxOf u fn).thresh.toNat ≠ 0 && unread u fn = (boxOf u fn).thresh.toNat then u.raiseInt fn 1 else u) :=
      .ite (raiseInt_signals u fn 1) (.refl u)
    exact .ite (h.trans (raiseInt_signals _ fn 2)) h)

theorem readersOf_congr {s t : State} (h1 : ∀ n, t.tenExists n = s.tenExists n) (h2 : t.mgmt.vfOn = s.mgmt.vfOn) (w : BitVec 256) :
    readersOf t w = readersOf s w := by
  unfold readersOf
  simp only [h1, h2]

/-- What a release leaves beside the ring and the interrupts. -/
structure Released (s t : State) (es : List DayEntry) : Prop where
  ring : t.mgmt.ring = s.mgmt.ring ++ es
  waiting : t.mgmt.waiting = s.mgmt.waiting
  readers : ∀ w, readersOf t w = readersOf s w
  kept : Keeps [.mgmt] s t

theorem addEntry_released (s : State) (w : BitVec 256) (rs : List Nat) : Released s (s.addEntry w rs) [⟨w, rs⟩] := by
  have hk : Keeps [.mgmt] s (s.addEntry w rs) := State.addEntry_keeps (Keeps.refl _ _) (by decide)
  have h : Signals { s with mgmt := { s.mgmt with ring := s.mgmt.ring ++ [⟨w, rs⟩] } } (s.addEntry w rs) := dayInts_signals _ w rs
  unfold Signals at h
  refine ⟨by rw [h], by rw [h], readersOf_congr (fun n => ?_) (by rw [h]), hk⟩
  unfold State.tenExists
  rw [hk.ten_eq]

/-- An entry of a ring with room whose last entry is no note of a loss. -/
theorem releaseOne_released {s : State} {w : BitVec 256} (hlen : s.mgmt.ring.length < 8191) (hlast : ∀ e ∈ s.mgmt.ring.getLast?, dayCode e.word ≠ 0x02) :
    Released s (s.releaseOne w) [⟨w, readersOf s w⟩] := by
  have e : s.releaseOne w = s.addEntry w (readersOf s w) := by
    unfold State.releaseOne
    dsimp only
    split
    case h_1 x hx => rw [if_neg (hlast x hx), if_neg (by omega)]
    case h_2 => rfl
  rw [e]
  exact addEntry_released _ _ _

/-- Entries released in order, with room for all. -/
theorem releases {l : List (BitVec 256)} {s : State} (hlen : s.mgmt.ring.length + l.length ≤ 8191)
    (hlast : ∀ e ∈ s.mgmt.ring.getLast?, dayCode e.word ≠ 0x02) (hl : ∀ w ∈ l, dayCode w ≠ 0x02) :
    Released s (l.foldl (fun (u : State) x => u.releaseOne x) s) (l.map (fun w => ⟨w, readersOf s w⟩)) := by
  induction l generalizing s with
  | nil => exact ⟨(List.append_nil _).symm, rfl, fun _ => rfl, Keeps.refl _ _⟩
  | cons w l ih =>
    rw [List.length_cons] at hlen
    have h1 := releaseOne_released (w := w) (by omega) hlast
    have hr := h1.ring
    have h2 := ih (s := s.releaseOne w) (by rw [hr, List.length_append, List.length_singleton]; omega)
      (fun e he => by
        rw [hr, List.getLast?_append, List.getLast?_singleton] at he
        injection he with he
        subst he
        exact hl w List.mem_cons_self) (fun x hx => hl x (List.mem_cons_of_mem _ hx))
    refine ⟨?_, h2.waiting.trans h1.waiting, fun x => (h2.readers x).trans (h1.readers x), h1.kept.trans h2.kept⟩
    rw [List.foldl_cons, h2.ring, hr, List.append_assoc, List.map_cons]
    simp [h1.readers]

/-- An entry released keeps what waits, whatever the ring holds. -/
theorem releaseOne_waiting (s : State) (w : BitVec 256) : (s.releaseOne w).mgmt.waiting = s.mgmt.waiting ∧ Keeps [.mgmt] s (s.releaseOne w) := by
  refine ⟨?_, State.releaseOne_keeps (Keeps.refl _ _) (by decide)⟩
  unfold State.releaseOne
  dsimp only
  split
  · split
    · rfl
    split
    · exact (addEntry_released _ _ _).waiting
    · exact (addEntry_released _ _ _).waiting
  · exact (addEntry_released _ _ _).waiting

theorem releases_waiting (l : List (BitVec 256)) (s : State) : (l.foldl (fun (u : State) x => u.releaseOne x) s).mgmt.waiting = s.mgmt.waiting ∧
    Keeps [.mgmt] s (l.foldl (fun (u : State) x => u.releaseOne x) s) := by
  induction l generalizing s with
  | nil => exact ⟨rfl, Keeps.refl _ _⟩
  | cons w l ih =>
    obtain ⟨h1, k1⟩ := releaseOne_waiting s w
    obtain ⟨h2, k2⟩ := ih (s.releaseOne w)
    exact ⟨h2.trans h1, k1.trans k2⟩

theorem daySort_ne_nil {l : List (BitVec 256)} (h : l ≠ []) : daySort l ≠ [] := by
  have hi (x : BitVec 256) (m : List (BitVec 256)) : dayInsert x m ≠ [] := by
    cases m with
    | nil => exact List.cons_ne_nil _ _
    | cons y m =>
      unfold dayInsert
      split
      · exact List.cons_ne_nil _ _
      · exact List.cons_ne_nil _ _
  have hf : ∀ (l m : List (BitVec 256)), m ≠ [] → l.foldl (fun (m : List (BitVec 256)) x => dayInsert x m) m ≠ [] := by
    intro l
    induction l with
    | nil => exact fun m hm => hm
    | cons x l ih => exact fun m _ => ih _ (hi x m)
  cases l with
  | nil => exact absurd rfl h
  | cons x l => exact hf l _ (hi x [])

/-- A state whose waiting entries that are due are taken out. -/
def State.dueTaken (s : State) : State :=
  { s with mgmt := { s.mgmt with waiting := s.mgmt.waiting.filter (fun x => s.now < releaseAt x) } }

theorem dueTaken_keeps (s : State) : Keeps [.mgmt] s s.dueTaken := setMgmt_keeps _ _

theorem exec_daybookRelease {s : State} (h : s.mgmt.waiting ≠ []) : ∃ t, exec .daybookRelease s = .next t ∧
    (s.hbm.merges = [] → t.mgmt.waiting = s.mgmt.waiting.filter (fun x => decide (t.now < releaseAt x))) ∧
    (let due := (daySort s.mgmt.waiting).filter (fun x => decide (releaseAt x ≤ t.now))
     s.mgmt.ring.length + due.length ≤ 8191 → (∀ e ∈ s.mgmt.ring.getLast?, dayCode e.word ≠ 0x02) → (∀ w ∈ due, dayCode w ≠ 0x02) →
      t.mgmt.ring = s.mgmt.ring ++ due.map (fun w => ⟨w, readersOf s w⟩)) ∧
    (∀ w, (daySort s.mgmt.waiting).head? = some w → s.time.pll ≠ .off → releaseAt w < 2 ^ 64 → t.now = max s.now (releaseAt w)) ∧
    Keeps timeViews s t := by
  obtain ⟨w, l, hl⟩ := List.exists_cons_of_ne_nil (daySort_ne_nil h)
  let p := s.passTo (releaseAt w)
  let due := (daySort s.mgmt.waiting).filter (fun x => decide (releaseAt x ≤ p.now))
  let t := due.foldl (fun (u : State) x => u.releaseOne x) p.dueTaken
  have hhead : (daySort s.mgmt.waiting).head? = some w := by rw [hl]; rfl
  have e : exec .daybookRelease s = .next t := by
    change execDaybookRelease s = _
    unfold execDaybookRelease
    dsimp only
    rw [hhead]
    rfl
  obtain ⟨hw, hk⟩ := releases_waiting due p.dueTaken
  have hnow : t.now = p.now := now_of_time (hk.eq_time.trans (dueTaken_keeps p).eq_time)
  obtain ⟨ws, hm⟩ := (passTo_ages s (releaseAt w)).mgmt
  refine ⟨t, e, fun hn => ?_, ?_, fun w' hw' hc hlt => ?_, ?_⟩
  · have hwait : p.mgmt.waiting = s.mgmt.waiting := congrArg Mgmt.waiting (passTo_keeps_of_noHbm (releaseAt w) hn).eq_mgmt
    rw [hw, hnow]
    change p.mgmt.waiting.filter (fun x => decide (p.now < releaseAt x)) = _
    rw [hwait]
  · intro due' hlen hlast hcodes
    have hdue : due' = due := by
      change (daySort s.mgmt.waiting).filter (fun x => decide (releaseAt x ≤ t.now)) = _
      rw [hnow]
    have hring0 : p.mgmt.ring = s.mgmt.ring := (congrArg Mgmt.ring hm).trans rfl
    have hvf : p.mgmt.vfOn = s.mgmt.vfOn := (congrArg Mgmt.vfOn hm).trans rfl
    have hring : p.dueTaken.mgmt.ring = s.mgmt.ring := hring0
    have hread (x : BitVec 256) : readersOf p.dueTaken x = readersOf s x := by
      refine readersOf_congr (fun n => ?_) hvf x
      have ht : p.ten n = { s.ten n with course := (p.ten n).course, escrow := (p.ten n).escrow } := (passTo_ages s (releaseAt w)).tens n
      exact (congrArg (fun r : Tenancy => r.def_.exists_) ht).trans rfl
    rw [hdue] at hlen hcodes ⊢
    have hr := (releases (s := p.dueTaken) (by rw [hring]; exact hlen) (by rw [hring]; exact hlast) hcodes).ring
    rw [hring] at hr
    rw [hr]
    congr 1
    exact List.map_congr_left (fun x _ => by rw [hread])
  · rw [hhead] at hw'
    injection hw' with hw'
    rw [hnow, ← hw']
    exact passTo_now hc (by rw [hw']; exact hlt)
  · exact ((passTo_timeViews s _).trans ((dueTaken_keeps p).mono (by decide))).trans (hk.mono (by decide))

/-! ### The journal -/

theorem rising_put {α : Type} [DecidableEq α] (d : α) {m : Sparse α} (k : Nat) (v : α) (h : rising 0 m = true) : rising 0 (put d m k v) = true := by
  unfold put
  split
  · exact rising_del h
  · exact rising_set v h (Nat.zero_le _)

/-- Values set one after the other from a list with rising keys: each key of the list reads as the list says. -/
theorem find_setAll {α : Type} {l : Sparse α} {lo : Nat} (h : rising lo l = true) {k : Nat} {v : α} (hv : find l k = some v) (m : Sparse α) :
    find (l.foldl (fun (m : Sparse α) (e : Nat × α) => set m e.1 e.2) m) k = some v := by
  have hkeep : ∀ (l : Sparse α) (lo : Nat), rising lo l = true → k < lo → ∀ m : Sparse α,
      find (l.foldl (fun (m : Sparse α) (e : Nat × α) => set m e.1 e.2) m) k = find m k := by
    intro l
    induction l with
    | nil => exact fun _ _ _ _ => rfl
    | cons e l ih =>
      intro lo h hk m
      obtain ⟨a, w⟩ := e
      simp only [rising, Bool.and_eq_true, decide_eq_true_eq] at h
      rw [List.foldl_cons, ih (a + 1) h.2 (by omega), find_set_ne _ _ (by omega)]
  induction l generalizing lo m with
  | nil => cases hv
  | cons e l ih =>
    obtain ⟨a, w⟩ := e
    simp only [rising, Bool.and_eq_true, decide_eq_true_eq] at h
    unfold find at hv
    by_cases ha : a = k
    · rw [if_pos ha] at hv
      injection hv with hv
      subst ha hv
      rw [List.foldl_cons, hkeep l (a + 1) h.2 (by omega), find_set]
    · rw [if_neg ha] at hv
      exact ih h.2 hv _

theorem find_of_look {α : Type} {m : Sparse α} {d v : α} {k : Nat} (h : look m d k = v) (hv : v ≠ d) : find m k = some v := by
  unfold look at h
  cases hf : find m k with
  | some x =>
    rw [hf] at h
    exact congrArg some h
  | none =>
    rw [hf] at h
    exact absurd h.symm hv

/-- The keys that hold totals of counters are none of those of a power-on hour. -/
theorem carried_keys : ∀ x ∈ carried, x.1 ≠ figKey 1 0 := by decide +kernel

theorem figuresNow_rising {s : State} (h : rising 0 s.mgmt.ledger.figures = true) : rising 0 (figuresNow s) = true := by
  have hf : ∀ (l : List (Nat × List Nat)) (m : Sparse Nat), rising 0 m = true → rising 0 (l.foldl (fun (m : Sparse Nat) (x : Nat × List Nat) =>
      put 0 m x.1 (look m 0 x.1 + (x.2.map (fun o => (s.counter o).toNat)).foldl (· + ·) 0)) m) = true := by
    intro l
    induction l with
    | nil => exact fun _ h => h
    | cons x l ih => exact fun m h => ih _ (rising_put _ _ _ h)
  exact rising_put _ _ _ (rising_put _ _ _ (hf carried _ h))

theorem figuresNow_hours (s : State) : look (figuresNow s) 0 (figKey 1 0) = s.figure 1 0 := by
  have hf : ∀ (l : List (Nat × List Nat)), (∀ x ∈ l, x.1 ≠ figKey 1 0) → ∀ m : Sparse Nat,
      look (l.foldl (fun (m : Sparse Nat) (x : Nat × List Nat) =>
        put 0 m x.1 (look m 0 x.1 + (x.2.map (fun o => (s.counter o).toNat)).foldl (· + ·) 0)) m) 0 (figKey 1 0) = look m 0 (figKey 1 0) := by
    intro l
    induction l with
    | nil => exact fun _ _ => rfl
    | cons x l ih =>
      intro h m
      rw [List.foldl_cons, ih (fun y hy => h y (List.mem_cons_of_mem _ hy)), look_put_ne _ _ _ (h x List.mem_cons_self).symm]
  unfold figuresNow
  dsimp only
  rw [look_put_ne _ _ _ (by decide), look_put_ne _ _ _ (by decide), hf carried carried_keys]
  rfl

/-- Figures committed: one of a section that is committed reads in flash as it stands. -/
theorem commitFigures_hours {s : State} {p : Nat → Bool} (h : rising 0 s.mgmt.ledger.figures = true) (hp : p (figKey 1 0 / 1024) = true)
    (h0 : s.figure 1 0 ≠ 0) : look (s.commitFigures p).mgmt.flash.figures 0 (figKey 1 0) = s.figure 1 0 := by
  have h1 : find ((figuresNow s).filter (fun e => p (e.1 / 1024))) (figKey 1 0) = some (s.figure 1 0) := by
    rw [find_filter_keys (figuresNow s) (fun k => p (k / 1024)), if_pos hp]
    exact find_of_look (figuresNow_hours s) h0
  have h2 := find_setAll (rising_filter (fun e => p (e.1 / 1024)) (figuresNow_rising h)) h1 s.mgmt.flash.figures
  unfold look
  have e : find (s.commitFigures p).mgmt.flash.figures (figKey 1 0) = some (s.figure 1 0) := h2
  rw [e]
  rfl

/-- A snapshot's end: the figures of its sections committed at this tick. -/
def State.snapshot (s : State) : State :=
  let s2 := s.commitFigures (fun sec => decide (1 ≤ sec && sec ≤ 4) || decide (sec = 9))
  { s2 with mgmt := { s2.mgmt with lastSnap := s2.now } }

theorem snapshot_leaves (s : State) : s.snapshot.mgmt.lastSnap = s.snapshot.now ∧ s.snapshot.figure 1 0 = s.figure 1 0 ∧
    s.snapshot.now = s.now := ⟨rfl, rfl, rfl⟩

theorem addFigure_rising {s : State} {sec i n : Nat} (h : rising 0 s.mgmt.ledger.figures = true) :
    rising 0 (s.addFigure sec i n).mgmt.ledger.figures = true := rising_put _ _ _ h

theorem figure_addFigure (s : State) (sec i n : Nat) : (s.addFigure sec i n).figure sec i = s.figure sec i + n := look_put _ _ _ _

theorem exec_ledgerSnapshot {s : State} (h : rising 0 s.mgmt.ledger.figures = true) : ∃ t, exec .ledgerSnapshot s = .next t ∧
    t.mgmt.lastSnap = t.now ∧ t.figure 1 0 = s.figure 1 0 + 1 ∧ look t.mgmt.flash.figures 0 (figKey 1 0) = s.figure 1 0 + 1 ∧
    (s.time.pll ≠ .off → s.mgmt.lastSnap + hourTicks < 2 ^ 64 → t.now = max s.now (s.mgmt.lastSnap + hourTicks)) ∧ Keeps timeViews s t := by
  let v := s.mgmt.lastSnap + hourTicks
  let u := (s.passTo v).addFigure 1 0 1
  obtain ⟨ws, hm⟩ := (passTo_ages s v).mgmt
  have hfig : (s.passTo v).mgmt.ledger = s.mgmt.ledger := (congrArg Mgmt.ledger hm).trans rfl
  have hu : u.figure 1 0 = s.figure 1 0 + 1 := by
    rw [figure_addFigure]
    unfold State.figure
    rw [hfig]
  have hr : rising 0 u.mgmt.ledger.figures = true := addFigure_rising (s := s.passTo v) (by rw [hfig]; exact h)
  have hflash : look (u.commitFigures (fun sec => decide (1 ≤ sec && sec ≤ 4) || decide (sec = 9))).mgmt.flash.figures 0 (figKey 1 0) = u.figure 1 0 :=
    commitFigures_hours hr (by decide) (by omega)
  have ha : Keeps [.mgmt] (s.passTo v) u := State.addFigure_keeps (Keeps.refl _ _) (by decide)
  have hk : KeepsO timeViews s (exec .ledgerSnapshot s) := execLedgerSnapshot_keeps (Keeps.refl _ _) (by decide)
  have e : exec .ledgerSnapshot s = .next u.snapshot := rfl
  rw [e] at hk
  obtain ⟨h1, h2, h3⟩ := snapshot_leaves u
  refine ⟨u.snapshot, e, h1, h2.trans hu, ?_, fun hc hlt => ?_, KeepsO.of_next hk⟩
  · have hs : u.snapshot.mgmt.flash = (u.commitFigures (fun sec => decide (1 ≤ sec && sec ≤ 4) || decide (sec = 9))).mgmt.flash := rfl
    rw [hs, hflash, hu]
  · rw [h3, now_of_time ha.eq_time]
    exact passTo_now hc hlt

theorem commitEvents_leaves (s : State) : s.commitEvents.mgmt.flash = { s.mgmt.ledger with figures := s.commitEvents.mgmt.flash.figures } ∧
    s.commitEvents.mgmt.lastEvt = some s.commitEvents.now ∧ s.commitEvents.now = s.now := ⟨rfl, rfl, rfl⟩

theorem exec_ledgerEventWrite {s : State} (h : eventsWait s = true) : ∃ t, exec .ledgerEventWrite s = .next t ∧
    t.mgmt.flash = { s.mgmt.ledger with figures := t.mgmt.flash.figures } ∧ t.mgmt.lastEvt = some t.now ∧
    (∀ v, s.mgmt.lastEvt = some v → s.time.pll ≠ .off → v + 60 * 1800000000 < 2 ^ 64 → t.now = max s.now (v + 60 * 1800000000)) ∧
    Keeps timeViews s t := by
  have hk : KeepsO timeViews s (exec .ledgerEventWrite s) := execLedgerEventWrite_keeps (Keeps.refl _ _) (by decide)
  have e : exec .ledgerEventWrite s = match s.mgmt.lastEvt with
      | some v => .next (s.passTo (v + 60 * 1800000000)).commitEvents
      | none => .next s.commitEvents := if_neg (by simp [h])
  cases hl : s.mgmt.lastEvt with
  | none =>
    rw [hl] at e
    rw [e] at hk
    obtain ⟨h1, h2, h3⟩ := commitEvents_leaves s
    exact ⟨_, e, h1, h2, fun v hv => (nomatch hv), KeepsO.of_next hk⟩
  | some v =>
    rw [hl] at e
    rw [e] at hk
    obtain ⟨ws, hm⟩ := (passTo_ages s (v + 60 * 1800000000)).mgmt
    have hled : (s.passTo (v + 60 * 1800000000)).mgmt.ledger = s.mgmt.ledger := (congrArg Mgmt.ledger hm).trans rfl
    obtain ⟨h1, h2, h3⟩ := commitEvents_leaves (s.passTo (v + 60 * 1800000000))
    rw [hled] at h1
    refine ⟨_, e, h1, h2, fun v' hv hc hlt => ?_, KeepsO.of_next hk⟩
    injection hv with hv
    subst hv
    exact h3.trans (passTo_now hc hlt)

/-! ### Assays that end -/

/-- The die ledger and the power state stand, and each port has failed that had. -/
structure Recorded (s t : State) : Prop where
  ledger : t.mgmt.ledger = s.mgmt.ledger
  power : t.power = s.power
  failed : ∀ p, (portOf t p).failed = (portOf s p).failed

theorem Recorded.refl (s : State) : Recorded s s := ⟨rfl, rfl, fun _ => rfl⟩

theorem Recorded.trans {s t u : State} (h : Recorded s t) (k : Recorded t u) : Recorded s u :=
  ⟨k.ledger.trans h.ledger, k.power.trans h.power, fun p => (k.failed p).trans (h.failed p)⟩

theorem Recorded.of_mgmt {s t : State} (k : Keeps [.mgmt] s t) (h : t.mgmt.ledger = s.mgmt.ledger) : Recorded s t :=
  ⟨h, k.eq_power, fun p => by rw [k.portOf_eq]⟩

theorem raiseInt_recorded (s : State) (fn bit : Nat) : Recorded s (s.raiseInt fn bit) := by
  have h := raiseInt_signals s fn bit
  unfold Signals at h
  exact .of_mgmt (State.raiseInt_keeps (Keeps.refl _ _) (by decide)) (by rw [h])

theorem notice_recorded (s : State) (fn kind payload : Nat) : Recorded s (s.notice fn kind payload) := by
  refine .of_mgmt (State.notice_keeps (Keeps.refl _ _) (by decide)) ?_
  unfold State.notice
  dsimp only
  split
  · exact (raiseInt_recorded _ _ _).ledger
  split
  · rfl
  split
  · rfl
  · rfl

theorem startAssays_recorded (s : State) : Recorded s s.startAssays := by
  refine ⟨startAssays_ledger s, (startAssays_keeps_ports s).eq_power, fun p => ?_⟩
  unfold State.startAssays
  have hf : ∀ (l : List Assay) (u : State), (portOf (l.foldl (fun (u : State) a =>
      if targetFree u a.kind.toNat a.target.toNat then
        let v := { u with mgmt := { u.mgmt with assays := u.mgmt.assays.erase a, running := u.mgmt.running ++ [a] } }
        if a.kind = 3 then v.modPort (Fin.ofNat 16 a.target.toNat) (fun q => { q with assay := true }) else v
      else u) u) p).failed = (portOf u p).failed := by
    intro l
    induction l with
    | nil => exact fun _ => rfl
    | cons a l ih =>
      intro u
      rw [List.foldl_cons, ih]
      split
      · dsimp only
        split
        · by_cases hp : p = Fin.ofNat 16 a.target.toNat
          · rw [hp, portOf_modPort]
            rfl
          · rw [portOf_modPort_ne _ _ hp]
            rfl
        · rfl
      · rfl
  exact hf _ _

/-- The entry of a result kept, of an assay that ran. -/
def State.assayKept (s : State) (a : Assay) (w : BitVec 192) : State :=
  { s with mgmt := { s.mgmt with
      running := s.mgmt.running.erase a
      ledger := { s.mgmt.ledger with assays := ((s.mgmt.ledger.assays ++ [w]).reverse.take 64).reverse } } }

/-- A result told: in the daybook, to the PF, and to a tenancy's function. -/
def State.assayTold (s : State) (a : Assay) (core : Nat) (w : BitVec 192) : State :=
  let s3 := ((s.daybook 0x80 0 (a.ten.getD 15) core 13 0 (bitsN w 63 0) (bitsN w 127 64)).notice 0 noteAssay w.toNat).raiseInt 0 14
  (match a.ten with | some t => s3.notice (fnOf t) noteAssay w.toNat | none => s3).startAssays

theorem assayTold_leaves (s : State) (a : Assay) (core : Nat) (w : BitVec 192) :
    Recorded s (s.assayTold a core w) ∧ ((s.assayTold a core w).intStatus 0).getLsbD 14 = true := by
  let s2 := (s.daybook 0x80 0 (a.ten.getD 15) core 13 0 (bitsN w 63 0) (bitsN w 127 64)).notice 0 noteAssay w.toNat
  have h0 : Recorded s (s.daybook 0x80 0 (a.ten.getD 15) core 13 0 (bitsN w 63 0) (bitsN w 127 64)) := ⟨rfl, rfl, fun _ => rfl⟩
  have h3 : Recorded s (s2.raiseInt 0 14) := (h0.trans (notice_recorded _ _ _ _)).trans (raiseInt_recorded _ _ _)
  have hr : ((s2.raiseInt 0 14).intStatus 0).getLsbD 14 = true := raised s2 0 (by decide)
  unfold State.assayTold
  dsimp only
  split
  case h_1 t _ =>
    exact ⟨(h3.trans (notice_recorded _ _ _ _)).trans (startAssays_recorded _), ((notice_logs _ _ _ _).trans (startAssays_logs _)).ints 0 14 hr⟩
  case h_2 => exact ⟨h3.trans (startAssays_recorded _), (startAssays_logs _).ints 0 14 hr⟩

theorem exec_assayComplete {r : AssayResult} {s : State} {a : Assay}
    (h : s.mgmt.running.find? (fun a => a.kind = r.kind && a.target = r.target) = some a) :
    exec (.assayComplete r) s = .next (((s.assayKept a (assayRecord s r)).applyAssay r).assayTold a
      (if r.kind.toNat ≤ 1 then r.target.toNat else 0x7F) (assayRecord s r)) := by
  change execAssayComplete r s = _
  unfold execAssayComplete
  rw [h]
  rfl

theorem applyAssay_assays (s : State) (r : AssayResult) : (s.applyAssay r).mgmt.ledger.assays = s.mgmt.ledger.assays := by
  unfold State.applyAssay
  split
  · rfl
  · split
    · rfl
    · rfl
  · rfl
  · split
    · rfl
    · rfl

theorem applyAssay_core {s : State} {r : AssayResult} (hk : r.kind.toNat ≤ 1) (ho : r.outcome = 1) :
    r.target.toNat ∈ (s.applyAssay r).mgmt.ledger.failed.map (·.1) := by
  unfold State.applyAssay
  split
  case h_1 h => omega
  case h_2 h => omega
  case h_3 h => omega
  case h_4 =>
    by_cases hm : r.target.toNat ∈ s.mgmt.ledger.failed.map (·.1)
    · rw [if_neg (by simpa [ho] using List.mem_map.1 hm)]
      exact hm
    · rw [if_pos (by simpa [ho] using fun a ha => hm (List.mem_map.2 ⟨_, ha, rfl⟩))]
      simp

theorem applyAssay_port {s : State} {r : AssayResult} (hk : r.kind = 3) (ho : r.outcome = 0) :
    (portOf (s.applyAssay r) (Fin.ofNat 16 r.target.toNat)).failed = false := by
  have hn : r.kind.toNat = 3 := by rw [hk]; rfl
  unfold State.applyAssay
  split
  case h_1 =>
    rw [portOf_modPort]
    exact if_pos ho
  case h_2 h => omega
  case h_3 h => omega
  case h_4 h _ _ => exact absurd hn h

theorem applyAssay_power {s : State} {r : AssayResult} (hk : r.kind = 4) (ho : r.outcome = 0) :
    (s.applyAssay r).power = { s.power with recal := s.power.recal + 1, measured := false, run := 0 } := by
  have hn : r.kind.toNat = 4 := by rw [hk]; rfl
  unfold State.applyAssay
  split
  case h_1 h => omega
  case h_2 =>
    rw [if_neg (not_not.2 ho)]
    rfl
  case h_3 h => omega
  case h_4 _ h _ => exact absurd hn h

theorem assayComplete_leaves {r : AssayResult} {s : State} {a : Assay}
    (h : s.mgmt.running.find? (fun a => a.kind = r.kind && a.target = r.target) = some a) : ∃ t, exec (.assayComplete r) s = .next t ∧
      t.mgmt.ledger.assays = ((s.mgmt.ledger.assays ++ [assayRecord s r]).reverse.take 64).reverse ∧ (t.intStatus 0).getLsbD 14 = true ∧
      (r.kind.toNat ≤ 1 → r.outcome = 1 → r.target.toNat ∈ t.mgmt.ledger.failed.map (·.1)) ∧
      (r.kind = 3 → r.outcome = 0 → (portOf t (Fin.ofNat 16 r.target.toNat)).failed = false) ∧
      (r.kind = 4 → r.outcome = 0 → t.power.recal = s.power.recal + 1 ∧ t.power.measured = false ∧ t.power.run = 0) ∧
      Keeps [.fabric, .mgmt, .power] s t := by
  have e := exec_assayComplete h
  have hk : KeepsO [.fabric, .mgmt, .power] s (exec (.assayComplete r) s) := execAssayComplete_keeps (Keeps.refl _ _) (by decide)
  rw [e] at hk
  obtain ⟨hr, hint⟩ := assayTold_leaves ((s.assayKept a (assayRecord s r)).applyAssay r) a
    (if r.kind.toNat ≤ 1 then r.target.toNat else 0x7F) (assayRecord s r)
  refine ⟨_, e, ?_, hint, fun h1 h2 => ?_, fun h1 h2 => ?_, fun h1 h2 => ?_, KeepsO.of_next hk⟩
  · rw [hr.ledger, applyAssay_assays]
    rfl
  · rw [hr.ledger]
    exact applyAssay_core h1 h2
  · rw [hr.failed]
    exact applyAssay_port h1 h2
  · rw [hr.power, applyAssay_power h1 h2]
    exact ⟨rfl, rfl, rfl⟩

/-- Settles O58: a pass scrubs word by word, time passes to each hole and note, and what is kept is what its rule says. -/
theorem careOfTheChip : Obligations.CareOfTheChip := by
  refine ⟨scrubPass_leaves, holes_pass, fun s => ⟨fun h => ?_, exec_daybookRelease⟩, fun s h => exec_ledgerSnapshot h,
    fun s => ⟨fun h => ?_, exec_ledgerEventWrite⟩, fun r s => ⟨fun h => ?_, fun a h => assayComplete_leaves h⟩⟩
  · change execDaybookRelease s = _
    unfold execDaybookRelease
    rw [h]
    rfl
  · exact if_pos (by rw [h]; rfl)
  · change execAssayComplete r s = _
    unfold execAssayComplete
    rw [h]

end Sys2Proof.Machine
end

section
/-! SUPPORT. A collective whose words are anchored by a map reads the map's words too, which its source words do not hold (14 R379). -/

namespace Sys2Proof.Machine

open Sys2Proof Sys2Proof.Claims

set_option Elab.async false

/-- A running job, of the whole grid and its ports, in a course of its schedule. -/
def mappedJob : Tenancy where
  def_ := { exists_ := true, h := 8, ports := 0xFFFF, parts := [(0, (0, 1024)), (5, (0, 64))] }
  load := { st := .running, header := (7#2048 <<< 16) ||| (4#2048 <<< 256) ||| (1#2048 <<< 512) ||| (1#2048 <<< 528) ||| (1#2048 <<< 544) |||
    (1#2048 <<< 560) ||| (9#2048 <<< 576) }
  course := { inCourse := true, start := 49152 }

/-- Core 0 with the descriptor of a mapped collective of one block (128 words from 0, to word 128) on channel 5, whose record names axis 0. Its map
is word 1,000, which the code cannot correct. -/
def mappedState : State :=
  { State.reset with
    tens := [(0, mappedJob)]
    cores := { State.reset.cores with
      desc := [(0, { kind := 2, data := (128#512 <<< 6) ||| (15#512 <<< 30) ||| (15#512 <<< 34) ||| (1000#512 <<< 237) ||| (4096#512 <<< 320) })]
      cs := memPut State.reset.cores.cs (csKey 0 1000) ⟨0, 5⟩ }
    time := { State.reset.time with tally := 49252, pll := .freeRun, lastCourse := some 3 }
    fabric := { State.reset.fabric with
      axes := 2
      records := [(5, (1#128 <<< 6) ||| (4#128 <<< 8) ||| (2#128 <<< 16) ||| (2#128 <<< 24) ||| (2#128 <<< 60) ||| (1#128 <<< 70))] } }

/-- Whether a check passes. -/
def passed {α : Type} : Res α → Bool
  | .ok _ => true
  | .error _ => false

theorem passed_ok {α : Type} {r : Res α} (h : passed r = true) : ∃ a, r = .ok a := by
  cases r with
  | ok a => exact ⟨a, rfl⟩
  | error e => cases h

/-- Where the map's word lies. -/
def mapPlace : Bank × Nat := (.cs, csKey 0 1000)

theorem mapped_passes : passed (fcollPlan 0 5 0 1 0 mappedState) = true := by decide +kernel

/-- The read of a core store's word that the code cannot correct leaves its poisoned form. -/
theorem rawAt_noteRead_uncorr (s : State) (c : Core) (a : Nat) (hc : (decodeWord (rawWord s (.cs c) a)).corrected = false)
    (hu : (decodeWord (rawWord s (.cs c) a)).uncorr = true) :
    rawAt (s.noteRead (.cs c) a) (place (.cs c) a) = (decodeWord (rawWord s (.cs c) a)).w := by
  unfold State.noteRead
  dsimp only
  rw [if_neg (by rw [hc]; decide), if_pos hu]
  split <;> exact (memGet_memPut _ _ _ _).trans (if_pos rfl)

/-- The last of some reads leaves the poisoned form of a word that the code cannot correct and no other of them reads. -/
theorem rawAt_noteReads_uncorr (s : State) (c : Core) (as : List Nat) (a : Nat) (hn : place (.cs c) a ∉ as.map (place (.cs c)))
    (hc : (decodeWord (rawWord s (.cs c) a)).corrected = false) (hu : (decodeWord (rawWord s (.cs c) a)).uncorr = true) :
    rawAt (s.noteReads (.cs c) (as ++ [a])) (place (.cs c) a) = (decodeWord (rawWord s (.cs c) a)).w := by
  have hr : rawWord (s.noteReads (.cs c) as) (.cs c) a = rawWord s (.cs c) a :=
    (touches_noteReads s (.cs c) as (place (.cs c) a) (by simp)).resolve_right fun h => hn h.1
  have he : s.noteReads (.cs c) (as ++ [a]) = (s.noteReads (.cs c) as).noteRead (.cs c) a := List.foldl_append ..
  rw [he, rawAt_noteRead_uncorr _ c a (by rw [hr]; exact hc) (by rw [hr]; exact hu), hr]

/-- A collective's beginning leaves its core's store as its reads do. -/
theorem fcollRun_store (c : Core) (ch : Nat) (k : Coll) (s : State) :
    (fcollRun c ch k s s).cores.cs =
      ((s.checkCrc s c (.cs c) k.src k.count).noteReads (.cs c) ((upTo k.count).map (k.src + ·) ++ k.anchorWords)).cores.cs :=
  (State.takeEarly_keeps (vs := [.tens, .counters, .fabric, .mgmt, .power, .upsets])
    (State.startPass_keeps (Keeps.refl _ _) (by decide)) (by decide)).eq_cs

/-- The source of a mapped collective is where its descriptor says, and so apart from its map. -/
theorem mapped_apart {k : Coll} (hk : fcollPlan 0 5 0 1 0 mappedState = .ok k) :
    mapPlace ∉ ((upTo k.count).map (k.src + ·)).map (place (.cs 0)) := by
  have h : (match fcollPlan 0 5 0 1 0 mappedState with
    | .ok k => ((upTo k.count).map (k.src + ·)).map (place (.cs 0))
    | .error _ => []).contains mapPlace = false := by decide +kernel
  rw [hk] at h
  exact fun hm => absurd (List.contains_iff_mem.mpr hm) (by rw [h]; decide)

theorem mapped_words {k : Coll} (hk : fcollPlan 0 5 0 1 0 mappedState = .ok k) : k.anchorWords = [1000] := by
  have h : (match fcollPlan 0 5 0 1 0 mappedState with
    | .ok k => k.anchorWords
    | .error _ => []) = [1000] := by decide +kernel
  rw [hk] at h
  exact h

/-- The read of the map's word leaves its poisoned form. -/
theorem mapped_poisons {k : Coll} {t : State} (hk : fcollPlan 0 5 0 1 0 mappedState = .ok k) (ht : fcollRun 0 5 k mappedState mappedState = t) :
    rawAt t mapPlace = ⟨0, poisonSyn⟩ := by
  have hs : (mappedState.checkCrc mappedState 0 (.cs 0) k.src k.count).cores.cs = mappedState.cores.cs :=
    (State.checkCrc_keeps (vs := [.counters, .mgmt]) (Keeps.refl _ _) (by decide)).eq_cs
  have hr : rawWord (mappedState.checkCrc mappedState 0 (.cs 0) k.src k.count) (.cs 0) 1000 = ⟨0, 5⟩ :=
    (congrArg (fun m => memGet m (csKey 0 1000)) hs).trans (by decide +kernel)
  have hp := rawAt_noteReads_uncorr (mappedState.checkCrc mappedState 0 (.cs 0) k.src k.count) 0 ((upTo k.count).map (k.src + ·)) 1000
    (mapped_apart hk) (by rw [hr]; decide +kernel) (by rw [hr]; decide +kernel)
  rw [← mapped_words hk, hr] at hp
  rw [← ht]
  exact ((congrArg (fun m => memGet m (csKey 0 1000)) (fcollRun_store 0 5 k mappedState)).trans hp).trans (by decide +kernel)

/-- A collective whose checks pass begins. -/
theorem exec_fcoll {c : Core} {chan : Chan} {axis : BitVec 2} {op : BitVec 4} {desc : BitVec 10} {s : State} {k : Coll} (hi : issues s c = true)
    (hk : fcollPlan c chan axis op desc s = .ok k) : exec (.fcoll c chan axis op desc) s = .next (fcollRun c chan.toNat k s s) :=
  congrArg Host.Outcome.next (slotOp_ok hi (by unfold fcollAct; rw [hk]; rfl))

/-- Words of which none is written, and that no read settles, stand. -/
theorem Writes.stands {rs : List (Bank × Nat)} {s t : State} (h : Writes [] rs s t) {p : Bank × Nat} (hp : p ∉ rs) : rawAt t p = rawAt s p := by
  obtain ⟨w, hw, he⟩ := h p
  have hw' : w = rawAt s p := hw.resolve_right fun h => hp h.1
  exact (congrArg Prod.fst he).trans hw'

/-- Refutes O27: a mapped collective reads the words of its map beside its source words, and leaves one of them that the code cannot correct in
its poisoned form. -/
theorem not_collectiveBegins : ¬ Obligations.CollectiveBegins := by
  unfold Obligations.CollectiveBegins
  intro h
  obtain ⟨k, hk⟩ := passed_ok mapped_passes
  obtain ⟨t, ht, -, -, hw, -⟩ := h 0 5 0 1 0 mappedState k (by decide +kernel) hk (by decide +kernel)
  have ht' : fcollRun 0 5 k mappedState mappedState = t := Host.Outcome.next.inj ((exec_fcoll (by decide +kernel) hk).symm.trans ht)
  have hs : rawAt t mapPlace = rawAt mappedState mapPlace := Writes.stands hw (mapped_apart hk)
  exact absurd ((mapped_poisons hk ht').symm.trans hs) (by decide +kernel)

end Sys2Proof.Machine
end

section
/-! SUPPORT. The end of a collective: its results, its second pass, and a pass of the ledger merge (14 R368, R373, R378, R382, R384). -/

namespace Sys2Proof.Machine

open Sys2Proof Sys2Proof.Claims

set_option Elab.async false

/-! ### What the sends of a pass leave -/

theorem sendPart_counts (s : State) (t ch : Nat) (k : Coll) (gather : Bool) (step b i rel : Nat) :
    CountsIn onPort s (s.sendPart t ch k gather step b i rel) := push_counts _ _ _ _ _

theorem sendPart_hears (s : State) (t ch : Nat) (k : Coll) (gather : Bool) (step b i rel : Nat) : Hears s (s.sendPart t ch k gather step b i rel) :=
  push_hears _ _ _ _ _

theorem gatherOn_counts (s : State) (t ch : Nat) (k : Coll) (b i lev : Nat) : CountsIn onPort s (s.gatherOn t ch k b i lev) := by
  unfold State.gatherOn
  refine .ite (.refl s) (.ite (.foldl (.refl s) fun v j => .ite (sendPart_counts _ _ _ _ _ _ _ _ _) (.refl v)) (.ite (.refl s) (sendPart_counts _ _ _ _ _ _ _ _ _)))

theorem gatherOn_hears (s : State) (t ch : Nat) (k : Coll) (b i lev : Nat) : Hears s (s.gatherOn t ch k b i lev) := by
  unfold State.gatherOn
  refine .ite (.refl s) (.ite (.foldl (.refl s) fun v j => .ite (sendPart_hears ..) (.refl v)) (.ite (.refl s) (sendPart_hears ..)))

/-- What holds of the first of two pairs holds of the first of the pair that a case takes. -/
theorem rel_ite_fst {α β : Type} {R : α → Prop} {c : Prop} [Decidable c] {x y : α × β} (hx : R x.1) (hy : R y.1) : R (if c then x else y).1 := by
  split <;> assumption

/-- A parcel that goes on, or is complete, sends on no more than parcels. -/
theorem reduceOn_sends {R : State → State → Prop} (hr : ∀ s, R s s) (s : State) (t ch : Nat) (k : Coll) (b i : Nat)
    (hg : ∀ k', R s (s.gatherOn t ch k' b i 0)) (hs : ∀ gather step rel, R s (s.sendPart t ch k gather step b i rel)) :
    R s (s.reduceOn t ch k b i).1 := by
  unfold State.reduceOn
  dsimp only
  refine rel_ite_fst (rel_ite_fst (hg _) (hr s)) (rel_ite_fst ?_ ?_)
  all_goals
    dsimp only
    split
    · exact hs _ _ _
    · exact hr s

theorem reduceOn_counts (s : State) (t ch : Nat) (k : Coll) (b i : Nat) : CountsIn onPort s (s.reduceOn t ch k b i).1 :=
  reduceOn_sends .refl s t ch k b i (fun _ => gatherOn_counts _ _ _ _ _ _ _) fun _ _ _ => sendPart_counts _ _ _ _ _ _ _ _ _

theorem reduceOn_hears (s : State) (t ch : Nat) (k : Coll) (b i : Nat) : Hears s (s.reduceOn t ch k b i).1 :=
  reduceOn_sends .refl s t ch k b i (fun _ => gatherOn_hears ..) fun _ _ _ => sendPart_hears ..

/-- A parcel that goes on changes no more of its collective than the parcels it knows. -/
theorem reduceOn_known (s : State) (t ch : Nat) (k : Coll) (b i : Nat) : ∃ ks, (s.reduceOn t ch k b i).2 = { k with known := ks } := by
  unfold State.reduceOn
  dsimp only
  repeat' split
  all_goals exact ⟨_, rfl⟩

/-- The parcels of a pass, one after another, with a relation that holds from one state to the next. -/
theorem foldl_reduceOn {R : State → State → Prop} (hr : ∀ s, R s s) (ht : ∀ {s t u}, R s t → R t u → R s u) (t ch : Nat)
    (h : ∀ (s : State) (k : Coll) (b i : Nat), R s (s.reduceOn t ch k b i).1) (keys : List (Nat × Nat)) (s : State) (k : Coll) :
    R s (keys.foldl (fun (u : State × Coll) (x : Nat × Nat) => u.1.reduceOn t ch u.2 x.1 x.2) (s, k)).1 ∧
    ∃ ks, (keys.foldl (fun (u : State × Coll) (x : Nat × Nat) => u.1.reduceOn t ch u.2 x.1 x.2) (s, k)).2 = { k with known := ks } := by
  induction keys generalizing s k with
  | nil => exact ⟨hr s, k.known, rfl⟩
  | cons x xs ih =>
    obtain ⟨h1, ks, h2⟩ := ih (s.reduceOn t ch k x.1 x.2).1 (s.reduceOn t ch k x.1 x.2).2
    obtain ⟨ks1, h3⟩ := reduceOn_known s t ch k x.1 x.2
    exact ⟨ht (h s k x.1 x.2) h1, ks, h2.trans (by rw [h3])⟩

/-- A pass of a reduction begun: its collective stands, but for the parcels it knows, and no more is counted than frames sent. -/
theorem startPass_reduces (s : State) (t ch : Nat) (k : Coll) (h : k.op ≠ 2) :
    (∃ ks, collOf (s.startPass t ch k) t ch = some { k with known := ks }) ∧ CountsIn onPort s (s.startPass t ch k) ∧ Hears s (s.startPass t ch k) := by
  unfold State.startPass
  dsimp only
  rw [if_neg h]
  obtain ⟨h1, ks, h2⟩ := foldl_reduceOn (R := CountsIn onPort) .refl CountsIn.trans t ch (fun s k b i => reduceOn_counts s t ch k b i)
    ((upTo k.blocks).flatMap (fun b => (upTo k.nparts).map (fun i => (b, i)))) s k
  obtain ⟨h3, -⟩ := foldl_reduceOn (R := Hears) .refl Hears.trans t ch (fun s k b i => reduceOn_hears s t ch k b i)
    ((upTo k.blocks).flatMap (fun b => (upTo k.nparts).map (fun i => (b, i)))) s k
  exact ⟨⟨ks, (collOf_setColl _ _ _ _).trans (congrArg some h2)⟩, h1.trans (.of_eq rfl), h3.trans (.of_eq rfl rfl)⟩

/-- With no parcel held back there is none to take up. -/
theorem takeEarly_none {s : State} {t ch : Nat} (h : (chanOf s t ch).early = []) :
    s.takeEarly t ch = s.modChan t ch (fun c => { c with early := [] }) := by
  unfold State.takeEarly
  dsimp only
  rw [h]
  rfl

/-! ### The second pass -/

/-- What the filling of a collective with its own blocks leaves of its fields. -/
theorem fill_leaves (k : Coll) (blk : Nat → List MemWord) :
    ∃ ps rs ks, k.fill blk = { k with parts := ps, res := rs, known := ks } := by
  have go (l : List Nat) (f : Coll → Nat → Coll) (hf : ∀ k b, ∃ ps rs ks, f k b = { k with parts := ps, res := rs, known := ks }) (k : Coll) :
      ∃ ps rs ks, l.foldl f k = { k with parts := ps, res := rs, known := ks } := by
    induction l generalizing k with
    | nil => exact ⟨k.parts, k.res, k.known, rfl⟩
    | cons b l ih =>
      obtain ⟨ps, rs, ks, e⟩ := hf k b
      obtain ⟨ps', rs', ks', e'⟩ := ih (f k b)
      exact ⟨ps', rs', ks', e'.trans (by rw [e])⟩
  exact go _ _ (fun k b => ⟨_, _, _, rfl⟩) k

theorem redoPass_begins (s : State) (t ch : Nat) (k : Coll) (h0 : k.op = 0) (he : (chanOf s t ch).early = []) :
    (∃ k2, collOf (s.redoPass t ch k) t ch = some k2 ∧ k2.redo = true ∧ k2.width = 2 ∧ k2.pass0 = k.res ∧ k2.anchors0 = k.anchors ∧
      k2.number = k.number) ∧ counted s (s.redoPass t ch k) (tenOff t 0x2160) := by
  unfold State.redoPass
  dsimp only
  generalize hk : Coll.fill _ _ = k1
  obtain ⟨ps, rs, ks, e⟩ := fill_leaves _ _
  rw [e] at hk
  generalize hu : State.dayTen _ _ _ _ _ _ _ = u
  have hn : k1.op ≠ 2 := by rw [← hk]; show k.op ≠ 2; rw [h0]; decide
  obtain ⟨⟨ks', h1⟩, h2, h3⟩ := startPass_reduces u t ch k1 hn
  have hearly : (chanOf (u.startPass t ch k1) t ch).early = [] := (h3.early t ch).trans (by rw [← hu]; exact he)
  rw [takeEarly_none hearly]
  refine ⟨⟨_, h1, ?_⟩, ?_⟩
  · rw [← hk]
    exact ⟨rfl, rfl, rfl, rfl, rfl⟩
  · have hc : counted s u (tenOff t 0x2160) := by rw [← hu]; exact counted_count _ _
    refine counted.within hc (.refl (P := fun _ => False) s) (h2.trans (modChan_counts _ _ _ _)) (fun h => h) (not_onPort_tenOff _ _)

/-! ### Results -/

/-- The counters that stores count: the hallmarks a twin's records skip. -/
def onStore (o : Nat) : Prop := ∃ t, o = tenOff t 0x2190

theorem foldTwin_counts (s : State) (t : Nat) (h : BitVec 64) : CountsIn onStore s (s.foldTwin t h) := by
  unfold State.foldTwin
  refine .ite (.refl s) (.foldl (.refl s) fun u r => .ite (.ite (.count ⟨t, rfl⟩) (.of_eq rfl)) (.refl u))

theorem writeOut_cs_keeps (s : State) (t : Option Nat) (c : Core) (o : Out) : Keeps [.cs, .mbox, .words, .merges, .tens, .power] s (s.writeOut t (.cs c) o) := by
  have hw (u : State) (hu : Keeps [.cs, .mbox, .words, .merges, .tens, .power] s u) (w : MemWord) :
      Keeps [.cs, .mbox, .words, .merges, .tens, .power] s (u.writeWhole t (.cs c) o.a w) := by
    rw [writeWhole_cs]
    exact State.chargeCore_keeps (State.writeWord_keeps hu (by decide)) (by decide)
  unfold State.writeOut
  dsimp only
  split
  · contradiction
  · split
    · exact hw _ (State.setMerges_keeps (Keeps.refl _ _) (by decide)) _
    · exact State.setMerges_keeps (Keeps.refl _ _) (by decide)
  · split
    · exact State.setMerges_keeps (Keeps.refl _ _) (by decide)
    · exact hw s (Keeps.refl _ _) _

theorem writeOut_cs_counts {P : Nat → Prop} (s : State) (t : Option Nat) (c : Core) (o : Out) : CountsIn P s (s.writeOut t (.cs c) o) :=
  .of_keeps (vs := [.cs, .mbox, .words, .merges, .tens, .power]) (writeOut_cs_keeps s t c o)

theorem writeHallT_cs_counts (s : State) (t : Option Nat) (c : Core) (b : Nat) (h : BitVec 64) (ds : Option (List (BitVec 256))) :
    CountsIn onStore s (s.writeHallT t (.cs c) b h ds) := by
  unfold State.writeHallT
  split
  · exact .of_eq rfl
  · exact CountsIn.trans (.of_eq rfl) (foldTwin_counts _ _ _)

theorem emit_cs_counts (s : State) (c : Core) (fmt gen : Nat) (outs : List Out) : CountsIn onStore s (s.emit (.cs c) fmt gen outs) := by
  unfold State.emit State.emitWith
  dsimp only
  split
  · exact .refl s
  · exact .foldl (.foldl (.refl s) fun u o => writeOut_cs_counts u _ c o) fun u b => writeHallT_cs_counts u _ c b _ _

/-- The counters that a collective's results count beside its own: stores', and those of a clearing collective's blocks. -/
def onResults (n o : Nat) : Prop := onStore o ∨ o = tenOff n 0x2148 ∨ o = tenOff n 0x2150 ∨ o = tenOff n 0x2158

theorem not_onResults (n : Nat) : ¬ onResults n (tenOff n 0x2140) := by
  rintro (⟨t, h⟩ | h | h | h) <;> unfold tenOff at h <;> omega

/-- Words of a core's store written in turn count nothing. -/
theorem foldl_writeWord_counts {α : Type} {P : Nat → Prop} (l : List α) (sp : Space) (a : State → α → Nat) (w : State → α → MemWord) (s : State) :
    CountsIn P s (l.foldl (fun u x => u.writeWord sp (a u x) (w u x)) s) :=
  .foldl (.refl s) fun u x => .of_keeps (vs := [.cs, .mbox, .words]) (State.writeWord_keeps (Keeps.refl _ _) (by decide))

theorem writeResults_counted (s : State) (t ch : Nat) (k : Coll) : counted s (s.writeResults t ch k) (tenOff t 0x2140) := by
  unfold State.writeResults
  dsimp only
  refine counted.within (counted_count _ _) (P := onResults t) (Q := fun _ => False) ?_ (.of_eq rfl) (not_onResults t) (fun h => h)
  have h1 : CountsIn (onResults t) s (s.emit (.cs k.core) (bitsN k.desc 37 34) (bitsN k.desc 90 75) k.outs) :=
    (emit_cs_counts s _ _ _ _).mono fun _ => .inl
  refine .ite (h1.trans ?_) h1
  have hlog (u : State) : CountsIn (onResults t) u (u.clearLog t ch k) := by
    unfold State.clearLog
    split <;> exact .of_eq rfl
  refine CountsIn.trans (CountsIn.trans (CountsIn.trans (CountsIn.trans (CountsIn.trans (t := (s.emit (.cs k.core) (bitsN k.desc 37 34)
    (bitsN k.desc 90 75) k.outs).scatterWork k) ?_ ?_) (.count (.inr (.inl rfl))))
    (.count (.inr (.inr (.inl rfl))))) (.count (.inr (.inr (.inr rfl))))) (hlog _)
  · exact (foldl_writeWord_counts (upTo k.count) _ _ _ _).trans (.of_eq rfl)
  · exact foldl_writeWord_counts (upTo k.blocks) _ _ _ _

/-- Of another operation than a clearing one the results' words are those written. -/
theorem writeResults_writes (s : State) (t ch : Nat) {k : Coll} (h : k.op ≠ 0) :
    Writes (inSpace (.cs k.core) k.outs) [] s (s.writeResults t ch k) := by
  unfold State.writeResults
  dsimp only
  rw [if_neg h]
  refine (writes_emit s (sp := .cs k.core) trivial (bitsN k.desc 37 34) (bitsN k.desc 90 75) k.outs).of_keeps (vs := [.counters, .fabric]) ?_
  exact Keeps.upd (State.countTen_keeps (Keeps.refl _ _) (by decide)) rfl rfl (.inl rfl) (.inl rfl) (.inl rfl) (.inl rfl) (.inl rfl) (.inl rfl)
    (.inr (by decide)) (.inl rfl) (.inl rfl) (.inl rfl) (.inl rfl) (.inl rfl) (.inl rfl)

/-- The words of a collective's end are waited for no more. -/
def State.endsColl (s : State) (t ch : Nat) : State :=
  { s with fabric := { s.fabric with colls := del s.fabric.colls (chanKey t ch) } }.endStall t
    (fun x => match x with | .coll _ n => decide (n.toNat = ch) | _ => false)

theorem completeColl_unwaited (s : State) (t ch : Nat) {k : Coll} (h : k.waitFrom = none) : s.completeColl t ch k = s.writeResults t ch k := by
  unfold State.completeColl
  rw [h]

theorem completeColl_waited (s : State) (t ch : Nat) {k : Coll} {a : Nat} (h : k.waitFrom = some a) :
    s.completeColl t ch k = (s.writeResults t ch k).endsColl t ch := by
  unfold State.completeColl
  rw [h]
  rfl

theorem endsColl_keeps (s : State) (t ch : Nat) : Keeps [.fabric, .tens] s (s.endsColl t ch) := by
  refine State.endStall_keeps ?_ (by decide)
  exact Keeps.upd (Keeps.refl _ _) rfl rfl (.inl rfl) (.inl rfl) (.inl rfl) (.inl rfl) (.inl rfl) (.inl rfl)
    (.inr (by decide)) (.inl rfl) (.inl rfl) (.inl rfl) (.inl rfl) (.inl rfl) (.inl rfl)

theorem completeColl_ends (s : State) (t ch : Nat) (k : Coll) :
    collOf (s.completeColl t ch k) t ch = (if k.waitFrom = none then some { k with done := true } else none) ∧
    counted s (s.completeColl t ch k) (tenOff t 0x2140) ∧ (k.op ≠ 0 → Writes (inSpace (.cs k.core) k.outs) [] s (s.completeColl t ch k)) := by
  have hc := writeResults_counted s t ch k
  rcases Option.eq_none_or_eq_some k.waitFrom with hw | ⟨a, hw⟩
  · rw [completeColl_unwaited s t ch hw, if_pos hw]
    exact ⟨collOf_setColl _ _ _ _, hc, writeResults_writes s t ch⟩
  · rw [completeColl_waited s t ch hw, if_neg (by rw [hw]; simp)]
    exact ⟨find_del _ _, counted.within hc (.refl (P := fun _ => False) s) (.of_keeps (endsColl_keeps _ _ _)) (fun h => h)
      (Q := fun _ => False) (fun h => h), fun h => (writeResults_writes s t ch h).of_keeps (endsColl_keeps _ _ _)⟩

/-! ### The ledger merge -/

/-- With no pass left the merge is done. -/
theorem mergePass_ends {s : State} {t : Nat} (h : (s.ten t).close.passes = []) :
    s.mergePass t = s.modTen t (fun n => { n with close := { n.close with merged := true } }) := by
  unfold State.mergePass
  rw [h]

/-- Ledger entries written in turn: no other part changes, and of the ledger no entry that none of them names. -/
theorem foldl_ledger {α : Type} (v : State → Nat × α → Cell64) (xs : List (Nat × α)) (s : State) :
    Keeps [.stores] s (xs.foldl (fun u x => { u with stores := { u.stores with ledger := put {} u.stores.ledger x.1 (v u x) } }) s) ∧
    ∀ e, e ∉ xs.map (·.1) →
      look (xs.foldl (fun u x => { u with stores := { u.stores with ledger := put {} u.stores.ledger x.1 (v u x) } }) s).stores.ledger {} e
        = look s.stores.ledger {} e := by
  induction xs generalizing s with
  | nil => exact ⟨Keeps.refl _ _, fun _ _ => rfl⟩
  | cons x xs ih =>
    obtain ⟨hk, hl⟩ := ih { s with stores := { s.stores with ledger := put {} s.stores.ledger x.1 (v s x) } }
    refine ⟨Keeps.trans ?_ hk, fun e he => (hl e fun h => he (.tail _ h)).trans (look_put_ne _ _ _ fun h => he (h ▸ .head _))⟩
    exact Keeps.upd (Keeps.refl _ _) rfl rfl (.inl rfl) (.inl rfl) (.inr (by decide)) (.inl rfl) (.inl rfl) (.inl rfl) (.inl rfl) (.inl rfl)
      (.inl rfl) (.inl rfl) (.inl rfl) (.inl rfl) (.inl rfl)

/-- What the end of a merge pass leaves, once its entries are written back, before the next pass. -/
def State.passEnds (s : State) (t : Nat) : State :=
  let s2 := s.countTen t 0x2140 1
  let s3 := { s2 with fabric := { s2.fabric with colls := del s2.fabric.colls (chanKey t 4094) } }
  s3.modTen t (fun n => { n with close := { n.close with passes := n.close.passes.drop 1 } })

theorem passEnds_close (s : State) (t : Nat) :
    ((s.passEnds t).ten t).close = { (s.ten t).close with passes := (s.ten t).close.passes.drop 1 } := by
  unfold State.passEnds
  dsimp only
  rw [State.ten_modTen]
  rfl

theorem passEnds_keeps (s : State) (t : Nat) : Keeps [.tens, .counters, .fabric] s (s.passEnds t) := by
  unfold State.passEnds
  refine State.modTen_keeps ?_ (by decide)
  exact Keeps.upd (State.countTen_keeps (Keeps.refl _ _) (by decide)) rfl rfl (.inl rfl) (.inl rfl) (.inl rfl) (.inl rfl) (.inl rfl) (.inl rfl)
    (.inr (by decide)) (.inl rfl) (.inl rfl) (.inl rfl) (.inl rfl) (.inl rfl) (.inl rfl)

theorem passEnds_counted (s : State) (t : Nat) : counted s (s.passEnds t) (tenOff t 0x2140) := counted_count s _

/-- A pass ended is its entries written back, then its end, then the next pass. -/
theorem mergeDone_eq (s : State) (t : Nat) (k : Coll) : ∃ s1, Keeps [.stores] s s1 ∧
    (∀ e, e ∉ k.entries → look s1.stores.ledger {} e = look s.stores.ledger {} e) ∧ s.mergeDone t k = (s1.passEnds t).mergePass t := by
  unfold State.mergeDone
  dsimp only
  obtain ⟨hk, hl⟩ := foldl_ledger (α := Nat × Bool) (fun u x => ⟨((look u.stores.ledger {} x.1).data &&& ~~~0x0A00_FF00_0000_FF00#64) |||
    BitVec.ofNat 64 x.2.1, if x.2.2 then .bad else (look u.stores.ledger {} x.1).err⟩) (k.entries.zip ((upTo k.blocks).flatMap
      (fun b => (k.blockWords b).flatMap (fun w => (upTo 4).map (fun i => (elemOf 64 i w.data, isPoisoned w)))))) s
  refine ⟨_, hk, fun e he => hl e fun h => he ?_, rfl⟩
  obtain ⟨⟨a, b⟩, hab, rfl⟩ := List.mem_map.mp h
  exact (List.of_mem_zip hab).1

/-- The last pass of a close's ledger merge ends the merge; entries that it does not merge stand. -/
theorem mergeDone_last {s : State} {t : Nat} {k : Coll} {ax : BitVec 2} (hp : (s.ten t).close.passes = [ax]) :
    collOf (s.mergeDone t k) t 4094 = none ∧ ((s.mergeDone t k).ten t).close = { (s.ten t).close with merged := true, passes := [] } ∧
    counted s (s.mergeDone t k) (tenOff t 0x2140) ∧
    (∀ e, e ∉ k.entries → look (s.mergeDone t k).stores.ledger {} e = look s.stores.ledger {} e) ∧
    Keeps [.stores, .tens, .counters, .fabric] s (s.mergeDone t k) := by
  obtain ⟨s1, hk, hl, he⟩ := mergeDone_eq s t k
  have hc := passEnds_close s1 t
  rw [hk.ten_eq t, hp] at hc
  rw [he, mergePass_ends (congrArg Close.passes hc)]
  have hs := passEnds_keeps s1 t
  refine ⟨find_del _ _, ?_, counted.within (passEnds_counted s1 t) (.of_keeps (P := fun _ => False) hk) (.of_eq (P := fun _ => False) rfl)
    (fun h => h) (fun h => h), fun e h => ?_, ?_⟩
  · rw [State.ten_modTen]
    dsimp only
    rw [hc]
    rfl
  · exact (congrArg (fun x => look x.ledger {} e) (hs.eq_stores)).trans (hl e h)
  · exact State.modTen_keeps ((hk.mono (by decide)).trans (hs.mono (by decide))) (by decide)

/-! ### The obligation -/

/-- A collective that is not there, is not ready or is done does nothing. -/
theorem exec_collectiveComplete_not {n : Ten} {chan : Chan} {s : State}
    (h : ∀ k, collOf s n.val chan.toNat = some k → k.ready = false ∨ k.done = true) : exec (.collectiveComplete n chan) s = .next s := by
  change execCollectiveComplete n chan s = _
  unfold execCollectiveComplete
  dsimp only
  split
  · rfl
  · next k hk => rw [if_pos (by rcases h k hk with h | h <;> rw [h] <;> simp)]

section ready

variable {n : Ten} {chan : Chan} {s : State} {k : Coll}

/-- What a collective that is ready does. -/
theorem exec_collectiveComplete_ready (hk : collOf s n.val chan.toNat = some k) (hr : k.ready = true) (hd : k.done = false) :
    exec (.collectiveComplete n chan) s = .next (if chan.toNat = 4094 then (s.mergeDone n.val k).tryTake n.val
      else if k.op = 0 && k.cautious && !k.redo && (upTo k.blocks).any (fun b => (look k.res {} b).ovf) then s.redoPass n.val chan.toNat k
      else s.completeColl n.val chan.toNat k) := by
  change execCollectiveComplete n chan s = _
  unfold execCollectiveComplete
  dsimp only
  rw [hk]
  dsimp only
  rw [if_neg (by rw [hr, hd]; decide)]
  split
  · rfl
  · split <;> rfl

end ready

theorem mergePassCompletes_holds : mergePassCompletes := by
  intro n s k ax hk hr hd hp hdue
  obtain ⟨h1, h2, h3, h4, h5⟩ := mergeDone_last (k := k) hp
  have ht : (s.mergeDone n.val k).tryTake n.val = s.mergeDone n.val k := tryTake_none (by rw [h2]; exact hdue)
  refine ⟨s.mergeDone n.val k, (exec_collectiveComplete_ready (chan := 4094) hk hr hd).trans ?_, h1, by rw [h2], by rw [h2], h3, h4, h5⟩
  rw [if_pos (show (4094 : Chan).toNat = 4094 from rfl), ht]

/-- Settles O28: the results and the second pass follow the parcels that the pass's sends leave of the channel; the last pass of the ledger
merge finds no other left. -/
theorem collectiveCompletes : Obligations.CollectiveCompletes := by
  unfold Obligations.CollectiveCompletes
  refine ⟨fun n chan s hch => ⟨fun k hk hr hd => ⟨fun hredo => ?_, fun hredo he => ?_⟩, exec_collectiveComplete_not⟩, mergePassCompletes_holds⟩
  · obtain ⟨h1, h2, h3⟩ := completeColl_ends s n.val chan.toNat k
    refine ⟨_, (exec_collectiveComplete_ready hk hr hd).trans ?_, h3, h1, h2, State.completeColl_keeps (Keeps.refl _ _) (by decide)⟩
    rw [if_neg hch, if_neg (fun h => hredo (by simpa [and_assoc] using h))]
  · obtain ⟨h1, h2⟩ := redoPass_begins s n.val chan.toNat k hredo.1 he
    refine ⟨_, (exec_collectiveComplete_ready hk hr hd).trans ?_, h1, h2, State.redoPass_keeps (Keeps.refl _ _) (by decide)⟩
    rw [if_neg hch, if_pos (by simpa [and_assoc] using hredo)]

end Sys2Proof.Machine
end

section
/-! SUPPORT. Copies of pages for escrow: how a tenancy's generations grow, and what the end of a copy leaves (16 R429 to R431, R438, R440). -/

namespace Sys2Proof.Machine

open Sys2Proof Sys2Proof.Claims

set_option Elab.async false

/-! ### How generations grow -/

/-- A generation that has come on: the same, with no page sealed again and its state pages not taken back. -/
def Generation.grows (a b : Generation) : Prop :=
  b.step = a.step ∧ (a.stateDone = true → b.stateDone = true) ∧ ∀ m, a.sealedPage m = false → b.sealedPage m = false

theorem Generation.grows.refl (g : Generation) : g.grows g := ⟨rfl, id, fun _ => id⟩

theorem Generation.grows.trans {a b c : Generation} (h : a.grows b) (k : b.grows c) : a.grows c :=
  ⟨k.1.trans h.1, fun x => k.2.1 (h.2.1 x), fun m x => k.2.2 m (h.2.2 m x)⟩

/-- A tenancy with other generations. -/
def Tenancy.withGens (n : Tenancy) (gs : List Generation) : Tenancy := { n with escrow := { n.escrow with gens := gs } }

/-- A tenancy changes in no more than its generations, and each of them comes on. -/
def Grows (t : Nat) (s u : State) : Prop :=
  ∃ gs, u.ten t = (s.ten t).withGens gs ∧ List.Forall₂ Generation.grows (s.ten t).escrow.gens gs

section Grows

variable {t : Nat} {s u v : State}

theorem Grows.refl (t : Nat) (s : State) : Grows t s s := ⟨_, rfl, List.forall₂_same.mpr fun g _ => .refl g⟩

theorem Grows.of_ten (h : u.ten t = s.ten t) : Grows t s u := ⟨_, h.trans rfl, List.forall₂_same.mpr fun g _ => .refl g⟩

theorem Grows.of_keeps {vs : List View} (k : Keeps vs s u) (h : View.tens ∉ vs := by decide) : Grows t s u := .of_ten (k.ten_eq t h)

theorem forall₂_grows_trans {l m n : List Generation} (h : List.Forall₂ Generation.grows l m) (k : List.Forall₂ Generation.grows m n) :
    List.Forall₂ Generation.grows l n := by
  induction h generalizing n with
  | nil => exact k
  | cons h _ ih =>
    cases k with
    | cons k ks => exact .cons (h.trans k) (ih ks)

theorem Grows.trans (h : Grows t s u) (k : Grows t u v) : Grows t s v := by
  obtain ⟨gs, e, hg⟩ := h
  obtain ⟨gs', e', hg'⟩ := k
  rw [e] at e' hg'
  exact ⟨gs', e', forall₂_grows_trans hg hg'⟩

/-- A generation comes from one that was there. -/
theorem Grows.comes (h : Grows t s u) {g : Generation} (hg : g ∈ (u.ten t).escrow.gens) : ∃ a ∈ (s.ten t).escrow.gens, a.grows g := by
  obtain ⟨gs, e, hs⟩ := h
  rw [e] at hg
  obtain ⟨i, hi, rfl⟩ := List.getElem_of_mem hg
  have hl := hs.length_eq
  exact ⟨(s.ten t).escrow.gens[i]'(hl ▸ hi), List.getElem_mem _, hs.get _ hi⟩

theorem find_forall₂_grows {l m : List Generation} (h : List.Forall₂ Generation.grows l m) (x : BitVec 32) {g : Generation}
    (hg : l.find? (fun g => g.step = x) = some g) : ∃ g2, m.find? (fun g => g.step = x) = some g2 ∧ g.grows g2 := by
  induction h with
  | nil => cases hg
  | @cons a b _ _ hab _ ih =>
    by_cases e : a.step = x
    · rw [List.find?_cons_of_pos (by simpa using e)] at hg
      exact ⟨b, List.find?_cons_of_pos (by simpa using hab.1.trans e), Option.some.inj hg ▸ hab⟩
    · rw [List.find?_cons_of_neg (by simpa using e)] at hg
      rw [List.find?_cons_of_neg (by simpa [hab.1] using e)]
      exact ih hg

/-- The generation of a step is still there, come on. -/
theorem Grows.genOf (h : Grows t s u) {x : BitVec 32} {g : Generation} (hg : genOf s t x = some g) : ∃ g2, Machine.genOf u t x = some g2 ∧ g.grows g2 := by
  obtain ⟨gs, e, hs⟩ := h
  unfold Machine.genOf at *
  rw [e]
  exact find_forall₂_grows hs x hg

/-- Steps of which each comes on with all generations, and leaves what it holds of them, hold in the end what each of them holds. -/
theorem Grows.foldl {α : Type} {f : State → α → State} {P : α → Generation → Prop} (hP : ∀ x a b, Generation.grows a b → P x a → P x b)
    (hf : ∀ s x, Grows t s (f s x) ∧ ∀ g ∈ ((f s x).ten t).escrow.gens, P x g) (l : List α) (s : State) :
    Grows t s (l.foldl f s) ∧ ∀ x ∈ l, ∀ g ∈ ((l.foldl f s).ten t).escrow.gens, P x g := by
  induction l generalizing s with
  | nil => exact ⟨.refl t s, fun _ h => absurd h (List.not_mem_nil)⟩
  | cons x xs ih =>
    obtain ⟨h1, h2⟩ := ih (f s x)
    refine ⟨(hf s x).1.trans h1, fun y hy g hg => ?_⟩
    rcases List.mem_cons.mp hy with rfl | hy
    · obtain ⟨a, ha, hag⟩ := h1.comes hg
      exact hP _ _ _ hag ((hf s y).2 a ha)
    · exact h2 y hy g hg

end Grows

/-! ### Pages copied -/

theorem modGen_ten (s : State) (t : Nat) (x : BitVec 32) (f : Generation → Generation) :
    (s.modGen t x f).ten t = (s.ten t).withGens ((s.ten t).escrow.gens.map (fun g => if g.step = x then f g else g)) :=
  State.ten_modTen _ _ _

theorem modGen_grows (s : State) (t : Nat) (x : BitVec 32) {f : Generation → Generation} (hf : ∀ g : Generation, g.grows (f g)) :
    Grows t s (s.modGen t x f) := by
  refine ⟨_, modGen_ten s t x f, ?_⟩
  rw [List.forall₂_map_right_iff, List.forall₂_same]
  intro g _
  split
  · exact hf g
  · exact .refl g

theorem finishGen_grows (s : State) (t : Nat) (x : BitVec 32) : Grows t s (s.finishGen t x) := by
  unfold State.finishGen
  split
  · exact .refl t s
  · dsimp only
    split
    · exact .refl t s
    · refine Grows.trans ?_ (modGen_grows _ t x fun g => ⟨rfl, id, fun _ => id⟩)
      exact .of_keeps (vs := [.cs, .mbox, .hall, .words]) (Keeps.foldl (Keeps.refl _ _) fun u b k => State.writePlainBlock_keeps k (by decide))

/-- A page set to a state is sealed no more, and no other page is sealed again. -/
theorem sealedPage_set (g : Generation) (m : Nat) (st : PageSt) : g.grows { g with pages := set g.pages m st } ∧
    ({ g with pages := set g.pages m st } : Generation).sealedPage m = false := by
  have h : ({ g with pages := set g.pages m st } : Generation).sealedPage m = false := by
    unfold Generation.sealedPage
    rw [find_set]
    rfl
  refine ⟨⟨rfl, id, fun i hi => ?_⟩, h⟩
  by_cases e : i = m
  · rw [e]; exact h
  · unfold Generation.sealedPage at *
    rw [find_set_ne _ _ e]
    exact hi

/-- A page marked copied is sealed for its generation no more. -/
theorem markCopied_grows (s : State) (t : Nat) (x : BitVec 32) (m : Nat) : Grows t s (s.markCopied t x m) ∧
    ∀ g ∈ ((s.markCopied t x m).ten t).escrow.gens, g.step = x → g.sealedPage m = false := by
  unfold State.markCopied
  dsimp only
  have hf := finishGen_grows (s.modGen t x fun g => { g with pages := set g.pages m (if striped s t then .copied else .protected_) }) t x
  refine ⟨(modGen_grows s t x fun g => (sealedPage_set g m _).1).trans hf, fun g hg hx => ?_⟩
  obtain ⟨a, ha, hag⟩ := hf.comes hg
  rw [modGen_ten] at ha
  obtain ⟨b, -, rfl⟩ := List.mem_map.mp ha
  refine hag.2.2 m ?_
  split
  · exact (sealedPage_set b m _).2
  · next h => rw [if_neg h] at hag; exact absurd (hag.1.symm.trans hx) h

/-! ### The end of a copy -/

section copyDone

variable (s : State) (t st m cause : Nat) (steps : List (BitVec 32)) (k : Nat)

/-- The copies of a page that stand for a generation that is kept. -/
def liveSteps : List (BitVec 32) := steps.filter (fun x => (genOf s t x).isSome)

/-- A page written to the slots of the generations that it is copied for. -/
def State.copied : State :=
  (liveSteps s t steps).foldl (fun (u : State) x => match genOf u t x with
    | some g => (u.writePage (slotPageKey u t g.slot m) (readPage s k)).markCopied t x m
    | none => u) (s.chargePages t st 1 1 (liveSteps s t steps).length)

/-- A copy counted by its cause, and its stack free of it. -/
def State.copyEnds : State :=
  (if cause = 0 then s.countTen t 0x2208 1 else if cause = 1 then s.countTen t 0x2210 1 else s).modTen t
    (fun n => { n with escrow := { n.escrow with copying := del n.escrow.copying st } })

theorem chargePages_escrow (r n k : Nat) : ((s.chargePages t st r n k).ten t).escrow = (s.ten t).escrow :=
  Fixes.of_talks (π := (·.escrow)) (charge_talks s (some t) _ _) (fun _ _ _ _ => rfl) t

theorem copied_keeps : Keeps [.cs, .mbox, .hall, .words, .tens, .power] s (s.copied t st m steps k) := by
  unfold State.copied
  refine Keeps.foldl (State.chargePages_keeps (Keeps.refl _ _) (by decide)) fun u x h => ?_
  split
  · exact State.markCopied_keeps (State.writePage_keeps h (by decide)) (by decide)
  · exact h

/-- A page copied for every generation it is sealed for is sealed for none of them. -/
theorem copied_unseals (h : ∀ x ∈ sealedFor s t m, x ∈ steps) :
    Grows t (s.chargePages t st 1 1 (liveSteps s t steps).length) (s.copied t st m steps k) ∧
    ∀ g ∈ ((s.copied t st m steps k).ten t).escrow.gens, g.sealedPage m = false := by
  obtain ⟨h1, h2⟩ := Grows.foldl (t := t) (f := fun (u : State) x => match genOf u t x with
    | some g => (u.writePage (slotPageKey u t g.slot m) (readPage s k)).markCopied t x m
    | none => u) (P := fun x g => g.step = x → g.sealedPage m = false) (fun x a b hab ha hb => hab.2.2 m (ha (hab.1.symm.trans hb)))
    (fun u x => by
      split
      · next g hg =>
        obtain ⟨h1, h2⟩ := markCopied_grows (u.writePage (slotPageKey u t g.slot m) (readPage s k)) t x m
        exact ⟨Grows.trans (.of_keeps (vs := [.cs, .mbox, .words]) (State.writePage_keeps (Keeps.refl _ _) (by decide))) h1, h2⟩
      · next hg =>
        refine ⟨.refl t u, fun g hm hx => absurd hg ?_⟩
        unfold genOf
        exact fun e => by simpa [hx] using List.find?_eq_none.mp e g hm)
    (liveSteps s t steps) (s.chargePages t st 1 1 (liveSteps s t steps).length)
  refine ⟨h1, fun g hg => ?_⟩
  obtain ⟨a, ha, hag⟩ := h1.comes hg
  rw [chargePages_escrow] at ha
  by_cases e : a.sealedPage m = true
  · have hs : a.step ∈ sealedFor s t m := List.mem_map_of_mem (List.mem_filter.mpr ⟨ha, e⟩)
    refine h2 a.step (List.mem_filter.mpr ⟨h _ hs, ?_⟩) g hg hag.1
    unfold genOf
    exact List.find?_isSome.mpr ⟨a, ha, by simp⟩
  · exact hag.2.2 m (by simpa using e)

theorem copyEnds_escrow : ((s.copyEnds t st cause).ten t).escrow = { (s.ten t).escrow with copying := del (s.ten t).escrow.copying st } := by
  unfold State.copyEnds
  rw [State.ten_modTen]
  split
  · rfl
  · split <;> rfl

theorem copyEnds_keeps : Keeps [.tens, .counters] s (s.copyEnds t st cause) := by
  unfold State.copyEnds
  refine State.modTen_keeps (.ite (State.countTen_keeps (Keeps.refl _ _) (by decide)) (.ite ?_ (Keeps.refl _ _))) (by decide)
  exact State.countTen_keeps (Keeps.refl _ _) (by decide)

/-- The writes held for a page are held no more; copies and generations stand. -/
theorem releaseHeld_escrow : ((s.releaseHeld t st m).ten t).escrow =
    { (s.ten t).escrow with held := (s.ten t).escrow.held.filter (fun h => h.page ≠ m) } := by
  unfold State.releaseHeld State.endStall
  dsimp only
  rw [State.ten_modTen]
  dsimp only
  rw [State.ten_modTen]
  dsimp only
  rw [Keeps.ten_eq (vs := [.cs, .mbox, .words]) (s := s) (Keeps.foldl (Keeps.refl _ _) fun u h k =>
    Keeps.foldl k fun v w k => State.writeWord_keeps k (by decide))]

end copyDone

/-- The copy of the next page that a foreground write of the stack waits for. -/
def State.nextCopy (s : State) (t st : Nat) : Answer :=
  match (((s.ten t).escrow.held.filter (fun h => h.stack = st && h.fore)).map (·.page)).mergeSort (· ≤ ·) with
  | p :: _ => .next (s.startCopy t st p 2)
  | [] => .next s

theorem nextCopy_none {s : State} {t st : Nat} (h : (s.ten t).escrow.held.filter (fun h => h.stack = st && h.fore) = []) :
    s.nextCopy t st = .next s := by
  unfold State.nextCopy
  rw [h]
  simp

section copyDone

variable {n : Ten} {st : Stack} {s : State} {m cause k : Nat} {steps : List (BitVec 32)}

/-- What a copy leaves of its tenancy's escrow at its end. -/
theorem copyEnds_leaves (hs : ∀ x ∈ sealedFor s n.val m, x ∈ steps) :
    ((((s.copied n.val st.val m steps k).copyEnds n.val st.val cause)).ten n.val).escrow =
      { (s.ten n.val).escrow with copying := del (s.ten n.val).escrow.copying st.val, gens := ((s.copied n.val st.val m steps k).ten n.val).escrow.gens } := by
  obtain ⟨⟨gs, e, -⟩, -⟩ := copied_unseals s n.val st.val m steps k hs
  have h : ((s.copied n.val st.val m steps k).ten n.val).escrow = { (s.ten n.val).escrow with gens := gs } := by
    rw [e, ← chargePages_escrow s n.val st.val 1 1 (liveSteps s n.val steps).length]
    rfl
  rw [copyEnds_escrow, h]

/-- With the page sealed no more its held writes issue, and no write is left on the stack for which a copy begins. -/
theorem exec_escrowCopyDone (hc : find (s.ten n.val).escrow.copying st.val = some (m, cause, steps)) (hk : pageKey s n.val m = some k)
    (hs : ∀ x ∈ sealedFor s n.val m, x ∈ steps) (hh : ∀ h ∈ (s.ten n.val).escrow.held, h.stack ≠ st.val ∨ h.page = m) :
    exec (.escrowCopyDone n st) s = .next (((s.copied n.val st.val m steps k).copyEnds n.val st.val cause).releaseHeld n.val st.val m) := by
  have he := copyEnds_leaves (st := st) (cause := cause) (k := k) hs
  have hun := (copied_unseals s n.val st.val m steps k hs).2
  have hsealed : sealedFor ((s.copied n.val st.val m steps k).copyEnds n.val st.val cause) n.val m = [] := by
    unfold sealedFor
    rw [he, List.map_eq_nil_iff, List.filter_eq_nil_iff]
    exact fun g hg => by rw [hun g hg]; decide
  have hheld : ((((s.copied n.val st.val m steps k).copyEnds n.val st.val cause).releaseHeld n.val st.val m).ten n.val).escrow.held.filter
      (fun h => h.stack = st.val && h.fore) = [] := by
    rw [releaseHeld_escrow, he, List.filter_eq_nil_iff]
    intro h hm
    obtain ⟨hm, hp⟩ := List.mem_filter.mp hm
    have := (hh h hm).resolve_right (of_decide_eq_true hp)
    simp [this]
  change execEscrowCopyDone n st s = _
  unfold execEscrowCopyDone
  rw [hc]
  dsimp only
  rw [hk]
  refine Eq.trans (b := (if sealedFor ((s.copied n.val st.val m steps k).copyEnds n.val st.val cause) n.val m = [] then
    ((s.copied n.val st.val m steps k).copyEnds n.val st.val cause).releaseHeld n.val st.val m
    else (s.copied n.val st.val m steps k).copyEnds n.val st.val cause).nextCopy n.val st.val) rfl ?_
  rw [if_pos hsealed, nextCopy_none hheld]

theorem escrowCopyDone_leaves (hc : find (s.ten n.val).escrow.copying st.val = some (m, cause, steps)) (hk : pageKey s n.val m = some k)
    (hs : ∀ x ∈ sealedFor s n.val m, x ∈ steps) (hh : ∀ h ∈ (s.ten n.val).escrow.held, h.stack ≠ st.val ∨ h.page = m) :
    ∃ t, exec (.escrowCopyDone n st) s = .next t ∧ find (t.ten n.val).escrow.copying st.val = none ∧
      (∀ g ∈ (t.ten n.val).escrow.gens, g.sealedPage m = false) ∧ (∀ h ∈ (t.ten n.val).escrow.held, h.page ≠ m) ∧
      (cause = 0 → counted s t (tenOff n.val 0x2208)) ∧ (cause = 1 → counted s t (tenOff n.val 0x2210)) ∧
      Keeps [.cs, .mbox, .hall, .words, .tens, .counters, .power] s t := by
  have hr := releaseHeld_escrow ((s.copied n.val st.val m steps k).copyEnds n.val st.val cause) n.val st.val m
  have hkeep := State.releaseHeld_keeps (vs := [.cs, .mbox, .words, .tens]) (t := n.val) (st := st.val) (m := m)
    (Keeps.refl _ ((s.copied n.val st.val m steps k).copyEnds n.val st.val cause)) (by decide)
  have hcounts : CountsIn (fun _ => False) ((s.copied n.val st.val m steps k).copyEnds n.val st.val cause) _ := .of_keeps hkeep
  have hcopied : CountsIn (fun _ => False) s (s.copied n.val st.val m steps k) := .of_keeps (copied_keeps s n.val st.val m steps k)
  rw [copyEnds_leaves hs] at hr
  refine ⟨_, exec_escrowCopyDone hc hk hs hh, by rw [hr]; exact find_del _ _, fun g hg => ?_, fun h hm => ?_, fun h => ?_, fun h => ?_, ?_⟩
  · rw [hr] at hg
    exact (copied_unseals s n.val st.val m steps k hs).2 g hg
  · rw [hr] at hm
    exact of_decide_eq_true (List.mem_filter.mp hm).2
  · subst h
    exact counted.within (counted_count _ _) hcopied (CountsIn.trans (.of_eq rfl) hcounts) (fun h => h) (fun h => h)
  · subst h
    exact counted.within (counted_count _ _) hcopied (CountsIn.trans (.of_eq rfl) hcounts) (fun h => h) (fun h => h)
  · exact (((copied_keeps s n.val st.val m steps k).mono (by decide)).trans ((copyEnds_keeps _ _ _ _).mono (by decide))).trans
      (hkeep.mono (by decide))

end copyDone

/-! ### Windows and state pages -/

theorem escrowWindow_copies {n : Ten} {st : Stack} {s : State} {m : Nat} (hf : firstSealed s n.val st.val = some m)
    (hc : find (s.ten n.val).escrow.copying st.val = none) :
    ∃ t, exec (.escrowWindowCopy n st) s = .next t ∧ (∃ steps, find (t.ten n.val).escrow.copying st.val = some (m, 0, steps)) ∧
      (∀ u, u ≠ n.val → t.ten u = s.ten u) ∧ Keeps [.tens] s t := by
  refine ⟨s.startCopy n.val st.val m 0, ?_, ?_, fun u hu => State.ten_modTen_ne _ _ hu, State.startCopy_keeps (Keeps.refl _ _) (by decide)⟩
  · change execEscrowWindowCopy n st s = _
    unfold execEscrowWindowCopy
    rw [hf]
  · unfold State.startCopy Escrow.start
    rw [State.ten_modTen, hc]
    exact ⟨_, find_set _ _ _⟩

theorem escrowWindow_none {n : Ten} {st : Stack} {s : State} (hf : firstSealed s n.val st.val = none) :
    exec (.escrowWindowCopy n st) s = .next s := by
  change execEscrowWindowCopy n st s = _
  unfold execEscrowWindowCopy
  rw [hf]

/-- The state pages of a generation written: it has them, and none of them is sealed any more. -/
theorem writeState_seals {s : State} {t : Nat} {g : Generation} (hg : ((s.ten t).escrow.gens.filter (fun g => !g.stateDone)).getLast? = some g)
    (hgen : genOf s t g.step = some g) :
    Grows t s (s.writeState t) ∧ ∃ g2, genOf (s.writeState t) t g.step = some g2 ∧ g2.stateDone = true ∧
      ∀ i, i < statePages s t → g2.sealedPage (dataPages s t + i) = false := by
  unfold State.writeState
  rw [hg]
  dsimp only
  generalize hs1 : List.foldl _ s _ = s1
  have h1 : Keeps [.cs, .mbox, .hall, .words] s s1 := by
    rw [← hs1]
    exact Keeps.foldl (Keeps.refl _ _) fun u b k => State.writePlainBlock_keeps k (by decide)
  have h2 : Grows t s1 (s1.modGen t g.step fun g => { g with stateDone := true }) := modGen_grows _ _ _ fun g => ⟨rfl, fun _ => rfl, fun _ => id⟩
  obtain ⟨h3, h4⟩ := Grows.foldl (t := t) (f := fun (u : State) i => u.markCopied t g.step (dataPages s t + i))
    (P := fun i x => x.step = g.step → x.sealedPage (dataPages s t + i) = false) (fun i a b hab ha hb => hab.2.2 _ (ha (hab.1.symm.trans hb)))
    (fun u i => markCopied_grows u t g.step (dataPages s t + i)) (upTo (statePages s t)) (s1.modGen t g.step fun g => { g with stateDone := true })
  refine ⟨(Grows.of_keeps h1).trans (h2.trans h3), ?_⟩
  have hgen1 : genOf (s1.modGen t g.step fun g => { g with stateDone := true }) t g.step = some { g with stateDone := true } := by
    unfold genOf at hgen ⊢
    rw [modGen_ten, h1.ten_eq t]
    show ((s.ten t).escrow.gens.map fun x => if x.step = g.step then { x with stateDone := true } else x).find? _ = _
    rw [List.find?_map]
    have hp : ((fun x : Generation => decide (x.step = g.step)) ∘ fun x : Generation => if x.step = g.step then { x with stateDone := true } else x) =
        fun x => decide (x.step = g.step) := by
      funext x
      by_cases hx : x.step = g.step <;> simp [hx]
    rw [hp, hgen]
    simp
  obtain ⟨g2, e, hg2⟩ := h3.genOf hgen1
  refine ⟨g2, e, hg2.2.1 rfl, fun i hi => h4 i (List.mem_range.mpr hi) g2 (List.mem_of_find?_eq_some e) hg2.1⟩

theorem writeState_none {s : State} {t : Nat} (h : ∀ g ∈ (s.ten t).escrow.gens, g.stateDone = true) : s.writeState t = s := by
  unfold State.writeState
  rw [show (s.ten t).escrow.gens.filter (fun g => !g.stateDone) = [] from List.filter_eq_nil_iff.mpr fun g hg => by rw [h g hg]; decide]
  rfl

theorem pagesOfState_holds : pagesOfState := by
  intro n s hd
  refine ⟨fun g hg hgen => ?_, fun h => ?_⟩
  · obtain ⟨⟨gs, e, -⟩, h⟩ := writeState_seals hg hgen
    have ht : (s.writeState n.val).tryTake n.val = s.writeState n.val := tryTake_none (by rw [e]; exact hd)
    exact ⟨s.writeState n.val, congrArg Host.Outcome.next ht, h, State.writeState_keeps (Keeps.refl _ _) (by decide)⟩
  · have ht : (s.writeState n.val).tryTake n.val = s := by rw [writeState_none h]; exact tryTake_none hd
    exact congrArg Host.Outcome.next ht

/-- Settles O44: a copy's end leaves its page sealed for no generation, so its held writes issue and no copy begins there. -/
theorem escrowCopies : Obligations.EscrowCopies := by
  unfold Obligations.EscrowCopies
  refine ⟨fun n st s => ⟨escrowWindow_none, fun m hf hc => escrowWindow_copies hf hc,
    fun m cause steps k hc hk hs hh => escrowCopyDone_leaves hc hk hs hh, fun hc => ?_⟩, pagesOfState_holds⟩
  change execEscrowCopyDone n st s = _
  unfold execEscrowCopyDone
  rw [hc]

end Sys2Proof.Machine
end

section
/-! SUPPORT. The actions of a recovery's plan: a step redo, a reseat and a rollback (15 R412, 16 R442). -/

namespace Sys2Proof.Machine

open Sys2Proof Sys2Proof.Claims

set_option Elab.async false

/-! ### A chip that is done -/

theorem sendRootward_counts (s : State) (t kind : Nat) (w : BitVec 256) : CountsIn onPort s (s.sendRootward t kind w) := by
  unfold State.sendRootward
  split
  · exact .refl s
  · exact push_counts _ _ _ _ _

theorem modRecov_counts {P : Nat → Prop} (s : State) (t : Nat) (f : Recovery → Recovery) : CountsIn P s (s.modRecov t f) := .of_eq rfl

theorem tryDone_counts (s : State) (t : Nat) : CountsIn onPort s (s.tryDone t) := by
  unfold State.tryDone
  dsimp only
  have h := modRecov_counts (P := onPort) s t (fun r => { r with doneSent := true })
  exact .ite (.ite ((h.trans (broadcast_counts _ _ _ _)).trans (modRecov_counts _ _ _)) (h.trans (sendRootward_counts _ _ _ _))) (.refl s)

theorem actionsDone_counts (s : State) (t : Nat) : CountsIn onPort s (s.actionsDone t) := (modRecov_counts _ _ _).trans (tryDone_counts _ _)

theorem actionsDone_done (s : State) (n : Nat) : ((s.actionsDone n).ten n).recov.st = 4 ∧ ((s.actionsDone n).ten n).recov.selfDone = true := by
  have h1 := tryDone_fixes (π := (·.recov.st)) (s.modRecov n (fun r => { r with st := 4, selfDone := true })) n
  have h2 := tryDone_fixes (π := (·.recov.selfDone)) (s.modRecov n (fun r => { r with st := 4, selfDone := true })) n
  have h := State.ten_modTen s n (fun r => { r with recov := { r.recov with st := 4, selfDone := true } })
  exact ⟨(h1 n).trans ((congrArg (·.recov.st) h).trans rfl), (h2 n).trans ((congrArg (·.recov.selfDone) h).trans rfl)⟩

/-- What the end of its actions leaves of a tenancy. -/
theorem actionsDone_fixes {α : Type} {π : Tenancy → α} (s : State) (n : Nat) (hu : Unspoken π := by exact fun _ _ _ _ => rfl)
    (hd : Undone π := by exact fun _ _ _ => rfl)
    (hr : ∀ r : Tenancy, π { r with recov := { r.recov with st := 4, selfDone := true } } = π r := by exact fun _ => rfl) :
    Fixes π s (s.actionsDone n) := (Fixes.modTen hr).trans (tryDone_fixes _ n hu hd)

/-! ### Step redo -/

/-- The step fields of a ledger entry. -/
def stepMask : BitVec 64 := ~~~0x0A00_FF00_0000_FF00#64

/-- A ledger entry with its step fields cleared. -/
def State.clearEntry (s : State) (e : Nat) : State :=
  let x := look s.stores.ledger {} e
  { s with stores := { s.stores with ledger := put {} s.stores.ledger e ⟨x.data &&& stepMask, x.err⟩ } }

theorem clearEntry_look (s : State) (k e : Nat) : (look (s.clearEntry k).stores.ledger {} e).data =
    if e = k then (look s.stores.ledger {} e).data &&& stepMask else (look s.stores.ledger {} e).data := by
  unfold State.clearEntry
  dsimp only
  rw [look_put_eq]
  split
  · next h => rw [h]
  · rfl

theorem foldl_clearEntry (l : List (Nat × Cell64)) (s : State) (e : Nat) :
    (look (l.foldl (fun u x => u.clearEntry x.1) s).stores.ledger {} e).data =
      if e ∈ l.map (·.1) then (look s.stores.ledger {} e).data &&& stepMask else (look s.stores.ledger {} e).data := by
  induction l generalizing s with
  | nil => rfl
  | cons x l ih =>
    rw [List.foldl_cons, ih, clearEntry_look]
    by_cases h1 : e = x.1 <;> by_cases h2 : e ∈ l.map (·.1) <;> simp [h1, h2, BitVec.and_assoc]

/-- The entries of a tenancy's partition have their step fields cleared. -/
theorem clearSteps_entry (s : State) (t e : Nat) (h1 : (partOf s t 0).1 ≤ e) (h2 : e < (partOf s t 0).1 + (partOf s t 0).2) :
    (look (s.clearSteps t).stores.ledger {} e).data = (look s.stores.ledger {} e).data &&& stepMask := by
  refine (foldl_clearEntry (s.stores.ledger.filter (fun (x : Nat × Cell64) => decide ((partOf s t 0).1 ≤ x.1) &&
    decide (x.1 < (partOf s t 0).1 + (partOf s t 0).2))) s e).trans ?_
  split
  · rfl
  · next h =>
    have hn : e ∉ s.stores.ledger.map (·.1) := fun hm => by
      obtain ⟨x, hx, rfl⟩ := List.mem_map.mp hm
      exact h (List.mem_map.mpr ⟨x, List.mem_filter.mpr ⟨hx, by simp [h1, h2]⟩, rfl⟩)
    unfold look
    rw [find_of_not_mem hn]
    rfl

theorem clearWatchSteps_ledger (s : State) (t : Nat) : (s.clearWatchSteps t).stores.ledger = s.stores.ledger := by
  have go (l : List (Nat × BitVec 128)) (f : State → Nat × BitVec 128 → Sparse (BitVec 128)) (u : State) :
      (l.foldl (fun u x => { u with stores := { u.stores with watches := f u x } }) u).stores.ledger = u.stores.ledger := by
    induction l generalizing u with
    | nil => rfl
    | cons x l ih => exact ih _
  exact go _ _ s

/-- A tenancy's accumulators of a core of its own are gone, and its guard latch. -/
theorem redoStep_cores {s : State} {n : Nat} {c : Core} (h : tenOf s c = some n) :
    c.val ∉ (s.redoStep n).cores.guard ∧ ∀ k, k < 262144 → look (s.redoStep n).cores.acc {} (262144 * c.val + k) = {} := by
  have hk : Keeps [.stores] s ((s.clearSteps n).clearWatchSteps n) :=
    State.clearWatchSteps_keeps (State.clearSteps_keeps (Keeps.refl _ _) (by decide)) (by decide)
  have hown (j : Nat) (hj : j = c.val) : decide (tenOf s (Fin.ofNat 64 j) = some n) = true := by
    have e : Fin.ofNat 64 j = c := Fin.ext (by simp only [Fin.ofNat]; omega)
    rw [e, h]
    simp
  refine ⟨fun hm => ?_, fun k hlt => ?_⟩
  · have := (List.mem_filter.mp hm).2
    dsimp only at this
    rw [Nat.div_one, hown c.val rfl] at this
    exact absurd this (by decide)
  · refine congrArg (fun o : Option Acc => o.getD {}) (find_filter_none fun v => ?_)
    dsimp only
    rw [hown _ (by omega)]
    rfl

theorem redoStep_leaves (s : State) (n : Nat) :
    counted s (s.redoStep n) (tenOff n 0x21B0) ∧ ((s.redoStep n).ten n).course.pos = (s.ten n).recov.takePos ∧
    ∀ e, (partOf s n 0).1 ≤ e → e < (partOf s n 0).1 + (partOf s n 0).2 →
      (look (s.redoStep n).stores.ledger {} e).data = (look s.stores.ledger {} e).data &&& ~~~0x0A00_FF00_0000_FF00#64 := by
  have hk : Keeps [.stores] s ((s.clearSteps n).clearWatchSteps n) :=
    State.clearWatchSteps_keeps (State.clearSteps_keeps (Keeps.refl _ _) (by decide)) (by decide)
  refine ⟨counted.within (counted_count _ _) (CountsIn.trans (.of_keeps (P := fun _ => False) hk) (.of_eq rfl)) (.refl _) (fun h => h)
    (Q := fun _ => False) (fun h => h), ?_, fun e h1 h2 => ?_⟩
  · refine (congrArg (·.course.pos) (State.ten_modTen _ n (fun r => { r with course := { r.course with pos := r.recov.takePos, first := true } }))).trans ?_
    exact congrArg (·.recov.takePos) (hk.ten_eq n)
  · exact (congrArg (fun l => (look l {} e).data) (clearWatchSteps_ledger (s.clearSteps n) n)).trans (clearSteps_entry s n e h1 h2)

/-! ### Reseat -/

/-- What a page settled leaves of a tenancy: all but its energy and its generations. -/
theorem settlePage_fixes {α : Type} {π : Tenancy → α} (s : State) (t m : Nat) (hu : Unspoken π := by exact fun _ _ _ _ => rfl)
    (hg : ∀ r gs, π (Tenancy.withGens r gs) = π r := by exact fun _ _ => rfl) : π ((s.settlePage t m).ten t) = π (s.ten t) := by
  unfold State.settlePage
  split
  · rfl
  · dsimp only
    split
    · rfl
    · next k _ _ =>
      obtain ⟨⟨gs, e, -⟩, -⟩ := Grows.foldl (t := t) (P := fun _ _ => True) (f := fun (u : State) x => match genOf u t x with
        | some g => (u.writePage (slotPageKey u t g.slot m) (readPage s k)).markCopied t x m
        | none => u) (fun _ _ _ _ h => h) (fun u x => ⟨by
          split
          · next g _ =>
            exact Grows.trans (.of_keeps (vs := [.cs, .mbox, .words]) (State.writePage_keeps (Keeps.refl _ _) (by decide)))
              (markCopied_grows _ t x m).1
          · exact .refl t u, fun _ _ => trivial⟩) (sealedFor s t m)
        (s.chargePages t (stackOfPage s t m) 1 1 (sealedFor s t m).length)
      refine (congrArg π e).trans ((hg _ _).trans ?_)
      exact Fixes.of_talks (charge_talks s (some t) _ _) hu t

theorem foldl_fixes {α β : Type} {π : Tenancy → α} {t : Nat} {f : State → β → State} (hf : ∀ u x, π ((f u x).ten t) = π (u.ten t)) (l : List β)
    (s : State) : π ((l.foldl f s).ten t) = π (s.ten t) := by
  induction l generalizing s with
  | nil => rfl
  | cons x l ih => exact (ih _).trans (hf s x)

/-- A block of HBM written with its hallmark changes no tenancy. -/
theorem writeBlock_ten (s : State) (k : Nat) (ds : List (BitVec 256)) (h : BitVec 64) (t : Nat) :
    ((ds.zipIdx.foldl (fun (w : State) (d : BitVec 256 × Nat) => w.writeWord .hbm (k + d.2) (MemWord.clean d.1)) s).writeHall .hbm k h).ten t
      = s.ten t := by
  refine Keeps.ten_eq (vs := [.cs, .mbox, .words, .hall]) (State.writeHall_keeps (Keeps.foldl (Keeps.refl _ _) fun w d k => ?_) (by decide)) t
  exact State.writeWord_keeps k (by decide)

theorem reseat_fixes {α : Type} {π : Tenancy → α} (s : State) (t : Nat) (hu : Unspoken π := by exact fun _ _ _ _ => rfl)
    (hg : ∀ r gs, π (Tenancy.withGens r gs) = π r := by exact fun _ _ => rfl) : π ((s.reseat t).ten t) = π (s.ten t) := by
  unfold State.reseat
  refine foldl_fixes (fun u r => ?_) _ s
  split
  · rfl
  · refine foldl_fixes (fun v b => ?_) _ u
    dsimp only
    rw [writeBlock_ten]
    cases pageOf v t (recordKey v t r.2.record + 128 * b) with
    | none => rfl
    | some m => exact settlePage_fixes v t m hu hg

/-! ### Rollback -/

/-- The words and stores of a generation that a restore brings back. -/
def State.restoreWords (s : State) (t : Nat) (g : Generation) : State :=
  let s1 := (upTo (dataPages s t)).foldl (fun (u : State) m =>
    if g.sealedPage m then u
    else match pageKey s t m with
      | some k => (u.writePage k (readPage s (slotPageKey s t g.slot m))).chargePages t (stackOfPage s t m) 1 1 1
      | none => u) s
  (s1.restoreLedger t g).clearWatches t

theorem restoreWords_keeps (s : State) (t : Nat) (g : Generation) : Keeps [.cs, .mbox, .words, .stores, .tens, .power] s (s.restoreWords t g) := by
  unfold State.restoreWords
  refine State.clearWatches_keeps (State.restoreLedger_keeps (Keeps.foldl (Keeps.refl _ _) fun u m h => ?_) (by decide)) (by decide)
  refine .ite h ?_
  split
  · exact State.chargePages_keeps (State.writePage_keeps h (by decide)) (by decide)
  · exact h

/-- A tenancy with a generation's step, seed and slot table, and no write held. -/
def Tenancy.restored (n : Tenancy) (g : Generation) : Tenancy := { n with
  steps := { n.steps with live := g.slots, staged := [], applyPend := false, seed := g.seed, step := g.step, cautious := g.cautious, cautOn := g.cautOn }
  escrow := { n.escrow with
    gens := n.escrow.gens.filter (fun x => x.course ≤ g.course)
    held := []
    copying := n.escrow.copying.filter (fun (_ : Nat × (Nat × Nat × List (BitVec 32))) => false) } }

theorem restoreGen_eq (s : State) (t : Nat) (g : Generation) :
    s.restoreGen t g = ((s.restoreWords t g).modTen t (fun n => n.restored g)).countTen t 0x2238 1 := rfl

theorem ten_countTen (s : State) (t o k n : Nat) : (s.countTen t o k).ten n = s.ten n := rfl

/-- A tenancy gone back to a generation: it begins at the generation's position. -/
def Tenancy.rolledBack (n : Tenancy) (g : Generation) : Tenancy := { n.restored g with course := { n.course with pos := g.pos, first := true } }

theorem rollBack_ten (s : State) (n : Nat) (g : Generation) : (s.rollBack n g).ten n = ((s.restoreWords n g).ten n).rolledBack g := by
  unfold State.rollBack
  rw [ten_countTen, State.ten_modTen, restoreGen_eq, ten_countTen, State.ten_modTen]
  generalize (s.restoreWords n g).ten n = r
  rfl

theorem rollBack_counted (s : State) (n : Nat) (g : Generation) : counted s (s.rollBack n g) (tenOff n 0x21B8) := by
  unfold State.rollBack
  rw [restoreGen_eq]
  have h1 : CountsIn (fun o => o = tenOff n 0x2238) s ((s.restoreWords n g).modTen n (fun r => r.restored g)) :=
    (CountsIn.of_keeps (restoreWords_keeps s n g)).trans (modTen_counts _ _ _)
  have h2 : CountsIn (fun o => o = tenOff n 0x2238) s (((s.restoreWords n g).modTen n (fun r => r.restored g)).countTen n 0x2238 1) :=
    h1.trans (.count rfl)
  exact counted.within (counted_count _ _) (h2.trans (modTen_counts _ _ _)) (.refl _) (fun e => by unfold tenOff at e; omega)
    (Q := fun _ => False) (fun h => h)

/-! ### The obligation -/

/-- A chip whose actions of a plan are under way, with no newer error. -/
def acts (s : State) (n : Nat) : Prop :=
  (s.ten n).recov.st = 3 ∧ (s.ten n).recov.preempt = none ∧ (s.ten n).recov.stopGot = none ∧ (s.ten n).recov.ending = none

/-- A chip that goes back to the position of the last take. -/
def State.takenBack (s : State) (t : Nat) : State := s.modTen t (fun n => { n with course := { n.course with pos := n.recov.takePos, first := true } })

section acts

variable {n : Ten} {s : State}

theorem exec_recoveryActions_not (h : ¬ acts s n.val) : exec (.recoveryActionsComplete n) s = .next s := by
  change execRecoveryActionsComplete n s = _
  unfold execRecoveryActionsComplete
  dsimp only
  rw [if_pos]
  unfold acts at h
  by_contra hc
  refine h ?_
  simpa [and_assoc] using hc

/-- The action of each path. -/
theorem exec_recoveryActions (h : acts s n.val) : exec (.recoveryActionsComplete n) s =
    if (s.ten n.val).recov.path = 1 then .next ((s.redoStep n.val).actionsDone n.val)
    else if (s.ten n.val).recov.path = 2 then
      if (s.ten n.val).recov.odd then
        let d := ((s.takenBack n.val).reseat n.val).draw
        if d.1 % 2 = 0 then .next ((d.2.countTen n.val 0x21A8 1).actionsDone n.val)
        else .next (d.2.modRecov n.val (fun r => { r with preempt := some ⟨clsA, 3, (d.2.ten n.val).steps.step - 1, 0x61⟩ }))
      else .next ((s.takenBack n.val).actionsDone n.val)
    else match soundGen s n.val (s.ten n.val).recov.taint with
      | some g => .next ((s.rollBack n.val g).actionsDone n.val)
      | none => .next s := by
  obtain ⟨h1, h2, h3, h4⟩ := h
  change execRecoveryActionsComplete n s = _
  unfold execRecoveryActionsComplete
  dsimp only
  rw [if_neg (by rw [h1, h2, h3, h4]; decide)]
  rfl

theorem redo_leaves (h : acts s n.val) (hp : (s.ten n.val).recov.path = 1) : ∃ t, exec (.recoveryActionsComplete n) s = .next t ∧
    ((t.ten n.val).recov.st = 4 ∧ (t.ten n.val).recov.selfDone = true) ∧ counted s t (tenOff n.val 0x21B0) ∧
    (t.ten n.val).course.pos = (s.ten n.val).recov.takePos ∧
    (∀ e, (partOf s n.val 0).1 ≤ e → e < (partOf s n.val 0).1 + (partOf s n.val 0).2 →
      (look t.stores.ledger {} e).data = (look s.stores.ledger {} e).data &&& ~~~0x0A00_FF00_0000_FF00#64) ∧
    (∀ c : Core, tenOf s c = some n.val → c.val ∉ t.cores.guard ∧ ∀ k, k < 262144 → look t.cores.acc {} (262144 * c.val + k) = {}) ∧
    Keeps [.acc, .engines, .busy, .stores, .tens, .counters, .fabric, .power] s t := by
  obtain ⟨h1, h2, h3⟩ := redoStep_leaves s n.val
  have hk : Keeps [.tens, .counters, .fabric, .power] (s.redoStep n.val) ((s.redoStep n.val).actionsDone n.val) :=
    State.actionsDone_keeps (Keeps.refl _ _) (by decide)
  refine ⟨(s.redoStep n.val).actionsDone n.val, (exec_recoveryActions h).trans (if_pos hp), actionsDone_done _ _,
    counted.within h1 (.refl s) (actionsDone_counts _ _) (P := fun _ => False) (fun h => h) (not_onPort_tenOff _ _),
    ((actionsDone_fixes (π := (·.course.pos)) (s.redoStep n.val) n.val) n.val).trans h2, fun e he1 he2 => ?_, fun c hc => ?_, ?_⟩
  · rw [hk.eq_stores]
    exact h3 e he1 he2
  · rw [hk.eq_guard, hk.eq_acc]
    exact redoStep_cores hc
  · exact (State.redoStep_keeps (Keeps.refl _ _) (by decide)).trans (hk.mono (by decide))

theorem reseat_even (h : acts s n.val) (hp : (s.ten n.val).recov.path = 2) (ho : (s.ten n.val).recov.odd = false) :
    ∃ t, exec (.recoveryActionsComplete n) s = .next t ∧ ((t.ten n.val).recov.st = 4 ∧ (t.ten n.val).recov.selfDone = true) ∧
      (t.ten n.val).course.pos = (s.ten n.val).recov.takePos ∧ Keeps [.tens, .counters, .fabric, .power] s t := by
  have hk : Keeps [.tens] s (s.takenBack n.val) := State.modTen_keeps (Keeps.refl _ _) (by decide)
  refine ⟨(s.takenBack n.val).actionsDone n.val, ?_, actionsDone_done _ _,
    ((actionsDone_fixes (π := (·.course.pos)) (s.takenBack n.val) n.val) n.val).trans (congrArg (·.course.pos) (State.ten_modTen _ _ _)),
    State.actionsDone_keeps (hk.mono (by decide)) (by decide)⟩
  rw [exec_recoveryActions h, if_neg (by rw [hp]; decide), if_pos hp, if_neg (by rw [ho]; decide)]

theorem reseat_odd (h : acts s n.val) (hp : (s.ten n.val).recov.path = 2) (ho : (s.ten n.val).recov.odd = true) :
    ∃ t, exec (.recoveryActionsComplete n) s = .next t ∧
      (((t.ten n.val).recov.st = 4 ∧ (t.ten n.val).recov.selfDone = true) ∧ counted s t (tenOff n.val 0x21A8) ∨
        (t.ten n.val).recov.preempt = some ⟨clsA, 3, (s.ten n.val).steps.step - 1, 0x61⟩) ∧
      Keeps [.cs, .mbox, .hall, .words, .tens, .counters, .fabric, .power, .fresh] s t := by
  have hk : Keeps [.cs, .mbox, .hall, .words, .tens, .power, .fresh] s ((s.takenBack n.val).reseat n.val) :=
    State.reseat_keeps (State.modTen_keeps (Keeps.refl _ _) (by decide)) (by decide)
  generalize hd : ((s.takenBack n.val).reseat n.val).draw = d
  have hd2 : Keeps [.fresh] ((s.takenBack n.val).reseat n.val) d.2 := by
    rw [← hd]
    exact Keeps.upd (Keeps.refl _ _) rfl rfl (.inl rfl) (.inl rfl) (.inl rfl) (.inl rfl) (.inl rfl) (.inl rfl) (.inl rfl) (.inl rfl)
        (.inl rfl) (.inl rfl) (.inl rfl) (.inl rfl) (.inr (by decide))
  have hk2 : Keeps [.cs, .mbox, .hall, .words, .tens, .power, .fresh] s d.2 := hk.trans (hd2.mono (by decide))
  have hstep : (d.2.ten n.val).steps.step = (s.ten n.val).steps.step := by
    rw [hd2.ten_eq n.val]
    exact (reseat_fixes (π := (·.steps.step)) (s.takenBack n.val) n.val).trans (congrArg (·.steps.step) (State.ten_modTen _ _ _))
  have hexec : exec (.recoveryActionsComplete n) s = if d.1 % 2 = 0 then .next ((d.2.countTen n.val 0x21A8 1).actionsDone n.val)
      else .next (d.2.modRecov n.val (fun r => { r with preempt := some ⟨clsA, 3, (d.2.ten n.val).steps.step - 1, 0x61⟩ })) := by
    rw [exec_recoveryActions h, if_neg (by rw [hp]; decide), if_pos hp, if_pos ho, ← hd]
  by_cases hz : d.1 % 2 = 0
  · rw [if_pos hz] at hexec
    refine ⟨_, hexec, .inl ⟨actionsDone_done _ _, ?_⟩, ?_⟩
    · exact counted.within (counted_count _ _) (.of_keeps hk2) (actionsDone_counts _ _) (P := fun _ => False) (fun h => h) (not_onPort_tenOff _ _)
    · exact State.actionsDone_keeps (State.countTen_keeps (hk2.mono (by decide)) (by decide)) (by decide)
  · rw [if_neg hz] at hexec
    refine ⟨_, hexec, .inr ?_, State.modRecov_keeps (hk2.mono (by decide)) (by decide)⟩
    rw [← hstep]
    exact congrArg (·.recov.preempt) (State.ten_modTen _ _ _)

theorem rollback_leaves (h : acts s n.val) (hp : (s.ten n.val).recov.path = 3) {g : Generation}
    (hg : soundGen s n.val (s.ten n.val).recov.taint = some g) : ∃ t, exec (.recoveryActionsComplete n) s = .next t ∧
    ((t.ten n.val).recov.st = 4 ∧ (t.ten n.val).recov.selfDone = true) ∧
    counted s t (tenOff n.val 0x21B8) ∧ (t.ten n.val).course.pos = g.pos ∧ (t.ten n.val).steps.step = g.step ∧
    (t.ten n.val).steps.seed = g.seed ∧ (t.ten n.val).steps.live = g.slots ∧ (t.ten n.val).steps.cautious = g.cautious ∧
    (t.ten n.val).escrow.held = [] ∧ Keeps [.cs, .mbox, .hall, .words, .stores, .tens, .counters, .fabric, .power] s t := by
  have hs : (((s.rollBack n.val g).actionsDone n.val).ten n.val).steps = ((s.rollBack n.val g).ten n.val).steps :=
    (actionsDone_fixes (π := (·.steps)) (s.rollBack n.val g) n.val) n.val
  have he : (((s.rollBack n.val g).actionsDone n.val).ten n.val).escrow = ((s.rollBack n.val g).ten n.val).escrow :=
    (actionsDone_fixes (π := (·.escrow)) (s.rollBack n.val g) n.val) n.val
  have hc : (((s.rollBack n.val g).actionsDone n.val).ten n.val).course.pos = ((s.rollBack n.val g).ten n.val).course.pos :=
    (actionsDone_fixes (π := (·.course.pos)) (s.rollBack n.val g) n.val) n.val
  rw [rollBack_ten] at hs he hc
  refine ⟨(s.rollBack n.val g).actionsDone n.val, ?_, actionsDone_done _ _, ?_, hc, ?_, ?_, ?_, ?_, ?_, ?_⟩
  · rw [exec_recoveryActions h, if_neg (by rw [hp]; decide), if_neg (by rw [hp]; decide), hg]
  · exact counted.within (rollBack_counted s n.val g) (.refl s) (actionsDone_counts _ _) (P := fun _ => False) (fun h => h) (not_onPort_tenOff _ _)
  · rw [hs]; rfl
  · rw [hs]; rfl
  · rw [hs]; rfl
  · rw [hs]; rfl
  · rw [he]; rfl
  · exact State.actionsDone_keeps (State.rollBack_keeps (Keeps.refl _ _) (by decide)) (by decide)

end acts

/-- Settles O42: each path's action is followed to the chip's being done, which sends no more than frames and leaves the position, step and words. -/
theorem recoveryActions : Obligations.RecoveryActions := by
  unfold Obligations.RecoveryActions
  intro n s
  exact ⟨exec_recoveryActions_not, redo_leaves, reseat_even, reseat_odd, fun h hp g hg => rollback_leaves h hp hg⟩

end Sys2Proof.Machine
end

section
/-! SUPPORT. A word on its way to a core whose target is neither the core's store nor its program store lands in its mailbox (12 R314). -/

namespace Sys2Proof.Machine

open Sys2Proof Sys2Proof.Claims

set_option Elab.async false

/-- A word on its way to word 0 of core 0, of target 3: no read of HBM makes one. -/
def strayRead : ReadInFlight := { target := 3, word := ⟨1, 0⟩ }

def strayState : State := { State.reset with cores := { State.reset.cores with reads := [(0, [strayRead])] } }

/-- The word lands in the mailbox of core 0. -/
theorem stray_lands {t : State} (h : exec (.hbmReadData 0 0) strayState = .next t) : rawAt t (.mbox, mboxKey 0 0) = ⟨1, 0⟩ := by
  cases h
  decide +kernel

/-- Refutes O17: a word on its way whose target is 3 is written to the mailbox, where the statement has no word written. -/
theorem not_readDataLands : ¬ Obligations.ReadDataLands := by
  unfold Obligations.ReadDataLands
  intro h
  obtain ⟨-, -, hland⟩ := h 0 0 strayState strayRead [] rfl
  obtain ⟨t, ht, -, -, hw, -⟩ := hland (by decide +kernel) (.inl (by decide +kernel))
  have hs : rawAt t (.mbox, mboxKey 0 0) = rawAt strayState (.mbox, mboxKey 0 0) := Writes.stands hw (by decide)
  exact absurd ((stray_lands ht).symm.trans hs) (by decide +kernel)

end Sys2Proof.Machine
end

section
/-! SUPPORT. The haul unit's smaller instructions: mesh transfers, page refills, descriptor writes and dispatches (10 R261, R265 to R267; 05 R120 to
R124, R129). -/

namespace Sys2Proof.Machine

open Sys2Proof Sys2Proof.Claims

set_option Elab.async false

/-! ### Words read and written in turn -/

/-- Reads of words write nothing. -/
theorem writes_noteReads (s : State) (sp : Space) (as : List Nat) : Writes [] (as.map (place sp)) s (s.noteReads sp as) :=
  (touches_noteReads s sp as).writes fun p =>
    Keeps.waits (vs := [.cs, .mbox, .words, .service, .tens, .counters, .power]) (State.noteReads_keeps (Keeps.refl _ _) (by decide)) p

/-- Writes after what leaves memories and merge entries alone. -/
theorem Writes.after_keeps {vs : List View} {ws : List ((Bank × Nat) × Out)} {rs : List (Bank × Nat)} {s t u : State} (k : Keeps vs s t)
    (h : Writes ws rs t u) (h1 : View.cs ∉ vs := by decide) (h2 : View.mbox ∉ vs := by decide) (h3 : View.words ∉ vs := by decide)
    (h4 : View.merges ∉ vs := by decide) : Writes ws rs s u := by
  have := (k.writes (rs := []) h1 h2 h3 h4).after_reads h
  rwa [List.nil_append] at this

/-- Words written after those read. -/
theorem writes_read_emit (s : State) (sp : Space) (as : List Nat) {dst : Space} (hn : dst.near) (outs : List Out) (hall : BitVec 64 → Nat → BitVec 64) :
    Writes (inSpace dst outs) (as.map (place sp)) s ((s.noteReads sp as).emitWith dst outs hall) := by
  have h := (writes_noteReads s sp as).after_reads (writes_emitWith (s.noteReads sp as) hn outs hall)
  rwa [List.append_nil] at h

theorem takeChannel_keeps (s : State) (c : Core) (ch u : Nat) : Keeps [.busy] s (s.takeChannel c ch u) :=
  State.takeChannel_keeps (Keeps.refl _ _) (by decide)

/-- What keeps the units keeps a channel taken. -/
theorem Keeps.chBusy {vs : List View} {s t : State} {c : Core} {ch u : Nat} (k : Keeps vs (s.takeChannel c ch u) t)
    (h : View.busy ∉ vs := by decide) : look t.cores.chBusy 0 (chKey c ch) = u := by
  rw [k.eq_chBusy h]
  exact State.takeChannel_busy s c ch u

/-! ### Mesh transfers -/

theorem hmeshAct_ok {c : Core} {desc : BitVec 10} {ch : BitVec 2} {x y : BitVec 3} {count : BitVec 16} {s s1 s2 : State} {p : MeshPlan}
    (hp : hmeshPlan c desc ch x y count s = .ok p) (hh : meshHits s p.uses = [])
    (h1 : s.claimPorts c [.solid (unitClock s c + 1) (ceilDiv p.n 16) (min p.n 16) 0] = .ok s1)
    (h2 : s1.claimPorts p.dst [.solid (unitClock s p.dst + 1 + (meshBase s + p.uses.length * meshHop s)) (ceilDiv p.n 16) 0 (min p.n 16)] = .ok s2) :
    hmeshAct c desc ch x y count s s = .ok (meshRun c ch p s s2) := by
  unfold hmeshAct
  rw [hp]
  show (if meshHits s p.uses = [] then _ else _) = _
  rw [if_pos hh, h1]
  show (s1.claimPorts p.dst _ >>= _) = _
  rw [h2]
  rfl

/-- The links that a transfer takes, and its energy. -/
theorem takeLinks_writes (s : State) (c : Core) (uses : List (Nat × MeshUse)) (n : Nat) :
    Keeps [.busy, .tens, .power] s ((s.takeLinks uses).chargeCore c 11 n 0x1A0) :=
  State.chargeCore_keeps (State.takeLinks_keeps (Keeps.refl _ _) (by decide)) (by decide)

theorem meshRun_writes (c : Core) (ch : BitVec 2) (p : MeshPlan) (rd s : State) :
    Writes (inSpace (.cs p.dst) p.outs) ((upTo p.n).map (fun i => place (.cs c) (p.sb + i))) s (meshRun c ch p rd s) := by
  unfold meshRun
  refine Writes.of_keeps ?_ (takeLinks_writes _ _ _ _)
  have h0 : Keeps [.busy, .counters, .mgmt] s
      ((s.takeChannel c ch.toNat (unitClock rd c + 1 + ceilDiv p.n 16)).checkCrc rd c (.cs c) p.sb p.n) :=
    State.checkCrc_keeps ((takeChannel_keeps _ _ _ _).mono (by decide)) (by decide)
  exact (writes_read_emit _ (.cs c) _ (near_cs p.dst) p.outs _).after_keeps h0 |>.mono (by rw [List.map_map]; exact List.Subset.refl _)

theorem takeLinks_chBusy (s : State) (uses : List (Nat × MeshUse)) : (s.takeLinks uses).cores.chBusy = s.cores.chBusy := rfl

theorem chargeCore_chBusy (s : State) (c : Core) (k n u : Nat) : (s.chargeCore c k n u).cores.chBusy = s.cores.chBusy :=
  (State.chargeCore_keeps (vs := [.tens, .power]) (Keeps.refl _ s) (by decide)).eq_chBusy

theorem meshRun_busy (c : Core) (ch : BitVec 2) (p : MeshPlan) (rd s : State) :
    look (meshRun c ch p rd s).cores.chBusy 0 (chKey c ch.toNat) = unitClock rd c + 1 + ceilDiv p.n 16 := by
  unfold meshRun
  dsimp only
  rw [chargeCore_chBusy, takeLinks_chBusy]
  refine Keeps.chBusy (s := s) (vs := [.cs, .mbox, .hall, .merges, .words, .service, .tens, .counters, .fabric, .mgmt, .power]) ?_
  exact State.emitWith_keeps (State.noteReads_keeps (State.checkCrc_keeps (Keeps.refl _ _) (by decide)) (by decide)) (by decide)

/-- Settles O15: the words read, then those written, then links and energy, which leave every word. -/
theorem meshTransfer : Obligations.MeshTransfer := by
  unfold Obligations.MeshTransfer
  intro c desc ch x y count s s1 s2 p hi hp hh h1 h2
  have hok := hmeshAct_ok hp hh h1 h2
  refine ⟨_, congrArg Host.Outcome.next (slotOp_ok hi hok), ?_, meshRun_busy c ch p s s2, (hmeshAct_keeps (Keeps.refl _ _) (by decide)).getOk hok⟩
  exact ((meshRun_writes c ch p s s2).issued h2).issued h1

/-! ### Page refills -/

theorem hpageAct_ok {c : Core} {desc : BitVec 10} {ch : BitVec 2} {page : BitVec 3} {tag : BitVec 8} {rd s s1 : State} {sb : Nat}
    (hp : hpagePlan c desc ch page tag rd = .ok sb) (hc : s.claimSlots c ch.toNat (pageRequests (unitClock rd c) sb) = .ok s1) :
    hpageAct c desc ch page tag rd s = .ok (pageRun c ch page tag sb rd s1) := by
  unfold hpageAct
  rw [hp]
  show (s.claimSlots c ch.toNat (pageRequests (unitClock rd c) sb) >>= _) = _
  rw [hc]
  rfl

/-- The words of a page on their way. -/
def pageWords (c : Core) (page : BitVec 3) (tag : BitVec 8) (sb : Nat) (rd : State) : List ReadInFlight :=
  (upTo 1024).map (fun k =>
    { landsAt := unitClock rd c + 1 + k + hbmRdLat rd, target := 2, dst := 1024 * page.toNat + k, word := readWord rd .hbm (sb + k), src := some (sb + k),
      tag := if k = 1023 then some tag else none })

theorem pageRun_eq (c : Core) (ch : BitVec 2) (page : BitVec 3) (tag : BitVec 8) (sb : Nat) (rd s : State) : ∃ s1, Keeps [.busy, .counters, .mgmt] s s1 ∧
    pageRun c ch page tag sb rd s = (s1.beginFill c page).enqueue c ch.toNat (pageWords c page tag sb rd) :=
  ⟨(s.takeChannel c ch.toNat (unitClock rd c + 1 + 1024)).checkCrc rd c .hbm sb 1024,
    State.checkCrc_keeps ((takeChannel_keeps _ _ _ _).mono (by decide)) (by decide), rfl⟩

theorem pageWords_getLast (c : Core) (page : BitVec 3) (tag : BitVec 8) (sb : Nat) (rd : State) (l : List ReadInFlight) :
    ((l ++ pageWords c page tag sb rd).getLast?.bind (·.tag)) = some tag := by
  unfold pageWords
  rw [upTo_succ 1023, List.map_append, ← List.append_assoc, List.map_singleton, List.getLast?_concat]
  rfl

theorem page_refills {c : Core} {s s1 : State} {desc : BitVec 10} {ch : BitVec 2} {page : BitVec 3} {tag : BitVec 8} {sb : Nat} (hi : issues s c = true)
    (hp : hpagePlan c desc ch page tag s = .ok sb) (hc : s.claimSlots c ch.toNat (pageRequests (unitClock s c) sb) = .ok s1) :
    ∃ t, exec (.hpage c desc ch page tag) s = .next t ∧ look t.cores.tags 0 (8 * c.val + page.toNat) = 0 ∧
      find t.cores.fills (8 * c.val + page.toNat) = none ∧
      Claims.queued t c ch = Claims.queued s c ch ++ (upTo 1024).map (fun k => (1024 * page.toNat + k, readWord s .hbm (sb + k), allBytes)) ∧
      ((look t.cores.reads [] (chKey c ch.toNat)).getLast?.bind (·.tag)) = some tag ∧
      (∀ k, k ≠ 8 * c.val + page.toNat → look t.cores.tags 0 k = look s.cores.tags 0 k) ∧ Keeps (.tags :: .reads :: unitViews) s t := by
  have hok := hpageAct_ok hp hc
  obtain ⟨u, hu, he⟩ := pageRun_eq c ch page tag sb s s1
  have hs1 := claimSlots_keeps hc
  have hreads : u.cores.reads = s.cores.reads := hu.eq_reads.trans hs1.eq_reads
  have htags : u.cores.tags = s.cores.tags := hu.eq_tags.trans hs1.eq_tags
  have hq : look ((u.beginFill c page).enqueue c ch.toNat (pageWords c page tag sb s)).cores.reads [] (chKey c ch.toNat) =
      look s.cores.reads [] (chKey c ch.toNat) ++ pageWords c page tag sb s := by
    rw [← hreads]
    exact look_put _ _ _ _
  refine ⟨_, congrArg Host.Outcome.next (slotOp_ok hi hok), ?_, ?_, ?_, ?_, fun k hk => ?_, (hpageAct_keeps (Keeps.refl _ _) (by decide)).getOk hok⟩
  all_goals rw [he]
  · exact look_put (0 : BitVec 8) u.cores.tags (8 * c.val + page.toNat) 0
  · exact find_del _ _
  · unfold Claims.queued
    rw [hq, List.map_append]
    unfold pageWords
    rw [List.map_map]
    rfl
  · rw [hq]
    exact pageWords_getLast c page tag sb s _
  · rw [← htags]
    exact look_put_ne (0 : BitVec 8) u.cores.tags 0 hk

/-! ### Descriptor writes -/

theorem hdescAct_ok {c : Core} {e : BitVec 10} {ch : BitVec 2} {addr : BitVec 18} {kind : BitVec 3} {rd s s1 : State} {a : Nat}
    (hp : hdescPlan c e ch addr kind rd = .ok a) (hc : s.claimPorts c [.solid (unitClock rd c + 1) 2 1 0] = .ok s1) :
    hdescAct c e ch addr kind rd s = .ok (descRun c e ch kind a rd s1) := by
  unfold hdescAct
  rw [hp]
  show (s.claimPorts c _ >>= _) = _
  rw [hc]
  rfl

/-- The reads of a descriptor write, and its channel. -/
def descReads (c : Core) (ch : BitVec 2) (a : Nat) (rd s : State) : State :=
  (s.takeChannel c ch.toNat (unitClock rd c + 2)).noteReads (.cs c) [a, a + 1]

theorem descReads_keeps (c : Core) (ch : BitVec 2) (a : Nat) (rd s : State) :
    Keeps [.busy, .cs, .mbox, .words, .service, .tens, .counters, .power] s (descReads c ch a rd s) :=
  State.noteReads_keeps ((takeChannel_keeps _ _ _ _).mono (by decide)) (by decide)

theorem descRun_writes (c : Core) (e : BitVec 10) (ch : BitVec 2) (kind : BitVec 3) (a : Nat) (rd s : State) :
    leavesWords c [] [a, a + 1] s (descRun c e ch kind a rd s) := by
  have h : Writes [] ([a, a + 1].map (place (.cs c))) s (descReads c ch a rd s) := (writes_noteReads _ _ _).after_keeps (takeChannel_keeps _ _ _ _)
  have h' := h.after_reads (u := descRun c e ch kind a rd s) (Writes.of_held (rs := []) fun p => rfl)
  rwa [List.append_nil] at h'

theorem descriptor_writes {c : Core} {s s1 : State} {e : BitVec 10} {ch : BitVec 2} {addr : BitVec 18} {kind : BitVec 3} {a : Nat} (hi : issues s c = true)
    (hp : hdescPlan c e ch addr kind s = .ok a) (hc : s.claimPorts c [.solid (unitClock s c + 1) 2 1 0] = .ok s1) :
    ∃ t, exec (.hdesc c e ch addr kind) s = .next t ∧ look t.cores.desc {} (1024 * c.val + e.toNat) = descOf s c a kind ∧
      find t.cores.descWas (1024 * c.val + e.toNat) = some ⟨unitClock s c + 3, entryAt s c e⟩ ∧
      (∀ k, k ≠ 1024 * c.val + e.toNat → look t.cores.desc {} k = look s.cores.desc {} k ∧ find t.cores.descWas k = find s.cores.descWas k) ∧
      leavesWords c [] [a, a + 1] s t ∧ Keeps (.desc :: unitViews) s t := by
  have hok := hdescAct_ok hp hc
  have hk : Keeps [.busy, .cs, .mbox, .words, .service, .tens, .counters, .power] s (descReads c ch a s s1) :=
    ((claimPorts_keeps hc).mono (by decide)).trans (descReads_keeps c ch a s s1)
  have hd : (descReads c ch a s s1).cores.desc = s.cores.desc := hk.eq_desc
  have hw : (descReads c ch a s s1).cores.descWas = s.cores.descWas := (hk.same .desc (by decide)).1.2
  refine ⟨_, congrArg Host.Outcome.next (slotOp_ok hi hok), look_put _ _ _ _, find_set _ _ _, fun k hne => ⟨?_, ?_⟩,
    (descRun_writes c e ch kind a s s1).issued hc, (hdescAct_keeps (Keeps.refl _ _) (by decide)).getOk hok⟩
  · rw [← hd]
    exact look_put_ne _ _ _ hne
  · rw [← hw]
    exact find_set_ne _ _ hne

/-! ### Dispatches -/

theorem hdspAct_ok {c : Core} {desc : BitVec 10} {rd s s1 : State} {p : DispPlan} (hp : hdspPlan c desc rd = .ok p)
    (hc : s.claimPorts c p.ports = .ok s1) (hm : (dispRun c p rd s1).mergesFit) :
    hdspAct c desc rd s = .ok ((dispRun c p rd s1).holdTill c (opEnd (unitClock rd c) p.ports)) := by
  unfold hdspAct
  rw [hp]
  show (s.claimPorts c p.ports >>= fun s1 => (dispRun c p rd s1).holdMerges rd c p.ports) = _
  rw [hc]
  exact holdMerges_fit hm rd c _

/-- Runs of words of one format written one after another. -/
theorem writes_emitAll (s : State) (c : Core) (fmt gen : Nat) (runs : List (List Out)) : Writes (inSpace (.cs c) runs.flatten) [] s
    (runs.foldl (fun (s : State) r => s.emit (.cs c) fmt gen r) s) := by
  have h := writes_emitRuns s c gen (runs.map fun r => (fmt, r))
  rw [List.flatMap_map, List.foldl_map] at h
  rwa [← List.flatMap_id]

theorem dispRun_writes (c : Core) (p : DispPlan) (rd s : State) : leavesWords c p.outs p.ins s (dispRun c p rd s) := by
  unfold dispRun
  have h := ((writes_consume_cs (s.takeChannel c 3 p.busy) rd c c 8 p.ins).after_keeps (takeChannel_keeps _ _ _ _)).after_reads
    (writes_emitAll _ c 0xF p.gen p.runs)
  rw [List.append_nil] at h
  exact h.of_keeps (vs := [.counters]) (Keeps.foldl (Keeps.refl _ _) fun u x k => State.countCore_keeps k (by decide))

theorem dispRun_busy (c : Core) (p : DispPlan) (rd s : State) : look (dispRun c p rd s).cores.chBusy 0 (chKey c 3) = p.busy := by
  unfold dispRun
  refine Keeps.chBusy (s := s) (vs := [.cs, .mbox, .hall, .merges, .words, .service, .tens, .counters, .fabric, .mgmt, .power]) ?_
  refine Keeps.foldl (Keeps.foldl (State.consume_keeps (Keeps.refl _ _) (by decide)) fun u r k => State.emit_keeps k (by decide)) fun u x k => ?_
  exact State.countCore_keeps k (by decide)

theorem dispatch_stores {c : Core} {s s1 : State} {desc : BitVec 10} {p : DispPlan} (hi : issues s c = true) (hp : hdspPlan c desc s = .ok p)
    (hc : s.claimPorts c p.ports = .ok s1) (hm : (dispRun c p s s1).mergesFit) :
    ∃ t, exec (.hdsp c desc) s = .next t ∧ leavesWords c p.outs p.ins s t ∧ look t.cores.chBusy 0 (chKey c 3) = p.busy ∧ Keeps unitViews s t := by
  have hok := hdspAct_ok hp hc hm
  refine ⟨_, congrArg Host.Outcome.next (slotOp_ok hi hok), ?_, ?_, (hdspAct_keeps (Keeps.refl _ _) (by decide)).getOk hok⟩
  · exact ((dispRun_writes c p s s1).issued hc).hold c _
  · rw [(holdTill_keeps _ _ _).eq_chBusy]
    exact dispRun_busy c p s s1

/-- Settles O16: what each of the three instructions runs, once its checks pass. -/
theorem pagesDescriptorsDispatch : Obligations.PagesDescriptorsDispatch := by
  unfold Obligations.PagesDescriptorsDispatch
  exact fun c s hi => ⟨fun desc ch page tag sb s1 hp hc => page_refills hi hp hc, fun e ch addr kind a s1 hp hc => descriptor_writes hi hp hc,
    fun desc p s1 hp hc hm => dispatch_stores hi hp hc hm⟩

end Sys2Proof.Machine
end

section
/-! SUPPORT. Words stored in HBM where no escrow write waits: they are taken in as in a core's space, beside their blocks' hallmarks
(12 R311, R317; 16 R430). -/

namespace Sys2Proof.Machine

open Sys2Proof Sys2Proof.Claims

set_option Elab.async false

/-! ### Generations kept -/

/-- The generations that a tenancy keeps. -/
def Tenancy.kept (n : Tenancy) : List Generation := n.escrow.gens

theorem kept_apart : Apart Tenancy.kept := fun _ _ _ _ _ => rfl

theorem nothingKept_of_fixes {s t : State} (h : nothingKept s) (k : Fixes Tenancy.kept s t) : nothingKept t := fun n => (k n).trans (h n)

theorem heldPage_none {s : State} (h : nothingKept s) (t key : Nat) : heldPage s t key = none := by
  unfold heldPage sealedFor
  rw [h t]
  split <;> rfl

theorem writeFore_kept {s : State} (h : nothingKept s) (t at' key : Nat) (w : MemWord) : s.writeFore t at' key w = s.writeWord .hbm key w := by
  unfold State.writeFore
  rw [heldPage_none h]

theorem writeWord_kept (s : State) (sp : Space) (a : Nat) (w : MemWord) : Fixes Tenancy.kept s (s.writeWord sp a w) :=
  .of_keeps (vs := [.cs, .mbox, .words]) (State.writeWord_keeps (Keeps.refl _ _) (by decide))

theorem setMerges_kept (s : State) (sp : Space) (m : Sparse MergeEntry) : Fixes Tenancy.kept s (s.setMerges sp m) :=
  .of_keeps (vs := [.merges]) (State.setMerges_keeps (Keeps.refl _ _) (by decide))

/-! ### Words taken in -/

theorem writeWhole_hbm {s : State} (h : nothingKept s) (t : Option Nat) (a : Nat) (w : MemWord) :
    Keeps [.tens, .power] (s.writeWord .hbm a w) (s.writeWhole t .hbm a w) ∧ Fixes Tenancy.kept s (s.writeWhole t .hbm a w) := by
  unfold State.writeWhole
  cases t with
  | none => exact ⟨Keeps.refl _ _, writeWord_kept _ _ _ _⟩
  | some t =>
    dsimp only
    rw [writeFore_kept h]
    exact ⟨State.charge_keeps (Keeps.refl _ _) (by decide), (writeWord_kept _ _ _ _).trans (.of_talks (charge_talks _ _ _ _) kept_apart.unspoken)⟩

theorem heldAt_writeWhole_hbm {s : State} (h : nothingKept s) (t : Option Nat) (a : Nat) (w : MemWord) (p : Bank × Nat) :
    heldAt (s.writeWhole t .hbm a w) p = (if p = place .hbm a then w else rawAt s p, waitsAt s p) := by
  rw [(writeWhole_hbm h t a w).1.held p]
  have hw : waitsAt (s.writeWord .hbm a w) p = waitsAt s p := rfl
  simp only [heldAt, rawAt_writeWord, hw]

/-- A write taken in at its place in HBM. -/
theorem heldAt_writeOut_hbm {s : State} (h : nothingKept s) (t : Option Nat) (o : Out) (p : Bank × Nat) :
    heldAt (s.writeOut t .hbm o) p = if p = place .hbm o.a then takeIn p.1 (heldAt s p) o else heldAt s p := by
  have hm : ∀ d, Space.hbm ≠ .mbox d := fun _ => nofun
  have hw : waitsAt s (place .hbm o.a) = (find s.hbm.merges o.a).map (fun e => (e.word, e.mask)) := rfl
  have hb : (place .hbm o.a).1 ≠ Bank.mbox := nofun
  unfold State.writeOut
  dsimp only
  cases he : find (mergesOf s .hbm) (mergeKey .hbm o.a) with
  | none =>
    rw [show find s.hbm.merges o.a = none from he] at hw
    dsimp only
    split
    · next hp =>
      have e : heldAt (s.setMerges .hbm (set (mergesOf s .hbm) (mergeKey .hbm o.a) { word := o.w, mask := o.mask })) p =
          (rawAt s p, if p = place .hbm o.a then some (o.w, o.mask) else waitsAt s p) := by
        simp only [heldAt, rawAt_setMerges, waitsAt_setMerges_set _ _ _ _ _ hm]
      rw [e]
      by_cases hpl : p = place .hbm o.a
      · rw [if_pos hpl, if_pos hpl, hpl, takeIn_none o hb hw, if_pos hp]
        rfl
      · rw [if_neg hpl, if_neg hpl]
        rfl
    · next hp =>
      rw [heldAt_writeWhole_hbm h]
      by_cases hpl : p = place .hbm o.a
      · rw [if_pos hpl, if_pos hpl, hpl, takeIn_none o hb hw, if_neg hp, hw]
        rfl
      · rw [if_neg hpl, if_neg hpl]
        rfl
  | some e =>
    rw [show find s.hbm.merges o.a = some e from he] at hw
    dsimp only
    split
    · next hp =>
      rw [heldAt_writeWhole_hbm (nothingKept_of_fixes h (setMerges_kept _ _ _)), waitsAt_setMerges_del _ _ _ _ hm, rawAt_setMerges]
      by_cases hpl : p = place .hbm o.a
      · rw [if_pos hpl, if_pos hpl, if_pos hpl, hpl, takeIn_some o hb hw, if_pos (show (mergeIn (e.word, e.mask) o).2 = allBytes from hp)]
        rfl
      · rw [if_neg hpl, if_neg hpl, if_neg hpl]
        rfl
    · next hp =>
      have e' : heldAt (s.setMerges .hbm (set (mergesOf s .hbm) (mergeKey .hbm o.a) (e.add o))) p =
          (rawAt s p, if p = place .hbm o.a then some (mergeIn (e.word, e.mask) o) else waitsAt s p) := by
        simp only [heldAt, rawAt_setMerges, waitsAt_setMerges_set _ _ _ _ _ hm]
        rfl
      rw [e']
      by_cases hpl : p = place .hbm o.a
      · rw [if_pos hpl, if_pos hpl, hpl, takeIn_some o hb hw, if_neg (show (mergeIn (e.word, e.mask) o).2 ≠ allBytes from hp)]
        rfl
      · rw [if_neg hpl, if_neg hpl]
        rfl

theorem writeOut_kept {s : State} (h : nothingKept s) (t : Option Nat) (o : Out) : Fixes Tenancy.kept s (s.writeOut t .hbm o) := by
  unfold State.writeOut
  dsimp only
  split
  · contradiction
  · split
    · exact (setMerges_kept _ _ _).trans (writeWhole_hbm (nothingKept_of_fixes h (setMerges_kept _ _ _)) _ _ _).2
    · exact setMerges_kept _ _ _
  · split
    · exact setMerges_kept _ _ _
    · exact (writeWhole_hbm h _ _ _).2

/-! ### Hallmarks -/

theorem foldSeal_kept (s : State) (t key : Nat) (ds : Option (List (BitVec 256))) : Fixes Tenancy.kept s (s.foldSeal t key ds) := by
  unfold State.foldSeal
  split
  · exact .refl s
  · exact .modTen fun _ => rfl

theorem foldTwin_kept (s : State) (t : Nat) (h : BitVec 64) : Fixes Tenancy.kept s (s.foldTwin t h) := by
  unfold State.foldTwin
  refine .ite (.refl s) (.foldl (.refl s) fun u r => .ite (.ite ?_ ?_) (.refl u))
  · exact .of_keeps (vs := [.counters]) (State.countTen_keeps (Keeps.refl _ _) (by decide))
  · exact .modTen fun _ => rfl

theorem heldAt_writeWord_hbm (s : State) (key : Nat) (w : MemWord) (p : Bank × Nat) :
    heldAt (s.writeWord .hbm key w) p = (if p = (.hbm, key) then w else rawAt s p, waitsAt s p) := by
  have hw : waitsAt (s.writeWord .hbm key w) p = waitsAt s p := rfl
  simp only [heldAt, rawAt_writeWord, hw]
  rfl

theorem writeHall_hbm (s : State) (a : Nat) (h : BitVec 64) : s.writeHall .hbm a h = s.writeWord .hbm (hallWord a) ⟨h.setWidth 256, 0⟩ := rfl

/-- A block's hallmark is written in its word, and changes no other. -/
theorem writeHallT_hbm {s : State} (h : nothingKept s) (t : Option Nat) (b : Nat) (w : BitVec 64) (ds : Option (List (BitVec 256))) :
    Fixes Tenancy.kept s (s.writeHallT t .hbm b w ds) ∧
    ∀ p, heldAt (s.writeHallT t .hbm b w ds) p = (if p = (.hbm, hallWord (128 * b)) then ⟨w.setWidth 256, 0⟩ else rawAt s p, waitsAt s p) := by
  unfold State.writeHallT
  rw [writeHall_hbm]
  generalize hallWord (128 * b) = key
  have hheld := heldAt_writeWord_hbm s key ⟨w.setWidth 256, 0⟩
  cases t with
  | none => exact ⟨writeWord_kept _ _ _ _, hheld⟩
  | some t =>
    dsimp only
    rw [writeFore_kept h]
    refine ⟨((writeWord_kept _ _ _ _).trans (foldSeal_kept _ _ _ _)).trans (foldTwin_kept _ _ _), fun p => ?_⟩
    rw [← hheld p]
    exact Keeps.held (vs := [.tens, .counters]) (State.foldTwin_keeps (State.foldSeal_keeps (Keeps.refl _ _) (by decide)) (by decide)) p

/-! ### Runs of words -/

/-- From `s` to `t` the words of `ws` are taken in, in order, and every other word stands, but for those of `hs`. -/
def StoresBut (hs : List (Bank × Nat)) (ws : List ((Bank × Nat) × Out)) (s t : State) : Prop :=
  ∀ p, p ∉ hs → heldAt t p = ((ws.filter (fun x => x.1 = p)).map (·.2)).foldl (takeIn p.1) (heldAt s p)

section StoresBut

variable {hs hs' : List (Bank × Nat)} {ws ws' : List ((Bank × Nat) × Out)} {rs : List (Bank × Nat)} {s t u : State}

theorem StoresBut.append (h : StoresBut hs ws s t) (k : StoresBut hs' ws' t u) : StoresBut (hs ++ hs') (ws ++ ws') s u := by
  intro p hp
  obtain ⟨h1, h2⟩ := not_or.mp (fun e => hp (List.mem_append.mpr e))
  rw [k p h2, h p h1, List.filter_append, List.map_append, List.foldl_append]

theorem StoresBut.of_held (h : ∀ p, p ∉ hs → heldAt t p = heldAt s p) : StoresBut hs [] s t := h

/-- Stores after reads. -/
theorem StoresBut.after_reads (h : Writes [] rs s t) (k : StoresBut hs ws t u) : writesBut hs ws rs s u := by
  intro p hp
  obtain ⟨w, hw, e⟩ := h p
  exact ⟨w, hw, (k p hp).trans (by rw [e]; rfl)⟩

theorem StoresBut.mono (h : StoresBut hs ws s t) (hh : hs ⊆ hs') : StoresBut hs' ws s t := fun p hp => h p fun e => hp (hh e)

/-- Stores held to their operation's end. -/
theorem StoresBut.hold (h : StoresBut hs ws s t) (c : Core) (n : Nat) : StoresBut hs ws s (t.holdTill c n) := fun p hp =>
  (heldAt_holdTill t c n p).trans (h p hp)

end StoresBut

theorem writeOuts_hbm {s : State} (h : nothingKept s) (t : Option Nat) (outs : List Out) :
    Fixes Tenancy.kept s (outs.foldl (fun (s : State) o => s.writeOut t .hbm o) s) ∧
    StoresBut [] (inSpace .hbm outs) s (outs.foldl (fun (s : State) o => s.writeOut t .hbm o) s) := by
  induction outs generalizing s with
  | nil => exact ⟨.refl s, fun _ _ => rfl⟩
  | cons o r ih =>
    have h1 := writeOut_kept h t o
    obtain ⟨h2, h3⟩ := ih (nothingKept_of_fixes h h1)
    refine ⟨h1.trans h2, fun p hp => ?_⟩
    rw [List.foldl_cons, h3 p hp, heldAt_writeOut_hbm h]
    simp only [inSpace, List.map_cons, List.filter_cons, decide_eq_true_eq]
    by_cases e : p = place .hbm o.a
    · rw [if_pos e, if_pos e.symm]
      rfl
    · rw [if_neg e, if_neg (Ne.symm e)]

/-- Blocks' hallmarks, written one after another. -/
theorem writeHalls_hbm {s : State} (h : nothingKept s) (t : Option Nat) (bs : List Nat) (w : State → Nat → BitVec 64)
    (ds : Nat → Option (List (BitVec 256))) :
    Fixes Tenancy.kept s (bs.foldl (fun (s : State) b => s.writeHallT t .hbm b (w s b) (ds b)) s) ∧
    StoresBut (bs.map (fun b => (.hbm, hallWord (128 * b)))) [] s (bs.foldl (fun (s : State) b => s.writeHallT t .hbm b (w s b) (ds b)) s) := by
  induction bs generalizing s with
  | nil => exact ⟨.refl s, fun _ _ => rfl⟩
  | cons b r ih =>
    obtain ⟨h1, h2⟩ := writeHallT_hbm h t b (w s b) (ds b)
    obtain ⟨h3, h4⟩ := ih (nothingKept_of_fixes h h1)
    refine ⟨h1.trans h3, fun p hp => ?_⟩
    rw [List.map_cons, List.mem_cons, not_or] at hp
    rw [List.foldl_cons, h4 p hp.2, h2 p, if_neg hp.1]
    rfl

/-- A run of words written to HBM is taken in, each at its place, beside the hallmarks of its blocks. -/
theorem emitWith_hbm {s : State} (h : nothingKept s) (outs : List Out) (hall : BitVec 64 → Nat → BitVec 64) :
    Fixes Tenancy.kept s (s.emitWith .hbm outs hall) ∧ StoresBut (hallsOf .hbm outs) (inSpace .hbm outs) s (s.emitWith .hbm outs hall) := by
  cases outs with
  | nil => exact ⟨.refl s, fun _ _ => rfl⟩
  | cons o r =>
    obtain ⟨h1, h2⟩ := writeOuts_hbm h (ownerOf s .hbm o.a) (o :: r)
    obtain ⟨h3, h4⟩ := writeHalls_hbm (nothingKept_of_fixes h h1) (ownerOf s .hbm o.a) (blocksOf ((o :: r).map (·.a)))
      (fun s b => hall (hallOf s .hbm (128 * b)) b)
      (fun b => if wholeBlock ((o :: r).map (·.a)) b then some (((o :: r).filter (fun o => o.a / 128 = b)).map (·.w.data)) else none)
    have h5 := h2.append h4
    rw [List.append_nil] at h5
    exact ⟨h1.trans h3, h5⟩

/-- A run of words written to a space is taken in, where no escrow write waits. -/
theorem emitWith_stores {s : State} {sp : Space} (h : sp = .hbm → nothingKept s) (outs : List Out) (hall : BitVec 64 → Nat → BitVec 64) :
    (sp = .hbm → Fixes Tenancy.kept s (s.emitWith sp outs hall)) ∧ StoresBut (hallsOf sp outs) (inSpace sp outs) s (s.emitWith sp outs hall) := by
  cases sp with
  | hbm => exact ⟨fun _ => (emitWith_hbm (h rfl) outs hall).1, (emitWith_hbm (h rfl) outs hall).2⟩
  | cs c => exact ⟨nofun, fun p _ => heldAt_emitWith s (near_cs c) outs hall p⟩
  | mbox c => exact ⟨nofun, fun p _ => heldAt_emitWith s (near_mbox c) outs hall p⟩

end Sys2Proof.Machine
end

section
/-! SUPPORT. A stash of a block without an element that is not zero packs no word, and yet writes its block's hallmark (08 R206 to R210). -/

namespace Sys2Proof.Machine

open Sys2Proof Sys2Proof.Claims

set_option Elab.async false

/-- A running job, of the whole grid and its ports, with the first 1,024 pages of stack 0, in a course of its schedule. -/
def stashJob : Tenancy where
  def_ := { exists_ := true, h := 8, ports := 0xFFFF, shares := [(0, (0, 1024))], parts := [(0, (0, 1024))] }
  load := { st := .running, header := (7#2048 <<< 16) ||| (4#2048 <<< 256) ||| (1#2048 <<< 512) ||| (1#2048 <<< 528) ||| (1#2048 <<< 544) |||
    (1#2048 <<< 560) ||| (9#2048 <<< 576) }
  course := { inCourse := true, start := 49152 }

/-- Core 0 with the descriptor of a stash of one word of BF16 zeros of its store to HBM: area from word 0, directory at word 512, bitmaps from 600. The
word of the area's first hallmark holds something that decodes to no word. -/
def zeroStash : State :=
  { State.reset with
    tens := [(0, stashJob)]
    cores := { State.reset.cores with
      desc := [(0, { kind := 2, data := (1#512 <<< 4) ||| (1#512 <<< 6) ||| (1#512 <<< 30) ||| (1#512 <<< 34) ||| (1#512 <<< 44) ||| (512#512 <<< 169) |||
        (600#512 <<< 203) })]
      hall := [(0, ⟨mkHall crcZeroBlock 0 1 false false false 0, .clean⟩)] }
    hbm := { State.reset.hbm with words := [(hallWord 0, ⟨0, 1⟩)] }
    time := { State.reset.time with tally := 49252, pll := .freeRun, lastCourse := some 3 } }

/-- Where the hallmark of block 0 of stack 0 lies. -/
def hallPlace : Bank × Nat := (.hbm, hallWord 0)

theorem hallPlace_eq : hallPlace = (.hbm, hallWord 0) := rfl

/-- What is asked of a move of core 0 on channel 3 at rate 8, with its plan and the states that its claims leave. -/
def moveAsk (s : State) (q : MovePlan → State → State → Bool) : Bool :=
  match hmovePlan 0 0 3 8 s with
  | .ok p => match s.claimPorts 0 (p.portRuns (unitClock s 0) 8 (moveLat s (bitsN p.m.d 3 2) p.conv)) with
    | .ok s1 => match s1.claimSlots 0 3 (p.slots 8) with
      | .ok s2 => q p s1 s2
      | .error _ => false
    | .error _ => false
  | .error _ => false

theorem moveAsk_ok {s : State} {q : MovePlan → State → State → Bool} (h : moveAsk s q = true) : ∃ p s1 s2, hmovePlan 0 0 3 8 s = .ok p ∧
    s.claimPorts 0 (p.portRuns (unitClock s 0) 8 (moveLat s (bitsN p.m.d 3 2) p.conv)) = .ok s1 ∧ s1.claimSlots 0 3 (p.slots 8) = .ok s2 ∧
    q p s1 s2 = true := by
  unfold moveAsk at h
  cases hp : hmovePlan 0 0 3 8 s with
  | error e => rw [hp] at h; cases h
  | ok p =>
    rw [hp] at h
    dsimp only at h
    cases h1 : s.claimPorts 0 (p.portRuns (unitClock s 0) 8 (moveLat s (bitsN p.m.d 3 2) p.conv)) with
    | error e => rw [h1] at h; cases h
    | ok s1 =>
      rw [h1] at h
      dsimp only at h
      cases h2 : s1.claimSlots 0 3 (p.slots 8) with
      | error e => rw [h2] at h; cases h
      | ok s2 =>
        rw [h2] at h
        exact ⟨p, s1, s2, rfl, h1, h2, h⟩

/-- No more merge entries are open than a core store or a stack has. -/
def fewMerges (s : State) : Bool := decide (s.cores.merges.length ≤ 16) && decide (s.hbm.merges.length ≤ 64)

theorem mergesFit_of_few {s : State} (h : fewMerges s = true) : s.mergesFit := by
  obtain ⟨h1, h2⟩ := Bool.and_eq_true_iff.mp h
  exact ⟨fun x _ => (List.length_filter_le _ _).trans (of_decide_eq_true h1), fun x _ => (List.length_filter_le _ _).trans (of_decide_eq_true h2)⟩

/-- No tenancy keeps a generation. -/
def keepsNone (s : State) : Bool := s.tens.all (fun x => x.2.escrow.gens.isEmpty)

theorem nothingKept_of_none {s : State} (h : keepsNone s = true) : nothingKept s := by
  intro n
  unfold State.ten look
  cases e : find s.tens n with
  | none => rfl
  | some x => exact List.isEmpty_iff.mp (List.all_eq_true.mp h _ (find_mem e))

/-- A stashing move before its words are written. -/
def stashFrom (p : MovePlan) (n : Nat) (rd s : State) : State :=
  let plane := p.m.srcSide.2 * p.m.tiles
  let s1 := s.takeChannel 0 3 (p.first + ceilDiv p.m.count 8)
  let s2 := (s1.checkCrc p.rv 0 p.m.ssp p.m.sb p.m.count).checkCrc p.rv 0 p.m.ssp p.m.ssh plane
  let s3 := (s2.noteReads p.m0.ssp p.reads).noteReads p.m.ssp ((upTo plane).map (p.m.ssh + ·))
  let s4 := (s3.noteMove rd 0 p.m p.w p.key).quantUntil rd 0 3 (decide (p.w.reps ≠ []))
    (p.first + ceilDiv p.m.count 8 + moveLat rd (bitsN p.m.d 3 2) p.conv)
  s4.sumHaul 0 13 n

theorem moveRun_stash {p : MovePlan} {st : StashPlan} (h : p.stash = some st) (rd s : State) :
    moveRun 0 3 8 p rd s = (stashFrom p (st.outs p.w.shs).length rd s).putStash (tenNo rd 0) 0 p.m st p.w.shs := by
  unfold moveRun
  dsimp only
  rw [h]
  rfl

/-- Neither a run's words nor its blocks' hallmarks lie at the hallmark of block 0. -/
def missesHall (outs : List Out) : Bool := !(hallsOf .hbm outs).contains hallPlace && !((inSpace .hbm outs).map (·.1)).contains hallPlace

/-- One block, without a word, at the first word of its area, stored beside the hallmark of block 0. -/
def lonelyBlock (st : StashPlan) (shs : List Out) : Bool :=
  (match st.blks with | [k] => k.ws.isEmpty && decide ((st.base + k.off) / 128 = 0) | _ => false) && !st.short && !st.pooled &&
    missesHall st.dirOuts && missesHall st.mapOuts && missesHall shs && missesHall (st.outs shs)

set_option maxRecDepth 1000000 in
/-- The move stashes one block without a word, it has room, nothing is kept, and the words it reads do not hold the hallmark of block 0. -/
theorem zeroStash_met : moveAsk zeroStash (fun p _ s2 => fewMerges (moveRun 0 3 8 p zeroStash s2) &&
    p.stash.any (fun (st : StashPlan) => lonelyBlock st p.w.shs && keepsNone (stashFrom p (st.outs p.w.shs).length zeroStash s2)) &&
    !(p.reads.map (place p.m0.ssp) ++ ((upTo (p.m.srcSide.2 * p.m.tiles)).map (p.m.ssh + ·)).map (place p.m.ssp)).contains hallPlace) = true := by
  decide +kernel

theorem lonelyBlock_long {st : StashPlan} {shs : List Out} (h : lonelyBlock st shs = true) : st.short = false := by
  unfold lonelyBlock at h
  simp only [Bool.and_eq_true, Bool.not_eq_true'] at h
  obtain ⟨⟨⟨⟨⟨⟨-, hs⟩, -⟩, -⟩, -⟩, -⟩, -⟩ := h
  exact hs

theorem lonelyBlock_misses {st : StashPlan} {shs : List Out} (h : lonelyBlock st shs = true) : missesHall (st.outs shs) = true :=
  (Bool.and_eq_true_iff.mp h).2

/-! ### What the stash leaves at the hallmark -/

theorem nothingKept_of_keeps {vs : List View} {s t : State} (h : nothingKept s) (k : Keeps vs s t) (hv : View.tens ∉ vs := by decide) : nothingKept t :=
  nothingKept_of_fixes h (.of_keeps k hv)

theorem missesHall_iff {outs : List Out} : missesHall outs = true ↔ hallPlace ∉ hallsOf .hbm outs ∧ hallPlace ∉ (inSpace .hbm outs).map (·.1) := by
  simp [missesHall]

/-- A place at which nothing is stored stands. -/
theorem StoresBut.stands {hs : List (Bank × Nat)} {ws : List ((Bank × Nat) × Out)} {s t : State} (h : StoresBut hs ws s t) {p : Bank × Nat}
    (hp : p ∉ hs) (hw : p ∉ ws.map (·.1)) : heldAt t p = heldAt s p := by
  rw [h p hp, List.filter_eq_nil_iff.mpr fun x hx => by simpa using fun e => hw (List.mem_map.mpr ⟨x, hx, e⟩)]
  rfl

/-- A run of words that misses the hallmark leaves it. -/
theorem emit_misses {s : State} (h : nothingKept s) (f g : Nat) {outs : List Out} (hm : missesHall outs = true) :
    nothingKept (s.emit .hbm f g outs) ∧ rawAt (s.emit .hbm f g outs) hallPlace = rawAt s hallPlace := by
  obtain ⟨h1, h2⟩ := emitWith_hbm h outs (fun old b => newHall old f g outs b)
  obtain ⟨m1, m2⟩ := missesHall_iff.mp hm
  exact ⟨nothingKept_of_fixes h h1, congrArg Prod.fst (h2.stands m1 m2)⟩

/-- A block without a word leaves its hallmark. -/
theorem putBlock_hall {t : Nat} {m : Move} {st : StashPlan} {k : StashBlk} {s : State} (hs : nothingKept s) (hw : k.ws = []) (hp : st.pooled = false)
    (hz : (st.base + k.off) / 128 = 0) :
    nothingKept (s.putBlock t 0 m st k) ∧ (rawAt (s.putBlock t 0 m st k) hallPlace).syn = 0 := by
  unfold State.putBlock StashPlan.blockOuts
  rw [hw, hp, hz]
  obtain ⟨h1, h2⟩ := writeHallT_hbm hs (some t) 0 k.hall (some k.full)
  have hk : Keeps [.counters] (s.writeHallT (some t) .hbm 0 k.hall (some k.full))
      (((s.writeHallT (some t) .hbm 0 k.hall (some k.full)).countCore 0 0x150 (1024 / elemBits m.df)).countCore 0 0x158 k.gone) :=
    State.countCore_keeps (State.countCore_keeps (Keeps.refl _ _) (by decide)) (by decide)
  refine ⟨nothingKept_of_keeps (nothingKept_of_fixes hs h1) hk, ?_⟩
  have he := (hk.held hallPlace).trans (h2 hallPlace)
  rw [Nat.mul_zero, if_pos hallPlace_eq] at he
  exact congrArg (fun x => x.1.syn) he

/-- The hallmark of a block without a word is written, and no word after it lies there. -/
theorem putStash_hall {t : Nat} {m : Move} {st : StashPlan} {shs : List Out} {s : State} (hl : lonelyBlock st shs = true) (hs : nothingKept s) :
    (rawAt (s.putStash t 0 m st shs) hallPlace).syn = 0 := by
  unfold lonelyBlock at hl
  simp only [Bool.and_eq_true, Bool.not_eq_true'] at hl
  obtain ⟨⟨⟨⟨⟨⟨hb, hsh⟩, hpo⟩, hd⟩, hm⟩, hx⟩, -⟩ := hl
  split at hb
  case h_2 => cases hb
  case h_1 k hk =>
    obtain ⟨hw, hz⟩ := Bool.and_eq_true_iff.mp hb
    obtain ⟨h1, h2⟩ := putBlock_hall (t := t) (m := m) hs (List.isEmpty_iff.mp hw) hpo (of_decide_eq_true hz)
    unfold State.putStash
    dsimp only
    rw [hsh, hk, List.foldl_cons, List.foldl_nil, if_neg (by decide)]
    obtain ⟨h3, h4⟩ := emit_misses h1 0xF (bitsN m.d 90 75) hd
    obtain ⟨h5, h6⟩ := emit_misses h3 0xF (bitsN m.d 90 75) hm
    rw [(emit_misses h5 0xE (bitsN m.d 90 75) hx).2, h6, h4, h2]

/-! ### O13 -/

theorem rawAt_holdTill (s : State) (c : Core) (n : Nat) (p : Bank × Nat) : rawAt (s.holdTill c n) p = rawAt s p := rfl

/-- The cycle of a move's end. -/
def MovePlan.lasts (p : MovePlan) (rd : State) (c : Core) (rate : BitVec 2) : Nat :=
  opEnd (unitClock rd c) (p.portRuns (unitClock rd c) (2 ^ rate.toNat) (moveLat rd (bitsN p.m.d 3 2) p.conv))

theorem hmoveAct_ok {c : Core} {desc : BitVec 10} {ch rate : BitVec 2} {rd s s1 s2 : State} {p : MovePlan} (hp : hmovePlan c desc ch (2 ^ rate.toNat) rd = .ok p)
    (h1 : s.claimPorts c (p.portRuns (unitClock rd c) (2 ^ rate.toNat) (moveLat rd (bitsN p.m.d 3 2) p.conv)) = .ok s1)
    (h2 : s1.claimSlots c ch.toNat (p.slots (2 ^ rate.toNat)) = .ok s2) (hm : (moveRun c ch (2 ^ rate.toNat) p rd s2).mergesFit)
    (hsh : ∀ st, p.stash = some st → st.short = false) :
    hmoveAct c desc ch rate rd s = .ok ((moveRun c ch (2 ^ rate.toNat) p rd s2).holdTill c (p.lasts rd c rate)) := by
  unfold hmoveAct
  dsimp only
  rw [hp]
  show (s.claimPorts c _ >>= _) = _
  rw [h1]
  show (s1.claimSlots c _ _ >>= _) = _
  rw [h2]
  show ((moveRun c ch (2 ^ rate.toNat) p rd s2).holdMerges rd c _ >>= _) = _
  rw [holdMerges_fit hm]
  show (if _ then _ else _) = _
  rw [if_neg]
  · rfl
  · cases hs : p.stash with
    | none => nofun
    | some st => simp [hsh st hs]

theorem exec_hmove {c : Core} {desc : BitVec 10} {ch rate : BitVec 2} {s t : State} (hi : issues s c = true) (h : hmoveAct c desc ch rate s s = .ok t) :
    exec (.hmove c desc ch rate) s = .next t := congrArg Host.Outcome.next (slotOp_ok hi h)

/-- The stash's words read and written leave the hallmark, by the statement, and it is written. -/
theorem hallPlace_stands {hs rs : List (Bank × Nat)} {ws : List ((Bank × Nat) × Out)} {s t : State} (h : writesBut hs ws rs s t) {p : Bank × Nat}
    (hh : p ∉ hs) (hw : p ∉ ws.map (·.1)) (hr : p ∉ rs) : rawAt t p = rawAt s p := by
  obtain ⟨w, e, k⟩ := h p hh
  rw [List.filter_eq_nil_iff.mpr fun x hx => by simpa using fun e => hw (List.mem_map.mpr ⟨x, hx, e⟩)] at k
  exact (congrArg Prod.fst k).trans (e.resolve_right fun x => hr x.1)

theorem zeroStash_hall : (rawAt zeroStash hallPlace).syn = 1 := by decide +kernel

theorem zeroStash_issues : issues zeroStash 0 = true := by decide +kernel

/-- Refutes O13: a stash of a block all of whose elements are zero packs no word of it, so that the words it stores lie in no block of its area, and writes
the block's hallmark all the same: a word of HBM, neither stored nor read, changes. -/
theorem not_haulMoves : ¬ Obligations.HaulMoves := by
  unfold Obligations.HaulMoves
  intro h
  obtain ⟨p, s1, s2, hp, h1, h2, hq⟩ := moveAsk_ok zeroStash_met
  simp only [Bool.and_eq_true, Bool.not_eq_true'] at hq
  obtain ⟨⟨hm, hst⟩, hr⟩ := hq
  cases hs : p.stash with
  | none => rw [hs] at hst; cases hst
  | some st =>
    rw [hs] at hst
    obtain ⟨hl, hk⟩ := Bool.and_eq_true_iff.mp hst
    have hsh : ∀ x, p.stash = some x → x.short = false := fun x hx => by
      rw [← Option.some.inj (hs.symm.trans hx)]
      exact lonelyBlock_long hl
    obtain ⟨t, ht, -, -, -, hw, -⟩ := h 0 0 3 3 zeroStash s1 s2 p zeroStash_issues hp h1 h2 (mergesFit_of_few hm) hsh
    have hok := hmoveAct_ok (c := 0) (desc := 0) (ch := 3) (rate := 3) (rd := zeroStash) hp h1 h2 (mergesFit_of_few hm) hsh
    have he := Host.Outcome.next.inj ((exec_hmove zeroStash_issues hok).symm.trans ht)
    obtain ⟨-, hb⟩ := hw st hs (nothingKept_of_none (by decide +kernel))
    obtain ⟨m1, m2⟩ := missesHall_iff.mp (lonelyBlock_misses hl)
    have hst := congrArg MemWord.syn (hallPlace_stands hb m1 m2 (by simpa only [List.contains_eq_mem, decide_eq_false_iff_not] using hr))
    rw [zeroStash_hall, ← he, rawAt_holdTill] at hst
    have h0 := putStash_hall (t := tenNo zeroStash 0) (m := p.m) hl (nothingKept_of_none hk)
    rw [← moveRun_stash hs] at h0
    exact absurd (h0.symm.trans hst) (by decide)

end Sys2Proof.Machine
end

section
/-! SUPPORT. Gathers and scatters (05 R121 to R126; 11 R299): their words join the channel's reads or are written, after those of their list and rows are
read. -/

namespace Sys2Proof.Machine

open Sys2Proof Sys2Proof.Claims

set_option Elab.async false

/-! ### Reads leave the generations kept -/

theorem chargeRead_talks (s : State) (sp : Space) (a : Nat) : Talks s (s.chargeRead sp a) := by
  unfold State.chargeRead
  split
  · exact charge_talks _ _ _ _
  · exact Talks.refl s
  · exact charge_talks _ _ _ _

theorem noteRead_kept (s : State) (sp : Space) (a : Nat) : Fixes Tenancy.kept s (s.noteRead sp a) := by
  have h0 : Fixes Tenancy.kept s (s.chargeRead sp a) := .of_talks (chargeRead_talks s sp a) kept_apart.unspoken
  have hc (u : State) (o : Nat) : Fixes Tenancy.kept u (u.count o 1) := .of_talks (count_talks u o 1) kept_apart.unspoken
  have h1 : Fixes Tenancy.kept s (((s.chargeRead sp a).markUncorr sp a).writeWord sp a (decodeWord (rawWord s sp a)).w) :=
    (h0.trans (.of_keeps (vs := [.service]) (State.markUncorr_keeps (Keeps.refl _ _) (by decide)))).trans (writeWord_kept _ _ _ _)
  unfold State.noteRead
  dsimp only
  refine .ite ?_ (.ite ?_ h0)
  · split
    · exact h0.trans (hc _ _)
    · exact h0
  · split
    · exact h1.trans (hc _ _)
    · exact h1

theorem noteReads_kept (s : State) (sp : Space) (as : List Nat) : Fixes Tenancy.kept s (s.noteReads sp as) :=
  Fixes.foldl (.refl s) fun u a => noteRead_kept u sp a

theorem noteHall_kept (s : State) (sp : Space) (a : Nat) : Fixes Tenancy.kept s (s.noteHall sp a) := by
  unfold State.noteHall
  split
  · split
    · exact .of_talks (count_talks _ _ _) kept_apart.unspoken
    · exact .refl s
  · exact .refl s
  · exact noteRead_kept _ _ _

theorem poisonConsumed_kept (s : State) (c : Core) (unit kind addr : Nat) : Fixes Tenancy.kept s (s.poisonConsumed c unit kind addr) := by
  unfold State.poisonConsumed
  split
  · exact .refl s
  · refine Fixes.trans (.of_keeps (vs := [.mgmt, .counters]) ?_) (kept_apart.jobError _ _ _)
    exact State.countTen_keeps (State.dayCore_keeps (Keeps.refl _ _) (by decide)) (by decide)

theorem consume_kept (s rd : State) (c : Core) (unit : Nat) (sp : Space) (as : List Nat) : Fixes Tenancy.kept s (s.consume rd c unit sp as) := by
  have h : Fixes Tenancy.kept s ((blocksOf as).foldl (fun s b => s.noteHall sp (128 * b)) (s.noteReads sp as)) :=
    Fixes.foldl (noteReads_kept s sp as) fun u b => noteHall_kept u sp (128 * b)
  unfold State.consume
  dsimp only
  split
  · exact h.trans (poisonConsumed_kept _ _ _ _ _)
  · exact h

theorem noteTile_kept (s : State) (c : Core) (unit region : Nat) (tile : Int) : Fixes Tenancy.kept s (s.noteTile c unit region tile) := by
  unfold State.noteTile
  split
  · split
    · exact .of_tens rfl
    · refine Fixes.trans (.of_keeps (vs := [.fresh, .mgmt]) ?_) (poisonConsumed_kept _ _ _ _ _)
      exact State.addFigure_keeps (State.draw_keeps (Keeps.refl _ _) (by decide)) (by decide)
    · exact .refl s
  · exact .refl s

theorem displace_kept (s : State) (c : Core) (rs : List (Nat × Nat)) : Fixes Tenancy.kept s (s.displace c rs) := by
  unfold State.displace
  exact Fixes.foldl (.refl s) fun u x => .ite (.modTen fun _ => rfl) (.refl u)

theorem placeReqs_kept (s : State) (t : Nat) (rs : List HbmReq) : Fixes Tenancy.kept s (s.placeReqs t rs) := .of_tens rfl

theorem claimSlots_kept {s t : State} {c : Core} {ch : Nat} {rs : List (Nat × Nat)} (h : s.claimSlots c ch rs = .ok t) : Fixes Tenancy.kept s t := by
  unfold State.claimSlots at h
  dsimp only at h
  split at h
  · cases h
    exact .refl s
  · split at h
    · cases h
      exact (displace_kept _ _ _).trans (placeReqs_kept _ _ _)
    · obtain ⟨_, _, h⟩ := bind_ok h
      cases h
      exact Fixes.foldl (.of_tens rfl) fun u r => kept_apart.progFaultAt _ _ _ _ _ _ _

/-! ### What a gather leaves before its words are delivered -/

/-- A gather or scatter with its list and rows read. -/
def gathRead (c : Core) (ch : BitVec 2) (n : Nat) (p : GathPlan) (rd s : State) : State :=
  let u := unitClock rd c
  let s1 := s.takeChannel c ch.toNat (u + 1 + n * p.g.cycles)
  let s2 := (s1.consume rd c 7 (.cs c) p.lws).noteReads (spaceOf c p.g.ssp) p.r.reads
  let s3 := p.r.note.foldl (fun (s : State) (x : Nat × Int) => s.noteTile c 7 x.1 x.2) (s2.report (tenNo rd c) p.r.reps)
  ((s3.countCore c 0x100 p.r.rows).countCore c 0x108 p.r.pads).quantUntil rd c 3 (decide (p.r.reps ≠ []))
    (u + 1 + n * p.g.cycles + moveLat rd p.g.ssp false + 4)

/-- The cycle of element word `k`. -/
def gathAtCycle (c : Core) (n : Nat) (p : GathPlan) (rd : State) (k : Nat) : Nat :=
  unitClock rd c + 1 + nth p.r.ats (n * p.g.cycles) k + moveLat rd p.g.ssp false

theorem gathRun_eq (c : Core) (ch : BitVec 2) (n : Nat) (p : GathPlan) (rd s : State) : gathRun c ch n p rd s =
    ((gathRead c ch n p rd s).deliver c ch.toNat p.g.ssp (spaceOf c p.g.dsp) p.r.els (gathAtCycle c n p rd) (fun _ => none)
      (fun old b => newHall old p.g.f (bitsN p.g.d 187 172) p.r.els b)).deliver c ch.toNat p.g.ssp (spaceOf c p.g.dsp) (mergeShingles p.r.shs)
      (fun _ => gathAtCycle c n p rd p.r.els.length) (fun _ => none)
      (fun old b => newHall old 0xE (bitsN p.g.d 187 172) (mergeShingles p.r.shs) b) := rfl

theorem quantUntil_chBusy (s rd : State) (c : Core) (slot : Nat) (yes : Bool) (u : Nat) :
    (s.quantUntil rd c slot yes u).cores.chBusy = s.cores.chBusy := by
  unfold State.quantUntil
  split <;> rfl

/-- What its reads leave. -/
theorem gathRead_after (c : Core) (ch : BitVec 2) (n : Nat) (p : GathPlan) (rd s : State) :
    Writes [] (p.lws.map (place (.cs c)) ++ p.r.reads.map (place (spaceOf c p.g.ssp))) s (gathRead c ch n p rd s) ∧
    Fixes Tenancy.kept s (gathRead c ch n p rd s) ∧ (gathRead c ch n p rd s).cores.reads = s.cores.reads ∧
    look (gathRead c ch n p rd s).cores.chBusy 0 (chKey c ch.toNat) = unitClock rd c + 1 + n * p.g.cycles := by
  have h1 := takeChannel_keeps s c ch.toNat (unitClock rd c + 1 + n * p.g.cycles)
  unfold gathRead
  dsimp only
  generalize hs1 : s.takeChannel c ch.toNat (unitClock rd c + 1 + n * p.g.cycles) = s1 at h1 ⊢
  generalize hs2 : (s1.consume rd c 7 (.cs c) p.lws).noteReads (spaceOf c p.g.ssp) p.r.reads = s2
  generalize hs3 : p.r.note.foldl (fun (s : State) (x : Nat × Int) => s.noteTile c 7 x.1 x.2) (s2.report (tenNo rd c) p.r.reps) = s3
  generalize hs4 : (s3.countCore c 0x100 p.r.rows).countCore c 0x108 p.r.pads = s4
  have k2 : Keeps [.cs, .mbox, .words, .service, .tens, .counters, .fabric, .mgmt, .power] s1 s2 :=
    hs2 ▸ State.noteReads_keeps (State.consume_keeps (Keeps.refl _ _) (by decide)) (by decide)
  have k3 : Keeps [.stores, .tens, .counters, .fabric, .mgmt, .power, .fresh] s2 s3 :=
    hs3 ▸ Keeps.foldl (State.report_keeps (Keeps.refl _ _) (by decide)) fun u x k => State.noteTile_keeps k (by decide)
  have k4 : Keeps [.counters] s3 s4 := hs4 ▸ State.countCore_keeps (State.countCore_keeps (Keeps.refl _ _) (by decide)) (by decide)
  have k5 (u : Nat) (y : Bool) : Keeps [.busy] s4 (s4.quantUntil rd c 3 y u) := State.quantUntil_keeps (Keeps.refl _ _) (by decide)
  have k35 (u : Nat) (y : Bool) : Keeps [.stores, .tens, .counters, .fabric, .mgmt, .power, .fresh, .busy] s2 (s4.quantUntil rd c 3 y u) :=
    ((k3.mono (by decide)).trans (k4.mono (by decide))).trans ((k5 u y).mono (by decide))
  refine ⟨?_, ?_, ?_, ?_⟩
  · have w2 : Writes [] (p.lws.map (place (.cs c)) ++ p.r.reads.map (place (spaceOf c p.g.ssp))) s1 s2 :=
      hs2 ▸ (writes_consume_cs s1 rd c c 7 p.lws).after_reads (writes_noteReads _ _ _)
    exact (w2.after_keeps h1).of_keeps (k35 _ _)
  · have f2 : Fixes Tenancy.kept s1 s2 := hs2 ▸ (consume_kept _ _ _ _ _ _).trans (noteReads_kept _ _ _)
    have f3 : Fixes Tenancy.kept s2 s3 := hs3 ▸ Fixes.foldl (.of_keeps (State.report_keeps (vs := [.stores]) (Keeps.refl _ _) (by decide)))
      fun u x => noteTile_kept u _ _ _ _
    exact (((Fixes.of_keeps h1).trans f2).trans f3).trans ((Fixes.of_keeps k4).trans (.of_keeps (k5 _ _)))
  · exact (k35 _ _).eq_reads.trans (k2.eq_reads.trans h1.eq_reads)
  · rw [quantUntil_chBusy]
    exact Keeps.chBusy (s := s) (hs1 ▸ ((k2.mono (by decide)).trans (k3.mono (by decide))).trans (k4.mono (by decide)) :
      Keeps [.cs, .mbox, .words, .service, .tens, .counters, .fabric, .mgmt, .power, .stores, .fresh] _ s4)

/-! ### Words delivered -/

theorem map_zipIdx_fst {α β : Type} (f : α → β) (l : List α) : l.zipIdx.map (fun x => f x.1) = l.map f := by
  have h := congrArg (List.map f) (List.zipIdx_map_fst 0 l)
  rwa [List.map_map] at h

theorem flightOf_queued {tgt : BitVec 2} {sp : Space} (h : sp ≠ .hbm) (outs : List Out) (at' : Nat → Nat) (src : Nat → Option Nat)
    (hall : Nat → BitVec 64) : (flightOf tgt sp outs at' src hall).map (fun r => (r.dst, r.word, r.mask)) = asQueued outs := by
  unfold flightOf asQueued
  cases sp with
  | hbm => exact absurd rfl h
  | cs c =>
    dsimp only
    rw [List.map_map]
    exact map_zipIdx_fst (fun o : Out => (o.a, o.w, o.mask)) outs
  | mbox c =>
    dsimp only
    rw [List.map_map]
    exact map_zipIdx_fst (fun o : Out => (o.a, o.w, o.mask)) outs

/-- Words from HBM join their channel's reads. -/
theorem deliver_flies (s : State) (c : Core) (ch : BitVec 2) {sp : Space} (h : sp ≠ .hbm) (outs : List Out) (at' : Nat → Nat) (src : Nat → Option Nat)
    (hall : BitVec 64 → Nat → BitVec 64) : Claims.queued (s.deliver c ch.toNat 1 sp outs at' src hall) c ch = Claims.queued s c ch ++ asQueued outs ∧
      Keeps [.reads] s (s.deliver c ch.toNat 1 sp outs at' src hall) := by
  unfold State.deliver
  rw [if_pos rfl]
  refine ⟨?_, State.enqueue_keeps (Keeps.refl _ _) (by decide)⟩
  unfold Claims.queued State.enqueue
  dsimp only
  rw [look_put, List.map_append, flightOf_queued h]

theorem deliver_emits (s : State) (c : Core) (ch : Nat) {ssp : Nat} (h : ssp ≠ 1) (sp : Space) (outs : List Out) (at' : Nat → Nat) (src : Nat → Option Nat)
    (hall : BitVec 64 → Nat → BitVec 64) : s.deliver c ch ssp sp outs at' src hall = s.emitWith sp outs hall := if_neg h

/-- Two runs of words written one after another. -/
theorem emitWith_twice {s : State} {sp : Space} (h : sp = .hbm → nothingKept s) (as bs : List Out) (f g : BitVec 64 → Nat → BitVec 64) :
    StoresBut (hallsOf sp as ++ hallsOf sp bs) (inSpace sp (as ++ bs)) s ((s.emitWith sp as f).emitWith sp bs g) := by
  obtain ⟨h1, h2⟩ := emitWith_stores h as f
  obtain ⟨-, h3⟩ := emitWith_stores (fun e => nothingKept_of_fixes (h e) (h1 e)) bs g
  have h4 := h2.append h3
  rwa [inSpace, inSpace, ← List.map_append] at h4

theorem emitWith_reads (s : State) (sp : Space) (outs : List Out) (hall : BitVec 64 → Nat → BitVec 64) :
    (s.emitWith sp outs hall).cores.reads = s.cores.reads ∧ (s.emitWith sp outs hall).cores.chBusy = s.cores.chBusy := by
  have k := State.emitWith_keeps (vs := [.cs, .mbox, .hall, .merges, .words, .tens, .counters, .fabric, .mgmt, .power]) (sp := sp) (outs := outs) (hall := hall)
    (Keeps.refl _ s) (by decide)
  exact ⟨k.eq_reads, k.eq_chBusy⟩

/-! ### O14 -/

theorem gathAct_ok {c : Core} {scat : Bool} {desc : BitVec 10} {ch : BitVec 2} {n : BitVec 13} {rd s s1 s2 : State} {p : GathPlan}
    (hp : gathPlan c scat desc ch n rd = .ok p) (hf : p.r.fault = none) (h1 : s.claimPorts c (p.ports rd c n.toNat) = .ok s1)
    (h2 : s1.claimSlots c ch.toNat (p.r.reqs.map (fun x => (unitClock rd c + 1 + x.1, x.2))) = .ok s2) (hm : (gathRun c ch n.toNat p rd s2).mergesFit) :
    gathAct c scat desc ch n rd s = .ok ((gathRun c ch n.toNat p rd s2).holdTill c (opEnd (unitClock rd c) (p.ports rd c n.toNat))) := by
  unfold gathAct
  dsimp only
  rw [hp]
  show (match p.r.fault with | some code => _ | none => _) = _
  rw [hf]
  show (s.claimPorts c _ >>= _) = _
  rw [h1]
  show (s1.claimSlots c _ _ >>= _) = _
  rw [h2]
  exact holdMerges_fit hm rd c _

theorem exec_gath {c : Core} {scat : Bool} {desc : BitVec 10} {ch : BitVec 2} {n : BitVec 13} {s t : State} (hi : issues s c = true)
    (h : gathAct c scat desc ch n s s = .ok t) : exec (if scat then .hscat c desc ch n else .hgath c desc ch n) s = .next t := by
  cases scat
  · exact congrArg Host.Outcome.next (slotOp_ok hi h)
  · exact congrArg Host.Outcome.next (slotOp_ok hi h)

/-- From HBM: the rows' words join the channel's reads. -/
theorem gathRun_flies {c : Core} {n : Nat} {ch : BitVec 2} {p : GathPlan} {rd s : State} (h1 : p.g.ssp = 1) (hd : spaceOf c p.g.dsp ≠ .hbm) :
    Claims.queued (gathRun c ch n p rd s) c ch = Claims.queued s c ch ++ asQueued (p.r.els ++ mergeShingles p.r.shs) ∧
      Keeps [.reads] (gathRead c ch n p rd s) (gathRun c ch n p rd s) := by
  rw [gathRun_eq, h1]
  obtain ⟨q1, k1⟩ := deliver_flies (gathRead c ch n p rd s) c ch hd p.r.els (gathAtCycle c n p rd) (fun _ => none)
    (fun old b => newHall old p.g.f (bitsN p.g.d 187 172) p.r.els b)
  obtain ⟨q2, k2⟩ := deliver_flies ((gathRead c ch n p rd s).deliver c ch.toNat 1 (spaceOf c p.g.dsp) p.r.els (gathAtCycle c n p rd) (fun _ => none)
    (fun old b => newHall old p.g.f (bitsN p.g.d 187 172) p.r.els b)) c ch hd (mergeShingles p.r.shs) (fun _ => gathAtCycle c n p rd p.r.els.length)
    (fun _ => none) (fun old b => newHall old 0xE (bitsN p.g.d 187 172) (mergeShingles p.r.shs) b)
  obtain ⟨-, -, hr, -⟩ := gathRead_after c ch n p rd s
  refine ⟨?_, k1.trans k2⟩
  have hq : Claims.queued (gathRead c ch n p rd s) c ch = Claims.queued s c ch := by
    unfold Claims.queued
    rw [hr]
  rw [q2, q1, hq, List.append_assoc, asQueued, asQueued, ← List.map_append]
  rfl

/-- Else they are written. -/
theorem gathRun_emits {c : Core} {n : Nat} {ch : BitVec 2} {p : GathPlan} {rd s : State} (h1 : p.g.ssp ≠ 1)
    (hk : spaceOf c p.g.dsp = .hbm → nothingKept (gathRead c ch n p rd s)) :
    StoresBut (hallsOf (spaceOf c p.g.dsp) p.r.els ++ hallsOf (spaceOf c p.g.dsp) (mergeShingles p.r.shs))
        (inSpace (spaceOf c p.g.dsp) (p.r.els ++ mergeShingles p.r.shs)) (gathRead c ch n p rd s) (gathRun c ch n p rd s) ∧
      (gathRun c ch n p rd s).cores.reads = (gathRead c ch n p rd s).cores.reads ∧
      (gathRun c ch n p rd s).cores.chBusy = (gathRead c ch n p rd s).cores.chBusy := by
  rw [gathRun_eq, deliver_emits _ _ _ h1, deliver_emits _ _ _ h1]
  obtain ⟨r1, b1⟩ := emitWith_reads (gathRead c ch n p rd s) (spaceOf c p.g.dsp) p.r.els (fun old b => newHall old p.g.f (bitsN p.g.d 187 172) p.r.els b)
  obtain ⟨r2, b2⟩ := emitWith_reads ((gathRead c ch n p rd s).emitWith (spaceOf c p.g.dsp) p.r.els
    (fun old b => newHall old p.g.f (bitsN p.g.d 187 172) p.r.els b)) (spaceOf c p.g.dsp) (mergeShingles p.r.shs)
    (fun old b => newHall old 0xE (bitsN p.g.d 187 172) (mergeShingles p.r.shs) b)
  exact ⟨emitWith_twice hk _ _ _ _, r2.trans r1, b2.trans b1⟩

theorem gathRun_busy (c : Core) (n : Nat) (ch : BitVec 2) (p : GathPlan) (rd s : State) :
    (gathRun c ch n p rd s).cores.chBusy = (gathRead c ch n p rd s).cores.chBusy := by
  rw [gathRun_eq]
  exact (State.deliver_keeps (vs := [.cs, .mbox, .hall, .reads, .merges, .words, .tens, .counters, .fabric, .mgmt, .power])
    (State.deliver_keeps (Keeps.refl _ _) (by decide)) (by decide)).eq_chBusy

/-- Settles O14: what the list and the rows are read for is delivered after them, on its way or written. -/
theorem gatherScatter : Obligations.GatherScatter := by
  unfold Obligations.GatherScatter
  intro c scat desc ch n s s1 s2 p hi hp hf h1 h2 hm
  have hok := gathAct_ok hp hf h1 h2 hm
  have k2 : Keeps [.busy, .service, .tens, .counters, .fabric, .mgmt, .power] s s2 :=
    ((claimPorts_keeps h1).mono (by decide)).trans ((claimSlots_keeps h2).mono (by decide))
  obtain ⟨hw, hk, hr, hb⟩ := gathRead_after c ch n.toNat p s s2
  have hw' := hw.after_keeps k2
  have hk' : Fixes Tenancy.kept s (gathRead c ch n.toNat p s s2) := ((Fixes.of_keeps (claimPorts_keeps h1)).trans (claimSlots_kept h2)).trans hk
  have hh := holdTill_keeps (gathRun c ch n.toNat p s s2) c (opEnd (unitClock s c) (p.ports s c n.toNat))
  refine ⟨_, exec_gath hi hok, ?_, fun e1 e2 => ⟨?_, ?_⟩, fun e1 e2 => ⟨?_, ?_⟩, (gathAct_keeps (Keeps.refl _ _) (by decide)).getOk hok⟩
  · rw [hh.eq_chBusy, gathRun_busy]
    exact hb
  · unfold Claims.queued
    rw [hh.eq_reads, ← k2.eq_reads]
    exact (gathRun_flies e1 e2).1
  · exact (hw'.of_keeps (gathRun_flies e1 e2).2).hold c _
  · rw [hh.eq_reads, (gathRun_emits e1 (fun e => nothingKept_of_fixes (e2 e) hk')).2.1, hr, k2.eq_reads]
  · exact StoresBut.after_reads hw' ((gathRun_emits e1 (fun e => nothingKept_of_fixes (e2 e) hk')).1.hold c _)

end Sys2Proof.Machine
end

section
/-! SUPPORT. The accumulators by key: places of an engine's rows, rows given back, contents put in (04 R84, R85, R90), and matrix operations in their
slot. -/

namespace Sys2Proof.Machine

open Sys2Proof Sys2Proof.Claims

set_option Elab.async false

/-! ### Keys -/

theorem accKey_at (c : Core) (e b row col : Nat) : accKey c e b row col = accKey c e b 0 0 + (256 * row + col) := by
  unfold accKey
  omega

theorem accKey_inj {c d : Core} {e f b k r r' x y : Nat} (he : e < 4) (hf : f < 4) (hr : r < 128) (hr' : r' < 128) (hx : x < 256) (hy : y < 256)
    (h : accKey c e b r x = accKey d f k r' y) : c = d ∧ e = f ∧ b = k ∧ r = r' ∧ x = y := by
  have hc := c.isLt
  have hd := d.isLt
  unfold accKey at h
  refine ⟨Fin.ext ?_, ?_, ?_, ?_, ?_⟩ <;> omega

theorem bindKey_inj {c d : Core} {e f b k r r' x y : Nat} (he : e < 4) (hf : f < 4) (hr : r < 128) (hr' : r' < 128) (hx : x < 2) (hy : y < 2)
    (h : bindKey c e b r x = bindKey d f k r' y) : c = d ∧ e = f ∧ b = k ∧ r = r' ∧ x = y := by
  have hc := c.isLt
  have hd := d.isLt
  unfold bindKey at h
  refine ⟨Fin.ext ?_, ?_, ?_, ?_, ?_⟩ <;> omega

/-- A key is one of a place of an engine's rows. -/
def inPlace (c : Core) (e b k : Nat) : Bool := decide (accKey c e b 0 0 ≤ k) && decide (k < accKey c e b 0 0 + 32768)

theorem inPlace_accKey {c d : Core} {e f b k r x : Nat} (he : e < 4) (hf : f < 4) (hr : r < 128) (hx : x < 256) :
    inPlace c e b (accKey d f k r x) = true ↔ d = c ∧ f = e ∧ k = b := by
  have hc := c.isLt
  have hd := d.isLt
  unfold inPlace
  rw [Bool.and_eq_true, decide_eq_true_eq, decide_eq_true_eq]
  constructor
  · rintro ⟨h1, h2⟩
    unfold accKey at h1 h2
    refine ⟨Fin.ext ?_, ?_, ?_⟩ <;> omega
  · rintro ⟨rfl, rfl, rfl⟩
    rw [accKey_at d f k r x]
    omega

/-- A key of a place is that of a row and column. -/
theorem inPlace_iff {c : Core} {e b k : Nat} : inPlace c e b k = true ↔ ∃ r x, r < 128 ∧ x < 256 ∧ k = accKey c e b r x := by
  unfold inPlace
  rw [Bool.and_eq_true, decide_eq_true_eq, decide_eq_true_eq]
  constructor
  · rintro ⟨h1, h2⟩
    refine ⟨(k - accKey c e b 0 0) / 256, (k - accKey c e b 0 0) % 256, by omega, by omega, ?_⟩
    rw [accKey_at c e b]
    omega
  · rintro ⟨r, x, hr, hx, rfl⟩
    rw [accKey_at c e b r x]
    omega

/-! ### Contents by key -/

theorem look_filter_keys {α : Type} (d : α) (m : Sparse α) (p : Nat → Bool) (k : Nat) :
    look (m.filter (fun e => p e.1)) d k = if p k then look m d k else d := by
  unfold look
  rw [find_filter_keys]
  split <;> rfl

/-- Contents put in, one after another. -/
def putAll (m : Sparse Acc) (l : List (Nat × Acc)) : Sparse Acc := l.foldl (fun (m : Sparse Acc) (e : Nat × Acc) => put {} m e.1 e.2) m

theorem putAll_ne {l : List (Nat × Acc)} {m : Sparse Acc} {k : Nat} (h : k ∉ l.map (·.1)) : look (putAll m l) {} k = look m {} k := by
  unfold putAll
  induction l generalizing m with
  | nil => rfl
  | cons e l ih =>
    rw [List.map_cons, List.mem_cons, not_or] at h
    rw [List.foldl_cons, ih h.2, look_put_ne _ _ _ h.1]

theorem putAll_mem {l : List (Nat × Acc)} {m : Sparse Acc} {k : Nat} (h : k ∈ l.map (·.1)) : ∃ a, (k, a) ∈ l ∧ look (putAll m l) {} k = a := by
  induction l generalizing m with
  | nil => cases h
  | cons e l ih =>
    by_cases hk : k ∈ l.map (·.1)
    · obtain ⟨a, ha, hl⟩ := ih (m := put {} m e.1 e.2) hk
      exact ⟨a, List.mem_cons_of_mem _ ha, hl⟩
    · obtain ⟨a, v⟩ := e
      rw [List.map_cons, List.mem_cons] at h
      obtain rfl := h.resolve_right hk
      exact ⟨v, List.mem_cons_self, (putAll_ne (m := put {} m k v) hk).trans (look_put _ _ _ _)⟩

/-! ### Rows given back -/

/-- The keys of rows given back of a place. -/
def givenBack (c : Core) (e b : Nat) (rows halves : List Nat) (k : Nat) : Bool :=
  inPlace c e b k && rows.contains ((k - accKey c e b 0 0) / 256) && halves.contains ((k - accKey c e b 0 0) % 256 / 128)

theorem freeRows_acc (s : State) (c : Core) (e b : Nat) (rows halves : List Nat) (k : Nat) :
    look (s.freeRows c e b rows halves).cores.acc {} k = if givenBack c e b rows halves k then {} else look s.cores.acc {} k := by
  refine (look_filter_keys {} s.cores.acc (fun x => !givenBack c e b rows halves x) k).trans ?_
  cases givenBack c e b rows halves k <;> rfl

theorem givenBack_accKey {c d : Core} {e f b k r x : Nat} {rows halves : List Nat} (he : e < 4) (hf : f < 4) (hr : r < 128) (hx : x < 256) :
    givenBack c e b rows halves (accKey d f k r x) = true ↔ (d = c ∧ f = e ∧ k = b) ∧ r ∈ rows ∧ x / 128 ∈ halves := by
  unfold givenBack
  rw [Bool.and_eq_true, Bool.and_eq_true, inPlace_accKey he hf hr hx, List.contains_iff_mem, List.contains_iff_mem, and_assoc]
  refine and_congr_right ?_
  rintro ⟨rfl, rfl, rfl⟩
  rw [accKey_at d f k r x, show (accKey d f k 0 0 + (256 * r + x) - accKey d f k 0 0) / 256 = r by omega,
    show (accKey d f k 0 0 + (256 * r + x) - accKey d f k 0 0) % 256 = x by omega]

/-- The keys of given rows and halves. -/
theorem givenBack_iff {c : Core} {e b k : Nat} {rows halves : List Nat} (hr : ∀ r ∈ rows, r < 128) (hh : ∀ h ∈ halves, h < 2) (he : e < 4) :
    givenBack c e b rows halves k = true ↔ ∃ r ∈ rows, ∃ h ∈ halves, ∃ i < 128, k = accKey c e b r (128 * h + i) := by
  constructor
  · intro h
    have hp : inPlace c e b k = true := (Bool.and_eq_true_iff.mp (Bool.and_eq_true_iff.mp h).1).1
    obtain ⟨r, x, hr1, hx, rfl⟩ := inPlace_iff.mp hp
    obtain ⟨-, h1, h2⟩ := (givenBack_accKey he he hr1 hx).mp h
    exact ⟨r, h1, x / 128, h2, x % 128, by omega, by rw [Nat.div_add_mod]⟩
  · rintro ⟨r, hr1, h, hh1, i, hi, rfl⟩
    have h2 := hh h hh1
    refine (givenBack_accKey he he (hr r hr1) (by omega)).mpr ⟨⟨rfl, rfl, rfl⟩, hr1, ?_⟩
    rwa [show (128 * h + i) / 128 = h by omega]

/-! ### Matrix operations in their slot -/

theorem mxOp_ok {c : Core} {f : State → State → Res State} {s t : State} (h : issues s c = true) (hf : f (s.strikeAccs c) (s.strikeAccs c) = .ok t) :
    mxOp c f s s = t := by
  unfold mxOp
  dsimp only
  rw [if_pos h]
  refine slotOp_ok ?_ hf
  have hk : Keeps [.acc, .upsets] s (s.strikeAccs c) := State.strikeAccs_keeps (Keeps.refl _ _) (by decide)
  rw [← h]
  exact (Lags.of_keeps hk).issues_eq hk.ident hk.eq_seqs c

theorem setOf_lt {m e : Nat} (h : e ∈ setOf m) : e < 4 := by
  unfold setOf upTo at h
  exact List.mem_range.mp (List.mem_filter.mp h).1

theorem setOf_nodup (m : Nat) : (setOf m).Nodup := List.Nodup.filter _ List.nodup_range

end Sys2Proof.Machine
end

section
/-! SUPPORT. Preloads and releases of the matrix engines (04 R90, R95; 11 R289). -/

namespace Sys2Proof.Machine

open Sys2Proof Sys2Proof.Claims

set_option Elab.async false

/-! ### What a run of checks gives -/

theorem mem_mapM_ok {α β : Type} {f : α → Res β} {l : List α} {ys : List β} (h : l.mapM f = .ok ys) : ∀ y ∈ ys, ∃ a ∈ l, f a = .ok y := by
  induction l generalizing ys with
  | nil => cases h; simp
  | cons a r ih =>
    rw [List.mapM_cons] at h
    obtain ⟨b, hb, h⟩ := bind_ok h
    obtain ⟨bs, hbs, h⟩ := bind_ok h
    cases h
    intro y hy
    rcases List.mem_cons.mp hy with rfl | hy
    · exact ⟨a, List.mem_cons_self, hb⟩
    · obtain ⟨x, hx, e⟩ := ih hbs y hy
      exact ⟨x, List.mem_cons_of_mem _ hx, e⟩

theorem mem_flatMapM_ok {α β : Type} {f : α → Res (List β)} {l : List α} {ys : List β} (h : l.flatMapM f = .ok ys) :
    ∀ y ∈ ys, ∃ a ∈ l, ∃ bs, f a = .ok bs ∧ y ∈ bs := by
  have hl : ∀ (l : List α) (acc : List (List β)) (ys : List β), List.flatMapM.loop f l acc = .ok ys →
      ∀ y ∈ ys, y ∈ acc.reverse.flatten ∨ ∃ a ∈ l, ∃ bs, f a = .ok bs ∧ y ∈ bs := by
    intro l
    induction l with
    | nil =>
      intro acc ys h y hy
      cases h
      exact .inl hy
    | cons a r ih =>
      intro acc ys h y hy
      obtain ⟨bs, hbs, h⟩ := bind_ok (show (f a >>= fun bs => List.flatMapM.loop f r (bs :: acc)) = .ok ys from h)
      rcases ih _ _ h y hy with hm | ⟨x, hx, k⟩
      · rw [List.reverse_cons, List.flatten_append, List.mem_append, List.flatten_singleton] at hm
        exact hm.imp id fun e => ⟨a, List.mem_cons_self, bs, hbs, e⟩
      · exact .inr ⟨x, List.mem_cons_of_mem _ hx, k⟩
  exact fun y hy => (hl l [] ys h y hy).resolve_left (by simp)

/-- The places of a list without repetition tell its elements apart. -/
theorem zipIdx_unique {l : List Nat} (h : l.Nodup) {e i j : Nat} (hi : (e, i) ∈ l.zipIdx) (hj : (e, j) ∈ l.zipIdx) : i = j := by
  obtain ⟨h1, h2⟩ := List.mem_zipIdx' hi
  obtain ⟨h3, h4⟩ := List.mem_zipIdx' hj
  exact (List.Nodup.getElem_inj_iff h).mp (h2.symm.trans h4)

theorem mem_of_mem_zipIdx {l : List Nat} {x : Nat × Nat} (h : x ∈ l.zipIdx) : x.1 ∈ l := by
  obtain ⟨h1, h2⟩ := List.mem_zipIdx' h
  exact h2 ▸ List.getElem_mem h1

/-! ### Preloads -/

/-- Where the source tiles of a preload come from. -/
theorem prePlan_srcs {c : Core} {d : BitVec 512} {rd : State} {p : PrePlan} (h : prePlan c d rd = .ok p) :
    p.engs = setOf (bitsN d 5 2) ∧ p.halves ≤ 2 ∧ ∀ x ∈ p.srcs, x.1 ∈ p.engs.zipIdx ∧ x.2.1 < p.halves ∧
      csRange rd c (outWord rd c (opndAt d 256 false) (if p.part then partialWords else wordsPerTile 0) x.1.2 x.2.1).1
        (if p.part then partialWords else wordsPerTile 0) = .ok x.2.2 := by
  unfold prePlan at h
  obtain ⟨_, -, h⟩ := bind_ok h
  obtain ⟨_, -, h⟩ := bind_ok h
  obtain ⟨_, -, h⟩ := bind_ok h
  obtain ⟨as, -, h⟩ := bind_ok h
  obtain ⟨srcs, hs, h⟩ := bind_ok h
  obtain ⟨_, -, h⟩ := bind_ok h
  cases h
  refine ⟨rfl, ?_, fun x hx => ?_⟩
  · dsimp only
    split <;> omega
  · obtain ⟨e, he, bs, hb, hm⟩ := mem_flatMapM_ok hs x hx
    obtain ⟨i, hi, hk⟩ := mem_mapM_ok hb x hm
    obtain ⟨a, ha, hk⟩ := bind_ok hk
    cases hk
    exact ⟨he, List.mem_range.mp hi, ha⟩

/-- A source tile is told by its engine and half. -/
theorem prePlan_src_eq {c : Core} {d : BitVec 512} {rd : State} {p : PrePlan} (h : prePlan c d rd = .ok p) {x y : (Nat × Nat) × Nat × Nat} (hx : x ∈ p.srcs)
    (hy : y ∈ p.srcs) (he : x.1.1 = y.1.1) (hh : x.2.1 = y.2.1) : x = y := by
  obtain ⟨hn, -, hs⟩ := prePlan_srcs h
  obtain ⟨hx1, -, hx2⟩ := hs x hx
  obtain ⟨hy1, -, hy2⟩ := hs y hy
  obtain ⟨⟨e, i⟩, a, v⟩ := x
  obtain ⟨⟨f, j⟩, b, w⟩ := y
  obtain rfl : e = f := he
  obtain rfl : a = b := hh
  obtain rfl : i = j := zipIdx_unique (by rw [hn]; exact setOf_nodup _) hx1 hy1
  rw [hx2] at hy2
  cases hy2
  rfl

/-- The contents that a source tile gives, by key. -/
def PrePlan.contents (p : PrePlan) (rd : State) (c : Core) (x : (Nat × Nat) × Nat × Nat) : List (Nat × Acc) :=
  (upTo 128).flatMap (fun r => (upTo 128).map (fun k =>
    (accKey c x.1.1 0 r (128 * x.2.1 + k), p.acc rd c x.2.2 (nth p.anchors 0 (x.1.2 * p.halves + x.2.1)) r k)))

/-- The chain that a source tile gives its rows. -/
def PrePlan.chain (p : PrePlan) (x : (Nat × Nat) × Nat × Nat) : Chain :=
  { anchor := BitVec.ofInt 16 (nth p.anchors 0 (x.1.2 * p.halves + x.2.1)), part := p.part }

/-- The chains of its rows, by key. -/
def PrePlan.chains (p : PrePlan) (c : Core) (x : (Nat × Nat) × Nat × Nat) : List (Nat × Chain) :=
  (upTo 128).map (fun r => (bindKey c x.1.1 0 r x.2.1, p.chain x))

/-- Chains bound, one after another. -/
def bindAll (m : Sparse Chain) (l : List (Nat × Chain)) : Sparse Chain := l.foldl (fun (m : Sparse Chain) (e : Nat × Chain) => set m e.1 e.2) m

theorem bindAll_ne {l : List (Nat × Chain)} {m : Sparse Chain} {k : Nat} (h : k ∉ l.map (·.1)) : find (bindAll m l) k = find m k := by
  unfold bindAll
  induction l generalizing m with
  | nil => rfl
  | cons e l ih =>
    rw [List.map_cons, List.mem_cons, not_or] at h
    rw [List.foldl_cons, ih h.2, find_set_ne _ _ h.1]

theorem bindAll_mem {l : List (Nat × Chain)} {m : Sparse Chain} {k : Nat} (h : k ∈ l.map (·.1)) : ∃ a, (k, a) ∈ l ∧ find (bindAll m l) k = some a := by
  induction l generalizing m with
  | nil => cases h
  | cons e l ih =>
    by_cases hk : k ∈ l.map (·.1)
    · obtain ⟨a, ha, hl⟩ := ih (m := set m e.1 e.2) hk
      exact ⟨a, List.mem_cons_of_mem _ ha, hl⟩
    · obtain ⟨a, v⟩ := e
      rw [List.map_cons, List.mem_cons] at h
      obtain rfl := h.resolve_right hk
      exact ⟨v, List.mem_cons_self, (bindAll_ne (m := set m k v) hk).trans (find_set _ _ _)⟩

theorem foldl_pair {α β γ : Type} (f : α → γ → α) (g : β → γ → β) (l : List γ) (m : α × β) :
    l.foldl (fun (m : α × β) x => (f m.1 x, g m.2 x)) m = (l.foldl f m.1, l.foldl g m.2) := by
  induction l generalizing m with
  | nil => rfl
  | cons x l ih => exact ih _

theorem put1_eq (p : PrePlan) (rd : State) (c : Core) (m : Sparse Acc × Sparse Chain) (x : (Nat × Nat) × Nat × Nat) :
    p.put1 rd c m x = (putAll m.1 (p.contents rd c x), bindAll m.2 (p.chains c x)) := by
  unfold PrePlan.put1 PrePlan.contents PrePlan.chains PrePlan.chain putAll bindAll
  dsimp only
  rw [foldl_pair (fun (m : Sparse Acc) r => (upTo 128).foldl (fun (a : Sparse Acc) k => put {} a (accKey c x.1.1 0 r (128 * x.2.1 + k))
    (p.acc rd c x.2.2 (nth p.anchors 0 (x.1.2 * p.halves + x.2.1)) r k)) m) (fun (m : Sparse Chain) r => set m (bindKey c x.1.1 0 r x.2.1)
    { anchor := BitVec.ofInt 16 (nth p.anchors 0 (x.1.2 * p.halves + x.2.1)), part := p.part }),
    List.foldl_flatMap, List.foldl_map]
  simp only [List.foldl_map]

theorem puts_eq (p : PrePlan) (rd : State) (c : Core) (l : List ((Nat × Nat) × Nat × Nat)) (m : Sparse Acc × Sparse Chain) :
    l.foldl (p.put1 rd c) m = (putAll m.1 (l.flatMap (p.contents rd c)), bindAll m.2 (l.flatMap (p.chains c))) := by
  induction l generalizing m with
  | nil => rfl
  | cons x l ih =>
    rw [List.foldl_cons, ih, put1_eq]
    simp only [putAll, bindAll, List.flatMap_cons, List.foldl_append]

/-- What a preload leaves of the accumulators and bindings. -/
theorem preRun_rows (c : Core) (p : PrePlan) (rd s : State) :
    (preRun c p rd s).cores.acc = putAll s.cores.acc (p.srcs.flatMap (p.contents rd c)) ∧
    (preRun c p rd s).cores.bind = bindAll s.cores.bind (p.srcs.flatMap (p.chains c)) := by
  unfold preRun
  rw [puts_eq]
  dsimp only
  have k : Keeps [.cs, .mbox, .words, .service, .tens, .counters, .power, .engines]
      { s with cores := { s.cores with acc := putAll s.cores.acc (p.srcs.flatMap (p.contents rd c)),
                                       bind := bindAll s.cores.bind (p.srcs.flatMap (p.chains c)) } }
      ((p.engs.foldl (fun (s : State) e => s.setEngine c e ((s.engine c e).preloaded p.halves (unitClock rd c)))
        { s with cores := { s.cores with acc := putAll s.cores.acc (p.srcs.flatMap (p.contents rd c)),
                                         bind := bindAll s.cores.bind (p.srcs.flatMap (p.chains c)) } }).noteReads (.cs c) p.reads) :=
    State.noteReads_keeps (Keeps.foldl (Keeps.refl _ _) fun u e k => State.setEngine_keeps k (by decide)) (by decide)
  exact ⟨k.eq_acc, k.eq_bind⟩

/-- Contents of a preload are those of its tiles' rows. -/
theorem mem_contents {p : PrePlan} {rd : State} {c : Core} {y : Nat × Acc} (h : y ∈ p.srcs.flatMap (p.contents rd c)) : ∃ x ∈ p.srcs, ∃ r < 128, ∃ k < 128,
    y = (accKey c x.1.1 0 r (128 * x.2.1 + k), p.acc rd c x.2.2 (nth p.anchors 0 (x.1.2 * p.halves + x.2.1)) r k) := by
  obtain ⟨x, hx, h⟩ := List.mem_flatMap.mp h
  obtain ⟨r, hr, h⟩ := List.mem_flatMap.mp h
  obtain ⟨k, hk, rfl⟩ := List.mem_map.mp h
  exact ⟨x, hx, r, List.mem_range.mp hr, k, List.mem_range.mp hk, rfl⟩

theorem contents_mem {p : PrePlan} {rd : State} {c : Core} {x : (Nat × Nat) × Nat × Nat} (hx : x ∈ p.srcs) {r k : Nat} (hr : r < 128) (hk : k < 128) :
    accKey c x.1.1 0 r (128 * x.2.1 + k) ∈ (p.srcs.flatMap (p.contents rd c)).map (·.1) := by
  refine List.mem_map.mpr ⟨(_, _), List.mem_flatMap.mpr ⟨x, hx, List.mem_flatMap.mpr ⟨r, List.mem_range.mpr hr, List.mem_map.mpr ⟨k, List.mem_range.mpr hk, rfl⟩⟩⟩, rfl⟩

section Preloaded

variable {c : Core} {d : BitVec 512} {rd : State} {p : PrePlan} (h : prePlan c d rd = .ok p)

include h

/-- An accumulator of a preloaded tile holds what its source word holds for it. -/
theorem preload_fills (m : Sparse Acc) {x : (Nat × Nat) × Nat × Nat} (hx : x ∈ p.srcs) {r k : Nat} (hr : r < 128) (hk : k < 128) :
    look (putAll m (p.srcs.flatMap (p.contents rd c))) {} (accKey c x.1.1 0 r (128 * x.2.1 + k)) =
      p.acc rd c x.2.2 (nth p.anchors 0 (x.1.2 * p.halves + x.2.1)) r k := by
  obtain ⟨hn, h2, hs⟩ := prePlan_srcs h
  have hlt {y : (Nat × Nat) × Nat × Nat} (hy : y ∈ p.srcs) : y.1.1 < 4 ∧ y.2.1 < 2 := by
    obtain ⟨h3, h4, -⟩ := hs y hy
    exact ⟨setOf_lt (hn ▸ mem_of_mem_zipIdx h3), by omega⟩
  obtain ⟨a, ha, hl⟩ := putAll_mem (m := m) (contents_mem (rd := rd) (c := c) hx hr hk)
  obtain ⟨y, hy, r', hr', k', hk', e⟩ := mem_contents ha
  injection e with e1 e2
  obtain ⟨hx1, hx2⟩ := hlt hx
  obtain ⟨hy1, hy2⟩ := hlt hy
  obtain ⟨-, e3, -, rfl, e5⟩ := accKey_inj hx1 hy1 hr hr' (by omega) (by omega) e1
  obtain rfl := prePlan_src_eq h hx hy e3 (by omega)
  obtain rfl : k = k' := by omega
  rw [hl, e2]

/-- Its row is bound to its map's anchor. -/
theorem preload_binds (m : Sparse Chain) {x : (Nat × Nat) × Nat × Nat} (hx : x ∈ p.srcs) {r : Nat} (hr : r < 128) :
    find (bindAll m (p.srcs.flatMap (p.chains c))) (bindKey c x.1.1 0 r x.2.1) = some (p.chain x) := by
  obtain ⟨hn, h2, hs⟩ := prePlan_srcs h
  have hlt {y : (Nat × Nat) × Nat × Nat} (hy : y ∈ p.srcs) : y.1.1 < 4 ∧ y.2.1 < 2 := by
    obtain ⟨h3, h4, -⟩ := hs y hy
    exact ⟨setOf_lt (hn ▸ mem_of_mem_zipIdx h3), by omega⟩
  have hm : bindKey c x.1.1 0 r x.2.1 ∈ (p.srcs.flatMap (p.chains c)).map (·.1) :=
    List.mem_map.mpr ⟨(_, _), List.mem_flatMap.mpr ⟨x, hx, List.mem_map.mpr ⟨r, List.mem_range.mpr hr, rfl⟩⟩, rfl⟩
  obtain ⟨a, ha, hl⟩ := bindAll_mem (m := m) hm
  obtain ⟨y, hy, ha⟩ := List.mem_flatMap.mp ha
  obtain ⟨r', hr', e⟩ := List.mem_map.mp ha
  injection e with e1 e2
  obtain ⟨hx1, hx2⟩ := hlt hx
  obtain ⟨hy1, hy2⟩ := hlt hy
  obtain ⟨-, e3, -, -, e5⟩ := bindKey_inj hy1 hx1 (List.mem_range.mp hr') hr hy2 hx2 e1
  obtain rfl := prePlan_src_eq h hy hx e3 e5
  rw [hl, ← e2]

end Preloaded

theorem abandon_ok {c : Core} {engs : List Nat} {s t : State} {r : Res State} (h : r = .ok t) : abandon c engs s r = .ok t := by
  rw [h]
  rfl

theorem mpreAct_ok {c : Core} {desc : BitVec 10} {rd s s1 : State} {d : BitVec 512} {p : PrePlan} (hd : latchForm rd c desc 1 [2] = .ok d)
    (hp : prePlan c d rd = .ok p)
    (hc : s.claimPorts c [.solid (unitClock rd c + 1) (512 * p.halves) ((if p.part then 16 else 4) * p.engs.length) 0] = .ok s1) :
    mpreAct c desc rd s = .ok (preRun c p rd s1) := by
  unfold mpreAct
  rw [hd]
  refine abandon_ok ?_
  rw [hp]
  show (s.claimPorts c _ >>= _) = _
  rw [hc]
  rfl

theorem strikeAccs_keeps (s : State) (c : Core) : Keeps [.acc, .upsets] s (s.strikeAccs c) := State.strikeAccs_keeps (Keeps.refl _ _) (by decide)

theorem preRun_writes (c : Core) (p : PrePlan) (rd s : State) : leavesWords c [] p.reads s (preRun c p rd s) := by
  unfold preRun
  dsimp only
  generalize hu : p.srcs.foldl (p.put1 rd c) (s.cores.acc, s.cores.bind) = m
  have h0 : Writes [] [] s { s with cores := { s.cores with acc := m.1, bind := m.2 } } := Writes.of_held fun p => rfl
  have h1 := h0.after_reads ((writes_noteReads (p.engs.foldl (fun (s : State) e => s.setEngine c e ((s.engine c e).preloaded p.halves (unitClock rd c)))
    { s with cores := { s.cores with acc := m.1, bind := m.2 } }) (.cs c) p.reads).after_keeps (vs := [.engines])
    (Keeps.foldl (Keeps.refl _ _) fun u e k => State.setEngine_keeps k (by decide)))
  rwa [List.nil_append] at h1

theorem preload_runs {c : Core} {desc : BitVec 10} {s s1 : State} {d : BitVec 512} {p : PrePlan} (hi : issues s c = true)
    (hd : latchForm (s.strikeAccs c) c desc 1 [2] = .ok d) (hp : prePlan c d (s.strikeAccs c) = .ok p)
    (hc : (s.strikeAccs c).claimPorts c [.solid (unitClock (s.strikeAccs c) c + 1) (512 * p.halves) ((if p.part then 16 else 4) * p.engs.length) 0] = .ok s1) :
    ∃ t, exec (.mpre c desc) s = .next t ∧
      (∀ x ∈ p.srcs, ∀ row < 128,
        let A := nth p.anchors 0 (x.1.2 * p.halves + x.2.1)
        boundAt t c x.1.1 0 row x.2.1 = some { anchor := BitVec.ofInt 16 A, part := p.part } ∧
        ∀ k < 128, look t.cores.acc {} (accKey c x.1.1 0 row (128 * x.2.1 + k)) = p.acc (s.strikeAccs c) c x.2.2 A row k) ∧
      (∀ k, (∀ x ∈ p.srcs, ∀ row < 128, ∀ j < 128, k ≠ accKey c x.1.1 0 row (128 * x.2.1 + j)) →
        look t.cores.acc {} k = look (s.strikeAccs c).cores.acc {} k) ∧
      leavesWords c [] p.reads s t ∧ Keeps (.acc :: .engines :: unitViews) s t := by
  obtain ⟨ha, hb⟩ := preRun_rows c p (s.strikeAccs c) s1
  have h1 := claimPorts_keeps hc
  refine ⟨_, congrArg Host.Outcome.next (mxOp_ok hi (mpreAct_ok hd hp hc)), fun x hx row hr => ⟨?_, fun k hk => ?_⟩, fun k hk => ?_, ?_, ?_⟩
  · unfold boundAt
    rw [hb]
    exact preload_binds hp _ hx hr
  · rw [ha]
    exact preload_fills hp _ hx hr hk
  · rw [ha, putAll_ne, h1.eq_acc]
    intro hm
    obtain ⟨y, hy, rfl⟩ := List.mem_map.mp hm
    obtain ⟨x, hx, r, hr, j, hj, rfl⟩ := mem_contents hy
    exact hk x hx r hr j hj rfl
  · exact ((preRun_writes c p (s.strikeAccs c) s1).after_keeps h1).after_keeps (strikeAccs_keeps s c)
  · have hk := (mpreAct_keeps (vs := [.cs, .mbox, .acc, .engines, .busy, .words, .service, .tens, .counters, .power]) (Keeps.refl _ _) (by decide)).getOk
      (mpreAct_ok hd hp hc)
    exact ((strikeAccs_keeps s c).mono (by decide)).trans (hk.mono (by decide))

/-! ### Releases -/

theorem inPlace_unique {c d : Core} {e f b k n : Nat} (he : e < 4) (hf : f < 4) (h : inPlace c e b n = true) (k' : inPlace d f k n = true) :
    c = d ∧ e = f ∧ b = k := by
  obtain ⟨r, x, hr, hx, rfl⟩ := inPlace_iff.mp h
  exact (inPlace_accKey hf he hr hx).mp k'

theorem freePlace_acc (s : State) (c : Core) (e b k : Nat) :
    look (s.freePlace c e b).cores.acc {} k = if inPlace c e b k then {} else look s.cores.acc {} k := by
  have hp : (fun (x : Nat × Acc) => decide (x.1 < accKey c e b 0 0) || decide (accKey c e b 0 0 + 32768 ≤ x.1)) = fun x => !inPlace c e b x.1 := by
    funext x
    unfold inPlace
    rw [Bool.eq_iff_iff]
    simp only [Bool.or_eq_true, decide_eq_true_eq, Bool.not_eq_true', Bool.and_eq_false_iff, decide_eq_false_iff_not]
    omega
  unfold State.freePlace clearRange
  dsimp only
  rw [hp, look_filter_keys {} s.cores.acc (fun x => !inPlace c e b x)]
  cases inPlace c e b k <;> rfl

/-- The contents of a place as they enter a bank. -/
def entering (c : Core) (e slot bank : Nat) (m : Sparse Acc) : List (Nat × Acc) :=
  (m.filter (fun x => inPlace c e slot x.1)).map (fun x => (x.1 - accKey c e slot 0 0 + accKey c e bank 0 0, x.2))

theorem movePlace_acc_eq (s : State) (c : Core) (e slot bank : Nat) :
    (s.movePlace c e slot bank).cores.acc = putAll (s.freePlace c e slot).cores.acc (entering c e slot bank s.cores.acc) := by
  unfold State.movePlace putAll entering inPlace
  rw [List.foldl_map]

theorem entering_inPlace {c : Core} {e slot bank : Nat} {m : Sparse Acc} {k : Nat} (h : k ∈ (entering c e slot bank m).map (·.1)) :
    inPlace c e bank k = true := by
  obtain ⟨y, hy, rfl⟩ := List.mem_map.mp h
  obtain ⟨x, hx, rfl⟩ := List.mem_map.mp hy
  have hp := (List.mem_filter.mp hx).2
  unfold inPlace at hp ⊢
  simp only [Bool.and_eq_true, decide_eq_true_eq] at hp ⊢
  omega

/-- A place that enters a bank leaves what lies in neither, and itself empty. -/
theorem movePlace_acc (s : State) (c : Core) (e slot bank k : Nat) (h : inPlace c e bank k = false) :
    look (s.movePlace c e slot bank).cores.acc {} k = if inPlace c e slot k then {} else look s.cores.acc {} k := by
  rw [movePlace_acc_eq, putAll_ne, freePlace_acc]
  intro hm
  rw [entering_inPlace hm] at h
  cases h

theorem engine_setEngine (s : State) (c : Core) (e : Nat) (g : Engine) : (s.setEngine c e g).engine c e = g := look_put _ _ _ _

theorem engine_setEngine_ne (s : State) {c : Core} {e f : Nat} (g : Engine) (h : f ≠ e) : (s.setEngine c e g).engine c f = s.engine c f :=
  look_put_ne _ _ _ (by omega)

/-- One thing that waits, looked at again: accumulators of other engines stand, and so do those of other banks but for its own place; other engines stand. -/
theorem settle1_acc (s : State) (c : Core) (e : Nat) (w : Wait) :
    (∀ k, inPlace c e w.bank k = false → look (State.settle1 c e s w).cores.acc {} k = look s.cores.acc {} k ∨
      inPlace c e w.slot k = true ∧ look (State.settle1 c e s w).cores.acc {} k = {}) ∧
    ∀ f, f ≠ e → (State.settle1 c e s w).engine c f = s.engine c f := by
  unfold State.settle1
  dsimp only
  split
  · exact ⟨fun _ _ => .inl rfl, fun _ _ => rfl⟩
  · split
    · refine ⟨fun k hk => ?_, fun f hf => engine_setEngine_ne _ _ hf⟩
      change look (s.movePlace c e w.slot w.bank).cores.acc {} k = _ ∨ _ ∧ look (s.movePlace c e w.slot w.bank).cores.acc {} k = _
      rw [movePlace_acc s c e w.slot w.bank k hk]
      cases inPlace c e w.slot k
      · exact .inl rfl
      · exact .inr ⟨rfl, rfl⟩
    · exact ⟨fun _ _ => .inl rfl, fun f hf => engine_setEngine_ne _ _ hf⟩

/-- Of what waits for other banks a bank that is empty stays empty, and another engine's accumulators stand. -/
theorem settles_acc {c : Core} {e : Nat} (ws : List Wait) (s : State) :
    (∀ b k, (∀ w ∈ ws, w.bank ≠ b) → e < 4 → inPlace c e b k = true → look s.cores.acc {} k = {} →
      look (ws.foldl (State.settle1 c e) s).cores.acc {} k = {}) ∧
    (∀ k, (∀ b, inPlace c e b k = false) → look (ws.foldl (State.settle1 c e) s).cores.acc {} k = look s.cores.acc {} k) ∧
    ∀ f, f ≠ e → (ws.foldl (State.settle1 c e) s).engine c f = s.engine c f := by
  induction ws generalizing s with
  | nil => exact ⟨fun _ _ _ _ _ h => h, fun _ _ => rfl, fun _ _ => rfl⟩
  | cons w ws ih =>
    obtain ⟨h1, h2⟩ := settle1_acc s c e w
    obtain ⟨i1, i2, i3⟩ := ih (State.settle1 c e s w)
    refine ⟨fun b k hw he hp h0 => ?_, fun k hk => ?_, fun f hf => (i3 f hf).trans (h2 f hf)⟩
    · refine i1 b k (fun v hv => hw v (List.mem_cons_of_mem _ hv)) he hp ?_
      have hb : inPlace c e w.bank k = false := Bool.eq_false_iff.mpr fun h => hw w List.mem_cons_self (inPlace_unique he he h hp).2.2
      rcases h1 k hb with h | ⟨-, h⟩
      · exact h.trans h0
      · exact h
    · refine (i2 k hk).trans ((h1 k (hk _)).resolve_right fun h => ?_)
      rw [hk] at h
      cases h.1

/-- A bank released, with nothing that waits for it: it is empty, another engine's accumulators stand, and where nothing waits those of its other places. -/
theorem release_acc {s : State} {c : Core} {e b : Nat} (he : e < 4) (hw : ∀ w ∈ (s.engine c e).waits, w.bank ≠ b) :
    (∀ k, inPlace c e b k = true → look (s.release c e b).cores.acc {} k = {}) ∧
    (∀ k, (∀ b', inPlace c e b' k = false) → look (s.release c e b).cores.acc {} k = look s.cores.acc {} k) ∧
    (∀ k, (s.engine c e).waits = [] → inPlace c e b k = false → look (s.release c e b).cores.acc {} k = look s.cores.acc {} k) ∧
    ∀ f, f ≠ e → (s.release c e b).engine c f = s.engine c f := by
  have hf := freePlace_acc s c e b
  obtain ⟨h1, h2, h3⟩ := settles_acc (c := c) (e := e) (s.engine c e).waits (s.freePlace c e b)
  refine ⟨fun k hk => h1 b k hw he hk (by rw [hf, if_pos hk]), fun k hk => (h2 k hk).trans ?_, fun k h0 hk => ?_, h3⟩
  · rw [hf, if_neg (by rw [hk]; decide)]
  · have hn : s.release c e b = s.freePlace c e b := by
      show (s.engine c e).waits.foldl (State.settle1 c e) (s.freePlace c e b) = _
      rw [h0]
      rfl
    rw [hn, hf, if_neg (by rw [hk]; decide)]

/-- The banks of engines released one after another. -/
theorem releases_acc {c : Core} {b : Nat} (es : List Nat) (s : State) (hn : es.Nodup) (h4 : ∀ e ∈ es, e < 4)
    (hw : ∀ e ∈ es, ∀ w ∈ (s.engine c e).waits, w.bank ≠ b) {d : Core} {f k n : Nat} (hf : f < 4) (hp : inPlace d f k n = true) :
    (d = c → f ∈ es → k = b → look (es.foldl (fun s e => s.release c e b) s).cores.acc {} n = {}) ∧
    (d ≠ c ∨ f ∉ es ∨ k ≠ b ∧ (s.engine c f).waits = [] → look (es.foldl (fun s e => s.release c e b) s).cores.acc {} n = look s.cores.acc {} n) := by
  induction es generalizing s with
  | nil => exact ⟨fun _ h => absurd h (List.not_mem_nil), fun _ => rfl⟩
  | cons e es ih =>
    obtain ⟨hn1, hn2⟩ := List.nodup_cons.mp hn
    have he := h4 e List.mem_cons_self
    obtain ⟨r1, r2, r3, r4⟩ := release_acc he (hw e List.mem_cons_self)
    have hne {x : Nat} (hx : x ∈ es) : x ≠ e := fun h => hn1 (h ▸ hx)
    obtain ⟨i1, i2⟩ := ih (s.release c e b) hn2 (fun x hx => h4 x (List.mem_cons_of_mem _ hx)) (fun x hx w hm => by
      rw [r4 x (hne hx)] at hm
      exact hw x (List.mem_cons_of_mem _ hx) w hm)
    have hother (h : d ≠ c ∨ f ≠ e) : look (s.release c e b).cores.acc {} n = look s.cores.acc {} n := r2 n fun b' => Bool.eq_false_iff.mpr fun hb => by
      obtain ⟨rfl, rfl, -⟩ := inPlace_unique he hf hb hp
      exact h.elim (fun h => h rfl) fun h => h rfl
    refine ⟨fun hd hm hk => ?_, fun h => ?_⟩
    · rcases List.mem_cons.mp hm with rfl | hm
      · obtain rfl := hd
        obtain rfl := hk
        exact (i2 (.inr (.inl hn1))).trans (r1 n hp)
      · exact i1 hd hm hk
    · rw [List.foldl_cons]
      by_cases hfe : d = c ∧ f = e
      · obtain ⟨rfl, rfl⟩ := hfe
        obtain ⟨hk, h0⟩ := (h.resolve_left fun h => h rfl).resolve_left fun h => h List.mem_cons_self
        refine (i2 (.inr (.inl hn1))).trans (r3 n h0 (Bool.eq_false_iff.mpr fun hb => ?_))
        exact hk (inPlace_unique hf hf hp hb).2.2
      · have hfe' : d ≠ c ∨ f ≠ e := not_and_or.mp hfe
        refine (i2 ?_).trans (hother hfe')
        rcases h with h | h | ⟨h, h0⟩
        · exact .inl h
        · exact .inr (.inl fun hm => h (List.mem_cons_of_mem _ hm))
        · by_cases hd : d = c
          · exact .inr (.inr ⟨h, by rw [r4 f (hfe'.resolve_left fun h => h hd)]; exact h0⟩)
          · exact .inl hd

theorem waits_of_idle {g : Engine} {b now : Nat} (h : inFlight g b now = false) : ∀ w ∈ g.waits, w.bank ≠ b := by
  intro w hw e
  unfold inFlight at h
  simp only [Bool.or_eq_false_iff] at h
  have := List.any_eq_false.mp h.1.1.2 w hw
  exact this (decide_eq_true e)

theorem mrelAct_ok {c : Core} {desc : BitVec 10} {bank : Bool} {rd s : State} {d : BitVec 512} (hd : latchForm rd c desc 1 [0, 1, 2] = .ok d)
    (hf : formCheck d = true) (hw : ∀ e ∈ setOf (formSet d), inFlight (rd.engine c e) (if bank then 1 else 0) (unitClock rd c) = false) :
    mrelAct c desc bank rd s = .ok ((setOf (formSet d)).foldl (fun s e => s.release c e (if bank then 1 else 0)) s) := by
  have ha : (setOf (formSet d)).all (fun e => !inFlight (rd.engine c e) (if bank then 1 else 0) (unitClock rd c)) = true :=
    List.all_eq_true.mpr fun e he => by rw [hw e he]; rfl
  unfold mrelAct
  rw [hd]
  refine abandon_ok ?_
  rw [hf, ha]
  rfl

/-- Settles O11: the keys of a preload's tiles are apart, and a release touches none but its engines'. -/
theorem matrixPreloadRelease : Obligations.MatrixPreloadRelease := by
  unfold Obligations.MatrixPreloadRelease
  intro c desc s hi
  refine ⟨fun d p s1 hd hp hc => preload_runs hi hd hp hc, ?_⟩
  intro d bank hd hf engs b hw
  have hok := mrelAct_ok (s := s.strikeAccs c) hd hf hw
  refine ⟨_, congrArg Host.Outcome.next (mxOp_ok hi hok), fun f e k row col he hk hr hx => ?_, ?_⟩
  · exact releases_acc (setOf (formSet d)) (s.strikeAccs c) (setOf_nodup _) (fun _ h => setOf_lt h) (fun x hx => waits_of_idle (hw x hx)) he
      ((inPlace_accKey he he hr hx).mpr ⟨rfl, rfl, rfl⟩)
  · have hkeep := (mrelAct_keeps (vs := [.acc, .engines]) (Keeps.refl _ _) (by decide)).getOk hok
    exact ((strikeAccs_keeps s c).mono (by decide)).trans (hkeep.mono (by decide))

end Sys2Proof.Machine
end

section
/-! SUPPORT. Drains of the matrix engines (04 R91 to R94; 11 R288). -/

namespace Sys2Proof.Machine

open Sys2Proof Sys2Proof.Claims

set_option Elab.async false

/-! ### Bindings of other engines stand -/

/-- A key is one of a place's bindings. -/
def bindIn (c : Core) (e b k : Nat) : Bool := decide (bindKey c e b 0 0 ≤ k) && decide (k < bindKey c e b 0 0 + 256)

theorem bindIn_bindKey {c d : Core} {e f b k r h : Nat} (he : e < 4) (hf : f < 4) (hr : r < 128) (hh : h < 2)
    (hp : bindIn c e b (bindKey d f k r h) = true) : d = c ∧ f = e ∧ k = b := by
  have hc := c.isLt
  have hd := d.isLt
  unfold bindIn at hp
  rw [Bool.and_eq_true, decide_eq_true_eq, decide_eq_true_eq] at hp
  unfold bindKey at hp
  refine ⟨Fin.ext ?_, ?_, ?_⟩ <;> omega

theorem freePlace_bind (s : State) (c : Core) (e b k : Nat) (h : bindIn c e b k = false) :
    find (s.freePlace c e b).cores.bind k = find s.cores.bind k := by
  have hp : (decide (k < bindKey c e b 0 0) || decide (bindKey c e b 0 0 + 256 ≤ k)) = true := by
    unfold bindIn at h
    simp only [Bool.or_eq_true, decide_eq_true_eq, Bool.and_eq_false_iff, decide_eq_false_iff_not] at h ⊢
    omega
  refine (find_filter_keys s.cores.bind (fun x => decide (x < bindKey c e b 0 0) || decide (bindKey c e b 0 0 + 256 ≤ x)) k).trans ?_
  rw [if_pos hp]

theorem freeRows_bind (s : State) (c : Core) (e b : Nat) (rows halves : List Nat) (k : Nat) (h : bindIn c e b k = false) :
    find (s.freeRows c e b rows halves).cores.bind k = find s.cores.bind k := by
  refine (find_filter_keys s.cores.bind (fun x => !(bindIn c e b x && rows.contains ((x - bindKey c e b 0 0) / 2)
    && halves.contains ((x - bindKey c e b 0 0) % 2))) k).trans ?_
  rw [h]
  rfl

/-- The chains of a place as they enter a bank. -/
def enteringChains (c : Core) (e slot bank : Nat) (m : Sparse Chain) : List (Nat × Chain) :=
  (m.filter (fun x => bindIn c e slot x.1)).map (fun x => (x.1 - bindKey c e slot 0 0 + bindKey c e bank 0 0, x.2))

theorem movePlace_bind (s : State) (c : Core) (e slot bank k : Nat) (h1 : bindIn c e bank k = false) (h2 : bindIn c e slot k = false) :
    find (s.movePlace c e slot bank).cores.bind k = find s.cores.bind k := by
  have he : (s.movePlace c e slot bank).cores.bind = bindAll (s.freePlace c e slot).cores.bind (enteringChains c e slot bank s.cores.bind) := by
    unfold State.movePlace bindAll enteringChains bindIn
    rw [List.foldl_map]
  rw [he, bindAll_ne, freePlace_bind s c e slot k h2]
  intro hm
  obtain ⟨y, hy, rfl⟩ := List.mem_map.mp hm
  obtain ⟨x, hx, rfl⟩ := List.mem_map.mp hy
  have hp := (List.mem_filter.mp hx).2
  unfold bindIn at hp h1
  simp only [Bool.and_eq_true, Bool.and_eq_false_iff, decide_eq_true_eq, decide_eq_false_iff_not] at hp h1
  omega

theorem settle1_bind (s : State) (c : Core) (e : Nat) (w : Wait) (k : Nat) (h : ∀ b, bindIn c e b k = false) :
    find (State.settle1 c e s w).cores.bind k = find s.cores.bind k := by
  unfold State.settle1
  dsimp only
  split
  · rfl
  · split
    · exact movePlace_bind s c e w.slot w.bank k (h _) (h _)
    · rfl

/-- What waits looked at again keeps the engine's drain path. -/
theorem settle1_drain (s : State) (c : Core) (e : Nat) (w : Wait) (f : Nat) :
    ((State.settle1 c e s w).engine c f).drainFrom = (s.engine c f).drainFrom ∧ ((State.settle1 c e s w).engine c f).drainTo = (s.engine c f).drainTo := by
  by_cases hf : f = e
  · subst hf
    unfold State.settle1
    dsimp only
    split
    · exact ⟨rfl, rfl⟩
    · split
      · rw [engine_setEngine]
        exact ⟨rfl, rfl⟩
      · rw [engine_setEngine]
        exact ⟨rfl, rfl⟩
  · rw [(settle1_acc s c e w).2 f hf]
    exact ⟨rfl, rfl⟩

theorem settle_rest (s : State) (c : Core) (e : Nat) : (∀ k, (∀ b, bindIn c e b k = false) → find (s.settle c e).cores.bind k = find s.cores.bind k) ∧
    ∀ f, ((s.settle c e).engine c f).drainFrom = (s.engine c f).drainFrom ∧ ((s.settle c e).engine c f).drainTo = (s.engine c f).drainTo := by
  unfold State.settle
  generalize (s.engine c e).waits = ws
  induction ws generalizing s with
  | nil => exact ⟨fun _ _ => rfl, fun _ => ⟨rfl, rfl⟩⟩
  | cons w ws ih =>
    obtain ⟨h1, h2⟩ := ih (State.settle1 c e s w)
    exact ⟨fun k hk => (h1 k hk).trans (settle1_bind s c e w k hk),
      fun f => ⟨(h2 f).1.trans (settle1_drain s c e w f).1, (h2 f).2.trans (settle1_drain s c e w f).2⟩⟩

/-! ### The engines of a drain -/

/-- What a drain does on one engine. -/
def drainOn (c : Core) (x : DrainPlan) (bank : Nat) (release : Bool) (s : State) (e : Nat) : State :=
  let s1 := s.setEngine c e ((s.engine c e).drained x bank)
  if release || holdsBlock s c x.p e bank then (s1.freeRows c e bank x.p.accRows (upTo x.p.halves)).settle c e else s1

theorem drainTake_eq (c : Core) (x : DrainPlan) (bank : Nat) (release : Bool) (s : State) :
    drainTake c x bank release s = x.p.engs.foldl (drainOn c x bank release) s := rfl

/-- On one engine: its path is taken, and other engines' rows stand. -/
theorem drainOn_acc (c : Core) (x : DrainPlan) (b : Nat) (release : Bool) (s : State) (e : Nat) :
    (((drainOn c x b release s e).engine c e).drainFrom = x.start ∧ ((drainOn c x b release s e).engine c e).drainTo = x.stop) ∧
    (∀ f, f ≠ e → (drainOn c x b release s e).engine c f = s.engine c f) ∧
    (∀ k, (∀ b', bindIn c e b' k = false) → find (drainOn c x b release s e).cores.bind k = find s.cores.bind k) ∧
    (∀ k, (∀ b', inPlace c e b' k = false) → look (drainOn c x b release s e).cores.acc {} k = look s.cores.acc {} k) ∧
    (∀ k, (s.engine c e).waits = [] → look (drainOn c x b release s e).cores.acc {} k =
      if (release || holdsBlock s c x.p e b) && givenBack c e b x.p.accRows (upTo x.p.halves) k then {} else look s.cores.acc {} k) := by
  have he : (s.setEngine c e ((s.engine c e).drained x b)).engine c e = (s.engine c e).drained x b := engine_setEngine _ _ _ _
  have hne {f : Nat} (hf : f ≠ e) : (s.setEngine c e ((s.engine c e).drained x b)).engine c f = s.engine c f := engine_setEngine_ne _ _ hf
  unfold drainOn
  dsimp only
  cases hr : release || holdsBlock s c x.p e b
  · exact ⟨⟨congrArg Engine.drainFrom he, congrArg Engine.drainTo he⟩, fun _ hf => hne hf, fun _ _ => rfl, fun _ _ => rfl, fun _ _ => rfl⟩
  · rw [if_pos rfl]
    generalize hs1 : s.setEngine c e ((s.engine c e).drained x b) = s1 at he hne ⊢
    have hacc : s1.cores.acc = s.cores.acc := hs1 ▸ rfl
    have hbind : s1.cores.bind = s.cores.bind := hs1 ▸ rfl
    have hg (f : Nat) : (s1.freeRows c e b x.p.accRows (upTo x.p.halves)).engine c f = s1.engine c f := rfl
    obtain ⟨h1, h2⟩ := settle_rest (s1.freeRows c e b x.p.accRows (upTo x.p.halves)) c e
    obtain ⟨-, h4, h5⟩ := settles_acc (c := c) (e := e) ((s1.freeRows c e b x.p.accRows (upTo x.p.halves)).engine c e).waits
      (s1.freeRows c e b x.p.accRows (upTo x.p.halves))
    refine ⟨⟨?_, ?_⟩, fun f hf => (h5 f hf).trans (hne hf), fun k hk => ?_, fun k hk => ?_, fun k hw => ?_⟩
    · rw [(h2 e).1, hg, he]
      rfl
    · rw [(h2 e).2, hg, he]
      rfl
    · rw [h1 k hk, freeRows_bind _ _ _ _ _ _ _ (hk b), hbind]
    · refine (h4 k hk).trans ?_
      rw [freeRows_acc, hacc]
      unfold givenBack
      rw [hk b]
      rfl
    · have hn : (s1.freeRows c e b x.p.accRows (upTo x.p.halves)).settle c e = s1.freeRows c e b x.p.accRows (upTo x.p.halves) := by
        unfold State.settle
        rw [hg, he, show ((s.engine c e).drained x b).waits = [] from hw]
        rfl
      rw [hn, freeRows_acc, hacc]
      rfl

/-- Rows whose bindings stand hold a handoff block as before. -/
theorem holdsBlock_congr {s t : State} {c : Core} {p : Drain} {e b : Nat} (h : ∀ r ∈ p.accRows, ∀ i < p.halves, boundAt t c e 1 r i = boundAt s c e 1 r i) :
    holdsBlock t c p e b = holdsBlock s c p e b := by
  unfold holdsBlock
  congr 1
  rw [Bool.eq_iff_iff, List.any_eq_true, List.any_eq_true]
  refine exists_congr fun r => and_congr_right fun hr => ?_
  rw [List.any_eq_true, List.any_eq_true]
  refine exists_congr fun i => and_congr_right fun hi => ?_
  rw [h r hr i (List.mem_range.mp hi)]

section Drains

variable {c : Core} {x : DrainPlan} {b : Nat} {release : Bool} (hr : ∀ r ∈ x.p.accRows, r < 128) (hh : x.p.halves ≤ 2)

include hr hh

/-- The engines of a drain one after another: each path is taken, and its rows are emptied where it is told to or they hold a handoff block. -/
theorem drains_acc (es : List Nat) (s : State) (hn : es.Nodup) (h4 : ∀ e ∈ es, e < 4) :
    (∀ e ∈ es, ((es.foldl (drainOn c x b release) s).engine c e).drainFrom = x.start ∧
      ((es.foldl (drainOn c x b release) s).engine c e).drainTo = x.stop) ∧
    (∀ f, f ∉ es → (es.foldl (drainOn c x b release) s).engine c f = s.engine c f) ∧
    (∀ d f k n, f < 4 → inPlace d f k n = true → (d = c → f ∈ es → (s.engine c f).waits = []) →
      look (es.foldl (drainOn c x b release) s).cores.acc {} n =
        if (decide (d = c) && decide (f ∈ es)) && ((release || holdsBlock s c x.p f b) && givenBack c f b x.p.accRows (upTo x.p.halves) n) then {}
        else look s.cores.acc {} n) := by
  induction es generalizing s with
  | nil => exact ⟨fun _ h => absurd h (List.not_mem_nil), fun _ _ => rfl, fun d f k n _ _ _ => by simp⟩
  | cons e es ih =>
    obtain ⟨hn1, hn2⟩ := List.nodup_cons.mp hn
    have he := h4 e List.mem_cons_self
    obtain ⟨p1, p2, p3, p4, p5⟩ := drainOn_acc c x b release s e
    obtain ⟨i1, i2, i3⟩ := ih (drainOn c x b release s e) hn2 (fun y hy => h4 y (List.mem_cons_of_mem _ hy))
    have hblock {f : Nat} (hf : f < 4) (hfe : f ≠ e) : holdsBlock (drainOn c x b release s e) c x.p f b = holdsBlock s c x.p f b := by
      refine holdsBlock_congr fun r hr1 i hi => p3 _ fun b' => Bool.eq_false_iff.mpr fun hb => ?_
      exact hfe (bindIn_bindKey he hf (hr r hr1) (by omega) hb).2.1
    refine ⟨fun f hf => ?_, fun f hf => ?_, fun d f k n hf hp hw => ?_⟩
    · rcases List.mem_cons.mp hf with rfl | hf
      · rw [List.foldl_cons, i2 f hn1]
        exact p1
      · exact i1 f hf
    · obtain ⟨hf1, hf2⟩ := not_or.mp fun h => hf (List.mem_cons.mpr h)
      exact (i2 f hf2).trans (p2 f hf1)
    · rw [List.foldl_cons]
      by_cases hd : d = c
      · subst hd
        by_cases hfe : f = e
        · subst hfe
          rw [i3 d f k n hf hp (fun _ h => absurd h hn1), p5 n (hw rfl List.mem_cons_self)]
          simp [hn1]
        · have hother : look (drainOn d x b release s e).cores.acc {} n = look s.cores.acc {} n := p4 n fun b' => Bool.eq_false_iff.mpr fun hb =>
            hfe (inPlace_unique he hf hb hp).2.1.symm
          rw [i3 d f k n hf hp (fun _ h => by rw [p2 f hfe]; exact hw rfl (List.mem_cons_of_mem _ h)), hblock hf hfe, hother]
          simp [hfe]
      · have hother : look (drainOn c x b release s e).cores.acc {} n = look s.cores.acc {} n := p4 n fun b' => Bool.eq_false_iff.mpr fun hb =>
          hd (inPlace_unique he hf hb hp).1.symm
        rw [i3 d f k n hf hp (fun h => absurd h hd), hother]
        simp [hd]

end Drains

/-! ### The checks of a drain -/

/-- Whatever checks give has a property. -/
def Gives {α : Type} (P : α → Prop) (r : Res α) : Prop := ∀ a, r = .ok a → P a

theorem Gives.pure {α : Type} {P : α → Prop} {a : α} (h : P a) : Gives P (Pure.pure a : Res α) := fun b e => by
  cases e
  exact h

theorem Gives.bind {α β : Type} {P : β → Prop} {r : Res α} {f : α → Res β} (h : ∀ a, r = .ok a → Gives P (f a)) : Gives P (r >>= f) := fun b e => by
  obtain ⟨a, ha, hb⟩ := bind_ok e
  exact h a ha b hb

theorem Gives.ite {α : Type} {P : α → Prop} {c : Prop} [Decidable c] {a b : Res α} (ha : Gives P a) (hb : Gives P b) : Gives P (if c then a else b) := by
  split
  · exact ha
  · exact hb

theorem drainRows_lt {s : State} {c : Core} {d : BitVec 512} {rf : List (Nat × Nat × Nat) × List Nat} (h : drainRows s c d = .ok rf) :
    ∀ r ∈ rf.1, r.1 < 128 := by
  have hwhole : ∀ n, ∀ r ∈ (upTo n).map (fun r => (r, 0, r)), r.1 < n := by
    intro n r hr
    obtain ⟨i, hi, rfl⟩ := List.mem_map.mp hr
    exact List.mem_range.mp hi
  unfold drainRows at h
  dsimp only at h
  split at h
  · cases h
    exact hwhole 128
  · obtain ⟨e, -, h⟩ := bind_ok h
    obtain ⟨_, -, h⟩ := bind_ok h
    generalize unfrozen e.2 = rows at h
    split at h
    · cases h
      exact hwhole 128
    · obtain ⟨_, hn, h⟩ := bind_ok h
      obtain rfl := Except.ok.inj h
      intro r hr
      obtain ⟨⟨v, i⟩, hi, rfl⟩ := List.mem_map.mp hr
      have hlen := need_ok hn
      simp only [Bool.and_eq_true, decide_eq_true_eq] at hlen
      obtain ⟨h1, -⟩ := List.mem_zipIdx' hi
      exact Nat.lt_of_lt_of_le h1 hlen.2

theorem drainPlan_form {c : Core} {d : BitVec 512} {b : Nat} {rd : State} {x : DrainPlan} (h : drainPlan c d b rd = .ok x) :
    x.p.engs = setOf (bitsN d 5 2) ∧ x.p.halves ≤ 2 ∧ (∀ r ∈ x.p.accRows, r < 128) ∧ x.p.sp.near := by
  have hg : Gives (fun x : DrainPlan => x.p.engs = setOf (bitsN d 5 2) ∧ x.p.halves ≤ 2 ∧ (∀ r ∈ x.p.accRows, r < 128) ∧ x.p.sp.near)
      (drainPlan c d b rd) := by
    unfold drainPlan
    refine Gives.bind fun _ _ => Gives.bind fun rf hrf => ?_
    have hp : (setOf (bitsN d 5 2) = setOf (bitsN d 5 2)) ∧ (if bitB d 6 then 1 else 2) ≤ 2 ∧ (∀ r ∈ rf.1.map (·.1), r < 128) ∧
        (if bitB d 15 then Space.mbox c else Space.cs c).near := by
      refine ⟨rfl, by split <;> decide, fun r hr => ?_, by split <;> trivial⟩
      obtain ⟨y, hy, rfl⟩ := List.mem_map.mp hr
      exact drainRows_lt hrf y hy
    dsimp only
    repeat' first
      | exact Gives.pure hp
      | refine Gives.bind fun _ _ => ?_
      | refine Gives.ite ?_ ?_
  exact hg x h

/-! ### Words -/

theorem drainNote_writes (c : Core) (p : Drain) (rd : State) (key : Option Nat) (r : Nat × Drained) (s : State) :
    Writes [] (r.2.words.map (place (.cs c))) s (drainNote c p rd key r s) := by
  unfold drainNote
  dsimp only
  generalize hm : r.2.miss.foldl (fun (s : State) x => s.residueMiss c r.1 x) _ = m
  have hk : Keeps [.busy, .counters, .tens, .power, .stores, .fabric, .mgmt, .fresh] s m := by
    rw [← hm]
    refine Keeps.foldl (Keeps.foldl ?_ fun u x k => State.noteTile_keeps k (by decide)) fun u x k => State.residueMiss_keeps k (by decide)
    refine State.countCore_keeps (State.chargeCore_keeps (State.countCore_keeps (State.guardLatch_keeps ?_ (by decide)) (by decide)) (by decide)) (by decide)
    exact State.countEng_keeps (State.countEng_keeps (Keeps.refl _ _) (by decide)) (by decide)
  have hw := (writes_consume_cs m rd c c (1 + r.1) r.2.words).after_keeps hk
  split
  · exact hw.of_keeps (vs := [.stores, .tens, .mgmt]) (State.countWatch_keeps (Keeps.refl _ _) (by decide))
  · exact hw

theorem drainStore_writes (c : Core) (p : Drain) (rd : State) (r : Nat × Drained) (s : State) (hn : p.sp.near) :
    Writes (inSpace p.sp (r.2.main.els ++ r.2.main.shs ++ r.2.snd.els ++ r.2.snd.shs)) [] s (drainStore c p rd r s) := by
  unfold drainStore
  dsimp only
  have h := (((writes_emit s hn (if p.part then 0xF else p.fmt) (bitsN p.d 87 72) r.2.main.els).append (writes_emit _ hn 0xE (bitsN p.d 87 72) r.2.main.shs)).append
    (writes_emit _ hn (p.fmt + 1) (bitsN p.d 87 72) r.2.snd.els)).append (writes_emit _ hn 0xE (bitsN p.d 87 72) r.2.snd.shs)
  rw [← inSpace_append, ← inSpace_append, ← inSpace_append] at h
  exact h.of_keeps (vs := [.stores]) (State.report_keeps (State.report_keeps (Keeps.refl _ _) (by decide)) (by decide))

/-- Tiles stored one after another. -/
theorem drainStores_writes (c : Core) (p : Drain) (rd : State) (hn : p.sp.near) (rs : List (Nat × Drained)) (s : State) :
    Writes (inSpace p.sp (rs.flatMap (fun r => r.2.main.els ++ r.2.main.shs ++ r.2.snd.els ++ r.2.snd.shs))) [] s
      (rs.foldl (fun (s : State) (r : Nat × Drained) => drainStore c p rd r s) s) := by
  induction rs generalizing s with
  | nil => exact Writes.refl _ _
  | cons r q ih =>
    rw [List.flatMap_cons, inSpace_append]
    exact (drainStore_writes c p rd r s hn).append (ih _)

/-- A drain before its engines' paths are taken. -/
def drainFrom (c : Core) (desc : BitVec 10) (x : DrainPlan) (rd s : State) : State :=
  let s0 := x.outs.foldl (fun (s : State) (r : Nat × Drained) => drainNote c x.p rd x.key r s) s
  let s1 := x.outs.foldl (fun (s : State) (r : Nat × Drained) => drainStore c x.p rd r s) s0
  let s2 := match x.outs.find? (fun r => r.2.low ≠ 0) with
    | some r => s1.dayCore c (1 + r.1) 0x23 0 desc.toNat r.2.n.toNat 0
    | Option.none => s1
  let s3 := s2.emit (.cs c) 0xF (bitsN x.p.d 87 72) x.anchorOuts
  { (s3.quantUntil rd c 0 x.quant (x.stop + 4)) with fresh := s3.fresh + 32768 }

theorem drainRun_eq (c : Core) (desc : BitVec 10) (b : Nat) (release : Bool) (x : DrainPlan) (rd s : State) :
    drainRun c desc b release x rd s = drainTake c x b release (drainFrom c desc x rd s) := rfl

theorem fresh_keeps (s : State) (n : Nat) : Keeps [.fresh] s { s with fresh := n } :=
  Keeps.upd (Keeps.refl _ _) rfl rfl (.inl rfl) (.inl rfl) (.inl rfl) (.inl rfl) (.inl rfl) (.inl rfl) (.inl rfl) (.inl rfl) (.inl rfl) (.inl rfl) (.inl rfl)
    (.inl rfl) (.inr (by decide))

theorem drainFrom_keeps (c : Core) (desc : BitVec 10) (x : DrainPlan) (rd s : State) :
    Keeps [.cs, .mbox, .hall, .busy, .merges, .words, .service, .stores, .tens, .counters, .fabric, .mgmt, .power, .fresh] s (drainFrom c desc x rd s) := by
  unfold drainFrom
  dsimp only
  refine Keeps.trans ?_ ((fresh_keeps _ _).mono (by decide))
  refine State.quantUntil_keeps (State.emit_keeps ?_ (by decide)) (by decide)
  have h1 := Keeps.foldl (vs := [.cs, .mbox, .hall, .busy, .merges, .words, .service, .stores, .tens, .counters, .fabric, .mgmt, .power, .fresh]) (l := x.outs)
    (f := fun (s : State) (r : Nat × Drained) => drainStore c x.p rd r s)
    (Keeps.foldl (l := x.outs) (f := fun (s : State) (r : Nat × Drained) => drainNote c x.p rd x.key r s) (Keeps.refl _ s)
      fun u r k => drainNote_keeps k (by decide)) fun u r k => drainStore_keeps k (by decide)
  split
  · exact State.dayCore_keeps h1 (by decide)
  · exact h1

theorem drainFrom_writes (c : Core) (desc : BitVec 10) (x : DrainPlan) (rd s : State) (hn : x.p.sp.near) :
    Writes (inSpace x.p.sp x.stores ++ inSpace (.cs c) x.anchorOuts) (x.reads.map (place (.cs c))) s (drainFrom c desc x rd s) := by
  unfold drainFrom DrainPlan.stores DrainPlan.reads
  dsimp only
  generalize h0 : x.outs.foldl (fun (s : State) (r : Nat × Drained) => drainNote c x.p rd x.key r s) s = s0
  have w0 : Writes [] ((x.outs.flatMap (fun r => r.2.words)).map (place (.cs c))) s s0 := by
    rw [← h0]
    refine Writes.foldl_reads fun u r hr => (drainNote_writes c x.p rd x.key r u).mono fun p hp => ?_
    obtain ⟨a, ha, rfl⟩ := List.mem_map.mp hp
    exact List.mem_map.mpr ⟨a, List.mem_flatMap.mpr ⟨r, hr, ha⟩, rfl⟩
  have w1 := w0.after_reads (drainStores_writes c x.p rd hn x.outs s0)
  rw [List.append_nil] at w1
  refine Writes.of_keeps (vs := [.busy, .fresh]) (Writes.append ?_ (writes_emit _ (near_cs c) 0xF (bitsN x.p.d 87 72) x.anchorOuts))
    (((State.quantUntil_keeps (Keeps.refl _ _) (by decide)) : Keeps [.busy, .fresh] _ _).trans ((fresh_keeps _ _).mono (by decide)))
  split
  · exact w1.of_keeps (vs := [.mgmt]) (State.dayCore_keeps (Keeps.refl _ _) (by decide))
  · exact w1

theorem mdrnAct_ok {c : Core} {desc : BitVec 10} {bank release : Bool} {rd s s1 : State} {d : BitVec 512} {x : DrainPlan}
    (hd : latchForm rd c desc 1 [1] = .ok d) (hp : drainPlan c d (if bank then 1 else 0) rd = .ok x) (hc : s.claimPorts c (x.ports rd c) = .ok s1)
    (hm : (drainRun c desc (if bank then 1 else 0) release x rd s1).mergesFit) :
    mdrnAct c desc bank release rd s = .ok ((drainRun c desc (if bank then 1 else 0) release x rd s1).holdTill c (opEnd (unitClock rd c) (x.ports rd c))) := by
  unfold mdrnAct
  rw [hd]
  refine abandon_ok ?_
  rw [hp]
  show (s.claimPorts c _ >>= _) = _
  rw [hc]
  exact holdMerges_fit hm rd c _

/-- A drain that neither releases nor drains bank 1 leaves the bindings. -/
theorem drains_bind (c : Core) (x : DrainPlan) (es : List Nat) (s : State) : (es.foldl (drainOn c x 0 false) s).cores.bind = s.cores.bind := by
  induction es generalizing s with
  | nil => rfl
  | cons e es ih => exact ih _

/-- Settles O12: words are read and stored before the drain paths are taken; of the rows each engine's own are emptied. -/
theorem matrixDrain : Obligations.MatrixDrain := by
  unfold Obligations.MatrixDrain
  intro c desc bank release s s1 d x hi r b hd hp hc hm
  obtain ⟨he, hh, hr, hn⟩ := drainPlan_form hp
  have hok := mdrnAct_ok hd hp hc hm
  have h1 := claimPorts_keeps hc
  have hk := drainFrom_keeps c desc x r s1
  have hend := holdTill_keeps (drainRun c desc b release x r s1) c (opEnd (unitClock r c) (x.ports r c))
  have heng (f : Nat) : (drainFrom c desc x r s1).engine c f = r.engine c f := by
    unfold State.engine
    rw [hk.eq_engines, h1.eq_engines]
  have hbound (e row h : Nat) : boundAt (drainFrom c desc x r s1) c e 1 row h = boundAt r c e 1 row h := by
    unfold boundAt
    rw [hk.eq_bind, h1.eq_bind]
  have hblock (f : Nat) : holdsBlock (drainFrom c desc x r s1) c x.p f b = holdsBlock r c x.p f b := holdsBlock_congr fun row _ h _ => hbound f row h
  have hnodup : x.p.engs.Nodup := he ▸ setOf_nodup _
  have hlt : ∀ e ∈ x.p.engs, e < 4 := fun e h => setOf_lt (he ▸ h)
  obtain ⟨d1, -, d3⟩ := drains_acc (c := c) (x := x) (b := b) (release := release) hr hh x.p.engs (drainFrom c desc x r s1) hnodup hlt
  refine ⟨_, congrArg Host.Outcome.next (mxOp_ok hi hok), ?_, fun e hm => ?_, fun f e k row col h4 h2 hrow hcol hw => ?_, fun hrel hbank => ?_, ?_⟩
  · refine Writes.hold ?_ c _
    rw [drainRun_eq]
    exact (((drainFrom_writes c desc x r s1 hn).of_keeps (vs := [.acc, .engines]) (drainTake_keeps (Keeps.refl _ _) (by decide))).after_keeps h1).after_keeps
      (strikeAccs_keeps s c)
  · have := d1 e hm
    unfold State.engine at this ⊢
    rw [hend.eq_engines]
    exact this
  · rw [hend.eq_acc, drainRun_eq, drainTake_eq, d3 f e k _ h4 ((inPlace_accKey h4 h4 hrow hcol).mpr ⟨rfl, rfl, rfl⟩)
      (fun hf hm => by rw [heng]; exact hw hf hm), hblock, hk.eq_acc, h1.eq_acc]
    refine if_congr ?_ rfl rfl
    simp only [Bool.and_eq_true, decide_eq_true_eq, givenBack_accKey h4 h4 hrow hcol]
    unfold upTo
    rw [List.mem_range]
    tauto
  · have hb : b = 0 := by rw [show b = (if bank then 1 else 0) from rfl, hbank]; rfl
    rw [hend.eq_bind, drainRun_eq, drainTake_eq, hb, hrel, drains_bind, hk.eq_bind, h1.eq_bind]
  · have hkeep := (mdrnAct_keeps (vs := [.cs, .mbox, .hall, .acc, .engines, .busy, .merges, .words, .service, .stores, .tens, .counters, .fabric, .mgmt, .power, .fresh])
      (Keeps.refl _ _) (by decide)).getOk hok
    exact ((strikeAccs_keeps s c).mono (by decide)).trans (hkeep.mono (by decide))

end Sys2Proof.Machine
end

section
/-! SUPPORT. Products of the matrix engines, alone, in pairs and alternating (04 R85 to R90; 05 R115; 08 R199 to R202). -/

namespace Sys2Proof.Machine

open Sys2Proof Sys2Proof.Claims

set_option Elab.async false

/-! ### The form of a product -/

/-- A product works in rows of its core's four engines. -/
def Prod.formed (p : Prod) : Prop := (∃ m, p.engs = setOf m) ∧ p.halves ≤ 2 ∧ p.rb + p.m ≤ 128

/-- Its row groups fit the accumulator rows, unless a row map tells them. -/
theorem prodCheck_rows {d : BitVec 512} (h : prodCheck d = true) (hm : bitsN d 82 81 ≠ 2) : bitsN d 23 19 + bitsN d 27 24 ≤ 16 := by
  unfold prodCheck at h
  simp only [Bool.and_eq_true, Bool.or_eq_true, decide_eq_true_eq] at h
  obtain ⟨⟨⟨⟨⟨⟨⟨⟨⟨⟨⟨⟨⟨⟨⟨⟨⟨⟨-, -⟩, -⟩, -⟩, -⟩, hrows⟩, -⟩, -⟩, -⟩, -⟩, -⟩, -⟩, -⟩, -⟩, -⟩, -⟩, -⟩, -⟩, -⟩ := h
  exact hrows.resolve_left hm

theorem prodOf_formed (s : State) (c : Core) (d : BitVec 512) (bank x xq : Nat) : Gives (fun p => p.formed ∧ p.handoff = bitB d 28) (prodOf s c d bank x xq) := by
  unfold prodOf
  refine Gives.bind fun _ hc => ?_
  have hrows := prodCheck_rows (need_ok hc)
  have hhalves : (if bitB d 18 then 1 else 2) ≤ 2 := by split <;> decide
  generalize bitsN d 82 81 = mapk at hrows
  generalize (if bitB d 18 then 1 else 2) = halves at hhalves
  have hlast (map : BitVec 512) (hm : need (mapk ≠ 2 || ((if mapk = 2 then (unfrozen map).length else 8 * bitsN d 23 19) % 8 = 0 &&
      decide (8 ≤ (if mapk = 2 then (unfrozen map).length else 8 * bitsN d 23 19)) &&
      decide (8 * bitsN d 27 24 + (if mapk = 2 then (unfrozen map).length else 8 * bitsN d 23 19) ≤ 128))) 0x12 = .ok ()) :
      8 * bitsN d 27 24 + (if mapk = 2 then (unfrozen map).length else 8 * bitsN d 23 19) ≤ 128 := by
    by_cases h2 : mapk = 2
    · have := need_ok hm
      rw [h2] at this ⊢
      simp only [Bool.and_eq_true, Bool.or_eq_true, decide_eq_true_eq, ne_eq, not_true_eq_false, false_or] at this
      exact this.2
    · have := hrows h2
      rw [if_neg h2]
      omega
  dsimp only
  refine Gives.ite (Gives.bind fun map _ => ?_) (Gives.bind fun map _ => ?_)
  all_goals
    refine Gives.bind fun _ _ => Gives.bind fun _ hm => Gives.bind fun _ _ => Gives.pure ⟨⟨⟨_, rfl⟩, hhalves, hlast map hm⟩, rfl⟩

theorem prepare_formed {s : State} {c : Core} {d : BitVec 512} {bank x xq : Nat} {p : Prod} (h : prepare s c d bank x xq = .ok p) :
    p.formed ∧ p.handoff = bitB d 28 := by
  have hg : Gives (fun p => p.formed ∧ p.handoff = bitB d 28) (prepare s c d bank x xq) := by
    unfold prepare
    refine Gives.bind fun q hq => ?_
    have hf : q.formed ∧ q.handoff = bitB d 28 := prodOf_formed s c d bank x xq q hq
    have hf' (a b e) : Prod.formed { q with chains := a, src := b, dst := e } ∧ q.handoff = bitB d 28 := hf
    dsimp only
    repeat' first
      | exact Gives.pure (hf' _ _ _)
      | refine Gives.bind fun _ _ => ?_
      | refine Gives.ite ?_ ?_
  exact hg p h

theorem Prod.formed.eng_lt {p : Prod} (h : p.formed) {e : Nat × Nat} (he : e ∈ p.engs.zipIdx) : e.1 < 4 := by
  obtain ⟨⟨m, hm⟩, -⟩ := h
  exact setOf_lt (hm ▸ mem_of_mem_zipIdx he)

theorem mem_openTiles {p : Prod} {x : Nat × Nat × Nat} :
    x ∈ p.openTiles ↔ (x.1, x.2.1) ∈ p.engs.zipIdx ∧ x.2.2 ∈ (upTo p.halves).filter (p.isOpen x.2.1) := by
  unfold Prod.openTiles Prod.isOpen
  rw [List.mem_flatMap]
  constructor
  · rintro ⟨⟨e, k⟩, he, hm⟩
    obtain ⟨h, hh, hx⟩ := List.mem_filterMap.mp hm
    dsimp only at hx
    split at hx
    · cases hx
    · next hfr =>
      cases hx
      refine ⟨he, List.mem_filter.mpr ⟨hh, ?_⟩⟩
      rw [Bool.and_eq_true, decide_eq_true_eq, Bool.not_eq_true']
      exact ⟨List.mem_range.mp hh, Bool.eq_false_iff.mpr hfr⟩
  · rintro ⟨he, hm⟩
    obtain ⟨hh, hx⟩ := List.mem_filter.mp hm
    rw [Bool.and_eq_true, Bool.not_eq_true'] at hx
    refine ⟨(x.1, x.2.1), he, List.mem_filterMap.mpr ⟨x.2.2, hh, ?_⟩⟩
    dsimp only
    rw [if_neg (by rw [hx.2]; decide)]

/-! ### Rows that a handoff leaves -/

/-- The rows of an engine that a product works in. -/
def Prod.rowsOf (p : Prod) : List Nat := (upTo p.m).map (p.rb + ·)

theorem Prod.formed.rows_lt {p : Prod} (h : p.formed) : ∀ r ∈ p.rowsOf, r < 128 := by
  obtain ⟨-, -, hr⟩ := h
  intro r hm
  obtain ⟨i, hi, rfl⟩ := List.mem_map.mp hm
  have := List.mem_range.mp hi
  omega

theorem Prod.formed.halves_lt {p : Prod} (h : p.formed) (k : Nat) : ∀ x ∈ (upTo p.halves).filter (p.isOpen k), x < 2 := by
  obtain ⟨-, hh, -⟩ := h
  intro x hm
  have := List.mem_range.mp (List.mem_filter.mp hm).1
  omega

/-- The keys that a handoff leaves are those its engines give back. -/
theorem handedOff_iff {c : Core} {p : Prod} {n : Nat} (hf : p.formed) : handedOff c p n ↔
    (p.handoff && p.engs.zipIdx.any (fun e => givenBack c e.1 (nth p.src 0 e.2) p.rowsOf ((upTo p.halves).filter (p.isOpen e.2)) n)) = true := by
  unfold handedOff
  rw [Bool.and_eq_true, List.any_eq_true]
  refine and_congr_right fun _ => ?_
  constructor
  · rintro ⟨x, hx, r, hr, i, hi, rfl⟩
    obtain ⟨he, hh⟩ := mem_openTiles.mp hx
    exact ⟨(x.1, x.2.1), he, (givenBack_iff hf.rows_lt (hf.halves_lt _) (hf.eng_lt he)).mpr
      ⟨p.rb + r, List.mem_map.mpr ⟨r, List.mem_range.mpr hr, rfl⟩, x.2.2, hh, i, hi, rfl⟩⟩
  · rintro ⟨e, he, hg⟩
    obtain ⟨r, hr, h, hh, i, hi, rfl⟩ := (givenBack_iff hf.rows_lt (hf.halves_lt _) (hf.eng_lt he)).mp hg
    obtain ⟨j, hj, rfl⟩ := List.mem_map.mp hr
    exact ⟨(e.1, e.2, h), mem_openTiles.mpr ⟨he, hh⟩, j, List.mem_range.mp hj, i, hi, rfl⟩

theorem leaveRows_acc (c : Core) (p : Prod) (s : State) (n : Nat) (hf : p.formed) :
    (handedOff c p n → look (leaveRows c p s).cores.acc {} n = {}) ∧
    (¬ handedOff c p n → look (leaveRows c p s).cores.acc {} n = look s.cores.acc {} n) := by
  have hfold : ∀ (es : List (Nat × Nat)) (s : State), look (es.foldl (fun (s : State) (e : Nat × Nat) =>
      s.freeRows c e.1 (nth p.src 0 e.2) p.rowsOf ((upTo p.halves).filter (p.isOpen e.2))) s).cores.acc {} n =
      if es.any (fun e => givenBack c e.1 (nth p.src 0 e.2) p.rowsOf ((upTo p.halves).filter (p.isOpen e.2)) n) then {} else look s.cores.acc {} n := by
    intro es
    induction es with
    | nil => exact fun _ => rfl
    | cons e es ih =>
      intro s
      rw [List.foldl_cons, ih, freeRows_acc, List.any_cons]
      generalize es.any _ = a
      cases a <;> cases givenBack c e.1 (nth p.src 0 e.2) p.rowsOf ((upTo p.halves).filter (p.isOpen e.2)) n <;> rfl
  have he : look (leaveRows c p s).cores.acc {} n = if (p.handoff && p.engs.zipIdx.any (fun e =>
      givenBack c e.1 (nth p.src 0 e.2) p.rowsOf ((upTo p.halves).filter (p.isOpen e.2)) n)) then {} else look s.cores.acc {} n := by
    unfold leaveRows
    cases p.handoff
    · rfl
    · exact hfold _ s
  rw [he]
  exact ⟨fun h => if_pos ((handedOff_iff hf).mp h), fun h => if_neg fun k => h ((handedOff_iff hf).mpr k)⟩

theorem leaveRows_bind (c : Core) (p : Prod) {s t : State} (h : t.cores.bind = s.cores.bind) : (leaveRows c p t).cores.bind = (leaveRows c p s).cores.bind := by
  unfold leaveRows
  split
  · generalize p.engs.zipIdx = es
    induction es generalizing s t with
    | nil => exact h
    | cons e es ih =>
      refine ih ?_
      unfold State.freeRows
      dsimp only
      rw [h]
  · exact h

/-! ### What a product leaves -/

/-- The rows that a product leaves, with its results. -/
theorem finishProd_rows (s : State) (c : Core) (p : Prod) (v : ProdVals) (now : Nat) (w : Sched) :
    (finishProd s c p v now w).cores.acc = putAll (leaveRows c p s).cores.acc v.accs ∧
    (finishProd s c p v now w).cores.bind = bindRows c p (leaveRows c p s).cores.bind := by
  unfold finishProd
  dsimp only
  generalize hs : ({ leaveRows c p s with cores := { (leaveRows c p s).cores with
    acc := v.accs.foldl (fun (m : Sparse Acc) (e : Nat × Acc) => put {} m e.1 e.2) (leaveRows c p s).cores.acc
    bind := bindRows c p (leaveRows c p s).cores.bind } } : State) = s1
  have h1 : s1.cores.acc = putAll (leaveRows c p s).cores.acc v.accs := hs ▸ rfl
  have h2 : s1.cores.bind = bindRows c p (leaveRows c p s).cores.bind := hs ▸ rfl
  have hk : Keeps [.engines, .tens, .counters, .fabric, .mgmt, .power, .upsets] s1 (p.engs.zipIdx.foldl (fun (u : State) (e : Nat × Nat) =>
      (u.setEngine c e.1 ((u.engine c e.1).ran s c p e.1 e.2 now w)).noteEngine c p v e.1 e.2) s1) :=
    Keeps.foldl (Keeps.refl _ _) fun u e k => State.noteEngine_keeps (State.setEngine_keeps k (by decide)) (by decide)
  rw [← h1, ← h2]
  split
  · have k2 := fun n => State.countCore_keeps (c := c) (off := 0x170) (n := n) hk (by decide)
    exact ⟨(k2 _).eq_acc, (k2 _).eq_bind⟩
  · exact ⟨hk.eq_acc, hk.eq_bind⟩

theorem noteProd_writes (rd s : State) (c : Core) (p : Prod) (o : ProdOps) : leavesWords c [] o.reads s (noteProd rd s c p o) := by
  unfold noteProd
  dsimp only
  refine Writes.after_keeps (vs := [.stores, .tens, .counters, .fabric, .mgmt, .power, .fresh]) ?_ (writes_consume_cs _ rd c c _ o.reads)
  refine State.chargeCore_keeps ?_ (by decide)
  have h0 : Keeps [.stores, .tens, .counters, .fabric, .mgmt, .power, .fresh] s s := Keeps.refl _ _
  have h1 : Keeps [.stores, .tens, .counters, .fabric, .mgmt, .power, .fresh] s (if p.shingled p.pf then
      ((p.blocks.flatMap (fun b => p.rows.map (fun r => p.opP.tile ((p.kTile b).1 + r.1 * p.kts) p.x 0 0))).foldl (fun l n => insertNew l n) []).foldl
        (fun (s : State) n => s.noteTile c (1 + nth p.engs 0 0) p.opP.region n) s else s) :=
    Keeps.ite (Keeps.foldl h0 fun u x k => State.noteTile_keeps k (by decide)) h0
  exact Keeps.ite (Keeps.foldl h1 fun u x k => State.noteTile_keeps k (by decide)) h1

/-- A product run leaves the accumulators and bindings of its results. -/
theorem runRun_rows (c : Core) (p : Prod) (o : ProdOps) (v : ProdVals) (s0 : Nat) (rd s : State) :
    (runRun c p o v s0 rd s).cores.acc = putAll (leaveRows c p s).cores.acc v.accs ∧
    (runRun c p o v s0 rd s).cores.bind = bindRows c p (leaveRows c p s).cores.bind ∧
    (runRun c p o v s0 rd s).cores.bcast = put 0 s.cores.bcast c.val (lastVector p (plainSched p s0)) ∧
    (runRun c p o v s0 rd s).cores.pairs = s.cores.pairs := by
  obtain ⟨h1, h2⟩ := finishProd_rows s c p v (unitClock rd c) (plainSched p s0)
  have hf : Keeps [.acc, .engines, .tens, .counters, .fabric, .mgmt, .power, .upsets] s (finishProd s c p v (unitClock rd c) (plainSched p s0)) :=
    finishProd_keeps (Keeps.refl _ _) (by decide)
  unfold runRun
  dsimp only
  generalize finishProd s c p v (unitClock rd c) (plainSched p s0) = s1 at h1 h2 hf ⊢
  have hn : Keeps [.cs, .mbox, .words, .service, .stores, .tens, .counters, .fabric, .mgmt, .power, .fresh] s1 (noteProd rd s1 c p o) :=
    noteProd_keeps (Keeps.refl _ _) (by decide)
  have hl : Keeps [.engines] ((noteProd rd s1 c p o).takeCast c (lastVector p (plainSched p s0))) (p.engs.zipIdx.foldl (fun (s : State) (e : Nat × Nat) =>
      s.setEngine c e.1 ((s.engine c e.1).loaded rd c p o e.2 s0)) ((noteProd rd s1 c p o).takeCast c (lastVector p (plainSched p s0)))) :=
    Keeps.foldl (Keeps.refl _ _) fun u e k => State.setEngine_keeps k (by decide)
  have hb : (noteProd rd s1 c p o).cores.bcast = s.cores.bcast := hn.eq_bcast.trans hf.eq_bcast
  have hp : (noteProd rd s1 c p o).cores.pairs = s.cores.pairs := hn.eq_pairs.trans hf.eq_pairs
  refine ⟨hl.eq_acc.trans (hn.eq_acc.trans h1), hl.eq_bind.trans (hn.eq_bind.trans h2), hl.eq_bcast.trans ?_, hl.eq_pairs.trans hp⟩
  rw [← hb]
  rfl

theorem runRun_writes (c : Core) (p : Prod) (o : ProdOps) (v : ProdVals) (s0 : Nat) (rd s : State) : leavesWords c [] o.reads s (runRun c p o v s0 rd s) := by
  unfold runRun
  dsimp only
  have hf : Keeps [.acc, .engines, .tens, .counters, .fabric, .mgmt, .power, .upsets] s (finishProd s c p v (unitClock rd c) (plainSched p s0)) :=
    finishProd_keeps (Keeps.refl _ _) (by decide)
  refine Writes.of_keeps (vs := [.busy, .engines]) ((noteProd_writes rd _ c p o).after_keeps hf) ?_
  exact Keeps.foldl (State.takeCast_keeps (Keeps.refl _ _) (by decide)) fun u e k => State.setEngine_keeps k (by decide)

/-- What accumulators a product leaves. -/
theorem runRun_accs {c : Core} {p : Prod} {o : ProdOps} {v : ProdVals} {s0 : Nat} {rd s : State} (hf : p.formed) :
    accsAfter c p v.accs s (runRun c p o v s0 rd s) := by
  obtain ⟨h1, -⟩ := runRun_rows c p o v s0 rd s
  unfold accsAfter filled
  rw [h1]
  refine ⟨fun k hk => putAll_mem hk, fun k hk => ?_⟩
  rw [putAll_ne hk]
  exact leaveRows_acc c p s k hf

/-! ### A product alone -/

/-- `MRUN` with its checks passed. -/
theorem mrunAct_ok {c : Core} {desc : BitVec 10} {rd s s1 t : State} {d : BitVec 512} {p : Prod} {o : ProdOps}
    (hd : latchForm rd c desc 1 [0] = .ok d) (hp : prepare rd c d 0 (bound rd c d 229 true) (bound rd c d 348 false) = .ok p) (ho : runPlan c p rd = .ok o)
    (hc : s.claimPorts c (prodPorts rd p (unitClock rd c) (loadStart rd c p.engs (unitClock rd c)) (runFirst rd c p)) = .ok s1)
    (ht : (if p.paired then
      match find rd.cores.pairs (partnerOf c).val with
      | none => (.ok (pairHold c p (runFirst rd c p) s1) : Res State)
      | some q => if (q.first : Int) + unitClock rd c = (runFirst rd c p : Int) + unitClock rd (partnerOf c) && pairAgree p q.desc then
          pairRun c p o q (runFirst rd c p) rd s1 else throw (.after (pairFault c q s1) 0x17 0)
      else prodWork rd c p none o.qs >>= fun v => .ok (runRun c p o v (runFirst rd c p) rd s1)) = .ok t) : mrunAct c desc rd s = .ok t := by
  unfold mrunAct
  rw [hd]
  refine abandon_ok ?_
  unfold bound at hp
  rw [hp]
  show (runPlan c p rd >>= _) = _
  rw [ho]
  show (s.claimPorts c _ >>= _) = _
  rw [hc]
  exact ht

theorem accsAfter_congr {c : Core} {p : Prod} {accs : List (Nat × Acc)} {s u t : State} (h : accsAfter c p accs s t) (he : s.cores.acc = u.cores.acc) :
    accsAfter c p accs u t := by
  unfold accsAfter at *
  rw [he] at h
  exact h

/-- A product alone runs. -/
theorem product_runs : productRuns := by
  unfold productRuns
  intro c s desc d p o v s1 hi r now s0 hd hp ho hc hpair hv
  have hok : mrunAct c desc r r = .ok (runRun c p o v s0 r s1) := mrunAct_ok hd hp ho hc (by
    rw [hpair]
    show (prodWork r c p none o.qs >>= _) = _
    rw [hv]
    rfl)
  obtain ⟨hf, -⟩ := prepare_formed hp
  have h1 := claimPorts_keeps hc
  obtain ⟨-, hb, hcast, -⟩ := runRun_rows c p o v s0 r s1
  refine ⟨_, congrArg Host.Outcome.next (mxOp_ok hi hok), accsAfter_congr (runRun_accs hf) h1.eq_acc, ?_, ?_, ?_, ?_⟩
  · rw [hb, leaveRows_bind c p h1.eq_bind]
  · rw [hcast]
    exact look_put _ _ _ _
  · exact ((runRun_writes c p o v s0 r s1).after_keeps h1).after_keeps (strikeAccs_keeps s c)
  · have hkeep := (mrunAct_keeps (vs := [.cs, .mbox, .acc, .engines, .busy, .words, .service, .stores, .tens, .counters, .fabric, .mgmt, .power, .upsets, .fresh])
      (Keeps.refl _ _) (by decide)).getOk hok
    exact ((strikeAccs_keeps s c).mono (by decide)).trans (hkeep.mono (by decide))

/-! ### Products in pairs -/

/-- A key of a core's accumulators. -/
def ofCore (c : Core) (k : Nat) : Prop := ∃ e < 4, ∃ b, inPlace c e b k = true

theorem ofCore_unique {c d : Core} {k : Nat} (h : ofCore c k) (h' : ofCore d k) : c = d := by
  obtain ⟨e, he, b, hb⟩ := h
  obtain ⟨f, hf, b', hb'⟩ := h'
  exact (inPlace_unique he hf hb hb').1

theorem openTiles_ofCore {c : Core} {p : Prod} (hf : p.formed) {x : Nat × Nat × Nat} (hx : x ∈ p.openTiles) {r i b : Nat} (hr : r < p.m) (hi : i < 128) :
    ofCore c (accKey c x.1 b (p.rb + r) (128 * x.2.2 + i)) := by
  obtain ⟨he, hh⟩ := mem_openTiles.mp hx
  have h2 := hf.halves_lt _ _ hh
  have he4 := hf.eng_lt he
  have hrow := hf.rows_lt (p.rb + r) (List.mem_map.mpr ⟨r, List.mem_range.mpr hr, rfl⟩)
  exact ⟨x.1, he4, b, (inPlace_accKey he4 he4 hrow (by omega)).mpr ⟨rfl, rfl, rfl⟩⟩

theorem handedOff_ofCore {c : Core} {p : Prod} (hf : p.formed) {k : Nat} (h : handedOff c p k) : ofCore c k := by
  obtain ⟨-, x, hx, r, hr, i, hi, rfl⟩ := h
  exact openTiles_ofCore hf hx hr hi

/-- A product's results lie in its own core's accumulators. -/
theorem prodWork_ofCore {s : State} {c : Core} {p : Prod} {q : Option (Core × Prod)} {loads : List QWords} {v : ProdVals} (hf : p.formed)
    (h : prodWork s c p q loads = .ok v) : ∀ k ∈ v.accs.map (·.1), ofCore c k := by
  unfold prodWork at h
  obtain ⟨_, -, h⟩ := bind_ok h
  obtain ⟨cells, hcells, h⟩ := bind_ok h
  cases h
  intro k hk
  rw [List.map_map] at hk
  obtain ⟨y, hy, rfl⟩ := List.mem_map.mp hk
  obtain ⟨x, hx, bs, hbs, hy⟩ := mem_flatMapM_ok hcells y hy
  obtain ⟨r, hr, bs, hbs, hy⟩ := mem_flatMapM_ok hbs y hy
  obtain ⟨i, hi, hb⟩ := mem_mapM_ok hbs y hy
  obtain ⟨a, -, hb⟩ := bind_ok hb
  cases hb
  exact openTiles_ofCore hf hx (List.mem_range.mp hr) (List.mem_range.mp hi)

theorem partnerOf_ne (c : Core) : partnerOf c ≠ c := by
  revert c
  decide

/-- The first of a pair waits. -/
theorem pair_waits {c : Core} {s s1 : State} {desc : BitVec 10} {d : BitVec 512} {p : Prod} {o : ProdOps} (hi : issues s c = true)
    (hd : latchForm (s.strikeAccs c) c desc 1 [0] = .ok d)
    (hp : prepare (s.strikeAccs c) c d 0 (bound (s.strikeAccs c) c d 229 true) (bound (s.strikeAccs c) c d 348 false) = .ok p)
    (ho : runPlan c p (s.strikeAccs c) = .ok o)
    (hc : (s.strikeAccs c).claimPorts c (prodPorts (s.strikeAccs c) p (unitClock (s.strikeAccs c) c)
      (loadStart (s.strikeAccs c) c p.engs (unitClock (s.strikeAccs c) c)) (runFirst (s.strikeAccs c) c p)) = .ok s1) (hpair : p.paired = true)
    (hnone : find (s.strikeAccs c).cores.pairs (partnerOf c).val = none) :
    ∃ t, exec (.mrun c desc) s = .next t ∧
      find t.cores.pairs c.val = some ⟨runFirst (s.strikeAccs c) c p, p.d, p.x, p.xq, (seqOf s c).page, (seqOf s c).bundle⟩ ∧
      look t.cores.bcast 0 c.val = lastVector p (plainSched p (runFirst (s.strikeAccs c) c p)) ∧ Keeps [.busy, .upsets, .acc] s t := by
  have hok : mrunAct c desc (s.strikeAccs c) (s.strikeAccs c) = .ok (pairHold c p (runFirst (s.strikeAccs c) c p) s1) := mrunAct_ok hd hp ho hc (by
    rw [hpair, hnone]
    rfl)
  have hs := strikeAccs_keeps s c
  have h1 := claimPorts_keeps hc
  have hq : seqOf s1 c = seqOf s c := by
    unfold seqOf
    rw [h1.eq_seqs, hs.eq_seqs]
  refine ⟨_, congrArg Host.Outcome.next (mxOp_ok hi hok), ?_, look_put _ _ _ _, ?_⟩
  · rw [← hq]
    exact find_set _ _ _
  · exact (hs.mono (by decide)).trans ((h1.mono (by decide)).trans (pairHold_keeps (Keeps.refl _ _) (by decide)))

/-- The pair of a waiting product taken. -/
def State.unpair (s : State) (e : Core) : State := { s with cores := { s.cores with pairs := del s.cores.pairs e.val } }

theorem unpair_keeps (s : State) (e : Core) : Keeps [.busy] s (s.unpair e) := by
  unfold State.unpair
  refine Keeps.upd (Keeps.refl _ _) rfl rfl (.inr ?_) (.inl rfl) (.inl rfl) (.inl rfl) (.inl rfl) (.inl rfl) (.inl rfl) (.inl rfl) (.inl rfl) (.inl rfl)
    (.inl rfl) (.inl rfl) (.inl rfl)
  simp +contextual [CoresOk, Cores.wf]

/-- The state that a pair of products leaves. -/
def pairLeaves (c : Core) (p : Prod) (o : ProdOps) (v : ProdVals) (s0 : Nat) (e : Core) (p2 : Prod) (o2 : ProdOps) (v2 : ProdVals) (q : PairWait)
    (rd s : State) : State := runRun e p2 o2 v2 q.first rd (runRun c p o v s0 rd (s.unpair e))

theorem pairRun_ok {c : Core} {p p2 : Prod} {o o2 : ProdOps} {q : PairWait} {s0 : Nat} {rd s : State} {v v2 : ProdVals}
    (hp2 : prepare rd (partnerOf c) q.desc 0 q.x q.xq = .ok p2) (ho2 : prodOps rd (partnerOf c) p2 = .ok o2)
    (hv : prodWork rd c p (some (partnerOf c, p2)) o.qs = .ok v) (hv2 : prodWork rd (partnerOf c) p2 (some (c, p)) o2.qs = .ok v2)
    (hh : meshHits s (pairLinks rd c p s0 ++ pairLinks rd (partnerOf c) p2 q.first) = []) :
    pairRun c p o q s0 rd s = .ok ((pairLeaves c p o v s0 (partnerOf c) p2 o2 v2 q rd s).takeLinks
      (pairLinks rd c p s0 ++ pairLinks rd (partnerOf c) p2 q.first)) := by
  unfold pairRun
  dsimp only
  rw [hp2]
  show (prodOps rd (partnerOf c) p2 >>= _) = _
  rw [ho2]
  show (prodWork rd c p _ o.qs >>= _) = _
  rw [hv]
  show (prodWork rd (partnerOf c) p2 _ o2.qs >>= _) = _
  rw [hv2]
  show (if _ then _ else _) = _
  rw [if_pos hh]
  rfl

section Pairs

variable {c e : Core} {p p2 : Prod} {o o2 : ProdOps} {v v2 : ProdVals} {s0 : Nat} {q : PairWait} {rd s : State} (hf : p.formed) (hf2 : p2.formed)
  (hce : e ≠ c)

include hf hf2 hce in
/-- The accumulators that two products on two cores leave. -/
theorem pairLeaves_accs (hv : ∀ k ∈ v.accs.map (·.1), ofCore c k) (hv2 : ∀ k ∈ v2.accs.map (·.1), ofCore e k) :
    filled v.accs (pairLeaves c p o v s0 e p2 o2 v2 q rd s) ∧ filled v2.accs (pairLeaves c p o v s0 e p2 o2 v2 q rd s) ∧
    ∀ k, k ∉ (v.accs ++ v2.accs).map (·.1) →
      (handedOff c p k ∨ handedOff e p2 k → look (pairLeaves c p o v s0 e p2 o2 v2 q rd s).cores.acc {} k = {}) ∧
      (¬ handedOff c p k → ¬ handedOff e p2 k → look (pairLeaves c p o v s0 e p2 o2 v2 q rd s).cores.acc {} k = look s.cores.acc {} k) := by
  obtain ⟨h1, h2⟩ := runRun_accs (c := c) (o := o) (v := v) (s0 := s0) (rd := rd) (s := s.unpair e) hf
  obtain ⟨h3, h4⟩ := runRun_accs (c := e) (o := o2) (v := v2) (s0 := q.first) (rd := rd) (s := runRun c p o v s0 rd (s.unpair e)) hf2
  have hacc : (s.unpair e).cores.acc = s.cores.acc := rfl
  have hother {k : Nat} (hk : ofCore c k) : k ∉ v2.accs.map (·.1) ∧ ¬ handedOff e p2 k :=
    ⟨fun h => hce (ofCore_unique (hv2 k h) hk), fun h => hce (ofCore_unique (handedOff_ofCore hf2 h) hk)⟩
  unfold pairLeaves
  refine ⟨fun k hk => ?_, h3, fun k hk => ?_⟩
  · obtain ⟨a, ha, hl⟩ := h1 k hk
    obtain ⟨n1, n2⟩ := hother (hv k hk)
    exact ⟨a, ha, ((h4 k n1).2 n2).trans hl⟩
  · rw [List.map_append, List.mem_append, not_or] at hk
    refine ⟨fun h => ?_, fun n1 n2 => ((h4 k hk.2).2 n2).trans ((h2 k hk.1).2 n1)⟩
    by_cases h5 : handedOff e p2 k
    · exact (h4 k hk.2).1 h5
    · exact ((h4 k hk.2).2 h5).trans ((h2 k hk.1).1 (h.resolve_right h5))

include hce in
/-- The broadcasts that they take, and the pair. -/
theorem pairLeaves_casts : find (pairLeaves c p o v s0 e p2 o2 v2 q rd s).cores.pairs e.val = none ∧
    look (pairLeaves c p o v s0 e p2 o2 v2 q rd s).cores.bcast 0 c.val = lastVector p (plainSched p s0) ∧
    look (pairLeaves c p o v s0 e p2 o2 v2 q rd s).cores.bcast 0 e.val = lastVector p2 (plainSched p2 q.first) := by
  obtain ⟨-, -, h1, h2⟩ := runRun_rows c p o v s0 rd (s.unpair e)
  obtain ⟨-, -, h3, h4⟩ := runRun_rows e p2 o2 v2 q.first rd (runRun c p o v s0 rd (s.unpair e))
  unfold pairLeaves
  refine ⟨?_, ?_, ?_⟩
  · rw [h4, h2]
    exact find_del _ _
  · rw [h3, look_put_ne _ _ _ (fun h => hce (Fin.ext h.symm)), h1]
    exact look_put _ _ _ _
  · rw [h3]
    exact look_put _ _ _ _

theorem pairLeaves_writes : Writes [] (o.reads.map (place (.cs c)) ++ o2.reads.map (place (.cs e))) s (pairLeaves c p o v s0 e p2 o2 v2 q rd s) :=
  ((runRun_writes c p o v s0 rd (s.unpair e)).after_reads (runRun_writes e p2 o2 v2 q.first rd _)).after_keeps (unpair_keeps s e)

end Pairs

/-- Pairs of products run. -/
theorem pair_runs : pairRuns := by
  unfold pairRuns
  intro c s desc d p o s1 hi r now s0 e hd hp ho hc hpair
  refine ⟨fun hnone => pair_waits hi hd hp ho hc hpair hnone, fun q p2 o2 v v2 hq hfirst hagree hp2 ho2 hv hv2 hh => ?_⟩
  have hok : mrunAct c desc r r = .ok ((pairLeaves c p o v s0 e p2 o2 v2 q r s1).takeLinks (pairLinks r c p s0 ++ pairLinks r e p2 q.first)) :=
    mrunAct_ok hd hp ho hc (by
      rw [hpair, hq]
      rw [if_pos rfl]
      dsimp only
      rw [if_pos (by rw [hagree, Bool.and_true]; exact decide_eq_true hfirst)]
      exact pairRun_ok hp2 ho2 hv hv2 hh)
  obtain ⟨hf, -⟩ := prepare_formed hp
  obtain ⟨hf2, -⟩ := prepare_formed hp2
  have h1 := claimPorts_keeps hc
  obtain ⟨a1, a2, a3⟩ := pairLeaves_accs (o := o) (o2 := o2) (s0 := s0) (q := q) (rd := r) (s := s1) hf hf2 (partnerOf_ne c) (prodWork_ofCore hf hv)
    (prodWork_ofCore hf2 hv2)
  obtain ⟨c1, c2, c3⟩ := pairLeaves_casts (p := p) (p2 := p2) (o := o) (o2 := o2) (v := v) (v2 := v2) (s0 := s0) (q := q) (rd := r) (s := s1) (partnerOf_ne c)
  rw [h1.eq_acc] at a3
  refine ⟨_, congrArg Host.Outcome.next (mxOp_ok hi hok), c1, a1, a2, a3, c2, c3, ?_, ?_⟩
  · exact ((pairLeaves_writes.after_keeps h1).after_keeps (strikeAccs_keeps s c)).of_keeps (vs := [.busy]) (State.takeLinks_keeps (Keeps.refl _ _) (by decide))
  · have hkeep := (mrunAct_keeps (vs := [.cs, .mbox, .acc, .engines, .busy, .words, .service, .stores, .tens, .counters, .fabric, .mgmt, .power, .upsets, .fresh])
      (Keeps.refl _ _) (by decide)).getOk hok
    exact ((strikeAccs_keeps s c).mono (by decide)).trans (hkeep.mono (by decide))

/-! ### Alternating pairs -/

theorem maltAct_ok {c : Core} {desc0 desc1 : BitVec 10} {rd s s1 : State} {d0 d1 : BitVec 512} {p0 p1 : Prod} {o : ProdOps × ProdOps} {v0 v1 : ProdVals}
    (h0 : latchForm rd c desc0 1 [0] = .ok d0) (h1 : latchForm rd c desc1 1 [0] = .ok d1) (hfit : altFits d0 d1 = true)
    (hp0 : prepare rd c d0 0 (bound rd c d0 229 true) (bound rd c d0 348 false) = .ok p0)
    (hp1 : prepare rd c d1 1 (bound rd c d1 229 true) (bound rd c d1 348 false) = .ok p1) (ho : altPlan c p0 p1 rd = .ok o)
    (hv0 : prodWork rd c p0 none o.1.qs = .ok v0) (hv1 : prodWork rd c p1 none o.2.qs = .ok v1)
    (hc : s.claimPorts c (altPorts rd p0 p1 (unitClock rd c) (loadStart rd c p0.engs (unitClock rd c)) (firstVector rd c p0.engs (unitClock rd c))) = .ok s1) :
    maltAct c desc0 desc1 rd s = .ok (altRun c p0 p1 o (v0, v1) rd s1) := by
  unfold maltAct
  unfold bound at hp0 hp1
  rw [h0]
  refine abandon_ok ?_
  rw [h1]
  show (need (altFits d0 d1) 0x12 >>= _) = _
  rw [hfit]
  show (prepare rd c d0 0 _ _ >>= _) = _
  rw [hp0]
  show (prepare rd c d1 1 _ _ >>= _) = _
  rw [hp1]
  show (altPlan c p0 p1 rd >>= _) = _
  rw [ho]
  show (prodWork rd c p0 none o.1.qs >>= _) = _
  rw [hv0]
  show (prodWork rd c p1 none o.2.qs >>= _) = _
  rw [hv1]
  show (s.claimPorts c _ >>= _) = _
  rw [hc]
  rfl

theorem altFits_stay {d0 d1 : BitVec 512} (h : altFits d0 d1 = true) : bitB d0 28 = false ∧ bitB d1 28 = false := by
  unfold altFits at h
  simp only [Bool.and_eq_true, Bool.not_eq_true'] at h
  obtain ⟨⟨⟨⟨⟨⟨⟨⟨h0, -⟩, -⟩, -⟩, -⟩, -⟩, ⟨⟨⟨⟨⟨h1, -⟩, -⟩, -⟩, -⟩, -⟩⟩, -⟩, -⟩ := h
  exact ⟨h0, h1⟩

/-- A product's part of an alternating pair: its results, and what its operands' reads leave. -/
theorem halfRun (c : Core) {p : Prod} (o : ProdOps) (v : ProdVals) (now : Nat) (w : Sched) (rd s : State) (hstay : p.handoff = false) :
    (noteProd rd (finishProd s c p v now w) c p o).cores.acc = putAll s.cores.acc v.accs ∧
    leavesWords c [] o.reads s (noteProd rd (finishProd s c p v now w) c p o) := by
  have hn : Keeps [.cs, .mbox, .words, .service, .stores, .tens, .counters, .fabric, .mgmt, .power, .fresh] (finishProd s c p v now w)
      (noteProd rd (finishProd s c p v now w) c p o) := noteProd_keeps (Keeps.refl _ _) (by decide)
  have hf : Keeps [.acc, .engines, .tens, .counters, .fabric, .mgmt, .power, .upsets] s (finishProd s c p v now w) := finishProd_keeps (Keeps.refl _ _) (by decide)
  have hl : leaveRows c p s = s := by
    unfold leaveRows
    rw [hstay]
    rfl
  refine ⟨hn.eq_acc.trans ?_, (noteProd_writes rd _ c p o).after_keeps hf⟩
  rw [(finishProd_rows s c p v now w).1, hl]

theorem altRun_leaves {c : Core} {p0 p1 : Prod} (o : ProdOps × ProdOps) (v : ProdVals × ProdVals) (rd s : State) (h0 : p0.handoff = false)
    (h1 : p1.handoff = false) : (altRun c p0 p1 o v rd s).cores.acc = putAll s.cores.acc (v.1.accs ++ v.2.accs) ∧
    look (altRun c p0 p1 o v rd s).cores.bcast 0 c.val =
      max (lastVector p0 (altSched (firstVector rd c p0.engs (unitClock rd c)) (windows p0) (windows p1)).1)
        (lastVector p1 (altSched (firstVector rd c p0.engs (unitClock rd c)) (windows p0) (windows p1)).2) ∧
    leavesWords c [] (o.1.reads ++ o.2.reads) s (altRun c p0 p1 o v rd s) := by
  unfold altRun
  dsimp only
  generalize altSched (firstVector rd c p0.engs (unitClock rd c)) (windows p0) (windows p1) = w
  obtain ⟨a0, w0⟩ := halfRun c o.1 v.1 (unitClock rd c) w.1 rd s h0
  generalize noteProd rd (finishProd s c p0 v.1 (unitClock rd c) w.1) c p0 o.1 = s1 at a0 w0 ⊢
  obtain ⟨a1, w1⟩ := halfRun c o.2 v.2 (unitClock rd c) w.2 rd s1 h1
  generalize noteProd rd (finishProd s1 c p1 v.2 (unitClock rd c) w.2) c p1 o.2 = s2 at a1 w1 ⊢
  have hl : Keeps [.engines] (s2.takeCast c (max (lastVector p0 w.1) (lastVector p1 w.2))) (p0.engs.zipIdx.foldl (fun (s : State) (e : Nat × Nat) =>
      s.setEngine c e.1 ((s.engine c e.1).altLoaded rd c p0 p1 o e.2 (firstVector rd c p0.engs (unitClock rd c))))
      (s2.takeCast c (max (lastVector p0 w.1) (lastVector p1 w.2)))) := Keeps.foldl (Keeps.refl _ _) fun u e k => State.setEngine_keeps k (by decide)
  refine ⟨?_, ?_, ?_⟩
  · refine hl.eq_acc.trans (a1.trans ?_)
    rw [a0]
    exact List.foldl_append.symm
  · rw [hl.eq_bcast]
    exact look_put _ _ _ _
  · have hw := w0.after_reads w1
    rw [← List.map_append] at hw
    exact (hw.of_keeps (vs := [.busy]) (State.takeCast_keeps (Keeps.refl _ _) (by decide))).of_keeps hl

/-- Alternating pairs run. -/
theorem alternating_runs : alternatingRuns := by
  unfold alternatingRuns
  intro c s desc0 desc1 d0 d1 p0 p1 o v0 v1 s1 hi r now s0 w h0 h1 hfit hp0 hp1 ho hv0 hv1 hc
  have hok := maltAct_ok h0 h1 hfit hp0 hp1 ho hv0 hv1 hc
  obtain ⟨e0, e1⟩ := altFits_stay hfit
  obtain ⟨a, hb, hw⟩ := altRun_leaves (c := c) o (v0, v1) r s1 ((prepare_formed hp0).2.trans e0) ((prepare_formed hp1).2.trans e1)
  have hk := claimPorts_keeps hc
  refine ⟨_, congrArg Host.Outcome.next (mxOp_ok hi hok), fun k hm => ?_, fun k hm => ?_, hb, ?_, ?_⟩
  · rw [a]
    exact putAll_mem hm
  · rw [a, putAll_ne hm, hk.eq_acc]
  · exact (hw.after_keeps hk).after_keeps (strikeAccs_keeps s c)
  · have hkeep := (maltAct_keeps (vs := [.cs, .mbox, .acc, .engines, .busy, .words, .service, .stores, .tens, .counters, .fabric, .mgmt, .power, .upsets, .fresh])
      (Keeps.refl _ _) (by decide)).getOk hok
    exact ((strikeAccs_keeps s c).mono (by decide)).trans (hkeep.mono (by decide))

/-- Settles O10: a product alone, a pair of them and an alternating pair, each by what its results, reads and broadcast leave. -/
theorem matrixProducts : Obligations.MatrixProducts := ⟨product_runs, pair_runs, alternating_runs⟩

end Sys2Proof.Machine
end

section
/-! SUPPORT. A merge entry of HBM whose word lies on a stack past the eight: its stack's count of merges is, by its number, a tenancy's
count of blanks (12 R317; 09 R242; 20, Counter blocks). -/

namespace Sys2Proof.Machine

open Sys2Proof Sys2Proof.Claims

set_option Elab.async false

/-- A quiet job before the boundary to course 4, for which a blank of cause 3 is pending. -/
def blankAhead : State := Tests.chip (fun n => { n with course := { n.course with pending := [⟨4, 3, false⟩] } })

/-- The first word of stack 208. -/
def strayKey : Nat := 208 * stackWords

/-- The same with a merge entry open on that word, which time that passes writes out. -/
def strayMerge : State :=
  { blankAhead with hbm := { blankAhead.hbm with merges := [(strayKey, { closes := some 0, word := ⟨0, 0⟩ })] } }

/-- The merges of stack 208 and the blanks of tenancy 0 have one counter. -/
theorem strayKey_counter : stackOff (strayKey / stackWords) 0x18 = tenOff 0 0x2018 := by decide

theorem strayMerge_quiet : quiet 0 Tests.cool strayMerge := Tests.quiet_of _ (by decide +kernel)

/-- Tenancy 0's count of blanks in an answer's state. -/
def blanksIn (o : Answer) : BitVec 64 :=
  match o with
  | .next t => t.counter (tenOff 0 0x2018)
  | _ => 0

/-- The boundary leaves that counter at two: one of the blank and one of the merge entry written out. -/
theorem strayMerge_counts : blanksIn (exec (.courseBoundary Tests.cool) strayMerge) = 2 := by decide +kernel

theorem strayMerge_before : strayMerge.counter (tenOff 0 0x2018) = 0 := by decide +kernel

/-- Refutes O60: nothing in the statement holds the merge entries of HBM to its eight stacks. The time that passes to the boundary
writes out an entry of stack 208 and counts it in the counter that the blank counts in, which so rises by two and not by one. -/
theorem not_courseBoundaries : ¬ Obligations.CourseBoundaries := by
  unfold Obligations.CourseBoundaries
  intro h
  obtain ⟨-, hon⟩ := h Tests.cool strayMerge
  obtain ⟨-, hquiet⟩ := hon (by decide +kernel) (by decide +kernel)
  obtain ⟨hblank, -⟩ := hquiet 0 strayMerge_quiet
  obtain ⟨t, ht, ⟨-, -, -, -, -, hcount⟩, -⟩ := hblank (by decide +kernel) ⟨4, 3, false⟩ (by decide +kernel) (by decide +kernel)
  have hone : t.counter (tenOff 0 0x2018) = 1 := Eq.trans hcount (by
    rw [show strayMerge.counter (tenOff (0 : Ten).val 0x2018) = 0 from strayMerge_before]
    decide)
  have htwo := strayMerge_counts
  rw [ht] at htwo
  exact absurd (hone.symm.trans htwo) (by decide)

end Sys2Proof.Machine
end
